-- ==== Sys2Proof/Word.lean ====
section
/-! DEFINITION. The word and byte types of the device (00_scope.md R2: bit 0 is the least significant bit), and the type
of a sparse store: a list of (key, value) pairs in one canonical form. -/

namespace Sys2Proof

/-- A control-core register, and every 64-bit CSR (05_control_core.md R106, R108). -/
abbrev Word := BitVec 64

/-- The unit in which memory is addressed. -/
abbrev Byte := BitVec 8

/-- An instruction word of a control core or a patch word of an engine stream (03_encodings.md R43, R57). -/
abbrev Word32 := BitVec 32

/-- A pattern of an engine (03_encodings.md R50). -/
abbrev Pattern := BitVec 128

/-- A layout record held in a handle, 64 bytes, byte 0 in bits 7..0 (06_registers.md R142). -/
abbrev Layout := BitVec 512

/-- Keys with values of w bits. A key that is not listed holds zero; the canonical form has keys strictly rising and lists
no zero. -/
abbrev Sparse (w : Nat) := List (Nat × BitVec w)

end Sys2Proof
end

