-- ==== Sys2Proof/Syntax.lean ====
section
/-! DEFINITION. The syntax of the Fjomond 9: operand types, records, and Instr, one constructor for each row of
spec/opcode_table.json. Words, patterns and records carry the fields that their encoding gives; an event carries what names
the unit that steps, the packet that arrives, or the choice the spec leaves to the device. -/

namespace Sys2Proof

/-! ### Operands of control-core words and patch words -/

/-- The four engines, in ring order (07_queues.md R169). -/
inductive Engine where
  | ld | mx | vx | st
  deriving DecidableEq, Repr

/-- A register field of a control-core word: x0 to x31 (03_encodings.md R43). -/
abbrev Reg := Fin 32

/-- An ordering class (03_encodings.md R50). -/
abbrev Cls := Fin 16

/-- A scope field (03_encodings.md R44). -/
inductive Scope where
  | job | core | die | device | system
  deriving DecidableEq, Repr

/-- The access width of CM and CA words: 1, 2, 4 or 8 bytes (03_encodings.md R43). -/
inductive Size where
  | b | h | w | d
  deriving DecidableEq, Repr

/-- The engine mask of PUSH, LTRIM and STRT (07_queues.md R166). -/
structure EngMask where
  ld : Bool
  mx : Bool
  vx : Bool
  st : Bool
  deriving DecidableEq, Repr

/-- The kind of a barrier (11_sync.md R247). -/
inductive BarKind where
  | core | die | device
  deriving DecidableEq, Repr

/-- A sync operand that names a barrier (03_encodings.md R49). -/
structure BarOp where
  kind : BarKind
  idx : Fin 128
  deriving DecidableEq, Repr

/-- A sync operand that names a tub: of the scratchpad, or of memory (03_encodings.md R49). -/
structure TubOp where
  mem : Bool
  idx : Fin 128
  deriving DecidableEq, Repr

/-- The order field of CAS (05_control_core.md R122). -/
inductive CasOrd where
  | rlx | acq | rel | acqrel
  deriving DecidableEq, Repr

/-- The field selectors of HSET and HGET (06_registers.md R153). -/
inductive HField where
  | kind | flags | fmt | rank | ext0 | ext1 | ext2 | ext3 | str0 | str1 | str2 | str3 | base | aux1 | aux2 | params
  deriving DecidableEq, Repr

/-- The token bits of ISSUE and WIDE (03_encodings.md R57). -/
structure Toks where
  wf : Bool
  wb : Bool
  sf : Bool
  sb : Bool
  deriving DecidableEq, Repr

/-! ### Operands of patterns -/

/-- Format codes 0 to 14 (02_numbers.md R13); code 15 is reserved. -/
inductive Fmt where
  | fp32 | bf16 | fp16 | e4m3 | e5m2 | e2m1s | int32 | int16 | int8 | uint8 | int4 | uint32 | uint16 | mxint8 | e8m0
  deriving DecidableEq, Repr

/-- Rounding modes 0 to 5 (02_numbers.md R22). -/
inductive RMode where
  | rne | rtz | rdn | rup | rna | sr
  deriving DecidableEq, Repr

/-- A slot that names a register, a broadcast or none (03_encodings.md R51). -/
inductive RegSlot where
  | main (i : Fin 128)
  | opnd (i : Fin 32)
  | last (i : Fin 4)
  | shape (i : Fin 32)
  | imm (v : BitVec 12)
  | none
  deriving DecidableEq, Repr

/-- An element-count slot: an immediate or a shape register (03_encodings.md R52). -/
inductive Count where
  | imm (n : Fin 32768)
  | shape (i : Fin 32)
  deriving DecidableEq, Repr

/-- The plane origin of LDT, STT and STQ (06_registers.md R154). -/
inductive Plane where
  | imm (n : Fin 2048)
  | shape (i : Fin 32)
  deriving DecidableEq, Repr

/-- The header fields every pattern carries beside its opcode: ordering class and S (03_encodings.md R50). -/
structure Hdr where
  cls : Cls
  sat : Bool
  deriving DecidableEq, Repr

/-- The slots of a VX operation (03_encodings.md R53, 08_vector.md R189). Slot 3 is c, or the mode slot that the constructor
carries beside this record. -/
structure VOp where
  hdr : Hdr
  d : RegSlot
  a : RegSlot
  b : RegSlot
  c : RegSlot
  n : Count
  df : Fmt
  sf : Fmt
  rm : RMode
  rnd : RegSlot
  deriving DecidableEq, Repr

/-- VCMP conditions (08_vector.md R190). -/
inductive VCond where
  | eq | ne | lt | le | gt | ge | un | nun
  deriving DecidableEq, Repr

/-- The ops of VRED, VSCAN and VSEGR (08_vector.md R193). -/
inductive RedOp where
  | sum | max | min | amax | amin | and | or | cnt
  deriving DecidableEq, Repr

/-- The kinds of VTREE with the digit number of DIG (08_vector.md R202). -/
inductive TreeKind where
  | lev
  | par
  | dig (j : Fin 8)
  | anc
  deriving DecidableEq, Repr

/-- The (N, M) pairs of pruning (06_registers.md R147, 08_vector.md R199). -/
inductive Prune where
  | n2m4 | n1m4 | n4m8
  deriving DecidableEq, Repr

/-- Mask modes of the matrix array (09_matrix.md R214). -/
inductive MaskMode where
  | none | seg | segc
  deriving DecidableEq, Repr

/-- Fill codes of MACR and MMAD; code 3 carries its FP32 value (09_matrix.md R216). -/
inductive Fill where
  | none
  | ninf
  | zero
  | val (v : BitVec 32)
  deriving DecidableEq, Repr

structure MlbOp where
  hdr : Hdr
  h : Fin 16
  bank : Bool
  src : RegSlot
  org : Count
  n : Count
  k : Count
  fmt : Fmt
  lane : Count
  deriving DecidableEq, Repr

structure MmaOp where
  hdr : Hdr
  h : Fin 16
  bank : Bool
  mask : MaskMode
  src : RegSlot
  org : Count
  m : Count
  k : Count
  fmt : Fmt
  base : Fin 256
  lane : Count
  deriving DecidableEq, Repr

structure MmbOp where
  hdr : Hdr
  h : Fin 16
  bank : Bool
  mask : MaskMode
  src : RegSlot
  org : Count
  m : Count
  k : Count
  fmt : Fmt
  lane : Count
  deriving DecidableEq, Repr

structure MsaOp where
  hdr : Hdr
  ra : RegSlot
  rb : RegSlot
  m : Count
  k : Count
  n : Count
  base : Fin 256
  deriving DecidableEq, Repr

structure MaczOp where
  hdr : Hdr
  base : Fin 256
  bpf : Bool
  m : Count
  deriving DecidableEq, Repr

/-- MACR and MACW. int: the accumulators are read or written as INT32. MACW carries fill none. -/
structure MacOp where
  hdr : Hdr
  reg : RegSlot
  base : Fin 256
  fill : Fill
  int : Bool
  m : Count
  n : Count
  fmt : Fmt
  rm : RMode
  deriving DecidableEq, Repr

structure MmadOp where
  hdr : Hdr
  rel : Bool
  ha : Fin 16
  hb : Fin 16
  hc : Fin 16
  mask : MaskMode
  fill : Fill
  m : Count
  n : Count
  k : Count
  cf : Fmt
  af : Fmt
  bf : Fmt
  rm : RMode
  acc : Bool
  deriving DecidableEq, Repr

/-- LDT, STT and STQ (06_registers.md R154, R156). scales: part 1. -/
structure TileOp where
  hdr : Hdr
  reg : RegSlot
  h : Fin 16
  plane : Plane
  row : Count
  col : Count
  tr : Count
  tc : Count
  fr : Fmt
  rm : RMode
  scales : Bool
  deriving DecidableEq, Repr

/-- LDV and STV; LDB adds its repeats q (06_registers.md R157). -/
structure LinOp where
  hdr : Hdr
  reg : RegSlot
  h : Fin 16
  start : Count
  n : Count
  fr : Fmt
  rm : RMode
  scales : Bool
  deriving DecidableEq, Repr

/-- LDG, STS and STA (06_registers.md R158). -/
structure IdxOp where
  hdr : Hdr
  reg : RegSlot
  h : Fin 16
  idx : RegSlot
  n : Count
  fr : Fmt
  rm : RMode
  scales : Bool
  deriving DecidableEq, Repr

structure LdzOp where
  hdr : Hdr
  reg : RegSlot
  h : Fin 16
  n : Count
  deriving DecidableEq, Repr

/-! ### Transfer records, command blocks, collective descriptors -/

/-- The poison policy of a page, a record or a block (13_memory.md R293). -/
inductive Poison where
  | trap | zero | pass
  deriving DecidableEq, Repr

/-- The reducing operation of RED, SCA and the wringer (12_copy_index.md R269). -/
inductive ROp where
  | add | max | min
  deriving DecidableEq, Repr

/-- The formats of reductions: codes 0, 1, 2 and 6 (12_copy_index.md R269). -/
inductive RFmt where
  | fp32 | bf16 | fp16 | int32
  deriving DecidableEq, Repr

/-- The common fields of a transfer record whose OWN is 1 (12_copy_index.md R264). -/
structure RecHead where
  cls : Cls
  scope : Scope
  wm : Bool
  poison : Poison
  srcsp : Bool
  dstsp : Bool
  bar : Option BarOp
  sjref : BitVec 16
  djref : BitVec 16
  next : Word
  src : Word
  dst : Word
  prog : BitVec 48
  npoi : BitVec 16
  deriving DecidableEq, Repr

/-- A counter of AFF and RED (12_copy_index.md R268). -/
structure WalkCtr where
  count : BitVec 16
  sstr : BitVec 32
  dstr : BitVec 32
  deriving DecidableEq, Repr

/-- The walk of AFF and RED: element size 1 to 256 and six counters, counter 0 fastest. -/
structure Walk where
  esize : BitVec 16
  c0 : WalkCtr
  c1 : WalkCtr
  c2 : WalkCtr
  c3 : WalkCtr
  c4 : WalkCtr
  c5 : WalkCtr
  deriving DecidableEq, Repr

/-- The fields of an index-engine command block that its operation does not add (12_copy_index.md R282). countReg: COUNT
names a shape register. -/
structure BlockHead where
  cls : Cls
  scope : Scope
  poison : Poison
  tsp : Bool
  dsp : Bool
  isp : Bool
  countReg : Bool
  bar : Option BarOp
  djref : BitVec 16
  table : Word
  index : Word
  data : Word
  count : BitVec 32
  rowBytes : BitVec 32
  status : Word
  ntab : BitVec 32
  deriving DecidableEq, Repr

/-- The participant sets of a collective (16_fabric.md R350, R351). -/
inductive Parts where
  | row
  | column
  | rect (r0 c0 r1 c1 : Fin 16)
  | list (addr : Word)
  deriving DecidableEq, Repr

/-- The fields of a collective descriptor that its operation does not add (16_fabric.md R351). -/
structure DescHead where
  parts : Parts
  cls : Cls
  bar : Option BarOp
  tag : BitVec 16
  count : BitVec 32
  rcap : BitVec 32
  send : Word
  recv : Word
  status : Word
  deriving DecidableEq, Repr

/-! ### Units, packets and arguments of events -/

/-- A stream of a job: the control stream or an engine stream. -/
inductive StreamRef where
  | ctl
  | eng (e : Engine)
  deriving DecidableEq, Repr

/-- A physical barrier (11_sync.md R247). -/
inductive BarId where
  | core (core idx : Nat)
  | die (die idx : Nat)
  | device (idx : Nat)
  deriving DecidableEq, Repr

/-- A tub: the j-th scratchpad tub of a job, or a memory tub of a die (11_sync.md R256). -/
inductive TubId where
  | spad (job idx : Nat)
  | mem (die idx : Nat)
  deriving DecidableEq, Repr

/-- What an access does, as ACCESS of a fault record (13_memory.md R299). -/
inductive Access where
  | read | write | atomic | fetch
  deriving DecidableEq, Repr

/-- A job expanded from a tile record: its ARG, its rows (sN) and its first row (sN+1) (04_jobs.md R82). -/
structure TileJob where
  arg : Word
  rows : BitVec 32
  off : BitVec 32
  deriving DecidableEq, Repr

/-- What a participant of a collective submits (16_fabric.md R350 to R353): the number of the submission among those of its tag, its
descriptor, the devices of its participant set in index order, its A2AV send counts, and, once the checks have passed, its SEND
elements (an ARGN pair is one doubleword). The spec gives wringer packets no layout, so the packet carries this data itself (log
entry 17). -/
structure PeerPart where
  num : Nat
  desc : BitVec 512
  members : List (BitVec 8)
  cntv : List Nat
  send : Option (List Word)
  deriving DecidableEq, Repr

/-- What a request of the fabric asks for (16_fabric.md R343). A launch message holds its queue, the record with its address, the
resolved counts, tile jobs and skip count, and the indices that its group has in the levels replicated so far, the topmost first
(04_jobs.md R85). bad: the data come from a poisoned line under PASS (12_copy_index.md R280). nibble: one half of a byte
(06_registers.md R161). scatterAdd: one element of STA, the register element in its own format (R158). -/
inductive ReqOp where
  | load
  | store (data : List Byte) (bad : Bool)
  | nibble (high : Bool) (v : BitVec 4)
  | amo (op : Fin 8) (opnd : Word)
  | cas (new cmp : Word) (ord : BitVec 3)
  | reduce (op : ROp) (fmt : RFmt) (mode : RMode) (sat : Bool) (data : List Byte) (bad : Bool)
  | scatterAdd (mem reg : Fmt) (mode : RMode) (sat : Bool) (v : BitVec 64)
  | launch (queue : Nat) (addr : Word) (rec : List Byte) (counts : List Nat) (tiles : List TileJob) (skips : Nat) (idx : List Nat)
  | wringer (tag : BitVec 16) (part : PeerPart)
  deriving DecidableEq, Repr

/-- A request packet (16_fabric.md R343). size is the byte count of a load. -/
structure Request where
  op : ReqOp
  cls : Cls
  poison : Poison
  ddr : Bool
  detoured : Bool
  src : BitVec 8
  tgt : BitVec 8
  seq : BitVec 32
  ackb : BitVec 32
  asid : BitVec 16
  party : BitVec 16
  pa : Nat
  size : Nat
  epoch : BitVec 32
  deriving DecidableEq, Repr

/-- A response packet (16_fabric.md R343): status, 8-byte result, and the data of a load. -/
structure Response where
  status : BitVec 8
  src : BitVec 8
  tgt : BitVec 8
  seq : BitVec 32
  result : Word
  data : List Byte
  poisoned : Bool
  deriving DecidableEq, Repr

/-- A flit: 64 bytes of payload and 8 bytes of control (16_fabric.md R341). -/
structure Flit where
  payload : BitVec 512
  ctl : BitVec 64
  deriving DecidableEq, Repr

/-- Where a placed job goes: core, control core, the first offset of its region, and the physical indices of its own
(not level) barriers (04_jobs.md R85, 10_scratchpad.md R231). -/
structure Seat where
  core : Nat
  cc : Bool
  spbase : Nat
  cbar : List Nat
  dbar : List Nat
  gbar : List Nat
  deriving DecidableEq, Repr

/-- Where a basket lies in HBM, and where its state area and its image lie in it (15_traps.md R332). -/
structure BasketPlace where
  addr : Nat
  stOff : Nat
  imgOff : Nat
  deriving DecidableEq, Repr

/-- A log of a basket: its offset, and the most entries that it holds (R332). -/
structure LogArea where
  off : Nat
  max : Nat
  deriving DecidableEq, Repr

/-- Where Dvorol allots a basket in HBM, and the offsets and the limits that its header names (15_traps.md R332). -/
structure BasketArgs where
  addr : Nat
  stOff : Nat
  imgOff : Nat
  logOff : Nat
  logMax : Nat
  fltOff : Nat
  fltMax : Nat
  deriving DecidableEq, Repr

/-- What a CONTEXT command gives a context (13_memory.md R289, 18_host.md R381). quotas: HBM bytes, DDR-5 bytes, resident
jobs, graphs. classes: launch queues with the priority classes that Dvorol sets for them (04_jobs.md R83). -/
structure CtxArgs where
  asid : BitVec 16
  classes : List (Fin 16 × Fin 4)
  root : Nat
  rootDdr : Bool
  queues : List Nat
  dbars : List (Nat × Nat)
  gbars : List Nat
  tubs : List (Nat × Nat)
  quotaHbm : Nat
  quotaDdr : Nat
  quotaJobs : Nat
  quotaGraphs : Nat
  ring : Nat
  deriving DecidableEq, Repr

/-- What the partner at a port reports when the port trains (18_host.md R385): its coordinate, and its Rn - 1 and Cn - 1. -/
structure PortIn where
  port : Nat
  row : Fin 16
  col : Fin 16
  rows : Fin 16
  cols : Fin 16
  deriving DecidableEq, Repr

/-- What a device reset finds (18_host.md R383 to R385): straps, trained DDR-5 capacity, the ports that train with what their partners
report, the patch table as read, and the step at which bring-up fails (0: none). -/
structure ResetIn where
  row : Fin 16
  col : Fin 16
  rows : Fin 16
  cols : Fin 16
  ddrBytes : Nat
  ports : List PortIn
  patch : List Byte
  failAt : Nat
  deriving DecidableEq, Repr

/-- The answers of RESOLVE (18_host.md R381). restartUnits, endUnits: for the units of a context that act for no job (13_memory.md
R295, R399). -/
inductive Resolve where
  | resume | restart | endContext
  | restartUnits (asid : BitVec 16)
  | endUnits (asid : BitVec 16)
  deriving DecidableEq, Repr

/-! ### Instructions -/

/-- One constructor for each row of spec/opcode_table.json: first the rows that a word, a pattern, a record, a block or a
descriptor holds, then the events, each in the table's order. -/
inductive Instr where
  -- integer instructions (05_control_core.md R112 to R114)
  | add (d a b : Reg)
  | sub (d a b : Reg)
  | mul (d a b : Reg)
  | mulh (d a b : Reg)
  | mulhu (d a b : Reg)
  | div (d a b : Reg)
  | divu (d a b : Reg)
  | rem (d a b : Reg)
  | remu (d a b : Reg)
  | and (d a b : Reg)
  | or (d a b : Reg)
  | xor (d a b : Reg)
  | shl (d a b : Reg)
  | shr (d a b : Reg)
  | sra (d a b : Reg)
  | min (d a b : Reg)
  | max (d a b : Reg)
  | minu (d a b : Reg)
  | maxu (d a b : Reg)
  | slt (d a b : Reg)
  | sltu (d a b : Reg)
  | clz (d a : Reg)
  | popc (d a : Reg)
  | sel (d a b : Reg)
  | addi (d a : Reg) (i : BitVec 15)
  | andi (d a : Reg) (i : BitVec 15)
  | ori (d a : Reg) (i : BitVec 15)
  | xori (d a : Reg) (i : BitVec 15)
  | shli (d a : Reg) (n : Fin 64)
  | shri (d a : Reg) (n : Fin 64)
  | srai (d a : Reg) (n : Fin 64)
  | slti (d a : Reg) (i : BitVec 15)
  | lih (d : Reg) (i : BitVec 20)
  | lsh (d : Reg) (u : BitVec 20)
  -- branches and jumps (R115, R116)
  | beq (a b : Reg) (o : BitVec 15)
  | bne (a b : Reg) (o : BitVec 15)
  | blt (a b : Reg) (o : BitVec 15)
  | bge (a b : Reg) (o : BitVec 15)
  | bltu (a b : Reg) (o : BitVec 15)
  | bgeu (a b : Reg) (o : BitVec 15)
  | jal (d : Reg) (o : BitVec 20)
  | jalr (d a : Reg) (i : BitVec 15)
  -- loads, stores, atomics (R117 to R122)
  | ld (d a : Reg) (c : Cls) (s : Size) (o : BitVec 9)
  | ldu (d a : Reg) (c : Cls) (s : Size) (o : BitVec 9)
  | st (d a : Reg) (c : Cls) (s : Size) (o : BitVec 9)
  | lda (d a : Reg) (s : Size) (c : Cls) (p : Scope)
  | stl (d a : Reg) (s : Size) (c : Cls) (p : Scope)
  | amoSwap (d a b : Reg) (c : Cls) (p : Scope)
  | amoAdd (d a b : Reg) (c : Cls) (p : Scope)
  | amoAnd (d a b : Reg) (c : Cls) (p : Scope)
  | amoOr (d a b : Reg) (c : Cls) (p : Scope)
  | amoXor (d a b : Reg) (c : Cls) (p : Scope)
  | amoMin (d a b : Reg) (c : Cls) (p : Scope)
  | amoMax (d a b : Reg) (c : Cls) (p : Scope)
  | amoMaxu (d a b : Reg) (c : Cls) (p : Scope)
  | amoaSwap (d a b : Reg) (c : Cls) (p : Scope)
  | amoaAdd (d a b : Reg) (c : Cls) (p : Scope)
  | amoaAnd (d a b : Reg) (c : Cls) (p : Scope)
  | amoaOr (d a b : Reg) (c : Cls) (p : Scope)
  | amoaXor (d a b : Reg) (c : Cls) (p : Scope)
  | amoaMin (d a b : Reg) (c : Cls) (p : Scope)
  | amoaMax (d a b : Reg) (c : Cls) (p : Scope)
  | amoaMaxu (d a b : Reg) (c : Cls) (p : Scope)
  | amolSwap (d a b : Reg) (c : Cls) (p : Scope)
  | amolAdd (d a b : Reg) (c : Cls) (p : Scope)
  | amolAnd (d a b : Reg) (c : Cls) (p : Scope)
  | amolOr (d a b : Reg) (c : Cls) (p : Scope)
  | amolXor (d a b : Reg) (c : Cls) (p : Scope)
  | amolMin (d a b : Reg) (c : Cls) (p : Scope)
  | amolMax (d a b : Reg) (c : Cls) (p : Scope)
  | amolMaxu (d a b : Reg) (c : Cls) (p : Scope)
  | amoalSwap (d a b : Reg) (c : Cls) (p : Scope)
  | amoalAdd (d a b : Reg) (c : Cls) (p : Scope)
  | amoalAnd (d a b : Reg) (c : Cls) (p : Scope)
  | amoalOr (d a b : Reg) (c : Cls) (p : Scope)
  | amoalXor (d a b : Reg) (c : Cls) (p : Scope)
  | amoalMin (d a b : Reg) (c : Cls) (p : Scope)
  | amoalMax (d a b : Reg) (c : Cls) (p : Scope)
  | amoalMaxu (d a b : Reg) (c : Cls) (p : Scope)
  | cas (d a b : Reg) (o : CasOrd) (c : Cls) (p : Scope)
  -- fences and waits on a word (14_ordering.md R308, R125)
  | fenceAcq (m : BitVec 16) (p : Scope)
  | fenceRel (m : BitVec 16) (p : Scope)
  | fenceFull (m : BitVec 16) (p : Scope)
  | waitaEq (d a b : Reg) (c : Cls)
  | waitaNe (d a b : Reg) (c : Cls)
  -- queues, shape registers, handles (07_queues.md, 06_registers.md)
  | push (m : EngMask) (a : Reg)
  | popr (d : Reg)
  | qcut (a : Reg)
  | ltrim (m : EngMask) (a : Reg)
  | sets (n : Fin 32) (a : Reg)
  | gets (d : Reg) (n : Fin 32)
  | hld (n : Fin 16) (a : Reg) (c : Cls) (o : BitVec 9)
  | hst (n : Fin 16) (a : Reg) (c : Cls) (o : BitVec 9)
  | hset (n : Fin 16) (a : Reg) (s : HField)
  | hget (d : Reg) (n : Fin 16) (s : HField)
  -- barriers, mailboxes, tubs (11_sync.md, R126 to R129)
  | bari (a : Reg) (o : BarOp)
  | barv (a : Reg) (o : BarOp)
  | barvBare (o : BarOp)
  | barx (a : Reg) (o : BarOp)
  | barw (p : Bool) (o : BarOp)
  | mbs (a : Reg) (m : Bool)
  | mbr (d : Reg) (m : Bool)
  | tubset (a : Reg) (o : TubOp)
  | tubarmOn (o : TubOp)
  | tubarmOff (o : TubOp)
  -- spool and basting (10_scratchpad.md)
  | spa (d a : Reg)
  | spra (d a : Reg)
  | spf (a : Reg)
  | sprst (a : Reg)
  | specb (p : Fin 4)
  | specc (p : Fin 4)
  | speca (p : Fin 4)
  -- copy channels, index engine, Darn, wringer (12_copy_index.md, 17_generation.md, 16_fabric.md)
  | chain (a : Reg) (n : Fin 8)
  | cpyx (d a b : Reg) (k : Cls) (n : Fin 8)
  | cwait (a : Reg) (n : Fin 8)
  | ixc (a : Reg)
  | darnRank (d a : Reg)
  | darnCommit (d a : Reg)
  | darnStain (d a : Reg)
  | darnList (d a : Reg)
  | darnClear (d a : Reg)
  | wrng (a : Reg)
  -- streams, launches, traps, CSRs (04_jobs.md, 15_traps.md, R130 to R132)
  | strt (m : EngMask) (a : Reg)
  | join
  | launch (a b : Reg)
  | yield
  | trap (i : BitVec 14)
  | tfence
  | eret
  | esc
  | csrr (d : Reg) (c : BitVec 12)
  | csrw (a : Reg) (c : BitVec 12)
  | nop
  | cycle (d : Reg)
  | unassignedMajor (w : Word32)
  -- patch words (03_encodings.md R58, R62)
  | issue (t : Toks) (p : Fin 64) (f : Fin 8) (v : BitVec 16)
  | amend (p : Fin 64) (f : Fin 8) (v : BitVec 16)
  | wide (t : Toks) (p : Fin 64) (f : Fin 8) (u : Word32)
  | loopImm (s : Fin 4) (n : BitVec 16)
  | loopReg (s : Fin 4) (r : Fin 32)
  | endl
  | stop
  | rdv
  | bwt (p : Bool) (o : BarOp)
  | bav (c : BitVec 10) (o : BarOp)
  | patl (p : Fin 64) (n : Fin 64) (g : Fin 64)
  | toks (q : Bool) (n : Fin 16)
  | pred (s : Fin 4)
  -- the vector engine (08_vector.md)
  | vadd (o : VOp)
  | vsub (o : VOp)
  | vmul (o : VOp)
  | vfma (o : VOp)
  | vfms (o : VOp)
  | vmax (o : VOp)
  | vmin (o : VOp)
  | vabs (o : VOp)
  | vneg (o : VOp)
  | vcmp (o : VOp) (k : VCond)
  | vsel (o : VOp)
  | vcvt (o : VOp)
  | vqnt (o : VOp)
  | vdqnt (o : VOp)
  | vscl (o : VOp)
  | vexp2 (o : VOp)
  | vlog2 (o : VOp)
  | vrcp (o : VOp)
  | vrsq (o : VOp)
  | vsqrt (o : VOp)
  | vdiv (o : VOp)
  | viadd (o : VOp)
  | visub (o : VOp)
  | vimul (o : VOp)
  | vand (o : VOp)
  | vor (o : VOp)
  | vxor (o : VOp)
  | vshl (o : VOp)
  | vshr (o : VOp)
  | vsra (o : VOp)
  | vimax (o : VOp)
  | vimin (o : VOp)
  | vmov (o : VOp)
  | vbc (o : VOp) (k : Count)
  | viota (o : VOp)
  | vred (o : VOp) (op : RedOp)
  | vscan (o : VOp) (op : RedOp) (excl : Bool)
  | vsegr (o : VOp) (op : RedOp)
  | vperm (o : VOp)
  | vpack (o : VOp)
  | vunpk (o : VOp)
  | vpart (o : VOp)
  | vrank (o : VOp) (pos : Bool)
  | vprune (o : VOp) (p : Prune)
  | vrng (o : VOp)
  | vgumb (o : VOp)
  | vtree (o : VOp) (k : TreeKind) (h : Fin 16)
  | vlut (o : VOp)
  | vpost (o : VOp)
  -- the matrix array (09_matrix.md)
  | mlb (o : MlbOp)
  | mma (o : MmaOp)
  | mmb (o : MmbOp)
  | msa (o : MsaOp)
  | macz (o : MaczOp)
  | macr (o : MacOp)
  | macw (o : MacOp)
  | mmad (o : MmadOp)
  -- load and store engines (06_registers.md R154 to R162)
  | ldt (o : TileOp)
  | ldv (o : LinOp)
  | ldb (o : LinOp) (q : Count)
  | ldg (o : IdxOp)
  | ldz (o : LdzOp)
  | stt (o : TileOp)
  | stv (o : LinOp)
  | sts (o : IdxOp)
  | sta (o : IdxOp)
  | stq (o : TileOp)
  -- copy channels and the index engine (12_copy_index.md)
  | aff (r : RecHead) (w : Walk)
  | red (r : RecHead) (w : Walk) (op : ROp) (fmt : RFmt) (rm : RMode) (sat : Bool)
  | mcst (r : RecHead) (len : BitVec 32) (ndst : BitVec 16) (dlist : Word)
  | sig (r : RecHead) (value : Word)
  | pgt (r : RecHead) (p esize nimg : BitVec 16) (offs : Word)
  | skip (r : RecHead)
  | gth (b : BlockHead)
  | sct (b : BlockHead)
  | sca (b : BlockHead) (op : ROp) (fmt : RFmt)
  | cpt (b : BlockHead) (inplace : Bool) (stain : Word)
  -- the wringer (16_fabric.md R353 to R356)
  | allred (d : DescHead) (op : ROp) (fmt : RFmt)
  | redsc (d : DescHead) (op : ROp) (fmt : RFmt)
  | allgv (d : DescHead) (fmt : Fmt) (offs : Word)
  | a2av (d : DescHead) (fmt : Fmt) (cntv offs : Word)
  | bcast (d : DescHead) (fmt : Fmt) (root : BitVec 16)
  | argn (d : DescHead) (dies : Word)
  | fbar (d : DescHead)
  -- words that raise when decoded (03_encodings.md R48, R59)
  | illegalInstr (eng : Bool) (w : Word32)
  | illegalPatch (w : Word32) (u : Option Word32)
  -- EVENTS: steps of units, packets and host actions, without an encoding
  -- fences and waits on a word (14_ordering.md R308, R125)
  | waitaWake (job : Nat)
  | waitaTimeout (job : Nat)
  -- barriers, mailboxes, tubs (11_sync.md, R126 to R129)
  | barrierWaitResume (job : Nat) (str : StreamRef)
  | tubFire (t : TubId)
  -- spool and basting (10_scratchpad.md)
  | spoolRelease (job : Nat)
  -- streams, launches, traps, CSRs (04_jobs.md, 15_traps.md, R130 to R132)
  | yieldTimeout (job : Nat)
  -- patch words (03_encodings.md R58, R62)
  | bavArrival (job : Nat) (e : Engine)
  -- engine events (07_queues.md R164, R170, R178; 09_matrix.md R209)
  | segmentStart (job : Nat) (e : Engine)
  | operationStart (job : Nat) (e : Engine)
  | siblingTakeover (job : Nat) (index : Bool)
  | altWindowChange (core : Nat)
  -- jobs, launches, graphs (04_jobs.md)
  | rendezvousComplete (job : Nat)
  | jobRetire (job : Nat)
  | enqueueResume (q : Fin 16)
  | launchPlace (places : List Seat)
  | jobStart (launch : Nat)
  | launchCompletion (launch : Nat)
  | jaileLaunchMessage (r : Request)
  | graphNodeJobs (asid : BitVec 16) (g node : Nat)
  | graphNodeCopy (asid : BitVec 16) (g node : Nat)
  | graphNodeCond (asid : BitVec 16) (g node : Nat)
  | graphNodeHost (asid : BitVec 16) (g node : Nat)
  | graphNodeWait (asid : BitVec 16) (g node : Nat)
  | graphNodeEnd (asid : BitVec 16) (g node : Nat)
  | graphNodeComplete (asid : BitVec 16) (g node : Nat)
  -- copy channels and the index engine (12_copy_index.md)
  | channelRecordFetch (core : Nat) (n : Fin 8)
  | recordCompletion (core : Nat) (n : Fin 8)
  | cpyxTransferComplete (core : Nat) (n : Fin 8)
  | indexBlockComplete (job : Nat)
  -- translation, banks, traps, pre-emption (13_memory.md, 10_scratchpad.md R244, 15_traps.md)
  | pageWalk (asid : BitVec 16) (va : Word) (acc : Access) (core : Nat) (stream : Nat)
  | bankWakeComplete (core bank : Nat)
  | trapDivert (job : Nat)
  | save (job : Nat) (place : BasketPlace) (log flt : LogArea)
  -- the fabric (16_fabric.md)
  | flitReceive (port : Nat) (f : Flit)
  | linkDown (port : Nat)
  | linkUp (port : Nat)
  | requestResend (tgt : BitVec 8) (seq : BitVec 32)
  | remoteLoad (r : Request)
  | remoteStore (r : Request)
  | remoteAmo (r : Request)
  | remoteCas (r : Request)
  | remoteReduce (r : Request)
  | wringerTraffic (r : Request)
  | response (r : Response)
  | resync (src : BitVec 8) (epoch : BitVec 32) (answer : Bool)
  | resyncResend (tgt : BitVec 8)
  -- the host interface (18_host.md)
  | qnotify (q : Fin 64) (v : Word)
  | qstateWrite (q : Fin 64)
  | rheadWrite (k : Fin 256) (v : Word)
  | registerWrite (off : Nat) (v : Word)
  | ringCoalesceTimeout (k : Fin 256)
  | contextCreate (c : CtxArgs)
  | contextDestroy (asid : BitVec 16)
  | mapWrite (asid : BitVec 16) (entries : List (Bool × Nat × Word))
  | mapInvalidate (asid : BitVec 16) (lo hi : Nat)
  | mapMigrate (asid : BitVec 16) (va : Nat) (toDdr : Bool) (pa : Nat)
  | mapPlaceBar2 (base : Nat)
  | modload (asid : BitVec 16) (va : Word)
  | launchCommand (asid : BitVec 16) (q : Nat) (va : Word)
  | graphLoad (asid : BitVec 16) (va : Word)
  | graphStart (asid : BitVec 16) (g : Nat)
  | graphQuery (asid : BitVec 16) (g : Nat)
  | preempt (launch : Nat)
  | preemptResume (launch : Nat) (places : List Seat)
  | query
  | link (write : Option (Nat × BitVec 256)) (port : Nat) (up : Bool)
  | power (state : Fin 4) (caps : List Nat)
  | errlog
  | measure (nonce : List Byte)
  | resolve (job : Nat) (ans : Resolve)
  | deviceReset (r : ResetIn)
  | barrierClock (b : BarId)
  | bankGating (core bank : Nat)
  deriving DecidableEq, Repr

end Sys2Proof
end

