-- ==== Sys2Proof/Config.lean ====
section
/-! DEFINITION. What an implementation fixes, and the values the spec leaves open. A free value is an opaque constant applied to
the counter freeCtr of the state or to the operands it depends on, so nothing can be proved about it. -/

namespace Sys2Proof.Config

/-- Bytes of a ring entry or of a result that the spec gives no layout (18_host.md R379, R381): DESIGN CHOICE, log entry 8. -/
opaque freeWord : Nat → Word

/-- What the ARGS of a command record ask of an opcode: none where a reserved argument is not zero. The spec gives ARGS no layout
(18_host.md R377, R381): log entry 8. -/
opaque commandOf : Nat → List Byte → Option Instr

/-- The ROM image and the fuse configuration that bring-up measures (R383, R386): log entry 9. -/
opaque romImage : List Byte
opaque fuses : List Byte

/-- The patch table in the module's flash where no event brings another, and what stands in one: its vendor key and its version, and
whether its Falcon-1024 signature verifies under a key (R383). -/
opaque flashTable : List Byte
opaque patchKey : List Byte → List Byte
opaque patchVersion : List Byte → Nat
opaque falconVerify : List Byte → List Byte → Bool

/-- The fused digest of the vendor key, and the fused minimum (R383), in a fuse configuration. -/
opaque fusedKey : List Byte → BitVec 512
opaque fusedMin : List Byte → Nat

/-- The Falcon-1024 signature of a report (R387), and the public identity key. -/
opaque signature : List Byte → List Byte
opaque identityKey : List Byte

/-- TVAL of a SHAPE_INVALID for which the spec names none (06_registers.md R148, R150): log entry 13. It depends on the layout
record of the handle. -/
opaque shapeVal : Layout → Word

/-- Cores of a compute die, compute dies, cores of the device (01_device.md R8). -/
def dieCores : Nat := 72
def dies : Nat := 4
def cores : Nat := 288

/-- Bytes of a scratchpad (10_scratchpad.md R230). -/
def spadBytes : Nat := 0x800000

/-- HBM addresses lie below 2 ^ 39 (13_memory.md R294). -/
def hbmBytes : Nat := 2 ^ 39

/-- The records of a fault queue (R298). -/
def faultQueue : Nat := 1024

/-- Requests without a response towards one target (16_fabric.md R344), and the lint window (R345). -/
def outLimit : Nat := 4096

end Sys2Proof.Config
end

