-- ==== Sys2Proof/WellFormed.lean ====
section
/-! DEFINITION. Which terms of Instr are well formed: exactly the operand values that the encodings of the spec admit and that
the operand types do not already bound. -/

namespace Sys2Proof

/-! ### Formats (02_numbers.md R13) -/

/-- The 4-bit code of a format. -/
def Fmt.code : Fmt → BitVec 4
  | .fp32 => 0 | .bf16 => 1 | .fp16 => 2 | .e4m3 => 3 | .e5m2 => 4 | .e2m1s => 5 | .int32 => 6 | .int16 => 7 | .int8 => 8
  | .uint8 => 9 | .int4 => 10 | .uint32 => 11 | .uint16 => 12 | .mxint8 => 13 | .e8m0 => 14

/-- Element bits. -/
def Fmt.bits : Fmt → Nat
  | .fp32 | .int32 | .uint32 => 32
  | .bf16 | .fp16 | .int16 | .uint16 => 16
  | .e4m3 | .e5m2 | .int8 | .uint8 | .mxint8 | .e8m0 => 8
  | .e2m1s | .int4 => 4

/-- The set F of 08_vector.md R188. -/
def Fmt.isFloat : Fmt → Bool
  | .fp32 | .bf16 | .fp16 | .e4m3 | .e5m2 => true
  | _ => false

/-- The set I of 08_vector.md R188. -/
def Fmt.isInt : Fmt → Bool
  | .int32 | .int16 | .int8 | .uint8 | .int4 | .uint32 | .uint16 => true
  | _ => false

/-- F or I. -/
def Fmt.isNum (f : Fmt) : Bool := f.isFloat || f.isInt

/-- The two block formats. -/
def Fmt.isBlock : Fmt → Bool
  | .e2m1s | .mxint8 => true
  | _ => false

/-! ### Register slots (03_encodings.md R51) -/

/-- The slot names a register. -/
def RegSlot.isReg : RegSlot → Bool
  | .main _ | .opnd _ | .last _ => true
  | _ => false

/-- The slot is a broadcast. -/
def RegSlot.isBcast : RegSlot → Bool
  | .shape _ | .imm _ => true
  | _ => false

/-- A register that an operation may write: main or operand (06_registers.md R136, 08_vector.md R184). -/
def RegSlot.isDest : RegSlot → Bool
  | .main _ | .opnd _ => true
  | _ => false

/-- A written register or none. -/
def RegSlot.destOrNone (r : RegSlot) : Bool := r.isDest || r == .none

/-- A register or none. -/
def RegSlot.regOrNone (r : RegSlot) : Bool := r.isReg || r == .none

/-- A source read in format f: a register, or a broadcast where R183 allows one. -/
def RegSlot.isSource (f : Fmt) (r : RegSlot) : Bool :=
  r.isReg || (r.isBcast && !f.isBlock && f != .e8m0)

/-! ### Operations of the vector engine -/

/-- What a source slot of a VX operation must hold (08_vector.md R183, R187 to R189). -/
inductive VRole where
  /-- unread: none -/
  | unread
  /-- a source of the source format -/
  | source
  /-- a UINT8 source of VSEL or VSCL -/
  | bytes
  /-- an index, mask, offsets, table or scale register -/
  | register
  /-- a second destination register -/
  | dest
  /-- a broadcast -/
  | bcast
  /-- the shape register of a VRNG key -/
  | key
  deriving DecidableEq, Repr

/-- The slot holds what its role asks for. -/
def VRole.ok (f : Fmt) : VRole → RegSlot → Bool
  | .unread, r => r == .none
  | .source, r => r.isSource f
  | .bytes, r => r.isReg || r.isBcast
  | .register, r => r.isReg
  | .dest, r => r.isDest
  | .bcast, r => r.isBcast
  | .key, .shape k => k.val ≤ 28
  | .key, _ => false

/-- The rounding field and slot 6 (08_vector.md R185). -/
def VOp.roundOk (rounds : Bool) (o : VOp) : Bool :=
  (if rounds then true else o.rm == .rne) && (if o.rm == .sr then o.rnd.isReg else o.rnd == .none)

/-- A VX operation whose slots hold the roles a, b and c, whose formats satisfy fmts, and which rounds or not. -/
def VOp.ok (o : VOp) (a b c : VRole) (fmts : Bool) (rounds : Bool) : Bool :=
  fmts && o.d.destOrNone && a.ok o.sf o.a && b.ok o.sf o.b && c.ok o.sf o.c && o.roundOk rounds &&
    (if b == .dest then o.b != o.d else true)

/-- Source and destination in F. -/
def VOp.ff (o : VOp) : Bool := o.sf.isFloat && o.df.isFloat
/-- Source and destination in I. -/
def VOp.ii (o : VOp) : Bool := o.sf.isInt && o.df.isInt
/-- Source in F or I, destination equal to it. -/
def VOp.same (o : VOp) : Bool := o.sf.isNum && o.df == o.sf
/-- Destination of the class of the source (08_vector.md R193). -/
def VOp.classed (o : VOp) : Bool := o.ff || o.ii

/-- The destination of an op of R193. -/
def RedOp.fmts (o : VOp) : RedOp → Bool
  | .sum | .max | .min => o.classed
  | .and | .or => o.ii
  | .amax | .amin | .cnt => o.sf.isNum && o.df == .uint32

/-- The ops that round (08_vector.md R189). -/
def RedOp.rounds : RedOp → Bool
  | .sum | .max | .min => true
  | _ => false

/-- The ops that VSCAN allows (08_vector.md R194). -/
def RedOp.scans : RedOp → Bool
  | .sum | .max | .min | .and | .or => true
  | _ => false

/-! ### Operations of the matrix array, LD and ST -/

/-- A pair of A and B formats of MMA and MMAD (09_matrix.md R207). -/
def mmaPair (a b : Fmt) : Bool :=
  ((a == .e4m3 || a == .e5m2) && (b == .e4m3 || b == .e5m2)) || (a == b && (a == .bf16 || a == .fp16 || a == .int8))

/-- A pair of A and B formats of MMB (R207). -/
def mmbPair (a b : Fmt) : Bool :=
  ((a == .e4m3 || a == .e5m2) && (b == .e4m3 || b == .e5m2)) || (a == b && (a == .e2m1s || a == .mxint8))

/-- A format that MACR, MACW and the C operand of MMAD take (R224, R225). -/
def Fmt.inMac (f : Fmt) : Bool := f != .e2m1s && f != .mxint8 && f != .e8m0

/-- A fill that integer accumulators take (R224). -/
def Fill.forInt : Fill → Bool
  | .none | .zero => true
  | _ => false

/-- The mode slot of LD and ST operations (06_registers.md R154, R155). -/
def modeOk (fr : Fmt) (rm : RMode) (scales : Bool) : Bool := rm != .sr && (!scales || fr == .uint8)

/-! ### Records, blocks and descriptors -/

/-- An address is a scratchpad offset in bits 23..0 where sp is set (12_copy_index.md R264). -/
def spOk (sp : Bool) (a : Word) : Bool := !sp || a.toNat < 2 ^ 24

/-- Element bytes of a reduction format. -/
def RFmt.bytes : RFmt → Nat
  | .fp32 | .int32 => 4
  | .bf16 | .fp16 => 2

/-- The common rules of a transfer record (R264). -/
def RecHead.wf (r : RecHead) : Bool :=
  r.next.toNat % 128 == 0 && spOk r.srcsp r.src && spOk r.dstsp r.dst

/-- The counters of a walk. -/
def Walk.counters (w : Walk) : List WalkCtr := [w.c0, w.c1, w.c2, w.c3, w.c4, w.c5]

/-- An element is 1 to 256 bytes (R268). -/
def Walk.wf (w : Walk) : Bool := 1 ≤ w.esize.toNat && w.esize.toNat ≤ 256

/-- ESIZE and strides are multiples of b bytes (R269). -/
def Walk.aligned (b : Nat) (w : Walk) : Bool :=
  w.esize.toNat % b == 0 && w.counters.all fun c => c.sstr.toNat % b == 0 && c.dstr.toNat % b == 0

/-- The common rules of a command block (R282). -/
def BlockHead.wf (b : BlockHead) : Bool :=
  spOk b.tsp b.table && spOk b.dsp b.data && spOk b.isp b.index &&
    (if b.countReg then b.count.toNat < 32 else b.count.toNat < 2 ^ 24) &&
    1 ≤ b.rowBytes.toNat && b.rowBytes.toNat ≤ 1048576 && b.status.toNat % 8 == 0

/-- The common rules of a collective descriptor (16_fabric.md R351). -/
def DescHead.wf (d : DescHead) : Bool := d.count.toNat < 2 ^ 31 && d.status.toNat % 16 == 0

/-- Formats of 8, 16 or 32 bits (R351). -/
def Fmt.moves (f : Fmt) : Bool := f.bits != 4

/-! ### Instructions -/

/-- The term is one that a word, a pattern, a record, a block or a descriptor of the spec can hold. Events are well formed. The node and ancestor
slots of VTREE, which 08_vector.md R183 does not list, may hold a broadcast (DESIGN CHOICE, log entry 65). -/
def Instr.wf : Instr → Bool
  | .push m _ | .ltrim m _ | .strt m _ => m.ld || m.mx || m.vx || m.st
  | .tubset _ _ => true
  | .amend _ f _ => f != 0
  | .issue _ _ f v => f != 0 || v == 0
  | .wide _ _ f _ => 2 ≤ f.val
  | .bav c _ => c != 0
  | .patl p n _ => p.val + (n.val + 1) ≤ 64
  | .toks _ n => n != 0
  -- the vector engine
  | .vadd o | .vsub o | .vmul o | .vmax o | .vmin o | .vdiv o => o.ok .source .source .unread o.ff true
  | .vfma o | .vfms o => o.ok .source .source .source o.ff true
  | .vabs o | .vneg o | .vexp2 o | .vlog2 o | .vrcp o | .vrsq o | .vsqrt o => o.ok .source .unread .unread o.ff true
  | .vcmp o _ => o.ok .source .source .unread (o.sf.isNum && o.df == .uint8) false
  | .vsel o => o.ok .source .source .bytes (o.sf.isNum && o.df.isNum) true
  | .vcvt o =>
    o.ok .source .unread .unread ((o.sf.isNum || o.sf == .e8m0) && (o.df.isNum || o.df == .e8m0)) true
  | .vqnt o =>
    o.ok .source (if o.df == .mxint8 then .dest else .unread) .unread (o.sf == .fp32 && o.df.isBlock) false
  | .vdqnt o =>
    o.ok .source (if o.sf == .mxint8 then .register else .unread) .unread
      (o.sf.isBlock && (o.df == .fp32 || o.df == .bf16 || o.df == .fp16)) true
  | .vscl o => o.ok .source .bytes .unread o.ff true
  | .viadd o | .visub o | .vimul o | .vand o | .vor o | .vxor o | .vshl o | .vshr o | .vsra o | .vimax o | .vimin o =>
    o.ok .source .source .unread o.ii false
  | .vmov o => o.ok .source .unread .unread (o.df == o.sf) false
  | .vbc o _ => o.ok .source .unread .unread o.same false
  | .viota o =>
    o.ok .bcast .bcast .unread ((o.sf == .int32 || o.sf == .uint32) && o.df.isNum) o.df.isFloat
  | .vred o op => o.ok .source .unread .unread (op.fmts o) op.rounds
  | .vscan o op _ => o.ok .source .unread .unread (op.scans && op.fmts o) op.rounds
  | .vsegr o op => o.ok .source .register .unread (op.fmts o) op.rounds
  | .vperm o | .vpack o | .vunpk o => o.ok .source .register .unread o.same false
  | .vpart o => o.ok .register .unread .unread (o.df == .uint32 && o.sf == .uint8) false
  | .vrank o _ => o.ok .source .unread .unread (o.sf.isNum && o.df == .uint32) false
  | .vprune o _ =>
    o.ok .source .dest .unread
      (o.df == o.sf && (o.sf.isFloat || o.sf == .int8 || o.sf == .int16 || o.sf == .int32)) false
  | .vrng o => o.ok .key .unread .unread (o.df == .uint32 && o.sf == .uint32) false
  | .vgumb o => o.ok .source .unread .unread (o.df == .fp32 && o.sf == .uint32) false
  | .vtree o k _ =>
    o.ok .source (if k == .anc then .source else .unread) .unread
      (o.sf == .uint32 && o.df == (if k == .anc then .uint8 else .uint32)) false
  | .vlut o =>
    o.ok .register .register .unread (o.df.isNum && (o.sf == .uint8 || o.sf == .uint16 || o.sf == .uint32)) false
  | .vpost o => o.ok .source .unread .unread o.same false && o.d == .none
  -- the matrix array
  | .mlb o =>
    o.src.regOrNone && (mmaPair o.fmt o.fmt || mmbPair o.fmt o.fmt)
  | .mma o => o.src.regOrNone && mmaPair o.fmt o.fmt
  | .mmb o => o.src.regOrNone && mmbPair o.fmt o.fmt
  | .msa o => o.ra.isReg && o.rb.isReg
  | .macz _ => true
  | .macr o => o.reg.isDest && o.fmt.inMac && o.rm != .sr && (!o.int || o.fill.forInt)
  | .macw o => o.reg.isReg && o.fmt.inMac && o.rm != .sr && o.fill == .none
  | .mmad o =>
    mmaPair o.af o.bf && o.cf.inMac && o.rm != .sr && (o.af != .int8 || o.fill.forInt) &&
      (!o.acc || o.cf == (if o.af == .int8 then .int32 else .fp32))
  -- LD and ST
  | .ldt o => o.reg.isDest && modeOk o.fr o.rm o.scales
  | .ldv o | .ldb o _ => o.reg.isDest && modeOk o.fr o.rm o.scales
  | .ldg o => o.reg.isDest && o.idx.isReg && modeOk o.fr o.rm o.scales
  | .ldz o => o.reg.destOrNone
  | .stt o => o.reg.isReg && modeOk o.fr o.rm o.scales
  | .stv o => o.reg.isReg && modeOk o.fr o.rm o.scales
  | .sts o | .sta o => o.reg.isReg && o.idx.isReg && modeOk o.fr o.rm o.scales
  | .stq o => o.reg.isReg && modeOk o.fr o.rm o.scales && o.fr == .fp32
  -- transfer records
  | .aff r w => r.wf && w.wf
  | .red r w _ f rm _ =>
    r.wf && w.wf && w.aligned f.bytes && r.dst.toNat % f.bytes == 0 && rm != .sr
  | .mcst r len ndst _ => r.wf && r.dst == 0 && !r.dstsp && 1 ≤ len.toNat && 1 ≤ ndst.toNat && ndst.toNat ≤ 16
  | .sig r _ => r.wf && r.src == 0 && !r.srcsp && r.dst.toNat % 8 == 0
  | .pgt r p e n _ =>
    r.wf && 1 ≤ p.toNat && p.toNat ≤ 64 && 1 ≤ e.toNat && e.toNat ≤ 256 && 1 ≤ n.toNat && n.toNat ≤ 4096
  | .skip r => r.wf && r.src == 0 && r.dst == 0
  -- command blocks
  | .gth b | .sct b => b.wf
  | .sca b _ f => b.wf && b.rowBytes.toNat % f.bytes == 0
  | .cpt b _ _ => b.wf
  -- collective descriptors
  | .allred d _ _ | .redsc d _ _ => d.wf
  | .allgv d f _ | .a2av d f _ _ | .bcast d f _ => d.wf && f.moves
  | .argn d _ | .fbar d => d.wf
  -- words that raise, by the encodings they cannot be: left to the decoder
  | .unassignedMajor _ | .illegalInstr _ _ | .illegalPatch _ _ => true
  | _ => true

/-- A well-formed instruction. -/
abbrev Instr.WellFormed (i : Instr) : Prop := i.wf = true

end Sys2Proof
end

