-- ==== Sys2Proof/Decode.lean ====
section
/-! DEFINITION. Decoding of control-core words, patch words, patterns, transfer records, command blocks and collective
descriptors (03_encodings.md, 06_registers.md R154, 08_vector.md R189, 09_matrix.md R216, 12_copy_index.md R264 to R282,
16_fabric.md R351), and after it the encoder of the same tables. A field that a table does not assign is reserved and must be
zero (R48, R50). -/

namespace Sys2Proof

/-! ### Fields -/

/-- Bits start + len - 1 to start of w. -/
def bits {n : Nat} (w : BitVec n) (start len : Nat) : BitVec len := w.extractLsb' start len

/-- The len bits from start are zero. -/
def isZero {n : Nat} (w : BitVec n) (start len : Nat) : Bool := bits w start len == 0

/-- Bit k of w. -/
def bitAt {n : Nat} (w : BitVec n) (k : Nat) : Bool := w.getLsbD k

/-- A flag as one bit. -/
def flag (b : Bool) : BitVec 1 := BitVec.ofBool b

/-- i where c holds. -/
def given (c : Bool) (i : Instr) : Option Instr := if c then some i else none

/-- The register field d of a word. -/
def fieldD (w : Word32) : Reg := (bits w 20 5).toFin
/-- The register field a of a word. -/
def fieldA (w : Word32) : Reg := (bits w 15 5).toFin
/-- The register field b of a word. -/
def fieldB (w : Word32) : Reg := (bits w 10 5).toFin

/-- The two's complement value of a field. -/
def sx {n : Nat} (v : BitVec n) : Word := v.signExtend 64

/-! ### Codes of operand types -/

/-- R44. -/
def Scope.ofCode (v : BitVec 3) : Option Scope :=
  match v with
  | 0 => some .job | 1 => some .core | 2 => some .die | 3 => some .device | 4 => some .system | _ => none

/-- R44. -/
def Scope.code : Scope → BitVec 3
  | .job => 0 | .core => 1 | .die => 2 | .device => 3 | .system => 4

/-- R43. -/
def Size.ofCode (v : BitVec 2) : Size :=
  match v with
  | 0 => .b | 1 => .h | 2 => .w | _ => .d

/-- R43. -/
def Size.code : Size → BitVec 2
  | .b => 0 | .h => 1 | .w => 2 | .d => 3

/-- R43: 1, 2, 4 or 8 bytes. -/
def Size.bytes : Size → Nat
  | .b => 1 | .h => 2 | .w => 4 | .d => 8

/-- The engine mask in bits 23..20 (R166). -/
def maskOf (w : Word32) : EngMask := { ld := bitAt w 20, mx := bitAt w 21, vx := bitAt w 22, st := bitAt w 23 }

/-- The engine mask as bits 3..0: LD, MX, VX, ST. -/
def EngMask.code (m : EngMask) : BitVec 4 := flag m.st ++ flag m.vx ++ flag m.mx ++ flag m.ld

/-- R49: the barrier that a sync operand names; none for the reserved kind. -/
def BarOp.ofCode (v : BitVec 9) : Option BarOp :=
  let i : Fin 128 := (bits v 0 7).toFin
  match bits v 7 2 with
  | 0 => some { kind := .core, idx := i }
  | 1 => some { kind := .die, idx := i }
  | 2 => some { kind := .device, idx := i }
  | _ => none

/-- R49. -/
def BarOp.code (o : BarOp) : BitVec 9 :=
  (match o.kind with | .core => (0 : BitVec 2) | .die => 1 | .device => 2) ++ (BitVec.ofFin o.idx : BitVec 7)

/-- R49: the tub that a sync operand names. -/
def TubOp.ofCode (v : BitVec 9) : Option TubOp :=
  if bitAt v 8 then none else some { mem := bitAt v 7, idx := (bits v 0 7).toFin }

/-- R49. -/
def TubOp.code (o : TubOp) : BitVec 9 := 0#1 ++ flag o.mem ++ (BitVec.ofFin o.idx : BitVec 7)

/-- R153: the field selectors. -/
def HField.ofCode (v : BitVec 10) : Option HField :=
  match v with
  | 0 => some .kind | 1 => some .flags | 2 => some .fmt | 3 => some .rank
  | 4 => some .ext0 | 5 => some .ext1 | 6 => some .ext2 | 7 => some .ext3
  | 8 => some .str0 | 9 => some .str1 | 10 => some .str2 | 11 => some .str3
  | 12 => some .base | 13 => some .aux1 | 14 => some .aux2 | 15 => some .params
  | _ => none

/-- R153. -/
def HField.code : HField → BitVec 10
  | .kind => 0 | .flags => 1 | .fmt => 2 | .rank => 3 | .ext0 => 4 | .ext1 => 5 | .ext2 => 6 | .ext3 => 7
  | .str0 => 8 | .str1 => 9 | .str2 => 10 | .str3 => 11 | .base => 12 | .aux1 => 13 | .aux2 => 14 | .params => 15

/-- R48, major 0x29. -/
def CasOrd.ofCode (v : BitVec 3) : Option CasOrd :=
  match v with
  | 0 => some .rlx | 1 => some .acq | 2 => some .rel | 3 => some .acqrel | _ => none

/-- R48, major 0x29. -/
def CasOrd.code : CasOrd → BitVec 3
  | .rlx => 0 | .acq => 1 | .rel => 2 | .acqrel => 3

/-- R13. -/
def Fmt.ofCode (v : BitVec 4) : Option Fmt :=
  match v with
  | 0 => some .fp32 | 1 => some .bf16 | 2 => some .fp16 | 3 => some .e4m3 | 4 => some .e5m2 | 5 => some .e2m1s
  | 6 => some .int32 | 7 => some .int16 | 8 => some .int8 | 9 => some .uint8 | 10 => some .int4 | 11 => some .uint32
  | 12 => some .uint16 | 13 => some .mxint8 | 14 => some .e8m0 | _ => none

/-- R22. -/
def RMode.ofCode (v : BitVec 3) : Option RMode :=
  match v with
  | 0 => some .rne | 1 => some .rtz | 2 => some .rdn | 3 => some .rup | 4 => some .rna | 5 => some .sr | _ => none

/-- R22. -/
def RMode.code : RMode → BitVec 3
  | .rne => 0 | .rtz => 1 | .rdn => 2 | .rup => 3 | .rna => 4 | .sr => 5

/-- The poison policies of 12_copy_index.md R264. -/
def Poison.ofCode (v : BitVec 2) : Option Poison :=
  match v with
  | 0 => some .trap | 1 => some .zero | 2 => some .pass | _ => none

/-- R264. -/
def Poison.code : Poison → BitVec 2
  | .trap => 0 | .zero => 1 | .pass => 2

/-- 12_copy_index.md R269. -/
def ROp.ofCode (v : BitVec 8) : Option ROp :=
  match v with
  | 0 => some .add | 1 => some .max | 2 => some .min | _ => none

/-- R269. -/
def ROp.code : ROp → BitVec 2
  | .add => 0 | .max => 1 | .min => 2

/-- R269: codes 0, 1, 2 and 6. -/
def RFmt.ofCode (v : BitVec 8) : Option RFmt :=
  match v with
  | 0 => some .fp32 | 1 => some .bf16 | 2 => some .fp16 | 6 => some .int32 | _ => none

/-- R269. -/
def RFmt.code : RFmt → BitVec 4
  | .fp32 => 0 | .bf16 => 1 | .fp16 => 2 | .int32 => 6

/-! ### Control-core words (R43 to R49) -/

/-- The ALU group by fn (R47). -/
def decodeAlu (w : Word32) : Option Instr :=
  let d := fieldD w; let a := fieldA w; let b := fieldB w
  match bits w 0 10 with
  | 0x000 => some (.add d a b) | 0x001 => some (.sub d a b) | 0x002 => some (.mul d a b) | 0x003 => some (.mulh d a b)
  | 0x004 => some (.mulhu d a b) | 0x005 => some (.div d a b) | 0x006 => some (.divu d a b) | 0x007 => some (.rem d a b)
  | 0x008 => some (.remu d a b) | 0x009 => some (.and d a b) | 0x00A => some (.or d a b) | 0x00B => some (.xor d a b)
  | 0x00C => some (.shl d a b) | 0x00D => some (.shr d a b) | 0x00E => some (.sra d a b) | 0x00F => some (.min d a b)
  | 0x010 => some (.max d a b) | 0x011 => some (.minu d a b) | 0x012 => some (.maxu d a b) | 0x013 => some (.slt d a b)
  | 0x014 => some (.sltu d a b)
  | 0x015 => given (isZero w 10 5) (.clz d a)
  | 0x016 => given (isZero w 10 5) (.popc d a)
  | 0x017 => some (.sel d a b)
  | _ => none

/-- The four groups of atomics by op (R48, majors 0x25 to 0x28). -/
def decodeAmo (w : Word32) (g : BitVec 2) : Option Instr :=
  let d := fieldD w; let a := fieldA w; let b := fieldB w; let c : Cls := (bits w 3 4).toFin
  match Scope.ofCode (bits w 0 3) with
  | none => none
  | some p =>
    some (match g, bits w 7 3 with
    | 0, 0 => .amoSwap d a b c p | 0, 1 => .amoAdd d a b c p | 0, 2 => .amoAnd d a b c p | 0, 3 => .amoOr d a b c p
    | 0, 4 => .amoXor d a b c p | 0, 5 => .amoMin d a b c p | 0, 6 => .amoMax d a b c p | 0, _ => .amoMaxu d a b c p
    | 1, 0 => .amoaSwap d a b c p | 1, 1 => .amoaAdd d a b c p | 1, 2 => .amoaAnd d a b c p | 1, 3 => .amoaOr d a b c p
    | 1, 4 => .amoaXor d a b c p | 1, 5 => .amoaMin d a b c p | 1, 6 => .amoaMax d a b c p | 1, _ => .amoaMaxu d a b c p
    | 2, 0 => .amolSwap d a b c p | 2, 1 => .amolAdd d a b c p | 2, 2 => .amolAnd d a b c p | 2, 3 => .amolOr d a b c p
    | 2, 4 => .amolXor d a b c p | 2, 5 => .amolMin d a b c p | 2, 6 => .amolMax d a b c p | 2, _ => .amolMaxu d a b c p
    | _, 0 => .amoalSwap d a b c p | _, 1 => .amoalAdd d a b c p | _, 2 => .amoalAnd d a b c p | _, 3 => .amoalOr d a b c p
    | _, 4 => .amoalXor d a b c p | _, 5 => .amoalMin d a b c p | _, 6 => .amoalMax d a b c p
    | _, _ => .amoalMaxu d a b c p)

/-- The words of a known major; none where a reserved field is not zero or a field value is illegal (R48). -/
def decodeMajor (m : BitVec 7) (w : Word32) : Option Instr :=
  let d := fieldD w; let a := fieldA w; let b := fieldB w
  let imm := bits w 0 15
  let cls : Cls := (bits w 11 4).toFin
  let size := Size.ofCode (bits w 9 2)
  let off := bits w 0 9
  let n4 : Fin 16 := (bits w 20 4).toFin
  let m4 := maskOf w
  let bar := BarOp.ofCode (bits w 0 9)
  match m with
  | 0x01 => decodeAlu w
  | 0x02 => some (.addi d a imm) | 0x03 => some (.andi d a imm) | 0x04 => some (.ori d a imm) | 0x05 => some (.xori d a imm)
  | 0x06 => given (isZero w 6 9) (.shli d a (bits w 0 6).toFin)
  | 0x07 => given (isZero w 6 9) (.shri d a (bits w 0 6).toFin)
  | 0x08 => given (isZero w 6 9) (.srai d a (bits w 0 6).toFin)
  | 0x09 => some (.slti d a imm)
  | 0x0A => some (.lih d (bits w 0 20)) | 0x0B => some (.lsh d (bits w 0 20))
  | 0x10 => some (.beq d a imm) | 0x11 => some (.bne d a imm) | 0x12 => some (.blt d a imm)
  | 0x13 => some (.bge d a imm) | 0x14 => some (.bltu d a imm) | 0x15 => some (.bgeu d a imm)
  | 0x16 => some (.jal d (bits w 0 20)) | 0x17 => some (.jalr d a imm)
  | 0x20 => some (.ld d a cls size off) | 0x21 => some (.ldu d a cls size off) | 0x22 => some (.st d a cls size off)
  | 0x23 =>
    (Scope.ofCode (bits w 0 3)).bind fun p =>
      given (isZero w 9 6) (.lda d a (Size.ofCode (bits w 7 2)) (bits w 3 4).toFin p)
  | 0x24 =>
    (Scope.ofCode (bits w 0 3)).bind fun p =>
      given (isZero w 9 6) (.stl d a (Size.ofCode (bits w 7 2)) (bits w 3 4).toFin p)
  | 0x25 => decodeAmo w 0 | 0x26 => decodeAmo w 1 | 0x27 => decodeAmo w 2 | 0x28 => decodeAmo w 3
  | 0x29 =>
    (Scope.ofCode (bits w 0 3)).bind fun p =>
      (CasOrd.ofCode (bits w 7 3)).bind fun o => some (.cas d a b o (bits w 3 4).toFin p)
  | 0x2A =>
    (Scope.ofCode (bits w 6 3)).bind fun p =>
      if isZero w 0 4 then
        match bits w 4 2 with
        | 1 => some (.fenceAcq (bits w 9 16) p)
        | 2 => some (.fenceRel (bits w 9 16) p)
        | 3 => some (.fenceFull (bits w 9 16) p)
        | _ => none
      else none
  | 0x2B =>
    given (isZero w 0 5)
      (if bitAt w 9 then .waitaNe d a b (bits w 5 4).toFin else .waitaEq d a b (bits w 5 4).toFin)
  | 0x30 => given (isZero w 24 1 && isZero w 0 15) (.push m4 a)
  | 0x31 => given (isZero w 0 20) (.popr d)
  | 0x32 => given (isZero w 20 5 && isZero w 0 15) (.qcut a)
  | 0x33 => given (isZero w 24 1 && isZero w 0 15) (.ltrim m4 a)
  | 0x34 => given (isZero w 0 15) (.sets d a)
  | 0x35 => given (isZero w 0 15) (.gets d a)
  | 0x36 => given (isZero w 24 1 && bits w 9 2 == 3) (.hld n4 a cls off)
  | 0x37 => given (isZero w 24 1 && bits w 9 2 == 3) (.hst n4 a cls off)
  | 0x38 => (HField.ofCode (bits w 0 10)).bind fun s => given (isZero w 24 1 && isZero w 10 5) (.hset n4 a s)
  | 0x39 =>
    (HField.ofCode (bits w 0 10)).bind fun s =>
      given (isZero w 19 1 && isZero w 10 5) (.hget d (bits w 15 4).toFin s)
  | 0x40 => bar.bind fun o => given (isZero w 20 5 && isZero w 9 6) (.bari a o)
  | 0x41 =>
    bar.bind fun o =>
      if bitAt w 9 then given (isZero w 10 15) (.barvBare o) else given (isZero w 20 5 && isZero w 9 6) (.barv a o)
  | 0x42 => bar.bind fun o => given (isZero w 20 5 && isZero w 9 6) (.barx a o)
  | 0x43 => bar.bind fun o => given (isZero w 10 15) (.barw (bitAt w 9) o)
  | 0x44 => given (isZero w 20 5 && isZero w 1 14) (.mbs a (bitAt w 0))
  | 0x45 => given (isZero w 1 19) (.mbr d (bitAt w 0))
  | 0x46 => (TubOp.ofCode (bits w 0 9)).bind fun o => given (isZero w 20 5 && isZero w 9 6) (.tubset a o)
  | 0x47 =>
    (TubOp.ofCode (bits w 0 9)).bind fun o =>
      given (isZero w 10 15) (if bitAt w 9 then .tubarmOn o else .tubarmOff o)
  | 0x48 => given (isZero w 0 15) (.spa d a)
  | 0x49 => given (isZero w 0 15) (.spra d a)
  | 0x4A => given (isZero w 20 5 && isZero w 0 15) (.spf a)
  | 0x4B => given (isZero w 20 5 && isZero w 0 15) (.sprst a)
  | 0x4C => given (isZero w 2 23) (.specb (bits w 0 2).toFin)
  | 0x4D => given (isZero w 2 23) (.specc (bits w 0 2).toFin)
  | 0x4E => given (isZero w 2 23) (.speca (bits w 0 2).toFin)
  | 0x50 => given (isZero w 20 5 && isZero w 3 12) (.chain a (bits w 0 3).toFin)
  | 0x51 => given (isZero w 7 3) (.cpyx d a b (bits w 3 4).toFin (bits w 0 3).toFin)
  | 0x52 => given (isZero w 20 5 && isZero w 3 12) (.cwait a (bits w 0 3).toFin)
  | 0x53 => given (isZero w 20 5 && isZero w 0 15) (.ixc a)
  | 0x54 =>
    if isZero w 3 12 then
      match bits w 0 3 with
      | 0 => some (.darnRank d a) | 1 => some (.darnCommit d a) | 2 => some (.darnStain d a)
      | 3 => some (.darnList d a) | 4 => some (.darnClear d a) | _ => none
    else none
  | 0x55 => given (isZero w 20 5 && isZero w 0 15) (.wrng a)
  | 0x58 => given (isZero w 24 1 && isZero w 0 15) (.strt m4 a)
  | 0x59 => given (isZero w 0 25) .join
  | 0x5A => given (isZero w 20 5 && isZero w 0 10) (.launch a b)
  | 0x5B => given (isZero w 0 25) .yield
  | 0x60 => given (isZero w 14 11) (.trap (bits w 0 14))
  | 0x61 => given (isZero w 0 25) .tfence
  | 0x62 => given (isZero w 0 25) .eret
  | 0x63 => given (isZero w 0 25) .esc
  | 0x64 => given (isZero w 12 8) (.csrr d (bits w 0 12))
  | 0x65 => given (isZero w 20 5 && isZero w 12 3) (.csrw a (bits w 0 12))
  | 0x70 => given (isZero w 0 25) .nop
  | 0x71 => given (isZero w 0 20) (.cycle d)
  | _ => none

/-- The assigned majors (R46), and those absent in version v (R63, R65). -/
def majorAssigned (v : Nat) (m : BitVec 7) : Bool :=
  let n := m.toNat
  let inGrid := (1 ≤ n && n ≤ 0x0B) || (0x10 ≤ n && n ≤ 0x17) || (0x20 ≤ n && n ≤ 0x2B) || (0x30 ≤ n && n ≤ 0x39) ||
    (0x40 ≤ n && n ≤ 0x4E) || (0x50 ≤ n && n ≤ 0x55) || (0x58 ≤ n && n ≤ 0x5B) || (0x60 ≤ n && n ≤ 0x65) || n == 0x70 ||
    n == 0x71
  inGrid && !(n == 0x54 && v < 3) && !(n == 0x55 && v < 2)

/-- The terms that a decoder admits: well-formed ones. -/
def admitted (i : Instr) : Bool := i.wf

/-- The instruction of a control-core word in an image of encoding version v (R43 to R49, R65). -/
def decodeControl (v : Nat) (w : Word32) : Instr :=
  let m := bits w 25 7
  if majorAssigned v m then
    match decodeMajor m w with
    | some i => if admitted i then i else .illegalInstr false w
    | none => .illegalInstr false w
  else .unassignedMajor w

/-! ### Patch words (R57 to R62) -/

/-- The token bits of a patch word. -/
def toksOf (w : Word32) : Toks := { wf := bitAt w 29, wb := bitAt w 28, sf := bitAt w 27, sb := bitAt w 26 }

/-- The CTRL forms (R62, R171 to R173, 11_sync.md R251); none: ILLEGAL_INSTR. -/
def decodeCtrl (w : Word32) : Option Instr :=
  match bits w 20 6 with
  | 0x01 =>
    match bits w 18 2 with
    | 0 => some (.loopImm (bits w 16 2).toFin (bits w 0 16))
    | 1 => given (isZero w 5 11) (.loopReg (bits w 16 2).toFin (bits w 0 5).toFin)
    | _ => none
  | 0x02 => given (isZero w 0 20) .endl
  | 0x03 => given (isZero w 0 20) .stop
  | 0x04 => given (isZero w 0 20) .rdv
  | 0x05 => (BarOp.ofCode (bits w 0 9)).bind fun o => given (isZero w 10 10) (.bwt (bitAt w 9) o)
  | 0x06 => (BarOp.ofCode (bits w 0 9)).bind fun o => given (isZero w 19 1) (.bav (bits w 9 10) o)
  | 0x07 => given (isZero w 6 2) (.patl (bits w 14 6).toFin (bits w 8 6).toFin (bits w 0 6).toFin)
  | 0x08 => given (isZero w 4 15) (.toks (bitAt w 19) (bits w 0 4).toFin)
  | 0x09 => given (isZero w 2 18) (.pred (bits w 0 2).toFin)
  | _ => none

/-- The word is the first of a WIDE pair. -/
def isWide (w : Word32) : Bool := bits w 30 2 == 3

/-- The instruction of a patch word; u is the second word of a WIDE pair. The cases of R59 come first. A slot at or beyond the
job's allotment is checked when the instruction runs. -/
def decodePatch (w : Word32) (u : Option Word32) : Instr :=
  let p : Fin 64 := (bits w 20 6).toFin
  let f3 : Fin 8 := (bits w 16 3).toFin
  let v := bits w 0 16
  let f8 := bitAt w 19
  let noTok := isZero w 26 4
  let build : Option Instr :=
    match bits w 30 2 with
    | 0 => if f8 then none else some (.issue (toksOf w) p f3 v)
    | 1 => if f8 || !noTok then none else some (.amend p f3 v)
    | 2 => if noTok then some ((decodeCtrl w).getD (.illegalInstr true w)) else none
    | _ => if f8 || !isZero w 0 16 then none else u.map fun x => .wide (toksOf w) p f3 x
  match build with
  | some i => if admitted i then i else if bits w 30 2 == 2 then .illegalInstr true w else .illegalPatch w u
  | none => .illegalPatch w u

/-! ### Patterns (R50 to R55) -/

/-- Slot j of a pattern (R50). -/
def slotOf (p : Pattern) (j : Nat) : BitVec 16 := bits p (16 * j) 16

/-- A register slot (R51). -/
def RegSlot.ofCode (v : BitVec 16) : Option RegSlot :=
  match bits v 14 2 with
  | 0 => if isZero v 7 7 then some (.main (bits v 0 7).toFin) else Option.none
  | 1 => if isZero v 5 9 then some (.opnd (bits v 0 5).toFin) else Option.none
  | 2 => if isZero v 2 12 then some (.last (bits v 0 2).toFin) else Option.none
  | _ =>
    match bits v 12 2 with
    | 0 => if isZero v 5 7 then some (.shape (bits v 0 5).toFin) else Option.none
    | 1 => some (.imm (bits v 0 12))
    | 2 => if isZero v 0 12 then some .none else Option.none
    | _ => Option.none

/-- A count slot (R52). -/
def Count.ofCode (v : BitVec 16) : Option Count :=
  if bitAt v 15 then (if isZero v 5 10 then some (.shape (bits v 0 5).toFin) else none)
  else some (.imm (bits v 0 15).toFin)

/-- The plane origin in bits 15..4 of slot 1 (06_registers.md R154). -/
def Plane.ofCode (v : BitVec 12) : Option Plane :=
  if bitAt v 11 then (if isZero v 5 6 then some (.shape (bits v 0 5).toFin) else none)
  else some (.imm (bits v 0 11).toFin)

/-- Class and S of the header, with R and the reserved bits zero (R50). -/
def hdrOf (p : Pattern) : Option Hdr :=
  if isZero p 112 2 && isZero p 115 1 then some { cls := (bits p 116 4).toFin, sat := bitAt p 114 } else none

/-- The slots of a VX operation; mode: slot 3 is a mode slot (R53, R189). -/
def decodeVOp (p : Pattern) (mode : Bool) : Option VOp :=
  match hdrOf p, RegSlot.ofCode (slotOf p 0), RegSlot.ofCode (slotOf p 1), RegSlot.ofCode (slotOf p 2),
      (if mode then some RegSlot.none else RegSlot.ofCode (slotOf p 3)), Count.ofCode (slotOf p 4),
      Fmt.ofCode (bits p 92 4), Fmt.ofCode (bits p 88 4), RMode.ofCode (bits p 85 3), RegSlot.ofCode (slotOf p 6) with
  | some hdr, some d, some a, some b, some c, some n, some df, some sf, some rm, some rnd =>
    if isZero p 80 5 then some { hdr, d, a, b, c, n, df, sf, rm, rnd } else none
  | _, _, _, _, _, _, _, _, _, _ => none

/-- R190. -/
def VCond.ofCode (v : BitVec 3) : VCond :=
  match v with
  | 0 => .eq | 1 => .ne | 2 => .lt | 3 => .le | 4 => .gt | 5 => .ge | 6 => .un | _ => .nun

/-- R190. -/
def VCond.code : VCond → BitVec 3
  | .eq => 0 | .ne => 1 | .lt => 2 | .le => 3 | .gt => 4 | .ge => 5 | .un => 6 | .nun => 7

/-- R193. -/
def RedOp.ofCode (v : BitVec 3) : RedOp :=
  match v with
  | 0 => .sum | 1 => .max | 2 => .min | 3 => .amax | 4 => .amin | 5 => .and | 6 => .or | _ => .cnt

/-- R193. -/
def RedOp.code : RedOp → BitVec 3
  | .sum => 0 | .max => 1 | .min => 2 | .amax => 3 | .amin => 4 | .and => 5 | .or => 6 | .cnt => 7

/-- R199: M in bits 7..4, N in bits 3..0. -/
def Prune.ofCode (v : BitVec 8) : Option Prune :=
  match v with
  | 0x42 => some .n2m4 | 0x41 => some .n1m4 | 0x84 => some .n4m8 | _ => none

/-- R199. -/
def Prune.code : Prune → BitVec 8
  | .n2m4 => 0x42 | .n1m4 => 0x41 | .n4m8 => 0x84

/-- R202: the kind in bits 1..0 and the digit in bits 4..2. For the other kinds the digit bits must be zero (DESIGN CHOICE, log entry 62). -/
def TreeKind.ofCode (v : BitVec 5) : Option TreeKind :=
  match bits v 0 2 with
  | 0 => if isZero v 2 3 then some .lev else none
  | 1 => if isZero v 2 3 then some .par else none
  | 2 => some (.dig (bits v 2 3).toFin)
  | _ => if isZero v 2 3 then some .anc else none

/-- R202. -/
def TreeKind.code : TreeKind → BitVec 5
  | .lev => 0#3 ++ 0#2
  | .par => 0#3 ++ 1#2
  | .dig j => (BitVec.ofFin j : BitVec 3) ++ 2#2
  | .anc => 0#3 ++ 3#2

/-- A VX pattern (R54, R189); none: ILLEGAL_INSTR. -/
def decodeVx (p : Pattern) : Option Instr :=
  let o := decodeVOp p false
  let om := decodeVOp p true
  let m := slotOf p 3
  let m0 := if m == 0 then om else none
  match bits p 120 8 with
  | 0x01 => o.map .vadd | 0x02 => o.map .vsub | 0x03 => o.map .vmul | 0x04 => o.map .vfma | 0x05 => o.map .vfms
  | 0x06 => o.map .vmax | 0x07 => o.map .vmin | 0x08 => o.map .vabs | 0x09 => o.map .vneg
  | 0x0A => if isZero m 3 13 then om.map fun x => .vcmp x (VCond.ofCode (bits m 0 3)) else none
  | 0x0B => o.map .vsel | 0x0C => o.map .vcvt
  | 0x0D => m0.map .vqnt | 0x0E => m0.map .vdqnt
  | 0x0F => o.map .vscl
  | 0x10 => o.map .vexp2 | 0x11 => o.map .vlog2 | 0x12 => o.map .vrcp | 0x13 => o.map .vrsq | 0x14 => o.map .vsqrt
  | 0x15 => o.map .vdiv
  | 0x18 => o.map .viadd | 0x19 => o.map .visub | 0x1A => o.map .vimul | 0x1B => o.map .vand | 0x1C => o.map .vor
  | 0x1D => o.map .vxor | 0x1E => o.map .vshl | 0x1F => o.map .vshr | 0x20 => o.map .vsra | 0x21 => o.map .vimax
  | 0x22 => o.map .vimin
  | 0x28 => o.map .vmov
  | 0x29 => om.bind fun x => (Count.ofCode m).map (.vbc x)
  | 0x2A => m0.map .viota
  | 0x2B => if isZero m 3 13 then om.map fun x => .vred x (RedOp.ofCode (bits m 0 3)) else none
  | 0x2C => if isZero m 4 12 then om.map fun x => .vscan x (RedOp.ofCode (bits m 0 3)) (bitAt m 3) else none
  | 0x2D => if isZero m 3 13 then om.map fun x => .vsegr x (RedOp.ofCode (bits m 0 3)) else none
  | 0x2E => m0.map .vperm | 0x2F => m0.map .vpack | 0x30 => m0.map .vunpk
  | 0x38 => m0.map .vpart
  | 0x39 => if isZero m 1 15 then om.map fun x => .vrank x (bitAt m 0) else none
  | 0x3A => if isZero m 8 8 then om.bind fun x => (Prune.ofCode (bits m 0 8)).map (.vprune x) else none
  | 0x3B => m0.map .vrng | 0x3C => m0.map .vgumb
  | 0x3D =>
    if isZero m 5 3 && isZero m 12 4 then
      om.bind fun x => (TreeKind.ofCode (bits m 0 5)).map fun k => .vtree x k (bits m 8 4).toFin
    else none
  | 0x3E => m0.map .vlut | 0x3F => m0.map .vpost
  | _ => none

/-- Mask codes (09_matrix.md R214). -/
def MaskMode.ofCode (v : BitVec 2) : Option MaskMode :=
  match v with
  | 0 => some .none | 1 => some .seg | 2 => some .segc | _ => Option.none

/-- R214. -/
def MaskMode.code : MaskMode → BitVec 2
  | .none => 0 | .seg => 1 | .segc => 2

/-- Fill code with slots 5 and 6, which are zero unless the code is 3 (R216). -/
def Fill.ofCode (c : BitVec 2) (v : BitVec 32) : Option Fill :=
  match c with
  | 0 => if v == 0 then some .none else Option.none
  | 1 => if v == 0 then some .ninf else Option.none
  | 2 => if v == 0 then some .zero else Option.none
  | _ => some (.val v)

/-- R216. -/
def Fill.code : Fill → BitVec 2
  | .none => 0 | .ninf => 1 | .zero => 2 | .val _ => 3

/-- The value of slots 5 and 6. -/
def Fill.value : Fill → BitVec 32
  | .val v => v
  | _ => 0

/-- An MX pattern (R55, R216); none: ILLEGAL_INSTR. -/
def decodeMx (p : Pattern) : Option Instr :=
  let s := slotOf p
  let h : Fin 16 := (bits p 0 4).toFin
  match bits p 120 8 with
  | 0x01 =>
    match hdrOf p, RegSlot.ofCode (s 1), Count.ofCode (s 2), Count.ofCode (s 3), Count.ofCode (s 4), Fmt.ofCode (bits p 92 4),
        Count.ofCode (s 6) with
    | some hdr, some src, some org, some n, some k, some fmt, some lane =>
      given (isZero p 5 11 && isZero p 80 12) (.mlb { hdr, h, bank := bitAt p 4, src, org, n, k, fmt, lane })
    | _, _, _, _, _, _, _ => none
  | 0x02 =>
    match hdrOf p, RegSlot.ofCode (s 1), Count.ofCode (s 2), Count.ofCode (s 3), Count.ofCode (s 4), Fmt.ofCode (bits p 92 4),
        Count.ofCode (s 6), MaskMode.ofCode (bits p 5 2) with
    | some hdr, some src, some org, some m, some k, some fmt, some lane, some mask =>
      given (isZero p 7 9 && isZero p 88 4)
        (.mma { hdr, h, bank := bitAt p 4, mask, src, org, m, k, fmt, base := (bits p 80 8).toFin, lane })
    | _, _, _, _, _, _, _, _ => none
  | 0x03 =>
    match hdrOf p, RegSlot.ofCode (s 1), Count.ofCode (s 2), Count.ofCode (s 3), Count.ofCode (s 4), Fmt.ofCode (bits p 92 4),
        Count.ofCode (s 6), MaskMode.ofCode (bits p 5 2) with
    | some hdr, some src, some org, some m, some k, some fmt, some lane, some mask =>
      given (isZero p 7 9 && isZero p 80 12) (.mmb { hdr, h, bank := bitAt p 4, mask, src, org, m, k, fmt, lane })
    | _, _, _, _, _, _, _, _ => none
  | 0x04 =>
    match hdrOf p, RegSlot.ofCode (s 0), RegSlot.ofCode (s 1), Count.ofCode (s 2), Count.ofCode (s 3),
        Count.ofCode (s 4) with
    | some hdr, some ra, some rb, some m, some k, some n =>
      given (isZero p 88 8 && s 6 == 0) (.msa { hdr, ra, rb, m, k, n, base := (bits p 80 8).toFin })
    | _, _, _, _, _, _ => none
  | 0x05 =>
    match hdrOf p, Count.ofCode (s 1) with
    | some hdr, some m =>
      given (isZero p 9 7 && isZero p 32 80) (.macz { hdr, base := (bits p 0 8).toFin, bpf := bitAt p 8, m })
    | _, _ => none
  | 0x06 =>
    match hdrOf p, RegSlot.ofCode (s 0), Count.ofCode (s 2), Count.ofCode (s 3), Fmt.ofCode (bits p 76 4),
        RMode.ofCode (bits p 69 3), Fill.ofCode (bits p 24 2) (bits p 80 32) with
    | some hdr, some reg, some m, some n, some fmt, some rm, some fill =>
      given (isZero p 27 5 && isZero p 72 4 && isZero p 64 5)
        (.macr { hdr, reg, base := (bits p 16 8).toFin, fill, int := bitAt p 26, m, n, fmt, rm })
    | _, _, _, _, _, _, _ => none
  | 0x07 =>
    match hdrOf p, RegSlot.ofCode (s 0), Count.ofCode (s 2), Count.ofCode (s 3), Fmt.ofCode (bits p 76 4),
        RMode.ofCode (bits p 69 3) with
    | some hdr, some reg, some m, some n, some fmt, some rm =>
      given (isZero p 24 2 && isZero p 27 5 && isZero p 72 4 && isZero p 64 5 && isZero p 80 32)
        (.macw { hdr, reg, base := (bits p 16 8).toFin, fill := .none, int := bitAt p 26, m, n, fmt, rm })
    | _, _, _, _, _, _ => none
  | 0x08 =>
    match Count.ofCode (s 1), Count.ofCode (s 2), Count.ofCode (s 3), Fmt.ofCode (bits p 76 4), Fmt.ofCode (bits p 72 4),
        Fmt.ofCode (bits p 68 4), RMode.ofCode (bits p 65 3), MaskMode.ofCode (bits p 12 2),
        Fill.ofCode (bits p 14 2) (bits p 80 32) with
    | some m, some n, some k, some cf, some af, some bf, some rm, some mask, some fill =>
      given (isZero p 112 2)
        (.mmad { hdr := { cls := (bits p 116 4).toFin, sat := bitAt p 114 }, rel := bitAt p 115, ha := h,
                 hb := (bits p 4 4).toFin, hc := (bits p 8 4).toFin, mask, fill, m, n, k, cf, af, bf, rm,
                 acc := bitAt p 64 })
    | _, _, _, _, _, _, _, _, _ => none
  | _ => none

/-- The slots of LDT, STT and STQ (06_registers.md R154). -/
def decodeTile (p : Pattern) : Option TileOp :=
  let s := slotOf p
  match hdrOf p, RegSlot.ofCode (s 0), Plane.ofCode (bits p 20 12), Count.ofCode (s 2), Count.ofCode (s 3),
      Count.ofCode (s 4), Count.ofCode (s 6), Fmt.ofCode (bits p 92 4), RMode.ofCode (bits p 85 3) with
  | some hdr, some reg, some plane, some row, some col, some tr, some tc, some fr, some rm =>
    if isZero p 88 4 && isZero p 84 1 && isZero p 80 3 then
      some { hdr, reg, h := (bits p 16 4).toFin, plane, row, col, tr, tc, fr, rm, scales := bitAt p 83 }
    else none
  | _, _, _, _, _, _, _, _, _ => none

/-- The slots of LDV, STV and LDB; q: slot 3 holds the repeats (R154). -/
def decodeLin (p : Pattern) (q : Bool) : Option LinOp :=
  let s := slotOf p
  match hdrOf p, RegSlot.ofCode (s 0), Count.ofCode (s 2), Count.ofCode (s 4), Fmt.ofCode (bits p 92 4),
      RMode.ofCode (bits p 85 3) with
  | some hdr, some reg, some start, some n, some fr, some rm =>
    if isZero p 20 12 && (q || s 3 == 0) && s 6 == 0 && isZero p 88 4 && isZero p 84 1 && isZero p 80 3 then
      some { hdr, reg, h := (bits p 16 4).toFin, start, n, fr, rm, scales := bitAt p 83 }
    else none
  | _, _, _, _, _, _ => none

/-- The slots of LDG, STS and STA (R154). -/
def decodeIdx (p : Pattern) : Option IdxOp :=
  let s := slotOf p
  match hdrOf p, RegSlot.ofCode (s 0), RegSlot.ofCode (s 2), Count.ofCode (s 4), Fmt.ofCode (bits p 92 4),
      RMode.ofCode (bits p 85 3) with
  | some hdr, some reg, some idx, some n, some fr, some rm =>
    if isZero p 20 12 && s 3 == 0 && s 6 == 0 && isZero p 88 4 && isZero p 84 1 && isZero p 80 3 then
      some { hdr, reg, h := (bits p 16 4).toFin, idx, n, fr, rm, scales := bitAt p 83 }
    else none
  | _, _, _, _, _, _ => none

/-- An LD pattern (R55, R154); none: ILLEGAL_INSTR. -/
def decodeLd (p : Pattern) : Option Instr :=
  let s := slotOf p
  match bits p 120 8 with
  | 0x01 => (decodeTile p).map .ldt
  | 0x02 => (decodeLin p false).map .ldv
  | 0x03 => (decodeLin p true).bind fun o => (Count.ofCode (s 3)).map (.ldb o)
  | 0x04 => (decodeIdx p).map .ldg
  | 0x05 =>
    match hdrOf p, RegSlot.ofCode (s 0), Count.ofCode (s 4) with
    | some hdr, some reg, some n =>
      given (isZero p 20 12 && s 2 == 0 && s 3 == 0 && s 5 == 0 && s 6 == 0)
        (.ldz { hdr, reg, h := (bits p 16 4).toFin, n })
    | _, _, _ => none
  | _ => none

/-- An ST pattern (R55, R154); none: ILLEGAL_INSTR. -/
def decodeSt (p : Pattern) : Option Instr :=
  match bits p 120 8 with
  | 0x01 => (decodeTile p).map .stt
  | 0x02 => (decodeLin p false).map .stv
  | 0x03 => (decodeIdx p).map .sts
  | 0x04 => (decodeIdx p).map .sta
  | 0x05 => (decodeTile p).map .stq
  | _ => none

/-- The operation of a pattern of engine e; none where checks 1 and 2 of R60 fail: ILLEGAL_INSTR. -/
def decodePattern (e : Engine) (p : Pattern) : Option Instr :=
  (match e with
    | .ld => decodeLd p
    | .mx => decodeMx p
    | .vx => decodeVx p
    | .st => decodeSt p).bind fun i => given (admitted i) i

/-! ### Transfer records (12_copy_index.md R264 to R273) -/

/-- The common fields; none where R264 is broken. -/
def decodeRecHead (r : BitVec 1024) : Option RecHead :=
  let baren := bitAt r 20
  let bar := BarOp.ofCode (bits r 21 9)
  match Scope.ofCode (bits r 12 3), Poison.ofCode (bits r 16 2) with
  | some scope, some poison =>
    if isZero r 1 3 && isZero r 30 2 && (if baren then bar.isSome else isZero r 21 9) then
      some { cls := (bits r 8 4).toFin, scope, wm := bitAt r 15, poison, srcsp := bitAt r 18, dstsp := bitAt r 19,
             bar := if baren then bar else none, sjref := bits r 32 16, djref := bits r 48 16, next := bits r 64 64,
             src := bits r 128 64, dst := bits r 192 64, prog := bits r 960 48, npoi := bits r 1008 16 }
    else none
  | _, _ => none

/-- Counter j at offset 40 + 12 j (R268). -/
def walkCtrOf (r : BitVec 1024) (j : Nat) : WalkCtr :=
  { count := bits r (320 + 96 * j) 16, sstr := bits r (352 + 96 * j) 32, dstr := bits r (384 + 96 * j) 32 }

/-- The walk of AFF and RED; none where a reserved field is not zero. -/
def decodeWalk (r : BitVec 1024) : Option Walk :=
  if isZero r 336 16 && isZero r 432 16 && isZero r 528 16 && isZero r 624 16 && isZero r 720 16 && isZero r 816 16 &&
      isZero r 896 64 then
    some { esize := bits r 256 16, c0 := walkCtrOf r 0, c1 := walkCtrOf r 1, c2 := walkCtrOf r 2, c3 := walkCtrOf r 3,
           c4 := walkCtrOf r 4, c5 := walkCtrOf r 5 }
  else none

/-- A transfer record whose OWN is 1; none: the rejection of R264. -/
def decodeRecord (r : BitVec 1024) : Option Instr :=
  (match decodeRecHead r with
  | none => none
  | some h =>
    match bits r 4 4 with
    | 1 => (decodeWalk r).bind fun w => given (isZero r 272 48) (.aff h w)
    | 2 =>
      match decodeWalk r, ROp.ofCode (bits r 288 8), RFmt.ofCode (bits r 296 8), RMode.ofCode (bits r 304 3) with
      | some w, some op, some fmt, some rm =>
        given (isZero r 272 16 && isZero r 308 12) (.red h w op fmt rm (bitAt r 307))
      | _, _, _, _ => none
    | 3 => given (isZero r 304 16 && isZero r 384 576) (.mcst h (bits r 256 32) (bits r 288 16) (bits r 320 64))
    | 4 => given (isZero r 320 640) (.sig h (bits r 256 64))
    | 5 =>
      given (isZero r 304 16 && isZero r 384 576)
        (.pgt h (bits r 256 16) (bits r 272 16) (bits r 288 16) (bits r 320 64))
    | 6 => given (isZero r 256 704) (.skip h)
    | _ => none).bind fun i => given (admitted i) i

/-! ### Command blocks (R282) -/

/-- The first offset at which a command block breaks R282. The completion barrier is resolved apart (R284). With CSEL 1 the bits of COUNT beside the
number of the register must be zero (DESIGN CHOICE, log entry 66). -/
def blockBad (b : BitVec 512) : Option Nat :=
  let op := bits b 0 8
  let cpt := op == 4
  let sca := op == 3
  let sp (k lo : Nat) : Bool := bitAt b k && !isZero b (lo + 24) 40
  let fmt := RFmt.ofCode ((bits b 28 4).setWidth 8)
  let rows := (bits b 288 32).toNat
  if !(op == 1 || op == 2 || sca || cpt) then some 0
  else if bitAt b 15 || (Scope.ofCode (bits b 12 3)).isNone then some 1
  else if (Poison.ofCode (bits b 16 2)).isNone || bitAt b 23 || (bitAt b 22 && !cpt) then some 2
  else if !isZero b 26 2 || (if sca then (ROp.ofCode ((bits b 24 2).setWidth 8)).isNone || fmt.isNone else !isZero b 24 8)
  then some 3
  else if !isZero b 41 6 || (!bitAt b 47 && !isZero b 32 9) then some 4
  else if sp 18 64 then some 8
  else if sp 20 128 then some 16
  else if sp 19 192 then some 24
  else if !(if bitAt b 21 then isZero b 261 27 else isZero b 280 8) then some 32
  else if rows == 0 || 1048576 < rows || (sca && rows % ((fmt.map RFmt.bytes).getD 1) != 0) then some 36
  else if !isZero b 320 3 then some 40
  else if !cpt && !isZero b 384 64 then some 48
  else if !isZero b 480 32 then some 60
  else none

/-- The fields that the operations share; none where a code is illegal. -/
def decodeBlockHead (b : BitVec 512) : Option BlockHead :=
  let cben := bitAt b 47
  let bar := BarOp.ofCode (bits b 32 9)
  match Scope.ofCode (bits b 12 3), Poison.ofCode (bits b 16 2) with
  | some scope, some poison =>
    if cben && bar.isNone then none
    else
      some { cls := (bits b 8 4).toFin, scope, poison, tsp := bitAt b 18, dsp := bitAt b 19, isp := bitAt b 20,
             countReg := bitAt b 21, bar := if cben then bar else none, djref := bits b 48 16, table := bits b 64 64,
             index := bits b 128 64, data := bits b 192 64, count := bits b 256 32, rowBytes := bits b 288 32,
             status := bits b 320 64, ntab := bits b 448 32 }
  | _, _ => none

/-- A command block; none where it breaks R282. -/
def decodeBlock (b : BitVec 512) : Option Instr :=
  match blockBad b, decodeBlockHead b with
  | none, some h =>
    match bits b 0 8 with
    | 1 => some (.gth h)
    | 2 => some (.sct h)
    | 3 =>
      match ROp.ofCode ((bits b 24 2).setWidth 8), RFmt.ofCode ((bits b 28 4).setWidth 8) with
      | some op, some fmt => some (.sca h op fmt)
      | _, _ => none
    | 4 => some (.cpt h (bitAt b 22) (bits b 384 64))
    | _ => none
  | _, _ => none

/-! ### Collective descriptors (16_fabric.md R351) -/

/-- The first offset at which a descriptor breaks R351. The completion barrier is resolved apart (R352). -/
def descBad (d : BitVec 512) : Option Nat :=
  let op := (bits d 0 8).toNat
  let red := op == 1 || op == 2
  let mov := op == 3 || op == 4 || op == 5
  let fmtOk := if red then (RFmt.ofCode ((bits d 8 4).setWidth 8)).isSome
    else if mov then (match Fmt.ofCode (bits d 8 4) with | some f => f.moves | none => false)
    else isZero d 8 4
  let ropOk := if red then bits d 12 2 != 3 else isZero d 12 2
  let pk := bits d 16 2
  if op < 1 || 7 < op then some 0
  else if !fmtOk || !ropOk || !isZero d 14 2 then some 1
  else if op != 5 && !isZero d 48 16 then some 6
  else if (if pk == 2 then !isZero d 80 48 else if pk == 3 then false else !isZero d 64 64) then some 8
  else if bitAt d 159 then some 16
  else if !(op == 4 || op == 6) && !isZero d 320 64 then some 40
  else if !(op == 3 || op == 4) && !isZero d 384 64 then some 48
  else if !isZero d 448 4 then some 56
  else none

/-- The participants of a descriptor (R350, R351). -/
def decodeParts (d : BitVec 512) : Parts :=
  match bits d 16 2 with
  | 0 => .row
  | 1 => .column
  | 2 => .rect (bits d 64 4).toFin (bits d 68 4).toFin (bits d 72 4).toFin (bits d 76 4).toFin
  | _ => .list (bits d 64 64)

/-- The fields that the collectives share; none where the completion barrier has the reserved kind. -/
def decodeDescHead (d : BitVec 512) : Option DescHead :=
  let baren := bitAt d 31
  let bar := BarOp.ofCode (bits d 22 9)
  if baren && bar.isNone then none
  else
    some { parts := decodeParts d, cls := (bits d 18 4).toFin, bar := if baren then bar else none, tag := bits d 32 16,
           count := bits d 128 32, rcap := bits d 160 32, send := bits d 192 64, recv := bits d 256 64,
           status := bits d 448 64 }

/-- A collective descriptor; none where it breaks R351. -/
def decodeDesc (d : BitVec 512) : Option Instr :=
  match descBad d, decodeDescHead d with
  | none, some h =>
    let fmt := Fmt.ofCode (bits d 8 4)
    match bits d 0 8, ROp.ofCode ((bits d 12 2).setWidth 8), RFmt.ofCode ((bits d 8 4).setWidth 8), fmt with
    | 1, some op, some f, _ => some (.allred h op f)
    | 2, some op, some f, _ => some (.redsc h op f)
    | 3, _, _, some f => some (.allgv h f (bits d 384 64))
    | 4, _, _, some f => some (.a2av h f (bits d 320 64) (bits d 384 64))
    | 5, _, _, some f => some (.bcast h f (bits d 48 16))
    | 6, _, _, _ => some (.argn h (bits d 320 64))
    | 7, _, _, _ => some (.fbar h)
    | _, _, _, _ => none
  | _, _ => none

/-! ### The encoder -/

/-- What holds an instruction: a word, a patch word with the second word of a WIDE pair, a pattern of an engine, a record, a
block or a descriptor. -/
inductive Code where
  | control (w : Word32)
  | patch (w : Word32) (u : Option Word32)
  | pattern (e : Engine) (p : Pattern)
  | record (r : BitVec 1024)
  | block (b : BitVec 512)
  | desc (d : BitVec 512)
  deriving DecidableEq, Repr

/-- A register number as five bits. -/
def reg5 (r : Reg) : BitVec 5 := BitVec.ofFin r

/-- Format CR (R43). -/
def encCR (m : BitVec 7) (d a b : BitVec 5) (fn : BitVec 10) : Word32 := m ++ d ++ a ++ b ++ fn
/-- Formats CI and CB (R43). -/
def encCI (m : BitVec 7) (d a : BitVec 5) (i : BitVec 15) : Word32 := m ++ d ++ a ++ i
/-- Format CM (R43). -/
def encCM (m : BitVec 7) (d a : BitVec 5) (c : Cls) (s : BitVec 2) (o : BitVec 9) : Word32 :=
  m ++ d ++ a ++ (BitVec.ofFin c : BitVec 4) ++ s ++ o
/-- Format CJ (R43). -/
def encCJ (m : BitVec 7) (d : BitVec 5) (i : BitVec 20) : Word32 := m ++ d ++ i
/-- Format CA (R43). -/
def encCA (m : BitVec 7) (d a b : BitVec 5) (op : BitVec 3) (c : Cls) (p : Scope) : Word32 :=
  m ++ d ++ a ++ b ++ op ++ (BitVec.ofFin c : BitVec 4) ++ p.code
/-- Format CS (R43). -/
def encCS (m : BitVec 7) (d a : BitVec 5) (fl : Bool) (o : BitVec 9) : Word32 := m ++ d ++ a ++ 0#5 ++ flag fl ++ o
/-- Format CF (R43). -/
def encCF (mask : BitVec 16) (p : Scope) (kind : BitVec 2) : Word32 := 0x2A#7 ++ mask ++ p.code ++ kind ++ 0#4
/-- A CTRL patch word (R62). -/
def encCtrl (code : BitVec 6) (v : BitVec 20) : Word32 := 2#2 ++ 0#4 ++ code ++ v
/-- A patch word with tokens (R57). -/
def encPatch (k : BitVec 2) (t : Toks) (p : Fin 64) (f : Fin 8) (v : BitVec 16) : Word32 :=
  k ++ flag t.wf ++ flag t.wb ++ flag t.sf ++ flag t.sb ++ (BitVec.ofFin p : BitVec 6) ++ 0#1 ++
    (BitVec.ofFin f : BitVec 3) ++ v

/-- R51. -/
def RegSlot.code : RegSlot → BitVec 16
  | .main i => 0#2 ++ 0#7 ++ (BitVec.ofFin i : BitVec 7)
  | .opnd i => 1#2 ++ 0#9 ++ (BitVec.ofFin i : BitVec 5)
  | .last i => 2#2 ++ 0#12 ++ (BitVec.ofFin i : BitVec 2)
  | .shape i => 3#2 ++ 0#2 ++ 0#7 ++ (BitVec.ofFin i : BitVec 5)
  | .imm v => 3#2 ++ 1#2 ++ v
  | .none => 3#2 ++ 2#2 ++ 0#12

/-- R52. -/
def Count.code : Count → BitVec 16
  | .imm n => 0#1 ++ (BitVec.ofFin n : BitVec 15)
  | .shape i => 1#1 ++ 0#10 ++ (BitVec.ofFin i : BitVec 5)

/-- 06_registers.md R154. -/
def Plane.code : Plane → BitVec 12
  | .imm n => 0#1 ++ (BitVec.ofFin n : BitVec 11)
  | .shape i => 1#1 ++ 0#6 ++ (BitVec.ofFin i : BitVec 5)

/-- A pattern from its header and slots (R50). -/
def encPat (op : BitVec 8) (h : Hdr) (rel : Bool) (s6 s5 s4 s3 s2 s1 s0 : BitVec 16) : Pattern :=
  op ++ (BitVec.ofFin h.cls : BitVec 4) ++ flag rel ++ flag h.sat ++ 0#2 ++ s6 ++ s5 ++ s4 ++ s3 ++ s2 ++ s1 ++ s0

/-- A VX pattern whose slot 3 is m (R53, R189). -/
def encVm (op : BitVec 8) (o : VOp) (m : BitVec 16) : Code :=
  .pattern .vx (encPat op o.hdr false o.rnd.code (o.df.code ++ o.sf.code ++ o.rm.code ++ 0#5) o.n.code m o.b.code o.a.code
    o.d.code)

/-- A VX pattern whose slot 3 is source c (R53). -/
def encV (op : BitVec 8) (o : VOp) : Code := encVm op o o.c.code

/-- Slot 5 of LD and ST operations (06_registers.md R154). -/
def encMode (fr : Fmt) (rm : RMode) (scales : Bool) : BitVec 16 :=
  fr.code ++ 0#4 ++ rm.code ++ 0#1 ++ flag scales ++ 0#3

/-- LDT, STT and STQ. -/
def encTile (e : Engine) (op : BitVec 8) (o : TileOp) : Code :=
  .pattern e (encPat op o.hdr false o.tc.code (encMode o.fr o.rm o.scales) o.tr.code o.col.code o.row.code
    (o.plane.code ++ (BitVec.ofFin o.h : BitVec 4)) o.reg.code)

/-- LDV, STV and LDB, whose slot 3 is q. -/
def encLin (e : Engine) (op : BitVec 8) (o : LinOp) (q : BitVec 16) : Code :=
  .pattern e (encPat op o.hdr false 0 (encMode o.fr o.rm o.scales) o.n.code q o.start.code
    (0#12 ++ (BitVec.ofFin o.h : BitVec 4)) o.reg.code)

/-- LDG, STS and STA. -/
def encIdx (e : Engine) (op : BitVec 8) (o : IdxOp) : Code :=
  .pattern e (encPat op o.hdr false 0 (encMode o.fr o.rm o.scales) o.n.code 0 o.idx.code
    (0#12 ++ (BitVec.ofFin o.h : BitVec 4)) o.reg.code)

/-- The common fields of a record with its kind's bytes 32 to 119 (R264). -/
def encRec (r : RecHead) (kind : BitVec 4) (body : BitVec 704) : BitVec 1024 :=
  r.npoi ++ r.prog ++ body ++ r.dst ++ r.src ++ r.next ++ r.djref ++ r.sjref ++ 0#2 ++
    ((r.bar.map BarOp.code).getD 0 : BitVec 9) ++ flag r.bar.isSome ++ flag r.dstsp ++ flag r.srcsp ++ r.poison.code ++
    flag r.wm ++ r.scope.code ++ (BitVec.ofFin r.cls : BitVec 4) ++ kind ++ 0#3 ++ 1#1

/-- A counter of a walk, 12 bytes (R268). -/
def encCtr (c : WalkCtr) : BitVec 96 := c.dstr ++ c.sstr ++ 0#16 ++ c.count

/-- Bytes 32 to 119 of AFF and RED; x: bytes 34 to 39. -/
def encWalk (w : Walk) (x : BitVec 48) : BitVec 704 :=
  0#64 ++ encCtr w.c5 ++ encCtr w.c4 ++ encCtr w.c3 ++ encCtr w.c2 ++ encCtr w.c1 ++ encCtr w.c0 ++ x ++ w.esize

/-- A command block (R282). -/
def encBlock (h : BlockHead) (op : BitVec 8) (inplace : Bool) (rop : BitVec 2) (fmt : BitVec 4) (stain : Word) : Code :=
  .block (0#32 ++ h.ntab ++ stain ++ h.status ++ h.rowBytes ++ h.count ++ h.data ++ h.index ++ h.table ++ h.djref ++
    flag h.bar.isSome ++ 0#6 ++ ((h.bar.map BarOp.code).getD 0 : BitVec 9) ++ fmt ++ 0#2 ++ rop ++ 0#1 ++ flag inplace ++
    flag h.countReg ++ flag h.isp ++ flag h.dsp ++ flag h.tsp ++ h.poison.code ++ 0#1 ++ h.scope.code ++
    (BitVec.ofFin h.cls : BitVec 4) ++ op)

/-- PKIND of a participant set (R351). -/
def Parts.kind : Parts → BitVec 2
  | .row => 0 | .column => 1 | .rect .. => 2 | .list _ => 3

/-- PSPEC of a participant set (R351). -/
def Parts.spec : Parts → Word
  | .row | .column => 0
  | .rect r0 c0 r1 c1 =>
    0#48 ++ (BitVec.ofFin c1 : BitVec 4) ++ (BitVec.ofFin r1 : BitVec 4) ++ (BitVec.ofFin c0 : BitVec 4) ++
      (BitVec.ofFin r0 : BitVec 4)
  | .list a => a

/-- A collective descriptor (R351). -/
def encDesc (h : DescHead) (op : BitVec 8) (fmt : BitVec 4) (rop : BitVec 2) (root : BitVec 16) (cntv offs : Word) : Code :=
  .desc (h.status ++ offs ++ cntv ++ h.recv ++ h.send ++ h.rcap ++ h.count ++ h.parts.spec ++ root ++ h.tag ++
    flag h.bar.isSome ++ ((h.bar.map BarOp.code).getD 0 : BitVec 9) ++ (BitVec.ofFin h.cls : BitVec 4) ++ h.parts.kind ++
    0#2 ++ rop ++ fmt ++ op)

/-- The encoding of an instruction; none for an event and for a word that raises when decoded. -/
def encode : Instr → Option Code
  | .add d a b => some (.control (encCR 0x01 (reg5 d) (reg5 a) (reg5 b) 0x000))
  | .sub d a b => some (.control (encCR 0x01 (reg5 d) (reg5 a) (reg5 b) 0x001))
  | .mul d a b => some (.control (encCR 0x01 (reg5 d) (reg5 a) (reg5 b) 0x002))
  | .mulh d a b => some (.control (encCR 0x01 (reg5 d) (reg5 a) (reg5 b) 0x003))
  | .mulhu d a b => some (.control (encCR 0x01 (reg5 d) (reg5 a) (reg5 b) 0x004))
  | .div d a b => some (.control (encCR 0x01 (reg5 d) (reg5 a) (reg5 b) 0x005))
  | .divu d a b => some (.control (encCR 0x01 (reg5 d) (reg5 a) (reg5 b) 0x006))
  | .rem d a b => some (.control (encCR 0x01 (reg5 d) (reg5 a) (reg5 b) 0x007))
  | .remu d a b => some (.control (encCR 0x01 (reg5 d) (reg5 a) (reg5 b) 0x008))
  | .and d a b => some (.control (encCR 0x01 (reg5 d) (reg5 a) (reg5 b) 0x009))
  | .or d a b => some (.control (encCR 0x01 (reg5 d) (reg5 a) (reg5 b) 0x00A))
  | .xor d a b => some (.control (encCR 0x01 (reg5 d) (reg5 a) (reg5 b) 0x00B))
  | .shl d a b => some (.control (encCR 0x01 (reg5 d) (reg5 a) (reg5 b) 0x00C))
  | .shr d a b => some (.control (encCR 0x01 (reg5 d) (reg5 a) (reg5 b) 0x00D))
  | .sra d a b => some (.control (encCR 0x01 (reg5 d) (reg5 a) (reg5 b) 0x00E))
  | .min d a b => some (.control (encCR 0x01 (reg5 d) (reg5 a) (reg5 b) 0x00F))
  | .max d a b => some (.control (encCR 0x01 (reg5 d) (reg5 a) (reg5 b) 0x010))
  | .minu d a b => some (.control (encCR 0x01 (reg5 d) (reg5 a) (reg5 b) 0x011))
  | .maxu d a b => some (.control (encCR 0x01 (reg5 d) (reg5 a) (reg5 b) 0x012))
  | .slt d a b => some (.control (encCR 0x01 (reg5 d) (reg5 a) (reg5 b) 0x013))
  | .sltu d a b => some (.control (encCR 0x01 (reg5 d) (reg5 a) (reg5 b) 0x014))
  | .clz d a => some (.control (encCR 0x01 (reg5 d) (reg5 a) 0 0x015))
  | .popc d a => some (.control (encCR 0x01 (reg5 d) (reg5 a) 0 0x016))
  | .sel d a b => some (.control (encCR 0x01 (reg5 d) (reg5 a) (reg5 b) 0x017))
  | .addi d a i => some (.control (encCI 0x02 (reg5 d) (reg5 a) i))
  | .andi d a i => some (.control (encCI 0x03 (reg5 d) (reg5 a) i))
  | .ori d a i => some (.control (encCI 0x04 (reg5 d) (reg5 a) i))
  | .xori d a i => some (.control (encCI 0x05 (reg5 d) (reg5 a) i))
  | .shli d a n => some (.control (encCI 0x06 (reg5 d) (reg5 a) (0#9 ++ (BitVec.ofFin n : BitVec 6))))
  | .shri d a n => some (.control (encCI 0x07 (reg5 d) (reg5 a) (0#9 ++ (BitVec.ofFin n : BitVec 6))))
  | .srai d a n => some (.control (encCI 0x08 (reg5 d) (reg5 a) (0#9 ++ (BitVec.ofFin n : BitVec 6))))
  | .slti d a i => some (.control (encCI 0x09 (reg5 d) (reg5 a) i))
  | .lih d i => some (.control (encCJ 0x0A (reg5 d) i))
  | .lsh d u => some (.control (encCJ 0x0B (reg5 d) u))
  | .beq a b o => some (.control (encCI 0x10 (reg5 a) (reg5 b) o))
  | .bne a b o => some (.control (encCI 0x11 (reg5 a) (reg5 b) o))
  | .blt a b o => some (.control (encCI 0x12 (reg5 a) (reg5 b) o))
  | .bge a b o => some (.control (encCI 0x13 (reg5 a) (reg5 b) o))
  | .bltu a b o => some (.control (encCI 0x14 (reg5 a) (reg5 b) o))
  | .bgeu a b o => some (.control (encCI 0x15 (reg5 a) (reg5 b) o))
  | .jal d o => some (.control (encCJ 0x16 (reg5 d) o))
  | .jalr d a i => some (.control (encCI 0x17 (reg5 d) (reg5 a) i))
  | .ld d a c s o => some (.control (encCM 0x20 (reg5 d) (reg5 a) c s.code o))
  | .ldu d a c s o => some (.control (encCM 0x21 (reg5 d) (reg5 a) c s.code o))
  | .st d a c s o => some (.control (encCM 0x22 (reg5 d) (reg5 a) c s.code o))
  | .lda d a s c p => some (.control (encCA 0x23 (reg5 d) (reg5 a) 0 (0#1 ++ s.code) c p))
  | .stl d a s c p => some (.control (encCA 0x24 (reg5 d) (reg5 a) 0 (0#1 ++ s.code) c p))
  | .amoSwap d a b c p => some (.control (encCA 0x25 (reg5 d) (reg5 a) (reg5 b) 0 c p))
  | .amoAdd d a b c p => some (.control (encCA 0x25 (reg5 d) (reg5 a) (reg5 b) 1 c p))
  | .amoAnd d a b c p => some (.control (encCA 0x25 (reg5 d) (reg5 a) (reg5 b) 2 c p))
  | .amoOr d a b c p => some (.control (encCA 0x25 (reg5 d) (reg5 a) (reg5 b) 3 c p))
  | .amoXor d a b c p => some (.control (encCA 0x25 (reg5 d) (reg5 a) (reg5 b) 4 c p))
  | .amoMin d a b c p => some (.control (encCA 0x25 (reg5 d) (reg5 a) (reg5 b) 5 c p))
  | .amoMax d a b c p => some (.control (encCA 0x25 (reg5 d) (reg5 a) (reg5 b) 6 c p))
  | .amoMaxu d a b c p => some (.control (encCA 0x25 (reg5 d) (reg5 a) (reg5 b) 7 c p))
  | .amoaSwap d a b c p => some (.control (encCA 0x26 (reg5 d) (reg5 a) (reg5 b) 0 c p))
  | .amoaAdd d a b c p => some (.control (encCA 0x26 (reg5 d) (reg5 a) (reg5 b) 1 c p))
  | .amoaAnd d a b c p => some (.control (encCA 0x26 (reg5 d) (reg5 a) (reg5 b) 2 c p))
  | .amoaOr d a b c p => some (.control (encCA 0x26 (reg5 d) (reg5 a) (reg5 b) 3 c p))
  | .amoaXor d a b c p => some (.control (encCA 0x26 (reg5 d) (reg5 a) (reg5 b) 4 c p))
  | .amoaMin d a b c p => some (.control (encCA 0x26 (reg5 d) (reg5 a) (reg5 b) 5 c p))
  | .amoaMax d a b c p => some (.control (encCA 0x26 (reg5 d) (reg5 a) (reg5 b) 6 c p))
  | .amoaMaxu d a b c p => some (.control (encCA 0x26 (reg5 d) (reg5 a) (reg5 b) 7 c p))
  | .amolSwap d a b c p => some (.control (encCA 0x27 (reg5 d) (reg5 a) (reg5 b) 0 c p))
  | .amolAdd d a b c p => some (.control (encCA 0x27 (reg5 d) (reg5 a) (reg5 b) 1 c p))
  | .amolAnd d a b c p => some (.control (encCA 0x27 (reg5 d) (reg5 a) (reg5 b) 2 c p))
  | .amolOr d a b c p => some (.control (encCA 0x27 (reg5 d) (reg5 a) (reg5 b) 3 c p))
  | .amolXor d a b c p => some (.control (encCA 0x27 (reg5 d) (reg5 a) (reg5 b) 4 c p))
  | .amolMin d a b c p => some (.control (encCA 0x27 (reg5 d) (reg5 a) (reg5 b) 5 c p))
  | .amolMax d a b c p => some (.control (encCA 0x27 (reg5 d) (reg5 a) (reg5 b) 6 c p))
  | .amolMaxu d a b c p => some (.control (encCA 0x27 (reg5 d) (reg5 a) (reg5 b) 7 c p))
  | .amoalSwap d a b c p => some (.control (encCA 0x28 (reg5 d) (reg5 a) (reg5 b) 0 c p))
  | .amoalAdd d a b c p => some (.control (encCA 0x28 (reg5 d) (reg5 a) (reg5 b) 1 c p))
  | .amoalAnd d a b c p => some (.control (encCA 0x28 (reg5 d) (reg5 a) (reg5 b) 2 c p))
  | .amoalOr d a b c p => some (.control (encCA 0x28 (reg5 d) (reg5 a) (reg5 b) 3 c p))
  | .amoalXor d a b c p => some (.control (encCA 0x28 (reg5 d) (reg5 a) (reg5 b) 4 c p))
  | .amoalMin d a b c p => some (.control (encCA 0x28 (reg5 d) (reg5 a) (reg5 b) 5 c p))
  | .amoalMax d a b c p => some (.control (encCA 0x28 (reg5 d) (reg5 a) (reg5 b) 6 c p))
  | .amoalMaxu d a b c p => some (.control (encCA 0x28 (reg5 d) (reg5 a) (reg5 b) 7 c p))
  | .cas d a b o c p => some (.control (encCA 0x29 (reg5 d) (reg5 a) (reg5 b) o.code c p))
  | .fenceAcq m p => some (.control (encCF m p 1))
  | .fenceRel m p => some (.control (encCF m p 2))
  | .fenceFull m p => some (.control (encCF m p 3))
  | .waitaEq d a b c =>
    some (.control (encCR 0x2B (reg5 d) (reg5 a) (reg5 b) (0#1 ++ (BitVec.ofFin c : BitVec 4) ++ 0#5)))
  | .waitaNe d a b c =>
    some (.control (encCR 0x2B (reg5 d) (reg5 a) (reg5 b) (1#1 ++ (BitVec.ofFin c : BitVec 4) ++ 0#5)))
  | .push m a => some (.control (encCR 0x30 (0#1 ++ m.code) (reg5 a) 0 0))
  | .popr d => some (.control (encCR 0x31 (reg5 d) 0 0 0))
  | .qcut a => some (.control (encCR 0x32 0 (reg5 a) 0 0))
  | .ltrim m a => some (.control (encCR 0x33 (0#1 ++ m.code) (reg5 a) 0 0))
  | .sets n a => some (.control (encCR 0x34 (reg5 n) (reg5 a) 0 0))
  | .gets d n => some (.control (encCR 0x35 (reg5 d) (reg5 n) 0 0))
  | .hld n a c o => some (.control (encCM 0x36 (0#1 ++ (BitVec.ofFin n : BitVec 4)) (reg5 a) c 3 o))
  | .hst n a c o => some (.control (encCM 0x37 (0#1 ++ (BitVec.ofFin n : BitVec 4)) (reg5 a) c 3 o))
  | .hset n a s => some (.control (encCR 0x38 (0#1 ++ (BitVec.ofFin n : BitVec 4)) (reg5 a) 0 s.code))
  | .hget d n s => some (.control (encCR 0x39 (reg5 d) (0#1 ++ (BitVec.ofFin n : BitVec 4)) 0 s.code))
  | .bari a o => some (.control (encCS 0x40 0 (reg5 a) false o.code))
  | .barv a o => some (.control (encCS 0x41 0 (reg5 a) false o.code))
  | .barvBare o => some (.control (encCS 0x41 0 0 true o.code))
  | .barx a o => some (.control (encCS 0x42 0 (reg5 a) false o.code))
  | .barw p o => some (.control (encCS 0x43 0 0 p o.code))
  | .mbs a m => some (.control (encCS 0x44 0 (reg5 a) false (0#8 ++ flag m)))
  | .mbr d m => some (.control (encCS 0x45 (reg5 d) 0 false (0#8 ++ flag m)))
  | .tubset a o => some (.control (encCS 0x46 0 (reg5 a) false o.code))
  | .tubarmOn o => some (.control (encCS 0x47 0 0 true o.code))
  | .tubarmOff o => some (.control (encCS 0x47 0 0 false o.code))
  | .spa d a => some (.control (encCR 0x48 (reg5 d) (reg5 a) 0 0))
  | .spra d a => some (.control (encCR 0x49 (reg5 d) (reg5 a) 0 0))
  | .spf a => some (.control (encCR 0x4A 0 (reg5 a) 0 0))
  | .sprst a => some (.control (encCR 0x4B 0 (reg5 a) 0 0))
  | .specb p => some (.control (encCR 0x4C 0 0 0 (0#8 ++ (BitVec.ofFin p : BitVec 2))))
  | .specc p => some (.control (encCR 0x4D 0 0 0 (0#8 ++ (BitVec.ofFin p : BitVec 2))))
  | .speca p => some (.control (encCR 0x4E 0 0 0 (0#8 ++ (BitVec.ofFin p : BitVec 2))))
  | .chain a n => some (.control (encCR 0x50 0 (reg5 a) 0 (0#7 ++ (BitVec.ofFin n : BitVec 3))))
  | .cpyx d a b k n =>
    some (.control (encCR 0x51 (reg5 d) (reg5 a) (reg5 b)
      (0#3 ++ (BitVec.ofFin k : BitVec 4) ++ (BitVec.ofFin n : BitVec 3))))
  | .cwait a n => some (.control (encCR 0x52 0 (reg5 a) 0 (0#7 ++ (BitVec.ofFin n : BitVec 3))))
  | .ixc a => some (.control (encCR 0x53 0 (reg5 a) 0 0))
  | .darnRank d a => some (.control (encCR 0x54 (reg5 d) (reg5 a) 0 0))
  | .darnCommit d a => some (.control (encCR 0x54 (reg5 d) (reg5 a) 0 1))
  | .darnStain d a => some (.control (encCR 0x54 (reg5 d) (reg5 a) 0 2))
  | .darnList d a => some (.control (encCR 0x54 (reg5 d) (reg5 a) 0 3))
  | .darnClear d a => some (.control (encCR 0x54 (reg5 d) (reg5 a) 0 4))
  | .wrng a => some (.control (encCR 0x55 0 (reg5 a) 0 0))
  | .strt m a => some (.control (encCR 0x58 (0#1 ++ m.code) (reg5 a) 0 0))
  | .join => some (.control (encCR 0x59 0 0 0 0))
  | .launch a b => some (.control (encCR 0x5A 0 (reg5 a) (reg5 b) 0))
  | .yield => some (.control (encCR 0x5B 0 0 0 0))
  | .trap i => some (.control (encCI 0x60 0 0 (0#1 ++ i)))
  | .tfence => some (.control (encCR 0x61 0 0 0 0))
  | .eret => some (.control (encCR 0x62 0 0 0 0))
  | .esc => some (.control (encCR 0x63 0 0 0 0))
  | .csrr d c => some (.control (encCI 0x64 (reg5 d) 0 (0#3 ++ c)))
  | .csrw a c => some (.control (encCI 0x65 0 (reg5 a) (0#3 ++ c)))
  | .nop => some (.control (encCR 0x70 0 0 0 0))
  | .cycle d => some (.control (encCR 0x71 (reg5 d) 0 0 0))
  | .issue t p f v => some (.patch (encPatch 0 t p f v) none)
  | .amend p f v => some (.patch (encPatch 1 { wf := false, wb := false, sf := false, sb := false } p f v) none)
  | .wide t p f u => some (.patch (encPatch 3 t p f 0) (some u))
  | .loopImm s n => some (.patch (encCtrl 0x01 (0#2 ++ (BitVec.ofFin s : BitVec 2) ++ n)) none)
  | .loopReg s r =>
    some (.patch (encCtrl 0x01 (1#2 ++ (BitVec.ofFin s : BitVec 2) ++ 0#11 ++ (BitVec.ofFin r : BitVec 5))) none)
  | .endl => some (.patch (encCtrl 0x02 0) none)
  | .stop => some (.patch (encCtrl 0x03 0) none)
  | .rdv => some (.patch (encCtrl 0x04 0) none)
  | .bwt p o => some (.patch (encCtrl 0x05 (0#10 ++ flag p ++ o.code)) none)
  | .bav c o => some (.patch (encCtrl 0x06 (0#1 ++ c ++ o.code)) none)
  | .patl p n g =>
    some (.patch (encCtrl 0x07 ((BitVec.ofFin p : BitVec 6) ++ (BitVec.ofFin n : BitVec 6) ++ 0#2 ++
      (BitVec.ofFin g : BitVec 6))) none)
  | .toks q n => some (.patch (encCtrl 0x08 (flag q ++ 0#15 ++ (BitVec.ofFin n : BitVec 4))) none)
  | .pred s => some (.patch (encCtrl 0x09 (0#18 ++ (BitVec.ofFin s : BitVec 2))) none)
  | .vadd o => some (encV 0x01 o) | .vsub o => some (encV 0x02 o) | .vmul o => some (encV 0x03 o)
  | .vfma o => some (encV 0x04 o) | .vfms o => some (encV 0x05 o) | .vmax o => some (encV 0x06 o)
  | .vmin o => some (encV 0x07 o) | .vabs o => some (encV 0x08 o) | .vneg o => some (encV 0x09 o)
  | .vcmp o k => some (encVm 0x0A o (0#13 ++ k.code))
  | .vsel o => some (encV 0x0B o) | .vcvt o => some (encV 0x0C o)
  | .vqnt o => some (encVm 0x0D o 0) | .vdqnt o => some (encVm 0x0E o 0)
  | .vscl o => some (encV 0x0F o) | .vexp2 o => some (encV 0x10 o) | .vlog2 o => some (encV 0x11 o)
  | .vrcp o => some (encV 0x12 o) | .vrsq o => some (encV 0x13 o) | .vsqrt o => some (encV 0x14 o)
  | .vdiv o => some (encV 0x15 o)
  | .viadd o => some (encV 0x18 o) | .visub o => some (encV 0x19 o) | .vimul o => some (encV 0x1A o)
  | .vand o => some (encV 0x1B o) | .vor o => some (encV 0x1C o) | .vxor o => some (encV 0x1D o)
  | .vshl o => some (encV 0x1E o) | .vshr o => some (encV 0x1F o) | .vsra o => some (encV 0x20 o)
  | .vimax o => some (encV 0x21 o) | .vimin o => some (encV 0x22 o) | .vmov o => some (encV 0x28 o)
  | .vbc o k => some (encVm 0x29 o k.code)
  | .viota o => some (encVm 0x2A o 0)
  | .vred o op => some (encVm 0x2B o (0#13 ++ op.code))
  | .vscan o op x => some (encVm 0x2C o (0#12 ++ flag x ++ op.code))
  | .vsegr o op => some (encVm 0x2D o (0#13 ++ op.code))
  | .vperm o => some (encVm 0x2E o 0) | .vpack o => some (encVm 0x2F o 0) | .vunpk o => some (encVm 0x30 o 0)
  | .vpart o => some (encVm 0x38 o 0)
  | .vrank o pos => some (encVm 0x39 o (0#15 ++ flag pos))
  | .vprune o p => some (encVm 0x3A o (0#8 ++ p.code))
  | .vrng o => some (encVm 0x3B o 0) | .vgumb o => some (encVm 0x3C o 0)
  | .vtree o k h => some (encVm 0x3D o (0#4 ++ (BitVec.ofFin h : BitVec 4) ++ 0#3 ++ k.code))
  | .vlut o => some (encVm 0x3E o 0) | .vpost o => some (encVm 0x3F o 0)
  | .mlb o =>
    some (.pattern .mx (encPat 0x01 o.hdr false o.lane.code (o.fmt.code ++ 0#12) o.k.code o.n.code o.org.code o.src.code
      (0#11 ++ flag o.bank ++ (BitVec.ofFin o.h : BitVec 4))))
  | .mma o =>
    some (.pattern .mx (encPat 0x02 o.hdr false o.lane.code (o.fmt.code ++ 0#4 ++ (BitVec.ofFin o.base : BitVec 8)) o.k.code
      o.m.code o.org.code o.src.code (0#9 ++ o.mask.code ++ flag o.bank ++ (BitVec.ofFin o.h : BitVec 4))))
  | .mmb o =>
    some (.pattern .mx (encPat 0x03 o.hdr false o.lane.code (o.fmt.code ++ 0#12) o.k.code o.m.code o.org.code o.src.code
      (0#9 ++ o.mask.code ++ flag o.bank ++ (BitVec.ofFin o.h : BitVec 4))))
  | .msa o =>
    some (.pattern .mx (encPat 0x04 o.hdr false 0 (0#8 ++ (BitVec.ofFin o.base : BitVec 8)) o.n.code o.k.code o.m.code
      o.rb.code o.ra.code))
  | .macz o =>
    some (.pattern .mx (encPat 0x05 o.hdr false 0 0 0 0 0 o.m.code
      (0#7 ++ flag o.bpf ++ (BitVec.ofFin o.base : BitVec 8))))
  | .macr o =>
    some (.pattern .mx (encPat 0x06 o.hdr false (bits o.fill.value 16 16) (bits o.fill.value 0 16)
      (o.fmt.code ++ 0#4 ++ o.rm.code ++ 0#5) o.n.code o.m.code
      (0#5 ++ flag o.int ++ o.fill.code ++ (BitVec.ofFin o.base : BitVec 8)) o.reg.code))
  | .macw o =>
    some (.pattern .mx (encPat 0x07 o.hdr false 0 0 (o.fmt.code ++ 0#4 ++ o.rm.code ++ 0#5) o.n.code o.m.code
      (0#5 ++ flag o.int ++ 0#2 ++ (BitVec.ofFin o.base : BitVec 8)) o.reg.code))
  | .mmad o =>
    some (.pattern .mx (encPat 0x08 o.hdr o.rel (bits o.fill.value 16 16) (bits o.fill.value 0 16)
      (o.cf.code ++ o.af.code ++ o.bf.code ++ o.rm.code ++ flag o.acc) o.k.code o.n.code o.m.code
      (o.fill.code ++ o.mask.code ++ (BitVec.ofFin o.hc : BitVec 4) ++ (BitVec.ofFin o.hb : BitVec 4) ++
        (BitVec.ofFin o.ha : BitVec 4))))
  | .ldt o => some (encTile .ld 0x01 o)
  | .ldv o => some (encLin .ld 0x02 o 0)
  | .ldb o q => some (encLin .ld 0x03 o q.code)
  | .ldg o => some (encIdx .ld 0x04 o)
  | .ldz o =>
    some (.pattern .ld (encPat 0x05 o.hdr false 0 0 o.n.code 0 0 (0#12 ++ (BitVec.ofFin o.h : BitVec 4)) o.reg.code))
  | .stt o => some (encTile .st 0x01 o)
  | .stv o => some (encLin .st 0x02 o 0)
  | .sts o => some (encIdx .st 0x03 o)
  | .sta o => some (encIdx .st 0x04 o)
  | .stq o => some (encTile .st 0x05 o)
  | .aff r w => some (.record (encRec r 1 (encWalk w 0)))
  | .red r w op fmt rm sat =>
    some (.record (encRec r 2 (encWalk w
      (0#8 ++ (0#4 ++ flag sat ++ rm.code) ++ (0#4 ++ fmt.code) ++ (0#6 ++ op.code) ++ 0#16))))
  | .mcst r len n dl => some (.record (encRec r 3 (0#576 ++ dl ++ 0#16 ++ n ++ len)))
  | .sig r v => some (.record (encRec r 4 (0#640 ++ v)))
  | .pgt r p e n offs => some (.record (encRec r 5 (0#576 ++ offs ++ 0#16 ++ n ++ e ++ p)))
  | .skip r => some (.record (encRec r 6 0))
  | .gth b => some (encBlock b 1 false 0 0 0)
  | .sct b => some (encBlock b 2 false 0 0 0)
  | .sca b op fmt => some (encBlock b 3 false op.code fmt.code 0)
  | .cpt b inplace stain => some (encBlock b 4 inplace 0 0 stain)
  | .allred d op fmt => some (encDesc d 1 fmt.code op.code 0 0 0)
  | .redsc d op fmt => some (encDesc d 2 fmt.code op.code 0 0 0)
  | .allgv d fmt offs => some (encDesc d 3 fmt.code 0 0 0 offs)
  | .a2av d fmt cntv offs => some (encDesc d 4 fmt.code 0 0 cntv offs)
  | .bcast d fmt root => some (encDesc d 5 fmt.code 0 root 0 0)
  | .argn d dies => some (encDesc d 6 0 0 0 dies 0)
  | .fbar d => some (encDesc d 7 0 0 0 0 0)
  | _ => none

/-- What the decoder reads from an encoding. -/
def decodeCode : Code → Option Instr
  | .control w => some (decodeControl 3 w)
  | .patch w u => some (decodePatch w u)
  | .pattern e p => decodePattern e p
  | .record r => decodeRecord r
  | .block b => decodeBlock b
  | .desc d => decodeDesc d

/-- The instruction is one that a word raises on, not an instruction of the tables. -/
def Instr.raises : Instr → Bool
  | .unassignedMajor _ | .illegalInstr _ _ | .illegalPatch _ _ => true
  | _ => false

/-- The instruction of a table row's word. A word of 32 bits is a control-core word or a patch word, and the bits alone do not
say which: the control-core reading is taken where it is an instruction, then the patch reading (a WIDE pair has its second word
in bits 63..32), then the control-core reading's own rejection. -/
def decodeTableWord (nbits w : Nat) : Option Instr :=
  let lo : Word32 := BitVec.ofNat 32 (w % 2 ^ nbits)
  let hi : Word32 := BitVec.ofNat 32 (w % 2 ^ nbits / 2 ^ 32)
  let c := decodeControl 3 lo
  let p := decodePatch lo (if isWide lo then some hi else none)
  some (if !c.raises then c else if !p.raises then p else c)

end Sys2Proof
end

