-- ==== Sys2Proof/Machine/State.lean ====
section
/-! DEFINITION. The state of one Fjomond 9 device as plain data: every piece of state that INVENTORY.md lists, and the state
right after a device reset. -/

namespace Sys2Proof.Machine

/-! ### Traps and waits of a job -/

/-- Trap causes (15_traps.md R319). -/
inductive Cause where
  | illegalInstr | illegalPatch | encodingVersion | misaligned | pageNotPresent | pagePermission | poison
  | remoteUnreachable | remotePermission | spoolExhausted | spadBounds | handleInvalid | shapeInvalid | barrierMisuse
  | bastingMisuse | arith | brk | queueMisuse | watermarkWalk | mailboxMisuse | tubMisuse | darnFault
  | collectiveFault | absentContext | pteInvalid | doubleTrap | escalated
  deriving DecidableEq, Repr

/-- A trap on its way to the control stream (15_traps.md R322): cause, TVAL, TPROG, STREAM code, SIB, ORIG, and for the control
stream the PC to which ERET returns. clock: the clock of the stop, by which pending traps are ordered; tub: the scratchpad tub whose
action has stopped (R336); word: an engine stream has stopped at its word, and not at an operation that it issued before; slot: the collective
of which a part has stopped (16_fabric.md R357); age: of two blocks or collectives of a job the older has the lower one (R322). -/
structure Trap where
  cause : Cause
  val : Word
  prog : Word
  stream : BitVec 8
  sib : Bool
  orig : BitVec 8
  pc : Word
  clock : Nat := 0
  tub : Option Nat := none
  word : Bool := false
  slot : Option Nat := none
  age : Nat := 0
  deriving DecidableEq, Repr

/-- A node of a command graph in its gen-th start (04_jobs.md R98 to R100). -/
structure NodeRef where
  asid : BitVec 16
  g : Nat
  node : Nat
  gen : Nat
  deriving DecidableEq, Repr

/-- A party that makes accesses (14_ordering.md R303). -/
inductive Unit where
  | ctl (job : Nat)
  | eng (job : Nat) (e : Engine)
  /-- an engine stream as it reads its words and patterns; .eng is its operation -/
  | words (job : Nat) (e : Engine)
  | chan (core n : Nat)
  /-- the index engine at a job's block; sib: at the block that the sibling core has taken over -/
  | index (job : Nat) (sib : Bool)
  | wringer (slot : Nat)
  /-- a launch: its messages to peers and its completion (04_jobs.md R85, R89) -/
  | launch (id : Nat)
  | tub (t : TubId)
  | node (n : NodeRef)
  | hub
  /-- no party is left to take the response -/
  | gone
  deriving DecidableEq, Repr

/-- Where an access waits at the watermark of channel n of a core: the len bytes from lo on, in the scratchpad of the owning job or as addresses
(12_copy_index.md R277). -/
structure Mark where
  core : Nat
  n : Nat
  owner : Option Nat
  lo : Nat
  len : Nat
  deriving DecidableEq, Repr

/-- What the control stream is waiting for. blocked, stalled, dstall and qstall: the instruction at the PC is executed again at the
stream's next turn; dstall, fence and qstall are counted in CSRs DSTALL and QSTALL (05_control_core.md R111). -/
inductive CtlWait where
  | ready
  | blocked
  /-- An access of the instruction is not yet made, or not yet answered: the instruction completes before a stop (R133). mark: the
  watermark at which it waits. -/
  | stalled (mark : Option Mark)
  | dstall
  /-- MBS on a full mailbox, or MBR on an empty one (05_control_core.md R128). -/
  | mailbox
  /-- A TFENCE whose operations have not all ended (15_traps.md R326). -/
  | fence
  /-- A full queue of one of these engines (R110). -/
  | qstall (es : List Engine)
  /-- HLD has read its record, which waits for a free entry in every engine queue (06_registers.md R153); counted in QSTALL. -/
  | handing (n : Fin 16) (l : Layout)
  /-- A sleeping WAITA: the word, the test, its registers, class, start clock and limit (R125). -/
  | waita (ea : Word) (ne : Bool) (d b : Reg) (c : Cls) (t0 : Nat) (limit : Word)
  /-- BARW on a barrier until its phase differs from p (11_sync.md R255). -/
  | barrier (b : BarId) (p : Bool)
  /-- BARW whose phase has completed: it ends in the next clock (R255). -/
  | passed
  /-- YIELD since clock t0 (04_jobs.md R97). -/
  | yielding (t0 : Nat)
  /-- JOIN has arrived at a rendezvous (R94). -/
  | joined
  /-- STRT has read its PC vector, and restarts the engines left in turn (R93). -/
  | starting (left : List (Engine × Nat))
  /-- LAUNCH has checked its record, and its launch waits for room in its queue (R96). -/
  | enqueueing
  /-- IXC has read its block, resolved, which waits for room in the index queue (12_copy_index.md R284). -/
  | submitting (blk : BitVec 512) (count : Nat) (bar : Option BarId)
  /-- WRNG has read its descriptor and resolved its barrier, and waits for a free collective slot (16_fabric.md R352). -/
  | wringing (desc : BitVec 512) (bar : Option BarId)
  /-- Handed to Dvorol (15_traps.md R328, 13_memory.md R295). -/
  | dvorol (cause : Cause) (val : Word)
  /-- A write held for migration (13_memory.md R302). -/
  | held
  deriving DecidableEq, Repr

/-- A store of bytes inside this device. -/
inductive Space where
  | hbm
  | ddr
  | host
  | spad (core : Nat)
  deriving DecidableEq, Repr

/-- A store executed by a control stream and not yet performed, with the place that its translation gave and for a scratchpad the
owning job and its offset, or a release fence over the classes of its mask (14_ordering.md R305 to R309). -/
inductive Pending where
  | store (c : Cls) (sp : Space) (a : Nat) (owner : Option (Nat × Nat)) (data : List Byte)
  | fence (mask : BitVec 16)
  deriving DecidableEq, Repr

/-- Whether a unit goes on, or has stopped: at a trap, for Dvorol (13_memory.md R295), or at a held write (R302). -/
inductive Halt where
  | going | trapped | dvorol | held
  deriving DecidableEq, Repr

/-! ### Engine streams -/

/-- An entry of an engine queue with the ITAG that its appending instruction read (07_queues.md R163). -/
inductive QEntry where
  | seg (v : Word) (tag : BitVec 32)
  | set (n : Fin 32) (v : BitVec 32) (tag : BitVec 32)
  | hnd (n : Fin 16) (v : Layout) (tag : BitVec 32)
  | spf (lo : Nat) (tag : BitVec 32)
  /-- a translation marker of the k-th invalidation (13_memory.md R300) -/
  | inv (tag : BitVec 32) (k : Nat)
  deriving DecidableEq, Repr

/-- A frame of the loop unit (07_queues.md R174): PC of the LOOP word and of the word after it, N, N_eff, S, j, started, base,
the stage of the words being decoded, and whether a pre-emption has bounded it (R175, 15_traps.md R329). cut: the clock of the last LTRIM and
the N_eff that it found (R177). -/
structure Frame where
  loopPc : Nat
  start : Nat
  n : Nat
  nEff : Nat
  s : Nat
  j : Nat
  started : Nat
  base : Nat
  stage : Nat
  bounded : Bool
  cut : Option (Nat × Nat) := none
  deriving DecidableEq, Repr

/-- Bytes from an address of a store of this device on, or of a tier of another one (its index, and whether it is the DDR-5). -/
structure Span where
  far : Option (BitVec 8 × Bool)
  sp : Space
  a : Nat
  n : Nat
  deriving DecidableEq, Repr

/-- An issued operation: its copy of the pattern, its token bits, the shape registers and handles it read at issue, the units
done with their flags (02_numbers.md R41), and whether the sibling core has taken it over (03_encodings.md R58, 06_registers.md
R139, R162, 07_queues.md R178). fresh: the invalidations up to this one lie behind it, for it has been stopped by PTE_INVALID and translates
anew (13_memory.md R295); vecs: the vectors of its
handles that it has read (06_registers.md R152), a scale under length 0; vals: the values that an LDB has read, the last first (R157); whole: the
operation indices of INT4 elements whose byte has been written whole before (R161); rows: the rows and columns that an MMAD has read and uses
further, by 2 * row and by 2 * column + 1, each none where absent, else its tag and its lanes; start: the C values that it has read, by row and
column (09_matrix.md R225, R226, R229); guard: the bytes of an STA element at two places, which no other party accesses before it is done
(R158). -/
structure IOp where
  pat : Pattern
  toks : Toks
  shapes : Vector (BitVec 32) 32
  handles : Vector Layout 16
  prog : Nat
  flags : BitVec 7
  sib : Bool
  fresh : Nat := 0
  vecs : List ((Nat × Nat) × List Byte) := []
  vals : List Nat := []
  whole : List Nat := []
  rows : List (Nat × Option (Option (Nat × Nat) × List (Option Nat))) := []
  start : List ((Nat × Nat) × Nat) := []
  guard : List Span := []
  deriving DecidableEq, Repr

/-- What stands in an engine stream's pipeline, in issue order (07_queues.md R170, 11_sync.md R253). -/
inductive PipeItem where
  | waiting (o : IOp)
  | started (o : IOp)
  | pushes (f b : Bool)
  | bav (b : BarId) (c : BitVec 10)
  /-- a consumed spool-free marker, and a consumed translation marker (10_scratchpad.md R237, 13_memory.md R300) -/
  | spf (lo : Nat)
  | inv (k : Nat)
  deriving DecidableEq, Repr

/-- What an engine stream waits for beside tokens. -/
inductive EngWait where
  | ready
  /-- Waiting for its next segment (07_queues.md R164). -/
  | segment
  /-- At a BWT word (11_sync.md R255). -/
  | barrier (b : BarId) (p : Bool)
  /-- At a BWT word whose phase has completed (R255). -/
  | passed
  deriving DecidableEq, Repr

/-- One engine stream of a job. pc is an offset in the kernel image. -/
structure EngStream where
  pc : Nat
  stopped : Bool
  wait : EngWait
  /-- stopped at the word at its PC (15_traps.md R320, R401) -/
  halt : Halt
  /-- the operation at the head of the pipeline is stopped (R320) -/
  opHalt : Halt
  /-- rendezvous arrivals made (04_jobs.md R75) -/
  arrivals : Nat
  frames : List Frame
  /-- a bound of LTRIM held for the next loop, in 32 bits (07_queues.md R173, R177) -/
  held : Option (BitVec 32)
  /-- ITAG values of the segments begun (R176) -/
  begun : List (BitVec 32)
  queue : List QEntry
  /-- INV entries that wait for a free entry of the queue, which they take before anything else (07_queues.md R163, 13_memory.md R300) -/
  late : List QEntry := []
  pipe : List PipeItem
  shapes : Vector (BitVec 32) 32
  handles : Vector Layout 16
  /-- pattern slots, a slot never loaded holds zero (03_encodings.md R60) -/
  slots : Sparse 128
  /-- a pre-emption has bounded this stream, and the frames that it stood in then (15_traps.md R329) -/
  draining : Bool
  depth : Nat := 0
  /-- the invalidations up to this one lie behind all that it does: it has been held at a page, and goes on under the entries that stand when the
  page is released (13_memory.md R301, R302) -/
  fresh : Nat := 0
  /-- clocks for which it has been ready without issuing (04_jobs.md R90) -/
  w : Nat
  /-- its started operation holds the unit that the jobs of the core share (08_vector.md R180, 09_matrix.md R209) -/
  holds : Bool
  deriving DecidableEq, Repr

/-! ### The matrix array, the spool, basting, tubs -/

/-- A stationary bank (09_matrix.md R206, R219). Elements are kept by key column * 256 + lane as their bit pattern plus one (zero: absent); a column's
tag and position are none when it lies in no segment. -/
structure Bank where
  n : Nat
  k : Nat
  fmt : Fmt
  nm : Bool
  fin : Bool
  elems : Sparse 34
  tags : List (Option (Nat × Nat))
  deriving DecidableEq, Repr

/-- The array state of a job (09_matrix.md R206): ACC and LIVE by row * 96 + column, BPF by (row * 96 + column) * 8 + block. -/
structure Matrix where
  acc : Sparse 32
  live : Sparse 1
  bpf : Sparse 32
  bpfInt : Bool
  bpfLive : Sparse 1
  bank0 : Bank
  bank1 : Bank
  deriving DecidableEq, Repr

/-- A ring allocation (10_scratchpad.md R234) and the engines that have passed its marker (R237). -/
structure Ring where
  lo : Nat
  hi : Nat
  freed : Bool
  ld : Bool
  mx : Bool
  vx : Bool
  st : Bool
  deriving DecidableEq, Repr

/-- A basting pair (10_scratchpad.md R240, R241); cur and dirty by line. -/
structure Pair where
  bound : Bool
  base : Nat
  shadow : Nat
  bytes : Nat
  active : Bool
  cur : Sparse 1
  dirty : Sparse 1
  deriving DecidableEq, Repr

/-- The action of a tub with its resolved target (11_sync.md R257). -/
inductive TubAct where
  | none
  | arrive (b : BarId) (count : Nat)
  | launch (record : Word) (queue : Nat)
  | flag (addr : Word) (value : Word)
  deriving DecidableEq, Repr

/-- A tub (11_sync.md R256 to R260). region: byte ranges (first, length), job offsets for a scratchpad tub and HBM addresses
for a memory tub. fires: the actions of firings that are not yet performed, oldest first; waitq: the oldest waits for room in its
queue (04 R84); halted: the oldest has stopped at a fault (15_traps.md R336). -/
structure Tub where
  set : Bool
  armed : Bool
  halted : Bool
  count : Nat
  total : Nat
  rearm : Bool
  scope : Scope
  act : TubAct
  region : List (Nat × Nat)
  asid : BitVec 16
  fires : List TubAct
  waitq : Bool
  /-- firings performed so far, which a graph WAIT node compares (04_jobs.md R100) -/
  fired : Nat
  /-- the record copy that TUBSET keeps (R257) -/
  record : BitVec 256
  deriving DecidableEq, Repr

/-! ### Index blocks, channels -/

/-- The translation of a record or of a status that its unit keeps to the end (12_copy_index.md R402). -/
inductive Pin where
  | hbm (a : Nat)
  | ddr (a : Nat)
  | host (a : Nat)
  | remote (dev : BitVec 8) (ddr : Bool) (a : Nat)
  deriving DecidableEq, Repr

/-- A submitted command block: its copy, its barrier, the translated count, and its progress (12_copy_index.md R282 to R287). -/
structure IdxEntry where
  blk : BitVec 512
  count : Nat
  bar : Option BarId
  running : Bool
  halt : Halt
  /-- every row is done, and the completion is not -/
  finishing : Bool
  prog : Nat
  npoi : BitVec 32
  fpoi : BitVec 32
  kept : Nat
  /-- cause of the last stop -/
  cause : BitVec 8
  /-- places of the doublewords of STATUS, none before the block has started, and the status writes not yet performed with their
  offsets (R402); wait: they wait for the restart -/
  pins : List (Option Pin)
  owed : List (Nat × List Byte)
  wait : Bool
  flags : BitVec 7
  /-- taken over by the sibling core (R288) -/
  sib : Bool
  /-- the first invalidation since its start, whose marker stands behind it (13_memory.md R300) -/
  old : Option Nat
  /-- it holds the index engine (12_copy_index.md R282) -/
  holds : Bool
  /-- CPT: the row at PROG has moved, and its stain bit is still to be set (R285) -/
  moved : Bool := false
  /-- SCA: the bytes of an element that is combined at two places, which no other party accesses before that is done (R285) -/
  guard : List Span := []
  deriving DecidableEq, Repr

/-- The state of a physical copy channel (12_copy_index.md R262, R265, R281). -/
inductive ChanSt where
  | idle
  /-- about to read the record at its walk address -/
  | fetch
  /-- performing the record read -/
  | walking
  /-- every unit of the record is done -/
  | finishing
  | parked
  deriving DecidableEq, Repr

/-- A CPYX transfer (12_copy_index.md R279): addresses, length, class, bytes done. -/
structure Cpyx where
  src : Word
  dst : Word
  len : Nat
  cls : Cls
  done : Nat
  deriving DecidableEq, Repr

/-- A physical copy channel. wm: the destination range [WMARK, end) of a running WM record, as addresses in the form the record
uses (a scratchpad offset with spad true). table: the image table of a PGT record, as row pointers, width and height, once it is read;
rowptr: an image and its row pointers (R272); dests: the destination list of an MCST record, once it is read (13_memory.md R400). why: the cause and value of its last stop. -/
structure Chan where
  st : ChanSt
  job : Nat
  /-- the core and number of the physical channel -/
  core : Nat
  n : Nat
  addr : Word
  raw : BitVec 1024
  prog : Nat
  /-- bytes sent to the MCST destination that is being sent; of PGT, 1 once off[0] has been written (R272) -/
  sub : Nat
  npoi : Nat
  /-- translation of the record, and the progress and completion writes not yet performed with their offsets (R402); wait: they
  wait for the restart -/
  pin : Option Pin
  owed : List (Nat × List Byte)
  wait : Bool
  wmEnd : Word
  wmSpad : Bool
  wmRun : Bool
  wmScope : Scope
  bar : Option BarId
  cpyx : Option Cpyx
  /-- the graph COPY node that joined the chain (04_jobs.md R100) -/
  graph : Option NodeRef
  /-- the first invalidation whose marker is not yet applied (13_memory.md R300) -/
  marker : Option Nat
  /-- stopped at a fault (R281) -/
  halt : Halt
  /-- the job whose scratchpad the watermark range lies in -/
  wmJob : Nat
  table : Option (List (Word × Nat × Nat))
  rowptr : Option (Nat × List Word)
  dests : Option (List Byte) := none
  why : Option (Cause × Word)
  deriving DecidableEq, Repr

/-! ### Baskets -/

/-- An event-log entry of a basket (15_traps.md R332). tub: the object is a scratchpad tub. -/
inductive LogEntry where
  | arrive (b : BarId) (c : Nat)
  | bytes (b : BarId) (n : Nat)
  | tub (idx : Nat) (n : Nat)
  deriving DecidableEq, Repr

/-- A fault record (13_memory.md R299). core is 0xFFFF for a hub unit. -/
structure FaultRec where
  va : Word
  asid : BitVec 16
  core : Nat
  cause : Option Cause
  access : Access
  stream : Nat
  hold : Bool
  absent : Bool
  sib : Bool
  entry : Word
  level : Nat
  deriving DecidableEq, Repr

/-- A fault-log entry: cause, value, progress, STREAM code and SIB of the fault, the record of the access that it stopped, the
scratchpad tub whose action it was, and the collective of which a part has stopped (15_traps.md R336, 16_fabric.md R357). -/
structure FltEntry where
  cause : Cause
  val : Word
  prog : Word
  stream : Nat
  sib : Bool
  frec : FaultRec
  tub : Option Nat
  slot : Option Nat := none
  deriving DecidableEq, Repr

/-- A basket (15_traps.md R332): STATE 0 saving, 1 suspended, 2 folding, 3 resumed; laid: it is allotted in HBM at args.addr, where its
header, image and logs stand; lines: the lines of the region that the save, or the fold-in, has passed (R334, R337). -/
structure Basket where
  args : BasketArgs
  laid : Bool
  phase : Fin 4
  lines : Nat
  log : List LogEntry
  faults : List FltEntry
  deriving DecidableEq, Repr

/-! ### The Darn unit -/

/-- A DARN that has read its records (17_generation.md R358, R363): the sub-operation's code, the register of its result, the descriptor, record
and schedule that it read, the translation of REC, the offsets, SDONE, UDONE, the end of the list so far and the result so far. holds: it
has a context of its die's Darn unit, and waits for one otherwise. ended: it is done, or stopped at a fault, and its doubleword at REC + 48
is to be stored. -/
structure DarnRun where
  op : Nat
  d : Reg
  holds : Bool
  ended : Option (Option (Cause × Word))
  desc : BitVec 512
  rcd : BitVec 512
  sched : List Byte
  pin : Option Pin
  offs : List Nat
  first : Nat
  sdone : Nat
  udone : Nat
  listed : Nat
  result : Nat
  deriving DecidableEq, Repr

/-! ### Jobs -/

/-- The life of a job (04_jobs.md R73, R76; 15_traps.md R329, R334, R337). -/
inductive JobSt where
  | absent
  | placed
  | running
  | draining
  /-- its state is copied, and its lines are being saved -/
  | saving
  | suspended
  /-- its state is restored, and its lines are being restored -/
  | folding
  /-- its logged events are being replayed -/
  | replaying
  | retired
  deriving DecidableEq, Repr

/-- A level barrier of a job's group, for LBARℓ (04_jobs.md R81). -/
structure Level where
  idx : BitVec 32
  count : BitVec 32
  bar : Option BarOp
  deriving DecidableEq, Repr

/-- A job with its five streams and everything it owns. -/
structure Job where
  id : Nat
  st : JobSt
  launch : Nat
  /-- number in the launch's job order (12_copy_index.md R264) -/
  num : Nat
  asid : BitVec 16
  core : Nat
  cc : Bool
  /-- kernel image address and the encoding version of its header -/
  image : Word
  version : Nat
  levels : List Level
  topScope : Scope
  prio : Fin 4
  altArray : Bool
  -- allotments (04_jobs.md R77)
  mreg : Nat
  oreg : Nat
  pslot : Nat
  cbar : List BarId
  dbar : List BarId
  gbar : List BarId
  /-- the level barriers among them, with their level's scope (11_sync.md R247) -/
  lbars : List (BarId × Scope)
  stub : Nat
  -- program state (05_control_core.md R106, R108)
  x : Vector Word 32
  pc : Word
  flags : BitVec 7
  /-- flags joined in the clock that runs: a CSRW of FLAGS in the same clock does not lose them (02_numbers.md R42) -/
  clockFlags : BitVec 7
  fmask : BitVec 7
  dstall : Word
  qstall : Word
  itag : BitVec 32
  tvec : Word
  tcause : BitVec 8
  tval : Word
  tpc : Word
  tstream : BitVec 8
  tsib : Bool
  torig : BitVec 8
  tpend : Bool
  /-- the scratchpad tub whose action the trap being handled has stopped (R336) -/
  ttub : Option Nat
  /-- of one whose collective has stopped, the collective (16_fabric.md R357) -/
  tslot : Option Nat
  /-- the start clock of a WAITA whose load waits for Dvorol (05_control_core.md R125, 13_memory.md R295) -/
  waitaFrom : Option Nat
  /-- that trap has stopped an engine stream at its word (R327) -/
  tword : Bool
  hnd : Bool
  tprog : Word
  spbase : BitVec 24
  splim : BitVec 24
  spbump : BitVec 24
  sphead : BitVec 24
  pending : List Trap
  wait : CtlWait
  stores : List Pending
  /-- the first invalidation whose control-stream marker is not yet taken (13_memory.md R300) -/
  marker : Option Nat
  -- registers of the engines (06_registers.md)
  main : Sparse 8
  opnd : Sparse 8
  last : Sparse 8
  shapes : Vector (BitVec 32) 32
  handles : Vector Layout 16
  tokens : Vector (Fin 16) 8
  fifo : List Word
  ld : EngStream
  mx : EngStream
  vx : EngStream
  st' : EngStream
  /-- rendezvous arrivals of the control stream, and rendezvous completed -/
  arrivals : Nat
  rendezvous : Nat
  /-- the final rendezvous has completed and retirement waits (04_jobs.md R76) -/
  retiring : Bool
  matrix : Matrix
  rings : List Ring
  pend : List Nat
  pairs : Vector Pair 4
  tubs : List (Nat × Tub)
  index : List IdxEntry
  /-- clocks for which its first block has been ready to start (04_jobs.md R90, 12_copy_index.md R282) -/
  idxW : Nat
  inbox : List Word
  partner : Nat
  darn : Option DarnRun
  basket : Option Basket
  deriving DecidableEq, Repr

/-! ### Shared units -/

/-- An event of a barrier (11_sync.md R248). -/
inductive BarEvent where
  | arrive (c : Nat)
  | bytes (n : Nat)
  | expect (n : Int)
  deriving DecidableEq, Repr

/-- The counts of a barrier as a clock began (R249). -/
structure BarCounts where
  phase : Bool
  arrive : BitVec 16
  bytes : BitVec 32
  touched : Bool
  deriving DecidableEq, Repr

/-- A barrier (11_sync.md R248), with the resolved events that have not yet arrived (R261) and whether its job has retired. was: its counts
as the clock began and the events of the clock so far; none without one (R249). -/
structure Barrier where
  active : Bool
  phase : Bool
  init : BitVec 16
  arrive : BitVec 16
  bytes : BitVec 32
  touched : Bool
  owed : Nat
  orphan : Bool
  was : Option (BarCounts × List BarEvent) := none
  deriving DecidableEq, Repr

/-- Where a launch came from (04_jobs.md R83). -/
inductive Source where
  /-- the LAUNCH command of a queue and stamp -/
  | host (queue : Nat) (stamp : Word)
  | job (id : Nat)
  | tub (t : TubId)
  | graph (n : NodeRef)
  | peer (dev : BitVec 8)
  deriving DecidableEq, Repr

/-- A launch: its record as read, resolved counts, tile jobs, and how far it has come (04_jobs.md R83, R89). time: its place in the
order of enqueues; idx: the indices of its group in the replicated levels, the topmost first (R85); jobs: the jobs of its gang group;
refs: replicated groups refused by peers; resumeCmd: the command whose fold-in is under way (15_traps.md R337). -/
structure Launch where
  id : Nat
  queue : Nat
  asid : BitVec 16
  addr : Word
  raw : BitVec 2048
  version : Nat
  counts : List Nat
  tiles : List TileJob
  skipped : Nat
  idx : List Nat
  source : Source
  csync : Option BarId
  time : Nat
  placed : Bool
  started : Bool
  jobs : Nat
  retired : Nat
  refs : Nat
  suspended : Bool
  resumeCmd : Option (Nat × Word) := none
  deriving DecidableEq, Repr

/-- A launch queue (04_jobs.md R83): its class, the launches that wait in it, and the enqueues that wait for room (R84). -/
structure LQueue where
  cls : Nat
  entries : List Nat
  waiting : List Launch
  deriving DecidableEq, Repr

/-- A node of a command graph while the graph runs (04_jobs.md R100). -/
structure GNode where
  raw : BitVec 512
  pending : Nat
  running : Bool
  done : Bool
  /-- JOBS and COPY: 1 once the launch is enqueued or the chain joined; COND: 1 once the test has held, 2 once it has not; HOST: the
  entries in the ring; WAIT on a tub: the firings counted when the node started -/
  mark : Nat
  deriving DecidableEq, Repr

/-- A command graph of a context (04_jobs.md R98 to R102). -/
structure Graph where
  asid : BitVec 16
  num : Nat
  entry : Nat
  maxRun : Nat
  status : Word
  nodes : List GNode
  running : Bool
  gen : Nat
  runs : Nat
  result : Nat
  last : Nat
  deriving DecidableEq, Repr

/-- A section of a kernel image (03_encodings.md R66): its kind, its offset in the image and its bytes. -/
structure Section where
  kind : Nat
  off : Nat
  bytes : Nat
  deriving DecidableEq, Repr

/-- A kernel image that MODLOAD has loaded: its address, and what its header says (R66, 18_host.md R381). -/
structure Image where
  addr : Word
  version : Nat
  sections : List Section
  deriving DecidableEq, Repr

/-- A context (13_memory.md R289) and its loaded kernel images. -/
structure Context where
  args : CtxArgs
  images : List Image
  deriving DecidableEq, Repr

/-- A TLB (13_memory.md R296): the L1 TLB of a core, or the last-level TLB of a compute die. -/
inductive TlbAt where
  | l1 (core : Nat)
  | die (d : Nat)
  deriving DecidableEq, Repr

/-- A page-table entry that MAP has overwritten, as it stood before: accesses ahead of a marker to the virtual addresses from lo up to hi still
walk through it (R300). mark: the first invalidation of those addresses since. -/
structure OldPte where
  asid : BitVec 16
  ddr : Bool
  addr : Nat
  entry : Word
  lo : Nat
  hi : Nat
  mark : Option Nat
  deriving DecidableEq, Repr

/-- A MAP command that waits for an invalidation to complete (R301, R302): its queue and stamp, and its arguments as its event gives
them. step: an invalidation waits (0); a migration waits for the first (1), or for the second (2). inv: the invalidation that it waits for. entry,
size: the leaf entry before the migration, and the bytes of its page. -/
structure MapWork where
  queue : Nat
  stamp : Word
  asid : BitVec 16
  lo : Nat
  hi : Nat
  toDdr : Bool
  pa : Nat
  step : Fin 3
  inv : Nat
  entry : Word
  size : Nat
  deriving DecidableEq, Repr

/-- A translation held by a TLB (13_memory.md R296): page base, page bits (16, 21 or 30), leaf entry and the level it came
from. at': the core whose L1 TLB holds it, or the die whose last-level TLB does. born: the invalidations before it was read; stale, died: removed
by an invalidation, which it is, and seen only by accesses ahead of that marker (R300). -/
structure TlbEntry where
  at' : TlbAt
  asid : BitVec 16
  base : Nat
  bits : Nat
  leaf : Word
  stale : Bool
  born : Nat
  died : Nat
  deriving DecidableEq, Repr

/-- A collective slot (16_fabric.md R352): its number, its submitter, the submission with its descriptor copy and, as far as they are read, its
participants, counts and elements, the resolved barrier, how far it has come, and whether its part has stopped at a fault (R357).
phase: 0 submitted, 1 its descriptor is sent to the other participants, 2 the checks have passed and its elements are sent, 3 its
status is written. -/
structure Slot where
  id : Nat
  job : Nat
  asid : BitVec 16
  core : Nat
  part : PeerPart
  bar : Option BarId
  phase : Fin 4
  halt : Halt
  deriving DecidableEq, Repr

/-- A part submitted by a device of the fabric and not yet used (16_fabric.md R350), or one of this device that has completed, for a device
that counts this one among its participants and asks later (R353). -/
structure PartIn where
  dev : BitVec 8
  asid : BitVec 16
  tag : BitVec 16
  part : PeerPart
  deriving DecidableEq, Repr

/-- A link (16_fabric.md R340 to R342). tx: flits sent and not acknowledged, oldest first. rxNext: the LSEQ that is to come next. replays:
replays made of the flit that is to come; ask: one is asked for. again: the flit from which the partner last asked for a replay, and how
often. rx: payloads of packets that have not ended, with their virtual channels. wire: flits in the order in which they were sent, those of a
replay again, as far as they are not acknowledged. -/
structure Link where
  up : Bool
  tx : List Flit
  wire : List Flit
  txNext : Nat
  rxNext : Nat
  replays : Nat
  ask : Bool
  again : Nat × Nat
  rx : List (Nat × BitVec 512)
  deriving DecidableEq, Repr

/-- Whether a request waits for its response, has failed, or has failed and been reported to its party, its SEQ staying reserved
(16_fabric.md R346). -/
inductive OutSt where
  | waiting | failed | reported
  deriving DecidableEq, Repr

/-- A request without a response (16_fabric.md R344): the unit that waits for it, sends so far (0: it waits at its source for a route,
R340) and the clock of the last send. resynced: a RESYNC has passed since it was first sent (R346). key: the PC of the instruction
that makes the access, for a control stream. -/
structure Out where
  req : Request
  unit : Unit
  key : Word
  sends : Nat
  last : Nat
  st : OutSt
  resynced : Bool
  deriving DecidableEq, Repr

/-- A lint window for one source device (16_fabric.md R345). -/
structure Window where
  src : BitVec 8
  base : BitVec 32
  done : List (BitVec 32 × Response)
  deriving DecidableEq, Repr

/-- A response that came back for a unit's request and that the unit has not yet taken (16_fabric.md R344). -/
structure RBuf where
  unit : Unit
  key : Word
  req : Request
  resp : Response
  deriving DecidableEq, Repr

/-- A host command queue (18_host.md R376, R378). highest: the highest stamp notified; tries, first: the fetches of the next command
that have not seen its stamp, and the clock of the first of them. -/
structure HQueue where
  base : Word
  size : Word
  state : Word
  next : Word
  highest : Word
  tries : Nat
  first : Nat
  deriving DecidableEq, Repr

/-- A device-to-host ring (18_host.md R376, R379, R380). unsig: entries written since the last interrupt; first: the clock of
the first of them. -/
structure HRing where
  base : Word
  size : Word
  tailA : Word
  head : Word
  vec : Word
  coal : Word
  state : Word
  tail : Nat
  waiting : List (BitVec 512)
  unsig : Nat
  first : Nat
  deriving DecidableEq, Repr

/-- An access of a unit that acts for no job, which waits at an address with its record posted: for Dvorol, or at a held page
(13_memory.md R295, R298, R302). -/
structure HubWait where
  unit : Unit
  asid : BitVec 16
  va : Word
  dvorol : Bool
  deriving DecidableEq, Repr

/-- A command that Dvorol has fetched and not yet completed, with its ARGS, bytes 8 to 119 of its record (18_host.md R377, R378). -/
structure Cmd where
  queue : Nat
  opcode : Nat
  order : Bool
  tag : BitVec 32
  stamp : Word
  args : List Byte
  bad : Bool := false
  deriving DecidableEq, Repr

/-- An entry of the Dvorol error log (18_host.md R381). -/
inductive LogItem where
  | overArrival (b : BarId)
  | idleEvent (b : BarId)
  | eccCorrected (space : Nat) (line : Nat)
  | badPort (p : Nat)
  | launchRefused (asid : BitVec 16) (addr : Word) (code : Nat)
  | fault (r : FaultRec)
  | tubMisuse (t : TubId)
  deriving DecidableEq, Repr

/-! ### The schedule -/

/-- What moves next: a stream, an event, the performing of the k-th pending store of a job's control stream, the eviction of
the k-th TLB entry, a memory error, or nothing but the clock. -/
inductive Act where
  | run (job : Nat) (str : StreamRef)
  /-- complete the started operation at the head of an engine stream -/
  | op (job : Nat) (e : Engine)
  /-- continue the record of a channel, the k-th block of a job, the collective of a slot -/
  | chan (core n : Nat)
  | index (job k : Nat)
  | wringer (slot : Nat)
  | event (i : Instr)
  | perform (job k : Nat)
  | evict (k : Nat)
  /-- an ECC error in a line: tier 0 HBM, 1 DDR-5, 2 scratchpad (line numbers); double or corrected (R245, R388) -/
  | ecc (tier line : Nat) (double : Bool)
  /-- the host writes a byte of its own memory, or bytes with one request through BAR2 (18_host.md R375, R388) -/
  | hostWrite (addr : Nat) (b : Byte)
  | barWrite (off : Nat) (b : List Byte)
  /-- the host reads a register of BAR0 (18_host.md R376), or a byte through BAR2, and resizes BAR2 to 2 ^ log bytes (R375) -/
  | regRead (off : Nat)
  | barRead (off : Nat)
  | barSize (log : Nat)
  /-- Dvorol enlarges the logs of a basket (15_traps.md R333) -/
  | enlarge (job : Nat) (b : BasketArgs)
  /-- the partner at a port asks for a replay from a flit on (16_fabric.md R342); what it sends from here on is the replay that was asked for -/
  | replay (port lseq : Nat)
  | replayed (port : Nat)
  /-- the k-th request of another device that was held at a page is performed (13_memory.md R302) -/
  | released (k : Nat)
  /-- Dvorol learns that the link between two other devices is up or down (R340), and reports that no route to a device can come up
  (R346) -/
  | farLink (a b : BitVec 8) (up : Bool)
  | noRoute (dev : BitVec 8)
  /-- the partner at a port reports in training (18_host.md R385) -/
  | partner (p : PortIn)
  /-- Dvorol fetches the next command of a queue (18_host.md R378), or takes the oldest record of a die's fault queue
  (13_memory.md R298) -/
  | fetch (q : Fin 64)
  | takeFault (die : Nat)
  /-- Dvorol carries out the command of a queue and stamp (18_host.md R378, R381) -/
  | command (queue : Nat) (stamp : Word)
  | idle
  deriving DecidableEq, Repr

/-- A turn: the clocks that pass before it, whether plain stores of a control stream stay pending in it, and how many units of an
operation, a record or a block it performs at most (0: as many as it can). -/
structure Turn where
  dt : Nat
  delay : Bool
  units : Nat
  act : Act
  deriving DecidableEq, Repr

/-! ### Faults and refusals of the model -/

/-- Why a step ends without a next state. -/
inductive Fault where
  /-- Raised by Sys2Proof.Machine.step when the agenda names a stream whose job is not resident: no party of the device can
  move so. Safe: the hardware makes no such step. -/
  | noSuchStream
  deriving DecidableEq, Repr

/-- Why an instruction has no meaning here. -/
inductive Refusal where
  /-- An arm of exec that has no meaning yet. Safe: nothing is claimed of it. -/
  | notModelled (mnemonic : String)
  deriving DecidableEq, Repr

/-! ### The device -/

/-- The whole device. The focused job stands in `job`; every other job in `jobs`, by rising id. -/
structure State where
  -- the schedule (the model's own)
  agenda : List Turn
  turns : Nat
  delay : Bool
  units : Nat
  freeCtr : Nat
  nextJob : Nat
  nextLaunch : Nat
  -- the unit that acts: engine of a patch word, channel of a record, slot of a collective, block of a job
  curEng : Engine
  curCore : Nat
  curChan : Nat
  curSlot : Nat
  curIdx : Nat
  /-- the queue and stamp of the command that an event carries out, where the agenda names one -/
  curCmd : Option (Nat × Word)
  -- time, identity, bring-up
  clock : Nat
  bootStep : Nat
  patchApplied : Bool
  patchRejected : Bool
  bootFail : Nat
  epoch : BitVec 32
  row : Fin 16
  col : Fin 16
  rows : Fin 16
  cols : Fin 16
  ddrBytes : Nat
  powerState : Fin 4
  caps : List Nat
  bar2Base : Nat
  bar2Log : Nat
  /-- what the host's last read of a register or through BAR2 returned -/
  hostRead : Word
  measures : List (BitVec 512)
  /-- the report that the last MEASURE returned (18_host.md R387) -/
  report : List Byte
  errLog : List LogItem
  -- memories
  hbm : Sparse 8
  ddr : Sparse 8
  host : Sparse 8
  spad : Sparse 8
  hbmPoison : Sparse 1
  ddrPoison : Sparse 1
  spadPoison : Sparse 1
  zeroMap : Sparse 1
  gated : List (Nat × Nat)
  waking : List (Nat × Nat × Nat)
  -- translation
  tlb : List TlbEntry
  oldPtes : List OldPte
  /-- invalidations so far (13_memory.md R300) -/
  invs : Nat
  /-- requests of other devices held at a page that is being moved (R302) -/
  heldReqs : List Request
  works : List MapWork
  hubWaits : List HubWait
  faultQ : List (Nat × FaultRec)
  contexts : List Context
  -- jobs
  job : Job
  jobs : List Job
  -- shared units
  barriers : List (BarId × Barrier)
  tubs : List (Nat × Nat × Tub)
  chans : List Chan
  /-- WMARK of each physical channel, by 8 * core + channel (12_copy_index.md R276) -/
  wmarks : Sparse 64
  /-- the job that issued last at an engine of a core: 0 to 3 the engines, 4 the index engine (04_jobs.md R90) -/
  issued : List ((Nat × Nat) × Nat)
  queues : Vector LQueue 16
  launches : List Launch
  graphs : List Graph
  slots : List Slot
  parts : List PartIn
  /-- submissions so far of each context and tag (16_fabric.md R350) -/
  submits : List ((BitVec 16 × BitVec 16) × Nat)
  -- fabric
  links : List (Nat × Link)
  /-- ports whose partner has agreed in training (18_host.md R385) -/
  goodPorts : List Nat
  seqs : List (BitVec 8 × BitVec 32)
  outs : List Out
  windows : List Window
  epochs : List (BitVec 8 × BitVec 32)
  /-- the devices whose answer to RESYNC has not come: whether it has been sent, and when last (16_fabric.md R347) -/
  resyncs : List (BitVec 8 × Bool × Nat)
  /-- packets that wait here for a link: virtual channel and payloads, oldest first (R339, R340) -/
  outbox : List (Nat × List (BitVec 512))
  /-- the links between two other devices that Dvorol knows to be down (R340) -/
  farDown : List (BitVec 8 × BitVec 8)
  peers : Sparse 256
  rbuf : List RBuf
  sentResp : List Response
  -- host interface
  hqueues : List (Nat × HQueue)
  hrings : List (Nat × HRing)
  cmds : List Cmd
  interrupts : List (Nat × Nat)
  deriving DecidableEq, Repr

/-! ### Values at reset -/

/-- An engine stream with nothing in it, stopped. -/
def EngStream.empty : EngStream :=
  { pc := 0, stopped := true, wait := .ready, halt := .going, opHalt := .going, arrivals := 0, frames := [], held := none,
    begun := [], queue := [], pipe := [],
    shapes := Vector.replicate 32 0, handles := Vector.replicate 16 0, slots := [], draining := false, w := 0, holds := false }

/-- An empty bank (09_matrix.md R206): N, K and FMT 0, FIN 1. -/
def Bank.empty : Bank := { n := 0, k := 0, fmt := .fp32, nm := false, fin := true, elems := [], tags := [] }

/-- The array state at launch (R206). -/
def Matrix.empty : Matrix :=
  { acc := [], live := [], bpf := [], bpfInt := false, bpfLive := [], bank0 := Bank.empty, bank1 := Bank.empty }

/-- A pair that is not bound (10_scratchpad.md R240). -/
def Pair.empty : Pair := { bound := false, base := 0, shadow := 0, bytes := 0, active := false, cur := [], dirty := [] }

/-- No job: every register zero. It stands in the focus when no job is resident (log entry 3). -/
def Job.blank : Job :=
  { id := 0, st := .absent, launch := 0, num := 0, asid := 0, core := 0, cc := false, image := 0, version := 3, levels := [],
    topScope := .job, prio := 0, altArray := false, mreg := 0, oreg := 0, pslot := 0, cbar := [], dbar := [], gbar := [],
    lbars := [], stub := 0, x := Vector.replicate 32 0, pc := 0, flags := 0, clockFlags := 0, fmask := 0, dstall := 0, qstall := 0, itag := 0,
    tvec := 0, tcause := 0, tval := 0, tpc := 0, tstream := 0, tsib := false, torig := 0, tpend := false, ttub := none, tslot := none, waitaFrom := none, tword := false, hnd := false,
    tprog := 0, spbase := 0, splim := 0, spbump := 0, sphead := 0, pending := [], wait := .ready, stores := [],
    marker := none, main := [], opnd := [], last := [], shapes := Vector.replicate 32 0, handles := Vector.replicate 16 0,
    tokens := Vector.replicate 8 0, fifo := [], ld := EngStream.empty, mx := EngStream.empty, vx := EngStream.empty,
    st' := EngStream.empty, arrivals := 0, rendezvous := 0, retiring := false, matrix := Matrix.empty, rings := [], pend := [],
    pairs := Vector.replicate 4 Pair.empty, tubs := [], index := [], idxW := 0, inbox := [], partner := 0, darn := none, basket := Option.none }

/-- The launch queues at reset: four queues to each class (04_jobs.md R83). -/
def LQueue.initial : Vector LQueue 16 := Vector.ofFn fun q => { cls := q.val / 4, entries := [], waiting := [] }

/-- The device right after a device reset, before bring-up (18_host.md R384): every register at its Reset value, nothing in
any queue, ring, job or window. Values the spec does not give: log entries 1 to 5; WMARK of every channel is 0 (DESIGN CHOICE, log entry 63). -/
def State.reset : State :=
  { agenda := [], turns := 0, delay := false, units := 0, freeCtr := 0, nextJob := 1, nextLaunch := 1, curEng := .ld, curCore := 0,
    curChan := 0, curSlot := 0, curIdx := 0, curCmd := none, clock := 0, bootStep := 0, patchApplied := false, patchRejected := false, bootFail := 0,
    epoch := 0, row := 0, col := 0, rows := 0, cols := 0, ddrBytes := 0, powerState := 0, caps := [], bar2Base := 0,
    bar2Log := 36, hostRead := 0, measures := [], report := [], errLog := [], hbm := [], ddr := [], host := [], spad := [], hbmPoison := [],
    ddrPoison := [], spadPoison := [], zeroMap := [], gated := [], waking := [], tlb := [], oldPtes := [], invs := 0, heldReqs := [], works := [], hubWaits := [], faultQ := [], contexts := [],
    job := Job.blank, jobs := [], barriers := [], tubs := [], chans := [], wmarks := [], issued := [], queues := LQueue.initial, launches := [],
    graphs := [], slots := [], parts := [], submits := [], links := [], goodPorts := [], seqs := [], outs := [], windows := [], epochs := [], resyncs := [], outbox := [], farDown := [],
    peers := [], rbuf := [], sentResp := [], hqueues := [], hrings := [], cmds := [], interrupts := [] }

end Sys2Proof.Machine
end

