-- ==== Sys2Proof/Machine/Ops.lean ====
section
/-! DEFINITION. The named operations over the state: sparse stores, bytes and words, jobs and their registers, the host rings and
logs, and taking and returning from a trap. -/

namespace Sys2Proof.Machine

/-! ### Sparse stores -/

/-- The value under key k: zero where k is not listed. -/
def sget {w : Nat} : Sparse w → Nat → BitVec w
  | [], _ => 0
  | (a, v) :: r, k => if a = k then v else sget r k

/-- A pair put before the first higher key. -/
def sinsert {w : Nat} (k : Nat) (v : BitVec w) : Sparse w → Sparse w
  | [] => [(k, v)]
  | e :: r => if k < e.1 then (k, v) :: e :: r else e :: sinsert k v r

/-- Set the value under key k, keeping the keys rising and no zero listed. -/
def sset {w : Nat} (m : Sparse w) (k : Nat) (v : BitVec w) : Sparse w :=
  let r := m.filter fun e => e.1 != k
  if v = 0 then r else sinsert k v r

/-- Every key from lo to hi - 1 set to zero. -/
def sclear {w : Nat} (m : Sparse w) (lo hi : Nat) : Sparse w := m.filter fun e => e.1 < lo || hi ≤ e.1

/-- The keys from lo to hi - 1, counted from lo. -/
def sslice {w : Nat} (m : Sparse w) (lo hi : Nat) : Sparse w :=
  (m.filter fun e => lo ≤ e.1 && e.1 < hi).map fun e => (e.1 - lo, e.2)

/-- The canonical form: keys strictly rising, no zero listed. -/
def sparseWf {w : Nat} : Sparse w → Bool
  | [] => true
  | [(_, v)] => v != 0
  | (a, v) :: (b, x) :: r => v != 0 && a < b && sparseWf ((b, x) :: r)

/-- The n values from key a on. -/
def sread {w : Nat} (m : Sparse w) (a n : Nat) : List (BitVec w) := (List.range n).map fun i => sget m (a + i)

/-- Store values from key a on. -/
def swrite {w : Nat} : Sparse w → Nat → List (BitVec w) → Sparse w
  | m, _, [] => m
  | m, a, v :: vs => swrite (sset m a v) (a + 1) vs

/-! ### Bytes, little-endian (00_scope.md R2) -/

/-- The number that bytes spell, the first byte lowest. -/
def leNat : List Byte → Nat
  | [] => 0
  | b :: r => b.toNat + 256 * leNat r

/-- The n low bytes of v, the lowest first. -/
def leBytes : Nat → Nat → List Byte
  | 0, _ => []
  | n + 1, v => BitVec.ofNat 8 v :: leBytes n (v / 256)

/-- Bytes as a value of w bits. -/
def ofBytes (w : Nat) (b : List Byte) : BitVec w := BitVec.ofNat w (leNat b)

/-- A value of w bits as its w / 8 bytes. -/
def toBytes {w : Nat} (v : BitVec w) : List Byte := leBytes (w / 8) v.toNat

/-- The bytes of v cut or padded with zeros to n. -/
def padBytes (n : Nat) (b : List Byte) : List Byte := (b ++ List.replicate n 0).take n

/-- The signed value of the low w bits of v. -/
def sint (w v : Nat) : Int := (BitVec.ofNat w v).toInt

/-! ### Association lists -/

/-- The value under a key, or d. -/
def lookupD {α β : Type} [DecidableEq α] (d : β) : List (α × β) → α → β
  | [], _ => d
  | (a, v) :: r, k => if a = k then v else lookupD d r k

/-- Set the value under a key, at its place or at the end. -/
def assign {α β : Type} [DecidableEq α] : List (α × β) → α → β → List (α × β)
  | [], k, v => [(k, v)]
  | (a, x) :: r, k, v => if a = k then (k, v) :: r else (a, x) :: assign r k v

/-- Replace the k-th element. -/
def setNth {α : Type} (l : List α) (k : Nat) (v : α) : List α := l.set k v

/-- The first k for which p holds, below n. -/
def firstBelow (n : Nat) (p : Nat → Bool) : Option Nat := (List.range n).find? p

/-! ### Jobs: the focused one and the rest (log entry 10) -/

/-- The job with this id, 0 naming none. -/
def findJob (s : State) (id : Nat) : Option Job :=
  if id = 0 then none else if s.job.id = id then some s.job else s.jobs.find? fun j => j.id == id

/-- Every job that the device holds. -/
def allJobs (s : State) : List Job := if s.job.id = 0 then s.jobs else s.job :: s.jobs

/-- Insert a job by rising id. -/
def insertJob (j : Job) : List Job → List Job
  | [] => [j]
  | k :: r => if j.id < k.id then j :: k :: r else k :: insertJob j r

/-- Bring the job with this id into the focus. -/
def focus (id : Nat) (s : State) : State :=
  if s.job.id = id then s
  else
    match s.jobs.find? fun j => j.id == id with
    | none => s
    | some j =>
      let rest := s.jobs.filter fun k => k.id != id
      { s with job := j, jobs := if s.job.id = 0 then rest else insertJob s.job rest }

/-- Replace a job where it stands. -/
def putJob (s : State) (j : Job) : State :=
  if s.job.id = j.id then { s with job := j }
  else { s with jobs := s.jobs.map fun k => if k.id = j.id then j else k }

/-- Change the job with this id. -/
def updJob (s : State) (id : Nat) (f : Job → Job) : State :=
  match findJob s id with
  | none => s
  | some j => putJob s (f j)

/-- Change every job. -/
def mapJobs (s : State) (f : Job → Job) : State := { s with job := if s.job.id = 0 then s.job else f s.job, jobs := s.jobs.map f }

/-- Remove a job from the device. -/
def dropJob (s : State) (id : Nat) : State :=
  if s.job.id = id then { s with job := Job.blank } else { s with jobs := s.jobs.filter fun j => j.id != id }

/-- The job has its streams on a core: it is neither saved, suspended, restored nor retired (04_jobs.md R73, 15_traps.md R334). -/
def Job.resident (j : Job) : Bool :=
  match j.st with
  | .placed | .running | .draining => true
  | _ => false

/-- The job holds a core's registers and a region of its scratchpad: it is resident, its lines are being saved or restored, or its log is being
replayed (15_traps.md R334, R337). -/
def Job.seated (j : Job) : Bool :=
  match j.st with
  | .placed | .running | .draining | .saving | .folding | .replaying => true
  | _ => false

/-- The job's events are logged: from the copy of its state to the replay of its log (15_traps.md R334, R337). -/
def Job.logging (j : Job) : Bool :=
  match j.st with
  | .saving | .suspended | .folding => true
  | _ => false

/-- The jobs seated on a core. -/
def jobsOn (s : State) (core : Nat) : List Job := (allJobs s).filter fun j => j.seated && j.core == core

/-- The jobs of a launch on this device: its gang group (04_jobs.md R85). -/
def gangOf (s : State) (launch : Nat) : List Job := (allJobs s).filter fun j => j.launch == launch && j.st != .retired

/-- The sibling of a core: cores 2k and 2k + 1 (01_device.md R9). -/
def sibling (core : Nat) : Nat := if core % 2 = 0 then core + 1 else core - 1

/-- The compute die of a core. -/
def dieOf (core : Nat) : Nat := core / Config.dieCores

/-- A job's engine stream. -/
def Job.eng (j : Job) : Engine → EngStream
  | .ld => j.ld | .mx => j.mx | .vx => j.vx | .st => j.st'

/-- Replace a job's engine stream. -/
def Job.setEng (j : Job) (e : Engine) (x : EngStream) : Job :=
  match e with
  | .ld => { j with ld := x } | .mx => { j with mx := x } | .vx => { j with vx := x } | .st => { j with st' := x }

/-- Change a job's engine stream. -/
def Job.updEng (j : Job) (e : Engine) (f : EngStream → EngStream) : Job := j.setEng e (f (j.eng e))

/-- The engines in ring order. -/
def engines : List Engine := [.ld, .mx, .vx, .st]

/-- The place of an engine on the ring. -/
def engineNum : Engine → Nat
  | .ld => 0 | .mx => 1 | .vx => 2 | .st => 3

/-! ### Registers of the control core (05_control_core.md R106) -/

/-- A register's value; x0 reads as zero. -/
def getX (s : State) (r : Reg) : Word := if r = 0 then 0 else s.job.x[r]

/-- A register written; a write to x0 is discarded. -/
def setX (s : State) (r : Reg) (v : Word) : State :=
  if r = 0 then s else { s with job := { s.job with x := s.job.x.set r v } }

/-- Go on at address a, the stream ready. -/
def setPc (s : State) (a : Word) : State := { s with job := { s.job with pc := a, wait := .ready } }

/-- Go on at the next word. -/
def advance (s : State) : State := setPc s (s.job.pc + 4)

/-- A register written and the next word. -/
def retireX (s : State) (r : Reg) (v : Word) : State := advance (setX s r v)

/-- The stream waits at this instruction, which runs again in full. -/
def hold (s : State) (w : CtlWait) : State := { s with job := { s.job with wait := w } }

/-- Flags ORed into the sticky flags of a job (02_numbers.md R41), and noted for a CSRW of the same clock (R42). -/
def Job.joinFlags (j : Job) (f : BitVec 7) : Job := { j with flags := j.flags ||| f, clockFlags := j.clockFlags ||| f }

/-- The same for the job with an id. -/
def orFlags (s : State) (id : Nat) (f : BitVec 7) : State := updJob s id fun j => j.joinFlags f

/-! ### Free values and logs -/

/-- A value that the spec leaves open, and the counter advanced. -/
def freeWord (s : State) : Word × State := (Config.freeWord s.freeCtr, { s with freeCtr := s.freeCtr + 1 })

/-- An entry of the Dvorol error log (18_host.md R381). -/
def logErr (s : State) (e : LogItem) : State := { s with errLog := s.errLog ++ [e] }

/-- The context of an ASID. -/
def contextOf (s : State) (asid : BitVec 16) : Option Context := s.contexts.find? fun c => c.args.asid == asid

/-- The section of a kind in the image of a job. -/
def sectionOf (s : State) (j : Job) (kind : Nat) : Option Section :=
  (contextOf s j.asid).bind fun c =>
    (c.images.find? fun i => i.addr == j.image).bind fun i => i.sections.find? fun x => x.kind == kind

/-- The kinds of an engine's stream section and pattern section (03_encodings.md R66). -/
def streamKind (e : Engine) : Nat := 2 + engineNum e
def patternKind (e : Engine) : Nat := 6 + engineNum e

/-! ### Device-to-host rings (18_host.md R379, R380) -/

/-- A ring at its reset value. -/
def HRing.zero : HRing :=
  { base := 0, size := 0, tailA := 0, head := 0, vec := 0, coal := 0, state := 0, tail := 0, waiting := [], unsig := 0,
    first := 0 }

/-- Ring k. -/
def ringOf (s : State) (k : Nat) : HRing := lookupD HRing.zero s.hrings k

/-- The entries that ring k holds: 2 ^ RSIZE. -/
def HRing.slots (r : HRing) : Nat := 2 ^ (bits r.size 0 5).toNat

/-- The ring runs and its next entry is free (R379 step 1). -/
def HRing.room (r : HRing) : Bool := r.state == 1 && r.tail - r.head.toNat < r.slots

/-- Raise the ring's vector if N entries wait for it (R380). N = 0, its reset value, is reached by the first entry, and T = 0 is taken as 1 µs
(DESIGN CHOICE, log entry 67). -/
def ringSignal (s : State) (k : Nat) : State :=
  let r := ringOf s k
  if bitAt r.vec 15 && r.unsig ≠ 0 && (bits r.coal 0 11).toNat ≤ r.unsig then
    { s with hrings := assign s.hrings k { r with unsig := 0 }, interrupts := s.interrupts ++ [(k, (bits r.vec 0 11).toNat)] }
  else s

/-- Write one entry and then the tail (R379 steps 2 and 3). -/
def ringWrite (s : State) (k : Nat) (e : BitVec 512) : State :=
  let r := ringOf s k
  let h1 := swrite s.host (r.base.toNat + 64 * (r.tail % r.slots)) (toBytes e)
  let h2 := swrite h1 r.tailA.toNat (leBytes 8 (r.tail + 1))
  ringSignal { s with
    host := h2
    hrings := assign s.hrings k
      { r with tail := r.tail + 1, unsig := r.unsig + 1, first := if r.unsig = 0 then s.clock else r.first } } k

/-- Write the entries that wait for room, oldest first; n bounds their number. -/
def ringFlush : Nat → State → Nat → State
  | 0, s, _ => s
  | n + 1, s, k =>
    let r := ringOf s k
    match r.waiting with
    | [] => s
    | e :: rest =>
      if r.room then ringFlush n (ringWrite { s with hrings := assign s.hrings k { r with waiting := rest } } k e) k else s

/-- Post an entry to ring k; it waits behind earlier ones while the ring has no room. -/
def ringPost (s : State) (k : Nat) (e : BitVec 512) : State :=
  let r := ringOf s k
  ringFlush (r.waiting.length + 1) { s with hrings := assign s.hrings k { r with waiting := r.waiting ++ [e] } } k

/-- A ring entry of a kind whose bytes 8 to 63 the spec leaves open but for value v at 8..15 and its code at byte 1
(R379, log entry 8). -/
def ringEvent (s : State) (k kind : Nat) (code : BitVec 8) (v : Word) : State :=
  let (f, s) := freeWord s
  ringPost s k (f.setWidth 384 ++ v ++ 0#48 ++ code ++ BitVec.ofNat 8 kind)

/-- Tell the host through the ring of a context. -/
def tellContext (s : State) (asid : BitVec 16) (kind : Nat) (code : BitVec 8) (v : Word) : State :=
  match contextOf s asid with
  | none => s
  | some c => ringEvent s c.args.ring kind code v

/-! ### Command queues and completions (18_host.md R376, R379, R382) -/

/-- A queue at its reset value. -/
def HQueue.zero : HQueue := { base := 0, size := 0, state := 0, next := 1, highest := 0, tries := 0, first := 0 }

/-- Queue q. -/
def hqueueOf (s : State) (q : Nat) : HQueue := lookupD HQueue.zero s.hqueues q
def putHqueue (s : State) (q : Nat) (x : HQueue) : State := { s with hqueues := assign s.hqueues q x }

/-- The completion ring of a queue, and the slots that it has. -/
def HQueue.ring (x : HQueue) : Nat := (bits x.size 8 8).toNat
def HQueue.slots (x : HQueue) : Nat := 2 ^ (bits x.size 0 5).toNat

/-- Free bytes, 8 n of them (log entry 8). -/
def freeBytes : Nat → State → List Byte × State
  | 0, s => ([], s)
  | n + 1, s =>
    let (w, s) := freeWord s
    let (r, s) := freeBytes n s
    (toBytes w ++ r, s)

/-- Bytes with free bytes behind them, 8 n of them in all. -/
def fillFree (n : Nat) (b : List Byte) (s : State) : List Byte × State :=
  let (f, s) := freeBytes n s
  ((b ++ f.drop b.length).take (8 * n), s)

/-- The completion of a command: status, tag, result (R379, R382). -/
def complete (s : State) (c : Cmd) (status : Nat) (result : List Byte) : State :=
  let (f, s) := freeBytes 1 s
  let (r, s) := fillFree 7 result s
  let e := leBytes 1 1 ++ leBytes 1 status ++ (f.drop 2).take 2 ++ toBytes c.tag ++ r
  ringPost { s with cmds := s.cmds.filter (· != c) } (hqueueOf s c.queue).ring (ofBytes 512 e)

/-- The completion of the command of a queue and stamp, without a result. -/
def completeAt (s : State) (k : Nat × Word) (status : Nat) : State :=
  match s.cmds.find? fun c => c.queue == k.1 && c.stamp == k.2 with
  | some c => complete s c status []
  | none => s

/-! ### Traps (15_traps.md R319 to R328) -/

/-- Cause codes (R319). -/
def Cause.code : Cause → BitVec 8
  | .illegalInstr => 0x01 | .illegalPatch => 0x02 | .encodingVersion => 0x03 | .misaligned => 0x04
  | .pageNotPresent => 0x05 | .pagePermission => 0x06 | .poison => 0x07 | .remoteUnreachable => 0x08
  | .remotePermission => 0x09 | .spoolExhausted => 0x0A | .spadBounds => 0x0B | .handleInvalid => 0x0C
  | .shapeInvalid => 0x0D | .barrierMisuse => 0x0E | .bastingMisuse => 0x0F | .arith => 0x10 | .brk => 0x11
  | .queueMisuse => 0x12 | .watermarkWalk => 0x13 | .mailboxMisuse => 0x14 | .tubMisuse => 0x15 | .darnFault => 0x16
  | .collectiveFault => 0x17 | .absentContext => 0x18 | .pteInvalid => 0x20 | .doubleTrap => 0x21 | .escalated => 0x22

/-- The STREAM code of a stream (R299, R321). -/
def streamCode : StreamRef → Nat
  | .ctl => 0
  | .eng e => engineNum e + 1

/-- Hand the focused job's trap to Dvorol: the control stream stops with HND = 1 and the host is told (R328). -/
def escalate (s : State) (c : Cause) (v : Word) : State :=
  tellContext { s with job := { s.job with hnd := true, wait := .dvorol c v } } s.job.asid 4 c.code v

/-- What the control stream waits for is abandoned: its instruction has had no effect, and a JOIN has not arrived (R320, R322,
05_control_core.md R133). -/
def Job.abandon (j : Job) : Job :=
  { j with
    wait := .ready, waitaFrom := none, arrivals := if j.wait == .joined && j.rendezvous < j.arrivals then j.arrivals - 1 else j.arrivals
    darn := j.darn.filter DarnRun.holds }

/-- The launch of a LAUNCH that is abandoned leaves the wait for its queue (04_jobs.md R96). -/
def withdraw (s : State) (id : Nat) : State :=
  { s with queues := s.queues.map fun q => { q with waiting := q.waiting.filter fun l => l.source != .job id } }

/-- The instruction at the PC has been executed and waits; what it has read so far counts for nothing if it is abandoned (R133). -/
def CtlWait.waiting : CtlWait → Bool
  | .ready | .stalled _ | .dvorol .. | .held => false
  | _ => true

/-- What a waiting instruction has requested and read goes with it: its requests have no party left to take the response. -/
def forsake (s : State) (id : Nat) : State :=
  { s with
    outs := s.outs.map fun o => if o.unit == .ctl id && o.st == .waiting then { o with unit := .gone } else o
    rbuf := s.rbuf.filter fun r => r.unit != .ctl id }

/-- A control stream that waits is taken away from its instruction. -/
def abandonCtl (s : State) (id : Nat) : State :=
  let s := withdraw s id
  match findJob s id with
  | some j => updJob (if j.wait.waiting then forsake s id else s) id Job.abandon
  | none => s

/-- Divert the control stream of the focused job to its handler for trap t, rest pending after it (R322). -/
def divert (s : State) (t : Trap) (rest : List Trap) : State :=
  let s := withdraw s s.job.id
  let s := if s.job.wait.waiting then forsake s s.job.id else s
  let j := s.job.abandon
  let j := { j with
    tcause := t.cause.code, tval := t.val, tprog := t.prog, tstream := t.stream, tsib := t.sib, torig := t.orig,
    tpend := !rest.isEmpty, ttub := t.tub, tslot := t.slot, tword := t.word, hnd := true, tpc := if t.stream = 0 then t.pc else j.pc, pending := rest }
  let s := { s with job := j }
  if j.tvec = 0 || (bits j.tvec 0 2) != 0 then escalate s .escalated ((t.cause.code).setWidth 64)
  else { s with job := { j with pc := j.tvec } }

/-- Divert the control stream if a trap is pending and no handler runs (R322). A pre-emption takes the job first (R329). -/
def divertIfPending (s : State) : State :=
  if s.job.hnd || s.job.st == .draining then s
  else
    match s.job.pending with
    | [] => s
    | t :: rest => divert s t rest

/-- Put a trap among those that are pending: behind the earlier stops, and among those of its clock in ascending STREAM order, in one stream
the oldest operation, block or collective first; an operation is older than the word behind it (R322). What a fault log has brought stopped
earlier (R336). -/
def insertTrap (t : Trap) : List Trap → List Trap
  | [] => [t]
  | u :: r =>
    if (u :: r).all (fun v => v.cause != .absentContext) && t.clock = u.clock &&
        (t.stream < u.stream || (t.stream == u.stream && ((u.word && !t.word) || (u.word == t.word && t.age < u.age))))
    then t :: u :: r
    else u :: insertTrap t r

/-- A trap of a clock joins the pending list of a job, and sets PEND while a handler runs (R322, R323). -/
def Job.join (j : Job) (clock : Nat) (t : Trap) : Job :=
  { j with pending := insertTrap { t with clock } j.pending, tpend := if j.hnd then true else j.tpend }

/-- A trap of the control stream of the focused job, with the PC to which ERET returns and TPROG: DOUBLE_TRAP while its handler
runs (R323), else taken at once behind the traps that are pending (R322). In a drain it joins them, and the stream stands at a boundary (R329). -/
def raiseAt (s : State) (c : Cause) (v : Word) (pc : Word) (prog : Word := 0) : State :=
  if s.job.hnd then escalate s .doubleTrap ((c.code).setWidth 64)
  else
    let s := { s with job := s.job.join s.clock { cause := c, val := v, prog, stream := 0, sib := false, orig := 0, pc } }
    if s.job.st == .draining then { s with job := s.job.abandon } else divertIfPending s

/-- A trap of the instruction at the PC, exact (R105, R117): ERET returns to it. -/
def raise (s : State) (c : Cause) (v : Word) : State := raiseAt s c v s.job.pc

/-- A trap of another unit of a job, delivered to its control stream (R320). -/
def deliver (s : State) (id : Nat) (t : Trap) : State := updJob s id fun j => j.join s.clock t

/-- The return from the handler of the focused job (R327), once the stopped unit has been restarted. -/
def returnFromTrap (s : State) : State :=
  { s with job := { s.job with hnd := false, pc := s.job.tpc, wait := .ready } }

end Sys2Proof.Machine
end

