-- ==== Sys2Proof/Machine/Link.lean ====
section
/-! DEFINITION. Ports, routes and flits of the Jaile fabric (16_fabric.md R338 to R344): how packets are laid out, the first hop that they
take, and the retry buffers that they enter. -/

namespace Sys2Proof.Machine

/-! ### Devices and ports (R338) -/

/-- This device's index. -/
def ownIndex (s : State) : BitVec 8 := (BitVec.ofFin s.row : BitVec 4) ++ (BitVec.ofFin s.col : BitVec 4)

/-- A device lies in the fabric. -/
def inFabric (s : State) (dev : BitVec 8) : Bool := dev.toNat / 16 ≤ s.rows.val && dev.toNat % 16 ≤ s.cols.val

/-- Row ports are 0 to 14, column ports 15 to 29. The port towards column c of this row, and towards row r of this column. -/
def rowPort (s : State) (c : Nat) : Nat := (c + 15 - s.col.val) % 16
def colPort (s : State) (r : Nat) : Nat := 15 + (r + 15 - s.row.val) % 16

/-- The device at the other end of a port. -/
def portPeer (s : State) (port : Nat) : BitVec 8 :=
  if port < 15 then BitVec.ofNat 8 (16 * s.row.val + (s.col.val + 1 + port) % 16)
  else BitVec.ofNat 8 (16 * ((s.row.val + 1 + (port - 15)) % 16) + s.col.val)

/-- The port is connected to a device of the fabric. -/
def connected (s : State) (port : Nat) : Bool := port < 30 && inFabric s (portPeer s port)

/-- The port towards another device of this row or column. -/
def portTo (s : State) (dev : BitVec 8) : Nat :=
  if dev.toNat / 16 = s.row.val then rowPort s (dev.toNat % 16) else colPort s (dev.toNat / 16)

/-- A link that is down, with empty buffers. -/
def Link.zero : Link := { up := false, tx := [], wire := [], txNext := 0, rxNext := 0, replays := 0, ask := false, again := (0, 0), rx := [] }

/-- The link of a port, and replaced. -/
def linkOf (s : State) (port : Nat) : Link := lookupD Link.zero s.links port
def putLink (s : State) (port : Nat) (x : Link) : State := { s with links := assign s.links port x }

/-- A port may come up: it is connected, its partner has agreed in training, and the power state leaves the links up (18_host.md R385, R389). -/
def mayComeUp (s : State) (port : Nat) : Bool := connected s port && s.goodPorts.contains port && s.powerState != 3

/-- A link taken down, or up, with its retry buffers empty (R340, R342). -/
def linkSet (s : State) (port : Nat) (up : Bool) : State := putLink s port { Link.zero with up }

/-! ### Routes (R339, R340) -/

/-- A route: the devices that it visits, whether it is the minimal one, and whether its detour begins here: the detour of a column hop behind a
row hop is made by the device in between. -/
structure Route where
  hops : List (BitVec 8)
  minimal : Bool
  detour : Bool
  deriving DecidableEq, Repr

/-- The device at a row and a column (R338). -/
def devAt (r c : Nat) : BitVec 8 := BitVec.ofNat 8 (16 * r + c)

/-- The rows of the fabric but two, and the columns. -/
def otherRows (s : State) (a b : Nat) : List Nat := (List.range (s.rows.val + 1)).filter fun k => k != a && k != b
def otherCols (s : State) (a b : Nat) : List Nat := (List.range (s.cols.val + 1)).filter fun k => k != a && k != b

/-- The routes to another device in the order in which they are preferred: the minimal one, the column-first one, the detours of the row
hop, the detours of the column hop. -/
def routesTo (s : State) (dev : BitVec 8) : List Route :=
  let r0 := s.row.val
  let c0 := s.col.val
  let r := dev.toNat / 16
  let c := dev.toNat % 16
  let row := if c = c0 then [] else [devAt r0 c]
  let col := if r = r0 then [] else [devAt r c]
  let first := if c = c0 || r = r0 then [] else [({ hops := [devAt r c0, devAt r c], minimal := false, detour := false } : Route)]
  let rowAround := if c = c0 then [] else
    (otherCols s c0 c).map fun k => ({ hops := devAt r0 k :: (row ++ col), minimal := false, detour := true } : Route)
  let colAround := if r = r0 then [] else
    (otherRows s r0 r).map fun k => ({ hops := row ++ (devAt k c :: col), minimal := false, detour := row.isEmpty } : Route)
  { hops := row ++ col, minimal := true, detour := false } :: (first ++ (rowAround ++ colAround))

/-- A port whose link is up and whose retry buffer of 512 flits takes n more. -/
def portRoom (s : State) (port n : Nat) : Bool := let x := linkOf s port; x.up && x.tx.length + n ≤ 512

/-- The links between the devices of a route, one after another, are up as far as Dvorol knows. -/
def hopsUp (s : State) : BitVec 8 → List (BitVec 8) → Bool
  | _, [] => true
  | a, b :: r => !(s.farDown.any fun l => l == (a, b) || l == (b, a)) && hopsUp s b r

/-- Every link of a route is up. -/
def Route.up (s : State) (q : Route) : Bool :=
  match q.hops with
  | [] => true
  | d :: r => (linkOf s (portTo s d)).up && hopsUp s d r

/-- The first link of a route takes n flits. -/
def Route.room (s : State) (n : Nat) (q : Route) : Bool :=
  match q.hops with
  | [] => true
  | d :: _ => portRoom s (portTo s d) n

/-- The first of the routes that p allows and whose links are up, once it takes n flits: a full buffer is waited for (R340). -/
def firstRoute (s : State) (l : List Route) (n : Nat) (p : Route → Bool) : Option Route :=
  (l.find? fun q => p q && q.up s).filter (Route.room s n)

/-- The route that n flits to a device take now; free: no earlier request of the party, class and target is unanswered, so that it need
not be the minimal one (14_ordering.md R318). -/
def routeTo (s : State) (dev : BitVec 8) (n : Nat) (free : Bool) : Option Route :=
  firstRoute s (routesTo s dev) n fun q => q.minimal || free

/-- The header is that of a request. -/
def isRequest (h : BitVec 512) : Bool := (bits h 0 8).toNat < 8

/-- The route that a packet in transit on a virtual channel takes on: the minimal one from here. In the row of its source and the column of
its target it may still detour around a column link: a request that has not detoured, if its source has found it free of the order of R318
(channel 1), or it is the oldest that its source awaits (SEQ is ACKB), and any response. -/
def routeOn (s : State) (h : BitVec 512) (vc n : Nat) : Option Route :=
  let dev := bits h 24 8
  let turn := (bits h 16 8).toNat / 16 == s.row.val && dev.toNat % 16 == s.col.val
  let may := turn && (!isRequest h || (!bitAt h 15 && (vc == 1 || bits h 32 32 == bits h 64 32)))
  firstRoute s (routesTo s dev) n fun q => q.minimal || (may && q.detour)

/-! ### Flits (R341, R342) -/

/-- One bit, and one byte, of the reflected CRC-32 of IEEE 802.3. -/
def crcBit (c : Nat) : Nat := (c / 2) ^^^ (c % 2 * 0xEDB88320)
def crcByte (c : Nat) (b : Byte) : Nat :=
  let c := c ^^^ b.toNat
  crcBit (crcBit (crcBit (crcBit (crcBit (crcBit (crcBit (crcBit c)))))))

/-- CRC-32: all ones at the start, inverted at the end (log entry 22). -/
def crc32 (l : List Byte) : Nat := (l.foldl crcByte 0xFFFFFFFF) ^^^ 0xFFFFFFFF

/-- The CRC of a flit's payload and of bits 63..32 of its control. -/
def flitCrc (payload : BitVec 512) (high : BitVec 32) : Nat := crc32 (toBytes payload ++ toBytes high)

/-- A flit. -/
def flitOf (payload : BitVec 512) (lseq lack vc : Nat) (head tail : Bool) : Flit :=
  let high : BitVec 32 := 0#3 ++ flag tail ++ flag head ++ BitVec.ofNat 3 vc ++ BitVec.ofNat 12 lack ++ BitVec.ofNat 12 lseq
  { payload, ctl := high ++ BitVec.ofNat 32 (flitCrc payload high) }

/-- A packet's payloads enter the retry buffer of a port, and are sent. -/
def pushFlits (x : Link) (vc : Nat) (head : Bool) : List (BitVec 512) → Link
  | [] => x
  | p :: r =>
    let f := flitOf p x.txNext ((x.rxNext + 4095) % 4096) vc head r.isEmpty
    pushFlits { x with tx := x.tx ++ [f], wire := x.wire ++ [f], txNext := (x.txNext + 1) % 4096 } vc false r

/-- Send a packet along a route. -/
def sendOn (s : State) (q : Route) (vc : Nat) (l : List (BitVec 512)) : State :=
  match q.hops with
  | [] => s
  | d :: _ => let port := portTo s d; putLink s port (pushFlits (linkOf s port) vc true l)

/-- A packet leaves this device: one in transit, or a response or an answer of its own, which no order binds. -/
def sendPacket (s : State) (vc : Nat) : List (BitVec 512) → Option State
  | [] => some s
  | h :: r =>
    let n := r.length + 1
    if bits h 16 8 = ownIndex s then (routeTo s (bits h 24 8) n true).map fun q => sendOn s q vc (h :: r)
    else
      (routeOn s h vc n).map fun q =>
        let mark := q.detour && isRequest h
        sendOn s q (if mark && vc != 3 then 1 else vc) ((if mark then h ||| 0x8000#512 else h) :: r)

/-- Every packet that waits for a link is sent where it finds room, none before an earlier one of its channel and target. -/
def flushFrom (kept : List (Nat × List (BitVec 512))) :
    List (Nat × List (BitVec 512)) → State → List (Nat × List (BitVec 512)) × State
  | [], s => (kept, s)
  | q :: r, s =>
    let lane := fun (x : Nat × List (BitVec 512)) => (x.1, x.2.head?.map fun h => bits h 24 8)
    match (if kept.any fun k => lane k == lane q then none else sendPacket s q.1 q.2) with
    | some s => flushFrom kept r s
    | none => flushFrom (kept ++ [q]) r s

def flushOut (s : State) : State :=
  let (l, t) := flushFrom [] s.outbox { s with outbox := [] }
  { t with outbox := l }

/-- A packet that no order binds, or one in transit, is sent, and waits for a link where it must. -/
def sendFree (s : State) (vc : Nat) (l : List (BitVec 512)) : State := flushOut { s with outbox := s.outbox ++ [(vc, l)] }

/-! ### Packets (R343) -/

/-- Kind numbers of requests. -/
def reqKind : ReqOp → Nat
  | .load => 1 | .store .. | .nibble .. => 2 | .amo .. => 3 | .cas .. => 4 | .reduce .. | .scatterAdd .. => 5 | .launch .. => 6
  | .wringer .. => 7

/-- Rounding mode and saturation of a reduction in OPND (log entry 22). -/
def modeField (mode : RMode) (sat : Bool) : Nat := mode.code.toNat + if sat then 8 else 0

/-- OP, OPND and the bytes that a request carries. Of the request kinds that R343 gives no OPND, its first doubleword says what log entry
22 lists. -/
def reqFields : ReqOp → Nat × Word × Word × List Byte
  | .load => (0, 0, 0, [])
  | .store d bad => (0, if bad then 1 else 0, 0, d)
  | .nibble high v => (0, BitVec.ofNat 64 (2 + (if high then 4 else 0) + 16 * v.toNat), 0, [])
  | .amo op v => (op.val, v, 0, [])
  | .cas new cmp ord => (ord.toNat, new, cmp, [])
  | .reduce op f mode sat d bad =>
    (op.code.toNat + 4 * f.code.toNat, BitVec.ofNat 64 (modeField mode sat + if bad then 16 else 0), 0, d)
  | .scatterAdd mem reg mode sat v =>
    (4 * mem.code.toNat, BitVec.ofNat 64 (modeField mode sat + 32 + 256 * reg.code.toNat), v, [])
  | .launch .. | .wringer .. => (0, 0, 0, [])

/-- The header flit of a request. -/
def reqHeader (q : Request) (detour : Bool) : BitVec 512 :=
  let (op, a, b, _) := reqFields q.op
  let cp := q.cls.val + 16 * q.poison.code.toNat + (if q.ddr then 64 else 0) + (if detour then 128 else 0)
  ofBytes 512 (leBytes 1 (reqKind q.op) ++ leBytes 1 cp ++ toBytes q.src ++ toBytes q.tgt ++ toBytes q.seq ++ toBytes q.ackb ++
    toBytes q.asid ++ toBytes q.party ++ leBytes 8 q.pa ++ leBytes 1 (q.size - 1) ++ leBytes 1 op ++ leBytes 2 0 ++ toBytes q.epoch ++
    toBytes a ++ toBytes b)

/-- The payloads of a request: the header, and a data flit where it carries data. What follows the header of a launch message or a
wringer packet has no layout in the spec (log entry 22). -/
def reqFlits (q : Request) (detour : Bool) : List (BitVec 512) :=
  let d := (reqFields q.op).2.2.2
  reqHeader q detour :: if d.isEmpty then [] else [ofBytes 512 d]

/-- The virtual channel of a request. -/
def reqVc (q : Request) (minimal : Bool) : Nat :=
  match q.op with
  | .launch .. | .wringer .. => 3
  | _ => if minimal then 0 else 1

/-- The payloads of a response; a load's data follow, and its result says whether its line was poisoned (log entry 22). -/
def respFlits (r : Response) (load : Bool) : List (BitVec 512) :=
  let v : Word := if load && r.poisoned then 1 else r.result
  ofBytes 512 ([8] ++ toBytes r.status ++ toBytes r.src ++ toBytes r.tgt ++ toBytes r.seq ++ leBytes 8 0 ++ toBytes v) ::
    if load then [ofBytes 512 r.data] else []

/-- A RESYNC packet, and its answer. -/
def resyncFlit (s : State) (dev : BitVec 8) : BitVec 512 :=
  ofBytes 512 ([9, 0] ++ toBytes (ownIndex s) ++ toBytes dev ++ leBytes 24 0 ++ toBytes s.epoch)

/-! ### Requests that wait at their source (R340) -/

/-- The two requests have the same party, class and target. -/
def sameLane (a b : Request) : Bool := a.party == b.party && a.cls == b.cls && a.tgt == b.tgt

/-- This device has sent its RESYNC to a device, and may send it requests (R347). -/
def resynced (s : State) (dev : BitVec 8) : Bool := !s.resyncs.any fun r => r.1 == dev && !r.2.1

/-- The sequence counter towards a device (R344). -/
def seqOf (s : State) (dev : BitVec 8) : BitVec 32 := lookupD 0 s.seqs dev

/-- The lowest SEQ towards a device that is not acknowledged, else the next one (R343 ACKB). -/
def ackBase (s : State) (dev : BitVec 8) : BitVec 32 :=
  match s.outs.find? fun o => o.req.tgt == dev && !o.resynced with
  | some o => o.req.seq
  | none => seqOf s dev

/-- A request as it is sent now: with the source's lowest SEQ that is not acknowledged and the target's epoch as last recorded (R343, R347). -/
def stampedReq (s : State) (q : Request) : Request :=
  { q with ackb := ackBase s q.tgt, epoch := lookupD 0 s.epochs q.tgt }

/-- An earlier request holds a request back from any route but the minimal one: one of its party, class and target (14_ordering.md R318);
for a launch message or a wringer packet, any one to its target, for the device at its turn tells by SEQ and ACKB whether it may detour. -/
def holdsBack (q : Request) (b : Out) : Bool :=
  !b.resynced && match q.op with
    | .launch .. | .wringer .. => b.req.tgt == q.tgt
    | _ => sameLane b.req q

/-- An earlier request of the same party, class and target has no response yet: what follows it waits, so that they perform in order also
where the earlier one is lost and sent again (14_ordering.md R318, R349). Of a collective's packets one that has failed holds the later ones up
too: it is sent again first (R357). -/
def queuesBehind (u : Unit) (q : Request) (b : Out) : Bool :=
  (b.st == .waiting || (match u with | .wringer _ => b.unit == u | _ => false)) && !b.resynced && sameLane b.req q

/-- Send a request now, where it finds a route; before: the requests before it. The request as it was sent goes with the state. -/
def trySend (s : State) (before : List Out) (o : Out) : Option (State × Request) :=
  let r := stampedReq s o.req
  if before.any (queuesBehind o.unit r) then none
  else if r.tgt = ownIndex s then some (s, r)
  else if !resynced s r.tgt then none
  else
    (routeTo s r.tgt (reqFlits r false).length (!before.any (holdsBack r))).map fun q =>
      (sendOn s q (reqVc r q.minimal) (reqFlits r q.detour), r)

/-- A RESYNC that has not been sent is sent where it finds a route (R347). -/
def sendResyncs (s : State) : State :=
  s.resyncs.foldl (fun s r =>
    if r.2.1 then s
    else
      match routeTo s r.1 1 true with
      | some q => { sendOn s q 3 [resyncFlit s r.1] with resyncs := assign s.resyncs r.1 (true, s.clock) }
      | none => s) s

/-- Every request that waits for a route is sent where it finds one. -/
def sendFrom (before : List Out) : List Out → State → List Out × State
  | [], s => (before, s)
  | o :: r, s =>
    match (if o.sends = 0 && o.st == .waiting then trySend s before o else none) with
    | some (s, q) => sendFrom (before ++ [{ o with req := q, sends := 1, last := s.clock }]) r s
    | none => sendFrom (before ++ [o]) r s

def sendWaiting (s : State) : State :=
  let s := sendResyncs (flushOut s)
  let (l, t) := sendFrom [] s.outs s
  { t with outs := l }

end Sys2Proof.Machine
end

