-- ==== Sys2Proof/Machine/Mem.lean ====
section
/-! DEFINITION. Memory as the parties of the device see it: translation (13_memory.md), the scratchpad and its basting
(10_scratchpad.md), tub counts (11_sync.md R259), remote requests (16_fabric.md R343 to R346), and the reads, writes and
read-modify-writes built on them. A read is a function of the state; a write gives the state after it. Both stop where the
access stops, and then change nothing. -/

namespace Sys2Proof.Machine

/-! ### Parties, addresses and stops -/

/-- A party as its accesses carry it (14_ordering.md R303): the job it acts for (0: none), the context it translates in, the
core and STREAM code of its fault records (13_memory.md R299), its class, and whether it resolves the scratchpad aperture
(R399). key: the PC of a control stream, by which an access that is made again is known (16_fabric.md R346). -/
structure Party where
  unit : Unit
  job : Nat
  asid : BitVec 16
  core : Nat
  stream : Nat
  cls : Cls
  aperture : Bool
  sib : Bool
  key : Word := 0
  deriving DecidableEq, Repr

/-- An address: virtual, or an offset in the scratchpad of a job. -/
inductive Loc where
  | va (a : Word)
  | off (o : Nat) (job : Nat)
  deriving DecidableEq, Repr

/-- Where an address leads, with the poison policy that governs data there. -/
inductive Place where
  | here (sp : Space) (a : Nat) (pol : Poison)
  | remote (dev : BitVec 8) (ddr : Bool) (pa : Nat) (pol : Poison)
  deriving DecidableEq, Repr

/-- Why an access is not made. -/
inductive Stop where
  /-- a cause raised against a read, or against no access, with TVAL -/
  | trap (c : Cause) (v : Word)
  /-- a cause raised against an access of another kind, with TVAL -/
  | denied (acc : Access) (c : Cause) (v : Word)
  /-- a fault of a walk (R295), with the record that it posts -/
  | fault (c : Cause) (v : Word) (r : FaultRec)
  /-- a write to a held page (R302) -/
  | held (r : FaultRec)
  /-- the access is made later: a waking bank (10_scratchpad.md R244), a full queue or log, or a response that has not arrived -/
  | stall
  /-- the access waits at a watermark (12_copy_index.md R277) -/
  | mark (m : Mark)
  /-- the access needs this request sent (16_fabric.md R344). guard: the bytes that no other party accesses until it is done -/
  | send (q : Request) (guard : List Span := [])
  deriving DecidableEq, Repr

/-- The watermark at which the access waits. -/
def Stop.mark? : Stop → Option Mark
  | .mark m => some m
  | _ => none

/-- The stop in which an access ends, if it stops. -/
def stopOf {α : Type} : Except Stop α → Option Stop
  | .error x => some x
  | .ok _ => none

/-- The bytes that a stop at a request keeps from others. -/
def Stop.guard : Stop → List Span
  | .send _ g => g
  | _ => []

/-- The address n bytes on. -/
def Loc.add : Loc → Nat → Loc
  | .va a, n => .va (a + BitVec.ofNat 64 n)
  | .off o j, n => .off (o + n) j

/-- The 64-byte line that holds the address, as TVAL names it. -/
def Loc.line : Loc → Word
  | .va a => a &&& ~~~(63 : Word)
  | .off o _ => BitVec.ofNat 64 (o / 64 * 64)

/-- The address as TVAL names it. -/
def Loc.word : Loc → Word
  | .va a => a
  | .off o _ => BitVec.ofNat 64 o

/-- The byte's place in its 64-byte line. -/
def Loc.low : Loc → Nat
  | .va a => a.toNat % 64
  | .off o _ => o % 64

/-- The first address of the scratchpad aperture (05_control_core.md R118). -/
def apertureBase : Nat := 0x1FFFFFFFF000000

/-- The address lies in the aperture. -/
def inAperture (a : Word) : Bool := apertureBase ≤ a.toNat && a.toNat < 2 ^ 57

/-! ### Bytes of the stores inside the device -/

/-- The byte at an address of a store. -/
def getByte (s : State) (sp : Space) (a : Nat) : Byte :=
  match sp with
  | .hbm => sget s.hbm a
  | .ddr => sget s.ddr a
  | .host => sget s.host a
  | .spad c => sget s.spad (c * Config.spadBytes + a)

/-- The n bytes from an address of a store. -/
def getBytes (s : State) (sp : Space) (a n : Nat) : List Byte := (List.range n).map fun i => getByte s sp (a + i)

/-- The line of an address is marked poisoned (10_scratchpad.md R245, 18_host.md R388). -/
def lineBad (s : State) (sp : Space) (a : Nat) : Bool :=
  match sp with
  | .hbm => sget s.hbmPoison (a / 64) == 1
  | .ddr => sget s.ddrPoison (a / 64) == 1
  | .host => false
  | .spad c => sget s.spadPoison (c * 131072 + a / 64) == 1

/-- Clear the zero-map bits of the blocks that hold [a, a + n) of a scratchpad (10_scratchpad.md R243). -/
def clearZero (s : State) (sp : Space) (a n : Nat) : State :=
  match sp with
  | .spad c => { s with zeroMap := sclear s.zeroMap (c * 8192 + a / 1024) (c * 8192 + (a + n + 1023) / 1024) }
  | _ => s

/-- Store bytes into a store. -/
def putBytes (s : State) (sp : Space) (a : Nat) (d : List Byte) : State :=
  match sp with
  | .hbm => { s with hbm := swrite s.hbm a d }
  | .ddr => { s with ddr := swrite s.ddr a d }
  | .host => { s with host := swrite s.host a d }
  | .spad c => { s with spad := swrite s.spad (c * Config.spadBytes + a) d }

/-- Mark or unmark the line of an address. -/
def setBad (s : State) (sp : Space) (a : Nat) (p : Bool) : State :=
  let v : BitVec 1 := if p then 1 else 0
  match sp with
  | .hbm => { s with hbmPoison := sset s.hbmPoison (a / 64) v }
  | .ddr => { s with ddrPoison := sset s.ddrPoison (a / 64) v }
  | .host => s
  | .spad c => { s with spadPoison := sset s.spadPoison (c * 131072 + a / 64) v }

/-! ### Baskets in HBM (15_traps.md R332) -/

/-- The 32 bytes of a fault record (13_memory.md R299). -/
def FaultRec.bytes (r : FaultRec) : List Byte :=
  let acc := match r.access with | .read => 0 | .write => 1 | .atomic => 2 | .fetch => 3
  toBytes r.va ++ toBytes r.asid ++ leBytes 2 r.core ++ leBytes 1 (match r.cause with | some c => c.code.toNat | none => 0) ++
    leBytes 1 acc ++ leBytes 1 r.stream ++
    leBytes 1 ((if r.hold then 1 else 0) + (if r.absent then 2 else 0) + if r.sib then 4 else 0) ++ toBytes r.entry ++ leBytes 1 r.level ++
    leBytes 7 0

/-- The record of a fault-log entry: that of the access that it stopped, with the cause that is logged (15_traps.md R332, R336; log entry 61). -/
def FltEntry.record (e : FltEntry) : FaultRec := { e.frec with cause := some e.cause, absent := true }

/-- The sync operand under which a job names one of its barriers (03_encodings.md R49). -/
def Job.barCode (j : Job) (b : BarId) : Nat :=
  let at' := fun (k : BarKind) (l : List BarId) =>
    (l.findIdx? (· == b)).map fun i => (({ kind := k, idx := Fin.ofNat 128 i } : BarOp).code).toNat
  ((at' .core j.cbar <|> at' .die j.dbar) <|> at' .device j.gbar).getD 0

/-- The 16 bytes of an event-log entry. -/
def LogEntry.layout (j : Job) (e : LogEntry) : List Byte :=
  let (kind, obj, amount) := match e with
    | .arrive b c => (1, j.barCode b, c)
    | .bytes b n => (2, j.barCode b, n)
    | .tub k n => (3, (({ mem := false, idx := Fin.ofNat 128 k } : TubOp).code).toNat, n)
  leBytes 2 kind ++ leBytes 2 obj ++ leBytes 4 0 ++ leBytes 8 amount

/-- The 64-byte header. -/
def Basket.header (b : Basket) : List Byte :=
  leBytes 8 b.phase.val ++ leBytes 8 b.args.stOff ++ leBytes 8 b.args.imgOff ++ leBytes 8 b.args.logOff ++ leBytes 4 b.args.logMax ++
    leBytes 4 b.log.length ++ leBytes 8 b.args.fltOff ++ leBytes 4 b.args.fltMax ++ leBytes 4 b.faults.length ++ leBytes 8 0

/-- The header and the logs of a basket as they stand in HBM, once it is allotted. -/
def layBasket (m : Sparse 8) (j : Job) (b : Basket) : Sparse 8 :=
  if !b.laid then m
  else
    let m := swrite m b.args.addr b.header
    let m := swrite m (b.args.addr + b.args.logOff) ((b.log.take b.args.logMax).flatMap (LogEntry.layout j))
    swrite m (b.args.addr + b.args.fltOff) ((b.faults.take b.args.fltMax).flatMap fun e => e.record.bytes)

/-- Change a job's basket, and its bytes with it. -/
def updBasket (s : State) (id : Nat) (f : Basket → Basket) : State :=
  match findJob s id with
  | none => s
  | some j =>
    match j.basket with
    | none => s
    | some b => { putJob s { j with basket := some (f b) } with hbm := layBasket s.hbm j (f b) }

/-! ### Translation (13_memory.md R290 to R296) -/

/-- The end of a walk: its cause, or none for a leaf, with the entry and its level. -/
structure WalkEnd where
  cause : Option Cause
  entry : Word
  level : Nat
  deriving DecidableEq, Repr

/-- The lowest virtual-address bit that indexes a level (R291). -/
def levelShift (l : Nat) : Nat := if l = 0 then 16 else 12 + 9 * l

/-- The bytes of a tier below which its addresses lie (R294). -/
def tierBytes (s : State) (ddr : Bool) : Nat := if ddr then s.ddrBytes else Config.hbmBytes

/-- A table entry of a level breaks R292, or names a table outside its tier. -/
def tableBad (s : State) (e : Word) (l : Nat) : Bool :=
  let next := (bits e 8 44).toNat * 256
  l == 0 || !isZero e 1 3 || !isZero e 6 2 || !isZero e 52 12 || (2 ≤ l && !isZero e 8 4) ||
    tierBytes s (bitAt e 5) < next + (if l == 1 then 256 else 4096)

/-- A leaf entry of a level breaks R291, R293 or R294. HOLD requires W = 0, and COORD and RTIER are for TIER 3 (log entry 11). -/
def leafBad (s : State) (e : Word) (l : Nat) : Bool :=
  let tier := (bits e 5 2).toNat
  let pa := (bits e 16 36).toNat * 65536
  2 < l || !isZero e 12 4 || !isZero e 60 4 || bits e 8 2 == 3 || pa % 2 ^ levelShift l != 0 ||
    (bitAt e 7 && tier != 0) || (bitAt e 10 && bitAt e 2) || (tier != 3 && (bitAt e 11 || !isZero e 52 8)) ||
    (tier == 0 && Config.hbmBytes < pa + 2 ^ levelShift l) || (tier == 1 && s.ddrBytes < pa + 2 ^ levelShift l) ||
    (tier == 3 && !bitAt e 11 && Config.hbmBytes < pa + 2 ^ levelShift l)

/-- The entry stood for an address when the v-th invalidation took effect: that was the first one of the address since it was overwritten,
or an earlier one (R300). -/
def OldPte.seen (e : OldPte) (va v : Nat) : Bool :=
  e.lo ≤ va && va < e.hi && match e.mark with | some k => v ≤ k | none => true

/-- The page-table entry at an address of a tier, for a virtual address; old: with the entries that MAP has overwritten for a context as they
stood for an access ahead of the marker of the v-th invalidation (R300). -/
def pteAt (s : State) (old : Option (BitVec 16 × Nat)) (va : Nat) (ddr : Bool) (a : Nat) : Word :=
  let now : Word := ofBytes 64 (getBytes s (if ddr then .ddr else .hbm) a 8)
  match old with
  | none => now
  | some (asid, v) =>
    ((s.oldPtes.find? fun e => e.asid == asid && e.ddr == ddr && e.addr == a && e.seen va v).map OldPte.entry).getD now

/-- The walk through the levels listed, from a table at base of a tier (R291, R295). -/
def walkFrom (s : State) (old : Option (BitVec 16 × Nat)) (va : Nat) : List Nat → Bool → Nat → WalkEnd
  | [], _, _ => { cause := some .pteInvalid, entry := 0, level := 0 }
  | l :: r, ddr, base =>
    let e := pteAt s old va ddr (base + 8 * (va / 2 ^ levelShift l % (if l = 0 then 32 else 512)))
    if !bitAt e 0 then { cause := some .pageNotPresent, entry := e, level := l }
    else if !bitAt e 4 then
      if tableBad s e l then { cause := some .pteInvalid, entry := e, level := l }
      else walkFrom s old va r (bitAt e 5) ((bits e 8 44).toNat * 256)
    else if leafBad s e l then { cause := some .pteInvalid, entry := e, level := l }
    else { cause := none, entry := e, level := l }

/-- The walk of a context (R289, R291); old: by an access ahead of the marker of an invalidation (R300), for which a malformed entry is no
mapping that it could keep: it walks afresh once Dvorol has corrected it (R295). An ASID without a context has no table:
PAGE_NOT_PRESENT. -/
def walk (s : State) (asid : BitVec 16) (va : Word) (old : Option Nat := none) : WalkEnd :=
  match contextOf s asid with
  | none => { cause := some .pageNotPresent, entry := 0, level := 4 }
  | some c =>
    let go := fun old => walkFrom s old va.toNat [4, 3, 2, 1, 0] c.args.rootDdr c.args.root
    match old with
    | none => go none
    | some v => let w := go (some (asid, v)); if w.cause == some .pteInvalid then go none else w

/-- The invalidation of an INV entry, in a queue and in a pipeline. -/
def QEntry.inv? : QEntry → Option Nat
  | .inv _ k => some k
  | _ => none
def PipeItem.inv? : PipeItem → Option Nat
  | .inv k => some k
  | _ => none

/-- The invalidations up to this one lie behind the operation under way (R295). -/
def freshOp : List PipeItem → Nat
  | [] => 0
  | .started o :: _ => o.fresh
  | _ :: r => freshOp r

/-- The operation that has started. -/
def startedOp : List PipeItem → Option IOp
  | [] => none
  | .started o :: _ => some o
  | _ :: r => startedOp r

/-- The first invalidation whose INV entry stands behind the operation under way, in the pipeline or in the queue. -/
def EngStream.ahead (x : EngStream) : Option Nat :=
  (x.pipe.filterMap PipeItem.inv? ++ (x.queue ++ x.late).filterMap QEntry.inv?).find? fun k => max x.fresh (freshOp x.pipe) < k

/-- The first whose INV entry stands behind the words of the segment: none that the stream has consumed. -/
def EngStream.wordAhead (x : EngStream) : Option Nat := ((x.queue ++ x.late).filterMap QEntry.inv?).find? fun k => x.fresh < k

/-- The invalidation ahead of whose marker the accesses of a unit are, the first where there are several (R300). -/
def viewOf (s : State) (u : Unit) : Option Nat :=
  match u with
  | .ctl j => (findJob s j).bind Job.marker
  | .eng j e => (findJob s j).bind fun x => (x.eng e).ahead
  | .words j e => (findJob s j).bind fun x => (x.eng e).wordAhead
  | .chan c n => (s.chans.find? fun x => x.core == c && x.n == n).bind Chan.marker
  | .index j sib => (findJob s j).bind fun x => (x.index.find? fun b => b.running && b.sib == sib).bind IdxEntry.old
  | .wringer _ | .launch _ | .tub _ | .node _ | .hub | .gone => none

/-- The compute die whose last-level TLB serves a core; the hub's units use that of die 0. -/
def dieFor (core : Nat) : Nat := if core = 0xFFFF then 0 else dieOf core

/-- A TLB entry serves a core, in its L1 TLB or in the last-level TLB of its die. -/
def TlbEntry.serves (t : TlbEntry) (core : Nat) : Bool :=
  match t.at' with
  | .l1 c => c == core
  | .die d => d == dieFor core

/-- An entry is there for an access: for one ahead of the marker of the v-th invalidation where it was there when that took effect, else
where no invalidation has removed it (R300). -/
def TlbEntry.seen (t : TlbEntry) (view : Option Nat) : Bool :=
  match view with
  | some v => t.born < v && (!t.stale || v ≤ t.died)
  | none => !t.stale

/-- The leaf and its level for a page: what a TLB holds, else a walk (R296). -/
def leafFor (s : State) (p : Party) (va : Word) : WalkEnd :=
  let view := viewOf s p.unit
  match s.tlb.find? fun t =>
      t.serves p.core && t.asid == p.asid && va.toNat / 2 ^ t.bits * 2 ^ t.bits == t.base && t.seen view with
  | some t => { cause := none, entry := t.leaf, level := if t.bits = 16 then 0 else if t.bits = 21 then 1 else 2 }
  | none => walk s p.asid va view

/-- A cause raised against an access. -/
def Access.stop (acc : Access) (c : Cause) (v : Word) : Stop := if acc == .read then .trap c v else .denied acc c v

/-- The record of a fault (R299). -/
def faultRec (s : State) (p : Party) (va : Word) (acc : Access) (c : Option Cause) (hold : Bool) (w : WalkEnd) : FaultRec :=
  { va, asid := p.asid, core := p.core, cause := c, access := acc, stream := p.stream, hold,
    absent := match findJob s p.job with | some j => !j.resident || j.st == .draining | none => false
    sib := p.sib, entry := w.entry, level := w.level }

/-- The record of the access that a stop has ended, of no entry where no walk has failed. -/
def stopRec (s : State) (p : Party) : Stop → FaultRec
  | .fault _ _ r | .held r => r
  | .denied acc c v => faultRec s p v acc (some c) false { cause := some c, entry := 0, level := 0 }
  | .trap c v => faultRec s p v .read (some c) false { cause := some c, entry := 0, level := 0 }
  | .stall | .mark _ | .send .. => faultRec s p 0 .read none false { cause := none, entry := 0, level := 0 }

/-- The leaf gives the permission that the access needs (R295). -/
def leafAllows (e : Word) (acc : Access) : Bool :=
  match acc with
  | .read => bitAt e 1
  | .write => bitAt e 2
  | .fetch => bitAt e 3
  | .atomic => bitAt e 1 && bitAt e 2 && bits e 5 2 != 2

/-- The access writes (R295). -/
def Access.writes : Access → Bool
  | .write | .atomic => true
  | _ => false

/-- Poison policy of a leaf (R293). -/
def leafPolicy (e : Word) : Poison := (Poison.ofCode (bits e 8 2)).getD .trap

/-- The place that a leaf of a level gives a virtual address (R291, R293, R294). -/
def leafPlace (e : Word) (l : Nat) (va : Word) : Place :=
  let pa := (bits e 16 36).toNat * 65536 + va.toNat % 2 ^ levelShift l
  match bits e 5 2 with
  | 0 => .here .hbm pa (leafPolicy e)
  | 1 => .here .ddr pa (leafPolicy e)
  | 2 => .here .host pa (leafPolicy e)
  | _ => .remote (bits e 52 8) (bitAt e 11) pa (leafPolicy e)

/-- The leaf holds writes (R302). -/
def WalkEnd.holds (w : WalkEnd) : Bool := w.cause.isNone && bitAt w.entry 10

/-- Translate an access (R295, R302). A write ahead of a marker sees the HOLD of its own mapping, and the one that stands now (R300). -/
def translate (s : State) (p : Party) (acc : Access) (va : Word) : Except Stop Place :=
  if !isZero va 57 7 then .error (Access.stop acc .pageNotPresent va)
  else
    let w := leafFor s p va
    let now := if (viewOf s p.unit).isSome then walk s p.asid va else w
    let writes := acc == .write || acc == .atomic
    match w.cause with
    | some c => .error (.fault c va (faultRec s p va acc (some c) false w))
    | none =>
      if writes && (now.holds || w.holds) then .error (.held (faultRec s p va acc none true (if now.holds then now else w)))
      else if leafAllows w.entry acc then .ok (leafPlace w.entry w.level va)
      else .error (.fault .pagePermission va (faultRec s p va acc (some .pagePermission) false w))

/-! ### The scratchpad (10_scratchpad.md R230 to R233, R240, R241) -/

/-- The offset lies in the job's region. -/
def Job.holds (j : Job) (o : Nat) : Bool := j.spbase.toNat ≤ o && o < j.splim.toNat

/-- The offset lies in the shadow region of a bound pair. -/
def Job.shadowed (j : Job) (o : Nat) : Bool :=
  j.pairs.toList.any fun q => q.bound && q.shadow ≤ o && o < q.shadow + q.bytes

/-- The job whose region an offset named by job j is admitted in, and the offset in it (R232). -/
def admitOff (s : State) (j : Job) (o : Nat) : Option (Job × Nat) :=
  if o < 0x800000 then
    if j.holds o && !j.shadowed o then some (j, o) else none
  else
    let k := o - 0x800000
    if 0x700000 ≤ k && k < 0x800000 then
      match (allJobs s).find? fun x => x.launch == j.launch && x.id != j.id && x.core == sibling j.core && x.holds k with
      | some x => if x.shadowed k then none else some (x, k)
      | none => none
    else none

/-- The line of an offset stands in the image of the job's basket: the job is suspended, the save has passed the line, or the restore has
not (15_traps.md R334, R335, R337). -/
def Job.imaged (j : Job) (o : Nat) : Bool :=
  let passed := match j.basket with | some b => (o - j.spbase.toNat) / 64 < b.lines | none => false
  match j.st with
  | .suspended => true
  | .saving => passed
  | .folding => !passed
  | _ => false

/-- The store that holds a byte of a job's scratchpad, and its address there (R233, 15_traps.md R335). -/
def Job.home (j : Job) (o : Nat) : Space × Nat :=
  match j.basket with
  | some b => if j.imaged o then (.hbm, b.args.addr + b.args.imgOff + (o - j.spbase.toNat)) else (.spad j.core, o)
  | none => (.spad j.core, o)

/-- The bank of an offset is waking (R244). -/
def wakingAt (s : State) (sp : Space) (o : Nat) : Bool :=
  match sp with
  | .spad c => s.waking.any fun w => w.1 == c && w.2.1 == o / 262144
  | _ => false

/-- The bound pair whose logical region holds an offset. -/
def Job.pairAt (j : Job) (o : Nat) : Option (Fin 4) :=
  (List.finRange 4).find? fun k =>
    let q := j.pairs[k]
    q.bound && q.base ≤ o && o < q.base + q.bytes

/-- The offset of copy 0 or 1 of an offset of a pair's logical region (R241). -/
def Pair.copy (q : Pair) (o : Nat) (one : Bool) : Nat := if one then q.shadow + (o - q.base) else o

/-- The current copy of the offset's line is copy 1, and the line is dirty. -/
def Pair.curAt (q : Pair) (o : Nat) : Bool := sget q.cur ((o - q.base) / 64) == 1
/-- The line of the offset is spec-dirty. -/
def Pair.dirtyAt (q : Pair) (o : Nat) : Bool := sget q.dirty ((o - q.base) / 64) == 1

/-- The offset that a read of a logical offset reads (R241). -/
def Job.readOff (j : Job) (o : Nat) : Nat :=
  match j.pairAt o with
  | none => o
  | some k => let q := j.pairs[k]; q.copy o (q.curAt o != q.dirtyAt o)

/-- Copy a line with its poison mark. -/
def copyLine (s : State) (src dst : Space × Nat) : State :=
  setBad (putBytes s dst.1 dst.2 (getBytes s src.1 src.2 64)) dst.1 dst.2 (lineBad s src.1 src.2)

/-- Prepare a write to the line of a logical offset: copy the line if the pair is active and the line not dirty. The place that
the write goes to (R241). -/
def bastWrite (s : State) (j : Job) (o : Nat) : State × (Space × Nat) :=
  match j.pairAt o with
  | none => (s, j.home o)
  | some k =>
    let q := j.pairs[k]
    let into := q.copy o (q.curAt o != q.active)
    if q.active && !q.dirtyAt o then
      let line := o / 64 * 64
      let s := copyLine s (j.home (q.copy line (q.curAt o))) (j.home (q.copy line (!q.curAt o)))
      (updJob s j.id fun j => { j with pairs := j.pairs.set k { q with dirty := sset q.dirty ((o - q.base) / 64) 1 } }, j.home into)
    else (s, j.home into)

/-- The offsets that an access to a logical offset reads or writes (R241). -/
def Job.touched (j : Job) (writes : Bool) (o : Nat) : List Nat :=
  if !writes then [j.readOff o]
  else
    match j.pairAt o with
    | none => [o]
    | some k =>
      let q := j.pairs[k]
      if q.active && !q.dirtyAt o then [q.copy o false, q.copy o true] else [q.copy o (q.curAt o != q.active)]

/-! ### Tubs (11_sync.md R259, R260) -/

/-- The bytes that [a, a + n) and [b, b + m) share. -/
def overlap (a n b m : Nat) : Nat := min (a + n) (b + m) - max a b

/-- The bytes of a write that lie in a tub's region. -/
def Tub.hits (t : Tub) (a n : Nat) : Nat := (t.region.map fun r => overlap r.1 r.2 a n).sum

/-- COUNT grows by n, saturating; the firings that follow (R259, R260). -/
def Tub.add (t : Tub) (n : Nat) : Tub :=
  if !t.armed then t
  else
    let c := min (t.count + n) (2 ^ 40 - 1)
    if t.rearm then { t with count := c % t.total, fires := t.fires ++ List.replicate (c / t.total) t.act }
    else { t with count := c, fires := t.fires ++ (if t.count < t.total && t.total ≤ c then [t.act] else []) }

/-- The log entries of a write to [o, o + n) of a job's scratchpad: one for each armed tub that it hits. -/
def Job.tubEntries (j : Job) (o n : Nat) : List LogEntry :=
  j.tubs.filterMap fun (k, t) => if t.armed && t.hits o n != 0 then some (.tub k (t.hits o n)) else none

/-- Count a write to [o, o + n) towards the scratchpad tubs of a job; while the job is absent the bytes are logged
(15_traps.md R334, R335). -/
def countSpad (s : State) (j : Job) (o n : Nat) : State :=
  if j.logging then updBasket s j.id fun b => { b with log := b.log ++ j.tubEntries o n }
  else updJob s j.id fun j => { j with tubs := j.tubs.map fun (k, t) => (k, t.add (t.hits o n)) }

/-- Count a write to HBM addresses towards the memory tubs of their die (R256). -/
def countHbm (s : State) (a n : Nat) : State :=
  { s with tubs := s.tubs.map fun (d, k, t) => (d, k, t.add (t.hits a n)) }

/-- A job's event log has room for n entries more (15_traps.md R333). -/
def Job.logRoom (j : Job) (n : Nat) : Bool :=
  match j.basket with
  | some b => b.log.length + n ≤ b.args.logMax
  | none => true

/-! ### Remote requests (16_fabric.md R343 to R346) -/

/-- PARTY of a request (R343). A unit of the hub is on no control core: its CC is 0 whatever becomes of the job it acts for, so that its packets
keep one PARTY and with it their order (R318, R349; DESIGN CHOICE, log entry 67). -/
def Party.field (s : State) (p : Party) : BitVec 16 :=
  let cc := match findJob s p.job with | some j => p.core != 0xFFFF && j.cc | none => false
  0#2 ++ flag cc ++ BitVec.ofNat 4 p.stream ++ (if p.core = 0xFFFF then 0x1FF#9 else BitVec.ofNat 9 p.core)

/-- A request of a party; SEQ, ACKB and EPOCH are filled in when it is sent. -/
def request (s : State) (p : Party) (op : ReqOp) (dev : BitVec 8) (ddr : Bool) (pa size : Nat) (pol : Poison) : Request :=
  { op, cls := p.cls, poison := pol, ddr, detoured := false, src := ownIndex s, tgt := dev, seq := 0, ackb := 0,
    asid := p.asid, party := p.field s, pa, size, epoch := 0 }

/-- A request r of a unit, made under a key, is the access of party p that request q stands for. A control stream makes an access again
by the instruction that made it; every other unit goes on from its progress, and what it sent first is what stands (R346). -/
def Party.made (p : Party) (q : Request) (u : Unit) (key : Word) (r : Request) : Bool :=
  u == p.unit && key == p.key && reqKind r.op == reqKind q.op && r.tgt == q.tgt && r.ddr == q.ddr && r.pa == q.pa && r.size == q.size &&
    match p.unit with
    | .ctl _ => r.op == q.op
    | _ => true

/-- The response to a party's request, or why there is none yet (R344, R346). A load of a poisoned line gives zeros, marked: its reader
says what becomes of it. Another access raises POISON with TVAL line. -/
def answerTo (s : State) (p : Party) (q : Request) (va line : Word) : Except Stop Response :=
  let acc : Access := match reqKind q.op with | 1 => .read | 2 => .write | _ => .atomic
  match s.rbuf.find? fun r => p.made q r.unit r.key r.req with
  | some r =>
    match r.resp.status with
    | 0 => .ok r.resp
    | 2 => if reqKind q.op = 1 then .ok { r.resp with data := [], poisoned := true } else .error (Access.stop acc .poison line)
    | 4 => .error (Access.stop acc .remoteUnreachable va)
    | _ => .error (Access.stop acc .remotePermission va)
  | none =>
    match s.outs.find? fun o => p.made q o.unit o.key o.req with
    | none => .error (.send q)
    | some o =>
      match o.st with
      | .waiting => .error .stall
      | .failed => .error (Access.stop acc .remoteUnreachable va)
      | .reported => .error (.send q)

/-- A new request under the next SEQ, sent where a route is up. -/
def postReq (s : State) (u : Unit) (key : Word) (q : Request) : State :=
  let n := seqOf s q.tgt
  let q := { q with seq := n }
  sendWaiting { s with
    seqs := assign s.seqs q.tgt (n + 1)
    outs := s.outs ++ [{ req := q, unit := u, key, sends := 0, last := s.clock, st := .waiting, resynced := false }] }

/-- n requests more towards a device keep the limit of R344. -/
def roomTo (s : State) (dev : BitVec 8) (n : Nat := 1) : Bool := (s.outs.filter fun o => o.req.tgt == dev).length + n ≤ Config.outLimit

/-- Send a request for a party: a failed one again under its SEQ unless a RESYNC has passed, a new one under the next SEQ unless
the limit of R344 is reached. -/
def sendReq (s : State) (p : Party) (q : Request) : State :=
  match s.outs.find? fun o => p.made q o.unit o.key o.req && o.st == .reported && !o.resynced with
  | some o =>
    sendWaiting { s with outs := s.outs.map fun x => if x == o then { o with st := .waiting, sends := 0, last := s.clock } else x }
  | none =>
    let t := { s with outs := s.outs.filter fun o => !(p.made q o.unit o.key o.req && o.resynced) }
    if roomTo t q.tgt then postReq t p.unit p.key q else s

/-- A unit has taken the responses it was waiting for. -/
def takeReplies (s : State) (u : Unit) : State := { s with rbuf := s.rbuf.filter fun r => r.unit != u }

/-- The unit goes on past the accesses that gone says: a failed one among them will not be made again, and its SEQ stays reserved
(R346). -/
def passOuts (s : State) (u : Unit) (gone : Word → Bool) : State :=
  { s with outs := s.outs.map fun o => if o.unit == u && o.st == .reported && gone o.key then { o with unit := .gone } else o }

/-- A unit other than a control stream has done what it made its accesses for. -/
def unitPassed (s : State) (u : Unit) : State := takeReplies (passOuts s u fun _ => true) u

/-- A unit stops at a trap: of its responses those stay by which something has been written, for what it makes again when it goes on. -/
def keepWrites (s : State) (u : Unit) : State :=
  { s with rbuf := s.rbuf.filter fun r =>
      r.unit != u || (reqKind r.req.op != 1 && r.resp.status == 0 && match u with | .ctl _ => false | _ => true) }

/-- A unit's failed requests have been reported to it (R346). -/
def reported (s : State) (u : Unit) : State :=
  { s with outs := s.outs.map fun o => if o.unit == u && o.st == .failed then { o with st := .reported } else o }

/-- A unit has a request without a response. -/
def awaiting (s : State) (u : Unit) : Bool := s.outs.any fun o => o.unit == u && o.st != .reported

/-- A unit has made a request, and has not yet done what it made it for. -/
def midAccess (s : State) (u : Unit) : Bool := awaiting s u || s.rbuf.any fun r => r.unit == u

/-! ### Locating an access -/

/-- The n bytes of a place. -/
def Place.span (s : State) (n : Nat) : Place → Span
  | .here sp a _ => { far := none, sp, a, n }
  | .remote dev ddr a _ =>
    if dev = ownIndex s then { far := none, sp := if ddr then .ddr else .hbm, a, n } else { far := some (dev, ddr), sp := .host, a, n }

/-- They share a byte. -/
def Span.meets (x y : Span) : Bool := x.far == y.far && (x.far.isSome || x.sp == y.sp) && overlap x.a x.n y.a y.n != 0

/-- Bytes of an element that a block or an operation of another unit updates at two places (12_copy_index.md R285, 06_registers.md R158). -/
def guarded (s : State) (u : Unit) (x : Span) : Bool :=
  (allJobs s).any fun j =>
    (j.index.any fun e => u != .index j.id e.sib && e.guard.any x.meets) ||
      engines.any fun e => u != .eng j.id e && ((startedOp (j.eng e).pipe).any fun o => o.guard.any x.meets)

/-- A store of a control stream that is pending for bytes inside this device. -/
def pendingAt (s : State) (x : Span) : Bool :=
  x.far.isNone && (allJobs s).any fun j => j.stores.any fun
    | .store _ sp a _ d => x.meets { far := none, sp, a, n := d.length }
    | .fence _ => false

/-- Another party has a store pending, or a request without a response, for the bytes. -/
def Span.busy (s : State) (u : Unit) (x : Span) : Bool :=
  pendingAt s x || s.outs.any fun o =>
    o.unit != u && o.st == .waiting && x.meets ((Place.remote o.req.tgt o.req.ddr o.req.pa .trap).span s o.req.size)

/-- Two places in one tier of another device of which the second begins n bytes after the first. -/
def besides : Place → Place → Nat → Option (BitVec 8 × Bool × Nat)
  | .remote dev ddr pa _, .remote dev' ddr' pa' _, n => if dev = dev' && ddr == ddr' && pa' = pa + n then some (dev, ddr, pa) else none
  | _, _, _ => none

/-- A stop at a request of an element that is updated at two places keeps their bytes from others. -/
def Stop.guarding (l : List Span) : Stop → Stop
  | .send q g => .send q (g ++ l)
  | x => x

/-- What a unit that waits at a stop keeps from others, where it has kept l before: that is kept until the element is done. -/
def Stop.keeps (l : List Span) (x : Stop) : List Span := if x.guard.isEmpty then l else x.guard

/-- WMARK of a physical channel (12_copy_index.md R276), and replaced. -/
def wmarkOf (s : State) (core n : Nat) : Word := sget s.wmarks (8 * core + n)
def setWmark (s : State) (core n : Nat) (v : Word) : State := { s with wmarks := sset s.wmarks (8 * core + n) v }

/-- A channel's WM record runs, and its watermark has not yet passed the n bytes from a on in the scratchpad of the owning job, or as
addresses (12_copy_index.md R277). -/
def Chan.holdsBack (s : State) (c : Chan) (owner : Option Nat) (a n : Nat) : Bool :=
  let m := (wmarkOf s c.core c.n).toNat
  let low := if c.wmSpad && 0x800000 ≤ m then 0x800000 else 0
  c.wmRun && m - low < a + n && a < c.wmEnd.toNat - low && m < c.wmEnd.toNat &&
    match owner with
    | some j => c.wmSpad && c.wmJob == j
    | none => !c.wmSpad

/-- The watermark of a channel of the access's own job that has not yet passed the n bytes that a stream or a block accesses; a
channel's own accesses do not stall (R277, log entry 34). -/
def watermarked (s : State) (p : Party) (l : Loc) (owner : Option (Nat × Nat)) (n : Nat) : Option Mark :=
  let at' := fun (o : Option Nat) (a : Nat) =>
    (s.chans.find? fun c => c.job == p.job && p.job != 0 && (match p.unit with | .chan .. => false | _ => true) && c.holdsBack s o a n).map
      fun c => { core := c.core, n := c.n, owner := o, lo := a, len := n }
  match owner, l with
  | some (j, o), _ => at' (some j) o
  | none, .va a => at' none a.toNat
  | none, .off .. => none

/-- An access of a job waits at the watermark of a channel that has stopped, which has not passed it (R277, 15_traps.md R330; log entry 35). -/
def markStopped (s : State) (job : Nat) : Option Mark → Bool
  | some m => s.chans.any fun c =>
      c.core == m.core && c.n == m.n && c.job == job && c.halt != .going && c.holdsBack s m.owner m.lo m.len
  | none => false

/-- The access stops at a watermark, or k. -/
def unlessMarked {α : Type} (s : State) (p : Party) (l : Loc) (owner : Option (Nat × Nat)) (n : Nat) (k : Except Stop α) : Except Stop α :=
  match watermarked s p l owner n with
  | some m => .error (.mark m)
  | none => k

/-- Where an offset of a job's scratchpad leads: the job that owns it, with its offset there, or SPAD_BOUNDS with TVAL v. -/
def locateOff (s : State) (p : Party) (acc : Access) (o job : Nat) (l : Loc) (n : Nat) (v : Word) : Except Stop (Place × Option (Nat × Nat)) :=
  match (findJob s job).bind fun j => admitOff s j o with
  | none => .error (Access.stop acc .spadBounds v)
  | some (j, k) =>
    let waits := (j.touched (Access.writes acc) k).any fun o => let h := j.home o; wakingAt s h.1 h.2
    unlessMarked s p l (some (j.id, k)) n <|
      if waits then .error .stall
      else if Access.writes acc && j.logging && !j.logRoom (j.tubEntries k n).length then .error .stall
      else .ok (.here (j.home k).1 (j.home k).2 .trap, some (j.id, k))

/-- Where an address leads, and for a scratchpad the owning job and its offset, once no watermark holds the access back. -/
def lookUp (s : State) (p : Party) (acc : Access) (l : Loc) (n : Nat) : Except Stop (Place × Option (Nat × Nat)) :=
  match l with
  | .off o j => locateOff s p acc o j l n (BitVec.ofNat 64 o)
  | .va a =>
    if inAperture a then
      if acc == .fetch then .error (.denied .fetch .pagePermission a)
      else if p.aperture then locateOff s p acc (a.toNat % 2 ^ 24) p.job l n a
      else .error (Access.stop acc .spadBounds a)
    else
      match translate s p acc a with
      | .error e => .error e
      | .ok pl => unlessMarked s p l none n (.ok (pl, none))

/-- Where an access of n bytes in one line leads. Bytes that a block combines are accessed once it has combined them. -/
def locate (s : State) (p : Party) (acc : Access) (l : Loc) (n : Nat) : Except Stop (Place × Option (Nat × Nat)) :=
  match lookUp s p acc l n with
  | .error e => .error e
  | .ok x => if guarded s p.unit (x.1.span s n) then .error .stall else .ok x

/-- The two places of an element of n bytes that crosses a line and is updated indivisibly, where neither one moment inside this device nor one
request to another does it: where not both lie here, nor side by side in one tier of one device. From the first request for it until it is
done no other party of this device accesses its bytes, and no request of another device those that lie here (log entry 16). -/
def twoPlaces (s : State) (p : Party) (l : Loc) (n : Nat) : Except Stop (List Span) :=
  let k := 64 - l.low
  if n ≤ k then .ok []
  else
    match locate s p .atomic l k, locate s p .atomic (l.add k) (n - k) with
    | .error x, _ | _, .error x => .error x
    | .ok (.here .., _), .ok (.here .., _) => .ok []
    | .ok (x, _), .ok (y, _) => .ok (if (besides x y k).isSome then [] else [x.span s k, y.span s (n - k)])

/-- The offset and length of the part of a run of n bytes that lies in each 64-byte line; none of an empty run. -/
def lineParts (low n : Nat) : List (Nat × Nat) :=
  (List.range (if n = 0 then 0 else (low + n + 63) / 64)).map fun k =>
    let lo := max low (64 * k)
    (lo - low, min (low + n) (64 * k + 64) - lo)

/-! ### Reads -/

/-- Bytes read from one line: the data, whether the line is poisoned, the policy, and the line as TVAL names it. -/
structure Chunk where
  data : List Byte
  bad : Bool
  pol : Poison
  line : Word
  deriving DecidableEq, Repr

/-- Where a read of a located byte reads: in a scratchpad at the copy that its basting gives. -/
def readPlace (s : State) (sp : Space) (a : Nat) (owner : Option (Nat × Nat)) : Space × Nat :=
  match owner with
  | some (j, o) => match findJob s j with | some x => x.home (x.readOff o) | none => (sp, a)
  | none => (sp, a)

/-- Read n bytes that lie in one line. -/
def readChunk (s : State) (p : Party) (acc : Access) (l : Loc) (n : Nat) : Except Stop Chunk :=
  match locate s p acc l n with
  | .error e => .error e
  | .ok (.here sp a pol, owner) =>
    let (sp, a) := readPlace s sp a owner
    .ok { data := getBytes s sp a n, bad := lineBad s sp a, pol, line := l.line }
  | .ok (.remote dev ddr pa pol, _) =>
    match answerTo s p (request s p .load dev ddr pa n pol) l.word l.line with
    | .error e => .error e
    | .ok r => .ok { data := padBytes n r.data, bad := r.poisoned, pol, line := l.line }

/-- Read each of several parts. -/
def readParts (s : State) (p : Party) (acc : Access) (l : Loc) : List (Nat × Nat) → Except Stop (List Chunk)
  | [] => .ok []
  | (o, n) :: r =>
    match readChunk s p acc (l.add o) n with
    | .error e => .error e
    | .ok c =>
      match readParts s p acc l r with
      | .error e => .error e
      | .ok cs => .ok (c :: cs)

/-- Read n bytes, line by line. -/
def readChunks (s : State) (p : Party) (acc : Access) (l : Loc) (n : Nat) : Except Stop (List Chunk) :=
  readParts s p acc l (lineParts l.low n)

/-- Read bytes that are never substituted: a record, an instruction word, a handle vector (13_memory.md R400,
06_registers.md R152). -/
def readExact (s : State) (p : Party) (acc : Access) (l : Loc) (n : Nat) : Except Stop (List Byte) :=
  match readChunks s p acc l n with
  | .error e => .error e
  | .ok cs =>
    match cs.find? Chunk.bad with
    | some c => .error (.trap .poison c.line)
    | none => .ok (cs.flatMap Chunk.data)

/-- Read data under the policies of its lines, pol overriding the page's: the bytes, and for each whether it stands for a
poisoned one. TRAP raises POISON; ZERO and PASS give zeros, marked. -/
def readData (s : State) (p : Party) (l : Loc) (n : Nat) (pol : Option Poison) : Except Stop (List (Byte × Bool)) :=
  match readChunks s p .read l n with
  | .error e => .error e
  | .ok cs =>
    match cs.find? fun c => c.bad && pol.getD c.pol == .trap with
    | some c => .error (.trap .poison c.line)
    | none => .ok (cs.flatMap fun c => c.data.map fun b => if c.bad then (0, true) else (b, false))

/-! ### Writes -/

/-- The bytes of a write that stays inside the device, in one line: basting (R241), poison (R119, R245, R388), tub counts. -/
def storeLine (s : State) (sp : Space) (a : Nat) (owner : Option (Nat × Nat)) (d : List Byte) (bad : Bool) : State :=
  let job := owner.bind fun q => (findJob s q.1).map fun j => (j, q.2)
  let (s, (into, b)) := match job with
    | some (j, o) => bastWrite s j o
    | none => (s, (sp, a))
  let s := clearZero (clearZero (putBytes s into b d) into b d.length) sp a d.length
  let s := if bad then setBad s into b true else if d.length = 64 then setBad s into b false else s
  match job, sp with
  | some (j, o), _ => countSpad s j o d.length
  | none, .hbm => countHbm s a d.length
  | _, _ => s

/-- A part of a write with its place. -/
structure Part where
  place : Place
  owner : Option (Nat × Nat)
  data : List Byte
  bad : Bool
  deriving DecidableEq, Repr

/-- Every part of a write located, and every remote part answered; nothing is changed. -/
def writeParts (s : State) (p : Party) (l : Loc) (d : List (Byte × Bool)) : List (Nat × Nat) → Except Stop (List Part)
  | [] => .ok []
  | (o, n) :: r =>
    match locate s p .write (l.add o) n with
    | .error e => .error e
    | .ok (pl, owner) =>
      let bytes := (d.drop o).take n
      let data := bytes.map Prod.fst
      let answered : Except Stop Response :=
        match pl with
        | .here .. => .ok { status := 0, src := 0, tgt := 0, seq := 0, result := 0, data := [], poisoned := false }
        | .remote dev ddr pa pol =>
          answerTo s p (request s p (.store data (bytes.any Prod.snd)) dev ddr pa n pol) (l.add o).word (l.add o).line
      match answered with
      | .error e => .error e
      | .ok _ =>
        match writeParts s p l d r with
        | .error e => .error e
        | .ok ps => .ok ({ place := pl, owner, data, bad := bytes.any Prod.snd } :: ps)

/-- The parts of a write stored. A line is marked where a byte for it is. -/
def storeParts (s : State) : List Part → State
  | [] => s
  | q :: r =>
    match q.place with
    | .here sp a _ => storeParts (storeLine s sp a q.owner q.data q.bad) r
    | .remote .. => storeParts s r

/-- The responses to a unit's stores are taken. -/
def takeStores (s : State) (u : Unit) : State :=
  { s with rbuf := s.rbuf.filter fun r => !(r.unit == u && reqKind r.req.op == 2) }

/-- The event log of each job whose tubs a write's parts hit has room for all their entries (15_traps.md R333); a part alone has been found
to have room as it was located. -/
def partsRoom (s : State) (ps : List Part) : Bool :=
  ps.length ≤ 1 ||
    ps.all fun q =>
      match q.owner.bind fun w => findJob s w.1 with
      | some j =>
        !j.logging || j.logRoom (ps.flatMap fun x => match x.owner with
          | some (id, o) => if id == j.id then j.tubEntries o x.data.length else []
          | none => []).length
      | none => true

/-- Write bytes, each marked poisoned or not: every part or none. -/
def writeMarked (s : State) (p : Party) (l : Loc) (d : List (Byte × Bool)) : Except Stop State :=
  match writeParts s p l d (lineParts l.low d.length) with
  | .error e => .error e
  | .ok ps => if partsRoom s ps then .ok (takeStores (storeParts s ps) p.unit) else .error .stall

/-- Write bytes. -/
def writeBytes (s : State) (p : Party) (l : Loc) (d : List Byte) : Except Stop State :=
  writeMarked s p l (d.map fun b => (b, false))

/-! ### Read-modify-writes (05_control_core.md R121 to R124) -/

/-- An indivisible read-modify-write of n bytes in one line. f gives the bytes to write, or none for no write; op is the request
that stands for it at a remote target, whose result gives the old bytes. A poisoned line raises POISON with TVAL v and is not
written. -/
def readModify (s : State) (p : Party) (l : Loc) (n : Nat) (op : ReqOp) (v : Word) (f : List Byte → Option (List Byte)) :
    Except Stop (List Byte × State) :=
  match locate s p .atomic l n with
  | .error e => .error e
  | .ok (.remote dev ddr pa pol, _) =>
    match answerTo s p (request s p op dev ddr pa n pol) v v with
    | .error e => .error e
    | .ok r => .ok (leBytes n r.result.toNat, s)
  | .ok (.here sp a _, owner) =>
    let (at', b) := readPlace s sp a owner
    if lineBad s at' b then .error (.denied .atomic .poison v)
    else
      let old := getBytes s at' b n
      match f old with
      | none => .ok (old, s)
      | some d => .ok (old, storeLine s sp a owner d false)

/-! ### What becomes of a stop -/

/-- Post a fault record to the die's queue (13_memory.md R298); none while the queue is full. -/
def postFault (s : State) (r : FaultRec) : Option State :=
  let die := dieFor r.core
  if Config.faultQueue ≤ (s.faultQ.filter fun q => q.1 == die).length then none
  else some { s with faultQ := s.faultQ ++ [(die, r)] }

/-- What a unit does about a stop, once its record is posted and its request sent. -/
inductive Verdict where
  /-- try again at a later turn -/
  | again (s : State)
  /-- a trap of the unit -/
  | trap (s : State) (c : Cause) (v : Word)
  /-- wait for Dvorol (R295) -/
  | dvorol (s : State) (v : Word)
  /-- a held write (R302) -/
  | held (s : State)

/-- The record posted, the request sent, the failed requests reported (R298, R344, R346). -/
def verdict (s : State) (p : Party) : Stop → Verdict
  | .trap c v | .denied _ c v => .trap (keepWrites (reported s p.unit) p.unit) c v
  | .fault c v r =>
    match postFault s r with
    | none => .again s
    | some s => if c == .pteInvalid then .dvorol s v else .trap s c v
  | .held r =>
    match postFault s r with
    | none => .again s
    | some s => .held s
  | .stall | .mark .. => .again s
  | .send q _ => .again (sendReq s p q)

end Sys2Proof.Machine
end

