-- ==== Sys2Proof/Machine/Sync.lean ====
section
/-! DEFINITION. The shared steps behind the instructions of a control stream: its accesses and pending stores (14_ordering.md),
engine queues (07_queues.md), barriers and tubs (11_sync.md). -/

namespace Sys2Proof.Machine

/-- The outcome of a step. -/
abbrev Result := Host.Outcome State Fault Refusal

/-! ### Accesses of a control stream -/

/-- The control stream of the focused job as a party, with a class (R303). -/
def ctlParty (s : State) (c : Cls) : Party :=
  { unit := .ctl s.job.id, job := s.job.id, asid := s.job.asid, core := s.job.core, stream := 0, cls := c, aperture := true,
    sib := false, key := s.job.pc }

/-- A stop of a control-stream access: a trap is taken, exact (05_control_core.md R117); otherwise the instruction waits, and runs again in full
before the stream stops anywhere (R133). -/
def ctlStop (s : State) (e : Stop) : State :=
  match verdict s (ctlParty s 0) e with
  | .again s => hold s (.stalled e.mark?)
  | .trap s c v => raise s c v
  | .dvorol s v => tellContext (hold s (.dvorol .pteInvalid v)) s.job.asid 4 Cause.pteInvalid.code v
  | .held s => hold s .held

/-- Do k with the result of an access, or stop. -/
def withAccess {α : Type} (s : State) (r : Except Stop α) (k : α → State) : State :=
  match r with
  | .error e => ctlStop s e
  | .ok a => k a

/-- The responses that the control stream waited for are taken, and it goes on. -/
def doneX (s : State) (d : Reg) (v : Word) : State := retireX (takeReplies s (.ctl s.job.id)) d v

/-! ### Pending stores (R305 to R309, log entry 6) -/

/-- Where a control stream's access goes: a store of the device with an address there, and for a scratchpad the owning job and its
offset. -/
abbrev Spot := Space × Nat × Option (Nat × Nat)

/-- The spot of a located access; none at another device. -/
def spotOf (s : State) : Place × Option (Nat × Nat) → Option Spot
  | (.here sp a _, owner) => some (sp, a, owner)
  | (.remote dev ddr pa _, _) => if dev = ownIndex s then some (if ddr then .ddr else .hbm, pa, none) else none

/-- The bytes of the first spot, n of them, that the m bytes of the second share. -/
def Spot.meets (x : Spot) (n : Nat) (y : Spot) (m : Nat) : Bool :=
  match x.2.2, y.2.2 with
  | some (j, o), some (k, q) => j == k && overlap o n q m != 0
  | none, none => x.1 == y.1 && overlap x.2.1 n y.2.1 m != 0
  | _, _ => false

/-- Perform a store of a control stream. A store to a scratchpad goes where its bytes stand by now (15_traps.md R335). Its job is there: what is
pending for it performs before it retires, and before its lines change their places (04_jobs.md R76, 10_scratchpad.md R242). -/
def performStore (s : State) : Pending → State
  | .fence _ => s
  | .store _ sp a none d => storeLine s sp a none d false
  | .store _ _ _ (some (j, o)) d =>
    match findJob s j with
    | none => s
    | some x => storeLine s (x.home o).1 (x.home o).2 (some (j, o)) d false

/-- Perform entries in order. -/
def performAll (s : State) : List Pending → State
  | [] => s
  | e :: r => performAll (performStore s e) r

/-- Perform every pending store of the focused job: a hand-over or a full release (R314). -/
def drain (s : State) : State :=
  let l := s.job.stores
  performAll { s with job := { s.job with stores := [] } } l

/-- Perform every pending store of every job, before the places that they go to change (13_memory.md R300, R302, 15_traps.md R334). -/
def settleStores (s : State) : State :=
  (allJobs s).foldl (fun s j => performAll (updJob s j.id fun x => { x with stores := [] }) j.stores) s

/-- The entries up to and with the last one that p holds of, and the entries behind it. -/
def splitLast (p : Pending → Bool) : List Pending → List Pending × List Pending
  | [] => ([], [])
  | e :: r =>
    let (a, b) := splitLast p r
    if a.isEmpty then (if p e then ([e], b) else ([], e :: r)) else (e :: a, b)

/-- Perform the pending stores up to the last one that p holds of. -/
def drainWhere (s : State) (p : Pending → Bool) : State :=
  let (a, b) := splitLast p s.job.stores
  performAll { s with job := { s.job with stores := b } } a

/-- The store goes to a job's scratchpad. -/
def Pending.into (id : Nat) : Pending → Bool
  | .store _ _ _ (some (j, _)) _ => j == id
  | _ => false

/-- Perform what the jobs have pending for a job's scratchpad, each with what stands before it. -/
def settleInto (s : State) (id : Nat) : State :=
  (allJobs s).foldl (fun s j =>
    let (a, b) := splitLast (Pending.into id) j.stores
    performAll (updJob s j.id fun x => { x with stores := b }) a) s

/-- The entry must perform before a store of class c to the n bytes at a spot (R307, R308): it goes to one of the same bytes, under
whatever address. -/
def Pending.before (c : Cls) (x : Option Spot) (n : Nat) : Pending → Bool
  | .store c' sp a owner d => c' == c || (match x with | some x => x.meets n (sp, a, owner) d.length | none => false)
  | .fence m => bitAt m c.val

/-- Perform what must perform before a store or atomic of class c to the n bytes at a spot. -/
def drainFor (s : State) (c : Cls) (x : Option Spot) (n : Nat) : State := drainWhere s (Pending.before c x n)

/-- The k-th pending store may perform now: nothing before it in the list must perform first. -/
def mayPerform (l : List Pending) (k : Nat) : Bool :=
  match l[k]? with
  | some (.store c sp a owner d) =>
    let pre := l.take k
    !pre.any (fun e => match e with | .store .. => Pending.before c (some (sp, a, owner)) d.length e | .fence _ => false) &&
      !(List.range k).any fun i =>
        match l[i]? with
        | some (.fence m) =>
          bitAt m c.val && (l.take i).any fun e => match e with | .store c' _ _ _ _ => bitAt m c'.val | .fence _ => false
        | _ => false
  | _ => false

/-- Drop the fences that nothing stands before. -/
def trimFences : List Pending → List Pending
  | .fence _ :: r => trimFences r
  | l => l

/-- The entry must perform before a load of class c of the bytes at the spots, each with its number (R307): it is a store of that class, or to
one of those bytes. -/
def Pending.beforeLoad (c : Cls) (l : List (Spot × Nat)) : Pending → Bool
  | .store c' sp a owner d => c' == c || l.any fun x => x.1.meets x.2 (sp, a, owner) d.length
  | .fence _ => false

/-- The spots of the n bytes of a read, line by line. -/
def readSpots (s : State) (p : Party) (l : Loc) (n : Nat) : List (Spot × Nat) :=
  (lineParts l.low n).filterMap fun q =>
    match locate s p .read (l.add q.1) q.2 with
    | .ok x => (spotOf s x).map fun y => (y, q.2)
    | .error _ => none

/-- Perform what must perform before a load of class c of the n bytes at an address (R307). -/
def drainLoad (s : State) (c : Cls) (l : Loc) (n : Nat) : State :=
  if s.job.stores.isEmpty then s else drainWhere s (Pending.beforeLoad c (readSpots s (ctlParty s c) l n))

/-- The n bytes of a control-stream load at ea; a poisoned line raises POISON with TVAL ea (R119). -/
def ctlLoad (s : State) (c : Cls) (ea : Word) (n : Nat) : Except Stop (List Byte) :=
  match readChunks s (ctlParty s c) .read (.va ea) n with
  | .error e => .error e
  | .ok cs => if cs.any Chunk.bad then .error (.trap .poison ea) else .ok (cs.flatMap Chunk.data)

/-- Do k, in the state that the load leaves, with the n bytes that a control-stream load of class c reads at ea: alignment, what must perform
before it, poison with TVAL ea whatever the page's policy (R117, R119, R307). -/
def withLoad (s : State) (c : Cls) (ea : Word) (n : Nat) (k : State → List Byte → State) : State :=
  if (ea.toNat % 2 ^ 57) % n ≠ 0 then ctlStop s (.trap .misaligned ea)
  else
    let t := drainLoad s c (.va ea) n
    withAccess t (ctlLoad t c ea n) (k t)

/-- A record read of a control-stream instruction: never substituted, TVAL the line (13_memory.md R400). -/
def ctlRecord (s : State) (ea : Word) (n : Nat) : Except Stop (List Byte) := readExact s (ctlParty s 0) .read (.va ea) n

/-- Do k, in the state that the read leaves, with the n bytes of the record at ea, which is read with class 0. -/
def withRecord (s : State) (ea : Word) (n : Nat) (k : State → List Byte → State) : State :=
  let t := drainLoad s 0 (.va ea) n
  withAccess t (ctlRecord t ea n) (k t)

/-- A store may perform later than it executes: inside this device, and not in a region whose writes are logged (15_traps.md R333). -/
def mayWait (s : State) (x : Place × Option (Nat × Nat)) : Bool :=
  match x with
  | (.here .., some (j, _)) => match findJob s j with | some y => !y.logging | none => false
  | (.here .., none) => true
  | (.remote .., _) => false

/-- Do k after a store of a control stream: it is checked now, and performed now behind what must precede it, or with late at a later
moment (R305). -/
def withStore (s : State) (late : Bool) (c : Cls) (ea : Word) (d : List Byte) (k : State → State) : State :=
  if (ea.toNat % 2 ^ 57) % d.length ≠ 0 then ctlStop s (.trap .misaligned ea)
  else
    withAccess s (locate s (ctlParty s c) .write (.va ea) d.length) fun x =>
      match (if late && mayWait s x then spotOf s x else none) with
      | some (sp, a, owner) => k { s with job := { s.job with stores := s.job.stores ++ [.store c sp a owner d] } }
      | none =>
        let t := drainFor s c (spotOf s x) d.length
        withAccess t (writeBytes t (ctlParty t c) (.va ea) d) k

/-! ### Engine queues (07_queues.md R163) -/

/-- The entries of an engine queue. -/
def queueSlots : Nat := 64

/-- Engine e's queue has a free entry. -/
def Job.queueRoom (j : Job) (e : Engine) : Bool := (j.eng e).queue.length < queueSlots

/-- Every engine queue has a free entry. -/
def Job.allRoom (j : Job) : Bool := engines.all fun e => j.queueRoom e

/-- Append an entry to an engine's queue. -/
def Job.enqueue (j : Job) (e : Engine) (q : QEntry) : Job := j.updEng e fun x => { x with queue := x.queue ++ [q] }

/-- The INV entries that wait for a free entry take those that there are. -/
def EngStream.refill (x : EngStream) : EngStream :=
  { x with queue := x.queue ++ x.late.take (queueSlots - x.queue.length), late := x.late.drop (queueSlots - x.queue.length) }

/-- An INV entry appended, behind those that wait for a free entry. -/
def EngStream.appendInv (x : EngStream) (q : QEntry) : EngStream := EngStream.refill { x with late := x.late ++ [q] }

/-- Append an INV entry to every engine queue (13_memory.md R300). -/
def Job.enqueueInv (j : Job) (k : Nat) : Job := engines.foldl (fun i e => i.updEng e fun x => x.appendInv (.inv j.itag k)) j

/-- Append an entry to every engine queue, at one moment. -/
def Job.enqueueAll (j : Job) (q : QEntry) : Job := engines.foldl (fun j e => j.enqueue e q) j

/-! ### Barriers (11_sync.md R247 to R250) -/

/-- A barrier at its reset value. -/
def Barrier.zero : Barrier :=
  { active := false, phase := false, init := 0, arrive := 0, bytes := 0, touched := false, owed := 0, orphan := false }

/-- A barrier. -/
def barOf (s : State) (b : BarId) : Barrier := lookupD Barrier.zero s.barriers b

/-- Replace a barrier. -/
def putBar (s : State) (b : BarId) (x : Barrier) : State := { s with barriers := assign s.barriers b x }

/-- The kinds of events that a clock takes in turn. -/
def BarEvent.isArrive : BarEvent → Bool
  | .arrive _ => true
  | _ => false
def BarEvent.isBytes : BarEvent → Bool
  | .bytes _ => true
  | _ => false
def BarEvent.isExpect : BarEvent → Bool
  | .expect _ => true
  | _ => false

/-- The counts after an event. -/
def BarCounts.take (c : BarCounts) : BarEvent → BarCounts
  | .arrive n => { c with arrive := c.arrive - BitVec.ofNat 16 (min n c.arrive.toNat), touched := true }
  | .bytes n => { c with bytes := c.bytes - BitVec.ofNat 32 n, touched := true }
  | .expect n => { c with bytes := c.bytes + BitVec.ofInt 32 n, touched := true }

/-- A phase completes if it has been touched and nothing is awaited (R249). -/
def BarCounts.complete (init : BitVec 16) (c : BarCounts) : BarCounts :=
  if c.touched && c.arrive == 0 && c.bytes == 0 then { phase := !c.phase, arrive := init, bytes := 0, touched := false } else c

/-- The counts after a clock with its events: arrivals, decrements, the completion, expectations (R249). -/
def barClock (init : BitVec 16) (c : BarCounts) (es : List BarEvent) : BarCounts :=
  let c := (es.filter BarEvent.isArrive).foldl BarCounts.take c
  let c := (es.filter BarEvent.isBytes).foldl BarCounts.take c
  (es.filter BarEvent.isExpect).foldl BarCounts.take (c.complete init)

/-- The counts that a barrier holds, and others put into it. -/
def Barrier.counts (x : Barrier) : BarCounts := { phase := x.phase, arrive := x.arrive, bytes := x.bytes, touched := x.touched }
def Barrier.withCounts (x : Barrier) (c : BarCounts) : Barrier :=
  { x with phase := c.phase, arrive := c.arrive, bytes := c.bytes, touched := c.touched }

/-- The counts as the clock began, which its instructions read, and the events of the clock so far. -/
def Barrier.began (x : Barrier) : BarCounts × List BarEvent := x.was.getD (x.counts, [])

/-- The barrier with the events of its clock: its counts are those after the clock if no other event comes in it (R249; log entry 12). -/
def Barrier.inClock (x : Barrier) (es : List BarEvent) : Barrier :=
  { x.withCounts (barClock x.init x.began.1 es) with was := some (x.began.1, es) }

/-- One event more in its clock. -/
def Barrier.clock (x : Barrier) (e : BarEvent) : Barrier := x.inClock (x.began.2 ++ [e])

/-- The arrivals that the phase still awaits behind those of its clock. -/
def Barrier.awaits (x : Barrier) : Nat := ((x.began.2.filter BarEvent.isArrive).foldl BarCounts.take x.began.1).arrive.toNat

/-- The wait of a stream at a barrier whose phase completes is over (R255). -/
def EngStream.passBar (b : BarId) (x : EngStream) : EngStream :=
  match x.wait with
  | .barrier c _ => if c = b then { x with wait := .passed } else x
  | _ => x
def Job.passBar (b : BarId) (j : Job) : Job :=
  { j with
    wait := match j.wait with | .barrier c p => if c = b then .passed else .barrier c p | w => w
    ld := j.ld.passBar b, mx := j.mx.passBar b, vx := j.vx.passBar b, st' := j.st'.passBar b }

/-- The clock of a barrier is over: where its phase has completed in it, every stream that waits for it may go on (R255). -/
def closeBar (s : State) (b : BarId) : State :=
  let x := barOf s b
  let t := putBar s b { x with was := none }
  if x.phase = x.began.1.phase then t else mapJobs t (Job.passBar b)

/-- Every barrier that a job names. -/
def Job.barriers (j : Job) : List BarId := j.cbar ++ j.dbar ++ j.gbar

/-- The job whose events are logged and whose saved state holds a barrier. -/
def suspendedOwner (s : State) (b : BarId) : Option Job :=
  (allJobs s).find? fun j => j.logging && j.barriers.contains b

/-- One clock of a barrier without an event: a phase that an expectation alone brought to zero completes (R249). Nothing happens
to the barriers of a suspended job. -/
def idleBar (s : State) (b : BarId) : State :=
  let x := barOf s b
  if x.active && x.was.isNone && (suspendedOwner s b).isNone then putBar s b (x.inClock []) else s

/-- n clocks of a barrier end, the first with the events that came in it. -/
def passBar (n : Nat) (s : State) (b : BarId) : State :=
  let s := closeBar (idleBar s b) b
  if 2 ≤ n then closeBar (idleBar s b) b else s

/-- An arrival or byte decrement reaches a barrier: logged while its jobs are suspended (15_traps.md R334), counted down and
discarded after they retired (R261), discarded and logged at an idle barrier, else applied among the events of its clock. none: the event
log is full (15_traps.md R333). -/
def barEvent (s : State) (b : BarId) (e : BarEvent) : Option State :=
  match suspendedOwner s b with
  | some j =>
    if !j.logRoom 1 then none
    else
      some (updBasket s j.id fun k =>
        { k with log := k.log ++ [match e with | .arrive c => .arrive b c | .bytes n => .bytes b n | .expect _ => .bytes b 0] })
  | none =>
    let x := barOf s b
    if x.orphan then some s
    else if !x.active then some (logErr s (.idleEvent b))
    else
      let s := match e with
        | .arrive c => if x.awaits < c then logErr s (.overArrival b) else s
        | _ => s
      some (putBar s b (x.clock e))

/-- A barrier counts an event that has been resolved against it (R261). -/
def barOwe (s : State) (b : Option BarId) : State :=
  match b with
  | none => s
  | some b => let x := barOf s b; putBar s b { x with owed := x.owed + 1 }

/-- A resolved event has arrived: the barrier counts it down, and an orphan that owes no more is freed (R261). -/
def barPaid (s : State) (b : BarId) : State :=
  let x := barOf s b
  let x := { x with owed := x.owed - 1 }
  if x.orphan && x.owed == 0 then { s with barriers := s.barriers.filter fun e => e.1 != b } else putBar s b x

/-- The barrier that a sync operand names in a job's namespace; none beyond the allotment (R247). -/
def Job.barAt (j : Job) (o : BarOp) : Option BarId :=
  match o.kind with
  | .core => j.cbar[o.idx.val]?
  | .die => j.dbar[o.idx.val]?
  | .device => j.gbar[o.idx.val]?

/-- The barrier that a sync operand names in a context's barrier table (R247). -/
def Context.barAt (c : Context) (o : BarOp) : Option BarId :=
  match o.kind with
  | .core => none
  | .die => c.args.dbars[o.idx.val]?.map fun d => .die d.1 d.2
  | .device => c.args.gbars[o.idx.val]?.map .device

/-- The operand as TVAL names it. -/
def barWord (o : BarOp) : Word := o.code.setWidth 64

/-- Do k with the barrier that an operand of the focused job names, or raise BARRIER_MISUSE. -/
def withBar (s : State) (o : BarOp) (k : BarId → State) : State :=
  match s.job.barAt o with
  | none => raise s .barrierMisuse (barWord o)
  | some b => k b

/-! ### Tubs (11_sync.md R256 to R260) -/

/-- A tub at its reset value. -/
def Tub.zero : Tub :=
  { set := false, armed := false, halted := false, count := 0, total := 1, rearm := false, scope := .job, act := .none, region := [],
    asid := 0, fires := [], waitq := false, fired := 0, record := 0 }

/-- A tub. -/
def tubOf (s : State) : TubId → Tub
  | .spad j k => match findJob s j with | some x => lookupD Tub.zero x.tubs k | none => Tub.zero
  | .mem d k => match s.tubs.find? fun t => t.1 == d && t.2.1 == k with | some t => t.2.2 | none => Tub.zero

/-- Replace a tub. -/
def putTub (s : State) (t : TubId) (x : Tub) : State :=
  match t with
  | .spad j k => updJob s j fun y => { y with tubs := assign y.tubs k x }
  | .mem d k => { s with tubs := s.tubs.filter (fun t => !(t.1 == d && t.2.1 == k)) ++ [(d, k, x)] }

/-- The tub that an operand names for the focused job: within its STUB allotment, or in its context's table (R256). -/
def tubAt (s : State) (o : TubOp) : Option TubId :=
  if o.mem then
    (contextOf s s.job.asid).bind fun c => c.args.tubs[o.idx.val]?.map fun t => .mem t.1 t.2
  else if o.idx.val < s.job.stub then some (.spad s.job.id o.idx.val) else none

/-- The operand as TVAL names it. -/
def tubWord (o : TubOp) : Word := o.code.setWidth 64

/-- Do k with the tub that an operand of the focused job names, or raise TUB_MISUSE. -/
def withTub (s : State) (o : TubOp) (k : TubId → State) : State :=
  match tubAt s o with
  | none => raise s .tubMisuse (tubWord o)
  | some t => k t

end Sys2Proof.Machine
end

