-- ==== Sys2Proof/Machine/Integer.lean ====
section
/-! DEFINITION. Integer instructions, branches and jumps of the control cores (05_control_core.md R112 to R116). -/

namespace Sys2Proof.Machine

/-! ### Shared forms -/

/-- x[d] := f(x[a], x[b]) (R112). -/
def alu (f : Word → Word → Word) (d a b : Reg) (s : State) : Result := .next (retireX s d (f (getX s a) (getX s b)))

/-- x[d] := f(x[a], i) (R113). -/
def aluImm (f : Word → Word → Word) (d a : Reg) (i : Word) (s : State) : Result := .next (retireX s d (f (getX s a) i))

/-- Go to PC + 4 × o if the condition holds of x[a] and x[b] (R45, R115). -/
def branch (c : Word → Word → Bool) (a b : Reg) (o : BitVec 15) (s : State) : Result :=
  .next (if c (getX s a) (getX s b) then setPc s (s.job.pc + 4 * sx o) else advance s)

/-! ### The functions of R112 -/

/-- The high 64 bits of the signed product. -/
def mulHigh (a b : Word) : Word := BitVec.ofInt 64 (a.toInt * b.toInt / 2 ^ 64)

/-- The high 64 bits of the unsigned product. -/
def mulHighU (a b : Word) : Word := BitVec.ofNat 64 (a.toNat * b.toNat / 2 ^ 64)

/-- Signed quotient, rounded toward zero; all ones for a zero divisor. -/
def divS (a b : Word) : Word := if b = 0 then -1 else BitVec.ofInt 64 (a.toInt.tdiv b.toInt)

/-- Unsigned quotient; all ones for a zero divisor. -/
def divU (a b : Word) : Word := if b = 0 then -1 else a / b

/-- Signed remainder; the dividend for a zero divisor. -/
def remS (a b : Word) : Word := if b = 0 then a else BitVec.ofInt 64 (a.toInt - b.toInt * a.toInt.tdiv b.toInt)

/-- Unsigned remainder; the dividend for a zero divisor. -/
def remU (a b : Word) : Word := if b = 0 then a else a % b

/-- Shifts by the low six bits. -/
def shl (a b : Word) : Word := a <<< (b.toNat % 64)
def shr (a b : Word) : Word := a >>> (b.toNat % 64)
def sra (a b : Word) : Word := a.sshiftRight (b.toNat % 64)

/-- Signed and unsigned extremes and comparisons. -/
def minS (a b : Word) : Word := if a.slt b then a else b
def maxS (a b : Word) : Word := if a.slt b then b else a
def minU (a b : Word) : Word := if a < b then a else b
def maxU (a b : Word) : Word := if a < b then b else a
def setLt (a b : Word) : Word := if a.slt b then 1 else 0
def setLtU (a b : Word) : Word := if a < b then 1 else 0

/-- Leading zero bits. -/
def leadingZeros (a : Word) : Word := if a = 0 then 64 else BitVec.ofNat 64 (63 - a.toNat.log2)

/-- One bits. -/
def oneBits (a : Word) : Word := BitVec.ofNat 64 ((List.range 64).countP fun k => a.getLsbD k)

/-! ### ALU group -/

def execAdd (d a b : Reg) (s : State) : Result := alu (· + ·) d a b s
def execSub (d a b : Reg) (s : State) : Result := alu (· - ·) d a b s
def execMul (d a b : Reg) (s : State) : Result := alu (· * ·) d a b s
def execMulh (d a b : Reg) (s : State) : Result := alu mulHigh d a b s
def execMulhu (d a b : Reg) (s : State) : Result := alu mulHighU d a b s
def execDiv (d a b : Reg) (s : State) : Result := alu divS d a b s
def execDivu (d a b : Reg) (s : State) : Result := alu divU d a b s
def execRem (d a b : Reg) (s : State) : Result := alu remS d a b s
def execRemu (d a b : Reg) (s : State) : Result := alu remU d a b s
def execAnd (d a b : Reg) (s : State) : Result := alu (· &&& ·) d a b s
def execOr (d a b : Reg) (s : State) : Result := alu (· ||| ·) d a b s
def execXor (d a b : Reg) (s : State) : Result := alu (· ^^^ ·) d a b s
def execShl (d a b : Reg) (s : State) : Result := alu shl d a b s
def execShr (d a b : Reg) (s : State) : Result := alu shr d a b s
def execSra (d a b : Reg) (s : State) : Result := alu sra d a b s
def execMin (d a b : Reg) (s : State) : Result := alu minS d a b s
def execMax (d a b : Reg) (s : State) : Result := alu maxS d a b s
def execMinu (d a b : Reg) (s : State) : Result := alu minU d a b s
def execMaxu (d a b : Reg) (s : State) : Result := alu maxU d a b s
def execSlt (d a b : Reg) (s : State) : Result := alu setLt d a b s
def execSltu (d a b : Reg) (s : State) : Result := alu setLtU d a b s
def execClz (d a : Reg) (s : State) : Result := .next (retireX s d (leadingZeros (getX s a)))
def execPopc (d a : Reg) (s : State) : Result := .next (retireX s d (oneBits (getX s a)))

/-- x[d] is read before the write. -/
def execSel (d a b : Reg) (s : State) : Result :=
  .next (retireX s d (if getX s d ≠ 0 then getX s a else getX s b))

/-! ### Immediate forms (R113, R114) -/

def execAddi (d a : Reg) (i : BitVec 15) (s : State) : Result := aluImm (· + ·) d a (sx i) s
def execAndi (d a : Reg) (i : BitVec 15) (s : State) : Result := aluImm (· &&& ·) d a (sx i) s
def execOri (d a : Reg) (i : BitVec 15) (s : State) : Result := aluImm (· ||| ·) d a (sx i) s
def execXori (d a : Reg) (i : BitVec 15) (s : State) : Result := aluImm (· ^^^ ·) d a (sx i) s
def execSlti (d a : Reg) (i : BitVec 15) (s : State) : Result := aluImm setLt d a (sx i) s
def execShli (d a : Reg) (n : Fin 64) (s : State) : Result := aluImm shl d a (BitVec.ofNat 64 n.val) s
def execShri (d a : Reg) (n : Fin 64) (s : State) : Result := aluImm shr d a (BitVec.ofNat 64 n.val) s
def execSrai (d a : Reg) (n : Fin 64) (s : State) : Result := aluImm sra d a (BitVec.ofNat 64 n.val) s
def execLih (d : Reg) (i : BitVec 20) (s : State) : Result := .next (retireX s d (sx i <<< 12))

/-- x[d] is read before the write. -/
def execLsh (d : Reg) (u : BitVec 20) (s : State) : Result :=
  .next (retireX s d ((getX s d <<< 20) ||| u.setWidth 64))

/-! ### Branches and jumps (R115, R116) -/

def execBeq (a b : Reg) (o : BitVec 15) (s : State) : Result := branch (fun x y => x == y) a b o s
def execBne (a b : Reg) (o : BitVec 15) (s : State) : Result := branch (fun x y => x != y) a b o s
def execBlt (a b : Reg) (o : BitVec 15) (s : State) : Result := branch (fun x y => x.slt y) a b o s
def execBge (a b : Reg) (o : BitVec 15) (s : State) : Result := branch (fun x y => !x.slt y) a b o s
def execBltu (a b : Reg) (o : BitVec 15) (s : State) : Result := branch (fun x y => x < y) a b o s
def execBgeu (a b : Reg) (o : BitVec 15) (s : State) : Result := branch (fun x y => !(x < y)) a b o s

def execJal (d : Reg) (o : BitVec 20) (s : State) : Result :=
  .next (setPc (setX s d (s.job.pc + 4)) (s.job.pc + 4 * sx o))

/-- A target that is not a multiple of 4 raises MISALIGNED and leaves x[d] unchanged. -/
def execJalr (d a : Reg) (i : BitVec 15) (s : State) : Result :=
  let t := getX s a + sx i
  if bits t 0 2 != 0 then .next (raise s .misaligned t)
  else .next (setPc (setX s d (s.job.pc + 4)) t)

end Sys2Proof.Machine
end

