-- ==== Sys2Proof/Machine/Access.lean ====
section
/-! DEFINITION. Loads, stores, atomics, fences and WAITA of the control cores (05_control_core.md R117 to R125, 14_ordering.md
R308, R309). -/

namespace Sys2Proof.Machine

/-! ### Loads and stores -/

/-- The address of LD, LDU and ST (R117). -/
def offsetAddr (s : State) (a : Reg) (z : Size) (o : BitVec 9) : Word := getX s a + sx o * BitVec.ofNat 64 z.bytes

/-- Bytes as a register value, extended with their sign or with zeros. -/
def extend (signed : Bool) (b : List Byte) : Word :=
  if signed then BitVec.ofInt 64 (sint (8 * b.length) (leNat b)) else BitVec.ofNat 64 (leNat b)

/-- A load into x[d] (R117, R119, R120). -/
def loadX (signed : Bool) (d : Reg) (c : Cls) (n : Nat) (ea : Word) (s : State) : Result :=
  .next (withLoad s c ea n fun t b => doneX t d (extend signed b))

def execLd (d a : Reg) (c : Cls) (z : Size) (o : BitVec 9) (s : State) : Result :=
  loadX true d c z.bytes (offsetAddr s a z o) s

def execLdu (d a : Reg) (c : Cls) (z : Size) (o : BitVec 9) (s : State) : Result :=
  loadX false d c z.bytes (offsetAddr s a z o) s

/-- Register field d is the stored register. The store stays pending where the turn delays stores (log entry 6). -/
def execSt (d a : Reg) (c : Cls) (z : Size) (o : BitVec 9) (s : State) : Result :=
  .next (withStore s s.delay c (offsetAddr s a z o) (leBytes z.bytes (getX s d).toNat) fun t =>
    advance (takeReplies t (.ctl t.job.id)))

/-- An acquire: a load performs when it executes, so later accesses follow it (R309, log entry 6). -/
def execLda (d a : Reg) (z : Size) (c : Cls) (_p : Scope) (s : State) : Result := loadX true d c z.bytes (getX s a) s

/-- A release: every earlier access of its class performs before it, and what a fence or the same byte orders (R309). -/
def execStl (d a : Reg) (z : Size) (c : Cls) (_p : Scope) (s : State) : Result :=
  .next (withStore s false c (getX s a) (leBytes z.bytes (getX s d).toNat) fun t =>
    advance (takeReplies t (.ctl t.job.id)))

/-! ### Atomics (R121 to R124) -/

/-- The indivisible read-modify-write of the doubleword at ea, after what must precede it in its class (R307). f gives the new
value, or none where nothing is written; q is the fabric's form of it. x[d] receives the old value. -/
def atomicX (d : Reg) (c : Cls) (ea : Word) (q : ReqOp) (f : Word → Option Word) (s : State) : Result :=
  if bits ea 0 3 != 0 then .next (raise s .misaligned ea)
  else
    .next (withAccess s (locate s (ctlParty s c) .atomic (.va ea) 8) fun x =>
      let t := drainFor s c (spotOf s x) 8
      withAccess t (readModify t (ctlParty t c) (.va ea) 8 q ea fun b => (f (ofBytes 64 b)).map toBytes) fun r =>
        doneX r.2 d (ofBytes 64 r.1))

/-- AMO op of R121: every operation writes. -/
def amo (op : Fin 8) (f : Word → Word → Word) (d a b : Reg) (c : Cls) (s : State) : Result :=
  atomicX d c (getX s a) (.amo op (getX s b)) (fun old => some (f old (getX s b))) s

/-! AMO: relaxed. An acquire needs nothing more here, and a release no more than the order of its class (log entry 6). -/

def execAmoSwap (d a b : Reg) (c : Cls) (_p : Scope) (s : State) : Result := amo 0 (fun _ v => v) d a b c s
def execAmoAdd (d a b : Reg) (c : Cls) (_p : Scope) (s : State) : Result := amo 1 (· + ·) d a b c s
def execAmoAnd (d a b : Reg) (c : Cls) (_p : Scope) (s : State) : Result := amo 2 (· &&& ·) d a b c s
def execAmoOr (d a b : Reg) (c : Cls) (_p : Scope) (s : State) : Result := amo 3 (· ||| ·) d a b c s
def execAmoXor (d a b : Reg) (c : Cls) (_p : Scope) (s : State) : Result := amo 4 (· ^^^ ·) d a b c s
def execAmoMin (d a b : Reg) (c : Cls) (_p : Scope) (s : State) : Result := amo 5 minS d a b c s
def execAmoMax (d a b : Reg) (c : Cls) (_p : Scope) (s : State) : Result := amo 6 maxS d a b c s
def execAmoMaxu (d a b : Reg) (c : Cls) (_p : Scope) (s : State) : Result := amo 7 maxU d a b c s

/-! AMOA: acquire. An acquire needs nothing more here, and a release no more than the order of its class (log entry 6). -/

def execAmoaSwap (d a b : Reg) (c : Cls) (_p : Scope) (s : State) : Result := amo 0 (fun _ v => v) d a b c s
def execAmoaAdd (d a b : Reg) (c : Cls) (_p : Scope) (s : State) : Result := amo 1 (· + ·) d a b c s
def execAmoaAnd (d a b : Reg) (c : Cls) (_p : Scope) (s : State) : Result := amo 2 (· &&& ·) d a b c s
def execAmoaOr (d a b : Reg) (c : Cls) (_p : Scope) (s : State) : Result := amo 3 (· ||| ·) d a b c s
def execAmoaXor (d a b : Reg) (c : Cls) (_p : Scope) (s : State) : Result := amo 4 (· ^^^ ·) d a b c s
def execAmoaMin (d a b : Reg) (c : Cls) (_p : Scope) (s : State) : Result := amo 5 minS d a b c s
def execAmoaMax (d a b : Reg) (c : Cls) (_p : Scope) (s : State) : Result := amo 6 maxS d a b c s
def execAmoaMaxu (d a b : Reg) (c : Cls) (_p : Scope) (s : State) : Result := amo 7 maxU d a b c s

/-! AMOL: release. An acquire needs nothing more here, and a release no more than the order of its class (log entry 6). -/

def execAmolSwap (d a b : Reg) (c : Cls) (_p : Scope) (s : State) : Result := amo 0 (fun _ v => v) d a b c s
def execAmolAdd (d a b : Reg) (c : Cls) (_p : Scope) (s : State) : Result := amo 1 (· + ·) d a b c s
def execAmolAnd (d a b : Reg) (c : Cls) (_p : Scope) (s : State) : Result := amo 2 (· &&& ·) d a b c s
def execAmolOr (d a b : Reg) (c : Cls) (_p : Scope) (s : State) : Result := amo 3 (· ||| ·) d a b c s
def execAmolXor (d a b : Reg) (c : Cls) (_p : Scope) (s : State) : Result := amo 4 (· ^^^ ·) d a b c s
def execAmolMin (d a b : Reg) (c : Cls) (_p : Scope) (s : State) : Result := amo 5 minS d a b c s
def execAmolMax (d a b : Reg) (c : Cls) (_p : Scope) (s : State) : Result := amo 6 maxS d a b c s
def execAmolMaxu (d a b : Reg) (c : Cls) (_p : Scope) (s : State) : Result := amo 7 maxU d a b c s

/-! AMOAL: acquire and release. An acquire needs nothing more here, and a release no more than the order of its class (log entry 6). -/

def execAmoalSwap (d a b : Reg) (c : Cls) (_p : Scope) (s : State) : Result := amo 0 (fun _ v => v) d a b c s
def execAmoalAdd (d a b : Reg) (c : Cls) (_p : Scope) (s : State) : Result := amo 1 (· + ·) d a b c s
def execAmoalAnd (d a b : Reg) (c : Cls) (_p : Scope) (s : State) : Result := amo 2 (· &&& ·) d a b c s
def execAmoalOr (d a b : Reg) (c : Cls) (_p : Scope) (s : State) : Result := amo 3 (· ||| ·) d a b c s
def execAmoalXor (d a b : Reg) (c : Cls) (_p : Scope) (s : State) : Result := amo 4 (· ^^^ ·) d a b c s
def execAmoalMin (d a b : Reg) (c : Cls) (_p : Scope) (s : State) : Result := amo 5 minS d a b c s
def execAmoalMax (d a b : Reg) (c : Cls) (_p : Scope) (s : State) : Result := amo 6 maxS d a b c s
def execAmoalMaxu (d a b : Reg) (c : Cls) (_p : Scope) (s : State) : Result := amo 7 maxU d a b c s

/-- CAS (R122): x[d] is the comparand; a failed one writes nothing. -/
def execCas (d a b : Reg) (o : CasOrd) (c : Cls) (_p : Scope) (s : State) : Result :=
  atomicX d c (getX s a) (.cas (getX s b) (getX s d) o.code) (fun old => if old = getX s d then some (getX s b) else none) s

/-! ### Fences (14_ordering.md R308) -/

/-- The mask covers a pending store. -/
def maskCovers (m : BitVec 16) : Pending → Bool
  | .store c _ _ _ _ => bitAt m c.val
  | .fence _ => false

/-- Loads perform when they execute, so an acquire fence has nothing to wait for (log entry 6). -/
def execFenceAcq (_m : BitVec 16) (_p : Scope) (s : State) : Result := .next (advance s)

/-- Pending stores of the mask's classes perform before later ones. -/
def execFenceRel (m : BitVec 16) (_p : Scope) (s : State) : Result :=
  .next (advance { s with job := { s.job with
    stores := if s.job.stores.any (maskCovers m) then s.job.stores ++ [.fence m] else s.job.stores } })

/-- Pending stores of the mask's classes perform before later loads too, so they perform now. -/
def execFenceFull (m : BitVec 16) (_p : Scope) (s : State) : Result := .next (advance (drainWhere s (maskCovers m)))

/-! ### WAITA (R125) -/

/-- Read the word and end the wait if the test is met or the limit has passed; else sleep. A word whose remote reply is not there
yet keeps the wait with its start clock. -/
def waitaPoll (s : State) (ea : Word) (ne : Bool) (d b : Reg) (c : Cls) (t0 : Nat) (limit : Word) : State :=
  let s := drainLoad s c (.va ea) 8
  let asleep := CtlWait.waita ea ne d b c t0 limit
  match ctlLoad s c ea 8 with
  | .ok x =>
    let v : Word := ofBytes 64 x
    if (v == getX s b) != ne || (limit != -1 && limit.toNat ≤ s.clock - t0) then doneX s d v
    else hold (takeReplies s (.ctl s.job.id)) asleep
  | .error e =>
    match verdict s (ctlParty s 0) e with
    | .again s => hold s asleep
    | .dvorol .. =>
      let t := ctlStop s e
      { t with job := { t.job with waitaFrom := some t0 } }
    | _ => ctlStop s e

/-- On entry x[d] is the timeout in clocks. A WAITA whose load Dvorol restarts has been entered before (13_memory.md R295). -/
def waita (ne : Bool) (d a b : Reg) (c : Cls) (s : State) : Result :=
  let ea := getX s a
  let t := { s with job := { s.job with waitaFrom := none } }
  .next (if bits ea 0 3 != 0 then raise s .misaligned ea else waitaPoll t ea ne d b c (s.job.waitaFrom.getD s.clock) (getX s d))

def execWaitaEq (d a b : Reg) (c : Cls) (s : State) : Result := waita false d a b c s
def execWaitaNe (d a b : Reg) (c : Cls) (s : State) : Result := waita true d a b c s

/-- A wake re-reads the word: after a write to its line, or with no write. -/
def execWaitaWake (job : Nat) (s : State) : Result :=
  let t := focus job s
  match t.job.wait with
  | .waita ea ne d b c t0 limit => .next (if t.job.id = job && job != 0 && t.job.st == .running then waitaPoll t ea ne d b c t0 limit else s)
  | _ => .next s

/-- The timeout has expired: the word is read a last time. -/
def execWaitaTimeout (job : Nat) (s : State) : Result :=
  let t := focus job s
  match t.job.wait with
  | .waita ea ne d b c t0 limit =>
    .next (if t.job.id = job && job != 0 && t.job.st == .running && limit != -1 && limit.toNat ≤ t.clock - t0 then
      waitaPoll t ea ne d b c t0 limit else s)
  | _ => .next s

end Sys2Proof.Machine
end

