-- ==== Sys2Proof/Machine/Csr.lean ====
section
/-! DEFINITION. CSRs, CYCLE, NOP and mailboxes of the control cores (05_control_core.md R107 to R109, R126 to R132), and the words
that raise when they are decoded (03_encodings.md R46, R48, R59). -/

namespace Sys2Proof.Machine

/-! ### CSRs (R108) -/

/-- LIDX of level l (04_jobs.md R81). -/
def Job.lidx (j : Job) (l : Nat) : Word :=
  match j.levels[l]? with
  | some v => v.idx.setWidth 64
  | none => 0

/-- LCNT of level l: 1 beyond the last level (R81). -/
def Job.lcnt (j : Job) (l : Nat) : Word :=
  match j.levels[l]? with
  | some v => v.count.setWidth 64
  | none => 1

/-- LBAR of level l (R81). -/
def Job.lbar (j : Job) (l : Nat) : Word :=
  match (j.levels[l]?).bind Level.bar with
  | some o => (1#1 ++ 0#6 ++ o.code).setWidth 64
  | none => 0

/-- COREID (R108). -/
def Job.coreId (j : Job) : Word :=
  (BitVec.ofNat 2 (dieOf j.core) ++ flag j.cc ++ BitVec.ofNat 9 j.core).setWidth 64

/-- ALTWIN (R81, 09_matrix.md R209). -/
def altWin (s : State) : Word :=
  if s.job.altArray then ((BitVec.ofNat 1 (s.clock / 256)) ++ 1#1).setWidth 64 else 0

/-- The mailbox partner of the focused job (R127). -/
def partnerOf (s : State) : Option Job := findJob s s.job.partner

/-- MBSTAT (R108). -/
def mbStat (s : State) : Word :=
  let out := match partnerOf s with | some p => p.inbox.length | none => 0
  (flag (partnerOf s).isSome ++ 0#3 ++ BitVec.ofNat 5 out ++ 0#3 ++ BitVec.ofNat 5 s.job.inbox.length).setWidth 64

/-- TSTREAM (15_traps.md R321). -/
def Job.tstreamWord (j : Job) : Word :=
  flag j.hnd ++ 0#31 ++ flag j.tpend ++ 0#7 ++ j.torig ++ 0#7 ++ flag j.tsib ++ j.tstream

/-- The value of a CSR; none for a number that R108 does not assign. -/
def readCsr (s : State) (n : Nat) : Option Word :=
  let j := s.job
  if n = 0x001 then some (j.flags.setWidth 64)
  else if n = 0x002 then some (j.fmask.setWidth 64)
  else if n = 0x010 then some j.dstall
  else if n = 0x011 then some j.qstall
  else if n = 0x020 then some (j.itag.setWidth 64)
  else if 0x030 ≤ n ∧ n < 0x038 then some (j.lidx (n - 0x030))
  else if 0x038 ≤ n ∧ n < 0x040 then some (j.lcnt (n - 0x038))
  else if 0x040 ≤ n ∧ n < 0x048 then some (j.lbar (n - 0x040))
  else if n = 0x048 then some (altWin s)
  else if n = 0x050 then some j.coreId
  else if n = 0x051 then
    some (((BitVec.ofFin s.rows : BitVec 4) ++ (BitVec.ofFin s.cols : BitVec 4) ++ ownIndex s).setWidth 64)
  else if n = 0x052 then some (j.asid.setWidth 64)
  else if n = 0x053 then some (mbStat s)
  else if n = 0x060 then some j.tvec
  else if n = 0x061 then some (j.tcause.setWidth 64)
  else if n = 0x062 then some j.tval
  else if n = 0x063 then some j.tpc
  else if n = 0x064 then some j.tstreamWord
  else if n = 0x065 then some j.tprog
  else if n = 0x070 then some (j.spbase.setWidth 64)
  else if n = 0x071 then some (j.splim.setWidth 64)
  else if n = 0x072 then some (j.spbump.setWidth 64)
  else if n = 0x073 then some (j.sphead.setWidth 64)
  else none

/-- A CSR written: the RW ones take the value, the others ignore it (R3, R107). FLAGS keeps the flags of
what has completed in the same clock (02_numbers.md R42). -/
def Job.writeCsr (j : Job) (n : Nat) (v : Word) : Job :=
  if n = 0x001 then { j with flags := bits v 0 7 ||| j.clockFlags }
  else if n = 0x002 then { j with fmask := bits v 0 7 }
  else if n = 0x010 then { j with dstall := v }
  else if n = 0x011 then { j with qstall := v }
  else if n = 0x020 then { j with itag := bits v 0 32 }
  else if n = 0x060 then { j with tvec := v }
  else if n = 0x063 then { j with tpc := v }
  else j

/-- The word of CSRR and CSRW, for TVAL. -/
def csrWord (write : Bool) (r : Reg) (c : BitVec 12) : Word :=
  (if write then encCI 0x65 0 (reg5 r) (0#3 ++ c) else encCI 0x64 (reg5 r) 0 (0#3 ++ c)).setWidth 64

def execCsrr (d : Reg) (c : BitVec 12) (s : State) : Result :=
  match readCsr s c.toNat with
  | some v => .next (retireX s d v)
  | none => .next (raise s .illegalInstr (csrWord false d c))

def execCsrw (a : Reg) (c : BitVec 12) (s : State) : Result :=
  match readCsr s c.toNat with
  | some _ => .next (advance { s with job := s.job.writeCsr c.toNat (getX s a) })
  | none => .next (raise s .illegalInstr (csrWord true a c))

/-! ### CYCLE and NOP (R131, R132) -/

def execCycle (d : Reg) (s : State) : Result := .next (retireX s d (BitVec.ofNat 64 s.clock))

def execNop (s : State) : Result := .next (advance s)

/-! ### Mailboxes (R126 to R129) -/

/-- Entries of a mailbox. -/
def mailSlots : Nat := 16

/-- The operand as TVAL names it. -/
def mailWord (m : Bool) : Word := (flag m).setWidth 64

/-- The outgoing mailbox is mb0 on CC0 and mb1 on CC1. -/
def execMbs (a : Reg) (m : Bool) (s : State) : Result :=
  if m != s.job.cc then .next (raise s .mailboxMisuse (mailWord m))
  else
    match partnerOf s with
    | none => .next (raise s .mailboxMisuse (mailWord m))
    | some p =>
      if p.inbox.length < mailSlots then
        let v := getX s a
        .next (advance (updJob (drain s) p.id fun q => { q with inbox := q.inbox ++ [v] }))
      else .next (hold s .mailbox)

/-- The incoming mailbox is mb1 on CC0 and mb0 on CC1. A message left by a retired partner cannot be there: retirement discards
it (R129). -/
def execMbr (d : Reg) (m : Bool) (s : State) : Result :=
  if m == s.job.cc || (partnerOf s).isNone then .next (raise s .mailboxMisuse (mailWord m))
  else
    match s.job.inbox with
    | v :: rest => .next (retireX { s with job := { s.job with inbox := rest } } d v)
    | [] => .next (hold s .mailbox)

/-! ### Words that raise when they are decoded -/

/-- ILLEGAL_INSTR of an unassigned major, or of one that the image's version lacks (R46, R65). -/
def execUnassignedMajor (w : Word32) (s : State) : Result := .next (raise s .illegalInstr (w.setWidth 64))

end Sys2Proof.Machine
end

