-- ==== Sys2Proof/Machine/Queues.lean ====
section
/-! DEFINITION. Engine queues, the result FIFO, shape registers and handles at the control core (06_registers.md R138 to R153,
07_queues.md R163 to R177). -/

namespace Sys2Proof.Machine

/-! ### PUSH and POPR (07_queues.md R165 to R168) -/

/-- The engines of a mask, in ring order. -/
def EngMask.engines (m : EngMask) : List Engine :=
  Machine.engines.filter fun e => match e with | .ld => m.ld | .mx => m.mx | .vx => m.vx | .st => m.st

/-- The segment operand breaks a rule of PUSH for engine e (R165, R167). -/
def segmentBad (s : State) (v : Word) (e : Engine) : Bool :=
  match sectionOf s s.job (streamKind e) with
  | none => true
  | some x => !isZero v 24 8 || !isZero v 0 2 || x.bytes ≤ (bits v 0 24).toNat

def execPush (m : EngMask) (a : Reg) (s : State) : Result :=
  let v := getX s a
  let es := Machine.EngMask.engines m
  if es.any (segmentBad s v) then .next (raise s .queueMisuse v)
  else if !es.all (fun e => s.job.queueRoom e) then .next (hold s (.qstall es))
  else
    let s := drain s
    .next (advance { s with job := es.foldl (fun j e => j.enqueue e (.seg v j.itag)) s.job })

def execPopr (d : Reg) (s : State) : Result :=
  match s.job.fifo with
  | [] => .next (hold s .dstall)
  | v :: rest => .next (retireX { s with job := { s.job with fifo := rest } } d v)

/-! ### QCUT and LTRIM (R176, R177) -/

/-- Operand and ITAG of a SEG entry. -/
def QEntry.seg? : QEntry → Option (Word × BitVec 32)
  | .seg v t => some (v, t)
  | _ => none

/-- Some engine has begun a segment with this ITAG. -/
def Job.hasBegun (j : Job) (t : BitVec 32) : Bool := engines.any fun e => (j.eng e).begun.contains t

/-- The entry belongs to C: a SEG entry of a group with ITAG above x that no engine has begun. -/
def Job.cuts (j : Job) (x : BitVec 32) (q : QEntry) : Bool :=
  match QEntry.seg? q with
  | some (_, t) => x < t && !j.hasBegun t
  | none => false

/-- The tokens that C's entries of engine e declare in the count field at bit k. -/
def Job.declared (j : Job) (x : BitVec 32) (e : Engine) (k : Nat) : Nat :=
  (((j.eng e).queue.filter (j.cuts x)).map fun q =>
    match QEntry.seg? q with | some (v, _) => (bits v k 8).toNat | none => 0).sum

/-- The engine with this place on the ring. -/
def engineAt (n : Nat) : Engine := match n % 4 with | 0 => .ld | 1 => .mx | 2 => .vx | _ => .st

/-- Counter q is balanced over C (R169, R176): 0 to 3 are forward queues, 4 to 7 backward ones. -/
def Job.balanced (j : Job) (x : BitVec 32) (q : Nat) : Bool :=
  if q < 4 then j.declared x (engineAt q) 32 == j.declared x (engineAt (q + 1)) 48
  else j.declared x (engineAt (q + 1)) 40 == j.declared x (engineAt q) 56

def execQcut (a : Reg) (s : State) : Result :=
  let x := bits (getX s a) 0 32
  let j := s.job
  match firstBelow 8 fun q => !j.balanced x q with
  | some q => .next (raise s .queueMisuse (BitVec.ofNat 64 q))
  | none =>
    .next (advance { s with job := engines.foldl (fun k e => k.updEng e fun y =>
      EngStream.refill { y with queue := y.queue.filter fun q => !j.cuts x q }) j })

/-- The bound of LTRIM applied to a frame: the loop ends after iteration x, also when a pre-emption re-enters it with the count
that is left (R175). -/
def Frame.trim (f : Frame) (x : Word) : Frame :=
  let b := max (x.toNat + 1 - f.base) f.started
  { f with n := min f.n b, nEff := min f.nEff b }

/-- The same by an LTRIM of the clock now. -/
def Frame.trimAt (now : Nat) (x : Word) (f : Frame) : Frame :=
  { f.trim x with cut := some (now, match f.cut with | some (t, e) => if t = now then e else f.nEff | none => f.nEff) }

/-- A bound for the outermost active loop of an engine stream; or held for its next one. R173 holds it in 32 bits: one of 2 ^ 32 or more is held as
2 ^ 32 - 1, which bounds no loop, as it bounds no active one (DESIGN CHOICE, log entry 67). -/
def EngStream.ltrim (now : Nat) (y : EngStream) (x : Word) : EngStream :=
  match y.frames.reverse with
  | [] => { y with held := some (BitVec.ofNat 32 (min x.toNat (2 ^ 32 - 1))) }
  | f :: r => { y with frames := (f.trimAt now x :: r).reverse }

def execLtrim (m : EngMask) (a : Reg) (s : State) : Result :=
  let x := getX s a
  .next (advance { s with job :=
    (Machine.EngMask.engines m).foldl (fun j e => j.updEng e fun y => y.ltrim s.clock x) s.job })

/-! ### Shape registers (06_registers.md R138, R140) -/

def execSets (n : Fin 32) (a : Reg) (s : State) : Result :=
  let v := bits (getX s a) 0 32
  if !s.job.allRoom then .next (hold s (.qstall Machine.engines))
  else
    let j := { s.job with shapes := s.job.shapes.set n v }
    .next (advance { s with job := j.enqueueAll (.set n v j.itag) })

def execGets (d : Reg) (n : Fin 32) (s : State) : Result := .next (retireX s d ((s.job.shapes[n]).setWidth 64))

/-! ### Handles (R141, R153) -/

/-- Replace the len bits from start. -/
def setBits {n : Nat} (v : BitVec n) (start len : Nat) (x : Nat) : BitVec n :=
  let old := v.toNat / 2 ^ start % 2 ^ len
  BitVec.ofNat n (v.toNat - old * 2 ^ start + x % 2 ^ len * 2 ^ start)

/-- First bit and width of the field that a selector names (R142, R153). -/
def HField.place : HField → Nat × Nat
  | .kind => (0, 8) | .flags => (8, 8) | .fmt => (16, 8) | .rank => (24, 8)
  | .ext0 => (256, 16) | .ext1 => (272, 16) | .ext2 => (288, 16) | .ext3 => (304, 16)
  | .str0 => (320, 32) | .str1 => (352, 32) | .str2 => (384, 32) | .str3 => (416, 32)
  | .base => (64, 64) | .aux1 => (128, 64) | .aux2 => (192, 64) | .params => (448, 32)

/-- The strides are signed. -/
def HField.signed : HField → Bool
  | .str0 | .str1 | .str2 | .str3 => true
  | _ => false

/-- A new record for handle n: at the control core at once, and to the four queues at one moment. -/
def Job.setHandle (j : Job) (n : Fin 16) (v : Layout) : Job :=
  let j := { j with handles := j.handles.set n v }
  j.enqueueAll (.hnd n v j.itag)

/-- HLD has read its record: the handle takes it, once each engine queue has a free entry. -/
def giveHandle (s : State) (n : Fin 16) (l : Layout) : State :=
  if s.job.allRoom then advance { s with job := s.job.setHandle n l } else hold s (.handing n l)

/-- The record is read once, and afresh where a stop has abandoned the wait. -/
def execHld (n : Fin 16) (a : Reg) (c : Cls) (o : BitVec 9) (s : State) : Result :=
  .next (withLoad s c (offsetAddr s a .d o) 64 fun t b => giveHandle (takeReplies t (.ctl t.job.id)) n (ofBytes 512 b))

def execHst (n : Fin 16) (a : Reg) (c : Cls) (o : BitVec 9) (s : State) : Result :=
  .next (withStore s s.delay c (offsetAddr s a .d o) (toBytes s.job.handles[n]) fun t =>
    advance (takeReplies t (.ctl t.job.id)))

def execHset (n : Fin 16) (a : Reg) (f : HField) (s : State) : Result :=
  let (start, len) := Machine.HField.place f
  if !s.job.allRoom then .next (hold s (.qstall Machine.engines))
  else .next (advance { s with job := s.job.setHandle n (setBits s.job.handles[n] start len (getX s a).toNat) })

def execHget (d : Reg) (n : Fin 16) (f : HField) (s : State) : Result :=
  let (start, len) := Machine.HField.place f
  let v := s.job.handles[n].toNat / 2 ^ start % 2 ^ len
  .next (retireX s d (if Machine.HField.signed f then BitVec.ofInt 64 (sint len v) else BitVec.ofNat 64 v))

end Sys2Proof.Machine
end

