-- ==== Sys2Proof/Machine/Barriers.lean ====
section
/-! DEFINITION. Barriers and tubs as the control stream names them (11_sync.md R247 to R260). -/

namespace Sys2Proof.Machine

/-! ### Barriers (R251 to R255) -/

/-- Do k with an active barrier that an operand names, or raise BARRIER_MISUSE. -/
def withActive (s : State) (o : BarOp) (k : BarId → State) : State :=
  withBar s o fun b => if (barOf s b).active then k b else raise s .barrierMisuse (barWord o)

/-- The barrier lies between phases (R252). -/
def Barrier.between (x : Barrier) : Bool := x.arrive == x.init && x.bytes == 0 && !x.touched

def execBari (a : Reg) (o : BarOp) (s : State) : Result :=
  let v := getX s a
  .next (withBar s o fun b =>
    let x := barOf s b
    if !isZero v 16 48 || (x.active && !x.between) then raise s .barrierMisuse (barWord o)
    else
      let t := closeBar s b
      advance (putBar t b { barOf t b with
        active := true, phase := x.active && x.phase, init := bits v 0 16, arrive := bits v 0 16, bytes := 0, touched := false }))

/-- An arrival of the control stream: a release of every earlier access in every class (R250, R253). Its count is compared with ARRIVE as the
clock began. -/
def arriveX (s : State) (o : BarOp) (c : Nat) : State :=
  withActive s o fun b =>
    if c = 0 || 65535 < c || (barOf s b).began.1.arrive.toNat < c then raise s .barrierMisuse (barWord o)
    else
      match barEvent (drain s) b (.arrive c) with
      | some t => advance t
      | none => hold s .blocked

def execBarv (a : Reg) (o : BarOp) (s : State) : Result := .next (arriveX s o (getX s a).toNat)

def execBarvBare (o : BarOp) (s : State) : Result := .next (arriveX s o 1)

/-- The expectation is a signed 32-bit count (R254). -/
def execBarx (a : Reg) (o : BarOp) (s : State) : Result :=
  let v := getX s a
  .next (withActive s o fun b =>
    if sx (bits v 0 32) != v then raise s .barrierMisuse (barWord o)
    else
      match barEvent s b (.expect v.toInt) with
      | some t => advance t
      | none => hold s .blocked)

def execBarw (p : Bool) (o : BarOp) (s : State) : Result :=
  .next (withActive s o fun b => if (barOf s b).began.1.phase != p then advance s else hold s (.barrier b p))

/-- A waiting BARW or BWT goes on in a clock after the phase has completed (R255). -/
def execBarrierWaitResume (job : Nat) (str : StreamRef) (s : State) : Result :=
  match findJob s job with
  | none => .next s
  | some j =>
    match str with
    | .ctl =>
      match j.wait with
      | .barrier b p => .next (if j.st == .running && (barOf s b).began.1.phase != p then advance (focus job s) else s)
      | .passed => .next (if j.st == .running then advance (focus job s) else s)
      | _ => .next s
    | .eng e =>
      match (j.eng e).wait with
      | .barrier b p =>
        .next (if j.resident && (barOf s b).began.1.phase != p then
          putJob s (j.updEng e fun x => { x with wait := .ready, pc := x.pc + 4 }) else s)
      | .passed => .next (if j.resident then putJob s (j.updEng e fun x => { x with wait := .ready, pc := x.pc + 4 }) else s)
      | _ => .next s

/-- A clock of a barrier in which no event has come. -/
def execBarrierClock (b : BarId) (s : State) : Result := .next (idleBar s b)

/-! ### Tub records (R257) -/

/-- A tub record read from memory. -/
structure TubRec where
  base : Nat
  action : BitVec 2
  scope : Scope
  rearm : Bool
  target : Word
  value : Word
  total : Nat
  lines : Nat
  deriving DecidableEq, Repr

/-- The fields of a tub record for a tub of the scratchpad or of memory; none where R257 is broken. -/
def decodeTub (mem : Bool) (r : BitVec 256) : Option TubRec :=
  let base := (bits r 0 57).toNat
  let action := bits r 57 2
  let t := bits r 64 64
  let v := bits r 128 64
  let targetOk := match action with
    | 0 => t == 0 && v == 0
    | 1 => isZero t 9 7 && isZero t 32 32 && !isZero t 16 16 && v == 0
    | 2 => isZero t 4 2 && v == 0
    | _ => isZero t 0 3
  match Scope.ofCode (bits r 59 3) with
  | some sc =>
    if base % 64 == 0 && !bitAt r 63 && (mem || base < 2 ^ 24) && (if mem then 2 else 1) ≤ sc.code.toNat && targetOk &&
        !isZero r 192 40 && !isZero r 232 24 then
      some { base, action, scope := sc, rearm := bitAt r 62, target := t, value := v, total := (bits r 192 40).toNat,
             lines := (bits r 232 24).toNat }
    else none
  | none => none

/-- What the action of a tub record stands for in the namespace of the focused job: TUB_MISUSE where it names a barrier that such a tub may
not name, BARRIER_MISUSE for an operand beyond the job's allotment (R247). -/
def tubAction (s : State) (o : TubOp) (r : TubRec) : Except (Cause × Word) TubAct :=
  match r.action with
  | 0 => .ok .none
  | 1 =>
    match BarOp.ofCode (bits r.target 0 9) with
    | none => .error (.tubMisuse, tubWord o)
    | some q =>
      if o.mem && q.kind == .core then .error (.tubMisuse, tubWord o)
      else
        match s.job.barAt q with
        | some b => .ok (.arrive b (bits r.target 16 16).toNat)
        | none => .error (.barrierMisuse, barWord q)
  | 2 => .ok (.launch (r.target &&& ~~~(63 : Word)) (bits r.target 0 4).toNat)
  | _ => .ok (.flag r.target r.value)

/-- The physical ranges of the n bytes from va on, page by page, each none where its page does not fit a memory tub of the die: another tier
(the aperture is one), no TUB bit, or a stack of another die. Every page is translated, and the first that faults stops (R258). f bounds
the pages. -/
def tubPages (s : State) (p : Party) (die : Nat) : Nat → Word → Nat → Except Stop (List (Option (Nat × Nat)))
  | 0, _, n => .ok (if n = 0 then [] else [none])
  | f + 1, va, n =>
    if n = 0 then .ok []
    else if !isZero va 57 7 then .error (.trap .pageNotPresent va)
    else if inAperture va then
      let k := 65536 - va.toNat % 65536
      match tubPages s p die f (va + BitVec.ofNat 64 k) (n - k) with
      | .ok r => .ok (none :: r)
      | e => e
    else
      let w := leafFor s p va
      match w.cause with
      | some c => .error (.fault c va (faultRec s p va .read (some c) false w))
      | none =>
        let k := min n (2 ^ levelShift w.level - va.toNat % 2 ^ levelShift w.level)
        let range := match leafPlace w.entry w.level va with
          | .here .hbm pa _ => if bitAt w.entry 7 && pa / 2 ^ 37 == die then some (pa, k) else none
          | _ => none
        match tubPages s p die f (va + BitVec.ofNat 64 k) (n - k) with
        | .ok r => .ok (range :: r)
        | e => e

/-- The parts of a range x outside a range r. -/
def minusRange (r x : Nat × Nat) : List (Nat × Nat) :=
  let lo := max x.1 r.1
  let hi := min (x.1 + x.2) (r.1 + r.2)
  if hi ≤ lo then [x] else [(x.1, lo - x.1), (hi, x.1 + x.2 - hi)].filter fun q => q.2 != 0

/-- A range put among disjoint ones, so that each byte stands in one of them: a region is a set of bytes (R258, R259). -/
def addRange (l : List (Nat × Nat)) (x : Nat × Nat) : List (Nat × Nat) :=
  l ++ l.foldl (fun ps r => ps.flatMap (minusRange r)) [x]

/-- The bytes that a tub's region covers: offsets inside the job's region, or HBM addresses of the tub's die. none: TUB_MISUSE. -/
def tubRegion (s : State) (t : TubId) (r : TubRec) : Except Stop (Option (List (Nat × Nat))) :=
  match t with
  | .spad .. =>
    .ok (if s.job.spbase.toNat ≤ r.base && r.base + 64 * r.lines ≤ s.job.splim.toNat then some [(r.base, 64 * r.lines)]
      else none)
  | .mem die _ =>
    match tubPages s (ctlParty s 0) die (r.lines / 1024 + 2) (BitVec.ofNat 64 r.base) (64 * r.lines) with
    | .error e => .error e
    | .ok l => .ok (if l.all Option.isSome then some ((l.filterMap id).foldl addRange []) else none)

/-- The record is judged first, then its region, then the operands of its action (DESIGN CHOICE, log entry 66). -/
def execTubset (a : Reg) (o : TubOp) (s : State) : Result :=
  let ea := getX s a
  .next (withTub s o fun t =>
    if bits ea 0 5 != 0 then raise s .misaligned ea
    else if (tubOf s t).armed then raise s .tubMisuse (tubWord o)
    else
      withRecord s ea 32 fun s b =>
        let rec' : BitVec 256 := ofBytes 256 b
        match decodeTub o.mem rec' with
        | none => raise (takeReplies s (.ctl s.job.id)) .tubMisuse (tubWord o)
        | some r =>
          withAccess s (tubRegion s t r) fun region =>
            let s := takeReplies s (.ctl s.job.id)
            match region, tubAction s o r with
            | none, _ => raise s .tubMisuse (tubWord o)
            | some _, .error (c, v) => raise s c v
            | some region, .ok act =>
              advance (putTub s t { tubOf s t with
                set := true, armed := false, count := 0, total := r.total, rearm := r.rearm, scope := r.scope, act, region,
                asid := s.job.asid, record := rec' }))

/-- TUBARM: a tub that TUBSET has not set raises TUB_MISUSE. -/
def tubarm (on : Bool) (o : TubOp) (s : State) : Result :=
  .next (withTub s o fun t =>
    let x := tubOf s t
    if !x.set then raise s .tubMisuse (tubWord o)
    else advance (putTub s t { x with armed := on, count := if on then 0 else x.count }))

def execTubarmOn (o : TubOp) (s : State) : Result := tubarm true o s
def execTubarmOff (o : TubOp) (s : State) : Result := tubarm false o s

end Sys2Proof.Machine
end

