-- ==== Sys2Proof/Machine/Flags.lean ====
section
/-! DEFINITION. The sticky flags of a job (02_numbers.md R40 to R42). An operation gives a set of flags, and sets are joined by OR;
orFlags of Machine/Ops.lean puts them into FLAGS. -/

namespace Sys2Proof.Machine

/-- A set of flags, as FLAGS and FMASK hold it (R40). -/
abbrev Flags := BitVec 7

/-- Invalid operation, infinity from finite operands, overflow, tiny and inexact, inexact, saturation, poison replaced (R40). -/
def flNV : Flags := 1
def flDZ : Flags := 2
def flOF : Flags := 4
def flUF : Flags := 8
def flNX : Flags := 16
def flSAT : Flags := 32
def flPOI : Flags := 64

/-- A flag where c holds. -/
def flIf (c : Bool) (f : Flags) : Flags := if c then f else 0

/-- The flags of several results. -/
def joinFlags (l : List Flags) : Flags := l.foldl (· ||| ·) 0

/-- Values with their flags: the values, and the flags of all. -/
def collect {α : Type} (l : List (α × Flags)) : List α × Flags := (l.map Prod.fst, joinFlags (l.map Prod.snd))

/-- The flags that FMASK enables for the trap of TFENCE (R40). -/
def enabledFlags (j : Job) : Flags := j.flags &&& j.fmask

end Sys2Proof.Machine
end

