-- ==== Sys2Proof/Machine/Num.lean ====
section
/-! DEFINITION. Numbers of the formats and their rounding (02_numbers.md R13 to R31). An element is its bit pattern, as a natural
number; a value is exact. Quotients, roots, powers and logarithms are given by the floors of their multiples of powers of two,
from which R23 rounds them without error. -/

namespace Sys2Proof.Machine

/-! ### Values -/

/-- An exact value: NaN, an infinity, a signed zero, or (-1) ^ neg * m * 2 ^ e with m positive. -/
inductive Num where
  | nan
  | inf (neg : Bool)
  | zero (neg : Bool)
  | fin (neg : Bool) (m : Nat) (e : Int)
  deriving DecidableEq, Repr

/-- Mantissa bits, exponent bits and bias of a floating-point format (R16). -/
def Fmt.spec : Fmt → Nat × Nat × Nat
  | .bf16 => (7, 8, 127) | .fp16 => (10, 5, 15) | .e4m3 => (3, 4, 7) | .e5m2 => (2, 5, 15) | _ => (23, 8, 127)

/-- Mantissa bits of a floating-point format. -/
def mantBits (f : Fmt) : Nat := (Fmt.spec f).1

/-- Exponent of the smallest normal value. -/
def emin (f : Fmt) : Int := 1 - ((Fmt.spec f).2.2 : Int)

/-- Exponent of the largest finite value. -/
def emax (f : Fmt) : Int := match f with | .e4m3 => 8 | _ => ((Fmt.spec f).2.2 : Int)

/-- The bits of the largest finite value, and of infinity. -/
def maxBits (f : Fmt) : Nat :=
  match f with | .bf16 => 0x7F7F | .fp16 => 0x7BFF | .e4m3 => 0x7E | .e5m2 => 0x7B | _ => 0x7F7FFFFF
def infBits (f : Fmt) : Nat :=
  match f with | .bf16 => 0x7F80 | .fp16 => 0x7C00 | .e4m3 => 0x7E | .e5m2 => 0x7C | _ => 0x7F800000

/-- The canonical NaN (R16). -/
def nanBits (f : Fmt) : Nat :=
  match f with | .bf16 => 0x7FC0 | .fp16 => 0x7E00 | .e4m3 => 0x7F | .e5m2 => 0x7E | _ => 0x7FC00000

/-- The sign bit of a floating-point format. -/
def signBit (f : Fmt) (neg : Bool) : Nat := if neg then 2 ^ (Fmt.bits f - 1) else 0

/-- An integer as a value. -/
def Num.ofInt (v : Int) : Num := if v = 0 then .zero false else .fin (v < 0) v.natAbs 0

/-- The format is a signed integer format. -/
def isSigned (f : Fmt) : Bool :=
  match f with | .int32 | .int16 | .int8 | .int4 | .mxint8 => true | _ => false

/-- The integer that a bit pattern of an integer format stands for. -/
def intOf (f : Fmt) (v : Nat) : Int := if isSigned f then sint (Fmt.bits f) v else (v % 2 ^ Fmt.bits f : Nat)

/-- The value of a bit pattern (R16, R19). -/
def numOf (f : Fmt) (v : Nat) : Num :=
  if Fmt.isFloat f then
    let (m, eb, bias) := Fmt.spec f
    let neg := v / 2 ^ (m + eb) % 2 == 1
    let ef := v / 2 ^ m % 2 ^ eb
    let fr := v % 2 ^ m
    if ef = 2 ^ eb - 1 && f == .e4m3 && fr == 7 then .nan
    else if ef = 2 ^ eb - 1 && f != .e4m3 then (if fr = 0 then .inf neg else .nan)
    else if ef = 0 then (if fr = 0 then .zero neg else .fin neg fr (emin f - m))
    else .fin neg (fr + 2 ^ m) ((ef : Int) - bias - m)
  else
    match f with
    | .e8m0 => if v % 256 = 255 then .nan else .fin false 1 ((v % 256 : Nat) - 127)
    | _ => Num.ofInt (intOf f v)

/-! ### Magnitudes -/

/-- m * 2 ^ d rounded down; a power of two that m cannot hold is not formed. -/
def shiftZ (m : Nat) (d : Int) : Nat :=
  if 0 ≤ d then m * 2 ^ d.toNat else if m.log2 < (-d).toNat then 0 else m / 2 ^ (-d).toNat

/-- A positive real y: floor(log2 y), floor(y / 2 ^ k), and whether y is a multiple of 2 ^ k. -/
structure Mag where
  lg : Int
  fl : Int → Nat
  ex : Int → Bool

/-- m * 2 ^ e. -/
def Mag.dyadic (m : Nat) (e : Int) : Mag :=
  { lg := m.log2 + e, fl := fun k => shiftZ m (e - k),
    ex := fun k => k ≤ e || ((k - e).toNat ≤ m.log2 && m % 2 ^ (k - e).toNat == 0) }

/-- n / d * 2 ^ e. -/
def Mag.ratio (n d : Nat) (e : Int) : Mag :=
  let s : Int := n.log2 - d.log2
  let below := if 0 ≤ s then n < d * 2 ^ s.toNat else n * 2 ^ (-s).toNat < d
  { lg := (if below then s - 1 else s) + e
    fl := fun k => if k ≤ e then n * 2 ^ (e - k).toNat / d else n / d / 2 ^ (k - e).toNat
    ex := fun k => if k ≤ e then n * 2 ^ (e - k).toNat % d == 0 else n % (d * 2 ^ (k - e).toNat) == 0 }

/-- The largest r below 2 ^ b with r ^ p ≤ n, bit by bit. -/
def rootBits (p n : Nat) : Nat → Nat → Nat
  | 0, r => r
  | b + 1, r => rootBits p n b (if (r + 2 ^ b) ^ p ≤ n then r + 2 ^ b else r)

/-- The integer square root. -/
def isqrt (n : Nat) : Nat := rootBits 2 n (n.log2 / 2 + 1) 0

/-- sqrt(m) * 2 ^ h. -/
def Mag.sqrt (m : Nat) (h : Int) : Mag :=
  let r := isqrt m
  { lg := r.log2 + h
    fl := fun k => if k ≤ h then isqrt (m * 4 ^ (h - k).toNat) else r / 2 ^ (k - h).toNat
    ex := fun k => r * r == m && (k ≤ h || r % 2 ^ (k - h).toNat == 0) }

/-- 1 / sqrt(m) * 2 ^ h. -/
def Mag.rsqrt (m : Nat) (h : Int) : Mag :=
  let r := isqrt m
  let c := if m = 2 ^ m.log2 then (m.log2 + 1) / 2 else (m.log2 + 2) / 2
  { lg := h - c
    fl := fun k => if k ≤ h then isqrt (4 ^ (h - k).toNat / m) else 0
    ex := fun k => r * r == m && k ≤ h && 2 ^ (h - k).toNat % r == 0 }

/-- Bounds of 2 ^ (f / 2 ^ n), in units of 2 ^ -q: the product of the square roots of 2 that the n bits of f choose, from the bounds
of the last root and of the product so far. -/
def expBounds (q f : Nat) : Nat → Nat × Nat → Nat × Nat → Nat × Nat
  | 0, _, b => b
  | n + 1, (rl, rh), (lo, hi) =>
    let rl := isqrt (rl * 2 ^ q)
    let rh := isqrt (rh * 2 ^ q) + 1
    expBounds q f n (rl, rh) (if f / 2 ^ n % 2 = 1 then (lo * rl / 2 ^ q, hi * rh / 2 ^ q + 1) else (lo, hi))

/-- floor(2 ^ (p / 2 ^ j - k)) where bounds of enough digits decide it. -/
def expFast (p : Int) (j : Nat) (k : Int) : Option Nat :=
  let q := j + 96
  let (lo, hi) := expBounds q (p % 2 ^ j).toNat j (2 * 2 ^ q, 2 * 2 ^ q) (2 ^ q, 2 ^ q)
  let d := p / 2 ^ j - k - q
  if d < 0 && shiftZ lo d == shiftZ hi d then some (shiftZ lo d) else none

/-- 2 ^ (p / 2 ^ j) for p odd and j positive: never a multiple of a power of two. -/
def Mag.pow2 (p : Int) (j : Nat) : Mag :=
  { lg := p / 2 ^ j
    fl := fun k =>
      let t := p - k * 2 ^ j
      if t < 0 then 0 else (expFast p j k).getD (rootBits (2 ^ j) (2 ^ t.toNat) ((t / 2 ^ j).toNat + 1) 0)
    ex := fun _ => false }

/-- The first j binary digits of log2(x / 2 ^ q), x between lo and hi and in [2 ^ q, 2 ^ (q + 1)), by squaring; none where the
bounds do not decide one. -/
def logDigits (q : Nat) : Nat → Nat → Nat → Nat → Option Nat
  | 0, _, _, a => some a
  | j + 1, lo, hi, a =>
    let l := lo * lo / 2 ^ q
    let h := (hi * hi + 2 ^ q - 1) / 2 ^ q
    if 2 ^ (q + 1) ≤ l then logDigits q j (l / 2) ((h + 1) / 2) (2 * a + 1)
    else if h < 2 ^ (q + 1) then logDigits q j l h (2 * a)
    else none

/-- floor(log2(m) * 2 ^ j). -/
def natLog (m j : Nat) : Nat :=
  let q := m.log2 + j + 64
  let x := m * 2 ^ (j + 64)
  ((logDigits q j x x 0).map fun d => m.log2 * 2 ^ j + d).getD (m ^ 2 ^ j).log2

/-- floor(log2(m * 2 ^ e) * 2 ^ j). -/
def floorLog (m : Nat) (e : Int) (j : Nat) : Int := natLog m j + e * 2 ^ j

/-- The least j from 1 on with fl (-j) positive, within the fuel. -/
def firstBit (fl : Int → Nat) : Nat → Nat → Nat
  | 0, j => j
  | n + 1, j => if 0 < fl (-(j : Int)) then j else firstBit fl n (j + 1)

/-- |log2(m * 2 ^ e)| for a value that is no power of two; its sign. -/
def Mag.log2 (m : Nat) (e : Int) : Bool × Mag :=
  let neg := floorLog m e 0 < 0
  let fl : Int → Nat := fun k =>
    let v := floorLog m e (-k).toNat
    let u := if neg then (-v - 1).toNat else v.toNat
    if k ≤ 0 then u else u / 2 ^ k.toNat
  let n := fl 0
  (neg, { lg := if 0 < n then (n.log2 : Int) else -(firstBit fl 200 1 : Int), fl, ex := fun _ => false })

/-! ### Rounding (R22 to R24) -/

/-- y in units of 2 ^ qe, rounded, and whether that is inexact (R23). -/
def roundUnits (g : Mag) (neg : Bool) (mode : RMode) (rnd : Nat) (qe : Int) : Nat × Bool :=
  let lo := g.fl qe
  if g.ex qe then (lo, false)
  else
    let half := g.fl (qe - 1) % 2 == 1
    let tie := half && g.ex (qe - 1)
    let a := match mode with
      | .rtz => lo
      | .rup => if neg then lo else lo + 1
      | .rdn => if neg then lo + 1 else lo
      | .sr => (g.fl (qe - 16) + rnd % 65536) / 65536
      | .rna => if half then lo + 1 else lo
      | .rne => if tie then lo + lo % 2 else if half then lo + 1 else lo
    (a, true)

/-- The result of a finite overflow and its flags (R24). -/
def overflow (f : Fmt) (neg : Bool) (mode : RMode) (sat : Bool) : Nat × Flags :=
  let toInf := match mode with
    | .rne | .rna => true
    | .rtz | .sr => false
    | .rup => !neg
    | .rdn => neg
  if toInf && !(sat || f == .e4m3) then (signBit f neg + infBits f, flOF)
  else (signBit f neg + maxBits f, flOF ||| flIf toInf flSAT)

/-- Round a positive magnitude with a sign to a floating-point format (R23). -/
def roundMag (f : Fmt) (mode : RMode) (sat : Bool) (rnd : Nat) (neg : Bool) (g : Mag) : Nat × Flags :=
  let m := mantBits f
  let qe := max g.lg (emin f) - m
  let (a, inexact) := roundUnits g neg mode rnd qe
  let fl := flIf inexact (flNX ||| flIf (g.lg < emin f) flUF)
  if a = 0 then (signBit f neg, fl)
  else
    let top : Int := a.log2 + qe
    let n := shiftZ a (m - a.log2)
    if emax f < top || (top == emax f && f == .e4m3 && n == 15) then
      let (v, o) := overflow f neg mode sat
      (v, fl ||| o)
    else if top < emin f then (signBit f neg + a, fl)
    else (signBit f neg + (top - emin f + 1).toNat * 2 ^ m + (n - 2 ^ m), fl)

/-- round of R23 for an exact value. -/
def roundNum (f : Fmt) (mode : RMode) (sat : Bool) (rnd : Nat) : Num → Nat × Flags
  | .nan => (nanBits f, 0)
  | .inf neg => (signBit f neg + infBits f, flIf (f == .e4m3) flSAT)
  | .zero neg => (signBit f neg, 0)
  | .fin neg m e => roundMag f mode sat rnd neg (Mag.dyadic m e)

/-! ### Integers (R26, R27, R31) -/

/-- The range of an integer format. -/
def intRange (f : Fmt) : Int × Int :=
  if isSigned f then (-(2 ^ (Fmt.bits f - 1) : Nat), (2 ^ (Fmt.bits f - 1) : Nat) - 1) else (0, (2 ^ Fmt.bits f : Nat) - 1)

/-- The low bits of an integer. -/
def lowBits (f : Fmt) (v : Int) : Nat := (v % (2 ^ Fmt.bits f : Nat)).toNat

/-- Clamped to the range of the format; SAT if that changes the value. -/
def clampInt (f : Fmt) (v : Int) : Nat × Flags :=
  let (lo, hi) := intRange f
  let c := max lo (min hi v)
  (lowBits f c, flIf (c != v) flSAT)

/-- narrow of R31: low bits, or clamped when S is set. -/
def narrow (f : Fmt) (sat : Bool) (v : Int) : Nat × Flags := if sat then clampInt f v else (lowBits f v, 0)

/-- A magnitude rounded to an integer and brought into the range (R26). -/
def toIntMag (f : Fmt) (mode : RMode) (rnd : Nat) (neg : Bool) (g : Mag) : Nat × Flags :=
  let (a, inexact) := roundUnits g neg mode rnd 0
  let (v, fl) := clampInt f (if neg then -(a : Int) else a)
  (v, fl ||| flIf inexact flNX)

/-- A value converted to an integer format by R26. -/
def toInt (f : Fmt) (mode : RMode) (rnd : Nat) : Num → Nat × Flags
  | .nan => (0, flNV)
  | .inf neg => (lowBits f (if neg then (intRange f).1 else (intRange f).2), flSAT)
  | .zero _ => (0, 0)
  | .fin neg m e => toIntMag f mode rnd neg (Mag.dyadic m e)

/-- A value converted to E8M0 (R28). -/
def toE8m0 : Num → Nat × Flags
  | .nan | .inf _ => (255, flNV)
  | .zero _ => (0, 0)
  | .fin _ m e => ((max (-127) (min 127 ((m.log2 : Int) + e)) + 127).toNat, 0)

/-- Convert an element from one format to another (R17, R25 to R28). -/
def convert (sf df : Fmt) (mode : RMode) (sat : Bool) (rnd : Nat) (v : Nat) : Nat × Flags :=
  if sf == df then (v, 0)
  else if Fmt.isFloat df then roundNum df mode sat rnd (numOf sf v)
  else if df == .e8m0 then toE8m0 (numOf sf v)
  else if Fmt.isInt sf then narrow df sat (intOf sf v)
  else toInt df mode rnd (numOf sf v)

/-! ### Exact arithmetic (R18, R29) -/

/-- The integer multiple of 2 ^ e that a finite value is, for e at most its exponent. -/
def Num.units (e : Int) : Num → Int
  | .fin neg m k => let v : Int := (shiftZ m (k - e) : Nat); if neg then -v else v
  | _ => 0

/-- The exponent of a finite value, else the other one given. -/
def Num.expOr (e : Int) : Num → Int
  | .fin _ _ k => k
  | _ => e

/-- v * 2 ^ e as a value, an exact zero with the sign given. -/
def Num.scaled (v : Int) (e : Int) (negZero : Bool) : Num := if v = 0 then .zero negZero else .fin (v < 0) v.natAbs e

/-- Negation; a NaN stays a NaN. -/
def Num.neg : Num → Num
  | .nan => .nan | .inf s => .inf (!s) | .zero s => .zero (!s) | .fin s m e => .fin (!s) m e

/-- The magnitude. -/
def Num.abs : Num → Num
  | .nan => .nan | .inf _ => .inf false | .zero _ => .zero false | .fin _ m e => .fin false m e

/-- The sign bit. -/
def Num.isNeg : Num → Bool
  | .nan => false | .inf s | .zero s | .fin s _ _ => s

/-- The value is a NaN, an infinity, a zero. -/
def Num.isNan : Num → Bool | .nan => true | _ => false
def Num.isInf : Num → Bool | .inf _ => true | _ => false
def Num.isZero : Num → Bool | .zero _ => true | _ => false

/-- The exact sum; an exact zero of opposite signs is -0 in RDN and +0 in the other modes (R18). -/
def Num.add (mode : RMode) (x y : Num) : Num :=
  match x, y with
  | .nan, _ | _, .nan => .nan
  | .inf a, .inf b => if a == b then .inf a else .nan
  | .inf a, _ | _, .inf a => .inf a
  | .zero a, .zero b => .zero (if a == b then a else mode == .rdn)
  | .zero _, z | z, .zero _ => z
  | .fin _ _ e, .fin _ _ k =>
    let q := min e k
    Num.scaled (x.units q + y.units q) q (mode == .rdn)

/-- The exact product. -/
def Num.mul (x y : Num) : Num :=
  match x, y with
  | .nan, _ | _, .nan => .nan
  | .inf a, .zero _ | .zero a, .inf _ => let _ := a; .nan
  | .inf a, .inf b | .inf a, .fin b _ _ | .fin a _ _, .inf b => .inf (a != b)
  | .zero a, .zero b | .zero a, .fin b _ _ | .fin a _ _, .zero b => .zero (a != b)
  | .fin a m e, .fin b n k => .fin (a != b) (m * n) (e + k)

/-- x * 2 ^ k. -/
def Num.scale (x : Num) (k : Int) : Num :=
  match x with
  | .fin s m e => .fin s m (e + k)
  | z => z

/-- x < y for values that are no NaN; equal zeros. -/
def Num.lt (x y : Num) : Bool :=
  match x, y with
  | .nan, _ | _, .nan => false
  | .inf a, .inf b => a && !b
  | .inf a, _ => a
  | _, .inf b => !b
  | _, _ =>
    let q := min (x.expOr 0) (y.expOr 0)
    let q := min q (min (x.expOr q) (y.expOr q))
    x.units q < y.units q

/-- The order of VMAX and VMIN, -0 below +0. -/
def Num.ltZero (x y : Num) : Bool :=
  match x, y with
  | .zero a, .zero b => a && !b
  | _, _ => x.lt y

/-- The larger and the smaller; NaN if either is one (08_vector.md R188). -/
def Num.max (x y : Num) : Num := if x.isNan || y.isNan then .nan else if x.ltZero y then y else x
def Num.min (x y : Num) : Num := if x.isNan || y.isNan then .nan else if y.ltZero x then y else x

/-- NV where a NaN came from operands that are none (R29). -/
def nvOf (r : Num) (operands : List Num) : Flags := flIf (r.isNan && !operands.any Num.isNan) flNV

/-- Round a value computed from operands, with NV by R29. -/
def finish (f : Fmt) (mode : RMode) (sat : Bool) (rnd : Nat) (operands : List Num) (r : Num) : Nat × Flags :=
  let (v, fl) := roundNum f mode sat rnd r
  (v, fl ||| nvOf r operands)

/-- The exact sum of a list: NaN if one is, or if both infinities are there; an exact zero sum by 08_vector.md R193. The flag says
that both infinities are there, beside a NaN too (R193). -/
def sumNums (mode : RMode) (l : List Num) : Num × Bool :=
  let pos := l.contains (.inf false)
  let neg := l.contains (.inf true)
  if pos && neg then (.nan, true)
  else if l.any Num.isNan then (.nan, false)
  else if pos then (.inf false, false)
  else if neg then (.inf true, false)
  else
    let e := l.foldl (fun e x => min e (x.expOr e)) 0
    let v := l.foldl (fun a x => a + x.units e) 0
    let z := if l.all (· == .zero true) && !l.isEmpty then true
      else if l.all (· == .zero false) then false
      else mode == .rdn
    (Num.scaled v e z, false)

/-! ### Special functions (R30) -/

/-- 2 ^ x. -/
def exp2Round (f : Fmt) (mode : RMode) (sat : Bool) (rnd : Nat) (x : Num) : Nat × Flags :=
  match x with
  | .nan => (nanBits f, 0)
  | .inf false => roundNum f mode sat rnd (.inf false)
  | .inf true => (0, 0)
  | .zero _ => roundNum f mode sat rnd (.fin false 1 0)
  | .fin s m e =>
    let v : Int := if s then -(m : Int) else m
    if 0 ≤ e then roundMag f mode sat rnd false (Mag.dyadic 1 (v * 2 ^ e.toNat))
    else if m % 2 ^ (-e).toNat = 0 then roundMag f mode sat rnd false (Mag.dyadic 1 (v / 2 ^ (-e).toNat))
    else roundMag f mode sat rnd false (Mag.pow2 v (-e).toNat)

/-- log2 x. -/
def log2Round (f : Fmt) (mode : RMode) (sat : Bool) (rnd : Nat) (x : Num) : Nat × Flags :=
  match x with
  | .nan => (nanBits f, 0)
  | .zero _ => let (v, fl) := roundNum f mode sat rnd (.inf true); (v, fl ||| flDZ)
  | .inf false => roundNum f mode sat rnd (.inf false)
  | .inf true | .fin true _ _ => (nanBits f, flNV)
  | .fin false m e =>
    if m = 2 ^ m.log2 then roundNum f mode sat rnd (Num.ofInt (m.log2 + e))
    else
      let (neg, g) := Mag.log2 m e
      roundMag f mode sat rnd neg g

/-- x / y by IEEE 754-2019. -/
def divRound (f : Fmt) (mode : RMode) (sat : Bool) (rnd : Nat) (x y : Num) : Nat × Flags :=
  match x, y with
  | .nan, _ | _, .nan => (nanBits f, 0)
  | .inf _, .inf _ | .zero _, .zero _ => (nanBits f, flNV)
  | .inf a, z => roundNum f mode sat rnd (.inf (a != z.isNeg))
  | .zero a, z => (signBit f (a != z.isNeg), 0)
  | .fin a _ _, .inf b => (signBit f (a != b), 0)
  | .fin a _ _, .zero b => let (v, fl) := roundNum f mode sat rnd (.inf (a != b)); (v, fl ||| flDZ)
  | .fin a m e, .fin b n k => roundMag f mode sat rnd (a != b) (Mag.ratio m n (e - k))

/-- 1 / x. -/
def rcpRound (f : Fmt) (mode : RMode) (sat : Bool) (rnd : Nat) (x : Num) : Nat × Flags :=
  divRound f mode sat rnd (.fin false 1 0) x

/-- m * 2 ^ e with an even exponent. -/
def evenExp (m : Nat) (e : Int) : Nat × Int := if e % 2 = 0 then (m, e / 2) else (2 * m, (e - 1) / 2)

/-- sqrt x. -/
def sqrtRound (f : Fmt) (mode : RMode) (sat : Bool) (rnd : Nat) (x : Num) : Nat × Flags :=
  match x with
  | .nan => (nanBits f, 0)
  | .zero s => (signBit f s, 0)
  | .inf false => roundNum f mode sat rnd (.inf false)
  | .inf true | .fin true _ _ => (nanBits f, flNV)
  | .fin false m e => let (m, h) := evenExp m e; roundMag f mode sat rnd false (Mag.sqrt m h)

/-- 1 / sqrt x. -/
def rsqrtRound (f : Fmt) (mode : RMode) (sat : Bool) (rnd : Nat) (x : Num) : Nat × Flags :=
  match x with
  | .nan => (nanBits f, 0)
  | .zero s => let (v, fl) := roundNum f mode sat rnd (.inf s); (v, fl ||| flDZ)
  | .inf false => (0, 0)
  | .inf true | .fin true _ _ => (nanBits f, flNV)
  | .fin false m e => let (m, h) := evenExp m e; roundMag f mode sat rnd false (Mag.rsqrt m (-h))

end Sys2Proof.Machine
end

