-- ==== Sys2Proof/Machine/Operands.lean ====
section
/-! DEFINITION. The operands of engine operations: register slots, counts and spans (03_encodings.md R51, R52, 06_registers.md R134,
R155, 08_vector.md R181), handles and their checks (06_registers.md R141 to R151), and the elements that a handle reaches
(R144 to R152, R161). -/

namespace Sys2Proof.Machine

/-! ### Registers (06_registers.md R134 to R136) -/

/-- Bytes of a register. -/
def regBytes : Nat := 4096

/-- Byte k from the first byte of the register that a slot names; a span runs on into the next registers. -/
def regByte (j : Job) (r : RegSlot) (k : Nat) : Nat :=
  match r with
  | .main i => (sget j.main (regBytes * i.val + k)).toNat
  | .opnd i => (sget j.opnd (regBytes * i.val + k)).toNat
  | .last i => (sget j.last (regBytes * i.val + k)).toNat
  | _ => 0

/-- Byte k from the first byte of a register set. The last-result file is written by the shift only (R136). -/
def setRegByte (j : Job) (r : RegSlot) (k v : Nat) : Job :=
  match r with
  | .main i => { j with main := sset j.main (regBytes * i.val + k) (BitVec.ofNat 8 v) }
  | .opnd i => { j with opnd := sset j.opnd (regBytes * i.val + k) (BitVec.ofNat 8 v) }
  | _ => j

/-- The element with index t among bytes given by a function (R134; 02_numbers.md R15). -/
def elemOf (f : Fmt) (rd : Nat → Nat) (t : Nat) : Nat :=
  let w := Fmt.bits f
  if w = 4 then rd (t / 2) / 16 ^ (t % 2) % 16
  else (List.range (w / 8)).foldr (fun i a => rd (w / 8 * t + i) + 256 * a) 0

/-- Element t of the registers from a slot on, as its bit pattern. -/
def regElem (j : Job) (r : RegSlot) (f : Fmt) (t : Nat) : Nat := elemOf f (regByte j r) t

/-- Element t set. -/
def setElem (j : Job) (r : RegSlot) (f : Fmt) (t v : Nat) : Job :=
  let w := Fmt.bits f
  if w = 4 then
    let b := regByte j r (t / 2)
    setRegByte j r (t / 2) (if t % 2 = 0 then b / 16 * 16 + v % 16 else b % 16 + v % 16 * 16)
  else (List.range (w / 8)).foldl (fun j i => setRegByte j r (w / 8 * t + i) (v / 256 ^ i % 256)) j

/-- The elements from index t on set. -/
def setElems (j : Job) (r : RegSlot) (f : Fmt) : Nat → List Nat → Job
  | _, [] => j
  | t, v :: vs => setElems (setElem j r f t v) r f (t + 1) vs

/-- The register k places after the one that a slot names lies in the job's allotment (R135, 03_encodings.md R51). -/
def regAllotted (j : Job) (r : RegSlot) (k : Nat) : Bool :=
  match r with
  | .main i => i.val + k < 16 * j.mreg
  | .opnd i => i.val + k < 8 * j.oreg
  | .last i => i.val + k < 4
  | _ => true

/-- A span of n elements of w bits lies in the allotment (R155). -/
def spanAllotted (j : Job) (r : RegSlot) (n w : Nat) : Bool := regAllotted j r 0 && regAllotted j r ((n * w - 1) / 32768)

/-- HANDLE_INVALID for a register slot: TVAL is the slot's value (15_traps.md R319). -/
def slotFault (r : RegSlot) : Cause × Word := (.handleInvalid, r.code.setWidth 64)

/-- The count that a slot gives, with the shape registers read at issue (03_encodings.md R52). -/
def countOf (o : IOp) : Count → Nat
  | .imm n => n.val
  | .shape i => (o.shapes[i]).toNat

/-- The plane origin of LDT, STT and STQ (06_registers.md R154). -/
def planeOf (o : IOp) : Plane → Nat
  | .imm n => n.val
  | .shape i => (o.shapes[i]).toNat

/-! ### Handles (R142 to R151) -/

/-- Handle kinds (R142). -/
inductive HKind where
  | dense | ragged | compressed | nm | window | gather | tree
  deriving DecidableEq, Repr

/-- The kind of a code. -/
def HKind.ofCode (v : Nat) : Option HKind :=
  match v with
  | 0 => some .dense | 1 => some .ragged | 2 => some .compressed | 3 => some .nm | 4 => some .window | 5 => some .gather
  | 6 => some .tree | _ => none

/-- A layout record with its extents resolved. ext is 1 and str is 0 at and beyond the rank. -/
structure Hnd where
  kind : HKind
  spad : Bool
  sib : Bool
  zskip : Bool
  mx : Bool
  fmt : Fmt
  rank : Nat
  base : Nat
  aux1 : Nat
  aux2 : Nat
  ext : List Nat
  str : List Int
  params : Nat
  /-- TVAL of a SHAPE_INVALID for which the spec names none (log entry 13) -/
  free : Word
  deriving DecidableEq, Repr

/-- The n bytes of a record at offset k, as a number. -/
def recField (h : Layout) (k n : Nat) : Nat := (bits h (8 * k) (8 * n)).toNat

/-- The extent that a specifier gives (R142). -/
def extentOf (o : IOp) (v : Nat) : Nat := if v < 32768 then v else (o.shapes.toList.getD (v % 32) 0).toNat

/-- Extent of dimension d. -/
def Hnd.dim (h : Hnd) (d : Nat) : Nat := h.ext.getD d 1
/-- Stride of dimension d. -/
def Hnd.stride (h : Hnd) (d : Nat) : Int := h.str.getD d 0

/-- N, M and log2 M of an NM handle (R147). -/
def Hnd.nmN (h : Hnd) : Nat := h.params % 16
def Hnd.nmM (h : Hnd) : Nat := h.params / 16 % 16
def Hnd.nmLog (h : Hnd) : Nat := h.nmM.log2

/-- The record as an operation reads it; fields that its checks refuse take any value. -/
def handleOf (o : IOp) (h : Layout) : Hnd :=
  let fl := recField h 1 1
  let rank := recField h 3 1 % 8
  { kind := (HKind.ofCode (recField h 0 1)).getD .dense
    spad := fl % 2 == 1, sib := fl / 2 % 2 == 1, zskip := fl / 4 % 2 == 1, mx := fl / 8 % 2 == 1
    fmt := (Fmt.ofCode (bits h 16 4)).getD .fp32
    rank, base := recField h 8 8, aux1 := recField h 16 8, aux2 := recField h 24 8
    ext := (List.range 4).map fun d => if d < rank then extentOf o (recField h (32 + 2 * d) 2) else 1
    str := (List.range 4).map fun d => if d < rank then sint 32 (recField h (40 + 4 * d) 4) else 0
    params := recField h 56 4, free := Config.shapeVal h }

/-- What an operation accepts of a handle (R151, 09_matrix.md R212). -/
structure Accept where
  kinds : List HKind
  fmts : Fmt → Bool
  needSpad : Bool
  needSib : Bool
  align : Nat
  rowsOnly : Bool
  /-- neither ZSKIP nor MX may be set (09_matrix.md R212) -/
  plain : Bool

/-- Kinds and formats alone. -/
def accepts (kinds : List HKind) (fmts : Fmt → Bool) : Accept :=
  { kinds, fmts, needSpad := false, needSib := false, align := 1, rowsOnly := false, plain := false }

/-- A format that MX allows (R142). -/
def mxAllowed (f : Fmt) : Bool := f == .mxint8 || f == .e4m3 || f == .e5m2 || f == .int8

/-- The ranks a kind allows (R146, R148 to R150). -/
def rankOk (k : HKind) (r : Nat) : Bool :=
  match k with
  | .compressed | .window | .gather => r == 2
  | .tree => r == 1
  | _ => 1 ≤ r && r ≤ 4

/-- A stride breaks R144, R146, R147 or R148. -/
def strideBad (h : Hnd) (d : Nat) : Bool :=
  let v := h.stride d
  let step : Int := if h.fmt.isBlock || h.mx then 32 else if h.fmt == .int4 then 2 else 1
  match h.kind with
  | .compressed | .window => v != 0
  | _ =>
    (1 < step && (if d = 0 then v != 1 else v % step != 0)) ||
      (h.kind == .nm && (if d = 0 then v != 1 else v % (h.nmM : Int) != 0))

/-- PARAMS breaks its kind's rule (R142, R145, R147, R150). -/
def paramsBad (h : Hnd) (a : Accept) : Bool :=
  let p := h.params
  match h.kind with
  | .dense | .compressed | .window => p != 0
  | .ragged => p / 4 % 64 != 0 || 8192 ≤ p || h.rank ≤ p % 4 || (a.rowsOnly && p % 4 != 1)
  | .nm => !(p == 0x42 || p == 0x41 || p == 0x84)
  | .gather => false
  | .tree => p == 0 || 8 < p

/-- The offset of the first field that a check of R143 fails; none: the handle passes. Format code 5 passes whatever the version of the image,
for R63 reserves it in version 1 without saying what a record that holds it does (DESIGN CHOICE, log entry 63). -/
def handleBad (o : IOp) (r : Layout) (a : Accept) : Option Nat :=
  let h := handleOf o r
  let fl := recField r 1 1
  let fmtOk := recField r 2 1 % 16 < 15
  let far := fun v => h.spad && 2 ^ 24 ≤ v
  let fields : List (Nat × Bool) :=
    [ (0, 6 < recField r 0 1 || !a.kinds.contains h.kind),
      (1, 16 ≤ fl || ((h.sib || h.zskip) && !h.spad) || (h.mx && (!fmtOk || !mxAllowed h.fmt || h.kind == .compressed)) ||
        (fmtOk && h.fmt == .mxint8 && !h.mx) || (a.needSpad && !h.spad) || (a.needSib && !h.sib) ||
        (a.plain && (h.zskip || h.mx))),
      (2, 15 ≤ recField r 2 1 || !a.fmts h.fmt || (h.kind == .compressed && h.fmt.isBlock)),
      (3, 8 ≤ recField r 3 1 || !rankOk h.kind h.rank),
      (4, recField r 4 4 != 0),
      (8, far h.base || h.base % a.align != 0),
      (16, far h.aux1),
      (24, far h.aux2) ] ++
    ((List.range 4).map fun d =>
      let v := recField r (32 + 2 * d) 2
      (32 + 2 * d, if d < h.rank then 32768 ≤ v && v % 32768 / 32 != 0 else v != 0)) ++
    ((List.range 4).map fun d =>
      (40 + 4 * d, if d < h.rank then strideBad h d else recField r (40 + 4 * d) 4 != 0)) ++
    [ (56, paramsBad h a), (60, recField r 60 4 != 0) ]
  (fields.find? Prod.snd).map Prod.fst

/-- First byte of an element, with its nibble: 0 or 1, or 2 for whole bytes (R144). -/
def elemByte (h : Hnd) (e : Int) : Int × Nat :=
  match h.fmt with
  | .e2m1s => (h.base + 18 * (e / 32) + e % 32 / 2, (e % 2).toNat)
  | .int4 => (h.base + e / 2, (e % 2).toNat)
  | f => (h.base + (Fmt.bits f / 8 : Nat) * e, 2)

/-- The check of handle n at issue (R143). -/
def handleCheck (o : IOp) (n : Fin 16) (a : Accept) : Option (Cause × Word) :=
  match handleBad o o.handles[n] a with
  | some k => some (.handleInvalid, BitVec.ofNat 64 (256 * k + n.val))
  | none => none

/-! ### Reading through a handle (R144 to R152) -/

/-- Where a byte that a handle names lies: an offset of the job's scratchpad with SPAD, else a virtual address. -/
def hndLoc (h : Hnd) (job : Nat) (a : Int) : Loc :=
  if h.spad then .off (BitVec.ofInt 64 a).toNat job else .va (BitVec.ofInt 64 a)

/-- Vectors that an operation has read, each by its place and length. -/
abbrev Vecs := List ((Nat × Nat) × List Byte)

/-- The key of n bytes at an address of a handle's vector. -/
def vecKey (h : Hnd) (a : Int) (n : Nat) : Nat × Nat := (2 * (BitVec.ofInt 64 a).toNat + (if h.spad then 1 else 0), n)

/-- Bytes of a vector that a handle points to, never substituted: as the operation has read them, else as they stand (R152). -/
def vecBytes (s : State) (p : Party) (o : IOp) (h : Hnd) (a : Int) (n : Nat) : Except Stop (List Byte) :=
  match o.vecs.find? fun v => v.1 == vecKey h a n with
  | some v => .ok v.2
  | none => readExact s p .read (hndLoc h p.job a) n

/-- The same bytes as something that an operation has read; nothing where they cannot be read now. -/
def readVec (s : State) (p : Party) (o : IOp) (h : Hnd) (a : Int) (n : Nat) : Vecs :=
  match vecBytes s p o h a n with
  | .ok b => [(vecKey h a n, b)]
  | .error _ => []

/-- Signed 32-bit entry k of such a vector. -/
def vecInt (s : State) (p : Party) (o : IOp) (h : Hnd) (base : Nat) (k : Int) : Except Stop Int :=
  match vecBytes s p o h (base + 4 * k) 4 with
  | .error e => .error e
  | .ok b => .ok (sint 32 (leNat b))

/-- The n entries from entry k on. -/
def vecInts (s : State) (p : Party) (o : IOp) (h : Hnd) (base : Nat) : Int → Nat → Except Stop (List Int)
  | _, 0 => .ok []
  | k, n + 1 =>
    match vecInt s p o h base k, vecInts s p o h base (k + 1) n with
    | .error e, _ | .ok _, .error e => .error e
    | .ok v, .ok vs => .ok (v :: vs)

/-- SHAPE_INVALID raised as an operation reads a vector. -/
def shapeStop {α : Type} (v : Int) : Except Stop α := .error (.trap .shapeInvalid (BitVec.ofInt 64 v))

/-- The offsets of a RAGGED handle (R145): c + 1 of them, checked. -/
def segOffsets (s : State) (p : Party) (o : IOp) (h : Hnd) : Except Stop (List Int) :=
  let c := (o.shapes.toList.getD (h.params / 256 % 32) 0).toNat
  if 65535 < c then shapeStop c
  else
    match vecBytes s p o h h.aux1 (4 * (c + 1)) with
    | .error e => .error e
    | .ok b =>
      let off := (List.range (c + 1)).map fun k => sint 32 (leNat ((b.drop (4 * k)).take 4))
      if off.headD 0 < 0 then shapeStop 0
      else
        match firstBelow c fun k => off.getD (k + 1) 0 < off.getD k 0 with
        | some k => shapeStop k
        | none => .ok off

/-- Tag and position of an index in the segments of these offsets; none outside every segment (R145, 09_matrix.md R214). -/
def segOf (off : List Int) (i : Int) : Option (Nat × Int) :=
  (firstBelow (off.length - 1) fun k => off.getD k 0 ≤ i && i < off.getD (k + 1) 0).map fun k =>
    (k % 256, i - off.getD k 0)

/-- The columns of row i of a COMPRESSED handle with the number of its first entry (R146). A descending row pointer raises with the entry
that it names (log entry 13); a negative column counts as one at or above EXT0 (DESIGN CHOICE, log entry 63). -/
def rowColumns (s : State) (p : Party) (o : IOp) (h : Hnd) (i : Nat) : Except Stop (Int × List Int) :=
  match vecInt s p o h h.aux1 i, vecInt s p o h h.aux1 (i + 1) with
  | .error e, _ | _, .error e => .error e
  | .ok a, .ok b =>
    if b < a then shapeStop b
    else
      match vecInts s p o h h.aux2 a (b - a).toNat with
      | .error e => .error e
      | .ok cs =>
        match firstBelow cs.length fun k =>
            (cs.getD k 0) % 2 ^ 32 ≥ (h.dim 0 : Int) || (cs.take k).contains (cs.getD k 0) with
        | some k => shapeStop (a + k)
        | none => .ok (a, cs)

/-- The positions that the slots of a group of an NM handle name (R147). -/
def groupSlots (s : State) (p : Party) (o : IOp) (h : Hnd) (g : Int) : Except Stop (List Nat) :=
  let b : Nat := h.nmN * h.nmLog
  let first := g * b
  let byte := first / 8
  match vecBytes s p o h (h.aux1 + byte) ((first - 8 * byte + b + 7) / 8).toNat with
  | .error e => .error e
  | .ok d =>
    let v := leNat d / 2 ^ (first - 8 * byte).toNat
    let l := (List.range h.nmN).map fun k => v / 2 ^ (k * h.nmLog) % h.nmM
    if (List.range (h.nmN - 1)).all fun k => l.getD k 0 < l.getD (k + 1) 0 then .ok l else shapeStop g

/-- The counters of a WINDOW descriptor (R148): extent and stride of each, and the number that form the lane. -/
structure WindowDesc where
  nk : Nat
  counters : List (Nat × Int)
  deriving DecidableEq, Repr

/-- The digits of a number in mixed radix, the first counter fastest, times the strides. -/
def mixedSum : Nat → List (Nat × Int) → Int
  | _, [] => 0
  | v, (n, st) :: r => (v % n : Nat) * st + mixedSum (v / n) r

/-- The descriptor of a WINDOW handle, checked (R148; TVAL: log entry 13). -/
def windowOf (s : State) (p : Party) (o : IOp) (h : Hnd) : Except Stop WindowDesc :=
  match vecBytes s p o h h.aux1 64 with
  | .error e => .error e
  | .ok b =>
    let fld := fun k n => leNat ((b.drop k).take n)
    let nk := fld 0 1
    let nc := fld 1 1
    let ctr := (List.range 6).map fun c => (extentOf o (fld (8 + 8 * c) 2), sint 32 (fld (12 + 8 * c) 4))
    let raw := fun c => fld (8 + 8 * c) 2
    let bad :=
      nk = 0 || 5 < nk || nc ≤ nk || 6 < nc || fld 2 6 != 0 || fld 56 8 != 0 ||
      ((List.range 6).any fun c =>
        fld (10 + 8 * c) 2 != 0 ||
          (if c < nc then raw c = 0 || (32768 ≤ raw c && raw c % 32768 / 32 != 0) || (ctr.getD c (0, 0)).1 = 0
          else raw c != 0)) ||
      (h.fmt.isBlock && ((ctr.getD 0 (0, 0)).2 != 1 || (ctr.getD 0 (0, 0)).1 % 32 != 0))
    let counters := ctr.take nc
    let lanes := ((counters.take nk).map Prod.fst).prod
    let rows := ((counters.drop nk).map Prod.fst).prod
    if bad || lanes < h.dim 0 || rows < h.dim 1 then .error (.trap .shapeInvalid h.free) else .ok { nk, counters }

/-- A position of a handle: its index in each dimension. -/
structure Pos where
  i0 : Nat
  i1 : Nat
  i2 : Nat
  i3 : Nat
  deriving DecidableEq, Repr

/-- The position lies in the extents. -/
def Pos.within (q : Pos) (h : Hnd) : Bool := q.i0 < h.dim 0 && q.i1 < h.dim 1 && q.i2 < h.dim 2 && q.i3 < h.dim 3

/-- Σ index × stride. -/
def Pos.number (q : Pos) (h : Hnd) : Int :=
  q.i0 * h.stride 0 + q.i1 * h.stride 1 + q.i2 * h.stride 2 + q.i3 * h.stride 3

/-- The number of the element at a position; none where it is absent or pruned (R144 to R150). -/
def elemAt (s : State) (p : Party) (o : IOp) (h : Hnd) (q : Pos) : Except Stop (Option Int) :=
  if !q.within h then .ok none
  else
    match h.kind with
    | .dense | .ragged | .tree => .ok (some (q.number h))
    | .compressed =>
      match rowColumns s p o h q.i1 with
      | .error e => .error e
      | .ok (a, cs) => .ok ((firstBelow cs.length fun k => cs.getD k 0 == (q.i0 : Int)).map fun k => a + k)
    | .nm =>
      let e := q.number h
      let g := e / h.nmM
      match groupSlots s p o h g with
      | .error x => .error x
      | .ok l => .ok ((firstBelow h.nmN fun k => l.getD k 0 == (e % h.nmM).toNat).map fun k => g * h.nmN + k)
    | .window =>
      match windowOf s p o h with
      | .error e => .error e
      | .ok w => .ok (some (mixedSum q.i0 (w.counters.take w.nk) + mixedSum q.i1 (w.counters.drop w.nk)))
    | .gather =>
      match vecInt s p o h h.aux1 q.i1 with
      | .error e => .error e
      | .ok v =>
        let idx := v % 2 ^ 32
        if idx = 2 ^ 32 - 1 then .ok none
        else if h.params != 0 && (h.params : Int) ≤ idx then shapeStop q.i1
        else .ok (some (idx * h.stride 1 + q.i0 * h.stride 0))

/-- The metadata of group g of an NM handle, as groupSlots reads it: its place and length. -/
def groupAt (h : Hnd) (g : Int) : Int × Nat :=
  let b : Nat := h.nmN * h.nmLog
  let first := g * b
  (h.aux1 + first / 8, ((first - 8 * (first / 8) + b + 7) / 8).toNat)

/-- That metadata as something that an operation has read. -/
def groupVec (s : State) (p : Party) (o : IOp) (h : Hnd) (g : Int) : Vecs := readVec s p o h (groupAt h g).1 (groupAt h g).2

/-- The vectors that elemAt reads for a position. -/
def posVecs (s : State) (p : Party) (o : IOp) (h : Hnd) (q : Pos) : Vecs :=
  if !q.within h then []
  else
    match h.kind with
    | .dense | .ragged | .tree => []
    | .compressed =>
      readVec s p o h (h.aux1 + 4 * q.i1) 4 ++ (readVec s p o h (h.aux1 + 4 * (q.i1 + 1)) 4 ++
        match vecInt s p o h h.aux1 q.i1, vecInt s p o h h.aux1 (q.i1 + 1) with
        | .ok a, .ok b => (List.range (b - a).toNat).flatMap fun k => readVec s p o h (h.aux2 + 4 * (a + k)) 4
        | _, _ => [])
    | .nm => groupVec s p o h (q.number h / h.nmM)
    | .window => readVec s p o h h.aux1 64
    | .gather => readVec s p o h (h.aux1 + 4 * q.i1) 4

/-- The offsets that a RAGGED handle gives tags by. -/
def tagVecs (s : State) (p : Party) (o : IOp) (h : Hnd) : Vecs :=
  let c := (o.shapes.toList.getD (h.params / 256 % 32) 0).toNat
  if h.kind == .ragged && c ≤ 65535 then readVec s p o h h.aux1 (4 * (c + 1)) else []

/-- Vectors kept with what an operation has read; the first read of each counts (R152). -/
def IOp.keep (o : IOp) (l : Vecs) : IOp :=
  { o with vecs := l.foldl (fun v x => if v.any fun y => y.1 == x.1 then v else v ++ [x]) o.vecs }

/-! ### The sibling window (R142) -/

/-- The least and the greatest of two ranges together; none is empty. -/
def joinRange : Option (Int × Int) → Option (Int × Int) → Option (Int × Int)
  | none, r | r, none => r
  | some (a, b), some (c, d) => some (min a c, max b d)

/-- Sum of the smallest and of the largest terms that the dimensions give to an element number; none for an empty tensor. -/
def elemRange (h : Hnd) : Option (Int × Int) :=
  if (List.range h.rank).any fun d => h.dim d = 0 then none
  else
    let terms := (List.range h.rank).map fun d => h.stride d * ((h.dim d : Int) - 1)
    some ((terms.map fun t => min 0 t).sum, (terms.map fun t => max 0 t).sum)

/-- The range of the sums of digits times strides over the first n numbers in mixed radix. -/
def mixedRange : List (Nat × Int) → Nat → Option (Int × Int)
  | [], n => if n = 0 then none else some (0, 0)
  | (c, st) :: r, n =>
    let digits := fun (d : Nat) => if d = 0 then none else some (min 0 (st * (d - 1)), max 0 (st * (d - 1)))
    let plus := fun (x y : Option (Int × Int)) => match x, y with | some (a, b), some (c, d) => some (a + c, b + d) | _, _ => none
    let last := mixedSum (n / c) r
    joinRange (plus (digits c) (mixedRange r (n / c))) (plus (digits (n % c)) (some (last, last)))

/-- The stored numbers of the present slots of group g of an NM handle, whose positions lie below lim. -/
def groupRange (s : State) (p : Party) (o : IOp) (h : Hnd) (g lim : Int) : Option (Int × Int) :=
  match groupSlots s p o h g with
  | .error _ => none
  | .ok l =>
    (List.range l.length).foldl (fun r k =>
      if g * h.nmM + l.getD k 0 < lim then joinRange r (some (g * h.nmN + k, g * h.nmN + k)) else r) none

/-- The element numbers at which the rows of a handle begin: index 0 of dimension 0, at every index of the others. -/
def rowBases (h : Hnd) : List Int :=
  (List.range (h.dim 1)).flatMap fun i => (List.range (h.dim 2)).flatMap fun j => (List.range (h.dim 3)).map fun k =>
    i * h.stride 1 + j * h.stride 2 + k * h.stride 3

/-- The groups of an NM handle, for a range of element numbers, that decide its least and its greatest stored number, each with the number
that its row's positions lie below (R147). Every group but the last of a row holds all its slots; a row shorter than a group has only the
slots that name a position in it, so that each such row counts. -/
def endGroups (h : Hnd) (r : Int × Int) : List (Int × Int) :=
  let n : Int := h.dim 0
  if n < h.nmM then (rowBases h).map fun b => (b / h.nmM, b + n)
  else
    let last := r.2 / h.nmM
    [(r.1 / h.nmM, r.1 + n), (last, r.2 + 1)] ++ if (r.2 + 1 - n) / h.nmM < last then [(last - 1, r.2 + 1)] else []

/-- The range of the element numbers that a handle's elements have, by its kind; its vectors can be read. -/
def numberRange (s : State) (p : Party) (o : IOp) (h : Hnd) : Option (Int × Int) :=
  match elemRange h, h.kind with
  | none, _ => none
  | some r, .dense | some r, .ragged | some r, .tree => some r
  | some _, .compressed =>
    match vecInt s p o h h.aux1 0, vecInt s p o h h.aux1 (h.dim 1) with
    | .ok a, .ok b => if a < b then some (a, b - 1) else none
    | _, _ => none
  | some r, .nm => (endGroups h r).foldl (fun r g => joinRange r (groupRange s p o h g.1 g.2)) none
  | some _, .window =>
    match windowOf s p o h with
    | .error _ => none
    | .ok w =>
      match mixedRange (w.counters.take w.nk) (h.dim 0), mixedRange (w.counters.drop w.nk) (h.dim 1) with
      | some (a, b), some (c, d) => some (a + c, b + d)
      | _, _ => none
  | some _, .gather =>
    let w := h.stride 0 * ((h.dim 0 : Int) - 1)
    (List.range (h.dim 1)).foldl (fun r i =>
      match vecInt s p o h h.aux1 i with
      | .error _ => r
      | .ok v =>
        let idx := v % 2 ^ 32
        if idx = 2 ^ 32 - 1 || (h.params != 0 && (h.params : Int) ≤ idx) then r
        else joinRange r (some (idx * h.stride 1 + min 0 w, idx * h.stride 1 + max 0 w))) none

/-- The vectors that numberRange reads, each by its place and length; none of a handle without elements. -/
def rangeReads (h : Hnd) : List (Int × Nat) :=
  match elemRange h, h.kind with
  | none, _ | some _, .dense | some _, .ragged | some _, .tree => []
  | some _, .compressed => [(h.aux1, 4), (h.aux1 + 4 * h.dim 1, 4)]
  | some r, .nm => (endGroups h r).map fun g => groupAt h g.1
  | some _, .window => [(h.aux1, 64)]
  | some _, .gather => (List.range (h.dim 1)).map fun i => (h.aux1 + 4 * i, 4)

/-- Them as they are read. -/
def rangeVecs (s : State) (p : Party) (o : IOp) (h : Hnd) : Vecs := (rangeReads h).flatMap fun v => readVec s p o h v.1 v.2

/-- What stops the read of the first of them that cannot be read. -/
def rangeStop (s : State) (p : Party) (o : IOp) (h : Hnd) : Option Stop :=
  (rangeReads h).findSome? fun v => stopOf (vecBytes s p o h v.1 v.2)

/-- SPAD_BOUNDS with the first offset of a SIB handle that lies outside the sibling window. -/
def sibBad (s : State) (p : Party) (o : IOp) (h : Hnd) : Option Stop :=
  match numberRange s p o h with
  | none => none
  | some (lo, hi) =>
    let first := (elemByte h lo).1
    let last : Int := if h.fmt == .e2m1s then h.base + 18 * (hi / 32) + 17 else (elemByte h hi).1 + (max 1 (Fmt.bits h.fmt / 8) : Nat) - 1
    if first < 0x700000 then some (.trap .spadBounds (BitVec.ofInt 64 first))
    else if 0x800000 ≤ last then some (.trap .spadBounds (BitVec.ofInt 64 last))
    else none

/-! ### Elements in memory (R144, R155, R161, R162) -/

/-- Data bytes of a handle as a number, and whether a poisoned line was substituted. -/
def dataNat (s : State) (p : Party) (h : Hnd) (a : Int) (n : Nat) : Except Stop (Nat × Bool) :=
  match readData s p (hndLoc h p.job a) n none with
  | .error e => .error e
  | .ok l => .ok (leNat (l.map Prod.fst), l.any Prod.snd)

/-- The bit pattern of element e; a substituted one is zero and marked. -/
def elemBits (s : State) (p : Party) (h : Hnd) (e : Int) : Except Stop (Nat × Bool) :=
  let (a, nib) := elemByte h e
  match dataNat s p h a (if nib < 2 then 1 else Fmt.bits h.fmt / 8) with
  | .error x => .error x
  | .ok (v, bad) => .ok (if bad then 0 else if nib < 2 then v / 16 ^ nib % 16 else v, bad)

/-- The scale byte of element e (R144). -/
def scaleAddr (h : Hnd) (e : Int) : Int :=
  if h.fmt == .e2m1s then h.base + 18 * (e / 32) + 16 else h.aux2 + e / 32

/-- The scale of element e of a handle, with a mark where a poisoned line was substituted: one that AUX2 points to as the operation has read
it, if it has (R152). -/
def scaleData (s : State) (p : Party) (o : IOp) (h : Hnd) (e : Int) : Except Stop (Nat × Bool) :=
  match (if h.fmt == .e2m1s then none else o.vecs.find? fun v => v.1 == vecKey h (scaleAddr h e) 0) with
  | some v => .ok ((v.2.headD 0).toNat, v.2.isEmpty)
  | none => dataNat s p h (scaleAddr h e) 1

/-- That scale as something that an operation has read: no byte where it was substituted. -/
def scaleVec (s : State) (p : Party) (o : IOp) (h : Hnd) (e : Except Stop (Option Int)) : Vecs :=
  match e with
  | .ok (some e) =>
    match scaleData s p o h e with
    | .ok (v, bad) => if h.fmt == .mxint8 then [(vecKey h (scaleAddr h e) 0, if bad then [] else [BitVec.ofNat 8 v])] else []
    | .error _ => []
  | _ => []

/-- The value of an E8M0 scale: the exponent, or none for NaN (02_numbers.md R19). -/
def scaleExp (c : Nat) : Option Int := if c % 256 = 255 then none else some ((c % 256 : Nat) - 127)

/-- The grid of E2M1S, doubled (02_numbers.md R20). -/
def gridHalves (c : Nat) : Nat := match c % 8 with | 0 => 0 | 1 => 1 | 2 => 2 | 3 => 3 | 4 => 4 | 5 => 6 | 6 => 8 | _ => 12

/-- The unscaled element of an E2M1S code with its block's special byte (R20). -/
def e2m1sElem (code special : Nat) : Num :=
  if code % 16 = 8 then (if special % 256 = 0 then .zero false else numOf .e4m3 special)
  else if gridHalves code = 0 then .zero false
  else .fin (8 ≤ code % 16) (gridHalves code) (-1)

/-- A value times an E8M0 scale. -/
def scaled (x : Num) (c : Nat) : Num :=
  match scaleExp c with
  | none => .nan
  | some k => x.scale k

/-- The unscaled value of element e of a handle, as the matrix array reads it (09_matrix.md R219); the special byte of an E2M1S
block is read with code 8. -/
def elemUnscaled (s : State) (p : Party) (h : Hnd) (e : Int) : Except Stop (Num × Bool) :=
  match elemBits s p h e with
  | .error x => .error x
  | .ok (v, bad) =>
    if bad then .ok (.zero false, true)
    else if h.fmt == .e2m1s then
      if v = 8 then
        match dataNat s p h (scaleAddr h e + 1) 1 with
        | .error x => .error x
        | .ok (sp, b) => .ok (if b then .zero false else e2m1sElem 8 sp, b)
      else .ok (e2m1sElem v 0, false)
    else .ok (numOf h.fmt v, false)

/-- The value of element e of a block format, scale included (02_numbers.md R20, R21). -/
def elemScaled (s : State) (p : Party) (o : IOp) (h : Hnd) (e : Int) : Except Stop (Num × Bool) :=
  match elemUnscaled s p h e, scaleData s p o h e with
  | .error x, _ | _, .error x => .error x
  | .ok (x, b), .ok (c, b') => .ok (if b || b' then (.zero false, true) else (scaled x c, false))

/-- A value converted to a format (R25, R26, R28). -/
def convertNum (df : Fmt) (mode : RMode) (sat : Bool) (rnd : Nat) (x : Num) : Nat × Flags :=
  if Fmt.isFloat df then roundNum df mode sat rnd x
  else if df == .e8m0 then toE8m0 x
  else toInt df mode rnd x

/-- Bytes written to where a handle places them. -/
def putData (s : State) (p : Party) (h : Hnd) (a : Int) (d : List Byte) : Except Stop State :=
  writeBytes s p (hndLoc h p.job a) d

/-- One nibble of a byte written, the other kept, as one indivisible read-modify-write; at another device it is one request (R161). A
poisoned byte is written as it stands, and its line stays poisoned (R162). -/
def putNibble (s : State) (p : Party) (h : Hnd) (a : Int) (nib v : Nat) : Except Stop State :=
  let l := hndLoc h p.job a
  match locate s p .write l 1 with
  | .error e => .error e
  | .ok (.remote dev ddr pa pol, _) =>
    match answerTo s p (request s p (.nibble (nib != 0) (BitVec.ofNat 4 v)) dev ddr pa 1 pol) l.word l.line with
    | .error e => .error e
    | .ok _ => .ok (takeStores s p.unit)
  | .ok (.here sp b _, owner) =>
    let q := readPlace s sp b owner
    let old := (getByte s q.1 q.2).toNat
    .ok (storeLine s sp b owner [BitVec.ofNat 8 (if nib = 0 then old / 16 * 16 + v % 16 else old % 16 + v % 16 * 16)] false)

/-- Element e written as a bit pattern. -/
def putElem (s : State) (p : Party) (h : Hnd) (e : Int) (v : Nat) : Except Stop State :=
  let (a, nib) := elemByte h e
  if nib < 2 then putNibble s p h a nib v else putData s p h a (leBytes (Fmt.bits h.fmt / 8) v)

end Sys2Proof.Machine
end

