-- ==== Sys2Proof/Machine/Spool.lean ====
section
/-! DEFINITION. The spool and the basting pairs of a job (10_scratchpad.md R234 to R243). -/

namespace Sys2Proof.Machine

/-! ### The spool (R234 to R238) -/

/-- The largest size of an allocation. -/
def spoolMax : Nat := 0x800000

/-- Entries of LIVE and of PEND. -/
def liveSlots : Nat := 64
def pendSlots : Nat := 32

/-- A size rounded up to lines. -/
def roundLine (n : Nat) : Nat := (n + 63) / 64 * 64

/-- RLOW: the least lo of the ring allocations, or SPLIM. -/
def ringLow (splim : Nat) (l : List Ring) : Nat := l.foldl (fun m r => min m r.lo) splim

/-- LIVE once every freed prefix is released. -/
def afterFrees (l : List Ring) : List Ring := l.dropWhile Ring.freed

def execSpa (d a : Reg) (s : State) : Result :=
  let v := getX s a
  let j := s.job
  let z := roundLine v.toNat
  let top := j.spbump.toNat + z
  if spoolMax < v.toNat then .next (raise s .spoolExhausted v)
  else if top ≤ ringLow j.splim.toNat j.rings then
    .next (retireX { s with job := { j with spbump := BitVec.ofNat 24 top } } d (j.spbump.setWidth 64))
  else if top ≤ ringLow j.splim.toNat (afterFrees j.rings) then .next (hold s .blocked)
  else .next (raise s .spoolExhausted v)

def execSprst (a : Reg) (s : State) : Result :=
  let m := getX s a
  if m.toNat % 64 ≠ 0 || m.toNat < s.job.spbase.toNat || s.job.spbump.toNat < m.toNat then .next (raise s .spadBounds m)
  else .next (advance { s with job := { s.job with spbump := bits m 0 24 } })

/-- Where a ring allocation of z bytes goes; none while it does not fit (R236). -/
def ringFit (splim spbump sphead : Nat) (l : List Ring) (z : Nat) : Option Nat :=
  let head := if l.isEmpty then splim else sphead
  match l.head? with
  | none => if spbump + z ≤ head then some (head - z) else none
  | some o =>
    let wrapped := o.hi ≤ head && 1 < l.length
    let floor := if wrapped then o.hi else spbump
    if liveSlots ≤ l.length then none
    else if floor + z ≤ head then some (head - z)
    else if !wrapped && o.hi + z ≤ splim && spbump + z ≤ splim then some (splim - z)
    else none

/-- A new ring allocation. -/
def newRing (lo z : Nat) : Ring := { lo, hi := lo + z, freed := false, ld := false, mx := false, vx := false, st := false }

def execSpra (d a : Reg) (s : State) : Result :=
  let v := getX s a
  let j := s.job
  let z := roundLine v.toNat
  let fit := fun l => ringFit j.splim.toNat j.spbump.toNat j.sphead.toNat l z
  if spoolMax < v.toNat then .next (raise s .spoolExhausted v)
  else if z = 0 then .next (retireX s d (j.sphead.setWidth 64))
  else
    match fit j.rings, fit (afterFrees j.rings) with
    | some lo, _ =>
      .next (retireX { s with job := { j with rings := j.rings ++ [newRing lo z], sphead := BitVec.ofNat 24 lo } } d
        (BitVec.ofNat 64 lo))
    | none, some _ => .next (hold s .blocked)
    | none, none => .next (raise s .spoolExhausted v)

/-- The entry of LIVE that SPF of offset v frees. -/
def Job.freeable (j : Job) (v : Word) : Option Ring := j.rings.find? fun r => r.lo == v.toNat && !r.freed

def execSpf (a : Reg) (s : State) : Result :=
  let v := getX s a
  let j := s.job
  match j.freeable v with
  | none => .next (raise s .spadBounds v)
  | some r =>
    let oldest := j.rings.head? == some r
    if !oldest && pendSlots ≤ j.pend.length then .next (raise s .spoolExhausted v)
    else if !j.allRoom then .next (hold s (.qstall Machine.engines))
    else
      let j := { j with
        rings := j.rings.map fun x => if x == r then { r with freed := true } else x
        pend := if oldest then j.pend else j.pend ++ [v.toNat] }
      .next (advance { s with job := j.enqueueAll (.spf v.toNat j.itag) })

/-- An engine has passed the marker of the allocation at lo (R237). -/
def Ring.pass (e : Engine) (lo : Nat) (r : Ring) : Ring :=
  if r.lo == lo && r.freed then
    match e with
    | .ld => { r with ld := true } | .mx => { r with mx := true } | .vx => { r with vx := true } | .st => { r with st := true }
  else r

/-- The allocation may leave LIVE when it is the oldest: freed, passed by all four engines, and no pending store of the control
stream goes to its bytes. -/
def Job.releasable (j : Job) (r : Ring) : Bool :=
  r.freed && r.ld && r.mx && r.vx && r.st &&
    !j.stores.any fun p =>
      match p with
      | .store _ _ _ (some (k, o)) d => k == j.id && overlap o d.length r.lo (r.hi - r.lo) != 0
      | .store _ _ _ none _ => false
      | .fence _ => false

/-- The oldest allocations released while they may be. -/
def Job.release (j : Job) : Job :=
  let l := j.rings.dropWhile j.releasable
  let gone := j.rings.takeWhile j.releasable
  { j with
    rings := l
    pend := j.pend.filter fun v => !gone.any fun r => r.lo == v
    sphead := if l.isEmpty && !gone.isEmpty then j.splim else j.sphead }

def execSpoolRelease (job : Nat) (s : State) : Result := .next (updJob s job Job.release)

/-! ### Basting (R240 to R243) -/

/-- A pair record as read: base, shadow, bytes and the reserved word. -/
structure PairRec where
  base : Nat
  shadow : Nat
  bytes : Nat
  rest : Nat
  deriving DecidableEq, Repr

/-- The fields of a pair record. -/
def pairRec (b : List Byte) : PairRec :=
  { base := leNat (b.take 4), shadow := leNat ((b.drop 4).take 4), bytes := leNat ((b.drop 8).take 4), rest := leNat (b.drop 12) }

/-- The region lies inside the job's region. -/
def Job.contains (j : Job) (o n : Nat) : Bool := j.spbase.toNat ≤ o && o + n ≤ j.splim.toNat

/-- The record may bind pair p (R240). -/
def Job.mayBind (j : Job) (p : Fin 4) (r : PairRec) : Bool :=
  r.base % 64 == 0 && r.shadow % 64 == 0 && r.bytes % 64 == 0 && 64 ≤ r.bytes && r.bytes ≤ 0x400000 && r.rest == 0 &&
    j.contains r.base r.bytes && j.contains r.shadow r.bytes && overlap r.base r.bytes r.shadow r.bytes == 0 &&
    (List.finRange 4).all fun k =>
      let q := j.pairs[k]
      k == p || !q.bound ||
        (overlap r.base r.bytes q.base q.bytes == 0 && overlap r.base r.bytes q.shadow q.bytes == 0 &&
          overlap r.shadow r.bytes q.base q.bytes == 0 && overlap r.shadow r.bytes q.shadow q.bytes == 0)

/-- BASTING_MISUSE of pair p. -/
def bastingMisuse (s : State) (p : Fin 4) : State := raise s .bastingMisuse (BitVec.ofNat 64 p.val)

/-- Replace pair p of the focused job. -/
def putPair (s : State) (p : Fin 4) (q : Pair) : State := { s with job := { s.job with pairs := s.job.pairs.set p q } }

/-- The record is read at every SPECB; the first one binds the pair. What is pending for the job's scratchpad performs first, since the lines
change their copies at this moment (R242), and so does what precedes a load of class 0 (14_ordering.md R307). -/
def execSpecb (p : Fin 4) (s : State) : Result :=
  let q := s.job.pairs[p]
  let o := s.job.spbase.toNat + 16 * p.val
  if q.active then .next (bastingMisuse s p)
  else
    let s := drainLoad (settleInto s s.job.id) 0 (.off o s.job.id) 16
    .next (withAccess s (readExact s (ctlParty s 0) .read (.off o s.job.id) 16) fun b =>
      let r := pairRec b
      if q.bound then
        if r.base == q.base && r.shadow == q.shadow && r.bytes == q.bytes && r.rest == 0 then
          advance (putPair s p { q with active := true })
        else bastingMisuse s p
      else if s.job.mayBind p r then
        advance (putPair s p
          { bound := true, base := r.base, shadow := r.shadow, bytes := r.bytes, active := true, cur := [], dirty := [] })
      else bastingMisuse s p)

/-- Clear the zero-map bits of the blocks that hold a dirty line of a pair (R243). -/
def clearDirtyBlocks (s : State) (q : Pair) : State :=
  q.dirty.foldl (fun s e => clearZero s (.spad s.job.core) (q.base + 64 * e.1) 64) s

def execSpecc (p : Fin 4) (s : State) : Result :=
  if !(s.job.pairs[p]).active then .next (bastingMisuse s p)
  else
    let s := settleInto s s.job.id
    let q := s.job.pairs[p]
    let cur := q.dirty.foldl (fun c e => sset c e.1 (sget q.cur e.1 ^^^ sget q.dirty e.1)) q.cur
    .next (advance (putPair (clearDirtyBlocks s q) p { q with cur, dirty := [], active := false }))

def execSpeca (p : Fin 4) (s : State) : Result :=
  if !(s.job.pairs[p]).active then .next (bastingMisuse s p)
  else
    let s := settleInto s s.job.id
    let q := s.job.pairs[p]
    .next (advance (putPair (clearDirtyBlocks s q) p { q with dirty := [], active := false }))

end Sys2Proof.Machine
end

