-- ==== Sys2Proof/Machine/Engine.lean ====
section
/-! DEFINITION. Engine streams: patch words (03_encodings.md R57 to R62), tokens, loops and stage predicates (07_queues.md R169 to R177),
segments (R164), and what becomes of an operation that completes or stops (R170, 06_registers.md R162, 15_traps.md R320). The stream
that a patch word belongs to is the one of the focused job that curEng names. -/

namespace Sys2Proof.Machine

/-! ### The stream that acts -/

/-- An engine stream of the focused job as a party (14_ordering.md R303). -/
def engParty (s : State) (e : Engine) (c : Cls) (sib : Bool := false) : Party :=
  { unit := .eng s.job.id e, job := s.job.id, asid := s.job.asid, core := s.job.core, stream := engineNum e + 1, cls := c,
    aperture := false, sib }

/-- The stream that acts, as it reads its words and patterns. -/
def wordParty (s : State) : Party := { engParty s s.curEng 0 with unit := .words s.job.id s.curEng }

/-- The stream of a patch word. -/
def curStream (s : State) : EngStream := s.job.eng s.curEng

/-- Replace it. -/
def putStream (s : State) (x : EngStream) : State := { s with job := s.job.setEng s.curEng x }

/-- Go on n bytes further in the image (R61). -/
def stepPatch (s : State) (n : Nat) : State := let x := curStream s; putStream s { x with pc := x.pc + n }

/-- A trap of engine e of the focused job with progress, at the stream's word or at its started operation (15_traps.md R320, R321). -/
def engTrap (s : State) (e : Engine) (sib : Bool) (c : Cause) (v prog : Word) (word : Bool := false) : State :=
  deliver s s.job.id { cause := c, val := v, prog, stream := BitVec.ofNat 8 (engineNum e + 1), sib, orig := 0, pc := 0, word }

/-- The stream stops at the word at its PC with a trap (R401, 15_traps.md R320). -/
def streamTrap (s : State) (c : Cause) (v : Word) : State :=
  let s := putStream s { curStream s with halt := .trapped }
  engTrap s s.curEng false c v 0 true

/-- A read of the stream's own words has stopped. -/
def streamStop (s : State) (e : Stop) : State :=
  match verdict s (wordParty s) e with
  | .again s => s
  | .trap s c v => streamTrap s c v
  | .dvorol s v =>
    tellContext (putStream s { curStream s with halt := .dvorol }) s.job.asid 4 Cause.pteInvalid.code v
  | .held s => putStream s { curStream s with halt := .held }

/-- Read n bytes of the kernel image at an offset, never substituted (R172, R401). -/
def imageNat (s : State) (acc : Access) (off n : Nat) : Except Stop Nat :=
  match readExact s (wordParty s) acc (.va (s.job.image + BitVec.ofNat 64 off)) n with
  | .error e => .error e
  | .ok b => .ok (leNat b)

/-- The bounds of the stream's section in the image (03_encodings.md R66). -/
def streamBounds (s : State) : Nat × Nat :=
  match sectionOf s s.job (streamKind s.curEng) with
  | some x => (x.off, x.off + x.bytes)
  | none => (0, 0)

/-- The patch word at an offset; beyond the section ILLEGAL_PATCH with the offset (R401). -/
def patchAt (s : State) (off : Nat) : Except Stop Word32 :=
  if (streamBounds s).2 < off + 4 then .error (.trap .illegalPatch (BitVec.ofNat 64 off))
  else
    match imageNat s .fetch off 4 with
    | .error e => .error e
    | .ok v => .ok (BitVec.ofNat 32 v)

/-! ### Stage predicates (R173, R174) -/

/-- The frame for a word decoded at clock now: a trip whose stage 0 is decoded in the clock of an LTRIM counts as started (R177). -/
def Frame.atClock (now : Nat) (f : Frame) : Frame :=
  match f.cut with
  | some (t, e) => if t = now && f.stage = 0 && f.nEff ≤ f.j && f.j < e then { f with n := max f.n (f.j + 1), nEff := f.j + 1 } else f
  | none => f

/-- A word of the frame's stage is decoded in trip j. -/
def Frame.mark (f : Frame) : Frame := if f.stage = 0 && f.j < f.nEff then { f with started := f.j + 1 } else f

/-- The frame's trip performs words of its stage. -/
def Frame.performs (f : Frame) : Bool := f.stage ≤ f.j && f.j < f.nEff + f.stage

/-- The innermost frame changed. -/
def EngStream.mapTop (x : EngStream) (f : Frame → Frame) : EngStream :=
  match x.frames with
  | [] => x
  | g :: r => { x with frames := f g :: r }

/-- The decoding of a word is noted in the innermost frame. -/
def noteWord (s : State) : State := putStream s ((curStream s).mapTop fun f => (f.atClock s.clock).mark)

/-- The stage predicate lets a word through. -/
def performs (s : State) : Bool :=
  match (curStream s).frames with
  | [] => true
  | f :: _ => (f.atClock s.clock).performs

/-- A word of n bytes: performed, or skipped with no effect of any kind (R174). -/
def onWord (s : State) (n : Nat) (k : State → State) : Result :=
  .next (let t := noteWord s; if performs s then k t else stepPatch t n)

/-! ### Issue and amendment (03_encodings.md R58 to R61) -/

/-- Slot k of a pattern replaced. -/
def amendSlot (p : Pattern) (k : Nat) (v : BitVec 16) : Pattern := setBits p (16 * k) 16 v.toNat

/-- An operation issues: the copy of its pattern, with the shape registers and handles that it reads now (R58,
06_registers.md R139). -/
def issueOp (s : State) (pat : Pattern) (t : Toks) (n : Nat) : State :=
  let x := curStream s
  putStream s { x with
    pc := x.pc + n
    pipe := x.pipe ++ [.waiting { pat, toks := t, shapes := x.shapes, handles := x.handles, prog := 0, flags := 0, sib := false }] }

/-- Do k with a pattern slot of the job's allotment, or raise ILLEGAL_PATCH with the patch word (R59). -/
def withSlot (s : State) (p : Fin 64) (w : Word32) (k : Pattern → State) : State :=
  if p.val < s.job.pslot then k (sget (curStream s).slots p.val) else streamTrap s .illegalPatch (w.setWidth 64)

def execIssue (t : Toks) (p : Fin 64) (f : Fin 8) (v : BitVec 16) (s : State) : Result :=
  onWord s 4 fun s => withSlot s p (encPatch 0 t p f v) fun pat =>
    issueOp s (if f = 0 then pat else amendSlot pat (f.val - 1) v) t 4

/-- No token bits. -/
def noToks : Toks := { wf := false, wb := false, sf := false, sb := false }

def execAmend (p : Fin 64) (f : Fin 8) (v : BitVec 16) (s : State) : Result :=
  onWord s 4 fun s => withSlot s p (encPatch 1 noToks p f v) fun pat =>
    let x := curStream s
    putStream s { x with slots := sset x.slots p.val (amendSlot pat (f.val - 1) v), pc := x.pc + 4 }

def execWide (t : Toks) (p : Fin 64) (f : Fin 8) (u : Word32) (s : State) : Result :=
  onWord s 8 fun s => withSlot s p (encPatch 3 t p f 0) fun pat =>
    issueOp s (amendSlot (amendSlot pat (f.val - 2) (bits u 0 16)) (f.val - 1) (bits u 16 16)) t 8

/-! ### Loops (07_queues.md R173 to R177) -/

/-- The offset after the ENDL that matches at this depth, among the words from pos to stop (R174); n bounds them. A CTRL word counts as LOOP or
ENDL by its code alone, whatever its other bits hold (DESIGN CHOICE, log entry 65). -/
def matchEndl (s : State) (stop : Nat) : Nat → Nat → Nat → Except Stop (Option Nat)
  | 0, _, _ => .ok none
  | n + 1, pos, depth =>
    if stop < pos + 4 then .ok none
    else
      match imageNat s .fetch pos 4 with
      | .error e => .error e
      | .ok v =>
        let w : Word32 := BitVec.ofNat 32 v
        let code := bits w 20 6
        if isWide w then matchEndl s stop n (pos + 8) depth
        else if bits w 30 2 == 2 && code == 1 then matchEndl s stop n (pos + 4) (depth + 1)
        else if bits w 30 2 == 2 && code == 2 then
          if depth ≤ 1 then .ok (some (pos + 4)) else matchEndl s stop n (pos + 4) (depth - 1)
        else matchEndl s stop n (pos + 4) depth

/-- Do k with the offset after the matching ENDL of the LOOP at the PC, or raise ILLEGAL_INSTR. -/
def withEndl (s : State) (w : Word32) (k : Nat → State) : State :=
  let pos := (curStream s).pc + 4
  let stop := (streamBounds s).2
  match matchEndl s stop ((stop - pos) / 4 + 1) pos 1 with
  | .error e => streamStop s e
  | .ok none => streamTrap s .illegalInstr (w.setWidth 64)
  | .ok (some a) => k a

/-- A new frame for the LOOP at the PC, a held bound of LTRIM applied at depth 0. -/
def openLoop (x : EngStream) (n stages : Nat) : EngStream :=
  let f : Frame :=
    { loopPc := x.pc, start := x.pc + 4, n, nEff := n, s := stages, j := 0, started := 0, base := 0, stage := 0, bounded := false }
  match x.frames, x.held with
  | [], some b => { x with frames := [f.trim (b.setWidth 64)], held := none, pc := x.pc + 4 }
  | r, _ => { x with frames := f :: r, pc := x.pc + 4 }

/-- LOOP with count n (R174). A skipped LOOP skips its whole loop. -/
def loop (w : Word32) (stages n : Nat) (s : State) : Result :=
  .next <|
    let t := noteWord s
    let x := curStream t
    if performs s && 4 ≤ x.frames.length then streamTrap t .illegalInstr (w.setWidth 64)
    else
      withEndl t w fun after =>
        if !performs s then putStream t { x with pc := after }
        else if n = 0 then putStream t { x with pc := after, held := if x.frames.isEmpty then none else x.held }
        else putStream t (openLoop x n stages)

def execLoopImm (st : Fin 4) (n : BitVec 16) (s : State) : Result :=
  loop (encCtrl 1 (0#2 ++ (BitVec.ofFin st : BitVec 2) ++ n)) (st.val + 1) n.toNat s

/-- The count is the engine's copy of the shape register at the moment of the decoding. -/
def execLoopReg (st : Fin 4) (r : Fin 32) (s : State) : Result :=
  loop (encCtrl 1 (1#2 ++ (BitVec.ofFin st : BitVec 2) ++ 0#11 ++ (BitVec.ofFin r : BitVec 5))) (st.val + 1)
    ((curStream s).shapes[r]).toNat s

/-- The frame that a pre-emption has bounded, after its last trip: what is left of it, entered again (R175). -/
def Frame.rest (f : Frame) : Frame :=
  { f with n := f.n - f.started, nEff := f.n - f.started, base := f.base + f.started, j := 0, started := 0, stage := 0,
           bounded := false }

def execEndl (s : State) : Result :=
  .next <|
    let x := curStream s
    match x.frames with
    | [] => putStream s { x with wait := .segment }
    | f :: r =>
      if f.nEff + f.s ≤ f.j + 2 then
        if f.bounded && f.started < f.n then putStream s { x with frames := f.rest :: r, pc := f.start }
        else putStream s { x with frames := r, pc := x.pc + 4 }
      else putStream s { x with frames := { f with j := f.j + 1, stage := 0 } :: r, pc := f.start }

/-- PRED is itself a word of the stage before it. Outside a loop, or with a stage beyond S, it raises ILLEGAL_INSTR. -/
def execPred (st : Fin 4) (s : State) : Result :=
  .next <|
    let t := noteWord s
    let x := curStream t
    match x.frames with
    | f :: r =>
      if st.val < f.s then putStream t { x with frames := { f with stage := st.val } :: r, pc := x.pc + 4 }
      else streamTrap t .illegalInstr ((encCtrl 9 (0#18 ++ (BitVec.ofFin st : BitVec 2))).setWidth 64)
    | [] => streamTrap t .illegalInstr ((encCtrl 9 (0#18 ++ (BitVec.ofFin st : BitVec 2))).setWidth 64)

/-! ### STOP, RDV, BWT, BAV (04_jobs.md R95, 11_sync.md R253, R255) -/

def execStop (s : State) : Result :=
  onWord s 4 fun s => let x := curStream s; putStream s { x with stopped := true, pc := x.pc + 4 }

def execRdv (s : State) : Result :=
  onWord s 4 fun s => let x := curStream s; putStream s { x with arrivals := x.arrivals + 1, pc := x.pc + 4 }

/-- Do k with an active barrier that an operand names, or raise BARRIER_MISUSE at the stream. -/
def withStreamBar (s : State) (o : BarOp) (k : BarId → State) : State :=
  match s.job.barAt o with
  | none => streamTrap s .barrierMisuse (barWord o)
  | some b => if (barOf s b).active then k b else streamTrap s .barrierMisuse (barWord o)

def execBwt (p : Bool) (o : BarOp) (s : State) : Result :=
  onWord s 4 fun s => withStreamBar s o fun b =>
    if (barOf s b).began.1.phase != p then stepPatch s 4 else putStream s { curStream s with wait := .barrier b p }

/-- The arrival follows the operations that the stream issued before it, and holds back none after it. -/
def execBav (c : BitVec 10) (o : BarOp) (s : State) : Result :=
  onWord s 4 fun s => withStreamBar s o fun b =>
    let x := curStream s
    putStream s { x with pipe := x.pipe ++ [.bav b c], pc := x.pc + 4 }

/-! ### Tokens (07_queues.md R169 to R171) -/

/-- The counters by their numbers: the forward and the backward queue of an engine, and those that it pops. -/
def forwardOf (e : Engine) : Nat := engineNum e
def backwardOf (e : Engine) : Nat := 4 + (engineNum e + 3) % 4
def popForward (e : Engine) : Nat := (engineNum e + 3) % 4
def popBackward (e : Engine) : Nat := 4 + engineNum e

/-- A token counter. -/
def Job.token (j : Job) (q : Nat) : Nat := (j.tokens.toList.getD q 0).val

/-- A token counter set. -/
def Job.setToken (j : Job) (q v : Nat) : Job :=
  { j with tokens := Vector.ofFn fun k => if k.val = q then Fin.ofNat 16 v else j.tokens[k] }

def execToks (q : Bool) (n : Fin 16) (s : State) : Result :=
  onWord s 4 fun s =>
    let c := if q then backwardOf s.curEng else forwardOf s.curEng
    if s.job.token c + n.val ≤ 15 then
      stepPatch { s with job := s.job.setToken c (s.job.token c + n.val) } 4
    else s

/-! ### PATL (R172, 03_encodings.md R63, R64) -/

/-- The register slots of an opcode's version-3 layout (03_encodings.md R51, R53, 08_vector.md R189, 09_matrix.md R216,
06_registers.md R154); none: the opcode has no layout. -/
def registerSlots (e : Engine) (op : Nat) : Option (List Nat) :=
  match e with
  | .vx =>
    if (0x01 ≤ op && op ≤ 0x09) || op == 0x0B || op == 0x0C || (0x0F ≤ op && op ≤ 0x15) || (0x18 ≤ op && op ≤ 0x22) || op == 0x28 then
      some [0, 1, 2, 3, 6]
    else if op == 0x0A || op == 0x0D || op == 0x0E || (0x29 ≤ op && op ≤ 0x30) || (0x38 ≤ op && op ≤ 0x3F) then some [0, 1, 2, 6]
    else none
  | .mx =>
    match op with
    | 1 | 2 | 3 => some [1] | 4 => some [0, 1] | 5 | 8 => some [] | 6 | 7 => some [0] | _ => none
  | .ld => match op with | 1 | 2 | 3 | 5 => some [0] | 4 => some [0, 2] | _ => none
  | .st => match op with | 1 | 2 | 5 => some [0] | 3 | 4 => some [0, 2] | _ => none

/-- The first bits of the format fields of an opcode's layout. -/
def formatFields (e : Engine) (op : Nat) : List Nat :=
  match e with
  | .vx => [92, 88]
  | .mx => match op with | 1 | 2 | 3 => [92] | 6 | 7 => [76] | 8 => [76, 72, 68] | _ => []
  | .ld => if op = 5 then [] else [92]
  | .st => [92]

/-- The opcode, or a format of the pattern, is absent in an encoding version (R63). -/
def absentIn (ver : Nat) (e : Engine) (p : Pattern) : Bool :=
  let op := (bits p 120 8).toNat
  ver < 3 &&
    ((e == .mx && ver == 1 && (op == 3 || op == 4)) || (e == .vx && ((ver == 1 && op == 0x3A) || op == 0x3D)) ||
      (ver == 1 && (formatFields e op).any fun k => bits p k 4 == 5))

/-- A pattern of an image of an encoding version, translated to version 3; none where it is rejected (R64). -/
def translatePattern (ver : Nat) (e : Engine) (p : Pattern) : Option Pattern :=
  match registerSlots e (bits p 120 8).toNat with
  | none => some p
  | some l =>
    if absentIn ver e p then none
    else if ver < 3 then
      some (l.foldl (fun p k => if slotOf p k == 0xFFFF then amendSlot p k 0xE000 else p) p)
    else some p

/-- The patterns with n section indices from k on, translated from an encoding version; on a rejection its index. -/
def readPatterns (s : State) (ver : Nat) (sec : Section) : Nat → Nat → Except Stop (List Pattern)
  | 0, _ => .ok []
  | n + 1, k =>
    match imageNat s .read (sec.off + 16 * k) 16 with
    | .error e => .error e
    | .ok v =>
      match translatePattern ver s.curEng (BitVec.ofNat 128 v) with
      | none => .error (.trap .encodingVersion (BitVec.ofNat 64 k))
      | some p =>
        match readPatterns s ver sec n (k + 1) with
        | .error e => .error e
        | .ok l => .ok (p :: l)

/-- Patterns put into slots from p on. -/
def loadSlots (m : Sparse 128) : Nat → List Pattern → Sparse 128
  | _, [] => m
  | p, v :: vs => loadSlots (sset m p v) (p + 1) vs

/-- VERSION of the kernel image that the stream loads from, in its header (03_encodings.md R64, R66). -/
def imageVersion (s : State) : Except Stop Nat := imageNat s .read 4 2

/-- The indices are judged before the version of the image and the patterns: a PATL that names an index outside the section or the allotment
raises ILLEGAL_PATCH also where R64 would reject it (DESIGN CHOICE, log entry 67). -/
def execPatl (p n g : Fin 64) (s : State) : Result :=
  onWord s 4 fun s =>
    let first := 64 * g.val + p.val
    let sec := sectionOf s s.job (patternKind s.curEng)
    let top := match sec with
      | none => 0
      | some x => min (64 * g.val + s.job.pslot) (x.bytes / 16)
    match sec with
    | some x =>
      if top < first + n.val + 1 then streamTrap s .illegalPatch (BitVec.ofNat 64 (max first top))
      else
        match imageVersion s with
        | .error e => streamStop s e
        | .ok ver =>
          if ver = 0 || 3 < ver then streamTrap s .encodingVersion (BitVec.ofNat 64 ver)
          else
            match readPatterns s ver x (n.val + 1) first with
            | .error e => streamStop s e
            | .ok l =>
              let y := curStream s
              putStream (takeReplies s (.words s.job.id s.curEng)) { y with slots := loadSlots y.slots p.val l, pc := y.pc + 4 }
    | none => streamTrap s .illegalPatch (BitVec.ofNat 64 first)

/-! ### Words that raise when they are decoded -/

/-- A control-core word raises at the PC; a CTRL word at the stream, unless its stage predicate skips it. A skipped word of code LOOP whose
source is illegal is stepped over alone, while the scan for a matching ENDL counts it (DESIGN CHOICE, log entry 62). -/
def execIllegalInstr (eng : Bool) (w : Word32) (s : State) : Result :=
  if eng then onWord s 4 fun s => streamTrap s .illegalInstr (w.setWidth 64)
  else .next (raise s .illegalInstr (w.setWidth 64))

def execIllegalPatch (w : Word32) (_u : Option Word32) (s : State) : Result :=
  onWord s (if isWide w then 8 else 4) fun s => streamTrap s .illegalPatch (w.setWidth 64)

/-! ### The pipeline of a stream (R170, R253, R237) -/

/-- An operation that has not completed. -/
def PipeItem.isOp : PipeItem → Bool
  | .waiting _ | .started _ => true
  | _ => false

/-- The item stands for pushes that are not yet made. -/
def PipeItem.isPush : PipeItem → Bool
  | .pushes .. => true
  | _ => false

/-- Raise a counter by one if it is below 15; whether the push is still to be made. -/
def Job.pushToken (j : Job) (q : Nat) (want : Bool) : Job × Bool :=
  if want && j.token q < 15 then (j.setToken q (j.token q + 1), false) else (j, want)

/-- The items of a pipeline that can be done now, in order: pushes while nothing but barrier arrivals and markers stands before
them, and markers while no operation stands before them. done tells that neither an operation nor a push has been met. -/
def settleItems (e : Engine) : Job → Bool → Bool → List PipeItem → Job × List PipeItem
  | j, _, _, [] => (j, [])
  | j, noOp, noPush, q :: r =>
    match q with
    | .pushes f b =>
      if noOp && noPush then
        let (j, f) := j.pushToken (forwardOf e) f
        let (j, b) := j.pushToken (backwardOf e) b
        if f || b then
          let (j, r) := settleItems e j noOp false r
          (j, .pushes f b :: r)
        else settleItems e j noOp noPush r
      else
        let (j, r) := settleItems e j noOp false r
        (j, q :: r)
    | .spf lo =>
      if noOp then settleItems e { j with rings := j.rings.map (Ring.pass e lo) } noOp noPush r
      else
        let (j, r) := settleItems e j noOp noPush r
        (j, q :: r)
    | .inv _ =>
      if noOp then settleItems e j noOp noPush r
      else
        let (j, r) := settleItems e j noOp noPush r
        (j, q :: r)
    | .bav .. =>
      let (j, r) := settleItems e j noOp noPush r
      (j, q :: r)
    | .waiting _ | .started _ =>
      let (j, r) := settleItems e j false noPush r
      (j, q :: r)

/-- Settle the pipeline of one engine. -/
def Job.settle (j : Job) (e : Engine) : Job :=
  let (j, l) := settleItems e j true true (j.eng e).pipe
  j.updEng e fun x => { x with pipe := l }

/-- Settle every pipeline: a push waits only for its counter, which other engines lower. -/
def Job.settleAll (j : Job) : Job := engines.foldl Job.settle j

/-- A BAV whose earlier operations have completed arrives (11_sync.md R253). The first such item is applied. -/
def takeBav : List PipeItem → Option ((BarId × BitVec 10) × List PipeItem)
  | [] => none
  | .bav b c :: r => some ((b, c), r)
  | q :: r =>
    if q.isOp then none
    else
      match takeBav r with
      | some (x, l) => some (x, q :: l)
      | none => none

def execBavArrival (job : Nat) (e : Engine) (s : State) : Result :=
  match findJob s job with
  | none => .next s
  | some j =>
    match takeBav (j.eng e).pipe with
    | none => .next s
    | some ((b, c), l) =>
      if j.resident then
        match barEvent s b (.arrive c.toNat) with
        | none => .next s
        | some t => .next (updJob t job fun k => k.updEng e fun x => { x with pipe := l })
      else .next s

/-! ### Segments (07_queues.md R164, 06_registers.md R139) -/

/-- A queue entry other than SEG consumed. -/
def EngStream.consume (x : EngStream) : QEntry → EngStream
  | .set n v _ => { x with shapes := x.shapes.set n v }
  | .hnd n v _ => { x with handles := x.handles.set n v }
  | .spf lo _ => { x with pipe := x.pipe ++ [.spf lo] }
  | .inv _ k => { x with pipe := x.pipe ++ [.inv k] }
  | .seg .. => x

/-- The entries up to the first SEG consumed. -/
def EngStream.consumeHead (x : EngStream) : List QEntry → EngStream
  | [] => { x with queue := [] }
  | .seg v t :: r => { x with queue := .seg v t :: r }
  | q :: r => (x.consume q).consumeHead r

/-- The first segment begun, base being the offset of the stream section. -/
def EngStream.begin (x : EngStream) (base : Nat) : EngStream :=
  match x.queue with
  | .seg v t :: r =>
    { x with queue := r, pc := base + (bits v 0 24).toNat, wait := .ready,
             begun := if x.begun.contains t then x.begun else x.begun ++ [t] }
  | _ => x

/-- A stream that waits for its next segment consumes what stands before it, and begins it; a stopped stream consumes only. -/
def execSegmentStart (job : Nat) (e : Engine) (s : State) : Result :=
  match findJob s job with
  | none => .next s
  | some j =>
    let x := j.eng e
    let base := match sectionOf s j (streamKind e) with | some y => y.off | none => 0
    if !j.resident || x.draining then .next s
    else if x.stopped then .next (putJob s ((j.setEng e (x.consumeHead x.queue).refill).settle e))
    else if x.wait == .segment then .next (putJob s ((j.setEng e ((x.consumeHead x.queue).begin base).refill).settle e))
    else .next s

/-! ### An operation that completes or stops -/

/-- The started operation changed into items. -/
def mapStarted (f : IOp → List PipeItem) : List PipeItem → List PipeItem
  | [] => []
  | .started o :: r => f o ++ r
  | q :: r => q :: mapStarted f r

/-- The copy that an operation of engine e works with: the started one; where none has started, the engine's registers as they
stand. -/
def curOp (j : Job) (e : Engine) : IOp :=
  let x := j.eng e
  (startedOp x.pipe).getD
    { pat := 0, toks := noToks, shapes := x.shapes, handles := x.handles, prog := 0, flags := 0, sib := false }

/-- The stream has no operation left that TFENCE waits for (15_traps.md R326): its started operation has stopped at a trap; or none is in its
pipeline, and it has stopped at a word, is stopped, or waits for a segment with none in its queue. -/
def EngStream.fenced (x : EngStream) : Bool :=
  x.opHalt == .trapped ||
    (!x.pipe.any PipeItem.isOp &&
      (x.halt == .trapped || x.stopped || (x.wait == .segment && !x.queue.any fun q => (QEntry.seg? q).isSome)))

/-- None of the job's streams has one. -/
def Job.fenced (j : Job) : Bool := engines.all fun e => (j.eng e).fenced

/-- The operation completes: its flags are joined (02_numbers.md R41) and its pushes made in order (R170). -/
def completeOp (s : State) (e : Engine) (fl : Flags) : State :=
  let j := s.job
  let fl := (curOp j e).flags ||| fl
  let j := j.updEng e fun x =>
    { x with holds := false, pipe := mapStarted (fun o => [.pushes o.toks.sf o.toks.sb]) x.pipe }
  let s := { s with job := j.settleAll.joinFlags fl }
  unitPassed s (.eng s.job.id e)

/-- Note the progress of the started operation, and the flags of the part done, which wait for its completion or stop (R41). -/
def noteProgress (s : State) (e : Engine) (prog : Nat) (fl : Flags) : State :=
  { s with job := s.job.updEng e fun x =>
      { x with pipe := mapStarted (fun o => [.started { o with prog, flags := o.flags ||| fl }]) x.pipe } }

/-- The operation stops at a fault, exact, with its progress (06_registers.md R162, 08_vector.md R204, 09_matrix.md R226). -/
def trapOp (s : State) (e : Engine) (c : Cause) (v : Word) (prog : Nat) : State :=
  let o := curOp s.job e
  let j := s.job.updEng e fun x =>
    { x with opHalt := .trapped, holds := false, pipe := mapStarted (fun o => [.started { o with flags := 0, guard := [] }]) x.pipe }
  engTrap { s with job := j.joinFlags o.flags } e o.sib c v (BitVec.ofNat 64 prog)

/-- The started operation stops at an access, as at a fault: the flags of the part done are joined (R41). -/
def haltOp (s : State) (e : Engine) (h : Halt) : State :=
  let o := curOp s.job e
  let j := s.job.updEng e fun x =>
    { x with opHalt := h, holds := false, pipe := mapStarted (fun o => [.started { o with flags := 0, guard := [] }]) x.pipe }
  { s with job := j.joinFlags o.flags }

/-- The started operation keeps what it has read for use further on (06_registers.md R152, 09_matrix.md R229). -/
def keepOp (s : State) (e : Engine) (f : IOp → IOp) : State :=
  { s with job := s.job.updEng e fun x => { x with pipe := mapStarted (fun o => [.started (f o)]) x.pipe } }

/-- The operation stops where an access stops, fl being the flags of the part done since it last stopped. -/
def stopOp (s : State) (e : Engine) (prog : Nat) (fl : Flags) (x : Stop) : State :=
  let s := noteProgress s e prog fl
  match verdict s (engParty s e 0 (curOp s.job e).sib) x with
  | .again s => keepOp s e fun o => { o with guard := x.keeps o.guard }
  | .trap s c v => trapOp s e c v prog
  | .dvorol s v => tellContext (haltOp s e .dvorol) s.job.asid 4 Cause.pteInvalid.code v
  | .held s => haltOp s e .held

end Sys2Proof.Machine
end

