-- ==== Sys2Proof/Machine/Quant.lean ====
section
/-! DEFINITION. Quantisation to the block formats (02_numbers.md R38, R39), for VQNT and STQ. -/

namespace Sys2Proof.Machine

/-- floor(log2 |x|) of a finite non-zero value. -/
def Num.lg : Num → Int
  | .fin _ m e => m.log2 + e
  | _ => 0

/-- A present value is NaN or infinite. -/
def anySpecial (l : List (Option Num)) : Bool :=
  l.any fun x => match x with | some v => v.isNan || v.isInf | none => false

/-- The largest magnitude of values. -/
def amaxOf (l : List Num) : Num := l.foldl (fun a x => if a.lt x.abs then x.abs else a) (.zero false)

/-- Clamp to a range. -/
def clampTo (lo hi v : Int) : Int := max lo (min hi v)

/-- An element of an MXINT8 block with scale exponent e (R38). -/
def mxElem (e : Int) : Option Num → Nat × Flags
  | some (.fin neg m k) =>
    let (a, inexact) := roundUnits (Mag.dyadic m k) neg .rne 0 e
    let v : Int := if neg then -(a : Int) else a
    let c := clampTo (-127) 127 v
    (lowBits .int8 c, flIf (c != v) flSAT ||| flIf inexact flNX)
  | _ => (0, 0)

/-- Quantise a block to MXINT8: the elements, the scale code, the flags. -/
def quantMx (l : List (Option Num)) : List Nat × Nat × Flags :=
  if anySpecial l then (l.map fun _ => 0, 255, flNV)
  else
    let a := amaxOf (l.filterMap id)
    let e := if a.isZero then -127 else clampTo (-127) 127 (a.lg - 6)
    let (q, fl) := collect (l.map (mxElem e))
    (q, (e + 127).toNat, fl)

/-- The value exceeds t quarters; it is t quarters. -/
def overQuarters (m : Nat) (k : Int) (t : Nat) : Bool :=
  let lo := shiftZ m (k + 2)
  t < lo || (lo == t && !(Mag.dyadic m (k + 2)).ex 0)
def atQuarters (m : Nat) (k : Int) (t : Nat) : Bool := shiftZ m (k + 2) == t && (Mag.dyadic m (k + 2)).ex 0

/-- The code of the grid value nearest m * 2 ^ k, ties to the code whose bit 0 is 0: the midpoints, in quarters, that it passes. -/
def gridCode (m : Nat) (k : Int) : Nat :=
  ((List.range 7).filter fun c =>
    let t := [1, 3, 5, 7, 10, 14, 20].getD c 0
    overQuarters m k t || (atQuarters m k t && c % 2 == 1)).length

/-- A code of an E2M1S block with exponent e for an element that does not take the special byte (R39). -/
def gridElem (e : Int) : Num → Nat × Flags
  | .fin neg m k =>
    let k := k - e
    let above := overQuarters m k 24
    let c := if above then 7 else gridCode m k
    let exact := atQuarters m k (2 * gridHalves c)
    (if c = 0 then 0 else if neg then c + 8 else c, flIf above flSAT ||| flIf (!exact) flNX)
  | _ => (0, 0)

/-- The 16 bytes of 32 codes (02_numbers.md R15). -/
def packNibbles (l : List Nat) : List Nat := (List.range 16).map fun i => l.getD (2 * i) 0 + 16 * l.getD (2 * i + 1) 0

/-- Quantise a block to E2M1S: its 18 bytes and the flags (R39). An element clamped to 6 is inexact and sets NX; the special byte sets it as R23
does, so not where it is clamped from a value that its grid holds, 512 (DESIGN CHOICE, log entry 65). -/
def quantE2m1s (l : List (Option Num)) : List Nat × Flags :=
  let present := l.filterMap id
  if anySpecial l then (List.replicate 16 0 ++ [255, 0], flNV)
  else if present.all Num.isZero then (List.replicate 18 0, 0)
  else
    let top := amaxOf present
    let i1 := (l.findIdx? fun x => match x with | some v => !(v.abs.lt top) | none => false).getD 0
    let x1 := (l.getD i1 none).getD (.zero false)
    let m2 := amaxOf ((l.set i1 none).filterMap id)
    let e := clampTo (-127) 127 (if m2.isZero then x1.lg - 7 else m2.lg - 2)
    let (special, fs) := roundNum .e4m3 .rne false 0 (x1.scale (-e))
    let (codes, fl) := collect (((List.range l.length).map fun i =>
      if i = i1 then (8, (0 : Flags)) else match l.getD i none with | some v => gridElem e v | none => (0, 0)))
    (packNibbles codes ++ [(e + 127).toNat, special], fl ||| fs)

/-- A list cut into blocks of 32, the last one filled with absent elements. -/
def blocksOf {α : Type} : Nat → List (Option α) → List (List (Option α))
  | 0, _ => []
  | n + 1, l => ((l ++ List.replicate 32 none).take 32) :: blocksOf n (l.drop 32)

end Sys2Proof.Machine
end

