-- ==== Sys2Proof/Machine/LoadStore.lean ====
section
/-! DEFINITION. The operations of the load and store engines (06_registers.md R154 to R162). -/

namespace Sys2Proof.Machine

/-! ### Checks at issue (R143, R151, R154 to R156) -/

/-- Slot 7 of the pattern of an instruction, as TVAL names it (15_traps.md R319). -/
def headWord (i : Instr) : Word :=
  match encode i with
  | some (.pattern _ p) => (slotOf p 7).setWidth 64
  | _ => 0

/-- What the checks need of an operation: its register, the elements of its span, an index register with its count, its handle with
what it accepts, the register format, whether it moves scales or quantises, and the tile. -/
structure LsInfo where
  reg : RegSlot
  total : Nat
  idx : Option (RegSlot × Nat)
  h : Fin 16
  acc : Accept
  fr : Fmt
  scales : Bool
  quant : Bool
  tile : Option (Nat × Nat × Nat)

/-- Formats of 8, 16 or 32 bits. -/
def wholeBytes (f : Fmt) : Bool := Fmt.bits f != 4

/-- The kinds that DENSE operands accept. -/
def denseKinds : List HKind := [.dense, .ragged]

/-- A tile's blocks of 32 columns in a row. -/
def blocksIn (tc : Nat) : Nat := (tc + 31) / 32

/-- The elements of a tile: part 1 counts blocks. -/
def tileTotal (scales : Bool) (tr tc : Nat) : Nat := tr * (if scales then blocksIn tc else tc)

/-- The block of 32 columns in which a linear position lies, the blocks of a row counted before those of the next. Without columns every
position is absent, and 32 of them are taken as a block (log entry 14). -/
def linBlock (h : Hnd) (k : Nat) : Nat :=
  if h.dim 0 = 0 then k / 32 else k / h.dim 0 * blocksIn (h.dim 0) + k % h.dim 0 / 32

/-- Elements of a linear operation from position start on: part 1 counts the blocks that its n positions touch (log entry 14). -/
def linTotal (scales : Bool) (h : Hnd) (start n : Nat) : Nat :=
  if !scales then n else if n = 0 then 0 else linBlock h (start + n - 1) + 1 - linBlock h start

/-- The linear position with which block b begins. -/
def blockStart (h : Hnd) (b : Nat) : Nat :=
  if h.dim 0 = 0 then 32 * b else b / blocksIn (h.dim 0) * h.dim 0 + b % blocksIn (h.dim 0) * 32

/-- A tile operation. -/
def tileInfo (o : IOp) (t : TileOp) (acc : Accept) (quant : Bool) : LsInfo :=
  let tr := countOf o t.tr
  let tc := countOf o t.tc
  { reg := t.reg, total := tileTotal t.scales tr tc, idx := none, h := t.h, acc, fr := t.fr, scales := t.scales, quant,
    tile := some (tr, tc, countOf o t.col) }

/-- A linear operation with q repeats. -/
def linInfo (o : IOp) (l : LinOp) (q : Nat) : LsInfo :=
  { reg := l.reg, total := q * linTotal l.scales (handleOf o o.handles[l.h]) (countOf o l.start) (countOf o l.n), idx := none, h := l.h
    acc := accepts [.dense, .ragged, .tree] fun f => !f.isBlock, fr := l.fr, scales := l.scales, quant := false, tile := none }

/-- An indexed operation. -/
def idxInfo (o : IOp) (x : IdxOp) (acc : Accept) : LsInfo :=
  let n := countOf o x.n
  { reg := x.reg, total := n, idx := some (x.idx, n), h := x.h, acc, fr := x.fr, scales := x.scales, quant := false, tile := none }

/-- What R151 lets each operation use. -/
def lsInfo (o : IOp) : Instr → Option LsInfo
  | .ldt t => some (tileInfo o t (accepts [.dense, .ragged, .compressed, .nm, .window, .gather] fun _ => true) false)
  | .stt t => some (tileInfo o t (accepts denseKinds fun _ => true) false)
  | .stq t => some (tileInfo o t (accepts denseKinds fun f => f.isBlock) true)
  | .ldv l | .stv l => some (linInfo o l 1)
  | .ldb l q => some (linInfo o l (countOf o q))
  | .ldg x => some (idxInfo o x { accepts [.dense] wholeBytes with needSpad := true })
  | .sts x => some (idxInfo o x (accepts denseKinds wholeBytes))
  | .sta x => some (idxInfo o x (accepts denseKinds fun f => f == .fp32 || f == .bf16 || f == .fp16 || f == .int32))
  | .ldz z => some
      { reg := z.reg, total := countOf o z.n, idx := none, h := z.h
        acc := { accepts [.dense] (fun _ => true) with needSpad := true, align := 1024 }
        fr := .uint8, scales := false, quant := false, tile := none }
  | _ => none

/-- The pairing of register and memory formats is one that R155 allows. -/
def pairOk (load : Bool) (x : LsInfo) (r : Layout) : Bool :=
  match Fmt.ofCode (bits r 16 4) with
  | none => true
  | some fm =>
    if x.scales then bitAt r 11 || fm.isBlock
    else if x.quant then true
    else if x.fr.isBlock then x.fr == fm
    else load || !fm.isBlock

/-- The operation moves E2M1S blocks raw. -/
def rawBlocks (x : LsInfo) : Bool := x.fr == .e2m1s && !x.scales && !x.quant

/-- The span of an operation lies in the allotment. A register holds 227 raw E2M1S blocks (R155). -/
def spanOk (j : Job) (x : LsInfo) : Bool :=
  if rawBlocks x then
    let blocks := match x.tile with | some (tr, tc, _) => tr * blocksIn tc | none => 0
    regAllotted j x.reg 0 && regAllotted j x.reg ((blocks - 1) / 227)
  else spanAllotted j x.reg x.total (Fmt.bits x.fr)

/-- Tile limits and the block rule (R156). TVAL of SHAPE_INVALID is the extent that is too large; for the block rule it is a free value
(DESIGN CHOICE, log entry 13). Reaching EXT0 excuses a TC that is no multiple of 32, not such a column origin (DESIGN CHOICE, log entry 63). -/
def tileCheck (x : LsInfo) (h : Hnd) : Option (Cause × Word) :=
  match x.tile with
  | none => none
  | some (tr, tc, col) =>
    if 256 < tr then some (.shapeInvalid, BitVec.ofNat 64 tr)
    else if 4096 < tc then some (.shapeInvalid, BitVec.ofNat 64 tc)
    else if (x.scales || x.quant || x.fr.isBlock) && tr != 0 && tc != 0 &&
        (col % 32 != 0 || (tc % 32 != 0 && col + tc < h.dim 0)) then some (.shapeInvalid, h.free)
    else none

/-- The checks of an LD or ST operation with its issued copy (03_encodings.md R60). -/
def lsCheck (e : Engine) (j : Job) (o : IOp) (i : Instr) : Option (Cause × Word) :=
  match lsInfo o i with
  | none => none
  | some x =>
    let r := o.handles[x.h]
    let h := handleOf o r
    let idxBad := match x.idx with | some (q, n) => !spanAllotted j q n 32 | none => false
    if !(match i with | .ldz _ => true | _ => pairOk (e == .ld) x r) then some (.illegalInstr, headWord i)
    else if !spanOk j x then some (slotFault x.reg)
    else if idxBad then some (slotFault ((x.idx.map Prod.fst).getD .none))
    else
      match handleCheck o x.h x.acc with
      | some f => some f
      | none => tileCheck x h

/-! ### The run of an operation (R161, R162) -/

/-- Units u, u + 1, … of an operation, n of them and q in this turn: exact at the first that stops, with its progress. pre keeps what a
unit reads for use further on. Where the accesses of two streams to a register are unordered, each unit falls wholly before or after a
unit of the other (06_registers.md R137; DESIGN CHOICE, log entry 62). -/
def unitLoop (e : Engine) (prog : Nat → Nat) (k : Nat → State → Except Stop (State × Flags)) (pre : Nat → State → State) :
    Nat → Nat → Nat → Flags → State → State
  | 0, _, _, fl, s => completeOp s e fl
  | _ + 1, 0, u, fl, s => noteProgress s e (prog u) fl
  | n + 1, q + 1, u, fl, s =>
    let s := pre u s
    match k u s with
    | .error x => stopOp s e (prog u) fl x
    | .ok (t, f) => unitLoop e prog k pre n q (u + 1) (fl ||| f) (takeReplies t (.eng t.job.id e))

/-- The units of n that a turn performs. -/
def turnUnits (s : State) (n : Nat) : Nat := if s.units = 0 then n else s.units

/-- An LD or ST operation of total units that goes on at its progress. -/
def lsRun (e : Engine) (i : Instr) (s : State) (total : IOp → Nat) (k : IOp → Nat → State → Except Stop (State × Flags))
    (prog : IOp → Nat → Nat := fun _ u => u) (first : IOp → Nat → Nat := fun _ t => t) (vecs : IOp → Nat → State → Vecs := fun _ _ _ => []) :
    Result :=
  let o := curOp s.job e
  .next (match lsCheck e s.job o i with
    | some (c, v) => trapOp s e c v 0
    | none =>
      let u := first o o.prog
      unitLoop e (prog o) (k o) (fun u s => keepOp s e fun o => o.keep (vecs o u s)) (total o - u) (turnUnits s (total o - u)) u 0 s)

/-- The handle of an operation. -/
def opHandle (o : IOp) (h : Fin 16) : Hnd := handleOf o o.handles[h]

/-- Element t of the register span written. -/
def setReg (s : State) (r : RegSlot) (f : Fmt) (t v : Nat) : State := { s with job := setElem s.job r f t v }

/-- A position by its linear index over the extents, dimension 0 fastest; none at or beyond their product (R157). -/
def linearPos (h : Hnd) (k : Nat) : Option Pos :=
  let a := h.dim 0
  let b := h.dim 1
  let c := h.dim 2
  if k < a * b * c * h.dim 3 then some { i0 := k % a, i1 := k / a % b, i2 := k / a / b % c, i3 := k / a / b / c } else none

/-- The position of row r and column c of a tile (R154, R156); none where EXT2 is 0. -/
def tilePos (o : IOp) (t : TileOp) (h : Hnd) (r c : Nat) : Option Pos :=
  let p := planeOf o t.plane
  if h.dim 2 = 0 then none
  else some { i0 := countOf o t.col + c, i1 := countOf o t.row + r, i2 := p % h.dim 2, i3 := p / h.dim 2 }

/-- The number of the element at an optional position. -/
def elemAtOpt (s : State) (p : Party) (o : IOp) (h : Hnd) (q : Option Pos) : Except Stop (Option Int) :=
  match q with
  | none => .ok none
  | some q => elemAt s p o h q

/-- A value of the register format loaded from element e (R155, R162). -/
def loadElem (s : State) (p : Party) (o : IOp) (h : Hnd) (fr : Fmt) (rm : RMode) (sat scales : Bool) (e : Int) :
    Except Stop (Nat × Flags) :=
  if scales then
    match dataNat s p h (scaleAddr h e) 1 with
    | .error x => .error x
    | .ok (v, bad) => .ok (if bad then 0 else v, flIf bad flPOI)
  else if h.fmt.isBlock && fr != h.fmt then
    match elemScaled s p o h e with
    | .error x => .error x
    | .ok (v, bad) => .ok (if bad then (0, flPOI) else convertNum fr rm sat 0 v)
  else
    match elemBits s p h e with
    | .error x => .error x
    | .ok (v, bad) => .ok (if bad then (0, flPOI) else convert h.fmt fr rm sat 0 v)

/-- Element t of the registers loaded from element e, or with +0 where there is none. -/
def loadTo (s : State) (p : Party) (o : IOp) (h : Hnd) (r : RegSlot) (fr : Fmt) (rm : RMode) (sat scales : Bool) (t : Nat)
    (e : Except Stop (Option Int)) : Except Stop (State × Flags) :=
  match e with
  | .error x => .error x
  | .ok none => .ok (setReg s r fr t 0, 0)
  | .ok (some e) =>
    match loadElem s p o h fr rm sat scales e with
    | .error x => .error x
    | .ok (v, fl) => .ok (setReg s r fr t v, fl)

/-- The number of an element that is present. -/
def present (x : Except Stop (Option Int)) : Option Int := match x with | .ok e => e | .error _ => none

/-- The element at an operation index can be written now, or there is none. -/
def writable (s : State) (p : Party) (h : Hnd) (x : Except Stop (Option Int)) : Bool :=
  match x with
  | .error _ => false
  | .ok none => true
  | .ok (some e) => match locate s p .write (hndLoc h p.job (elemByte h e).1) 1 with | .ok _ => true | .error _ => false

/-- The later operation index that writes the other nibble of the byte of element e, the INT4 element at index t among n. The byte is written
whole at t where nothing stops the operation before that index (R161, R162; log entry 64). -/
def otherNibble (s : State) (p : Party) (h : Hnd) (el : Nat → Except Stop (Option Int)) (n t : Nat) (e : Int) : Option Nat :=
  match firstBelow (n - t - 1) fun k => present (el (t + 1 + k)) == some (if e % 2 = 0 then e + 1 else e - 1) with
  | some k => if (List.range k).all fun i => writable s p h (el (t + 1 + i)) then some (t + 1 + k) else none
  | none => none

/-- The byte of two nibbles, of which v is that of element e. -/
def nibbles (e : Int) (v other : Nat) : Byte :=
  BitVec.ofNat 8 (if e % 2 = 0 then v % 16 + 16 * (other % 16) else other % 16 + 16 * (v % 16))

/-- An INT4 element written, with the other nibble of its byte where the operation writes that too; code gives the values of the operation's
indices. -/
def putInt4 (s : State) (p : Party) (h : Hnd) (code : Nat → Nat) (el : Nat → Except Stop (Option Int)) (n t : Nat) (e : Int) :
    Except Stop State :=
  if (curOp s.job .st).whole.contains t then .ok s
  else
    match otherNibble s p h el n t e with
    | none => putElem s p h e (code t)
    | some k =>
      match putData s p h (elemByte h e).1 [nibbles e (code t) (code k)] with
      | .error x => .error x
      | .ok s => .ok (keepOp s .st fun o => { o with whole := k :: o.whole })

/-- The register value at index t, one of n, stored to its element, or nothing where there is none. el gives the elements. -/
def storeFrom (s : State) (p : Party) (h : Hnd) (r : RegSlot) (fr : Fmt) (rm : RMode) (sat scales : Bool)
    (el : Nat → Except Stop (Option Int)) (n t : Nat) : Except Stop (State × Flags) :=
  let code := fun t => convert fr h.fmt rm sat 0 (regElem s.job r fr t)
  match el t with
  | .error x => .error x
  | .ok none => .ok (s, 0)
  | .ok (some e) =>
    let (v, fl) := if scales then (regElem s.job r fr t, (0 : Flags)) else code t
    let done : Except Stop State :=
      if scales then putData s p h (scaleAddr h e) [BitVec.ofNat 8 v]
      else if h.fmt == .int4 then putInt4 s p h (fun t => (code t).1) el n t e
      else putElem s p h e v
    match done with
    | .error x => .error x
    | .ok s => .ok (s, fl)

/-! ### Tiles (R156) -/

/-- Row and column of operation index t of a tile: part 1 counts the blocks of a row. -/
def tileAt (t : TileOp) (tc k : Nat) : Nat × Nat :=
  if t.scales then (k / blocksIn tc, 32 * (k % blocksIn tc)) else (k / tc, k % tc)

/-- The element of operation index k of a tile. -/
def tileElem (s : State) (p : Party) (o : IOp) (t : TileOp) (h : Hnd) (k : Nat) : Except Stop (Option Int) :=
  let (r, c) := tileAt t (countOf o t.tc) k
  elemAtOpt s p o h (tilePos o t h r c)

/-- First byte of raw E2M1S block k among the registers (R155). -/
def rawByte (k : Nat) : Nat := regBytes * (k / 227) + 18 * (k % 227)

/-- The element with which raw block k of a tile begins: its first column decides whether the block is present (DESIGN CHOICE, log
entry 62). -/
def blockElem (s : State) (p : Party) (o : IOp) (t : TileOp) (h : Hnd) (k : Nat) : Except Stop (Option Int) :=
  let nb := blocksIn (countOf o t.tc)
  elemAtOpt s p o h (tilePos o t h (k / nb) (32 * (k % nb)))

/-- The units of a tile operation: raw blocks, or elements. -/
def tileUnits (o : IOp) (t : TileOp) : Nat :=
  let tc := countOf o t.tc
  if t.fr == .e2m1s && !t.scales then countOf o t.tr * blocksIn tc else tileTotal t.scales (countOf o t.tr) tc

/-- Bytes put into the registers from byte a of a slot's register on. -/
def setRegBytes (s : State) (r : RegSlot) (a : Nat) (d : List Nat) : State :=
  { s with job := (List.range d.length).foldl (fun j i => setRegByte j r (a + i) (d.getD i 0)) s.job }

/-- TPROG of a tile operation at unit u: raw blocks count the elements before them; and the unit at which a progress goes on (R162). -/
def tileProg (t : TileOp) (o : IOp) (u : Nat) : Nat :=
  let tc := countOf o t.tc
  if t.fr == .e2m1s && !t.scales then u / blocksIn tc * tc + 32 * (u % blocksIn tc) else u
def tileFirst (t : TileOp) (o : IOp) (p : Nat) : Nat :=
  let tc := countOf o t.tc
  if t.fr == .e2m1s && !t.scales then p / tc * blocksIn tc + p % tc / 32 else p

/-- The vectors that unit k of a tile load reads. -/
def tileVecs (t : TileOp) (o : IOp) (k : Nat) (s : State) : Vecs :=
  let h := opHandle o t.h
  let nb := blocksIn (countOf o t.tc)
  let q := if t.fr == .e2m1s && !t.scales then tilePos o t h (k / nb) (32 * (k % nb))
    else let rc := tileAt t (countOf o t.tc) k; tilePos o t h rc.1 rc.2
  let p := engParty s .ld t.hdr.cls
  match q with
  | some q =>
    posVecs s p o h q ++ if t.fr == h.fmt || t.scales then [] else scaleVec s p o h (elemAt s p o h q)
  | none => []

/-- A raw E2M1S block as it is read: where its scale stands for a poisoned byte, so does every element (R152, R162). -/
def rawBlock (d : List (Byte × Bool)) : List Nat :=
  (List.range d.length).map fun k => if k < 16 && (d.getD 16 (0, false)).2 then 0 else (d.getD k (0, false)).1.toNat

/-- Unit k of LDT. -/
def ldtUnit (t : TileOp) (o : IOp) (k : Nat) (s : State) : Except Stop (State × Flags) :=
  let h := opHandle o t.h
  let p := engParty s .ld t.hdr.cls
  if t.fr == .e2m1s && !t.scales then
    match blockElem s p o t h k with
    | .error x => .error x
    | .ok none => .ok (setRegBytes s t.reg (rawByte k) (List.replicate 18 0), 0)
    | .ok (some e) =>
      match readData s p (hndLoc h p.job (h.base + 18 * (e / 32))) 18 none with
      | .error x => .error x
      | .ok d => .ok (setRegBytes s t.reg (rawByte k) (rawBlock d), flIf (d.any Prod.snd) flPOI)
  else loadTo s p (curOp s.job .ld) h t.reg t.fr t.rm t.hdr.sat t.scales k (tileElem s p o t h k)

def execLdt (t : TileOp) (s : State) : Result :=
  lsRun .ld (.ldt t) s (fun o => tileUnits o t) (prog := tileProg t) (first := tileFirst t) (vecs := tileVecs t) (ldtUnit t)

/-- Unit k of STT. -/
def sttUnit (t : TileOp) (o : IOp) (k : Nat) (s : State) : Except Stop (State × Flags) :=
  let h := opHandle o t.h
  let p := engParty s .st t.hdr.cls
  if t.fr == .e2m1s && !t.scales then
    match blockElem s p o t h k with
    | .error x => .error x
    | .ok none => .ok (s, 0)
    | .ok (some e) =>
      match putData s p h (h.base + 18 * (e / 32))
          ((List.range 18).map fun i => BitVec.ofNat 8 (regByte s.job t.reg (rawByte k + i))) with
      | .error x => .error x
      | .ok s => .ok (s, 0)
  else storeFrom s p h t.reg t.fr t.rm t.hdr.sat t.scales (tileElem s p o t h) (tileUnits o t) k

def execStt (t : TileOp) (s : State) : Result :=
  lsRun .st (.stt t) s (fun o => tileUnits o t) (prog := tileProg t) (first := tileFirst t) (sttUnit t)

/-! ### Linear operations (R157) -/

/-- The units of one pass of a linear operation. -/
def linUnits (o : IOp) (l : LinOp) : Nat := linTotal l.scales (opHandle o l.h) (countOf o l.start) (countOf o l.n)

/-- The element of operation index k of a linear operation of n units; part 1 takes the blocks that its positions touch. The width vector
of a TREE handle is not read: R157 maps positions by the extents (DESIGN CHOICE, log entry 62). -/
def linElem (s : State) (p : Party) (o : IOp) (l : LinOp) (h : Hnd) (n k : Nat) : Except Stop (Option Int) :=
  let start := countOf o l.start
  if k < n then elemAtOpt s p o h (linearPos h (if l.scales then blockStart h (linBlock h start + k) else start + k)) else .ok none

/-- Unit k of LDV. -/
def ldvUnit (l : LinOp) (o : IOp) (k : Nat) (s : State) : Except Stop (State × Flags) :=
  let h := opHandle o l.h
  let p := engParty s .ld l.hdr.cls
  loadTo s p o h l.reg l.fr l.rm l.hdr.sat l.scales k (linElem s p o l h (linUnits o l) k)

def execLdv (l : LinOp) (s : State) : Result := lsRun .ld (.ldv l) s (fun o => linUnits o l) (ldvUnit l)

/-- Unit k of LDB. -/
def ldbUnit (l : LinOp) (o : IOp) (k : Nat) (s : State) : Except Stop (State × Flags) :=
  let h := opHandle o l.h
  let p := engParty s .ld l.hdr.cls
  let n := linUnits o l
  if n ≤ k then .ok (setReg s l.reg l.fr k ((curOp s.job .ld).vals.getD (n - 1 - k % n) 0), 0)
  else
    match loadTo s p o h l.reg l.fr l.rm l.hdr.sat l.scales k (linElem s p o l h n k) with
    | .error x => .error x
    | .ok (s, fl) => .ok (keepOp s .ld fun o => { o with vals := regElem s.job l.reg l.fr k :: o.vals }, fl)

/-- The n elements are read once, their values kept for the repeats; with q = 0 none is read (DESIGN CHOICE, log entry 66). -/
def execLdb (l : LinOp) (q : Count) (s : State) : Result :=
  lsRun .ld (.ldb l q) s (fun o => countOf o q * linUnits o l) (ldbUnit l)

/-- Unit k of STV. -/
def stvUnit (l : LinOp) (o : IOp) (k : Nat) (s : State) : Except Stop (State × Flags) :=
  let h := opHandle o l.h
  let p := engParty s .st l.hdr.cls
  storeFrom s p h l.reg l.fr l.rm l.hdr.sat l.scales (linElem s p o l h (linUnits o l)) (linUnits o l) k

def execStv (l : LinOp) (s : State) : Result := lsRun .st (.stv l) s (fun o => linUnits o l) (stvUnit l)

/-! ### Indexed operations (R158) -/

/-- The element that index register element k names; none for the sentinel. -/
def idxElem (s : State) (p : Party) (o : IOp) (x : IdxOp) (h : Hnd) (k : Nat) : Except Stop (Option Int) :=
  let v := regElem s.job x.idx .uint32 k
  if v = 0xFFFFFFFF then .ok none
  else
    match linearPos h v with
    | none => shapeStop k
    | some q => elemAt s p o h q

/-- The scale that unit k of an indexed load reads. -/
def idxVecs (x : IdxOp) (o : IOp) (k : Nat) (s : State) : Vecs :=
  let h := opHandle o x.h
  let p := engParty s .ld x.hdr.cls
  if x.fr == h.fmt || x.scales then [] else scaleVec s p o h (idxElem s p o x h k)

/-- Unit k of LDG. -/
def ldgUnit (x : IdxOp) (o : IOp) (k : Nat) (s : State) : Except Stop (State × Flags) :=
  let h := opHandle o x.h
  let p := engParty s .ld x.hdr.cls
  loadTo s p (curOp s.job .ld) h x.reg x.fr x.rm x.hdr.sat x.scales k (idxElem s p o x h k)

/-- The index of an element is read when its turn comes, after the writes of the elements before it, also where the destination holds the indices
(DESIGN CHOICE, log entry 66). -/
def execLdg (x : IdxOp) (s : State) : Result :=
  lsRun .ld (.ldg x) s (fun o => countOf o x.n) (vecs := idxVecs x) (ldgUnit x)

/-- Unit k of STS. -/
def stsUnit (x : IdxOp) (o : IOp) (k : Nat) (s : State) : Except Stop (State × Flags) :=
  let h := opHandle o x.h
  let p := engParty s .st x.hdr.cls
  storeFrom s p h x.reg x.fr x.rm x.hdr.sat x.scales (idxElem s p o x h) (countOf o x.n) k

def execSts (x : IdxOp) (s : State) : Result := lsRun .st (.sts x) s (fun o => countOf o x.n) (stsUnit x)

/-- The sum of a memory element and a register element of a format, converted once (R158). -/
def staSum (rm : RMode) (sat : Bool) (fr fm : Fmt) (old v : Nat) : Nat × Flags :=
  if fm == .int32 && Fmt.isInt fr then narrow fm sat (intOf fm old + intOf fr v)
  else
    let a := numOf fm old
    let b := numOf fr v
    let r := Num.add rm a b
    if fm == .int32 then toInt fm rm 0 r else finish fm rm sat 0 [a, b] r

/-- The flags of an STA at another device, as its result gives them, with POI for a poisoned element (DESIGN CHOICE, log entry 30). -/
def staFlags (r : Response) : Flags := bits r.result 0 7

/-- Element e read, added to and written by requests of this device or at one moment inside it. -/
def staHere (s : State) (p : Party) (x : IdxOp) (h : Hnd) (k : Nat) (e : Int) : Except Stop (State × Flags) :=
  match elemBits s p h e with
  | .error y => .error y
  | .ok (old, bad) =>
    let (w, fl) := staSum x.rm x.hdr.sat x.fr h.fmt old (regElem s.job x.reg x.fr k)
    match putElem s p h e w with
    | .error y => .error y
    | .ok s => .ok (keepOp s .st fun o => { o with guard := [] }, fl ||| flIf bad flPOI)

/-- The indivisible update of element e. A remote element takes one reduce request, which carries the register element unconverted, its
format, the rounding mode and S (16_fabric.md R349). One that lies at two places which no one request reaches is kept from other parties
while it is read and written there; that begins once no access of another party to it is under way (log entry 16). -/
def staElem (s : State) (p : Party) (x : IdxOp) (h : Hnd) (k : Nat) (e : Int) : Except Stop (State × Flags) :=
  let n := Fmt.bits h.fmt / 8
  let l := hndLoc h p.job (elemByte h e).1
  match twoPlaces s p l n, locate s p .atomic l (min n (64 - l.low)) with
  | .error y, _ | _, .error y => .error y
  | .ok [], .ok (.remote dev ddr pa pol, _) =>
    let v := BitVec.ofNat 64 (regElem s.job x.reg x.fr k)
    match answerTo s p (request s p (.scatterAdd h.fmt x.fr x.rm x.hdr.sat v) dev ddr pa n pol) l.word l.line with
    | .error y => .error y
    | .ok r => .ok (s, staFlags r)
  | .ok two, .ok _ => if two.any (Span.busy s p.unit) then .error .stall else (staHere s p x h k e).mapError (Stop.guarding two)

/-- Unit k of STA. -/
def staUnit (x : IdxOp) (o : IOp) (k : Nat) (s : State) : Except Stop (State × Flags) :=
  let h := opHandle o x.h
  let p := engParty s .st x.hdr.cls
  match idxElem s p o x h k with
  | .error y => .error y
  | .ok none => .ok (s, 0)
  | .ok (some e) => staElem s p x h k e

def execSta (x : IdxOp) (s : State) : Result := lsRun .st (.sta x) s (fun o => countOf o x.n) (staUnit x)

/-! ### LDZ and STQ (R159, R160) -/

/-- Set the zero-map bit of the block at a place (10_scratchpad.md R243). -/
def setZero (s : State) : Place → State
  | .here (.spad c) a _ => { s with zeroMap := sset s.zeroMap (c * 8192 + a / 1024) 1 }
  | _ => s

/-- Unit k of LDZ: a block of 1,024 bytes. -/
def ldzUnit (z : LdzOp) (o : IOp) (k : Nat) (s : State) : Except Stop (State × Flags) :=
  let h := opHandle o z.h
  let p := engParty s .ld z.hdr.cls
  let l := hndLoc h p.job (h.base + 1024 * (k : Int))
  match locate s p .read l 1024, readExact s p .read l 1024 with
  | .error y, _ | _, .error y => .error y
  | .ok (pl, _), .ok b =>
    let zero := b.all (· == 0)
    let s := if zero then setZero s pl else s
    .ok (if z.reg == .none then s else setReg s z.reg .uint8 k (if zero then 1 else 0), 0)

def execLdz (z : LdzOp) (s : State) : Result := lsRun .ld (.ldz z) s (fun o => countOf o z.n) (ldzUnit z)

/-- The 32 columns of block k of a tile with the values that they hold in the registers; none where absent. -/
def stqBlock (j : Job) (o : IOp) (t : TileOp) (h : Hnd) (k : Nat) : List (Option Num) :=
  let tc := countOf o t.tc
  let nb := blocksIn tc
  let r := k / nb
  (List.range 32).map fun i =>
    let c := 32 * (k % nb) + i
    if c < tc && (match tilePos o t h r c with | some q => q.within h | none => false) then
      some (numOf .fp32 (regElem j t.reg .fp32 (r * tc + c)))
    else none

/-- Unit k of STQ: a block of 32 columns. -/
def stqUnit (t : TileOp) (o : IOp) (k : Nat) (s : State) : Except Stop (State × Flags) :=
  let h := opHandle o t.h
  let p := engParty s .st t.hdr.cls
  let l := stqBlock s.job o t h k
  match blockElem s p o t h k with
  | .error y => .error y
  | .ok none => .ok (s, 0)
  | .ok (some e) =>
    if l.all Option.isNone then .ok (s, 0)
    else if h.fmt == .e2m1s then
      let (d, fl) := quantE2m1s l
      match putData s p h (h.base + 18 * (e / 32)) (d.map (BitVec.ofNat 8)) with
      | .error y => .error y
      | .ok s => .ok (s, fl)
    else
      let (q, c, fl) := quantMx l
      match putData s p h (elemByte h e).1 (q.map (BitVec.ofNat 8)) with
      | .error y => .error y
      | .ok s =>
        match putData s p h (scaleAddr h e) [BitVec.ofNat 8 c] with
        | .error y => .error y
        | .ok s => .ok (s, fl)

/-- Progress counts elements; the units are blocks. -/
def execStq (t : TileOp) (s : State) : Result :=
  lsRun .st (.stq t) s (fun o => countOf o t.tr * blocksIn (countOf o t.tc)) (stqUnit t)
    (fun o k => let tc := countOf o t.tc; k / blocksIn tc * tc + 32 * (k % blocksIn tc))
    (fun o p => let tc := countOf o t.tc; p / tc * blocksIn tc + p % tc / 32)

/-! ### The first unit -/

/-- What stops the first unit of an LD or ST operation that has units. -/
def lsFirst (s : State) (o : IOp) (i : Instr) : Option Stop :=
  let unit : Option (IOp → Nat → State → Except Stop (State × Flags)) :=
    match i with
    | .ldt t => some (ldtUnit t)
    | .ldv l => some (ldvUnit l)
    | .ldb l _ => some (ldbUnit l)
    | .ldg x => some (ldgUnit x)
    | .ldz z => some (ldzUnit z)
    | .stt t => some (sttUnit t)
    | .stv l => some (stvUnit l)
    | .sts x => some (stsUnit x)
    | .sta x => some (staUnit x)
    | .stq t => some (stqUnit t)
    | _ => none
  match unit with
  | some k => if (lsInfo o i).any fun x => x.total != 0 then stopOf (k o 0 s) else none
  | none => none

end Sys2Proof.Machine
end

