-- ==== Sys2Proof/Machine/Matrix.lean ====
section
/-! DEFINITION. The operations of the matrix array (09_matrix.md R206 to R229, 02_numbers.md R32 to R37). -/

namespace Sys2Proof.Machine

/-! ### Sums (02_numbers.md R32 to R36) -/

/-- The flags that the array sets (R32). -/
def arrayFlags : Flags := flNV ||| flOF ||| flSAT

/-- What NaN and infinity make of terms, bad telling that a product is infinity times zero and nan that an operand is NaN: the
result, or none where every term is finite (R32). -/
def specialSum (nan bad : Bool) (terms : List Num) : Option (Nat × Flags) :=
  let pos := terms.contains (.inf false)
  let neg := terms.contains (.inf true)
  if nan then some (nanBits .fp32, 0)
  else if bad || (pos && neg) then some (nanBits .fp32, flNV)
  else if pos then some (infBits .fp32, 0)
  else if neg then some (signBit .fp32 true + infBits .fp32, 0)
  else none

/-- An operand of the products is NaN; a product is infinity times zero. -/
def nanOperand (p : List (Num × Num)) : Bool := p.any fun q => q.1.isNan || q.2.isNan
def infTimesZero (p : List (Num × Num)) : Bool :=
  p.any fun q => (q.1.isInf && q.2.isZero) || (q.1.isZero && q.2.isInf)

/-- The exact products. -/
def products (p : List (Num × Num)) : List Num := p.map fun q => q.1.mul q.2

/-- rne_fp32 of an exact value, with the flags that the array sets. -/
def arrayRound (sat : Bool) (x : Num) : Nat × Flags :=
  let (v, fl) := roundNum .fp32 .rne sat 0 x
  (v, fl &&& arrayFlags)

/-- floor(log2 |x|) of the largest finite non-zero term; none where there is none. -/
def topExp (l : List Num) : Option Int :=
  l.foldl (fun a x => match x, a with
    | .fin _ m e, none => some (m.log2 + e)
    | .fin _ m e, some b => some (max b (m.log2 + e))
    | _, a => a) none

/-- One K-step of an FP32 output (R32). -/
def kStep (sat : Bool) (acc : Nat) (p : List (Num × Num)) : Nat × Flags :=
  let a := numOf .fp32 acc
  let terms := a :: products p
  match specialSum (a.isNan || nanOperand p) (infTimesZero p) terms with
  | some r => r
  | none =>
    match topExp terms with
    | none => (if terms.all (· == .zero true) then signBit .fp32 true else 0, 0)
    | some e =>
      let v := terms.foldl (fun s t => s + t.units (e - 50)) 0
      if v = 0 then (0, 0) else arrayRound sat (Num.scaled v (e - 50) false)

/-- One K-step of an INT32 output (R34). -/
def intStep (sat : Bool) (acc : Nat) (p : List (Int × Int)) : Nat × Flags :=
  narrow .int32 sat (p.foldl (fun s q => s + q.1 * q.2) (intOf .int32 acc))

/-- The unscaled sum of a block (R35). -/
def partialSum (sat : Bool) (p : List (Num × Num)) : Nat × Flags :=
  let terms := products p
  match specialSum (nanOperand p) (infTimesZero p) terms with
  | some r => r
  | none => arrayRound sat (sumNums .rne terms).1

/-- One block joined to an accumulator (R36). -/
def accBlock (sat int : Bool) (acc blk ca cb : Nat) : Nat × Flags :=
  if ca % 256 = 255 || cb % 256 = 255 then (nanBits .fp32, 0)
  else
    let v := if int then numOf .fp32 (arrayRound false (Num.ofInt (intOf .int32 blk))).1 else numOf .fp32 blk
    let a := numOf .fp32 acc
    let w := v.scale ((ca % 256 : Nat) - 127 + ((cb % 256 : Nat) - 127))
    match specialSum (a.isNan || v.isNan) false [a, w] with
    | some r => r
    | none => arrayRound sat (a.add .rne w)

/-! ### Operands (R211 to R215, R219) -/

/-- A lane's element as its bit pattern; an E2M1S code 8 carries its special byte above it (02_numbers.md R20). none: absent. -/
abbrev Lane := Option Nat

/-- The value of a lane's element, unscaled. -/
def laneNum (f : Fmt) (v : Nat) : Num := if f == .e2m1s then e2m1sElem v (v / 16) else numOf f v

/-- The code of an E2M1S element with its block's special byte. -/
def withSpecial (code special : Nat) : Nat := if code = 8 then 8 + 16 * special else code

/-- Lanes of an INT8 or MXINT8 operand. -/
def isIntOperand (f : Fmt) : Bool := f == .int8 || f == .mxint8

/-- Element e of a handle as a lane; a substituted one is zero and sets POI (R227). -/
def laneAt (s : State) (p : Party) (h : Hnd) (e : Int) : Except Stop (Nat × Flags) :=
  match elemBits s p h e with
  | .error x => .error x
  | .ok (v, bad) =>
    if bad then .ok (0, flPOI)
    else if h.fmt == .e2m1s && v = 8 then
      match dataNat s p h (scaleAddr h e + 1) 1 with
      | .error x => .error x
      | .ok (sp, bad) => .ok (if bad then (0, flPOI) else (withSpecial v sp, 0))
    else .ok (v, 0)

/-- The element numbers of n lanes of row r from lane index lane on (R213). -/
def laneElems (s : State) (p : Party) (o : IOp) (h : Hnd) (r : Nat) : Nat → Nat → Except Stop (List (Option Int))
  | _, 0 => .ok []
  | lane, n + 1 =>
    match elemAt s p o h { i0 := lane, i1 := r, i2 := 0, i3 := 0 } with
    | .error x => .error x
    | .ok e =>
      match laneElems s p o h r (lane + 1) n with
      | .error x => .error x
      | .ok es => .ok (e :: es)

/-- The lanes at element numbers. -/
def lanesAt (s : State) (p : Party) (h : Hnd) : List (Option Int) → Except Stop (List Lane × Flags)
  | [] => .ok ([], 0)
  | none :: r =>
    match lanesAt s p h r with
    | .error x => .error x
    | .ok (l, fl) => .ok (none :: l, fl)
  | some e :: r =>
    match laneAt s p h e with
    | .error x => .error x
    | .ok (v, f) =>
      match lanesAt s p h r with
      | .error x => .error x
      | .ok (l, fl) => .ok (some v :: l, f ||| fl)

/-- Lanes per row of a register source (R211). -/
def sourceLanes (f : Fmt) (k : Nat) : Nat := if f.isBlock then (k + 31) / 32 * 32 else k

/-- Element t of a register source (R211, 08_vector.md R181). -/
def sourceLane (j : Job) (r : RegSlot) (f : Fmt) (t : Nat) : Nat :=
  if f == .e2m1s then
    let b := rawByte (t / 32)
    withSpecial (regByte j r (b + t % 32 / 2) / 16 ^ (t % 2) % 16) (regByte j r (b + 17))
  else regElem j r f t

/-- Every byte of element e lies in a block whose zero-map bit is set. -/
def zeroElem (s : State) (p : Party) (h : Hnd) (e : Int) : Bool :=
  (List.range (max 1 (Fmt.bits h.fmt / 8))).all fun i =>
    match locate s p .read (hndLoc h p.job ((elemByte h e).1 + i)) 1 with
    | .ok (.here (.spad c) a _, _) => sget s.zeroMap (c * 8192 + a / 1024) == 1
    | _ => false

/-- The bytes of every present lane lie in zero blocks (R215). -/
def zeroRow (s : State) (p : Party) (h : Hnd) (es : List (Option Int)) : Bool :=
  es.all fun e => match e with | some e => zeroElem s p h e | none => true

/-- Tag and position at a handle index (R214). -/
def tagPos (s : State) (p : Party) (o : IOp) (h : Hnd) (r : Nat) : Except Stop (Option (Nat × Nat)) :=
  if h.kind == .ragged then
    match segOffsets s p o h with
    | .error x => .error x
    | .ok off => .ok ((segOf off r).map fun q => (q.1, q.2.toNat))
  else .ok (some (0, r))

/-- The pair of a row and a column is not masked (R214). -/
def unmasked (m : MaskMode) (a b : Option (Nat × Nat)) : Bool :=
  match m with
  | .none => true
  | .seg => match a, b with | some x, some y => x.1 == y.1 | _, _ => false
  | .segc => match a, b with | some x, some y => x.1 == y.1 && y.2 ≤ x.2 | _, _ => false

/-- A row of A or a column of B: its tag and its lanes. -/
structure Row where
  tag : Option (Nat × Nat)
  lanes : List Lane
  deriving DecidableEq, Repr

/-- Where an operand of MLB, MMA or MMB comes from. -/
structure PassSource where
  h : Hnd
  reg : RegSlot
  fmt : Fmt
  org : Nat
  lane : Nat
  k : Nat
  /-- zero rows may be skipped: ZSKIP of an A operand, and FIN of the bank -/
  skip : Bool

/-- The lanes of row i. -/
def rowLanes (s : State) (p : Party) (o : IOp) (x : PassSource) (i : Nat) : Except Stop (List Lane × Flags) :=
  if x.reg == .none then
    match laneElems s p o x.h (x.org + i) x.lane x.k with
    | .error e => .error e
    | .ok es =>
      if x.skip && zeroRow s p x.h es then .ok (es.map fun e => e.map fun _ => 0, 0) else lanesAt s p x.h es
  else .ok ((List.range x.k).map fun k => some (sourceLane s.job x.reg x.fmt (i * sourceLanes x.fmt x.k + k)), 0)

/-- The index of a row or column lies in the handle's extents (R213). -/
def rowPresent (h : Hnd) (i : Nat) : Bool := i < h.dim 1 && 0 < h.dim 2 && 0 < h.dim 3

/-- The vectors that the reading of row i takes its tag and its elements from: for an NM handle the metadata of each group of its lanes. -/
def rowVecs (s : State) (p : Party) (o : IOp) (x : PassSource) (all : Bool) (i : Nat) : Vecs :=
  let h := x.h
  let at' := fun lane => posVecs s p o h { i0 := lane, i1 := x.org + i, i2 := 0, i3 := 0 }
  if !all && x.reg == .none && !rowPresent h (x.org + i) then []
  else
    tagVecs s p o h ++
      if x.reg != .none || x.k = 0 then []
      else if h.kind == .nm then
        (List.range (x.k / h.nmM + 2)).flatMap fun g => at' (min (x.lane + g * h.nmM) (min (x.lane + x.k) (h.dim 0) - 1))
      else at' x.lane

/-- The vectors of the n rows from row i on, kept by the started operation (06_registers.md R152). -/
def keepRowVecs (s : State) (p : Party) (x : PassSource) (all : Bool) (i n : Nat) : State :=
  let o := curOp s.job .mx
  keepOp s .mx fun y => y.keep ((List.range n).flatMap fun k => rowVecs s p o x all (i + k))

/-- Row i: none where it lies outside the handle and all is false. Its tag is found before its elements are read (R219, R220). -/
def fetchRow (s : State) (p : Party) (o : IOp) (x : PassSource) (all : Bool) (i : Nat) : Except Stop (Option Row × Flags) :=
  if !all && x.reg == .none && !rowPresent x.h (x.org + i) then .ok (none, 0)
  else
    match tagPos s p o x.h (x.org + i), rowLanes s p o x i with
    | .error e, _ | .ok _, .error e => .error e
    | .ok tag, .ok (lanes, fl) => .ok (some { tag, lanes }, fl)

/-- The n rows from row i on. -/
def fetchRows (s : State) (p : Party) (o : IOp) (x : PassSource) (all : Bool) : Nat → Nat → Except Stop (List (Option Row) × Flags)
  | _, 0 => .ok ([], 0)
  | i, n + 1 =>
    match fetchRow s p o x all i with
    | .error e => .error e
    | .ok (r, f) =>
      match fetchRows s p o x all (i + 1) n with
      | .error e => .error e
      | .ok (l, fl) => .ok (r :: l, f ||| fl)

/-! ### The array state (R206) -/

/-- A bank of the focused job. -/
def bankOf (j : Job) (one : Bool) : Bank := if one then j.matrix.bank1 else j.matrix.bank0

/-- Lane k of column c of a bank. -/
def Bank.lane (b : Bank) (c k : Nat) : Lane :=
  let v := (sget b.elems (c * 256 + k)).toNat
  if v = 0 then none else some (v - 1)

/-- The tag of column c. -/
def Bank.tag (b : Bank) (c : Nat) : Option (Nat × Nat) := b.tags.getD c none

/-- Change the array state of the focused job. -/
def putMatrix (s : State) (m : Matrix) : State := { s with job := { s.job with matrix := m } }

/-- Accumulator keys. -/
def accKey (r c : Nat) : Nat := r * 96 + c

/-- An accumulator. -/
def Matrix.accAt (m : Matrix) (r c : Nat) : Nat := (sget m.acc (accKey r c)).toNat

/-- An accumulator written, and live. -/
def Matrix.putAcc (m : Matrix) (r c v : Nat) : Matrix :=
  { m with acc := sset m.acc (accKey r c) (BitVec.ofNat 32 v), live := sset m.live (accKey r c) 1 }

/-- The lanes from lo to hi - 1 that are present on both sides, as values. -/
def pairs (fa fb : Fmt) (a : List Lane) (b : Nat → Lane) (lo hi : Nat) : List (Num × Num) :=
  (List.range (hi - lo)).filterMap fun i =>
    match a.getD (lo + i) none, b (lo + i) with
    | some x, some y => some (laneNum fa x, laneNum fb y)
    | _, _ => none

/-- The same as integers. -/
def intPairs (a : List Lane) (b : Nat → Lane) (lo hi : Nat) : List (Int × Int) :=
  (List.range (hi - lo)).filterMap fun i =>
    match a.getD (lo + i) none, b (lo + i) with
    | some x, some y => some (intOf .int8 x, intOf .int8 y)
    | _, _ => none

/-- One K-step of an accumulator over lanes lo to hi - 1; none where no lane is present (R220, R225). -/
def stepAcc (sat : Bool) (fa fb : Fmt) (acc : Nat) (a : List Lane) (b : Nat → Lane) (lo hi : Nat) : Option (Nat × Flags) :=
  if isIntOperand fa then
    let p := intPairs a b lo hi
    if p.isEmpty then none else some (intStep sat acc p)
  else
    let p := pairs fa fb a b lo hi
    if p.isEmpty then none else some (kStep sat acc p)

/-! ### Checks at issue (R207, R212, R218) -/

/-- The largest K of a B operand (R207). -/
def laneLimit (f : Fmt) (nm : Bool) : Nat :=
  match f with
  | .bf16 | .fp16 => if nm then 128 else 64
  | .e2m1s => 256
  | _ => if nm then 256 else 128

/-- The formats of an operand of MLB, MMA or MMB with the pattern's format. -/
def passAccept (kinds : List HKind) (src : RegSlot) (f : Fmt) : Accept :=
  { accepts (if src == .none then kinds else denseKinds) (fun g => src != .none || g == f) with rowsOnly := true }

/-- The span of a register source lies in the allotment (R211). -/
def sourceOk (j : Job) (r : RegSlot) (f : Fmt) (n k : Nat) : Bool :=
  r == .none || (if f == .e2m1s then regAllotted j r 0 && regAllotted j r ((n * ((k + 31) / 32) - 1) / 227)
    else spanAllotted j r (n * sourceLanes f k) (Fmt.bits f))

/-- The checks of an operand: its register span, its handle. -/
def operandCheck (j : Job) (o : IOp) (kinds : List HKind) (h : Fin 16) (src : RegSlot) (f : Fmt) (n k : Nat) :
    Option (Cause × Word) :=
  if !sourceOk j src f n k then some (slotFault src) else handleCheck o h (passAccept kinds src f)

/-- The first limit that a value exceeds. -/
def limits (l : List (Nat × Nat)) : Option (Cause × Word) :=
  (l.find? fun x => x.2 < x.1).map fun x => (.shapeInvalid, BitVec.ofNat 64 x.1)

/-- Kinds of A operands (R212), and of B operands. -/
def aKinds : List HKind := [.dense, .ragged, .gather, .window]
def bKinds : List HKind := [.dense, .ragged, .nm]

/-- What MMAD accepts of a handle: SPAD and SIB, and no other flag. -/
def mmadAccept (kinds : List HKind) (f : Fmt) : Accept :=
  { kinds, fmts := fun g => g == f, needSpad := true, needSib := true, align := 1, rowsOnly := true, plain := true }

/-- The bank limits of a pass over K lanes with an A format (R218). Where several fail, TVAL is that of the first in the order of the rule, and
the limit of R207 is that of the A format, whatever the bank holds (DESIGN CHOICE, log entry 63). -/
def bankCheck (b : Bank) (pair : Fmt → Fmt → Bool) (f : Fmt) (k : Nat) : Option (Cause × Word) :=
  match limits [(k, laneLimit f b.nm), (k, b.k)] with
  | some e => some e
  | none => if k != 0 && !pair f b.fmt then some (.shapeInvalid, (Fmt.code f).setWidth 64) else none

/-- Both checks in order. -/
def firstFault (a b : Option (Cause × Word)) : Option (Cause × Word) := match a with | some e => some e | none => b

/-- The checks 3 and 4 of R60 for a matrix operation with its issued copy. -/
def mxCheck (j : Job) (o : IOp) : Instr → Option (Cause × Word)
  | .mlb x =>
    let n := countOf o x.n
    let k := countOf o x.k
    firstFault (operandCheck j o bKinds x.h x.src x.fmt n k)
      (limits [(n, 96), (k, laneLimit x.fmt (x.src == .none && (handleOf o o.handles[x.h]).kind == .nm))])
  | .mma x =>
    let m := countOf o x.m
    let k := countOf o x.k
    firstFault (operandCheck j o aKinds x.h x.src x.fmt m k)
      (firstFault (limits [(m, 256), (x.base.val + m, 256)]) (bankCheck (bankOf j x.bank) mmaPair x.fmt k))
  | .mmb x =>
    let m := countOf o x.m
    let k := countOf o x.k
    firstFault (operandCheck j o aKinds x.h x.src x.fmt m k)
      (firstFault (limits [(m, 32)]) (bankCheck (bankOf j x.bank) mmbPair x.fmt k))
  | .msa x =>
    let m := countOf o x.m
    let n := countOf o x.n
    let k := countOf o x.k
    let nb := (k + 31) / 32
    if !spanAllotted j x.ra (m * nb) 8 then some (slotFault x.ra)
    else if !spanAllotted j x.rb (n * nb) 8 then some (slotFault x.rb)
    else limits [(m, 32), (x.base.val + m, 256), (n, 96), (k, 256)]
  | .macz x =>
    let m := countOf o x.m
    limits [(m, 256), (x.base.val + m, 256)]
  | .macr x | .macw x =>
    let m := countOf o x.m
    let n := countOf o x.n
    if !spanAllotted j x.reg (m * n) (Fmt.bits x.fmt) then some (slotFault x.reg)
    else limits [(m, 256), (x.base.val + m, 256), (n, 96)]
  | .mmad x =>
    let hs : List (Fin 16 × Accept) :=
      [(x.ha, mmadAccept denseKinds x.af), (x.hb, mmadAccept bKinds x.bf), (x.hc, mmadAccept denseKinds x.cf)]
    match hs.findSome? fun q => handleCheck o q.1 q.2 with
    | some e => some e
    | none => limits [(countOf o x.m, 256), (countOf o x.n, 96)]
  | _ => none

/-- A matrix operation: its checks, then its run on the copy it issued with. -/
def mxRun (i : Instr) (s : State) (k : IOp → State) : Result :=
  let o := curOp s.job .mx
  .next (match mxCheck s.job o i with
    | some (c, v) => trapOp s .mx c v 0
    | none => k o)

/-! ### MLB, MMA, MMB (R219 to R221) -/

/-- The elements of a column put into a bank. -/
def putLanes (m : Sparse 34) (c : Nat) : Nat → List Lane → Sparse 34
  | _, [] => m
  | k, v :: r => putLanes (match v with | some v => sset m (c * 256 + k) (BitVec.ofNat 34 (v + 1)) | none => m) c (k + 1) r

/-- The bank that columns give. -/
def newBank (n k : Nat) (f : Fmt) (nm : Bool) (cols : List Row) : Bank :=
  { n, k, fmt := f, nm
    fin := cols.all fun c => c.lanes.all fun v => match v with
      | some v => !(laneNum f v).isNan && !(laneNum f v).isInf
      | none => true
    elems := (List.range cols.length).foldl (fun m c => putLanes m c 0 ((cols[c]?.map Row.lanes).getD [])) []
    tags := cols.map Row.tag }

/-- The operand of MLB. -/
def mlbSource (o : IOp) (x : MlbOp) : PassSource :=
  { h := handleOf o o.handles[x.h], reg := x.src, fmt := x.fmt, org := countOf o x.org, lane := countOf o x.lane, k := countOf o x.k
    skip := false }

def execMlb (x : MlbOp) (s : State) : Result :=
  mxRun (.mlb x) s fun o =>
    let h := handleOf o o.handles[x.h]
    let n := countOf o x.n
    let k := countOf o x.k
    let src := mlbSource o x
    let p := engParty s .mx x.hdr.cls
    let s := keepRowVecs s p src true 0 n
    match fetchRows s p (curOp s.job .mx) src true 0 n with
    | .error e => stopOp s .mx 0 0 e
    | .ok (cols, fl) =>
      let b := newBank n k x.fmt (x.src == .none && h.kind == .nm) (cols.filterMap id)
      let m := s.job.matrix
      completeOp (putMatrix s (if x.bank then { m with bank1 := b } else { m with bank0 := b })) .mx fl

/-- A row of A against the columns of a bank (R220). -/
def mmaRow (sat : Bool) (mask : MaskMode) (f : Fmt) (b : Bank) (k r : Nat) (a : Row) (m : Matrix) : Matrix × Flags :=
  (List.range b.n).foldl (fun (m, fl) c =>
    if unmasked mask a.tag (b.tag c) then
      match stepAcc sat f b.fmt (m.accAt r c) a.lanes (b.lane c) 0 k with
      | some (v, g) => (m.putAcc r c v, fl ||| g)
      | none => (m, fl)
    else (m, fl)) (m, 0)

/-- Rows of A from row r of the accumulators on. -/
def mmaRows (sat : Bool) (mask : MaskMode) (f : Fmt) (b : Bank) (k : Nat) : Nat → List (Option Row) → Matrix × Flags → Matrix × Flags
  | _, [], x => x
  | r, a :: l, (m, fl) =>
    mmaRows sat mask f b k (r + 1) l (match a with
      | some a => let (m, g) := mmaRow sat mask f b k r a m; (m, fl ||| g)
      | none => (m, fl))

/-- The blocks of 32 rows of A from row i on, exact at the first that stops (R226): run applies the rows of a block. A pass with
K = 0 has no effect (R218). -/
def rowBlocks (x : PassSource) (c : Cls) (m : Nat) (all : Bool)
    (run : Nat → List (Option Row) → Matrix → Matrix × Flags) : Nat → Nat → Flags → State → State
  | 0, i, fl, s => if m ≤ i || x.k = 0 then completeOp s .mx fl else noteProgress s .mx i fl
  | n + 1, i, fl, s =>
    if m ≤ i || x.k = 0 then completeOp s .mx fl
    else
      let p := engParty s .mx c
      let s := keepRowVecs s p x all i (min 32 (m - i))
      match fetchRows s p (curOp s.job .mx) x all i (min 32 (m - i)) with
      | .error e => stopOp s .mx i fl e
      | .ok (rows, f) =>
        let (mx, g) := run i rows s.job.matrix
        rowBlocks x c m all run n (i + 32) (fl ||| f ||| g) (takeReplies (putMatrix s mx) (.eng s.job.id .mx))

/-- The A operand of MMA. -/
def mmaSource (j : Job) (o : IOp) (x : MmaOp) : PassSource :=
  let h := handleOf o o.handles[x.h]
  { h, reg := x.src, fmt := x.fmt, org := countOf o x.org, lane := countOf o x.lane, k := countOf o x.k
    skip := h.zskip && (bankOf j x.bank).fin }

def execMma (x : MmaOp) (s : State) : Result :=
  mxRun (.mma x) s fun o =>
    let b := bankOf s.job x.bank
    let k := countOf o x.k
    rowBlocks (mmaSource s.job o x) x.hdr.cls (countOf o x.m) false
      (fun i rows m => mmaRows x.hdr.sat x.mask x.fmt b k (x.base.val + i) rows (m, 0)) (turnUnits s 9) (o.prog / 32 * 32) 0 s

/-- Block b of an output: its partial sum; none where no lane is present (R221). -/
def blockSum (sat : Bool) (fa fb : Fmt) (a : List Lane) (c : Nat → Lane) (k b : Nat) : Option (Nat × Flags) :=
  let lo := 32 * b
  let hi := min (lo + 32) k
  if isIntOperand fa then
    let p := intPairs a c lo hi
    if p.isEmpty then none else some (intStep false 0 p)
  else
    let p := pairs fa fb a c lo hi
    if p.isEmpty then none else some (partialSum sat p)

/-- One output of MMB. -/
def mmbOut (k i c : Nat) (sums : List (Option (Nat × Flags))) (m : Matrix) : Matrix × Flags :=
  let nb := (k + 31) / 32
  let m := (List.range nb).foldl (fun (m : Matrix) b =>
    { m with bpf := sset m.bpf (accKey i c * 8 + b) (BitVec.ofNat 32 (((sums.getD b none).map Prod.fst).getD 0)) }) m
  ({ m with bpfLive := sset m.bpfLive (accKey i c) (if sums.any Option.isSome then 1 else 0) },
    joinFlags (sums.filterMap fun q => q.map Prod.snd))

/-- A row of MMB against a bank; an absent row or a masked pair gives +0 in every block. -/
def mmbRow (sat : Bool) (mask : MaskMode) (f : Fmt) (b : Bank) (k i : Nat) (a : Option Row) (m : Matrix) : Matrix × Flags :=
  (List.range b.n).foldl (fun (m, fl) c =>
    let sums := (List.range ((k + 31) / 32)).map fun q =>
      match a with
      | some a => if unmasked mask a.tag (b.tag c) then blockSum sat f b.fmt a.lanes (b.lane c) k q else none
      | none => none
    let (m, g) := mmbOut k i c sums m
    (m, fl ||| g)) (m, 0)

/-- Rows of MMB from row i on. -/
def mmbRows (sat : Bool) (mask : MaskMode) (f : Fmt) (b : Bank) (k : Nat) : Nat → List (Option Row) → Matrix × Flags → Matrix × Flags
  | _, [], x => x
  | i, a :: l, (m, fl) => let (m, g) := mmbRow sat mask f b k i a m; mmbRows sat mask f b k (i + 1) l (m, fl ||| g)

/-- The A operand of MMB. -/
def mmbSource (j : Job) (o : IOp) (x : MmbOp) : PassSource :=
  let h := handleOf o o.handles[x.h]
  { h, reg := x.src, fmt := x.fmt, org := countOf o x.org, lane := countOf o x.lane, k := countOf o x.k
    skip := h.zskip && (bankOf j x.bank).fin }

def execMmb (x : MmbOp) (s : State) : Result :=
  mxRun (.mmb x) s fun o =>
    let b := bankOf s.job x.bank
    let k := countOf o x.k
    let src := mmbSource s.job o x
    let s := if k = 0 then s else putMatrix s { s.job.matrix with bpfInt := x.fmt == .mxint8 }
    rowBlocks src x.hdr.cls (countOf o x.m) false
      (fun i rows m => mmbRows x.hdr.sat x.mask x.fmt b k i rows (m, 0)) (turnUnits s 2) (o.prog / 32 * 32) 0 s

/-! ### MSA, MACZ, MACR, MACW (R222 to R224) -/

/-- The blocks of one output joined to its accumulator in ascending order. -/
def msaOut (sat : Bool) (m : Matrix) (i c : Nat) (ca cb : Nat → Nat) (nb acc : Nat) : Nat × Flags :=
  (List.range nb).foldl (fun (a, fl) b =>
    let (v, g) := accBlock sat m.bpfInt a (sget m.bpf (accKey i c * 8 + b)).toNat (ca b) (cb b)
    (v, fl ||| g)) (acc, 0)

def execMsa (x : MsaOp) (s : State) : Result :=
  mxRun (.msa x) s fun o =>
    let nb := (countOf o x.k + 31) / 32
    let j := s.job
    let outs := (List.range (countOf o x.m)).flatMap fun i => (List.range (countOf o x.n)).map fun c => (i, c)
    let (m, fl) := outs.foldl (fun (m, fl) (i, c) =>
      if sget m.bpfLive (accKey i c) = 1 then
        let r := x.base.val + i
        let (v, g) := msaOut x.hdr.sat m i c (fun b => regByte j x.ra (i * nb + b)) (fun b => regByte j x.rb (c * nb + b)) nb
          (m.accAt r c)
        (m.putAcc r c v, fl ||| g)
      else (m, fl)) (j.matrix, (0 : Flags))
    completeOp (putMatrix s m) .mx fl

def execMacz (x : MaczOp) (s : State) : Result :=
  mxRun (.macz x) s fun o =>
    let lo := accKey x.base.val 0
    let hi := accKey (x.base.val + countOf o x.m) 0
    let m := s.job.matrix
    let m := { m with acc := sclear m.acc lo hi, live := sclear m.live lo hi }
    completeOp (putMatrix s (if x.bpf then { m with bpf := [], bpfInt := false, bpfLive := [] } else m)) .mx 0

/-- The value that a fill code gives, as a bit pattern of the class; none where nothing is filled. -/
def Fill.bits : Fill → Option Nat
  | .none => none
  | .ninf => some (signBit .fp32 true + infBits .fp32)
  | .zero => some 0
  | .val v => some v.toNat

/-- The format of the accumulators' class (R216). -/
def classFmt (int : Bool) : Fmt := if int then .int32 else .fp32

/-- The outputs of m rows and n columns with their element index. -/
def outputs (m n : Nat) : List (Nat × Nat × Nat) :=
  (List.range m).flatMap fun i => (List.range n).map fun c => (i, c, i * n + c)

def execMacr (x : MacOp) (s : State) : Result :=
  mxRun (.macr x) s fun o =>
    let m := s.job.matrix
    let (j, fl) := (outputs (countOf o x.m) (countOf o x.n)).foldl (fun (j, fl) (i, c, t) =>
      let r := x.base.val + i
      let v := if sget m.live (accKey r c) = 0 then (Fill.bits x.fill).getD (m.accAt r c) else m.accAt r c
      let (w, g) := convert (classFmt x.int) x.fmt x.rm x.hdr.sat 0 v
      (setElem j x.reg x.fmt t w, fl ||| g)) (s.job, (0 : Flags))
    completeOp { s with job := j } .mx fl

def execMacw (x : MacOp) (s : State) : Result :=
  mxRun (.macw x) s fun o =>
    let j := s.job
    let (m, fl) := (outputs (countOf o x.m) (countOf o x.n)).foldl (fun (m, fl) (i, c, t) =>
      let (w, g) := convert x.fmt (classFmt x.int) x.rm x.hdr.sat 0 (regElem j x.reg x.fmt t)
      (Matrix.putAcc m (x.base.val + i) c w, fl ||| g)) (j.matrix, (0 : Flags))
    completeOp (putMatrix s m) .mx fl

/-! ### MMAD (R225) -/

/-- The K-steps of one output from lane 0 on: the accumulator, whether it received a product, the flags. -/
def mmadSteps (sat : Bool) (fa fb : Fmt) (l k : Nat) (a b : List Lane) : Nat → Nat → Nat × Bool × Flags → Nat × Bool × Flags
  | 0, _, x => x
  | n + 1, lo, (acc, got, fl) =>
    mmadSteps sat fa fb l k a b n (lo + l) (match stepAcc sat fa fb acc a (fun i => b.getD i none) lo (min (lo + l) k) with
      | some (v, g) => (v, true, fl ||| g)
      | none => (acc, got, fl))

/-- The C value that an output starts from, as the operation has read it, or +0. -/
def IOp.startAt (o : IOp) (i c : Nat) : Nat := lookupD 0 o.start (i, c)

/-- The C elements of row i that its outputs start from, in columns c, c + 1, …, of those of B that are present. -/
def startRow (s : State) (p : Party) (o : IOp) (hc : Hnd) (i : Nat) : Nat → List (Option Row) →
    Except Stop (List ((Nat × Nat) × Nat) × Flags)
  | _, [] => .ok ([], 0)
  | c, b :: r =>
    let one : Except Stop (List ((Nat × Nat) × Nat) × Flags) :=
      match b, elemAt s p o hc { i0 := c, i1 := i, i2 := 0, i3 := 0 } with
      | _, .error y => .error y
      | none, _ | _, .ok none => .ok ([], 0)
      | some _, .ok (some e) => (elemBits s p hc e).map fun v => ([((i, c), v.1)], flIf v.2 flPOI)
    match one with
    | .error y => .error y
    | .ok (q, f) =>
      match startRow s p o hc i (c + 1) r with
      | .error y => .error y
      | .ok (qs, fl) => .ok (q ++ qs, f ||| fl)

/-- Those of the present rows from row i on. -/
def startRows (s : State) (p : Party) (o : IOp) (hc : Hnd) (cols : List (Option Row)) : Nat → List (Option Row) →
    Except Stop (List ((Nat × Nat) × Nat) × Flags)
  | _, [] => .ok ([], 0)
  | i, none :: r => startRows s p o hc cols (i + 1) r
  | i, some _ :: r =>
    match startRow s p o hc i 0 cols with
    | .error y => .error y
    | .ok (q, f) =>
      match startRows s p o hc cols (i + 1) r with
      | .error y => .error y
      | .ok (qs, fl) => .ok (q ++ qs, f ||| fl)

/-- The outputs of row i in columns c, c + 1, …: each a C element and what is written to it. -/
def mmadOuts (s : State) (p : Party) (o : IOp) (x : MmadOp) (hc : Hnd) (l i : Nat) (a : Row) :
    Nat → List (Option Row) → Except Stop (List (Int × Nat) × Flags)
  | _, [] => .ok ([], 0)
  | c, b :: r =>
    let k := countOf o x.k
    let one : Except Stop (Option (Int × Nat) × Flags) :=
      match b, elemAt s p o hc { i0 := c, i1 := i, i2 := 0, i3 := 0 } with
      | _, .error y => .error y
      | none, _ | _, .ok none => .ok (none, 0)
      | some b, .ok (some e) =>
        let acc := if x.acc then o.startAt i c else 0
        let (v, got, g) := if unmasked x.mask a.tag b.tag then
            mmadSteps x.hdr.sat x.af x.bf l k a.lanes b.lanes ((k + l - 1) / l) 0 (acc, false, 0)
          else (acc, false, 0)
        let v := if got then v else (Fill.bits x.fill).getD v
        let (w, h) := convert (classFmt (x.af == .int8)) x.cf x.rm x.hdr.sat 0 v
        .ok (some (e, w), g ||| h)
    match one with
    | .error y => .error y
    | .ok (q, f) =>
      match mmadOuts s p o x hc l i a (c + 1) r with
      | .error y => .error y
      | .ok (qs, fl) => .ok (q.toList ++ qs, f ||| fl)

/-- Elements written in order. -/
def putElems (s : State) (p : Party) (h : Hnd) : List (Int × Nat) → Except Stop State
  | [] => .ok s
  | (e, v) :: r =>
    match putElem s p h e v with
    | .error y => .error y
    | .ok s => putElems s p h r

/-- An operand of MMAD as its rows or columns are read. -/
def mmadSource (o : IOp) (x : MmadOp) (h : Fin 16) (f : Fmt) : PassSource :=
  { h := handleOf o o.handles[h], reg := .none, fmt := f, org := 0, lane := 0, k := countOf o x.k, skip := false }

/-- The party of an MMAD, which the sibling core may run. -/
def mmadParty (s : State) (x : MmadOp) : Party := engParty s .mx x.hdr.cls (curOp s.job .mx).sib

/-- A row that an MMAD has read: row i of A under 2 * i, column c of B under 2 * c + 1. -/
def IOp.row (o : IOp) (k : Nat) : Option (Option Row) :=
  (o.rows.find? fun r => r.1 == k).map fun r => r.2.map fun q => { tag := q.1, lanes := q.2 }

/-- Rows as an MMAD keeps them, under first, first + 2, … -/
def keptRows (first : Nat) (l : List (Option Row)) : List (Nat × Option (Option (Nat × Nat) × List Lane)) :=
  (List.range l.length).map fun k => (first + 2 * k, (l.getD k none).map fun r => (r.tag, r.lanes))

/-- The columns of B that an MMAD holds. -/
def IOp.columns (o : IOp) (n : Nat) : List (Option Row) := (List.range n).map fun c => (o.row (2 * c + 1)).getD none

/-- The C values of a block of rows of A from row lo on, where ACC asks for them. All of a block are read before any output of it is written,
also where elements of C share bytes (R226; DESIGN CHOICE, log entry 63). -/
def fetchStart (s : State) (x : MmadOp) (lo : Nat) (rows : List (Option Row)) (y : IOp) (f : Flags) : Except Stop (IOp × Flags) :=
  if x.acc then
    (startRows s (mmadParty s x) y (handleOf y y.handles[x.hc]) (y.columns (countOf y x.n)) lo rows).map fun q =>
      ({ y with start := q.1 }, f ||| q.2)
  else .ok (y, f)

/-- What an MMAD reads before row i: the block of 32 rows of A that row i lies in, with the first present one the columns of B, and the C values
of the block. An element is read once (R226, R229): the columns stay. -/
def mmadFetch (s : State) (x : MmadOp) (i : Nat) : Except Stop (IOp × Flags) :=
  let o := curOp s.job .mx
  let p := mmadParty s x
  let lo := i / 32 * 32
  let kept := o.rows.filter fun r => r.1 % 2 == 1
  match fetchRows s p o (mmadSource o x x.ha x.af) false lo (min 32 (countOf o x.m - lo)) with
  | .error y => .error y
  | .ok (rows, f) =>
    let block := keptRows (2 * lo) rows
    if rows.all Option.isNone || !kept.isEmpty then fetchStart s x lo rows { o with rows := kept ++ block } f
    else
      match fetchRows s p o (mmadSource o x x.hb x.bf) false 0 (countOf o x.n) with
      | .error y => .error y
      | .ok (cols, g) => fetchStart s x lo rows { o with rows := keptRows 1 cols ++ block } (f ||| g)

/-- Before row i: what it reads, kept by the operation, unless it stands there. A fetch that stops leaves the rows unread, and row i finds
the stop. -/
def mmadKeep (x : MmadOp) (i : Nat) (s : State) : State :=
  let o := curOp s.job .mx
  if (o.row (2 * i)).isSome then s
  else
    let p := mmadParty s x
    let lo := i / 32 * 32
    let s := keepRowVecs s p (mmadSource o x x.ha x.af) false lo (min 32 (countOf o x.m - lo))
    let s := keepRowVecs s p (mmadSource o x x.hb x.bf) false 0 (countOf o x.n)
    match mmadFetch s x i with
    | .error _ => s
    | .ok (y, f) => keepOp s .mx fun o => { o with rows := y.rows, start := y.start, flags := o.flags ||| f }

/-- Row i of the product: its C elements written, from A's row and every column of B. -/
def mmadRow (o : IOp) (x : MmadOp) (i : Nat) (s : State) : Except Stop (State × Flags) :=
  let cur := curOp s.job .mx
  let fetched : Except Stop (IOp × Flags) := if (cur.row (2 * i)).isSome then .ok (cur, 0) else mmadFetch s x i
  match fetched with
  | .error y => .error y
  | .ok (y, f) =>
    match y.row (2 * i) with
    | some (some a) =>
      let hc := handleOf o o.handles[x.hc]
      let p := mmadParty s x
      let nm := (handleOf o o.handles[x.hb]).kind == .nm
      match mmadOuts s p y x hc (laneLimit x.af nm) i a 0 (y.columns (countOf o x.n)) with
      | .error y => .error y
      | .ok (outs, fl) =>
        match putElems s p hc outs with
        | .error y => .error y
        | .ok s => .ok (s, f ||| fl)
    | _ => .ok (s, f)

def execMmad (x : MmadOp) (s : State) : Result :=
  mxRun (.mmad x) s fun o =>
    let n := countOf o x.m - o.prog
    unitLoop .mx (fun u => u) (mmadRow o x) (mmadKeep x) n (turnUnits s n) o.prog 0 s

/-! ### The first unit -/

/-- What stops the first fetch of a matrix operation that reads memory: the columns of MLB, the first block of rows of a pass. -/
def mxFirst (s : State) (o : IOp) : Instr → Option Stop
  | .mlb x => stopOf (fetchRows s (engParty s .mx x.hdr.cls) o (mlbSource o x) true 0 (countOf o x.n))
  | .mma x =>
    if countOf o x.k = 0 then none
    else stopOf (fetchRows s (engParty s .mx x.hdr.cls) o (mmaSource s.job o x) false 0 (min 32 (countOf o x.m)))
  | .mmb x =>
    if countOf o x.k = 0 then none
    else stopOf (fetchRows s (engParty s .mx x.hdr.cls) o (mmbSource s.job o x) false 0 (min 32 (countOf o x.m)))
  | .mmad x => if countOf o x.m = 0 then none else stopOf (mmadRow o x 0 s)
  | _ => none

end Sys2Proof.Machine
end

