-- ==== Sys2Proof/Machine/Vector.lean ====
section
/-! DEFINITION. The operations of the vector engine (08_vector.md R181 to R204). -/

namespace Sys2Proof.Machine

/-! ### Operands (R181 to R185) -/

/-- The capacity of a register in a format (R181). -/
def capacity (f : Fmt) : Nat :=
  match f with
  | .e2m1s => 7264
  | f => 32768 / Fmt.bits f

/-- The capacity of a source that is a register. -/
def capSource (r : RegSlot) (f : Fmt) : List Nat := if r.isReg then [capacity f] else []

/-- The VX pattern of an instruction. -/
def vopOf : Instr → Option VOp
  | .vadd o | .vsub o | .vmul o | .vfma o | .vfms o | .vmax o | .vmin o | .vabs o | .vneg o | .vcmp o _ | .vsel o | .vcvt o
  | .vqnt o | .vdqnt o | .vscl o | .vexp2 o | .vlog2 o | .vrcp o | .vrsq o | .vsqrt o | .vdiv o | .viadd o | .visub o
  | .vimul o | .vand o | .vor o | .vxor o | .vshl o | .vshr o | .vsra o | .vimax o | .vimin o | .vmov o | .vbc o _ | .viota o
  | .vred o _ | .vscan o _ _ | .vsegr o _ | .vperm o | .vpack o | .vunpk o | .vpart o | .vrank o _ | .vprune o _ | .vrng o
  | .vgumb o | .vtree o _ _ | .vlut o | .vpost o => some o
  | _ => none

/-- The capacities of the registers that hold one element per counted element (R181, R188, R189). A destination of none counts as
a register of the destination format. -/
def vCaps (v : VOp) (i : Instr) : List Nat :=
  let d := [capacity v.df]
  let a := capSource v.a v.sf
  let b := capSource v.b v.sf
  let c := capSource v.c v.sf
  (match i with
    | .vsel _ => d ++ a ++ b ++ capSource v.c .uint8
    | .vscl _ | .vqnt _ | .vdqnt _ => d ++ a
    | .vbc _ _ | .viota _ | .vrng _ | .vsegr _ _ => d
    | .vred _ _ | .vprune _ _ => a
    | .vperm _ => d ++ capSource v.b .uint32
    | .vpack _ | .vunpk _ => d ++ a ++ capSource v.b .uint8
    | .vpart _ => d ++ capSource v.a .uint8
    | _ => d ++ a ++ b ++ c) ++
  (if v.rm == .sr then [capacity .uint32] else [])

/-- What VTREE accepts (R189, R150). -/
def treeAccept : Accept := accepts [.tree] fun _ => true

/-- N, M and log2 M of a pruning. -/
def Prune.nm : Prune → Nat × Nat × Nat
  | .n2m4 => (2, 4, 2) | .n1m4 => (1, 4, 2) | .n4m8 => (4, 8, 3)

/-- The extents of a pruning of n elements: the elements kept, and the bytes of metadata (R199). -/
def pruneExtents (p : Prune) (n : Nat) : Nat × Nat :=
  let (nn, m, lg) := Prune.nm p
  let kept := (n + m - 1) / m * nn
  (kept, (kept * lg + 7) / 8)

/-- The checks 3 and 4 of R60 for a VX operation with its issued copy (R187). TVAL of SHAPE_INVALID is the count for a VMOV of part of a block,
for a VPOST of more than 16 elements, and for a VPRUNE whose result or metadata leave one register (DESIGN CHOICE, log entry 62). Where several slots
name a register beyond the allotment, TVAL is that of the first in the order d, a, b, c, slot 6 (DESIGN CHOICE, log entry 67). -/
def vxCheck (j : Job) (o : IOp) (i : Instr) : Option (Cause × Word) :=
  match vopOf i with
  | none => none
  | some v =>
    let n := countOf o v.n
    let shape : Nat → Option (Cause × Word) := fun k => some (.shapeInvalid, BitVec.ofNat 64 k)
    match [v.d, v.a, v.b, v.c, v.rnd].find? fun r => !regAllotted j r 0 with
    | some r => some (slotFault r)
    | none =>
      match (match i with | .vtree _ _ h => handleCheck o h treeAccept | _ => none) with
      | some e => some e
      | none =>
        if (vCaps v i).any (· < n) then shape n
        else
          match i with
          | .vmov _ => if v.sf == .e2m1s && n % 32 != 0 then shape n else none
          | .vbc _ k => if capacity v.sf ≤ countOf o k then shape (countOf o k) else none
          | .vsegr _ _ => if 1024 < n + 1 || capacity v.df < n then shape n else none
          | .vpost _ => if 16 < n then shape n else none
          | .vprune _ p =>
            let x := pruneExtents p n
            if capacity v.df < x.1 || regBytes < x.2 then shape n else none
          | _ => none

/-- A broadcast's integer, converted to a source format (03_encodings.md R51, R183). -/
def broadcast (v : VOp) (f : Fmt) (k : Int) : Nat × Flags :=
  if Fmt.isInt f then narrow f v.hdr.sat k else roundNum f v.rm v.hdr.sat 0 (Num.ofInt k)

/-- The elements of a source in a format, and the flags of its conversion. -/
def sourceOf (j : Job) (o : IOp) (v : VOp) (f : Fmt) (r : RegSlot) : (Nat → Nat) × Flags :=
  match r with
  | .shape k => let (x, fl) := broadcast v f (o.shapes[k]).toNat; (fun _ => x, fl)
  | .imm k => let (x, fl) := broadcast v f k.toInt; (fun _ => x, fl)
  | r => (regElem j r f, 0)

/-- The elements of a UINT8 source of VSEL or VSCL: a broadcast supplies its bits 7..0 (R183). -/
def byteSource (j : Job) (o : IOp) (r : RegSlot) : Nat → Nat :=
  match r with
  | .shape k => fun _ => (o.shapes[k]).toNat % 256
  | .imm k => fun _ => lowBits .uint8 k.toInt
  | r => regElem j r .uint8

/-- The random operand of element i (R185). -/
def rndOf (j : Job) (v : VOp) (i : Nat) : Nat := if v.rm == .sr then regElem j v.rnd .uint32 i else 0

/-! ### Completion (R136, R184, R203, R204) -/

/-- The result of an operation: its elements, its flags, the bytes of a second destination, and the entries that it posts. -/
structure VOut where
  fmt : Fmt
  vals : List Nat
  flags : Flags
  second : List Nat := []
  post : List Word := []
  deriving DecidableEq, Repr

/-- The last-result file shifted, and l0 filled (R136). -/
def shiftLast (j : Job) (f : Fmt) (vals : List Nat) : Job :=
  let up := (j.last.filter fun e => e.1 < 3 * regBytes).map fun e => (e.1 + regBytes, e.2)
  let fresh := (setElems { j with main := [] } (.main 0) f 0 vals).main
  { j with last := fresh ++ up }

/-- The registers, the last-result file and the FIFO after an operation. -/
def writeResult (j : Job) (v : VOp) (r : VOut) : Job :=
  let j' := setElems (setElems j v.d r.fmt 0 r.vals) v.b .uint8 0 r.second
  let j' := shiftLast j' r.fmt r.vals
  { j' with fifo := j.fifo ++ r.post }

/-- An operation of the vector engine: its checks, its data checks, or its result. -/
def vxRun (i : Instr) (v : VOp) (s : State) (k : IOp → Nat → Except (Cause × Word) VOut) : Result :=
  let o := curOp s.job .vx
  .next (match vxCheck s.job o i with
    | some (c, x) => trapOp s .vx c x 0
    | none =>
      match k o (countOf o v.n) with
      | .error (c, x) => trapOp s .vx c x 0
      | .ok r => completeOp { s with job := writeResult s.job v r } .vx r.flags)

/-- n elements of the destination format, each with its flags. -/
def elements (v : VOp) (n : Nat) (fl : Flags) (g : Nat → Nat × Flags) : VOut :=
  let (l, f) := collect ((List.range n).map g)
  { fmt := v.df, vals := l, flags := fl ||| f }

/-! ### Elementwise operations (R188) -/

/-- d[i] from a[i] and the random operand. -/
def vx1 (i : Instr) (v : VOp) (g : Nat → Nat → Nat × Flags) (s : State) : Result :=
  vxRun i v s fun o n =>
    let (a, fa) := sourceOf s.job o v v.sf v.a
    .ok (elements v n fa fun k => g (rndOf s.job v k) (a k))

/-- d[i] from a[i], b[i] and the random operand. -/
def vx2 (i : Instr) (v : VOp) (g : Nat → Nat → Nat → Nat × Flags) (s : State) : Result :=
  vxRun i v s fun o n =>
    let (a, fa) := sourceOf s.job o v v.sf v.a
    let (b, fb) := sourceOf s.job o v v.sf v.b
    .ok (elements v n (fa ||| fb) fun k => g (rndOf s.job v k) (a k) (b k))

/-- d[i] from a[i], b[i], c[i] and the random operand. -/
def vx3 (i : Instr) (v : VOp) (g : Nat → Nat → Nat → Nat → Nat × Flags) (s : State) : Result :=
  vxRun i v s fun o n =>
    let (a, fa) := sourceOf s.job o v v.sf v.a
    let (b, fb) := sourceOf s.job o v v.sf v.b
    let (c, fc) := sourceOf s.job o v v.sf v.c
    .ok (elements v n (fa ||| fb ||| fc) fun k => g (rndOf s.job v k) (a k) (b k) (c k))

/-- A floating-point function of the values, rounded once (02_numbers.md R29). -/
def float1 (v : VOp) (g : Num → Num) (rnd a : Nat) : Nat × Flags :=
  let x := numOf v.sf a
  finish v.df v.rm v.hdr.sat rnd [x] (g x)

def float2 (v : VOp) (g : Num → Num → Num) (rnd a b : Nat) : Nat × Flags :=
  let x := numOf v.sf a
  let y := numOf v.sf b
  finish v.df v.rm v.hdr.sat rnd [x, y] (g x y)

def float3 (v : VOp) (g : Num → Num → Num → Num) (rnd a b c : Nat) : Nat × Flags :=
  let x := numOf v.sf a
  let y := numOf v.sf b
  let z := numOf v.sf c
  finish v.df v.rm v.hdr.sat rnd [x, y, z] (g x y z)

/-- An integer function of the values, narrowed (02_numbers.md R31). -/
def int2 (v : VOp) (g : Int → Int → Int) (_rnd a b : Nat) : Nat × Flags :=
  narrow v.df v.hdr.sat (g (intOf v.sf a) (intOf v.sf b))

/-- A function of the bit patterns, read in the source format. -/
def bits2 (v : VOp) (g : Nat → Nat → Nat) (_rnd a b : Nat) : Nat × Flags := narrow v.df v.hdr.sat (intOf v.sf (g a b))

/-- A shift by u(b), which has no further effect from 64 on (R188). -/
def shiftBy (v : VOp) (g : Nat → Nat → Int) (_rnd a b : Nat) : Nat × Flags := narrow v.df v.hdr.sat (g a (min b 64))

def execVadd (v : VOp) (s : State) : Result := vx2 (.vadd v) v (float2 v (Num.add v.rm)) s
def execVsub (v : VOp) (s : State) : Result := vx2 (.vsub v) v (float2 v fun a b => Num.add v.rm a b.neg) s
def execVmul (v : VOp) (s : State) : Result := vx2 (.vmul v) v (float2 v Num.mul) s
def execVfma (v : VOp) (s : State) : Result := vx3 (.vfma v) v (float3 v fun a b c => Num.add v.rm (a.mul b) c) s
def execVfms (v : VOp) (s : State) : Result := vx3 (.vfms v) v (float3 v fun a b c => Num.add v.rm (a.mul b) c.neg) s
def execVmax (v : VOp) (s : State) : Result := vx2 (.vmax v) v (float2 v Num.max) s
def execVmin (v : VOp) (s : State) : Result := vx2 (.vmin v) v (float2 v Num.min) s
def execVabs (v : VOp) (s : State) : Result := vx1 (.vabs v) v (float1 v Num.abs) s
def execVneg (v : VOp) (s : State) : Result := vx1 (.vneg v) v (float1 v Num.neg) s

/-- c is read as UINT8. -/
def execVsel (v : VOp) (s : State) : Result :=
  vxRun (.vsel v) v s fun o n =>
    let (a, fa) := sourceOf s.job o v v.sf v.a
    let (b, fb) := sourceOf s.job o v v.sf v.b
    let c := byteSource s.job o v.c
    .ok (elements v n (fa ||| fb) fun k =>
      convert v.sf v.df v.rm v.hdr.sat (rndOf s.job v k) (if c k != 0 then a k else b k))

def execVcvt (v : VOp) (s : State) : Result := vx1 (.vcvt v) v (fun r a => convert v.sf v.df v.rm v.hdr.sat r a) s

/-- The scale of element i is UINT8 element i / 32 of b. -/
def execVscl (v : VOp) (s : State) : Result :=
  vxRun (.vscl v) v s fun o n =>
    let (a, fa) := sourceOf s.job o v v.sf v.a
    let b := byteSource s.job o v.b
    .ok (elements v n fa fun k => roundNum v.df v.rm v.hdr.sat (rndOf s.job v k) (scaled (numOf v.sf (a k)) (b (k / 32))))

def execVexp2 (v : VOp) (s : State) : Result := vx1 (.vexp2 v) v (fun r a => exp2Round v.df v.rm v.hdr.sat r (numOf v.sf a)) s
def execVlog2 (v : VOp) (s : State) : Result := vx1 (.vlog2 v) v (fun r a => log2Round v.df v.rm v.hdr.sat r (numOf v.sf a)) s
def execVrcp (v : VOp) (s : State) : Result := vx1 (.vrcp v) v (fun r a => rcpRound v.df v.rm v.hdr.sat r (numOf v.sf a)) s
def execVrsq (v : VOp) (s : State) : Result := vx1 (.vrsq v) v (fun r a => rsqrtRound v.df v.rm v.hdr.sat r (numOf v.sf a)) s
def execVsqrt (v : VOp) (s : State) : Result := vx1 (.vsqrt v) v (fun r a => sqrtRound v.df v.rm v.hdr.sat r (numOf v.sf a)) s
def execVdiv (v : VOp) (s : State) : Result :=
  vx2 (.vdiv v) v (fun r a b => divRound v.df v.rm v.hdr.sat r (numOf v.sf a) (numOf v.sf b)) s

def execViadd (v : VOp) (s : State) : Result := vx2 (.viadd v) v (int2 v (· + ·)) s
def execVisub (v : VOp) (s : State) : Result := vx2 (.visub v) v (int2 v (· - ·)) s
def execVimul (v : VOp) (s : State) : Result := vx2 (.vimul v) v (int2 v (· * ·)) s
def execVand (v : VOp) (s : State) : Result := vx2 (.vand v) v (bits2 v (· &&& ·)) s
def execVor (v : VOp) (s : State) : Result := vx2 (.vor v) v (bits2 v (· ||| ·)) s
def execVxor (v : VOp) (s : State) : Result := vx2 (.vxor v) v (bits2 v (· ^^^ ·)) s
def execVshl (v : VOp) (s : State) : Result := vx2 (.vshl v) v (shiftBy v fun a k => intOf v.sf a * 2 ^ k) s
def execVshr (v : VOp) (s : State) : Result := vx2 (.vshr v) v (shiftBy v fun a k => (a / 2 ^ k : Nat)) s
def execVsra (v : VOp) (s : State) : Result := vx2 (.vsra v) v (shiftBy v fun a k => sint (Fmt.bits v.sf) a / 2 ^ k) s
def execVimax (v : VOp) (s : State) : Result := vx2 (.vimax v) v (int2 v max) s
def execVimin (v : VOp) (s : State) : Result := vx2 (.vimin v) v (int2 v min) s

/-- Bit for bit. An E2M1S count stands for blocks of 18 bytes, an MXINT8 count for element bytes. -/
def execVmov (v : VOp) (s : State) : Result :=
  vxRun (.vmov v) v s fun o n =>
    if v.sf == .e2m1s then
      .ok { fmt := .uint8, vals := (List.range (n / 32 * 18)).map (regElem s.job v.a .uint8), flags := 0 }
    else
      let (a, fa) := sourceOf s.job o v v.sf v.a
      .ok (elements v n fa fun k => (a k, 0))

/-! ### Comparison, quantisation, fills (R190 to R192) -/

/-- The condition holds; -0 equals +0. -/
def condHolds (c : VCond) (a b : Num) : Bool :=
  let un := a.isNan || b.isNan
  let eq := !un && !a.lt b && !b.lt a
  match c with
  | .eq => eq | .ne => !eq | .lt => a.lt b | .le => a.lt b || eq | .gt => b.lt a | .ge => b.lt a || eq | .un => un | .nun => !un

def execVcmp (v : VOp) (c : VCond) (s : State) : Result :=
  vx2 (.vcmp v c) v (fun _ a b => (if condHolds c (numOf v.sf a) (numOf v.sf b) then 1 else 0, 0)) s

/-- Blocks of 32 of the n values of a. MXINT8 writes its scale codes to the register of slot 2. -/
def execVqnt (v : VOp) (s : State) : Result :=
  vxRun (.vqnt v) v s fun o n =>
    let (a, fa) := sourceOf s.job o v .fp32 v.a
    let blocks := blocksOf ((n + 31) / 32) ((List.range n).map fun k => some (numOf .fp32 (a k)))
    if v.df == .mxint8 then
      let q := blocks.map quantMx
      .ok { fmt := .uint8, vals := q.flatMap (·.1), flags := fa ||| joinFlags (q.map (·.2.2)), second := q.map (·.2.1) }
    else
      let q := blocks.map quantE2m1s
      .ok { fmt := .uint8, vals := q.flatMap (·.1), flags := fa ||| joinFlags (q.map (·.2)) }

/-- The value of element k of a register in a block format, its scale codes in another register (02_numbers.md R20, R21). -/
def blockValue (j : Job) (f : Fmt) (a b : RegSlot) (k : Nat) : Num :=
  if f == .e2m1s then
    let blk := 18 * (k / 32)
    let code := regByte j a (blk + k % 32 / 2) / 16 ^ (k % 2) % 16
    scaled (e2m1sElem code (regByte j a (blk + 17))) (regByte j a (blk + 16))
  else scaled (numOf .int8 (regByte j a k)) (regByte j b (k / 32))

def execVdqnt (v : VOp) (s : State) : Result :=
  vxRun (.vdqnt v) v s fun _ n =>
    .ok (elements v n 0 fun k => roundNum v.df v.rm v.hdr.sat (rndOf s.job v k) (blockValue s.job v.sf v.a v.b k))

def execVbc (v : VOp) (k : Count) (s : State) : Result :=
  vxRun (.vbc v k) v s fun o n =>
    let (a, fa) := sourceOf s.job o v v.sf v.a
    .ok (elements v n fa fun _ => (a (countOf o k), 0))

/-- The 32-bit value of a broadcast of VIOTA, read as the source format (R192). -/
def iotaOf (o : IOp) (f : Fmt) (r : RegSlot) : Int :=
  match r with
  | .shape k => intOf f (o.shapes[k]).toNat
  | .imm k => intOf f (lowBits .uint32 k.toInt)
  | _ => 0

def execViota (v : VOp) (s : State) : Result :=
  vxRun (.viota v) v s fun o n =>
    let start := iotaOf o v.sf v.a
    let step := iotaOf o v.sf v.b
    .ok (elements v n 0 fun k =>
      let x := start + k * step
      if Fmt.isInt v.df then narrow v.df v.hdr.sat x
      else roundNum v.df v.rm v.hdr.sat (rndOf s.job v k) (Num.ofInt x))

/-! ### Reductions, scans, segments (R193 to R195) -/

/-- The index of the best element, NaNs losing and the lowest index winning among equals; none where there is none. -/
def bestIndex (better : Num → Num → Bool) : Nat → Option (Nat × Num) → List Num → Option (Nat × Num)
  | _, b, [] => b
  | i, b, x :: r =>
    bestIndex better (i + 1)
      (if x.isNan then b else match b with | none => some (i, x) | some (_, y) => if better x y then some (i, x) else b) r

/-- The value of a reduction over elements of the source format (R193). -/
def reduceOp (v : VOp) (op : RedOp) (rnd : Nat) (l : List Nat) : Nat × Flags :=
  let x := l.map (numOf v.sf)
  let index := fun better => ((bestIndex better 0 none x).map Prod.fst).getD 0xFFFFFFFF
  let float := Fmt.isFloat v.sf
  let ints := l.map (intOf v.sf)
  let range := intRange v.sf
  match op with
  | .sum =>
    if float then
      let (y, nv) := sumNums v.rm x
      let (r, fl) := roundNum v.df v.rm v.hdr.sat rnd y
      (r, fl ||| flIf nv flNV)
    else narrow v.df v.hdr.sat ints.sum
  | .max =>
    if float then roundNum v.df v.rm v.hdr.sat rnd (x.foldl Num.max (.inf true))
    else narrow v.df v.hdr.sat (ints.foldl max range.1)
  | .min =>
    if float then roundNum v.df v.rm v.hdr.sat rnd (x.foldl Num.min (.inf false))
    else narrow v.df v.hdr.sat (ints.foldl min range.2)
  | .amax => (index fun a b => b.lt a, 0)
  | .amin => (index fun a b => a.lt b, 0)
  | .and => narrow v.df v.hdr.sat (intOf v.sf (l.foldl (· &&& ·) (2 ^ Fmt.bits v.sf - 1)))
  | .or => narrow v.df v.hdr.sat (intOf v.sf (l.foldl (· ||| ·) 0))
  | .cnt => ((x.filter fun y => !y.isZero).length, 0)

/-- The first n elements of source a. -/
def elemsOf (a : Nat → Nat) (lo n : Nat) : List Nat := (List.range n).map fun k => a (lo + k)

def execVred (v : VOp) (op : RedOp) (s : State) : Result :=
  vxRun (.vred v op) v s fun o n =>
    let (a, fa) := sourceOf s.job o v v.sf v.a
    .ok (elements v 1 fa fun _ => reduceOp v op (rndOf s.job v 0) (elemsOf a 0 n))

def execVscan (v : VOp) (op : RedOp) (excl : Bool) (s : State) : Result :=
  vxRun (.vscan v op excl) v s fun o n =>
    let (a, fa) := sourceOf s.job o v v.sf v.a
    .ok (elements v n fa fun k => reduceOp v op (rndOf s.job v k) (elemsOf a 0 (if excl then k else k + 1)))

/-- The segment that offends among the offsets (R195). -/
def segBad (v : VOp) (c : Nat) (off : Nat → Int) : Option Nat :=
  if c = 0 then (if off 0 < 0 then some 0 else none)
  else firstBelow c fun k => (k = 0 && off 0 < 0) || off (k + 1) < off k || (capacity v.sf : Int) < off (k + 1)

def execVsegr (v : VOp) (op : RedOp) (s : State) : Result :=
  vxRun (.vsegr v op) v s fun o n =>
    let (a, fa) := sourceOf s.job o v v.sf v.a
    let off := fun k => sint 32 (regElem s.job v.b .int32 k)
    match segBad v n off with
    | some k => .error (.shapeInvalid, BitVec.ofNat 64 k)
    | none => .ok (elements v n fa fun k =>
        reduceOp v op (rndOf s.job v k) (elemsOf a (off k).toNat (off (k + 1) - off k).toNat))

/-! ### Reordering, ranking, pruning (R196 to R199) -/

/-- The lowest element whose index is out of range raises SHAPE_INVALID. -/
def lookup (n cap : Nat) (sentinel : Bool) (idx : Nat → Nat) (r : VOut) : Except (Cause × Word) VOut :=
  match firstBelow n fun k => cap ≤ idx k && !(sentinel && idx k == 0xFFFFFFFF) with
  | some k => .error (.shapeInvalid, BitVec.ofNat 64 k)
  | none => .ok r

def execVperm (v : VOp) (s : State) : Result :=
  vxRun (.vperm v) v s fun o n =>
    let (a, fa) := sourceOf s.job o v v.sf v.a
    let idx := regElem s.job v.b .uint32
    lookup n (capacity v.sf) true idx (elements v n fa fun k => (if idx k = 0xFFFFFFFF then 0 else a (idx k), 0))

def execVlut (v : VOp) (s : State) : Result :=
  vxRun (.vlut v) v s fun _ n =>
    let idx := regElem s.job v.a v.sf
    lookup n (capacity v.df) false idx (elements v n 0 fun k => (regElem s.job v.b v.df (idx k), 0))

/-- The list filled with zeros to n. -/
def padTo (n : Nat) (l : List Nat) : List Nat := (l ++ List.replicate n 0).take n

def execVpack (v : VOp) (s : State) : Result :=
  vxRun (.vpack v) v s fun o n =>
    let (a, fa) := sourceOf s.job o v v.sf v.a
    let mask := regElem s.job v.b .uint8
    .ok { fmt := v.df, vals := padTo n (((List.range n).filter fun k => mask k != 0).map a), flags := fa }

def execVunpk (v : VOp) (s : State) : Result :=
  vxRun (.vunpk v) v s fun o n =>
    let (a, fa) := sourceOf s.job o v v.sf v.a
    let mask := regElem s.job v.b .uint8
    .ok (elements v n fa fun k => (if mask k != 0 then a ((List.range k).countP fun i => mask i != 0) else 0, 0))

def execVpart (v : VOp) (s : State) : Result :=
  vxRun (.vpart v) v s fun _ n =>
    let mask := regElem s.job v.a .uint8
    let l := List.range n
    .ok { fmt := v.df, vals := l.filter (fun k => mask k != 0) ++ l.filter (fun k => mask k == 0), flags := 0 }

/-- Insert an index behind those that come before it. -/
def insertBy (before : Nat → Nat → Bool) (i : Nat) : List Nat → List Nat
  | [] => [i]
  | k :: r => if before i k then i :: k :: r else k :: insertBy before i r

/-- Indices 0 to n - 1 in an order; among equals the lower index first. -/
def sortBy (before : Nat → Nat → Bool) (n : Nat) : List Nat := (List.range n).foldl (fun l i => insertBy before i l) []

/-- Element x comes before y in descending order, every number before every NaN (R198). -/
def ranksBefore (x y : Num) : Bool := y.lt x || (!x.isNan && y.isNan)

def execVrank (v : VOp) (pos : Bool) (s : State) : Result :=
  vxRun (.vrank v pos) v s fun o n =>
    let (a, fa) := sourceOf s.job o v v.sf v.a
    let l := sortBy (fun i k => ranksBefore (numOf v.sf (a i)) (numOf v.sf (a k))) n
    .ok { fmt := v.df, vals := if pos then (List.range n).map fun i => l.idxOf i else l, flags := fa }

/-- The positions that a group of g elements keeps (R199): a NaN counts as largest, ties go to the lower position. -/
def keepOf (n g : Nat) (x : Nat → Num) : List Nat :=
  if g ≤ n then List.range n
  else
    let before := fun i k => (x i).isNan && !(x k).isNan || (!(x k).isNan && (x k).abs.lt (x i).abs)
    let top := (sortBy before g).take n
    (List.range g).filter top.contains

/-- Bit fields of w bits packed upward into bytes. -/
def packBits (w : Nat) (l : List Nat) : List Nat :=
  let v := l.foldr (fun x a => x + 2 ^ w * a) 0
  (List.range ((w * l.length + 7) / 8)).map fun i => v / 256 ^ i % 256

def execVprune (v : VOp) (p : Prune) (s : State) : Result :=
  vxRun (.vprune v p) v s fun o n =>
    let (a, fa) := sourceOf s.job o v v.sf v.a
    let (nn, m, lg) := Prune.nm p
    let groups := (List.range ((n + m - 1) / m)).map fun g =>
      let len := min m (n - m * g)
      (keepOf nn len (fun k => numOf v.sf (a (m * g + k)))).map fun k => (k, if k < len then a (m * g + k) else 0)
    let kept := groups.flatten
    .ok { fmt := v.df, vals := kept.map Prod.snd, flags := fa, second := packBits lg (kept.map Prod.fst) }

/-! ### Random bits and noise (R200, R201) -/

/-- Rotations of the ten rounds. -/
def spin : List Nat := [7, 20, 11, 25, 3, 18, 29, 9, 14, 23]

/-- One round of the stitch generator on (x, y, k0, k1). -/
def stitchRound (q : BitVec 32 × BitVec 32 × BitVec 32 × BitVec 32) (j : Nat) :
    BitVec 32 × BitVec 32 × BitVec 32 × BitVec 32 :=
  let (x, y, k0, k1) := q
  let x := x + y.rotateLeft (spin.getD j 0) + k0
  let y := y.rotateLeft (spin.getD (9 - j) 0) ^^^ x ^^^ k1
  (x, y, k1 ^^^ k0.rotateLeft 8, k0 + 0x6C8E9CF5 * BitVec.ofNat 32 (j + 1))

/-- stitch(key, ctr). -/
def stitch (key ctr : Word) : BitVec 32 :=
  let (x, y, _, _) := (List.range 10).foldl stitchRound (bits ctr 0 32, bits ctr 32 32, bits key 0 32, bits key 32 32)
  x ^^^ y.rotateLeft 16

/-- Two consecutive shape registers as a doubleword. -/
def shapePair (o : IOp) (k : Nat) : Word :=
  BitVec.ofNat 64 ((o.shapes.toList.getD (k + 1) 0).toNat * 2 ^ 32 + (o.shapes.toList.getD k 0).toNat)

def execVrng (v : VOp) (s : State) : Result :=
  vxRun (.vrng v) v s fun o n =>
    let k := match v.a with | .shape i => i.val | _ => 0
    .ok (elements v n 0 fun i => ((stitch (shapePair o k) (shapePair o (k + 2) + BitVec.ofNat 64 i)).toNat, 0))

/-- Base-2 Gumbel noise from random bits (R201). -/
def gumbel (u : Nat) : Nat × Flags :=
  let (a, f1) := roundNum .fp32 .rtz false 0 (.fin false (2 * (u / 256) + 1) (-1))
  let v := (numOf .fp32 a).scale (-24)
  let (t, f2) := log2Round .fp32 .rne false 0 v
  let (d, f3) := log2Round .fp32 .rne false 0 (numOf .fp32 t).neg
  (if d < 2 ^ 31 then d + 2 ^ 31 else d - 2 ^ 31, f1 ||| f2 ||| f3)

def execVgumb (v : VOp) (s : State) : Result := vx1 (.vgumb v) v (fun _ a => gumbel a) s

/-! ### Draft trees (R150, R202) -/

/-- The widths of a TREE handle, checked (R150). The spec names no TVAL for a vector that breaks it (log entry 13). -/
def treeWidths (h : Hnd) (b : List Byte) : Option (List Nat) :=
  let w := b.map BitVec.toNat
  let l := w.take h.params
  let nodes := (List.range (l.length + 1)).foldl (fun a k => a + (l.take k).prod) 0
  if l.any (· == 0) || (w.drop h.params).any (· != 0) || 2 ^ 31 < nodes || nodes < h.dim 0 then none else some l

/-- The first node of a level. -/
def firstNode (w : List Nat) (l : Nat) : Nat := ((List.range l).map fun k => (w.take k).prod).sum

/-- The level of a node; none beyond the tree. -/
def levelOf (w : List Nat) (v : Nat) : Option Nat :=
  firstBelow (w.length + 1) fun l => firstNode w l ≤ v && v < firstNode w (l + 1)

/-- A value of VTREE for node v and candidate ancestor c. -/
def treeValue (w : List Nat) (k : TreeKind) (v c : Nat) : Nat :=
  let absent := match k with | .anc => 0 | _ => 0xFFFFFFFF
  match levelOf w v with
  | none => absent
  | some l =>
    let r := v - firstNode w l
    let below := fun j => ((w.take l).drop j).prod
    match k with
    | .lev => l
    | .par => if l = 0 then absent else firstNode w (l - 1) + r / w.getD (l - 1) 1
    | .dig j => if l < j.val + 1 then absent else r / below (j.val + 1) % w.getD j.val 1
    | .anc =>
      match levelOf w c with
      | none => 0
      | some q => if q ≤ l && r / below q == c - firstNode w q then 1 else 0

/-- VTREE reads the width vector, which may stop it (R204). -/
def execVtree (v : VOp) (k : TreeKind) (h : Fin 16) (s : State) : Result :=
  let o := curOp s.job .vx
  let hd := handleOf o o.handles[h]
  .next (match vxCheck s.job o (.vtree v k h) with
    | some (c, x) => trapOp s .vx c x 0
    | none =>
      match vecBytes s (engParty s .vx v.hdr.cls) o hd hd.aux1 8 with
      | .error e => stopOp s .vx 0 0 e
      | .ok b =>
        match treeWidths hd b with
        | none => trapOp s .vx .shapeInvalid hd.free 0
        | some w =>
          let node := sourceOf s.job o v .uint32 v.a
          let anc := sourceOf s.job o v .uint32 v.b
          let r := elements v (countOf o v.n) (node.2 ||| anc.2) fun i => (treeValue w k (node.1 i) (anc.1 i), 0)
          completeOp { s with job := writeResult s.job v r } .vx r.flags)

/-! ### Posting (R203) -/

/-- Entries of the result FIFO (07_queues.md R168). -/
def fifoSlots : Nat := 16

/-- An element widened to an entry. -/
def postWord (f : Fmt) (x : Nat) : Word := if isSigned f then BitVec.ofInt 64 (intOf f x) else BitVec.ofNat 64 x

/-- VPOST waits for n free entries. -/
def execVpost (v : VOp) (s : State) : Result :=
  if fifoSlots < s.job.fifo.length + countOf (curOp s.job .vx) v.n && (vxCheck s.job (curOp s.job .vx) (.vpost v)).isNone then
    .next s
  else
    vxRun (.vpost v) v s fun o n =>
      let (a, fa) := sourceOf s.job o v v.sf v.a
      let l := elemsOf a 0 n
      .ok { fmt := v.df, vals := l, flags := fa, post := l.map (postWord v.sf) }

end Sys2Proof.Machine
end

