-- ==== Sys2Proof/Machine/Issue.lean ====
section
/-! DEFINITION. How an issued operation starts (07_queues.md R170, 03_encodings.md R60), how the sibling core takes one over
(07_queues.md R178, 12_copy_index.md R288), the sharing of the matrix array (09_matrix.md R209), and the passing of clocks. -/

namespace Sys2Proof.Machine

/-! ### The matrix array of a core (R209) -/

/-- The window that the clock stands in belongs to the job, or its core is in shared mode. -/
def inWindow (s : State) (j : Job) : Bool := !j.altArray || (s.clock / 256 % 2 == 1) == j.cc

/-- A job's MX operation that has started holds an array: that of its own core, or with sib of the sibling core. -/
def mxRunning (j : Job) (sib : Bool) : Bool :=
  match startedOp j.mx.pipe with
  | some o => o.sib == sib && j.mx.holds
  | none => false

/-- Some operation holds the array of a core in shared mode. -/
def arrayBusy (s : State) (core : Nat) : Bool :=
  (jobsOn s core).any (fun j => !j.altArray && mxRunning j false) || (jobsOn s (sibling core)).any fun j => mxRunning j true

/-- The array of the job's core may start its MX operation. -/
def arrayFree (s : State) (j : Job) : Bool := inWindow s j && (j.altArray || !arrayBusy s j.core)

/-- The unit of engine e on a job's core may take an operation of the job: one VX operation runs at a time (08_vector.md R180), and the
array one MX operation. -/
def unitFree (s : State) (j : Job) (e : Engine) : Bool :=
  match e with
  | .mx => arrayFree s j
  | .vx => !(jobsOn s j.core).any fun k => k.vx.holds && (startedOp k.vx.pipe).isSome
  | .ld | .st => true

/-! ### The start of an operation -/

/-- The first operation of a pipeline, where it has not started. -/
def nextOp : List PipeItem → Option IOp
  | [] => none
  | .waiting o :: _ => some o
  | .started _ :: _ => none
  | _ :: r => nextOp r

/-- The first operation of a pipeline starts. -/
def startFirst (f : IOp → IOp) : List PipeItem → List PipeItem
  | [] => []
  | .waiting o :: r => .started (f o) :: r
  | q :: r => q :: startFirst f r

/-- Every counter that the operation pops holds a token. -/
def popsReady (j : Job) (e : Engine) (o : IOp) : Bool :=
  (!o.toks.wf || 1 ≤ j.token (popForward e)) && (!o.toks.wb || 1 ≤ j.token (popBackward e))

/-- The tokens popped. -/
def popTokens (j : Job) (e : Engine) (o : IOp) : Job :=
  let j := if o.toks.wf then j.setToken (popForward e) (j.token (popForward e) - 1) else j
  if o.toks.wb then j.setToken (popBackward e) (j.token (popBackward e) - 1) else j

/-- The issue checks after decoding (03_encodings.md R60). -/
def opCheck (e : Engine) (j : Job) (o : IOp) (i : Instr) : Option (Cause × Word) :=
  match e with
  | .ld | .st => lsCheck e j o i
  | .vx => vxCheck j o i
  | .mx => mxCheck j o i

/-- The handles of an operation whose elements must lie in the sibling window where they carry SIB (06_registers.md R142). LDZ takes no
extents (R159). -/
def windowHandles (o : IOp) : Instr → List (Fin 16)
  | .mmad x => [x.ha, x.hb, x.hc]
  | .vtree _ _ h => [h]
  | .ldz _ => []
  | i => ((lsInfo o i).map fun x => [x.h]).getD []

/-- The copy of an operation with the vectors that the check of its SIB handles reads, and how that check ends: a vector that cannot be read
stops it, and so does an element outside the window (R142, R152). It is the last one at issue (log entry 62). -/
def windowCheck (s : State) (e : Engine) (o : IOp) (sib : Bool) (i : Instr) : IOp × Option Stop :=
  let p := engParty s e 0 sib
  let hs := ((windowHandles o i).map fun h => handleOf o o.handles[h]).filter Hnd.sib
  let o := o.keep (hs.flatMap (rangeVecs s p o))
  (o, hs.findSome? fun h => (rangeStop s p o h).orElse fun _ => sibBad s p o h)

/-- The state in which the first operation of engine e has started as o. -/
def begun (s : State) (e : Engine) (o : IOp) (sib : Bool) : State :=
  let j := popTokens s.job e o
  { s with
    issued := assign s.issued (if sib then sibling j.core else j.core, engineNum e) j.id
    job := (j.updEng e fun x => { x with pipe := startFirst (fun _ => { o with sib }) x.pipe, w := 0, holds := true }).settleAll }

/-- The first operation of engine e starts, or traps at issue, popping nothing. While the check of its SIB handles waits for a vector it does
neither (12_copy_index.md R277). -/
def startOp (s : State) (e : Engine) (o : IOp) (sib : Bool) : State :=
  match decodePattern e o.pat with
  | none => trapOp s e .illegalInstr ((slotOf o.pat 7).setWidth 64) 0
  | some i =>
    match opCheck e s.job o i with
    | some (c, v) => trapOp s e c v 0
    | none =>
      match windowCheck s e o sib i with
      | (_, some (.trap c v)) | (_, some (.denied _ c v)) => trapOp s e c v 0
      | (_, some _) => s
      | (o, none) => begun s e o sib

/-- What stops the first unit of an operation once it has started. -/
def firstStop (s : State) (e : Engine) (o : IOp) : Instr → Option Stop
  | .vtree v _ h => let hd := handleOf o o.handles[h]; stopOf (vecBytes s (engParty s .vx v.hdr.cls) o hd hd.aux1 8)
  | i => match e with | .ld | .st => lsFirst s o i | .mx => mxFirst s o i | .vx => none

/-- An operation that no check refuses waits before it starts: for a vector that the check of its SIB handles reads, or at a watermark in its
first unit. So one that has started has met no watermark yet, and completes or stops at a fault before its job is saved (09_matrix.md R228,
15_traps.md R329, R330; log entry 35). -/
def startWaits (s : State) (e : Engine) (o : IOp) : Bool :=
  match decodePattern e o.pat with
  | none => false
  | some i =>
    (opCheck e s.job o i).isNone &&
      match windowCheck s e o false i with
      | (_, some (.trap ..)) | (_, some (.denied ..)) => false
      | (_, some _) => true
      | (o, none) => ((firstStop (begun s e o false) e o i).bind Stop.mark?).isSome

/-- A VPOST does not start until the result FIFO has room for its entries (08_vector.md R203); one that a check refuses traps. -/
def fifoReady (j : Job) (e : Engine) (o : IOp) : Bool :=
  match e, decodePattern e o.pat with
  | .vx, some (.vpost v) => j.fifo.length + countOf o v.n ≤ fifoSlots || (vxCheck j o (.vpost v)).isSome
  | _, _ => true

/-- During a drain only a stream issues that stood in a loop, until the final ENDL of the frame that the request bounded; a frame further out
that an earlier request has bounded does not count (15_traps.md R329, 07_queues.md R175). -/
def EngStream.mayIssue (x : EngStream) : Bool :=
  !x.draining ||
    (0 < x.depth && x.depth ≤ x.frames.length && ((x.frames.drop (x.frames.length - x.depth)).head?.map Frame.bounded).getD false)

/-- The operation that engine e of a job may start now: its job is resident, the engine has not stopped at a fault, the tokens and the room in
the result FIFO are there, and it need not wait for an access. -/
def readyOp (s : State) (j : Job) (e : Engine) : Option IOp :=
  if j.resident && (j.eng e).opHalt == .going && (j.eng e).mayIssue then
    match nextOp (j.eng e).pipe with
    | some o => if popsReady j e o && fifoReady j e o && !startWaits (focus j.id s) e o then some o else none
    | none => none
  else none

/-- The started operation of engine e of a job goes on without the unit that it needs: it has stopped and been restarted. -/
def resumes (j : Job) (e : Engine) : Bool :=
  j.resident && (e == .mx || e == .vx) && (startedOp (j.eng e).pipe).isSome && (j.eng e).opHalt == .going && !(j.eng e).holds

/-- A job's stream of engine e is ready: it could start, or take up, an operation. -/
def readyAt (s : State) (j : Job) (e : Engine) : Bool :=
  (resumes j e || (readyOp s j e).isSome) && (e != .mx || inWindow s j)

/-- Effective priority after w clocks of waiting (04_jobs.md R90). -/
def effPrio (j : Job) (w : Nat) : Nat := j.prio.val - w / 4096

/-- Of two jobs that are ready at unit k of a core, with the clocks that they have waited, the other one goes first (R90). -/
def yieldsTo (s : State) (core k : Nat) (j : Job) (w : Nat) (other : Job) (w' : Nat) : Bool :=
  effPrio other w' < effPrio j w || (effPrio other w' == effPrio j w && lookupD 0 s.issued (core, k) == j.id)

/-- Among the streams of an engine on the job's core that are ready in this clock, the job's is chosen (R90). -/
def chosen (s : State) (j : Job) (e : Engine) : Bool :=
  !(jobsOn s j.core).any fun k =>
    k.id != j.id && readyAt s k e && yieldsTo s j.core (engineNum e) j (j.eng e).w k (k.eng e).w

def execOperationStart (job : Nat) (e : Engine) (s : State) : Result :=
  let t := focus job s
  if t.job.id != job || job = 0 then .next s
  else
    match readyOp t t.job e with
    | some o => .next (if unitFree t t.job e && chosen t t.job e then startOp t e o false else s)
    | none => .next s

/-! ### The sibling core (R178, R288) -/

/-- n bytes from an offset on lie in the owner's sibling window. -/
def windowOff (sp : Bool) (v n : Nat) : Bool := sp && 0x700000 ≤ v && v + n ≤ 0x800000

/-- The vectors that a handle of an MMAD points to lie in the owner's sibling window: every offset that a taken operation names does (R178). -/
def auxInWindow (o : IOp) (h : Hnd) : Bool :=
  match h.kind with
  | .ragged => windowOff true h.aux1 (4 * ((o.shapes.toList.getD (h.params / 256 % 32) 0).toNat + 1))
  | .nm =>
    match elemRange h with
    | some (lo, hi) =>
      let bits := h.nmN * h.nmLog
      let first := (h.aux1 : Int) + lo / h.nmM * bits / 8
      let last := (h.aux1 : Int) + (hi / h.nmM * bits + bits - 1) / 8
      0x700000 ≤ first && last < 0x800000
    | none => true
  | _ => true

/-- The operation may be taken over: an MMAD with R = 1, all of whose offsets lie in the owner's sibling window. -/
def relocatable (o : IOp) : Bool :=
  match decodePattern .mx o.pat with
  | some (.mmad x) => x.rel && [x.ha, x.hb, x.hc].all fun h => auxInWindow o (handleOf o o.handles[h])
  | _ => false

/-- No job of a core or of its sibling is being saved: what one core has taken over from the other completes before (R178). -/
def noneSaved (s : State) (core : Nat) : Bool := (jobsOn s core ++ jobsOn s (sibling core)).all fun j => j.st != .saving

/-- Neither core of a pair is in alternate-window mode, and no job of either is being saved (R178). -/
def pairShared (s : State) (core : Nat) : Bool := (jobsOn s core ++ jobsOn s (sibling core)).all (fun j => !j.altArray) && noneSaved s core

/-- The sibling's array starts the operation of a job. -/
def takeMmad (s : State) (job : Nat) : State :=
  let t := focus job s
  let sib := sibling t.job.core
  if t.job.id != job || job = 0 then s
  else
    match readyOp t t.job .mx with
    | some o =>
      if relocatable o && pairShared t t.job.core && arrayBusy t t.job.core && !arrayBusy t sib &&
          (jobsOn t sib).all (fun j => !readyAt t j .mx) then startOp t .mx o true
      else s
    | none => s

/-- The block of a job may be taken over: all that TABLE, INDEX, DATA, STATUS and STAIN name lies in the window. STATUS and STAIN carry no flag,
so their value decides; a STAIN of 0 names no bitmap. Of GTH, SCT and SCA only NTAB tells how far the table goes, so that one without a limit
is not taken; DJREF names the owner (log entry 15). -/
def relocatableBlock (j : Job) (e : IdxEntry) : Bool :=
  let b := e.blk
  let f := fun k => (bits b (64 * k) 64).toNat
  let cpt := (bits b 0 8).toNat = 4
  let row := (bits b 288 32).toNat
  let rows := if cpt then e.count else (bits b 448 32).toNat
  let djref := (bits b 48 16).toNat
  (rows != 0 || e.count == 0) && windowOff (bitAt b 18) (f 1) (rows * row) &&
    windowOff (bitAt b 20) (f 2) (e.count * if cpt then 1 else 4) && windowOff (bitAt b 19) (f 3) (e.count * row) &&
    (djref == 0xFFFF || djref == j.num) && windowOff true (f 5) 32 && (f 6 == 0 || windowOff true (f 6) ((e.count + 7) / 8))

/-- Some block holds the index engine of a core. -/
def indexBusy (s : State) (core : Nat) : Bool :=
  (allJobs s).any fun j => j.index.any fun b => b.holds && (if b.sib then sibling j.core else j.core) == core

/-- The block of a job that would run next: its first one that is not done, stopped ones and those in the sibling's engine not passed
(12_copy_index.md R282, R287). none: that block runs, or completes, or has stopped. -/
def nextBlock (j : Job) : Option Nat :=
  match j.index.findIdx? fun b => !(b.running && b.sib && b.halt == .going) with
  | some k =>
    match j.index[k]? with
    | some b => if b.halt == .going && !b.holds && !b.finishing then some k else none
    | none => none
  | none => none

/-- A job's index queue is ready at the engine of its core. From the request of a pre-emption until the resume no block of the job starts; one
that runs goes on (12_copy_index.md R287, 15_traps.md R331, R335; DESIGN CHOICE, log entry 65). -/
def indexReady (j : Job) : Bool := j.resident && j.st != .draining && (nextBlock j).isSome

/-- Among the index queues of a core that are ready in this clock, the job's is chosen (R282, 04_jobs.md R90). -/
def indexChosen (s : State) (j : Job) : Bool :=
  !(jobsOn s j.core).any fun k => k.id != j.id && indexReady k && yieldsTo s j.core 4 j j.idxW k k.idxW

/-- Block k of the focused job starts or goes on in the index engine of its core, or with sib of the sibling core. -/
def giveIndex (s : State) (k : Nat) (b : IdxEntry) (sib : Bool) : State :=
  { s with
    issued := assign s.issued (if sib then sibling s.job.core else s.job.core, 4) s.job.id
    job := { s.job with idxW := 0, index := setNth s.job.index k { b with running := true, sib, holds := true } } }

/-- The sibling's index engine starts the first block of a job that has not started; the owner's own engine runs another. None starts in a
drain (log entry 65). -/
def takeBlock (s : State) (job : Nat) : State :=
  let t := focus job s
  let sib := sibling t.job.core
  if t.job.id != job || job = 0 || !t.job.resident || t.job.st == .draining then s
  else
    match t.job.index.findIdx? fun b => !b.running with
    | some k =>
      match t.job.index[k]? with
      | some b =>
        if relocatableBlock t.job b && pairShared t t.job.core && indexBusy t t.job.core && !indexBusy t sib &&
            !(t.job.index.any fun b => b.running && (b.sib || b.halt != .going)) &&
            (jobsOn t sib).all (fun j => !indexReady j) then giveIndex t k b true
        else s
      | none => s
    | none => s

def execSiblingTakeover (job : Nat) (index : Bool) (s : State) : Result :=
  .next (if index then takeBlock s job else takeMmad s job)

/-! ### Clocks (05_control_core.md R111, R131) -/

/-- n clocks pass for a stream: it waits while it is ready and does not issue (04_jobs.md R90). -/
def EngStream.wait' (n : Nat) (ready : Bool) (x : EngStream) : EngStream := if ready then { x with w := x.w + n } else x

/-- n clocks pass for a job: while its streams run, a control stream that an empty FIFO, a TFENCE or a full queue blocks in them counts them
(R111), and so do its ready streams and its index queue. -/
def Job.tick (s : State) (n : Nat) (j : Job) : Job :=
  let ready := fun e => resumes j e || (readyOp s j e).isSome
  let j := { j with
    clockFlags := 0
    ld := j.ld.wait' n (ready .ld), mx := j.mx.wait' n (ready .mx), vx := j.vx.wait' n (ready .vx), st' := j.st'.wait' n (ready .st)
    idxW := if indexReady j then j.idxW + n else j.idxW }
  if j.st == .running then
    match j.wait with
    | .dstall => if j.fifo.isEmpty then { j with dstall := j.dstall + BitVec.ofNat 64 n } else j
    | .fence => if j.fenced then j else { j with dstall := j.dstall + BitVec.ofNat 64 n }
    | .handing .. => if j.allRoom then j else { j with qstall := j.qstall + BitVec.ofNat 64 n }
    | .qstall es => if es.all fun e => j.queueRoom e then j else { j with qstall := j.qstall + BitVec.ofNat 64 n }
    | _ => j
  else j

/-- n clocks pass: the barriers take the events of the clock that ends (11_sync.md R249). The device clock counts from the end of bring-up
(18_host.md R384). -/
def tick (s : State) (n : Nat) : State :=
  if s.bootStep = 7 && n != 0 then
    (s.barriers.map Prod.fst).foldl (passBar n) (mapJobs { s with clock := s.clock + n } (Job.tick s n))
  else s

/-- The clocks left of a window pass on a core in alternate-window mode. -/
def execAltWindowChange (core : Nat) (s : State) : Result :=
  .next (if (jobsOn s core).any Job.altArray then tick s (256 - s.clock % 256) else s)

end Sys2Proof.Machine
end

