-- ==== Sys2Proof/Machine/Units.lean ====
section
/-! DEFINITION. What the copy channels and the index engine share: their parties (14_ordering.md R303), data under a poison policy
(12_copy_index.md R280, R286), reductions (R269), the pinned translation of progress writes (R402), and their faults while their
job is there or absent (R281, 15_traps.md R336). -/

namespace Sys2Proof.Machine

/-! ### Faults (R281, 15_traps.md R320, R336) -/

/-- A job is absent: from the request of a pre-emption until its streams resume (15_traps.md R336). -/
def Job.away (j : Job) : Bool := j.st == .draining || j.st == .replaying || j.logging

/-- The fault record that a stop carries. -/
def Stop.record : Stop → Option FaultRec
  | .fault _ _ r => some r
  | _ => none

/-- The fault log of a job takes a fault of a unit now: its traps are pending ones, or its fault log has room (15_traps.md R333). -/
def faultRoom (s : State) (id : Nat) : Bool :=
  match findJob s id with
  | none => true
  | some j => !j.away || (match j.basket with | some b => b.faults.length < b.args.fltMax | none => false)

/-- A fault of a unit that acts for a job: a pending trap, or while the job is absent an entry of its fault log with the record of the access,
told to Dvorol as ABSENT_CONTEXT. Where the job has retired nobody is told, and a part of a collective that has stopped so stays stopped until its
context ends (16_fabric.md R357; DESIGN CHOICE, log entry 67). -/
def unitFault (s : State) (id : Nat) (t : Trap) (frec : FaultRec) : State :=
  match findJob s id with
  | none => s
  | some j =>
    if j.away then
      let e : FltEntry :=
        { cause := t.cause, val := t.val, prog := t.prog, stream := t.stream.toNat, sib := t.sib, frec, tub := t.tub, slot := t.slot }
      tellContext (updBasket s id fun b => { b with faults := b.faults ++ [e] }) j.asid 6 Cause.absentContext.code t.val
    else deliver s id t

/-- What a unit that acts for a job does about a stop: it waits with nothing posted while the fault log that the fault goes to is full
(15_traps.md R333). -/
def unitVerdict (s : State) (id : Nat) (p : Party) (e : Stop) : Verdict :=
  match e with
  | .trap .. | .denied .. | .fault .. => if faultRoom s id then verdict s p e else .again s
  | _ => verdict s p e

/-! ### Pinned translations (R402) -/

/-- The pin of a place outside a scratchpad. -/
def Place.pin : Place → Option Pin
  | .here .hbm a _ => some (.hbm a)
  | .here .ddr a _ => some (.ddr a)
  | .here .host a _ => some (.host a)
  | .here .. => none
  | .remote dev ddr a _ => some (.remote dev ddr a)

/-- Translate an address for reading and for writing. -/
def pinAt (s : State) (p : Party) (va : Word) : Except Stop (Option Pin) :=
  match locate s p .read (.va va) 1, locate s p .write (.va va) 1 with
  | .error e, _ | _, .error e => .error e
  | .ok _, .ok (pl, _) => .ok pl.pin

/-- The place n bytes after a pinned one. -/
def Pin.add : Pin → Nat → Pin
  | .hbm a, n => .hbm (a + n)
  | .ddr a, n => .ddr (a + n)
  | .host a, n => .host (a + n)
  | .remote v m a, n => .remote v m (a + n)

/-- The n bytes at a pinned place. -/
def Pin.span (n : Nat) : Pin → Span
  | .hbm a => { far := none, sp := .hbm, a, n }
  | .ddr a => { far := none, sp := .ddr, a, n }
  | .host a => { far := none, sp := .host, a, n }
  | .remote v m a => { far := some (v, m), sp := .host, a, n }

/-- Write bytes at a pinned place of an address. The page's HOLD still holds them back, and so does a watermark of the job (R277); poison does
not. -/
def pinWrite (s : State) (p : Party) (va : Word) (pin : Option Pin) (d : List Byte) : Except Stop State :=
  let w := walk s p.asid va
  if w.cause.isNone && bitAt w.entry 10 then .error (.held (faultRec s p va .write none true w))
  else if pin.any fun a => guarded s p.unit (a.span d.length) then .error .stall
  else
    unlessMarked s p (.va va) none d.length <|
    match pin with
    | none => .ok s
    | some (.hbm a) => .ok (storeLine s .hbm a none d false)
    | some (.ddr a) => .ok (storeLine s .ddr a none d false)
    | some (.host a) => .ok (storeLine s .host a none d false)
    | some (.remote dev ddr a) =>
      match answerTo s p (request s p (.store d false) dev ddr a d.length .trap) va va with
      | .error e => .error e
      | .ok _ => .ok (takeStores s p.unit)

/-- Owed writes performed in order at the places of their offsets, up to the first that stops: the writes left, and the stop. -/
def payOwed (s : State) (p : Party) (va : Word) (pin : Nat → Option Pin) : List (Nat × List Byte) →
    State × List (Nat × List Byte) × Option Stop
  | [] => (s, [], none)
  | (o, d) :: r =>
    match pinWrite s p (va + BitVec.ofNat 64 o) (pin o) d with
    | .ok s => payOwed s p va pin r
    | .error e => (s, (o, d) :: r, some e)

/-! ### Data under a policy (R280, R286) -/

/-- Data with the bytes of poisoned lines marked, and the number of such lines. TRAP raises POISON; ZERO and PASS give zeros. -/
def readLines (s : State) (p : Party) (l : Loc) (n : Nat) (pol : Poison) : Except Stop (List (Byte × Bool) × Nat) :=
  match readChunks s p .read l n with
  | .error e => .error e
  | .ok cs =>
    match cs.find? fun c => c.bad && pol == .trap with
    | some c => .error (.trap .poison c.line)
    | none =>
      .ok (cs.flatMap fun c => c.data.map fun b => if c.bad then (0, true) else (b, false), (cs.filter Chunk.bad).length)

/-- The marks that a write of such data carries: PASS writes them, ZERO does not. -/
def marksFor (pol : Poison) (d : List (Byte × Bool)) : List (Byte × Bool) := if pol == .pass then d else d.map fun b => (b.1, false)

/-! ### Reductions (R269) -/

/-- The element format of a reduction format. -/
def rfmtFmt : RFmt → Fmt
  | .fp32 => .fp32 | .bf16 => .bf16 | .fp16 => .fp16 | .int32 => .int32

/-- An element combined with another. No flag is set. -/
def combine (op : ROp) (f : RFmt) (rm : RMode) (sat : Bool) (old new : Nat) : Nat :=
  let g := rfmtFmt f
  if f == .int32 then
    let a := intOf g old
    let b := intOf g new
    match op with
    | .add => (narrow g sat (a + b)).1
    | .max => lowBits g (max a b)
    | .min => lowBits g (min a b)
  else
    let a := numOf g old
    let b := numOf g new
    (roundNum g rm sat 0 (match op with
      | .add => a.add rm b
      | .max => a.max b
      | .min => a.min b)).1

/-- Elements of n bytes among bytes. -/
def elemsFrom (n : Nat) (d : List Byte) : List Nat := (List.range (d.length / n)).map fun k => leNat ((d.drop (n * k)).take n)

/-- Two runs of elements combined. -/
def combineBytes (op : ROp) (f : RFmt) (rm : RMode) (sat : Bool) (old new : List Byte) : List Byte :=
  let n := f.bytes
  ((elemsFrom n old).zip (elemsFrom n new)).flatMap fun q => leBytes n (combine op f rm sat q.1 q.2)

/-- A chunk combined with the bytes at a place, written as a write to place into. bad: the line is poisoned; under ZERO and PASS its values
are zeros, and PASS keeps the mark (log entry 16). -/
def reduceHere (s : State) (into from' : Space × Nat) (owner : Option (Nat × Nat)) (op : ROp) (f : RFmt) (rm : RMode) (sat : Bool)
    (pol : Poison) (d : List (Byte × Bool)) : State :=
  let bad := lineBad s from'.1 from'.2
  let old := if bad then d.map fun _ => 0 else getBytes s from'.1 from'.2 d.length
  storeLine s into.1 into.2 owner (combineBytes op f rm sat old (d.map Prod.fst)) (pol == .pass && (bad || d.any Prod.snd))

/-- One chunk in one line applied indivisibly at its target. The target line's own poison follows the policy (log entry 16): TRAP
raises, ZERO takes its values as zero and lines written in part keep their poison, PASS keeps it. A remote chunk is one request
(16_fabric.md R349), whose result says whether the line was poisoned. The number of poisoned target lines goes with it. -/
def reduceChunk (s : State) (p : Party) (l : Loc) (op : ROp) (f : RFmt) (rm : RMode) (sat : Bool) (pol : Poison)
    (d : List (Byte × Bool)) : Except Stop (State × Nat) :=
  match locate s p .atomic l d.length with
  | .error e => .error e
  | .ok (.remote dev ddr pa _, _) =>
    let q := ReqOp.reduce op f rm sat (d.map Prod.fst) (pol == .pass && d.any Prod.snd)
    match answerTo s p (request s p q dev ddr pa d.length pol) l.word l.line with
    | .error e => .error e
    | .ok r => .ok (s, if r.result == 1 then 1 else 0)
  | .ok (.here sp a _, owner) =>
    let from' := readPlace s sp a owner
    let bad := lineBad s from'.1 from'.2
    if bad && pol == .trap then .error (.denied .atomic .poison l.line)
    else
      .ok (reduceHere s (sp, a) from' owner op f rm sat pol d, if bad then 1 else 0)

end Sys2Proof.Machine
end

