-- ==== Sys2Proof/Machine/Channels.lean ====
section
/-! DEFINITION. The copy channels (12_copy_index.md R262 to R281). A record or a transfer is performed by the channel that curCore
and curChan name. -/

namespace Sys2Proof.Machine

/-! ### The channels (R262) -/

/-- Physical channel n of a core, if it is bound. -/
def chanOf (s : State) (core n : Nat) : Option Chan := s.chans.find? fun c => c.core == core && c.n == n

/-- Replace a bound channel, or bind it. -/
def putChan (s : State) (c : Chan) : State :=
  if s.chans.any fun x => x.core == c.core && x.n == c.n then
    { s with chans := s.chans.map fun x => if x.core == c.core && x.n == c.n then c else x }
  else { s with chans := s.chans ++ [c] }

/-- The channel becomes idle and is unbound. -/
def dropChan (s : State) (core n : Nat) : State := { s with chans := s.chans.filter fun c => !(c.core == core && c.n == n) }

/-- The channel that a job's cN is bound to. -/
def boundChan (s : State) (job n : Nat) : Option Chan := s.chans.find? fun c => c.job == job && c.n == n

/-- A channel newly bound to the focused job. -/
def newChan (s : State) (core n : Nat) (st : ChanSt) (addr : Word) : Chan :=
  { st, job := s.job.id, core, n, addr, raw := 0, prog := 0, sub := 0, npoi := 0, pin := none, owed := [], wait := false,
    wmEnd := 0, wmSpad := false, wmRun := false, wmScope := .job, bar := none, cpyx := none, graph := none,
    marker := none, halt := .going, wmJob := 0, table := none, rowptr := none, why := none }

/-- The context of a channel: its job's, or that of the graph whose node joined the chain. -/
def chanAsid (s : State) (c : Chan) : BitVec 16 :=
  match findJob s c.job, c.graph with
  | some j, _ => j.asid
  | none, some n => n.asid
  | none, none => 0

/-- The channel walks for a graph node that no longer waits for it. -/
def chanStale (s : State) (c : Chan) : Bool :=
  match c.graph with
  | some n => !s.graphs.any fun g => g.asid == n.asid && g.num == n.g && g.gen == n.gen && g.running
  | none => false

/-- A channel as a party, with a class; a CPYX transfer resolves the aperture (13_memory.md R399). -/
def chanParty (s : State) (c : Chan) (cls : Cls) : Party :=
  { unit := .chan c.core c.n, job := c.job, asid := chanAsid s c
    core := c.core, stream := 5 + c.n, cls, aperture := c.cpyx.isSome, sib := false }

/-! ### CHAIN, CPYX, CWAIT (R267, R278, R279) -/

/-- The core and number of the channel that cN of the focused job acts on, once it is not busy and not another job's. -/
def freeChan (s : State) (n : Nat) : Option Nat :=
  match boundChan s s.job.id n with
  | some c => if c.st == .parked then some c.core else none
  | none => if (chanOf s s.job.core n).isNone then some s.job.core else none

def execChain (a : Reg) (n : Fin 8) (s : State) : Result :=
  let h := getX s a
  if bits h 0 7 != 0 then .next (raise s .misaligned h)
  else
    match freeChan s n.val with
    | none => .next (hold s .blocked)
    | some core => let s := drain s; .next (advance (putChan s (newChan s core n.val .fetch h)))

/-- The job in whose scratchpad a range at an offset of a job lies: the sibling window leads to another (R277). -/
def rangeOwner (s : State) (job o : Nat) : Nat :=
  match (findJob s job).bind fun j => admitOff s j o with
  | some (j, _) => j.id
  | none => job

/-- Where an address of a CPYX transfer leads: an offset of the job's scratchpad, or an address. -/
def cpyxLow (a : Word) : Bool × Word := if inAperture a then (true, bits a 0 24 |>.setWidth 64) else (false, a)

def execCpyx (d a b : Reg) (k : Cls) (n : Fin 8) (s : State) : Result :=
  let len := getX s d
  if 2 ^ 32 ≤ len.toNat then .next (raise s .queueMisuse len)
  else if len = 0 then .next (advance s)
  else
    match freeChan s n.val with
    | none => .next (hold s .blocked)
    | some core =>
      let s := drain s
      let (sp, lo) := cpyxLow (getX s b)
      let c := newChan s core n.val .walking 0
      .next (advance (setWmark (putChan s { c with
        cpyx := some { src := getX s a, dst := getX s b, len := len.toNat, cls := k, done := 0 }
        wmEnd := lo + len, wmSpad := sp, wmRun := true, wmJob := if sp then rangeOwner s s.job.id lo.toNat else s.job.id }) core n.val lo))

/-- The wait of CWAIT is over: no WM record whose range holds v runs on cN, or its watermark is above v. A scratchpad range takes v
as an offset or as an aperture address. -/
def cwaitDone (s : State) (n : Nat) (v : Word) : Bool :=
  match boundChan s s.job.id n with
  | none => true
  | some c =>
    let o := (if c.wmSpad then (cpyxLow v).2 else v).toNat
    !c.wmRun || o < (wmarkOf s c.core c.n).toNat || c.wmEnd.toNat ≤ o

def execCwait (a : Reg) (n : Fin 8) (s : State) : Result :=
  .next (if cwaitDone s n.val (getX s a) then advance s else hold s .blocked)

/-! ### Stops and restarts (R281, R402) -/

/-- PROG and NPOI as the last doubleword of the record holds them. -/
def progWord (c : Chan) : List Byte := leBytes 8 (c.prog % 2 ^ 48 + 2 ^ 48 * min c.npoi 0xFFFF)

/-- A trap of a channel. -/
def chanTrap (c : Chan) (cause : Cause) (v : Word) : Trap :=
  { cause, val := v, prog := BitVec.ofNat 64 c.prog, stream := BitVec.ofNat 8 (5 + c.n), sib := false, orig := 0, pc := 0 }

/-- The class of the record that the channel walks, or of its transfer (R264, R266; 14_ordering.md R303). -/
def Chan.cls (c : Chan) : Cls := match c.cpyx with | some x => x.cls | none => (bits c.raw 8 4).toFin

/-- The writes that the channel owes are performed up to the first that stops. One that fails is left for the restart, and
REMOTE_UNREACHABLE is delivered. -/
def payChan (s : State) (c : Chan) : State × Chan :=
  let p := chanParty s c c.cls
  let (s, owed, stop) := payOwed s p c.addr (fun o => c.pin.map fun a => a.add o) c.owed
  let c := { c with owed }
  match stop with
  | none => (s, c)
  | some x =>
    match unitVerdict s c.job p x with
    | .again s | .dvorol s _ => (s, c)
    | .held s => (s, if c.halt == .going then { c with halt := .held, wait := true } else { c with wait := true })
    | .trap s cause v => (unitFault s c.job (chanTrap c cause v) (stopRec s p x), { c with halt := .trapped, wait := true, why := some (cause, v) })

/-- A channel with its progress stops at a fault: with late, PROG is written to the record (R281). -/
def haltChan (s : State) (c : Chan) (late : Bool) (h : Halt) (cause : Cause) (v : Word) : State :=
  let c := { c with halt := h, wait := false, why := some (cause, v), owed := if late then [(120, progWord c)] else c.owed }
  let (s, c) := payChan s c
  putChan s c

/-- The channel stops where an access stops, with its progress in c; late: PROG is to be written to the record. -/
def stopChan (s : State) (c : Chan) (late : Bool) (x : Stop) : State :=
  match unitVerdict s c.job (chanParty s c c.cls) x with
  | .again s => putChan s c
  | .held s => putChan s { c with halt := .held }
  | .dvorol s v =>
    haltChan (tellContext s (chanParty s c 0).asid 4 Cause.pteInvalid.code v) c late .dvorol .pteInvalid v
  | .trap s cause v => haltChan (unitFault s c.job (chanTrap c cause v) (stopRec s (chanParty s c c.cls) x)) c late .trapped cause v

/-- A channel goes on from its progress. -/
def restartChan (s : State) (core n : Nat) : State :=
  match chanOf s core n with
  | some c => putChan s { c with halt := .going, wait := false }
  | none => s

/-- Do k with the channel that acts, once it owes nothing, and unless it has stopped; what a stopped one owes it still writes (R402). A
record that is done completes by an event of its own. -/
def withChan (s : State) (k : Chan → State) : Result :=
  .next <|
    match chanOf s s.curCore s.curChan with
    | none => s
    | some c =>
      if c.wait || c.st == .finishing then s
      else if !c.owed.isEmpty then let (s, c) := payChan s c; putChan s c
      else if c.halt != .going then s
      else k c

/-! ### Fetching a record (R264, R265, R276) -/

/-- The job that a JREF names: a job of the binding job's launch by its number, 0xFFFF the binding job itself. An offset in a job that
does not exist leads nowhere. -/
def jref (s : State) (c : Chan) (r : BitVec 16) : Nat :=
  if r = 0xFFFF then c.job
  else
    match findJob s c.job with
    | none => 0
    | some j =>
      match (gangOf s j.launch).find? fun k => k.num == r.toNat with
      | some k => k.id
      | none => 0

/-- An address of a record. -/
def recLoc (sp : Bool) (a : Int) (job : Nat) : Loc :=
  if sp then .off (BitVec.ofInt 64 a).toNat job else .va (BitVec.ofInt 64 a)

/-- Source and destination of a record, n bytes on. -/
def srcLoc (s : State) (c : Chan) (r : RecHead) (n : Int) : Loc := recLoc r.srcsp (r.src.toNat + n) (jref s c r.sjref)
def dstLoc (s : State) (c : Chan) (r : RecHead) (n : Int) : Loc := recLoc r.dstsp (r.dst.toNat + n) (jref s c r.djref)

/-- The elements of a walk. -/
def walkTotal (w : Walk) : Nat := (w.counters.map fun c => c.count.toNat).prod

/-- Source and destination distances of element e, counter 0 fastest. -/
def walkOffset : List WalkCtr → Nat → Int × Int
  | [], _ => (0, 0)
  | c :: r, e =>
    let d : Nat := e % c.count.toNat
    let (x, y) := walkOffset r (e / c.count.toNat)
    (d * c.sstr.toInt + x, d * c.dstr.toInt + y)

/-- The destinations of a walk are dense and ascending: run is the bytes that the counters before cover. -/
def denseFrom (run : Nat) : List WalkCtr → Bool
  | [] => true
  | c :: r => (c.count.toNat ≤ 1 || c.dstr.toInt = run) && denseFrom (run * c.count.toNat) r

/-- The destinations of a walk are dense and ascending (R276). -/
def walkDense (w : Walk) : Bool := walkTotal w = 0 || denseFrom w.esize.toNat w.counters

/-- The common fields of a record. -/
def recHead : Instr → Option RecHead
  | .aff r _ | .red r _ _ _ _ _ | .mcst r _ _ _ | .sig r _ | .pgt r _ _ _ _ | .skip r => some r
  | _ => none

/-- A WM record that R276 does not allow. -/
def watermarkBad : Instr → Bool
  | .aff r w => r.wm && !walkDense w
  | .pgt .. => false
  | i => match recHead i with | some r => r.wm | none => false

/-- The barrier of a record, resolved; none where it lies beyond the job's allotment, and for any in a record of a graph's COPY node, which has no
job (DESIGN CHOICE, log entry 66). -/
def recBar (s : State) (c : Chan) (r : RecHead) : Option (Option BarId) :=
  match r.bar with
  | none => some none
  | some o => ((findJob s c.job).bind fun j => j.barAt o).map some

/-- A record taken up: its progress, its barrier, which counts the event to come (11_sync.md R261), and its watermark (R276). -/
def takeUp (s : State) (c : Chan) (raw : BitVec 1024) (i : Instr) (r : RecHead) (b : Option BarId) : State :=
  let s := barOwe s b
  let span := match i with | .aff _ w => walkTotal w * w.esize.toNat | _ => 0
  let done := match i with | .aff _ w => r.prog.toNat * w.esize.toNat | _ => 0
  let s := if r.wm then setWmark s c.core c.n (r.dst + BitVec.ofNat 64 done) else s
  putChan s { c with
    st := .walking, raw, prog := r.prog.toNat, npoi := r.npoi.toNat, sub := 0, bar := b
    wmRun := r.wm, wmScope := r.scope, wmSpad := r.dstsp, wmJob := rangeOwner s (jref s c r.djref) r.dst.toNat
    wmEnd := r.dst + BitVec.ofNat 64 span, table := none, rowptr := none, dests := none }

/-- The record is read: parked where OWN is 0, rejected where it breaks R264 or R276, else taken up. -/
def readRecord (s : State) (c : Chan) : State :=
  let p := chanParty s c 0
  match readExact s p .read (.va c.addr) 128 with
  | .error e => stopChan s c false e
  | .ok b =>
    let raw : BitVec 1024 := ofBytes 1024 b
    match pinAt s p c.addr with
    | .error e => stopChan s c false e
    | .ok pin =>
      let s := takeReplies s p.unit
      let c := { c with pin, prog := (bits raw 960 48).toNat }
      if !bitAt raw 0 then (if chanStale s c then dropChan s c.core c.n else putChan s { c with st := .parked })
      else
        match decodeRecord raw with
        | none => stopChan s c false (.trap .queueMisuse c.addr)
        | some i =>
          match recHead i with
          | none => stopChan s c false (.trap .queueMisuse c.addr)
          | some r =>
            match recBar s c r with
            | none => stopChan s c false (.trap .queueMisuse c.addr)
            | some bar =>
              if watermarkBad i then stopChan s c false (.trap .watermarkWalk c.addr) else takeUp s c raw i r bar

/-- The markers that reached the channel are applied at the record's boundary (13_memory.md R300). -/
def execChannelRecordFetch (core : Nat) (n : Fin 8) (s : State) : Result :=
  withChan { s with curCore := core, curChan := n.val } fun c =>
    if c.st == .fetch then
      let c := { c with marker := none }
      readRecord (putChan s c) c
    else s

/-! ### Performing a record -/

/-- Every unit of the record is done: the writes of PROG and of the first doubleword with OWN = 0 are owed (R275). -/
def finishChan (s : State) (c : Chan) : State :=
  let c := { c with st := .finishing, wmRun := false, owed := [] }
  putChan s { c with owed := [(120, progWord c), (0, leBytes 8 ((bits c.raw 0 64).toNat / 2 * 2))] }

/-- Units of a record, m of them left and q in this turn; k performs one from the progress in c and gives c after it. -/
def chanLoop (k : Chan → State → Except (Chan × Stop) (Chan × State)) : Nat → Nat → Chan → State → State
  | 0, _, c, s => finishChan s c
  | _ + 1, 0, c, s => putChan s c
  | m + 1, q + 1, c, s =>
    match k c s with
    | .error (c, x) => stopChan s c true x
    | .ok (c, t) => chanLoop k m q c (putChan (takeReplies t (.chan c.core c.n)) c)

/-- A record of total units performed from its progress. -/
def runRecord (total : Nat) (k : Chan → State → Except (Chan × Stop) (Chan × State)) (s : State) : Result :=
  withChan s fun c =>
    if c.st == .walking && c.cpyx.isNone then
      let m := total - c.prog
      chanLoop k m (if s.units = 0 then m else s.units) c s
    else s

/-- A unit whose stop leaves the channel as it was. -/
def unitOf (c : Chan) (r : Except Stop (Chan × State)) : Except (Chan × Stop) (Chan × State) :=
  match r with
  | .error e => .error (c, e)
  | .ok x => .ok x

/-- Copy n bytes from one place to another under a policy: the poisoned lines met and the state (R268, R280). -/
def copyRun (s : State) (p : Party) (src dst : Loc) (n : Nat) (pol : Poison) : Except Stop (Nat × State) :=
  match readLines s p src n pol with
  | .error e => .error e
  | .ok (d, bad) =>
    match writeMarked s p dst (marksFor pol d) with
    | .error e => .error e
    | .ok s => .ok (bad, s)

/-- The watermark of a WM record that runs moves up (R276). -/
def passMark (s : State) (c : Chan) (v : Word) : State := if c.wmRun then setWmark s c.core c.n v else s

/-- AFF: PROG counts elements, and the watermark follows them (R268, R276). -/
def execAff (r : RecHead) (w : Walk) (s : State) : Result :=
  runRecord (walkTotal w) (fun c s =>
    let (x, y) := walkOffset w.counters c.prog
    let n := w.esize.toNat
    unitOf c (match copyRun s (chanParty s c r.cls) (srcLoc s c r x) (dstLoc s c r y) n r.poison with
      | .error e => .error e
      | .ok (bad, s) =>
        .ok ({ c with prog := c.prog + 1, npoi := c.npoi + bad }, passMark s c (r.dst + BitVec.ofNat 64 (n * (c.prog + 1)))))) s

/-- The chunks of element e of a RED record: the parts of it that lie in one destination line each (R269). -/
def redChunks (r : RecHead) (w : Walk) (e : Nat) : List (Nat × Nat) :=
  lineParts (((r.dst.toNat : Int) + (walkOffset w.counters e).2) % 64).toNat w.esize.toNat

/-- Chunks of all elements before e. -/
def chunksBefore (r : RecHead) (w : Walk) (e : Nat) : Nat := ((List.range e).map fun k => (redChunks r w k).length).sum

/-- Element and part of chunk u, searching n elements from e on. -/
def chunkAt (r : RecHead) (w : Walk) : Nat → Nat → Nat → Nat × Nat × Nat
  | 0, e, _ => (e, 0, 0)
  | n + 1, e, u =>
    let l := redChunks r w e
    if u < l.length then let (o, k) := l.getD u (0, 0); (e, o, k) else chunkAt r w n (e + 1) (u - l.length)

/-- RED: PROG counts chunks (R269). -/
def execRed (r : RecHead) (w : Walk) (op : ROp) (f : RFmt) (rm : RMode) (sat : Bool) (s : State) : Result :=
  runRecord (chunksBefore r w (walkTotal w)) (fun c s =>
    let (e, o, n) := chunkAt r w (walkTotal w) 0 c.prog
    let (x, y) := walkOffset w.counters e
    let p := chanParty s c r.cls
    unitOf c (match readLines s p (srcLoc s c r (x + o)) n r.poison with
      | .error e => .error e
      | .ok (d, bad) =>
        match reduceChunk s p (dstLoc s c r (y + o)) op f rm sat r.poison d with
        | .error e => .error e
        | .ok (s, more) => .ok ({ c with prog := c.prog + 1, npoi := c.npoi + bad + more }, s))) s

/-- Entry k of an MCST destination list as a number: an address, JREF, and the scratchpad mark (R270). -/
def destEntry (l : List Byte) (k : Nat) : Nat := leNat ((l.drop (16 * k)).take 16)

/-- The job that an entry names, and whether it marks a scratchpad offset. -/
def destJob (s : State) (c : Chan) (v : Nat) : Nat := jref s c (BitVec.ofNat 16 (v / 2 ^ 64))
def destSpad (v : Nat) : Bool := v / 2 ^ 80 % 2 == 1

/-- An entry with another bit set, or with a scratchpad of another die, breaks R270. -/
def destBad (s : State) (c : Chan) (v : Nat) : Bool :=
  let far := match findJob s (destJob s c v) with | some j => dieOf j.core != dieOf c.core | none => false
  2 ≤ v / 2 ^ 80 || (destSpad v && far)

/-- The destination list of n entries, read whole before any destination is written (13_memory.md R400). A bad entry rejects the record (log
entry 62). -/
def mcstList (s : State) (c : Chan) (r : RecHead) (n : Nat) (dlist : Word) : Except Stop (List Byte) :=
  match readExact s (chanParty s c r.cls) .read (.va dlist) (16 * n) with
  | .error e => .error e
  | .ok l => if (List.range n).any fun k => destBad s c (destEntry l k) then .error (.trap .queueMisuse c.addr) else .ok l

/-- Destination k of a list. -/
def mcstDest (s : State) (c : Chan) (l : List Byte) (k : Nat) : Loc :=
  let v := destEntry l k
  recLoc (destSpad v) ((v % 2 ^ 64 : Nat) : Int) (destJob s c v)

/-- Send the range to one destination in ascending pieces, n of them left and q in this turn. On a stop c holds the bytes sent. -/
def mcstSend (r : RecHead) (len k : Nat) (l : List Byte) : Nat → Nat → Chan → State → Except (Chan × State × Option Stop) (Chan × State)
  | 0, _, c, s => .ok (c, s)
  | n + 1, q, c, s =>
    if len ≤ c.sub then .ok ({ c with prog := c.prog ||| 2 ^ k, sub := 0 }, s)
    else if q = 0 then .error (c, s, none)
    else
      let src := srcLoc s c r c.sub
      let m := min (len - c.sub) (64 - src.low)
      match copyRun s (chanParty s c r.cls) src ((mcstDest s c l k).add c.sub) m r.poison with
      | .error e => .error (c, s, some e)
      | .ok (bad, t) =>
        mcstSend r len k l n (q - 1) { c with sub := c.sub + m, npoi := c.npoi + bad } (takeReplies t (.chan c.core c.n))

/-- Whether a stop is a fault rather than a wait. -/
def Stop.faults : Stop → Bool
  | .trap .. | .denied .. | .fault .. => true
  | _ => false

/-- Destinations in order; one that faults is left out, the ones after it that can be sent at once are sent, and the record stops; the restart
reads the list anew. -/
def mcstAll (r : RecHead) (len : Nat) (l : List Byte) (q : Nat) : List Nat → Option Stop → Chan → State → State
  | [], none, c, s => finishChan s c
  | [], some x, c, s => stopChan s { c with sub := 0, dests := none } true x
  | k :: ks, f, c, s =>
    if c.prog / 2 ^ k % 2 = 1 then mcstAll r len l q ks f c s
    else
      match mcstSend r len k l (len + 1) q { c with sub := if f.isNone then c.sub else 0 } s, f with
      | .ok (c, t), f => mcstAll r len l q ks f c t
      | .error (c, t, none), none => putChan t c
      | .error (c, t, some x), none => if x.faults then mcstAll r len l q ks (some x) c t else stopChan t c true x
      | .error (c, t, _), some x => stopChan t { c with sub := 0, dests := none } true x

/-- Every destination of an MCST record is done. -/
def mcstDone (c : Chan) (n : Nat) : Bool := (List.range n).all fun k => c.prog / 2 ^ k % 2 = 1

/-- MCST: PROG is the bitmap of destinations done (R270). A list that cannot be read lets the record take no effect (13_memory.md R400). -/
def execMcst (r : RecHead) (len : BitVec 32) (ndst : BitVec 16) (dlist : Word) (s : State) : Result :=
  withChan s fun c =>
    if c.st == .walking && c.cpyx.isNone then
      let q := if s.units = 0 then len.toNat + 1 else s.units
      let all := List.range ndst.toNat
      match c.dests with
      | some l => mcstAll r len.toNat l q all none c s
      | none =>
        if mcstDone c ndst.toNat then finishChan s c
        else
          match mcstList s c r ndst.toNat dlist with
          | .error x => stopChan s c true x
          | .ok l => mcstAll r len.toNat l q all none { c with dests := some l } (takeReplies s (.chan c.core c.n))
    else s

/-- SIG: one 8-byte write (R271). -/
def execSig (r : RecHead) (v : Word) (s : State) : Result :=
  runRecord 1 (fun c s =>
    unitOf c (match writeBytes s (chanParty s c r.cls) (dstLoc s c r 0) (toBytes v) with
      | .error e => .error e
      | .ok s => .ok ({ c with prog := 1 }, s))) s

/-! ### PGT (R272) -/

/-- An image: row pointers, width, height. -/
structure Img where
  rows : Word
  w : Nat
  h : Nat
  deriving DecidableEq, Repr

/-- Patches of an image in a row, and in all. -/
def Img.across (m : Img) (p : Nat) : Nat := (m.w + p - 1) / p
def Img.patches (m : Img) (p : Nat) : Nat := m.across p * ((m.h + p - 1) / p)

/-- The image table, from entry k on (R272). An entry whose last 4 bytes are not zero raises QUEUE_MISUSE with the record's address, before
its W and H are judged, and a poisoned line raises POISON whatever the record's POISON says, which is for pixels (DESIGN CHOICE, log entry
65). -/
def imgTable (s : State) (c : Chan) (r : RecHead) : Nat → Nat → Except Stop (List Img)
  | _, 0 => .ok []
  | k, n + 1 =>
    match readExact s (chanParty s c r.cls) .read (srcLoc s c r (16 * k)) 16 with
    | .error e => .error e
    | .ok b =>
      let m : Img := { rows := ofBytes 64 b, w := leNat ((b.drop 8).take 2), h := leNat ((b.drop 10).take 2) }
      if leNat (b.drop 12) != 0 then .error (.trap .queueMisuse c.addr)
      else if m.w = 0 || m.h = 0 then .error (.trap .shapeInvalid 0)
      else
        match imgTable s c r (k + 1) n with
        | .error e => .error e
        | .ok l => .ok (m :: l)

/-- The image table of the record as the channel has read it, else as it stands. -/
def tableOf (s : State) (c : Chan) (r : RecHead) (n : Nat) : Except Stop (List Img) :=
  match c.table with
  | some l => .ok (l.map fun x => { rows := x.1, w := x.2.1, h := x.2.2 })
  | none => imgTable s c r 0 n

/-- The row pointers of image i as the channel has read them, else as they stand: H doublewords, read once per image.
A poisoned line raises POISON whatever the record's POISON says (DESIGN CHOICE, log entry 65). -/
def rowPtrs (s : State) (c : Chan) (q : Party) (m : Img) (i : Nat) : Except Stop (List Word) :=
  match c.rowptr with
  | some (k, l) => if k = i then .ok l else rowsNow
  | none => rowsNow
where
  rowsNow : Except Stop (List Word) :=
    match readExact s q .read (.va m.rows) (8 * m.h) with
    | .error e => .error e
    | .ok b => .ok ((List.range m.h).map fun y => ofBytes 64 ((b.drop (8 * y)).take 8))

/-- Patches of all images. -/
def totalPatches (p : Nat) (l : List Img) : Nat := (l.map fun m => m.patches p).sum

/-- Image, its number, and the patch in it that patch n of the record is. -/
def patchOf (p : Nat) : List Img → Nat → Nat → Option (Img × Nat × Nat)
  | [], _, _ => none
  | m :: r, i, n => if n < m.patches p then some (m, i, n) else patchOf p r (i + 1) (n - m.patches p)

/-- The rows of a patch from row y on: pixels beyond the image are zero bytes. -/
def patchRows (s : State) (q : Party) (r : RecHead) (m : Img) (ptrs : List Word) (p es x0 : Nat) :
    Nat → Nat → Except Stop (List (Byte × Bool) × Nat)
  | _, 0 => .ok ([], 0)
  | y, n + 1 =>
    let here : Except Stop (List (Byte × Bool) × Nat) :=
      if m.h ≤ y then .ok ([], 0)
      else readLines s q (.va (ptrs.getD y 0 + BitVec.ofNat 64 (x0 * es))) (min p (m.w - x0) * es) r.poison
    match here with
    | .error e => .error e
    | .ok (d, bad) =>
      match patchRows s q r m ptrs p es x0 (y + 1) n with
      | .error e => .error e
      | .ok (ds, more) => .ok ((d ++ List.replicate (p * es) (0, false)).take (p * es) ++ ds, bad + more)

/-- Entry k of the offsets vector written. -/
def putOffset (s : State) (q : Party) (offs : Word) (k v : Nat) : Except Stop State :=
  writeBytes s q (.va (offs + BitVec.ofNat 64 (4 * k))) (leBytes 4 v)

/-- Patch n of the record, of an image with its row pointers: the pixels, and the offset after the image once its last patch is there. -/
def patchWrite (s : State) (c : Chan) (r : RecHead) (p es : Nat) (offs : Word) (m : Img) (i k n : Nat) (ptrs : List Word) :
    Except Stop (Chan × State) :=
  let q := chanParty s c r.cls
  let size := p * p * es
  match patchRows s q r m ptrs p es (k % m.across p * p) (k / m.across p * p) p with
  | .error e => .error e
  | .ok (d, bad) =>
    match writeMarked s q (dstLoc s c r (n * size : Nat)) (marksFor r.poison d) with
    | .error e => .error e
    | .ok s =>
      match (if k + 1 = m.patches p then putOffset s q offs (i + 1) (n + 1) else .ok s) with
      | .error e => .error e
      | .ok s =>
        .ok ({ c with prog := n + 1, npoi := c.npoi + bad }, passMark s c (r.dst + BitVec.ofNat 64 (size * (n + 1))))

/-- Patch n of the record; a stop leaves the row pointers read. -/
def patchUnit (s : State) (c : Chan) (r : RecHead) (p es : Nat) (offs : Word) (l : List Img) (n : Nat) :
    Except (Chan × Stop) (Chan × State) :=
  match patchOf p l 0 n with
  | none => .ok (c, s)
  | some (m, i, k) =>
    match rowPtrs s c (chanParty s c r.cls) m i with
    | .error e => .error (c, e)
    | .ok ptrs =>
      let c := { c with rowptr := some (i, ptrs) }
      unitOf c (patchWrite s c r p es offs m i k n ptrs)

/-- The patches of a record from its progress on. The table is read once, and the record's range set, as the record starts. -/
def pgtRun (s : State) (c : Chan) (r : RecHead) (p es nimg : Nat) (offs : Word) : State :=
  match tableOf s c r nimg with
  | .error e => stopChan s c true e
  | .ok l =>
    let total := totalPatches p l
    let size := p * p * es
    if 2 ^ 31 ≤ total then stopChan s c true (.trap .shapeInvalid (BitVec.ofNat 64 total))
    else
      let c := { c with wmEnd := r.dst + BitVec.ofNat 64 (total * size), table := some (l.map fun m => (m.rows, m.w, m.h)) }
      let m := total - c.prog
      chanLoop (fun c s => patchUnit s c r p es offs l c.prog) m (if s.units = 0 then m else s.units) c
        (passMark (putChan s c) c (r.dst + BitVec.ofNat 64 (c.prog * size)))

/-- PGT: PROG counts patches. off[0] := 0 is written first of all, and stands where the record stops behind it. -/
def execPgt (r : RecHead) (p es nimg : BitVec 16) (offs : Word) (s : State) : Result :=
  withChan s fun c =>
    if c.st == .walking && c.cpyx.isNone then
      if c.prog != 0 || c.sub != 0 then pgtRun s c r p.toNat es.toNat nimg.toNat offs
      else
        match putOffset s (chanParty s c r.cls) offs 0 0 with
        | .error e => stopChan s c true e
        | .ok t =>
          let c := { c with sub := 1 }
          pgtRun (putChan (takeReplies t (.chan c.core c.n)) c) c r p.toNat es.toNat nimg.toNat offs
    else s

/-- SKIP completes at once (R273). -/
def execSkip (_r : RecHead) (s : State) : Result :=
  withChan s fun c => if c.st == .walking && c.cpyx.isNone then finishChan s c else s

/-! ### Completion (R274, R275) -/

/-- The nominal bytes of a record; a PGT record that runs has its range for it. -/
def nominal (c : Chan) : Instr → Nat
  | .aff _ w | .red _ w _ _ _ _ => walkTotal w * w.esize.toNat
  | .mcst _ len ndst _ => len.toNat * ndst.toNat
  | .sig .. => 8
  | .pgt r _ _ _ _ => (c.wmEnd - r.dst).toNat
  | _ => 0

/-- The record after the completed one: NEXT, or the end of the chain. The chain of a retiring job ends here (04_jobs.md R76). -/
def nextRecord (s : State) (c : Chan) : State :=
  let next := bits c.raw 64 64
  let retiring := match findJob s c.job with | some j => j.retiring | none => c.graph.isNone
  if next = 0 then dropChan s c.core c.n
  else putChan s { c with st := if retiring then .parked else .fetch, addr := next, prog := 0, npoi := 0, sub := 0, pin := none }

/-- The barrier's decrement, then the writes of PROG and of the first doubleword. -/
def execRecordCompletion (core : Nat) (n : Fin 8) (s : State) : Result :=
  .next <|
    match chanOf s core n.val with
    | none => s
    | some c =>
      if c.st != .finishing || c.halt != .going || c.wait then s
      else
        let bytes := match decodeRecord c.raw with | some i => nominal c i | none => 0
        let paid : Option State :=
          match c.bar with
          | none => some s
          | some b => (barEvent s b (.bytes bytes)).map fun s => barPaid s b
        match paid with
        | none => s
        | some s =>
          let (s, c) := payChan s { c with bar := none }
          if c.owed.isEmpty then nextRecord s c else putChan s c

/-! ### CPYX (R279) -/

/-- Bytes of a transfer in ascending order, n of them left and q in this turn. -/
def cpyxLoop (x : Cpyx) : Nat → Nat → Chan → State → State
  | 0, _, c, s => putChan s { c with st := .finishing, wmRun := false }
  | _ + 1, 0, c, s => putChan s c
  | n + 1, q + 1, c, s =>
    let k := BitVec.ofNat 64 c.prog
    match copyRun s (chanParty s c x.cls) (.va (x.src + k)) (.va (x.dst + k)) 1 .trap with
    | .error e => stopChan s c false e
    | .ok (_, t) =>
      let t := setWmark t c.core c.n (wmarkOf t c.core c.n + 1)
      let c := { c with prog := c.prog + 1, cpyx := some { x with done := c.prog + 1 } }
      cpyxLoop x n q c (putChan (takeReplies t (.chan c.core c.n)) c)

/-- The transfer of a channel goes on. -/
def runCpyx (s : State) : Result :=
  withChan s fun c =>
    match c.cpyx with
    | some x =>
      if c.st == .walking then
        let m := x.len - c.prog
        cpyxLoop x m (if s.units = 0 then m else s.units) c s
      else s
    | none => s

/-- The last byte has performed: the channel becomes idle. -/
def execCpyxTransferComplete (core : Nat) (n : Fin 8) (s : State) : Result :=
  .next <|
    match chanOf s core n.val with
    | some c => if c.st == .finishing && c.cpyx.isSome && c.halt == .going then dropChan s core n.val else s
    | none => s

end Sys2Proof.Machine
end

