-- ==== Sys2Proof/Machine/Index.lean ====
section
/-! DEFINITION. The index engine (12_copy_index.md R282 to R288). A block is the one that curIdx names among the blocks of the focused
job. -/

namespace Sys2Proof.Machine

/-! ### IXC (R284) -/

/-- Blocks that a job's index queue holds (R282). -/
def indexSlots : Nat := 16

/-- A submitted block. -/
def newBlock (b : BitVec 512) (count : Nat) (bar : Option BarId) : IdxEntry :=
  { blk := b, count, bar, running := false, halt := .going, finishing := false, prog := 0, npoi := 0, fpoi := 0xFFFFFFFF, kept := 0
    cause := 0, pins := [], owed := [], wait := false, flags := 0, sib := false, old := none, holds := false }

/-- COUNT of a block: an immediate, or the control core's copy of a shape register (06_registers.md R138). -/
def blockCount (s : State) (b : BitVec 512) : Nat :=
  let c := (bits b 256 32).toNat
  if bitAt b 21 then (s.job.shapes.toList.getD (c % 32) 0).toNat else c

/-- The completion barrier of a block resolved in the job's namespace; none: BARRIER_MISUSE. -/
def blockBar (s : State) (b : BitVec 512) : Option (Option BarId) :=
  if bitAt b 47 then ((BarOp.ofCode (bits b 32 9)).bind fun o => s.job.barAt o).map some else some none

/-- A block that IXC has read joins the queue, or waits for room with what was read. -/
def appendBlock (s : State) (b : BitVec 512) (count : Nat) (bar : Option BarId) : State :=
  if indexSlots ≤ s.job.index.length then hold s (.submitting b count bar)
  else
    let s := barOwe (drain s) bar
    advance { s with job := { s.job with index := s.job.index ++ [newBlock b count bar] } }

/-- IXC reads its block, checks it and resolves what it names. -/
def readBlock (s : State) (ea : Word) : State :=
  withRecord s ea 64 fun s d =>
    let b : BitVec 512 := ofBytes 512 d
    let s := takeReplies s (.ctl s.job.id)
    match blockBad b with
    | some o => raise s .queueMisuse (BitVec.ofNat 64 o)
    | none =>
      match blockBar s b with
      | none => raise s .barrierMisuse ((bits b 32 9).setWidth 64)
      | some bar => appendBlock s b (blockCount s b) bar

def execIxc (a : Reg) (s : State) : Result :=
  let ea := getX s a
  .next (if bits ea 0 6 != 0 then raise s .misaligned ea else readBlock s ea)

/-! ### The block that acts -/

/-- The k-th block of the focused job. -/
def blockAt (s : State) (k : Nat) : Option IdxEntry := s.job.index[k]?

/-- Replace it. -/
def putBlock (s : State) (k : Nat) (e : IdxEntry) : State :=
  { s with job := { s.job with index := setNth s.job.index k e } }

/-- The index engine at a block as a party. -/
def indexParty (s : State) (e : IdxEntry) (cls : Cls) : Party :=
  { unit := .index s.job.id e.sib, job := s.job.id, asid := s.job.asid, core := s.job.core, stream := 13, cls, aperture := false,
    sib := e.sib }

/-- STATUS of a block. -/
def statusAddr (e : IdxEntry) : Word := bits e.blk 320 64

/-- The class of a block. -/
def blockCls (e : IdxEntry) : Cls := (bits e.blk 8 4).toFin

/-- The status as doublewords with their offsets (R283). -/
def statusWrites (e : IdxEntry) (done : Bool) : List (Nat × List Byte) :=
  [(0, leBytes 8 e.prog), (8, leBytes 4 e.npoi.toNat ++ leBytes 4 e.fpoi.toNat),
    (16, leBytes 4 e.kept ++ [if done then 1 else 0, e.cause] ++ leBytes 2 0), (24, leBytes 8 0)]

/-- The trap of a block of the focused job, with its place in the queue (15_traps.md R322). -/
def blockTrap (s : State) (e : IdxEntry) (cause : Cause) (v : Word) : Trap :=
  { cause, val := v, prog := BitVec.ofNat 64 e.prog, stream := 13, sib := e.sib, orig := 0, pc := 0
    age := (s.job.index.findIdx? fun b => b.running && b.sib == e.sib).getD 0 }

/-- Where a block's STATUS or STAIN lies, n bytes on: an address, but an offset in the owner's scratchpad for a block that names nothing but
its sibling window, whichever engine performs it (R288, log entry 15). -/
def blockLoc (s : State) (e : IdxEntry) (a : Word) (n : Nat) : Loc :=
  if relocatableBlock s.job e then .off (a.toNat + n) s.job.id else .va (a + BitVec.ofNat 64 n)

/-- Writes of STATUS in a scratchpad performed in order, up to the first that stops. -/
def payOffsets (s : State) (p : Party) (e : IdxEntry) : List (Nat × List Byte) → State × List (Nat × List Byte) × Option Stop
  | [] => (s, [], none)
  | (o, d) :: r =>
    match writeBytes s p (blockLoc s e (statusAddr e) o) d with
    | .ok s => payOffsets s p e r
    | .error x => (s, (o, d) :: r, some x)

/-- Owed status writes performed, as far as they go (R402). Where one fails the block stops, and its flags go to FLAGS
(02_numbers.md R41). -/
def payBlock (s : State) (e : IdxEntry) : State × IdxEntry :=
  let p := indexParty s e (blockCls e)
  let (s, owed, stop) :=
    if relocatableBlock s.job e then payOffsets s p e e.owed
    else payOwed s p (statusAddr e) (fun o => (e.pins[o / 8]?).join.map fun a => a.add (o % 8)) e.owed
  let e := { e with owed }
  match stop with
  | none => (s, e)
  | some x =>
    match unitVerdict s s.job.id p x with
    | .again s | .dvorol s _ => (s, e)
    | .held s => (s, if e.halt == .going then { e with halt := .held, wait := true, holds := false } else { e with wait := true })
    | .trap s cause v =>
      let s := { s with job := s.job.joinFlags e.flags }
      (unitFault s s.job.id (blockTrap s e cause v) (stopRec s p x), { e with halt := .trapped, wait := true, flags := 0, holds := false })

/-- The block stops at a fault: its flags go to FLAGS, and PROG, the poison fields and CAUSE to its status (R283, R287). -/
def haltBlock (s : State) (k : Nat) (e : IdxEntry) (h : Halt) (cause : Cause) : State :=
  let s := { s with job := s.job.joinFlags e.flags }
  let e := { e with halt := h, wait := false, flags := 0, cause := cause.code, holds := false, guard := [] }
  let owed := ((statusWrites e false).take 2) ++ [(21, [e.cause])]
  let (s, e) := payBlock s (if e.pins.isEmpty then e else { e with owed })
  putBlock s k e

/-- The block stops where an access stops, with its progress in e. -/
def stopBlock (s : State) (k : Nat) (e : IdxEntry) (x : Stop) : State :=
  match unitVerdict s s.job.id (indexParty s e 0) x with
  | .again s => putBlock s k { e with guard := x.keeps e.guard }
  | .held s =>
    putBlock { s with job := s.job.joinFlags e.flags } k { e with halt := .held, flags := 0, holds := false, guard := [] }
  | .dvorol s v =>
    haltBlock (tellContext s s.job.asid 4 Cause.pteInvalid.code v) k e .dvorol .pteInvalid
  | .trap s cause v => haltBlock (unitFault s s.job.id (blockTrap s e cause v) (stopRec s (indexParty s e 0) x)) k e .trapped cause

/-- Block k of the focused job may take the engine that performs it: its job's queue has come to it, it is the one chosen among the queues of
the core, and the engine is free. A block in the sibling's engine asks for that one. -/
def mayStart (s : State) (k : Nat) (e : IdxEntry) : Bool :=
  if e.sib then !indexBusy s (sibling s.job.core)
  else nextBlock s.job == some k && !indexBusy s s.job.core && indexChosen s s.job

/-- Do k with the block that acts, once it owes nothing and holds its engine; what a stopped one owes it still writes (R402). -/
def withBlock (s : State) (k : IdxEntry → State → State) : Result :=
  .next <|
    match blockAt s s.curIdx with
    | none => s
    | some e =>
      if e.finishing || e.wait then s
      else if !e.owed.isEmpty then let (s, e) := payBlock s e; putBlock s s.curIdx e
      else if e.halt != .going then s
      else if e.holds then k e s
      else if mayStart s s.curIdx e then
        let t := giveIndex s s.curIdx e e.sib
        k { e with running := true, holds := true } t
      else s

/-! ### Start of a block (R287, R402) -/

/-- The places of the four doublewords of STATUS. -/
def statusPins (s : State) (p : Party) (a : Word) : Nat → Except Stop (List (Option Pin))
  | 0 => .ok []
  | n + 1 =>
    match pinAt s p a, statusPins s p (a + 8) n with
    | .error e, _ | _, .error e => .error e
    | .ok x, .ok l => .ok (x :: l)

/-- The block starts: STATUS is translated for reading and writing, and PROG read. In a scratchpad it needs no translation. -/
def startBlock (s : State) (k : Nat) (e : IdxEntry) : State :=
  let p := indexParty s e (blockCls e)
  let pins := if relocatableBlock s.job e then .ok (List.replicate 4 none) else statusPins s p (statusAddr e) 4
  match pins, readExact s p .read (blockLoc s e (statusAddr e) 0) 8 with
  | .error x, _ | _, .error x => stopBlock s k e x
  | .ok pins, .ok b => putBlock (takeReplies s p.unit) k { e with pins, prog := leNat b }

/-! ### Rows (R285, R286) -/

/-- The addresses that a block's rows use. -/
def tableLoc (s : State) (b : BlockHead) (r : Nat) : Loc :=
  recLoc b.tsp (b.table.toNat + r * b.rowBytes.toNat : Nat) s.job.id

/-- The job that DJREF names (R264). -/
def djref (s : State) (b : BlockHead) : Nat :=
  if b.djref = 0xFFFF then s.job.id
  else
    match (gangOf s s.job.launch).find? fun k => k.num == b.djref.toNat with
    | some k => k.id
    | none => 0

def dataLoc (s : State) (b : BlockHead) (i : Nat) : Loc := recLoc b.dsp (b.data.toNat + i * b.rowBytes.toNat : Nat) (djref s b)

/-- Entry i of the index vector, or of the mask, of n bytes; never substituted. -/
def indexEntry (s : State) (p : Party) (b : BlockHead) (n i : Nat) : Except Stop Nat :=
  match readExact s p .read (recLoc b.isp (b.index.toNat + n * i : Nat) s.job.id) n with
  | .error e => .error e
  | .ok d => .ok (leNat d)

/-- A row i met poison: it is counted once. -/
def IdxEntry.met (e : IdxEntry) (i : Nat) (pol : Poison) : IdxEntry :=
  { e with npoi := e.npoi + 1, fpoi := if e.fpoi = 0xFFFFFFFF then BitVec.ofNat 32 i else e.fpoi,
           flags := e.flags ||| flIf (pol == .zero) flPOI }

/-- A row moved: under ZERO a row with poison is written as zeros, under PASS all its lines poisoned. -/
def moveRow (s : State) (p : Party) (e : IdxEntry) (b : BlockHead) (i : Nat) (src dst : Loc) : Except Stop (IdxEntry × State) :=
  let n := b.rowBytes.toNat
  match readLines s p src n b.poison with
  | .error x => .error x
  | .ok (d, bad) =>
    let d := if bad = 0 then d else d.map fun _ => ((0 : Byte), b.poison == .pass)
    match writeMarked s p dst d with
    | .error x => .error x
    | .ok s => .ok (if bad = 0 then e else e.met i b.poison, s)

/-- The parts of a table row of n bytes that are combined at a time: the elements of a line, or each element where they cross lines. -/
def scaCuts (f : RFmt) (low n : Nat) : List (Nat × Nat) :=
  if low % f.bytes = 0 then lineParts low n else (List.range (n / f.bytes)).map fun k => (k * f.bytes, f.bytes)

/-- Elements of n bytes: one with a byte of a poisoned line is +0 (R286). -/
def zeroPoisoned (n : Nat) (d : List (Byte × Bool)) : List Byte :=
  (List.range (d.length / n)).flatMap fun k =>
    let e := (d.drop (n * k)).take n
    if e.any Prod.snd then List.replicate n 0 else e.map Prod.fst

/-- An element across two lines, combined indivisibly: inside this device as it is read and written at one moment, at another by the one
reduce request that carries it (16_fabric.md R349); at two places that no one request reaches as its row keeps them from others
(log entry 16). -/
def scaAcross (s : State) (p : Party) (l : Loc) (op : ROp) (f : RFmt) (pol : Poison) (mark : Bool) (d : List Byte) : Except Stop State :=
  match twoPlaces s p l f.bytes, locate s p .atomic l (64 - l.low) with
  | .error x, _ | _, .error x => .error x
  | .ok [], .ok (.remote dev ddr pa _, _) =>
    (answerTo s p (request s p (.reduce op f .rne false d mark) dev ddr pa f.bytes pol) l.word l.line).map fun _ => s
  | .ok _, .ok _ =>
    match readLines s p l f.bytes pol with
    | .error x => .error x
    | .ok (old, _) => writeMarked s p l ((combineBytes op f .rne false (zeroPoisoned f.bytes old) d).map fun b => (b, mark))

/-- The places of the elements of a row that lie at two of them. -/
def rowPlaces (s : State) (p : Party) (l : Loc) : List (Nat × Nat) → Except Stop (List Span)
  | [] => .ok []
  | (o, n) :: r =>
    match twoPlaces s p (l.add o) n, rowPlaces s p l r with
    | .error x, _ | _, .error x => .error x
    | .ok a, .ok b => .ok (a ++ b)

/-- Parts of a run of elements combined at their target in order, each indivisibly; mark: under PASS the parts are poisoned. -/
def scaParts (p : Party) (l : Loc) (op : ROp) (f : RFmt) (pol : Poison) (mark : Bool) (d : List Byte) :
    State → List (Nat × Nat) → Except Stop State
  | s, [] => .ok s
  | s, (o, n) :: r =>
    let x := (d.drop o).take n
    match (if (l.add o).low + n ≤ 64 then (reduceChunk s p (l.add o) op f .rne false pol (x.map fun b => (b, mark))).map Prod.fst
        else scaAcross s p (l.add o) op f pol mark x) with
    | .error x => .error x
    | .ok s => scaParts p l op f pol mark d s r

/-- A data row combined into a table row, part by part: under ZERO a line that is written whole loses its poison, and a value drawn from a
poisoned line is +0 (R286). What lies at two places is kept from other parties from the first read of the table row on; that begins once
no access of another party to it is under way. -/
def scaRow (s : State) (p : Party) (e : IdxEntry) (b : BlockHead) (op : ROp) (f : RFmt) (i : Nat) (tab : Loc) :
    Except Stop (IdxEntry × State) :=
  let n := b.rowBytes.toNat
  match readLines s p (dataLoc s b i) n b.poison, rowPlaces s p tab (scaCuts f tab.low n) with
  | .error x, _ | .ok _, .error x => .error x
  | .ok (d, bad), .ok two =>
    if two.any (Span.busy s p.unit) then .error .stall
    else
      match readLines s p tab n b.poison with
      | .error x => .error (x.guarding two)
      | .ok (_, more) =>
        let met := bad != 0 || more != 0
        match scaParts p tab op f b.poison (met && b.poison == .pass) (zeroPoisoned f.bytes d) s (scaCuts f tab.low n) with
        | .error x => .error (x.guarding two)
        | .ok s => .ok (if met then e.met i b.poison else e, s)

/-- STAIN bit j set by an indivisible OR of one byte (R285). -/
def setStain (s : State) (p : Party) (e : IdxEntry) (stain : Word) (j : Nat) : Except Stop State :=
  let l := blockLoc s e stain (j / 8)
  let v := 2 ^ (j % 8)
  match readModify s p l 1 (.amo 3 (BitVec.ofNat 64 v)) l.word fun b => some (b.map fun x => x ||| BitVec.ofNat 8 v) with
  | .error x => .error x
  | .ok (_, s) => .ok s

/-- A block whose rows are done finishes. -/
def IdxEntry.closed (e : IdxEntry) : IdxEntry :=
  if e.count ≤ e.prog then { e with finishing := true, owed := statusWrites e true } else e

/-- Rows of a block from its progress on, q of them in this turn; a row whose stain bit is still to be set counts twice. -/
def rowLoop (k : Nat) (row : IdxEntry → State → Except Stop (IdxEntry × State)) : Nat → IdxEntry → State → State
  | 0, e, s => putBlock s k e.closed
  | q + 1, e, s =>
    if e.count ≤ e.prog then putBlock s k e.closed
    else
      match row e s with
      | .error x => stopBlock s k e x
      | .ok (e, t) =>
        let e := { e with prog := e.prog + (if e.moved then 0 else 1), guard := [] }
        rowLoop k row q e (putBlock (takeReplies t (.index t.job.id e.sib)) k e)

/-- A block performed from its progress; one that has not started starts first. -/
def runBlock (row : Party → IdxEntry → State → Except Stop (IdxEntry × State)) (s : State) : Result :=
  withBlock s fun e s =>
    let k := s.curIdx
    if e.pins.isEmpty then startBlock s k e
    else
      rowLoop k (fun e s => row (indexParty s e (blockCls e)) e s) (if s.units = 0 then 2 * (e.count - e.prog) else s.units) e s

/-- Row i of an operation that an index names: k with the table row, or with none for 0xFFFF_FFFF. -/
def indexedRow (s : State) (p : Party) (e : IdxEntry) (b : BlockHead) (k : Option Nat → Except Stop (IdxEntry × State)) :
    Except Stop (IdxEntry × State) :=
  match indexEntry s p b 4 e.prog with
  | .error x => .error x
  | .ok v =>
    if v = 0xFFFFFFFF then k none
    else if b.ntab != 0 && b.ntab.toNat ≤ v then .error (.trap .shapeInvalid (BitVec.ofNat 64 e.prog))
    else k (some v)

def execGth (b : BlockHead) (s : State) : Result :=
  runBlock (fun p e s => indexedRow s p e b fun r =>
    match r with
    | some r => moveRow s p e b e.prog (tableLoc s b r) (dataLoc s b e.prog)
    | none =>
      match writeBytes s p (dataLoc s b e.prog) (List.replicate b.rowBytes.toNat 0) with
      | .error x => .error x
      | .ok s => .ok (e, s)) s

def execSct (b : BlockHead) (s : State) : Result :=
  runBlock (fun p e s => indexedRow s p e b fun r =>
    match r with
    | some r => moveRow s p e b e.prog (dataLoc s b e.prog) (tableLoc s b r)
    | none => .ok (e, s)) s

def execSca (b : BlockHead) (op : ROp) (f : RFmt) (s : State) : Result :=
  runBlock (fun p e s => indexedRow s p e b fun r =>
    match r with
    | some r => scaRow s p e b op f e.prog (tableLoc s b r)
    | none => .ok (e, s)) s

/-- The second half of a row of CPT: its stain bit, once the row's writes have performed. -/
def stainRow (s : State) (p : Party) (e : IdxEntry) (stain : Word) : Except Stop (IdxEntry × State) :=
  match setStain s p e stain e.kept with
  | .error x => .error x
  | .ok s => .ok ({ e with kept := e.kept + 1, moved := false }, s)

/-- Row i of CPT is kept: it moves to row j, and its stain bit follows where there is a bitmap. -/
def keepRow (s : State) (p : Party) (e : IdxEntry) (b : BlockHead) (inplace : Bool) (stain : Word) : Except Stop (IdxEntry × State) :=
  let i := e.prog
  let j := e.kept
  match (if inplace && j = i then .ok (e, s)
      else moveRow s p e b i (tableLoc s b i) (if inplace then tableLoc s b j else dataLoc s b j)) with
  | .error x => .error x
  | .ok (e, s) => .ok (if stain = 0 then { e with kept := j + 1 } else { e with moved := true }, s)

def execCpt (b : BlockHead) (inplace : Bool) (stain : Word) (s : State) : Result :=
  runBlock (fun p e s =>
    if e.moved then stainRow s p e stain
    else
      match indexEntry s p b 1 e.prog with
      | .error x => .error x
      | .ok 0 => .ok (e, s)
      | .ok _ => keepRow s p e b inplace stain) s

/-! ### Completion (R287) -/

/-- The first block of a job whose rows are done: its status, its decrement, and its place in the queue. -/
def execIndexBlockComplete (job : Nat) (s : State) : Result :=
  .next <|
    let t := focus job s
    if t.job.id != job || job = 0 then s
    else
      match t.job.index.findIdx? fun e => e.finishing && e.halt == .going && !e.wait with
      | none => s
      | some k =>
        match blockAt t k with
        | none => s
        | some e =>
          let (t, e) := payBlock t e
          let t := putBlock t k e
          if !e.owed.isEmpty || e.halt != .going then t
          else
            let bytes := e.count * (bits e.blk 288 32).toNat
            let paid : Option State :=
              match e.bar with
              | none => some t
              | some b => (barEvent t b (.bytes bytes)).map fun t => barPaid t b
            match paid with
            | none => t
            | some t =>
              { t with job := { t.job.joinFlags e.flags with index := t.job.index.eraseIdx k } }

end Sys2Proof.Machine
end

