-- ==== Sys2Proof/Machine/Darn.lean ====
section
/-! DEFINITION. The Darn unit (17_generation.md R358 to R370). -/

namespace Sys2Proof.Machine

/-! ### Descriptor, record and schedule (R359 to R361) -/

/-- Contexts of a die's Darn unit (R358). -/
def darnSlots : Nat := 16

/-- Bytes cut into elements of n. -/
def cut (n : Nat) (d : List Byte) : List (List Byte) := (List.range (d.length / n)).map fun k => (d.drop (n * k)).take n

/-- Field of n bytes at offset k of 64 bytes. -/
def fld (v : BitVec 512) (k n : Nat) : Nat := (bits v (8 * k) (8 * n)).toNat

/-- Sub-operation codes (R362). -/
def opRank : Nat := 0
def opCommit : Nat := 1
def opStain : Nat := 2
def opList : Nat := 3
def opClear : Nat := 4

/-- Fields of the descriptor. -/
def DarnRun.nseq (r : DarnRun) : Nat := fld r.desc 0 2
def DarnRun.g (r : DarnRun) : Nat := fld r.desc 2 1 % 128
def DarnRun.gsel (r : DarnRun) : Nat := fld r.desc 3 1
def DarnRun.round (r : DarnRun) : Nat := fld r.desc 4 4
def DarnRun.seq (r : DarnRun) : Nat := fld r.desc 16 8
def DarnRun.conf (r : DarnRun) : Nat := fld r.desc 24 8
def DarnRun.cand (r : DarnRun) : Nat := fld r.desc 32 8
def DarnRun.mask (r : DarnRun) : Nat := fld r.desc 40 8
def DarnRun.recAddr (r : DarnRun) : Word := bits r.desc 448 64

/-- Fields of the record. -/
def DarnRun.planeBytes (r : DarnRun) : Nat := fld r.rcd 8 4
def DarnRun.plane (r : DarnRun) (g : Nat) : Nat := fld r.rcd 0 8 + g * r.planeBytes
def DarnRun.window (r : DarnRun) : Nat := fld r.rcd 12 2
def DarnRun.g0 (r : DarnRun) : Nat := fld r.rcd 14 1
def DarnRun.period (r : DarnRun) : Nat := fld r.rcd 15 1
def DarnRun.loff (r : DarnRun) : Nat := fld r.rcd 16 8
def DarnRun.lpos (r : DarnRun) : Nat := fld r.rcd 24 8
def DarnRun.rankout (r : DarnRun) : Nat := fld r.rcd 32 8
def DarnRun.pins (r : DarnRun) : Nat := fld r.rcd 40 8
def DarnRun.cls (r : DarnRun) : Cls := (bits r.rcd 448 4).toFin
def DarnRun.lclr (r : DarnRun) : Bool := bitAt r.rcd 455

/-- First and last-plus-one position of sequence s, and NPOS. -/
def DarnRun.lo (r : DarnRun) (s : Nat) : Nat := r.offs.getD s 0
def DarnRun.hi (r : DarnRun) (s : Nat) : Nat := r.offs.getD (s + 1) 0
def DarnRun.npos (r : DarnRun) : Nat := r.offs.getD r.nseq 0

/-- The first bad field of a descriptor and its record, as reason 1 counts it (R359, R360, R363). -/
def darnBad (op : Nat) (d r : BitVec 512) : Option Nat :=
  let g := fld d 2 1
  ([ (0, fld d 0 2 = 0 || 4096 < fld d 0 2), (2, g = 0 || 64 < g),
     (3, if op = opStain || op = opList then g ≤ fld d 3 1 else fld d 3 1 != 0),
     (4, op = opStain && 16777216 < fld d 4 4), (48, op = opCommit && fld d 48 8 % 8 != 0), (56, fld d 56 8 % 64 != 0),
     (64, fld r 0 8 % 64 != 0), (72, fld r 8 4 % 64 != 0), (78, 64 < fld r 14 1), (112, 8 ≤ fld r 54 2),
     (120, 4 < fld r 56 1 / 16 % 8), (121, fld r 57 7 != 0) ].find? Prod.snd).map Prod.fst

/-- The first bad field of a schedule (R361). -/
def schedBad (b : List Byte) : Option Nat :=
  let f := fun k n => leNat ((b.drop k).take n)
  ([ (128, f 0 2 = 0 || 256 < f 0 2), (132, f 4 2 < f 2 2), (134, 2 ≤ f 6 1), (135, f 7 9 != 0) ].find? Prod.snd).map Prod.fst

/-- DARN_FAULT with a reason and an index (R363). -/
def darnFault {α : Type} (reason index : Nat) : Except Stop α := .error (.trap .darnFault (BitVec.ofNat 64 (256 * index + reason)))

/-! ### Accesses of the unit (R369) -/

/-- The access of n bytes may be made: an aperture, host or remote address raises PAGE_PERMISSION. -/
def darnMay (s : State) (p : Party) (acc : Access) (a n : Nat) : Except Stop State :=
  let rec go (l : List (Nat × Nat)) : Except Stop State :=
    match l with
    | [] => .ok s
    | (o, m) :: r =>
      let va : Word := BitVec.ofNat 64 (a + o)
      if inAperture va then .error (.trap .pagePermission va)
      else
        match locate s p acc (.va va) m with
        | .error e => .error e
        | .ok (.here .hbm _ _, _) | .ok (.here .ddr _ _, _) => go r
        | .ok _ => .error (.trap .pagePermission va)
  go (lineParts (a % 64) n)

/-- Read n bytes, never substituted. -/
def darnRead (s : State) (p : Party) (a n : Nat) : Except Stop (List Byte) :=
  match darnMay s p .read a n with
  | .error e => .error e
  | .ok _ => readExact s p .read (.va (BitVec.ofNat 64 a)) n

/-- Write bytes. -/
def darnWrite (s : State) (p : Party) (a : Nat) (d : List Byte) : Except Stop State :=
  match darnMay s p .write a d.length with
  | .error e => .error e
  | .ok _ => writeBytes s p (.va (BitVec.ofNat 64 a)) d

/-- An indivisible update of n bytes in one line. -/
def darnUpdate (s : State) (p : Party) (a n : Nat) (f : Nat → Nat) : Except Stop State :=
  match darnMay s p .atomic a n with
  | .error e => .error e
  | .ok _ =>
    let l : Loc := .va (BitVec.ofNat 64 a)
    match readModify s p l n .load l.line fun b => some (leBytes n (f (leNat b))) with
    | .error e => .error e
    | .ok (_, s) => .ok s

/-- Bits of a bitmap set or cleared by updates of one byte each, from byte b on, n bytes; none is updated where no bit is chosen. -/
def darnBits (p : Party) (base : Nat) (on : Bool) (chosen : Nat → Bool) : Nat → Nat → State → Except Stop State
  | _, 0, s => .ok s
  | b, n + 1, s =>
    let m := ((List.range 8).map fun i => if chosen (8 * b + i) then 2 ^ i else 0).sum
    match (if m = 0 then .ok s else darnUpdate s p (base + b) 1 fun v => if on then v ||| m else v &&& (255 - m)) with
    | .error e => .error e
    | .ok s => darnBits p base on chosen (b + 1) n s

/-- The bits from position lo to hi - 1. -/
def darnRange (p : Party) (base lo hi : Nat) (on : Bool) (chosen : Nat → Bool) (s : State) : Except Stop State :=
  if hi ≤ lo then .ok s
  else darnBits p base on (fun q => lo ≤ q && q < hi && chosen q) (lo / 8) ((hi - 1) / 8 + 1 - lo / 8) s

/-- The positions from lo to hi - 1 whose bit of a bitmap is 1. -/
def bitsIn (s : State) (p : Party) (base lo hi : Nat) : Except Stop (List Nat) :=
  if hi ≤ lo then .ok []
  else
    match darnRead s p (base + lo / 8) ((hi - 1) / 8 + 1 - lo / 8) with
    | .error e => .error e
    | .ok b =>
      let v := leNat b
      .ok (((List.range (hi - lo)).map fun i => lo + i).filter fun q => v / 2 ^ (q - 8 * (lo / 8)) % 2 = 1)

/-- The same bits of every plane from group g on, n groups. -/
def stainGroups (p : Party) (r : DarnRun) (lo hi : Nat) (on : Bool) (chosen : Nat → Bool) : Nat → Nat → State → Except Stop State
  | _, 0, s => .ok s
  | g, n + 1, s =>
    match darnRange p (r.plane g) lo hi on chosen s with
    | .error e => .error e
    | .ok s => stainGroups p r lo hi on chosen (g + 1) n s

/-! ### RANK (R364) -/

/-- x comes before y: a larger number, or a number before a NaN. -/
def confBefore (x y : Num) : Bool := if x.isNan then false else y.isNan || y.lt x

/-- Insert behind everything that it does not come before. -/
def rankInsert (x : Nat × Num) : List (Nat × Num) → List (Nat × Num)
  | [] => [x]
  | y :: r => if confBefore x.2 y.2 then x :: y :: r else y :: rankInsert x r

/-- Positions in descending order of their confidences, ties by position. -/
def rankOrder (l : List (Nat × Num)) : List Nat := (l.foldl (fun a x => rankInsert x a) []).map Prod.fst

/-- Unsigned words as bytes. -/
def words (l : List Nat) : List Byte := l.flatMap (leBytes 4)

/-- RANK of a sequence (R364): where it has a masked position, CONF of each of its positions is read (DESIGN CHOICE, log entry 65). -/
def rankSeq (p : Party) (r : DarnRun) (s : State) : Except Stop (DarnRun × State) :=
  let lo := r.lo r.sdone
  let hi := r.hi r.sdone
  match bitsIn s p r.mask lo hi with
  | .error e => .error e
  | .ok ps =>
    match (if ps.isEmpty then .ok [] else darnRead s p (r.conf + 4 * lo) (4 * (hi - lo))) with
    | .error e => .error e
    | .ok c =>
      let o := rankOrder (ps.map fun q => (q, numOf .fp32 (leNat ((c.drop (4 * (q - lo))).take 4))))
      match darnWrite s p (r.rankout + 4 * lo) (words (o ++ List.replicate (hi - lo - o.length) 0xFFFFFFFF)) with
      | .error e => .error e
      | .ok s => .ok ({ r with result := r.result + ps.length }, s)

/-- Masked positions of the n sequences from sequence k on. -/
def maskedIn (s : State) (p : Party) (r : DarnRun) : Nat → Nat → Except Stop Nat
  | _, 0 => .ok 0
  | k, n + 1 =>
    match bitsIn s p r.mask (r.lo k) (r.hi k), maskedIn s p r (k + 1) n with
    | .error e, _ | _, .error e => .error e
    | .ok l, .ok m => .ok (l.length + m)

/-! ### COMMIT (R365) -/

/-- The count k of a sequence with M positions. -/
def commitCount (r : DarnRun) (m : Nat) : Nat :=
  let f := fun k n => leNat ((r.sched.drop k).take n)
  let e := f (16 + 2 * min r.round (f 0 2 - 1)) 2
  let k := if f 6 1 % 2 = 1 then e else (e * m + 65535) / 65536
  min (min (max k (f 2 2)) (f 4 2)) m

/-- Position j of the sequence committed: every access, or none. CAND is read once the mask bit has been found set. -/
def commitAt (p : Party) (r : DarnRun) (j : Nat) (s : State) : Except Stop State :=
  let lo := r.lo r.sdone
  let hi := r.hi r.sdone
  match darnRead s p (r.rankout + 4 * (lo + j)) 4 with
  | .error e => .error e
  | .ok b =>
    let q := leNat b
    if q < lo || hi ≤ q then darnFault 4 (lo + j)
    else
      match bitsIn s p r.mask q (q + 1), darnRead s p (r.cand + 4 * q) 4 with
      | .error e, _ => .error e
      | .ok [], _ => darnFault 4 (lo + j)
      | .ok _, .error e => .error e
      | .ok _, .ok tok =>
        match darnWrite s p (r.seq + 4 * q) tok with
        | .error e => .error e
        | .ok s =>
          match darnRange p r.mask q (q + 1) false (fun _ => true) s with
          | .error e => .error e
          | .ok s =>
            match stainGroups p r q (q + 1) true (fun _ => true) 0 r.g s with
            | .error e => .error e
            | .ok s =>
              stainGroups p r (max lo (q - r.window)) (min hi (q + r.window + 1)) true (fun x => x != q) r.g0 (r.g - r.g0) s

/-- Positions of the sequence committed from UDONE on, n of them: the run as far as it came, with the stop. -/
def commitFrom (p : Party) : Nat → DarnRun → State → DarnRun × State × Option Stop
  | 0, r, s => (r, s, none)
  | n + 1, r, s =>
    match commitAt p r r.udone s with
    | .error e => (r, s, some e)
    | .ok s => commitFrom p n { r with udone := r.udone + 1, result := r.result + 1 } s

/-! ### LIST (R367) -/

/-- The words that hold positions lo to hi - 1 of a plane may be written. -/
def planeWritable (s : State) (p : Party) (base lo hi : Nat) : Except Stop State :=
  if hi ≤ lo then .ok s else darnMay s p .write (base + lo / 64 * 8) (8 * ((hi - 1) / 64 + 1 - lo / 64))

/-- Listed bits cleared word by word, from word k on, n words. -/
def clearWords (p : Party) (base : Nat) (l : List Nat) : Nat → Nat → State → Except Stop State
  | _, 0, s => .ok s
  | k, n + 1, s =>
    let m := ((l.filter fun q => q / 64 = k).map fun q => 2 ^ (q % 64)).sum
    match (if m = 0 then .ok s else darnUpdate s p (base + 8 * k) 8 fun v => v &&& (2 ^ 64 - 1 - m)) with
    | .error e => .error e
    | .ok s => clearWords p base l (k + 1) n s

def listSeq (p : Party) (r : DarnRun) (s : State) : Except Stop (DarnRun × State) :=
  let k := r.sdone
  let lo := r.lo k
  let hi := r.hi k
  let base := r.plane r.gsel
  match (if r.lclr then planeWritable s p base lo hi else .ok s), bitsIn s p base lo hi with
  | .error e, _ | _, .error e => .error e
  | .ok _, .ok l =>
    match (if k = 0 then darnWrite s p r.loff (leBytes 4 0) else .ok s),
        (if k = 0 then .ok (leBytes 4 0) else darnRead s p (r.loff + 4 * k) 4) with
    | .error e, _ | _, .error e => .error e
    | .ok s, .ok b =>
      let from' := leNat b
      match darnWrite s p (r.lpos + 4 * from') (words l) with
      | .error e => .error e
      | .ok s =>
        match darnWrite s p (r.loff + 4 * (k + 1)) (leBytes 4 (from' + l.length)) with
        | .error e => .error e
        | .ok s =>
          match (if r.lclr then clearWords p base l (lo / 64) ((hi + 63) / 64 - lo / 64) s else .ok s) with
          | .error e => .error e
          | .ok s => .ok ({ r with listed := (from' + l.length) % 2 ^ 32, result := (from' + l.length) % 2 ^ 32 }, s)

/-! ### STAIN and CLEAR (R366, R368) -/

/-- The pins of n sequences from sequence k on (R363, R370). -/
def pinsOk (s : State) (p : Party) (r : DarnRun) : Nat → Nat → Except Stop State
  | _, 0 => .ok s
  | k, n + 1 =>
    if r.pins = 0 then .ok s
    else
      match darnRead s p (r.pins + 8 * k) 8 with
      | .error e => .error e
      | .ok b => if leNat b = 2 ^ 64 - 1 then darnFault 3 k else pinsOk s p r (k + 1) n

/-- A list of positions stained in a group: one update for each. -/
def stainList (p : Party) (base : Nat) : List Nat → State → Except Stop State
  | [], s => .ok s
  | q :: r, s =>
    match darnRange p base q (q + 1) true (fun _ => true) s with
    | .error e => .error e
    | .ok s => stainList p base r s

/-- A list of positions stained in n groups from group g on. -/
def stainLists (p : Party) (r : DarnRun) (l : List Nat) : Nat → Nat → State → Except Stop State
  | _, 0, s => .ok s
  | g, n + 1, s =>
    match stainList p (r.plane g) l s with
    | .error e => .error e
    | .ok s => stainLists p r l (g + 1) n s

/-- STAIN: every entry is checked before any bit is set. -/
def stainAll (p : Party) (r : DarnRun) (s : State) : Except Stop (DarnRun × State) :=
  match darnRead s p r.cand (4 * r.round) with
  | .error e => .error e
  | .ok b =>
    let l := (cut 4 b).map leNat
    match l.findIdx? fun q => r.npos ≤ q with
    | some j => darnFault 2 j
    | none =>
      match stainLists p r l r.gsel (r.g - r.gsel) s with
      | .error e => .error e
      | .ok s => .ok ({ r with result := r.round }, s)

/-! ### The frame (R363) -/

/-- The stop of a DARN that holds a context: the effects of its finished part in s, its progress in r. -/
structure DarnStop where
  run : DarnRun
  st : State
  why : Stop

/-- One sequence of RANK, COMMIT or LIST. -/
def darnSeq (p : Party) (r : DarnRun) (s : State) : Except DarnStop (DarnRun × State) :=
  let stopped := fun r s e => (.error { run := r, st := s, why := e } : Except DarnStop (DarnRun × State))
  match pinsOk s p r r.sdone 1 with
  | .error e => stopped r s e
  | .ok _ =>
    if r.op = opCommit then
      match bitsIn s p r.mask (r.lo r.sdone) (r.hi r.sdone) with
      | .error e => stopped r s e
      | .ok l =>
        let k := commitCount r (l.length + r.udone)
        let (r, s, e) := commitFrom p (k - r.udone) r s
        match e with
        | some e => stopped r s e
        | none => .ok ({ r with sdone := r.sdone + 1, udone := 0 }, s)
    else
      match (if r.op = opRank then rankSeq p r s else listSeq p r s) with
      | .error e => stopped r s e
      | .ok (r, s) => .ok ({ r with sdone := r.sdone + 1, udone := 0 }, s)

/-- Sequences from SDONE on: n left and q in this turn. true: all are done. -/
def darnSeqs (p : Party) : Nat → Nat → DarnRun → State → Except DarnStop (DarnRun × State × Bool)
  | 0, _, r, s => .ok (r, s, true)
  | _ + 1, 0, r, s => .ok (r, s, false)
  | n + 1, q + 1, r, s =>
    match darnSeq p r s with
    | .error e => .error e
    | .ok (r, s) => darnSeqs p n q r s

/-- The end of an operation: the periodic stain of COMMIT, the sum of RANK over the sequences done before this DARN. -/
def darnFinish (p : Party) (r : DarnRun) (s : State) : Except Stop (DarnRun × State) :=
  if r.op = opCommit && r.period != 0 && r.round % r.period + 1 = r.period then
    match stainGroups p r 0 r.npos true (fun _ => true) 0 r.g s with
    | .error e => .error e
    | .ok s => .ok (r, s)
  else if r.op = opRank then
    match maskedIn s p r 0 r.first with
    | .error e => .error e
    | .ok n => .ok ({ r with result := r.result + n }, s)
  else if r.op = opList && r.first = r.nseq then
    match darnRead s p (r.loff + 4 * r.nseq) 4 with
    | .error e => .error e
    | .ok b => .ok ({ r with result := leNat b }, s)
  else .ok (r, s)

/-- The offsets read and checked (R359), and PLANE against them. The first bad s is one with off[s + 1] below off[s] or a sequence too long; NSEQ
where NPOS is too large (DESIGN CHOICE, log entry 65). -/
def darnOffsets (s : State) (p : Party) (r : DarnRun) : Except Stop DarnRun :=
  match darnRead s p (fld r.desc 8 8) (4 * (r.nseq + 1)) with
  | .error e => .error e
  | .ok b =>
    let v := (cut 4 b).map fun x => sint 32 (leNat x)
    let at' := fun k => v.getD k 0
    let bad := (List.range (r.nseq + 1)).find? fun k =>
      (k = 0 && at' 0 != 0) ||
        (if k < r.nseq then at' (k + 1) < at' k || 65536 < at' (k + 1) - at' k else 16777216 < at' k)
    match bad with
    | some k => darnFault 2 k
    | none =>
      let r := { r with offs := v.map Int.toNat }
      if r.planeBytes < (r.npos + 7) / 8 then darnFault 1 72 else .ok r

/-- STAIN or CLEAR as one unit of progress, the others sequence by sequence. -/
def darnWork (p : Party) (q : Nat) (r : DarnRun) (s : State) : Except DarnStop (DarnRun × State × Bool) :=
  if r.op = opStain || r.op = opClear then
    match pinsOk s p r 0 r.nseq with
    | .error e => .error { run := r, st := s, why := e }
    | .ok _ =>
      match (if r.op = opStain then stainAll p r s
          else match stainGroups p r 0 r.npos false (fun _ => true) 0 r.g s with
            | .error e => .error e
            | .ok s => .ok ({ r with result := 0 }, s)) with
      | .error e => .error { run := r, st := s, why := e }
      | .ok (r, s) => .ok (r, s, true)
  else
    let n := r.nseq - r.sdone
    match darnSeqs p n (if q = 0 then n else q) r s with
    | .error e => .error e
    | .ok (r, s, false) => .ok (r, s, false)
    | .ok (r, s, true) =>
      match darnFinish p r s with
      | .error e => .error { run := r, st := s, why := e }
      | .ok (r, s) => .ok (r, s, true)

/-- The doubleword at REC + 48 (R360). -/
def darnWord (r : DarnRun) : Word := BitVec.ofNat 64 (r.sdone % 2 ^ 24 + r.udone % 2 ^ 24 * 2 ^ 24 + (r.op + 1) * 2 ^ 48)

/-- The context given up. -/
def dropDarn (s : State) : State := { s with job := { s.job with darn := none } }

/-- The context kept. -/
def keepDarn (s : State) (r : DarnRun) (w : CtlWait) : State := hold { s with job := { s.job with darn := some r } } w

/-- The end of a DARN, done (e none) or stopped at a fault: the doubleword at REC + 48 is stored through its kept translation, and then the
result written or the trap taken (R363, R369). At a page held for migration DARN waits with what it has done (R302). -/
def endDarn (d : Reg) (r : DarnRun) (e : Option (Cause × Word)) (s : State) : State :=
  let p := ctlParty s r.cls
  let v := match e with | none => 0 | some _ => darnWord r
  let kept := { r with ended := some e }
  match pinWrite s p (r.recAddr + 48) (r.pin.map fun a => a.add 48) (toBytes v) with
  | .ok s =>
    match e with
    | none => retireX (dropDarn s) d (BitVec.ofNat 64 r.result)
    | some (c, x) => raiseAt (dropDarn s) c x s.job.pc v
  | .error x =>
    match verdict s p x with
    | .again t => keepDarn t kept .blocked
    | .held t | .dvorol t _ | .trap t _ _ => keepDarn t kept .held

/-- DARN stops: exact, with its progress stored (R369); a wait keeps its context. -/
def stopDarn (d : Reg) (x : DarnStop) (p : Party) : State :=
  match verdict x.st p x.why with
  | .again s => keepDarn s x.run .blocked
  | .held s => keepDarn s x.run .held
  | .dvorol s v => tellContext (keepDarn s x.run (.dvorol .pteInvalid v)) s.job.asid 4 Cause.pteInvalid.code v
  | .trap s c v => endDarn d x.run (some (c, v)) s

/-- A DARN that holds a context goes on. -/
def goDarn (d : Reg) (r : DarnRun) (s : State) : State :=
  match r.ended with
  | some e => endDarn d r e s
  | none =>
    let p := ctlParty s r.cls
    match (if r.offs.isEmpty then darnOffsets s p r else .ok r) with
    | .error e => stopDarn d { run := r, st := s, why := e } p
    | .ok r =>
      match darnWork p s.units r s with
      | .error x => stopDarn d x p
      | .ok (r, s, false) => keepDarn s r .blocked
      | .ok (r, s, true) => endDarn d r none s

/-- DARN contexts held on a die. -/
def darnHeld (s : State) (die : Nat) : Nat := ((allJobs s).filter fun j => (j.darn.any DarnRun.holds) && dieOf j.core == die).length

/-- A DARN's loads with class 0 (R363): a misaligned REC, or SCHED of a COMMIT, is a bad field and is not read through. -/
def darnLoad (s : State) (op : Nat) (d : Reg) (ea : Word) : Except Stop DarnRun :=
  let p := ctlParty s 0
  match darnRead s p ea.toNat 64 with
  | .error e => .error e
  | .ok b =>
    let desc : BitVec 512 := ofBytes 512 b
    if fld desc 56 8 % 64 != 0 then darnFault 1 ((darnBad op desc 0).getD 56)
    else
      let ra := fld desc 56 8
      match darnRead s p ra 64, darnMay s p .write ra 64, pinAt s p (BitVec.ofNat 64 ra) with
      | .error e, _, _ | _, .error e, _ | _, _, .error e => .error e
      | .ok rb, .ok _, .ok pin =>
        let rcd : BitVec 512 := ofBytes 512 rb
        let sa := fld desc 48 8
        let sched : Except Stop (List Byte) :=
          if op = opCommit && sa % 8 = 0 then
            match darnRead s p sa 16 with
            | .error e => .error e
            | .ok h =>
              let nr := leNat (h.take 2)
              if nr = 0 then .ok h
              else
                match darnRead s p (sa + 16) (2 * nr) with
                | .error e => .error e
                | .ok t => .ok (h ++ t)
          else .ok []
        match sched with
        | .error e => .error e
        | .ok sched =>
          let bad := match darnBad op desc rcd with
            | some k => some k
            | none => if op = opCommit then schedBad sched else none
          let sdone := fld rcd 48 3
          let pop := fld rcd 54 1 % 8
          match bad with
          | some k => darnFault 1 k
          | none =>
            if fld desc 0 2 < sdone || ((op = opStain || op = opClear) && sdone != 0) || (pop != 0 && pop != op + 1) then
              darnFault 1 112
            else
              .ok { op, d, holds := false, ended := none, desc, rcd, sched, pin, offs := [], first := sdone, sdone, udone := fld rcd 51 3, listed := 0, result := 0 }

/-- A DARN with its records goes on: it takes a context where its die's unit has one free, and waits for one otherwise (R363). -/
def nextDarn (d : Reg) (r : DarnRun) (s : State) : State :=
  if r.holds then goDarn d r s
  else if darnSlots ≤ darnHeld s (dieOf s.job.core) then keepDarn s r .blocked
  else
    let s := drain s
    let r := { r with holds := true }
    goDarn d r { s with job := { s.job with darn := some r } }

/-- DARN: its records are read, or the one that has read them goes on. -/
def darn (op : Nat) (d a : Reg) (s : State) : Result :=
  .next <|
    match s.job.darn with
    | some r => nextDarn d r s
    | none =>
      let ea := getX s a
      if bits ea 0 6 != 0 then raise s .misaligned ea
      else
        let s := drain s
        withAccess s (darnLoad s op d ea) fun r => nextDarn d r (takeReplies s (.ctl s.job.id))

def execDarnRank (d a : Reg) (s : State) : Result := darn opRank d a s
def execDarnCommit (d a : Reg) (s : State) : Result := darn opCommit d a s
def execDarnStain (d a : Reg) (s : State) : Result := darn opStain d a s
def execDarnList (d a : Reg) (s : State) : Result := darn opList d a s
def execDarnClear (d a : Reg) (s : State) : Result := darn opClear d a s

end Sys2Proof.Machine
end

