-- ==== Sys2Proof/Machine/Digest.lean ====
section
/-! DEFINITION. SHAKE256, whose first 64 bytes are a measurement (18_host.md R383, R386). The spec names the function; its words are those of
the standard that defines it (FIPS 202: PRESUMED, log entry 9). -/

namespace Sys2Proof.Machine

/-- The rotation of each lane, lane x + 5 y in row y. -/
def keccakTurns : List Nat :=
  [0, 1, 62, 28, 27, 36, 44, 6, 55, 20, 3, 10, 43, 25, 39, 41, 45, 15, 21, 8, 18, 2, 61, 56, 14]

/-- The constants of the 24 rounds. -/
def keccakRounds : List Nat :=
  [0x1, 0x8082, 0x800000000000808A, 0x8000000080008000, 0x808B, 0x80000001, 0x8000000080008081, 0x8000000000008009] ++
    [0x8A, 0x88, 0x80008009, 0x8000000A, 0x8000808B, 0x800000000000008B, 0x8000000000008089, 0x8000000000008003] ++
    [0x8000000000008002, 0x8000000000000080, 0x800A, 0x800000008000000A, 0x8000000080008081, 0x8000000000008080, 0x80000001, 0x8000000080008008]

/-- Lane k of a state. -/
def lane (a : List Nat) (k : Nat) : Nat := a.getD k 0

/-- A lane rotated to the left. -/
def rotLane (v n : Nat) : Nat := v * 2 ^ n % 2 ^ 64 + v / 2 ^ (64 - n)

/-- The columns' parities are mixed into every lane. -/
def keccakTheta (a : List Nat) : List Nat :=
  let c := (List.range 5).map fun x => lane a x ^^^ lane a (x + 5) ^^^ lane a (x + 10) ^^^ lane a (x + 15) ^^^ lane a (x + 20)
  let d := (List.range 5).map fun x => lane c ((x + 4) % 5) ^^^ rotLane (lane c ((x + 1) % 5)) 1
  a.mapIdx fun k v => v ^^^ lane d (k % 5)

/-- Every lane turns and moves to its new place. -/
def keccakMove (a : List Nat) : List Nat :=
  (List.range 25).map fun k => let j := (k % 5 + 3 * (k / 5)) % 5 + 5 * (k % 5); rotLane (lane a j) (lane keccakTurns j)

/-- The nonlinear step along each row. -/
def keccakChi (a : List Nat) : List Nat :=
  a.mapIdx fun k v => v ^^^ ((2 ^ 64 - 1 - lane a (k / 5 * 5 + (k + 1) % 5)) &&& lane a (k / 5 * 5 + (k + 2) % 5))

/-- One round with its constant. -/
def keccakRound (a : List Nat) (c : Nat) : List Nat := (keccakChi (keccakMove (keccakTheta a))).mapIdx fun k v => if k = 0 then v ^^^ c else v

/-- The permutation. -/
def keccak (a : List Nat) : List Nat := keccakRounds.foldl keccakRound a

/-- A block of 136 bytes enters the state. -/
def absorb (a : List Nat) (b : List Byte) : List Nat :=
  keccak (a.mapIdx fun k v => v ^^^ leNat ((b.drop (8 * k)).take 8))

/-- The bytes padded to whole blocks: 0x1F behind them, and the last bit set. -/
def shakePad (b : List Byte) : List Byte :=
  let n := 135 - b.length % 136
  let p := b ++ [0x1F] ++ List.replicate n 0
  p.set (p.length - 1) (p.getD (p.length - 1) 0 ||| 0x80)

/-- The first 64 bytes of SHAKE256, byte 0 lowest. -/
@[irreducible] def shake256 (b : List Byte) : BitVec 512 :=
  let p := shakePad b
  let a := (List.range (p.length / 136)).foldl (fun a k => absorb a ((p.drop (136 * k)).take 136)) (List.replicate 25 0)
  ofBytes 512 ((a.take 8).flatMap (leBytes 8))

end Sys2Proof.Machine
end

