-- ==== Sys2Proof/Machine/Wringer.lean ====
section
/-! DEFINITION. The wringer: submission and collectives (16_fabric.md R350 to R357). -/

namespace Sys2Proof.Machine

/-! ### Submission (R351, R352) -/

/-- Collective slots of the device (R352). -/
def collSlots : Nat := 64

/-- Offset of the first field that breaks R351: the layout, the reserved kind of the completion barrier, and addresses in the aperture. -/
def descFault (d : BitVec 512) : Option Nat :=
  let ap := fun k => if inAperture (bits d (8 * k) 64) then [k] else []
  let l := (descBad d).toList ++ (if (decodeDescHead d).isNone then [2] else []) ++ (if bits d 16 2 == 3 then ap 8 else []) ++
    ap 24 ++ ap 32 ++ ap 40 ++ ap 48 ++ ap 56
  l.min?

/-- Tag of a descriptor. -/
def descTag (d : BitVec 512) : BitVec 16 := bits d 32 16

/-- A copy of the descriptor in a free slot (R352); its barrier counts the arrival to come (11_sync.md R261). -/
def submit (s : State) (d : BitVec 512) (bar : Option BarId) : State :=
  let j := s.job
  let key := (j.asid, descTag d)
  let n := lookupD 0 s.submits key
  barOwe { s with
    submits := assign s.submits key (n + 1)
    slots := s.slots ++ [{ id := (s.slots.map Slot.id).foldl max 0 + 1, job := j.id, asid := j.asid, core := j.core
                           part := { num := n, desc := d, members := [], cntv := [], send := none }, bar, phase := 0, halt := .going }] } bar

/-- A descriptor that WRNG has read is submitted, or waits for a free slot with what was read. -/
def submitOr (s : State) (d : BitVec 512) (bar : Option BarId) : State :=
  if s.slots.length < collSlots then advance (submit (drain s) d bar) else hold s (.wringing d bar)

/-- WRNG reads its descriptor, checks it and resolves its barrier. -/
def readDesc (s : State) (ea : Word) : State :=
  withRecord s ea 64 fun s b =>
    let d : BitVec 512 := ofBytes 512 b
    let s := takeReplies s (.ctl s.job.id)
    match descFault d, decodeDescHead d with
    | some k, _ => raise s .collectiveFault (BitVec.ofNat 64 k)
    | none, none => raise s .collectiveFault 2
    | none, some h =>
      match h.bar with
      | none => submitOr s d none
      | some o => withBar s o fun b => submitOr s d (some b)

def execWrng (a : Reg) (s : State) : Result :=
  let ea := getX s a
  .next (if bits ea 0 6 != 0 then raise s .misaligned ea else readDesc s ea)

/-! ### Participants and parts (R350, R353) -/

/-- The wringer as the party of a unit that acts for a descriptor. -/
def packetParty (unit : Unit) (job : Nat) (asid : BitVec 16) (d : BitVec 512) : Party :=
  { unit, job, asid, core := 0xFFFF, stream := 15, cls := (bits d 18 4).toFin, aperture := false, sib := false }

/-- The wringer as a party that acts for a slot. -/
def wringParty (x : Slot) : Party := packetParty (.wringer x.id) x.job x.asid x.part.desc

/-- Read the participants in index order; none where a list's count is outside 1 to 256. -/
def readMembers (s : State) (p : Party) (parts : Parts) : Except Stop (List (BitVec 8)) :=
  match parts with
  | .row => .ok ((List.range (s.cols.val + 1)).map fun c => devAt s.row c)
  | .column => .ok ((List.range (s.rows.val + 1)).map fun r => devAt r s.col)
  | .rect r0 c0 r1 c1 =>
    .ok ((List.range (r1.val + 1 - r0.val)).flatMap fun i => (List.range (c1.val + 1 - c0.val)).map fun k => devAt (r0 + i) (c0 + k))
  | .list a =>
    match darnRead s p a.toNat 2 with
    | .error e => .error e
    | .ok b =>
      let n := leNat b
      if n = 0 || 256 < n then .ok [] else darnRead s p (a.toNat + 2) n

/-- The members and send counts of a slot's part, read when the collective runs (R352). -/
def readPart (s : State) (x : Slot) (h : DescHead) : Except Stop PeerPart :=
  let p := wringParty x
  let d := x.part.desc
  match readMembers s p h.parts with
  | .error e => .error e
  | .ok m =>
    if bits d 0 8 == 4 then
      match darnMay s p .read (bits d 320 64).toNat (4 * m.length) with
      | .error e => .error e
      | .ok _ =>
        match readData s p (.va (bits d 320 64)) (4 * m.length) none with
        | .error e => .error e
        | .ok b => .ok { x.part with members := m, cntv := (cut 4 (b.map Prod.fst)).map leNat }
    else .ok { x.part with members := m }

/-- COUNT and RCAP of a part. -/
def partCount (q : PeerPart) : Nat := (bits q.desc 128 32).toNat
def partRcap (q : PeerPart) : Nat := (bits q.desc 160 32).toNat

/-- The part of a participant: the slot's own, or what its device has submitted. -/
def partOf (s : State) (x : Slot) (dev : BitVec 8) : Option PeerPart :=
  if dev = ownIndex s then some x.part
  else
    (s.parts.find? fun q => q.dev == dev && q.asid == x.asid && q.tag == descTag x.part.desc && q.part.num == x.part.num).map
      PartIn.part

/-- Every participant's part, in index order, once every one has submitted. -/
def partsOf (s : State) (x : Slot) : List (BitVec 8) → Option (List PeerPart)
  | [] => some []
  | d :: r =>
    match partOf s x d, partsOf s x r with
    | some q, some l => some (q :: l)
    | _, _ => none

/-- Two descriptors differ in OP, FMT, ROP, PKIND, PSPEC or ROOT, or the participant sets do. -/
def partsDiffer (a b : PeerPart) : Bool :=
  bits a.desc 0 14 != bits b.desc 0 14 || bits a.desc 16 2 != bits b.desc 16 2 || bits a.desc 48 16 != bits b.desc 48 16 ||
    bits a.desc 64 64 != bits b.desc 64 64 || a.members != b.members

/-- A collective operation: bytes of an element, and, of all parts, the elements that participant q receives (none where counts that must
be equal differ), the elements that p sends, what q receives, and its offsets. -/
structure Collective where
  size : Nat
  counts : List PeerPart → Nat → Option Nat
  sends : List PeerPart → Nat → Nat
  data : List PeerPart → Nat → List Nat
  offs : List PeerPart → Nat → List Nat

/-- CODE of the checks of R353. A ROOT that names no participant counts as differing (log entry 17). -/
def checkParts (c : Collective) (l : List PeerPart) (root : Nat) : Nat :=
  if l.length ≤ root || l.any (fun q => l.any (partsDiffer q)) then 1
  else if (List.range l.length).any fun q =>
      match c.counts l q, l[q]? with
      | some n, some x => partRcap x < n
      | _, _ => true then 2
  else 0

/-! ### A slot's progress (R353, R356, R357) -/

/-- A slot of the list. -/
def putSlot (s : State) (k : Nat) (x : Slot) : State := { s with slots := setNth s.slots k x }

/-- The part is one of the collective that a slot takes part in (R350). -/
def PartIn.of (q : PartIn) (x : Slot) : Bool := q.asid == x.asid && q.tag == descTag x.part.desc && q.part.num == x.part.num

/-- The devices that a slot's part goes to: its participants, and those whose own descriptor counts this device among theirs; each
of these learns so that the sets differ (R353). -/
def hearers (s : State) (x : Slot) : List (BitVec 8) :=
  let askers := (s.parts.filter fun q => q.of x).map PartIn.dev
  ((x.part.members ++ askers).filter (· != ownIndex s)).eraseDups

/-- A wringer packet to each of these devices. -/
def sendPart (s : State) (x : Slot) : List (BitVec 8) → State
  | [] => s
  | d :: r =>
    let p := wringParty x
    sendPart (postReq s p.unit 0 (request s p (.wringer (descTag x.part.desc) x.part) d false 0 0 .trap)) x r

/-- Every one of them may be sent a packet now (R344). -/
def roomForPart (s : State) (l : List (BitVec 8)) : Bool := l.all (roomTo s)

/-- The packets of a slot that have failed and been reported are sent again: under their SEQ, or under a new one where a RESYNC has passed
(R346). -/
def resendParts (s : State) (u : Unit) : State :=
  let mine := fun (o : Out) => o.unit == u && o.st == .reported
  let anew := s.outs.filter fun o => mine o && o.resynced
  let t := { s with outs := (s.outs.filter fun o => !(mine o && o.resynced)).map fun o =>
               if mine o then { o with st := .waiting, sends := 0, last := s.clock } else o }
  sendWaiting (anew.foldl (fun s o => postReq s u 0 o.req) t)

/-- The part of slot k stops exactly where an access stops (R357). -/
def stopSlot (s : State) (k : Nat) (x : Slot) (e : Stop) : State :=
  match unitVerdict s x.job (wringParty x) e with
  | .again s => putSlot s k x
  | .held s => putSlot s k { x with halt := .held }
  | .dvorol s v => tellContext (putSlot s k { x with halt := .dvorol }) x.asid 4 Cause.pteInvalid.code v
  | .trap s _ v =>
    let t : Trap :=
      { cause := .collectiveFault, val := v, prog := 0, stream := 15, sib := false, orig := 0, pc := 0, slot := some x.id, age := k }
    putSlot (unitFault s x.job t (stopRec s (wringParty x) e)) k { x with halt := .trapped }

/-- The wringer resumes the part of a job's collective that has stopped (R357). -/
def restartSlot (s : State) (job : Nat) (id : Option Nat) (h : Halt) : State :=
  match s.slots.findIdx? fun x => x.job == job && x.halt == h && id == some x.id with
  | none => s
  | some k =>
    match s.slots[k]? with
    | some x => putSlot s k { x with halt := .going }
    | none => s

/-- The arrival on BAR, and the slot and the used parts are free; its own descriptor is kept for a device that asks later. -/
def endSlot (s : State) (k : Nat) (x : Slot) : State :=
  let own : PartIn := { dev := ownIndex s, asid := x.asid, tag := descTag x.part.desc, part := { x.part with send := none } }
  let free := fun (s : State) =>
    { s with slots := s.slots.eraseIdx k, parts := s.parts.filter (fun q => !q.of x) ++ [own] }
  match x.bar with
  | none => free s
  | some b =>
    match barEvent s b (.arrive 1) with
    | none => putSlot s k { x with phase := 3 }
    | some s => free (barPaid s b)

/-- The bytes of the completion status (R351). -/
def collStatus (s : State) (x : Slot) (code received : Nat) : List Byte :=
  let m := x.part.members
  leBytes 4 received ++ leBytes 2 m.length ++ leBytes 2 (if m.contains (ownIndex s) then m.idxOf (ownIndex s) else 0) ++
    leBytes 1 code ++ leBytes 1 1 ++ leBytes 6 0

/-- Every write of a list may be made. -/
def mayWrite (s : State) (p : Party) : List (Nat × List Byte) → Except Stop State
  | [] => .ok s
  | (a, d) :: r =>
    match darnMay s p .write a d.length with
    | .error e => .error e
    | .ok _ => mayWrite s p r

/-- Writes in order. -/
def writeAll (s : State) (p : Party) : List (Nat × List Byte) → Except Stop State
  | [] => .ok s
  | (a, d) :: r =>
    match darnWrite s p a d with
    | .error e => .error e
    | .ok s => writeAll s p r

/-- A participant completes once its packets have been answered: its data, its status with DONE, its arrival (R356). Nothing is written
where one of the writes may not be made. -/
def finishSlot (s : State) (k : Nat) (x : Slot) (code received : Nat) (data : List (Nat × List Byte)) : State :=
  let p := wringParty x
  let l := data.filter (fun q => !q.2.isEmpty) ++ [((bits x.part.desc 448 64).toNat, collStatus s x code received)]
  if awaiting s p.unit then putSlot s k x
  else
    match mayWrite s p l with
    | .error e => stopSlot s k x e
    | .ok _ =>
    match writeAll s p l with
    | .error e => stopSlot s k x e
    | .ok s => endSlot s k x

/-- The addresses that ARGN writes beside RECV: the non-zero doublewords at CNTV (R351). -/
def dieAddrs (s : State) (x : Slot) (cntv : Nat) : Except Stop (List Nat) :=
  if bits x.part.desc 0 8 != 6 || cntv = 0 then .ok []
  else
    match darnMay s (wringParty x) .read cntv 32 with
    | .error e => .error e
    | .ok _ =>
      match readData s (wringParty x) (.va (BitVec.ofNat 64 cntv)) 32 none with
      | .error e => .error e
      | .ok b => .ok (((cut 8 (b.map Prod.fst)).map leNat).filter (· != 0))

/-- Every participant's elements are there: this one's part is performed. -/
def performPart (c : Collective) (s : State) (k : Nat) (x : Slot) (l : List PeerPart) : State :=
  let q := x.part.members.idxOf (ownIndex s)
  let d := x.part.desc
  match dieAddrs s x (bits d 320 64).toNat with
  | .error e => stopSlot s k x e
  | .ok dies =>
    let es := c.data l q
    let bytes := es.flatMap (leBytes c.size)
    let offs := (bits d 384 64).toNat
    finishSlot s k x 0 es.length
      (((bits d 256 64).toNat, bytes) :: (if offs = 0 then [] else [(offs, (c.offs l q).flatMap (leBytes 4))]) ++
        dies.map fun a => (a, bytes))

/-- Every part that the operation needs has its elements. -/
def elemsThere (c : Collective) (l : List PeerPart) : Bool :=
  (List.range l.length).all fun p => c.sends l p = 0 || ((l[p]?).bind PeerPart.send).isSome

/-- Phase 2: the elements of every participant. -/
def runMove (c : Collective) (s : State) (k : Nat) (x : Slot) : State :=
  match partsOf s x x.part.members with
  | none => putSlot s k x
  | some l => if elemsThere c l then performPart c s k x l else putSlot s k x

/-- Phase 1: every descriptor gathered and checked before any data moves; then this participant's elements are read and sent. A submitter
outside its own set completes with CODE 3, and so does one whose list or rectangle names no participant (log entries 17 and 58). -/
def runCheck (c : Collective) (s : State) (k : Nat) (x : Slot) : State :=
  if !x.part.members.contains (ownIndex s) then finishSlot s k x 3 0 []
  else
  match partsOf s x x.part.members with
  | none => putSlot s k x
  | some l =>
    let root := (bits x.part.desc 48 16).toNat
    let code := checkParts c l root
    if code != 0 then finishSlot s k x code 0 []
    else
      let p := wringParty x
      let n := c.size * c.sends l (x.part.members.idxOf (ownIndex s))
      let a := bits x.part.desc 192 64
      if n = 0 then runMove c s k { x with phase := 2 }
      else if !roomForPart s (hearers s x) then putSlot s k x
      else
        match darnMay s p .read a.toNat n, readData s p (.va a) n none with
        | .error e, _ | _, .error e => stopSlot s k x e
        | .ok _, .ok b =>
          let x := { x with
            part := { x.part with send := some ((cut c.size (b.map Prod.fst)).map fun e => BitVec.ofNat 64 (leNat e)) }, phase := 2 }
          let s := sendPart s x (hearers s x)
          runMove c (putSlot s k x) k x

/-- Phase 0: participants and send counts are read, and the descriptor is sent to the others. -/
def runDescribe (c : Collective) (h : DescHead) (s : State) (k : Nat) (x : Slot) : State :=
  match readPart s x h with
  | .error e => stopSlot s k x e
  | .ok part =>
    let y := { x with part, phase := 1 }
    if !roomForPart s (hearers s y) then putSlot s k x
    else
      let s := sendPart s y (hearers s y)
      runCheck c (putSlot s k y) k y

/-- The collective of the slot that acts goes on as far as it can. -/
def collective (c : Collective) (h : DescHead) (s : State) : Result :=
  .next <|
    match s.slots[s.curSlot]? with
    | none => s
    | some x =>
      let u := (wringParty x).unit
      if x.halt != .going then s
      else if s.outs.any fun o => o.unit == u && o.st == .failed then stopSlot s s.curSlot x (.trap .remoteUnreachable 0)
      else
        let s := resendParts s u
        match x.phase with
        | 0 => runDescribe c h s s.curSlot x
        | 1 => runCheck c s s.curSlot x
        | 2 => runMove c s s.curSlot x
        | 3 => endSlot s s.curSlot x

/-! ### The operations (R353 to R355) -/

/-- Neighbours combined, an odd last value passing up. -/
def treeLevel {α : Type} (f : α → α → α) : List α → List α
  | a :: b :: r => f a b :: treeLevel f r
  | l => l

/-- The fixed tree of R354: n levels are enough for n values. -/
def treeFold {α : Type} (f : α → α → α) : Nat → List α → List α
  | 0, l => l
  | n + 1, l => if l.length ≤ 1 then l else treeFold f n (treeLevel f l)

/-- The result of the tree, or d for no values. -/
def treeOf {α : Type} (f : α → α → α) (d : α) (l : List α) : α := (treeFold f l.length l).headD d

/-- Element k that participant p sends. -/
def sentElem (l : List PeerPart) (p k : Nat) : Nat :=
  match (l[p]?).bind PeerPart.send with
  | some v => (v.getD k 0).toNat
  | none => 0

/-- COUNT of participant p, and the sum of the first n. -/
def cntAt (l : List PeerPart) (p : Nat) : Nat := match l[p]? with | some x => partCount x | none => 0
def cntSum (l : List PeerPart) (n : Nat) : Nat := ((List.range n).map (cntAt l)).sum

/-- The elements that p sends to j in A2AV. -/
def cntTo (l : List PeerPart) (p j : Nat) : Nat := match l[p]? with | some x => x.cntv.getD j 0 | none => 0

/-- The count that every participant gives, if it is one. -/
def sameCount (l : List PeerPart) : Option Nat :=
  if (List.range l.length).all fun p => cntAt l p == cntAt l 0 then some (cntAt l 0) else none

/-- Running sums of n lengths, from 0. -/
def sums (f : Nat → Nat) (n : Nat) : List Nat := (List.range (n + 1)).map fun p => ((List.range p).map f).sum

/-- Elements k of every participant combined by the tree: RNE, wrapping sums. -/
def treeElem (op : ROp) (f : RFmt) (l : List PeerPart) (k : Nat) : Nat :=
  treeOf (combine op f .rne false) 0 ((List.range l.length).map fun p => sentElem l p k)

def execAllred (h : DescHead) (op : ROp) (f : RFmt) (s : State) : Result :=
  collective
    { size := f.bytes, counts := fun l _ => sameCount l, sends := cntAt, offs := fun _ _ => []
      data := fun l _ => (List.range (cntAt l 0)).map (treeElem op f l) } h s

def execRedsc (h : DescHead) (op : ROp) (f : RFmt) (s : State) : Result :=
  collective
    { size := f.bytes, counts := fun l q => some (cntAt l q), sends := fun l _ => cntSum l l.length, offs := fun _ _ => []
      data := fun l q => (List.range (cntAt l q)).map fun k => treeElem op f l (cntSum l q + k) } h s

def execAllgv (h : DescHead) (f : Fmt) (_offs : Word) (s : State) : Result :=
  collective
    { size := f.bits / 8, counts := fun l _ => some (cntSum l l.length), sends := cntAt
      offs := fun l _ => sums (cntAt l) l.length
      data := fun l _ => (List.range l.length).flatMap fun p => (List.range (cntAt l p)).map (sentElem l p) } h s

/-- The block that p sends to q follows the blocks that it sends to participants below q. -/
def execA2av (h : DescHead) (f : Fmt) (_cntv _offs : Word) (s : State) : Result :=
  collective
    { size := f.bits / 8
      counts := fun l q =>
        if (List.range l.length).all fun p => cntAt l p == ((List.range l.length).map (cntTo l p)).sum then
          some (((List.range l.length).map fun p => cntTo l p q).sum)
        else none
      sends := cntAt
      offs := fun l q => sums (fun p => cntTo l p q) l.length
      data := fun l q =>
        (List.range l.length).flatMap fun p =>
          let o := ((List.range q).map (cntTo l p)).sum
          (List.range (cntTo l p q)).map fun k => sentElem l p (o + k) } h s

def execBcast (h : DescHead) (f : Fmt) (root : BitVec 16) (s : State) : Result :=
  collective
    { size := f.bits / 8, counts := fun l _ => some (cntAt l root.toNat)
      sends := fun l p => if p = root.toNat then cntAt l p else 0
      offs := fun _ _ => []
      data := fun l _ => (List.range (cntAt l root.toNat)).map (sentElem l root.toNat) } h s

/-- The winner of two pairs, each a doubleword with its value in the low half and its index in the high half (R355). -/
def argnPick (a b : Nat) : Nat :=
  let v := fun x => numOf .fp32 (x % 2 ^ 32)
  let low := if a / 2 ^ 32 ≤ b / 2 ^ 32 then a else b
  match (v a).isNan, (v b).isNan with
  | true, true => low
  | true, false => b
  | false, true => a
  | false, false => if (v a).lt (v b) then b else if (v b).lt (v a) then a else low

/-- A pair as it is delivered: all NaN gives the canonical NaN and 0xFFFFFFFF. -/
def argnOut (x : Nat) : Nat := if (numOf .fp32 (x % 2 ^ 32)).isNan then 0x7FC00000 + 0xFFFFFFFF * 2 ^ 32 else x

def execArgn (h : DescHead) (_dies : Word) (s : State) : Result :=
  collective
    { size := 8, counts := fun l _ => sameCount l, sends := cntAt, offs := fun _ _ => []
      data := fun l _ => (List.range (cntAt l 0)).map fun k =>
        argnOut (treeOf argnPick 0 ((List.range l.length).map fun p => sentElem l p k)) } h s

def execFbar (h : DescHead) (s : State) : Result :=
  collective
    { size := 1, counts := fun l _ => if (List.range l.length).all fun p => cntAt l p == 0 then some 0 else none
      sends := fun _ _ => 0, offs := fun _ _ => [], data := fun _ _ => [] } h s

end Sys2Proof.Machine
end

