-- ==== Sys2Proof/Machine/Launch.lean ====
section
/-! DEFINITION. Launch records and queues, placement and completion (04_jobs.md R73 to R89), and LAUNCH (R96). -/

namespace Sys2Proof.Machine

/-! ### The hub as a party -/

/-- A party that acts for no job (13_memory.md R399): tub actions, launches that no job enqueues, completions, graph nodes. -/
def hubParty (asid : BitVec 16) (u : Unit := .hub) : Party :=
  { unit := u, job := 0, asid, core := 0xFFFF, stream := 14, cls := 0, aperture := false, sib := false }

/-- A fault of such a party: written to the error log and raised to the supervisor (11_sync.md R260). -/
def supervise (s : State) (p : Party) (acc : Access) (c : Cause) (v : Word) (r : Option FaultRec) : State :=
  let r := r.getD (faultRec s p v acc (some c) false { cause := some c, entry := 0, level := 0 })
  tellContext (logErr s (.fault r)) p.asid 5 c.code v

/-- Such a party waits at an access with its record posted: for Dvorol, or at a held page. It makes no access until that wait ends
(13_memory.md R295, R298, R302). -/
def hubWaiting (s : State) (p : Party) : Bool := s.hubWaits.any fun w => w.unit == p.unit && w.asid == p.asid

/-- The wait begins. -/
def hubWait (s : State) (p : Party) (va : Word) (dvorol : Bool) : State :=
  { s with hubWaits := s.hubWaits ++ [{ unit := p.unit, asid := p.asid, va, dvorol }] }

/-- The address of a stop. -/
def Stop.va : Stop → Word
  | .trap _ v | .denied _ _ v | .fault _ v _ => v
  | .held r => r.va
  | .stall | .mark .. | .send .. => 0

/-- What becomes of an access of such a party that stops: it is made later, or it has failed. -/
inductive HubStop where
  | later (s : State)
  | failed (s : State)

/-- The stop of an access of such a party. -/
def hubStop (s : State) (p : Party) (acc : Access) (x : Stop) : HubStop :=
  match verdict s p x with
  | .again s => .later s
  | .held s => .later (hubWait s p x.va false)
  | .dvorol s v => .later (tellContext (hubWait s p v true) p.asid 4 Cause.pteInvalid.code v)
  | .trap s c v => .failed (supervise s p acc c v (Stop.record x))

/-- Writes in order by such a party: one that fails is reported, and the others are still made. Where one has to wait, none is made
yet, and the state holds what the waiting one needs. -/
def hubWrites (back : State) (p : Party) : List (Word × List Byte) → State → Except State State
  | [], s => .ok s
  | (a, d) :: r, s =>
    if hubWaiting s p then .error back
    else
    match writeBytes s p (.va a) d with
    | .ok s => hubWrites back p r s
    | .error x =>
      match hubStop s p .write x with
      | .failed s => hubWrites back p r s
      | .later _ => match hubStop back p .write x with | .later s | .failed s => .error s

/-! ### The record (R77 to R79) -/

/-- Field of n bytes at offset k of a launch record. -/
def recF (r : BitVec 2048) (k n : Nat) : Nat := (bits r (8 * k) (8 * n)).toNat

/-- Fields of level l. -/
def levDom (r : BitVec 2048) (l : Nat) : Nat := recF r (96 + 16 * l) 1
def levScope (r : BitVec 2048) (l : Nat) : Nat := recF r (97 + 16 * l) 1
def levSel (r : BitVec 2048) (l : Nat) : Nat := recF r (98 + 16 * l) 1
def levBar (r : BitVec 2048) (l : Nat) : Bool := recF r (99 + 16 * l) 1 == 1
def levCount (r : BitVec 2048) (l : Nat) : Nat := recF r (100 + 16 * l) 4

/-- NLEV, and the levels of the gang group: those of domain DEVICE or lower (R85). -/
def nlev (r : BitVec 2048) : Nat := recF r 44 1
def gangLevels (r : BitVec 2048) : Nat := ((List.range (nlev r)).filter fun l => levDom r l ≤ 4).length

/-- Bytes of a job's region (10_scratchpad.md R231). -/
def regionBytes (r : BitVec 2048) : Nat := recF r 36 4 + recF r 40 4

/-- Level l breaks the level table, on its own or after the level below. A count from a register names one of the 32, its upper bits zero
(DESIGN CHOICE, log entry 63). -/
def levelBad (r : BitVec 2048) (l : Nat) : Bool :=
  if nlev r ≤ l then recF r (96 + 16 * l) 16 != 0
  else
    let d := levDom r l
    7 < d || 4 < levScope r l || 2 < levSel r l || 1 < recF r (99 + 16 * l) 1 || recF r (104 + 16 * l) 8 != 0 ||
      (l != 0 && (d < levDom r (l - 1) || levSel r l == 2)) || (levSel r l == 0 && 65535 < levCount r l) ||
      (levSel r l == 1 && 31 < levCount r l) || (levBar r l && 5 ≤ d)

/-- The record breaks R77 to R79, as far as it shows on its own. TCNT from a register names one of the 32, like a level's count (DESIGN CHOICE,
log entry 63). -/
def recordBad (r : BitVec 2048) : Bool :=
  let f := recF r
  let tiled := levSel r 0 == 2
  f 0 8 % 64 != 0 || f 8 4 % 4 != 0 || f 8 4 == 0 || ([12, 16, 20, 24].any fun k => f k 4 % 4 != 0) || 8 < f 28 1 || 4 < f 29 1 ||
    64 < f 30 1 || 8 ≤ f 31 1 || 64 < f 32 1 || 128 < f 33 1 || 64 < f 34 1 || 64 < f 35 1 || f 36 4 % 64 != 0 || f 40 4 % 64 != 0 ||
    0x800000 < regionBytes r || nlev r == 0 || 8 < nlev r || (if tiled then f 45 1 == 0 || 32 < f 45 1 else f 45 1 != 0) ||
    30 < f 46 1 || 2 < f 47 1 || f 48 8 % 16 != 0 || (f 47 1 == 0 && 4096 < f 56 4) || (f 47 1 == 1 && 31 < f 56 4) || f 60 4 != 0 ||
    f 64 8 % 8 != 0 || 512 ≤ f 80 2 || 3 < f 82 1 || f 83 5 != 0 || f 88 8 % 16 != 0 || (List.range 8).any (levelBad r) ||
    ((List.range 8).any (fun l => levDom r l == 5) && (List.range 8).any fun l => levDom r l == 6)

/-- The offset lies in the image's section of a kind. -/
def Image.inSection (i : Image) (kind off : Nat) : Bool := i.sections.any fun x => x.kind == kind && x.off ≤ off && off < x.off + x.bytes

/-- The entries, or the spad section against the region, break the record (R77, 10_scratchpad.md R231). -/
def entriesBad (r : BitVec 2048) (i : Image) : Bool :=
  !i.inSection 1 (recF r 8 4) ||
    engines.any (fun e => let pc := recF r (12 + 4 * engineNum e) 4; pc != 0 && !i.inSection (streamKind e) pc) ||
    i.sections.any fun x => x.kind == 12 && regionBytes r < x.bytes

/-! ### Counts, groups and domains (R78 to R80) -/

/-- Product of the counts of levels lo to hi - 1. -/
def countProd (c : List Nat) (lo hi : Nat) : Nat := ((c.take hi).drop lo).prod

/-- Jobs of a group of level l, for a level of the gang group. -/
def groupJobs (c : List Nat) (l : Nat) : Nat := countProd c 0 (l + 1)

/-- Most jobs, or device groups, of a group (R79). -/
def domLimit (d : Nat) : Nat := [2, 4, 24, 144, 576, 16, 16, 256].getD d 0

/-- Cores of a unit of a domain (01_device.md R9). -/
def domCores (d : Nat) : Nat := [1, 2, 12, 72, 288].getD d 288

/-- Least SCOPE of a level whose group has n jobs (R79). A CORE group without jobs may have SCOPE JOB, as one of one job (DESIGN CHOICE, log
entry 65). -/
def leastScope (d n : Nat) : Nat := if d = 0 then (if n ≤ 1 then 0 else 1) else if d ≤ 3 then 2 else if d = 4 then 3 else 4

/-- The kind of a level's barrier: core, die, device (R78). -/
def levKind (d : Nat) : BarKind := if d = 0 then .core else if d ≤ 3 then .die else .device

/-- Level barriers of a kind that a job takes part in. -/
def levBars (r : BitVec 2048) (k : BarKind) : Nat :=
  ((List.range (nlev r)).filter fun l => levBar r l && levKind (levDom r l) == k).length

/-- The counts break a domain limit, a least scope, the fabric's size, or a barrier allotment (R78, R79, R85). -/
def countsBad (s : State) (r : BitVec 2048) (c : List Nat) : Bool :=
  let g := gangLevels r
  let rn := s.rows.val + 1
  let cn := s.cols.val + 1
  (List.range (nlev r)).any (fun l =>
    let d := levDom r l
    let n := if d ≤ 4 then groupJobs c l else countProd c g (l + 1)
    let k := c.getD l 0
    domLimit d < n || levScope r l < leastScope d (groupJobs c l) || (d == 5 && cn < k) || (d == 6 && rn < k) || (d == 7 && rn * cn < k)) ||
    recF r 32 1 < levBars r .core || recF r 33 1 < levBars r .die || recF r 34 1 < levBars r .device

/-- A count from an immediate, or from a shape register where the launcher has one. -/
def countFrom (shapes : Option (Vector (BitVec 32) 32)) (sel v : Nat) : Option Nat :=
  if sel = 1 then shapes.map fun x => (x.toList.getD v 0).toNat else some v

/-- The counts of the levels (R80), n being that of level 0 where it counts tile records. -/
def resolveCounts (shapes : Option (Vector (BitVec 32) 32)) (r : BitVec 2048) (n : Nat) : Option (List Nat) :=
  (List.range (nlev r)).mapM fun l => if levSel r l = 2 then some n else countFrom shapes (levSel r l) (levCount r l)

/-! ### Tile records (R82) -/

/-- The jobs of one tile record. -/
def tileJobs (split : Nat) (t : List Byte) : List TileJob :=
  let f := fun k n => leNat ((t.drop k).take n)
  let q := f 12 2
  if q = 0 || f 14 1 % 2 = 1 then []
  else
    (List.range ((q + split - 1) / split)).map fun j =>
      { arg := BitVec.ofNat 64 (f 0 8), rows := BitVec.ofNat 32 (min split (q - j * split)), off := BitVec.ofNat 32 (f 8 4 + j * split) }

/-- A tile record has a reserved bit set. -/
def tileBad (t : List Byte) : Bool := 2 ≤ leNat ((t.drop 14).take 2)

/-- Address and number of the tile records; none where no shape register can be read. -/
def tileSource (s : State) (p : Party) (shapes : Option (Vector (BitVec 32) 32)) (r : BitVec 2048) : Except Stop (Option (Nat × Nat)) :=
  let src := recF r 48 8
  if recF r 47 1 = 2 then
    match readExact s p .read (.va (BitVec.ofNat 64 src)) 4 with
    | .error e => .error e
    | .ok b => .ok (some (src + 16, leNat b))
  else .ok ((countFrom shapes (recF r 47 1) (recF r 56 4)).map fun n => (src, n))

/-- The jobs and the skip count of the tile records; none: code 1. -/
def readTiles (s : State) (p : Party) (shapes : Option (Vector (BitVec 32) 32)) (r : BitVec 2048) :
    Except Stop (Option (List TileJob × Nat)) :=
  match tileSource s p shapes r with
  | .error e => .error e
  | .ok none => .ok none
  | .ok (some (a, n)) =>
    if 4096 < n then .ok none
    else
      match readExact s p .read (.va (BitVec.ofNat 64 a)) (16 * n) with
      | .error e => .error e
      | .ok b =>
        let l := cut 16 b
        if l.any tileBad then .ok none
        else
          let js := l.map (tileJobs (recF r 45 1))
          .ok (some (js.flatten, (js.filter List.isEmpty).length))

/-! ### Placeability on an idle device (R86) -/

/-- Jobs that fit on an idle core, of 0 to 2: registers, tubs, scratchpad and core barriers. -/
def coreFits (r : BitVec 2048) (c : List Nat) : Nat :=
  let own := recF r 32 1 - levBars r .core
  let ok := fun n =>
    let groups := ((List.range (nlev r)).map fun l =>
      if levBar r l && levDom r l == 0 then (n + groupJobs c l - 1) / max 1 (groupJobs c l) else 0).sum
    16 * recF r 28 1 * n ≤ 128 && 8 * recF r 29 1 * n ≤ 32 && recF r 35 1 * n ≤ 64 && regionBytes r * n ≤ 0x800000 && own * n + groups ≤ 64
  if ok 2 then 2 else if ok 1 then 1 else 0

/-- The fit of groups level by level: domain of the level below, groups of it in one unit, and the die and device barriers that one
of them takes. -/
structure Fit where
  dom : Nat
  cap : Nat
  die : Nat
  dev : Nat
  deriving DecidableEq, Repr

/-- Groups in a unit of a domain, before the level divides them: a die has 256 barriers. -/
def Fit.widen (f : Fit) (d : Nat) : Nat :=
  let inDie := min (domCores (min d 3) / domCores (min f.dom 3) * f.cap) (if 3 ≤ d && 1 ≤ f.die then 256 / f.die else 1000000)
  if f.dom = 4 then f.cap else if d = 4 then 4 * inDie else inDie

/-- One level more. -/
def Fit.level (r : BitVec 2048) (c : List Nat) (f : Fit) (l : Nat) : Fit :=
  let d := levDom r l
  let n := c.getD l 0
  let k := levKind d
  { dom := d, cap := f.widen d / max 1 n, die := n * f.die + (if levBar r l && k == .die then 1 else 0)
    dev := n * f.dev + (if levBar r l && k == .device then 1 else 0) }

/-- The gang group fits on an idle device. -/
def placeable (r : BitVec 2048) (c : List Nat) : Bool :=
  let own := fun k a => recF r a 1 - levBars r k
  let f0 : Fit := { dom := 0, cap := coreFits r c, die := own .die 33, dev := own .device 34 }
  let f := (List.range (gangLevels r)).foldl (Fit.level r c) f0
  1 ≤ f.cap && (4 ≤ f.dom || f.die ≤ 256) && f.dev ≤ 64

/-! ### The check of an enqueue (R80, R82, R86, R87) -/

/-- Why a launch is not admitted: a code of R87, or a CSYNC that its job does not hold (11_sync.md R247). -/
inductive Refused where
  | code (n : Nat)
  | csync (o : BarOp)
  deriving DecidableEq, Repr

/-- Jobs of a launch's gang group on this device. Without a level of domain DEVICE or lower it is one job (DESIGN CHOICE, log entry 63). -/
def launchJobs (r : BitVec 2048) (c : List Nat) : Nat := if c.prod = 0 then 0 else countProd c 0 (gangLevels r)

/-- Jobs that a context has on the device or waiting in queues. -/
def jobsHeld (s : State) (asid : BitVec 16) : Nat := ((s.launches.filter fun l => l.asid == asid).map fun l => l.jobs - l.retired).sum

/-- A record with its counts resolved, judged by R79, R86 and R87. Where several codes apply, the first of the order 3 for a context that is
gone, 4, 1, 3, 2 is given (log entry 62). The kind of CSYNC is judged only where CACT makes an arrival on it (DESIGN CHOICE, log entry 65). -/
def admitLaunch (s : State) (asid : BitVec 16) (addr : Word) (r : BitVec 2048) (q : Nat) (c : List Nat) (tiles : List TileJob)
    (skipped : Nat) (idx : List Nat) (src : Source) (csync : BarOp → Option BarId) : Except Refused Launch :=
  match contextOf s asid with
  | none => .error (.code 3)
  | some x =>
    match x.images.find? fun i => i.addr == BitVec.ofNat 64 (recF r 0 8) with
    | none => .error (.code 4)
    | some i =>
      let jobs := launchJobs r c
      let acts := recF r 82 1 % 2 = 1
      let o := if acts then BarOp.ofCode (BitVec.ofNat 9 (recF r 80 2)) else none
      let bar := o.bind csync
      if entriesBad r i || countsBad s r c || (acts && (match o with | some b => b.kind == .core | none => true)) then .error (.code 1)
      else if acts && bar.isNone then
        match o, src with
        | some b, .job _ => .error (.csync b)
        | _, _ => .error (.code 1)
      else if !x.args.queues.contains q || x.args.quotaJobs < jobsHeld s asid + jobs then .error (.code 3)
      else if jobs != 0 && !placeable r c then .error (.code 2)
      else
        .ok { id := 0, queue := q, asid, addr, raw := r, version := i.version, counts := c, tiles, skipped, idx, source := src, csync := bar
              time := 0, placed := jobs == 0, started := jobs == 0, jobs, retired := 0, refs := 0, suspended := false }

/-- The record at addr read and checked by a party; shapes: the launcher's registers, for LAUNCH. The record itself is judged before its
image and its tile records (log entry 62). TCSEL 1 names a shape register only where level 0 counts tile records, so that otherwise a record
of any source may hold it (R80; DESIGN CHOICE, log entry 65). -/
def checkLaunch (s : State) (p : Party) (addr : Word) (q : Nat) (shapes : Option (Vector (BitVec 32) 32)) (src : Source)
    (csync : BarOp → Option BarId) : Except Stop (BitVec 2048 × Except Refused Launch) :=
  match readExact s p .read (.va addr) 256 with
  | .error e => .error e
  | .ok b =>
    let r : BitVec 2048 := ofBytes 2048 b
    let no := fun n => .ok (r, .error (.code n))
    if recordBad r then no 1
    else if ((contextOf s p.asid).bind fun x => x.images.find? fun i => i.addr == BitVec.ofNat 64 (recF r 0 8)).isNone then no 4
    else
      match (if levSel r 0 = 2 then readTiles s p shapes r else .ok (some ([], 0))) with
      | .error e => .error e
      | .ok none => no 1
      | .ok (some (tiles, skipped)) =>
        match resolveCounts shapes r tiles.length with
        | none => no 1
        | some c => .ok (r, admitLaunch s p.asid addr r q c tiles skipped [] src csync)

/-! ### Queues (R83, R84) -/

/-- Entries of a launch queue. -/
def launchSlots : Nat := 64

/-- A launch queue. -/
def queueOf (s : State) (q : Nat) : LQueue := s.queues.toList.getD q { cls := 0, entries := [], waiting := [] }

/-- Replace a launch queue. -/
def putQueue (s : State) (q : Nat) (x : LQueue) : State :=
  { s with queues := Vector.ofFn fun k => if k.val = q then x else s.queues[k] }

/-- A launch by its id, replaced, and changed. -/
def findLaunch (s : State) (id : Nat) : Option Launch := s.launches.find? fun l => l.id == id
def updLaunch (s : State) (id : Nat) (f : Launch → Launch) : State :=
  { s with launches := s.launches.map fun l => if l.id = id then f l else l }

/-- The device of group i of a replicated level (R85). -/
def replicaAt (s : State) (d i : Nat) : BitVec 8 :=
  let rn := s.rows.val + 1
  let cn := s.cols.val + 1
  let r := s.row.val
  let c := s.col.val
  if d = 5 then devAt r ((c + i) % cn)
  else if d = 6 then devAt ((r + i) % rn) c
  else let l := (r * cn + c + i) % (rn * cn); devAt (l / cn) (l % cn)

/-- The messages of a launch: target and indices, for each replicated level from the topmost one that is still open, and for each group of
it but the first. A level is counted from the row and column of the device that sends it (DESIGN CHOICE, log entry 62). -/
def replicas (s : State) (l : Launch) : List (BitVec 8 × List Nat) :=
  if l.counts.prod = 0 then []
  else
    let open' := nlev l.raw - gangLevels l.raw - l.idx.length
    (List.range open').flatMap fun t =>
      let lv := nlev l.raw - 1 - l.idx.length - t
      (List.range (l.counts.getD lv 0 - 1)).map fun i =>
        (replicaAt s (levDom l.raw lv) (i + 1), l.idx ++ List.replicate t 0 ++ [i + 1])

/-- Its queue has a free entry, and every message of the launch may be sent: several of them may go to one device. A launch without jobs needs
no entry (DESIGN CHOICE, log entry 63). -/
def launchRoom (s : State) (l : Launch) : Bool :=
  let m := replicas s l
  (l.jobs == 0 || (queueOf s l.queue).entries.length < launchSlots) && m.all fun x => roomTo s x.1 (m.filter fun y => y.1 == x.1).length

/-- Send the messages. -/
def sendGroups (s : State) (l : Launch) : List (BitVec 8 × List Nat) → State
  | [] => s
  | (d, idx) :: r =>
    let p := hubParty l.asid
    let q := request s p (.launch l.queue l.addr (toBytes l.raw) l.counts l.tiles l.skipped idx) d false 0 0 .trap
    sendGroups (postReq s (.launch l.id) 0 q) l r

/-- The launch enters its queue: it takes its id and its place in time, its barrier counts the arrival to come (11_sync.md R261), and
its replicated groups are sent. A launch without jobs goes on to its completion. -/
def enqueue (s : State) (l : Launch) : State :=
  let full := l.idx ++ List.replicate (nlev l.raw - gangLevels l.raw - l.idx.length) 0
  let m := replicas s l
  let l := { l with id := s.nextLaunch, time := s.nextLaunch }
  let x := queueOf s l.queue
  let s := if l.jobs = 0 then s else putQueue s l.queue { x with entries := x.entries ++ [l.id] }
  sendGroups { s with nextLaunch := s.nextLaunch + 1, launches := s.launches ++ [{ l with idx := full }] } l m

/-- An admitted launch that no LAUNCH enqueues: it enters the queue, or waits behind those that wait already. -/
def enqueueOr (s : State) (l : Launch) : State :=
  let s := barOwe s l.csync
  let x := queueOf s l.queue
  if x.waiting.isEmpty && launchRoom s l then enqueue s l else putQueue s l.queue { x with waiting := x.waiting ++ [l] }

/-- The launch of a tub, or of a LAUNCH of a job or of the host, that has waited finds room: the tub's next enqueue may follow, and the LAUNCH
completes. -/
def clearWait (s : State) (l : Launch) : State :=
  match l.source with
  | .tub t => putTub s t { tubOf s t with waitq := false }
  | .job id => updJob (barOwe s l.csync) id fun j => { j with pc := j.pc + 4, wait := .ready }
  | .host q n => completeAt s (q, n) 0
  | .graph _ | .peer _ => s

def execEnqueueResume (q : Fin 16) (s : State) : Result :=
  .next <|
    let x := queueOf s q
    match x.waiting with
    | [] => s
    | l :: r => if launchRoom s l then enqueue (clearWait (putQueue s q { x with waiting := r }) l) l else s

/-! ### LAUNCH (R96) -/

/-- The checked launch of LAUNCH enters its queue, or waits for room in it. -/
def launchNow (s : State) (l : Launch) : State :=
  let x := queueOf s l.queue
  if launchRoom s l && x.waiting.isEmpty then advance (enqueue (barOwe s l.csync) l)
  else hold (putQueue s l.queue { x with waiting := x.waiting ++ [l] }) .enqueueing

/-- LAUNCH reads and checks its record once, and then takes effect as a whole. -/
def execLaunch (a b : Reg) (s : State) : Result :=
  let ea := getX s a
  let q := getX s b
  .next <|
    if bits ea 0 6 != 0 then raise s .misaligned ea
    else if 15 < q.toNat then raise s .queueMisuse 3
    else
      let s := drain s
      withAccess s (checkLaunch s (ctlParty s 0) ea q.toNat (some s.job.shapes) (.job s.job.id) s.job.barAt) fun x =>
        match x.2 with
        | .error (.code n) => raise (takeReplies s (.ctl s.job.id)) .queueMisuse (BitVec.ofNat 64 n)
        | .error (.csync o) => raise (takeReplies s (.ctl s.job.id)) .barrierMisuse (barWord o)
        | .ok l => launchNow (takeReplies s (.ctl s.job.id)) l

/-! ### Launches enqueued by tubs, graph nodes, the host and peers (R83, R87) -/

/-- The 16 bytes of a completion status (R89). -/
def launchStatus (retired skipped refs code : Nat) : List Byte :=
  leBytes 4 retired ++ leBytes 4 skipped ++ leBytes 2 refs ++ leBytes 2 code ++ leBytes 4 0

/-- What comes of an enqueue that no job makes. -/
inductive Enqueued where
  /-- in the queue or waiting for it -/
  | done (s : State)
  /-- refused with a code; STATUS of the record -/
  | refused (s : State) (code status : Nat)
  /-- the record cannot be read; the fault is reported -/
  | failed (s : State)
  | later (s : State)

/-- Enqueue the record at addr for a context; a refusal is told by the caller, and stop says what becomes of an access that stops. A record
address that is no multiple of 64 is refused with code 1 once every other check has passed (DESIGN CHOICE, log entry 66). -/
def enqueueFor (s : State) (asid : BitVec 16) (addr : Word) (q : Nat) (src : Source) (u : Unit)
    (stop : State → Party → Access → Stop → HubStop := hubStop) : Enqueued :=
  let p := hubParty asid u
  if hubWaiting s p then .later s
  else
    match checkLaunch s p addr q none src (fun o => (contextOf s asid).bind fun c => c.barAt o) with
    | .error e =>
      match stop s p .read e with
      | .later s => .later s
      | .failed s => .failed s
    | .ok (r, x) =>
      let no := Enqueued.refused (takeReplies s u)
      match x with
      | .error (.code n) => no n (recF r 88 8)
      | .error (.csync _) => no 1 (recF r 88 8)
      | .ok l => if addr.toNat % 64 ≠ 0 then no 1 (recF r 88 8) else .done (enqueueOr (takeReplies s u) l)

/-- A refusal of a tub's or a graph node's launch: to the STATUS of the record if it is non-zero, and to the error log (R87). RETIRED, SKIPPED and
PEERREF of that STATUS are 0 (DESIGN CHOICE, log entry 66). -/
def tellRefusal (s : State) (asid : BitVec 16) (addr : Word) (code status : Nat) (u : Unit) : Except State State :=
  let t := logErr s (.launchRefused asid addr code)
  if status = 0 then .ok t else hubWrites s (hubParty asid u) [(BitVec.ofNat 64 status, launchStatus 0 0 0 code)] t

/-! ### Placement (R85 to R88) -/

/-- The launch that is to be placed next: the oldest of the highest class. -/
def nextPlaced (s : State) : Option Launch :=
  let key := fun (l : Launch) => ((queueOf s l.queue).cls, l.time)
  (s.launches.filter fun l => !l.placed).foldl (fun m l =>
    match m with
    | none => some l
    | some x => if (key l).1 < (key x).1 || ((key l).1 == (key x).1 && (key l).2 < (key x).2) then some l else some x) none

/-- Barriers that are not free: those of jobs that hold registers or wait to, those of context tables, which are allotted to no job (DESIGN CHOICE,
log entry 66), and orphans. -/
def barsTaken (s : State) : List BarId :=
  ((allJobs s).filter fun j => j.st != .retired).flatMap Job.barriers ++
    s.contexts.flatMap (fun c => c.args.dbars.map (fun d => BarId.die d.1 d.2) ++ c.args.gbars.map .device) ++
    (s.barriers.filter fun b => b.2.orphan).map Prod.fst

/-- A barrier of a kind at a core, by index. -/
def barId (k : BarKind) (core i : Nat) : BarId :=
  match k with
  | .core => .core core i
  | .die => .die (dieOf core) i
  | .device => .device i

/-- Barriers of a kind in one unit. -/
def barSlots : BarKind → Nat
  | .core => 64 | .die => 256 | .device => 64

/-- A job's own barriers of a kind at a place. -/
def ownBars (p : Seat) : BarKind → List Nat
  | .core => p.cbar | .die => p.dbar | .device => p.gbar

/-- A place's own barriers as they are named on the device. -/
def placeBars (p : Seat) (k : BarKind) : List BarId := (ownBars p k).map (barId k p.core)
def placeAllBars (p : Seat) : List BarId := placeBars p .core ++ placeBars p .die ++ placeBars p .device

/-- The base of the region of size n that a job receives beside the regions of its core: the top of an empty scratchpad, else the
highest free range (10_scratchpad.md R231). -/
def regionFor (l : List (Nat × Nat)) (n : Nat) : Option Nat :=
  let tops := 0x800000 :: l.map Prod.fst
  let fits := tops.filter fun t => n ≤ t && l.all fun r => t ≤ r.1 || r.2 ≤ t - n
  fits.max?.map fun t => t - n

/-- The regions of the jobs of a core. -/
def regionsOn (s : State) (core : Nat) : List (Nat × Nat) := (jobsOn s core).map fun j => (j.spbase.toNat, j.splim.toNat)

/-- What the job of a record takes of its core. -/
structure Demand where
  mreg : Nat
  oreg : Nat
  stub : Nat
  bytes : Nat
  alt : Bool
  deriving DecidableEq, Repr

def demandOf (r : BitVec 2048) : Demand :=
  { mreg := recF r 28 1, oreg := recF r 29 1, stub := recF r 35 1, bytes := regionBytes r, alt := recF r 31 1 % 2 = 1 }

/-- A place fits beside the jobs of its core and the places before it: control core, registers, tubs, array mode. -/
def seatOk (s : State) (d : Demand) (before : List Seat) (p : Seat) : Bool :=
  let here := jobsOn s p.core
  let same := before.filter fun q => q.core == p.core
  let n := same.length + 1
  p.core < Config.cores && !here.any (fun j => j.cc == p.cc) && !same.any (fun q => q.cc == p.cc) &&
    16 * ((here.map Job.mreg).sum + n * d.mreg) ≤ 128 && 8 * ((here.map Job.oreg).sum + n * d.oreg) ≤ 32 &&
    (here.map Job.stub).sum + n * d.stub ≤ 64 && here.all fun j => j.altArray == d.alt

/-- Each place in turn, with its region. -/
def seatsOk (s : State) (d : Demand) : List Seat → List Seat → Bool
  | _, [] => true
  | before, p :: r =>
    let l := regionsOn s p.core ++ ((before.filter fun q => q.core == p.core).map fun q => (q.spbase, q.spbase + d.bytes))
    seatOk s d before p && regionFor l d.bytes == some p.spbase && seatsOk s d (before ++ [p]) r

/-- The places keep every group of a level in one unit of its domain (R79). -/
def groupsOk (l : Launch) (places : List Seat) : Bool :=
  let core := fun k => match places[k]? with | some p => p.core | none => 0
  (List.range (gangLevels l.raw)).all fun lv =>
    let w := domCores (levDom l.raw lv)
    let n := groupJobs l.counts lv
    (List.range places.length).all fun k => core k / w == core (k / max 1 n * n) / w

/-- The places' own barriers are as many as the record asks for, in range, free and distinct. -/
def ownBarsOk (s : State) (r : BitVec 2048) (places : List Seat) : Bool :=
  let all := places.flatMap placeAllBars
  let taken := barsTaken s
  places.all (fun p => [(BarKind.core, 32), (.die, 33), (.device, 34)].all fun (k, a) =>
    (ownBars p k).length + levBars r k == recF r a 1 && (ownBars p k).all fun i => i < barSlots k) &&
    all.all (fun b => !taken.contains b) && all.eraseDups.length == all.length

/-- The level barriers of a gang group, level by level and group by group: the lowest indices that are free. -/
def levelBarsFrom (places : List Seat) (c : List Nat) (r : BitVec 2048) : List (Nat × Nat) → List BarId → Option (List ((Nat × Nat) × BarId))
  | [], _ => some []
  | (lv, g) :: rest, taken =>
    let k := levKind (levDom r lv)
    match places[g * groupJobs c lv]? with
    | none => none
    | some p =>
      match firstBelow (barSlots k) fun i => !taken.contains (barId k p.core i) with
      | none => none
      | some i =>
        let b := barId k p.core i
        (levelBarsFrom places c r rest (b :: taken)).map fun l => ((lv, g), b) :: l

/-- Every level of the gang group with a barrier, with each of its groups. -/
def levelGroups (l : Launch) : List (Nat × Nat) :=
  ((List.range (gangLevels l.raw)).filter (levBar l.raw)).flatMap fun lv =>
    (List.range (l.jobs / max 1 (groupJobs l.counts lv))).map fun g => (lv, g)

/-- The level barriers of job k, in ascending level order. -/
def jobLevelBars (l : Launch) (bars : List ((Nat × Nat) × BarId)) (k : Nat) : List (Nat × BarId) :=
  ((List.range (gangLevels l.raw)).filter (levBar l.raw)).filterMap fun lv =>
    (bars.find? fun b => b.1 == (lv, k / max 1 (groupJobs l.counts lv))).map fun b => (lv, b.2)

/-- Index of job k in level lv (R81). -/
def levelIndex (l : Launch) (k lv : Nat) : Nat :=
  if lv < gangLevels l.raw then (if lv = 0 then k else k / groupJobs l.counts (lv - 1)) % max 1 (l.counts.getD lv 1)
  else l.idx.getD (nlev l.raw - 1 - lv) 0

/-- The levels of job k with their barriers' operands. -/
def jobLevels (l : Launch) (bars : List (Nat × BarId)) (k : Nat) : List Level :=
  (List.range (nlev l.raw)).map fun lv =>
    let kind := levKind (levDom l.raw lv)
    let before := (bars.filter fun b => b.1 < lv && levKind (levDom l.raw b.1) == kind).length
    { idx := BitVec.ofNat 32 (levelIndex l k lv), count := BitVec.ofNat 32 (l.counts.getD lv 1)
      bar := if bars.any (fun b => b.1 == lv) then some { kind, idx := Fin.ofNat 128 before } else none }

/-- An engine stream at its entry. -/
def startStream (l : Launch) (e : Engine) (shapes : Vector (BitVec 32) 32) : EngStream :=
  let pc := recF l.raw (12 + 4 * engineNum e) 4
  { EngStream.empty with pc, stopped := pc == 0, shapes }

/-- The shape registers of job k: zero but for those of its tile record (R74, R82). -/
def tileShapes (l : Launch) (t : Option TileJob) : Vector (BitVec 32) 32 :=
  let n := recF l.raw 46 1
  match t with
  | none => Vector.replicate 32 0
  | some t => Vector.ofFn fun i => if i.val = n then t.rows else if i.val = n + 1 then t.off else 0

/-- The control registers of a job at its start (R74). -/
def startX (l : Launch) (t : Option TileJob) : Vector Word 32 :=
  Vector.ofFn fun i =>
    if 10 ≤ i.val && i.val < 14 then bits l.raw (8 * (224 + 8 * (i.val - 10))) 64
    else if i.val = 14 then (match t with | some t => t.arg | none => 0)
    else if i.val = 15 then l.addr
    else 0

/-- Job k of a launch at its place (R73, R74, R77). -/
def newJob (l : Launch) (id k : Nat) (p : Seat) (bars : List (Nat × BarId)) (partner : Nat) : Job :=
  let r := l.raw
  let t := if levSel r 0 = 2 then l.tiles[levelIndex l k 0]? else none
  let of := fun kind => (bars.filter fun b => levKind (levDom r b.1) == kind).map Prod.snd ++ placeBars p kind
  let sh := tileShapes l t
  let img : Word := BitVec.ofNat 64 (recF r 0 8)
  let scope := fun lv => (Scope.ofCode (BitVec.ofNat 3 (levScope r lv))).getD .job
  { Job.blank with
    id, st := .placed, launch := l.id, num := k, asid := l.asid, core := p.core, cc := p.cc, image := img, version := l.version
    levels := jobLevels l bars k, topScope := scope (nlev r - 1), prio := Fin.ofNat 4 (recF r 31 1 / 2), altArray := recF r 31 1 % 2 = 1
    mreg := recF r 28 1, oreg := recF r 29 1, pslot := recF r 30 1, cbar := of .core, dbar := of .die, gbar := of .device
    lbars := bars.map fun b => (b.2, scope b.1), stub := recF r 35 1, x := startX l t, pc := img + BitVec.ofNat 64 (recF r 8 4)
    spbase := BitVec.ofNat 24 p.spbase, splim := BitVec.ofNat 24 (p.spbase + regionBytes r), spbump := BitVec.ofNat 24 p.spbase
    sphead := BitVec.ofNat 24 (p.spbase + regionBytes r), shapes := sh, ld := startStream l .ld sh, mx := startStream l .mx sh
    vx := startStream l .vx sh, st' := startStream l .st sh, partner }

/-- The mailbox partner of job k: the other job of its group of two at level 0 of domain CORE (05_control_core.md R127). -/
def partnerId (l : Launch) (first k : Nat) : Nat :=
  if levDom l.raw 0 = 0 && l.counts.getD 0 0 = 2 then (if k % 2 = 0 then first + k + 1 else first + k - 1) else 0

/-- A bank wakes (10_scratchpad.md R244): zeros without poison; the accesses to it wait for 2,048 clocks. -/
def wakeBank (s : State) (core b : Nat) : State :=
  if s.gated.contains (core, b) then
    { s with gated := s.gated.filter (· != (core, b)), waking := s.waking ++ [(core, b, s.clock + 2048)] }
  else s

/-- The banks that a region overlaps. -/
def regionBanks (lo hi : Nat) : List Nat := (List.range 32).filter fun b => lo < (b + 1) * 262144 && b * 262144 < hi

/-- Wake every gated bank of a region. -/
def wakeRegion (s : State) (core lo hi : Nat) : State := (regionBanks lo hi).foldl (fun s b => wakeBank s core b) s

/-- The banks of a region have neither been gated nor are they waking. -/
def regionAwake (s : State) (core lo hi : Nat) : Bool :=
  (regionBanks lo hi).all fun b => !s.gated.contains (core, b) && !s.waking.any fun w => w.1 == core && w.2.1 == b

/-- A bank of a core may be gated: no job's region on the core overlaps it, and it is neither gated nor waking. -/
def mayGate (s : State) (core b : Nat) : Bool :=
  core < Config.cores && b < 32 && !s.gated.contains (core, b) && !s.waking.any (fun w => w.1 == core && w.2.1 == b) &&
    !(jobsOn s core).any fun j => (regionBanks j.spbase.toNat j.splim.toNat).contains b

/-- Banks gated, with their contents lost. -/
def gateBanks (s : State) (l : List (Nat × Nat)) : State :=
  { s with
    spad := s.spad.filter fun e => !l.contains (e.1 / 8388608, e.1 / 262144 % 32)
    spadPoison := s.spadPoison.filter fun e => !l.contains (e.1 / 131072, e.1 / 4096 % 32)
    zeroMap := s.zeroMap.filter fun e => !l.contains (e.1 / 8192, e.1 / 256 % 32)
    gated := s.gated ++ l }

/-- Every unused bank is gated, as power state 2 has it (18_host.md R389). -/
def gateAll (s : State) : State :=
  gateBanks s ((List.range Config.cores).flatMap fun c => ((List.range 32).filter (mayGate s c)).map fun b => (c, b))

/-- The banks of a job that has left its core are gated where the power state wants it. -/
def gateLeft (s : State) : State := if s.powerState = 2 then gateAll s else s

/-- A region cleared before a job receives it: bytes, poison and zero map (10_scratchpad.md R231, log entry 2). -/
def clearRegion (s : State) (core lo hi : Nat) : State :=
  { s with
    spad := sclear s.spad (core * Config.spadBytes + lo) (core * Config.spadBytes + hi)
    spadPoison := sclear s.spadPoison (core * 131072 + lo / 64) (core * 131072 + hi / 64)
    zeroMap := sclear s.zeroMap (core * 8192 + lo / 1024) (core * 8192 + (hi + 1023) / 1024) }

/-- A level barrier as the dispatcher initialises it (R78). -/
def levelBarrier (n : Nat) : Barrier := { Barrier.zero with active := true, init := BitVec.ofNat 16 n, arrive := BitVec.ofNat 16 n }

/-- The bytes of the image's spad section. -/
def spadSection (s : State) (l : Launch) : Except Stop (List Byte) :=
  match (contextOf s l.asid).bind fun c =>
      (c.images.find? fun i => i.addr == BitVec.ofNat 64 (recF l.raw 0 8)).bind fun i => i.sections.find? fun x => x.kind == 12 with
  | none => .ok []
  | some x => readExact s (hubParty l.asid (.launch l.id)) .read (.va (BitVec.ofNat 64 (recF l.raw 0 8 + x.off))) x.bytes

/-- The jobs of a launch put on their places, k being the number of the next one. -/
def placeFrom (l : Launch) (first : Nat) (bars : List ((Nat × Nat) × BarId)) (data : List Byte) : Nat → List Seat → State → State
  | _, [], s => s
  | k, p :: r, s =>
    let hi := p.spbase + regionBytes l.raw
    let s := clearRegion s p.core p.spbase hi
    let s := putBytes s (.spad p.core) p.spbase data
    let s := (placeAllBars p).foldl (fun s b => putBar s b Barrier.zero) s
    let j := newJob l (first + k) k p (jobLevelBars l bars k) (partnerId l first k)
    placeFrom l first bars data (k + 1) r { s with jobs := insertJob j s.jobs }

/-- The bytes of each place. -/
def seatRegions (l : Launch) (places : List Seat) : List (Nat × Nat × Nat) :=
  places.map fun p => (p.core, p.spbase, p.spbase + regionBytes l.raw)

/-- The launch to be placed next is placed whole (R85, R88), where the places are right. Gated banks of its regions are woken first, and the
launch is placed once they are awake (10_scratchpad.md R244). Where its spad section cannot be read the fault is
reported, and the launch is not placed yet (log entry 18). -/
def execLaunchPlace (places : List Seat) (s : State) : Result :=
  .next <|
    match nextPlaced s with
    | none => s
    | some l =>
      let d := demandOf l.raw
      let p := hubParty l.asid (.launch l.id)
      if hubWaiting s p then s
      else if places.length = l.jobs && seatsOk s d [] places && groupsOk l places && ownBarsOk s l.raw places then
        if (seatRegions l places).any fun r => !regionAwake s r.1 r.2.1 r.2.2 then
          (seatRegions l places).foldl (fun s r => wakeRegion s r.1 r.2.1 r.2.2) s
        else
        match levelBarsFrom places l.counts l.raw (levelGroups l) (places.flatMap placeAllBars ++ barsTaken s), spadSection s l with
        | some bars, .ok data =>
          let s := takeReplies s p.unit
          let x := queueOf s l.queue
          let s := putQueue s l.queue { x with entries := x.entries.filter (· != l.id) }
          let s := bars.foldl (fun s b => putBar s b.2 (levelBarrier (groupJobs l.counts b.1.1))) s
          let s := placeFrom l s.nextJob bars data 0 places s
          updLaunch { s with nextJob := s.nextJob + l.jobs } l.id fun l => { l with placed := true }
        | some _, .error e => match hubStop s p .read e with | .later t | .failed t => t
        | none, _ => s
      else s

/-- Every job of the group is resident: all streams start in one clock (R73). -/
def execJobStart (launch : Nat) (s : State) : Result :=
  .next <|
    match findLaunch s launch with
    | none => s
    | some l =>
      if l.placed && !l.started then
        updLaunch (mapJobs s fun j => if j.launch = launch && j.st == .placed then { j with st := .running } else j) launch
          fun l => { l with started := true }
      else s

/-! ### Completion (R89) -/

/-- The writes of a completion: the status, and the flag of CACT. -/
def statusWrite (l : Launch) : List (Word × List Byte) :=
  let a := recF l.raw 88 8
  if a = 0 then [] else [(BitVec.ofNat 64 a, launchStatus l.retired l.skipped l.refs 0)]
def flagWrite (l : Launch) : List (Word × List Byte) :=
  if recF l.raw 82 1 / 2 = 1 then [(BitVec.ofNat 64 (recF l.raw 64 8), leBytes 8 (recF l.raw 72 8))] else []

/-- A graph node whose work is over (R100): it completes by GRAPH_NODE_COMPLETE. -/
def nodeDone (s : State) (n : NodeRef) : State :=
  { s with graphs := s.graphs.map fun x =>
      if x.asid = n.asid && x.num = n.g && x.gen = n.gen && x.running then
        { x with nodes := x.nodes.modify n.node fun y => if y.running then { y with done := true } else y }
      else x }

/-- The launcher is told. -/
def tellSource (s : State) : Source → State
  | .graph n => nodeDone s n
  | _ => s

/-- An unanswered message of a launch. -/
def messageOf (launch : Nat) (o : Out) : Bool :=
  o.unit == .launch launch && match o.req.op with | .launch .. => true | _ => false

/-- Every job has retired, and every peer has answered: the status, the arrival, the flag. -/
def execLaunchCompletion (launch : Nat) (s : State) : Result :=
  .next <|
    match findLaunch s launch with
    | none => s
    | some l =>
      if !l.started || l.retired != l.jobs || s.outs.any (messageOf launch) then s
      else
        let p := hubParty l.asid (.launch launch)
        let arrive := fun (t : State) =>
          match l.csync with
          | none => some t
          | some b => (barEvent t b (.arrive 1)).map fun t => barPaid t b
        match hubWrites s p (statusWrite l) s with
        | .error s => s
        | .ok t =>
          match arrive t with
          | none => s
          | some t =>
            match hubWrites s p (flagWrite l) t with
            | .error s => s
            | .ok t => tellSource (takeReplies { t with launches := t.launches.filter fun x => x.id != launch } p.unit) l.source

end Sys2Proof.Machine
end

