-- ==== Sys2Proof/Machine/Streams.lean ====
section
/-! DEFINITION. Starting, joining and retiring streams (04_jobs.md R75, R76, R93 to R97), the trap instructions (15_traps.md R322 to
R328), and the firing of tubs (11_sync.md R260). -/

namespace Sys2Proof.Machine

/-! ### STRT (04_jobs.md R93) -/

/-- The entry offsets of the engines of a list, read from the PC vector. -/
def readPcs (s : State) (ea : Word) : List Engine → Except Stop (List (Engine × Nat))
  | [] => .ok []
  | e :: r =>
    match ctlRecord s (ea + BitVec.ofNat 64 (4 * engineNum e)) 4, readPcs s ea r with
    | .error x, _ | _, .error x => .error x
    | .ok b, .ok l => .ok ((e, leNat b) :: l)

/-- The offset is no entry of the engine's section. -/
def entryBad (s : State) (e : Engine) (v : Nat) : Bool :=
  v % 4 != 0 ||
    match sectionOf s s.job (streamKind e) with
    | some x => v < x.off || x.off + x.bytes ≤ v
    | none => true

/-- A stopped stream restarts at an entry. -/
def EngStream.restart (x : EngStream) (rendezvous pc : Nat) : EngStream :=
  { x with pc, stopped := false, frames := [], wait := .ready, arrivals := max x.arrivals rendezvous }

/-- The stream is stopped and its issued operations have completed. -/
def EngStream.quiet (x : EngStream) : Bool := x.stopped && !x.pipe.any PipeItem.isOp

/-- The engines of a list are restarted in turn, each once its stream is stopped and its operations have completed. -/
def restartEngines (s : State) : List (Engine × Nat) → State
  | [] => advance s
  | (e, pc) :: r =>
    if (s.job.eng e).quiet then restartEngines { s with job := s.job.updEng e fun x => x.restart s.job.rendezvous pc } r
    else hold s (.starting ((e, pc) :: r))

/-- STRT reads and checks its PC vector once. -/
def execStrt (m : EngMask) (a : Reg) (s : State) : Result :=
  let ea := getX s a
  .next <|
    if bits ea 0 4 != 0 then raise s .misaligned ea
    else
      let s := drainLoad s 0 (.va ea) 16
      withAccess s (readPcs s ea (Machine.EngMask.engines m)) fun l =>
        match l.find? fun q => entryBad s q.1 q.2 with
        | some q => raise (takeReplies s (.ctl s.job.id)) .queueMisuse (BitVec.ofNat 64 q.2)
        | none => restartEngines (drain (takeReplies s (.ctl s.job.id))) l

/-! ### Rendezvous and retirement (R75, R76, R94) -/

/-- The control stream's arrival; it goes on when the rendezvous completes. -/
def execJoin (s : State) : Result :=
  let s := drain s
  .next { s with job := { s.job with arrivals := s.job.arrivals + 1, wait := .joined } }

/-- An operation, or an arrival of BAV that has not yet been made (11_sync.md R253). -/
def PipeItem.isWork : PipeItem → Bool
  | .bav .. => true
  | q => q.isOp

/-- Every stream has made its next arrival, and every operation issued before has completed. -/
def Job.met (j : Job) : Bool :=
  j.wait == .joined && j.rendezvous < j.arrivals &&
    engines.all fun e => ((j.eng e).stopped || j.rendezvous < (j.eng e).arrivals) && !(j.eng e).pipe.any PipeItem.isWork

/-- The rendezvous completes: final if all four engine streams are stopped. -/
def Job.meet (j : Job) : Job :=
  let n := j.rendezvous + 1
  let final := engines.all fun e => (j.eng e).stopped
  let j := engines.foldl (fun j e => j.updEng e fun x => { x with arrivals := max x.arrivals n }) j
  if final then { j with rendezvous := n, retiring := true } else { j with rendezvous := n, pc := j.pc + 4, wait := .ready }

def execRendezvousComplete (job : Nat) (s : State) : Result :=
  .next (match findJob s job with
    | some j => if j.st == .running && j.met then putJob s j.meet else s
    | none => s)

/-- A firing of a memory tub that has not yet arrived on one of the barriers. -/
def arrivesOn (l : List BarId) (t : Tub) : Bool :=
  t.fires.any fun a => match a with | .arrive b _ => l.contains b | _ => false

/-- The work that retirement waits for is done (R76): operations and the arrivals in their order, index blocks, records that are walked or still
to be fetched (12_copy_index.md R262, R281), fabric requests, and tub firings, those of memory tubs on the job's barriers among them (11_sync.md R261). -/
def mayRetire (s : State) (j : Job) : Bool :=
  j.st == .running && j.retiring && j.wait == .joined && j.arrivals ≤ j.rendezvous && j.index.isEmpty &&
    engines.all (fun e => !(j.eng e).pipe.any PipeItem.isWork) &&
    !s.chans.any (fun c => c.job == j.id && (c.st == .fetch || c.st == .walking || c.st == .finishing)) && j.tubs.all (fun t => t.2.fires.isEmpty) &&
    !s.tubs.any (fun t => arrivesOn j.barriers t.2.2) &&
    !s.outs.any fun o => o.st == .waiting &&
      match o.unit with
      | .ctl k | .eng k _ | .words k _ | .index k _ => k == j.id
      | .chan c n => s.chans.any fun x => x.core == c && x.n == n && x.job == j.id
      | _ => false

/-- The barriers that no other job holds are freed; one that still owes events stays, as an orphan (11_sync.md R261). -/
def freeBars (s : State) (job : Nat) : List BarId → State
  | [] => s
  | b :: r =>
    let s :=
      if (allJobs s).any fun k => k.id != job && k.barriers.contains b then s
      else if (barOf s b).owed = 0 then { s with barriers := s.barriers.filter fun e => e.1 != b }
      else putBar s b { barOf s b with orphan := true }
    freeBars s job r

/-- Memory tubs whose action arrives on one of the barriers are disarmed (R261). -/
def disarmTubs (s : State) (l : List BarId) : State :=
  { s with tubs := s.tubs.map fun (d, k, t) =>
      (d, k, match t.act with
        | .arrive b _ => if l.contains b then { t with armed := false } else t
        | _ => t) }

/-- Requests and responses of units that are gone have no party left. -/
def orphanUnits (s : State) (gone : Unit → Bool) : State :=
  { s with
    outs := s.outs.map fun o => if gone o.unit then { o with unit := .gone } else o
    rbuf := s.rbuf.filter fun r => !gone r.unit
    hubWaits := s.hubWaits.filter fun w => !gone w.unit }

/-- A unit of a job. -/
def unitOfJob (s : State) (job : Nat) : Unit → Bool
  | .ctl j | .eng j _ | .words j _ | .index j _ => j == job
  | .chan c n => s.chans.any fun x => x.core == c && x.n == n && x.job == job
  | .tub (.spad j _) => j == job
  | _ => false

/-- The job retires: its accesses are released, what other jobs have pending for its scratchpad performs before it goes, its registers,
barriers, tubs, slots and spool are freed, its channels are unbound and the messages between the partners are discarded
(05_control_core.md R129). -/
def retire (s : State) (j : Job) : State :=
  let s := orphanUnits (settleInto s j.id) (unitOfJob s j.id)
  let s := disarmTubs { s with chans := s.chans.filter fun c => c.job != j.id } j.barriers
  let s := freeBars s j.id j.barriers
  let s := updJob s j.partner fun p => { p with inbox := [], partner := 0 }
  gateLeft (updLaunch (dropJob s j.id) j.launch fun l => { l with retired := l.retired + 1 })

def execJobRetire (job : Nat) (s : State) : Result :=
  .next (match findJob s job with
    | some j => if mayRetire s j then retire (drain (focus job s)) j else s
    | none => s)

/-! ### YIELD (R97) -/

/-- A wait on a queue, mailbox, barrier, rendezvous or WAITA. -/
def CtlWait.ends : CtlWait → Bool
  | .dstall | .qstall _ | .handing .. | .enqueueing | .submitting .. | .mailbox | .barrier .. | .passed | .joined | .waita .. => true
  | _ => false

/-- The other control core of the job's core holds a job, and its stream is not blocked. -/
def otherRuns (s : State) (j : Job) : Bool := (jobsOn s j.core).any fun k => k.id != j.id && k.resident && !k.wait.ends

def execYield (s : State) : Result := .next (if otherRuns s s.job then hold s (.yielding s.clock) else advance s)

/-- YIELD ends: 256 clocks have passed, or the other control stream waits. -/
def execYieldTimeout (job : Nat) (s : State) : Result :=
  .next (match findJob s job with
    | some j =>
      match j.wait with
      | .yielding t0 => if j.st == .running && (256 ≤ s.clock - t0 || !otherRuns s j) then advance (focus job s) else s
      | _ => s
    | none => s)

/-! ### Trap instructions (15_traps.md R324 to R328) -/

/-- TRAP: ERET goes on after it. -/
def execTrap (i : BitVec 14) (s : State) : Result := .next (raiseAt s .brk (i.setWidth 64) (s.job.pc + 4))

def execTfence (s : State) : Result :=
  .next <|
    if s.job.fenced then
      let s := drain s
      let v := s.job.flags &&& s.job.fmask
      if v != 0 then raiseAt s .arith (v.setWidth 64) (s.job.pc + 4) else advance s
    else hold s .fence

/-- The words of ERET and ESC, for TVAL. -/
def eretWord : Word := 0xC4000000
def escWord : Word := 0xC6000000

/-- An engine goes on where it has stopped: at the word, or at its operation. -/
def EngStream.resumeTrap (x : EngStream) (word : Bool) (h : Halt) : EngStream :=
  if word then { x with halt := if x.halt == h then .going else x.halt }
  else { x with opHalt := if x.opHalt == h then .going else x.opHalt }

/-- Restart a job's channel that has stopped. -/
def restartBound (s : State) (job n : Nat) (h : Halt) : State :=
  match boundChan s job n with
  | some c => if c.halt == h then restartChan s c.core c.n else s
  | none => s

/-- Restart the unit of a job that a STREAM code names, an engine at its word or at its operation, where it has stopped with h (R327,
06_registers.md R162, 08_vector.md R204, 09_matrix.md R226, 12_copy_index.md R281, R287, 16_fabric.md R357). -/
def restartUnit (s : State) (job : Nat) (code : Nat) (sib : Bool) (h : Halt) (word : Bool := false)
    (slot : Option Nat := none) : State :=
  if code = 0 then s
  else if code ≤ 4 then updJob s job fun j => j.updEng (engineAt (code - 1)) fun x => x.resumeTrap word h
  else if code ≤ 12 then restartBound s job (code - 5) h
  else if code = 13 then
    updJob s job fun j => { j with index := j.index.map fun e =>
      if e.halt == h && e.sib == sib then { e with halt := .going, wait := false } else e }
  else if code = 15 then restartSlot s job slot h
  else s

/-- The firing of a job's scratchpad tub that has stopped is performed again (R336). -/
def restartTub (s : State) (job : Nat) : Option Nat → State
  | none => s
  | some k => putTub s (.spad job k) { tubOf s (.spad job k) with halted := false }

/-- The effect of ERET at TPC: the unit restarts, and the handler returns. An access of the control stream that has failed is made again only
by the instruction at its PC (16_fabric.md R346). -/
def eretEffect (s : State) : State :=
  let id := s.job.id
  let tpc := s.job.tpc
  let s := restartUnit s id s.job.tstream.toNat s.job.tsib .trapped s.job.tword s.job.tslot
  let s := if s.job.tstream = 14 then restartTub s id s.job.ttub else s
  returnFromTrap (passOuts s (.ctl id) (· != tpc))

def execEret (s : State) : Result :=
  .next <|
    if !s.job.hnd then raise s .illegalInstr eretWord
    else if bits s.job.tpc 0 2 != 0 then raise s .misaligned s.job.tpc
    else eretEffect (drain s)

def execEsc (s : State) : Result :=
  .next (if !s.job.hnd then raise s .illegalInstr escWord else escalate s .escalated (s.job.tcause.setWidth 64))

/-- The control stream stands at an instruction boundary, or at a waiting instruction, which it may abandon: an access of another instruction
is made first, and a DARN with a context of a Darn unit ends first (05_control_core.md R133, 17_generation.md R369), but not an access that
waits at the watermark of a channel that has stopped (log entry 35); and it waits neither for Dvorol nor for a held write. A TFENCE whose
operations have all ended or stopped ends its wait first (R326; log entry 55). -/
def atBoundary (s : State) (j : Job) : Bool :=
  !j.darn.any DarnRun.holds &&
    match j.wait with
    | .ready => !midAccess s (.ctl j.id)
    | .stalled m => markStopped s j.id m
    | .dvorol .. | .held => false
    | .fence => !j.fenced
    | _ => true

def execTrapDivert (job : Nat) (s : State) : Result :=
  .next (match findJob s job with
    | some j =>
      if j.st == .running && !j.hnd && !j.pending.isEmpty && atBoundary s j then
        divertIfPending (focus job s)
      else s
    | none => s)

/-! ### Tub firings (11_sync.md R260, 04_jobs.md R84) -/

/-- The oldest firing of a tub has been performed; parked: its enqueue waits for room. -/
def tubPop (s : State) (t : TubId) (parked : Bool) : State :=
  let x := tubOf s t
  putTub s t { x with fires := x.fires.drop 1, fired := x.fired + 1, waitq := x.waitq || parked }

/-- An access of a firing has stopped. While the job of a scratchpad tub is absent the fault goes to its fault log and the firing waits for
its restart (15_traps.md R336); else it goes to the supervisor. The tub stays armed. -/
def tubStop (t : TubId) (s : State) (p : Party) (acc : Access) (x : Stop) : HubStop :=
  let away := match t with
    | .spad j k => ((findJob s j).filter Job.away).map fun j => (j, k)
    | .mem .. => none
  match away with
  | none => hubStop s p acc x
  | some (j, k) =>
    match unitVerdict s j.id p x with
    | .trap s c v =>
      let s := unitFault s j.id { cause := c, val := v, prog := 0, stream := 14, sib := false, orig := 0, pc := 0, tub := some k }
        (stopRec s p x)
      .later (putTub s t { tubOf s t with halted := true })
    | .again s => .later s
    | .held s => .later (hubWait s p x.va false)
    | .dvorol s v => .later (tellContext (hubWait s p v true) p.asid 4 Cause.pteInvalid.code v)

/-- The enqueue of a firing waits for room. -/
def enqueueWaits (s : State) (t : TubId) (q : Nat) : Bool :=
  (queueOf s q).waiting.any fun l => l.source == .tub t

/-- The oldest firing of a tub is performed. -/
def fireTub (s : State) (t : TubId) (asid : BitVec 16) : TubAct → State
  | .none => tubPop s t false
  | .arrive b c =>
    match barEvent s b (.arrive c) with
    | none => s
    | some s => tubPop s t false
  | .launch addr q =>
    match enqueueFor s asid addr q (.tub t) (.tub t) (tubStop t) with
    | .later s => s
    | .failed s => tubPop s t false
    | .done s => tubPop s t (enqueueWaits s t q)
    | .refused s code st =>
      match tellRefusal s asid addr code st (.tub t) with
      | .error s => s
      | .ok s => tubPop s t false
  | .flag addr v =>
    let p := hubParty asid (.tub t)
    match writeBytes s p (.va addr) (toBytes v) with
    | .ok s => tubPop (takeReplies s p.unit) t false
    | .error e =>
      match tubStop t s p .write e with
      | .later s => s
      | .failed s => tubPop s t false

/-- The oldest firing of a tub is performed, unless it has stopped at a fault or waits at an access. While an enqueue of the tub waits, one
further firing is kept and the others are reported as TUB_MISUSE, with the value 0 (DESIGN CHOICE, log entry 66). -/
def fireOldest (t : TubId) (s : State) : State :=
  let x := tubOf s t
  if x.halted || hubWaiting s (hubParty x.asid (.tub t)) then s
  else
    match x.fires with
    | [] => s
    | a :: r =>
      let isLaunch := match a with | .launch .. => true | _ => false
      if x.waitq && isLaunch then
        if r.isEmpty then s
        else
          tellContext (logErr (putTub s t { x with fires := [a] }) (.tubMisuse t)) x.asid 5 Cause.tubMisuse.code 0
      else fireTub s t x.asid a

def execTubFire (t : TubId) (s : State) : Result := .next (fireOldest t s)

end Sys2Proof.Machine
end

