-- ==== Sys2Proof/Machine/Host.lean ====
section
/-! DEFINITION. The host interface: registers, queues, rings and the Dvorol commands on contexts, pages, images, launches and the device
(18_host.md R375 to R389, 13_memory.md R289, R300 to R302, 03_encodings.md R66). The ARGS of a command have no layout in the spec:
what they ask for is Config.commandOf (log entry 8). -/

namespace Sys2Proof.Machine

/-! ### Registers of BAR0 (R376) -/

/-- Part identity (R376). -/
def identWord : Word := 0x09604958

/-- BOOTSTAT (R376): the last bring-up step completed, the patch table's bits, the failing step. -/
def bootStat (s : State) : Word :=
  BitVec.ofNat 64 (s.bootStep % 16 + (if s.patchApplied then 16 else 0) + (if s.patchRejected then 32 else 0) + s.bootFail % 256 * 256)

/-- What a host read of the register at an offset of BAR0 returns: unlisted offsets, and the write-only QNOTIFY, read as zero. -/
def readReg (s : State) (off : Nat) : Word :=
  if off = 0 then identWord
  else if off = 8 then bootStat s
  else if 0x10000 ≤ off && off < 0x10000 + 32 * 64 then
    let x := hqueueOf s ((off - 0x10000) / 32)
    match (off - 0x10000) % 32 with
    | 0 => x.base
    | 8 => x.size
    | 16 => x.state
    | 24 => x.next
    | _ => 0
  else if 0x30000 ≤ off && off < 0x30000 + 64 * 256 then
    let r := ringOf s ((off - 0x30000) / 64)
    match (off - 0x30000) % 64 with
    | 0 => r.base
    | 8 => r.size
    | 16 => r.tailA
    | 24 => r.head
    | 32 => r.vec
    | 40 => r.coal
    | 48 => r.state
    | _ => 0
  else 0

/-- The host reads a register. -/
def regRead (s : State) (off : Nat) : State := { s with hostRead := readReg s off }

/-- The writable bits of a register. -/
def rw (v : Word) (m : Nat) : Word := v &&& BitVec.ofNat 64 m

/-- A queue starts again at QNEXT: 1 is written to its QSTATE. -/
def restartQueue (s : State) (q : Nat) : State := putHqueue s q { hqueueOf s q with state := 1, tries := 0 }

/-- The RW registers of queues and rings; other offsets ignore a write. A ring's head is written by RHEAD_WRITE. A value that the table does not
list is kept as it is written and used so: QSTATE 3, a log2 size outside its range, an unaligned base or tail address. The tail index of a ring that is
stopped and started again goes on (DESIGN CHOICE, log entry 67). -/
def execRegisterWrite (off : Nat) (v : Word) (s : State) : Result :=
  .next <|
    if 0x10000 ≤ off && off < 0x10000 + 32 * 64 then
      let q := (off - 0x10000) / 32
      let x := hqueueOf s q
      match (off - 0x10000) % 32 with
      | 0 => putHqueue s q { x with base := v }
      | 8 => putHqueue s q { x with size := rw v 0xFF1F }
      | 16 => if rw v 3 = 1 then restartQueue s q else putHqueue s q { x with state := rw v 3 }
      | _ => s
    else if 0x30000 ≤ off && off < 0x30000 + 64 * 256 then
      let k := (off - 0x30000) / 64
      let r := ringOf s k
      let put := fun r => { s with hrings := assign s.hrings k r }
      match (off - 0x30000) % 64 with
      | 0 => put { r with base := v }
      | 8 => put { r with size := rw v 0x1F }
      | 16 => put { r with tailA := v }
      | 32 => ringSignal (put { r with vec := rw v 0x87FF }) k
      | 40 => ringSignal (put { r with coal := rw v 0xFFFF07FF }) k
      | 48 => ringFlush (r.waiting.length + 1) (put { r with state := rw v 1 }) k
      | _ => s
    else s

/-! ### Command queues (R377, R378) -/

/-- The clocks of a microsecond (00_scope.md R1). -/
def usClocks : Nat := 1500

/-- A command of the set (R381). -/
def knownCmd (op : Nat) : Bool := 1 ≤ op && op ≤ 12

/-- A command may start: ORDER waits for the command before it. One that has started and waits for an invalidation, or for its launch to find
room in a queue, is not taken up again (13_memory.md R301, 04_jobs.md R84). -/
def Cmd.mayStart (s : State) (c : Cmd) : Bool :=
  !(s.queues.toList.any fun x => x.waiting.any fun l => l.source == .host c.queue c.stamp) && !(s.works.any fun w => w.queue == c.queue && w.stamp == c.stamp) &&
    !(c.order && s.cmds.any fun d => d.queue == c.queue && d.stamp + 1 == c.stamp)

/-- One fetch of the next command of a queue (R378): it is taken up once its stamp is there. An unknown opcode or a reserved flag
completes with status 1, where ORDER lets the command start now, else in its turn (R377). A fetch counts that is one of the first 64 and comes
within 100 µs of the first; without the stamp in these the queue stops, and the host is told. -/
def fetchCmd (s : State) (q : Nat) : State :=
  let x := hqueueOf s q
  if x.state != 1 || x.highest.toNat < x.next.toNat then s
  else
    let n := x.next
    let a := x.base.toNat + 128 * (n.toNat % x.slots)
    let f := fun k m => leNat (getBytes s .host (a + k) m)
    let first := if x.tries = 0 then s.clock else x.first
    let late := 100 * usClocks < s.clock - first
    if f 120 8 = n.toNat && !late then
      let c : Cmd :=
        { queue := q, opcode := f 0 2, order := f 2 2 % 2 = 1, tag := BitVec.ofNat 32 (f 4 4), stamp := n
          args := getBytes s .host (a + 8) 112, bad := !knownCmd (f 0 2) || 2 ≤ f 2 2 }
      let t := putHqueue { s with cmds := s.cmds ++ [c] } q { x with next := n + 1, tries := 0 }
      if c.bad && c.mayStart t then complete t c 1 [] else t
    else if late || 64 ≤ x.tries + 1 then
      let (e, t) := freeBytes 8 (putHqueue s q { x with state := 2, tries := 0 })
      ringPost t x.ring (ofBytes 512 (leBytes 1 3 ++ (e.drop 1).take 7 ++ toBytes n ++ e.drop 16))
    else putHqueue s q { x with tries := x.tries + 1, first }

/-- Every command that can be fetched now, and then one fetch more; n bounds them. -/
def fetchAll (q : Nat) : Nat → State → State
  | 0, s => s
  | n + 1, s =>
    let t := fetchCmd s q
    if (hqueueOf t q).next = (hqueueOf s q).next then t else fetchAll q n t

/-- A notify write; it is ignored where the queue is not running, and where its stamp is below QNEXT. -/
def execQnotify (q : Fin 64) (v : Word) (s : State) : Result :=
  .next <|
    let x := hqueueOf s q
    if x.state != 1 || v.toNat < x.next.toNat then s
    else
      let h := if x.highest.toNat < v.toNat then v else x.highest
      fetchAll q (h.toNat - x.next.toNat + 2) (putHqueue s q { x with highest := h })

/-- Writing 1 to QSTATE starts the queue again at QNEXT. -/
def execQstateWrite (q : Fin 64) (s : State) : Result := .next (restartQueue s q)

/-- The command that Dvorol carries out now, where it has this opcode and may start. -/
def nextCmd (s : State) (op : Nat) : Option Cmd :=
  s.curCmd.bind fun k => s.cmds.find? fun c => c.queue == k.1 && c.stamp == k.2 && c.opcode == op && c.mayStart s

/-- What a command does: a status with its result, or nothing yet. -/
inductive CmdEnd where
  | done (s : State) (status : Nat) (result : List Byte)
  | later (s : State)

/-- Execute a command of an opcode; nothing happens where none is carried out. -/
def command (op : Nat) (k : State → CmdEnd) (s : State) : Result :=
  .next <|
    match nextCmd s op with
    | none => s
    | some c =>
      match k s with
      | .done s st r => complete s c st r
      | .later s => s

/-- The same for what Dvorol may also do of its own accord. -/
def commandOr (op : Nat) (k : State → CmdEnd) (s : State) : Result :=
  .next <|
    match nextCmd s op, k s with
    | some c, .done s st r => complete s c st r
    | none, .done s _ _ => s
    | _, .later s => s

/-! ### Rings (R379, R380) -/

/-- The host has consumed entries: writers that wait go on. -/
def execRheadWrite (k : Fin 256) (v : Word) (s : State) : Result :=
  .next <|
    let r := ringOf s k
    if r.state != 1 then s else ringFlush (r.waiting.length + 1) { s with hrings := assign s.hrings k.val { r with head := v } } k

/-- T µs have passed since the first entry not yet signalled. -/
def execRingCoalesceTimeout (k : Fin 256) (s : State) : Result :=
  .next <|
    let r := ringOf s k
    if bitAt r.vec 15 && r.unsig != 0 && max 1 (bits r.coal 16 16).toNat * usClocks ≤ s.clock - r.first then
      { s with hrings := assign s.hrings k.val { r with unsig := 0 }, interrupts := s.interrupts ++ [(k.val, (bits r.vec 0 11).toNat)] }
    else s

/-! ### Contexts (13_memory.md R289) -/

/-- The arguments of a new context are in range. -/
def ctxArgsOk (s : State) (c : CtxArgs) : Bool :=
  c.asid != 0 && (contextOf s c.asid).isNone && c.root % 4096 == 0 && c.root + 4096 ≤ tierBytes s c.rootDdr && c.queues.all (· < 16) &&
    c.dbars.length ≤ 128 && c.dbars.all (fun d => d.1 < Config.dies && d.2 < 256) && c.gbars.length ≤ 64 && c.gbars.all (· < 64) &&
    c.tubs.length ≤ 128 && c.tubs.all (fun t => t.1 < Config.dies && t.2 < 4096) && c.ring < 256

/-- Barriers and memory tubs of a new context's tables that are in use. -/
def ctxTaken (s : State) (c : CtxArgs) : Bool :=
  let bars := c.dbars.map (fun d => BarId.die d.1 d.2) ++ c.gbars.map .device
  bars.any (fun b => (barsTaken s).contains b) || c.tubs.any fun t => s.contexts.any fun x => x.args.tubs.contains t

/-- A context is created; Dvorol sets the classes of launch queues (04_jobs.md R83). -/
def execContextCreate (c : CtxArgs) (s : State) : Result :=
  command 1 (fun s =>
    if !ctxArgsOk s c then .done s 1 []
    else if ctxTaken s c then .done s 2 []
    else
      .done { s with
        contexts := s.contexts ++ [{ args := c, images := [] }]
        queues := Vector.ofFn fun q =>
          { s.queues[q] with cls := ((c.classes.find? fun x => x.1 == q).map fun x => x.2.val).getD s.queues[q].cls } } 0 []) s

/-- A unit that belongs to a context. -/
def unitOfCtx (s : State) (asid : BitVec 16) (u : Unit) : Bool :=
  let job := fun id => match findJob s id with | some j => j.asid == asid | none => false
  match u with
  | .ctl j | .eng j _ | .words j _ | .index j _ => job j
  | .chan c n => match chanOf s c n with | some x => chanAsid s x == asid | none => false
  | .wringer id => s.slots.any fun x => x.id == id && x.asid == asid
  | .hub | .gone => false
  | .launch id => match findLaunch s id with | some l => l.asid == asid | none => false
  | .tub t => (tubOf s t).asid == asid
  | .node n => n.asid == asid

/-- The end of a context: its jobs, launches, graphs, channels, tubs, barriers, collectives and translations are gone, and in power state 2 the
banks that its jobs leave are gated (18_host.md R389). -/
def endContext (s : State) (asid : BitVec 16) : State :=
  let bars := ((allJobs s).filter fun j => j.asid == asid).flatMap Job.barriers ++
    (s.contexts.filter fun c => c.args.asid == asid).flatMap fun c => c.args.dbars.map (fun d => BarId.die d.1 d.2) ++ c.args.gbars.map .device
  let tubs := (s.contexts.filter fun c => c.args.asid == asid).flatMap fun c => c.args.tubs
  let s := orphanUnits s (unitOfCtx s asid)
  let ids := (s.launches.filter fun l => l.asid == asid).map Launch.id
  gateLeft { s with
    chans := s.chans.filter fun c => chanAsid s c != asid
    job := if s.job.asid == asid then Job.blank else s.job
    jobs := s.jobs.filter fun j => j.asid != asid
    queues := s.queues.map fun q =>
      { q with entries := q.entries.filter fun k => !ids.contains k, waiting := q.waiting.filter fun l => l.asid != asid }
    launches := s.launches.filter fun l => l.asid != asid
    graphs := s.graphs.filter fun g => g.asid != asid
    tubs := s.tubs.filter fun t => !tubs.contains (t.1, t.2.1)
    barriers := s.barriers.filter fun b => !bars.contains b.1
    slots := s.slots.filter fun x => x.asid != asid
    parts := s.parts.filter fun x => x.asid != asid
    submits := s.submits.filter fun x => x.1.1 != asid
    tlb := s.tlb.filter fun t => t.asid != asid
    oldPtes := s.oldPtes.filter fun e => e.asid != asid
    works := s.works.filter fun w => w.asid != asid
    hubWaits := s.hubWaits.filter fun w => w.asid != asid
    contexts := s.contexts.filter fun c => c.args.asid != asid }

/-- Do k for a context that exists, or complete with status 3. -/
def withCtx (s : State) (asid : BitVec 16) (k : Context → CmdEnd) : CmdEnd :=
  match contextOf s asid with
  | none => .done s 3 []
  | some c => k c

def execContextDestroy (asid : BitVec 16) (s : State) : Result :=
  command 1 (fun s => withCtx s asid fun _ => .done (endContext s asid) 0 []) s

/-! ### Pages (13_memory.md R300 to R302) -/

/-- An engine stream stands at a held access. -/
def EngStream.isHeld (x : EngStream) : Bool := x.halt == .held || x.opHalt == .held

/-- A held engine stream goes on, with k invalidations behind it. -/
def EngStream.unhold (k : Nat) (x : EngStream) : EngStream :=
  { x with
    halt := if x.halt == .held then .going else x.halt, opHalt := if x.opHalt == .held then .going else x.opHalt
    fresh := if x.isHeld then k else x.fresh }

/-- A held block, or a held write of one that has stopped, goes on; a held block translates anew. -/
def IdxEntry.unhold (e : IdxEntry) : IdxEntry :=
  if e.halt == .held then { e with halt := .going, wait := false, old := none } else { e with wait := false }

/-- The same for a channel. -/
def Chan.unhold (c : Chan) : Chan :=
  if c.halt == .held then { c with halt := .going, wait := false, marker := none } else { c with wait := false }

/-- Held accesses of a context start afresh, under the entries that stand now (R302). -/
def restartHeld (s : State) (asid : BitVec 16) : State :=
  let s := mapJobs s fun j =>
    if j.asid = asid then
      { j with
        wait := if j.wait == .held then .ready else j.wait, marker := if j.wait == .held then none else j.marker
        ld := j.ld.unhold s.invs, mx := j.mx.unhold s.invs, vx := j.vx.unhold s.invs, st' := j.st'.unhold s.invs, index := j.index.map IdxEntry.unhold }
    else j
  { s with
    chans := s.chans.map fun c => if chanAsid s c == asid then c.unhold else c
    slots := s.slots.map fun x => if x.asid == asid && x.halt == .held then { x with halt := .going } else x
    hubWaits := s.hubWaits.filter fun w => w.asid != asid || w.dvorol }

/-- The addresses whose walk reads the entry at an address of a tier, from a table at base on whose first address is va; the entry itself may
be any. -/
def pteSpans (s : State) (ddr : Bool) (a : Nat) : List Nat → Bool → Nat → Nat → List (Nat × Nat)
  | [], _, _, _ => []
  | l :: r, d, base, va =>
    let n := if l = 0 then 32 else 512
    let size := 2 ^ levelShift l
    if d = ddr && base ≤ a && a < base + 8 * n then
      [(va + (a - base) / 8 * size, va + ((a - base) / 8 + 1) * size)]
    else
      ((if d then s.ddr else s.hbm).filter fun c => base ≤ c.1 && c.1 < base + 8 * n && (c.1 - base) % 8 == 0 && bitAt c.2 0).flatMap fun c =>
        let e : Word := ofBytes 64 (getBytes s (if d then .ddr else .hbm) c.1 8)
        if bitAt e 4 || tableBad s e l then [] else pteSpans s ddr a r (bitAt e 5) ((bits e 8 44).toNat * 256) (va + (c.1 - base) / 8 * size)

/-- The same for a context; of an entry that no walk reads as the tables stand, all addresses. -/
def pteSpan (s : State) (asid : BitVec 16) (ddr : Bool) (a : Nat) : List (Nat × Nat) :=
  match (contextOf s asid).map fun c => pteSpans s ddr a [4, 3, 2, 1, 0] c.args.rootDdr c.args.root 0 with
  | some (x :: l) => x :: l
  | _ => [(0, 2 ^ 57)]

/-- The parts of some ranges that the addresses from lo up to hi leave. -/
def cutSpans (lo hi : Nat) (l : List (Nat × Nat)) : List (Nat × Nat) :=
  l.flatMap fun x => [(x.1, min x.2 lo), (max x.1 hi, x.2)].filter fun y => y.1 < y.2

/-- A page-table entry written for a context. What Dvorol itself writes to HBM, here and in the page copy of a migration, counts towards no memory
tub (11_sync.md R256, R259; DESIGN CHOICE, log entry 67). The valid one that it replaces stays for the accesses ahead of a marker, of each address the
first of those written since an invalidation of it (R300). -/
def writePte (s : State) (asid : BitVec 16) (ddr : Bool) (a : Nat) (v : Word) : State :=
  let sp : Space := if ddr then .ddr else .hbm
  let old : Word := ofBytes 64 (getBytes s sp a 8)
  let kept := s.oldPtes.filter fun e => e.asid == asid && e.ddr == ddr && e.addr == a && e.mark.isNone
  let spans := if bitAt old 0 then kept.foldl (fun l e => cutSpans e.lo e.hi l) (pteSpan s asid ddr a) else []
  putBytes { s with oldPtes := s.oldPtes ++ spans.map fun x => { asid, ddr, addr := a, entry := old, lo := x.1, hi := x.2, mark := none } }
    sp a (toBytes v)

/-- The valid entries of a page table, each at a byte that is listed (log entry 2). -/
def tableEntries (s : State) (ddr : Bool) (base n : Nat) : List Word :=
  let cells := ((if ddr then s.ddr else s.hbm).filter fun c => base ≤ c.1 && c.1 < base + 8 * n && (c.1 - base) % 8 == 0 && bitAt c.2 0)
  cells.map fun c => ofBytes 64 (getBytes s (if ddr then .ddr else .hbm) c.1 8)

/-- The bytes of a tier that the leaf entries below a table map. -/
def mappedFrom (s : State) (tier : Nat) : List Nat → Bool → Nat → Nat
  | [], _, _ => 0
  | l :: r, ddr, base =>
    ((tableEntries s ddr base (if l = 0 then 32 else 512)).map fun e =>
      if !bitAt e 4 then (if tableBad s e l then 0 else mappedFrom s tier r (bitAt e 5) ((bits e 8 44).toNat * 256))
      else if leafBad s e l || (bits e 5 2).toNat != tier then 0
      else 2 ^ levelShift l).sum

/-- The bytes of HBM or DDR-5 that a context maps, against which its quota counts (R381; log entry 64). -/
def mappedBytes (s : State) (c : Context) (ddr : Bool) : Nat :=
  mappedFrom s (if ddr then 1 else 0) [4, 3, 2, 1, 0] c.args.rootDdr c.args.root

/-- The quota of a tier. -/
def Context.quota (c : Context) (ddr : Bool) : Nat := if ddr then c.args.quotaDdr else c.args.quotaHbm

/-- From s to t a context maps more of a tier, and more than its quota. -/
def overQuota (s t : State) (c : Context) : Bool :=
  [false, true].any fun d => decide (c.quota d < mappedBytes t c d) && decide (mappedBytes s c d < mappedBytes t c d)

/-- MAP writes page-table entries: (tier, address, entry); none where a quota forbids it. Every held access of the context starts
afresh then, for an entry may have been corrected or a page released (DESIGN CHOICE, log entry 63). -/
def execMapWrite (asid : BitVec 16) (entries : List (Bool × Nat × Word)) (s : State) : Result :=
  command 2 (fun s => withCtx s asid fun c =>
    let t := entries.foldl (fun s e => writePte s asid e.1 e.2.1 e.2.2) s
    if entries.any fun e => e.2.1 % 8 != 0 || tierBytes s e.1 < e.2.1 + 8 then .done s 1 []
    else if overQuota s t c then .done s 2 []
    else .done (restartHeld t asid) 0 []) s

/-- The markers of the k-th invalidation for the jobs and channels of a context (R300). A parked channel is behind its marker at once, and what is
restored after a suspension translates afresh (R301), but a block keeps its mapping also while its job is suspended. The INV entry of a queue
without a free entry waits for one (07_queues.md R163; DESIGN CHOICE, log entry 66). -/
def placeMarkers (s : State) (asid : BitVec 16) (k : Nat) : State :=
  let mark := fun (c : Chan) => if chanAsid s c == asid && c.st != .parked then { c with marker := some (c.marker.getD k) } else c
  let s := { s with chans := s.chans.map mark }
  mapJobs s fun j =>
    if j.asid = asid then
      let j : Job := { j with index := j.index.map fun e => if e.running then { e with old := some (e.old.getD k) } else e }
      if j.resident then { j.enqueueInv k with marker := some (j.marker.getD k) } else j
    else j

/-- Some unit of a context is ahead of the marker of one of the first k invalidations, and has not stopped as a held access (R301). -/
def anyAhead (s : State) (asid : BitVec 16) (k : Nat) : Bool :=
  let upto := fun (m : Option Nat) => m.any (· ≤ k)
  (allJobs s).any (fun j =>
    j.asid == asid &&
      ((upto j.marker && j.wait != .held) ||
        engines.any (fun e => (upto (j.eng e).ahead || upto (j.eng e).wordAhead) && !(j.eng e).isHeld) ||
        j.index.any fun e => e.running && upto e.old && e.halt != .held)) ||
    s.chans.any fun c => chanAsid s c == asid && upto c.marker && c.halt != .held

/-- Removed translations and replaced entries that no access can use any more are forgotten. -/
def cleanStale (s : State) : State :=
  { s with
    tlb := s.tlb.filter fun t => !t.stale || anyAhead s t.asid t.died
    oldPtes := s.oldPtes.filter fun e => e.mark.all fun k => anyAhead s e.asid k }

/-- An overwritten entry once the k-th invalidation has named the addresses from lo up to hi: those of it that the invalidation matches, a leaf
as a whole, and those that it leaves. -/
def OldPte.invalidated (e : OldPte) (lo hi k : Nat) : List OldPte :=
  if e.mark.isSome || hi ≤ e.lo || e.hi ≤ lo then [e]
  else if bitAt e.entry 4 then [{ e with mark := some k }]
  else
    { e with lo := max e.lo lo, hi := min e.hi hi, mark := some k } ::
      ([{ e with hi := lo }, { e with lo := hi }].filter fun x => x.lo < x.hi)

/-- Remove the entries of a context that overlap a range from every TLB, and place the markers. Stores already executed perform first. -/
def invalidate (s : State) (asid : BitVec 16) (lo hi : Nat) : State :=
  let hit := fun (t : TlbEntry) => t.asid == asid && t.base < hi && lo < t.base + 2 ^ t.bits
  let s := settleStores s
  let k := s.invs + 1
  let s := { s with
    invs := k
    tlb := s.tlb.map fun t => if hit t && !t.stale then { t with stale := true, died := k } else t
    oldPtes := s.oldPtes.flatMap fun e => if e.asid = asid then e.invalidated lo hi k else [e] }
  cleanStale (placeMarkers s asid k)

/-- A command whose invalidation has completed ends. -/
def endWork (s : State) (w : MapWork) (status : Nat) : State :=
  completeAt (cleanStale { s with works := s.works.filter (· != w) }) (w.queue, w.stamp) status

/-- A command begins to wait. -/
def startWork (s : State) (w : MapWork) : State := { s with works := s.works ++ [w] }

/-- MAP invalidates: the command completes when the invalidation is complete (R301). -/
def endInvalidate (s : State) (w : MapWork) : State := if anyAhead s w.asid w.inv then s else endWork s w 0

def execMapInvalidate (asid : BitVec 16) (lo hi : Nat) (s : State) : Result :=
  .next <|
    match nextCmd s 2 with
    | some c =>
      if (contextOf s asid).isNone then complete s c 3 []
      else
        let w : MapWork :=
          { queue := c.queue, stamp := c.stamp, asid, lo, hi, toDdr := false, pa := 0, step := 0, inv := s.invs + 1, entry := 0, size := 0 }
        endInvalidate (startWork (invalidate s asid lo hi) w) w
    | none =>
      match s.works.find? fun w => w.step == 0 && w.asid == asid && w.lo == lo && w.hi == hi with
      | some w => endInvalidate s w
      | none => s

/-- Tier, address and contents of the leaf entry of a page, with its level. -/
def leafSlotFrom (s : State) (va : Nat) : List Nat → Bool → Nat → Option (Bool × Nat × Word × Nat)
  | [], _, _ => none
  | l :: r, ddr, base =>
    let a := base + 8 * (va / 2 ^ levelShift l % (if l = 0 then 32 else 512))
    let e : Word := ofBytes 64 (getBytes s (if ddr then .ddr else .hbm) a 8)
    if !bitAt e 0 then none
    else if !bitAt e 4 then (if tableBad s e l then none else leafSlotFrom s va r (bitAt e 5) ((bits e 8 44).toNat * 256))
    else if leafBad s e l then none else some (ddr, a, e, l)

/-- The same in a context. -/
def leafSlot (s : State) (asid : BitVec 16) (va : Nat) : Option (Bool × Nat × Word × Nat) :=
  (contextOf s asid).bind fun c => leafSlotFrom s va [4, 3, 2, 1, 0] c.args.rootDdr c.args.root

/-- Copy a page with the poison of its lines. -/
def copyPage (s : State) (src dst : Space) (a b n : Nat) : State :=
  let s := putBytes s dst b (getBytes s src a n)
  (List.range (n / 64)).foldl (fun s k => setBad s dst (b + 64 * k) (lineBad s src (a + 64 * k))) s

/-- The place of a progress write follows the page that has moved: n bytes at a of a tier, to b of the other (R302). -/
def Pin.moved (fromDdr : Bool) (a b n : Nat) (p : Pin) : Pin :=
  match p with
  | .hbm x => if !fromDdr && a ≤ x && x < a + n then .ddr (x - a + b) else p
  | .ddr x => if fromDdr && a ≤ x && x < a + n then .hbm (x - a + b) else p
  | _ => p

/-- The places that the units of a context keep follow the page. -/
def movePins (s : State) (asid : BitVec 16) (f : Pin → Pin) : State :=
  let s := mapJobs s fun j =>
    if j.asid = asid then
      { j with
        index := j.index.map fun e => { e with pins := e.pins.map (Option.map f) }
        darn := j.darn.map fun r => { r with pin := r.pin.map f } }
    else j
  { s with chans := s.chans.map fun c => if chanAsid s c == asid then { c with pin := c.pin.map f } else c }

/-- The migration waits for its second invalidation. -/
def MapWork.second (w : MapWork) (s : State) : MapWork := { w with step := 2, inv := s.invs + 1 }

/-- The first invalidation of a migration is complete: the page is copied, its new entry written, and invalidated again (R302, steps 2
and 3). -/
def movePage (s : State) (w : MapWork) (ddr : Bool) (a : Nat) : State :=
  let n := w.size
  let e := w.entry
  let old := (bits e 16 36).toNat * 65536
  let was := bitAt e 5
  let s := copyPage s (if was then .ddr else .hbm) (if w.toDdr then .ddr else .hbm) old w.pa n
  let s := movePins s w.asid (Pin.moved was old w.pa n)
  let keep := e.toNat % 32 + (bits e 8 2).toNat * 256 + (if w.toDdr then 0 else (bits e 7 1).toNat * 128)
  let s := writePte s w.asid ddr a (BitVec.ofNat 64 (keep + (if w.toDdr then 32 else 0) + w.pa))
  let base := w.lo / n * n
  invalidate { s with works := s.works.map fun x => if x == w then w.second s else x } w.asid base (base + n)

/-- A request of another device that was held at the page goes where its bytes are now. -/
def MapWork.redirect (w : MapWork) (q : Request) : Request :=
  let old := (bits w.entry 16 36).toNat * 65536
  if bitAt w.entry 5 == q.ddr && old ≤ q.pa && q.pa < old + w.size then { q with pa := q.pa - old + w.pa, ddr := w.toDdr } else q

/-- The second is complete: every held access is restarted, the old page is free, and the command completes (steps 4 and 5). -/
def endMigrate (s : State) (w : MapWork) : State :=
  if anyAhead s w.asid w.inv then s
  else endWork (restartHeld { s with heldReqs := s.heldReqs.map w.redirect } w.asid) w 0

/-- A migration goes on once its invalidation is complete. -/
def goMigrate (s : State) (w : MapWork) : State :=
  if w.step = 2 then endMigrate s w
  else if anyAhead s w.asid w.inv then s
  else
    match leafSlot s w.asid w.lo with
    | none => endWork (restartHeld s w.asid) w 1
    | some (ddr, a, _, _) => endMigrate (movePage s w ddr a) (w.second s)

/-- A migration starts: what breaks it, with its status, or its entry with HOLD in place of W, invalidated (step 1). A page with a byte of an
armed memory tub is busy. -/
def startMigrate (s : State) (c : Cmd) (x : Context) (va : Nat) (toDdr : Bool) (pa : Nat) : State :=
  let asid := x.args.asid
  match leafSlot s asid va with
  | none => complete s c 1 []
  | some (ddr, a, e, l) =>
    let n := 2 ^ levelShift l
    let old := (bits e 16 36).toNat * 65536
    if bitAt e 6 || pa % n != 0 || tierBytes s toDdr < pa + n || bitAt e 5 == toDdr then complete s c 1 []
    else if !bitAt e 5 && s.tubs.any fun t => t.2.2.armed && t.2.2.hits old n != 0 then complete s c 4 []
    else if x.quota toDdr < mappedBytes s x toDdr + n then complete s c 2 []
    else
      let w : MapWork :=
        { queue := c.queue, stamp := c.stamp, asid, lo := va, hi := 0, toDdr, pa, step := 1, inv := s.invs + 1, entry := e, size := n }
      let base := va / n * n
      let held := BitVec.ofNat 64 (e.toNat % 4 + e.toNat / 8 % 128 * 8 + 1024 + e.toNat / 2048 * 2048)
      goMigrate (invalidate (startWork (writePte s asid ddr a (if bitAt e 10 then e else held)) w) asid base (base + n)) w

/-- MAP migrates a page between HBM and DDR-5 in the steps of R302. -/
def execMapMigrate (asid : BitVec 16) (va : Nat) (toDdr : Bool) (pa : Nat) (s : State) : Result :=
  .next <|
    match nextCmd s 2, contextOf s asid with
    | some c, some x => startMigrate s c x va toDdr pa
    | some c, none => complete s c 3 []
    | none, _ =>
      match s.works.find? fun w => w.step != 0 && w.asid == asid && w.lo == va && w.toDdr == toDdr && w.pa == pa with
      | some w => goMigrate s w
      | none => s

/-- BAR2 is a window onto device physical memory: HBM, and from 2 ^ 39 on DDR-5 (log entry 20). -/
def execMapPlaceBar2 (base : Nat) (s : State) : Result := command 2 (fun s => .done { s with bar2Base := base } 0 []) s

/-- The host's device memory behind a byte of BAR2. -/
def barByte (s : State) (off : Nat) : Byte :=
  let a := s.bar2Base + off
  if 2 ^ s.bar2Log ≤ off then 0
  else if a < Config.hbmBytes then getByte s .hbm a
  else if a - Config.hbmBytes < s.ddrBytes then getByte s .ddr (a - Config.hbmBytes)
  else 0

/-- The host reads a byte through BAR2, and sets its size to 2 ^ log bytes, 1 GiB to 512 GiB (R375). -/
def barRead (s : State) (off : Nat) : State := { s with hostRead := (barByte s off).setWidth 64 }
def barSize (s : State) (log : Nat) : State := if 30 ≤ log && log ≤ 39 then { s with bar2Log := log } else s

/-- The place in device memory of a run of n bytes that lies in one line of the BAR2 window. -/
def barPlace (s : State) (off n : Nat) : Option (Space × Nat) :=
  let a := s.bar2Base + off
  if 2 ^ s.bar2Log < off + n then none
  else if a < Config.hbmBytes then some (.hbm, a)
  else if a - Config.hbmBytes < s.ddrBytes then some (.ddr, a - Config.hbmBytes)
  else none

/-- Bytes that the host writes with one request through BAR2, line by line: those of a whole line clear its poison (R388). Outside the
window, or the device's memory, nothing is written. -/
def barWrite (s : State) (off : Nat) (b : List Byte) : State :=
  (lineParts ((s.bar2Base + off) % 64) b.length).foldl (fun s q =>
    match barPlace s (off + q.1) q.2 with
    | some (sp, a) => storeLine s sp a none ((b.drop q.1).take q.2) false
    | none => s) s

/-! ### Kernel images (03_encodings.md R66) -/

/-- A section entry breaks R66 in an image of size bytes. -/
def sectionBad (size : Nat) (e : List Byte) : Bool :=
  let f := fun k n => leNat ((e.drop k).take n)
  let kind := f 0 1
  let bytes := f 4 4
  kind == 0 || 12 < kind || f 1 1 < 2 || 30 < f 1 1 || f 2 2 != 0 || f 8 8 % 2 ^ f 1 1 != 0 || size < f 8 8 + bytes ||
    (kind ≤ 5 && bytes % 4 != 0) || (6 ≤ kind && kind ≤ 9 && (bytes % 16 != 0 || 4096 < bytes / 16))

/-- A section entry as it is kept. -/
def sectionFrom (e : List Byte) : Section :=
  { kind := leNat (e.take 1), off := leNat ((e.drop 8).take 8), bytes := leNat ((e.drop 4).take 4) }

/-- Two sections overlap, or both are of a kind that an image holds once. -/
def sectionsClash (a b : Section) : Bool :=
  overlap a.off a.bytes b.off b.bytes != 0 || (a.kind == b.kind && (a.kind ≤ 9 || a.kind == 12))

/-- Some pair of a list clashes. -/
def anyPair {α : Type} (f : α → α → Bool) : List α → Bool
  | [] => false
  | a :: r => r.any (f a) || anyPair f r

/-- The sections of an image, or the status that refuses it. MAGIC is judged first, then VERSION, then the rest (log entry 62). SYMOFF and
NAMEOFF lie within SIZE (DESIGN CHOICE, log entry 63). -/
def checkImage (b : List Byte) : Except Nat (Nat × List Section) :=
  let f := fun k n => leNat ((b.drop k).take n)
  let ver := f 4 2
  let n := f 8 2
  let size := f 16 8
  let es := (List.range n).map fun k => (b.drop (64 + 16 * k)).take 16
  if f 0 4 != 0x4B495846 then .error 6
  else if ver == 0 || 3 < ver then .error 5
  else if f 6 2 != 64 || n == 0 || 32 < n || f 10 6 != 0 || size % 64 != 0 || size < 64 + 16 * n || f 40 24 != 0 || size ≤ f 24 8 ||
      size ≤ f 32 8 || es.any (sectionBad size) || anyPair sectionsClash (es.map sectionFrom) ||
      (f 32 8 != 0 && !(b.drop (f 32 8)).contains 0) then .error 6
  else .ok (ver, es.map sectionFrom)

/-- Data in device memory that cannot be read: the fault is logged, and the command completes with status 1 (R382). -/
def cmdStop (s : State) (p : Party) (e : Stop) : CmdEnd :=
  match hubStop s p .read e with
  | .later s => .later s
  | .failed s => .done s 1 []

/-- The header of an image lets the whole of it be read: MAGIC and VERSION are those of an image, and SIZE can be the bytes of one
(03_encodings.md R66). -/
def headReads (h : List Byte) : Bool :=
  let f := fun k n => leNat ((h.drop k).take n)
  f 0 4 == 0x4B495846 && 1 ≤ f 4 2 && f 4 2 ≤ 3 && 64 ≤ f 16 8 && f 16 8 < 2 ^ 57

/-- MODLOAD: the image is read, checked, measured, and loaded into the context; its address is the result. An access that
waits for Dvorol is not made again before that wait ends (13_memory.md R295, R298). -/
def execModload (asid : BitVec 16) (va : Word) (s : State) : Result :=
  command 3 (fun s => withCtx s asid fun _ =>
    let p := hubParty asid
    if hubWaiting s p then .later s
    else
      match readExact s p .read (.va va) 64 with
      | .error e => cmdStop s p e
      | .ok h =>
        match (if headReads h then readExact s p .read (.va va) (leNat ((h.drop 16).take 8)) else .ok h) with
        | .error e => cmdStop s p e
        | .ok b =>
          let s := takeReplies s .hub
          match checkImage b with
          | .error st => .done s st []
          | .ok (version, sections) =>
            let img : Image := { addr := va, version, sections }
            let s := { s with
              measures := s.measures ++ [shake256 b]
              contexts := s.contexts.map fun c =>
                if c.args.asid = asid then { c with images := c.images.filter (fun i => i.addr != va) ++ [img] } else c }
            .done s 0 (toBytes va)) s

/-! ### Launches, queries, power, logs (R381) -/

/-- LAUNCH: a launch that finds its queue full waits for room there, and its command completes once it is in the queue (04_jobs.md R84). -/
def execLaunchCommand (asid : BitVec 16) (q : Nat) (va : Word) (s : State) : Result :=
  command 4 (fun s => withCtx s asid fun _ =>
    if 16 ≤ q then .done s 1 []
    else
      let k := s.curCmd.getD (0, 0)
      match enqueueFor s asid va q (.host k.1 k.2) .hub with
      | .done s => if (queueOf s q).waiting.any fun l => l.source == .host k.1 k.2 then .later s else .done s 0 []
      | .refused s code _ => .done s 7 (leBytes 1 code)
      | .failed s => .done s 1 []
      | .later s => .later s) s

/-- QUERY: the state that it returns has no layout in the spec (log entry 8). -/
def execQuery (s : State) : Result := command 7 (fun s => .done s 0 []) s

/-- LINK: an entry of the peer permission table, or a port, which comes up only where it may. -/
def execLink (write : Option (Nat × BitVec 256)) (port : Nat) (up : Bool) (s : State) : Result :=
  command 8 (fun s =>
    match write with
    | some (k, v) =>
      let bad := 256 ≤ k || !isZero v 14 2 || !isZero v 32 32 || !isZero v 64 16 || !isZero v 128 16 || !isZero v 192 64
      if bad then .done s 1 [] else .done { s with peers := sset s.peers k v } 0 []
    | none =>
      if connected s port && (!up || mayComeUp s port) then .done (sendWaiting (linkSet s port up)) 0 [] else .done s 1 []) s

/-- POWER: state 2 gates the unused banks, and state 3 takes the links down (R389). Caps change no result. When state 3 is left each link stays down
until LINK or the end of a training raises it (DESIGN CHOICE, log entry 67). -/
def execPower (state : Fin 4) (caps : List Nat) (s : State) : Result :=
  command 9 (fun s =>
    let s := { s with powerState := state, caps }
    .done (if state = 2 then gateAll s else if state = 3 then s.links.foldl (fun s l => linkSet s l.1 false) s else s) 0 []) s

/-- ERRLOG: the log is read and cleared; its layout is not given (log entry 8). -/
def execErrlog (s : State) : Result := command 10 (fun s => .done { s with errLog := [] } 0 []) s

/-- The report of MEASURE: nonce, measurements in the order taken, identity key, and a signature over all of them (R387). -/
def report (s : State) (nonce : List Byte) : List Byte :=
  let b := nonce ++ s.measures.flatMap (fun m => toBytes m) ++ Config.identityKey
  b ++ Config.signature b

/-- MEASURE returns the report: whole where the host takes it, with its first 56 bytes in the completion (log entry 9). -/
def execMeasure (nonce : List Byte) (s : State) : Result :=
  command 11 (fun s =>
    if nonce.isEmpty || 64 < nonce.length then .done s 1 []
    else .done { s with report := report s nonce } 0 ((report s nonce).take 56)) s

end Sys2Proof.Machine
end

