-- ==== Sys2Proof/Machine/Graph.lean ====
section
/-! DEFINITION. Command graphs (04_jobs.md R98 to R102): loading, starting, and one event for each kind of node. A node whose work is over
is marked done, and completes by GRAPH_NODE_COMPLETE; a COND and an END complete in their own events. -/

namespace Sys2Proof.Machine

/-! ### Nodes (R99) -/

/-- Field of n bytes at offset k of a node. -/
def nodeF (n : BitVec 512) (k b : Nat) : Nat := (bits n (8 * k) (8 * b)).toNat

/-- KIND, JOIN and the successors of a node. -/
def nodeKind (n : BitVec 512) : Nat := nodeF n 0 1
def nodeJoin (n : BitVec 512) : Nat := nodeF n 2 2
def nodeSucc (n : BitVec 512) : List Nat := (List.range (nodeF n 1 1)).map fun k => nodeF n (4 + 2 * k) 2

/-- What a WAIT node waits for. -/
inductive WaitFor where
  | bar (b : BarId) (p : Bool)
  | tub (t : TubId)
  deriving DecidableEq, Repr

/-- The barrier or memory tub of a WAIT node in its context's tables. -/
def nodeWait (c : Context) (n : BitVec 512) : Option WaitFor :=
  let op := BitVec.ofNat 9 (nodeF n 16 2)
  if 511 < nodeF n 16 2 || 1 < nodeF n 18 1 then none
  else
    match nodeF n 19 1 with
    | 0 => (BarOp.ofCode op).bind fun o => (c.barAt o).map fun b => .bar b (nodeF n 18 1 == 1)
    | 1 => (TubOp.ofCode op).bind fun o => if o.mem then c.args.tubs[o.idx.val]?.map fun t => .tub (.mem t.1 t.2) else none
    | _ => none

/-- The first byte behind the arguments of a kind. -/
def nodeEnd (kind : Nat) : Nat := [16, 25, 27, 33, 36, 20, 32].getD kind 16

/-- A node breaks R99 in a graph of n nodes. -/
def nodeBad (c : Context) (count : Nat) (n : BitVec 512) : Bool :=
  let k := nodeKind n
  let ns := nodeF n 1 1
  k == 0 || 6 < k || 4 < ns || (k == 3 && ns != 2) || (k == 6 && ns != 0) || 256 < nodeJoin n || (nodeSucc n).any (count ≤ ·) ||
    nodeF n 12 4 != 0 || nodeF n (nodeEnd k) (64 - nodeEnd k) != 0 || (k == 1 && 15 < nodeF n 24 1) ||
    (k == 2 && (Config.cores ≤ nodeF n 24 2 || 7 < nodeF n 26 1)) || (k == 3 && 5 < nodeF n 32 1) || (k == 4 && 255 < nodeF n 16 8) ||
    (k == 5 && (nodeWait c n).isNone)

/-! ### Graphs -/

/-- A graph of a context. -/
def graphOf (s : State) (asid : BitVec 16) (g : Nat) : Option Graph := s.graphs.find? fun x => x.asid == asid && x.num == g

/-- Replace a graph. -/
def putGraph (s : State) (g : Graph) : State :=
  { s with graphs := s.graphs.map fun x => if x.asid = g.asid && x.num = g.num then g else x }

/-- A node of a graph changed. -/
def Graph.upd (g : Graph) (k : Nat) (f : GNode → GNode) : Graph := { g with nodes := g.nodes.modify k f }

/-- A graph in its present run, and its k-th node. -/
def nodeRef (g : Graph) (k : Nat) : NodeRef := { asid := g.asid, g := g.num, node := k, gen := g.gen }

/-- The 16 bytes of a graph's status (R102). -/
def graphStatus (g : Graph) : List Byte := leBytes 4 g.runs ++ leBytes 2 g.result ++ leBytes 2 g.last ++ leBytes 8 0

/-- The graph ends with a status at node k; where its status cannot be written yet, back stands as it was. -/
def endGraph (back s : State) (g : Graph) (k status : Nat) : State :=
  let n := nodeRef g k
  let g := { g with running := false, result := status, last := k, nodes := g.nodes.map fun x => { x with running := false } }
  match (if g.status = 0 then .ok s else hubWrites back (hubParty g.asid (.node n)) [(g.status, graphStatus g)] s) with
  | .error t => t
  | .ok s => takeReplies (putGraph s g) (.node n)

/-- A node starts: a WAIT on a tub counts the firings from here on. -/
def startNode (s : State) (asid : BitVec 16) (x : GNode) : GNode :=
  let fired :=
    match (contextOf s asid).bind fun c => if nodeKind x.raw = 5 then nodeWait c x.raw else none with
    | some (.tub t) => (tubOf s t).fired
    | _ => 0
  { x with running := true, done := false, mark := fired }

/-- A successor's pending count is decremented, and it starts where the count reaches 0. -/
def decrement (s : State) (g : Graph) (k : Nat) : Graph :=
  g.upd k fun x =>
    if x.pending = 0 then x
    else
      let x := { x with pending := x.pending - 1 }
      if x.pending = 0 then startNode s g.asid x else x

/-- Node k completes: the given successors are decremented. Nothing running then ends the graph with status 1. -/
def finishNode (back s : State) (g : Graph) (k : Nat) (succ : List Nat) : State :=
  let g := { g.upd k fun x => { x with running := false, done := false } with last := k }
  let g := succ.foldl (decrement s) g
  if g.nodes.any GNode.running then takeReplies (putGraph s g) (.node (nodeRef g k)) else endGraph back s g k 1

/-- Do k with a node of a kind that runs and is not yet done, and whose access does not wait for Dvorol or at a held page. -/
def withNode (s : State) (asid : BitVec 16) (g k kind : Nat) (f : Graph → GNode → State) : Result :=
  .next <|
    match graphOf s asid g with
    | none => s
    | some x =>
      match x.nodes[k]? with
      | some n =>
        let ready := !hubWaiting s (hubParty asid (.node (nodeRef x k)))
        if x.running && n.running && !n.done && nodeKind n.raw = kind && ready then f x n else s
      | none => s

/-- A node changed. -/
def setNode (s : State) (g : Graph) (k : Nat) (x : GNode) : State := putGraph s (g.upd k fun _ => x)

/-- An access of a node stops: it is tried again, or the node fails (status 2). -/
def nodeStop (s : State) (g : Graph) (k : Nat) (acc : Access) (x : Stop) : State :=
  match hubStop s (hubParty g.asid (.node (nodeRef g k))) acc x with
  | .later s => s
  | .failed t => endGraph s t g k 2

/-! ### The kinds of nodes (R100) -/

/-- JOBS: the launch is enqueued; the node completes with it. -/
def execGraphNodeJobs (asid : BitVec 16) (g node : Nat) (s : State) : Result :=
  withNode s asid g node 1 fun x n =>
    let r := nodeRef x node
    let addr : Word := BitVec.ofNat 64 (nodeF n.raw 16 8)
    if n.mark != 0 then s
    else
      match enqueueFor s asid addr (nodeF n.raw 24 1) (.graph r) (.node r) with
      | .later s => s
      | .done t => setNode t x node { n with mark := 1 }
      | .failed t => endGraph s t x node 2
      | .refused t code st =>
        match tellRefusal t asid addr code st (.node r) with
        | .error t => t
        | .ok t => endGraph s t x node 2

/-- A chain that a graph node joins to a physical channel. -/
def graphChan (core n : Nat) (addr : Word) (r : NodeRef) : Chan :=
  { st := .fetch, job := 0, core, n, addr, raw := 0, prog := 0, sub := 0, npoi := 0, pin := none, owed := [], wait := false,
    wmEnd := 0, wmSpad := false, wmRun := false, wmScope := .job, bar := none, cpyx := none, graph := some r,
    marker := none, halt := .going, wmJob := 0, table := none, rowptr := none, why := none }

/-- COPY: the chain is joined once the channel is bound to nobody; the node is done when the chain has parked or ended. A fault of
the chain ends at the supervisor with its cause (R102, 13_memory.md R399); a stop by PTE_INVALID waits for RESOLVE (R295). -/
def execGraphNodeCopy (asid : BitVec 16) (g node : Nat) (s : State) : Result :=
  withNode s asid g node 2 fun x n =>
    let r := nodeRef x node
    let core := nodeF n.raw 24 2
    let ch := nodeF n.raw 26 1
    let addr : Word := BitVec.ofNat 64 (nodeF n.raw 16 8)
    let done := { n with done := true }
    if n.mark = 0 then
      if bits addr 0 7 != 0 then nodeStop s x node .read (.trap .misaligned addr)
      else if (chanOf s core ch).isSome then s
      else setNode (putChan s (graphChan core ch addr r)) x node { n with mark := 1 }
    else
      match chanOf s core ch with
      | none => setNode s x node done
      | some c =>
        if c.graph != some r then setNode s x node done
        else if c.st == .parked then setNode (dropChan s core ch) x node done
        else if c.halt == .trapped then
          let p := hubParty asid (.node r)
          let (cause, v) := c.why.getD (.absentContext, c.addr)
          endGraph s (supervise (dropChan s core ch) p .read cause v none) x node 2
        else s

/-- The tests of COND. -/
def condTest (test : Nat) (a b : Word) : Bool :=
  match test with
  | 0 => a == b
  | 1 => a != b
  | 2 => a.slt b
  | 3 => !a.slt b
  | 4 => a.ult b
  | _ => !a.ult b

/-- A COND whose test has been made completes; a successor at or below it re-arms the graph (R101), once no other node from it on is
running. -/
def takeBranch (s : State) (x : Graph) (node t : Nat) : State :=
  if node < t then finishNode s s x node [t]
  else if (List.range x.nodes.length).any fun k => t ≤ k && k != node && (x.nodes[k]?.map GNode.running).getD false then s
  else if x.maxRun != 0 && x.maxRun < x.runs + 1 then endGraph s s x node 3
  else
    let nodes := x.nodes.mapIdx fun k y => if t ≤ k then { y with pending := nodeJoin y.raw } else y
    finishNode s s { x with nodes, runs := x.runs + 1 } node [t]

/-- COND: the doubleword is read and compared once. -/
def execGraphNodeCond (asid : BitVec 16) (g node : Nat) (s : State) : Result :=
  withNode s asid g node 3 fun x n =>
    let p := hubParty asid (.node (nodeRef x node))
    let succ := fun k => (nodeSucc n.raw).getD k 0
    if n.mark != 0 then takeBranch s x node (succ (n.mark - 1))
    else
      match readData s p (.va (BitVec.ofNat 64 (nodeF n.raw 16 8))) 8 none with
      | .error e => nodeStop s x node .read e
      | .ok d =>
        let k := if condTest (nodeF n.raw 32 1) (ofBytes 64 (d.map Prod.fst)) (BitVec.ofNat 64 (nodeF n.raw 24 8)) then 0 else 1
        let n := { n with mark := k + 1 }
        let x := x.upd node fun _ => n
        takeBranch (putGraph (takeReplies s p.unit) x) x node (succ k)

/-- HOST: one entry is copied into the ring; the node is done when all are there. -/
def execGraphNodeHost (asid : BitVec 16) (g node : Nat) (s : State) : Result :=
  withNode s asid g node 4 fun x n =>
    let p := hubParty asid (.node (nodeRef x node))
    let k := nodeF n.raw 16 1
    let r := ringOf s k
    if nodeF n.raw 32 4 ≤ n.mark then setNode s x node { n with done := true }
    else if !r.waiting.isEmpty || !r.room then s
    else
      match readData s p (.va (BitVec.ofNat 64 (nodeF n.raw 24 8 + 64 * n.mark))) 64 none with
      | .error e => nodeStop s x node .read e
      | .ok d =>
        let n := { n with mark := n.mark + 1, done := nodeF n.raw 32 4 ≤ n.mark + 1 }
        setNode (ringWrite (takeReplies s p.unit) k (ofBytes 512 (d.map Prod.fst))) x node n

/-- WAIT: done when the barrier's phase differs from the parity, or when the tub has fired since the node started. -/
def execGraphNodeWait (asid : BitVec 16) (g node : Nat) (s : State) : Result :=
  withNode s asid g node 5 fun x n =>
    let ends :=
      match (contextOf s asid).bind fun c => nodeWait c n.raw with
      | some (.bar b p) => (barOf s b).began.1.phase != p
      | some (.tub t) => n.mark < (tubOf s t).fired
      | none => false
    if ends then setNode s x node { n with done := true } else s

/-- END: the flag is written, and the graph ends with status 0. -/
def execGraphNodeEnd (asid : BitVec 16) (g node : Nat) (s : State) : Result :=
  withNode s asid g node 6 fun x n =>
    let p := hubParty asid (.node (nodeRef x node))
    match writeBytes s p (.va (BitVec.ofNat 64 (nodeF n.raw 16 8))) (leBytes 8 (nodeF n.raw 24 8)) with
    | .error e => nodeStop s x node .write e
    | .ok t => endGraph s t x node 0

/-- A node whose work is over completes. -/
def execGraphNodeComplete (asid : BitVec 16) (g node : Nat) (s : State) : Result :=
  .next <|
    match graphOf s asid g with
    | none => s
    | some x =>
      match x.nodes[node]? with
      | some n => if x.running && n.running && n.done then finishNode s s x node (nodeSucc n.raw) else s
      | none => s

/-! ### The GRAPH command (R98, R381) -/

/-- Most graphs of a context. -/
def graphSlots : Nat := 64

/-- A graph is loaded under the lowest free number of its context, which the completion returns. It makes no access while one
waits for Dvorol (13_memory.md R295, R298). -/
def execGraphLoad (asid : BitVec 16) (va : Word) (s : State) : Result :=
  command 5 (fun s => withCtx s asid fun c =>
    let p := hubParty asid
    let mine := s.graphs.filter fun g => g.asid == asid
    if hubWaiting s p then .later s
    else
    match readExact s p .read (.va va) 64 with
    | .error e => cmdStop s p e
    | .ok h =>
      let f := fun k n => leNat ((h.drop k).take n)
      let n := f 0 2
      if n == 0 || 256 < n || n ≤ f 2 2 || f 16 8 % 64 != 0 || f 24 40 != 0 then .done (takeReplies s .hub) 1 []
      else
        match readExact s p .read (.va (BitVec.ofNat 64 (f 16 8))) (64 * n) with
        | .error e => cmdStop s p e
        | .ok b =>
          let s := takeReplies s .hub
          let raws : List (BitVec 512) := (cut 64 b).map (ofBytes 512)
          if raws.any (nodeBad c n) || nodeJoin (raws.getD (f 2 2) 0) != 0 then .done s 1 []
          else if c.args.quotaGraphs ≤ mine.length then .done s 2 []
          else
            match firstBelow graphSlots fun k => !mine.any fun g => g.num == k with
            | none => .done s 2 []
            | some k =>
              let nodes := raws.map fun raw => { raw, pending := 0, running := false, done := false, mark := 0 : GNode }
              let g : Graph :=
                { asid, num := k, entry := f 2 2, maxRun := f 4 4, status := BitVec.ofNat 64 (f 8 8), nodes, running := false
                  gen := 0, runs := 0, result := 0, last := 0 }
              .done { s with graphs := s.graphs ++ [g] } 0 (leBytes 8 k)) s

/-- A graph starts: every pending count is the node's JOIN, and the entry node starts. -/
def Graph.start (s : State) (g : Graph) : Graph :=
  let nodes := g.nodes.map fun x => { x with pending := nodeJoin x.raw, running := false, done := false, mark := 0 }
  { g with nodes, running := true, gen := g.gen + 1, runs := 0, last := g.entry : Graph }.upd g.entry (startNode s g.asid)

def execGraphStart (asid : BitVec 16) (g : Nat) (s : State) : Result :=
  command 5 (fun s => withCtx s asid fun _ =>
    match graphOf s asid g with
    | none => .done s 3 []
    | some x => if x.running then .done s 4 [] else .done (putGraph s (x.start s)) 0 []) s

/-- The state that a query returns has no layout in the spec (log entry 8). -/
def execGraphQuery (asid : BitVec 16) (g : Nat) (s : State) : Result :=
  command 5 (fun s => withCtx s asid fun _ => if (graphOf s asid g).isNone then .done s 3 [] else .done s 0 []) s

end Sys2Proof.Machine
end

