-- ==== Sys2Proof/Machine/Preempt.lean ====
section
/-! DEFINITION. Pre-emption, baskets and fold-in (15_traps.md R329 to R337), the answers of RESOLVE (R328, R336, 13_memory.md R295), page
walks (R296) and the gating of scratchpad banks (10_scratchpad.md R244). -/

namespace Sys2Proof.Machine

/-! ### Barriers under other names -/

/-- Barriers renamed in what an engine stream holds. -/
def EngStream.rename (f : BarId → BarId) (x : EngStream) : EngStream :=
  { x with
    wait := match x.wait with | .barrier b p => .barrier (f b) p | w => w
    pipe := x.pipe.map fun q => match q with | .bav b c => .bav (f b) c | q => q }

/-- In an action, and in a tub. -/
def TubAct.rename (f : BarId → BarId) : TubAct → TubAct
  | .arrive b c => .arrive (f b) c
  | a => a
def Tub.rename (f : BarId → BarId) (t : Tub) : Tub := { t with act := t.act.rename f, fires := t.fires.map (TubAct.rename f) }

/-- In an event log. -/
def LogEntry.rename (f : BarId → BarId) : LogEntry → LogEntry
  | .arrive b c => .arrive (f b) c
  | .bytes b n => .bytes (f b) n
  | e => e

/-- In a job. -/
def Job.rename (f : BarId → BarId) (j : Job) : Job :=
  { j with
    cbar := j.cbar.map f, dbar := j.dbar.map f, gbar := j.gbar.map f, lbars := j.lbars.map fun b => (f b.1, b.2)
    wait := match j.wait with | .barrier b p => .barrier (f b) p | w => w
    ld := j.ld.rename f, mx := j.mx.rename f, vx := j.vx.rename f, st' := j.st'.rename f
    tubs := j.tubs.map fun t => (t.1, t.2.rename f)
    index := j.index.map fun e => { e with bar := e.bar.map f }
    basket := j.basket.map fun b => { b with log := b.log.map (LogEntry.rename f) } }

/-- In the whole device: the saved barriers of a group stand under names of their own (R331), and a resumed group has others. -/
def renameBars (f : BarId → BarId) (s : State) : State :=
  let s := mapJobs s (Job.rename f)
  let launch := fun (l : Launch) => { l with csync := l.csync.map f }
  { s with
    barriers := s.barriers.map fun b => (f b.1, b.2)
    tubs := s.tubs.map fun t => (t.1, t.2.1, t.2.2.rename f)
    chans := s.chans.map fun c => { c with bar := c.bar.map f }
    slots := s.slots.map fun x => { x with bar := x.bar.map f }
    launches := s.launches.map launch
    queues := s.queues.map fun q => { q with waiting := q.waiting.map launch } }

/-- The renaming that a list of pairs gives. -/
def byPairs (l : List (BarId × BarId)) (b : BarId) : BarId := lookupD b l b

/-! ### The request (R329) -/

/-- An engine stream is reached by the request: its innermost frame is bounded. -/
def EngStream.bound (x : EngStream) : EngStream :=
  { x with draining := true, depth := x.frames.length, frames := (x.mapTop fun f => { f with nEff := f.started, bounded := true }).frames }

/-- What stands for a basket until Dvorol allots it in HBM (R332). -/
def Basket.fresh : Basket :=
  { args := { addr := 0, stOff := 0, imgOff := 0, logOff := 0, logMax := 256, fltOff := 0, fltMax := 64 }, laid := false, phase := 0
    lines := 0, log := [], faults := [] }

/-- A job is reached by the request. -/
def Job.preempt (j : Job) : Job :=
  { j with
    st := .draining, basket := some Basket.fresh
    ld := j.ld.bound, mx := j.mx.bound, vx := j.vx.bound, st' := j.st'.bound }

/-- The request reaches every job of a group in one clock: a control stream at an instruction boundary stops there, and what it waits for is
abandoned. The command completes with status 0 at the request, before the drain and the save; a group whose jobs have not all started is busy, status 4,
and none of its streams is reached (DESIGN CHOICE, log entry 67). -/
def execPreempt (launch : Nat) (s : State) : Result :=
  commandOr 6 (fun s =>
    let js := gangOf s launch
    if js.isEmpty then .done s 3 []
    else if js.any fun j => j.st != .running then .done s 4 []
    else
      let s := js.foldl (fun s j => if atBoundary s j then abandonCtl s j.id else withdraw s j.id) s
      .done (mapJobs s fun j => if j.launch = launch then j.preempt else j) 0 []) s

/-! ### The drain (R329, R330) -/

/-- An engine stream of a job goes on with the word at its PC: it is not stopped, and its last operation has started: a stream whose pops
are not satisfied waits (R170), at that operation's word (15_traps.md R330; log entry 33). -/
def engineRuns (j : Job) (e : Engine) : Bool :=
  let x := j.eng e
  (j.st == .running || j.st == .draining) && !x.stopped && x.halt == .going && x.opHalt == .going && x.wait == .ready &&
    !x.pipe.any (fun q => match q with | .waiting _ => true | _ => false) && x.arrivals ≤ j.rendezvous && x.mayIssue

/-- The word at the stream's PC is a TOKS that waits for its counter. -/
def atFullToks (s : State) (j : Job) (e : Engine) : Bool :=
  let t := focus j.id { s with curEng := e }
  match patchAt t (curStream t).pc with
  | .ok w =>
    match decodePatch w none with
    | .toks q n => performs t && 15 < j.token (if q then backwardOf e else forwardOf e) + n.val
    | _ => false
  | .error _ => false

/-- The stream of an engine can issue nothing, and none of its operations is under way or can start: it has completed or trapped, or
stands at a held access (13_memory.md R302). One that waits before its start at a watermark is saved at its word (R330; log entry 35). -/
def engineDrained (s : State) (j : Job) (e : Engine) : Bool :=
  let x := j.eng e
  (!engineRuns j e || atFullToks s j e) && ((startedOp x.pipe).isNone || x.opHalt == .trapped || x.opHalt == .held) &&
    (readyOp s j e).isNone && !awaiting s (.eng j.id e) && !awaiting s (.words j.id e)

/-- A job has an operation or a block that runs in the engines of the sibling core (07_queues.md R178, 12_copy_index.md R288). -/
def Job.lent (j : Job) : Bool :=
  (match startedOp j.mx.pipe with | some o => o.sib && j.mx.opHalt == .going | none => false) ||
    j.index.any fun e => e.running && e.sib && e.halt == .going

/-- The drain has ended for a job, and nothing of a job of its core or of the sibling runs in the engines of the other core (R178). -/
def jobDrained (s : State) (j : Job) : Bool :=
  !j.darn.any DarnRun.holds && !midAccess s (.ctl j.id) &&
    (match j.wait with | .stalled m => markStopped s j.id m | _ => true) && engines.all (engineDrained s j) && !j.lent &&
    !(jobsOn s j.core ++ jobsOn s (sibling j.core)).any Job.lent

/-- It has ended for the group. -/
def groupDrained (s : State) (launch : Nat) : Bool :=
  (gangOf s launch).all fun j => j.st == .suspended || j.st == .saving || (j.st == .draining && jobDrained s j)

/-! ### The save (R331, R332, R334) -/

/-- The engine streams of a saved job: translation markers have nothing left to hold back (13_memory.md R301), a BWT is decoded again
(11_sync.md R255), and a held access is made afresh (R302). -/
def EngStream.save (x : EngStream) : EngStream :=
  { x.unhold 0 with
    wait := match x.wait with | .passed | .barrier .. => .ready | w => w
    queue := x.queue.filter fun q => q.inv?.isNone
    late := []
    pipe := x.pipe.filter fun q => q.inv?.isNone
    holds := false }

/-- The areas of a basket beside the state area, whose length is Dvorol's own: header, image, event log, fault log. -/
def basketAreas (b : BasketArgs) (image : Nat) : List (Nat × Nat) :=
  [(0, 64), (b.imgOff, image), (b.logOff, 16 * b.logMax), (b.fltOff, 32 * b.fltMax)]

/-- Two areas share a byte. -/
def areasMeet (a b : Nat × Nat) : Bool := overlap a.1 a.2 b.1 b.2 != 0

/-- A basket for an image of so many bytes may stand there: 4 KiB-aligned, in HBM, its areas apart and its logs large enough. -/
def basketOk (b : BasketArgs) (image : Nat) : Bool :=
  b.addr % 4096 = 0 && b.imgOff % 64 = 0 && 64 ≤ b.stOff && 256 ≤ b.logMax && 64 ≤ b.fltMax && b.logMax < 2 ^ 32 && b.fltMax < 2 ^ 32 &&
    (basketAreas b image).all (fun a => b.addr + a.1 + a.2 ≤ Config.hbmBytes) && !anyPair areasMeet (basketAreas b image)

/-- The bytes of a job's region. -/
def Job.region (j : Job) : Nat := j.splim.toNat - j.spbase.toNat

/-- The state of a job copied: from now on its events are logged (R334, step 1). A control stream that waits for Dvorol at an access which
PTE_INVALID has stopped, or after an escalation, is saved as it waits (05_control_core.md R133; DESIGN CHOICE, log entry 66). -/
def Job.save (j : Job) (a : BasketArgs) : Job :=
  { j.abandon with
    st := .saving, basket := j.basket.map fun b => { b with args := a, laid := true, phase := 0, lines := 0 }, marker := none
    ld := j.ld.save, mx := j.mx.save, vx := j.vx.save, st' := j.st'.save
    index := j.index.map IdxEntry.unhold
    wait := match j.wait with | .dvorol c v => .dvorol c v | _ => .ready }

/-- Keys a to a + n - 1 of one store copied to the keys from b on of another. -/
def spanCopy {w : Nat} (from' into : Sparse w) (a b n : Nat) : Sparse w :=
  (sslice from' a (a + n)).foldl (fun m e => sset m (b + e.1) e.2) (sclear into b (b + n))

/-- n lines of a job from line k on go into its image, with their poison (R334, 10_scratchpad.md R246). -/
def saveLines (s : State) (j : Job) (b : Basket) (k n : Nat) : State :=
  let o := j.spbase.toNat + 64 * k
  let img := b.args.addr + b.args.imgOff + 64 * k
  { s with
    hbm := spanCopy s.spad s.hbm (j.core * Config.spadBytes + o) img (64 * n)
    hbmPoison := spanCopy s.spadPoison s.hbmPoison (j.core * 131072 + o / 64) (img / 64) n }

/-- They come back from it. -/
def foldLines (s : State) (j : Job) (b : Basket) (k n : Nat) : State :=
  let o := j.spbase.toNat + 64 * k
  let img := b.args.addr + b.args.imgOff + 64 * k
  { s with
    spad := spanCopy s.hbm s.spad img (j.core * Config.spadBytes + o) (64 * n)
    spadPoison := spanCopy s.hbmPoison s.spadPoison (img / 64) (j.core * 131072 + o / 64) n }

/-- The lines that a turn moves next: as many as the turn has units, 0 standing for all. -/
def linesNow (s : State) (j : Job) (b : Basket) : Nat :=
  let left := j.region / 64 - b.lines
  if s.units = 0 then left else min s.units left

/-- The barriers of a group and the names under which they are kept while it is suspended. -/
def parkedNames (s : State) (launch : Nat) : List (BarId × BarId) :=
  let l := ((gangOf s launch).flatMap Job.barriers).eraseDups
  (List.range l.length).zip l |>.map fun p => (p.2, .core (Config.cores + launch) p.1)

/-- The last job of a group has been saved: the cores and barriers are free. -/
def suspendGroup (s : State) (launch : Nat) : State :=
  if (gangOf s launch).all fun j => j.st == .suspended then
    gateLeft (updLaunch (renameBars (byPairs (parkedNames s launch)) s) launch fun l => { l with suspended := true })
  else s

/-- The lines of a job that is being saved, one after another; behind the last one the job is suspended (R334, steps 2 to 4). -/
def goSave (s : State) (job : Nat) : State :=
  match findJob s job with
  | none => s
  | some j =>
    match j.basket with
    | none => s
    | some b =>
      let n := linesNow s j b
      let s := updBasket (saveLines s j b b.lines n) job fun b => { b with lines := b.lines + n }
      if b.lines + n < j.region / 64 then s
      else
        let s := updBasket (updJob s job fun j => { j with st := .suspended }) job fun b => { b with phase := 1 }
        suspendGroup s j.launch

/-- Once the drain has ended a job is saved into the basket that Dvorol has allotted. The first turn copies its state, and this one and those
that follow its lines. -/
def execSave (job : Nat) (place : BasketPlace) (log flt : LogArea) (s : State) : Result :=
  let a : BasketArgs :=
    { addr := place.addr, stOff := place.stOff, imgOff := place.imgOff, logOff := log.off, logMax := log.max, fltOff := flt.off
      fltMax := flt.max }
  .next <|
    match findJob s job with
    | none => s
    | some j =>
      if j.st == .saving then goSave s job
      else if j.st == .draining && groupDrained s j.launch && basketOk a j.region then
        let s := engines.foldl (fun s e => unitPassed s (.words job e)) (forsake (settleStores s) job)
        goSave (updBasket (updJob s job fun j => j.save a) job id) job
      else s

/-- Dvorol enlarges the logs of a basket, which then stand elsewhere in it (R333). -/
def enlargeLogs (s : State) (job : Nat) (a : BasketArgs) : State :=
  match findJob s job with
  | none => s
  | some j =>
    match j.basket with
    | none => s
    | some b =>
      let a := { a with addr := b.args.addr, stOff := b.args.stOff, imgOff := b.args.imgOff }
      if j.away && (!b.laid || basketOk a j.region) && b.args.logMax ≤ a.logMax && b.args.fltMax ≤ a.fltMax then
        updBasket s job fun b => { b with args := a }
      else s

/-- The jobs of a group in job order. -/
def inOrder (s : State) (launch : Nat) : List Job := (gangOf s launch).foldr insertJob []

/-! ### The places of a resumed group (R337, 04_jobs.md R85, 10_scratchpad.md R231) -/

/-- Each place in turn fits beside the jobs of its core; a job keeps its offsets, so its own range has to be free. -/
def resumeSeats (s : State) (d : Demand) : List (Job × Seat) → List (Job × Seat) → Bool
  | _, [] => true
  | before, (j, p) :: r =>
    let l := regionsOn s p.core ++
      ((before.filter fun q => q.2.core == p.core).map fun q => (q.1.spbase.toNat, q.1.splim.toNat))
    seatOk s d (before.map Prod.snd) p && p.spbase == j.spbase.toNat &&
      l.all (fun q => j.splim.toNat ≤ q.1 || q.2 ≤ j.spbase.toNat) && resumeSeats s d (before ++ [(j, p)]) r

/-- Every group of a level stays in one unit of its domain. -/
def resumeGroups (l : Launch) (js : List (Job × Seat)) : Bool :=
  (List.range (gangLevels l.raw)).all fun lv =>
    let w := domCores (levDom l.raw lv)
    let n := max 1 (groupJobs l.counts lv)
    js.all fun a => js.all fun b => a.1.num / n != b.1.num / n || a.2.core / w == b.2.core / w

/-- The barriers of a kind that a job holds, its level barriers first. -/
def Job.barsOf (j : Job) : BarKind → List BarId
  | .core => j.cbar | .die => j.dbar | .device => j.gbar

/-- The new names of a job's own barriers, and its level barriers with their kinds and core. -/
def ownNames (r : BitVec 2048) (q : Job × Seat) : List (BarId × BarId) :=
  [BarKind.core, .die, .device].flatMap fun k => ((q.1.barsOf k).drop (levBars r k)).zip (placeBars q.2 k)
def levelHeld (r : BitVec 2048) (q : Job × Seat) : List (BarId × BarKind × Nat) :=
  [BarKind.core, .die, .device].flatMap fun k => ((q.1.barsOf k).take (levBars r k)).map fun b => (b, k, q.2.core)

/-- The new names of level barriers: the lowest indices that are free. -/
def levelNames : List (BarId × BarKind × Nat) → List (BarId × BarId) → List BarId → Option (List (BarId × BarId))
  | [], m, _ => some m
  | (b, k, core) :: r, m, taken =>
    if m.any fun p => p.1 == b then levelNames r m taken
    else
      match firstBelow (barSlots k) fun i => !taken.contains (barId k core i) with
      | none => none
      | some i => levelNames r (m ++ [(b, barId k core i)]) (barId k core i :: taken)

/-! ### Fold-in (R337) -/

/-- A job on its new core, its state restored but for the scratchpad, barriers and tubs; the region's zero map is clear. -/
def restoreJob (s : State) (q : Job × Seat) : State :=
  let (j, p) := q
  let lo := j.spbase.toNat
  let hi := j.splim.toNat
  let s := clearRegion s p.core lo hi
  let s := updJob s j.id fun j =>
    { j with st := .folding, core := p.core, cc := p.cc, index := j.index.map fun e => { e with holds := false } }
  updBasket s j.id fun b => { b with phase := 2, lines := 0 }

/-- Lines of a job that is being restored (R337). -/
def foldSome (s : State) (job : Nat) : State :=
  match findJob s job with
  | none => s
  | some j =>
    match j.basket with
    | none => s
    | some b =>
      let n := linesNow s j b
      updBasket (foldLines s j b b.lines n) job fun b => { b with lines := b.lines + n }

/-- Every line of a job is restored. -/
def Job.folded (j : Job) : Bool := match j.basket with | some b => j.region / 64 ≤ b.lines | none => true

/-- The log of a job. -/
def logOf (s : State) (job : Nat) : List LogEntry := match (findJob s job).bind Job.basket with | some b => b.log | none => []

/-- A logged event of a barrier in a clock of its own. -/
def replayEvent (s : State) (b : BarId) (e : BarEvent) : State :=
  match barEvent (closeBar s b) b e with
  | some t => closeBar t b
  | none => s

/-- The logged events of one barrier. -/
def replayBar (b : BarId) : List LogEntry → State → State
  | [], s => s
  | e :: r, s =>
    let ev := match e with
      | .arrive c n => if c == b then some (BarEvent.arrive n) else none
      | .bytes c n => if c == b then some (BarEvent.bytes n) else none
      | .tub .. => none
    replayBar b r (match ev with | some ev => replayEvent s b ev | none => s)

/-- Firings of a tub performed now, n at most; one that has stopped or has to wait stays (11_sync.md R260, R336). -/
def fireNow (t : TubId) : Nat → State → State
  | 0, s => s
  | n + 1, s => fireNow t n (fireOldest t s)

/-- The logged bytes of one tub counted, its firings performed. -/
def replayTub (job k : Nat) : List LogEntry → State → State
  | [], s => s
  | e :: r, s =>
    replayTub job k r <|
      match e with
      | .tub i n =>
        if i = k then
          let t := TubId.spad job k
          let x := (tubOf s t).add n
          fireNow t x.fires.length (putTub s t x)
        else s
      | _ => s

/-- The fault-log entries left join the pending traps as ABSENT_CONTEXT, in log order behind those that are pending (R336). -/
def Job.takeFaults (j : Job) (clock : Nat) (b : Basket) : Job :=
  let l := b.faults.map fun e =>
    ({ cause := .absentContext, val := e.val, prog := e.prog, stream := BitVec.ofNat 8 e.stream, sib := e.sib, orig := e.cause.code
       pc := 0, clock, tub := e.tub, slot := e.slot } : Trap)
  { j with pending := j.pending ++ l, tpend := j.tpend || (j.hnd && !l.isEmpty) }

/-- An engine stream starts at its saved position; a frame that the pre-emption bounded stays bounded (R330). -/
def EngStream.resume (x : EngStream) : EngStream := { x with draining := false }

/-- The log of a job replayed, barriers in the order of their operands and then tubs; its streams start. Until then the job is absent, and a
firing that faults goes to its fault log (R336). -/
def foldIn (s : State) (j : Job) : State :=
  let l := logOf s j.id
  let s := match findJob s j.id with | some k => k.barriers.foldl (fun s b => replayBar b l s) s | none => s
  let s := (List.range 64).foldl (fun s k => replayTub j.id k l s) s
  let s := updJob s j.id fun k =>
    let k := k.takeFaults s.clock (k.basket.getD Basket.fresh)
    { k with st := .running, ld := k.ld.resume, mx := k.mx.resume, vx := k.vx.resume, st' := k.st'.resume }
  updBasket s j.id fun b => { b with phase := 3, log := [], faults := [] }

/-- The fold-in of a group goes on: lines of its jobs in job order, and once every line is restored the replay of the logs, behind which all
streams start and the command completes. -/
def goFold (s : State) (launch : Nat) : State :=
  let js := inOrder s launch
  let s := js.foldl (fun s j => foldSome s j.id) s
  if (gangOf s launch).all Job.folded then
    let s := mapJobs s fun j => if j.launch = launch && j.st == .folding then { j with st := .replaying } else j
    let t := updLaunch (js.foldl foldIn s) launch fun l => { l with resumeCmd := none }
    match (findLaunch s launch).bind Launch.resumeCmd with
    | some k => completeAt t k 0
    | none => t
  else s

/-- A suspended group begins to be restored at the given places, one for each of its jobs in job order. -/
def restoreGroup (s : State) (l : Launch) (js : List (Job × Seat)) : Option State :=
  let places := js.map Prod.snd
  let own := js.flatMap (ownNames l.raw)
  let taken := places.flatMap placeAllBars ++ barsTaken s
  (levelNames (js.flatMap (levelHeld l.raw)) own taken).map fun m =>
    renameBars (byPairs m) (updLaunch (js.foldl restoreJob s) l.id fun l => { l with suspended := false })

/-- Dvorol resumes a group: the first turn, once the banks of its regions are awake (10_scratchpad.md R244), restores the state of its jobs, and
this one and those that follow their lines. -/
def execPreemptResume (launch : Nat) (places : List Seat) (s : State) : Result :=
  commandOr 6 (fun s =>
    match findLaunch s launch with
    | none => .done s 3 []
    | some l =>
      if (gangOf s launch).any fun j => j.st == .folding then
        if s.curCmd.all fun k => l.resumeCmd == some k then .later (goFold s launch) else .done s 4 []
      else if !l.suspended then .done s 4 []
      else
        let js := (inOrder s launch).zip places
        if places.length == (gangOf s launch).length && resumeSeats s (demandOf l.raw) [] js && resumeGroups l js &&
            ownBarsOk s l.raw places then
          if js.any fun q => !regionAwake s q.2.core q.1.spbase.toNat q.1.splim.toNat then
            .later (js.foldl (fun s q => wakeRegion s q.2.core q.1.spbase.toNat q.1.splim.toNat) s)
          else
          match restoreGroup (settleStores s) l js with
          | some s => .later (goFold (updLaunch s launch fun l => { l with resumeCmd := s.curCmd }) launch)
          | none => .later s
        else .later s) s

/-! ### RESOLVE (R328, R336, 13_memory.md R295, 18_host.md R381) -/

/-- The job's escalation. -/
def escalated (j : Job) : Bool :=
  match j.wait with
  | .dvorol c _ => c != .pteInvalid
  | _ => false

/-- An access that PTE_INVALID has stopped is made afresh: an operation's with the first k invalidations behind it, a word's through the
corrected entry. -/
def EngStream.unstop (k : Nat) (x : EngStream) : EngStream :=
  { x with
    halt := if x.halt == .dvorol then .going else x.halt, opHalt := if x.opHalt == .dvorol then .going else x.opHalt
    pipe := if x.opHalt == .dvorol then mapStarted (fun o => [.started { o with fresh := k }]) x.pipe else x.pipe }

/-- Every unit of a job that PTE_INVALID has stopped goes on. -/
def restartStopped (s : State) (id : Nat) : State :=
  let s := updJob s id fun j =>
    { j with
      wait := match j.wait with | .dvorol .pteInvalid _ => .ready | w => w
      marker := match j.wait with | .dvorol .pteInvalid _ => none | _ => j.marker
      ld := j.ld.unstop s.invs, mx := j.mx.unstop s.invs, vx := j.vx.unstop s.invs, st' := j.st'.unstop s.invs
      index := j.index.map fun e => if e.halt == .dvorol then { e with halt := .going, old := none } else e }
  { s with
    chans := s.chans.map fun c => if c.job = id && c.halt == .dvorol then { c with halt := .going, marker := none } else c
    slots := s.slots.map fun x => if x.job = id && x.halt == .dvorol then { x with halt := .going } else x }

/-- Some unit of a job has been stopped by PTE_INVALID. -/
def pteStopped (s : State) (j : Job) : Bool :=
  (match j.wait with | .dvorol .pteInvalid _ => true | _ => false) ||
    engines.any (fun e => (j.eng e).halt == .dvorol || (j.eng e).opHalt == .dvorol) || j.index.any (fun e => e.halt == .dvorol) ||
    s.chans.any (fun c => c.job = j.id && c.halt == .dvorol) || s.slots.any fun x => x.job = j.id && x.halt == .dvorol

/-- The work behind an entry of a fault log goes on: a unit from its progress, a tub's firing once more. -/
def restartLogged (s : State) (id : Nat) (e : FltEntry) : State :=
  match e.tub with
  | none => restartUnit s id e.stream e.sib .trapped false e.slot
  | some k => restartTub s id (some k)

/-- The oldest entry of a fault log is removed as its work is restarted (R336). -/
def restartAbsent (s : State) (id : Nat) : State :=
  match (findJob s id).bind Job.basket with
  | none => s
  | some b =>
    match b.faults with
    | [] => s
    | e :: r => updBasket (restartLogged s id e) id fun b => { b with faults := r }

/-- The units of a context that act for no job and wait for Dvorol go on. -/
def restartHub (s : State) (asid : BitVec 16) : State :=
  { s with
    hubWaits := s.hubWaits.filter fun w => w.asid != asid || !w.dvorol
    chans := s.chans.map fun c =>
      if c.graph.isSome && chanAsid s c == asid && c.halt == .dvorol then { c with halt := .going, marker := none } else c }

/-- Resume is the answer to an escalation: the effect of ERET at TPC. -/
def resumeJob (s : State) (j : Job) : State :=
  let s := focus j.id s
  if bits s.job.tpc 0 2 != 0 then raise s .misaligned s.job.tpc else eretEffect (drain s)

/-- Do k for a job, or complete with status 3. -/
def withJob (s : State) (job : Nat) (k : Job → CmdEnd) : CmdEnd :=
  match findJob s job with
  | none => .done s 3 []
  | some j => k j

/-- RESOLVE. Restarting a job's work, a PTE_INVALID stop of its units comes before an entry of its fault log (log entry 62). -/
def execResolve (job : Nat) (ans : Resolve) (s : State) : Result :=
  command 12 (fun s =>
    match ans with
    | .resume => withJob s job fun j => if escalated j then .done (resumeJob s j) 0 [] else .done s 1 []
    | .restart => withJob s job fun j => .done (if pteStopped s j then restartStopped s job else restartAbsent s job) 0 []
    | .endContext => withJob s job fun j => .done (endContext s j.asid) 0 []
    | .restartUnits asid => withCtx s asid fun _ => .done (restartHub s asid) 0 []
    | .endUnits asid => withCtx s asid fun _ => .done (endContext s asid) 0 []) s

/-! ### Page walks (13_memory.md R291 to R298) -/

/-- Translations that a TLB holds (R296, 01_device.md R8, R10). -/
def TlbAt.size : TlbAt → Nat
  | .l1 _ => 512
  | .die _ => 16384

/-- A translation enters a TLB; the oldest of a full one leaves. -/
def installTlb (e : TlbEntry) (l : List TlbEntry) : List TlbEntry :=
  let here := l.filter fun t => t.at' == e.at'
  (if here.length < e.at'.size then l
    else match l.findIdx? fun t => t.at' == e.at' with | some k => l.eraseIdx k | none => l) ++ [e]

/-- A walk of a core's or a hub unit's access completes: a leaf enters the L1 TLB of the core and the last-level TLB of its die (R296). The
record of a fault is posted by the access that stops (R298). -/
def execPageWalk (asid : BitVec 16) (va : Word) (_acc : Access) (core : Nat) (_stream : Nat) (s : State) : Result :=
  .next <|
    let w := walk s asid va
    if !isZero va 57 7 || inAperture va || w.cause.isSome || (Config.cores ≤ core && core != 0xFFFF) then s
    else
      let n := levelShift w.level
      let held := fun (a : TlbAt) => s.tlb.any fun t =>
        t.at' == a && t.asid == asid && !t.stale && va.toNat / 2 ^ t.bits * 2 ^ t.bits == t.base
      let put := fun (l : List TlbEntry) (a : TlbAt) =>
        if held a then l
        else
          installTlb { at' := a, asid, base := va.toNat / 2 ^ n * 2 ^ n, bits := n, leaf := w.entry, stale := false, born := s.invs,
                       died := 0 } l
      { s with tlb := put (if core = 0xFFFF then s.tlb else put s.tlb (.l1 core)) (.die (dieFor core)) }

/-! ### Scratchpad banks (10_scratchpad.md R244) -/

/-- A bank that no region of a job on the core overlaps is gated, and loses its contents. -/
def execBankGating (core bank : Nat) (s : State) : Result :=
  .next (if mayGate s core bank then gateBanks s [(core, bank)] else s)

/-- The wake of a bank completes: every line reads as zero, without poison. -/
def execBankWakeComplete (core bank : Nat) (s : State) : Result :=
  .next { s with waking := s.waking.filter fun w => !(w.1 == core && w.2.1 == bank && w.2.2 ≤ s.clock) }

end Sys2Proof.Machine
end

