-- ==== Sys2Proof/Machine/Fabric.lean ====
section
/-! DEFINITION. The Jaile fabric (16_fabric.md R338 to R349, 04_jobs.md R85): flits and links, the lint filter, remote operations at their
target, responses, resends and RESYNC. A packet that arrives is an event with its fields; one that arrives in flits is put together and
then has the same effect. -/

namespace Sys2Proof.Machine

/-! ### Admission (R348, R349) -/

/-- The accesses that a request needs: reading, writing, atomics. A store of half a byte is a plain store (06_registers.md R161). -/
def reqNeeds : ReqOp → Bool × Bool × Bool
  | .load => (true, false, false)
  | .store .. | .nibble .. => (false, true, false)
  | _ => (true, true, true)

/-- An entry of the peer permission table admits a request. -/
def peerAdmits (e : BitVec 256) (q : Request) : Bool :=
  let (r, w, a) := reqNeeds q.op
  bitAt e 8 && (bitAt e 9 || bits e 0 8 == q.src) && (!r || bitAt e 10) && (!w || bitAt e 11) && (!a || bitAt e 12) &&
    bitAt e 13 == q.ddr && bits e 16 16 == q.asid && (bits e 64 64).toNat ≤ q.pa &&
    q.pa + q.size ≤ (bits e 64 64).toNat + (bits e 128 64).toNat

/-- Some valid entry admits it. -/
def admitted (s : State) (q : Request) : Bool := s.peers.any fun e => peerAdmits e.2 q

/-! ### Responses and the lint filter (R343, R345) -/

/-- What a request has come to. -/
structure Reply where
  status : BitVec 8
  result : Word
  data : List Byte
  poisoned : Bool
  deriving DecidableEq, Repr

/-- A reply with a status, and one with a result. -/
def Reply.of (status : BitVec 8) : Reply := { status, result := 0, data := [], poisoned := false }
def Reply.done (result : Word) : Reply := { status := 0, result, data := [], poisoned := false }

/-- The response to a request. -/
def responseTo (s : State) (q : Request) (r : Reply) : Response :=
  { status := r.status, src := ownIndex s, tgt := q.src, seq := q.seq, result := r.result, data := r.data, poisoned := r.poisoned }

/-- A response is sent, and waits for a link where it must. -/
def respond (s : State) (q : Request) (r : Response) : State :=
  let load := match q.op with | .load => r.status == 0 | _ => false
  sendFree { s with sentResp := s.sentResp ++ [r] } 2 (respFlits r load)

/-- Sequence number a stands before b, modulo 2^32 within 2^31. -/
def seqBefore (a b : BitVec 32) : Bool := a != b && (b - a).toNat < 2 ^ 31

/-- The window of a source device, and replaced. -/
def srcWindow (s : State) (src : BitVec 8) : Window := (s.windows.find? fun w => w.src == src).getD { src, base := 0, done := [] }
def putWindow (s : State) (w : Window) : State := { s with windows := s.windows.filter (fun x => x.src != w.src) ++ [w] }

/-- The base moves up to ACKB, and the entries below it are dropped. -/
def Window.ack (w : Window) (ackb : BitVec 32) : Window :=
  let base := if seqBefore w.base ackb then ackb else w.base
  { w with base, done := w.done.filter fun d => !seqBefore d.1 base }

/-- A request through the lint filter: perform is done at most once for its SEQ, and answered always. One beyond the window is dropped. -/
def lint (s : State) (q : Request) (perform : State → Reply × State) : State :=
  if q.epoch != s.epoch then respond s q (responseTo s q (.of 4))
  else
    let w := (srcWindow s q.src).ack q.ackb
    let s := putWindow s w
    match w.done.find? fun d => d.1 == q.seq with
    | some d => respond s q d.2
    | none =>
      if seqBefore q.seq w.base then respond s q (responseTo s q (.done 0))
      else if 4096 ≤ (q.seq - w.base).toNat then s
      else
        let (r, t) := perform s
        let r := responseTo t q r
        respond (putWindow t { w with done := w.done ++ [(q.seq, r)] }) q r

/-! ### Remote operations at the target (R349) -/

/-- Perform k at the target's memory: the entry that admits the request, and its address in the tier. -/
def atTarget (q : Request) (k : Space → State → Reply × State) (s : State) : Reply × State :=
  if !admitted s q then (.of 1, s)
  else if tierBytes s q.ddr < q.pa + q.size then (.of 3, s)
  else k (if q.ddr then .ddr else .hbm) s

/-- The request writes. -/
def reqWrites : ReqOp → Bool
  | .load | .launch .. | .wringer .. => false
  | _ => true

/-- The lint filter takes the request for a new one. -/
def fresh (s : State) (q : Request) : Bool :=
  let w := (srcWindow s q.src).ack q.ackb
  q.epoch == s.epoch && !(w.done.any fun d => d.1 == q.seq) && !seqBefore q.seq w.base && (q.seq - w.base).toNat < 4096

/-- The page that a migration moves away holds the request's bytes. -/
def MapWork.moves (w : MapWork) (q : Request) : Bool :=
  w.step != 0 && bitAt w.entry 5 == q.ddr && (bits w.entry 16 36).toNat * 65536 < q.pa + q.size &&
    q.pa < (bits w.entry 16 36).toNat * 65536 + w.size

/-- The bytes that a request of another device names. -/
def Request.span (q : Request) : Span := { far := none, sp := if q.ddr then .ddr else .hbm, a := q.pa, n := q.size }

/-- The unit of this device that has made a request: that of one which the device makes of itself. -/
def sender (s : State) (q : Request) : Unit :=
  if q.src = ownIndex s then ((s.outs.find? fun o => o.req.tgt == q.tgt && o.req.seq == q.seq).map Out.unit).getD .gone else .gone

/-- A write of another device is held like any write: its page is being moved, or a request before it of its party and class is held
(13_memory.md R302, 14_ordering.md R318). An access to bytes that another unit updates at two places comes behind that
(12_copy_index.md R285). -/
def heldHere (s : State) (q : Request) : Bool :=
  (reqWrites q.op && s.works.any fun w => w.moves q) || guarded s (sender s q) (Request.span q) ||
    s.heldReqs.any fun h => h.src == q.src && h.party == q.party && h.cls == q.cls

/-- A load. A poisoned line gives zeros, or under TRAP status 2. -/
def loadHere (q : Request) (sp : Space) (s : State) : Reply × State :=
  if !lineBad s sp q.pa then ({ Reply.done 0 with data := getBytes s sp q.pa q.size }, s)
  else if q.poison == .trap then (.of 2, s)
  else ({ Reply.done 0 with data := List.replicate q.size 0, poisoned := true }, s)

/-- A read-modify-write of the bytes that the request names, a doubleword or one byte of a bitmap (log entry 22); a poisoned line is left
alone. -/
def atomicHere (q : Request) (f : Word → Option Word) (sp : Space) (s : State) : Reply × State :=
  if lineBad s sp q.pa then (.of 2, s)
  else
    let old : Word := ofBytes 64 (getBytes s sp q.pa q.size)
    match f old with
    | none => (.done old, s)
    | some v => (.done old, storeLine s sp q.pa none (leBytes q.size v.toNat) false)

/-- A store of one half of a byte, which keeps the other half, as one read-modify-write (06_registers.md R161). -/
def nibbleHere (q : Request) (high : Bool) (v : BitVec 4) (sp : Space) (s : State) : Reply × State :=
  let old := (getByte s sp q.pa).toNat
  let new := if high then old % 16 + v.toNat * 16 else old / 16 * 16 + v.toNat
  (.done 0, storeLine s sp q.pa none [BitVec.ofNat 8 new] false)

/-- The bytes of an element, or of elements, stored line by line. -/
def putLines (q : Request) (sp : Space) (d : List Byte) (bad : Bool) (s : State) : State :=
  (lineParts (q.pa % 64) q.size).foldl (fun s c => storeLine s sp (q.pa + c.1) none ((d.drop c.1).take c.2) bad) s

/-- A line of the bytes is poisoned. -/
def linesBad (q : Request) (sp : Space) (s : State) : Bool := (lineParts (q.pa % 64) q.size).any fun c => lineBad s sp (q.pa + c.1)

/-- One element of STA, which may lie across two lines: the sum rounded once, and its flags as the result (06_registers.md R158). -/
def scatterHere (q : Request) (mem reg : Fmt) (mode : RMode) (sat : Bool) (v : Word) (sp : Space) (s : State) : Reply × State :=
  let bad := linesBad q sp s
  if bad && q.poison == .trap then (.of 2, s)
  else
    let (w, fl) := staSum mode sat reg mem (if bad then 0 else leNat (getBytes s sp q.pa q.size)) v.toNat
    (.done ((fl ||| flIf bad flPOI).setWidth 64), putLines q sp (leBytes q.size w) false s)

/-- The operations of R121. -/
def amoApply (op : Fin 8) (old v : Word) : Word :=
  match op with
  | 0 => v | 1 => old + v | 2 => old &&& v | 3 => old ||| v | 4 => old ^^^ v | 5 => minS old v | 6 => maxS old v | 7 => maxU old v

/-- A chunk of a RED record, or elements of SCA, one of which may lie across two lines: applied at one moment, with a result that says whether
a line was poisoned. -/
def reduceAt (q : Request) (op : ROp) (f : RFmt) (mode : RMode) (sat : Bool) (d : List Byte) (bad : Bool) (sp : Space) (s : State) :
    Reply × State :=
  let poisoned := linesBad q sp s
  if poisoned && q.poison == .trap then (.of 2, s)
  else
    let new := combineBytes op f mode sat (if poisoned then List.replicate q.size 0 else getBytes s sp q.pa q.size) d
    (.done (if poisoned then 1 else 0), putLines q sp new (q.poison == .pass && (poisoned || bad)) s)

/-- What a request of each kind does at its bytes; the kinds that reach no memory do nothing here. -/
def actHere (q : Request) : Space → State → Reply × State :=
  match q.op with
  | .load => loadHere q
  | .store d bad => fun sp s => (.done 0, storeLine s sp q.pa none d bad)
  | .nibble high v => nibbleHere q high v
  | .amo op v => atomicHere q fun old => some (amoApply op old v)
  | .cas new cmp _ => atomicHere q fun old => if old = cmp then some new else none
  | .reduce op f mode sat d bad => reduceAt q op f mode sat d bad
  | .scatterAdd mem reg mode sat v => scatterHere q mem reg mode sat v
  | .launch .. | .wringer .. => fun _ s => (.done 0, s)

/-- A request at its target, through the lint filter. One that is held is kept, and not answered yet. -/
def remote (q : Request) (s : State) : State :=
  if fresh s q && admitted s q && heldHere s q then
    if s.heldReqs.any fun h => h.src == q.src && h.seq == q.seq then s else { s with heldReqs := s.heldReqs ++ [q] }
  else lint s q (atTarget q (actHere q))

/-- A held request whose page has been released is performed where its bytes are now; what admitted it stands. -/
def released (k : Nat) (s : State) : State :=
  match s.heldReqs[k]? with
  | none => s
  | some q =>
    let t := { s with heldReqs := s.heldReqs.eraseIdx k }
    let before := (s.heldReqs.take k).any fun h => h.src == q.src && h.party == q.party && h.cls == q.cls
    if before || guarded s (sender s q) (Request.span q) || s.works.any fun w => w.moves q then s
    else lint t { q with epoch := s.epoch } (actHere q (if q.ddr then .ddr else .hbm))

/-! A request of another kind than its event names changes nothing. -/

def execRemoteLoad (r : Request) (s : State) : Result :=
  .next (match r.op with | .load => remote r s | _ => s)

def execRemoteStore (r : Request) (s : State) : Result :=
  .next (match r.op with | .store .. | .nibble .. => remote r s | _ => s)

def execRemoteAmo (r : Request) (s : State) : Result :=
  .next (match r.op with | .amo .. => remote r s | _ => s)

def execRemoteCas (r : Request) (s : State) : Result :=
  .next (match r.op with | .cas .. => remote r s | _ => s)

def execRemoteReduce (r : Request) (s : State) : Result :=
  .next (match r.op with | .reduce .. | .scatterAdd .. => remote r s | _ => s)

/-- A replicated group: enqueued on the queue of the same number, judged by R86 and R87 here. The result is the code of a refusal, else
0. The peer permission table judges memory accesses only. CSYNC names a barrier of the context's table here, and one that it lacks is refused with
code 1 (DESIGN CHOICE, log entry 66). -/
def execJaileLaunchMessage (r : Request) (s : State) : Result :=
  .next (match r.op with
    | .launch q addr rec' counts tiles skips idx =>
      lint s r fun s =>
        let csync := fun o => (contextOf s r.asid).bind fun c => c.barAt o
        match admitLaunch s r.asid addr (ofBytes 2048 rec') q counts tiles skips idx (.peer r.src) csync with
        | .error (.code n) => (.done (BitVec.ofNat 64 n), s)
        | .error (.csync _) => (.done 1, s)
        | .ok l => (.done 0, enqueueOr s l)
    | _ => s)

/-- What a descriptor that comes from another device asks of this one: its own part of the collective, with the unit that sends it, where
that has been sent to its own participants, or has completed, and the other device was not among them (R353, log entry 17). -/
def partAsked (s : State) (x : PartIn) : Option (Unit × PeerPart) :=
  if x.part.send.isSome then none
  else
    match s.slots.find? fun y => y.asid == x.asid && x.of y with
    | some y => if y.phase == 0 || y.part.members.contains x.dev then none else some (.wringer y.id, y.part)
    | none =>
      match s.parts.find? fun q => q.dev == ownIndex s && q.asid == x.asid && q.tag == x.tag && q.part.num == x.part.num with
      | some q => if q.part.members.contains x.dev then none else some (.gone, q.part)
      | none => none

/-- A wringer packet: the sender's part of a collective, or more of it. The first one of a device that asks is answered with this device's
part. -/
def takePart (s : State) (x : PartIn) : State :=
  let mine := fun (q : PartIn) => q.dev == x.dev && q.asid == x.asid && q.tag == x.tag && q.part.num == x.part.num
  let t := { s with parts := s.parts.filter (fun q => !mine q) ++ [x] }
  if s.parts.any mine then t
  else
    match partAsked s x with
    | none => t
    | some (u, part) => postReq t u 0 (request t (packetParty u 0 x.asid part.desc) (.wringer x.tag part) x.dev false 0 0 .trap)

/-- A packet that must be answered where nothing may be sent (R344) is not performed yet: it comes again. -/
def execWringerTraffic (r : Request) (s : State) : Result :=
  .next (match r.op with
    | .wringer tag part =>
      let x : PartIn := { dev := r.src, asid := r.asid, tag, part }
      if (partAsked s x).isSome && !roomTo s r.src then s else lint s r fun s => (.done 0, takePart s x)
    | _ => s)

/-! ### Responses, resends, failures (R344, R346) -/

/-- A replicated group of a launch has been refused, or its message has failed (04_jobs.md R89). -/
def countRefusal (s : State) : Unit → State
  | .launch id => updLaunch s id fun l => { l with refs := l.refs + 1 }
  | _ => s

/-- A request's response has come: a launch's message counts a refusal, a wringer packet needs nothing more unless it has failed, and any
other unit takes the response when it goes on. -/
def takeResponse (s : State) (o : Out) (r : Response) : State :=
  match o.req.op, o.unit with
  | .launch .., u => if r.status != 0 || r.result != 0 then countRefusal s u else s
  | _, .gone => s
  | .wringer .., _ => if r.status = 0 then s else { s with outs := s.outs ++ [{ o with st := .failed, resynced := true }] }
  | _, u => { s with rbuf := s.rbuf ++ [{ unit := u, key := o.key, req := o.req, resp := r }] }

/-- A response that no request waits for changes nothing. -/
def execResponse (r : Response) (s : State) : Result :=
  .next <|
    match s.outs.find? fun o => o.req.tgt == r.src && o.req.seq == r.seq && o.st == .waiting && !o.resynced && o.sends != 0 with
    | some o =>
      if r.tgt = ownIndex s then sendWaiting (takeResponse { s with outs := s.outs.filter (· != o) } o r) else s
    | none => s

/-- A request fails: its party sees it, and a launch counts its group as refused, the message's SEQ staying reserved (R346). -/
def failOut (s : State) (o : Out) : State :=
  let put := fun (y : Out) => { s with outs := s.outs.map fun x => if x == o then y else x }
  match o.req.op with
  | .launch .. => countRefusal (put { o with unit := .gone, st := .reported }) o.unit
  | _ => put { o with st := .failed }

/-- Dvorol reports that no route to a device can come up: every request to it fails. -/
def noRoute (s : State) (dev : BitVec 8) : State :=
  (s.outs.filter fun o => o.req.tgt == dev && o.st == .waiting && !o.resynced).foldl failOut s

/-- The clocks of 50 µs. -/
def resendClocks : Nat := 75000

/-- A request is sent again 50 µs after a send without a response; after 40 sends it fails, and so does one that no route can reach. -/
def execRequestResend (tgt : BitVec 8) (seq : BitVec 32) (s : State) : Result :=
  .next <|
    match s.outs.findIdx? fun o => o.req.tgt == tgt && o.req.seq == seq && o.st == .waiting && !o.resynced with
    | none => s
    | some k =>
      match s.outs[k]? with
      | none => s
      | some o =>
        if o.sends = 0 then (if inFabric s tgt then s else failOut s o)
        else if s.clock - o.last < resendClocks then s
        else if 40 ≤ o.sends then failOut s o
        else
          match trySend s (s.outs.take k) o with
          | none => s
          | some (t, q) => { t with outs := t.outs.map fun x => if x == o then { o with req := q, sends := o.sends + 1, last := s.clock } else x }

/-! ### RESYNC (R347) -/

/-- A request that a RESYNC finds without a response: it has failed. -/
def resyncOut (s : State) (o : Out) : State :=
  match o.req.op with
  | .launch .. => countRefusal s o.unit
  | _ =>
    match o.unit with
    | .gone => s
    | _ => { s with outs := s.outs ++ [{ o with resynced := true, st := if o.st == .reported then .reported else .failed }] }

/-- A RESYNC from a device, or its answer to ours. What it had asked for before its reset, and a held page still keeps, is not performed
(DESIGN CHOICE, log entry 65). -/
def execResync (src : BitVec 8) (epoch : BitVec 32) (answer : Bool) (s : State) : Result :=
  .next <|
    if answer then { s with epochs := assign s.epochs src epoch, resyncs := s.resyncs.filter fun r => r.1 != src }
    else
      let known := s.epochs.any fun e => e.1 == src && e.2 == epoch
      let s := if known then s
        else
          let hit := fun (o : Out) => o.req.tgt == src && !o.resynced
          let t := (s.outs.filter hit).foldl resyncOut { s with outs := s.outs.filter fun o => !hit o }
          { t with
            windows := t.windows.filter fun w => w.src != src, heldReqs := t.heldReqs.filter fun h => h.src != src
            seqs := t.seqs.filter fun q => q.1 != src, epochs := assign t.epochs src epoch }
      sendFree s 3 [resyncFlit s src ||| 0x100#512]

/-- A RESYNC without an answer is sent again after 50 µs. -/
def execResyncResend (tgt : BitVec 8) (s : State) : Result :=
  .next <|
    if s.resyncs.any fun r => r.1 == tgt && r.2.1 && resendClocks ≤ s.clock - r.2.2 then
      sendFree { s with resyncs := assign s.resyncs tgt (true, s.clock) } 3 [resyncFlit s tgt]
    else s

/-! ### Flits (R341, R342) -/

/-- A store of a header: of bytes, or of half a byte (log entry 22). -/
def decodeStore (a : Word) (d : List Byte) : ReqOp := if bitAt a 1 then .nibble (bitAt a 2) (bits a 4 4) else .store d (bitAt a 0)

/-- A reduction of a header: of a chunk, or of one element of STA (log entry 22). -/
def decodeReduce (h : BitVec 512) (a v : Word) (d : List Byte) : Option ReqOp :=
  match RMode.ofCode (bits a 0 3) with
  | none => none
  | some mode =>
    if bitAt a 5 then
      match Fmt.ofCode (bits h 202 4), Fmt.ofCode (bits a 8 4) with
      | some mem, some reg => some (.scatterAdd mem reg mode (bitAt a 3) v)
      | _, _ => none
    else
      match ROp.ofCode (bits h 200 2 |>.setWidth 8), RFmt.ofCode (bits h 202 4 |>.setWidth 8) with
      | some o, some r => some (.reduce o r mode (bitAt a 3) d (bitAt a 4))
      | _, _ => none

/-- The request in a header with the bytes that follow it; none for a reserved kind or code, and for kinds without a layout. -/
def decodeRequest (h : BitVec 512) (d : List Byte) : Option Request :=
  let f := fun k n => bits h (8 * k) (8 * n)
  let size := (f 24 1).toNat % 64 + 1
  let op : Option ReqOp :=
    match (f 0 1).toNat with
    | 1 => some .load
    | 2 => some (decodeStore (f 32 8) (d.take size))
    | 3 => if (f 25 1).toNat < 8 then some (.amo (bits h 200 3).toFin (f 32 8)) else none
    | 4 => some (.cas (f 32 8) (f 40 8) (bits h 200 3))
    | 5 => decodeReduce h (f 32 8) (f 40 8) (d.take size)
    | _ => none
  match op, Poison.ofCode (bits h 12 2) with
  | some op, some poison =>
    some { op, cls := (bits h 8 4).toFin, poison, ddr := bitAt h 14, detoured := bitAt h 15, src := f 2 1, tgt := f 3 1, seq := f 4 4
           ackb := f 8 4, asid := f 12 2, party := f 14 2, pa := (f 16 8).toNat, size, epoch := f 28 4 }
  | _, _ => none

/-- The response in a flit with the data that follow it. -/
def decodeResponse (h : BitVec 512) (d : List Byte) : Response :=
  { status := bits h 8 8, src := bits h 16 8, tgt := bits h 24 8, seq := bits h 32 32, result := bits h 128 64, data := d
    poisoned := !d.isEmpty && bits h 128 64 == 1 }

/-- A request acts at its target. -/
def performRequest (q : Request) (s : State) : Result :=
  match q.op with
  | .load => execRemoteLoad q s
  | .store .. | .nibble .. => execRemoteStore q s
  | .amo .. => execRemoteAmo q s
  | .cas .. => execRemoteCas q s
  | .reduce .. | .scatterAdd .. => execRemoteReduce q s
  | .launch .. => execJaileLaunchMessage q s
  | .wringer .. => execWringerTraffic q s

/-- A whole packet: passed on towards its target, or acting here. -/
def packet (s : State) (vc : Nat) : List (BitVec 512) → Result
  | [] => .next s
  | h :: r =>
    let d := r.flatMap fun p => toBytes p
    if bits h 24 8 != ownIndex s then .next (sendFree s vc (h :: r))
    else if bits h 0 8 == 8 then execResponse (decodeResponse h d) s
    else if bits h 0 8 == 9 then execResync (bits h 16 8) (bits h 224 32) (bitAt h 8) s
    else
      match decodeRequest h d with
      | some q => performRequest q s
      | none => .next s

/-- LSEQ of a flit. -/
def lseqOf (f : Flit) : Nat := (bits f.ctl 32 12).toNat

/-- The flits up to LACK are acknowledged; the count of replays of one of them ends with it. -/
def Link.acked (x : Link) (lack : Nat) : Link :=
  let kept := fun (f : Flit) => 2048 ≤ (lack + 4096 - lseqOf f) % 4096
  let tx := x.tx.filter kept
  { x with tx, wire := x.wire.filter kept, again := if tx.any fun f => lseqOf f == x.again.1 then x.again else (x.again.1, 0) }

/-- The partner at a port asks for a replay: every flit of the retry buffer from that one onward is sent again, in order. A ninth replay of one
flit is not made: the link goes down (log entry 49). -/
def replayLink (s : State) (port lseq : Nat) : State :=
  let x := linkOf s port
  let n := if x.again.1 = lseq then x.again.2 else 0
  if !x.up then s
  else if 8 ≤ n then linkSet s port false
  else putLink s port { x with wire := x.wire ++ x.tx.dropWhile (fun f => lseqOf f != lseq), again := (lseq, n + 1) }

/-- The replay that was asked for begins to arrive. -/
def replayed (s : State) (port : Nat) : State :=
  let x := linkOf s port
  if x.up && x.ask then putLink s port { x with ask := false, replays := x.replays + 1 } else s

/-- A flit that is dropped asks for a replay, unless one is on its way; after eight replays of the flit that is to come the link goes down. -/
def dropFlit (s : State) (port : Nat) (x : Link) : State :=
  if x.ask then putLink s port x
  else if 8 ≤ x.replays then linkSet s port false
  else putLink s port { x with ask := true }

/-- A flit arrives at a port. -/
def execFlitReceive (port : Nat) (f : Flit) (s : State) : Result :=
  let x := linkOf s port
  let high : BitVec 32 := bits f.ctl 32 32
  if !x.up then .next s
  else if flitCrc f.payload high != (bits f.ctl 0 32).toNat then .next (dropFlit s port x)
  else
    let y := x.acked (bits high 12 12).toNat
    if (bits high 0 12).toNat != x.rxNext then .next (dropFlit s port y)
    else
      let vc := (bits high 24 3).toNat
      let rest := y.rx.filter fun p => p.1 != vc
      let before := if bitAt high 27 then [] else y.rx.filter fun p => p.1 == vc
      let pkt := before ++ [(vc, f.payload)]
      let z := { y with rxNext := (x.rxNext + 1) % 4096, replays := 0, ask := false }
      if bitAt high 28 then packet (putLink s port { z with rx := rest }) vc (pkt.map Prod.snd)
      else .next (putLink s port { z with rx := rest ++ pkt })

/-- A link loses lock, or has been replayed eight times. -/
def execLinkDown (port : Nat) (s : State) : Result := .next (if (linkOf s port).up then linkSet s port false else s)

/-- A connected link that has been trained comes up, where it may, and requests that waited for a route are sent. -/
def execLinkUp (port : Nat) (s : State) : Result :=
  .next (if mayComeUp s port && !(linkOf s port).up then sendWaiting (linkSet s port true) else s)

/-- Dvorol learns that a link between two other devices is up, or down (R340). -/
def farLink (s : State) (a b : BitVec 8) (up : Bool) : State :=
  let rest := s.farDown.filter fun l => l != (a, b) && l != (b, a)
  sendWaiting { s with farDown := if up then rest else rest ++ [(a, b)] }

end Sys2Proof.Machine
end

