-- ==== Sys2Proof/Machine/Reset.lean ====
section
/-! DEFINITION. Device reset and bring-up (18_host.md R383 to R386, 16_fabric.md R347). -/

namespace Sys2Proof.Machine

/-- The last step that bring-up completes. -/
def bootEnd (r : ResetIn) : Nat := if r.failAt = 0 || 7 < r.failAt then 7 else r.failAt - 1

/-- The devices of the fabric but this one. -/
def otherDevices (s : State) : List (BitVec 8) :=
  ((List.range (s.rows.val + 1)).flatMap fun r => (List.range (s.cols.val + 1)).map fun c => devAt r c).filter (· != ownIndex s)

/-- The partner at a port reports the coordinate that R338 gives for it, and the same Rn and Cn (R385). -/
def portAgrees (s : State) (p : PortIn) : Bool :=
  connected s p.port && devAt p.row.val p.col.val == portPeer s p.port && p.rows == s.rows && p.cols == s.cols

/-- What partners report is compared: a port whose partner agrees may come up, and one whose partner disagrees stays down and is logged
(R385). -/
def compareReports (s : State) (l : List PortIn) : State :=
  let bad := (l.filter fun p => !portAgrees s p).map PortIn.port
  { s with
    errLog := s.errLog ++ bad.map .badPort
    goodPorts := s.goodPorts.filter (fun p => !bad.contains p) ++ (l.filter (portAgrees s)).map PortIn.port }

/-- A partner reports later, when a link that is down trains. -/
def partnerReports (s : State) (p : PortIn) : State := if (linkOf s p.port).up then s else compareReports s [p]

/-- Step 6: the ports whose partners agree come up, those whose partners disagree stay down and are logged; a device without a port is a
fabric of one until the next reset, with which what a partner reports later is compared (DESIGN CHOICE, log entry 67). The reset epoch is incremented, and a RESYNC goes to every other device as soon as a route is up. -/
def trainPorts (r : ResetIn) (s : State) : State :=
  let up := (r.ports.filter (portAgrees s)).map PortIn.port
  let s := { compareReports s r.ports with epoch := s.epoch + 1 }
  if up.isEmpty then { s with row := 0, col := 0, rows := 0, cols := 0 }
  else
    let s := up.foldl (fun s p => linkSet s p true) s
    sendWaiting { s with resyncs := (otherDevices s).map fun d => (d, false, s.clock) }

/-- The largest DDR-5 that a module carries (01_device.md R11). -/
def ddrLimit : Nat := 2 ^ 41

/-- A patch table is applied: its signature verifies under the vendor key whose digest is fused, and its version is at least the fused
minimum (R383). -/
def patchGood (table fuses : List Byte) : Bool :=
  shake256 (Config.patchKey table) == Config.fusedKey fuses && Config.falconVerify (Config.patchKey table) table &&
    decide (Config.fusedMin fuses ≤ Config.patchVersion table)

/-- What step 2 measures: the ROM, the patch table as read, and the fuse configuration (R386). -/
def bootMeasures (table : List Byte) : List (BitVec 512) := [Config.romImage, table, Config.fuses].map shake256

/-- The steps of bring-up up to the last that completes, at one moment (log entry 1). -/
def bringUp (r : ResetIn) (s : State) : State :=
  let n := bootEnd r
  let s := { s with row := r.row, col := r.col, rows := r.rows, cols := r.cols, clock := 0 }
  let good := patchGood r.patch Config.fuses
  let s := if 2 ≤ n then { s with measures := bootMeasures r.patch, patchApplied := good, patchRejected := !good } else s
  let s := if 4 ≤ n then { s with ddrBytes := min r.ddrBytes ddrLimit } else s
  let s := if 6 ≤ n then trainPorts r s else s
  { s with bootStep := n, bootFail := if n = 7 then 0 else r.failAt }

/-- What a device reset keeps: the memories of the host and of the two tiers (log entry 2), the epoch in the module's flash, and what is
the model's own. -/
def resetKeeping (s : State) : State :=
  { State.reset with
    hbm := s.hbm, ddr := s.ddr, host := s.host, hbmPoison := s.hbmPoison, ddrPoison := s.ddrPoison, epoch := s.epoch
    agenda := s.agenda, turns := s.turns, delay := s.delay, units := s.units, freeCtr := s.freeCtr, nextJob := s.nextJob
    nextLaunch := s.nextLaunch }

/-- A power-on, a fundamental reset or a hot reset. -/
def execDeviceReset (r : ResetIn) (s : State) : Result := .next (bringUp r (resetKeeping s))

/-- What a reset finds where no event says otherwise: the straps as they stand, no DDR-5, no port (log entry 1). -/
def plainReset (s : State) : ResetIn :=
  { row := s.row, col := s.col, rows := s.rows, cols := s.cols, ddrBytes := 0, ports := []
    patch := Config.flashTable, failAt := 0 }

end Sys2Proof.Machine
end

