-- ==== Sys2Proof/Machine/Dispatch.lean ====
section
/-! DEFINITION. The dispatch: one arm per constructor of Instr, each one direct call of its meaning. -/

namespace Sys2Proof.Machine

/-- The meaning of an instruction in a state. -/
def exec (i : Instr) (s : State) : Host.Outcome State Fault Refusal :=
  match i with
  | .add d a b => Sys2Proof.Machine.execAdd d a b s
  | .sub d a b => Sys2Proof.Machine.execSub d a b s
  | .mul d a b => Sys2Proof.Machine.execMul d a b s
  | .mulh d a b => Sys2Proof.Machine.execMulh d a b s
  | .mulhu d a b => Sys2Proof.Machine.execMulhu d a b s
  | .div d a b => Sys2Proof.Machine.execDiv d a b s
  | .divu d a b => Sys2Proof.Machine.execDivu d a b s
  | .rem d a b => Sys2Proof.Machine.execRem d a b s
  | .remu d a b => Sys2Proof.Machine.execRemu d a b s
  | .and d a b => Sys2Proof.Machine.execAnd d a b s
  | .or d a b => Sys2Proof.Machine.execOr d a b s
  | .xor d a b => Sys2Proof.Machine.execXor d a b s
  | .shl d a b => Sys2Proof.Machine.execShl d a b s
  | .shr d a b => Sys2Proof.Machine.execShr d a b s
  | .sra d a b => Sys2Proof.Machine.execSra d a b s
  | .min d a b => Sys2Proof.Machine.execMin d a b s
  | .max d a b => Sys2Proof.Machine.execMax d a b s
  | .minu d a b => Sys2Proof.Machine.execMinu d a b s
  | .maxu d a b => Sys2Proof.Machine.execMaxu d a b s
  | .slt d a b => Sys2Proof.Machine.execSlt d a b s
  | .sltu d a b => Sys2Proof.Machine.execSltu d a b s
  | .clz d a => Sys2Proof.Machine.execClz d a s
  | .popc d a => Sys2Proof.Machine.execPopc d a s
  | .sel d a b => Sys2Proof.Machine.execSel d a b s
  | .addi d a im => Sys2Proof.Machine.execAddi d a im s
  | .andi d a im => Sys2Proof.Machine.execAndi d a im s
  | .ori d a im => Sys2Proof.Machine.execOri d a im s
  | .xori d a im => Sys2Proof.Machine.execXori d a im s
  | .shli d a n => Sys2Proof.Machine.execShli d a n s
  | .shri d a n => Sys2Proof.Machine.execShri d a n s
  | .srai d a n => Sys2Proof.Machine.execSrai d a n s
  | .slti d a im => Sys2Proof.Machine.execSlti d a im s
  | .lih d im => Sys2Proof.Machine.execLih d im s
  | .lsh d u => Sys2Proof.Machine.execLsh d u s
  | .beq a b o => Sys2Proof.Machine.execBeq a b o s
  | .bne a b o => Sys2Proof.Machine.execBne a b o s
  | .blt a b o => Sys2Proof.Machine.execBlt a b o s
  | .bge a b o => Sys2Proof.Machine.execBge a b o s
  | .bltu a b o => Sys2Proof.Machine.execBltu a b o s
  | .bgeu a b o => Sys2Proof.Machine.execBgeu a b o s
  | .jal d o => Sys2Proof.Machine.execJal d o s
  | .jalr d a im => Sys2Proof.Machine.execJalr d a im s
  | .ld d a c z o => Sys2Proof.Machine.execLd d a c z o s
  | .ldu d a c z o => Sys2Proof.Machine.execLdu d a c z o s
  | .st d a c z o => Sys2Proof.Machine.execSt d a c z o s
  | .lda d a z c p => Sys2Proof.Machine.execLda d a z c p s
  | .stl d a z c p => Sys2Proof.Machine.execStl d a z c p s
  | .amoSwap d a b c p => Sys2Proof.Machine.execAmoSwap d a b c p s
  | .amoAdd d a b c p => Sys2Proof.Machine.execAmoAdd d a b c p s
  | .amoAnd d a b c p => Sys2Proof.Machine.execAmoAnd d a b c p s
  | .amoOr d a b c p => Sys2Proof.Machine.execAmoOr d a b c p s
  | .amoXor d a b c p => Sys2Proof.Machine.execAmoXor d a b c p s
  | .amoMin d a b c p => Sys2Proof.Machine.execAmoMin d a b c p s
  | .amoMax d a b c p => Sys2Proof.Machine.execAmoMax d a b c p s
  | .amoMaxu d a b c p => Sys2Proof.Machine.execAmoMaxu d a b c p s
  | .amoaSwap d a b c p => Sys2Proof.Machine.execAmoaSwap d a b c p s
  | .amoaAdd d a b c p => Sys2Proof.Machine.execAmoaAdd d a b c p s
  | .amoaAnd d a b c p => Sys2Proof.Machine.execAmoaAnd d a b c p s
  | .amoaOr d a b c p => Sys2Proof.Machine.execAmoaOr d a b c p s
  | .amoaXor d a b c p => Sys2Proof.Machine.execAmoaXor d a b c p s
  | .amoaMin d a b c p => Sys2Proof.Machine.execAmoaMin d a b c p s
  | .amoaMax d a b c p => Sys2Proof.Machine.execAmoaMax d a b c p s
  | .amoaMaxu d a b c p => Sys2Proof.Machine.execAmoaMaxu d a b c p s
  | .amolSwap d a b c p => Sys2Proof.Machine.execAmolSwap d a b c p s
  | .amolAdd d a b c p => Sys2Proof.Machine.execAmolAdd d a b c p s
  | .amolAnd d a b c p => Sys2Proof.Machine.execAmolAnd d a b c p s
  | .amolOr d a b c p => Sys2Proof.Machine.execAmolOr d a b c p s
  | .amolXor d a b c p => Sys2Proof.Machine.execAmolXor d a b c p s
  | .amolMin d a b c p => Sys2Proof.Machine.execAmolMin d a b c p s
  | .amolMax d a b c p => Sys2Proof.Machine.execAmolMax d a b c p s
  | .amolMaxu d a b c p => Sys2Proof.Machine.execAmolMaxu d a b c p s
  | .amoalSwap d a b c p => Sys2Proof.Machine.execAmoalSwap d a b c p s
  | .amoalAdd d a b c p => Sys2Proof.Machine.execAmoalAdd d a b c p s
  | .amoalAnd d a b c p => Sys2Proof.Machine.execAmoalAnd d a b c p s
  | .amoalOr d a b c p => Sys2Proof.Machine.execAmoalOr d a b c p s
  | .amoalXor d a b c p => Sys2Proof.Machine.execAmoalXor d a b c p s
  | .amoalMin d a b c p => Sys2Proof.Machine.execAmoalMin d a b c p s
  | .amoalMax d a b c p => Sys2Proof.Machine.execAmoalMax d a b c p s
  | .amoalMaxu d a b c p => Sys2Proof.Machine.execAmoalMaxu d a b c p s
  | .cas d a b o c p => Sys2Proof.Machine.execCas d a b o c p s
  | .fenceAcq m p => Sys2Proof.Machine.execFenceAcq m p s
  | .fenceRel m p => Sys2Proof.Machine.execFenceRel m p s
  | .fenceFull m p => Sys2Proof.Machine.execFenceFull m p s
  | .waitaEq d a b c => Sys2Proof.Machine.execWaitaEq d a b c s
  | .waitaNe d a b c => Sys2Proof.Machine.execWaitaNe d a b c s
  | .push m a => Sys2Proof.Machine.execPush m a s
  | .popr d => Sys2Proof.Machine.execPopr d s
  | .qcut a => Sys2Proof.Machine.execQcut a s
  | .ltrim m a => Sys2Proof.Machine.execLtrim m a s
  | .sets n a => Sys2Proof.Machine.execSets n a s
  | .gets d n => Sys2Proof.Machine.execGets d n s
  | .hld n a c o => Sys2Proof.Machine.execHld n a c o s
  | .hst n a c o => Sys2Proof.Machine.execHst n a c o s
  | .hset n a z => Sys2Proof.Machine.execHset n a z s
  | .hget d n z => Sys2Proof.Machine.execHget d n z s
  | .bari a o => Sys2Proof.Machine.execBari a o s
  | .barv a o => Sys2Proof.Machine.execBarv a o s
  | .barvBare o => Sys2Proof.Machine.execBarvBare o s
  | .barx a o => Sys2Proof.Machine.execBarx a o s
  | .barw p o => Sys2Proof.Machine.execBarw p o s
  | .mbs a m => Sys2Proof.Machine.execMbs a m s
  | .mbr d m => Sys2Proof.Machine.execMbr d m s
  | .tubset a o => Sys2Proof.Machine.execTubset a o s
  | .tubarmOn o => Sys2Proof.Machine.execTubarmOn o s
  | .tubarmOff o => Sys2Proof.Machine.execTubarmOff o s
  | .spa d a => Sys2Proof.Machine.execSpa d a s
  | .spra d a => Sys2Proof.Machine.execSpra d a s
  | .spf a => Sys2Proof.Machine.execSpf a s
  | .sprst a => Sys2Proof.Machine.execSprst a s
  | .specb p => Sys2Proof.Machine.execSpecb p s
  | .specc p => Sys2Proof.Machine.execSpecc p s
  | .speca p => Sys2Proof.Machine.execSpeca p s
  | .chain a n => Sys2Proof.Machine.execChain a n s
  | .cpyx d a b k n => Sys2Proof.Machine.execCpyx d a b k n s
  | .cwait a n => Sys2Proof.Machine.execCwait a n s
  | .ixc a => Sys2Proof.Machine.execIxc a s
  | .darnRank d a => Sys2Proof.Machine.execDarnRank d a s
  | .darnCommit d a => Sys2Proof.Machine.execDarnCommit d a s
  | .darnStain d a => Sys2Proof.Machine.execDarnStain d a s
  | .darnList d a => Sys2Proof.Machine.execDarnList d a s
  | .darnClear d a => Sys2Proof.Machine.execDarnClear d a s
  | .wrng a => Sys2Proof.Machine.execWrng a s
  | .strt m a => Sys2Proof.Machine.execStrt m a s
  | .join => Sys2Proof.Machine.execJoin s
  | .launch a b => Sys2Proof.Machine.execLaunch a b s
  | .yield => Sys2Proof.Machine.execYield s
  | .trap im => Sys2Proof.Machine.execTrap im s
  | .tfence => Sys2Proof.Machine.execTfence s
  | .eret => Sys2Proof.Machine.execEret s
  | .esc => Sys2Proof.Machine.execEsc s
  | .csrr d c => Sys2Proof.Machine.execCsrr d c s
  | .csrw a c => Sys2Proof.Machine.execCsrw a c s
  | .nop => Sys2Proof.Machine.execNop s
  | .cycle d => Sys2Proof.Machine.execCycle d s
  | .unassignedMajor w => Sys2Proof.Machine.execUnassignedMajor w s
  | .issue t p f v => Sys2Proof.Machine.execIssue t p f v s
  | .amend p f v => Sys2Proof.Machine.execAmend p f v s
  | .wide t p f u => Sys2Proof.Machine.execWide t p f u s
  | .loopImm z n => Sys2Proof.Machine.execLoopImm z n s
  | .loopReg z r => Sys2Proof.Machine.execLoopReg z r s
  | .endl => Sys2Proof.Machine.execEndl s
  | .stop => Sys2Proof.Machine.execStop s
  | .rdv => Sys2Proof.Machine.execRdv s
  | .bwt p o => Sys2Proof.Machine.execBwt p o s
  | .bav c o => Sys2Proof.Machine.execBav c o s
  | .patl p n g => Sys2Proof.Machine.execPatl p n g s
  | .toks q n => Sys2Proof.Machine.execToks q n s
  | .pred z => Sys2Proof.Machine.execPred z s
  | .vadd o => Sys2Proof.Machine.execVadd o s
  | .vsub o => Sys2Proof.Machine.execVsub o s
  | .vmul o => Sys2Proof.Machine.execVmul o s
  | .vfma o => Sys2Proof.Machine.execVfma o s
  | .vfms o => Sys2Proof.Machine.execVfms o s
  | .vmax o => Sys2Proof.Machine.execVmax o s
  | .vmin o => Sys2Proof.Machine.execVmin o s
  | .vabs o => Sys2Proof.Machine.execVabs o s
  | .vneg o => Sys2Proof.Machine.execVneg o s
  | .vcmp o k => Sys2Proof.Machine.execVcmp o k s
  | .vsel o => Sys2Proof.Machine.execVsel o s
  | .vcvt o => Sys2Proof.Machine.execVcvt o s
  | .vqnt o => Sys2Proof.Machine.execVqnt o s
  | .vdqnt o => Sys2Proof.Machine.execVdqnt o s
  | .vscl o => Sys2Proof.Machine.execVscl o s
  | .vexp2 o => Sys2Proof.Machine.execVexp2 o s
  | .vlog2 o => Sys2Proof.Machine.execVlog2 o s
  | .vrcp o => Sys2Proof.Machine.execVrcp o s
  | .vrsq o => Sys2Proof.Machine.execVrsq o s
  | .vsqrt o => Sys2Proof.Machine.execVsqrt o s
  | .vdiv o => Sys2Proof.Machine.execVdiv o s
  | .viadd o => Sys2Proof.Machine.execViadd o s
  | .visub o => Sys2Proof.Machine.execVisub o s
  | .vimul o => Sys2Proof.Machine.execVimul o s
  | .vand o => Sys2Proof.Machine.execVand o s
  | .vor o => Sys2Proof.Machine.execVor o s
  | .vxor o => Sys2Proof.Machine.execVxor o s
  | .vshl o => Sys2Proof.Machine.execVshl o s
  | .vshr o => Sys2Proof.Machine.execVshr o s
  | .vsra o => Sys2Proof.Machine.execVsra o s
  | .vimax o => Sys2Proof.Machine.execVimax o s
  | .vimin o => Sys2Proof.Machine.execVimin o s
  | .vmov o => Sys2Proof.Machine.execVmov o s
  | .vbc o k => Sys2Proof.Machine.execVbc o k s
  | .viota o => Sys2Proof.Machine.execViota o s
  | .vred o op => Sys2Proof.Machine.execVred o op s
  | .vscan o op excl => Sys2Proof.Machine.execVscan o op excl s
  | .vsegr o op => Sys2Proof.Machine.execVsegr o op s
  | .vperm o => Sys2Proof.Machine.execVperm o s
  | .vpack o => Sys2Proof.Machine.execVpack o s
  | .vunpk o => Sys2Proof.Machine.execVunpk o s
  | .vpart o => Sys2Proof.Machine.execVpart o s
  | .vrank o pos => Sys2Proof.Machine.execVrank o pos s
  | .vprune o p => Sys2Proof.Machine.execVprune o p s
  | .vrng o => Sys2Proof.Machine.execVrng o s
  | .vgumb o => Sys2Proof.Machine.execVgumb o s
  | .vtree o k h => Sys2Proof.Machine.execVtree o k h s
  | .vlut o => Sys2Proof.Machine.execVlut o s
  | .vpost o => Sys2Proof.Machine.execVpost o s
  | .mlb o => Sys2Proof.Machine.execMlb o s
  | .mma o => Sys2Proof.Machine.execMma o s
  | .mmb o => Sys2Proof.Machine.execMmb o s
  | .msa o => Sys2Proof.Machine.execMsa o s
  | .macz o => Sys2Proof.Machine.execMacz o s
  | .macr o => Sys2Proof.Machine.execMacr o s
  | .macw o => Sys2Proof.Machine.execMacw o s
  | .mmad o => Sys2Proof.Machine.execMmad o s
  | .ldt o => Sys2Proof.Machine.execLdt o s
  | .ldv o => Sys2Proof.Machine.execLdv o s
  | .ldb o q => Sys2Proof.Machine.execLdb o q s
  | .ldg o => Sys2Proof.Machine.execLdg o s
  | .ldz o => Sys2Proof.Machine.execLdz o s
  | .stt o => Sys2Proof.Machine.execStt o s
  | .stv o => Sys2Proof.Machine.execStv o s
  | .sts o => Sys2Proof.Machine.execSts o s
  | .sta o => Sys2Proof.Machine.execSta o s
  | .stq o => Sys2Proof.Machine.execStq o s
  | .aff r w => Sys2Proof.Machine.execAff r w s
  | .red r w op fmt rm sat => Sys2Proof.Machine.execRed r w op fmt rm sat s
  | .mcst r len ndst dlist => Sys2Proof.Machine.execMcst r len ndst dlist s
  | .sig r value => Sys2Proof.Machine.execSig r value s
  | .pgt r p esize nimg offs => Sys2Proof.Machine.execPgt r p esize nimg offs s
  | .skip r => Sys2Proof.Machine.execSkip r s
  | .gth b => Sys2Proof.Machine.execGth b s
  | .sct b => Sys2Proof.Machine.execSct b s
  | .sca b op fmt => Sys2Proof.Machine.execSca b op fmt s
  | .cpt b inplace stain => Sys2Proof.Machine.execCpt b inplace stain s
  | .allred d op fmt => Sys2Proof.Machine.execAllred d op fmt s
  | .redsc d op fmt => Sys2Proof.Machine.execRedsc d op fmt s
  | .allgv d fmt offs => Sys2Proof.Machine.execAllgv d fmt offs s
  | .a2av d fmt cntv offs => Sys2Proof.Machine.execA2av d fmt cntv offs s
  | .bcast d fmt root => Sys2Proof.Machine.execBcast d fmt root s
  | .argn d dies => Sys2Proof.Machine.execArgn d dies s
  | .fbar d => Sys2Proof.Machine.execFbar d s
  | .illegalInstr eng w => Sys2Proof.Machine.execIllegalInstr eng w s
  | .illegalPatch w u => Sys2Proof.Machine.execIllegalPatch w u s
  | .waitaWake job => Sys2Proof.Machine.execWaitaWake job s
  | .waitaTimeout job => Sys2Proof.Machine.execWaitaTimeout job s
  | .barrierWaitResume job str => Sys2Proof.Machine.execBarrierWaitResume job str s
  | .tubFire t => Sys2Proof.Machine.execTubFire t s
  | .spoolRelease job => Sys2Proof.Machine.execSpoolRelease job s
  | .yieldTimeout job => Sys2Proof.Machine.execYieldTimeout job s
  | .bavArrival job e => Sys2Proof.Machine.execBavArrival job e s
  | .segmentStart job e => Sys2Proof.Machine.execSegmentStart job e s
  | .operationStart job e => Sys2Proof.Machine.execOperationStart job e s
  | .siblingTakeover job index => Sys2Proof.Machine.execSiblingTakeover job index s
  | .altWindowChange core => Sys2Proof.Machine.execAltWindowChange core s
  | .rendezvousComplete job => Sys2Proof.Machine.execRendezvousComplete job s
  | .jobRetire job => Sys2Proof.Machine.execJobRetire job s
  | .enqueueResume q => Sys2Proof.Machine.execEnqueueResume q s
  | .launchPlace places => Sys2Proof.Machine.execLaunchPlace places s
  | .jobStart launch => Sys2Proof.Machine.execJobStart launch s
  | .launchCompletion launch => Sys2Proof.Machine.execLaunchCompletion launch s
  | .jaileLaunchMessage r => Sys2Proof.Machine.execJaileLaunchMessage r s
  | .graphNodeJobs asid g node => Sys2Proof.Machine.execGraphNodeJobs asid g node s
  | .graphNodeCopy asid g node => Sys2Proof.Machine.execGraphNodeCopy asid g node s
  | .graphNodeCond asid g node => Sys2Proof.Machine.execGraphNodeCond asid g node s
  | .graphNodeHost asid g node => Sys2Proof.Machine.execGraphNodeHost asid g node s
  | .graphNodeWait asid g node => Sys2Proof.Machine.execGraphNodeWait asid g node s
  | .graphNodeEnd asid g node => Sys2Proof.Machine.execGraphNodeEnd asid g node s
  | .graphNodeComplete asid g node => Sys2Proof.Machine.execGraphNodeComplete asid g node s
  | .channelRecordFetch core n => Sys2Proof.Machine.execChannelRecordFetch core n s
  | .recordCompletion core n => Sys2Proof.Machine.execRecordCompletion core n s
  | .cpyxTransferComplete core n => Sys2Proof.Machine.execCpyxTransferComplete core n s
  | .indexBlockComplete job => Sys2Proof.Machine.execIndexBlockComplete job s
  | .pageWalk asid va acc core stream => Sys2Proof.Machine.execPageWalk asid va acc core stream s
  | .bankWakeComplete core bank => Sys2Proof.Machine.execBankWakeComplete core bank s
  | .trapDivert job => Sys2Proof.Machine.execTrapDivert job s
  | .save job place log flt => Sys2Proof.Machine.execSave job place log flt s
  | .flitReceive port f => Sys2Proof.Machine.execFlitReceive port f s
  | .linkDown port => Sys2Proof.Machine.execLinkDown port s
  | .linkUp port => Sys2Proof.Machine.execLinkUp port s
  | .requestResend tgt seq => Sys2Proof.Machine.execRequestResend tgt seq s
  | .remoteLoad r => Sys2Proof.Machine.execRemoteLoad r s
  | .remoteStore r => Sys2Proof.Machine.execRemoteStore r s
  | .remoteAmo r => Sys2Proof.Machine.execRemoteAmo r s
  | .remoteCas r => Sys2Proof.Machine.execRemoteCas r s
  | .remoteReduce r => Sys2Proof.Machine.execRemoteReduce r s
  | .wringerTraffic r => Sys2Proof.Machine.execWringerTraffic r s
  | .response r => Sys2Proof.Machine.execResponse r s
  | .resync src epoch answer => Sys2Proof.Machine.execResync src epoch answer s
  | .resyncResend tgt => Sys2Proof.Machine.execResyncResend tgt s
  | .qnotify q v => Sys2Proof.Machine.execQnotify q v s
  | .qstateWrite q => Sys2Proof.Machine.execQstateWrite q s
  | .rheadWrite k v => Sys2Proof.Machine.execRheadWrite k v s
  | .registerWrite off v => Sys2Proof.Machine.execRegisterWrite off v s
  | .ringCoalesceTimeout k => Sys2Proof.Machine.execRingCoalesceTimeout k s
  | .contextCreate c => Sys2Proof.Machine.execContextCreate c s
  | .contextDestroy asid => Sys2Proof.Machine.execContextDestroy asid s
  | .mapWrite asid entries => Sys2Proof.Machine.execMapWrite asid entries s
  | .mapInvalidate asid lo hi => Sys2Proof.Machine.execMapInvalidate asid lo hi s
  | .mapMigrate asid va toDdr pa => Sys2Proof.Machine.execMapMigrate asid va toDdr pa s
  | .mapPlaceBar2 base => Sys2Proof.Machine.execMapPlaceBar2 base s
  | .modload asid va => Sys2Proof.Machine.execModload asid va s
  | .launchCommand asid q va => Sys2Proof.Machine.execLaunchCommand asid q va s
  | .graphLoad asid va => Sys2Proof.Machine.execGraphLoad asid va s
  | .graphStart asid g => Sys2Proof.Machine.execGraphStart asid g s
  | .graphQuery asid g => Sys2Proof.Machine.execGraphQuery asid g s
  | .preempt launch => Sys2Proof.Machine.execPreempt launch s
  | .preemptResume launch places => Sys2Proof.Machine.execPreemptResume launch places s
  | .query => Sys2Proof.Machine.execQuery s
  | .link write port up => Sys2Proof.Machine.execLink write port up s
  | .power state caps => Sys2Proof.Machine.execPower state caps s
  | .errlog => Sys2Proof.Machine.execErrlog s
  | .measure nonce => Sys2Proof.Machine.execMeasure nonce s
  | .resolve job ans => Sys2Proof.Machine.execResolve job ans s
  | .deviceReset r => Sys2Proof.Machine.execDeviceReset r s
  | .barrierClock b => Sys2Proof.Machine.execBarrierClock b s
  | .bankGating core bank => Sys2Proof.Machine.execBankGating core bank s

end Sys2Proof.Machine
end

