-- ==== Sys2Proof/Machine/Sched.lean ====
section
/-! DEFINITION. What moves next: how a stream, an operation, a channel, a block or a collective takes its turn, the choices that are no
instruction's, and the order in which parties move where the agenda is empty (log entry 4). -/

namespace Sys2Proof.Machine

/-! ### Control streams (05_control_core.md R105, R133, 15_traps.md R322) -/

/-- The word at the PC. A poisoned line raises POISON with the PC (R105). -/
def fetchWord (s : State) : Except Stop Word32 :=
  match readChunks s (ctlParty s 0) .fetch (.va s.job.pc) 4 with
  | .error e => .error e
  | .ok cs => if cs.any Chunk.bad then .error (.trap .poison s.job.pc) else .ok (ofBytes 32 (cs.flatMap Chunk.data))

/-- The instruction at pc of a control stream has ended, where its stream goes on: responses that it has used are gone, and what it failed
to make is not made again, unless its trap returns to it (16_fabric.md R346). In a drain one that comes to wait is abandoned: an access that
it had made is what it went on for (05_control_core.md R133, 17_generation.md R369). -/
def settleCtl (id : Nat) (pc : Word) (s : State) : State :=
  match findJob s id with
  | some j =>
    if j.st == .draining && j.wait.waiting && !j.darn.any DarnRun.holds then abandonCtl s id
    else if j.wait == .ready && !(j.hnd && j.tpc == pc) then passOuts (takeReplies s (.ctl id)) (.ctl id) (· == pc)
    else if j.st == .draining && j.hnd then (match j.wait with | .dvorol .. => takeReplies s (.ctl id) | _ => s)
    else s
  | none => s

/-- The outcome of an instruction of a control stream. -/
def ended (id : Nat) (pc : Word) : Result → Result
  | .next s => .next (settleCtl id pc s)
  | .fault f => .fault f
  | .refused r => .refused r

/-- An access of the instruction waits. -/
def CtlWait.stalls : CtlWait → Bool
  | .stalled _ => true
  | _ => false

/-- The control stream executes the instruction at its PC: it is ready, or waits with an instruction that goes on. In a drain only an
instruction goes on that has an access under way or is a DARN with a context (15_traps.md R329, R133). -/
def ctlRuns (s : State) (j : Job) : Bool :=
  (j.st == .running || (j.st == .draining && (j.darn.any DarnRun.holds || midAccess s (.ctl j.id) || j.wait.stalls))) &&
    match j.wait with
    | .ready | .blocked | .stalled _ | .dstall | .qstall _ | .handing .. | .mailbox | .fence | .starting _ | .submitting .. | .wringing .. => true
    | _ => false

/-- At a boundary a translation marker is taken (13_memory.md R300). -/
def takeMarker (s : State) : State :=
  let within := match s.job.wait with | .dvorol c _ => c == .pteInvalid | .held | .stalled _ => true | .ready => midAccess s (.ctl s.job.id) | _ => false
  if s.job.marker.isSome && s.job.darn.isNone && !within then
    cleanStale { s with job := { s.job with marker := none } }
  else s

/-- The instruction at the PC goes on: with what it has read, or from its start. -/
def goCtl (s : State) : Result :=
  match s.job.wait, s.job.darn with
  | .starting l, _ => .next (restartEngines s l)
  | .handing n l, _ => .next (giveHandle s n l)
  | .submitting b n bar, _ => .next (appendBlock s b n bar)
  | .wringing d bar, _ => .next (submitOr s d bar)
  | _, some r => .next (nextDarn r.d r s)
  | _, none =>
    match fetchWord s with
    | .error e => .next (ctlStop s e)
    | .ok w => exec (decodeControl s.job.version w) s

/-- A turn of the focused job's control stream: its pending trap first, else the instruction at its PC. -/
def runCtl (s : State) : Result :=
  let s := takeMarker s
  if s.job.st == .running && !s.job.hnd && !s.job.pending.isEmpty && atBoundary s s.job then .next (divertIfPending s)
  else if ctlRuns s s.job then ended s.job.id s.job.pc (goCtl s)
  else .next s

/-! ### Engine streams and operations (03_encodings.md R57, R61, 07_queues.md R170, 09_matrix.md R209) -/

/-- The instruction at an engine stream's PC; the second word of a WIDE pair is read only where the pair is performed and its first
word is legal. It is read, and raises its fault, before p is held against the allotment (R59; DESIGN CHOICE, log entry 63). -/
def fetchPatch (s : State) : Except Stop Instr :=
  let pc := (curStream s).pc
  match patchAt s pc with
  | .error e => .error e
  | .ok w =>
    if isWide w && performs (noteWord s) && !(decodePatch w (some 0)).raises then
      match patchAt s (pc + 4) with
      | .error e => .error e
      | .ok u => .ok (decodePatch w (some u))
    else .ok (decodePatch w none)

/-- The outcome of the word of engine e at pc. Once its stream goes on behind it or stops, what has been read for it is gone, and what it failed
to read is read anew where the stream stops only (16_fabric.md R346). -/
def wordEnded (e : Engine) (pc : Nat) : Result → Result
  | .next s =>
    let x := s.job.eng e
    .next (if x.pc == pc && x.wait == .ready && x.halt == .going then s
      else if x.halt == .going then unitPassed s (.words s.job.id e)
      else takeReplies s (.words s.job.id e))
  | .fault f => .fault f
  | .refused r => .refused r

/-- A turn of an engine stream of the focused job. -/
def runEng (e : Engine) (s : State) : Result :=
  let s := { s with curEng := e }
  if engineRuns s.job e then
    wordEnded e (curStream s).pc (match fetchPatch s with
      | .error x => .next (streamStop s x)
      | .ok i => exec i s)
  else .next s

/-- The started operation of the focused job has the unit that it needs, or may take it up again after a stop: the array, or the VX unit
(08_vector.md R180, 09_matrix.md R209). In the sibling's array none goes on while a job of either core is being saved (07_queues.md R178). -/
def mayGoOn (s : State) (e : Engine) (o : IOp) : Bool :=
  if e == .mx && !o.sib && !inWindow s s.job then false
  else if resumes s.job e then
    if o.sib then !arrayBusy s (sibling s.job.core) && noneSaved s s.job.core else unitFree s s.job e && chosen s s.job e
  else true

/-- It takes it. -/
def takeUnit (s : State) (e : Engine) : State :=
  if resumes s.job e then { s with job := s.job.updEng e fun x => { x with holds := true, w := 0 } } else s

/-- A turn of the operation that has started in an engine of a job. -/
def runOp (job : Nat) (e : Engine) (s : State) : Result :=
  let t := focus job { s with curEng := e }
  if t.job.id != job || job = 0 || !t.job.resident || (t.job.eng e).opHalt != .going then .next s
  else
    match startedOp (t.job.eng e).pipe with
    | none => .next s
    | some o =>
      if mayGoOn t e o then
        match decodePattern e o.pat with
        | some i => exec i (takeUnit t e)
        | none => .next s
      else .next s

/-! ### Channels, blocks, collectives -/

/-- A turn of a channel on its record or transfer. -/
def runChan (core n : Nat) (s : State) : Result :=
  let t := { s with curCore := core, curChan := n }
  match chanOf s core n with
  | none => .next s
  | some c =>
    if c.st != .walking then .next s
    else if c.cpyx.isSome then runCpyx t
    else
      match decodeRecord c.raw with
      | some i => exec i t
      | none => .next s

/-- A turn of the index engine on the k-th block of a job: the block starts, or goes on. None starts in a drain or while the job is absent (DESIGN
CHOICE, log entry 65). -/
def runIndex (job k : Nat) (s : State) : Result :=
  let t := { focus job s with curIdx := k }
  if t.job.id != job || job = 0 then .next s
  else
    match blockAt t k with
    | none => .next s
    | some e =>
      if e.running || (t.job.resident && t.job.st != .draining) then
        match decodeBlock e.blk with
        | some i => exec i t
        | none => .next s
      else .next s

/-- A turn of the collective in a slot. -/
def runSlot (k : Nat) (s : State) : Result :=
  match s.slots[k]? with
  | none => .next s
  | some x =>
    match decodeDesc x.part.desc with
    | some i => exec i { s with curSlot := k }
    | none => .next s

/-! ### Choices that are no instruction's -/

/-- The k-th pending store of a control stream performs, where its order lets it (14_ordering.md R307, R308). -/
def perform (job k : Nat) (s : State) : State :=
  let t := focus job s
  if t.job.id != job || job = 0 || !mayPerform t.job.stores k then s
  else
    match t.job.stores[k]? with
    | none => s
    | some e =>
      performStore { t with job := { t.job with stores := trimFences (t.job.stores.eraseIdx k) } } e

/-- An ECC error in a line: a corrected one is logged, an uncorrectable one marks the line (10_scratchpad.md R245, 18_host.md R388). -/
def eccError (tier line : Nat) (double : Bool) (s : State) : State :=
  if !double then logErr s (.eccCorrected tier line)
  else
    match tier with
    | 0 => setBad s .hbm (64 * line) true
    | 1 => setBad s .ddr (64 * line) true
    | _ => setBad s (.spad (line / 131072)) (64 * (line % 131072)) true

/-- Dvorol takes the oldest record of a die's fault queue (13_memory.md R298). -/
def takeFault (die : Nat) (s : State) : State :=
  match s.faultQ.findIdx? fun q => q.1 == die with
  | some k => { s with faultQ := s.faultQ.eraseIdx k }
  | none => s

/-- The opcode of the command that an instruction is, 0 of any other (18_host.md R381). -/
def commandOp : Instr → Nat
  | .contextCreate _ | .contextDestroy _ => 1
  | .mapWrite .. | .mapInvalidate .. | .mapMigrate .. | .mapPlaceBar2 _ => 2
  | .modload .. => 3
  | .launchCommand .. => 4
  | .graphLoad .. | .graphStart .. | .graphQuery .. => 5
  | .preempt _ | .preemptResume .. => 6
  | .query => 7
  | .link .. => 8
  | .power .. => 9
  | .errlog => 10
  | .measure _ => 11
  | .resolve .. => 12
  | _ => 0

/-- Dvorol carries out the command of a queue and stamp: what its opcode and ARGS ask for, or nothing, with status 1, as of an unknown
opcode or a reserved flag (R377, R378, R381). -/
def runCommand (queue : Nat) (stamp : Word) (s : State) : Result :=
  match s.cmds.find? fun c => c.queue == queue && c.stamp == stamp with
  | none => .next s
  | some c =>
    let t := { s with curCmd := some (queue, stamp) }
    match (if c.bad then none else (Config.commandOf c.opcode c.args).filter fun i => commandOp i == c.opcode) with
    | some i =>
      match exec i t with
      | .next u => .next { u with curCmd := none }
      | r => r
    | none => .next (if c.mayStart s then complete s c 1 [] else s)

/-- A stream's turn; the agenda may name only streams of resident jobs. -/
def runStream (job : Nat) (str : StreamRef) (s : State) : Result :=
  let t := focus job s
  if t.job.id != job || job = 0 || !t.job.resident then .fault .noSuchStream
  else
    match str with
    | .ctl => runCtl t
    | .eng e => runEng e t

/-- What an entry of the agenda does. -/
def act (a : Act) (s : State) : Result :=
  match a with
  | .run job str => runStream job str s
  | .op job e => runOp job e s
  | .chan core n => runChan core n s
  | .index job k => runIndex job k s
  | .wringer k => runSlot k s
  | .event i => exec i s
  | .perform job k => .next (perform job k s)
  | .evict k => .next { s with tlb := s.tlb.eraseIdx k }
  | .ecc tier line double => .next (eccError tier line double s)
  | .hostWrite addr b => .next { s with host := sset s.host addr b }
  | .barWrite off b => .next (barWrite s off b)
  | .regRead off => .next (regRead s off)
  | .barRead off => .next (barRead s off)
  | .barSize log => .next (barSize s log)
  | .enlarge job b => .next (enlargeLogs s job b)
  | .replay port lseq => .next (replayLink s port lseq)
  | .replayed port => .next (replayed s port)
  | .released k => .next (released k s)
  | .farLink a b up => .next (farLink s a b up)
  | .noRoute dev => .next (noRoute s dev)
  | .partner p => .next (partnerReports s p)
  | .fetch q => .next (fetchCmd s q)
  | .takeFault die => .next (takeFault die s)
  | .command queue stamp => runCommand queue stamp s
  | .idle => .next s

/-! ### Without an agenda -/

/-- What a job may do. -/
def jobTurns (j : Job) : List (State → Result) :=
  let id := j.id
  let streams := if j.resident then
    runStream id .ctl :: engines.map (fun e => runStream id (.eng e)) ++ engines.map (fun e => execOperationStart id e) ++
      engines.map (fun e => runOp id e)
  else []
  streams ++ engines.flatMap (fun e => [execBavArrival id e, execSegmentStart id e, execBarrierWaitResume id (.eng e)]) ++
    [execBarrierWaitResume id .ctl, execWaitaWake id, execWaitaTimeout id, execYieldTimeout id, execRendezvousComplete id, execTrapDivert id,
      execSpoolRelease id, fun s => .next (perform id 0 s)] ++
    (List.range j.index.length).map (fun k => runIndex id k) ++ [execIndexBlockComplete id] ++
    j.tubs.map (fun t => execTubFire (.spad id t.1)) ++ [execJobRetire id] ++
    (if j.st == .saving then [fun s => .next (goSave s id)] else []) ++
    if j.st == .folding then [execPreemptResume j.launch []] else []

/-- What a channel, and a graph, may do. -/
def chanTurns (c : Chan) : List (State → Result) :=
  let n : Fin 8 := Fin.ofNat 8 c.n
  [execChannelRecordFetch c.core n, runChan c.core c.n, execRecordCompletion c.core n, execCpyxTransferComplete c.core n]
def graphTurns (g : Graph) : List (State → Result) :=
  (List.range g.nodes.length).flatMap fun k =>
    [execGraphNodeJobs g.asid g.num k, execGraphNodeCopy g.asid g.num k, execGraphNodeCond g.asid g.num k,
      execGraphNodeHost g.asid g.num k, execGraphNodeWait g.asid g.num k, execGraphNodeEnd g.asid g.num k,
      execGraphNodeComplete g.asid g.num k]

/-- A MAP command that waits goes on (13_memory.md R301, R302). -/
def workTurn (w : MapWork) : State → Result :=
  if w.step = 0 then execMapInvalidate w.asid w.lo w.hi else execMapMigrate w.asid w.lo w.toDdr w.pa

/-- Every turn that the parties of the device may take of their own accord. Placements, packets and takeovers are inputs. -/
def turnsOf (s : State) : List (State → Result) :=
  (allJobs s).flatMap jobTurns ++ s.chans.flatMap chanTurns ++ (List.finRange 16).map execEnqueueResume ++
    s.launches.flatMap (fun l => [execJobStart l.id, execLaunchCompletion l.id]) ++ s.barriers.map (fun b => execBarrierClock b.1) ++
    s.tubs.map (fun t => execTubFire (.mem t.1 t.2.1)) ++ (List.range s.slots.length).map (fun k => runSlot k) ++
    s.graphs.flatMap graphTurns ++ s.waking.map (fun w => execBankWakeComplete w.1 w.2.1) ++
    s.outs.map (fun o => execRequestResend o.req.tgt o.req.seq) ++ s.resyncs.map (fun r => execResyncResend r.1) ++
    s.works.map workTurn ++ s.cmds.map (fun c => runCommand c.queue c.stamp) ++
    (List.range s.heldReqs.length).map (fun k s => .next (released k s)) ++ [fun s => .next (sendWaiting s)] ++
    s.hqueues.map (fun q => fun s => .next (fetchCmd s q.1)) ++ s.hrings.map (fun r => execRingCoalesceTimeout (Fin.ofNat 256 r.1))

/-- Bring-up runs first; then every party takes its turn in a round, one clock each. -/
def freeRun (s : State) : Result :=
  if s.bootStep < 7 then .next (if s.bootFail = 0 then bringUp (plainReset s) s else s)
  else
    let l := turnsOf s
    let s := tick { s with delay := false, units := 0, turns := s.turns + 1 } 1
    match l[s.turns % max 1 l.length]? with
    | some f => f s
    | none => .next s

/-- The next turn of the agenda, after the clocks before it; without one, the parties' own order. -/
def turn (s : State) : Result :=
  match s.agenda with
  | [] => freeRun s
  | t :: r => act t.act (tick { s with agenda := r, delay := t.delay, units := t.units } t.dt)

/-! ### A word placed where the next step fetches (log entry 24) -/

/-- Where the image, its control section and its VX section lie, and the tables of context 1 in HBM. -/
def placeImage : Word := 0x10000
def placeCtl : Nat := 0x1000
def placeVx : Nat := 0x2000

/-- The context of the placed word, with its image. -/
def placeContext : Context :=
  { args := { asid := 1, classes := [], root := 0x1000, rootDdr := false, queues := List.range 16, dbars := [], gbars := [], tubs := [], quotaHbm := 0
              quotaDdr := 0, quotaJobs := 64, quotaGraphs := 64, ring := 0 }
    images := [{ addr := placeImage, version := 3
                 sections := [{ kind := 1, off := placeCtl, bytes := 0x1000 }, { kind := 4, off := placeVx, bytes := 0x1000 }] }] }

/-- The job of the placed word, on an allotment of everything that one core gives. -/
def placeJob : Job :=
  { Job.blank with
    id := 1, st := .running, launch := 1, asid := 1, image := placeImage, version := 3, mreg := 8, oreg := 4, pslot := 64
    cbar := (List.range 64).map (.core 0), dbar := (List.range 128).map (.die 0), gbar := (List.range 64).map .device, stub := 64
    pc := placeImage + BitVec.ofNat 64 placeCtl, splim := 0x800000, sphead := 0x800000
    vx := { EngStream.empty with pc := placeVx, stopped := false } }

/-- The stream that the word belongs to, as decodeTableWord reads it. -/
def placeStream (lo : Word32) (hi : Word32) : StreamRef :=
  let p := decodePatch lo (if isWide lo then some hi else none)
  if (decodeControl 3 lo).raises && !p.raises then .eng .vx else .ctl

/-- Page tables that map the first GiB onto itself, the word, its job, and a turn for its stream. -/
def placeWord (s : State) (w : Nat) : State :=
  let str := placeStream (BitVec.ofNat 32 w) (BitVec.ofNat 32 (w / 2 ^ 32))
  let at' := placeImage.toNat + (match str with | .ctl => placeCtl | .eng _ => placeVx)
  let put := fun (m : Sparse 8) (a : Nat) (v : Nat) => swrite m a (leBytes 8 v)
  { s with
    agenda := [{ dt := 0, delay := false, units := 0, act := .run 1 str }], bootStep := 7, nextJob := max 2 s.nextJob
    hbm := put (put (put (put s.hbm 0x1000 0x2001) 0x2000 0x3001) 0x3000 0x1F) at' w
    contexts := placeContext :: s.contexts.filter fun c => c.args.asid != 1
    tlb := s.tlb.filter fun t => t.asid != 1
    job := placeJob, jobs := s.jobs.filter fun j => j.id != 1 }

end Sys2Proof.Machine
end

