-- ==== Sys2Proof/Machine/Step.lean ====
section
/-! DEFINITION. One step of the device, and a word placed where the next step fetches it. -/

namespace Sys2Proof.Machine

/-- One step: the next turn (log entry 4). -/
def step (s : State) : Result := turn s

/-- s with an instruction's bits stored where the next step fetches. A bit above nbits is zero. -/
def State.withFetchWord (s : State) (nbits w : Nat) : State := placeWord s (w % 2 ^ min nbits 64)

end Sys2Proof.Machine
end

