-- ==== Sys2Proof/Safety.lean ====
section
/-! DEFINITION. The terms in which statements speak of the device: the canonical form of its stores, what a step leaves as it was, the
bytes that a store writes, and the forms that several instructions share. -/

namespace Sys2Proof.Machine

/-! ### The canonical form of the stores -/

/-- Every store of the device is in its canonical form: addresses strictly rising, and no entry equal to what an unlisted address reads
as (zero, log entry 2). -/
def Memory.wf (s : State) : Bool :=
  sparseWf s.hbm && sparseWf s.ddr && sparseWf s.host && sparseWf s.spad && sparseWf s.hbmPoison && sparseWf s.ddrPoison &&
    sparseWf s.spadPoison && sparseWf s.zeroMap

/-- The device goes from s to t in one step. -/
def Moves (s t : State) : Prop := step s = .next t

/-- An instruction in a state answers the next state t. -/
def Gives (i : Instr) (s t : State) : Prop := exec i s = .next t

/-! ### The control stream goes on -/

/-- The control stream of the focused job goes on at address a; nothing else of the device changes. -/
def wentTo (s : State) (a : Word) : State := { s with job := { s.job with pc := a, wait := .ready } }

/-- x[d] holds v, where d is not x0, and the control stream goes on at the next word; nothing else of the device changes. -/
def wroteX (s : State) (d : Reg) (v : Word) : State :=
  { s with job := { s.job with x := if d = 0 then s.job.x else s.job.x.set d v, pc := s.job.pc + 4, wait := .ready } }

/-- A WAITA has been entered: the start clock that an interrupted load of it has left behind is used up (R125, R295). -/
def entered (s : State) : State := { s with job := { s.job with waitaFrom := none } }

/-- The responses that the control stream had been waiting for are no longer kept; nothing else of the device changes. -/
def repliesTaken (s : State) : State := { s with rbuf := s.rbuf.filter fun r => r.unit != Unit.ctl s.job.id }

/-- The program registers, the CSRs, the registers of the engines and the array state of two jobs are the same. -/
def Job.sameRegs (j k : Job) : Prop :=
  (k.x = j.x ∧ k.flags = j.flags ∧ k.fmask = j.fmask ∧ k.dstall = j.dstall ∧ k.qstall = j.qstall ∧ k.itag = j.itag) ∧
  (k.tvec = j.tvec ∧ k.tcause = j.tcause ∧ k.tval = j.tval ∧ k.tpc = j.tpc ∧ k.tstream = j.tstream ∧ k.tsib = j.tsib ∧
    k.torig = j.torig ∧ k.tpend = j.tpend ∧ k.hnd = j.hnd ∧ k.tprog = j.tprog) ∧
  (k.spbase = j.spbase ∧ k.splim = j.splim ∧ k.spbump = j.spbump ∧ k.sphead = j.sphead) ∧
  (k.main = j.main ∧ k.opnd = j.opnd ∧ k.last = j.last ∧ k.shapes = j.shapes ∧ k.handles = j.handles ∧ k.tokens = j.tokens ∧
    k.fifo = j.fifo ∧ k.matrix = j.matrix ∧ k.inbox = j.inbox)

/-! ### Bytes -/

/-- The address names a byte of a store: offsets of a scratchpad lie below 8 MiB. -/
def Space.has (sp : Space) (a : Nat) : Prop :=
  match sp with
  | .spad _ => a < Config.spadBytes
  | _ => True

/-- The n bytes from an address on are bytes of the store. -/
def Space.fits (sp : Space) (a n : Nat) : Prop :=
  match sp with
  | .spad _ => a + n ≤ Config.spadBytes
  | _ => True

/-- No byte of any store changes. -/
def sameBytes (s t : State) : Prop := ∀ sp a, Space.has sp a → getByte t sp a = getByte s sp a

/-- The owner of an access to a scratchpad, with the offset in it. -/
def ownerJob (s : State) (owner : Option (Nat × Nat)) : Option (Job × Nat) := owner.bind fun q => (findJob s q.1).map fun j => (j, q.2)

/-- Where a write of the line that holds offset a of a store goes: the state after basting has copied the line, where it must, and the
place that takes the write, for a job that is away in its basket's image (10_scratchpad.md R241, 15_traps.md R334). -/
def writeTarget (s : State) (sp : Space) (a : Nat) (owner : Option (Nat × Nat)) : State × (Space × Nat) :=
  match ownerJob s owner with
  | some (j, o) => bastWrite s j o
  | none => (s, (sp, a))

/-- The byte lies in the header or in a log of the basket of a job that is away, to which a write is logged (15_traps.md R332, R335): the
event log may grow by an entry for each tub of the job. -/
def Job.logByte (j : Job) (sp : Space) (a : Nat) : Prop :=
  ∃ b, j.basket = some b ∧ j.logging = true ∧ b.laid = true ∧ sp = .hbm ∧
    ((b.args.addr ≤ a ∧ a < b.args.addr + 64) ∨
      (b.args.addr + b.args.logOff ≤ a ∧ a < b.args.addr + b.args.logOff + 16 * (b.log.length + j.tubs.length)) ∨
      (b.args.addr + b.args.fltOff ≤ a ∧ a < b.args.addr + b.args.fltOff + 32 * b.faults.length))

/-- In t the bytes d stand where a write to offset a of a store goes, and every other byte of every store is as before it; only of the
header and the logs of the basket of a job that is away nothing is said. -/
def bytesStored (s t : State) (sp : Space) (a : Nat) (owner : Option (Nat × Nat)) (d : List Byte) : Prop :=
  ∀ sp' a', Space.has sp' a' → (∀ j o, ownerJob s owner = some (j, o) → ¬j.logByte sp' a') →
    getByte t sp' a' =
      if sp' = (writeTarget s sp a owner).2.1 ∧ (writeTarget s sp a owner).2.2 ≤ a' ∧ a' < (writeTarget s sp a owner).2.2 + d.length then
        d.getD (a' - (writeTarget s sp a owner).2.2) 0
      else getByte (writeTarget s sp a owner).1 sp' a'

/-- From s to u a pending store puts its bytes at its place, for a scratchpad where the offset stands by now, and no other byte changes; a fence
does nothing. -/
def Pending.stored (q : Pending) (s u : State) : Prop :=
  match q with
  | .fence _ => u = s
  | .store _ sp a owner d =>
    (owner ≠ none → ownerJob s owner = none → u = s) ∧
    ((owner = none ∨ ownerJob s owner ≠ none) → Space.fits (writeTarget s sp a owner).2.1 (writeTarget s sp a owner).2.2 d.length →
      bytesStored s u sp a owner d)

/-- The n bytes at an address are the n bytes from address a of a store on: every line of them is admitted there, and their owner is no job
that is away or has bound a basting pair. -/
def runAt (s : State) (p : Party) (acc : Access) (l : Loc) (n : Nat) (sp : Space) (a : Nat) : Prop :=
  Space.fits sp a n ∧ ∀ q ∈ lineParts l.low n, ∃ pol owner, locate s p acc (l.add q.1) q.2 = .ok (.here sp (a + q.1) pol, owner) ∧
    ∀ j o, ownerJob s owner = some (j, o) → j.home o = (sp, a + q.1) ∧ j.basket = none ∧ ∀ k : Fin 4, j.pairs[k].bound = false

/-- In t the bytes d stand from address a of a store on, and every other byte of every store is as in s. -/
def writtenAt (s t : State) (sp : Space) (a : Nat) (d : List Byte) : Prop :=
  ∀ sp' a', Space.has sp' a' →
    getByte t sp' a' = if sp' = sp ∧ a ≤ a' ∧ a' < a + d.length then d.getD (a' - a) 0 else getByte s sp' a'

/-- A write of a party succeeds and gives t; where its bytes lie in one run, they stand there, and no other byte changes. -/
def storedVia (p : Party) (l : Loc) (d : List Byte) (s t : State) : Prop :=
  writeBytes s p l d = .ok t ∧ ∀ sp a, runAt s p .write l d.length sp a → writtenAt s t sp a d

/-- The n bytes at an address of a tier, as a number, become f of them at one moment, and no other byte changes. -/
def updatedVia (p : Party) (l : Loc) (n : Nat) (f : Nat → Nat) (s t : State) : Prop :=
  ∃ sp a pol, locate s p .atomic l n = .ok (.here sp a pol, none) ∧ writtenAt s t sp a (leBytes n (f (leNat (getBytes s sp a n))))

/-- The steps of a list follow one another from s to t. -/
def chainOf {α : Type} (one : α → State → State → Prop) : List α → State → State → Prop
  | [], s, t => t = s
  | x :: r, s, t => ∃ u, one x s u ∧ chainOf one r u t

/-- The pending stores of a list perform one after another, from s to t. -/
def performedIn (l : List Pending) (s t : State) : Prop := chainOf (fun q x y => y = performStore x q) l s t

/-- A list of pending stores parts behind the last one that p holds of. -/
def splitsAt (p : Pending → Bool) (l done rest : List Pending) : Prop :=
  l = done ++ rest ∧ (∀ q ∈ rest, p q = false) ∧ (done = [] ∨ ∃ k q, done = k ++ [q] ∧ p q = true)

/-- The pending stores of the focused job perform up to the last one that p holds of, and the others stay pending. -/
def performedUpTo (p : Pending → Bool) (s t : State) : Prop :=
  ∃ done rest, splitsAt p s.job.stores done rest ∧ performedIn done { s with job := { s.job with stores := rest } } t

/-- The k-th pending store of a list may perform now: none before it is of its class or goes to its bytes, and no fence of its class stands
before it behind a store that the fence covers (14_ordering.md R307, R308). -/
def Pending.first (l : List Pending) (k : Nat) : Prop :=
  ∃ c sp a o d, l[k]? = some (.store c sp a o d) ∧ ∀ i y, i < k → l[i]? = some y →
    (∀ c' sp' a' o' d', y = .store c' sp' a' o' d' → c' ≠ c ∧ Spot.meets (sp, a, o) d.length (sp', a', o') d'.length = false) ∧
    ∀ m, y = .fence m → m.getLsbD c.val = true → ∀ i' c' sp' a' o' d', i' < i → l[i']? = some (.store c' sp' a' o' d') →
      m.getLsbD c'.val = false

/-- Position j of a sequence is committed (17_generation.md R365): the position that RANKOUT names, masked and of the sequence, takes its token
from CAND, its mask bit is cleared, it is stained in every group, and its neighbours within the window in the groups from G0 on. -/
def committedAt (p : Party) (r : DarnRun) (j : Nat) (s t : State) : Prop :=
  ∃ b q tok u v w, darnRead s p (r.rankout + 4 * (r.lo r.sdone + j)) 4 = .ok b ∧ q = leNat b ∧ r.lo r.sdone ≤ q ∧ q < r.hi r.sdone ∧
    bitsIn s p r.mask q (q + 1) = .ok [q] ∧ darnRead s p (r.cand + 4 * q) 4 = .ok tok ∧
    storedVia p (.va (BitVec.ofNat 64 (r.seq + 4 * q))) tok s u ∧
    updatedVia p (.va (BitVec.ofNat 64 (r.mask + q / 8))) 1 (fun x => x &&& (255 - 2 ^ (q % 8))) u v ∧
    chainOf (fun g => updatedVia p (.va (BitVec.ofNat 64 (r.plane g + q / 8))) 1 fun x => x ||| 2 ^ (q % 8)) (List.range r.g) v w ∧
    ∀ (bits : Nat → Nat), (bits = fun k => ((List.range 8).map fun i =>
        if max (r.lo r.sdone) (q - r.window) ≤ 8 * k + i ∧ 8 * k + i < min (r.hi r.sdone) (q + r.window + 1) ∧ 8 * k + i ≠ q then 2 ^ i else 0).sum) →
      chainOf (fun y => updatedVia p (.va (BitVec.ofNat 64 (r.plane y.1 + y.2))) 1 fun x => x ||| bits y.2)
        ((List.range (r.g - r.g0)).flatMap fun g => ((List.range (r.hi r.sdone / 8 + 1)).filter fun k => bits k ≠ 0).map fun k => (r.g0 + g, k)) w t

/-- An instruction of the control stream stops at an access in state s: it has written no register and no byte, but for a ring entry in host
memory that tells of the stop. A trap is raised at the instruction, a fault once its record is posted (13_memory.md R295, R298). -/
def stopsAt (s t : State) (e : Stop) : Prop :=
  t = ctlStop s e ∧ t.job.x = s.job.x ∧ (∀ sp a, sp ≠ .host → getByte t sp a = getByte s sp a) ∧
  (∀ c v, (e = .trap c v ∨ ∃ acc, e = .denied acc c v) → t = raise (keepWrites (reported s (.ctl s.job.id)) (.ctl s.job.id)) c v) ∧
  (∀ c v r u, e = .fault c v r → c ≠ .pteInvalid → postFault s r = some u → t = raise u c v) ∧
  (e = .stall → t.job.pc = s.job.pc)

/-- Register d, address, width, class and sign of a load. -/
def loadForm (s : State) : Instr → Option (Reg × Word × Nat × Cls × Bool)
  | .ld d a c z o => some (d, getX s a + sx o * BitVec.ofNat 64 z.bytes, z.bytes, c, true)
  | .ldu d a c z o => some (d, getX s a + sx o * BitVec.ofNat 64 z.bytes, z.bytes, c, false)
  | .lda d a z c _ => some (d, getX s a, z.bytes, c, true)
  | _ => none

/-- Address, class and bytes of a store. HST stores the 64 bytes of a handle (06_registers.md R153). -/
def storeForm (s : State) : Instr → Option (Word × Cls × List Byte)
  | .st d a c z o => some (getX s a + sx o * BitVec.ofNat 64 z.bytes, c, leBytes z.bytes (getX s d).toNat)
  | .stl d a z c _ => some (getX s a, c, leBytes z.bytes (getX s d).toNat)
  | .hst n a c o => some (getX s a + sx o * 8, c, toBytes s.job.handles[n])
  | _ => none

/-- An atomic: register d, address, class, the request that stands for it at another device, and the new value of the doubleword, none
where nothing is written (05_control_core.md R121, R122). -/
structure AtomicForm where
  d : Reg
  ea : Word
  cls : Cls
  req : ReqOp
  new : Word → Option Word

/-- The atomics. -/
def atomicForm (s : State) : Instr → Option AtomicForm
  | .amoSwap d a b c _ | .amoaSwap d a b c _ | .amolSwap d a b c _ | .amoalSwap d a b c _ =>
    some { d, ea := getX s a, cls := c, req := .amo 0 (getX s b), new := fun _ => some (getX s b) }
  | .amoAdd d a b c _ | .amoaAdd d a b c _ | .amolAdd d a b c _ | .amoalAdd d a b c _ =>
    some { d, ea := getX s a, cls := c, req := .amo 1 (getX s b), new := fun old => some (old + getX s b) }
  | .amoAnd d a b c _ | .amoaAnd d a b c _ | .amolAnd d a b c _ | .amoalAnd d a b c _ =>
    some { d, ea := getX s a, cls := c, req := .amo 2 (getX s b), new := fun old => some (old &&& getX s b) }
  | .amoOr d a b c _ | .amoaOr d a b c _ | .amolOr d a b c _ | .amoalOr d a b c _ =>
    some { d, ea := getX s a, cls := c, req := .amo 3 (getX s b), new := fun old => some (old ||| getX s b) }
  | .amoXor d a b c _ | .amoaXor d a b c _ | .amolXor d a b c _ | .amoalXor d a b c _ =>
    some { d, ea := getX s a, cls := c, req := .amo 4 (getX s b), new := fun old => some (old ^^^ getX s b) }
  | .amoMin d a b c _ | .amoaMin d a b c _ | .amolMin d a b c _ | .amoalMin d a b c _ =>
    some { d, ea := getX s a, cls := c, req := .amo 5 (getX s b), new := fun old => some (if old.toInt ≤ (getX s b).toInt then old else getX s b) }
  | .amoMax d a b c _ | .amoaMax d a b c _ | .amolMax d a b c _ | .amoalMax d a b c _ =>
    some { d, ea := getX s a, cls := c, req := .amo 6 (getX s b), new := fun old => some (if old.toInt ≤ (getX s b).toInt then getX s b else old) }
  | .amoMaxu d a b c _ | .amoaMaxu d a b c _ | .amolMaxu d a b c _ | .amoalMaxu d a b c _ =>
    some { d, ea := getX s a, cls := c, req := .amo 7 (getX s b), new := fun old => some (if old.toNat ≤ (getX s b).toNat then getX s b else old) }
  | .cas d a b o c _ =>
    some { d, ea := getX s a, cls := c, req := .cas (getX s b) (getX s d) o.code
           new := fun old => if old = getX s d then some (getX s b) else none }
  | _ => none

/-! ### Engine queues -/

/-- The job with one more entry at the end of every engine queue (07_queues.md R163). -/
def Job.allAppended (j : Job) (q : QEntry) : Job :=
  { j with
    ld := { j.ld with queue := j.ld.queue ++ [q] }
    mx := { j.mx with queue := j.mx.queue ++ [q] }
    vx := { j.vx with queue := j.vx.queue ++ [q] }
    st' := { j.st' with queue := j.st'.queue ++ [q] } }

/-- The stream with the entries l in its queue, into whose free entries the INV entries that have waited for one have come (R163). -/
def EngStream.queued (x : EngStream) (l : List QEntry) : EngStream :=
  { x with queue := l ++ x.late.take (64 - l.length), late := x.late.drop (64 - l.length) }

/-- The control stream waits at its instruction with this wait; nothing else of the device changes. -/
def waitsAt (s : State) (w : CtlWait) : State := { s with job := { s.job with wait := w } }

/-- Every engine queue of the job holds fewer than 64 entries (R163). -/
def Job.queuesFree (j : Job) : Prop :=
  j.ld.queue.length < 64 ∧ j.mx.queue.length < 64 ∧ j.vx.queue.length < 64 ∧ j.st'.queue.length < 64

/-- A SEG entry that QCUT removes: the ITAG lies above x, and no engine has begun a segment with it (R176). -/
def Job.inCut (j : Job) (x : BitVec 32) (q : QEntry) : Bool :=
  match q with
  | .seg _ t => x.toNat < t.toNat && !(j.ld.begun.contains t || j.mx.begun.contains t || j.vx.begun.contains t || j.st'.begun.contains t)
  | _ => false

/-- The tokens that the cut entries of a queue declare in the byte of their operands at bit k (R165, R176). -/
def Job.cutTokens (j : Job) (x : BitVec 32) (l : List QEntry) (k : Nat) : Nat :=
  ((l.filter (j.inCut x)).map fun q => match q with | .seg v _ => (v.extractLsb' k 8).toNat | _ => 0).sum

/-- The pushes and the pops that the cut declares for each token counter, in the order of R169: SFN at bit 32, SBN at 40, WFN at 48, WBN
at 56. -/
def Job.cutCounts (j : Job) (x : BitVec 32) : List (Nat × Nat) :=
  let n := j.cutTokens x
  [(n j.ld.queue 32, n j.mx.queue 48), (n j.mx.queue 32, n j.vx.queue 48), (n j.vx.queue 32, n j.st'.queue 48),
    (n j.st'.queue 32, n j.ld.queue 48), (n j.mx.queue 40, n j.ld.queue 56), (n j.vx.queue 40, n j.mx.queue 56),
    (n j.st'.queue 40, n j.vx.queue 56), (n j.ld.queue 40, n j.st'.queue 56)]

/-! ### Barriers -/

/-- A barrier of another name is as it was. -/
def otherBars (s t : State) (b : BarId) : Prop := ∀ c, c ≠ b → barOf t c = barOf s c

/-- Arrivals, byte decrements and expectations in the events of a clock, each in all. -/
def arrivalsOf (es : List BarEvent) : Nat := (es.map fun e => match e with | .arrive n => n | _ => 0).sum
def bytesOf (es : List BarEvent) : Nat := (es.map fun e => match e with | .bytes n => n | _ => 0).sum
def expectedOf (es : List BarEvent) : Int := (es.map fun e => match e with | .expect n => n | _ => 0).sum

/-- The events of the clock of a barrier that has taken event e, after those it has taken before. -/
def Barrier.eventsWith (x : Barrier) (e : BarEvent) : List BarEvent := (match x.was with | some (_, es) => es | none => []) ++ [e]

/-- The counts of a barrier as the clock began (log entry 12). -/
def Barrier.start (x : Barrier) : BarCounts :=
  match x.was with
  | some (c, _) => c
  | none => { phase := x.phase, arrive := x.arrive, bytes := x.bytes, touched := x.touched }

/-- A barrier in a clock with these events, from its counts as the clock began: all arrivals, then all decrements, then the completion of a
phase that has been touched and awaits nothing, then all expectations (11_sync.md R249). -/
def Barrier.afterClock (x : Barrier) (es : List BarEvent) : Barrier :=
  let c := x.start
  let touched : Bool := c.touched || es.any fun e => match e with | .expect _ => false | _ => true
  let arrive := c.arrive - BitVec.ofNat 16 (min (arrivalsOf es) c.arrive.toNat)
  let bytes := c.bytes - BitVec.ofNat 32 (bytesOf es)
  let done : Bool := touched && arrive == 0 && bytes == 0
  { x with
    phase := if done then !c.phase else c.phase
    arrive := if done then x.init else arrive
    bytes := (if done then 0 else bytes) + BitVec.ofInt 32 (expectedOf es)
    touched := (touched && !done) || es.any fun e => match e with | .expect _ => true | _ => false
    was := some (c, es) }

/-- A barrier after one arrival of count n more in its clock. -/
def Barrier.arrived (x : Barrier) (n : Nat) : Barrier := x.afterClock (x.eventsWith (.arrive n))

/-- The device with barrier b as in t, its clock over: where its phase has changed in that clock, every stream that waits for it may go on
(R255). -/
def barMoved (s t : State) (b : BarId) : State :=
  if (barOf s b).phase = (barOf s b).start.phase then { s with barriers := t.barriers }
  else mapJobs { s with barriers := t.barriers } (Job.passBar b)

/-- The barrier takes an event at once: it is active, and no job that holds it is suspended or gone (15_traps.md R334, R261). -/
def barTakes (s : State) (b : BarId) : Prop :=
  (barOf s b).active = true ∧ (barOf s b).orphan = false ∧ suspendedOwner s b = none

/-! ### Page walks (13_memory.md R291 to R295) -/

/-- The entry e of level l is malformed: a reserved bit is set, LEAF is wrong for the level, NEXT or PA is misaligned, an address lies outside
its tier, or POISON is 3 (R291 to R295). HOLD requires W = 0, and TUB, RTIER and COORD are for their tiers (R293, R294). -/
def malformed (s : State) (e : Word) (l : Nat) : Prop :=
  let next := (e.extractLsb' 8 44).toNat * 256
  let pa := (e.extractLsb' 16 36).toNat * 65536
  let page := 2 ^ levelShift l
  let tier := (e.extractLsb' 5 2).toNat
  if e.getLsbD 4 = false then
    l = 0 ∨ e.extractLsb' 1 3 ≠ 0 ∨ e.extractLsb' 6 2 ≠ 0 ∨ e.extractLsb' 52 12 ≠ 0 ∨ (2 ≤ l ∧ e.extractLsb' 8 4 ≠ 0) ∨
      tierBytes s (e.getLsbD 5) < next + (if l = 1 then 256 else 4096)
  else
    2 < l ∨ e.extractLsb' 12 4 ≠ 0 ∨ e.extractLsb' 60 4 ≠ 0 ∨ e.extractLsb' 8 2 = 3 ∨ pa % page ≠ 0 ∨
      (e.getLsbD 7 = true ∧ tier ≠ 0) ∨ (e.getLsbD 10 = true ∧ e.getLsbD 2 = true) ∨
      (tier ≠ 3 ∧ (e.getLsbD 11 = true ∨ e.extractLsb' 52 8 ≠ 0)) ∨
      (((tier = 0 ∨ (tier = 3 ∧ e.getLsbD 11 = false)) ∧ Config.hbmBytes < pa + page) ∨ (tier = 1 ∧ s.ddrBytes < pa + page))

/-- The walk of an address through the levels listed, from a table at base of a tier, ends in w: at the first entry that gives cause, or at a
leaf. -/
def walksTo (s : State) (va : Nat) : List Nat → Bool → Nat → WalkEnd → Prop
  | [], _, _, _ => False
  | l :: r, ddr, base, w =>
    ∀ e : Word, e = BitVec.ofNat 64 (leNat (getBytes s (if ddr then .ddr else .hbm)
        (base + 8 * (va / 2 ^ levelShift l % (if l = 0 then 32 else 512))) 8)) →
      (e.getLsbD 0 = false → w = { cause := some .pageNotPresent, entry := e, level := l }) ∧
      (e.getLsbD 0 = true → malformed s e l → w = { cause := some .pteInvalid, entry := e, level := l }) ∧
      (e.getLsbD 0 = true → ¬malformed s e l → e.getLsbD 4 = true → w = { cause := none, entry := e, level := l }) ∧
      (e.getLsbD 0 = true → ¬malformed s e l → e.getLsbD 4 = false →
        walksTo s va r (e.getLsbD 5) ((e.extractLsb' 8 44).toNat * 256) w)

/-- The leaf gives an access the permission that it needs (R295): an atomic needs R and W, and not the host tier. -/
def permits (e : Word) : Access → Prop
  | .read => e.getLsbD 1 = true
  | .write => e.getLsbD 2 = true
  | .fetch => e.getLsbD 3 = true
  | .atomic => e.getLsbD 1 = true ∧ e.getLsbD 2 = true ∧ e.extractLsb' 5 2 ≠ 2

/-! ### The spool (10_scratchpad.md R235 to R237) -/

/-- RLOW: the least lo of the ring allocations, or SPLIM. -/
def Job.rlow (j : Job) (l : List Ring) : Nat := (l.map Ring.lo).foldl min j.splim.toNat

/-- The place of a ring allocation of z bytes by the loop of R236 over the allocations l, none where it does not fit. -/
def Job.ringPlace (j : Job) (l : List Ring) (z : Nat) : Option Nat :=
  let sphead := if l = [] then j.splim.toNat else j.sphead.toNat
  match l with
  | [] => if j.spbump.toNat ≤ sphead - z ∧ z ≤ sphead then some (sphead - z) else none
  | o :: r =>
    let wrapped : Prop := o.hi ≤ sphead ∧ r ≠ []
    if 64 ≤ l.length then none
    else if z ≤ sphead ∧ ((wrapped ∧ o.hi ≤ sphead - z) ∨ (¬wrapped ∧ j.spbump.toNat ≤ sphead - z)) then some (sphead - z)
    else if ¬wrapped ∧ z ≤ j.splim.toNat ∧ o.hi ≤ j.splim.toNat - z ∧ j.spbump.toNat ≤ j.splim.toNat - z then some (j.splim.toNat - z)
    else none

/-! ### Engine streams -/

/-- A word of an engine stream is performed: the stream is in no loop, or its trip performs words of its stage (07_queues.md R174). -/
def wordRuns (s : State) : Prop := ∀ f r, (curStream s).frames = f :: r → f.stage ≤ f.j ∧ f.j < (f.atClock s.clock).nEff + f.stage

/-- The stream of a patch word once its decoding is noted: a trip whose stage 0 has begun counts as started (R174). -/
def noted (s : State) : EngStream :=
  match (curStream s).frames with
  | [] => curStream s
  | f :: r =>
    let g := f.atClock s.clock
    { curStream s with frames := (if g.stage = 0 ∧ g.j < g.nEff then { g with started := g.j + 1 } else g) :: r }

/-- A pattern with slot k replaced by v (03_encodings.md R58). -/
def slotSet (p q : Pattern) (k : Nat) (v : BitVec 16) : Prop :=
  ∀ i, q.getLsbD i = if 16 * k ≤ i ∧ i < 16 * k + 16 then v.getLsbD (i - 16 * k) else p.getLsbD i

/-- An operation as it issues: its pattern, tokens, and the shape registers and handles of its engine (R58, 06_registers.md R139). -/
def issued (x : EngStream) (pat : Pattern) (t : Toks) : PipeItem :=
  .waiting { pat, toks := t, shapes := x.shapes, handles := x.handles, prog := 0, flags := 0, sib := false }

/-! ### Records, blocks and collectives -/

/-- Channel c is the one that acts: it has not stopped and owes no write. -/
def Chan.acts (c : Chan) (s : State) : Prop :=
  chanOf s s.curCore s.curChan = some c ∧ c.halt = .going ∧ c.wait = false ∧ c.owed = []

/-- Channel c performs a record, one unit in this turn. -/
def Chan.performs (c : Chan) (s : State) : Prop := c.acts s ∧ c.st = .walking ∧ c.cpyx = none ∧ s.units = 1

/-- After a unit of a record: the channel with its progress, and where every unit is done its completion begins (12_copy_index.md R275). -/
def recordAfter (u : State) (c : Chan) (total : Nat) : State :=
  let v := putChan (takeReplies u (.chan c.core c.n)) c
  if total ≤ c.prog then finishChan v c else putChan v c

/-- Block e is the one that acts, it holds its engine and has started, one row in this turn, and row i is its next. -/
def IdxEntry.performs (e : IdxEntry) (s : State) (i : Nat) : Prop :=
  blockAt s s.curIdx = some e ∧ e.holds = true ∧ e.finishing = false ∧ e.halt = .going ∧ e.wait = false ∧ e.owed = [] ∧ e.pins ≠ [] ∧
    s.units = 1 ∧ e.prog = i ∧ i < e.count

/-- After a row of a block, or the part of it before its stain bit: its progress, and no bytes kept from others any more; where every row is done
its status writes with DONE are owed (R287). -/
def blockAfter (u : State) (k : Nat) (e : IdxEntry) : State :=
  let e := { e with prog := (if e.moved then e.prog else e.prog + 1), guard := [] }
  let v := putBlock (takeReplies u (.index u.job.id e.sib)) k e
  if e.count ≤ e.prog then putBlock v k { e with finishing := true, owed := statusWrites e true } else putBlock v k e

/-- What participant q of a collective receives, of all participants' parts (16_fabric.md R354, R355), with its offsets. -/
def received (l : List PeerPart) (q : Nat) : Instr → Option (Nat × List Nat × List Nat)
  | .allred _ op f => some (f.bytes, (List.range (cntAt l 0)).map (treeElem op f l), [])
  | .redsc _ op f => some (f.bytes, (List.range (cntAt l q)).map fun k => treeElem op f l (((List.range q).map (cntAt l)).sum + k), [])
  | .allgv _ f _ =>
    some (f.bits / 8, (List.range l.length).flatMap fun p => (List.range (cntAt l p)).map (sentElem l p),
      (List.range (l.length + 1)).map fun p => ((List.range p).map (cntAt l)).sum)
  | .a2av _ f _ _ =>
    some (f.bits / 8,
      (List.range l.length).flatMap fun p =>
        (List.range (cntTo l p q)).map fun k => sentElem l p (((List.range q).map (cntTo l p)).sum + k),
      (List.range (l.length + 1)).map fun n => ((List.range n).map fun p => cntTo l p q).sum)
  | .bcast _ f root => some (f.bits / 8, (List.range (cntAt l root.toNat)).map (sentElem l root.toNat), [])
  | .argn _ _ =>
    some (8, (List.range (cntAt l 0)).map fun k => argnOut (treeOf argnPick 0 ((List.range l.length).map fun p => sentElem l p k)), [])
  | .fbar _ => some (1, [], [])
  | _ => none

/-- Participants that send elements: all but for BCAST, where the root sends, and FBAR; REDSC sends the sum of all counts. -/
def sendCount (l : List PeerPart) (p : Nat) : Instr → Nat
  | .redsc .. => ((List.range l.length).map (cntAt l)).sum
  | .bcast _ _ root => if p = root.toNat then cntAt l p else 0
  | .fbar _ => 0
  | _ => cntAt l p

/-- Sub-operation of a DARN, with its registers (17_generation.md R362). -/
def darnForm : Instr → Option (Nat × Reg × Reg)
  | .darnRank d a => some (0, d, a)
  | .darnCommit d a => some (1, d, a)
  | .darnStain d a => some (2, d, a)
  | .darnList d a => some (3, d, a)
  | .darnClear d a => some (4, d, a)
  | _ => none

/-! ### Traps and streams -/

/-- The engine is named by the mask. -/
def maskHas (m : EngMask) : Engine → Bool
  | .ld => m.ld | .mx => m.mx | .vx => m.vx | .st => m.st

/-- What the control stream waits for is given up, and with a waiting instruction the responses that it has and those that it asked for
(05_control_core.md R133, 04_jobs.md R96). -/
def givenUp (s : State) : State := if s.job.wait.waiting then forsake (withdraw s s.job.id) s.job.id else withdraw s s.job.id

/-- The job at the first instruction of its handler, for a trap with PEND (15_traps.md R322): its cause, TVAL, TPROG, STREAM code, SIB, ORIG
and the PC to which ERET returns. -/
def Job.inHandler (j : Job) (t : Trap) (back : Word) (rest : List Trap) : Job :=
  { j with
    tcause := t.cause.code, tval := t.val, tprog := t.prog, tstream := t.stream, tsib := t.sib, torig := t.orig, ttub := t.tub, tslot := t.slot
    tword := t.word, hnd := true
    tpend := decide (rest ≠ []), tpc := back, pending := rest, wait := .ready, pc := j.tvec }

/-- TVEC is the address of a handler: not 0, and a multiple of 4 (15_traps.md R322). -/
def Job.handled (j : Job) : Prop := j.tvec ≠ 0 ∧ j.tvec.toNat % 4 = 0

/-- The trap of an instruction of the control stream. -/
def ownTrap (c : Cause) (v pc prog : Word) : Trap := { cause := c, val := v, prog, stream := 0, sib := false, orig := 0, pc }

/-! ### The fabric, graphs and the host -/

/-- The tier that a request acts on. -/
def reqTier (q : Request) : Space := if q.ddr then .ddr else .hbm

/-- The device once the lint filter has looked at a request's window (16_fabric.md R345). -/
def windowMoved (s : State) (q : Request) : State := putWindow s ((srcWindow s q.src).ack q.ackb)

/-- The request is of this epoch, not answered yet, and inside the window of its source. -/
def freshRequest (s : State) (q : Request) : Prop :=
  let w := (srcWindow s q.src).ack q.ackb
  q.epoch = s.epoch ∧ (∀ d ∈ w.done, d.1 ≠ q.seq) ∧ seqBefore q.seq w.base = false ∧ (q.seq - w.base).toNat < 4096

/-- The response to a request. -/
def answer (s : State) (q : Request) (status : BitVec 8) (result : Word) (data : List Byte) (poisoned : Bool) : Response :=
  { status, src := ownIndex s, tgt := q.src, seq := q.seq, result, data, poisoned }

/-- In t the request has been answered with r. -/
def answeredWith (s t : State) (r : Response) : Prop := t.sentResp = s.sentResp ++ [r]

/-- i is the event of a request of its kind. -/
def brings (i : Instr) (q : Request) : Prop :=
  match q.op with
  | .load => i = .remoteLoad q
  | .store .. | .nibble .. => i = .remoteStore q
  | .amo .. => i = .remoteAmo q
  | .cas .. => i = .remoteCas q
  | .reduce .. | .scatterAdd .. => i = .remoteReduce q
  | .launch .. => i = .jaileLaunchMessage q
  | .wringer .. => i = .wringerTraffic q

/-- The operations of AMO on a doubleword (05_control_core.md R121). -/
def amoValue (op : Fin 8) (old v : Word) : Word :=
  match op with
  | 0 => v
  | 1 => old + v
  | 2 => old &&& v
  | 3 => old ||| v
  | 4 => old ^^^ v
  | 5 => if old.toInt ≤ v.toInt then old else v
  | 6 => if old.toInt ≤ v.toInt then v else old
  | 7 => if old.toNat ≤ v.toNat then v else old

/-- Node k of a graph changed to n. -/
def Graph.withNode (g : Graph) (k : Nat) (n : GNode) : Graph := { g with nodes := g.nodes.set k n }

/-- A graph with the pending counts from node t on at their JOIN (04_jobs.md R101). -/
def Graph.rearmed (g : Graph) (t : Nat) : Graph :=
  { g with nodes := g.nodes.mapIdx fun k y => if t ≤ k then { y with pending := nodeJoin y.raw } else y }

/-- Command c of an opcode is the one that starts (18_host.md R378). -/
def starts (s : State) (op : Nat) (c : Cmd) : Prop := nextCmd s op = some c

/-! ### Operations of the engines -/

/-- What an operation of an engine leaves alone: the control core's registers, the shape registers, the handles, the mailbox, and every
byte of every store. -/
def opFrame (s t : State) : Prop :=
  (t.job.x = s.job.x ∧ t.job.pc = s.job.pc ∧ t.job.wait = s.job.wait ∧ t.job.fmask = s.job.fmask ∧ t.job.hnd = s.job.hnd ∧
    t.job.tvec = s.job.tvec ∧ t.job.tpc = s.job.tpc ∧ t.job.tcause = s.job.tcause ∧ t.job.tval = s.job.tval) ∧
  (t.job.shapes = s.job.shapes ∧ t.job.handles = s.job.handles ∧ t.job.inbox = s.job.inbox ∧ t.job.spbump = s.job.spbump ∧
    t.job.sphead = s.job.sphead) ∧
  t.barriers = s.barriers

/-- A slot names a register that an operation can write. -/
def isDest (r : RegSlot) : Prop := (∃ i, r = .main i) ∨ ∃ i, r = .opnd i

/-- Bytes a of the main file and of the operand file that the first n bytes of a slot's register cover. -/
def coversMain (r : RegSlot) (n a : Nat) : Prop := ∃ i, r = .main i ∧ 4096 * i.val ≤ a ∧ a < 4096 * i.val + n
def coversOpnd (r : RegSlot) (n a : Nat) : Prop := ∃ i, r = .opnd i ∧ 4096 * i.val ≤ a ∧ a < 4096 * i.val + n

/-- In t the n elements of a format given by f stand from a slot's register on, and no other byte of the two register files has
changed, but for the bytes that a second slot covers. -/
def spanWrote (s t : State) (r : RegSlot) (f : Fmt) (n : Nat) (val : Nat → Nat) (q : RegSlot) (m : Nat) : Prop :=
  (isDest r → (m = 0 ∨ q ≠ r) → ∀ k, k < n → regElem t.job r f k = val k % 2 ^ Fmt.bits f) ∧
  (∀ a, ¬coversMain r ((Fmt.bits f * n + 7) / 8) a → ¬coversMain q m a → sget t.job.main a = sget s.job.main a) ∧
  ∀ a, ¬coversOpnd r ((Fmt.bits f * n + 7) / 8) a → ¬coversOpnd q m a → sget t.job.opnd a = sget s.job.opnd a

/-- In t a VX operation has completed with a result (08_vector.md R184, 06_registers.md R136, 02_numbers.md R41): its destination, its
second destination and the last-result file, its flags and its entries of the FIFO. A result fills at most one register. -/
def vxWrote (s t : State) (v : VOp) (r : VOut) : Prop :=
  opFrame s t ∧ sameBytes s t ∧ t.job.matrix = s.job.matrix ∧
  t.job.flags = s.job.flags ||| ((curOp s.job .vx).flags ||| r.flags) ∧ t.job.fifo = s.job.fifo ++ r.post ∧
  (Fmt.bits r.fmt * r.vals.length ≤ 32768 → r.second.length ≤ 4096 →
    spanWrote s t v.d r.fmt r.vals.length (fun k => r.vals.getD k 0) v.b r.second.length ∧
    (isDest v.b → ∀ k, k < r.second.length → regElem t.job v.b .uint8 k = r.second.getD k 0 % 256) ∧
    (∀ k, k < r.vals.length → regElem t.job (.last 0) r.fmt k = r.vals.getD k 0 % 2 ^ Fmt.bits r.fmt) ∧
    ∀ a, a < 3 * 4096 → sget t.job.last (a + 4096) = sget s.job.last a)

/-- An elementwise operation: its pattern, how many of the sources a, b, c it reads, and what it gives for a random operand and elements
of them. -/
structure VxElem where
  v : VOp
  sources : Nat
  f : Nat → Nat → Nat → Nat → Nat × Flags

/-- A floating-point result of the values of the sources, rounded once (02_numbers.md R27, R29). -/
def rounded (v : VOp) (r : Nat) (x : List Num) (y : Num) : Nat × Flags := finish v.df v.rm v.hdr.sat r x y

/-- An integer result, wrapped or saturated to the destination format (02_numbers.md R31). -/
def integral (v : VOp) (y : Int) : Nat × Flags := narrow v.df v.hdr.sat y

/-- The elementwise operations (08_vector.md R188, R190, R201). -/
def vxElem : Instr → Option VxElem
  | .vadd v => some { v, sources := 2, f := fun r a b _ => let x := numOf v.sf a; let y := numOf v.sf b; rounded v r [x, y] (x.add v.rm y) }
  | .vsub v => some { v, sources := 2, f := fun r a b _ => let x := numOf v.sf a; let y := numOf v.sf b; rounded v r [x, y] (x.add v.rm y.neg) }
  | .vmul v => some { v, sources := 2, f := fun r a b _ => let x := numOf v.sf a; let y := numOf v.sf b; rounded v r [x, y] (x.mul y) }
  | .vfma v => some { v, sources := 3, f := fun r a b c =>
      let x := numOf v.sf a; let y := numOf v.sf b; let z := numOf v.sf c; rounded v r [x, y, z] ((x.mul y).add v.rm z) }
  | .vfms v => some { v, sources := 3, f := fun r a b c =>
      let x := numOf v.sf a; let y := numOf v.sf b; let z := numOf v.sf c; rounded v r [x, y, z] ((x.mul y).add v.rm z.neg) }
  | .vmax v => some { v, sources := 2, f := fun r a b _ => let x := numOf v.sf a; let y := numOf v.sf b; rounded v r [x, y] (x.max y) }
  | .vmin v => some { v, sources := 2, f := fun r a b _ => let x := numOf v.sf a; let y := numOf v.sf b; rounded v r [x, y] (x.min y) }
  | .vabs v => some { v, sources := 1, f := fun r a _ _ => rounded v r [numOf v.sf a] (numOf v.sf a).abs }
  | .vneg v => some { v, sources := 1, f := fun r a _ _ => rounded v r [numOf v.sf a] (numOf v.sf a).neg }
  | .vcvt v => some { v, sources := 1, f := fun r a _ _ => convert v.sf v.df v.rm v.hdr.sat r a }
  | .vexp2 v => some { v, sources := 1, f := fun r a _ _ => exp2Round v.df v.rm v.hdr.sat r (numOf v.sf a) }
  | .vlog2 v => some { v, sources := 1, f := fun r a _ _ => log2Round v.df v.rm v.hdr.sat r (numOf v.sf a) }
  | .vrcp v => some { v, sources := 1, f := fun r a _ _ => rcpRound v.df v.rm v.hdr.sat r (numOf v.sf a) }
  | .vrsq v => some { v, sources := 1, f := fun r a _ _ => rsqrtRound v.df v.rm v.hdr.sat r (numOf v.sf a) }
  | .vsqrt v => some { v, sources := 1, f := fun r a _ _ => sqrtRound v.df v.rm v.hdr.sat r (numOf v.sf a) }
  | .vdiv v => some { v, sources := 2, f := fun r a b _ => divRound v.df v.rm v.hdr.sat r (numOf v.sf a) (numOf v.sf b) }
  | .viadd v => some { v, sources := 2, f := fun _ a b _ => integral v (intOf v.sf a + intOf v.sf b) }
  | .visub v => some { v, sources := 2, f := fun _ a b _ => integral v (intOf v.sf a - intOf v.sf b) }
  | .vimul v => some { v, sources := 2, f := fun _ a b _ => integral v (intOf v.sf a * intOf v.sf b) }
  | .vimax v => some { v, sources := 2, f := fun _ a b _ => integral v (if intOf v.sf a ≤ intOf v.sf b then intOf v.sf b else intOf v.sf a) }
  | .vimin v => some { v, sources := 2, f := fun _ a b _ => integral v (if intOf v.sf a ≤ intOf v.sf b then intOf v.sf a else intOf v.sf b) }
  | .vand v => some { v, sources := 2, f := fun _ a b _ => integral v (intOf v.sf (a &&& b)) }
  | .vor v => some { v, sources := 2, f := fun _ a b _ => integral v (intOf v.sf (a ||| b)) }
  | .vxor v => some { v, sources := 2, f := fun _ a b _ => integral v (intOf v.sf (a ^^^ b)) }
  | .vshl v => some { v, sources := 2, f := fun _ a b _ => integral v (intOf v.sf a * 2 ^ min b 64) }
  | .vshr v => some { v, sources := 2, f := fun _ a b _ => integral v (a / 2 ^ min b 64 : Nat) }
  | .vsra v => some { v, sources := 2, f := fun _ a b _ => integral v ((BitVec.ofNat (Fmt.bits v.sf) a).toInt / 2 ^ min b 64) }
  | .vcmp v c => some { v, sources := 2, f := fun _ a b _ => (if condHolds c (numOf v.sf a) (numOf v.sf b) then 1 else 0, 0) }
  | .vgumb v => some { v, sources := 1, f := fun _ a _ _ => gumbel a }
  | _ => none

/-- An operation of engine e with total units after unit u, in a turn of one unit: it has completed, or stands before unit u + 1. -/
def afterUnit (s : State) (e : Engine) (total u : Nat) (fl : Flags) : State :=
  let s := takeReplies s (.eng s.job.id e)
  if total ≤ u + 1 then completeOp s e fl else noteProgress s e (u + 1) fl

/-- In w the n bytes from byte lo of a slot's register on are d, and no other byte of a register has changed; nothing else of the device
has. -/
def regBytesWrote (s w : State) (r : RegSlot) (lo : Nat) (d : List Nat) : Prop :=
  w = { s with job := { s.job with main := w.job.main, opnd := w.job.opnd } } ∧
  (isDest r → ∀ k, k < d.length → regByte w.job r (lo + k) = d.getD k 0 % 256) ∧
  (∀ a, (∀ i, r = .main i → a < 4096 * i.val + lo ∨ 4096 * i.val + lo + d.length ≤ a) → sget w.job.main a = sget s.job.main a) ∧
  ∀ a, (∀ i, r = .opnd i → a < 4096 * i.val + lo ∨ 4096 * i.val + lo + d.length ≤ a) → sget w.job.opnd a = sget s.job.opnd a

/-- In w element u of the registers from a slot on holds v, and no other element of them, and no byte of another register, has changed;
nothing else of the device has. -/
def elemWrote (s w : State) (r : RegSlot) (f : Fmt) (u v : Nat) : Prop :=
  let lo := Fmt.bits f * u / 8
  let n := (Fmt.bits f + 7) / 8
  w = { s with job := { s.job with main := w.job.main, opnd := w.job.opnd } } ∧
  (isDest r → ∀ k, regElem w.job r f k = if k = u then v % 2 ^ Fmt.bits f else regElem s.job r f k) ∧
  (∀ a, (∀ i, r = .main i → a < 4096 * i.val + lo ∨ 4096 * i.val + lo + n ≤ a) → sget w.job.main a = sget s.job.main a) ∧
  ∀ a, (∀ i, r = .opnd i → a < 4096 * i.val + lo ∨ 4096 * i.val + lo + n ≤ a) → sget w.job.opnd a = sget s.job.opnd a

/-- A transfer of elements between a handle and registers: the instruction with its class, rounding and saturation, and the element that
each operation index names (06_registers.md R154, R157, R158). -/
structure LsForm where
  cls : Cls
  rm : RMode
  sat : Bool
  elem : State → Party → IOp → Hnd → Nat → Except Stop (Option Int)

/-- The element of operation index k of a linear operation. -/
def linearElem (l : LinOp) (s : State) (p : Party) (o : IOp) (h : Hnd) (k : Nat) : Except Stop (Option Int) :=
  elemAtOpt s p o h (linearPos h (if l.scales then blockStart h (linBlock h (countOf o l.start) + k) else countOf o l.start + k))

/-- Loads of elements: LDT but for raw blocks, LDV, the first n elements of LDB, LDG. -/
def ldElems (o : IOp) (k : Nat) : Instr → Option LsForm
  | .ldt t => if t.fr = .e2m1s ∧ t.scales = false then none
      else some { cls := t.hdr.cls, rm := t.rm, sat := t.hdr.sat, elem := fun s p o h => tileElem s p o t h }
  | .ldv l => some { cls := l.hdr.cls, rm := l.rm, sat := l.hdr.sat, elem := linearElem l }
  | .ldb l _ => if linUnits o l ≤ k then none
      else some { cls := l.hdr.cls, rm := l.rm, sat := l.hdr.sat, elem := linearElem l }
  | .ldg x => some { cls := x.hdr.cls, rm := x.rm, sat := x.hdr.sat, elem := fun s p o h => idxElem s p o x h }
  | _ => none

/-- Before a unit a tile load keeps the vectors and the scale that the unit reads for use further on, and LDG the scale (06_registers.md R152). -/
def ldKept (s : State) (i : Instr) : State :=
  match i with
  | .ldt t =>
    let o := curOp s.job .ld
    keepOp s .ld fun y => y.keep (tileVecs t o (tileFirst t o o.prog) s)
  | .ldg x =>
    let o := curOp s.job .ld
    keepOp s .ld fun y => y.keep (idxVecs x o o.prog s)
  | _ => s

/-- After element k of LDB its value is kept for the repeats (R157). -/
def ldValued (w : State) (x : LsInfo) (k : Nat) : Instr → State
  | .ldb .. => keepOp w .ld fun y => { y with vals := regElem w.job x.reg x.fr k :: y.vals }
  | _ => w

/-- The raw form of a tile operation after unit u: it has completed, or stands before the elements of unit u + 1. -/
def afterBlock (s : State) (e : Engine) (t : TileOp) (o : IOp) (u : Nat) (fl : Flags) : State :=
  let s := takeReplies s (.eng s.job.id e)
  if tileUnits o t ≤ u + 1 then completeOp s e fl else noteProgress s e (tileProg t o (u + 1)) fl

/-- Stores of elements: STT but for raw blocks, STV, STS. -/
def stElems : Instr → Option LsForm
  | .stt t => if t.fr = .e2m1s ∧ t.scales = false then none
      else some { cls := t.hdr.cls, rm := t.rm, sat := t.hdr.sat, elem := fun s p o h => tileElem s p o t h }
  | .stv l => some { cls := l.hdr.cls, rm := l.rm, sat := l.hdr.sat, elem := linearElem l }
  | .sts x => some { cls := x.hdr.cls, rm := x.rm, sat := x.hdr.sat, elem := fun s p o h => idxElem s p o x h }
  | _ => none

/-! ### A step -/

/-- The device as the first turn of its agenda finds it: the clocks before the turn have passed. -/
def turnStart (s : State) (t : Turn) (rest : List Turn) : State :=
  tick { s with agenda := rest, delay := t.delay, units := t.units } t.dt

/-- What a code is: a word of the control core or of an engine stream; a pattern; a record, a block or a descriptor. -/
inductive CodeKind where
  | word | pattern | record
  deriving DecidableEq, Repr

/-- The kind of a code. -/
def Code.kind : Code → CodeKind
  | .control _ | .patch _ _ => .word
  | .pattern _ _ => .pattern
  | .record _ | .block _ | .desc _ => .record

end Sys2Proof.Machine
end

