-- ==== Sys2Proof/Certificates/Slice0/Obligations.lean ====
section
/-! DEFINITION. The statements about the model, one for each family and kind of state (OBLIGATIONS.json). -/

open Sys2Proof Sys2Proof.Machine

/-- R112: the arithmetic of the ALU group. Nothing but x[d] and the PC changes. R112: logic, shifts, comparisons, counts and SEL. Nothing
but x[d] and the PC changes. R106: x0 reads as zero and discards writes; every other register reads as it was last written. -/
def Obligations.AluWritesResult : Prop :=
  (∀ (s : State) (d a b : Reg) (A B : Word), A = getX s a → B = getX s b →
     exec (.add d a b) s = .next (wroteX s d (A + B)) ∧
     exec (.sub d a b) s = .next (wroteX s d (A - B)) ∧
     exec (.mul d a b) s = .next (wroteX s d (BitVec.ofInt 64 (A.toInt * B.toInt))) ∧
     exec (.mulh d a b) s = .next (wroteX s d (((A.signExtend 128) * (B.signExtend 128)).extractLsb' 64 64)) ∧
     exec (.mulhu d a b) s = .next (wroteX s d (((A.setWidth 128) * (B.setWidth 128)).extractLsb' 64 64)) ∧
     exec (.div d a b) s = .next (wroteX s d (if B = 0 then 0xFFFFFFFFFFFFFFFF
       else if A.toInt = -2 ^ 63 ∧ B.toInt = -1 then A else BitVec.ofInt 64 (A.toInt.tdiv B.toInt))) ∧
     exec (.divu d a b) s = .next (wroteX s d (if B = 0 then 0xFFFFFFFFFFFFFFFF else BitVec.ofNat 64 (A.toNat / B.toNat))) ∧
     exec (.rem d a b) s = .next (wroteX s d (if B = 0 then A
       else if A.toInt = -2 ^ 63 ∧ B.toInt = -1 then 0 else BitVec.ofInt 64 (A.toInt - B.toInt * A.toInt.tdiv B.toInt))) ∧
     exec (.remu d a b) s = .next (wroteX s d (if B = 0 then A else BitVec.ofNat 64 (A.toNat % B.toNat)))) ∧
  (∀ (s : State) (d a b : Reg) (A B : Word), A = getX s a → B = getX s b →
     exec (.and d a b) s = .next (wroteX s d (A &&& B)) ∧
     exec (.or d a b) s = .next (wroteX s d (A ||| B)) ∧
     exec (.xor d a b) s = .next (wroteX s d (A ^^^ B)) ∧
     exec (.shl d a b) s = .next (wroteX s d (A <<< (B.extractLsb' 0 6))) ∧
     exec (.shr d a b) s = .next (wroteX s d (A >>> (B.extractLsb' 0 6))) ∧
     exec (.sra d a b) s = .next (wroteX s d (BitVec.ofInt 64 (A.toInt / 2 ^ (B.extractLsb' 0 6).toNat))) ∧
     exec (.min d a b) s = .next (wroteX s d (if A.toInt ≤ B.toInt then A else B)) ∧
     exec (.max d a b) s = .next (wroteX s d (if A.toInt ≤ B.toInt then B else A)) ∧
     exec (.minu d a b) s = .next (wroteX s d (if A.toNat ≤ B.toNat then A else B)) ∧
     exec (.maxu d a b) s = .next (wroteX s d (if A.toNat ≤ B.toNat then B else A)) ∧
     exec (.slt d a b) s = .next (wroteX s d (if A.toInt < B.toInt then 1 else 0)) ∧
     exec (.sltu d a b) s = .next (wroteX s d (if A.toNat < B.toNat then 1 else 0)) ∧
     exec (.clz d a) s = .next (wroteX s d A.clz) ∧
     exec (.popc d a) s = .next (wroteX s d A.cpop) ∧
     exec (.sel d a b) s = .next (wroteX s d (if getX s d ≠ 0 then A else B))) ∧
  (∀ (s : State) (d r : Reg) (v : Word),
     getX s 0 = 0 ∧ getX (wroteX s d v) r = if r = 0 then 0 else if r = d then v else getX s r)

/-- R113, R114: the immediate forms, LIH and LSH, with their formats. Nothing but x[d] and the PC changes; a shift word with a bit of
14..6 set is illegal. -/
def Obligations.AluImmediate : Prop :=
  ∀ (s : State) (d a : Reg) (i : BitVec 15) (n : Fin 64) (u : BitVec 20) (A : Word), A = getX s a →
    exec (.addi d a i) s = .next (wroteX s d (A + i.signExtend 64)) ∧
    exec (.andi d a i) s = .next (wroteX s d (A &&& i.signExtend 64)) ∧
    exec (.ori d a i) s = .next (wroteX s d (A ||| i.signExtend 64)) ∧
    exec (.xori d a i) s = .next (wroteX s d (A ^^^ i.signExtend 64)) ∧
    exec (.slti d a i) s = .next (wroteX s d (if A.toInt < i.toInt then 1 else 0)) ∧
    exec (.shli d a n) s = .next (wroteX s d (A <<< n.val)) ∧
    exec (.shri d a n) s = .next (wroteX s d (A >>> n.val)) ∧
    exec (.srai d a n) s = .next (wroteX s d (A.sshiftRight n.val)) ∧
    exec (.lih d u) s = .next (wroteX s d (BitVec.ofInt 64 (u.toInt * 4096))) ∧
    exec (.lsh d u) s = .next (wroteX s d ((getX s d).extractLsb' 0 44 ++ u)) ∧
    decodeControl 3 (0x02#7 ++ reg5 d ++ reg5 a ++ i) = .addi d a i ∧
    decodeControl 3 (0x03#7 ++ reg5 d ++ reg5 a ++ i) = .andi d a i ∧
    decodeControl 3 (0x04#7 ++ reg5 d ++ reg5 a ++ i) = .ori d a i ∧
    decodeControl 3 (0x05#7 ++ reg5 d ++ reg5 a ++ i) = .xori d a i ∧
    decodeControl 3 (0x06#7 ++ reg5 d ++ reg5 a ++ 0#9 ++ (BitVec.ofFin n : BitVec 6)) = .shli d a n ∧
    decodeControl 3 (0x07#7 ++ reg5 d ++ reg5 a ++ 0#9 ++ (BitVec.ofFin n : BitVec 6)) = .shri d a n ∧
    decodeControl 3 (0x08#7 ++ reg5 d ++ reg5 a ++ 0#9 ++ (BitVec.ofFin n : BitVec 6)) = .srai d a n ∧
    decodeControl 3 (0x09#7 ++ reg5 d ++ reg5 a ++ i) = .slti d a i ∧
    decodeControl 3 (0x0A#7 ++ reg5 d ++ u) = .lih d u ∧
    decodeControl 3 (0x0B#7 ++ reg5 d ++ u) = .lsh d u ∧
    ∀ w : Word32, (w.extractLsb' 25 7 = 0x06 ∨ w.extractLsb' 25 7 = 0x07 ∨ w.extractLsb' 25 7 = 0x08) → w.extractLsb' 6 9 ≠ 0 →
      decodeControl 3 w = .illegalInstr false w

/-- R115, R116: branches with their majors and format, JAL and JALR. Nothing but the PC changes, and x[d] where the instruction links; a
JALR to an address that is not a multiple of 4 traps with x[d] unchanged. -/
def Obligations.BranchesAndJumps : Prop :=
  ∀ (s : State) (d a b : Reg) (o : BitVec 15) (u : BitVec 20) (A B next target : Word),
    A = getX s a → B = getX s b → next = s.job.pc + 4 → target = s.job.pc + 4 * o.signExtend 64 →
    exec (.beq a b o) s = .next (wentTo s (if A = B then target else next)) ∧
    exec (.bne a b o) s = .next (wentTo s (if A = B then next else target)) ∧
    exec (.blt a b o) s = .next (wentTo s (if A.toInt < B.toInt then target else next)) ∧
    exec (.bge a b o) s = .next (wentTo s (if A.toInt < B.toInt then next else target)) ∧
    exec (.bltu a b o) s = .next (wentTo s (if A.toNat < B.toNat then target else next)) ∧
    exec (.bgeu a b o) s = .next (wentTo s (if A.toNat < B.toNat then next else target)) ∧
    exec (.jal d u) s = .next (wentTo (wroteX s d next) (s.job.pc + 4 * u.signExtend 64)) ∧
    ((A + o.signExtend 64).toNat % 4 = 0 → exec (.jalr d a o) s = .next (wentTo (wroteX s d next) (A + o.signExtend 64))) ∧
    ((A + o.signExtend 64).toNat % 4 ≠ 0 → exec (.jalr d a o) s = .next (raise s .misaligned (A + o.signExtend 64))) ∧
    decodeControl 3 (0x10#7 ++ reg5 a ++ reg5 b ++ o) = .beq a b o ∧
    decodeControl 3 (0x11#7 ++ reg5 a ++ reg5 b ++ o) = .bne a b o ∧
    decodeControl 3 (0x12#7 ++ reg5 a ++ reg5 b ++ o) = .blt a b o ∧
    decodeControl 3 (0x13#7 ++ reg5 a ++ reg5 b ++ o) = .bge a b o ∧
    decodeControl 3 (0x14#7 ++ reg5 a ++ reg5 b ++ o) = .bltu a b o ∧
    decodeControl 3 (0x15#7 ++ reg5 a ++ reg5 b ++ o) = .bgeu a b o

/-- R132: NOP has no effect but to advance the PC; a word of its major with another field that is not zero raises ILLEGAL_INSTR. -/
def Obligations.NopOnlyAdvances : Prop :=
  ∀ (s : State) (v : Nat) (w : Word32), w.extractLsb' 25 7 = 0x70 →
    exec (decodeControl v w) s =
      if w = 0xE0000000 then .next (wentTo s (s.job.pc + 4)) else .next (raise s .illegalInstr (w.setWidth 64))

/-- R117, R119, R120, R306: a load puts the bytes at its address, as they stand at one moment, extended, into x[d]; a poisoned line
and an address that is not a multiple of the width trap with x[d] unchanged. R307: what must perform before the load, the pending stores of its class and those of its bytes, has performed
in the state u that it reads, and with no such store u is the state itself; no other byte of any store changes. An access that does not
translate, or that fails at another device, stops the instruction with nothing written: the trap is its cause, and a wait runs it again
(R133, R295). -/
def Obligations.Loads : Prop :=
  ∀ (i : Instr) (s : State) (d : Reg) (ea : Word) (w : Nat) (c : Cls) (signed : Bool),
    loadForm s i = some (d, ea, w, c, signed) →
    (∀ u, u = drainLoad s c (.va ea) w → Job.sameRegs s.job u.job ∧
      ((∀ q ∈ s.job.stores, Pending.beforeLoad c (readSpots s (ctlParty s c) (.va ea) w) q = false) → u = s) ∧
      (ea.toNat % w = 0 → ∀ ch, readChunk u (ctlParty u c) .read (.va ea) w = .ok ch →
        (ch.bad = false → ∀ v, v = leNat ch.data →
          exec i s = .next (wroteX (repliesTaken u) d (if signed then (BitVec.ofNat (8 * w) v).signExtend 64 else BitVec.ofNat 64 v))) ∧
        (ch.bad = true → exec i s = .next (ctlStop u (.trap .poison ea)))) ∧
      (ea.toNat % w = 0 → ∀ e, readChunk u (ctlParty u c) .read (.va ea) w = .error e → ∃ t, exec i s = .next t ∧ stopsAt u t e)) ∧
    (ea.toNat % w ≠ 0 → exec i s = .next (ctlStop s (.trap .misaligned ea)))

/-- R117, R119, R120, R153: ST, STL and HST store their bytes at their address, in the scratchpad through basting (R241), and write no
other byte and no register; u is the state after the earlier stores of the stream that must perform first (R307, R308), and the place
that the store goes to is looked up in both states. Where the turn delays plain stores, one that may wait stays pending with its place
(log entry 6). An address that is not a multiple of the width traps. A store whose address does not translate, or that fails at another device,
stops the instruction with nothing written by it (R295). -/
def Obligations.Stores : Prop :=
  ∀ (i : Instr) (s : State) (ea : Word) (c : Cls) (d : List Byte),
    storeForm s i = some (ea, c, d) →
    (ea.toNat % d.length = 0 → ∀ sp a pol owner u, locate s (ctlParty s c) .write (.va ea) d.length = .ok (.here sp a pol, owner) →
      u = drainFor s c (some (sp, a, owner)) d.length →
      (s.delay = true → mayWait s (.here sp a pol, owner) = true → (∀ x y z c p, i ≠ .stl x y z c p) →
        exec i s = .next (wentTo (repliesTaken
          { s with job := { s.job with stores := s.job.stores ++ [.store c sp a owner d] } }) (s.job.pc + 4))) ∧
      (s.delay = false ∨ mayWait s (.here sp a pol, owner) = false ∨ (∃ x y z c p, i = .stl x y z c p) →
        locate u (ctlParty s c) .write (.va ea) d.length = .ok (.here sp a pol, owner) →
        Space.fits (writeTarget u sp a owner).2.1 (writeTarget u sp a owner).2.2 d.length →
        ∃ t, exec i s = .next t ∧ t.job.pc = s.job.pc + 4 ∧ Job.sameRegs s.job t.job ∧ bytesStored u t sp a owner d)) ∧
    (ea.toNat % d.length = 0 → ∀ dev ddr pa pol owner u r,
      locate s (ctlParty s c) .write (.va ea) d.length = .ok (.remote dev ddr pa pol, owner) →
      u = drainFor s c (spotOf s (.remote dev ddr pa pol, owner)) d.length →
      locate u (ctlParty s c) .write (.va ea) d.length = .ok (.remote dev ddr pa pol, owner) →
      answerTo u (ctlParty s c) (request u (ctlParty s c) (.store d false) dev ddr pa d.length pol) ea (Loc.va ea).line = .ok r →
      ∃ t, exec i s = .next t ∧ t.job.pc = s.job.pc + 4 ∧ Job.sameRegs s.job t.job ∧ sameBytes u t) ∧
    (ea.toNat % d.length = 0 → ∀ e, locate s (ctlParty s c) .write (.va ea) d.length = .error e → ∃ t, exec i s = .next t ∧ stopsAt s t e) ∧
    (ea.toNat % d.length = 0 → ∀ x u, locate s (ctlParty s c) .write (.va ea) d.length = .ok x →
      (s.delay = false ∨ mayWait s x = false ∨ (∃ x y z c p, i = .stl x y z c p)) → u = drainFor s c (spotOf s x) d.length →
      (∀ e, locate u (ctlParty s c) .write (.va ea) d.length = .error e → ∃ t, exec i s = .next t ∧ stopsAt u t e) ∧
      (∀ dev ddr pa pol owner e, locate u (ctlParty s c) .write (.va ea) d.length = .ok (.remote dev ddr pa pol, owner) →
        answerTo u (ctlParty s c) (request u (ctlParty s c) (.store d false) dev ddr pa d.length pol) ea (Loc.va ea).line = .error e →
        ∃ t, exec i s = .next t ∧ stopsAt u t e)) ∧
    (ea.toNat % d.length ≠ 0 → exec i s = .next (ctlStop s (.trap .misaligned ea)))

/-- R121 to R123: AMO, AMOA, AMOL, AMOAL and CAS put the old doubleword into x[d] and write the new one, at one moment; they write no
other byte and no other register. A poisoned line and an address that is not a multiple of 8 trap, with nothing written. An address that does
not translate for reading and writing, and one that fails at another device, stop the instruction with nothing written by it (R295). -/
def Obligations.Atomics : Prop :=
  ∀ (i : Instr) (s : State) (f : AtomicForm), atomicForm s i = some f →
    (f.ea.toNat % 8 = 0 → ∀ x u, locate s (ctlParty s f.cls) .atomic (.va f.ea) 8 = .ok x → u = drainFor s f.cls (spotOf s x) 8 →
     (∀ sp a pol owner old, locate u (ctlParty s f.cls) .atomic (.va f.ea) 8 = .ok (.here sp a pol, owner) →
      old = BitVec.ofNat 64 (leNat (getBytes u (readPlace u sp a owner).1 (readPlace u sp a owner).2 8)) →
      (lineBad u (readPlace u sp a owner).1 (readPlace u sp a owner).2 = false →
        Space.fits (writeTarget u sp a owner).2.1 (writeTarget u sp a owner).2.2 8 →
        ∃ t, exec i s = .next t ∧ t.job.pc = s.job.pc + 4 ∧ Job.sameRegs (wroteX s f.d old).job t.job ∧
          match f.new old with
          | some v => bytesStored u t sp a owner (leBytes 8 v.toNat)
          | none => sameBytes u t) ∧
      (lineBad u (readPlace u sp a owner).1 (readPlace u sp a owner).2 = true →
        exec i s = .next (ctlStop u (.trap .poison f.ea)))) ∧
     ∀ dev ddr pa pol owner r,
      locate u (ctlParty s f.cls) .atomic (.va f.ea) 8 = .ok (.remote dev ddr pa pol, owner) →
      answerTo u (ctlParty s f.cls) (request u (ctlParty s f.cls) f.req dev ddr pa 8 pol) f.ea f.ea = .ok r →
      ∃ t, exec i s = .next t ∧ t.job.pc = s.job.pc + 4 ∧ Job.sameRegs (wroteX s f.d r.result).job t.job ∧ sameBytes u t) ∧
    (f.ea.toNat % 8 = 0 → ∀ e, locate s (ctlParty s f.cls) .atomic (.va f.ea) 8 = .error e → ∃ t, exec i s = .next t ∧ stopsAt s t e) ∧
    (f.ea.toNat % 8 = 0 → ∀ x u, locate s (ctlParty s f.cls) .atomic (.va f.ea) 8 = .ok x → u = drainFor s f.cls (spotOf s x) 8 →
      (∀ e, locate u (ctlParty s f.cls) .atomic (.va f.ea) 8 = .error e → ∃ t, exec i s = .next t ∧ stopsAt u t e) ∧
      (∀ dev ddr pa pol owner e, locate u (ctlParty s f.cls) .atomic (.va f.ea) 8 = .ok (.remote dev ddr pa pol, owner) →
        answerTo u (ctlParty s f.cls) (request u (ctlParty s f.cls) f.req dev ddr pa 8 pol) f.ea f.ea = .error e →
        ∃ t, exec i s = .next t ∧ stopsAt u t e)) ∧
    (f.ea.toNat % 8 ≠ 0 → exec i s = .next (raise s .misaligned f.ea))

/-- R308: an acquire fence only goes on, since loads perform when they execute; a release fence leaves a mark behind the pending stores of
its classes; a full fence performs them, with what stands before the last of them, one after another. No register changes. A store that
performs puts its bytes at its place, and no other byte changes; so it is where a hand-over performs all of them, where a store, an atomic or a
load performs those that must precede it (R307), where those into a job's scratchpad perform before its lines move, and where a turn performs one that
may go first. That stores stay pending, and in which order they may perform, is log entry 6 (DESIGN CHOICE). R125: WAITA ends with the word in
x[d] where the test holds of it or the limit has passed, and sleeps else; a wake and the timeout read the word again. The start clock is that of
the entry; a WAITA whose load restarts after a PTE_INVALID keeps it (R295). What must perform before its load has performed in the state z that
it reads (R307); no other byte of any store changes, and no register but x[d]. A WAITA at an
address that is not a multiple of 8, at a poisoned line or at a fault of its load traps with nothing written; one whose word is not there yet keeps
its wait. -/
def Obligations.FencesAndWaits : Prop :=
  (∀ (s : State) (m : BitVec 16) (p : Scope),
     exec (.fenceAcq m p) s = .next (wentTo s (s.job.pc + 4)) ∧
     ((∀ c sp a o d, .store c sp a o d ∈ s.job.stores → m.getLsbD c.val = false) →
       exec (.fenceRel m p) s = .next (wentTo s (s.job.pc + 4)) ∧ exec (.fenceFull m p) s = .next (wentTo s (s.job.pc + 4))) ∧
     ((∃ c sp a o d, .store c sp a o d ∈ s.job.stores ∧ m.getLsbD c.val = true) →
       exec (.fenceRel m p) s =
         .next (wentTo { s with job := { s.job with stores := s.job.stores ++ [.fence m] } } (s.job.pc + 4))) ∧
     ∃ t u covered, (∀ q, covered q = match q with | .store c _ _ _ _ => m.getLsbD c.val | .fence _ => false) ∧
       exec (.fenceFull m p) s = .next t ∧ t.job.pc = s.job.pc + 4 ∧ Job.sameRegs s.job t.job ∧ performedUpTo covered s u ∧
       t = wentTo u (s.job.pc + 4) ∧ ∀ c sp a o d, .store c sp a o d ∈ t.job.stores → m.getLsbD c.val = false) ∧
  (∀ (s : State) (q : Pending), q.stored s (performStore s q) ∧ Job.sameRegs s.job (performStore s q).job ∧
     (performStore s q).job.stores = s.job.stores) ∧
  (∀ (s : State) (c : Cls) (x : Option Spot) (n job : Nat),
     performedIn s.job.stores { s with job := { s.job with stores := [] } } (drain s) ∧
     performedUpTo (Pending.before c x n) s (drainFor s c x n) ∧
     (∀ l, performedUpTo (Pending.beforeLoad c (readSpots s (ctlParty s c) l n)) s (drainLoad s c l n)) ∧
     chainOf (fun j y z => ∃ done rest, splitsAt (Pending.into job) j.stores done rest ∧
       performedIn done (updJob y j.id fun k => { k with stores := rest }) z) (allJobs s) s (settleInto s job)) ∧
  (∀ (s : State) (k : Nat), s.job.id ≠ 0 →
     (∀ q, s.job.stores[k]? = some q → Pending.first s.job.stores k → act (.perform s.job.id k) s =
       .next (performStore { s with job := { s.job with stores := trimFences (s.job.stores.eraseIdx k) } } q)) ∧
     (¬Pending.first s.job.stores k → act (.perform s.job.id k) s = .next s)) ∧
  ∀ (s u z : State) (d a b : Reg) (c : Cls) (ne : Bool) (i : Instr) (ea limit : Word) (t0 : Nat),
     ((i = (if ne then .waitaNe d a b c else .waitaEq d a b c) ∧ u = entered s ∧ ea = getX s a ∧ limit = getX s d ∧
         t0 = match s.job.waitaFrom with | some n => n | none => s.clock) ∨
       (i = .waitaWake s.job.id ∧ u = s ∧ s.job.id ≠ 0 ∧ s.job.st = .running ∧ s.job.wait = .waita ea ne d b c t0 limit) ∨
       (i = .waitaTimeout s.job.id ∧ u = s ∧ s.job.id ≠ 0 ∧ s.job.st = .running ∧ s.job.wait = .waita ea ne d b c t0 limit ∧
         limit ≠ 0xFFFFFFFFFFFFFFFF ∧ limit.toNat ≤ s.clock - t0)) →
     z = drainLoad u c (.va ea) 8 →
     (ea.toNat % 8 = 0 → ∀ ch, readChunk z (ctlParty z c) .read (.va ea) 8 = .ok ch →
       (ch.bad = false → ∀ v, v = BitVec.ofNat 64 (leNat ch.data) →
         (((ne = true ↔ v ≠ getX s b) ∨ (limit ≠ 0xFFFFFFFFFFFFFFFF ∧ limit.toNat ≤ s.clock - t0)) →
           exec i s = .next (wroteX (repliesTaken z) d v)) ∧
         (¬(ne = true ↔ v ≠ getX s b) → (limit = 0xFFFFFFFFFFFFFFFF ∨ s.clock - t0 < limit.toNat) →
           exec i s = .next (repliesTaken { z with job := { z.job with wait := .waita ea ne d b c t0 limit } }))) ∧
       (ch.bad = true → exec i s = .next (ctlStop z (.trap .poison ea)))) ∧
     (ea.toNat % 8 = 0 → ∀ e, readChunk z (ctlParty z c) .read (.va ea) 8 = .error e →
       (∀ c' v, (e = .trap c' v ∨ ∃ acc, e = .denied acc c' v) →
         exec i s = .next (raise (keepWrites (reported z (.ctl s.job.id)) (.ctl s.job.id)) c' v)) ∧
       (∀ c' v r w, e = .fault c' v r → c' ≠ .pteInvalid → postFault z r = some w → exec i s = .next (raise w c' v)) ∧
       (∀ v r w, e = .fault .pteInvalid v r → postFault z r = some w → ∃ t, exec i s = .next t ∧ t.job.wait = .dvorol .pteInvalid v ∧
         t.job.waitaFrom = some t0 ∧ t.job.pc = s.job.pc ∧ Job.sameRegs s.job t.job) ∧
       ((e = .stall ∨ (∃ m, e = .mark m) ∨ ∃ c' v r, e = .fault c' v r ∧ postFault z r = none) →
         exec i s = .next { z with job := { z.job with wait := .waita ea ne d b c t0 limit } }) ∧
       (∀ q g, e = .send q g → ∃ t, t = sendReq z (ctlParty z 0) q ∧
         exec i s = .next { t with job := { t.job with wait := .waita ea ne d b c t0 limit } })) ∧
     (ea.toNat % 8 ≠ 0 → i = (if ne then .waitaNe d a b c else .waitaEq d a b c) → exec i s = .next (raise s .misaligned ea))

/-- R138, R140: SETS writes the control core's copy and sends the value down every engine queue, or waits for room; GETS reads the copy. R141,
R153: HSET replaces one field of the control core's record and sends the whole record down every engine queue, or waits for
room; HGET reads a field, strides with their sign. R153: HLD reads a 64-byte record at an address that is a multiple of 64, writes the
control core's copy and sends it down every engine queue, or waits for room with the record that it has read, and then hands over that
one. A poisoned line and another address trap with nothing sent. The record is read in the state u in which what must precede the load has
performed (R307). -/
def Obligations.Handles : Prop :=
  (∀ (s : State) (d a : Reg) (n : Fin 32) (v : BitVec 32), v = (getX s a).extractLsb' 0 32 →
     (s.job.queuesFree → exec (.sets n a) s =
       .next (wentTo { s with job := { s.job.allAppended (.set n v s.job.itag) with shapes := s.job.shapes.set n v } } (s.job.pc + 4))) ∧
     (¬s.job.queuesFree → exec (.sets n a) s = .next (waitsAt s (.qstall [.ld, .mx, .vx, .st]))) ∧
     exec (.gets d n) s = .next (wroteX s d (s.job.shapes[n].setWidth 64))) ∧
  (∀ (s : State) (d a : Reg) (n : Fin 16) (f : HField) (start len : Nat), (start, len) = HField.place f →
     (s.job.queuesFree → ∃ v : Layout,
       (∀ k, v.getLsbD k = if start ≤ k ∧ k < start + len then (getX s a).getLsbD (k - start) else s.job.handles[n].getLsbD k) ∧
       exec (.hset n a f) s =
         .next (wentTo { s with job := { s.job.allAppended (.hnd n v s.job.itag) with handles := s.job.handles.set n v } } (s.job.pc + 4))) ∧
     (¬s.job.queuesFree → exec (.hset n a f) s = .next (waitsAt s (.qstall [.ld, .mx, .vx, .st]))) ∧
     exec (.hget d n f) s = .next (wroteX s d
       (if f = .str0 ∨ f = .str1 ∨ f = .str2 ∨ f = .str3 then (s.job.handles[n].extractLsb' start 32).signExtend 64
        else (s.job.handles[n].extractLsb' start len).setWidth 64))) ∧
  (∀ (s u : State) (n : Fin 16) (a : Reg) (c : Cls) (o : BitVec 9) (ea : Word), ea = getX s a + o.signExtend 64 * 8 →
     u = drainLoad s c (.va ea) 64 →
     (ea.toNat % 64 = 0 → ∀ ch, readChunk u (ctlParty u c) .read (.va ea) 64 = .ok ch →
       (ch.bad = false → ∀ v : Layout, v = BitVec.ofNat 512 (leNat ch.data) →
         (u.job.queuesFree → exec (.hld n a c o) s =
           .next (wentTo (repliesTaken { u with
             job := { u.job.allAppended (.hnd n v u.job.itag) with handles := u.job.handles.set n v } }) (u.job.pc + 4))) ∧
         (¬u.job.queuesFree → exec (.hld n a c o) s = .next (waitsAt (repliesTaken u) (.handing n v)))) ∧
       (ch.bad = true → exec (.hld n a c o) s = .next (ctlStop u (.trap .poison ea)))) ∧
     (ea.toNat % 64 ≠ 0 → exec (.hld n a c o) s = .next (ctlStop s (.trap .misaligned ea))))

/-- R165 to R168: PUSH appends its segment with the ITAG to every queue of its mask after the earlier stores of the stream have performed,
waits for room, or traps with nothing appended; POPR removes the oldest entry of the result FIFO, or waits. R176: QCUT removes the SEG
entries of the groups above x that no engine has begun, where every token counter balances over them, and INV entries that have waited for a free
entry take those that there are (R163; log entry 66, DESIGN CHOICE); else it traps with the lowest counter that does not, and removes nothing. R177: LTRIM bounds the outermost active loop of each engine of its mask, or holds the bound, in
32 bits (R173), for the next one; that a bound of 2 ^ 32 or more is held as 2 ^ 32 - 1 is log entry 67 (DESIGN CHOICE). A trip whose stage 0 is decoded in the clock of the LTRIM counts as started. No other
engine changes, and nothing else of the device. frames lists the innermost loop first. R111: a wait names the queues that it waits for. -/
def Obligations.Queues : Prop :=
  (∀ (s : State) (m : EngMask) (d a : Reg) (v : Word) (named : Engine → Bool) (bad : Prop),
     v = getX s a → (∀ e, named e = match e with | .ld => m.ld | .mx => m.mx | .vx => m.vx | .st => m.st) →
     (bad ↔ ∃ e, named e = true ∧ (v.extractLsb' 24 8 ≠ 0 ∨ v.extractLsb' 0 2 ≠ 0 ∨
       ∀ x, sectionOf s s.job (streamKind e) = some x → x.bytes ≤ (v.extractLsb' 0 24).toNat)) →
     (bad → exec (.push m a) s = .next (raise s .queueMisuse v)) ∧
     (¬bad → (∃ e, named e = true ∧ 64 ≤ (s.job.eng e).queue.length) →
       exec (.push m a) s = .next (waitsAt s (.qstall ([Engine.ld, .mx, .vx, .st].filter named)))) ∧
     (¬bad → (∀ e, named e = true → (s.job.eng e).queue.length < 64) →
       ∃ t, exec (.push m a) s = .next t ∧ t.job.pc = s.job.pc + 4 ∧ Job.sameRegs s.job t.job ∧ sameBytes (drain s) t ∧
         ∀ e, t.job.eng e = if named e then { (drain s).job.eng e with queue := (s.job.eng e).queue ++ [.seg v s.job.itag] }
           else (drain s).job.eng e) ∧
     (∀ w r, s.job.fifo = w :: r → exec (.popr d) s = .next (wroteX { s with job := { s.job with fifo := r } } d w)) ∧
     (s.job.fifo = [] → exec (.popr d) s = .next (waitsAt s .dstall))) ∧
  (∀ (s : State) (a : Reg) (x : BitVec 32), x = (getX s a).extractLsb' 0 32 →
     ((∀ p ∈ s.job.cutCounts x, p.1 = p.2) →
       exec (.qcut a) s = .next (wentTo { s with job := { s.job with
         ld := s.job.ld.queued (s.job.ld.queue.filter fun q => !s.job.inCut x q)
         mx := s.job.mx.queued (s.job.mx.queue.filter fun q => !s.job.inCut x q)
         vx := s.job.vx.queued (s.job.vx.queue.filter fun q => !s.job.inCut x q)
         st' := s.job.st'.queued (s.job.st'.queue.filter fun q => !s.job.inCut x q) } } (s.job.pc + 4))) ∧
     (∀ q p, (s.job.cutCounts x)[q]? = some p → p.1 ≠ p.2 → (∀ k r, k < q → (s.job.cutCounts x)[k]? = some r → r.1 = r.2) →
       exec (.qcut a) s = .next (raise s .queueMisuse (BitVec.ofNat 64 q)))) ∧
  (∀ (s : State) (m : EngMask) (a : Reg),
     ∃ t, exec (.ltrim m a) s = .next (wentTo { s with job := t } (s.job.pc + 4)) ∧
       t = { s.job with ld := t.ld, mx := t.mx, vx := t.vx, st' := t.st' } ∧
       ∀ e, let y := s.job.eng e
         let named := match e with | .ld => m.ld | .mx => m.mx | .vx => m.vx | .st => m.st
         (named = false → t.eng e = y) ∧
         (named = true → y.frames = [] → t.eng e = { y with held := some (BitVec.ofNat 32 (min (getX s a).toNat (2 ^ 32 - 1))) }) ∧
         (named = true → ∀ inner f, y.frames = inner ++ [f] →
           ∃ g, t.eng e = { y with frames := inner ++ [g] } ∧
             g.nEff = min f.nEff (max ((getX s a).toNat + 1 - f.base) f.started) ∧ g = { f with n := g.n, nEff := g.nEff, cut := g.cut } ∧
             (f.cut = none → f.stage = 0 → f.j < f.nEff → (g.atClock s.clock).nEff = max g.nEff (f.j + 1)) ∧
             ∀ n, n ≠ s.clock → g.atClock n = g))

/-- R308, R125, R165, R168, R176, R177, R127, R128: where the fences FENCE.ACQ, FENCE.REL and FENCE.FULL, WAITA.EQ and WAITA.NE, PUSH, POPR,
QCUT, LTRIM, MBS and MBR complete, and a WAITA that sleeps, at a wake and at its timeout: the fences and LTRIM in every state, the others where the
word read holds or the limit has passed, the queues have room, the FIFO holds an entry, nothing queued is cut, the mailbox has room or a message. -/
def Obligations.ControlCompletes : Prop :=
  ∀ (s : State) (d a b : Reg) (c : Cls) (m : EngMask) (k : BitVec 16) (p : Scope),
    (∃ t, exec (.fenceAcq k p) s = .next t ∧ t.job.pc = s.job.pc + 4 ∧ Job.sameRegs s.job t.job) ∧
    (∃ t, exec (.fenceRel k p) s = .next t ∧ t.job.pc = s.job.pc + 4 ∧ Job.sameRegs s.job t.job) ∧
    (∃ t, exec (.fenceFull k p) s = .next t ∧ t.job.pc = s.job.pc + 4 ∧ Job.sameRegs s.job t.job) ∧
    (∀ u h v, (getX s a).toNat % 8 = 0 → u = drainLoad (entered s) c (.va (getX s a)) 8 →
      readChunk u (ctlParty u c) .read (.va (getX s a)) 8 = .ok h → h.bad = false → v = BitVec.ofNat 64 (leNat h.data) →
      (v = getX s b → exec (.waitaEq d a b c) s = .next (wroteX (repliesTaken u) d v)) ∧
      (v ≠ getX s b → exec (.waitaNe d a b c) s = .next (wroteX (repliesTaken u) d v))) ∧
    (∀ u ea ne t0 limit h v, s.job.id ≠ 0 → s.job.st = .running → s.job.wait = .waita ea ne d b c t0 limit → ea.toNat % 8 = 0 →
      u = drainLoad s c (.va ea) 8 → readChunk u (ctlParty u c) .read (.va ea) 8 = .ok h → h.bad = false → v = BitVec.ofNat 64 (leNat h.data) →
      ((ne = true ↔ v ≠ getX s b) → exec (.waitaWake s.job.id) s = .next (wroteX (repliesTaken u) d v)) ∧
      (limit ≠ 0xFFFFFFFFFFFFFFFF → limit.toNat ≤ s.clock - t0 → exec (.waitaTimeout s.job.id) s = .next (wroteX (repliesTaken u) d v))) ∧
    ((∀ e, maskHas m e = true → (s.job.eng e).queue.length < 64 ∧ ∃ x, sectionOf s s.job (streamKind e) = some x ∧ (getX s a).toNat < x.bytes) →
      (getX s a).toNat < 2 ^ 24 → (getX s a).toNat % 4 = 0 → ∃ t, exec (.push m a) s = .next t ∧ t.job.pc = s.job.pc + 4 ∧
        ∀ e, maskHas m e = true → (t.job.eng e).queue = (s.job.eng e).queue ++ [.seg (getX s a) s.job.itag]) ∧
    (∀ w r, s.job.fifo = w :: r → exec (.popr d) s = .next (wroteX { s with job := { s.job with fifo := r } } d w)) ∧
    ((∀ e, (s.job.eng e).queue = [] ∧ (s.job.eng e).late = []) → exec (.qcut a) s = .next (wentTo s (s.job.pc + 4))) ∧
    (∃ t, exec (.ltrim m a) s = .next t ∧ t.job.pc = s.job.pc + 4 ∧ Job.sameRegs s.job t.job) ∧
    (∀ q, partnerOf s = some q → q.id ≠ s.job.id → q.inbox.length < 16 → ∃ t, exec (.mbs a s.job.cc) s = .next t ∧
      t.job.pc = s.job.pc + 4 ∧ (findJob t q.id).map Job.inbox = some (q.inbox ++ [getX s a])) ∧
    (∀ q w r, partnerOf s = some q → s.job.inbox = w :: r →
      exec (.mbr d (!s.job.cc)) s = .next (wroteX { s with job := { s.job with inbox := r } } d w))

/-- R107, R130: CSRR reads a CSR that R108 assigns, and CSRW writes the ones that are RW and changes no other; a number that R108 does not
assign traps. R42: a FLAGS write keeps the flags that have come in the same clock. R108, R131, R132: what the CSRs of a job read, CYCLE and NOP:
R81 the level CSRs and ALTWIN, R321 TSTREAM, R127 MBSTAT's partner. -/
def Obligations.Csrs : Prop :=
  (∀ (s : State) (d a : Reg) (c : BitVec 12) (v : Word), v = getX s a →
     (∀ w, readCsr s c.toNat = some w → exec (.csrr d c) s = .next (wroteX s d w) ∧
       ∃ j, exec (.csrw a c) s = .next (wentTo { s with job := j } (s.job.pc + 4)) ∧
         j = if c = 0x001 then { s.job with flags := v.extractLsb' 0 7 ||| s.job.clockFlags }
           else if c = 0x002 then { s.job with fmask := v.extractLsb' 0 7 }
           else if c = 0x010 then { s.job with dstall := v }
           else if c = 0x011 then { s.job with qstall := v }
           else if c = 0x020 then { s.job with itag := v.extractLsb' 0 32 }
           else if c = 0x060 then { s.job with tvec := v }
           else if c = 0x063 then { s.job with tpc := v }
           else s.job) ∧
     (readCsr s c.toNat = none ↔ ¬(c ∈ [0x001, 0x002, 0x010, 0x011, 0x020] ∨ (0x030 ≤ c ∧ c ≤ 0x048) ∨ (0x050 ≤ c ∧ c ≤ 0x053) ∨
       (0x060 ≤ c ∧ c ≤ 0x065) ∨ (0x070 ≤ c ∧ c ≤ 0x073))) ∧
     (readCsr s c.toNat = none → (∃ w, exec (.csrr d c) s = .next (raise s .illegalInstr w)) ∧
       ∃ w, exec (.csrw a c) s = .next (raise s .illegalInstr w))) ∧
  (∀ (s : State) (d : Reg),
     readCsr s 0x001 = some (s.job.flags.setWidth 64) ∧ readCsr s 0x002 = some (s.job.fmask.setWidth 64) ∧
     readCsr s 0x010 = some s.job.dstall ∧ readCsr s 0x011 = some s.job.qstall ∧ readCsr s 0x020 = some (s.job.itag.setWidth 64) ∧
     (s.job.core < 288 → readCsr s 0x050 = some (BitVec.ofNat 64 (s.job.core + (if s.job.cc then 512 else 0) + s.job.core / 72 * 1024))) ∧
     readCsr s 0x051 = some (BitVec.ofNat 64 (s.col.val + 16 * s.row.val + 256 * s.cols.val + 4096 * s.rows.val)) ∧
     readCsr s 0x052 = some (s.job.asid.setWidth 64) ∧
     readCsr s 0x060 = some s.job.tvec ∧ readCsr s 0x061 = some (s.job.tcause.setWidth 64) ∧ readCsr s 0x062 = some s.job.tval ∧
     readCsr s 0x063 = some s.job.tpc ∧ readCsr s 0x065 = some s.job.tprog ∧
     readCsr s 0x064 = some ((if s.job.hnd then 1#1 else 0) ++ 0#31 ++ (if s.job.tpend then 1#1 else 0) ++ 0#7 ++ s.job.torig ++ 0#7 ++
       (if s.job.tsib then 1#1 else 0) ++ s.job.tstream) ∧
     (∀ k : Fin 8,
       readCsr s (0x030 + k.val) = some (if h : k.val < s.job.levels.length then s.job.levels[k.val].idx.setWidth 64 else 0) ∧
       readCsr s (0x038 + k.val) = some (if h : k.val < s.job.levels.length then s.job.levels[k.val].count.setWidth 64 else 1) ∧
       readCsr s (0x040 + k.val) = some (if h : k.val < s.job.levels.length then
         match s.job.levels[k.val].bar with | some o => 0x8000 ||| o.code.setWidth 64 | none => 0 else 0)) ∧
     (s.job.altArray = false → readCsr s 0x048 = some 0) ∧
     (s.job.altArray = true → readCsr s 0x048 = some (if s.clock / 256 % 2 = 0 then 1 else 3)) ∧
     ((∀ p, partnerOf s = some p → p.inbox.length ≤ 16) → s.job.inbox.length ≤ 16 → readCsr s 0x053 = some (BitVec.ofNat 64
       (s.job.inbox.length + match partnerOf s with | some p => 256 * p.inbox.length + 65536 | none => 0))) ∧
     readCsr s 0x070 = some (s.job.spbase.setWidth 64) ∧ readCsr s 0x071 = some (s.job.splim.setWidth 64) ∧
     readCsr s 0x072 = some (s.job.spbump.setWidth 64) ∧ readCsr s 0x073 = some (s.job.sphead.setWidth 64) ∧
     exec (.cycle d) s = .next (wroteX s d (BitVec.ofNat 64 s.clock)) ∧
     exec .nop s = .next (wentTo s (s.job.pc + 4)))

/-- R126 to R129: MBS appends to the partner's incoming mailbox after the earlier stores have performed, MBR removes the oldest message of
its own; a full or an empty one is waited for; the other mailbox, or no partner, traps. -/
def Obligations.Mailboxes : Prop :=
  ∀ (s : State) (d a : Reg) (m : Bool),
    (m ≠ s.job.cc ∨ partnerOf s = none → exec (.mbs a m) s = .next (raise s .mailboxMisuse (if m then 1 else 0))) ∧
    (m = s.job.cc ∨ partnerOf s = none → exec (.mbr d m) s = .next (raise s .mailboxMisuse (if m then 1 else 0))) ∧
    (∀ p, partnerOf s = some p → p.id ≠ s.job.id →
      (m = s.job.cc → p.inbox.length < 16 → ∃ t, exec (.mbs a m) s = .next t ∧ t.job.pc = s.job.pc + 4 ∧ Job.sameRegs s.job t.job ∧
        sameBytes (drain s) t ∧ (findJob t p.id).map Job.inbox = some (p.inbox ++ [getX s a])) ∧
      (m = s.job.cc → 16 ≤ p.inbox.length → exec (.mbs a m) s = .next (waitsAt s .mailbox)) ∧
      (m ≠ s.job.cc → ∀ v r, s.job.inbox = v :: r → exec (.mbr d m) s = .next (wroteX { s with job := { s.job with inbox := r } } d v)) ∧
      (m ≠ s.job.cc → s.job.inbox = [] → exec (.mbr d m) s = .next (waitsAt s .mailbox)))

/-- Each instruction reads a barrier as the clock began, and its event joins those that the clock has brought already; the clock takes all
of them together (R249; log entry 12). R252: BARI makes a barrier active with its count, keeps PHASE where it was active, and traps on a
count above 65535 or within a phase. R249, R253: BARV arrives at an active barrier with its count and goes on, after the earlier stores have
performed; a count of 0, above 65535 or above ARRIVE, an idle barrier and one outside the allotment trap. R249, R254: BARX adds a signed
expectation to an active barrier; a value that is no signed 32-bit number and an idle barrier trap. R255: BARW ends at once where PHASE
differs from its parity, and waits else; a wait ends in the clock after the phase completes, in a control stream and at a BWT of an engine
stream, also where the phase has flipped again by then (log entry 52). A clock in which no event comes completes a phase that an expectation
alone has brought to zero. -/
def Obligations.Barriers : Prop :=
  (∀ (s : State) (a : Reg) (o : BarOp) (b : BarId) (x : Barrier), s.job.barAt o = some b → x = barOf s b →
     ((getX s a).toNat < 65536 → (x.active = true → x.arrive = x.init ∧ x.bytes = 0 ∧ x.touched = false) →
       ∃ t, exec (.bari a o) s = .next t ∧ otherBars s t b ∧
         barOf t b = { x with active := true, phase := if x.active then x.phase else false, init := (getX s a).setWidth 16,
                              arrive := (getX s a).setWidth 16, bytes := 0, touched := false, was := none } ∧
         t = wentTo (barMoved s t b) (s.job.pc + 4)) ∧
     (65536 ≤ (getX s a).toNat ∨ (x.active = true ∧ ¬(x.arrive = x.init ∧ x.bytes = 0 ∧ x.touched = false)) →
       exec (.bari a o) s = .next (raise s .barrierMisuse (o.code.setWidth 64)))) ∧
  (∀ (i : Instr) (s : State) (a : Reg) (o : BarOp) (c : Nat),
     ((i = .barv a o ∧ c = (getX s a).toNat) ∨ (i = .barvBare o ∧ c = 1)) →
     (∀ b, s.job.barAt o = some b → barTakes s b → 1 ≤ c → c ≤ 65535 → c ≤ (barOf s b).start.arrive.toNat →
       ∃ t, exec i s = .next t ∧ t.job.pc = s.job.pc + 4 ∧ Job.sameRegs s.job t.job ∧ otherBars s t b ∧
         barOf t b = (barOf s b).arrived c ∧ sameBytes (drain s) t) ∧
     (s.job.barAt o = none → exec i s = .next (raise s .barrierMisuse (o.code.setWidth 64))) ∧
     (∀ b, s.job.barAt o = some b → (barOf s b).active = false ∨ c = 0 ∨ 65535 < c ∨ (barOf s b).start.arrive.toNat < c →
       exec i s = .next (raise s .barrierMisuse (o.code.setWidth 64)))) ∧
  (∀ (s : State) (a : Reg) (o : BarOp) (b : BarId), s.job.barAt o = some b →
     (barTakes s b → -2 ^ 31 ≤ (getX s a).toInt → (getX s a).toInt < 2 ^ 31 →
       ∃ t, exec (.barx a o) s = .next t ∧ otherBars s t b ∧
         barOf t b = (barOf s b).afterClock ((barOf s b).eventsWith (.expect (getX s a).toInt)) ∧
         t = wentTo { s with barriers := t.barriers } (s.job.pc + 4)) ∧
     ((barOf s b).active = false ∨ (getX s a).toInt < -2 ^ 31 ∨ 2 ^ 31 ≤ (getX s a).toInt →
       exec (.barx a o) s = .next (raise s .barrierMisuse (o.code.setWidth 64)))) ∧
  (∀ (s : State) (p : Bool) (o : BarOp) (b : BarId) (e : Engine),
     (s.job.barAt o = some b → (barOf s b).active = true →
       exec (.barw p o) s = .next (if (barOf s b).start.phase = p then waitsAt s (.barrier b p) else wentTo s (s.job.pc + 4))) ∧
     (s.job.barAt o = some b → (barOf s b).active = false →
       exec (.barw p o) s = .next (raise s .barrierMisuse (o.code.setWidth 64))) ∧
     (s.job.id ≠ 0 → s.job.st = .running → (s.job.wait = .barrier b p ∧ (barOf s b).start.phase ≠ p) ∨ s.job.wait = .passed →
       exec (.barrierWaitResume s.job.id .ctl) s = .next (wentTo s (s.job.pc + 4))) ∧
     (s.job.id ≠ 0 → s.job.resident = true → ((s.job.eng e).wait = .barrier b p ∧ (barOf s b).start.phase ≠ p) ∨ (s.job.eng e).wait = .passed →
       ∃ j, exec (.barrierWaitResume s.job.id (.eng e)) s = .next { s with job := j } ∧
         j.eng e = { s.job.eng e with wait := .ready, pc := (s.job.eng e).pc + 4 } ∧ ∀ f, f ≠ e → j.eng f = s.job.eng f) ∧
     ((barOf s b).active = true → (barOf s b).was = none → suspendedOwner s b = none →
       ∃ t, exec (.barrierClock b) s = .next t ∧ otherBars s t b ∧ t = { s with barriers := t.barriers } ∧
         barOf t b = (barOf s b).afterClock []) ∧
     (otherBars s (closeBar s b) b ∧ closeBar s b = barMoved s (closeBar s b) b ∧ barOf (closeBar s b) b = { barOf s b with was := none }) ∧
     (s.bootStep = 7 → ∀ x, s.barriers = [(b, x)] → x.active = true → suspendedOwner s b = none → ∃ t, exec (.altWindowChange s.job.core) s = .next t ∧
       ((∃ j ∈ jobsOn s s.job.core, j.altArray = true) → s.clock % 256 = 255 → (barOf t b).was = none ∧
         (x.was ≠ none → (barOf t b).counts = x.counts) ∧ (x.was = none → (barOf t b).counts = (x.afterClock []).counts))))

/-- R234 to R238: SPA, SPRST, SPRA and SPF. An allocation that does not fit waits where freed allocations make room, and else traps with
nothing changed. R237, R238: an allocation leaves the ring, oldest first, once it is freed and every engine has passed its marker and no
pending store goes to its bytes; the pending frees drop it, and an empty ring starts again at SPLIM. -/
def Obligations.Spool : Prop :=
  (∀ (s : State) (d a : Reg) (v : Word) (z top : Nat) (live : List Ring), v = getX s a → z = (v.toNat + 63) / 64 * 64 →
     top = s.job.spbump.toNat + z → live = s.job.rings.dropWhile Ring.freed →
     (v.toNat ≤ 0x800000 → top ≤ s.job.rlow s.job.rings → exec (.spa d a) s =
       .next (wroteX { s with job := { s.job with spbump := BitVec.ofNat 24 top } } d (s.job.spbump.setWidth 64))) ∧
     (v.toNat ≤ 0x800000 → s.job.rlow s.job.rings < top → top ≤ s.job.rlow live → exec (.spa d a) s = .next (waitsAt s .blocked)) ∧
     (0x800000 < v.toNat ∨ (s.job.rlow s.job.rings < top ∧ s.job.rlow live < top) →
       exec (.spa d a) s = .next (raise s .spoolExhausted v)) ∧
     (v.toNat % 64 = 0 → s.job.spbase.toNat ≤ v.toNat → v.toNat ≤ s.job.spbump.toNat →
       exec (.sprst a) s = .next (wentTo { s with job := { s.job with spbump := v.setWidth 24 } } (s.job.pc + 4))) ∧
     (v.toNat % 64 ≠ 0 ∨ v.toNat < s.job.spbase.toNat ∨ s.job.spbump.toNat < v.toNat →
       exec (.sprst a) s = .next (raise s .spadBounds v)) ∧
     (0x800000 < v.toNat → exec (.spra d a) s = .next (raise s .spoolExhausted v)) ∧
     (z = 0 → exec (.spra d a) s = .next (wroteX s d (s.job.sphead.setWidth 64))) ∧
     (v.toNat ≤ 0x800000 → 0 < z →
       (∀ lo, s.job.ringPlace s.job.rings z = some lo → exec (.spra d a) s =
         .next (wroteX { s with job := { s.job with
           rings := s.job.rings ++ [{ lo, hi := lo + z, freed := false, ld := false, mx := false, vx := false, st := false }]
           sphead := BitVec.ofNat 24 lo } } d (BitVec.ofNat 64 lo))) ∧
       (s.job.ringPlace s.job.rings z = none → s.job.ringPlace live z ≠ none → exec (.spra d a) s = .next (waitsAt s .blocked)) ∧
       (s.job.ringPlace s.job.rings z = none → s.job.ringPlace live z = none → exec (.spra d a) s = .next (raise s .spoolExhausted v))) ∧
     ((∀ r ∈ s.job.rings, r.lo = v.toNat → r.freed = true) → exec (.spf a) s = .next (raise s .spadBounds v)) ∧
     (∀ r before after, s.job.rings = before ++ r :: after → r.lo = v.toNat → r.freed = false → (∀ q ∈ before, q.lo ≠ v.toNat ∨ q.freed = true) →
       (∀ q ∈ after, q ≠ r) →
       (before ≠ [] → 32 ≤ s.job.pend.length → exec (.spf a) s = .next (raise s .spoolExhausted v)) ∧
       ((before = [] ∨ s.job.pend.length < 32) → ¬s.job.queuesFree → exec (.spf a) s = .next (waitsAt s (.qstall [.ld, .mx, .vx, .st]))) ∧
       ((before = [] ∨ s.job.pend.length < 32) → s.job.queuesFree → exec (.spf a) s = .next (wentTo { s with job := { s.job.allAppended (.spf v.toNat s.job.itag) with
         rings := before ++ { r with freed := true } :: after
         pend := if before = [] then s.job.pend else s.job.pend ++ [v.toNat] } } (s.job.pc + 4))))) ∧
  (∀ (s : State) (before after : List Ring), s.job.id ≠ 0 → s.job.rings = before ++ after → (∀ r ∈ before, s.job.releasable r = true) →
     (∀ r l, after = r :: l → s.job.releasable r = false) →
     exec (.spoolRelease s.job.id) s = .next { s with job := { s.job with
       rings := after
       pend := s.job.pend.filter fun v => before.all fun r => r.lo != v
       sphead := if after = [] ∧ before ≠ [] then s.job.splim else s.job.sphead } })

/-- R240, R242: SPECB activates a pair, SPECC makes the dirty copies current, SPECA drops them, each with every line at one moment, behind the
stores that are pending for the job's scratchpad (u; log entry 6), SPECB also behind what must precede the load of its record (w; R307); each traps where the pair's activity does not fit. -/
def Obligations.Basting : Prop :=
  ∀ (s u w : State) (p : Fin 4) (q : Pair), q = s.job.pairs[p] → u = settleInto s s.job.id →
    w = drainLoad u 0 (.off (s.job.spbase.toNat + 16 * p.val) s.job.id) 16 →
    (q.active = true → exec (.specb p) s = .next (raise s .bastingMisuse (BitVec.ofNat 64 p.val))) ∧
    (q.active = false → exec (.specc p) s = .next (raise s .bastingMisuse (BitVec.ofNat 64 p.val)) ∧
      exec (.speca p) s = .next (raise s .bastingMisuse (BitVec.ofNat 64 p.val))) ∧
    (q.active = false → ∀ b r, readExact w (ctlParty w 0) .read (.off (s.job.spbase.toNat + 16 * p.val) w.job.id) 16 = .ok b →
      r = pairRec b →
      (q.bound = true → r.base = q.base → r.shadow = q.shadow → r.bytes = q.bytes → r.rest = 0 → exec (.specb p) s =
        .next (wentTo { w with job := { w.job with pairs := w.job.pairs.set p { q with active := true } } } (w.job.pc + 4))) ∧
      (q.bound = true → ¬(r.base = q.base ∧ r.shadow = q.shadow ∧ r.bytes = q.bytes ∧ r.rest = 0) →
        exec (.specb p) s = .next (raise w .bastingMisuse (BitVec.ofNat 64 p.val))) ∧
      (q.bound = false → w.job.mayBind p r = false → exec (.specb p) s = .next (raise w .bastingMisuse (BitVec.ofNat 64 p.val))) ∧
      (q.bound = false → w.job.mayBind p r = true → ∀ n : Pair,
        n = { bound := true, base := r.base, shadow := r.shadow, bytes := r.bytes, active := true, cur := [], dirty := [] } →
        exec (.specb p) s = .next (wentTo { w with job := { w.job with pairs := w.job.pairs.set p n } } (w.job.pc + 4)))) ∧
    (q.active = true → ∀ y : Pair, y = u.job.pairs[p] →
      (∃ t c, exec (.specc p) s = .next t ∧ t.job = { u.job with
          pairs := u.job.pairs.set p { y with cur := c, dirty := [], active := false }, pc := u.job.pc + 4, wait := .ready } ∧
        (∀ line, sget c line = if sget y.dirty line = 1 then 1 - sget y.cur line else sget y.cur line) ∧
        t = { u with job := t.job, zeroMap := t.zeroMap }) ∧
      ∃ t, exec (.speca p) s = .next t ∧ t.job = { u.job with
          pairs := u.job.pairs.set p { y with dirty := [], active := false }, pc := u.job.pc + 4, wait := .ready } ∧
        t = { u with job := t.job, zeroMap := t.zeroMap })

/-- R256 to R258: TUBSET reads a 32-byte record and sets its tub, not armed, at count 0; TUBARM.on arms a set tub at count 0, TUBARM.off
disarms it; the record is read in the state u in which what must precede its load has performed (R307). An armed tub, a broken record, a tub that is not set and one beyond the allotment trap. R259, R260: a write of n bytes in its
region adds n to the count of an armed tub, saturating; a tub fires when its count reaches TOTAL, once without REARM, and with REARM as
often as TOTAL fits, the rest being kept. A tub that is not armed does not change. So it is for the bytes that a store of a control stream shares
with the region of a memory tub or of a scratchpad tub, whether it performs as it executes or later, and for those of a store of another device;
a store whose bytes all lie in a region of one range adds all of them. R260: the firing of a tub performs its action: an arrival, a flag write, an
enqueue, or nothing, and the firing is done. -/
def Obligations.Tubs : Prop :=
  (∀ (s u : State) (a : Reg) (o : TubOp) (t : TubId) (ea : Word), tubAt s o = some t → ea = getX s a → u = drainLoad s 0 (.va ea) 32 →
     (ea.toNat % 32 = 0 → (tubOf s t).armed = false → ∀ b r act region, ctlRecord u ea 32 = .ok b →
       decodeTub o.mem (BitVec.ofNat 256 (leNat b)) = some r → tubAction (repliesTaken u) o r = .ok act → tubRegion u t r = .ok (some region) →
       exec (.tubset a o) s = .next (wentTo (putTub (repliesTaken u) t { tubOf u t with
         set := true, armed := false, count := 0, total := r.total, rearm := r.rearm, scope := r.scope, act, region
         asid := u.job.asid, record := BitVec.ofNat 256 (leNat b) }) (u.job.pc + 4))) ∧
     (ea.toNat % 32 = 0 → (tubOf s t).armed = true → exec (.tubset a o) s = .next (raise s .tubMisuse (o.code.setWidth 64))) ∧
     (ea.toNat % 32 = 0 → (tubOf s t).armed = false → ∀ b, ctlRecord u ea 32 = .ok b → decodeTub o.mem (BitVec.ofNat 256 (leNat b)) = none →
       exec (.tubset a o) s = .next (raise (repliesTaken u) .tubMisuse (o.code.setWidth 64))) ∧
     (ea.toNat % 32 ≠ 0 → exec (.tubset a o) s = .next (raise s .misaligned ea)) ∧
     ((tubOf s t).set = true →
       exec (.tubarmOn o) s = .next (wentTo (putTub s t { tubOf s t with armed := true, count := 0 }) (s.job.pc + 4)) ∧
       exec (.tubarmOff o) s = .next (wentTo (putTub s t { tubOf s t with armed := false }) (s.job.pc + 4))) ∧
     ((tubOf s t).set = false → exec (.tubarmOn o) s = .next (raise s .tubMisuse (o.code.setWidth 64)) ∧
       exec (.tubarmOff o) s = .next (raise s .tubMisuse (o.code.setWidth 64)))) ∧
  (∀ (s : State) (a : Reg) (o : TubOp) (i : Instr), tubAt s o = none → (i = .tubset a o ∨ i = .tubarmOn o ∨ i = .tubarmOff o) →
     exec i s = .next (raise s .tubMisuse (o.code.setWidth 64))) ∧
  (∀ (t : Tub) (n : Nat), 0 < t.total →
     (t.armed = false → t.add n = t) ∧
     (t.armed = true → t.rearm = false →
       t.add n = { t with count := min (t.count + n) (2 ^ 40 - 1)
                          fires := if t.count < t.total ∧ t.total ≤ min (t.count + n) (2 ^ 40 - 1) then t.fires ++ [t.act] else t.fires }) ∧
     (t.armed = true → t.rearm = true →
       ∃ k, (t.add n).fires = t.fires ++ List.replicate k t.act ∧ (t.add n).count + k * t.total = min (t.count + n) (2 ^ 40 - 1) ∧
         (t.add n).count < t.total ∧ t.add n = { t with count := (t.add n).count, fires := (t.add n).fires })) ∧
  (∀ (t : Tub) (a n : Nat), t.hits a n = (t.region.map fun r => min (r.1 + r.2) (a + n) - max r.1 a).sum ∧
     ∀ lo len, t.region = [(lo, len)] → lo ≤ a → a + n ≤ lo + len → t.hits a n = n) ∧
  (∀ (s : State) (c : Cls) (sp : Space) (a die k j o : Nat) (b : List Byte),
     tubOf (performStore s (.store c .hbm a none b)) (.mem die k) = (tubOf s (.mem die k)).add ((tubOf s (.mem die k)).hits a b.length) ∧
     ∀ y, findJob s j = some y → y.logging = false →
       tubOf (performStore s (.store c sp a (some (j, o)) b)) (.spad j k) = (tubOf s (.spad j k)).add ((tubOf s (.spad j k)).hits o b.length)) ∧
  (∀ (s u t : State) (d a : Reg) (c : Cls) (z : Size) (o : BitVec 9) (ea : Word) (x : Place × Option (Nat × Nat)),
     ea = getX s a + o.signExtend 64 * BitVec.ofNat 64 z.bytes → ea.toNat % z.bytes = 0 → s.delay = false →
     locate s (ctlParty s c) .write (.va ea) z.bytes = .ok x → u = drainFor s c (spotOf s x) z.bytes →
     exec (.st d a c z o) s = .next t →
     (∀ pa pol, locate u (ctlParty u c) .write (.va ea) z.bytes = .ok (.here .hbm pa pol, none) → ∀ die k,
       tubOf t (.mem die k) = (tubOf u (.mem die k)).add ((tubOf u (.mem die k)).hits pa z.bytes)) ∧
     ∀ sp pa pol j q y, locate u (ctlParty u c) .write (.va ea) z.bytes = .ok (.here sp pa pol, some (j, q)) → findJob u j = some y →
       y.logging = false → ∀ k, tubOf t (.spad j k) = (tubOf u (.spad j k)).add ((tubOf u (.spad j k)).hits q z.bytes)) ∧
  (∀ (s t : State) (q : Request) (b : List Byte) (bad : Bool) (die k : Nat), q.op = .store b bad → q.ddr = false → freshRequest s q →
     admitted s q = true → (∀ w ∈ s.works, w.moves q = false) → guarded s (sender s q) (Request.span q) = false →
     (∀ h ∈ s.heldReqs, ¬(h.src = q.src ∧ h.party = q.party ∧ h.cls = q.cls)) → q.pa + q.size ≤ Config.hbmBytes →
     exec (.remoteStore q) s = .next t →
     tubOf t (.mem die k) = (tubOf s (.mem die k)).add ((tubOf s (.mem die k)).hits q.pa b.length)) ∧
  (∀ (s : State) (t : TubId) (r : List TubAct) (x : Tub), x = tubOf s t → x.halted = false →
     hubWaiting s (hubParty x.asid (.tub t)) = false →
     (x.fires = .none :: r → exec (.tubFire t) s = .next (tubPop s t false)) ∧
     (∀ b c u, x.fires = .arrive b c :: r → barEvent s b (.arrive c) = some u → exec (.tubFire t) s = .next (tubPop u t false)) ∧
     (∀ a v u, x.fires = .flag a v :: r → writeBytes s (hubParty x.asid (.tub t)) (.va a) (leBytes 8 v.toNat) = .ok u →
       exec (.tubFire t) s = .next (tubPop (takeReplies u (.tub t)) t false)) ∧
     (∀ a q u, x.fires = .launch a q :: r → x.waitq = false → enqueueFor s x.asid a q (.tub t) (.tub t) (tubStop t) = .done u →
       exec (.tubFire t) s = .next (tubPop u t (enqueueWaits u t q))))

/-- R267, R278, R279: CHAIN starts a chain at its record, CPYX a transfer, each on a channel that is free, after the earlier stores have
performed. R278: CWAIT waits while a record or transfer of its channel runs whose range holds its address and whose watermark has not passed it;
it goes on where none does. That a range in a scratchpad takes an offset or an aperture address is the reading of log entry 56 (DEDUCED). -/
def Obligations.ChannelInstructions : Prop :=
  ∀ (s : State) (d a b : Reg) (k : Cls) (n : Fin 8) (core : Nat) (len : Word), len = getX s d →
    ((getX s a).toNat % 128 = 0 → freeChan s n.val = some core →
      exec (.chain a n) s = .next (wentTo (putChan (drain s) (newChan s core n.val .fetch (getX s a))) (s.job.pc + 4))) ∧
    ((getX s a).toNat % 128 ≠ 0 → exec (.chain a n) s = .next (raise s .misaligned (getX s a))) ∧
    ((getX s a).toNat % 128 = 0 → freeChan s n.val = none → exec (.chain a n) s = .next (waitsAt s .blocked)) ∧
    (len ≠ 0 → len.toNat < 2 ^ 32 → freeChan s n.val = some core → ∀ lo, lo = (if inAperture (getX s b) then getX s b &&& 0xFFFFFF else getX s b) →
      exec (.cpyx d a b k n) s = .next (wentTo (setWmark (putChan (drain s) { newChan s core n.val .walking 0 with
        cpyx := some { src := getX s a, dst := getX s b, len := len.toNat, cls := k, done := 0 }
        wmEnd := lo + len, wmSpad := inAperture (getX s b), wmRun := true
        wmJob := if inAperture (getX s b) then rangeOwner (drain s) s.job.id lo.toNat else s.job.id }) core n.val lo) (s.job.pc + 4))) ∧
    (len ≠ 0 → len.toNat < 2 ^ 32 → freeChan s n.val = none → exec (.cpyx d a b k n) s = .next (waitsAt s .blocked)) ∧
    (len = 0 → exec (.cpyx d a b k n) s = .next (wentTo s (s.job.pc + 4))) ∧
    (2 ^ 32 ≤ len.toNat → exec (.cpyx d a b k n) s = .next (raise s .queueMisuse len)) ∧
    (∀ c o mark, s.chans.find? (fun c => c.job == s.job.id && c.n == n.val) = some c →
      o = (if c.wmSpad = true ∧ inAperture (getX s a) = true then (getX s a).toNat % 2 ^ 24 else (getX s a).toNat) →
      mark = (sget s.wmarks (8 * c.core + c.n)).toNat →
      (c.wmRun = true → mark ≤ o → o < c.wmEnd.toNat → exec (.cwait a n) s = .next (waitsAt s .blocked)) ∧
      (c.wmRun = false ∨ o < mark ∨ c.wmEnd.toNat ≤ o → exec (.cwait a n) s = .next (wentTo s (s.job.pc + 4)))) ∧
    ((∀ c ∈ s.chans, ¬(c.job = s.job.id ∧ c.n = n.val)) → exec (.cwait a n) s = .next (wentTo s (s.job.pc + 4)))

/-- R264, R265, R276: a channel reads its next record: it parks where OWN is 0, takes the record up with its progress where it fits, and
stops where it does not, with the record's address as TVAL: at QUEUE_MISUSE where the record breaks its table or names a barrier beyond the
job's allotment, and at WATERMARK_WALK where it keeps a watermark that R276 does not allow. R274, R275, R279: a record completes: the decrement
of its barrier, the writes that it owes, and the next record of its chain, or the end of the chain; a transfer completes and leaves its channel
idle. -/
def Obligations.Records : Prop :=
  (∀ (s u : State) (core : Nat) (n : Fin 8) (c d : Chan) (b : List Byte) (raw : BitVec 1024) (pin : Option Pin),
     u = putChan { s with curCore := core, curChan := n.val } { c with marker := none } →
     c.acts { s with curCore := core, curChan := n.val } → c.st = .fetch →
     readExact u (chanParty u c 0) .read (.va c.addr) 128 = .ok b → raw = BitVec.ofNat 1024 (leNat b) →
     pinAt u (chanParty u c 0) c.addr = .ok pin →
     d = { c with marker := none, pin, prog := (raw.extractLsb' 960 48).toNat } →
     (raw.getLsbD 0 = false → chanStale u d = false →
       exec (.channelRecordFetch core n) s = .next (putChan (takeReplies u (.chan c.core c.n)) { d with st := .parked })) ∧
     (raw.getLsbD 0 = true → ∀ i r bar, decodeRecord raw = some i → recHead i = some r →
       recBar (takeReplies u (.chan c.core c.n)) d r = some bar → watermarkBad i = false →
       exec (.channelRecordFetch core n) s = .next (takeUp (takeReplies u (.chan c.core c.n)) d raw i r bar)) ∧
     (raw.getLsbD 0 = true → decodeRecord raw = none → exec (.channelRecordFetch core n) s =
       .next (stopChan (takeReplies u (.chan c.core c.n)) d false (.trap .queueMisuse c.addr))) ∧
     (raw.getLsbD 0 = true → ∀ i r, decodeRecord raw = some i → recHead i = some r → recBar (takeReplies u (.chan c.core c.n)) d r = none →
       exec (.channelRecordFetch core n) s = .next (stopChan (takeReplies u (.chan c.core c.n)) d false (.trap .queueMisuse c.addr))) ∧
     (raw.getLsbD 0 = true → ∀ i r bar, decodeRecord raw = some i → recHead i = some r →
       recBar (takeReplies u (.chan c.core c.n)) d r = some bar → watermarkBad i = true →
       exec (.channelRecordFetch core n) s = .next (stopChan (takeReplies u (.chan c.core c.n)) d false (.trap .watermarkWalk c.addr)))) ∧
  (∀ (s : State) (core : Nat) (n : Fin 8) (c : Chan), chanOf s core n.val = some c → c.halt = .going → c.wait = false → c.st = .finishing →
     (∀ u d, c.bar = none → payChan s { c with bar := none } = (u, d) → d.owed = [] →
       exec (.recordCompletion core n) s = .next (nextRecord u d)) ∧
     (∀ b i v u d, c.bar = some b → decodeRecord c.raw = some i → barEvent s b (.bytes (nominal c i)) = some v →
       payChan (barPaid v b) { c with bar := none } = (u, d) → d.owed = [] →
       exec (.recordCompletion core n) s = .next (nextRecord u d)) ∧
     (c.bar = none → c.owed = [] → exec (.recordCompletion core n) s = .next (
       if c.raw.extractLsb' 64 64 = (0 : BitVec 64) then dropChan s c.core c.n
       else putChan s { c with
         st := if (match findJob s c.job with | some j => j.retiring | none => decide (c.graph = none)) = true then .parked else .fetch
         addr := c.raw.extractLsb' 64 64, prog := 0, npoi := 0, sub := 0, pin := none })) ∧
     (∀ b i, c.bar = some b → c.owed = [] → decodeRecord c.raw = some i → suspendedOwner s b = none →
       ∃ v, barEvent s b (.bytes (nominal c i)) = some v ∧ exec (.recordCompletion core n) s = .next (nextRecord (barPaid v b) { c with bar := none })) ∧
     (c.cpyx ≠ none → exec (.cpyxTransferComplete core n) s = .next (dropChan s core n.val)))

/-- R268 to R273: one unit of each record. AFF copies an element, RED combines a chunk, MCST sends a piece to the destination that is
left, and nothing where its list, which is read whole first, cannot be read (R400) or breaks R270, SIG stores a doubleword, PGT copies a patch, its pixels row by row with zeros beyond the image and the offset behind the image's last
patch, and writes off[0] before all others, SKIP has none; the record's progress follows, and after the last unit it completes. A chunk of RED
is combined, element by element, with the bytes at its target at one moment, which are zeros where its line is poisoned (log entry 16). That NPOI counts a poisoned line once for each unit that reads it is the reading of
log entry 56 (DEDUCED). What a unit reads of clean lines are the bytes that stand there; what it writes stands at its destination, and no other byte changes. -/
def Obligations.RecordUnits : Prop :=
  (∀ (s : State) (p : Party) (l : Loc) (n : Nat) (sp : Space) (a : Nat) (pol : Poison), runAt s p .read l n sp a →
    (∀ k, k < n → lineBad s sp (a + k) = false) → readLines s p l n pol = .ok ((getBytes s sp a n).map fun b => (b, false), 0)) ∧
  (∀ (s : State) (p : Party) (l : Loc) (d : List (Byte × Bool)) (sp : Space) (a : Nat), runAt s p .write l d.length sp a →
    ∃ t, writeMarked s p l d = .ok t ∧ writtenAt s t sp a (d.map Prod.fst)) ∧
  ∀ (s u : State) (c : Chan) (r : RecHead) (p : Party), c.performs s → p = chanParty s c r.cls →
    (∀ w d bad, c.prog < walkTotal w →
      readLines s p (srcLoc s c r (walkOffset w.counters c.prog).1) w.esize.toNat r.poison = .ok (d, bad) →
      writeMarked s p (dstLoc s c r (walkOffset w.counters c.prog).2) (marksFor r.poison d) = .ok u →
      exec (.aff r w) s = .next (recordAfter (passMark u c (r.dst + BitVec.ofNat 64 (w.esize.toNat * (c.prog + 1))))
        { c with prog := c.prog + 1, npoi := c.npoi + bad } (walkTotal w))) ∧
    (∀ w op f rm sat e o n d bad l, c.prog < chunksBefore r w (walkTotal w) → (e, o, n) = chunkAt r w (walkTotal w) 0 c.prog →
      readLines s p (srcLoc s c r ((walkOffset w.counters e).1 + o)) n r.poison = .ok (d, bad) →
      l = dstLoc s c r ((walkOffset w.counters e).2 + o) →
      (∀ sp a pol owner old mark, locate s p .atomic l d.length = .ok (.here sp a pol, owner) →
        mark = lineBad s (readPlace s sp a owner).1 (readPlace s sp a owner).2 →
        old = (if mark = true then List.replicate d.length 0 else getBytes s (readPlace s sp a owner).1 (readPlace s sp a owner).2 d.length) →
        (mark = false ∨ r.poison ≠ .trap → ∃ t, exec (.red r w op f rm sat) s = .next (recordAfter t
            { c with prog := c.prog + 1, npoi := c.npoi + bad + if mark = true then 1 else 0 } (chunksBefore r w (walkTotal w))) ∧
          (Space.fits (writeTarget s sp a owner).2.1 (writeTarget s sp a owner).2.2 d.length →
            bytesStored s t sp a owner (combineBytes op f rm sat old (d.map Prod.fst)))) ∧
        (mark = true → r.poison = .trap → exec (.red r w op f rm sat) s = .next (stopChan s c true (.denied .atomic .poison l.line)))) ∧
      (∀ dev ddr pa pol owner v, locate s p .atomic l d.length = .ok (.remote dev ddr pa pol, owner) →
        answerTo s p (request s p (.reduce op f rm sat (d.map Prod.fst) (r.poison == .pass && d.any Prod.snd)) dev ddr pa d.length r.poison)
          l.word l.line = .ok v →
        exec (.red r w op f rm sat) s = .next (recordAfter s
          { c with prog := c.prog + 1, npoi := c.npoi + bad + if v.result = 1 then 1 else 0 } (chunksBefore r w (walkTotal w)))) ∧
      (∀ x, locate s p .atomic l d.length = .error x → exec (.red r w op f rm sat) s = .next (stopChan s c true x))) ∧
    (∀ len ndst dlist k list s0 c0 m d bad, k < ndst.toNat → c.sub < len.toNat →
      (∀ i, i < ndst.toNat → (c.prog / 2 ^ i % 2 = 1 ↔ i ≠ k)) →
      (c.dests = some list ∧ s0 = s ∧ c0 = c ∨ c.dests = none ∧ mcstList s c r ndst.toNat dlist = .ok list ∧
        s0 = takeReplies s (.chan c.core c.n) ∧ c0 = { c with dests := some list }) →
      m = min (len.toNat - c.sub) (64 - (srcLoc s0 c r c.sub).low) →
      readLines s0 p (srcLoc s0 c r c.sub) m r.poison = .ok (d, bad) →
      writeMarked s0 p ((mcstDest s0 c0 list k).add c.sub) (marksFor r.poison d) = .ok u →
      exec (.mcst r len ndst dlist) s = .next
        (if c.sub + m = len.toNat then
          finishChan (takeReplies u (.chan c.core c.n)) { c0 with prog := c.prog ||| 2 ^ k, sub := 0, npoi := c.npoi + bad }
        else putChan (takeReplies u (.chan c.core c.n)) { c0 with sub := c.sub + m, npoi := c.npoi + bad })) ∧
    (∀ len ndst dlist k x, k < ndst.toNat → c.prog / 2 ^ k % 2 = 0 → c.dests = none →
      (readExact s p .read (.va dlist) (16 * ndst.toNat) = .error x ∨ (∃ l, readExact s p .read (.va dlist) (16 * ndst.toNat) = .ok l ∧
        (∃ i, i < ndst.toNat ∧ destBad s c (leNat ((l.drop (16 * i)).take 16)) = true) ∧ x = .trap .queueMisuse c.addr)) →
      exec (.mcst r len ndst dlist) s = .next (stopChan s c true x)) ∧
    (∀ v, c.prog = 0 → writeBytes s p (dstLoc s c r 0) (leBytes 8 v.toNat) = .ok u →
      exec (.sig r v) s = .next (recordAfter u { c with prog := 1 } 1)) ∧
    (∀ pp es nimg offs l total size n c0 s0 c1 v, n = c.prog → size = pp.toNat * pp.toNat * es.toNat →
      ((n ≠ 0 ∨ c.sub ≠ 0) ∧ c0 = c ∧ s0 = s ∨ n = 0 ∧ c.sub = 0 ∧ c0 = { c with sub := 1 } ∧
        ∃ w, storedVia p (.va offs) (leBytes 4 0) s w ∧ s0 = putChan (takeReplies w (.chan c.core c.n)) c0) →
      tableOf s0 c0 r nimg.toNat = .ok l → total = totalPatches pp.toNat l → total < 2 ^ 31 →
      c1 = { c0 with wmEnd := r.dst + BitVec.ofNat 64 (total * size), table := some (l.map fun m => (m.rows, m.w, m.h)) } →
      v = passMark (putChan s0 c1) c1 (r.dst + BitVec.ofNat 64 (n * size)) →
      ∀ before m after k ptrs (rows : Nat → List (Byte × Bool) × Nat) w, l = before ++ m :: after → n = totalPatches pp.toNat before + k → k < m.patches pp.toNat →
        rowPtrs v c1 (chanParty v c1 r.cls) m before.length = .ok ptrs →
        (∀ y, y < pp.toNat → ∀ row x0, row = k / m.across pp.toNat * pp.toNat + y → x0 = k % m.across pp.toNat * pp.toNat →
          if row < m.h then readLines v (chanParty v c1 r.cls) (.va (ptrs.getD row 0 + BitVec.ofNat 64 (x0 * es.toNat)))
              (min pp.toNat (m.w - x0) * es.toNat) r.poison = .ok (rows y)
          else rows y = ([], 0)) →
        writeMarked v (chanParty v c1 r.cls) (dstLoc v c1 r (n * size : Nat)) (marksFor r.poison ((List.range pp.toNat).flatMap fun y =>
          ((rows y).1 ++ List.replicate (pp.toNat * es.toNat) (0, false)).take (pp.toNat * es.toNat))) = .ok w →
        (k + 1 = m.patches pp.toNat → storedVia (chanParty v c1 r.cls) (.va (offs + BitVec.ofNat 64 (4 * (before.length + 1)))) (leBytes 4 (n + 1)) w u) →
        (k + 1 ≠ m.patches pp.toNat → u = w) →
        exec (.pgt r pp es nimg offs) s = .next (recordAfter
          (passMark u c1 (r.dst + BitVec.ofNat 64 (size * (n + 1))))
          { c1 with prog := n + 1, rowptr := some (before.length, ptrs), npoi := c.npoi + ((List.range pp.toNat).map fun y => (rows y).2).sum }
          total)) ∧
    exec (.skip r) s = .next (finishChan s c)

/-- R284: IXC takes a copy of a command block at a multiple of 64 into the job's index queue, after the earlier stores have performed, and
its barrier counts the event to come; a broken block traps with the offset of its first bad field. R287: a block whose rows are done
completes: its owed status writes, its barrier's decrement, its flags, and its place in the queue. -/
def Obligations.IndexBlocks : Prop :=
  (∀ (s v : State) (a : Reg) (ea : Word), ea = getX s a → v = drainLoad s 0 (.va ea) 64 →
     (ea.toNat % 64 = 0 → ∀ b d, ctlRecord v ea 64 = .ok b → d = BitVec.ofNat 512 (leNat b) →
       (∀ u bar, blockBad d = none → blockBar (repliesTaken v) d = some bar → v.job.index.length < 16 →
         u = barOwe (drain (repliesTaken v)) bar →
         exec (.ixc a) s = .next (wentTo { u with job := { u.job with
           index := v.job.index ++ [newBlock d (blockCount (repliesTaken v) d) bar] } } (v.job.pc + 4))) ∧
       (∀ k, blockBad d = some k → exec (.ixc a) s = .next (raise (repliesTaken v) .queueMisuse (BitVec.ofNat 64 k))) ∧
       (blockBad d = none → blockBar (repliesTaken v) d = none →
         exec (.ixc a) s = .next (raise (repliesTaken v) .barrierMisuse ((d.extractLsb' 32 9).setWidth 64))) ∧
       (∀ bar, blockBad d = none → blockBar (repliesTaken v) d = some bar → 16 ≤ v.job.index.length →
         exec (.ixc a) s = .next (waitsAt (repliesTaken v) (.submitting d (blockCount (repliesTaken v) d) bar)))) ∧
     (ea.toNat % 64 ≠ 0 → exec (.ixc a) s = .next (raise s .misaligned ea))) ∧
  (∀ (s u : State) (k : Nat) (e e' : IdxEntry), s.job.id ≠ 0 →
     s.job.index.findIdx? (fun e => e.finishing && e.halt == .going && !e.wait) = some k → s.job.index[k]? = some e →
     payBlock s e = (u, e') → e'.owed = [] → e'.halt = .going →
     (e'.bar = none → exec (.indexBlockComplete s.job.id) s = .next { putBlock u k e' with
       job := { (putBlock u k e').job with index := (putBlock u k e').job.index.eraseIdx k, flags := u.job.flags ||| e'.flags, clockFlags := u.job.clockFlags ||| e'.flags } }) ∧
     (∀ b v, e'.bar = some b → barEvent (putBlock u k e') b (.bytes (e'.count * (e'.blk.extractLsb' 288 32).toNat)) = some v →
       exec (.indexBlockComplete s.job.id) s = .next { barPaid v b with
         job := { (barPaid v b).job with index := (barPaid v b).job.index.eraseIdx k, flags := (barPaid v b).job.flags ||| e'.flags, clockFlags := (barPaid v b).job.clockFlags ||| e'.flags } }))

/-- R285, R286: one row of each index operation: GTH copies the table row that the index names to the data row, or zeros for the index
0xFFFF_FFFF; SCT copies the data row to the table row; SCA combines it; CPT keeps a row whose mask is not 0, and sets its stain bit once the row
is there. A row that met poison is written as zeros. The bytes of a row stand at its destination, and no other byte changes. -/
def Obligations.IndexRows : Prop :=
  ∀ (s : State) (e : IdxEntry) (b : BlockHead) (i : Nat) (p : Party), e.performs s i → p = indexParty s e (blockCls e) →
    (∀ v n, indexEntry s p b 4 i = .ok v → v ≠ 0xFFFFFFFF → (b.ntab = 0 ∨ v < b.ntab.toNat) → n = b.rowBytes.toNat →
      (∀ (j : Instr) (src dst : Loc) d bad, ((j = .gth b ∧ src = tableLoc s b v ∧ dst = dataLoc s b i) ∨
          (j = .sct b ∧ src = dataLoc s b i ∧ dst = tableLoc s b v)) → readLines s p src n b.poison = .ok (d, bad) →
        (∀ u, writeMarked s p dst (if bad = 0 then d else d.map fun _ => ((0 : Byte), b.poison == .pass)) = .ok u →
          exec j s = .next (blockAfter u s.curIdx (if bad = 0 then e else e.met i b.poison))) ∧
        (∀ sp a, runAt s p .write dst d.length sp a → ∃ u, exec j s = .next (blockAfter u s.curIdx (if bad = 0 then e else e.met i b.poison)) ∧
          writtenAt s u sp a (if bad = 0 then d.map Prod.fst else List.replicate d.length 0))) ∧
      (∀ op f d bad old more, readLines s p (dataLoc s b i) n b.poison = .ok (d, bad) → readLines s p (tableLoc s b v) n b.poison = .ok (old, more) →
        (∀ e' u, scaRow s p e b op f i (tableLoc s b v) = .ok (e', u) → exec (.sca b op f) s = .next (blockAfter u s.curIdx e')) ∧
        (bad = 0 → more = 0 → n % f.bytes = 0 → (tableLoc s b v).low % f.bytes = 0 → (tableLoc s b v).low + n ≤ 64 →
          ∀ sp a, runAt s p .atomic (tableLoc s b v) n sp a → runAt s p .read (tableLoc s b v) n sp a → ∃ u,
            exec (.sca b op f) s = .next (blockAfter u s.curIdx e) ∧
            writtenAt s u sp a (combineBytes op f .rne false (getBytes s sp a n) (d.map Prod.fst))))) ∧
    (indexEntry s p b 4 i = .ok 0xFFFFFFFF →
      (∀ u, writeBytes s p (dataLoc s b i) (List.replicate b.rowBytes.toNat 0) = .ok u →
        exec (.gth b) s = .next (blockAfter u s.curIdx e)) ∧
      exec (.sct b) s = .next (blockAfter s s.curIdx e) ∧ ∀ op f, exec (.sca b op f) s = .next (blockAfter s s.curIdx e)) ∧
    (∀ inplace stain, e.moved = false → indexEntry s p b 1 i = .ok 0 → exec (.cpt b inplace stain) s = .next (blockAfter s s.curIdx e)) ∧
    (∀ inplace stain v e' u dst d bad, e.moved = false → indexEntry s p b 1 i = .ok v → v ≠ 0 →
      dst = (if inplace = true then tableLoc s b e.kept else dataLoc s b e.kept) →
      (if inplace = true ∧ e.kept = i then e' = e ∧ u = s
        else readLines s p (tableLoc s b i) b.rowBytes.toNat b.poison = .ok (d, bad) ∧ e' = (if bad = 0 then e else e.met i b.poison) ∧
          writeMarked s p dst (if bad = 0 then d else d.map fun _ => ((0 : Byte), b.poison == .pass)) = .ok u) →
      (stain = 0 → exec (.cpt b inplace stain) s = .next (blockAfter u s.curIdx { e' with kept := e.kept + 1 })) ∧
      (stain ≠ 0 → exec (.cpt b inplace stain) s = .next (blockAfter u s.curIdx { e' with moved := true }))) ∧
    (∀ inplace stain sp a pol owner old, e.moved = true → locate s p .atomic (blockLoc s e stain (e.kept / 8)) 1 = .ok (.here sp a pol, owner) →
      old = getByte s (readPlace s sp a owner).1 (readPlace s sp a owner).2 →
      lineBad s (readPlace s sp a owner).1 (readPlace s sp a owner).2 = false →
      ∃ u, exec (.cpt b inplace stain) s = .next (blockAfter u s.curIdx { e with kept := e.kept + 1, moved := false }) ∧
        (Space.fits (writeTarget s sp a owner).2.1 (writeTarget s sp a owner).2.2 1 →
          bytesStored s u sp a owner [old ||| BitVec.ofNat 8 (2 ^ (e.kept % 8))]))

/-- R366: STAIN sets the bit of each of its positions in every group from GSEL on. R367: LIST writes, for one sequence, the positions whose
bit of the plane is set behind those listed before, and the count so far, and with LCLR clears those bits word by word; R368: CLEAR clears
the bits below NPOS of every group. Each of these writes changes no other byte. R358 to R370: a DARN whose descriptor holds, with a context
free, performs its sub-operation over the sequences that are left, clears the progress at REC + 48, and puts the result into x[d]; where a
turn ends before the last sequence it keeps its context and goes on later: that a turn performs whole sequences, as many as it names, is the
model's reading (log entries 38 and 4). R364: RANK orders the positions of a sequence by descending confidence, a NaN behind every number,
equal ones by position, and writes that order into RANKOUT from the sequence's first entry on, 0xFFFFFFFF behind it; that it reads CONF of each
position of a sequence with a masked one is log entry 65 (DESIGN CHOICE). R361, R365: the count that COMMIT takes of a sequence with m masked
positions is the schedule's entry of its round, or that share of m rounded up, within its bounds, and never above m; COMMIT commits the positions
from UDONE up to that count one after another, each with its token, its mask bit and its stain bits, and its result counts them; behind the last
sequence of a periodic round it stains every position of every group. -/
def Obligations.Darn : Prop :=
  (∀ (i : Instr) (s u w : State) (op : Nat) (d a : Reg) (r r' : DarnRun) (p : Party), darnForm i = some (op, d, a) →
     ((s.job.darn = some r ∧ r.holds = true ∧ r.ended = none ∧ r.offs ≠ [] ∧ p = ctlParty s r.cls ∧ u = s) ∨
       ∃ r0 v, s.job.darn = none ∧ (getX s a).toNat % 64 = 0 ∧ darnLoad (drain s) op d (getX s a) = .ok r0 ∧ v = repliesTaken (drain s) ∧
         darnHeld v (dieOf s.job.core) < 16 ∧ u = { drain v with job := { (drain v).job with darn := some { r0 with holds := true } } } ∧
         p = ctlParty u r0.cls ∧ darnOffsets u p { r0 with holds := true } = .ok r) →
     (∀ t, darnWork p u.units r u = .ok (r', w, true) →
       pinWrite w (ctlParty w r'.cls) (r'.recAddr + 48) (r'.pin.map fun x => x.add 48) (toBytes (0 : Word)) = .ok t →
       exec i s = .next (wroteX { t with job := { t.job with darn := none } } d (BitVec.ofNat 64 r'.result))) ∧
     (darnWork p u.units r u = .ok (r', w, false) →
       exec i s = .next { w with job := { w.job with darn := some r', wait := .blocked } })) ∧
  (∀ (p : Party) (q : Nat) (r r' : DarnRun) (s w : State), darnWork p q r s = .ok (r', w, true) →
     (r.op = 2 → ∃ b l, darnRead s p r.cand (4 * r.round) = .ok b ∧ l = (cut 4 b).map leNat ∧ (∀ x ∈ l, x < r.npos) ∧ r'.result = r.round ∧
       chainOf (fun y => updatedVia p (.va (BitVec.ofNat 64 (r.plane y.1 + y.2 / 8))) 1 fun v => v ||| 2 ^ (y.2 % 8))
         ((List.range (r.g - r.gsel)).flatMap fun k => l.map fun x => (r.gsel + k, x)) s w) ∧
     (r.op = 4 → r'.result = 0 ∧
       chainOf (fun y => updatedVia p (.va (BitVec.ofNat 64 (r.plane y.1 + y.2))) 1 fun v => v &&& (255 - (2 ^ min 8 (r.npos - 8 * y.2) - 1)))
         ((List.range r.g).flatMap fun g => (List.range ((r.npos + 7) / 8)).map fun b => (g, b)) s w)) ∧
  (∀ (p : Party) (r r' : DarnRun) (s w : State) (lo hi start : Nat) (l : List Nat), r.op = 3 → darnSeq p r s = .ok (r', w) → lo = r.lo r.sdone →
     hi = r.hi r.sdone → bitsIn s p (r.plane r.gsel) lo hi = .ok l →
     (r.sdone = 0 → start = 0) → (∀ b, r.sdone ≠ 0 → darnRead s p (r.loff + 4 * r.sdone) 4 = .ok b → start = leNat b) →
     ∃ t u v, (r.sdone = 0 → storedVia p (.va (BitVec.ofNat 64 r.loff)) (leBytes 4 0) s t) ∧ (r.sdone ≠ 0 → t = s) ∧
       storedVia p (.va (BitVec.ofNat 64 (r.lpos + 4 * start))) (l.flatMap (leBytes 4)) t u ∧
       storedVia p (.va (BitVec.ofNat 64 (r.loff + 4 * (r.sdone + 1)))) (leBytes 4 (start + l.length)) u v ∧
       (r.lclr = false → w = v) ∧
       (r.lclr = true → chainOf (fun k => updatedVia p (.va (BitVec.ofNat 64 (r.plane r.gsel + 8 * k))) 8 fun x =>
           x &&& (2 ^ 64 - 1 - ((l.filter fun q => q / 64 = k).map fun q => 2 ^ (q % 64)).sum))
         (((List.range ((hi + 63) / 64)).filter fun k => lo / 64 ≤ k ∧ ∃ q ∈ l, q / 64 = k)) v w) ∧
       r'.sdone = r.sdone + 1 ∧ r'.result = (start + l.length) % 2 ^ 32) ∧
  (∀ (p : Party) (r r' : DarnRun) (s w : State) (lo hi : Nat) (l : List Nat), darnSeq p r s = .ok (r', w) → lo = r.lo r.sdone →
     hi = r.hi r.sdone → bitsIn s p r.mask lo hi = .ok l →
     (r.op = 0 → ∀ c o, (l ≠ [] → darnRead s p (r.conf + 4 * lo) (4 * (hi - lo)) = .ok c) →
       o = rankOrder (l.map fun q => (q, numOf .fp32 (leNat ((c.drop (4 * (q - lo))).take 4)))) →
       storedVia p (.va (BitVec.ofNat 64 (r.rankout + 4 * lo))) ((o ++ List.replicate (hi - lo - l.length) 0xFFFFFFFF).flatMap (leBytes 4)) s w ∧
       r'.sdone = r.sdone + 1 ∧ r'.result = r.result + l.length) ∧
     (r.op = 1 → ∀ k, k = commitCount r (l.length + r.udone) →
       chainOf (committedAt p r) ((List.range (k - r.udone)).map fun i => r.udone + i) s w ∧
       r'.sdone = r.sdone + 1 ∧ r'.udone = 0 ∧ r'.result = r.result + (k - r.udone))) ∧
  (∀ (p : Party) (q : Nat) (r r' : DarnRun) (s w : State), r.op = 1 → darnWork p q r s = .ok (r', w, true) →
     ∃ v, darnSeqs p (r.nseq - r.sdone) (if q = 0 then r.nseq - r.sdone else q) r s = .ok (r', v, true) ∧
       (r.period = 0 ∨ r.round % r.period + 1 ≠ r.period → w = v) ∧
       (r.period ≠ 0 → r.round % r.period + 1 = r.period →
         chainOf (fun y => updatedVia p (.va (BitVec.ofNat 64 (r.plane y.1 + y.2))) 1 fun x => x ||| (2 ^ min 8 (r.npos - 8 * y.2) - 1))
           ((List.range r.g).flatMap fun g => (List.range ((r.npos + 7) / 8)).map fun b => (g, b)) v w)) ∧
  (∀ (l : List (Nat × Machine.Num)), l.Pairwise (fun x y => x.1 < y.1) →
     (rankOrder l).Perm (l.map Prod.fst) ∧
     (rankOrder l).Pairwise fun q q' => ∀ x y, (q, x) ∈ l → (q', y) ∈ l → confBefore y x = false ∧ (confBefore x y = false → q < q')) ∧
  (∀ (r : DarnRun) (m e lo hi n : Nat),
     n = leNat (r.sched.take 2) → e = leNat ((r.sched.drop (16 + 2 * min r.round (n - 1))).take 2) →
     lo = leNat ((r.sched.drop 2).take 2) → hi = leNat ((r.sched.drop 4).take 2) →
     commitCount r m ≤ m ∧ (lo ≤ hi → commitCount r m ≤ hi ∧ (lo ≤ m → lo ≤ commitCount r m)) ∧
     (leNat ((r.sched.drop 6).take 1) % 2 = 1 → lo ≤ e → e ≤ hi → e ≤ m → commitCount r m = e) ∧
     (leNat ((r.sched.drop 6).take 1) % 2 = 0 → ∀ k, lo ≤ k → k ≤ hi → k ≤ m → e * m ≤ k * 65536 → k * 65536 < e * m + 65536 →
       commitCount r m = k))

/-- R351, R352: WRNG takes a copy of a collective's descriptor at a multiple of 64 into a free slot, after the earlier stores have
performed; a broken one traps with the offset of its first bad field. R353 to R356: once every participant's elements are there, a
participant writes what it receives, its offsets and its status, and its slot and the used parts are free; its own descriptor is kept for
a device that asks later (log entry 17). -/
def Obligations.Wringer : Prop :=
  (∀ (s v : State) (a : Reg) (ea : Word), ea = getX s a → v = drainLoad s 0 (.va ea) 64 →
     (ea.toNat % 64 = 0 → ∀ b d h, ctlRecord v ea 64 = .ok b → d = BitVec.ofNat 512 (leNat b) →
       (descFault d = none → decodeDescHead d = some h → v.slots.length < 64 →
         (h.bar = none → exec (.wrng a) s = .next (wentTo (submit (drain (repliesTaken v)) d none) (v.job.pc + 4))) ∧
         (∀ o c, h.bar = some o → v.job.barAt o = some c →
           exec (.wrng a) s = .next (wentTo (submit (drain (repliesTaken v)) d (some c)) (v.job.pc + 4)))) ∧
       (descFault d = none → decodeDescHead d = some h → 64 ≤ v.slots.length → h.bar = none →
         exec (.wrng a) s = .next (waitsAt (repliesTaken v) (.wringing d none))) ∧
       (∀ k, descFault d = some k → exec (.wrng a) s = .next (raise (repliesTaken v) .collectiveFault (BitVec.ofNat 64 k)))) ∧
     (ea.toNat % 64 ≠ 0 → exec (.wrng a) s = .next (raise s .misaligned ea))) ∧
  (∀ (i : Instr) (s u t : State) (x : Slot) (l : List PeerPart) (size : Nat) (es offs : List Nat) (dies : List Nat) (p : Party)
     (writes : List (Nat × List Byte)),
     s.slots[s.curSlot]? = some x → x.halt = .going → x.phase = 2 → p = wringParty x →
     (∀ o ∈ s.outs, o.unit = p.unit → o.st ≠ .failed) → u = resendParts s p.unit → awaiting u p.unit = false →
     partsOf u x x.part.members = some l → received l (x.part.members.idxOf (ownIndex u)) i = some (size, es, offs) →
     (∀ k, k < l.length → sendCount l k i = 0 ∨ ∃ q e, l[k]? = some q ∧ q.send = some e) →
     dieAddrs u x (x.part.desc.extractLsb' 320 64).toNat = .ok dies →
     writes = ((x.part.desc.extractLsb' 256 64).toNat, es.flatMap (leBytes size)) ::
       (if x.part.desc.extractLsb' 384 64 = 0 then [] else [((x.part.desc.extractLsb' 384 64).toNat, offs.flatMap (leBytes 4))]) ++
       dies.map (fun a => (a, es.flatMap (leBytes size))) →
     mayWrite u p (writes.filter (fun q => q.2 ≠ []) ++ [((x.part.desc.extractLsb' 448 64).toNat, collStatus u x 0 es.length)]) = .ok u →
     writeAll u p (writes.filter (fun q => q.2 ≠ []) ++ [((x.part.desc.extractLsb' 448 64).toNat, collStatus u x 0 es.length)]) = .ok t →
     exec i s = .next (endSlot t s.curSlot x) ∧
     ∀ (v : State), (x.bar = none ∧ v = t) ∨ (∃ b w, x.bar = some b ∧ barEvent t b (.arrive 1) = some w ∧ v = barPaid w b) →
       endSlot t s.curSlot x = { v with
         slots := v.slots.eraseIdx s.curSlot
         parts := v.parts.filter (fun q => !(q.asid == x.asid && q.tag == x.part.desc.extractLsb' 32 16 && q.part.num == x.part.num)) ++
           [{ dev := ownIndex t, asid := x.asid, tag := x.part.desc.extractLsb' 32 16, part := { x.part with send := none } }] })

/-- R57 to R61, R174: ISSUE, AMEND and WIDE. An operation issues with the slot's pattern, one or two of its slots replaced for this
operation alone; AMEND replaces a slot of the stream's own pattern. A word that a stage predicate skips has no effect, and a pattern slot
beyond the allotment traps the stream. -/
def Obligations.PatchIssue : Prop :=
  ∀ (s : State) (t : Toks) (p : Fin 64) (f : Fin 8) (v : BitVec 16) (u : Word32) (x : EngStream) (pat : Pattern),
    x = noted s → pat = sget x.slots p.val →
    (wordRuns s → p.val < s.job.pslot →
      exec (.issue t p 0 v) s = .next (putStream s { x with pc := x.pc + 4, pipe := x.pipe ++ [issued x pat t] }) ∧
      (f ≠ 0 → ∃ q, slotSet pat q (f.val - 1) v ∧
        exec (.issue t p f v) s = .next (putStream s { x with pc := x.pc + 4, pipe := x.pipe ++ [issued x q t] }) ∧
        exec (.amend p f v) s = .next (putStream s { x with pc := x.pc + 4, slots := sset x.slots p.val q })) ∧
      (2 ≤ f.val → ∃ q q', slotSet pat q' (f.val - 2) (u.extractLsb' 0 16) ∧ slotSet q' q (f.val - 1) (u.extractLsb' 16 16) ∧
        exec (.wide t p f u) s = .next (putStream s { x with pc := x.pc + 8, pipe := x.pipe ++ [issued x q t] }))) ∧
    (¬wordRuns s → exec (.issue t p f v) s = .next (putStream s { x with pc := x.pc + 4 }) ∧
      exec (.amend p f v) s = .next (putStream s { x with pc := x.pc + 4 }) ∧
      exec (.wide t p f u) s = .next (putStream s { x with pc := x.pc + 8 })) ∧
    (wordRuns s → s.job.pslot ≤ p.val →
      (∃ w, exec (.issue t p f v) s = .next (streamTrap (putStream s x) .illegalPatch w)) ∧
      (∃ w, exec (.amend p f v) s = .next (streamTrap (putStream s x) .illegalPatch w)) ∧
      ∃ w, exec (.wide t p f u) s = .next (streamTrap (putStream s x) .illegalPatch w))

/-- R173, R174: LOOP opens a frame with its count and stages, from an immediate or the engine's shape register; ENDL ends the trip, the
loop, or the segment outside any loop; PRED selects the stage of the words after it. A LOOP inside four frames or without a matching ENDL, and
a PRED outside any loop or with a stage beyond the loop's, trap. That the scan for the matching ENDL counts a word of code LOOP or ENDL by its
code alone is the model's choice (log entries 62 and 65), that a PRED counts as a word of the stage before it, and acts and traps whether or not
that stage is skipped, is the reading of log entry 27 (DEDUCED), and that BWT and BAV see a barrier as the clock began is log entry 12 (DESIGN
CHOICE). R95, R169, R171, R253, R255: STOP stops the stream,
RDV arrives at the rendezvous, TOKS adds tokens to a queue of its engine once they fit, BWT waits for a phase, BAV arrives once the
operations before it have completed. -/
def Obligations.PatchControl : Prop :=
  (∀ (i : Instr) (s : State) (st : Fin 4) (n : Nat) (x : EngStream), x = noted s →
     (((∃ c : BitVec 16, i = .loopImm st c ∧ n = c.toNat) ∨ ∃ r : Fin 32, i = .loopReg st r ∧ n = ((curStream s).shapes[r]).toNat) →
       ∀ after, matchEndl (putStream s x) (streamBounds s).2 (((streamBounds s).2 - (x.pc + 4)) / 4 + 1) (x.pc + 4) 1 = .ok (some after) →
         (wordRuns s → x.frames.length < 4 → n ≠ 0 → (x.frames ≠ [] ∨ x.held = none) →
           exec i s = .next (putStream s { x with pc := x.pc + 4, frames :=
             { loopPc := x.pc, start := x.pc + 4, n, nEff := n, s := st.val + 1, j := 0, started := 0, base := 0, stage := 0,
               bounded := false } :: x.frames })) ∧
         (wordRuns s → x.frames = [] → n ≠ 0 → ∀ b, x.held = some b → ∃ f,
           exec i s = .next (putStream s { x with pc := x.pc + 4, held := none, frames := [f] }) ∧
             f.nEff = min n (b.toNat + 1) ∧ f.start = x.pc + 4 ∧ f.s = st.val + 1 ∧ f.j = 0 ∧ f.stage = 0) ∧
         (wordRuns s → x.frames.length < 4 → n = 0 →
           exec i s = .next (putStream s { x with pc := after, held := if x.frames = [] then none else x.held })) ∧
         (¬wordRuns s → exec i s = .next (putStream s { x with pc := after }))) ∧
     (((∃ c : BitVec 16, i = .loopImm st c ∧ n = c.toNat) ∨ ∃ r : Fin 32, i = .loopReg st r ∧ n = ((curStream s).shapes[r]).toNat) →
       (wordRuns s ∧ 4 ≤ x.frames.length) ∨
         matchEndl (putStream s x) (streamBounds s).2 (((streamBounds s).2 - (x.pc + 4)) / 4 + 1) (x.pc + 4) 1 = .ok none →
       ∃ w, exec i s = .next (streamTrap (putStream s x) .illegalInstr w)) ∧
     (x.frames = [] → exec .endl s = .next (putStream s { x with wait := .segment })) ∧
     (∀ f r, (curStream s).frames = f :: r →
       (f.j + 2 < f.nEff + f.s →
         exec .endl s = .next (putStream s { curStream s with pc := f.start, frames := { f with j := f.j + 1, stage := 0 } :: r })) ∧
       (f.nEff + f.s ≤ f.j + 2 → f.bounded = false →
         exec .endl s = .next (putStream s { curStream s with pc := (curStream s).pc + 4, frames := r }))) ∧
     (∀ f r, x.frames = f :: r → st.val < f.s →
       exec (.pred st) s = .next (putStream s { x with pc := x.pc + 4, frames := { f with stage := st.val } :: r })) ∧
     (x.frames = [] ∨ (∃ f r, x.frames = f :: r ∧ f.s ≤ st.val) →
       ∃ w, exec (.pred st) s = .next (streamTrap (putStream s x) .illegalInstr w))) ∧
  (∀ (s : State) (q p : Bool) (n : Fin 16) (c : BitVec 10) (o : BarOp) (x : EngStream) (k : Nat), x = noted s → wordRuns s →
     k = (match s.curEng with | .ld => if q then 7 else 0 | .mx => if q then 4 else 1 | .vx => if q then 5 else 2 | .st => if q then 6 else 3) →
     exec .stop s = .next (putStream s { x with pc := x.pc + 4, stopped := true }) ∧
     exec .rdv s = .next (putStream s { x with pc := x.pc + 4, arrivals := x.arrivals + 1 }) ∧
     (s.job.token k + n.val ≤ 15 → ∃ t, exec (.toks q n) s = .next t ∧ curStream t = { x with pc := x.pc + 4 } ∧
       t.job.token k = s.job.token k + n.val ∧ (∀ k', k' < 8 → k' ≠ k → t.job.token k' = s.job.token k') ∧
       t = { s with job := { s.job with tokens := t.job.tokens, ld := t.job.ld, mx := t.job.mx, vx := t.job.vx, st' := t.job.st' } }) ∧
     (15 < s.job.token k + n.val → exec (.toks q n) s = .next (putStream s x)) ∧
     (∀ b, s.job.barAt o = some b → (barOf s b).active = true →
       exec (.bwt p o) s = .next (putStream s (if (barOf s b).start.phase = p then { x with wait := .barrier b p } else { x with pc := x.pc + 4 })) ∧
       exec (.bav c o) s = .next (putStream s { x with pc := x.pc + 4, pipe := x.pipe ++ [.bav b c] })) ∧
     ((s.job.barAt o = none ∨ ∃ b, s.job.barAt o = some b ∧ (barOf s b).active = false) →
       exec (.bwt p o) s = .next (streamTrap (putStream s x) .barrierMisuse (o.code.setWidth 64)) ∧
       exec (.bav c o) s = .next (streamTrap (putStream s x) .barrierMisuse (o.code.setWidth 64))))

/-- R63, R64: what translation does to a pattern of an image of version 1 or 2: in the register slots of its opcode's layout 0xFFFF becomes
0xE000, and every other slot is as it was; a pattern of version 3, and one whose opcode has no layout, is unchanged; one whose opcode, or a format
of its layout, is absent in the version is rejected. R64, R172: PATL loads patterns of the stream's pattern section, translated from the encoding
version in the image's header, into slots; where one is rejected it loads none, and raises ENCODING_VERSION with the section index of the first; a
version outside 1 to 3 raises it with the version (R319); a missing section, and an index beyond the section or the
allotment, raise ILLEGAL_PATCH with the first offending index, before any version is judged (log entry 67, DESIGN CHOICE); a fault of the image read is the stream's. A word that a stage predicate skips has
no effect. -/
def Obligations.PatternLoad : Prop :=
  (∀ (s : State) (p n g : Fin 64) (x : EngStream) (first : Nat), x = noted s → first = 64 * g.val + p.val →
    (¬wordRuns s → exec (.patl p n g) s = .next (putStream s { x with pc := x.pc + 4 })) ∧
    (wordRuns s → sectionOf s s.job (patternKind s.curEng) = none →
      exec (.patl p n g) s = .next (streamTrap (putStream s x) .illegalPatch (BitVec.ofNat 64 first))) ∧
    ∀ (sec : Section) (top : Nat), wordRuns s → sectionOf s s.job (patternKind s.curEng) = some sec →
      top = min (64 * g.val + s.job.pslot) (sec.bytes / 16) →
      (top < first + n.val + 1 →
        exec (.patl p n g) s = .next (streamTrap (putStream s x) .illegalPatch (BitVec.ofNat 64 (max first top)))) ∧
      (first + n.val + 1 ≤ top → (∀ e, imageVersion (putStream s x) = .error e → exec (.patl p n g) s = .next (streamStop (putStream s x) e)) ∧
        ∀ ver, imageVersion (putStream s x) = .ok ver →
        (ver = 0 ∨ 3 < ver → exec (.patl p n g) s = .next (streamTrap (putStream s x) .encodingVersion (BitVec.ofNat 64 ver))) ∧
        (1 ≤ ver → ver ≤ 3 → ∀ (raws l : List Pattern) (u : Machine.Unit), u = .words s.job.id s.curEng →
          (∀ k v, raws[k]? = some v → imageNat (putStream s x) .read (sec.off + 16 * (first + k)) 16 = .ok v.toNat) →
          raws.map (translatePattern ver s.curEng) = l.map some →
          (raws.length = n.val + 1 → ∃ t y, exec (.patl p n g) s = .next t ∧ t = takeReplies (putStream s y) u ∧
            y = { x with pc := x.pc + 4, slots := y.slots } ∧
            ∀ k, sget y.slots k = if p.val ≤ k ∧ k < p.val + l.length then l.getD (k - p.val) 0 else sget x.slots k) ∧
          (raws.length ≤ n.val →
            (∀ v : Pattern, imageNat (putStream s x) .read (sec.off + 16 * (first + raws.length)) 16 = .ok v.toNat →
              translatePattern ver s.curEng v = none → exec (.patl p n g) s =
                .next (streamTrap (keepWrites (reported (putStream s x) u) u) .encodingVersion (BitVec.ofNat 64 (first + raws.length)))) ∧
            ∀ e, imageNat (putStream s x) .read (sec.off + 16 * (first + raws.length)) 16 = .error e →
              exec (.patl p n g) s = .next (streamStop (putStream s x) e))))) ∧
  (∀ (ver op : Nat) (e : Engine) (v : Pattern) (absent : Prop), op = (v.extractLsb' 120 8).toNat →
    (absent ↔ ver < 3 ∧ ((e = .mx ∧ ver = 1 ∧ (op = 3 ∨ op = 4)) ∨ (e = .vx ∧ ((ver = 1 ∧ op = 0x3A) ∨ op = 0x3D)) ∨
      (ver = 1 ∧ ∃ k ∈ formatFields e op, v.extractLsb' k 4 = 5))) →
    (registerSlots e op = none → translatePattern ver e v = some v) ∧
    (∀ l, registerSlots e op = some l → (absent → translatePattern ver e v = none) ∧
      (¬absent → 3 ≤ ver → translatePattern ver e v = some v) ∧
      (¬absent → ver < 3 → ∃ w, translatePattern ver e v = some w ∧ ∀ k, k < 8 →
        slotOf w k = if k ∈ l ∧ slotOf v k = 0xFFFF then 0xE000 else slotOf v k))) ∧
  ∀ op : Nat,
    registerSlots .vx op = (if (1 ≤ op ∧ op ≤ 9) ∨ op = 0x0B ∨ op = 0x0C ∨ (0x0F ≤ op ∧ op ≤ 0x15) ∨ (0x18 ≤ op ∧ op ≤ 0x22) ∨ op = 0x28
      then some [0, 1, 2, 3, 6]
      else if op = 0x0A ∨ op = 0x0D ∨ op = 0x0E ∨ (0x29 ≤ op ∧ op ≤ 0x30) ∨ (0x38 ≤ op ∧ op ≤ 0x3F) then some [0, 1, 2, 6] else none) ∧
    registerSlots .mx op = (if 1 ≤ op ∧ op ≤ 3 then some [1] else if op = 4 then some [0, 1] else if op = 5 ∨ op = 8 then some []
      else if op = 6 ∨ op = 7 then some [0] else none) ∧
    registerSlots .ld op = (if op = 4 then some [0, 2] else if 1 ≤ op ∧ op ≤ 5 then some [0] else none) ∧
    registerSlots .st op = (if op = 3 ∨ op = 4 then some [0, 2] else if 1 ≤ op ∧ op ≤ 5 then some [0] else none)

/-- R164, R139: a stream that waits for its next segment consumes the entries ahead of the first SEG entry and begins that segment; a
stopped stream consumes only; INV entries that have waited for a free entry of its queue take those that there are then (R163; log entry 66, DESIGN CHOICE). R170, R90: an operation whose counters hold tokens, whose unit is free, that is chosen among the streams
that are ready, and whose checks pass pops the tokens and starts; one that fails its checks traps and pops nothing. R142: that the check of the
SIB handles stands behind all the others is the model's choice (log entry 62). An operation does not start while a vector that this check reads
waits, nor while the first unit of it would wait at a watermark (R277, R228; log entry 35). R178, R209, R253: a BAV arrives once the operations before it have
completed; the sibling's array takes over a relocatable MMAD; the clocks of an array window pass. -/
def Obligations.EngineStarts : Prop :=
  (∀ (s : State) (e : Engine) (x y : EngStream) (head : List QEntry) (v : Word) (t : BitVec 32) (r : List QEntry) (sec : Section),
     s.job.id ≠ 0 → s.job.resident = true → x = s.job.eng e → x.draining = false → x.queue = head ++ .seg v t :: r →
     (∀ q ∈ head, ∀ v t, q ≠ .seg v t) → sectionOf s s.job (streamKind e) = some sec →
     y = head.foldl EngStream.consume x →
     (x.stopped = false → x.wait = .segment → exec (.segmentStart s.job.id e) s = .next { s with job :=
       (s.job.setEng e { y.queued r with pc := sec.off + (v.extractLsb' 0 24).toNat, wait := .ready,
                                         begun := if t ∈ y.begun then y.begun else y.begun ++ [t] }).settle e }) ∧
     (x.stopped = true → exec (.segmentStart s.job.id e) s = .next { s with job := (s.job.setEng e (y.queued (.seg v t :: r))).settle e }) ∧
     (y.shapes = (head.foldl (fun z q => match q with | .set n v _ => z.set n v | _ => z) x.shapes)) ∧
     y.handles = (head.foldl (fun z q => match q with | .hnd n v _ => z.set n v | _ => z) x.handles)) ∧
  (∀ (s : State) (e : Engine) (o : IOp) (i : Instr), s.job.id ≠ 0 → readyOp s s.job e = some o → unitFree s s.job e = true →
     chosen s s.job e = true →
     (∀ o', decodePattern e o.pat = some i → opCheck e s.job o i = none → windowCheck s e o false i = (o', none) →
       exec (.operationStart s.job.id e) s = .next { s with
         issued := assign s.issued (s.job.core, engineNum e) s.job.id
         job := ((popTokens s.job e o').updEng e fun x =>
           { x with pipe := startFirst (fun _ => { o' with sib := false }) x.pipe, w := 0, holds := true }).settleAll }) ∧
     (∀ o' x c v, decodePattern e o.pat = some i → opCheck e s.job o i = none → windowCheck s e o false i = (o', some x) →
       (x = .trap c v ∨ ∃ acc, x = .denied acc c v) → exec (.operationStart s.job.id e) s = .next (trapOp s e c v 0)) ∧
     (∀ c v, decodePattern e o.pat = some i → opCheck e s.job o i = some (c, v) →
       exec (.operationStart s.job.id e) s = .next (trapOp s e c v 0)) ∧
     (decodePattern e o.pat = none → exec (.operationStart s.job.id e) s = .next (trapOp s e .illegalInstr ((o.pat.extractLsb' 112 16).setWidth 64) 0)) ∧
     (∀ k, (popTokens s.job e o).token k =
       if k < 8 ∧ ((k = popForward e ∧ o.toks.wf = true) ∨ (k = popBackward e ∧ o.toks.wb = true)) then s.job.token k - 1 else s.job.token k)) ∧
  (∀ (s : State) (e : Engine) (o o' : IOp) (i : Instr), s.job.id ≠ 0 → nextOp (s.job.eng e).pipe = some o → decodePattern e o.pat = some i →
     opCheck e s.job o i = none →
     ((∃ x, windowCheck s e o false i = (o', some x) ∧ ∀ c v, x ≠ .trap c v ∧ ∀ acc, x ≠ .denied acc c v) ∨
       windowCheck s e o false i = (o', none) ∧ ∃ x m, firstStop (begun s e o' false) e o' i = some x ∧ x.mark? = some m) →
     exec (.operationStart s.job.id e) s = .next s) ∧
  (∀ (s : State) (e : Engine),
     (∀ b c l t, s.job.id ≠ 0 → s.job.resident = true → takeBav (s.job.eng e).pipe = some ((b, c), l) →
       barEvent s b (.arrive c.toNat) = some t →
       exec (.bavArrival s.job.id e) s = .next (updJob t s.job.id fun k => k.updEng e fun x => { x with pipe := l })) ∧
     (∀ o, s.job.id ≠ 0 → readyOp s s.job .mx = some o → relocatable o = true → pairShared s s.job.core = true →
       arrayBusy s s.job.core = true → arrayBusy s (sibling s.job.core) = false →
       (∀ j ∈ jobsOn s (sibling s.job.core), readyAt s j .mx = false) →
       exec (.siblingTakeover s.job.id false) s = .next (startOp s .mx o true)) ∧
     (∀ core, (∃ j ∈ jobsOn s core, j.altArray = true) → s.bootStep = 7 →
       ∃ t, exec (.altWindowChange core) s = .next t ∧ t.clock = s.clock + (256 - s.clock % 256) ∧ t.clock % 256 = 0))

/-- R58 to R60, R46, R48: a word that raises when it is decoded traps the control stream with the word, or the engine stream unless a
stage predicate skips it (R174). That a skipped illegal word is stepped over alone, also one of code LOOP, is the model's choice (log entry
62). -/
def Obligations.RaisingWords : Prop :=
  ∀ (s : State) (w : Word32) (u : Option Word32) (x : EngStream), x = noted s →
    exec (.unassignedMajor w) s = .next (raise s .illegalInstr (w.setWidth 64)) ∧
    exec (.illegalInstr false w) s = .next (raise s .illegalInstr (w.setWidth 64)) ∧
    (wordRuns s → exec (.illegalInstr true w) s = .next (streamTrap (putStream s x) .illegalInstr (w.setWidth 64)) ∧
      exec (.illegalPatch w u) s = .next (streamTrap (putStream s x) .illegalPatch (w.setWidth 64))) ∧
    (¬wordRuns s → exec (.illegalInstr true w) s = .next (putStream s { x with pc := x.pc + 4 }) ∧
      exec (.illegalPatch w u) s = .next (putStream s { x with pc := x.pc + if w.extractLsb' 30 2 = 3 then 8 else 4 }))

/-- R93: STRT restarts stopped engine streams in turn at the entries of its PC vector, which it reads in the state z in which what must precede
the load has performed (R307), after the earlier stores; at a stream that has not
stopped, or has an operation that has not completed, it waits, with the streams before it restarted; an offset that is no entry of its
section, and a misaligned vector, trap. Other engines, and every register, are as before. -/
def Obligations.StreamStart : Prop :=
  ∀ (s z : State) (m : EngMask) (a : Reg) (b : Engine → List Byte) (bad : Engine → Prop), z = drainLoad s 0 (.va (getX s a)) 16 →
    (∀ e, maskHas m e = true → ctlRecord z (getX s a + BitVec.ofNat 64 (4 * engineNum e)) 4 = .ok (b e)) →
    (∀ e, bad e ↔ maskHas m e = true ∧ ¬(leNat (b e) % 4 = 0 ∧
      ∃ x, sectionOf z z.job (streamKind e) = some x ∧ x.off ≤ leNat (b e) ∧ leNat (b e) < x.off + x.bytes)) →
    ((getX s a).toNat % 16 = 0 → (∀ e, ¬bad e) →
      ((∀ e, maskHas m e = true → (s.job.eng e).stopped = true ∧ ∀ q ∈ (s.job.eng e).pipe, q.isOp = false) →
        ∃ t, exec (.strt m a) s = .next t ∧ t.job.pc = s.job.pc + 4 ∧ Job.sameRegs s.job t.job ∧ sameBytes (drain (repliesTaken z)) t ∧
          ∀ e, t.job.eng e = if maskHas m e = true then
            { s.job.eng e with pc := leNat (b e), stopped := false, frames := [], wait := .ready,
                               arrivals := max (s.job.eng e).arrivals s.job.rendezvous } else s.job.eng e) ∧
      (∀ e, maskHas m e = true → (s.job.eng e).quiet = false →
        (∀ f, engineNum f < engineNum e → maskHas m f = true → (s.job.eng f).quiet = true) →
        ∃ t, exec (.strt m a) s = .next t ∧ t.job.pc = s.job.pc ∧ Job.sameRegs s.job t.job ∧
          t.job.wait = .starting ((engines.filter fun f => maskHas m f && engineNum e ≤ engineNum f).map fun f => (f, leNat (b f))) ∧
          ∀ f, t.job.eng f = if maskHas m f = true ∧ engineNum f < engineNum e then
            { s.job.eng f with pc := leNat (b f), stopped := false, frames := [], wait := .ready,
                               arrivals := max (s.job.eng f).arrivals s.job.rendezvous } else s.job.eng f)) ∧
    ((getX s a).toNat % 16 = 0 → (∃ e, bad e) →
      ∃ e, bad e ∧ exec (.strt m a) s = .next (raise (repliesTaken z) .queueMisuse (BitVec.ofNat 64 (leNat (b e))))) ∧
    ((getX s a).toNat % 16 ≠ 0 → exec (.strt m a) s = .next (raise s .misaligned (getX s a)))

/-- R75, R94, R97: JOIN arrives and waits; a rendezvous at which all have arrived and no operation is left completes, and where every
engine stream is stopped it is the final one; YIELD goes on at once, or waits until 256 clocks have passed or the other stream waits. -/
def Obligations.Rendezvous : Prop :=
  ∀ (s : State) (others : Prop),
    (others ↔ ∃ k ∈ jobsOn s s.job.core, k.id ≠ s.job.id ∧ k.resident = true ∧ k.wait.ends = false) →
    (∃ t, exec .join s = .next t ∧ t.job.arrivals = s.job.arrivals + 1 ∧ t.job.wait = .joined ∧ t.job.pc = s.job.pc ∧
      Job.sameRegs s.job t.job ∧ sameBytes (drain s) t) ∧
    (s.job.id ≠ 0 → s.job.st = .running → s.job.wait = .joined → s.job.rendezvous < s.job.arrivals →
      (∀ e, ((s.job.eng e).stopped = true ∨ s.job.rendezvous < (s.job.eng e).arrivals) ∧ ∀ q ∈ (s.job.eng e).pipe, q.isWork = false) →
      ∃ j, exec (.rendezvousComplete s.job.id) s = .next { s with job := j } ∧ j.rendezvous = s.job.rendezvous + 1 ∧
        (∀ e, j.eng e = { s.job.eng e with arrivals := max (s.job.eng e).arrivals (s.job.rendezvous + 1) }) ∧
        ((∃ e, (s.job.eng e).stopped = false) →
          j = { s.job with rendezvous := j.rendezvous, pc := s.job.pc + 4, wait := .ready, ld := j.ld, mx := j.mx, vx := j.vx, st' := j.st' }) ∧
        ((∀ e, (s.job.eng e).stopped = true) →
          j = { s.job with rendezvous := j.rendezvous, retiring := true, ld := j.ld, mx := j.mx, vx := j.vx, st' := j.st' })) ∧
    (others → exec .yield s = .next (waitsAt s (.yielding s.clock))) ∧
    (¬others → exec .yield s = .next (wentTo s (s.job.pc + 4))) ∧
    (∀ t0, s.job.id ≠ 0 → s.job.st = .running → s.job.wait = .yielding t0 → (256 ≤ s.clock - t0 ∨ ¬others) →
      exec (.yieldTimeout s.job.id) s = .next (wentTo s (s.job.pc + 4)))

/-- R76: a job whose final rendezvous has completed and whose work is done retires: its registers are gone, its channels are unbound, its
launch counts it, and its own barriers that owe nothing and that no other job holds are idle. Where no job has stores pending, memory is as it
was, but for a scratchpad's banks that power state 2 gates (R389). -/
def Obligations.Retirement : Prop :=
  ∀ (s : State), s.job.id ≠ 0 → mayRetire s s.job = true → s.job.stores = [] →
    ∃ t, exec (.jobRetire s.job.id) s = .next t ∧ t.job = Job.blank ∧ (∀ c ∈ t.chans, c.job ≠ s.job.id) ∧
      findLaunch t s.job.launch = (findLaunch s s.job.launch).map (fun l => { l with retired := l.retired + 1 }) ∧
      (∀ b ∈ s.job.barriers, (barOf s b).owed = 0 → (∀ k ∈ s.jobs, b ∉ k.barriers) → ∀ x, (b, x) ∉ t.barriers) ∧
      (∀ r ∈ t.rbuf, r.unit ≠ .ctl s.job.id) ∧
      ((∀ k ∈ s.jobs, k.stores = []) → t.hbm = s.hbm ∧ t.ddr = s.ddr ∧ t.host = s.host ∧ (s.powerState ≠ 2 → t.spad = s.spad))

/-- R319, R322, R323: a trap of the control stream, none pending before it, enters the handler at TVEC with its cause code, its value, and
the PC to which ERET returns; without a handler, and while the handler runs, it goes to Dvorol and the stream stops with HND = 1. A
pending trap of another unit is delivered the same way. Stops are delivered in the order of their clocks, those of one clock in ascending
order of STREAM, of one engine the operation before the word, and of several blocks or collectives the oldest first; what a fault log has brought
(R336) stays before every trap that comes later. A trap of the control stream in a drain joins the pending list (R329). What the stream waited for is abandoned, with what it has requested and read:
a launch that waits for its queue leaves it (R96). -/
def Obligations.Traps : Prop :=
  (∀ (s u : State) (c : Cause) (v pc prog : Word) (j : Job), j = { s.job with wait := .ready, waitaFrom := none, darn := s.job.darn.filter DarnRun.holds } →
    u = givenUp s → s.job.wait ≠ .joined → s.job.st ≠ .draining →
    (s.job.hnd = false → s.job.pending = [] → s.job.handled →
      raiseAt s c v pc prog = { u with job := j.inHandler (ownTrap c v pc prog) pc [] } ∧
      ∀ i : BitVec 14, exec (.trap i) s = .next { u with job := j.inHandler (ownTrap .brk (i.setWidth 64) (s.job.pc + 4) 0) (s.job.pc + 4) [] }) ∧
    (s.job.hnd = false → s.job.pending = [] → ¬s.job.handled →
      (raiseAt s c v pc prog).job = { j.inHandler (ownTrap c v pc prog) pc [] with
        pc := s.job.pc, wait := .dvorol .escalated (c.code.setWidth 64) }) ∧
    (s.job.hnd = true → (raiseAt s c v pc prog).job = { s.job with wait := .dvorol .doubleTrap (c.code.setWidth 64) }) ∧
    (∀ t r, s.job.hnd = false → insertTrap { ownTrap c v pc prog with clock := s.clock } s.job.pending = t :: r → s.job.handled →
      raiseAt s c v pc prog = { u with job := j.inHandler t (if t.stream = 0 then t.pc else s.job.pc) r }) ∧
    (∀ t r, s.job.hnd = false → s.job.pending = t :: r → s.job.handled → s.job.id ≠ 0 → s.job.st = .running → atBoundary s s.job = true →
      exec (.trapDivert s.job.id) s = .next { u with job := j.inHandler t (if t.stream = 0 then t.pc else s.job.pc) r })) ∧
  (∀ (s : State) (c : Cause) (v pc prog : Word), s.job.hnd = false → s.job.wait ≠ .joined → s.job.st = .draining →
    raiseAt s c v pc prog = { s with job := { s.job with
      pending := insertTrap { ownTrap c v pc prog with clock := s.clock } s.job.pending
      wait := .ready, waitaFrom := none, darn := s.job.darn.filter DarnRun.holds } }) ∧
  (∀ (t : Trap) (l : List Trap), (insertTrap t l).Perm (t :: l)) ∧
  (∀ (t : Trap) (l : List Trap) (before : Trap → Trap → Prop),
    (∀ a b, before a b ↔ a.clock < b.clock ∨ (a.clock = b.clock ∧
      (a.stream.toNat < b.stream.toNat ∨ (a.stream = b.stream ∧ ((a.word = false ∧ b.word = true) ∨ (a.word = b.word ∧ a.age ≤ b.age)))))) →
    l.Pairwise before → (∀ a ∈ l, a.clock ≤ t.clock ∧ a.cause ≠ .absentContext) → (insertTrap t l).Pairwise before) ∧
  (∀ (t u : Trap) (l r : List Trap), u.cause = .absentContext → insertTrap t (l ++ u :: r) = l ++ u :: insertTrap t r)

/-- R324 to R328: TFENCE waits for the engines and then takes the flags that FMASK selects as ARITH; ERET returns to TPC and restarts the
engine where the trap that returns had stopped it, at its word or at its operation; ESC hands the trap to Dvorol; ERET and ESC outside a
handler are illegal. When TFENCE ends is the reading of log entry 55 (DEDUCED): each engine's operation has stopped at a trap, or the engine has
none left and is at a trapped word, stopped or idle. -/
def Obligations.TrapReturn : Prop :=
  ∀ (s : State) (v : BitVec 7), v = s.job.flags &&& s.job.fmask →
    ((∀ e, (s.job.eng e).fenced = true) → v = 0 → ∃ t, exec .tfence s = .next t ∧ t.job.pc = s.job.pc + 4 ∧ Job.sameRegs s.job t.job ∧
      sameBytes (drain s) t) ∧
    ((∀ e, (s.job.eng e).fenced = true) → v ≠ 0 → exec .tfence s = .next (raiseAt (drain s) .arith (v.setWidth 64) (s.job.pc + 4))) ∧
    ((∃ e, (s.job.eng e).fenced = false) → exec .tfence s = .next (waitsAt s .fence)) ∧
    (∀ x : EngStream, x.fenced = true ↔ x.opHalt = .trapped ∨ ((∀ q ∈ x.pipe, q.isOp = false) ∧
      (x.halt = .trapped ∨ x.stopped = true ∨ (x.wait = .segment ∧ ∀ q ∈ x.queue, ∀ w t, q ≠ .seg w t)))) ∧
    (s.job.hnd = false → exec .eret s = .next (raise s .illegalInstr 0xC4000000) ∧ exec .esc s = .next (raise s .illegalInstr 0xC6000000)) ∧
    (s.job.hnd = true → s.job.tpc.toNat % 4 ≠ 0 → exec .eret s = .next (raise s .misaligned s.job.tpc)) ∧
    (s.job.hnd = true → s.job.tpc.toNat % 4 = 0 → s.job.stores = [] →
      ∀ u, u = passOuts s (.ctl s.job.id) (fun k => k != s.job.tpc) →
      (s.job.tstream = 0 → exec .eret s = .next { u with job := { s.job with hnd := false, pc := s.job.tpc, wait := .ready } }) ∧
      ∀ e, s.job.id ≠ 0 → s.job.tstream.toNat = engineNum e + 1 → ∃ j, exec .eret s = .next { u with job := j } ∧
        j.hnd = false ∧ j.pc = s.job.tpc ∧ j.wait = .ready ∧ Job.sameRegs { s.job with hnd := false } j ∧
        (∀ f, f ≠ e → j.eng f = s.job.eng f) ∧
        j.eng e = if s.job.tword = true then
            if (s.job.eng e).halt = .trapped then { s.job.eng e with halt := .going } else s.job.eng e
          else if (s.job.eng e).opHalt = .trapped then { s.job.eng e with opHalt := .going } else s.job.eng e) ∧
    (s.job.hnd = true → ∃ t, exec .esc s = .next t ∧ t.job = { s.job with wait := .dvorol .escalated (s.job.tcause.setWidth 64) })

/-- R80 to R87, R96: LAUNCH enqueues an admitted launch after the earlier stores, and waits where the queue has no room; a launch that is
not admitted traps with its code. A launch that waits for room enters its queue when it has it. That LAUNCH takes a CSYNC beyond the job's
allotment for a BARRIER_MISUSE (R92, R247), and not for a record refused with code 1, is the reading of log entry 41 (DEDUCED), and that a launch
without jobs takes no entry of its queue is log entry 63 (DESIGN CHOICE). -/
def Obligations.LaunchEnqueue : Prop :=
  ∀ (s u : State) (a b : Reg) (q : Fin 16) (l : Launch), u = drain s →
    ((getX s a).toNat % 64 = 0 → (getX s b).toNat = q.val →
      ∀ raw x, checkLaunch u (ctlParty u 0) (getX s a) q.val (some u.job.shapes) (.job u.job.id) u.job.barAt = .ok (raw, x) →
        (x = .ok l → launchRoom u l = true → (queueOf u l.queue).waiting = [] → ∃ t n, exec (.launch a b) s = .next t ∧
          t.job.pc = s.job.pc + 4 ∧ Job.sameRegs s.job t.job ∧ sameBytes u t ∧ t.launches = u.launches ++ [n] ∧
          n = { l with id := u.nextLaunch, time := u.nextLaunch, idx := n.idx }) ∧
        (x = .ok l → (launchRoom u l = false ∨ (queueOf u l.queue).waiting ≠ []) → exec (.launch a b) s = .next (waitsAt
          (putQueue (repliesTaken u) l.queue { queueOf u l.queue with waiting := (queueOf u l.queue).waiting ++ [l] }) .enqueueing)) ∧
        (∀ n, x = .error (.code n) → exec (.launch a b) s = .next (raise (repliesTaken u) .queueMisuse (BitVec.ofNat 64 n))) ∧
        (∀ o, x = .error (.csync o) → exec (.launch a b) s = .next (raise (repliesTaken u) .barrierMisuse (o.code.setWidth 64)))) ∧
    ((getX s a).toNat % 64 ≠ 0 → exec (.launch a b) s = .next (raise s .misaligned (getX s a))) ∧
    ((getX s a).toNat % 64 = 0 → 15 < (getX s b).toNat → exec (.launch a b) s = .next (raise s .queueMisuse 3)) ∧
    (∀ r, (queueOf s q.val).waiting = l :: r → l.queue = q.val →
      (launchRoom s l = true → ∃ t n, exec (.enqueueResume q) s = .next t ∧ t.launches = s.launches ++ [n] ∧
        n = { l with id := s.nextLaunch, time := s.nextLaunch, idx := n.idx } ∧ (queueOf t q.val).waiting = r ∧
        ((queueOf t q.val).entries = if l.jobs = 0 then (queueOf s q.val).entries else (queueOf s q.val).entries ++ [s.nextLaunch]) ∧
        (s.job.id ≠ 0 → l.source = .job s.job.id → t.job.pc = s.job.pc + 4 ∧ t.job.wait = .ready)) ∧
      (launchRoom s l = false → exec (.enqueueResume q) s = .next s))

/-- R73, R74, R85, R88: the launch to be placed next is placed whole, every job with its start values, and its jobs start together; where
banks of its regions are gated or waking, they are woken first and nothing is placed (R244). A job starts with x10 to x13 from its record, x14
from its tile record or zero, x15 the record's address, and every other register zero. R89: when every job has retired, the status of 16 bytes
is written, then the launch's barrier takes its arrival, then the flag is written, and the launch is gone; until then nothing happens. That the
spad section is read at placement and that the completion waits for the answers of peers are readings of log entry 18 (DEDUCED), and that an
event brings the places is log entry 60 (DESIGN CHOICE). -/
def Obligations.LaunchLife : Prop :=
  (∀ (s : State) (l : Launch),
     (∀ places bars data, nextPlaced s = some l → hubWaiting s (hubParty l.asid (.launch l.id)) = false → places.length = l.jobs → seatsOk s (demandOf l.raw) [] places = true →
       groupsOk l places = true → ownBarsOk s l.raw places = true → (∀ r ∈ seatRegions l places, regionAwake s r.1 r.2.1 r.2.2 = true) →
       levelBarsFrom places l.counts l.raw (levelGroups l) (places.flatMap placeAllBars ++ barsTaken s) = some bars →
       spadSection s l = .ok data →
       ∃ t, exec (.launchPlace places) s = .next t ∧ t.nextJob = s.nextJob + l.jobs ∧
         t.launches = s.launches.map (fun x => if x.id = l.id then { x with placed := true } else x) ∧
         t.jobs = places.zipIdx.foldl (fun js p => insertJob
           (newJob l (s.nextJob + p.2) p.2 p.1 (jobLevelBars l bars p.2) (partnerId l s.nextJob p.2)) js) s.jobs ∧
         t.job = s.job ∧ t.hbm = s.hbm ∧ t.ddr = s.ddr ∧ t.host = s.host) ∧
     (∀ (places : List Seat) (inRegion : Nat × Nat → Prop), nextPlaced s = some l → hubWaiting s (hubParty l.asid (.launch l.id)) = false →
       places.length = l.jobs → seatsOk s (demandOf l.raw) [] places = true → groupsOk l places = true → ownBarsOk s l.raw places = true →
       (∀ q, inRegion q ↔ ∃ r ∈ seatRegions l places, q.1 = r.1 ∧ q.2 ∈ regionBanks r.2.1 r.2.2) →
       (∃ r ∈ seatRegions l places, regionAwake s r.1 r.2.1 r.2.2 = false) →
       ∃ t, exec (.launchPlace places) s = .next t ∧ t = { s with gated := t.gated, waking := t.waking } ∧
         (∀ q, q ∈ t.gated ↔ q ∈ s.gated ∧ ¬inRegion q) ∧
         ∀ w, w ∈ t.waking ↔ w ∈ s.waking ∨ ∃ q ∈ s.gated, inRegion q ∧ w = (q.1, q.2, s.clock + 2048)) ∧
     (∀ id k p bars partner j, j = newJob l id k p bars partner →
       j.st = .placed ∧ j.pc = bits l.raw 0 64 + (bits l.raw 64 32).setWidth 64 ∧ j.x[(0 : Fin 32)] = 0 ∧
       (∀ i : Fin 4, j.x.toList[10 + i.val]? = some (l.raw.extractLsb' (1792 + 64 * i.val) 64)) ∧ j.x[(15 : Fin 32)] = l.addr ∧
       (levSel l.raw 0 = 2 → ∀ t, l.tiles[levelIndex l k 0]? = some t → j.x[(14 : Fin 32)] = t.arg) ∧
       (levSel l.raw 0 ≠ 2 → j.x[(14 : Fin 32)] = 0) ∧
       (∀ i : Fin 32, (i.val < 10 ∨ 15 < i.val) → j.x[i] = 0) ∧ j.flags = 0 ∧ j.fmask = 0 ∧ j.hnd = false ∧ j.tvec = 0 ∧ j.wait = .ready ∧
       (∀ e, (j.eng e).queue = [] ∧ (j.eng e).frames = [] ∧ ((j.eng e).stopped = true ↔ (j.eng e).pc = 0))) ∧
     (∀ id, findLaunch s id = some l → l.placed = true → l.started = false →
       exec (.jobStart id) s = .next { s with
         job := if s.job.id ≠ 0 ∧ s.job.launch = id ∧ s.job.st = .placed then { s.job with st := .running } else s.job
         jobs := s.jobs.map fun j => if j.launch = id ∧ j.st = .placed then { j with st := .running } else j
         launches := s.launches.map fun x => if x.id = id then { x with started := true } else x })) ∧
  (∀ (s u v w : State) (id : Nat) (l : Launch) (p : Party) (st : Word) (flag : Prop), findLaunch s id = some l →
     p = hubParty l.asid (.launch id) → st = l.raw.extractLsb' 704 64 → (flag ↔ (l.raw.extractLsb' 656 8).toNat / 2 = 1) →
     (l.started = true → l.retired = l.jobs → (∀ o ∈ s.outs, messageOf id o = false) → (∀ n, l.source ≠ .graph n) →
       (st = 0 ∧ u = s) ∨ (st ≠ 0 ∧ hubWaiting s p = false ∧
         writeBytes s p (.va st) (leBytes 4 l.retired ++ leBytes 4 l.skipped ++ leBytes 2 l.refs ++ leBytes 6 0) = .ok u) →
       (l.csync = none ∧ v = u) ∨ (∃ b y, l.csync = some b ∧ barEvent u b (.arrive 1) = some y ∧ v = barPaid y b) →
       (¬flag ∧ w = v) ∨ (flag ∧ hubWaiting v p = false ∧
         writeBytes v p (.va (l.raw.extractLsb' 512 64)) (leBytes 8 (l.raw.extractLsb' 576 64).toNat) = .ok w) →
       exec (.launchCompletion id) s = .next { w with
         launches := w.launches.filter (fun x => x.id != id), rbuf := w.rbuf.filter fun r => r.unit != Unit.launch id } ∧
       ∀ b, l.csync = some b → barTakes u b → 1 ≤ (barOf u b).start.arrive.toNat →
         otherBars u v b ∧ barOf v b = { (barOf u b).arrived 1 with owed := (barOf u b).owed - 1 } ∧ sameBytes u v) ∧
     (l.started = false ∨ l.retired ≠ l.jobs ∨ (∃ o ∈ s.outs, messageOf id o = true) → exec (.launchCompletion id) s = .next s))

/-- R99, R100: what each kind of node of a running graph does, and how it completes: its successors are decremented, and a successor that
reaches 0 starts. R101: a COND whose successor stands at or below it waits until no other node from that one on runs, and then resets the pending
counts from there on, adds 1 to the run count and decrements its successor; beyond MAXRUN the graph ends with status 3. R102: a graph ends with
status 0 at its END, and with status 1 where nothing runs; its 16 bytes of status are written where it has an address for them. A WAIT on a memory
tub is over once the tub has fired since the node started. That one whose count is 0 already is not started again is the reading of log entry 44
(DEDUCED); that COND and HOST read under the page's policy, and that WAIT looks at the phase in each turn, is that of log entry 45 (DEDUCED), and that
it looks at the phase as the clock began is log entry 12 (DESIGN CHOICE); that a graph which ends with status 3 names that COND as its last node is log
entry 57 (DEDUCED). -/
def Obligations.GraphNodes : Prop :=
  ∀ (s : State) (asid : BitVec 16) (g k : Nat) (x : Graph) (n : GNode) (r : NodeRef),
    graphOf s asid g = some x → x.nodes[k]? = some n → x.running = true → n.running = true → r = nodeRef x k →
    hubWaiting s (hubParty asid (.node r)) = false →
    (n.done = true → exec (.graphNodeComplete asid g k) s = .next (finishNode s s x k (nodeSucc n.raw))) ∧
    (n.done = false →
      (nodeKind n.raw = 1 → n.mark = 0 → ∀ t, enqueueFor s asid (n.raw.extractLsb' 128 64) (nodeF n.raw 24 1) (.graph r) (.node r) = .done t →
        exec (.graphNodeJobs asid g k) s = .next (putGraph t (x.withNode k { n with mark := 1 }))) ∧
      (nodeKind n.raw = 2 → chanOf s (nodeF n.raw 24 2) (nodeF n.raw 26 1) = none →
        (n.mark = 0 → (n.raw.extractLsb' 128 64).toNat % 128 = 0 → exec (.graphNodeCopy asid g k) s =
          .next (putGraph (putChan s (graphChan (nodeF n.raw 24 2) (nodeF n.raw 26 1) (n.raw.extractLsb' 128 64) r)) (x.withNode k { n with mark := 1 }))) ∧
        (n.mark = 1 → exec (.graphNodeCopy asid g k) s = .next (putGraph s (x.withNode k { n with done := true })))) ∧
      (nodeKind n.raw = 3 → n.mark = 0 → ∀ d v c, readData s (hubParty asid (.node r)) (.va (n.raw.extractLsb' 128 64)) 8 none = .ok d →
        v = BitVec.ofNat 64 (leNat (d.map Prod.fst)) → c = n.raw.extractLsb' 192 64 → ∀ holds : Prop,
        (holds ↔ match nodeF n.raw 32 1 with
          | 0 => v = c
          | 1 => v ≠ c
          | 2 => v.toInt < c.toInt
          | 3 => c.toInt ≤ v.toInt
          | 4 => v.toNat < c.toNat
          | _ => c.toNat ≤ v.toNat) →
        ∀ m t y u (busy : Bool), (busy = true ↔ ∃ i w, t ≤ i ∧ i ≠ k ∧ x.nodes[i]? = some w ∧ w.running = true) → (holds → m = 1 ∧ t = nodeF n.raw 4 2) → (¬holds → m = 2 ∧ t = nodeF n.raw 6 2) → 2 ≤ nodeF n.raw 1 1 →
          y = x.withNode k { n with mark := m } → u = putGraph (takeReplies s (.node r)) y → exec (.graphNodeCond asid g k) s = .next (
            if k < t then finishNode u u y k [t]
            else if busy = true then u
            else if x.maxRun ≠ 0 ∧ x.maxRun < x.runs + 1 then endGraph u u y k 3
            else finishNode u u { y.rearmed t with runs := x.runs + 1 } k [t])) ∧
      (nodeKind n.raw = 3 → ∀ t (busy : Bool), (busy = true ↔ ∃ i w, t ≤ i ∧ i ≠ k ∧ x.nodes[i]? = some w ∧ w.running = true) → (n.mark = 1 ∧ t = nodeF n.raw 4 2) ∨ (n.mark = 2 ∧ t = nodeF n.raw 6 2) → 2 ≤ nodeF n.raw 1 1 →
        exec (.graphNodeCond asid g k) s = .next (
          if k < t then finishNode s s x k [t]
          else if busy = true then s
          else if x.maxRun ≠ 0 ∧ x.maxRun < x.runs + 1 then endGraph s s x k 3
          else finishNode s s { x.rearmed t with runs := x.runs + 1 } k [t])) ∧
      (nodeKind n.raw = 4 → (nodeF n.raw 32 4 ≤ n.mark → exec (.graphNodeHost asid g k) s = .next (putGraph s (x.withNode k { n with done := true }))) ∧
        (n.mark < nodeF n.raw 32 4 → (ringOf s (nodeF n.raw 16 1)).waiting = [] → (ringOf s (nodeF n.raw 16 1)).room = true → ∀ d,
          readData s (hubParty asid (.node r)) (.va (BitVec.ofNat 64 (nodeF n.raw 24 8 + 64 * n.mark))) 64 none = .ok d →
          exec (.graphNodeHost asid g k) s =
            .next (putGraph (ringWrite (takeReplies s (.node r)) (nodeF n.raw 16 1) (BitVec.ofNat 512 (leNat (d.map Prod.fst))))
              (x.withNode k { n with mark := n.mark + 1, done := decide (nodeF n.raw 32 4 ≤ n.mark + 1) })))) ∧
      (nodeKind n.raw = 5 → ∀ c b p, contextOf s asid = some c → nodeWait c n.raw = some (.bar b p) →
        exec (.graphNodeWait asid g k) s =
          .next (if (barOf s b).start.phase = p then s else putGraph s (x.withNode k { n with done := true }))) ∧
      (nodeKind n.raw = 5 → ∀ c t, contextOf s asid = some c → nodeWait c n.raw = some (.tub t) →
        (startNode s asid n).mark = (tubOf s t).fired ∧ exec (.graphNodeWait asid g k) s =
          .next (if (tubOf s t).fired ≤ n.mark then s else putGraph s (x.withNode k { n with done := true }))) ∧
      (nodeKind n.raw = 6 → ∀ t, writeBytes s (hubParty asid (.node r)) (.va (n.raw.extractLsb' 128 64)) (toBytes (n.raw.extractLsb' 192 64)) = .ok t →
        exec (.graphNodeEnd asid g k) s = .next (endGraph s t x k 0)) ∧
      (nodeKind n.raw = 6 → x.status = 0 → ∀ t, writeBytes s (hubParty asid (.node r)) (.va (n.raw.extractLsb' 128 64))
          (toBytes (n.raw.extractLsb' 192 64)) = .ok t →
        exec (.graphNodeEnd asid g k) s = .next (takeReplies (putGraph t { x with
          running := false, result := 0, last := k, nodes := x.nodes.map fun m => { m with running := false } }) (.node r)))) ∧
    (∀ b t v st, v = (if x.status = 0 then some t else
        match writeBytes t (hubParty x.asid (.node r)) (.va x.status) (leBytes 4 x.runs ++ leBytes 2 st ++ leBytes 2 k ++ leBytes 8 0) with
        | .ok w => some w
        | .error _ => none) → (x.status = 0 ∨ hubWaiting t (hubParty x.asid (.node r)) = false) → ∀ w, v = some w →
      endGraph b t x k st = takeReplies (putGraph w { x with
        running := false, result := st, last := k, nodes := x.nodes.map fun m => { m with running := false } }) (.node r)) ∧
    ((∀ i w, i ≠ k → x.nodes[i]? = some w → w.running = false) →
      finishNode s s x k [] = endGraph s s { x with last := k, nodes := x.nodes.set k { n with running := false, done := false } } k 1) ∧
    (∀ m j m', j ≠ k → x.nodes[j]? = some m →
      m' = (if m.pending = 1 then startNode s x.asid { m with pending := 0 } else { m with pending := m.pending - 1 }) → (∃ i w, i ≠ k ∧ i ≠ j ∧ x.nodes[i]? = some w ∧ w.running = true) →
      ∃ y, finishNode s s x k [j] = takeReplies (putGraph s y) (.node r) ∧
        y = { x with last := k, nodes := (x.nodes.set k { n with running := false, done := false }).set j m' })

/-- R338, R343, R345, R349: a request that the lint filter lets through and the peer permission table admits acts once on its tier and is
answered; one that no entry admits, that reaches outside the tier, that comes again, or that is of another epoch acts on nothing. R302: a
write to a page that is being moved, and a request behind it of its party and class, are kept, and act when the page is released. R85, R86,
R350, R352: a launch message enqueues its group where the launch is admitted, and answers with the code where it is not; a wringer packet
replaces the sender's part of the collective. The nibble and scatterAdd requests and the flags in a result are the model's own (log entries 22 and
30), and so are the packets and parts of the wringer (log entry 17), code 1 for a CSYNC (log entry 62), and that a held request has no fault
record (log entry 19). -/
def Obligations.RemoteRequests : Prop :=
  (∀ (i : Instr) (s : State) (q : Request) (sp : Space) (held : Prop), brings i q → sp = reqTier q →
     (∀ a b c d e f g, q.op ≠ .launch a b c d e f g) → (∀ a b, q.op ≠ .wringer a b) →
     (held ↔ (q.op ≠ .load ∧ ∃ w ∈ s.works, w.moves q = true) ∨ guarded s (sender s q) (Request.span q) = true ∨ ∃ h ∈ s.heldReqs, h.src = q.src ∧ h.party = q.party ∧ h.cls = q.cls) →
     (freshRequest s q → admitted s q = true → held → (∀ h ∈ s.heldReqs, ¬(h.src = q.src ∧ h.seq = q.seq)) →
       exec i s = .next { s with heldReqs := s.heldReqs ++ [q] }) ∧
     (∀ k d bad, s.heldReqs[k]? = some q → q.op = .store d bad → freshRequest s { q with epoch := s.epoch } →
       (∀ w ∈ s.works, w.moves q = false) → guarded s (sender s q) (Request.span q) = false → (∀ h ∈ s.heldReqs.take k, ¬(h.src = q.src ∧ h.party = q.party ∧ h.cls = q.cls)) →
       ∃ t, act (.released k) s = .next t ∧ t.heldReqs = s.heldReqs.eraseIdx k ∧ bytesStored s t sp q.pa none d ∧
         answeredWith s t (answer s q 0 0 [] false)) ∧
     (freshRequest s q → admitted s q = true → ¬held → q.pa + q.size ≤ tierBytes s q.ddr →
       (q.op = .load → ∃ t, exec i s = .next t ∧ sameBytes s t ∧ answeredWith s t (
         if lineBad s sp q.pa = false then answer s q 0 0 (getBytes s sp q.pa q.size) false
         else if q.poison = .trap then answer s q 2 0 [] false
         else answer s q 0 0 (List.replicate q.size 0) true)) ∧
       (∀ d bad, q.op = .store d bad → ∃ t, exec i s = .next t ∧ bytesStored s t sp q.pa none d ∧ answeredWith s t (answer s q 0 0 [] false)) ∧
       (∀ high v old, q.op = .nibble high v → old = (getByte s sp q.pa).toNat → ∃ t, exec i s = .next t ∧
         bytesStored s t sp q.pa none [BitVec.ofNat 8 (if high then old % 16 + v.toNat * 16 else old / 16 * 16 + v.toNat)] ∧
         answeredWith s t (answer s q 0 0 [] false)) ∧
       (∀ old new, old = BitVec.ofNat 64 (leNat (getBytes s sp q.pa q.size)) →
         ((∃ op v, q.op = .amo op v ∧ new = some (amoValue op old v)) ∨
           (∃ a b c, q.op = .cas a b c ∧ new = if old = b then some a else none)) →
         (lineBad s sp q.pa = false → ∃ t, exec i s = .next t ∧ answeredWith s t (answer s q 0 old [] false) ∧
           match new with
           | some v => bytesStored s t sp q.pa none (leBytes q.size v.toNat)
           | none => sameBytes s t) ∧
         (lineBad s sp q.pa = true → ∃ t, exec i s = .next t ∧ sameBytes s t ∧ answeredWith s t (answer s q 2 0 [] false))) ∧
       (∀ op f mode sat d bad, q.op = .reduce op f mode sat d bad → (∀ k, k < q.size → lineBad s sp (q.pa + k) = false) → d.length = q.size → ∃ t, exec i s = .next t ∧
         bytesStored s t sp q.pa none (combineBytes op f mode sat (getBytes s sp q.pa d.length) d) ∧
         answeredWith s t (answer s q 0 0 [] false)) ∧
       (∀ mem reg mode sat v w fl, q.op = .scatterAdd mem reg mode sat v → lineBad s sp q.pa = false →
         staSum mode sat reg mem (leNat (getBytes s sp q.pa q.size)) v.toNat = (w, fl) → ∃ t, exec i s = .next t ∧
         bytesStored s t sp q.pa none (leBytes q.size w) ∧ answeredWith s t (answer s q 0 (fl.setWidth 64) [] false))) ∧
     (freshRequest s q → admitted s q = false → ∃ t, exec i s = .next t ∧ sameBytes s t ∧ answeredWith s t (answer s q 1 0 [] false)) ∧
     (freshRequest s q → admitted s q = true → ¬held → tierBytes s q.ddr < q.pa + q.size →
       ∃ t, exec i s = .next t ∧ sameBytes s t ∧ answeredWith s t (answer s q 3 0 [] false)) ∧
     (∀ r, q.epoch = s.epoch → ((srcWindow s q.src).ack q.ackb).done.find? (fun d => d.1 == q.seq) = some (q.seq, r) →
       ∃ t, exec i s = .next t ∧ sameBytes s t ∧ answeredWith s t r) ∧
     (q.epoch ≠ s.epoch → ∃ t, exec i s = .next t ∧ sameBytes s t ∧ answeredWith s t (answer s q 4 0 [] false))) ∧
  (∀ (s : State) (q : Request), freshRequest s q →
     (∀ k addr raw counts tiles skips idx, q.op = .launch k addr raw counts tiles skips idx → ∀ a,
       a = admitLaunch (windowMoved s q) q.asid addr (ofBytes 2048 raw) k counts tiles skips idx (.peer q.src)
         (fun o => (contextOf s q.asid).bind fun c => c.barAt o) →
       (∀ l, a = .ok l → ∃ t, exec (.jaileLaunchMessage q) s = .next t ∧ answeredWith s t (answer s q 0 0 [] false) ∧
         t.queues = (enqueueOr (windowMoved s q) l).queues ∧ t.launches = (enqueueOr (windowMoved s q) l).launches) ∧
       (∀ n, (a = .error (.code n) ∨ n = 1 ∧ ∃ o, a = .error (.csync o)) → ∃ t, exec (.jaileLaunchMessage q) s = .next t ∧
         answeredWith s t (answer s q 0 (BitVec.ofNat 64 n) [] false) ∧ t.queues = s.queues ∧ t.launches = s.launches)) ∧
     (∀ tag part, q.op = .wringer tag part →
       (partAsked s { dev := q.src, asid := q.asid, tag, part } = none ∨ roomTo s q.src = true) → ∃ t, exec (.wringerTraffic q) s = .next t ∧ answeredWith s t (answer s q 0 0 [] false) ∧
       sameBytes s t ∧ t.parts = (s.parts.filter fun x => !(x.dev == q.src && x.asid == q.asid && x.tag == tag && x.part.num == part.num)) ++
         [{ dev := q.src, asid := q.asid, tag, part }]))

/-- R340 to R342: a flit whose CRC is right and whose LSEQ is the next one enters its packet, and acknowledges the flits up to its LACK;
one that is dropped asks for a replay, unless one is asked for already, and a replay sends the flits from that one on again; after eight replays
of one flit its next loss, or the ninth replay, takes the link down; a link that may, whose partner has agreed in training (R385), comes up, and
goes down, with empty buffers. R343, R344,
R346, R347: a response ends its request; a request without one is sent again after 50 µs, with the ACKB and the epoch of that moment, unless an earlier one of its party, class and
target has no response yet (R318, R349), and fails after 40 sends, the SEQ of a launch message staying reserved; a RESYNC of a new epoch drops the window and the sequence of its device, and one
without an answer is sent again. That the ninth loss takes the link down, that LSEQ restarts, requests to the own index, and failing at the next
resend are readings of log entry 49 (DEDUCED), and so is that what follows an unanswered request in order waits for its answer; that only a port whose
partner has agreed comes up is log entry 23 (DEDUCED), the form of the CRC is log entry 22; that a held request of the device that sends a RESYNC is dropped is log entry 65 (DESIGN CHOICE). -/
def Obligations.Links : Prop :=
  (∀ (s : State) (port : Nat) (f : Flit) (x y : Link) (right : Prop), x = linkOf s port →
     (right ↔ flitCrc f.payload (f.ctl.extractLsb' 32 32) = (f.ctl.extractLsb' 0 32).toNat) →
     y = { x with
       tx := x.tx.filter fun g => 2048 ≤ ((f.ctl.extractLsb' 44 12).toNat + 4096 - (g.ctl.extractLsb' 32 12).toNat) % 4096
       wire := x.wire.filter fun g => 2048 ≤ ((f.ctl.extractLsb' 44 12).toNat + 4096 - (g.ctl.extractLsb' 32 12).toNat) % 4096
       again := if ∃ g ∈ x.tx, 2048 ≤ ((f.ctl.extractLsb' 44 12).toNat + 4096 - (g.ctl.extractLsb' 32 12).toNat) % 4096 ∧
           (g.ctl.extractLsb' 32 12).toNat = x.again.1 then x.again else (x.again.1, 0) } →
     (x.up = false → exec (.flitReceive port f) s = .next s) ∧
     (x.up = true → ¬right → exec (.flitReceive port f) s =
       .next (putLink s port (if x.ask = true then x else if 8 ≤ x.replays then Link.zero else { x with ask := true }))) ∧
     (x.up = true → right → (f.ctl.extractLsb' 32 12).toNat ≠ x.rxNext → exec (.flitReceive port f) s =
       .next (putLink s port (if x.ask = true then y else if 8 ≤ x.replays then Link.zero else { y with ask := true }))) ∧
     (x.up = true → x.ask = true → act (.replayed port) s = .next (putLink s port { x with ask := false, replays := x.replays + 1 })) ∧
     (∀ lseq n, x.up = true → n = (if x.again.1 = lseq then x.again.2 else 0) → act (.replay port lseq) s =
       .next (putLink s port (if 8 ≤ n then Link.zero else { x with
         again := (lseq, n + 1), wire := x.wire ++ x.tx.dropWhile fun g => decide ((g.ctl.extractLsb' 32 12).toNat ≠ lseq) }))) ∧
     (x.up = true → right → (f.ctl.extractLsb' 32 12).toNat = x.rxNext → f.ctl.getLsbD 59 = false → f.ctl.getLsbD 60 = false →
       exec (.flitReceive port f) s = .next (putLink s port { y with
         rxNext := (x.rxNext + 1) % 4096, replays := 0, ask := false
         rx := x.rx.filter (fun p => p.1 != (f.ctl.extractLsb' 56 3).toNat) ++ x.rx.filter (fun p => p.1 == (f.ctl.extractLsb' 56 3).toNat) ++
           [((f.ctl.extractLsb' 56 3).toNat, f.payload)] })) ∧
     (x.up = true → exec (.linkDown port) s = .next (putLink s port Link.zero)) ∧
     (x.up = false → exec (.linkDown port) s = .next s) ∧
     (connected s port = true → port ∈ s.goodPorts → s.powerState ≠ 3 → x.up = false →
       exec (.linkUp port) s = .next (sendWaiting (putLink s port { Link.zero with up := true }))) ∧
     (connected s port = false ∨ port ∉ s.goodPorts ∨ s.powerState = 3 ∨ x.up = true → exec (.linkUp port) s = .next s)) ∧
  (∀ (s : State) (o : Out) (r : Response) (before after : List Out) (dev : BitVec 8) (epoch : BitVec 32),
     (s.outs = before ++ o :: after → o ∉ before → o ∉ after →
       (∀ p ∈ before, ¬(p.req.tgt = o.req.tgt ∧ p.req.seq = o.req.seq)) → o.st = .waiting → o.resynced = false →
       (o.sends ≠ 0 → r.src = o.req.tgt → r.seq = o.req.seq → r.tgt = ownIndex s → o.unit ≠ .gone →
         (o.req.op = .load ∨ ∃ d b, o.req.op = .store d b) → exec (.response r) s =
           .next (sendWaiting { s with outs := before ++ after, rbuf := s.rbuf ++ [{ unit := o.unit, key := o.key, req := o.req, resp := r }] })) ∧
       (o.sends ≠ 0 → s.clock - o.last < 75000 → exec (.requestResend o.req.tgt o.req.seq) s = .next s) ∧
       (o.sends = 0 → inFabric s o.req.tgt = true → exec (.requestResend o.req.tgt o.req.seq) s = .next s) ∧
       (40 ≤ o.sends → 75000 ≤ s.clock - o.last → (o.req.op = .load ∨ ∃ d b, o.req.op = .store d b) →
         exec (.requestResend o.req.tgt o.req.seq) s = .next { s with outs := before ++ { o with st := .failed } :: after }) ∧
       (∀ a b c d e f g id, 40 ≤ o.sends → 75000 ≤ s.clock - o.last → o.req.op = .launch a b c d e f g → o.unit = .launch id →
         exec (.requestResend o.req.tgt o.req.seq) s = .next { s with
           outs := before ++ { o with unit := .gone, st := .reported } :: after
           launches := s.launches.map fun l => if l.id = id then { l with refs := l.refs + 1 } else l }) ∧
       (o.sends ≠ 0 → o.sends < 40 → 75000 ≤ s.clock - o.last → (∃ b ∈ before, b.st = .waiting ∧ b.resynced = false ∧
           b.req.party = o.req.party ∧ b.req.cls = o.req.cls ∧ b.req.tgt = o.req.tgt) → exec (.requestResend o.req.tgt o.req.seq) s = .next s) ∧
       (o.sends ≠ 0 → o.sends < 40 → 75000 ≤ s.clock - o.last → ∀ t q, trySend s before o = some (t, q) →
         q = { o.req with ackb := q.ackb, epoch := lookupD 0 s.epochs o.req.tgt } ∧
         ((s.outs.filter fun p => p.req.tgt == o.req.tgt && !p.resynced).head?.map fun p => p.req.seq) = some q.ackb ∧
         exec (.requestResend o.req.tgt o.req.seq) s =
           .next { t with outs := before ++ { o with req := q, sends := o.sends + 1, last := s.clock } :: after })) ∧
     exec (.resync dev epoch true) s =
       .next { s with epochs := assign s.epochs dev epoch, resyncs := s.resyncs.filter fun q => q.1 != dev } ∧
     ((∀ e ∈ s.epochs, e ≠ (dev, epoch)) → (∀ o ∈ s.outs, o.req.tgt ≠ dev) → ∃ t, exec (.resync dev epoch false) s = .next t ∧
       t.windows = s.windows.filter (fun w => w.src != dev) ∧ t.seqs = s.seqs.filter (fun q => q.1 != dev) ∧
       t.epochs = assign s.epochs dev epoch ∧ t.heldReqs = s.heldReqs.filter (fun h => h.src != dev) ∧ t.outs = s.outs) ∧
     ((dev, epoch) ∈ s.epochs → ∃ t, exec (.resync dev epoch false) s = .next t ∧
       t = { s with links := t.links, outbox := t.outbox }) ∧
     ((∃ c, (dev, true, c) ∈ s.resyncs ∧ 75000 ≤ s.clock - c) → ∃ t, exec (.resyncResend dev) s = .next t ∧
       t = { s with links := t.links, outbox := t.outbox, resyncs := assign s.resyncs dev (true, s.clock) }) ∧
     ((∀ b c, (dev, b, c) ∈ s.resyncs → b = false ∨ s.clock - c < 75000) → exec (.resyncResend dev) s = .next s))

/-- R376 to R380, R382: the queue and ring registers, the notify, which has no effect for a stamp below QNEXT, a command's fetch with its
arguments once its stamp is there, the ring entry and its tail, the interrupt that the N-th entry without a signal raises where RVEC enables it,
and the completion of a command with its status, tag and result. R375, R388: through BAR2 the host reads and writes the byte of device memory that
stands at BAR2's base plus its offset, HBM first and DDR-5 behind it (log entry 20, DESIGN CHOICE), and a write of a whole line clears its poison; an
access outside the window writes nothing. That a notify and RHEAD are ignored where STATE is not 1, that QBASE, QSIZE, RBASE and RTAILA take effect in
every STATE, and that a write of RVEC or RCOAL that leaves N entries without a signal raises the interrupt at once, is the reading of log entry 43
(DEDUCED). -/
def Obligations.HostRegisters : Prop :=
  ∀ (s : State) (q : Fin 64) (k : Fin 256) (v : Word) (x : HQueue) (r : HRing), x = hqueueOf s q.val → r = ringOf s k.val →
    (x.state ≠ 1 → exec (.qnotify q v) s = .next s) ∧
    (v.toNat < x.next.toNat → exec (.qnotify q v) s = .next s) ∧
    (∀ b, x.state = 1 → x.highest.toNat < x.next.toNat → v = x.next → x.tries = 0 →
      b = getBytes s .host (x.base.toNat + 128 * (v.toNat % 2 ^ (x.size.extractLsb' 0 5).toNat)) 128 → leNat (b.drop 120) ≠ v.toNat →
      exec (.qnotify q v) s = .next (putHqueue s q.val { x with highest := v, tries := 1, first := s.clock })) ∧
    (∀ b, (x.tries = 0 ∨ s.clock - x.first ≤ 150000) → x.state = 1 → x.highest.toNat < x.next.toNat → v = x.next → v.toNat + 1 < 2 ^ 64 →
      b = getBytes s .host (x.base.toNat + 128 * (v.toNat % 2 ^ (x.size.extractLsb' 0 5).toNat)) 128 →
      leNat (b.drop 120) = v.toNat → 1 ≤ leNat (b.take 2) → leNat (b.take 2) ≤ 12 → leNat ((b.drop 2).take 2) < 2 → ∃ t,
      exec (.qnotify q v) s = .next t ∧ hqueueOf t q.val = { x with highest := v, next := v + 1, tries := 0 } ∧
        t.cmds = s.cmds ++ [{ queue := q.val, opcode := leNat (b.take 2), order := decide (leNat ((b.drop 2).take 2) = 1)
                              tag := BitVec.ofNat 32 (leNat ((b.drop 4).take 4)), stamp := v, args := (b.drop 8).take 112, bad := false }] ∧
        sameBytes s t) ∧
    exec (.qstateWrite q) s = .next (putHqueue s q.val { x with state := 1, tries := 0 }) ∧
    exec (.registerWrite (0x10000 + 32 * q.val) v) s = .next (putHqueue s q.val { x with base := v }) ∧
    (v.extractLsb' 0 2 = (1 : BitVec 2) →
      exec (.registerWrite (0x10010 + 32 * q.val) v) s = .next (putHqueue s q.val { x with state := 1, tries := 0 })) ∧
    (readReg s 0 = 0x09604958 ∧ readReg s (0x10018 + 32 * q.val) = x.next ∧ readReg s (0x30018 + 64 * k.val) = r.head ∧
      readReg s 0x18 = 0 ∧ ((readReg s 8).extractLsb' 0 4).toNat = s.bootStep % 16) ∧
    exec (.registerWrite (0x10008 + 32 * q.val) v) s = .next (putHqueue s q.val { x with size := v &&& 0xFF1F }) ∧
    exec (.registerWrite (0x30000 + 64 * k.val) v) s = .next { s with hrings := assign s.hrings k.val { r with base := v } } ∧
    exec (.registerWrite (0x30010 + 64 * k.val) v) s = .next { s with hrings := assign s.hrings k.val { r with tailA := v } } ∧
    (∀ off r', (off = 0x30020 + 64 * k.val ∧ r' = { r with vec := v &&& 0x87FF }) ∨
        (off = 0x30028 + 64 * k.val ∧ r' = { r with coal := v &&& 0xFFFF07FF }) →
      exec (.registerWrite off v) s = .next (
        if r'.vec.getLsbD 15 = true ∧ r'.unsig ≠ 0 ∧ (r'.coal.extractLsb' 0 11).toNat ≤ r'.unsig then
          { s with hrings := assign s.hrings k.val { r' with unsig := 0 }
                   interrupts := s.interrupts ++ [(k.val, (r'.vec.extractLsb' 0 11).toNat)] }
        else { s with hrings := assign s.hrings k.val r' })) ∧
    (r.state ≠ 1 → exec (.rheadWrite k v) s = .next s) ∧
    (r.state = 1 → r.waiting = [] → exec (.rheadWrite k v) s = .next { s with hrings := assign s.hrings k.val { r with head := v } }) ∧
    (r.vec.getLsbD 15 = true → r.unsig ≠ 0 → max 1 (r.coal.extractLsb' 16 16).toNat * 1500 ≤ s.clock - r.first →
      exec (.ringCoalesceTimeout k) s = .next { s with hrings := assign s.hrings k.val { r with unsig := 0 }
                                                       interrupts := s.interrupts ++ [(k.val, (r.vec.extractLsb' 0 11).toNat)] }) ∧
    (∀ e t n, r.room = true → r.waiting = [] → t = ringPost s k.val e → n = (r.coal.extractLsb' 0 11).toNat →
      t.host = swrite (swrite s.host (r.base.toNat + 64 * (r.tail % 2 ^ (r.size.extractLsb' 0 5).toNat)) (toBytes e)) r.tailA.toNat
        (leBytes 8 (r.tail + 1)) ∧
      (ringOf t k.val).tail = r.tail + 1 ∧ (ringOf t k.val).waiting = [] ∧
      (r.vec.getLsbD 15 = true → n ≤ r.unsig + 1 → (ringOf t k.val).unsig = 0 ∧
        t.interrupts = s.interrupts ++ [(k.val, (r.vec.extractLsb' 0 11).toNat)]) ∧
      (r.vec.getLsbD 15 = false ∨ r.unsig + 1 < n → (ringOf t k.val).unsig = r.unsig + 1 ∧ t.interrupts = s.interrupts ∧
        (r.unsig = 0 → (ringOf t k.val).first = s.clock))) ∧
    (∀ (off : Nat) (d : List Byte) (sp : Space) (a : Nat),
      (sp = .hbm ∧ a = s.bar2Base + off ∧ a < Config.hbmBytes) ∨ (sp = .ddr ∧ Config.hbmBytes + a = s.bar2Base + off ∧ a < s.ddrBytes) →
      (off < 2 ^ s.bar2Log → act (.barRead off) s = .next { s with hostRead := (getByte s sp a).setWidth 64 }) ∧
      (off + d.length ≤ 2 ^ s.bar2Log → 0 < d.length → (s.bar2Base + off) % 64 + d.length ≤ 64 → ∃ t, act (.barWrite off d) s = .next t ∧
        writtenAt s t sp a d ∧ (d.length = 64 → lineBad t sp a = false))) ∧
    (∀ (off : Nat) (d : List Byte), 2 ^ s.bar2Log < off + d.length → (s.bar2Base + off) % 64 + d.length ≤ 64 →
      act (.barWrite off d) s = .next s) ∧
    (∀ log, act (.barSize log) s = .next (if 30 ≤ log ∧ log ≤ 39 then { s with bar2Log := log } else s)) ∧
    (∀ c st res, st < 256 → ∃ e, complete s c st res =
        ringPost { s with cmds := s.cmds.filter (· != c), freeCtr := s.freeCtr + 8 } (hqueueOf s c.queue).ring e ∧
      e.extractLsb' 0 8 = (1 : BitVec 8) ∧ e.extractLsb' 8 8 = BitVec.ofNat 8 st ∧ e.extractLsb' 32 32 = c.tag ∧
      ∀ i b, i < 56 → res[i]? = some b → e.extractLsb' (64 + 8 * i) 8 = b)

/-- R289, R300 to R302, R381: contexts and page tables. A command on a context that does not exist completes with status 3. Entries that map
more of a tier than the quota of the context complete with status 2 and are not written, and so does such a migration (log entry 64, DESIGN
CHOICE). That a migration runs in one turn where nothing is ahead of its marker, and status 1 for pages that cannot move, are log entry 19
(DESIGN CHOICE), that a MAP write makes a held control stream ready again is log entry 63 (DESIGN CHOICE), and that an INV entry waits for a free
entry of its queue is log entry 66 (DESIGN CHOICE). -/
def Obligations.HostContexts : Prop :=
  ∀ (s : State) (a : BitVec 16) (args : CtxArgs) (c : Cmd),
    (starts s 1 c → (ctxArgsOk s args = true → ctxTaken s args = false → exec (.contextCreate args) s =
        .next (complete { s with
          contexts := s.contexts ++ [{ args, images := [] }]
          queues := Vector.ofFn fun q =>
            { s.queues[q] with cls := ((args.classes.find? fun x => x.1 == q).map fun x => x.2.val).getD s.queues[q].cls } } c 0 [])) ∧
      (ctxArgsOk s args = false → exec (.contextCreate args) s = .next (complete s c 1 [])) ∧
      (ctxArgsOk s args = true → ctxTaken s args = true → exec (.contextCreate args) s = .next (complete s c 2 [])) ∧
      (contextOf s a = none → exec (.contextDestroy a) s = .next (complete s c 3 [])) ∧
      (contextOf s a ≠ none → ∃ u, exec (.contextDestroy a) s = .next (complete u c 0 []) ∧ contextOf u a = none ∧
        (∀ j ∈ u.jobs, j.asid ≠ a) ∧ (s.job.asid = a → u.job = Job.blank) ∧ (s.job.asid ≠ a → u.job = s.job) ∧
        (∀ t ∈ u.tlb, t.asid ≠ a) ∧ (∀ w ∈ u.works, w.asid ≠ a) ∧ (∀ l ∈ u.launches, l.asid ≠ a) ∧ (∀ g ∈ u.graphs, g.asid ≠ a) ∧ u.hbm = s.hbm ∧ u.ddr = s.ddr ∧ u.host = s.host ∧
        (s.powerState ≠ 2 → u.spad = s.spad))) ∧
    (starts s 2 c → (contextOf s a = none → (∀ l, exec (.mapWrite a l) s = .next (complete s c 3 [])) ∧
        (∀ lo hi, exec (.mapInvalidate a lo hi) s = .next (complete s c 3 [])) ∧
        ∀ va d pa, exec (.mapMigrate a va d pa) s = .next (complete s c 3 [])) ∧
      (contextOf s a ≠ none →
        (∀ l, (∃ e ∈ l, e.2.1 % 8 ≠ 0 ∨ tierBytes s e.1 < e.2.1 + 8) → exec (.mapWrite a l) s = .next (complete s c 1 [])) ∧
        (∀ l t x, contextOf s a = some x → (∀ e ∈ l, e.2.1 % 8 = 0 ∧ e.2.1 + 8 ≤ tierBytes s e.1) →
          t = l.foldl (fun s e => writePte s a e.1 e.2.1 e.2.2) s → (∃ d, x.quota d < mappedBytes t x d ∧ mappedBytes s x d < mappedBytes t x d) →
          exec (.mapWrite a l) s = .next (complete s c 2 [])) ∧
        (∀ d pa v t x, contextOf s a = some x → pa % 8 = 0 → pa + 8 ≤ tierBytes s d → t = writePte s a d pa v →
          (∀ d, mappedBytes t x d ≤ x.quota d ∨ mappedBytes t x d ≤ mappedBytes s x d) → ∃ u, exec (.mapWrite a [(d, pa, v)]) s = .next (complete u c 0 []) ∧
          bytesStored s u (if d then .ddr else .hbm) pa none (toBytes v) ∧ Job.sameRegs s.job u.job ∧
          (s.job.id ≠ 0 → s.job.asid = a → s.job.wait = .held → u.job.wait = .ready)) ∧
        (∀ lo hi k, s.works = [] → s.cmds = [c] → (∀ j ∈ allJobs s, j.stores = []) → k = s.invs + 1 → ∃ u, exec (.mapInvalidate a lo hi) s = .next u ∧
          (∀ sp b, sp ≠ .host → Space.has sp b → getByte u sp b = getByte s sp b) ∧
          (∀ t ∈ u.tlb, t.asid = a → t.base < hi → lo < t.base + 2 ^ t.bits → t.stale = true) ∧
          (s.job.id ≠ 0 → s.job.asid = a → s.job.resident = true → ∀ inv : EngStream → EngStream,
            (inv = fun x => ({ x with late := x.late ++ [QEntry.inv s.job.itag k] } : EngStream).queued x.queue) → u.job = { s.job with
            ld := inv s.job.ld, mx := inv s.job.mx, vx := inv s.job.vx, st' := inv s.job.st'
            marker := some (s.job.marker.getD k), index := s.job.index.map fun e => if e.running then { e with old := some (e.old.getD k) } else e }) ∧
          (s.job.id ≠ 0 → s.job.asid = a → s.job.resident = true → s.job.wait ≠ .held → (∀ m, s.job.marker = some m → m ≤ k) → u.cmds = [c] ∧
            u.works = [{ queue := c.queue, stamp := c.stamp, asid := a, lo, hi, toDdr := false, pa := 0, step := 0, inv := k, entry := 0, size := 0 }]) ∧
          ((∀ j ∈ allJobs s, j.asid = a → j.resident = false ∧ ∀ e ∈ j.index, e.running = false) → (∀ h ∈ s.chans, chanAsid s h = a → h.st = .parked) →
            anyAhead s a k = false → ∃ v, u = complete v c 0 []))) ∧
      (∀ b, exec (.mapPlaceBar2 b) s = .next (complete { s with bar2Base := b } c 0 [])) ∧
      (∀ x va toDdr pa, contextOf s a = some x →
        (leafSlotFrom s va [4, 3, 2, 1, 0] x.args.rootDdr x.args.root = none → exec (.mapMigrate a va toDdr pa) s = .next (complete s c 1 [])) ∧
        (∀ ddr slot e l n old, leafSlotFrom s va [4, 3, 2, 1, 0] x.args.rootDdr x.args.root = some (ddr, slot, e, l) → n = 2 ^ levelShift l →
          old = (e.extractLsb' 16 36).toNat * 65536 →
          (e.getLsbD 6 = true ∨ pa % n ≠ 0 ∨ tierBytes s toDdr < pa + n ∨ e.getLsbD 5 = toDdr →
            exec (.mapMigrate a va toDdr pa) s = .next (complete s c 1 [])) ∧
          (e.getLsbD 6 = false → pa % n = 0 → pa + n ≤ tierBytes s toDdr → e.getLsbD 5 ≠ toDdr → e.getLsbD 5 = false →
            (∃ t ∈ s.tubs, t.2.2.armed = true ∧ t.2.2.hits old n ≠ 0) → exec (.mapMigrate a va toDdr pa) s = .next (complete s c 4 [])) ∧
          (e.getLsbD 6 = false → pa % n = 0 → pa + n ≤ tierBytes s toDdr → e.getLsbD 5 ≠ toDdr →
          (e.getLsbD 5 = false → ∀ t ∈ s.tubs, t.2.2.armed = true → t.2.2.hits old n = 0) →
          (x.quota toDdr < mappedBytes s x toDdr + n → exec (.mapMigrate a va toDdr pa) s = .next (complete s c 2 [])) ∧
          (mappedBytes s x toDdr + n ≤ x.quota toDdr → s.works = [] → (ddr = toDdr → slot + 8 ≤ pa ∨ pa + n ≤ slot) → (ddr ≠ toDdr → slot + 8 ≤ old ∨ old + n ≤ slot) → x.args.root % 8 = 0 →
          s.cmds = [c] → (∀ j ∈ allJobs s, j.stores = []) →
          (∀ j ∈ allJobs s, j.asid = a → j.resident = false ∧ ∀ e ∈ j.index, e.running = false) →
          (∀ h ∈ s.chans, chanAsid s h = a → h.st = .parked) → (∀ k, anyAhead s a k = false) →
          ∃ u, exec (.mapMigrate a va toDdr pa) s = .next (complete u c 0 []) ∧
            getBytes u (if toDdr then .ddr else .hbm) pa n = getBytes s (if e.getLsbD 5 then .ddr else .hbm) old n ∧
            getBytes u (if ddr then .ddr else .hbm) slot 8 = leBytes 8 (e.toNat % 32 + (if toDdr then 32 else 0) +
              (if toDdr then 0 else (e.extractLsb' 7 1).toNat * 128) + (e.extractLsb' 8 2).toNat * 256 + pa) ∧
            (∀ t ∈ u.tlb, ¬(t.asid = a ∧ t.base < va / n * n + n ∧ va / n * n < t.base + 2 ^ t.bits))))))) ∧
    (s.curCmd = none → ∀ w, s.works = [w] → w.asid = a →
      (w.step = 0 → anyAhead s a w.inv = true → exec (.mapInvalidate a w.lo w.hi) s = .next s) ∧
      (w.step ≠ 0 → anyAhead s a w.inv = true → exec (.mapMigrate a w.lo w.toDdr w.pa) s = .next s) ∧
      (w.step = 0 → anyAhead s a w.inv = false → ∀ d, s.cmds = [d] → d.queue = w.queue → d.stamp = w.stamp →
        ∃ u, exec (.mapInvalidate a w.lo w.hi) s = .next (complete u d 0 []) ∧ u = { s with works := [], tlb := u.tlb, oldPtes := u.oldPtes } ∧
          (∀ t ∈ u.tlb, t ∈ s.tlb) ∧ (∀ t ∈ s.tlb, t.stale = false → t ∈ u.tlb) ∧ ∀ e ∈ u.oldPtes, e ∈ s.oldPtes))

/-- R66, R84, R87, R98, R101, R381, R382, R387, R389: the other commands, each with its status and its result. A command does what its opcode and
its ARGS ask for; that they have no layout and stand for an instruction of their opcode, or for none with status 1, and the free results of
QUERY and ERRLOG, are log entry 8; a LAUNCH whose queue is full completes once its launch is in the queue, and is not taken up before (R84); the lowest free graph number returned at byte 8 is log entry 44; that a completion of MEASURE holds the first
56 bytes of the report is log entry 9: each the model's choice; that LINK takes a port up only where its partner has agreed in training is the
reading of log entry 23 (DEDUCED). R100: a graph that starts has every pending count at its node's JOIN, and its entry node starts. -/
def Obligations.HostCommands : Prop :=
  ∀ (s : State) (a : BitVec 16) (x : Context) (c : Cmd) (va : Word), contextOf s a = some x →
    (∀ queue stamp, (s.cmds.find? fun d => d.queue == queue && d.stamp == stamp) = some c → act (.command queue stamp) s =
      (let none' := Host.Outcome.next (if c.mayStart s = true then complete s c 1 [] else s)
       if c.bad = true then none' else
       match Config.commandOf c.opcode c.args with
       | none => none'
       | some i =>
         if commandOp i = c.opcode then
           match exec i { s with curCmd := some (queue, stamp) } with
           | .next t => .next { t with curCmd := none }
           | r => r
         else none')) ∧
    (hubWaiting s (hubParty a) = true → (starts s 3 c → exec (.modload a va) s = .next s) ∧ (starts s 5 c → exec (.graphLoad a va) s = .next s)) ∧
    (starts s 3 c → hubWaiting s (hubParty a) = false → ∀ h b ver secs v n whole, readExact s (hubParty a) .read (.va va) 64 = .ok h →
      v = leNat ((h.drop 4).take 2) → n = leNat ((h.drop 16).take 8) →
      (whole ↔ leNat (h.take 4) = 0x4B495846 ∧ 1 ≤ v ∧ v ≤ 3 ∧ 64 ≤ n ∧ n < 2 ^ 57) →
      (whole → readExact s (hubParty a) .read (.va va) n = .ok b) → (¬whole → b = h) →
      (leNat (b.take 4) ≠ 0x4B495846 → checkImage b = .error 6) ∧
      (leNat (b.take 4) = 0x4B495846 → ¬(1 ≤ leNat ((b.drop 4).take 2) ∧ leNat ((b.drop 4).take 2) ≤ 3) → checkImage b = .error 5) ∧
      (1 ≤ leNat ((b.drop 4).take 2) → leNat ((b.drop 4).take 2) ≤ 3 → ∀ st, checkImage b = .error st → st = 6) ∧
      (leNat ((b.drop 16).take 8) < 64 → ∃ st, checkImage b = .error st) ∧
      (checkImage b = .ok (ver, secs) → exec (.modload a va) s = .next (complete { takeReplies s .hub with
        measures := s.measures ++ [shake256 b]
        contexts := s.contexts.map fun y =>
          if y.args.asid = a then { y with images := y.images.filter (fun i => i.addr != va) ++ [{ addr := va, version := ver, sections := secs }] }
          else y } c 0 (leBytes 8 va.toNat))) ∧
      (∀ st, checkImage b = .error st → exec (.modload a va) s = .next (complete (takeReplies s .hub) c st []))) ∧
    (starts s 4 c → ∀ q,
      (16 ≤ q → exec (.launchCommand a q va) s = .next (complete s c 1 [])) ∧
      (q < 16 → ∀ queue stamp, s.curCmd = some (queue, stamp) →
        (∀ u, enqueueFor s a va q (.host queue stamp) .hub = .done u →
          ((∀ l ∈ (queueOf u q).waiting, l.source ≠ .host queue stamp) → exec (.launchCommand a q va) s = .next (complete u c 0 [])) ∧
          ((∃ l ∈ (queueOf u q).waiting, l.source = .host queue stamp) → exec (.launchCommand a q va) s = .next u)) ∧
        ∀ u n st, enqueueFor s a va q (.host queue stamp) .hub = .refused u n st →
          exec (.launchCommand a q va) s = .next (complete u c 7 (leBytes 1 n)))) ∧
    (∀ l queue stamp, l.source = .host queue stamp →
      ((s.cmds.find? fun d => d.queue == queue && d.stamp == stamp) = some c → clearWait s l = complete s c 0 []) ∧
      ((∃ q, q < 16 ∧ l ∈ (queueOf s q).waiting) → c.queue = queue → c.stamp = stamp → c.mayStart s = false)) ∧
    (starts s 5 c →
      (∀ g y, graphOf s a g = some y → exec (.graphQuery a g) s = .next (complete s c 0 []) ∧
        (y.running = true → exec (.graphStart a g) s = .next (complete s c 4 [])) ∧
        (y.running = false → ∀ n, y.nodes[y.entry]? = some n → ∃ z, exec (.graphStart a g) s = .next (complete (putGraph s z) c 0 []) ∧
          z.running = true ∧ z.gen = y.gen + 1 ∧ z.runs = 0 ∧ (∀ k m, k ≠ y.entry → y.nodes[k]? = some m →
            z.nodes[k]? = some { m with pending := nodeJoin m.raw, running := false, done := false, mark := 0 }) ∧
          (z.nodes[y.entry]?.map GNode.running) = some true)) ∧
      (∀ g, graphOf s a g = none → exec (.graphStart a g) s = .next (complete s c 3 []) ∧ exec (.graphQuery a g) s = .next (complete s c 3 [])) ∧
      (∀ h b n nodes k, hubWaiting s (hubParty a) = false → readExact s (hubParty a) .read (.va va) 64 = .ok h → n = leNat (h.take 2) → 1 ≤ n → n ≤ 256 →
        leNat ((h.drop 2).take 2) < n → leNat ((h.drop 16).take 8) % 64 = 0 → leNat ((h.drop 24).take 40) = 0 →
        readExact s (hubParty a) .read (.va (BitVec.ofNat 64 (leNat ((h.drop 16).take 8)))) (64 * n) = .ok b →
        nodes = (cut 64 b).map (ofBytes 512) → (∀ y ∈ nodes, nodeBad x n y = false) → nodeJoin (nodes.getD (leNat ((h.drop 2).take 2)) 0) = 0 →
        (s.graphs.filter fun g => g.asid == a).length < x.args.quotaGraphs → k < 64 →
        (∀ g ∈ s.graphs, g.asid = a → g.num ≠ k) → (∀ i, i < k → ∃ g ∈ s.graphs, g.asid = a ∧ g.num = i) →
        ∃ u g, exec (.graphLoad a va) s = .next (complete u c 0 (leBytes 8 k)) ∧ u.graphs = s.graphs ++ [g] ∧ g.asid = a ∧ g.num = k ∧
          g.running = false ∧ g.nodes.map GNode.raw = nodes ∧ sameBytes s u)) ∧
    (starts s 7 c → exec .query s = .next (complete s c 0 [])) ∧
    (starts s 8 c → ∀ k port up,
      (∀ v : BitVec 256, k < 256 → v.extractLsb' 14 2 = (0 : BitVec 2) → v.extractLsb' 32 32 = (0 : BitVec 32) →
        v.extractLsb' 64 16 = (0 : BitVec 16) → v.extractLsb' 128 16 = (0 : BitVec 16) → v.extractLsb' 192 64 = (0 : BitVec 64) →
        exec (.link (some (k, v)) port up) s = .next (complete { s with peers := sset s.peers k v } c 0 [])) ∧
      (∀ v : BitVec 256, 256 ≤ k ∨ v.extractLsb' 14 2 ≠ (0 : BitVec 2) ∨ v.extractLsb' 32 32 ≠ (0 : BitVec 32) ∨
        v.extractLsb' 64 16 ≠ (0 : BitVec 16) ∨ v.extractLsb' 128 16 ≠ (0 : BitVec 16) ∨ v.extractLsb' 192 64 ≠ (0 : BitVec 64) →
        exec (.link (some (k, v)) port up) s = .next (complete s c 1 [])) ∧
      (connected s port = true → (up = true → port ∈ s.goodPorts ∧ s.powerState ≠ 3) →
        exec (.link none port up) s = .next (complete (sendWaiting (putLink s port { Link.zero with up })) c 0 [])) ∧
      (connected s port = false ∨ (up = true ∧ (port ∉ s.goodPorts ∨ s.powerState = 3)) →
        exec (.link none port up) s = .next (complete s c 1 []))) ∧
    (starts s 9 c → ∀ st caps,
      (st ≠ 2 → st ≠ 3 → exec (.power st caps) s = .next (complete { s with powerState := st, caps } c 0 [])) ∧
      (∀ unused : Nat → Nat → Prop, (∀ core bank, unused core bank ↔ core < 288 ∧ bank < 32 ∧ (core, bank) ∉ s.gated ∧
          (∀ w ∈ s.waking, ¬(w.1 = core ∧ w.2.1 = bank)) ∧
          ∀ j ∈ jobsOn s core, (bank + 1) * 262144 ≤ j.spbase.toNat ∨ j.splim.toNat ≤ bank * 262144) →
        ∃ u, exec (.power 2 caps) s = .next (complete u c 0 []) ∧
          u = { s with powerState := 2, caps, gated := u.gated, spad := u.spad, spadPoison := u.spadPoison, zeroMap := u.zeroMap } ∧
          (∀ core bank, (core, bank) ∈ u.gated ↔ (core, bank) ∈ s.gated ∨ unused core bank) ∧
          ∀ core bank o, bank < 32 → bank * 262144 ≤ o → o < (bank + 1) * 262144 →
            (unused core bank → getByte u (.spad core) o = 0) ∧ (¬unused core bank → getByte u (.spad core) o = getByte s (.spad core) o)) ∧
      ∃ u, exec (.power 3 caps) s = .next (complete u c 0 []) ∧ u = { s with powerState := 3, caps, links := u.links } ∧
        ∀ p, (linkOf u p).up = false) ∧
    (starts s 10 c → exec .errlog s = .next (complete { s with errLog := [] } c 0 [])) ∧
    (starts s 11 c → ∀ nonce : List Byte,
      (nonce = [] ∨ 64 < nonce.length → exec (.measure nonce) s = .next (complete s c 1 [])) ∧
      (nonce ≠ [] → nonce.length ≤ 64 → ∀ b r, b = nonce ++ s.measures.flatMap (fun m => toBytes m) ++ Config.identityKey →
        r = b ++ Config.signature b → exec (.measure nonce) s = .next (complete { s with report := r } c 0 (r.take 56))))

/-- R328, R329, R331, R332, R336, R337, R381: a pre-emption reaches every job of a running group at once: each drains, with a fresh basket, its
registers and its PC as they are, and each of its engine streams bounds its innermost loop by the trips that have started; a drained job is saved into its basket,
and a resumed group goes on, its gated banks woken first (R244); RESOLVE resumes, restarts or ends. R228: none of its operations is under way then
but one that has stopped at a fault or stands at a held access; one that would wait at a watermark in its first unit has not started, and is saved with
its tokens in the counters: that it waits so is log entry 35 (DEDUCED). That the lines are saved as many in a turn as
it names is log entry 21 (DESIGN CHOICE), that the basket stands from the request on is log entry 39 (DEDUCED), status 4 of a resume and what a
restart lets go on are log entry 47 (DEDUCED), and that the event carries the seats is log entry 60 (DESIGN CHOICE). -/
def Obligations.Preemption : Prop :=
  ∀ (s : State) (c : Cmd) (n : Nat),
    (starts s 6 c → gangOf s n = [] → exec (.preempt n) s = .next (complete s c 3 [])) ∧
    (starts s 6 c → (∃ j ∈ gangOf s n, j.st ≠ .running) → exec (.preempt n) s = .next (complete s c 4 [])) ∧
    (gangOf s n ≠ [] → (∀ j ∈ gangOf s n, j.st = .running) → ((s.job :: s.jobs).map Job.id).Nodup → ∃ u,
      exec (.preempt n) s = .next (match nextCmd s 6 with | some c => complete u c 0 [] | none => u) ∧
      (s.job.id ≠ 0 → s.job.launch = n → u.job.st = .draining ∧ u.job.basket = some Basket.fresh ∧ Job.sameRegs s.job u.job ∧
        u.job.pc = s.job.pc ∧ u.job.darn = (if atBoundary s s.job = true then s.job.darn.filter DarnRun.holds else s.job.darn) ∧
        ∀ e, (u.job.eng e).draining = true ∧ (u.job.eng e).queue = (s.job.eng e).queue ∧ (u.job.eng e).pipe = (s.job.eng e).pipe) ∧
      (∀ (k : Nat) (j : Job), s.jobs[k]? = some j → j.launch = n → j.id ≠ 0 → ∃ v, u.jobs[k]? = some v ∧ v.id = j.id ∧ v.st = .draining ∧ v.basket = some Basket.fresh ∧
        Job.sameRegs j v ∧ v.pc = j.pc ∧ ∀ e, v.eng e = { j.eng e with
          draining := true, depth := (j.eng e).frames.length
          frames := match (j.eng e).frames with | [] => [] | f :: r => { f with nEff := f.started, bounded := true } :: r }) ∧
      (s.job.id ≠ 0 → s.job.launch = n → ∀ e, u.job.eng e = { s.job.eng e with
        draining := true, depth := (s.job.eng e).frames.length
        frames := match (s.job.eng e).frames with | [] => [] | f :: r => { f with nEff := f.started, bounded := true } :: r }) ∧
      (s.job.launch ≠ n → u.job = s.job) ∧ u = { s with job := u.job, jobs := u.jobs, queues := u.queues, outs := u.outs, rbuf := u.rbuf } ∧
      ∀ k : Nat, (∀ j, s.jobs[k]? = some j → j.launch ≠ n → u.jobs[k]? = some j)) ∧
    (s.job.id ≠ 0 → s.job.st = .draining → groupDrained s s.job.launch = true → Memory.wf s = true → (∀ j ∈ allJobs s, j.stores = []) →
      ∀ b p lg ft k, s.job.basket = some b → k = min (if s.units = 0 then s.job.region / 64 else s.units) (s.job.region / 64) →
      basketOk { addr := p.addr, stOff := p.stOff, imgOff := p.imgOff, logOff := lg.off, logMax := lg.max, fltOff := ft.off, fltMax := ft.max }
        s.job.region = true →
      ∃ t b', exec (.save s.job.id p lg ft) s = .next t ∧ t.job.basket = some b' ∧ b'.lines = k ∧
        t.job.st = (if k < s.job.region / 64 then .saving else .suspended) ∧ b'.phase = (if k < s.job.region / 64 then 0 else 1) ∧
        b'.args.addr = p.addr ∧ b'.args.logMax = lg.max ∧ b'.args.fltMax = ft.max ∧ b'.faults = b.faults ∧
        Job.sameRegs s.job t.job ∧
        (∀ e, (startedOp (s.job.eng e).pipe).isSome = true → (s.job.eng e).opHalt = .trapped ∨ (s.job.eng e).opHalt = .held) ∧
        (∀ e o, .waiting o ∈ (s.job.eng e).pipe → .waiting o ∈ (t.job.eng e).pipe) ∧
        t.job.pc = s.job.pc ∧ ∀ o, o < 64 * k →
          getByte t .hbm (p.addr + p.imgOff + o) = getByte s (.spad s.job.core) (s.job.spbase.toNat + o)) ∧
    (s.job.id ≠ 0 → s.job.st = .saving → Memory.wf s = true → ∀ b p lg ft k, s.job.basket = some b → b.lines < s.job.region / 64 →
      k = min (if s.units = 0 then s.job.region / 64 else s.units) (s.job.region / 64 - b.lines) →
      ∃ t b', exec (.save s.job.id p lg ft) s = .next t ∧ t.job.basket = some b' ∧ b'.lines = b.lines + k ∧
        t.job.st = (if b.lines + k < s.job.region / 64 then .saving else .suspended) ∧ ∀ o, 64 * b.lines ≤ o → o < 64 * (b.lines + k) →
          getByte t .hbm (b.args.addr + b.args.imgOff + o) = getByte s (.spad s.job.core) (s.job.spbase.toNat + o)) ∧
    (∀ l u places, findLaunch s n = some l → l.suspended = true → (∀ j ∈ gangOf s n, j.st ≠ .folding) → places.length = (gangOf s n).length →
      resumeSeats s (demandOf l.raw) [] ((inOrder s n).zip places) = true → resumeGroups l ((inOrder s n).zip places) = true →
      ownBarsOk s l.raw places = true →
      ((∀ q ∈ (inOrder s n).zip places, regionAwake s q.2.core q.1.spbase.toNat q.1.splim.toNat = true) →
        restoreGroup (settleStores s) l ((inOrder s n).zip places) = some u →
        exec (.preemptResume n places) s = .next (goFold (updLaunch u n fun l => { l with resumeCmd := s.curCmd }) n)) ∧
      ((∃ q ∈ (inOrder s n).zip places, regionAwake s q.2.core q.1.spbase.toNat q.1.splim.toNat = false) →
        ∃ t, exec (.preemptResume n places) s = .next t ∧ t = { s with gated := t.gated, waking := t.waking })) ∧
    (∀ l places, findLaunch s n = some l → (∃ j ∈ gangOf s n, j.st = .folding) →
      (s.curCmd = none ∨ s.curCmd = l.resumeCmd → exec (.preemptResume n places) s = .next (goFold s n)) ∧
      (starts s 6 c → s.curCmd ≠ l.resumeCmd → exec (.preemptResume n places) s = .next (complete s c 4 []))) ∧
    (∀ js t, js = inOrder s n → t = js.foldl (fun s j => foldSome s j.id) s →
      ((∃ j ∈ gangOf t n, j.folded = false) → goFold s n = t) ∧
      ((∀ j ∈ gangOf t n, j.folded = true) → (∀ l, findLaunch t n = some l → l.resumeCmd = none) →
        goFold s n = updLaunch (js.foldl foldIn (mapJobs t fun j => if j.launch = n ∧ j.st = .folding then { j with st := .replaying } else j)) n
          fun l => { l with resumeCmd := none })) ∧
    (starts s 6 c → (∃ l, findLaunch s n = some l ∧ l.suspended = false) → (∀ j ∈ gangOf s n, j.st ≠ .folding) → ∀ places,
      exec (.preemptResume n places) s = .next (complete s c 4 [])) ∧
    (starts s 12 c →
      (findJob s n = none → ∀ r, exec (.resolve n r) s = .next (complete s c 3 [])) ∧
      (∀ j, findJob s n = some j → exec (.resolve n .endContext) s = .next (complete (endContext s j.asid) c 0 [])) ∧
      (s.job.id = n → n ≠ 0 → (∃ k v, s.job.wait = .dvorol k v ∧ k ≠ .pteInvalid) → s.job.tpc.toNat % 4 = 0 → s.job.stores = [] → s.job.tstream = 0 →
        exec (.resolve n .resume) s =
          .next (complete { passOuts s (.ctl n) (fun k => k != s.job.tpc) with
            job := { s.job with hnd := false, pc := s.job.tpc, wait := .ready } } c 0 [])) ∧
      (s.job.id = n → n ≠ 0 → s.job.basket = none → ∃ u, exec (.resolve n .restart) s = .next (complete u c 0 []) ∧
        u.job.wait = (match s.job.wait with | .dvorol .pteInvalid _ => .ready | w => w) ∧ Job.sameRegs s.job u.job ∧ u.job.pc = s.job.pc ∧
        ∀ e, (u.job.eng e).halt = if (s.job.eng e).halt = .dvorol then .going else (s.job.eng e).halt))

/-- R289, R291 to R295: a walk goes from the root of its context through the levels, to the first entry that gives cause or to a leaf. An access
whose address no TLB holds and that no marker holds back goes where the leaf of the walk says: to the page's address in its tier plus the bits below
the page size, with the page's poison policy. It is stopped with nothing done where the walk gives cause, where it lacks a permission, and where it
writes a held page, each with its record (R298, R299). An address beyond bit 56 is PAGE_NOT_PRESENT without a walk (R290). That what R293 requires of
HOLD, TUB, RTIER and COORD makes an entry malformed where it does not hold is log entry 11. R244, R296: a walk fills the TLB of its core and of its
die where it ends in a leaf, and nothing where it does not; a bank that no region overlaps is gated and loses its contents, and its wake ends 2,048
clocks after it began. That PAGE_WALK installs both entries, that the hub uses the TLB of die 0, that a full TLB drops an entry, and that a failed
walk posts nothing are log entry 46 (DESIGN CHOICE). -/
def Obligations.WalksAndBanks : Prop :=
  (∀ (s : State) (asid : BitVec 16) (va : Word),
    (∀ c, contextOf s asid = some c → walksTo s va.toNat [4, 3, 2, 1, 0] c.args.rootDdr c.args.root (walk s asid va)) ∧
    (contextOf s asid = none → (walk s asid va).cause = some .pageNotPresent)) ∧
  (∀ (s : State) (p : Party) (acc : Access) (va : Word) (n : Nat) (w : WalkEnd) (e : Word) (pa : Nat) (pol : Poison) (writes : Prop)
     (r : Option Cause → FaultRec), inAperture va = false → (writes ↔ acc = .write ∨ acc = .atomic) →
     (2 ^ 57 ≤ va.toNat → locate s p acc (.va va) n = .error (Access.stop acc .pageNotPresent va)) ∧
     (va.toNat < 2 ^ 57 → (∀ t ∈ s.tlb, t.asid ≠ p.asid) → viewOf s p.unit = none → w = walk s p.asid va → e = w.entry →
       pa = (e.extractLsb' 16 36).toNat * 65536 + va.toNat % 2 ^ levelShift w.level →
       pol = (if e.extractLsb' 8 2 = 0 then .trap else if e.extractLsb' 8 2 = 1 then .zero else .pass) →
       (∀ c, r c = faultRec s p va acc c (c == none) w) →
       (∀ c, (r c).va = va ∧ (r c).asid = p.asid ∧ (r c).core = p.core ∧ (r c).cause = c ∧ (r c).access = acc ∧ (r c).stream = p.stream ∧
         (r c).entry = e ∧ (r c).level = w.level) ∧
       (∀ c, w.cause = some c → locate s p acc (.va va) n = .error (.fault c va (r (some c)))) ∧
       (w.cause = none → writes → e.getLsbD 10 = true → locate s p acc (.va va) n = .error (.held (r none))) ∧
       (w.cause = none → ¬(writes ∧ e.getLsbD 10 = true) → ¬permits e acc →
         locate s p acc (.va va) n = .error (.fault .pagePermission va (r (some .pagePermission)))) ∧
       (w.cause = none → ¬(writes ∧ e.getLsbD 10 = true) → permits e acc → ∀ x, x = (match (e.extractLsb' 5 2).toNat with
           | 0 => Place.here .hbm pa pol
           | 1 => .here .ddr pa pol
           | 2 => .here .host pa pol
           | _ => .remote (e.extractLsb' 52 8) (e.getLsbD 11) pa pol) →
         watermarked s p (.va va) none n = none → guarded s p.unit (x.span s n) = false → locate s p acc (.va va) n = .ok (x, none)))) ∧
  ∀ (s : State) (asid : BitVec 16) (va : Word) (acc : Access) (core stream bank : Nat) (w : WalkEnd),
    w = walk s asid va → va.toNat < 2 ^ 57 → inAperture va = false →
    (∀ e, (e = fun a => ({ at' := a, asid, base := va.toNat / 2 ^ levelShift w.level * 2 ^ levelShift w.level, bits := levelShift w.level
                           leaf := w.entry, stale := false, born := s.invs, died := 0 } : TlbEntry)) → w.cause = none → (core < 288 ∨ core = 0xFFFF) →
      ∃ t, exec (.pageWalk asid va acc core stream) s = .next t ∧ t = { s with tlb := t.tlb } ∧
        (∀ b, (s.tlb.filter fun t => t.at' == b).length ≤ b.size → (t.tlb.filter fun t => t.at' == b).length ≤ b.size) ∧
        ((∀ t ∈ s.tlb, t.asid = asid → t.stale = false → va.toNat / 2 ^ t.bits * 2 ^ t.bits ≠ t.base) →
          (∀ b, (s.tlb.filter fun t => t.at' == b).length < b.size) →
          t.tlb = s.tlb ++ (if core = 0xFFFF then [] else [e (.l1 core)]) ++ [e (.die (if core = 0xFFFF then 0 else dieOf core))])) ∧
    (w.cause ≠ none → exec (.pageWalk asid va acc core stream) s = .next s) ∧
    (core < 288 → bank < 32 → (∀ j ∈ jobsOn s core, (bank + 1) * 262144 ≤ j.spbase.toNat ∨ j.splim.toNat ≤ bank * 262144) →
      (core, bank) ∉ s.gated → (∀ w ∈ s.waking, ¬(w.1 = core ∧ w.2.1 = bank)) → ∃ t, exec (.bankGating core bank) s = .next t ∧
        t.gated = s.gated ++ [(core, bank)] ∧ ∀ o, bank * 262144 ≤ o → o < (bank + 1) * 262144 → getByte t (.spad core) o = 0) ∧
    exec (.bankWakeComplete core bank) s =
      .next { s with waking := s.waking.filter fun w => !(w.1 == core && w.2.1 == bank && w.2.2 ≤ s.clock) }

/-- R383 to R386, R347: a device reset leaves nothing of any job, context, queue, ring or unit, takes the straps, and completes the steps of
bring-up up to the one that fails; the patch table is applied where its signature and its version allow it, the three measurements are
taken, the ports whose partners agree come up and the others are logged, and the fabric's reset epoch goes up by one; a partner that reports later
is compared then. That the straps, the
trained capacity with its cap at 2 TiB, no DDR-5 before step 4 and all steps at one moment come with the event is log entry 1 (DESIGN
CHOICE), where the ROM, the patch, its key and the fuses keep what is hashed and compared is log entry 9 (DESIGN CHOICE), and that the last report of
a partner counts is the reading of log entry 23 (DEDUCED). -/
def Obligations.DeviceReset : Prop :=
  ∀ (s u : State) (r : ResetIn) (n : Nat) (agrees : PortIn → Prop), n = (if r.failAt = 0 ∨ 7 < r.failAt then 7 else r.failAt - 1) →
    u = { s with row := r.row, col := r.col, rows := r.rows, cols := r.cols } →
    (∀ p, agrees p ↔ connected u p.port = true ∧ devAt p.row.val p.col.val = portPeer u p.port ∧ p.rows = r.rows ∧ p.cols = r.cols) →
    ∃ t, exec (.deviceReset r) s = .next t ∧ t.bootStep = n ∧ t.clock = 0 ∧ t.job = Job.blank ∧ t.jobs = [] ∧ t.contexts = [] ∧ t.launches = [] ∧
      t.barriers = [] ∧ t.tubs = [] ∧ t.chans = [] ∧ t.graphs = [] ∧ t.slots = [] ∧ t.tlb = [] ∧ t.outs = [] ∧ t.windows = [] ∧ t.seqs = [] ∧
      t.hqueues = [] ∧ t.hrings = [] ∧ t.cmds = [] ∧ t.peers = [] ∧
      t.ddrBytes = (if 4 ≤ n then min r.ddrBytes (2 ^ 41) else 0) ∧ t.epoch = (if 6 ≤ n then s.epoch + 1 else s.epoch) ∧
      (2 ≤ n → t.measures = [shake256 Config.romImage, shake256 r.patch, shake256 Config.fuses] ∧ t.patchRejected = !t.patchApplied ∧
        (t.patchApplied = true ↔ shake256 (Config.patchKey r.patch) = Config.fusedKey Config.fuses ∧
          Config.falconVerify (Config.patchKey r.patch) r.patch = true ∧ Config.fusedMin Config.fuses ≤ Config.patchVersion r.patch)) ∧
      (n < 2 → t.measures = [] ∧ t.patchApplied = false ∧ t.patchRejected = false) ∧
      (6 ≤ n → (∀ p, p ∈ t.goodPorts ↔ ∃ q ∈ r.ports, agrees q ∧ q.port = p) ∧
        (∀ e, e ∈ t.errLog ↔ ∃ q ∈ r.ports, ¬agrees q ∧ e = .badPort q.port) ∧
        ∀ k, (linkOf t k).up = true ↔ ∃ q ∈ r.ports, agrees q ∧ q.port = k) ∧
      ((n < 6 ∨ ∃ p ∈ r.ports, agrees p) → t.row = r.row ∧ t.col = r.col ∧ t.rows = r.rows ∧ t.cols = r.cols) ∧
      ∀ q : PortIn, (linkOf s q.port).up = false → ∀ v, v = (connected s q.port = true ∧ devAt q.row.val q.col.val = portPeer s q.port ∧
        q.rows = s.rows ∧ q.cols = s.cols) → ∃ w, act (.partner q) s = .next w ∧ w = { s with goodPorts := w.goodPorts, errLog := w.errLog } ∧
          (v → q.port ∈ w.goodPorts ∧ w.errLog = s.errLog) ∧ (¬v → q.port ∉ w.goodPorts ∧ w.errLog = s.errLog ++ [.badPort q.port])

/-- R184, R188, R190, R201: an elementwise operation whose checks pass gives, in every element of its destination, the operation's result
of the same elements of its sources (a broadcast gives one value to all), and joins the flags of all of them. It writes no other register
and no memory. R187, R204: an operation of the vector engine whose checks fail stops exactly, with nothing written. -/
def Obligations.VectorElements : Prop :=
  (∀ (i : Instr) (s : State) (e : VxElem) (o : IOp) (n : Nat) (src : RegSlot → (Nat → Nat) × Flags) (el : Nat → Nat × Flags),
     vxElem i = some e → o = curOp s.job .vx → n = countOf o e.v.n → vxCheck s.job o i = none → src = sourceOf s.job o e.v e.v.sf →
     (el = fun k => e.f (rndOf s.job e.v k) ((src e.v.a).1 k) ((src e.v.b).1 k) ((src e.v.c).1 k)) →
     ∃ t, exec i s = .next t ∧ vxWrote s t e.v {
       fmt := e.v.df
       vals := (List.range n).map fun k => (el k).1
       flags := (src e.v.a).2 ||| (if 2 ≤ e.sources then (src e.v.b).2 else 0) ||| (if 3 ≤ e.sources then (src e.v.c).2 else 0) |||
         joinFlags ((List.range n).map fun k => (el k).2) }) ∧
  (∀ (i : Instr) (s : State) (v : VOp) (c : Cause) (x : Word), vopOf i = some v → vxCheck s.job (curOp s.job .vx) i = some (c, x) →
     exec i s = .next (trapOp s .vx c x 0))

/-- R188, R191, R192, R196, R197, R203: moves, selections, scalings, fills, permutations, tables, packing and posting. -/
def Obligations.VectorMoves : Prop :=
  ∀ (s : State) (v : VOp) (o : IOp) (n : Nat) (a b : Nat → Nat) (fa fb : Flags) (gives : Instr → VOut → Prop),
    o = curOp s.job .vx → n = countOf o v.n → (a, fa) = sourceOf s.job o v v.sf v.a → (b, fb) = sourceOf s.job o v v.sf v.b →
    (∀ i r, gives i r ↔ (vxCheck s.job o i = none → ∃ t, exec i s = .next t ∧ vxWrote s t v r)) →
    (∀ el, (el = fun k => convert v.sf v.df v.rm v.hdr.sat (rndOf s.job v k) (if byteSource s.job o v.c k ≠ 0 then a k else b k)) →
      gives (.vsel v) { fmt := v.df, vals := (List.range n).map fun k => (el k).1
                        flags := fa ||| fb ||| joinFlags ((List.range n).map fun k => (el k).2) }) ∧
    (∀ el, (el = fun k => roundNum v.df v.rm v.hdr.sat (rndOf s.job v k) (scaled (numOf v.sf (a k)) (byteSource s.job o v.b (k / 32)))) →
      gives (.vscl v) { fmt := v.df, vals := (List.range n).map fun k => (el k).1
                        flags := fa ||| joinFlags ((List.range n).map fun k => (el k).2) }) ∧
    (v.sf ≠ .e2m1s → gives (.vmov v) { fmt := v.df, vals := (List.range n).map a, flags := fa }) ∧
    (v.sf = .e2m1s → gives (.vmov v) { fmt := .uint8, vals := (List.range (n / 32 * 18)).map (regElem s.job v.a .uint8), flags := 0 }) ∧
    (∀ k, gives (.vbc v k) { fmt := v.df, vals := (List.range n).map fun _ => a (countOf o k), flags := fa }) ∧
    (∀ el, (el = fun (k : Nat) => if Fmt.isInt v.df then narrow v.df v.hdr.sat (iotaOf o v.sf v.a + k * iotaOf o v.sf v.b)
        else roundNum v.df v.rm v.hdr.sat (rndOf s.job v k) (Num.ofInt (iotaOf o v.sf v.a + k * iotaOf o v.sf v.b))) →
      gives (.viota v) { fmt := v.df, vals := (List.range n).map fun k => (el k).1
                         flags := joinFlags ((List.range n).map fun k => (el k).2) }) ∧
    (∀ idx, idx = regElem s.job v.b .uint32 → (∀ k, k < n → idx k < capacity v.sf ∨ idx k = 0xFFFFFFFF) →
      gives (.vperm v) { fmt := v.df, vals := (List.range n).map fun k => if idx k = 0xFFFFFFFF then 0 else a (idx k), flags := fa }) ∧
    (∀ idx, idx = regElem s.job v.a v.sf → (∀ k, k < n → idx k < capacity v.df) →
      gives (.vlut v) { fmt := v.df, vals := (List.range n).map fun k => regElem s.job v.b v.df (idx k), flags := 0 }) ∧
    (∀ mask l, (mask = fun k => regElem s.job v.b .uint8 k) → l = ((List.range n).filter fun k => mask k != 0).map a →
      gives (.vpack v) { fmt := v.df, vals := l ++ List.replicate (n - l.length) 0, flags := fa } ∧
      gives (.vunpk v) {
        fmt := v.df
        vals := (List.range n).map fun k => if mask k ≠ 0 then a ((List.range k).filter fun i => mask i != 0).length else 0
        flags := fa }) ∧
    (∀ mask, (mask = fun k => regElem s.job v.a .uint8 k) →
      gives (.vpart v) { fmt := v.df, vals := (List.range n).filter (fun k => mask k != 0) ++ (List.range n).filter (fun k => mask k == 0)
                         flags := 0 }) ∧
    (s.job.fifo.length + n ≤ 16 → gives (.vpost v) {
      fmt := v.df
      vals := (List.range n).map a
      flags := fa
      post := (List.range n).map fun k => if isSigned v.sf then BitVec.ofInt 64 (intOf v.sf (a k)) else BitVec.ofNat 64 (a k) }) ∧
    (16 < s.job.fifo.length + n → vxCheck s.job o (.vpost v) = none → exec (.vpost v) s = .next s) ∧
    (∀ k, k < n → capacity v.sf ≤ regElem s.job v.b .uint32 k → regElem s.job v.b .uint32 k ≠ 0xFFFFFFFF →
      (∀ i, i < k → regElem s.job v.b .uint32 i < capacity v.sf ∨ regElem s.job v.b .uint32 i = 0xFFFFFFFF) →
      vxCheck s.job o (.vperm v) = none → exec (.vperm v) s = .next (trapOp s .vx .shapeInvalid (BitVec.ofNat 64 k) 0)) ∧
    (∀ k, k < n → capacity v.df ≤ regElem s.job v.a v.sf k → (∀ i, i < k → regElem s.job v.a v.sf i < capacity v.df) →
      vxCheck s.job o (.vlut v) = none → exec (.vlut v) s = .next (trapOp s .vx .shapeInvalid (BitVec.ofNat 64 k) 0))

/-- R191, R193 to R195, R198 to R200, R202: reductions, scans and segments, ranking and pruning, quantisation, random bits and draft
trees, each completed where its checks pass. The conversions of every broadcast source OR in their flags (R183, R41); that an ancestor slot may
hold a broadcast is log entry 65. R195: VSEGR traps with the lowest segment that offends, with 0 where there is none and off[0] lies below 0. R202,
R204: VTREE traps at a width vector that breaks R150, with the handle's number as TVAL (log entry 13, DESIGN CHOICE), and stops where the read of
the widths does; nothing is written then. -/
def Obligations.VectorReductions : Prop :=
  ∀ (s : State) (v : VOp) (o : IOp) (n : Nat) (a : Nat → Nat) (fa : Flags) (gives : Instr → VOut → Prop) (red : RedOp → Nat → Nat → Nat → Nat × Flags),
    o = curOp s.job .vx → n = countOf o v.n → (a, fa) = sourceOf s.job o v v.sf v.a →
    (∀ i r, gives i r ↔ (vxCheck s.job o i = none → ∃ t, exec i s = .next t ∧ vxWrote s t v r)) →
    (red = fun op k lo hi => reduceOp v op (rndOf s.job v k) ((List.range (hi - lo)).map fun q => a (lo + q))) →
    (∀ op, gives (.vred v op) { fmt := v.df, vals := [(red op 0 0 n).1], flags := fa ||| (red op 0 0 n).2 }) ∧
    (∀ op excl el, (el = fun k => red op k 0 (if excl then k else k + 1)) →
      gives (.vscan v op excl) { fmt := v.df, vals := (List.range n).map fun k => (el k).1
                                 flags := fa ||| joinFlags ((List.range n).map fun k => (el k).2) }) ∧
    (∀ op off el, (off = fun k => (BitVec.ofNat 32 (regElem s.job v.b .int32 k)).toInt) → 0 ≤ off 0 →
      (∀ k, k < n → off k ≤ off (k + 1) ∧ off (k + 1) ≤ capacity v.sf) → (el = fun k => red op k (off k).toNat (off (k + 1)).toNat) →
      gives (.vsegr v op) { fmt := v.df, vals := (List.range n).map fun k => (el k).1
                            flags := fa ||| joinFlags ((List.range n).map fun k => (el k).2) }) ∧
    (∀ op off k, (off = fun k => (BitVec.ofNat 32 (regElem s.job v.b .int32 k)).toInt) →
      ((n = 0 ∧ k = 0 ∧ off 0 < 0) ∨ (k < n ∧ ((k = 0 ∧ off 0 < 0) ∨ off (k + 1) < off k ∨ (capacity v.sf : Int) < off (k + 1)) ∧
        (0 < k → 0 ≤ off 0) ∧ ∀ i, i < k → off i ≤ off (i + 1) ∧ off (i + 1) ≤ capacity v.sf)) →
      vxCheck s.job o (.vsegr v op) = none → exec (.vsegr v op) s = .next (trapOp s .vx .shapeInvalid (BitVec.ofNat 64 k) 0)) ∧
    (∃ l : List Nat, l.Perm (List.range n) ∧ l = sortBy (fun i k => ranksBefore (numOf v.sf (a i)) (numOf v.sf (a k))) n ∧
      gives (.vrank v false) { fmt := v.df, vals := l, flags := fa } ∧
      gives (.vrank v true) { fmt := v.df, vals := (List.range n).map fun i => l.idxOf i, flags := fa }) ∧
    (∀ p N M lg keep, (N, M, lg) = Prune.nm p →
      (keep = fun g => keepOf N (min M (n - M * g)) fun k => numOf v.sf (a (M * g + k))) →
      gives (.vprune v p) {
        fmt := v.df
        vals := (List.range ((n + M - 1) / M)).flatMap fun g => (keep g).map fun k => if k < min M (n - M * g) then a (M * g + k) else 0
        flags := fa
        second := packBits lg ((List.range ((n + M - 1) / M)).flatMap keep) }) ∧
    (∀ k : Fin 32, v.a = .shape k → gives (.vrng v) {
      fmt := v.df
      vals := (List.range n).map fun i => (stitch (shapePair o k.val) (shapePair o (k.val + 2) + BitVec.ofNat 64 i)).toNat
      flags := 0 }) ∧
    (∀ el, (el = fun k => roundNum v.df v.rm v.hdr.sat (rndOf s.job v k) (blockValue s.job v.sf v.a v.b k)) →
      gives (.vdqnt v) { fmt := v.df, vals := (List.range n).map fun k => (el k).1
                         flags := joinFlags ((List.range n).map fun k => (el k).2) }) ∧
    (∀ x fx q, (x, fx) = sourceOf s.job o v .fp32 v.a →
      q = blocksOf ((n + 31) / 32) ((List.range n).map fun k => some (numOf .fp32 (x k))) →
      (v.df = .mxint8 → gives (.vqnt v) { fmt := .uint8, vals := q.flatMap fun y => (quantMx y).1, second := q.map fun y => (quantMx y).2.1
                                          flags := fx ||| joinFlags (q.map fun y => (quantMx y).2.2) }) ∧
      (v.df ≠ .mxint8 → gives (.vqnt v) { fmt := .uint8, vals := q.flatMap fun y => (quantE2m1s y).1
                                          flags := fx ||| joinFlags (q.map fun y => (quantE2m1s y).2) })) ∧
    (∀ k h b w x y, vecBytes s (engParty s .vx v.hdr.cls) o (opHandle o h) (opHandle o h).aux1 8 = .ok b → treeWidths (opHandle o h) b = some w →
      x = sourceOf s.job o v .uint32 v.a → y = sourceOf s.job o v .uint32 v.b →
      gives (.vtree v k h) { fmt := v.df, vals := (List.range n).map fun i => treeValue w k (x.1 i) (y.1 i), flags := x.2 ||| y.2 }) ∧
    (∀ k h e, vecBytes s (engParty s .vx v.hdr.cls) o (opHandle o h) (opHandle o h).aux1 8 = .error e → vxCheck s.job o (.vtree v k h) = none →
      exec (.vtree v k h) s = .next (stopOp s .vx 0 0 e)) ∧
    ∀ k h b l nodes, vecBytes s (engParty s .vx v.hdr.cls) o (opHandle o h) (opHandle o h).aux1 8 = .ok b →
      l = (b.map BitVec.toNat).take (opHandle o h).params → nodes = ((List.range (l.length + 1)).map fun q => (l.take q).prod).sum →
      ((∃ x ∈ l, x = 0) ∨ (∃ x ∈ b.drop (opHandle o h).params, x ≠ 0) ∨ 2 ^ 31 < nodes ∨ nodes < (opHandle o h).dim 0) →
      vxCheck s.job o (.vtree v k h) = none → exec (.vtree v k h) s = .next (trapOp s .vx .shapeInvalid (opHandle o h).free 0)

/-- R154 to R159, R162: a unit of a load puts one element, converted, or +0 where the handle has none, into its place of the registers; a
raw E2M1S block goes in as its 18 bytes, a repeat of LDB gives the value that was read, and LDZ marks the blocks of zeros. A failed check, and
an access that stops, at the place of the element or at its data, stop it exactly. Part 1 of a linear load is the reading of log entry 14
(DEDUCED), and that the first column of a raw block decides whether it is present is log entry 62 (DESIGN CHOICE). -/
def Obligations.EngineLoads : Prop :=
  ∀ (i : Instr) (s : State) (o : IOp) (x : LsInfo) (h : Hnd), o = curOp s.job .ld → lsInfo o i = some x → h = opHandle o x.h → s.units = 1 →
    (∀ c v, (∃ a, (i = .ldt a) ∨ (∃ b, i = .ldv b) ∨ (∃ b q, i = .ldb b q) ∨ (∃ b, i = .ldg b) ∨ ∃ b, i = .ldz b) →
      lsCheck .ld s.job o i = some (c, v) → exec i s = .next (trapOp s .ld c v 0)) ∧
    (lsCheck .ld s.job o i = none → ∀ c, c = ldKept s i →
      (∀ f p q, ldElems o o.prog i = some f → p = engParty s .ld f.cls → q = f.elem c p o h o.prog →
        (x.total ≤ o.prog → exec i s = .next (completeOp s .ld 0)) ∧
        (o.prog < x.total →
          (q = .ok none → ∃ w, exec i s = .next (afterUnit (ldValued w x o.prog i) .ld x.total o.prog 0) ∧ elemWrote c w x.reg x.fr o.prog 0) ∧
          (∀ e v fl, q = .ok (some e) → loadElem c p (curOp c.job .ld) h x.fr f.rm f.sat x.scales e = .ok (v, fl) →
            ∃ w, exec i s = .next (afterUnit (ldValued w x o.prog i) .ld x.total o.prog fl) ∧ elemWrote c w x.reg x.fr o.prog v) ∧
          (∀ e y, q = .ok (some e) → loadElem c p (curOp c.job .ld) h x.fr f.rm f.sat x.scales e = .error y →
            exec i s = .next (stopOp c .ld o.prog 0 y)) ∧
          (∀ e, q = .error e → exec i s = .next (stopOp c .ld o.prog 0 e)))) ∧
      (∀ l q n, i = .ldb l q → n = linTotal l.scales h (countOf o l.start) (countOf o l.n) → n ≤ o.prog → o.prog < x.total →
        ∃ w, exec i s = .next (afterUnit w .ld x.total o.prog 0) ∧ elemWrote s w l.reg l.fr o.prog (o.vals.getD (n - 1 - o.prog % n) 0)) ∧
      (∀ t p u q, i = .ldt t → t.fr = .e2m1s → t.scales = false → u = tileFirst t o o.prog → u < tileUnits o t →
        p = engParty s .ld t.hdr.cls → q = blockElem c p o t h u →
        (q = .ok none → ∃ w, exec i s = .next (afterBlock w .ld t o u 0) ∧ regBytesWrote c w t.reg (rawByte u) (List.replicate 18 0)) ∧
        (∀ e d, q = .ok (some e) → readData c p (hndLoc h p.job (h.base + 18 * (e / 32))) 18 none = .ok d →
          ∃ w, exec i s = .next (afterBlock w .ld t o u (if ∃ b ∈ d, b.2 = true then flPOI else 0)) ∧
            regBytesWrote c w t.reg (rawByte u) ((List.range d.length).map fun k =>
              if k < 16 ∧ (d[16]?.map Prod.snd) = some true then 0 else (d[k]?.map fun b => b.1.toNat).getD 0)) ∧
        (∀ e y, q = .ok (some e) → readData c p (hndLoc h p.job (h.base + 18 * (e / 32))) 18 none = .error y →
          exec i s = .next (stopOp c .ld (tileProg t o u) 0 y)) ∧
        (∀ e, q = .error e → exec i s = .next (stopOp c .ld (tileProg t o u) 0 e))) ∧
      (∀ z p l y, i = .ldz z → o.prog < x.total → p = engParty s .ld z.hdr.cls → l = hndLoc h p.job (h.base + 1024 * (o.prog : Int)) →
        (locate s p .read l 1024 = .error y ∨ ((∃ r, locate s p .read l 1024 = .ok r) ∧ readExact s p .read l 1024 = .error y)) →
        exec i s = .next (stopOp s .ld o.prog 0 y)) ∧
      (∀ z p l b core a pol owner (zero : Bool), i = .ldz z → o.prog < x.total → p = engParty s .ld z.hdr.cls → l = hndLoc h p.job (h.base + 1024 * (o.prog : Int)) →
        readExact s p .read l 1024 = .ok b → locate s p .read l 1024 = .ok (.here (.spad core) a pol, owner) → (zero = true ↔ ∀ y ∈ b, y = (0 : Byte)) →
        ∃ w m, exec i s = .next (afterUnit w .ld x.total o.prog 0) ∧ (m = if zero = true then sset s.zeroMap (core * 8192 + a / 1024) 1 else s.zeroMap) ∧
          (z.reg = .none → w = { s with zeroMap := m }) ∧
          (isDest z.reg → elemWrote { s with zeroMap := m } w z.reg .uint8 o.prog (if zero = true then 1 else 0))))

/-- R154, R155, R157, R158, R160 to R162: a unit of a store puts one register element, converted, where the handle has its element, and
writes no other byte; an INT4 byte of which the operation writes both nibbles is written whole with the first of them, where nothing stops it in
between (log entry 64, DESIGN CHOICE). Part 1 of a linear store is the reading of log entry 14 (DEDUCED), and the request of an STA element at
another device with its flags in bits 6 to 0 is log entry 30 (DESIGN CHOICE). STA adds to the element in memory, where no other party accesses its bytes in between: one that lies at
two places which no one request reaches is kept from others from its first request on (log entry 16, DEDUCED). STQ quantises a block, and a raw E2M1S block is stored as its 18 bytes. A failed check, and an access that stops, stop it exactly. -/
def Obligations.EngineStores : Prop :=
  ∀ (i : Instr) (s : State) (o : IOp) (x : LsInfo) (h : Hnd), o = curOp s.job .st → lsInfo o i = some x → h = opHandle o x.h → s.units = 1 →
    (∀ c v, ((∃ a, i = .stt a) ∨ (∃ b, i = .stv b) ∨ (∃ b, i = .sts b) ∨ (∃ b, i = .sta b) ∨ ∃ b, i = .stq b) →
      lsCheck .st s.job o i = some (c, v) → exec i s = .next (trapOp s .st c v 0)) ∧
    (lsCheck .st s.job o i = none → ∀ u, u = o.prog →
      (∀ f p q, stElems i = some f → p = engParty s .st f.cls → q = f.elem s p o h u →
        (x.total ≤ u → exec i s = .next (completeOp s .st 0)) ∧
        (u < x.total →
          (q = .ok none → exec i s = .next (afterUnit s .st x.total u 0)) ∧
          (∀ e, q = .error e → exec i s = .next (stopOp s .st u 0 e)) ∧
          (∀ e v fl, q = .ok (some e) → x.scales = false → (v, fl) = convert x.fr h.fmt f.rm f.sat 0 (regElem s.job x.reg x.fr u) →
            (h.fmt ≠ .int4 → h.fmt ≠ .e2m1s → ∀ l d sp a pol owner, l = hndLoc h p.job (h.base + (Fmt.bits h.fmt / 8 : Nat) * e) →
              d = leBytes (Fmt.bits h.fmt / 8) v → l.low + d.length ≤ 64 → locate s p .write l d.length = .ok (.here sp a pol, owner) →
              Space.fits (writeTarget s sp a owner).2.1 (writeTarget s sp a owner).2.2 d.length →
              ∃ t, exec i s = .next t ∧ bytesStored s t sp a owner d ∧ opFrame s t) ∧
            (h.fmt ≠ .int4 → h.fmt ≠ .e2m1s → ∀ w, writeBytes s p (hndLoc h p.job (h.base + (Fmt.bits h.fmt / 8 : Nat) * e))
                (leBytes (Fmt.bits h.fmt / 8) v) = .ok w → exec i s = .next (afterUnit w .st x.total u fl)) ∧
            (h.fmt ≠ .int4 → h.fmt ≠ .e2m1s → ∀ y, writeBytes s p (hndLoc h p.job (h.base + (Fmt.bits h.fmt / 8 : Nat) * e))
                (leBytes (Fmt.bits h.fmt / 8) v) = .error y → exec i s = .next (stopOp s .st u 0 y)) ∧
            (h.fmt = .int4 → u ∈ o.whole → exec i s = .next (afterUnit s .st x.total u fl)) ∧
            (∀ (e' : Int) (ready : Nat → Prop), h.fmt = .int4 → u ∉ o.whole → e' = (if e % 2 = 0 then e + 1 else e - 1) →
              (∀ k, ready k ↔ f.elem s p o h k = .ok none ∨ ∃ d r, f.elem s p o h k = .ok (some d) ∧
                locate s p .write (hndLoc h p.job (h.base + d / 2)) 1 = .ok r) →
              (∀ k n, u < k → k < x.total → f.elem s p o h k = .ok (some e') → (∀ m, u < m → m < k → ready m ∧ f.elem s p o h m ≠ .ok (some e')) →
                n = (convert x.fr h.fmt f.rm f.sat 0 (regElem s.job x.reg x.fr k)).1 →
                (∀ w, writeBytes s p (hndLoc h p.job (h.base + e / 2))
                    [BitVec.ofNat 8 (if e % 2 = 0 then v % 16 + 16 * (n % 16) else n % 16 + 16 * (v % 16))] = .ok w →
                  exec i s = .next (afterUnit (keepOp w .st fun y => { y with whole := k :: y.whole }) .st x.total u fl)) ∧
                ∀ y, writeBytes s p (hndLoc h p.job (h.base + e / 2))
                    [BitVec.ofNat 8 (if e % 2 = 0 then v % 16 + 16 * (n % 16) else n % 16 + 16 * (v % 16))] = .error y →
                  exec i s = .next (stopOp s .st u 0 y)) ∧
              ((∀ k, u < k → k < x.total → f.elem s p o h k = .ok (some e') → ∃ m, u < m ∧ m < k ∧ ¬ready m) →
                (∀ w, putNibble s p h (h.base + e / 2) (e % 2).toNat v = .ok w → exec i s = .next (afterUnit w .st x.total u fl)) ∧
                ∀ y, putNibble s p h (h.base + e / 2) (e % 2).toNat v = .error y → exec i s = .next (stopOp s .st u 0 y)))) ∧
          (∀ e d, q = .ok (some e) → x.scales = true → d = [BitVec.ofNat 8 (regElem s.job x.reg x.fr u)] →
            (∀ w, writeBytes s p (hndLoc h p.job (scaleAddr h e)) d = .ok w → exec i s = .next (afterUnit w .st x.total u 0)) ∧
            ∀ y, writeBytes s p (hndLoc h p.job (scaleAddr h e)) d = .error y → exec i s = .next (stopOp s .st u 0 y)))) ∧
      (∀ y p, i = .sta y → u < x.total → p = engParty s .st y.hdr.cls →
        (idxElem s p o y h u = .ok none → exec i s = .next (afterUnit s .st x.total u 0)) ∧
        (∀ z, idxElem s p o y h u = .error z → exec i s = .next (stopOp s .st u 0 z)) ∧
        (∀ e l n, idxElem s p o y h u = .ok (some e) → l = hndLoc h p.job (elemByte h e).1 → n = Fmt.bits h.fmt / 8 →
          (∀ z, (twoPlaces s p l n = .error z ∨ ∃ two, twoPlaces s p l n = .ok two ∧ locate s p .atomic l (min n (64 - l.low)) = .error z) →
            exec i s = .next (stopOp s .st u 0 z)) ∧
          (∀ two a, twoPlaces s p l n = .ok two → locate s p .atomic l (min n (64 - l.low)) = .ok a →
            (two ≠ [] ∨ ∃ sp at' pol owner, a = (.here sp at' pol, owner)) →
            ((∃ q ∈ two, q.busy s p.unit = true) → exec i s = .next (stopOp s .st u 0 .stall)) ∧
            ((∀ q ∈ two, q.busy s p.unit = false) →
              (∀ z, (elemBits s p h e = .error z ∨ ∃ old bad, elemBits s p h e = .ok (old, bad) ∧
                  putElem s p h e (staSum y.rm y.hdr.sat y.fr h.fmt old (regElem s.job y.reg y.fr u)).1 = .error z) →
                exec i s = .next (stopOp s .st u 0 (z.guarding two))) ∧
              ∀ old bad v fl w, elemBits s p h e = .ok (old, bad) → (v, fl) = staSum y.rm y.hdr.sat y.fr h.fmt old (regElem s.job y.reg y.fr u) →
                putElem s p h e v = .ok w →
                exec i s = .next (afterUnit (keepOp w .st fun q => { q with guard := [] }) .st x.total u (fl ||| if bad = true then flPOI else 0)))) ∧
          (∀ dev ddr pa pol owner r, twoPlaces s p l n = .ok [] → locate s p .atomic l (min n (64 - l.low)) = .ok (.remote dev ddr pa pol, owner) →
            r = answerTo s p (request s p (.scatterAdd h.fmt y.fr y.rm y.hdr.sat (BitVec.ofNat 64 (regElem s.job y.reg y.fr u))) dev ddr pa n pol)
              l.word l.line →
            (∀ v, r = .ok v → exec i s = .next (afterUnit s .st x.total u (v.result.extractLsb' 0 7))) ∧
            ∀ z, r = .error z → exec i s = .next (stopOp s .st u 0 z)) ∧
          (n ≤ 64 - l.low → twoPlaces s p l n = .ok []) ∧
          (∀ k a b, k = 64 - l.low → k < n → locate s p .atomic l k = .ok a → locate s p .atomic (l.add k) (n - k) = .ok b →
            ((∃ sp at' pol sp' at'' pol', a.1 = .here sp at' pol ∧ b.1 = .here sp' at'' pol') ∨ (besides a.1 b.1 k).isSome = true →
              twoPlaces s p l n = .ok []) ∧
            ((∃ dev ddr pa pol, a.1 = .remote dev ddr pa pol ∨ b.1 = .remote dev ddr pa pol) → besides a.1 b.1 k = none →
              twoPlaces s p l n = .ok [a.1.span s k, b.1.span s (n - k)])))) ∧
      (∀ t p k, i = .stt t → t.fr = .e2m1s → t.scales = false → k = tileFirst t o u → k < tileUnits o t → p = engParty s .st t.hdr.cls →
        (blockElem s p o t h k = .ok none → exec i s = .next (afterBlock s .st t o k 0)) ∧
        (∀ e w, blockElem s p o t h k = .ok (some e) → writeBytes s p (hndLoc h p.job (h.base + 18 * (e / 32)))
            ((List.range 18).map fun q => BitVec.ofNat 8 (regByte s.job t.reg (rawByte k + q))) = .ok w →
          exec i s = .next (afterBlock w .st t o k 0)) ∧
        (∀ e y, blockElem s p o t h k = .ok (some e) → writeBytes s p (hndLoc h p.job (h.base + 18 * (e / 32)))
            ((List.range 18).map fun q => BitVec.ofNat 8 (regByte s.job t.reg (rawByte k + q))) = .error y →
          exec i s = .next (stopOp s .st (tileProg t o k) 0 y)) ∧
        (∀ e, blockElem s p o t h k = .error e → exec i s = .next (stopOp s .st (tileProg t o k) 0 e))) ∧
      (∀ t p l tc k total (after : State → Flags → State), i = .stq t → tc = countOf o t.tc → total = countOf o t.tr * blocksIn tc →
        k = u / tc * blocksIn tc + u % tc / 32 → k < total → p = engParty s .st t.hdr.cls → l = stqBlock s.job o t h k →
        (after = fun w fl => let w := takeReplies w (.eng w.job.id .st)
          if k + 1 < total then noteProgress w .st ((k + 1) / blocksIn tc * tc + 32 * ((k + 1) % blocksIn tc)) fl else completeOp w .st fl) →
        ((blockElem s p o t h k = .ok none ∨ ∃ e, blockElem s p o t h k = .ok (some e) ∧ ∀ b ∈ l, b = none) →
          exec i s = .next (after s 0)) ∧
        (∀ y, blockElem s p o t h k = .error y → exec i s = .next (stopOp s .st (k / blocksIn tc * tc + 32 * (k % blocksIn tc)) 0 y)) ∧
        (∀ e, blockElem s p o t h k = .ok (some e) → (∃ b ∈ l, b ≠ none) →
          (h.fmt = .e2m1s → ∀ w, writeBytes s p (hndLoc h p.job (h.base + 18 * (e / 32))) ((quantE2m1s l).1.map (BitVec.ofNat 8)) = .ok w →
            exec i s = .next (after w (quantE2m1s l).2)) ∧
          (h.fmt = .e2m1s → ∀ y, writeBytes s p (hndLoc h p.job (h.base + 18 * (e / 32))) ((quantE2m1s l).1.map (BitVec.ofNat 8)) = .error y →
            exec i s = .next (stopOp s .st (k / blocksIn tc * tc + 32 * (k % blocksIn tc)) 0 y)) ∧
          (h.fmt ≠ .e2m1s → ∀ y, (writeBytes s p (hndLoc h p.job (elemByte h e).1) ((quantMx l).1.map (BitVec.ofNat 8)) = .error y ∨
              ∃ v, writeBytes s p (hndLoc h p.job (elemByte h e).1) ((quantMx l).1.map (BitVec.ofNat 8)) = .ok v ∧
                writeBytes v p (hndLoc h p.job (scaleAddr h e)) [BitVec.ofNat 8 (quantMx l).2.1] = .error y) →
            exec i s = .next (stopOp s .st (k / blocksIn tc * tc + 32 * (k % blocksIn tc)) 0 y)) ∧
          (h.fmt ≠ .e2m1s → ∀ v w, writeBytes s p (hndLoc h p.job (elemByte h e).1) ((quantMx l).1.map (BitVec.ofNat 8)) = .ok v →
            writeBytes v p (hndLoc h p.job (scaleAddr h e)) [BitVec.ofNat 8 (quantMx l).2.1] = .ok w →
            exec i s = .next (after w (quantMx l).2.2)))))

/-- R206, R216 to R219, R223, R224, R226: MLB loads a bank whole; where a column cannot be fetched it stops with the bank as it was, and will run
in full again. MACZ clears rows of accumulators, MACR reads accumulators into registers with
its fill where one is not live, MACW writes them from registers and makes them live. No other bank, accumulator or register changes, and
no memory. A failed check stops any operation of the array exactly. -/
def Obligations.MatrixState : Prop :=
  ∀ (s : State) (o : IOp) (m : Matrix), o = curOp s.job .mx → m = s.job.matrix →
    (∀ i c v, ((∃ x, i = .mlb x) ∨ (∃ x, i = .mma x) ∨ (∃ x, i = .mmb x) ∨ (∃ x, i = .msa x) ∨ (∃ x, i = .macz x) ∨ (∃ x, i = .macr x) ∨
        (∃ x, i = .macw x) ∨ ∃ x, i = .mmad x) → mxCheck s.job o i = some (c, v) → exec i s = .next (trapOp s .mx c v 0)) ∧
    (∀ (x : MlbOp) h src v cols fl, mxCheck s.job o (.mlb x) = none → h = opHandle o x.h →
      src = ({ h, reg := x.src, fmt := x.fmt, org := countOf o x.org, lane := countOf o x.lane, k := countOf o x.k, skip := false } : PassSource) →
      v = keepRowVecs s (engParty s .mx x.hdr.cls) src true 0 (countOf o x.n) →
      fetchRows v (engParty s .mx x.hdr.cls) (curOp v.job .mx) src true 0 (countOf o x.n) = .ok (cols, fl) →
      ∃ b, exec (.mlb x) s = .next (completeOp (putMatrix v (if x.bank then { m with bank1 := b } else { m with bank0 := b })) .mx fl) ∧
        b.n = countOf o x.n ∧ b.k = countOf o x.k ∧ b.fmt = x.fmt ∧ b.tags = (cols.filterMap id).map Row.tag ∧
        (b.nm = true ↔ x.src = .none ∧ h.kind = .nm) ∧
        ∀ (c q : Nat) (r : Row), (cols.filterMap id)[c]? = some r → (∀ (c' : Nat) (r' : Row), (cols.filterMap id)[c']? = some r' → r'.lanes.length ≤ 256 ∧
            ∀ v, some v ∈ r'.lanes → v < 2 ^ 32) → q < r.lanes.length → b.lane c q = r.lanes.getD q none) ∧
    (∀ (x : MlbOp) h src v e, mxCheck s.job o (.mlb x) = none → h = opHandle o x.h →
      src = ({ h, reg := x.src, fmt := x.fmt, org := countOf o x.org, lane := countOf o x.lane, k := countOf o x.k, skip := false } : PassSource) →
      v = keepRowVecs s (engParty s .mx x.hdr.cls) src true 0 (countOf o x.n) →
      fetchRows v (engParty s .mx x.hdr.cls) (curOp v.job .mx) src true 0 (countOf o x.n) = .error e →
      exec (.mlb x) s = .next (stopOp v .mx 0 0 e) ∧ (stopOp v .mx 0 0 e).job.matrix = m) ∧
    (∀ x : MaczOp, mxCheck s.job o (.macz x) = none → ∃ n, exec (.macz x) s = .next (completeOp (putMatrix s n) .mx 0) ∧
      (∀ r c, c < 96 → n.accAt r c = if x.base.val ≤ r ∧ r < x.base.val + countOf o x.m then 0 else m.accAt r c) ∧
      (∀ r c, c < 96 → sget n.live (accKey r c) = if x.base.val ≤ r ∧ r < x.base.val + countOf o x.m then 0 else sget m.live (accKey r c)) ∧
      n.bank0 = m.bank0 ∧ n.bank1 = m.bank1 ∧ (x.bpf = true → n.bpf = [] ∧ n.bpfInt = false ∧ n.bpfLive = []) ∧
      (x.bpf = false → n = { m with acc := n.acc, live := n.live })) ∧
    (∀ (x : MacOp) (val : Nat → Nat → Nat × Flags), mxCheck s.job o (.macr x) = none →
      (val = fun i c => let r := x.base.val + i
        convert (classFmt x.int) x.fmt x.rm x.hdr.sat 0
          (if sget m.live (accKey r c) = 0 then (Fill.bits x.fill).getD (m.accAt r c) else m.accAt r c)) →
      ∃ w fl, exec (.macr x) s = .next (completeOp w .mx fl) ∧ w = { s with job := { s.job with main := w.job.main, opnd := w.job.opnd } } ∧
        spanWrote s w x.reg x.fmt (countOf o x.m * countOf o x.n) (fun t => (val (t / countOf o x.n) (t % countOf o x.n)).1) .none 0 ∧
        fl = joinFlags ((outputs (countOf o x.m) (countOf o x.n)).map fun q => (val q.1 q.2.1).2)) ∧
    (∀ (x : MacOp) (val : Nat → Nat × Flags), mxCheck s.job o (.macw x) = none →
      (val = fun t => convert x.fmt (classFmt x.int) x.rm x.hdr.sat 0 (regElem s.job x.reg x.fmt t)) →
      ∃ n fl, exec (.macw x) s = .next (completeOp (putMatrix s n) .mx fl) ∧ n = { m with acc := n.acc, live := n.live } ∧
        (∀ r c, c < 96 → n.accAt r c = if x.base.val ≤ r ∧ r < x.base.val + countOf o x.m ∧ c < countOf o x.n then
          (val ((r - x.base.val) * countOf o x.n + c)).1 % 2 ^ 32 else m.accAt r c) ∧
        (∀ r c, c < 96 → sget n.live (accKey r c) = if x.base.val ≤ r ∧ r < x.base.val + countOf o x.m ∧ c < countOf o x.n then 1
          else sget m.live (accKey r c)))

/-- R32 to R36, R218 to R222, R225, R226: a turn of MMA takes one block of 32 rows against the columns of its bank, each output that is
not masked and has a lane present taking one step, which makes it live; MMB leaves the partial sums of its blocks and marks the outputs with
a product live, and leaves the other rows, columns and blocks of BPF as they are; MSA joins the live ones to the accumulators with their scales,
which makes these live; MMAD computes a row of C. A pass with K = 0 has no effect. Where a row of a block cannot be fetched, MMA and MMB stop at the
boundary of that block with its first row as TPROG: no row of it has taken effect, and those of the blocks before it stand. -/
def Obligations.MatrixPasses : Prop :=
  ∀ (s : State) (o : IOp) (m : Matrix) (after : State → Nat → Nat → Flags → State), o = curOp s.job .mx → m = s.job.matrix → s.units = 1 →
    (after = fun w n i fl => let w := takeReplies w (.eng s.job.id .mx)
      if n ≤ i + 32 then completeOp w .mx fl else noteProgress w .mx (i + 32) fl) →
    (∀ (x : MmaOp) h b src i v rows f, mxCheck s.job o (.mma x) = none → h = opHandle o x.h → b = bankOf s.job x.bank →
      src = ({ h, reg := x.src, fmt := x.fmt, org := countOf o x.org, lane := countOf o x.lane, k := countOf o x.k, skip := h.zskip && b.fin } : PassSource) →
      i = o.prog / 32 * 32 →
      ((countOf o x.k = 0 ∨ countOf o x.m ≤ i) → exec (.mma x) s = .next (completeOp s .mx 0)) ∧
      (countOf o x.k ≠ 0 → i < countOf o x.m → b.n ≤ 96 →
        v = keepRowVecs s (engParty s .mx x.hdr.cls) src false i (min 32 (countOf o x.m - i)) →
        fetchRows v (engParty s .mx x.hdr.cls) (curOp v.job .mx) src false i (min 32 (countOf o x.m - i)) = .ok (rows, f) →
        ∃ n g, exec (.mma x) s = .next (after (putMatrix v n) (countOf o x.m) i (f ||| g)) ∧ n = { m with acc := n.acc, live := n.live } ∧
          (∀ r c, c < 96 → n.accAt r c =
            match rows[r - (x.base.val + i)]? with
            | some (some a) =>
              if x.base.val + i ≤ r ∧ c < b.n ∧ unmasked x.mask a.tag (b.tag c) = true then
                (match stepAcc x.hdr.sat x.fmt b.fmt (m.accAt r c) a.lanes (b.lane c) 0 (countOf o x.k) with
                  | some q => q.1 % 2 ^ 32
                  | none => m.accAt r c)
              else m.accAt r c
            | _ => m.accAt r c) ∧
          ∀ r c, c < 96 → sget n.live (accKey r c) =
            match rows[r - (x.base.val + i)]? with
            | some (some a) =>
              if x.base.val + i ≤ r ∧ c < b.n ∧ unmasked x.mask a.tag (b.tag c) = true ∧
                  (stepAcc x.hdr.sat x.fmt b.fmt (m.accAt r c) a.lanes (b.lane c) 0 (countOf o x.k)).isSome = true then 1
              else sget m.live (accKey r c)
            | _ => sget m.live (accKey r c)) ∧
      (∀ e, countOf o x.k ≠ 0 → i < countOf o x.m →
        v = keepRowVecs s (engParty s .mx x.hdr.cls) src false i (min 32 (countOf o x.m - i)) →
        fetchRows v (engParty s .mx x.hdr.cls) (curOp v.job .mx) src false i (min 32 (countOf o x.m - i)) = .error e →
        exec (.mma x) s = .next (stopOp v .mx i 0 e) ∧ (stopOp v .mx i 0 e).job.matrix = m)) ∧
    (∀ (x : MmbOp) h b src v rows f, mxCheck s.job o (.mmb x) = none → h = opHandle o x.h → b = bankOf s.job x.bank →
      src = ({ h, reg := x.src, fmt := x.fmt, org := countOf o x.org, lane := countOf o x.lane, k := countOf o x.k, skip := h.zskip && b.fin } : PassSource) →
      (countOf o x.k = 0 → exec (.mmb x) s = .next (completeOp s .mx 0)) ∧
      (countOf o x.k ≠ 0 → o.prog = 0 → 0 < countOf o x.m → b.n ≤ 96 →
        v = keepRowVecs (putMatrix s { m with bpfInt := x.fmt == .mxint8 }) (engParty s .mx x.hdr.cls) src false 0 (countOf o x.m) →
        fetchRows v (engParty s .mx x.hdr.cls) (curOp v.job .mx) src false 0 (countOf o x.m) = .ok (rows, f) →
        ∃ n g, exec (.mmb x) s = .next (after (putMatrix v n) (countOf o x.m) 0 (f ||| g)) ∧ n.acc = m.acc ∧ n.live = m.live ∧
          n.bank0 = m.bank0 ∧ n.bank1 = m.bank1 ∧ (n.bpfInt = true ↔ x.fmt = .mxint8) ∧
          (∀ r c, c < 96 → sget n.bpfLive (accKey r c) = if r < rows.length ∧ c < b.n then
            match rows[r]? with
            | some (some a) => if unmasked x.mask a.tag (b.tag c) = true ∧ ∃ k, k < (countOf o x.k + 31) / 32 ∧
                (blockSum x.hdr.sat x.fmt b.fmt a.lanes (b.lane c) (countOf o x.k) k).isSome = true then 1 else 0
            | _ => 0
            else sget m.bpfLive (accKey r c)) ∧
          (∀ r c k, c < 96 → k < 8 → (rows.length ≤ r ∨ b.n ≤ c ∨ (countOf o x.k + 31) / 32 ≤ k) →
            sget n.bpf (accKey r c * 8 + k) = sget m.bpf (accKey r c * 8 + k)) ∧
          ∀ r c k, r < rows.length → c < b.n → k < (countOf o x.k + 31) / 32 → (sget n.bpf (accKey r c * 8 + k)).toNat =
            match rows[r]? with
            | some (some a) => if unmasked x.mask a.tag (b.tag c) = true then
                (((blockSum x.hdr.sat x.fmt b.fmt a.lanes (b.lane c) (countOf o x.k) k).map Prod.fst).getD 0) % 2 ^ 32 else 0
            | _ => 0) ∧
      (∀ e i n, i = o.prog / 32 * 32 → n = min 32 (countOf o x.m - i) → countOf o x.k ≠ 0 → i < countOf o x.m →
        v = keepRowVecs (putMatrix s { m with bpfInt := x.fmt == .mxint8 }) (engParty s .mx x.hdr.cls) src false i n →
        fetchRows v (engParty s .mx x.hdr.cls) (curOp v.job .mx) src false i n = .error e →
        exec (.mmb x) s = .next (stopOp v .mx i 0 e) ∧ (stopOp v .mx i 0 e).job.matrix = { m with bpfInt := x.fmt == .mxint8 })) ∧
    (∀ (x : MsaOp) nb, mxCheck s.job o (.msa x) = none → nb = (countOf o x.k + 31) / 32 →
      ∃ n fl, exec (.msa x) s = .next (completeOp (putMatrix s n) .mx fl) ∧ n = { m with acc := n.acc, live := n.live } ∧
        (∀ r c, c < 96 → n.accAt r c =
          if x.base.val ≤ r ∧ r < x.base.val + countOf o x.m ∧ c < countOf o x.n ∧ sget m.bpfLive (accKey (r - x.base.val) c) = 1 then
            (msaOut x.hdr.sat m (r - x.base.val) c (fun b => regByte s.job x.ra ((r - x.base.val) * nb + b))
              (fun b => regByte s.job x.rb (c * nb + b)) nb (m.accAt r c)).1 % 2 ^ 32
          else m.accAt r c) ∧
        ∀ r c, c < 96 → sget n.live (accKey r c) =
          if x.base.val ≤ r ∧ r < x.base.val + countOf o x.m ∧ c < countOf o x.n ∧ sget m.bpfLive (accKey (r - x.base.val) c) = 1 then 1
          else sget m.live (accKey r c)) ∧
    (∀ x : MmadOp, mxCheck s.job o (.mmad x) = none →
      (countOf o x.m ≤ o.prog → exec (.mmad x) s = .next (completeOp s .mx 0)) ∧
      (o.prog < countOf o x.m →
        (∀ w fl, mmadRow o x o.prog (mmadKeep x o.prog s) = .ok (w, fl) →
          exec (.mmad x) s = .next (afterUnit w .mx (countOf o x.m) o.prog fl)) ∧
        (∀ e, mmadRow o x o.prog (mmadKeep x o.prog s) = .error e → exec (.mmad x) s = .next (stopOp (mmadKeep x o.prog s) .mx o.prog 0 e)) ∧
        (∀ y f, (o.row (2 * o.prog)).isSome = false → mmadFetch (keepRowVecs (keepRowVecs s (mmadParty s x) (mmadSource o x x.ha x.af) false
            (o.prog / 32 * 32) (min 32 (countOf o x.m - o.prog / 32 * 32))) (mmadParty s x) (mmadSource o x x.hb x.bf) false 0 (countOf o x.n))
            x o.prog = .ok (y, f) → startedOp s.job.mx.pipe = some o →
          (curOp (mmadKeep x o.prog s).job .mx).rows = y.rows ∧ (curOp (mmadKeep x o.prog s).job .mx).start = y.start ∧ sameBytes s (mmadKeep x o.prog s))) ∧
      ∀ p l i (a b : Row) c e v got g st, elemAt s p o (opHandle o x.hc) { i0 := c, i1 := i, i2 := 0, i3 := 0 } = .ok (some e) → 0 < l →
        st = (if x.acc = true then o.startAt i c else 0) →
        (v, got, g) = mmadSteps x.hdr.sat x.af x.bf l (countOf o x.k) a.lanes b.lanes ((countOf o x.k + l - 1) / l) 0 (st, false, 0) →
        ∃ fl, mmadOuts s p o x (opHandle o x.hc) l i a c [some b] = .ok ([(e, (convert (classFmt (x.af == .int8)) x.cf x.rm x.hdr.sat 0
          (if unmasked x.mask a.tag b.tag = true ∧ got = true then v else (Fill.bits x.fill).getD
            (if unmasked x.mask a.tag b.tag = true then v else st))).1)], fl))

/-- R363, R275, R287, R356, R162, R219 to R221, R226: where the work of a unit has come to its end, it completes: a DARN whose sequences are
done, with REC's page not held, no watermark of the job before it (R277) and no element there that a block combines at two places (R285); a record whose units are done (AFF, RED, MCST, SIG, PGT, SKIP); a command block whose rows are done (GTH,
SCT, SCA, CPT); a collective whose status is written (ALLRED, REDSC, ALLGV, A2AV, BCAST, ARGN, FBAR); an operation of the load and store
engines and of the array whose elements, rows or columns are done (LDT, LDV, LDB, LDG, LDZ, STT, STV, STS, STA, STQ, MMA, MMB, MMAD, MLB).
-/
def Obligations.UnitsComplete : Prop :=
  (∀ (i : Instr) (s : State) (op : Nat) (d a : Reg) (r : DarnRun) (pa : Nat) (w : WalkEnd), darnForm i = some (op, d, a) →
     s.job.darn = some r → r.op = op → r.holds = true → r.ended = none → r.offs ≠ [] → r.pin = some (.hbm pa) →
     w = walk s s.job.asid (r.recAddr + 48) → (w.cause ≠ none ∨ w.entry.getLsbD 10 = false) →
     watermarked s (ctlParty s r.cls) (.va (r.recAddr + 48)) none 8 = none →
     guarded s (.ctl s.job.id) { far := none, sp := .hbm, a := pa + 48, n := 8 } = false →
     (op = 0 → r.nseq ≤ r.sdone ∧ r.first = 0) → (op = 1 → r.nseq ≤ r.sdone ∧ r.period = 0) →
     (op = 2 → r.round = 0 ∧ r.pins = 0) → (op = 3 → r.nseq ≤ r.sdone ∧ r.first ≠ r.nseq) → (op = 4 → r.npos = 0 ∧ r.pins = 0) →
     ∃ t, exec i s = .next t ∧ t.job.pc = s.job.pc + 4 ∧ t.job.darn = none ∧
       getX t d = (if d = 0 then 0 else BitVec.ofNat 64 (if op = 2 ∨ op = 4 then 0 else r.result)) ∧
       getBytes t .hbm (pa + 48) 8 = List.replicate 8 0) ∧
  (∀ (s : State) (c : Chan) (r : RecHead), c.acts s → c.st = .walking → c.cpyx = none →
     (∀ w, walkTotal w ≤ c.prog → exec (.aff r w) s = .next (finishChan s c)) ∧
     (∀ w op f rm sat, chunksBefore r w (walkTotal w) ≤ c.prog → exec (.red r w op f rm sat) s = .next (finishChan s c)) ∧
     (∀ len (n : BitVec 16) l, (∀ k, k < n.toNat → c.prog / 2 ^ k % 2 = 1) → exec (.mcst r len n l) s = .next (finishChan s c)) ∧
     (∀ v, 1 ≤ c.prog → exec (.sig r v) s = .next (finishChan s c)) ∧
     (∀ (p es n : BitVec 16) offs l, c.table = some l → totalPatches p.toNat (l.map fun x => { rows := x.1, w := x.2.1, h := x.2.2 }) ≤ c.prog →
       c.prog < 2 ^ 31 → (c.prog ≠ 0 ∨ c.sub ≠ 0) → ∃ t, exec (.pgt r p es n offs) s = .next t ∧ ∃ e, chanOf t s.curCore s.curChan = some e ∧ e.st = .finishing ∧ e.prog = c.prog) ∧
     exec (.skip r) s = .next (finishChan s c)) ∧
  (∀ (i : Instr) (s : State) (b : BlockHead) (e : IdxEntry),
     (i = .gth b ∨ i = .sct b ∨ (∃ op f, i = .sca b op f) ∨ ∃ inplace stain, i = .cpt b inplace stain) →
     blockAt s s.curIdx = some e → e.holds = true → e.finishing = false → e.halt = .going → e.wait = false → e.owed = [] → e.pins ≠ [] →
     e.count ≤ e.prog → exec i s = .next (putBlock s s.curIdx { e with finishing := true, owed := statusWrites e true })) ∧
  (∀ (i : Instr) (s : State) (x : Slot) (h : DescHead),
     ((∃ op f, i = .allred h op f) ∨ (∃ op f, i = .redsc h op f) ∨ (∃ f o, i = .allgv h f o) ∨ (∃ f c o, i = .a2av h f c o) ∨
       (∃ f r, i = .bcast h f r) ∨ (∃ o, i = .argn h o) ∨ i = .fbar h) →
     s.slots[s.curSlot]? = some x → x.halt = .going → x.phase = 3 → x.bar = none → (∀ o ∈ s.outs, o.unit ≠ (wringParty x).unit) →
     ∃ t, exec i s = .next t ∧ t.slots = s.slots.eraseIdx s.curSlot ∧ sameBytes s t) ∧
  (∀ (i : Instr) (s : State) (e : Engine) (o : IOp), o = curOp s.job e →
     ((e = .ld ∧ ((∃ t, i = .ldt t ∧ tileUnits o t ≤ tileFirst t o o.prog) ∨ (∃ l, i = .ldv l ∧ linUnits o l ≤ o.prog) ∨
         (∃ l q, i = .ldb l q ∧ countOf o q * linUnits o l ≤ o.prog) ∨ (∃ x, i = .ldg x ∧ countOf o x.n ≤ o.prog) ∨
         ∃ z, i = .ldz z ∧ countOf o z.n ≤ o.prog) ∧ lsCheck .ld s.job o i = none) ∨
       (e = .st ∧ ((∃ t, i = .stt t ∧ tileUnits o t ≤ tileFirst t o o.prog) ∨ (∃ l, i = .stv l ∧ linUnits o l ≤ o.prog) ∨
         (∃ x, i = .sts x ∧ countOf o x.n ≤ o.prog) ∨ (∃ x, i = .sta x ∧ countOf o x.n ≤ o.prog) ∨
         ∃ t, i = .stq t ∧ (countOf o t.tr = 0 ∨ countOf o t.tc = 0)) ∧ lsCheck .st s.job o i = none) ∨
       (e = .mx ∧ ((∃ x, i = .mma x ∧ (countOf o x.k = 0 ∨ countOf o x.m ≤ o.prog / 32 * 32)) ∨
         (∃ x, i = .mmb x ∧ countOf o x.k = 0) ∨ ∃ x, i = .mmad x ∧ countOf o x.m ≤ o.prog) ∧ mxCheck s.job o i = none)) →
     exec i s = .next (completeOp s e 0)) ∧
  (∀ (s : State) (x : MlbOp) (o : IOp), o = curOp s.job .mx → mxCheck s.job o (.mlb x) = none → countOf o x.n = 0 →
     ∃ t, exec (.mlb x) s = .next t ∧ (bankOf t.job x.bank).n = 0 ∧ bankOf t.job (!x.bank) = bankOf s.job (!x.bank) ∧ sameBytes s t)

/-- R43, R48, R57, R53: words and a pattern that the spec writes out decode to their instructions. -/
def Obligations.DecodeWords : Prop :=
  decodeControl 3 0x04537FFD = .addi 5 6 (-3) ∧
  decodeControl 3 0x40741602 = .ld 7 8 2 .d 2 ∧
  decodeControl 3 0x50952C8B = .amoalAdd 9 10 11 1 .device ∧
  decodeControl 3 0x20307FFB = .beq 3 0 (-5) ∧
  decodePatch 0x28730021 none = .issue { wf := true, wb := false, sf := true, sb := false } 7 3 0x21 ∧
  decodePatch 0x40730021 none = .amend 7 3 0x21 ∧
  decodePatch 0xC0350000 (some 0x00012000) = .wide { wf := false, wb := false, sf := false, sb := false } 3 5 0x00012000 ∧
  decodePatch 0x80300000 none = .stop ∧
  decodePattern .vx 0x0100E00000008004E000400200010003 =
    some (.vadd { hdr := { cls := 0, sat := false }, d := .main 3, a := .main 1, b := .opnd 2, c := .none, n := .shape 4, df := .fp32
                  sf := .fp32, rm := .rne, rnd := .none })

/-- R46, R48, R59, R60, R63, R65, R282, R351: what a word, a pattern, a record, a block or a descriptor decodes to is an instruction that
its encoding admits; a word of an unassigned major, or of a major that the image's version does not have, raises. -/
def Obligations.DecodedWellFormed : Prop :=
  (∀ v w, (decodeControl v w).wf = true) ∧ (∀ w u, (decodePatch w u).wf = true) ∧
  (∀ e p i, decodePattern e p = some i → i.wf = true) ∧ (∀ r i, decodeRecord r = some i → i.wf = true) ∧
  (∀ b i, decodeBlock b = some i → i.wf = true) ∧ (∀ d i, decodeDesc d = some i → i.wf = true) ∧
  ∀ (v m : Nat) (w : Word32), m = (w.extractLsb' 25 7).toNat →
    (m = 0 ∨ (0x0B < m ∧ m < 0x10) ∨ (0x17 < m ∧ m < 0x20) ∨ (0x2B < m ∧ m < 0x30) ∨ (0x39 < m ∧ m < 0x40) ∨ (0x4E < m ∧ m < 0x50) ∨
      (0x55 < m ∧ m < 0x58) ∨ (0x5B < m ∧ m < 0x60) ∨ (0x65 < m ∧ m < 0x70) ∨ 0x71 < m ∨ (m = 0x54 ∧ v < 3) ∨ (m = 0x55 ∧ v < 2)) →
    decodeControl v w = .unassignedMajor w

/-- R43 to R49, R57, R62: every well-formed instruction of a control-core word or a patch word is what its word decodes to, with every
operand. -/
def Obligations.RoundTripWords : Prop :=
  ∀ i c, i.wf = true → encode i = some c → Code.kind c = .word → decodeCode c = some i

/-- R50 to R55, R154, R189, R216: every well-formed operation of an engine is what its pattern decodes to, with every slot. R264 to R273,
R282, R351: every well-formed transfer, block operation and collective is what its record, command block or descriptor decodes to, with
every field. -/
def Obligations.RoundTripPatternsAndRecords : Prop :=
  (∀ i c, i.wf = true → encode i = some c → Code.kind c = .pattern → decodeCode c = some i) ∧
  (∀ i c, i.wf = true → encode i = some c → Code.kind c = .record → decodeCode c = some i)

/-- Whatever a step does, the memories keep their canonical form: addresses strictly rising, and no entry equal to what an unlisted
address reads as (zero, log entry 2), so that equal memories are equal data. -/
def Obligations.MemoryInvariant : Prop :=
  ∀ s t, Memory.wf s = true → Moves s t → Memory.wf t = true

/-- R376, R384, R83, R347: the device right after a device reset. Its memories are in canonical form; that they read as zero (log entry 2),
and that the highest stamp notified of a queue starts at 0 (log entry 1), are the model's own choices. -/
def Obligations.ResetState : Prop :=
  Memory.wf State.reset = true ∧
  State.reset.contexts = [] ∧ State.reset.jobs = [] ∧ State.reset.job.st = .absent ∧ State.reset.launches = [] ∧ State.reset.chans = [] ∧
  State.reset.windows = [] ∧ State.reset.seqs = [] ∧ State.reset.outs = [] ∧ State.reset.bootStep = 0 ∧ State.reset.bootFail = 0 ∧
  State.reset.patchApplied = false ∧ State.reset.patchRejected = false ∧
  (∀ q, hqueueOf State.reset q = { base := 0, size := 0, state := 0, next := 1, highest := 0, tries := 0, first := 0 }) ∧
  (∀ k, (ringOf State.reset k).state = 0 ∧ (ringOf State.reset k).base = 0 ∧ (ringOf State.reset k).head = 0) ∧
  ∀ q : Fin 16, State.reset.queues[q].cls = q.val / 4 ∧ State.reset.queues[q].entries = []

/-- R57, R105, R172, R295, R322, R401: a step runs the instruction that the bytes at its stream's PC decode to: of a control stream that is ready and
has no pending trap, with a translation marker taken before it (R300); of an engine stream, where the second word of a WIDE pair follows
the first. The turn that names the stream is the model's own (log entry 4). A control word whose line is poisoned raises POISON with the
PC (R105), and one whose fetch does not translate stops the stream there: its fault is raised with no register written (R295). A patch word, or the
second word of a WIDE pair, that would lie beyond the end of its section raises ILLEGAL_PATCH with its offset; one whose read fails stops the
stream at that word, with the cause of the read where it is a trap, and nothing is decoded (R401). R170, R209, R265, R284, R352: a step performs the operation that has started in an engine (an MX operation only in its job's
window), the record of a channel, a block of an index engine or a collective, as its pattern, record, block or descriptor decodes, or an
event that the agenda brings (log entry 4). -/
def Obligations.StepRuns : Prop :=
  (∀ (s v : State) (t : Turn) (rest : List Turn) (id : Nat), s.agenda = t :: rest → v.job.id = id → id ≠ 0 → v.job.resident = true →
     (∀ cs, t.act = .run id .ctl → v = focus id (turnStart s t rest) → v.job.st = .running → v.job.pending = [] → v.job.wait = .ready →
       v.job.marker = none → v.job.darn = none → readChunks v (ctlParty v 0) .fetch (.va v.job.pc) 4 = .ok cs →
       ((∀ c ∈ cs, c.bad = false) → step s = ended id v.job.pc (exec (decodeControl v.job.version (ofBytes 32 (cs.flatMap Chunk.data))) v)) ∧
       ((∃ c ∈ cs, c.bad = true) → step s = ended id v.job.pc (.next (ctlStop v (.trap .poison v.job.pc))))) ∧
     (∀ x, t.act = .run id .ctl → v = focus id (turnStart s t rest) → v.job.st = .running → v.job.pending = [] → v.job.wait = .ready →
       v.job.marker = none → v.job.darn = none → readChunks v (ctlParty v 0) .fetch (.va v.job.pc) 4 = .error x →
       ∃ w, step s = ended id v.job.pc (.next w) ∧ stopsAt v w x) ∧
     (∀ e u pc, t.act = .run id (.eng e) → u = focus id (turnStart s t rest) → v = { u with curEng := e } → engineRuns v.job e = true →
       pc = (curStream v).pc →
       (∀ w, patchAt v pc = .ok w →
         (isWide w = false → step s = wordEnded e pc (exec (decodePatch w none) v)) ∧
         (isWide w = true → wordRuns v → (decodePatch w (some 0)).raises = false →
           (∀ x, patchAt v (pc + 4) = .ok x → step s = wordEnded e pc (exec (decodePatch w (some x)) v)) ∧
           ∀ x, patchAt v (pc + 4) = .error x → step s = wordEnded e pc (.next (streamStop v x)))) ∧
       (∀ x, patchAt v pc = .error x → step s = wordEnded e pc (.next (streamStop v x))) ∧
       (∀ off, ((∃ sec, sectionOf v v.job (streamKind e) = some sec ∧ sec.off + sec.bytes < off + 4) →
           patchAt v off = .error (.trap .illegalPatch (BitVec.ofNat 64 off))) ∧
         ∀ sec b, sectionOf v v.job (streamKind e) = some sec → off + 4 ≤ sec.off + sec.bytes →
           b = readExact v (wordParty v) .fetch (.va (v.job.image + BitVec.ofNat 64 off)) 4 →
           (∀ d, b = .ok d → patchAt v off = .ok (BitVec.ofNat 32 (leNat d))) ∧ ∀ x, b = .error x → patchAt v off = .error x) ∧
       (∀ c a, (∀ x q, (x = .trap c a ∨ ∃ acc, x = .denied acc c a) → q = Machine.Unit.words id e →
           streamStop v x = streamTrap (keepWrites (reported v q) q) c a) ∧
         ∀ r y, c ≠ .pteInvalid → postFault v r = some y → streamStop v (.fault c a r) = streamTrap y c a) ∧
       ∀ y c a, y.job.id = id → y.curEng = e → ((streamTrap y c a).job.eng e).halt = .trapped ∧
         ((streamTrap y c a).job.eng e).pc = (y.job.eng e).pc ∧ ((streamTrap y c a).job.eng e).slots = (y.job.eng e).slots ∧
         ((streamTrap y c a).job.eng e).pipe = (y.job.eng e).pipe)) ∧
  (∀ (s : State) (t : Turn) (rest : List Turn), s.agenda = t :: rest →
     let u := turnStart s t rest
     (∀ id e o i v, t.act = .op id e → v = focus id { u with curEng := e } → v.job.id = id → id ≠ 0 → v.job.resident = true →
       (v.job.eng e).opHalt = .going → startedOp (v.job.eng e).pipe = some o → (e = .mx → o.sib = false → inWindow v v.job = true) →
       decodePattern e o.pat = some i →
       ((e = .mx ∨ e = .vx → (v.job.eng e).holds = true) → step s = exec i v) ∧
       (e = .mx ∨ e = .vx → (v.job.eng e).holds = false → o.sib = false → unitFree v v.job e = true → chosen v v.job e = true →
         step s = exec i { v with job := v.job.updEng e fun x => { x with holds := true, w := 0 } })) ∧
     (∀ core n c i v, t.act = .chan core n → v = { u with curCore := core, curChan := n } → chanOf v core n = some c → c.st = .walking →
       c.cpyx = none → decodeRecord c.raw = some i → step s = exec i v) ∧
     (∀ id k e i v, t.act = .index id k → v = { focus id u with curIdx := k } → v.job.id = id → id ≠ 0 → blockAt v k = some e →
       e.running = true → decodeBlock e.blk = some i → step s = exec i v) ∧
     (∀ k x i v, t.act = .wringer k → v = { u with curSlot := k } → u.slots[k]? = some x → decodeDesc x.part.desc = some i →
       step s = exec i v) ∧
     ∀ i, t.act = .event i → step s = exec i u)
end

