-- ==== Sys2Proof/Laws/Sparse.lean ====
section
/-! SUPPORT. The laws of the sparse stores: what is read after a write, and that every operation keeps the canonical form. -/

namespace Sys2Proof.Machine

/-! ### Read after write -/

theorem sget_sinsert {w : Nat} {m : Sparse w} {k : Nat} (v : BitVec w) (j : Nat) (h : ∀ e ∈ m, e.1 ≠ k) :
    sget (sinsert k v m) j = if j = k then v else sget m j := by
  induction m with
  | nil => simp only [sinsert, sget, eq_comm]
  | cons e r ih =>
    have h1 := h e (List.mem_cons_self ..)
    have ih := ih fun x hx => h x (List.mem_cons_of_mem _ hx)
    simp only [sinsert]
    split
    · simp only [sget]
      by_cases hj : j = k
      · simp [hj]
      · simp [hj, Ne.symm hj]
    · simp only [sget, ih]
      by_cases hj : e.1 = j
      · subst hj; simp [h1]
      · simp [hj]

theorem sget_filter_ne {w : Nat} (m : Sparse w) (k j : Nat) (h : j ≠ k) : sget (m.filter fun e => e.1 != k) j = sget m j := by
  induction m with
  | nil => rfl
  | cons e r ih =>
    simp only [List.filter_cons]
    split
    · simp only [sget, ih]
    · rename_i he
      have he : e.1 = k := by simpa using he
      rw [ih, sget, if_neg (by omega)]

theorem sget_absent {w : Nat} {m : Sparse w} {k : Nat} (h : ∀ e ∈ m, e.1 ≠ k) : sget m k = 0 := by
  induction m with
  | nil => rfl
  | cons e r ih =>
    rw [sget, if_neg (h e (List.mem_cons_self ..))]
    exact ih fun x hx => h x (List.mem_cons_of_mem _ hx)

/-- What a key holds after a write. -/
theorem sget_sset {w : Nat} (m : Sparse w) (k j : Nat) (v : BitVec w) : sget (sset m k v) j = if j = k then v else sget m j := by
  have h : ∀ e ∈ m.filter (fun e => e.1 != k), e.1 ≠ k := fun e he => by simpa using (List.mem_filter.1 he).2
  unfold sset
  by_cases hv : v = 0
  · rw [if_pos hv]
    by_cases hj : j = k
    · rw [if_pos hj, hj, sget_absent h, hv]
    · rw [if_neg hj, sget_filter_ne m k j hj]
  · rw [if_neg hv, sget_sinsert v j h]
    by_cases hj : j = k
    · rw [if_pos hj, if_pos hj]
    · rw [if_neg hj, if_neg hj, sget_filter_ne m k j hj]

/-- What a key holds after a run of writes. -/
theorem sget_swrite {w : Nat} (m : Sparse w) (a k : Nat) (l : List (BitVec w)) :
    sget (swrite m a l) k = if a ≤ k ∧ k < a + l.length then l.getD (k - a) 0 else sget m k := by
  induction l generalizing m a with
  | nil =>
    simp only [swrite, List.length_nil]
    rw [if_neg (by omega)]
  | cons v l ih =>
    simp only [swrite]
    rw [ih, sget_sset]
    simp only [List.length_cons]
    by_cases h1 : a + 1 ≤ k ∧ k < a + 1 + l.length
    · rw [if_pos h1, if_pos (by omega)]
      obtain ⟨n, rfl⟩ : ∃ n, k = a + 1 + n := ⟨k - (a + 1), by omega⟩
      have : a + 1 + n - a = n + 1 := by omega
      simp [this]
    · rw [if_neg h1]
      by_cases h2 : k = a
      · subst h2; simp
      · rw [if_neg h2, if_neg (by omega)]

/-! ### The canonical form -/

theorem sparseWf_tail {w : Nat} {e : Nat × BitVec w} {r : Sparse w} (h : sparseWf (e :: r) = true) : sparseWf r = true := by
  cases r with
  | nil => rfl
  | cons f r => simp only [sparseWf, Bool.and_eq_true] at h; exact h.2

theorem sparseWf_head {w : Nat} {a : Nat} {v : BitVec w} {r : Sparse w} (h : sparseWf ((a, v) :: r) = true) : v ≠ 0 := by
  cases r with
  | nil => simpa [sparseWf] using h
  | cons f r => simp only [sparseWf, Bool.and_eq_true, bne_iff_ne] at h; exact h.1.1

theorem sparseWf_lt {w : Nat} {a : Nat} {v : BitVec w} : ∀ {r : Sparse w}, sparseWf ((a, v) :: r) = true → ∀ e ∈ r, a < e.1 := by
  intro r
  induction r generalizing a v with
  | nil => intro _ e he; cases he
  | cons f r ih =>
    intro h e he
    have h2 := sparseWf_tail h
    simp only [sparseWf, Bool.and_eq_true, decide_eq_true_eq] at h
    rcases List.mem_cons.1 he with rfl | he
    · exact h.1.2
    · exact Nat.lt_trans h.1.2 (ih (v := f.2) h2 e he)

theorem sparseWf_cons {w : Nat} {a : Nat} {v : BitVec w} {r : Sparse w} (hv : v ≠ 0) (hl : ∀ e ∈ r, a < e.1)
    (hr : sparseWf r = true) : sparseWf ((a, v) :: r) = true := by
  cases r with
  | nil => simpa [sparseWf] using hv
  | cons f r =>
    simp only [sparseWf, Bool.and_eq_true, bne_iff_ne, decide_eq_true_eq]
    exact ⟨⟨hv, hl f (List.mem_cons_self ..)⟩, hr⟩

theorem sparseWf_filter {w : Nat} {m : Sparse w} (p : Nat × BitVec w → Bool) (h : sparseWf m = true) : sparseWf (m.filter p) = true := by
  induction m with
  | nil => rfl
  | cons e r ih =>
    have ht := ih (sparseWf_tail h)
    simp only [List.filter_cons]
    split
    · exact sparseWf_cons (sparseWf_head (a := e.1) (v := e.2) h)
        (fun x hx => sparseWf_lt (a := e.1) (v := e.2) h x (List.mem_of_mem_filter hx)) ht
    · exact ht

theorem mem_sinsert {w : Nat} {m : Sparse w} {k : Nat} {v : BitVec w} {e : Nat × BitVec w} (h : e ∈ sinsert k v m) :
    e.1 = k ∨ e ∈ m := by
  induction m with
  | nil =>
    simp only [sinsert, List.mem_singleton] at h
    exact .inl (by rw [h])
  | cons f r ih =>
    simp only [sinsert] at h
    split at h
    · rcases List.mem_cons.1 h with rfl | h
      · exact .inl rfl
      · exact .inr h
    · rcases List.mem_cons.1 h with rfl | h
      · exact .inr (List.mem_cons_self ..)
      · rcases ih h with h | h
        · exact .inl h
        · exact .inr (List.mem_cons_of_mem _ h)

theorem sinsert_wf {w : Nat} {m : Sparse w} {k : Nat} {v : BitVec w} (hv : v ≠ 0) (hk : ∀ e ∈ m, e.1 ≠ k) (h : sparseWf m = true) :
    sparseWf (sinsert k v m) = true := by
  induction m with
  | nil => simpa [sinsert, sparseWf] using hv
  | cons e r ih =>
    have hl := sparseWf_lt (a := e.1) (v := e.2) h
    have h1 := hk e (List.mem_cons_self ..)
    simp only [sinsert]
    split
    · rename_i hlt
      refine sparseWf_cons hv (fun x hx => ?_) h
      rcases List.mem_cons.1 hx with rfl | hx
      · exact hlt
      · exact Nat.lt_trans hlt (hl x hx)
    · refine sparseWf_cons (sparseWf_head (a := e.1) (v := e.2) h) (fun x hx => ?_)
        (ih (fun x hx => hk x (List.mem_cons_of_mem _ hx)) (sparseWf_tail h))
      rcases mem_sinsert hx with hx | hx
      · omega
      · exact hl x hx

/-- A write keeps the canonical form. -/
theorem sset_wf {w : Nat} {m : Sparse w} (k : Nat) (v : BitVec w) (h : sparseWf m = true) : sparseWf (sset m k v) = true := by
  have hf := sparseWf_filter (fun e => e.1 != k) h
  unfold sset
  by_cases hv : v = 0
  · rw [if_pos hv]; exact hf
  · rw [if_neg hv]
    exact sinsert_wf hv (fun e he => by simpa using (List.mem_filter.1 he).2) hf

theorem swrite_wf {w : Nat} {m : Sparse w} (a : Nat) (l : List (BitVec w)) (h : sparseWf m = true) : sparseWf (swrite m a l) = true := by
  induction l generalizing m a with
  | nil => exact h
  | cons v l ih => exact ih (a + 1) (sset_wf a v h)

/-- Clearing keys keeps the canonical form. -/
theorem sclear_wf {w : Nat} {m : Sparse w} (lo hi : Nat) (h : sparseWf m = true) : sparseWf (sclear m lo hi) = true :=
  sparseWf_filter _ h

/-- What a key holds after keys are cleared. -/
theorem sget_sclear {w : Nat} (m : Sparse w) (lo hi k : Nat) :
    sget (sclear m lo hi) k = if lo ≤ k ∧ k < hi then 0 else sget m k := by
  induction m with
  | nil => simp [sclear, sget]
  | cons e r ih =>
    obtain ⟨a, v⟩ := e
    have ih : sget (r.filter fun e => e.1 < lo || hi ≤ e.1) k = if lo ≤ k ∧ k < hi then 0 else sget r k := ih
    simp only [sclear, List.filter_cons]
    split
    · rename_i hp
      simp only [Bool.or_eq_true, decide_eq_true_eq] at hp
      simp only [sget]
      rw [ih]
      by_cases hk : a = k
      · subst hk; simp only [if_true]; rw [if_neg (by omega)]
      · simp [hk]
    · rename_i hp
      simp only [Bool.or_eq_true, decide_eq_true_eq, not_or] at hp
      rw [ih]
      simp only [sget]
      by_cases hk : a = k
      · subst hk; simp only [if_true]; rw [if_pos (by omega), if_pos (by omega)]
      · simp [hk]

end Sys2Proof.Machine
end

