-- ==== Sys2Proof/Laws/Mem.lean ====
section
/-! SUPPORT. The laws of the jobs of a state and of the bytes of its stores: what the shared operations of memory write, and what they
leave as it was. -/

namespace Sys2Proof.Machine

/-! ### Jobs -/

theorem findJob_id {s : State} {k : Nat} {j : Job} (h : findJob s k = some j) : j.id = k := by
  unfold findJob at h
  split at h
  · cases h
  · split at h
    · rename_i hk; cases h; exact hk
    · simpa using List.find?_some h

theorem findJob_pos {s : State} {k : Nat} {j : Job} (h : findJob s k = some j) : k ≠ 0 := by
  intro hk; simp [findJob, hk] at h

theorem find_map_id {l : List Job} {i k : Nat} {x : Job} (hx : x.id = i) (hk : k ≠ i) :
    (l.map fun y => if y.id = i then x else y).find? (fun j => j.id == k) = l.find? fun j => j.id == k := by
  induction l with
  | nil => rfl
  | cons y r ih =>
    simp only [List.map_cons, List.find?_cons]
    by_cases hy : y.id = i
    · have h1 : (x.id == k) = false := by simp; omega
      have h2 : (y.id == k) = false := by simp; omega
      simp only [hy, if_true, h1]
      rw [← hy, h2]
      simpa [hy] using ih
    · simp only [hy, if_false, ih]

theorem find_map_self {l : List Job} {i : Nat} {x j : Job} (hx : x.id = i) (h : l.find? (fun j => j.id == i) = some j) :
    (l.map fun y => if y.id = i then x else y).find? (fun j => j.id == i) = some x := by
  induction l with
  | nil => cases h
  | cons y r ih =>
    simp only [List.map_cons, List.find?_cons] at *
    by_cases hy : y.id = i
    · simp [hy, hx]
    · have : (y.id == i) = false := by simpa using hy
      rw [this] at h
      simp only [hy, if_false, this]
      exact ih h

/-- The jobs after one of them has changed. -/
theorem findJob_updJob (s : State) (i k : Nat) (f : Job → Job) (hf : ∀ j, (f j).id = j.id) :
    findJob (updJob s i f) k = if k = i then (findJob s k).map f else findJob s k := by
  unfold updJob
  cases h : findJob s i with
  | none =>
    by_cases hk : k = i
    · subst hk; simp [h]
    · simp [hk]
  | some j =>
    have hj := findJob_id h
    have h0 := findJob_pos h
    have hi : (f j).id = i := by rw [hf, hj]
    simp only [putJob, hi]
    by_cases hs : s.job.id = i
    · rw [if_pos hs]
      have : j = s.job := by simp [findJob, h0, hs] at h; exact h.symm
      subst this
      by_cases hk : k = i
      · subst hk; simp [findJob, h0, hs, hi]
      · by_cases hk0 : k = 0
        · simp [findJob, hk0]
        · simp [findJob, hk0, hk, hi, hs, Ne.symm hk]
    · rw [if_neg hs]
      have hfind : s.jobs.find? (fun j => j.id == i) = some j := by simpa [findJob, h0, hs] using h
      by_cases hk : k = i
      · subst hk
        simp [findJob, h0, hs, hfind, find_map_self hi hfind]
      · by_cases hk0 : k = 0
        · simp [findJob, hk0]
        · simp only [findJob, hk0, if_false, hk, find_map_id hi hk]

/-! ### Stores that a change of a job leaves alone -/

theorem updJob_hbm (s : State) (i : Nat) (f : Job → Job) : (updJob s i f).hbm = s.hbm := by
  unfold updJob putJob; split
  · rfl
  · split <;> rfl
theorem updJob_ddr (s : State) (i : Nat) (f : Job → Job) : (updJob s i f).ddr = s.ddr := by
  unfold updJob putJob; split
  · rfl
  · split <;> rfl
theorem updJob_host (s : State) (i : Nat) (f : Job → Job) : (updJob s i f).host = s.host := by
  unfold updJob putJob; split
  · rfl
  · split <;> rfl
theorem updJob_spad (s : State) (i : Nat) (f : Job → Job) : (updJob s i f).spad = s.spad := by
  unfold updJob putJob; split
  · rfl
  · split <;> rfl

/-- A change of a job leaves every byte alone. -/
theorem getByte_updJob (s : State) (i : Nat) (f : Job → Job) : getByte (updJob s i f) = getByte s := by
  funext sp a
  cases sp <;> simp only [getByte, updJob_hbm, updJob_ddr, updJob_host, updJob_spad]

/-! ### What a run of bytes leaves in the stores -/

theorem getByte_clearZero (s : State) (sp : Space) (a n : Nat) : getByte (clearZero s sp a n) = getByte s := by
  funext sp' a'; cases sp <;> cases sp' <;> rfl

theorem getByte_setBad (s : State) (sp : Space) (a : Nat) (p : Bool) : getByte (setBad s sp a p) = getByte s := by
  funext sp' a'; cases sp <;> cases sp' <;> rfl

theorem getByte_countHbm (s : State) (a n : Nat) : getByte (countHbm s a n) = getByte s := by
  funext sp' a'; cases sp' <;> rfl

theorem flatMap_length_const {α : Type} (l : List α) (f : α → List Byte) (n : Nat) (h : ∀ x, (f x).length = n) :
    (l.flatMap f).length = n * l.length := by
  induction l with
  | nil => simp
  | cons x r ih => simp only [List.flatMap_cons, List.length_append, h, ih, List.length_cons, Nat.mul_succ]; omega

theorem leBytes_len (n v : Nat) : (leBytes n v).length = n := by
  induction n generalizing v with
  | zero => rfl
  | succ n ih => simp [leBytes, ih]

theorem LogEntry.layout_length (j : Job) (e : LogEntry) : (e.layout j).length = 16 := by
  cases e <;> simp [LogEntry.layout, leBytes_len]

theorem FaultRec.bytes_length (r : FaultRec) : r.bytes.length = 32 := by simp [FaultRec.bytes, toBytes, leBytes_len]

theorem Basket.header_length (b : Basket) : b.header.length = 64 := by simp [Basket.header, leBytes_len]

/-- A basket laid out writes only its header and its logs. -/
theorem sget_layBasket (m : Sparse 8) (j : Job) (b : Basket) (a : Nat)
    (h1 : a < b.args.addr ∨ b.args.addr + 64 ≤ a)
    (h2 : a < b.args.addr + b.args.logOff ∨ b.args.addr + b.args.logOff + 16 * b.log.length ≤ a)
    (h3 : a < b.args.addr + b.args.fltOff ∨ b.args.addr + b.args.fltOff + 32 * b.faults.length ≤ a) :
    sget (layBasket m j b) a = sget m a := by
  unfold layBasket
  split
  · rfl
  · have e1 := flatMap_length_const (b.log.take b.args.logMax) (LogEntry.layout j) 16 (LogEntry.layout_length j)
    have e2 := flatMap_length_const (b.faults.take b.args.fltMax) (fun e => (e.record).bytes) 32 fun e => FaultRec.bytes_length _
    rw [List.length_take] at e1 e2
    simp only [sget_swrite, e1, e2, Basket.header_length]
    rw [if_neg (by omega), if_neg (by omega), if_neg (by omega)]

/-- A change of a basket writes only its header and its logs. -/
theorem getByte_updBasket (s : State) (i : Nat) (f : Basket → Basket) (sp : Space) (a : Nat)
    (h : ∀ j b, findJob s i = some j → j.basket = some b → (f b).laid = true → sp = .hbm →
      (a < (f b).args.addr ∨ (f b).args.addr + 64 ≤ a) ∧
      (a < (f b).args.addr + (f b).args.logOff ∨ (f b).args.addr + (f b).args.logOff + 16 * (f b).log.length ≤ a) ∧
      (a < (f b).args.addr + (f b).args.fltOff ∨ (f b).args.addr + (f b).args.fltOff + 32 * (f b).faults.length ≤ a)) :
    getByte (updBasket s i f) sp a = getByte s sp a := by
  unfold updBasket
  split
  · rfl
  · rename_i j hj
    split
    · rfl
    · rename_i b hb
      have hp : ∀ k : Job, (putJob s k).ddr = s.ddr ∧ (putJob s k).host = s.host ∧ (putJob s k).spad = s.spad := by
        intro k; unfold putJob; split <;> exact ⟨rfl, rfl, rfl⟩
      cases sp with
      | hbm =>
        simp only [getByte]
        by_cases hl : (f b).laid = true
        · obtain ⟨g1, g2, g3⟩ := h j b hj hb hl rfl
          exact sget_layBasket _ _ _ _ g1 g2 g3
        · simp [layBasket, hl]
      | ddr => simp only [getByte, (hp _).1]
      | host => simp only [getByte, (hp _).2.1]
      | spad c => simp only [getByte, (hp _).2.2]

theorem tubEntries_length (j : Job) (o n : Nat) : (j.tubEntries o n).length ≤ j.tubs.length := List.length_filterMap_le ..

/-- The count of a write to a job's scratchpad writes only the logs of its basket. -/
theorem getByte_countSpad (s : State) (j : Job) (o n : Nat) (sp : Space) (a : Nat)
    (hb : (findJob s j.id).bind Job.basket = j.basket) (h : ¬j.logByte sp a) : getByte (countSpad s j o n) sp a = getByte s sp a := by
  unfold countSpad
  split
  · rename_i hl
    apply getByte_updBasket
    intro k b hk hkb hlaid hsp
    have hjb : j.basket = some b := by rw [← hb, hk]; exact hkb
    have hn := tubEntries_length j o n
    have := fun g => h ⟨b, hjb, hl, hlaid, hsp, g⟩
    simp only [List.length_append]
    refine ⟨?_, ?_, ?_⟩
    · by_contra hc; exact this (.inl (by omega))
    · by_contra hc; exact this (.inr (.inl (by omega)))
    · by_contra hc; exact this (.inr (.inr (by omega)))
  · rw [getByte_updJob]

/-- The bytes after a run of bytes is stored. -/
theorem getByte_putBytes (s : State) (sp : Space) (a : Nat) (d : List Byte) (hf : Space.fits sp a d.length)
    (sp' : Space) (a' : Nat) (ha : Space.has sp' a') :
    getByte (putBytes s sp a d) sp' a' = if sp' = sp ∧ a ≤ a' ∧ a' < a + d.length then d.getD (a' - a) 0 else getByte s sp' a' := by
  cases sp with
  | hbm =>
    cases sp' with
    | hbm => simp [putBytes, getByte, sget_swrite]
    | _ => rw [if_neg (by simp)]; rfl
  | ddr =>
    cases sp' with
    | ddr => simp [putBytes, getByte, sget_swrite]
    | _ => rw [if_neg (by simp)]; rfl
  | host =>
    cases sp' with
    | host => simp [putBytes, getByte, sget_swrite]
    | _ => rw [if_neg (by simp)]; rfl
  | spad c =>
    cases sp' with
    | spad c' =>
      have e : Config.spadBytes = 8388608 := rfl
      have e1 : c * Config.spadBytes = c * 8388608 := rfl
      have e2 : c' * Config.spadBytes = c' * 8388608 := rfl
      simp only [putBytes, getByte, sget_swrite, Space.spad.injEq]
      simp only [Space.fits, Space.has, e] at hf ha
      by_cases hc : c' = c
      · subst hc
        by_cases h : a ≤ a' ∧ a' < a + d.length
        · rw [if_pos (by omega), if_pos (by omega)]
          congr 1; omega
        · rw [if_neg (by omega), if_neg (by omega)]
      · rw [if_neg (by omega), if_neg (by omega)]
    | _ => rw [if_neg (by simp)]; rfl

/-! ### What a write of one line leaves of the jobs -/

theorem findJob_jobs {s t : State} (h1 : t.job = s.job) (h2 : t.jobs = s.jobs) (k : Nat) : findJob t k = findJob s k := by
  simp only [findJob, h1, h2]

theorem putBytes_jobs (s : State) (sp : Space) (a : Nat) (d : List Byte) :
    (putBytes s sp a d).job = s.job ∧ (putBytes s sp a d).jobs = s.jobs := by cases sp <;> exact ⟨rfl, rfl⟩

theorem setBad_jobs (s : State) (sp : Space) (a : Nat) (p : Bool) : (setBad s sp a p).job = s.job ∧ (setBad s sp a p).jobs = s.jobs := by
  cases sp <;> exact ⟨rfl, rfl⟩

theorem clearZero_jobs (s : State) (sp : Space) (a n : Nat) : (clearZero s sp a n).job = s.job ∧ (clearZero s sp a n).jobs = s.jobs := by
  cases sp <;> exact ⟨rfl, rfl⟩

/-- A change of a job that keeps its basket keeps every basket. -/
theorem basket_updJob (s : State) (i k : Nat) (f : Job → Job) (hf : ∀ j, (f j).id = j.id) (hb : ∀ j, (f j).basket = j.basket) :
    (findJob (updJob s i f) k).bind Job.basket = (findJob s k).bind Job.basket := by
  rw [findJob_updJob s i k f hf]
  split
  · cases findJob s k with
    | none => rfl
    | some j => exact hb j
  · rfl

/-- Basting keeps the baskets. -/
theorem basket_bastWrite (s : State) (j : Job) (o k : Nat) :
    (findJob (bastWrite s j o).1 k).bind Job.basket = (findJob s k).bind Job.basket := by
  unfold bastWrite
  split
  · rfl
  · simp only
    split
    · have : ∀ x y, findJob (copyLine s x y) k = findJob s k := by
        intro x y
        refine findJob_jobs ?_ ?_ k
        · exact ((setBad_jobs ..).1).trans (putBytes_jobs ..).1
        · exact ((setBad_jobs ..).2).trans (putBytes_jobs ..).2
      refine Eq.trans (basket_updJob _ _ _ _ ?_ ?_) (congrArg (fun x => Option.bind x Job.basket) (this _ _))
      · intro; rfl
      · intro; rfl
    · rfl

/-- The marks after a line is written leave the bytes and the jobs. -/
theorem getByte_marks (s : State) (sp : Space) (b n : Nat) (bad : Bool) :
    getByte (if bad then setBad s sp b true else if n = 64 then setBad s sp b false else s) = getByte s := by
  split
  · exact getByte_setBad ..
  · split
    · exact getByte_setBad ..
    · rfl

theorem jobs_marks (s : State) (sp : Space) (b n : Nat) (bad : Bool) :
    (if bad then setBad s sp b true else if n = 64 then setBad s sp b false else s).job = s.job ∧
      (if bad then setBad s sp b true else if n = 64 then setBad s sp b false else s).jobs = s.jobs := by
  split
  · exact setBad_jobs ..
  · split
    · exact setBad_jobs ..
    · exact ⟨rfl, rfl⟩

theorem ownerJob_id {s : State} {owner : Option (Nat × Nat)} {j : Job} {o : Nat} (h : ownerJob s owner = some (j, o)) :
    findJob s j.id = some j := by
  unfold ownerJob at h
  cases owner with
  | none => cases h
  | some q =>
    simp only [Option.bind_some, Option.map_eq_some_iff] at h
    obtain ⟨x, hx, hxj⟩ := h
    cases hxj
    rw [findJob_id hx]; exact hx

/-- The bytes after one line of a write is stored. -/
theorem storeLine_bytes (s : State) (sp : Space) (a : Nat) (owner : Option (Nat × Nat)) (d : List Byte) (bad : Bool)
    (hf : Space.fits (writeTarget s sp a owner).2.1 (writeTarget s sp a owner).2.2 d.length) :
    bytesStored s (storeLine s sp a owner d bad) sp a owner d := by
  intro sp' a' ha hl
  rw [← getByte_putBytes _ _ _ _ hf _ _ ha]
  have hj : ownerJob s owner = owner.bind fun q => (findJob s q.1).map fun j => (j, q.2) := rfl
  cases h : ownerJob s owner with
  | none =>
    have hw : writeTarget s sp a owner = (s, (sp, a)) := by simp [writeTarget, h]
    rw [hw]
    simp only [storeLine, ← hj, h]
    cases sp <;> simp only [getByte_countHbm, getByte_marks, getByte_clearZero]
  | some q =>
    obtain ⟨j, o⟩ := q
    have hw : writeTarget s sp a owner = bastWrite s j o := by simp [writeTarget, h]
    have hid := ownerJob_id h
    rw [hw]
    simp only [storeLine, ← hj, h]
    rw [getByte_countSpad _ _ _ _ _ _ ?_ (hl j o h)]
    · simp only [getByte_marks, getByte_clearZero]
    · rw [← Option.bind_some (f := Job.basket) (a := j), ← hid, ← basket_bastWrite s j o j.id]
      refine congrArg (fun x => Option.bind x Job.basket) (findJob_jobs ?_ ?_ _)
      · exact (jobs_marks ..).1.trans ((clearZero_jobs ..).1.trans ((clearZero_jobs ..).1.trans (putBytes_jobs ..).1))
      · exact (jobs_marks ..).2.trans ((clearZero_jobs ..).2.trans ((clearZero_jobs ..).2.trans (putBytes_jobs ..).2))

end Sys2Proof.Machine
end

