-- ==== Sys2Proof/Laws/MemWf.lean ====
section
/-! SUPPORT. Every operation over the memories keeps their canonical form, and the operations over jobs, rings and traps that write
none of them leave it as it is. -/

namespace Sys2Proof.Machine

/-- The stores of two states are the same. -/
def SameStores (s t : State) : Prop :=
  (t.hbm = s.hbm ∧ t.ddr = s.ddr ∧ t.host = s.host ∧ t.spad = s.spad) ∧
    t.hbmPoison = s.hbmPoison ∧ t.ddrPoison = s.ddrPoison ∧ t.spadPoison = s.spadPoison ∧ t.zeroMap = s.zeroMap

theorem SameStores.refl (s : State) : SameStores s s := ⟨⟨rfl, rfl, rfl, rfl⟩, rfl, rfl, rfl, rfl⟩

theorem SameStores.trans {a b c : State} (h : SameStores a b) (g : SameStores b c) : SameStores a c := by
  simp_all only [SameStores, and_self]

/-- A state with the same stores is in canonical form where the other is. -/
theorem SameStores.wf {s t : State} (h : SameStores s t) (w : Memory.wf s = true) : Memory.wf t = true := by
  simp_all only [SameStores, Memory.wf]

/-! ### One store replaced by another in canonical form -/

theorem Memory.wf_hbm {s : State} {m : Sparse 8} (w : Memory.wf s = true) (h : sparseWf s.hbm = true → sparseWf m = true) :
    Memory.wf { s with hbm := m } = true := by simp_all [Memory.wf]

theorem Memory.wf_ddr {s : State} {m : Sparse 8} (w : Memory.wf s = true) (h : sparseWf s.ddr = true → sparseWf m = true) :
    Memory.wf { s with ddr := m } = true := by simp_all [Memory.wf]

theorem Memory.wf_host {s : State} {m : Sparse 8} (w : Memory.wf s = true) (h : sparseWf s.host = true → sparseWf m = true) :
    Memory.wf { s with host := m } = true := by simp_all [Memory.wf]

theorem Memory.wf_spad {s : State} {m : Sparse 8} (w : Memory.wf s = true) (h : sparseWf s.spad = true → sparseWf m = true) :
    Memory.wf { s with spad := m } = true := by simp_all [Memory.wf]

theorem Memory.wf_hbmPoison {s : State} {m : Sparse 1} (w : Memory.wf s = true) (h : sparseWf s.hbmPoison = true → sparseWf m = true) :
    Memory.wf { s with hbmPoison := m } = true := by simp_all [Memory.wf]

theorem Memory.wf_ddrPoison {s : State} {m : Sparse 1} (w : Memory.wf s = true) (h : sparseWf s.ddrPoison = true → sparseWf m = true) :
    Memory.wf { s with ddrPoison := m } = true := by simp_all [Memory.wf]

theorem Memory.wf_spadPoison {s : State} {m : Sparse 1} (w : Memory.wf s = true)
    (h : sparseWf s.spadPoison = true → sparseWf m = true) : Memory.wf { s with spadPoison := m } = true := by simp_all [Memory.wf]

theorem Memory.wf_zeroMap {s : State} {m : Sparse 1} (w : Memory.wf s = true) (h : sparseWf s.zeroMap = true → sparseWf m = true) :
    Memory.wf { s with zeroMap := m } = true := by simp_all [Memory.wf]

/-! ### Operations that write no store -/

theorem SameStores.updJob (s : State) (i : Nat) (f : Job → Job) : SameStores s (updJob s i f) := by
  unfold Machine.updJob putJob
  split
  · exact SameStores.refl s
  · split <;> exact SameStores.refl s

theorem SameStores.focus (i : Nat) (s : State) : SameStores s (focus i s) := by
  unfold Machine.focus
  split
  · exact SameStores.refl s
  · split <;> exact SameStores.refl s

theorem SameStores.putJob (s : State) (j : Job) : SameStores s (putJob s j) := by
  unfold Machine.putJob
  split <;> exact SameStores.refl s

theorem SameStores.dropJob (s : State) (i : Nat) : SameStores s (dropJob s i) := by
  unfold Machine.dropJob
  split <;> exact SameStores.refl s

theorem SameStores.closeBar (s : State) (b : BarId) : SameStores s (closeBar s b) := by
  simp only [Machine.closeBar]
  split <;> exact SameStores.refl s

theorem SameStores.idleBar (s : State) (b : BarId) : SameStores s (idleBar s b) := by
  simp only [Machine.idleBar]
  split <;> exact SameStores.refl s

/-- A clock that passes for a barrier writes no store. -/
theorem SameStores.passBar (n : Nat) (s : State) (b : BarId) : SameStores s (passBar n s b) := by
  have h := fun r => (SameStores.idleBar r b).trans (SameStores.closeBar _ b)
  simp only [Machine.passBar]
  split
  · exact (h s).trans (h _)
  · exact h s

theorem SameStores.foldl {α : Type} {f : State → α → State} (h : ∀ s a, SameStores s (f s a)) (l : List α) (s : State) :
    SameStores s (l.foldl f s) := by
  induction l generalizing s with
  | nil => exact SameStores.refl s
  | cons a r ih => exact (h s a).trans (ih _)

theorem SameStores.tick (s : State) (n : Nat) : SameStores s (tick s n) := by
  unfold Machine.tick
  split
  · exact SameStores.trans (b := mapJobs { s with clock := s.clock + n } (Job.tick s n)) (SameStores.refl s) (SameStores.foldl (SameStores.passBar n) _ _)
  · exact SameStores.refl s

theorem SameStores.setX (s : State) (r : Reg) (v : Word) : SameStores s (setX s r v) := by
  unfold Machine.setX
  split <;> exact SameStores.refl s

theorem SameStores.retireX (s : State) (r : Reg) (v : Word) : SameStores s (retireX s r v) :=
  (SameStores.setX s r v).trans (SameStores.refl _)

theorem SameStores.orFlags (s : State) (i : Nat) (f : BitVec 7) : SameStores s (orFlags s i f) := SameStores.updJob ..

theorem SameStores.deliver (s : State) (i : Nat) (t : Trap) : SameStores s (deliver s i t) := SameStores.updJob ..

/-! ### Stores of bytes, marks and the zero map -/

theorem putBytes_wf {s : State} (sp : Space) (a : Nat) (d : List Byte) (w : Memory.wf s = true) : Memory.wf (putBytes s sp a d) = true := by
  cases sp with
  | hbm => exact Memory.wf_hbm w (swrite_wf a d)
  | ddr => exact Memory.wf_ddr w (swrite_wf a d)
  | host => exact Memory.wf_host w (swrite_wf a d)
  | spad c => exact Memory.wf_spad w (swrite_wf _ d)

theorem setBad_wf {s : State} (sp : Space) (a : Nat) (p : Bool) (w : Memory.wf s = true) : Memory.wf (setBad s sp a p) = true := by
  cases sp with
  | hbm => exact Memory.wf_hbmPoison w (sset_wf _ _)
  | ddr => exact Memory.wf_ddrPoison w (sset_wf _ _)
  | host => exact w
  | spad c => exact Memory.wf_spadPoison w (sset_wf _ _)

theorem clearZero_wf {s : State} (sp : Space) (a n : Nat) (w : Memory.wf s = true) : Memory.wf (clearZero s sp a n) = true := by
  cases sp with
  | spad c => exact Memory.wf_zeroMap w (sclear_wf _ _)
  | _ => exact w

theorem layBasket_wf {m : Sparse 8} (j : Job) (b : Basket) (w : sparseWf m = true) : sparseWf (layBasket m j b) = true := by
  unfold layBasket
  split
  · exact w
  · exact swrite_wf _ _ (swrite_wf _ _ (swrite_wf _ _ w))

theorem updBasket_wf {s : State} (i : Nat) (f : Basket → Basket) (w : Memory.wf s = true) : Memory.wf (updBasket s i f) = true := by
  unfold updBasket
  split
  · exact w
  · split
    · exact w
    · rename_i _ j _ _ b _
      have h := SameStores.putJob s { j with basket := some (f b) }
      exact Memory.wf_hbm (h.wf w) fun g => layBasket_wf j (f b) (h.1.1 ▸ g)

theorem countSpad_wf {s : State} (j : Job) (o n : Nat) (w : Memory.wf s = true) : Memory.wf (countSpad s j o n) = true := by
  unfold countSpad
  split
  · exact updBasket_wf _ _ w
  · exact (SameStores.updJob ..).wf w

theorem bastWrite_wf {s : State} (j : Job) (o : Nat) (w : Memory.wf s = true) : Memory.wf (bastWrite s j o).1 = true := by
  unfold bastWrite
  split
  · exact w
  · simp only
    split
    · exact (SameStores.updJob ..).wf (setBad_wf _ _ _ (putBytes_wf _ _ _ w))
    · exact w

/-- A store to one line keeps the canonical form. -/
theorem storeLine_wf {s : State} (sp : Space) (a : Nat) (owner : Option (Nat × Nat)) (d : List Byte) (bad : Bool)
    (w : Memory.wf s = true) : Memory.wf (storeLine s sp a owner d bad) = true := by
  have mark : ∀ (r : State) (q : Space) (b : Nat), Memory.wf r = true → Memory.wf (if bad then setBad r q b true
      else if d.length = 64 then setBad r q b false else r) = true := by
    intro r q b h
    split
    · exact setBad_wf _ _ _ h
    · split
      · exact setBad_wf _ _ _ h
      · exact h
  unfold storeLine
  cases owner.bind fun q => (findJob s q.1).map fun j => (j, q.2) with
  | some q => exact countSpad_wf _ _ _ (mark _ _ _ (clearZero_wf _ _ _ (clearZero_wf _ _ _ (putBytes_wf _ _ _ (bastWrite_wf q.1 q.2 w)))))
  | none =>
    have h := mark _ sp a (clearZero_wf sp a d.length (clearZero_wf sp a d.length (putBytes_wf sp a d w)))
    cases sp with
    | hbm => exact SameStores.wf (SameStores.refl _) h
    | _ => exact h

theorem storeParts_wf {s : State} (l : List Part) (w : Memory.wf s = true) : Memory.wf (storeParts s l) = true := by
  induction l generalizing s with
  | nil => exact w
  | cons q r ih =>
    simp only [storeParts]
    split
    · exact ih (storeLine_wf _ _ _ _ _ w)
    · exact ih w

theorem writeMarked_wf {s t : State} {p : Party} {l : Loc} {d : List (Byte × Bool)} (h : writeMarked s p l d = .ok t)
    (w : Memory.wf s = true) : Memory.wf t = true := by
  unfold writeMarked at h
  split at h
  · cases h
  · split at h
    · cases h
      exact SameStores.wf (SameStores.refl _) (storeParts_wf _ w)
    · cases h

/-- A write of bytes keeps the canonical form. -/
theorem writeBytes_wf {s t : State} {p : Party} {l : Loc} {d : List Byte} (h : writeBytes s p l d = .ok t) (w : Memory.wf s = true) :
    Memory.wf t = true := writeMarked_wf h w

/-- A read-modify-write keeps it. -/
theorem readModify_wf {s t : State} {p : Party} {l : Loc} {n : Nat} {op : ReqOp} {v : Word} {f : List Byte → Option (List Byte)}
    {old : List Byte} (h : readModify s p l n op v f = .ok (old, t)) (w : Memory.wf s = true) : Memory.wf t = true := by
  unfold readModify at h
  cases hl : locate s p .atomic l n with
  | error e => rw [hl] at h; cases h
  | ok q =>
    rw [hl] at h
    obtain ⟨pl, owner⟩ := q
    cases pl with
    | remote dev ddr pa pol =>
      simp only at h
      cases ha : answerTo s p (request s p op dev ddr pa n pol) v v with
      | error e => rw [ha] at h; cases h
      | ok r => rw [ha] at h; cases h; exact w
    | here sp a pol =>
      simp only at h
      have key : ∀ (q : Space) (b : Nat), (if lineBad s q b = true then Except.error (Stop.denied .atomic .poison v)
          else match f (getBytes s q b n) with
            | none => .ok (getBytes s q b n, s)
            | some d => .ok (getBytes s q b n, storeLine s sp a owner d false)) = Except.ok (old, t) → Memory.wf t = true := by
        intro q b h
        by_cases hb : lineBad s q b = true
        · rw [if_pos hb] at h; cases h
        · rw [if_neg hb] at h
          cases hf : f (getBytes s q b n) with
          | none => rw [hf] at h; cases h; exact w
          | some d => rw [hf] at h; cases h; exact storeLine_wf _ _ _ _ _ w
      exact key _ _ h

/-! ### The pending stores of a control stream -/

theorem performStore_wf {s : State} (e : Pending) (w : Memory.wf s = true) : Memory.wf (performStore s e) = true := by
  unfold performStore
  split
  · exact w
  · exact storeLine_wf _ _ _ _ _ w
  · split
    · exact w
    · exact storeLine_wf _ _ _ _ _ w

theorem performAll_wf {s : State} (l : List Pending) (w : Memory.wf s = true) : Memory.wf (performAll s l) = true := by
  induction l generalizing s with
  | nil => exact w
  | cons e r ih => exact ih (performStore_wf e w)

theorem drainWhere_wf {s : State} (q : Pending → Bool) (w : Memory.wf s = true) : Memory.wf (drainWhere s q) = true :=
  performAll_wf _ (SameStores.wf (SameStores.refl _) w)

theorem drain_wf {s : State} (w : Memory.wf s = true) : Memory.wf (drain s) = true :=
  performAll_wf _ (SameStores.wf (SameStores.refl _) w)

/-! ### Rings and traps -/

theorem ringSignal_wf {s : State} (k : Nat) (w : Memory.wf s = true) : Memory.wf (ringSignal s k) = true := by
  simp only [ringSignal]
  split
  · exact SameStores.wf (SameStores.refl _) w
  · exact w

theorem ringWrite_wf {s : State} (k : Nat) (e : BitVec 512) (w : Memory.wf s = true) : Memory.wf (ringWrite s k e) = true := by
  simp only [ringWrite]
  exact ringSignal_wf k ((SameStores.refl _).wf (Memory.wf_host w fun h => swrite_wf _ _ (swrite_wf _ _ h)))

theorem ringFlush_wf {s : State} (n k : Nat) (w : Memory.wf s = true) : Memory.wf (ringFlush n s k) = true := by
  induction n generalizing s with
  | zero => exact w
  | succ n ih =>
    simp only [ringFlush]
    split
    · exact w
    · split
      · exact ih (ringWrite_wf _ _ (SameStores.wf (SameStores.refl _) w))
      · exact w

/-- An entry posted to a ring of the host keeps it. -/
theorem ringPost_wf {s : State} (k : Nat) (e : BitVec 512) (w : Memory.wf s = true) : Memory.wf (ringPost s k e) = true :=
  ringFlush_wf _ _ (SameStores.wf (SameStores.refl _) w)

theorem ringEvent_wf {s : State} (k kind : Nat) (c : BitVec 8) (v : Word) (w : Memory.wf s = true) :
    Memory.wf (ringEvent s k kind c v) = true := ringPost_wf _ _ (SameStores.wf (SameStores.refl _) w)

theorem tellContext_wf {s : State} (a : BitVec 16) (kind : Nat) (c : BitVec 8) (v : Word) (w : Memory.wf s = true) :
    Memory.wf (tellContext s a kind c v) = true := by
  unfold tellContext
  split
  · exact w
  · exact ringEvent_wf _ _ _ _ w

theorem escalate_wf {s : State} (c : Cause) (v : Word) (w : Memory.wf s = true) : Memory.wf (escalate s c v) = true :=
  tellContext_wf _ _ _ _ (SameStores.wf (SameStores.refl _) w)

/-- What a waiting stream gives up is in no store. -/
theorem SameStores.givenUp (s : State) : SameStores s (givenUp s) := by
  unfold Machine.givenUp
  split <;> exact SameStores.refl s

theorem divert_wf {s : State} (t : Trap) (r : List Trap) (w : Memory.wf s = true) : Memory.wf (divert s t r) = true := by
  have key : ∀ (u : State) (j k : Job) (c : Prop) [Decidable c] (v : Word), Memory.wf u = true →
      Memory.wf (if c then escalate { u with job := j } .escalated v else { u with job := k }) = true := by
    intro u j k c _ v h
    split
    · exact escalate_wf _ _ (SameStores.wf (SameStores.refl u) h)
    · exact SameStores.wf (SameStores.refl u) h
  exact key _ _ _ _ _ ((SameStores.givenUp s).wf w)

theorem divertIfPending_wf {s : State} (w : Memory.wf s = true) : Memory.wf (divertIfPending s) = true := by
  unfold divertIfPending
  split
  · exact w
  · split
    · exact w
    · exact divert_wf _ _ w

/-- Taking a trap keeps it. -/
theorem raiseAt_wf {s : State} (c : Cause) (v pc prog : Word) (w : Memory.wf s = true) : Memory.wf (raiseAt s c v pc prog) = true := by
  unfold raiseAt
  split
  · exact escalate_wf _ _ w
  · simp only
    split
    · exact SameStores.wf (SameStores.refl s) w
    · exact divertIfPending_wf (SameStores.wf (SameStores.refl s) w)

theorem raise_wf {s : State} (c : Cause) (v : Word) (w : Memory.wf s = true) : Memory.wf (raise s c v) = true := raiseAt_wf _ _ _ _ w

/-- Placing a word where the next step fetches keeps it. -/
theorem placeWord_wf {s : State} (v : Nat) (w : Memory.wf s = true) : Memory.wf (placeWord s v) = true := by
  exact (SameStores.refl _).wf (Memory.wf_hbm w fun h => swrite_wf _ _ (swrite_wf _ _ (swrite_wf _ _ (swrite_wf _ _ h))))

end Sys2Proof.Machine
end

