-- ==== Sys2Proof/Laws/State.lean ====
section
/-! SUPPORT. What the updates of the state leave in each field: one lemma per field and update. -/

namespace Sys2Proof.Machine

/-! ### setPc -/

@[simp] theorem setPc_agenda (s : State) (a : Word) : (setPc s a).agenda = s.agenda := rfl
@[simp] theorem setPc_turns (s : State) (a : Word) : (setPc s a).turns = s.turns := rfl
@[simp] theorem setPc_delay (s : State) (a : Word) : (setPc s a).delay = s.delay := rfl
@[simp] theorem setPc_units (s : State) (a : Word) : (setPc s a).units = s.units := rfl
@[simp] theorem setPc_freeCtr (s : State) (a : Word) : (setPc s a).freeCtr = s.freeCtr := rfl
@[simp] theorem setPc_nextJob (s : State) (a : Word) : (setPc s a).nextJob = s.nextJob := rfl
@[simp] theorem setPc_nextLaunch (s : State) (a : Word) : (setPc s a).nextLaunch = s.nextLaunch := rfl
@[simp] theorem setPc_curEng (s : State) (a : Word) : (setPc s a).curEng = s.curEng := rfl
@[simp] theorem setPc_curCore (s : State) (a : Word) : (setPc s a).curCore = s.curCore := rfl
@[simp] theorem setPc_curChan (s : State) (a : Word) : (setPc s a).curChan = s.curChan := rfl
@[simp] theorem setPc_curSlot (s : State) (a : Word) : (setPc s a).curSlot = s.curSlot := rfl
@[simp] theorem setPc_curIdx (s : State) (a : Word) : (setPc s a).curIdx = s.curIdx := rfl
@[simp] theorem setPc_clock (s : State) (a : Word) : (setPc s a).clock = s.clock := rfl
@[simp] theorem setPc_bootStep (s : State) (a : Word) : (setPc s a).bootStep = s.bootStep := rfl
@[simp] theorem setPc_patchApplied (s : State) (a : Word) : (setPc s a).patchApplied = s.patchApplied := rfl
@[simp] theorem setPc_patchRejected (s : State) (a : Word) : (setPc s a).patchRejected = s.patchRejected := rfl
@[simp] theorem setPc_bootFail (s : State) (a : Word) : (setPc s a).bootFail = s.bootFail := rfl
@[simp] theorem setPc_epoch (s : State) (a : Word) : (setPc s a).epoch = s.epoch := rfl
@[simp] theorem setPc_row (s : State) (a : Word) : (setPc s a).row = s.row := rfl
@[simp] theorem setPc_col (s : State) (a : Word) : (setPc s a).col = s.col := rfl
@[simp] theorem setPc_rows (s : State) (a : Word) : (setPc s a).rows = s.rows := rfl
@[simp] theorem setPc_cols (s : State) (a : Word) : (setPc s a).cols = s.cols := rfl
@[simp] theorem setPc_ddrBytes (s : State) (a : Word) : (setPc s a).ddrBytes = s.ddrBytes := rfl
@[simp] theorem setPc_powerState (s : State) (a : Word) : (setPc s a).powerState = s.powerState := rfl
@[simp] theorem setPc_caps (s : State) (a : Word) : (setPc s a).caps = s.caps := rfl
@[simp] theorem setPc_bar2Base (s : State) (a : Word) : (setPc s a).bar2Base = s.bar2Base := rfl
@[simp] theorem setPc_bar2Log (s : State) (a : Word) : (setPc s a).bar2Log = s.bar2Log := rfl
@[simp] theorem setPc_hostRead (s : State) (a : Word) : (setPc s a).hostRead = s.hostRead := rfl
@[simp] theorem setPc_measures (s : State) (a : Word) : (setPc s a).measures = s.measures := rfl
@[simp] theorem setPc_errLog (s : State) (a : Word) : (setPc s a).errLog = s.errLog := rfl
@[simp] theorem setPc_hbm (s : State) (a : Word) : (setPc s a).hbm = s.hbm := rfl
@[simp] theorem setPc_ddr (s : State) (a : Word) : (setPc s a).ddr = s.ddr := rfl
@[simp] theorem setPc_host (s : State) (a : Word) : (setPc s a).host = s.host := rfl
@[simp] theorem setPc_spad (s : State) (a : Word) : (setPc s a).spad = s.spad := rfl
@[simp] theorem setPc_hbmPoison (s : State) (a : Word) : (setPc s a).hbmPoison = s.hbmPoison := rfl
@[simp] theorem setPc_ddrPoison (s : State) (a : Word) : (setPc s a).ddrPoison = s.ddrPoison := rfl
@[simp] theorem setPc_spadPoison (s : State) (a : Word) : (setPc s a).spadPoison = s.spadPoison := rfl
@[simp] theorem setPc_zeroMap (s : State) (a : Word) : (setPc s a).zeroMap = s.zeroMap := rfl
@[simp] theorem setPc_gated (s : State) (a : Word) : (setPc s a).gated = s.gated := rfl
@[simp] theorem setPc_waking (s : State) (a : Word) : (setPc s a).waking = s.waking := rfl
@[simp] theorem setPc_tlb (s : State) (a : Word) : (setPc s a).tlb = s.tlb := rfl
@[simp] theorem setPc_oldPtes (s : State) (a : Word) : (setPc s a).oldPtes = s.oldPtes := rfl
@[simp] theorem setPc_works (s : State) (a : Word) : (setPc s a).works = s.works := rfl
@[simp] theorem setPc_curCmd (s : State) (a : Word) : (setPc s a).curCmd = s.curCmd := rfl
@[simp] theorem setPc_report (s : State) (a : Word) : (setPc s a).report = s.report := rfl
@[simp] theorem setPc_invs (s : State) (a : Word) : (setPc s a).invs = s.invs := rfl
@[simp] theorem setPc_heldReqs (s : State) (a : Word) : (setPc s a).heldReqs = s.heldReqs := rfl
@[simp] theorem setPc_goodPorts (s : State) (a : Word) : (setPc s a).goodPorts = s.goodPorts := rfl
@[simp] theorem setPc_hubWaits (s : State) (a : Word) : (setPc s a).hubWaits = s.hubWaits := rfl
@[simp] theorem setPc_faultQ (s : State) (a : Word) : (setPc s a).faultQ = s.faultQ := rfl
@[simp] theorem setPc_contexts (s : State) (a : Word) : (setPc s a).contexts = s.contexts := rfl
@[simp] theorem setPc_jobs (s : State) (a : Word) : (setPc s a).jobs = s.jobs := rfl
@[simp] theorem setPc_barriers (s : State) (a : Word) : (setPc s a).barriers = s.barriers := rfl
@[simp] theorem setPc_tubs (s : State) (a : Word) : (setPc s a).tubs = s.tubs := rfl
@[simp] theorem setPc_chans (s : State) (a : Word) : (setPc s a).chans = s.chans := rfl
@[simp] theorem setPc_wmarks (s : State) (a : Word) : (setPc s a).wmarks = s.wmarks := rfl
@[simp] theorem setPc_issued (s : State) (a : Word) : (setPc s a).issued = s.issued := rfl
@[simp] theorem setPc_queues (s : State) (a : Word) : (setPc s a).queues = s.queues := rfl
@[simp] theorem setPc_launches (s : State) (a : Word) : (setPc s a).launches = s.launches := rfl
@[simp] theorem setPc_graphs (s : State) (a : Word) : (setPc s a).graphs = s.graphs := rfl
@[simp] theorem setPc_slots (s : State) (a : Word) : (setPc s a).slots = s.slots := rfl
@[simp] theorem setPc_parts (s : State) (a : Word) : (setPc s a).parts = s.parts := rfl
@[simp] theorem setPc_submits (s : State) (a : Word) : (setPc s a).submits = s.submits := rfl
@[simp] theorem setPc_links (s : State) (a : Word) : (setPc s a).links = s.links := rfl
@[simp] theorem setPc_seqs (s : State) (a : Word) : (setPc s a).seqs = s.seqs := rfl
@[simp] theorem setPc_outs (s : State) (a : Word) : (setPc s a).outs = s.outs := rfl
@[simp] theorem setPc_windows (s : State) (a : Word) : (setPc s a).windows = s.windows := rfl
@[simp] theorem setPc_epochs (s : State) (a : Word) : (setPc s a).epochs = s.epochs := rfl
@[simp] theorem setPc_resyncs (s : State) (a : Word) : (setPc s a).resyncs = s.resyncs := rfl
@[simp] theorem setPc_outbox (s : State) (a : Word) : (setPc s a).outbox = s.outbox := rfl
@[simp] theorem setPc_farDown (s : State) (a : Word) : (setPc s a).farDown = s.farDown := rfl
@[simp] theorem setPc_peers (s : State) (a : Word) : (setPc s a).peers = s.peers := rfl
@[simp] theorem setPc_rbuf (s : State) (a : Word) : (setPc s a).rbuf = s.rbuf := rfl
@[simp] theorem setPc_sentResp (s : State) (a : Word) : (setPc s a).sentResp = s.sentResp := rfl
@[simp] theorem setPc_hqueues (s : State) (a : Word) : (setPc s a).hqueues = s.hqueues := rfl
@[simp] theorem setPc_hrings (s : State) (a : Word) : (setPc s a).hrings = s.hrings := rfl
@[simp] theorem setPc_cmds (s : State) (a : Word) : (setPc s a).cmds = s.cmds := rfl
@[simp] theorem setPc_interrupts (s : State) (a : Word) : (setPc s a).interrupts = s.interrupts := rfl
@[simp] theorem setPc_job_id (s : State) (a : Word) : (setPc s a).job.id = s.job.id := rfl
@[simp] theorem setPc_job_st (s : State) (a : Word) : (setPc s a).job.st = s.job.st := rfl
@[simp] theorem setPc_job_launch (s : State) (a : Word) : (setPc s a).job.launch = s.job.launch := rfl
@[simp] theorem setPc_job_num (s : State) (a : Word) : (setPc s a).job.num = s.job.num := rfl
@[simp] theorem setPc_job_asid (s : State) (a : Word) : (setPc s a).job.asid = s.job.asid := rfl
@[simp] theorem setPc_job_core (s : State) (a : Word) : (setPc s a).job.core = s.job.core := rfl
@[simp] theorem setPc_job_cc (s : State) (a : Word) : (setPc s a).job.cc = s.job.cc := rfl
@[simp] theorem setPc_job_image (s : State) (a : Word) : (setPc s a).job.image = s.job.image := rfl
@[simp] theorem setPc_job_version (s : State) (a : Word) : (setPc s a).job.version = s.job.version := rfl
@[simp] theorem setPc_job_levels (s : State) (a : Word) : (setPc s a).job.levels = s.job.levels := rfl
@[simp] theorem setPc_job_topScope (s : State) (a : Word) : (setPc s a).job.topScope = s.job.topScope := rfl
@[simp] theorem setPc_job_prio (s : State) (a : Word) : (setPc s a).job.prio = s.job.prio := rfl
@[simp] theorem setPc_job_altArray (s : State) (a : Word) : (setPc s a).job.altArray = s.job.altArray := rfl
@[simp] theorem setPc_job_mreg (s : State) (a : Word) : (setPc s a).job.mreg = s.job.mreg := rfl
@[simp] theorem setPc_job_oreg (s : State) (a : Word) : (setPc s a).job.oreg = s.job.oreg := rfl
@[simp] theorem setPc_job_pslot (s : State) (a : Word) : (setPc s a).job.pslot = s.job.pslot := rfl
@[simp] theorem setPc_job_cbar (s : State) (a : Word) : (setPc s a).job.cbar = s.job.cbar := rfl
@[simp] theorem setPc_job_dbar (s : State) (a : Word) : (setPc s a).job.dbar = s.job.dbar := rfl
@[simp] theorem setPc_job_gbar (s : State) (a : Word) : (setPc s a).job.gbar = s.job.gbar := rfl
@[simp] theorem setPc_job_lbars (s : State) (a : Word) : (setPc s a).job.lbars = s.job.lbars := rfl
@[simp] theorem setPc_job_stub (s : State) (a : Word) : (setPc s a).job.stub = s.job.stub := rfl
@[simp] theorem setPc_job_x (s : State) (a : Word) : (setPc s a).job.x = s.job.x := rfl
@[simp] theorem setPc_job_flags (s : State) (a : Word) : (setPc s a).job.flags = s.job.flags := rfl
@[simp] theorem setPc_job_fmask (s : State) (a : Word) : (setPc s a).job.fmask = s.job.fmask := rfl
@[simp] theorem setPc_job_dstall (s : State) (a : Word) : (setPc s a).job.dstall = s.job.dstall := rfl
@[simp] theorem setPc_job_qstall (s : State) (a : Word) : (setPc s a).job.qstall = s.job.qstall := rfl
@[simp] theorem setPc_job_itag (s : State) (a : Word) : (setPc s a).job.itag = s.job.itag := rfl
@[simp] theorem setPc_job_tvec (s : State) (a : Word) : (setPc s a).job.tvec = s.job.tvec := rfl
@[simp] theorem setPc_job_tcause (s : State) (a : Word) : (setPc s a).job.tcause = s.job.tcause := rfl
@[simp] theorem setPc_job_st' (s : State) (a : Word) : (setPc s a).job.st' = s.job.st' := rfl
@[simp] theorem setPc_job_idxW (s : State) (a : Word) : (setPc s a).job.idxW = s.job.idxW := rfl
@[simp] theorem setPc_job_clockFlags (s : State) (a : Word) : (setPc s a).job.clockFlags = s.job.clockFlags := rfl
@[simp] theorem setPc_job_ttub (s : State) (a : Word) : (setPc s a).job.ttub = s.job.ttub := rfl
@[simp] theorem setPc_job_tslot (s : State) (a : Word) : (setPc s a).job.tslot = s.job.tslot := rfl
@[simp] theorem setPc_job_waitaFrom (s : State) (a : Word) : (setPc s a).job.waitaFrom = s.job.waitaFrom := rfl
@[simp] theorem setPc_job_tword (s : State) (a : Word) : (setPc s a).job.tword = s.job.tword := rfl
@[simp] theorem setPc_job_tval (s : State) (a : Word) : (setPc s a).job.tval = s.job.tval := rfl
@[simp] theorem setPc_job_tpc (s : State) (a : Word) : (setPc s a).job.tpc = s.job.tpc := rfl
@[simp] theorem setPc_job_tstream (s : State) (a : Word) : (setPc s a).job.tstream = s.job.tstream := rfl
@[simp] theorem setPc_job_tsib (s : State) (a : Word) : (setPc s a).job.tsib = s.job.tsib := rfl
@[simp] theorem setPc_job_torig (s : State) (a : Word) : (setPc s a).job.torig = s.job.torig := rfl
@[simp] theorem setPc_job_tpend (s : State) (a : Word) : (setPc s a).job.tpend = s.job.tpend := rfl
@[simp] theorem setPc_job_hnd (s : State) (a : Word) : (setPc s a).job.hnd = s.job.hnd := rfl
@[simp] theorem setPc_job_tprog (s : State) (a : Word) : (setPc s a).job.tprog = s.job.tprog := rfl
@[simp] theorem setPc_job_spbase (s : State) (a : Word) : (setPc s a).job.spbase = s.job.spbase := rfl
@[simp] theorem setPc_job_splim (s : State) (a : Word) : (setPc s a).job.splim = s.job.splim := rfl
@[simp] theorem setPc_job_spbump (s : State) (a : Word) : (setPc s a).job.spbump = s.job.spbump := rfl
@[simp] theorem setPc_job_sphead (s : State) (a : Word) : (setPc s a).job.sphead = s.job.sphead := rfl
@[simp] theorem setPc_job_pending (s : State) (a : Word) : (setPc s a).job.pending = s.job.pending := rfl
@[simp] theorem setPc_job_stores (s : State) (a : Word) : (setPc s a).job.stores = s.job.stores := rfl
@[simp] theorem setPc_job_marker (s : State) (a : Word) : (setPc s a).job.marker = s.job.marker := rfl
@[simp] theorem setPc_job_main (s : State) (a : Word) : (setPc s a).job.main = s.job.main := rfl
@[simp] theorem setPc_job_opnd (s : State) (a : Word) : (setPc s a).job.opnd = s.job.opnd := rfl
@[simp] theorem setPc_job_last (s : State) (a : Word) : (setPc s a).job.last = s.job.last := rfl
@[simp] theorem setPc_job_shapes (s : State) (a : Word) : (setPc s a).job.shapes = s.job.shapes := rfl
@[simp] theorem setPc_job_handles (s : State) (a : Word) : (setPc s a).job.handles = s.job.handles := rfl
@[simp] theorem setPc_job_tokens (s : State) (a : Word) : (setPc s a).job.tokens = s.job.tokens := rfl
@[simp] theorem setPc_job_fifo (s : State) (a : Word) : (setPc s a).job.fifo = s.job.fifo := rfl
@[simp] theorem setPc_job_ld (s : State) (a : Word) : (setPc s a).job.ld = s.job.ld := rfl
@[simp] theorem setPc_job_mx (s : State) (a : Word) : (setPc s a).job.mx = s.job.mx := rfl
@[simp] theorem setPc_job_vx (s : State) (a : Word) : (setPc s a).job.vx = s.job.vx := rfl
@[simp] theorem setPc_job_st2 (s : State) (a : Word) : (setPc s a).job.st' = s.job.st' := rfl
@[simp] theorem setPc_job_arrivals (s : State) (a : Word) : (setPc s a).job.arrivals = s.job.arrivals := rfl
@[simp] theorem setPc_job_rendezvous (s : State) (a : Word) : (setPc s a).job.rendezvous = s.job.rendezvous := rfl
@[simp] theorem setPc_job_retiring (s : State) (a : Word) : (setPc s a).job.retiring = s.job.retiring := rfl
@[simp] theorem setPc_job_matrix (s : State) (a : Word) : (setPc s a).job.matrix = s.job.matrix := rfl
@[simp] theorem setPc_job_rings (s : State) (a : Word) : (setPc s a).job.rings = s.job.rings := rfl
@[simp] theorem setPc_job_pend (s : State) (a : Word) : (setPc s a).job.pend = s.job.pend := rfl
@[simp] theorem setPc_job_pairs (s : State) (a : Word) : (setPc s a).job.pairs = s.job.pairs := rfl
@[simp] theorem setPc_job_tubs (s : State) (a : Word) : (setPc s a).job.tubs = s.job.tubs := rfl
@[simp] theorem setPc_job_index (s : State) (a : Word) : (setPc s a).job.index = s.job.index := rfl
@[simp] theorem setPc_job_inbox (s : State) (a : Word) : (setPc s a).job.inbox = s.job.inbox := rfl
@[simp] theorem setPc_job_partner (s : State) (a : Word) : (setPc s a).job.partner = s.job.partner := rfl
@[simp] theorem setPc_job_darn (s : State) (a : Word) : (setPc s a).job.darn = s.job.darn := rfl
@[simp] theorem setPc_job_basket (s : State) (a : Word) : (setPc s a).job.basket = s.job.basket := rfl

/-! ### hold -/

@[simp] theorem hold_agenda (s : State) (w : CtlWait) : (hold s w).agenda = s.agenda := rfl
@[simp] theorem hold_turns (s : State) (w : CtlWait) : (hold s w).turns = s.turns := rfl
@[simp] theorem hold_delay (s : State) (w : CtlWait) : (hold s w).delay = s.delay := rfl
@[simp] theorem hold_units (s : State) (w : CtlWait) : (hold s w).units = s.units := rfl
@[simp] theorem hold_freeCtr (s : State) (w : CtlWait) : (hold s w).freeCtr = s.freeCtr := rfl
@[simp] theorem hold_nextJob (s : State) (w : CtlWait) : (hold s w).nextJob = s.nextJob := rfl
@[simp] theorem hold_nextLaunch (s : State) (w : CtlWait) : (hold s w).nextLaunch = s.nextLaunch := rfl
@[simp] theorem hold_curEng (s : State) (w : CtlWait) : (hold s w).curEng = s.curEng := rfl
@[simp] theorem hold_curCore (s : State) (w : CtlWait) : (hold s w).curCore = s.curCore := rfl
@[simp] theorem hold_curChan (s : State) (w : CtlWait) : (hold s w).curChan = s.curChan := rfl
@[simp] theorem hold_curSlot (s : State) (w : CtlWait) : (hold s w).curSlot = s.curSlot := rfl
@[simp] theorem hold_curIdx (s : State) (w : CtlWait) : (hold s w).curIdx = s.curIdx := rfl
@[simp] theorem hold_clock (s : State) (w : CtlWait) : (hold s w).clock = s.clock := rfl
@[simp] theorem hold_bootStep (s : State) (w : CtlWait) : (hold s w).bootStep = s.bootStep := rfl
@[simp] theorem hold_patchApplied (s : State) (w : CtlWait) : (hold s w).patchApplied = s.patchApplied := rfl
@[simp] theorem hold_patchRejected (s : State) (w : CtlWait) : (hold s w).patchRejected = s.patchRejected := rfl
@[simp] theorem hold_bootFail (s : State) (w : CtlWait) : (hold s w).bootFail = s.bootFail := rfl
@[simp] theorem hold_epoch (s : State) (w : CtlWait) : (hold s w).epoch = s.epoch := rfl
@[simp] theorem hold_row (s : State) (w : CtlWait) : (hold s w).row = s.row := rfl
@[simp] theorem hold_col (s : State) (w : CtlWait) : (hold s w).col = s.col := rfl
@[simp] theorem hold_rows (s : State) (w : CtlWait) : (hold s w).rows = s.rows := rfl
@[simp] theorem hold_cols (s : State) (w : CtlWait) : (hold s w).cols = s.cols := rfl
@[simp] theorem hold_ddrBytes (s : State) (w : CtlWait) : (hold s w).ddrBytes = s.ddrBytes := rfl
@[simp] theorem hold_powerState (s : State) (w : CtlWait) : (hold s w).powerState = s.powerState := rfl
@[simp] theorem hold_caps (s : State) (w : CtlWait) : (hold s w).caps = s.caps := rfl
@[simp] theorem hold_bar2Base (s : State) (w : CtlWait) : (hold s w).bar2Base = s.bar2Base := rfl
@[simp] theorem hold_bar2Log (s : State) (w : CtlWait) : (hold s w).bar2Log = s.bar2Log := rfl
@[simp] theorem hold_hostRead (s : State) (w : CtlWait) : (hold s w).hostRead = s.hostRead := rfl
@[simp] theorem hold_measures (s : State) (w : CtlWait) : (hold s w).measures = s.measures := rfl
@[simp] theorem hold_errLog (s : State) (w : CtlWait) : (hold s w).errLog = s.errLog := rfl
@[simp] theorem hold_hbm (s : State) (w : CtlWait) : (hold s w).hbm = s.hbm := rfl
@[simp] theorem hold_ddr (s : State) (w : CtlWait) : (hold s w).ddr = s.ddr := rfl
@[simp] theorem hold_host (s : State) (w : CtlWait) : (hold s w).host = s.host := rfl
@[simp] theorem hold_spad (s : State) (w : CtlWait) : (hold s w).spad = s.spad := rfl
@[simp] theorem hold_hbmPoison (s : State) (w : CtlWait) : (hold s w).hbmPoison = s.hbmPoison := rfl
@[simp] theorem hold_ddrPoison (s : State) (w : CtlWait) : (hold s w).ddrPoison = s.ddrPoison := rfl
@[simp] theorem hold_spadPoison (s : State) (w : CtlWait) : (hold s w).spadPoison = s.spadPoison := rfl
@[simp] theorem hold_zeroMap (s : State) (w : CtlWait) : (hold s w).zeroMap = s.zeroMap := rfl
@[simp] theorem hold_gated (s : State) (w : CtlWait) : (hold s w).gated = s.gated := rfl
@[simp] theorem hold_waking (s : State) (w : CtlWait) : (hold s w).waking = s.waking := rfl
@[simp] theorem hold_tlb (s : State) (w : CtlWait) : (hold s w).tlb = s.tlb := rfl
@[simp] theorem hold_oldPtes (s : State) (w : CtlWait) : (hold s w).oldPtes = s.oldPtes := rfl
@[simp] theorem hold_works (s : State) (w : CtlWait) : (hold s w).works = s.works := rfl
@[simp] theorem hold_curCmd (s : State) (w : CtlWait) : (hold s w).curCmd = s.curCmd := rfl
@[simp] theorem hold_report (s : State) (w : CtlWait) : (hold s w).report = s.report := rfl
@[simp] theorem hold_invs (s : State) (w : CtlWait) : (hold s w).invs = s.invs := rfl
@[simp] theorem hold_heldReqs (s : State) (w : CtlWait) : (hold s w).heldReqs = s.heldReqs := rfl
@[simp] theorem hold_goodPorts (s : State) (w : CtlWait) : (hold s w).goodPorts = s.goodPorts := rfl
@[simp] theorem hold_hubWaits (s : State) (w : CtlWait) : (hold s w).hubWaits = s.hubWaits := rfl
@[simp] theorem hold_faultQ (s : State) (w : CtlWait) : (hold s w).faultQ = s.faultQ := rfl
@[simp] theorem hold_contexts (s : State) (w : CtlWait) : (hold s w).contexts = s.contexts := rfl
@[simp] theorem hold_jobs (s : State) (w : CtlWait) : (hold s w).jobs = s.jobs := rfl
@[simp] theorem hold_barriers (s : State) (w : CtlWait) : (hold s w).barriers = s.barriers := rfl
@[simp] theorem hold_tubs (s : State) (w : CtlWait) : (hold s w).tubs = s.tubs := rfl
@[simp] theorem hold_chans (s : State) (w : CtlWait) : (hold s w).chans = s.chans := rfl
@[simp] theorem hold_wmarks (s : State) (w : CtlWait) : (hold s w).wmarks = s.wmarks := rfl
@[simp] theorem hold_issued (s : State) (w : CtlWait) : (hold s w).issued = s.issued := rfl
@[simp] theorem hold_queues (s : State) (w : CtlWait) : (hold s w).queues = s.queues := rfl
@[simp] theorem hold_launches (s : State) (w : CtlWait) : (hold s w).launches = s.launches := rfl
@[simp] theorem hold_graphs (s : State) (w : CtlWait) : (hold s w).graphs = s.graphs := rfl
@[simp] theorem hold_slots (s : State) (w : CtlWait) : (hold s w).slots = s.slots := rfl
@[simp] theorem hold_parts (s : State) (w : CtlWait) : (hold s w).parts = s.parts := rfl
@[simp] theorem hold_submits (s : State) (w : CtlWait) : (hold s w).submits = s.submits := rfl
@[simp] theorem hold_links (s : State) (w : CtlWait) : (hold s w).links = s.links := rfl
@[simp] theorem hold_seqs (s : State) (w : CtlWait) : (hold s w).seqs = s.seqs := rfl
@[simp] theorem hold_outs (s : State) (w : CtlWait) : (hold s w).outs = s.outs := rfl
@[simp] theorem hold_windows (s : State) (w : CtlWait) : (hold s w).windows = s.windows := rfl
@[simp] theorem hold_epochs (s : State) (w : CtlWait) : (hold s w).epochs = s.epochs := rfl
@[simp] theorem hold_resyncs (s : State) (w : CtlWait) : (hold s w).resyncs = s.resyncs := rfl
@[simp] theorem hold_outbox (s : State) (w : CtlWait) : (hold s w).outbox = s.outbox := rfl
@[simp] theorem hold_farDown (s : State) (w : CtlWait) : (hold s w).farDown = s.farDown := rfl
@[simp] theorem hold_peers (s : State) (w : CtlWait) : (hold s w).peers = s.peers := rfl
@[simp] theorem hold_rbuf (s : State) (w : CtlWait) : (hold s w).rbuf = s.rbuf := rfl
@[simp] theorem hold_sentResp (s : State) (w : CtlWait) : (hold s w).sentResp = s.sentResp := rfl
@[simp] theorem hold_hqueues (s : State) (w : CtlWait) : (hold s w).hqueues = s.hqueues := rfl
@[simp] theorem hold_hrings (s : State) (w : CtlWait) : (hold s w).hrings = s.hrings := rfl
@[simp] theorem hold_cmds (s : State) (w : CtlWait) : (hold s w).cmds = s.cmds := rfl
@[simp] theorem hold_interrupts (s : State) (w : CtlWait) : (hold s w).interrupts = s.interrupts := rfl
@[simp] theorem hold_job_id (s : State) (w : CtlWait) : (hold s w).job.id = s.job.id := rfl
@[simp] theorem hold_job_st (s : State) (w : CtlWait) : (hold s w).job.st = s.job.st := rfl
@[simp] theorem hold_job_launch (s : State) (w : CtlWait) : (hold s w).job.launch = s.job.launch := rfl
@[simp] theorem hold_job_num (s : State) (w : CtlWait) : (hold s w).job.num = s.job.num := rfl
@[simp] theorem hold_job_asid (s : State) (w : CtlWait) : (hold s w).job.asid = s.job.asid := rfl
@[simp] theorem hold_job_core (s : State) (w : CtlWait) : (hold s w).job.core = s.job.core := rfl
@[simp] theorem hold_job_cc (s : State) (w : CtlWait) : (hold s w).job.cc = s.job.cc := rfl
@[simp] theorem hold_job_image (s : State) (w : CtlWait) : (hold s w).job.image = s.job.image := rfl
@[simp] theorem hold_job_version (s : State) (w : CtlWait) : (hold s w).job.version = s.job.version := rfl
@[simp] theorem hold_job_levels (s : State) (w : CtlWait) : (hold s w).job.levels = s.job.levels := rfl
@[simp] theorem hold_job_topScope (s : State) (w : CtlWait) : (hold s w).job.topScope = s.job.topScope := rfl
@[simp] theorem hold_job_prio (s : State) (w : CtlWait) : (hold s w).job.prio = s.job.prio := rfl
@[simp] theorem hold_job_altArray (s : State) (w : CtlWait) : (hold s w).job.altArray = s.job.altArray := rfl
@[simp] theorem hold_job_mreg (s : State) (w : CtlWait) : (hold s w).job.mreg = s.job.mreg := rfl
@[simp] theorem hold_job_oreg (s : State) (w : CtlWait) : (hold s w).job.oreg = s.job.oreg := rfl
@[simp] theorem hold_job_pslot (s : State) (w : CtlWait) : (hold s w).job.pslot = s.job.pslot := rfl
@[simp] theorem hold_job_cbar (s : State) (w : CtlWait) : (hold s w).job.cbar = s.job.cbar := rfl
@[simp] theorem hold_job_dbar (s : State) (w : CtlWait) : (hold s w).job.dbar = s.job.dbar := rfl
@[simp] theorem hold_job_gbar (s : State) (w : CtlWait) : (hold s w).job.gbar = s.job.gbar := rfl
@[simp] theorem hold_job_lbars (s : State) (w : CtlWait) : (hold s w).job.lbars = s.job.lbars := rfl
@[simp] theorem hold_job_stub (s : State) (w : CtlWait) : (hold s w).job.stub = s.job.stub := rfl
@[simp] theorem hold_job_x (s : State) (w : CtlWait) : (hold s w).job.x = s.job.x := rfl
@[simp] theorem hold_job_pc (s : State) (w : CtlWait) : (hold s w).job.pc = s.job.pc := rfl
@[simp] theorem hold_job_flags (s : State) (w : CtlWait) : (hold s w).job.flags = s.job.flags := rfl
@[simp] theorem hold_job_fmask (s : State) (w : CtlWait) : (hold s w).job.fmask = s.job.fmask := rfl
@[simp] theorem hold_job_dstall (s : State) (w : CtlWait) : (hold s w).job.dstall = s.job.dstall := rfl
@[simp] theorem hold_job_qstall (s : State) (w : CtlWait) : (hold s w).job.qstall = s.job.qstall := rfl
@[simp] theorem hold_job_itag (s : State) (w : CtlWait) : (hold s w).job.itag = s.job.itag := rfl
@[simp] theorem hold_job_tvec (s : State) (w : CtlWait) : (hold s w).job.tvec = s.job.tvec := rfl
@[simp] theorem hold_job_tcause (s : State) (w : CtlWait) : (hold s w).job.tcause = s.job.tcause := rfl
@[simp] theorem hold_job_st' (s : State) (w : CtlWait) : (hold s w).job.st' = s.job.st' := rfl
@[simp] theorem hold_job_idxW (s : State) (w : CtlWait) : (hold s w).job.idxW = s.job.idxW := rfl
@[simp] theorem hold_job_clockFlags (s : State) (w : CtlWait) : (hold s w).job.clockFlags = s.job.clockFlags := rfl
@[simp] theorem hold_job_ttub (s : State) (w : CtlWait) : (hold s w).job.ttub = s.job.ttub := rfl
@[simp] theorem hold_job_tslot (s : State) (w : CtlWait) : (hold s w).job.tslot = s.job.tslot := rfl
@[simp] theorem hold_job_waitaFrom (s : State) (w : CtlWait) : (hold s w).job.waitaFrom = s.job.waitaFrom := rfl
@[simp] theorem hold_job_tword (s : State) (w : CtlWait) : (hold s w).job.tword = s.job.tword := rfl
@[simp] theorem hold_job_tval (s : State) (w : CtlWait) : (hold s w).job.tval = s.job.tval := rfl
@[simp] theorem hold_job_tpc (s : State) (w : CtlWait) : (hold s w).job.tpc = s.job.tpc := rfl
@[simp] theorem hold_job_tstream (s : State) (w : CtlWait) : (hold s w).job.tstream = s.job.tstream := rfl
@[simp] theorem hold_job_tsib (s : State) (w : CtlWait) : (hold s w).job.tsib = s.job.tsib := rfl
@[simp] theorem hold_job_torig (s : State) (w : CtlWait) : (hold s w).job.torig = s.job.torig := rfl
@[simp] theorem hold_job_tpend (s : State) (w : CtlWait) : (hold s w).job.tpend = s.job.tpend := rfl
@[simp] theorem hold_job_hnd (s : State) (w : CtlWait) : (hold s w).job.hnd = s.job.hnd := rfl
@[simp] theorem hold_job_tprog (s : State) (w : CtlWait) : (hold s w).job.tprog = s.job.tprog := rfl
@[simp] theorem hold_job_spbase (s : State) (w : CtlWait) : (hold s w).job.spbase = s.job.spbase := rfl
@[simp] theorem hold_job_splim (s : State) (w : CtlWait) : (hold s w).job.splim = s.job.splim := rfl
@[simp] theorem hold_job_spbump (s : State) (w : CtlWait) : (hold s w).job.spbump = s.job.spbump := rfl
@[simp] theorem hold_job_sphead (s : State) (w : CtlWait) : (hold s w).job.sphead = s.job.sphead := rfl
@[simp] theorem hold_job_pending (s : State) (w : CtlWait) : (hold s w).job.pending = s.job.pending := rfl
@[simp] theorem hold_job_stores (s : State) (w : CtlWait) : (hold s w).job.stores = s.job.stores := rfl
@[simp] theorem hold_job_marker (s : State) (w : CtlWait) : (hold s w).job.marker = s.job.marker := rfl
@[simp] theorem hold_job_main (s : State) (w : CtlWait) : (hold s w).job.main = s.job.main := rfl
@[simp] theorem hold_job_opnd (s : State) (w : CtlWait) : (hold s w).job.opnd = s.job.opnd := rfl
@[simp] theorem hold_job_last (s : State) (w : CtlWait) : (hold s w).job.last = s.job.last := rfl
@[simp] theorem hold_job_shapes (s : State) (w : CtlWait) : (hold s w).job.shapes = s.job.shapes := rfl
@[simp] theorem hold_job_handles (s : State) (w : CtlWait) : (hold s w).job.handles = s.job.handles := rfl
@[simp] theorem hold_job_tokens (s : State) (w : CtlWait) : (hold s w).job.tokens = s.job.tokens := rfl
@[simp] theorem hold_job_fifo (s : State) (w : CtlWait) : (hold s w).job.fifo = s.job.fifo := rfl
@[simp] theorem hold_job_ld (s : State) (w : CtlWait) : (hold s w).job.ld = s.job.ld := rfl
@[simp] theorem hold_job_mx (s : State) (w : CtlWait) : (hold s w).job.mx = s.job.mx := rfl
@[simp] theorem hold_job_vx (s : State) (w : CtlWait) : (hold s w).job.vx = s.job.vx := rfl
@[simp] theorem hold_job_st2 (s : State) (w : CtlWait) : (hold s w).job.st' = s.job.st' := rfl
@[simp] theorem hold_job_arrivals (s : State) (w : CtlWait) : (hold s w).job.arrivals = s.job.arrivals := rfl
@[simp] theorem hold_job_rendezvous (s : State) (w : CtlWait) : (hold s w).job.rendezvous = s.job.rendezvous := rfl
@[simp] theorem hold_job_retiring (s : State) (w : CtlWait) : (hold s w).job.retiring = s.job.retiring := rfl
@[simp] theorem hold_job_matrix (s : State) (w : CtlWait) : (hold s w).job.matrix = s.job.matrix := rfl
@[simp] theorem hold_job_rings (s : State) (w : CtlWait) : (hold s w).job.rings = s.job.rings := rfl
@[simp] theorem hold_job_pend (s : State) (w : CtlWait) : (hold s w).job.pend = s.job.pend := rfl
@[simp] theorem hold_job_pairs (s : State) (w : CtlWait) : (hold s w).job.pairs = s.job.pairs := rfl
@[simp] theorem hold_job_tubs (s : State) (w : CtlWait) : (hold s w).job.tubs = s.job.tubs := rfl
@[simp] theorem hold_job_index (s : State) (w : CtlWait) : (hold s w).job.index = s.job.index := rfl
@[simp] theorem hold_job_inbox (s : State) (w : CtlWait) : (hold s w).job.inbox = s.job.inbox := rfl
@[simp] theorem hold_job_partner (s : State) (w : CtlWait) : (hold s w).job.partner = s.job.partner := rfl
@[simp] theorem hold_job_darn (s : State) (w : CtlWait) : (hold s w).job.darn = s.job.darn := rfl
@[simp] theorem hold_job_basket (s : State) (w : CtlWait) : (hold s w).job.basket = s.job.basket := rfl

/-! ### setX -/

@[simp] theorem setX_agenda (s : State) (r : Reg) (v : Word) : (setX s r v).agenda = s.agenda := by unfold setX; split <;> rfl
@[simp] theorem setX_turns (s : State) (r : Reg) (v : Word) : (setX s r v).turns = s.turns := by unfold setX; split <;> rfl
@[simp] theorem setX_delay (s : State) (r : Reg) (v : Word) : (setX s r v).delay = s.delay := by unfold setX; split <;> rfl
@[simp] theorem setX_units (s : State) (r : Reg) (v : Word) : (setX s r v).units = s.units := by unfold setX; split <;> rfl
@[simp] theorem setX_freeCtr (s : State) (r : Reg) (v : Word) : (setX s r v).freeCtr = s.freeCtr := by unfold setX; split <;> rfl
@[simp] theorem setX_nextJob (s : State) (r : Reg) (v : Word) : (setX s r v).nextJob = s.nextJob := by unfold setX; split <;> rfl
@[simp] theorem setX_nextLaunch (s : State) (r : Reg) (v : Word) : (setX s r v).nextLaunch = s.nextLaunch := by unfold setX; split <;> rfl
@[simp] theorem setX_curEng (s : State) (r : Reg) (v : Word) : (setX s r v).curEng = s.curEng := by unfold setX; split <;> rfl
@[simp] theorem setX_curCore (s : State) (r : Reg) (v : Word) : (setX s r v).curCore = s.curCore := by unfold setX; split <;> rfl
@[simp] theorem setX_curChan (s : State) (r : Reg) (v : Word) : (setX s r v).curChan = s.curChan := by unfold setX; split <;> rfl
@[simp] theorem setX_curSlot (s : State) (r : Reg) (v : Word) : (setX s r v).curSlot = s.curSlot := by unfold setX; split <;> rfl
@[simp] theorem setX_curIdx (s : State) (r : Reg) (v : Word) : (setX s r v).curIdx = s.curIdx := by unfold setX; split <;> rfl
@[simp] theorem setX_clock (s : State) (r : Reg) (v : Word) : (setX s r v).clock = s.clock := by unfold setX; split <;> rfl
@[simp] theorem setX_bootStep (s : State) (r : Reg) (v : Word) : (setX s r v).bootStep = s.bootStep := by unfold setX; split <;> rfl
@[simp] theorem setX_patchApplied (s : State) (r : Reg) (v : Word) : (setX s r v).patchApplied = s.patchApplied := by unfold setX; split <;> rfl
@[simp] theorem setX_patchRejected (s : State) (r : Reg) (v : Word) : (setX s r v).patchRejected = s.patchRejected := by unfold setX; split <;> rfl
@[simp] theorem setX_bootFail (s : State) (r : Reg) (v : Word) : (setX s r v).bootFail = s.bootFail := by unfold setX; split <;> rfl
@[simp] theorem setX_epoch (s : State) (r : Reg) (v : Word) : (setX s r v).epoch = s.epoch := by unfold setX; split <;> rfl
@[simp] theorem setX_row (s : State) (r : Reg) (v : Word) : (setX s r v).row = s.row := by unfold setX; split <;> rfl
@[simp] theorem setX_col (s : State) (r : Reg) (v : Word) : (setX s r v).col = s.col := by unfold setX; split <;> rfl
@[simp] theorem setX_rows (s : State) (r : Reg) (v : Word) : (setX s r v).rows = s.rows := by unfold setX; split <;> rfl
@[simp] theorem setX_cols (s : State) (r : Reg) (v : Word) : (setX s r v).cols = s.cols := by unfold setX; split <;> rfl
@[simp] theorem setX_ddrBytes (s : State) (r : Reg) (v : Word) : (setX s r v).ddrBytes = s.ddrBytes := by unfold setX; split <;> rfl
@[simp] theorem setX_powerState (s : State) (r : Reg) (v : Word) : (setX s r v).powerState = s.powerState := by unfold setX; split <;> rfl
@[simp] theorem setX_caps (s : State) (r : Reg) (v : Word) : (setX s r v).caps = s.caps := by unfold setX; split <;> rfl
@[simp] theorem setX_bar2Base (s : State) (r : Reg) (v : Word) : (setX s r v).bar2Base = s.bar2Base := by unfold setX; split <;> rfl
@[simp] theorem setX_bar2Log (s : State) (r : Reg) (v : Word) : (setX s r v).bar2Log = s.bar2Log := by unfold setX; split <;> rfl
@[simp] theorem setX_hostRead (s : State) (r : Reg) (v : Word) : (setX s r v).hostRead = s.hostRead := by unfold setX; split <;> rfl
@[simp] theorem setX_measures (s : State) (r : Reg) (v : Word) : (setX s r v).measures = s.measures := by unfold setX; split <;> rfl
@[simp] theorem setX_errLog (s : State) (r : Reg) (v : Word) : (setX s r v).errLog = s.errLog := by unfold setX; split <;> rfl
@[simp] theorem setX_hbm (s : State) (r : Reg) (v : Word) : (setX s r v).hbm = s.hbm := by unfold setX; split <;> rfl
@[simp] theorem setX_ddr (s : State) (r : Reg) (v : Word) : (setX s r v).ddr = s.ddr := by unfold setX; split <;> rfl
@[simp] theorem setX_host (s : State) (r : Reg) (v : Word) : (setX s r v).host = s.host := by unfold setX; split <;> rfl
@[simp] theorem setX_spad (s : State) (r : Reg) (v : Word) : (setX s r v).spad = s.spad := by unfold setX; split <;> rfl
@[simp] theorem setX_hbmPoison (s : State) (r : Reg) (v : Word) : (setX s r v).hbmPoison = s.hbmPoison := by unfold setX; split <;> rfl
@[simp] theorem setX_ddrPoison (s : State) (r : Reg) (v : Word) : (setX s r v).ddrPoison = s.ddrPoison := by unfold setX; split <;> rfl
@[simp] theorem setX_spadPoison (s : State) (r : Reg) (v : Word) : (setX s r v).spadPoison = s.spadPoison := by unfold setX; split <;> rfl
@[simp] theorem setX_zeroMap (s : State) (r : Reg) (v : Word) : (setX s r v).zeroMap = s.zeroMap := by unfold setX; split <;> rfl
@[simp] theorem setX_gated (s : State) (r : Reg) (v : Word) : (setX s r v).gated = s.gated := by unfold setX; split <;> rfl
@[simp] theorem setX_waking (s : State) (r : Reg) (v : Word) : (setX s r v).waking = s.waking := by unfold setX; split <;> rfl
@[simp] theorem setX_tlb (s : State) (r : Reg) (v : Word) : (setX s r v).tlb = s.tlb := by unfold setX; split <;> rfl
@[simp] theorem setX_oldPtes (s : State) (r : Reg) (v : Word) : (setX s r v).oldPtes = s.oldPtes := by unfold setX; split <;> rfl
@[simp] theorem setX_works (s : State) (r : Reg) (v : Word) : (setX s r v).works = s.works := by unfold setX; split <;> rfl
@[simp] theorem setX_curCmd (s : State) (r : Reg) (v : Word) : (setX s r v).curCmd = s.curCmd := by unfold setX; split <;> rfl
@[simp] theorem setX_report (s : State) (r : Reg) (v : Word) : (setX s r v).report = s.report := by unfold setX; split <;> rfl
@[simp] theorem setX_invs (s : State) (r : Reg) (v : Word) : (setX s r v).invs = s.invs := by unfold setX; split <;> rfl
@[simp] theorem setX_heldReqs (s : State) (r : Reg) (v : Word) : (setX s r v).heldReqs = s.heldReqs := by unfold setX; split <;> rfl
@[simp] theorem setX_goodPorts (s : State) (r : Reg) (v : Word) : (setX s r v).goodPorts = s.goodPorts := by unfold setX; split <;> rfl
@[simp] theorem setX_hubWaits (s : State) (r : Reg) (v : Word) : (setX s r v).hubWaits = s.hubWaits := by unfold setX; split <;> rfl
@[simp] theorem setX_faultQ (s : State) (r : Reg) (v : Word) : (setX s r v).faultQ = s.faultQ := by unfold setX; split <;> rfl
@[simp] theorem setX_contexts (s : State) (r : Reg) (v : Word) : (setX s r v).contexts = s.contexts := by unfold setX; split <;> rfl
@[simp] theorem setX_jobs (s : State) (r : Reg) (v : Word) : (setX s r v).jobs = s.jobs := by unfold setX; split <;> rfl
@[simp] theorem setX_barriers (s : State) (r : Reg) (v : Word) : (setX s r v).barriers = s.barriers := by unfold setX; split <;> rfl
@[simp] theorem setX_tubs (s : State) (r : Reg) (v : Word) : (setX s r v).tubs = s.tubs := by unfold setX; split <;> rfl
@[simp] theorem setX_chans (s : State) (r : Reg) (v : Word) : (setX s r v).chans = s.chans := by unfold setX; split <;> rfl
@[simp] theorem setX_wmarks (s : State) (r : Reg) (v : Word) : (setX s r v).wmarks = s.wmarks := by unfold setX; split <;> rfl
@[simp] theorem setX_issued (s : State) (r : Reg) (v : Word) : (setX s r v).issued = s.issued := by unfold setX; split <;> rfl
@[simp] theorem setX_queues (s : State) (r : Reg) (v : Word) : (setX s r v).queues = s.queues := by unfold setX; split <;> rfl
@[simp] theorem setX_launches (s : State) (r : Reg) (v : Word) : (setX s r v).launches = s.launches := by unfold setX; split <;> rfl
@[simp] theorem setX_graphs (s : State) (r : Reg) (v : Word) : (setX s r v).graphs = s.graphs := by unfold setX; split <;> rfl
@[simp] theorem setX_slots (s : State) (r : Reg) (v : Word) : (setX s r v).slots = s.slots := by unfold setX; split <;> rfl
@[simp] theorem setX_parts (s : State) (r : Reg) (v : Word) : (setX s r v).parts = s.parts := by unfold setX; split <;> rfl
@[simp] theorem setX_submits (s : State) (r : Reg) (v : Word) : (setX s r v).submits = s.submits := by unfold setX; split <;> rfl
@[simp] theorem setX_links (s : State) (r : Reg) (v : Word) : (setX s r v).links = s.links := by unfold setX; split <;> rfl
@[simp] theorem setX_seqs (s : State) (r : Reg) (v : Word) : (setX s r v).seqs = s.seqs := by unfold setX; split <;> rfl
@[simp] theorem setX_outs (s : State) (r : Reg) (v : Word) : (setX s r v).outs = s.outs := by unfold setX; split <;> rfl
@[simp] theorem setX_windows (s : State) (r : Reg) (v : Word) : (setX s r v).windows = s.windows := by unfold setX; split <;> rfl
@[simp] theorem setX_epochs (s : State) (r : Reg) (v : Word) : (setX s r v).epochs = s.epochs := by unfold setX; split <;> rfl
@[simp] theorem setX_resyncs (s : State) (r : Reg) (v : Word) : (setX s r v).resyncs = s.resyncs := by unfold setX; split <;> rfl
@[simp] theorem setX_outbox (s : State) (r : Reg) (v : Word) : (setX s r v).outbox = s.outbox := by unfold setX; split <;> rfl
@[simp] theorem setX_farDown (s : State) (r : Reg) (v : Word) : (setX s r v).farDown = s.farDown := by unfold setX; split <;> rfl
@[simp] theorem setX_peers (s : State) (r : Reg) (v : Word) : (setX s r v).peers = s.peers := by unfold setX; split <;> rfl
@[simp] theorem setX_rbuf (s : State) (r : Reg) (v : Word) : (setX s r v).rbuf = s.rbuf := by unfold setX; split <;> rfl
@[simp] theorem setX_sentResp (s : State) (r : Reg) (v : Word) : (setX s r v).sentResp = s.sentResp := by unfold setX; split <;> rfl
@[simp] theorem setX_hqueues (s : State) (r : Reg) (v : Word) : (setX s r v).hqueues = s.hqueues := by unfold setX; split <;> rfl
@[simp] theorem setX_hrings (s : State) (r : Reg) (v : Word) : (setX s r v).hrings = s.hrings := by unfold setX; split <;> rfl
@[simp] theorem setX_cmds (s : State) (r : Reg) (v : Word) : (setX s r v).cmds = s.cmds := by unfold setX; split <;> rfl
@[simp] theorem setX_interrupts (s : State) (r : Reg) (v : Word) : (setX s r v).interrupts = s.interrupts := by unfold setX; split <;> rfl
@[simp] theorem setX_job_id (s : State) (r : Reg) (v : Word) : (setX s r v).job.id = s.job.id := by unfold setX; split <;> rfl
@[simp] theorem setX_job_st (s : State) (r : Reg) (v : Word) : (setX s r v).job.st = s.job.st := by unfold setX; split <;> rfl
@[simp] theorem setX_job_launch (s : State) (r : Reg) (v : Word) : (setX s r v).job.launch = s.job.launch := by unfold setX; split <;> rfl
@[simp] theorem setX_job_num (s : State) (r : Reg) (v : Word) : (setX s r v).job.num = s.job.num := by unfold setX; split <;> rfl
@[simp] theorem setX_job_asid (s : State) (r : Reg) (v : Word) : (setX s r v).job.asid = s.job.asid := by unfold setX; split <;> rfl
@[simp] theorem setX_job_core (s : State) (r : Reg) (v : Word) : (setX s r v).job.core = s.job.core := by unfold setX; split <;> rfl
@[simp] theorem setX_job_cc (s : State) (r : Reg) (v : Word) : (setX s r v).job.cc = s.job.cc := by unfold setX; split <;> rfl
@[simp] theorem setX_job_image (s : State) (r : Reg) (v : Word) : (setX s r v).job.image = s.job.image := by unfold setX; split <;> rfl
@[simp] theorem setX_job_version (s : State) (r : Reg) (v : Word) : (setX s r v).job.version = s.job.version := by unfold setX; split <;> rfl
@[simp] theorem setX_job_levels (s : State) (r : Reg) (v : Word) : (setX s r v).job.levels = s.job.levels := by unfold setX; split <;> rfl
@[simp] theorem setX_job_topScope (s : State) (r : Reg) (v : Word) : (setX s r v).job.topScope = s.job.topScope := by unfold setX; split <;> rfl
@[simp] theorem setX_job_prio (s : State) (r : Reg) (v : Word) : (setX s r v).job.prio = s.job.prio := by unfold setX; split <;> rfl
@[simp] theorem setX_job_altArray (s : State) (r : Reg) (v : Word) : (setX s r v).job.altArray = s.job.altArray := by unfold setX; split <;> rfl
@[simp] theorem setX_job_mreg (s : State) (r : Reg) (v : Word) : (setX s r v).job.mreg = s.job.mreg := by unfold setX; split <;> rfl
@[simp] theorem setX_job_oreg (s : State) (r : Reg) (v : Word) : (setX s r v).job.oreg = s.job.oreg := by unfold setX; split <;> rfl
@[simp] theorem setX_job_pslot (s : State) (r : Reg) (v : Word) : (setX s r v).job.pslot = s.job.pslot := by unfold setX; split <;> rfl
@[simp] theorem setX_job_cbar (s : State) (r : Reg) (v : Word) : (setX s r v).job.cbar = s.job.cbar := by unfold setX; split <;> rfl
@[simp] theorem setX_job_dbar (s : State) (r : Reg) (v : Word) : (setX s r v).job.dbar = s.job.dbar := by unfold setX; split <;> rfl
@[simp] theorem setX_job_gbar (s : State) (r : Reg) (v : Word) : (setX s r v).job.gbar = s.job.gbar := by unfold setX; split <;> rfl
@[simp] theorem setX_job_lbars (s : State) (r : Reg) (v : Word) : (setX s r v).job.lbars = s.job.lbars := by unfold setX; split <;> rfl
@[simp] theorem setX_job_stub (s : State) (r : Reg) (v : Word) : (setX s r v).job.stub = s.job.stub := by unfold setX; split <;> rfl
@[simp] theorem setX_job_pc (s : State) (r : Reg) (v : Word) : (setX s r v).job.pc = s.job.pc := by unfold setX; split <;> rfl
@[simp] theorem setX_job_flags (s : State) (r : Reg) (v : Word) : (setX s r v).job.flags = s.job.flags := by unfold setX; split <;> rfl
@[simp] theorem setX_job_fmask (s : State) (r : Reg) (v : Word) : (setX s r v).job.fmask = s.job.fmask := by unfold setX; split <;> rfl
@[simp] theorem setX_job_dstall (s : State) (r : Reg) (v : Word) : (setX s r v).job.dstall = s.job.dstall := by unfold setX; split <;> rfl
@[simp] theorem setX_job_qstall (s : State) (r : Reg) (v : Word) : (setX s r v).job.qstall = s.job.qstall := by unfold setX; split <;> rfl
@[simp] theorem setX_job_itag (s : State) (r : Reg) (v : Word) : (setX s r v).job.itag = s.job.itag := by unfold setX; split <;> rfl
@[simp] theorem setX_job_tvec (s : State) (r : Reg) (v : Word) : (setX s r v).job.tvec = s.job.tvec := by unfold setX; split <;> rfl
@[simp] theorem setX_job_tcause (s : State) (r : Reg) (v : Word) : (setX s r v).job.tcause = s.job.tcause := by unfold setX; split <;> rfl
@[simp] theorem setX_job_st' (s : State) (r : Reg) (v : Word) : (setX s r v).job.st' = s.job.st' := by unfold setX; split <;> rfl
@[simp] theorem setX_job_idxW (s : State) (r : Reg) (v : Word) : (setX s r v).job.idxW = s.job.idxW := by unfold setX; split <;> rfl
@[simp] theorem setX_job_clockFlags (s : State) (r : Reg) (v : Word) : (setX s r v).job.clockFlags = s.job.clockFlags := by unfold setX; split <;> rfl
@[simp] theorem setX_job_ttub (s : State) (r : Reg) (v : Word) : (setX s r v).job.ttub = s.job.ttub := by unfold setX; split <;> rfl
@[simp] theorem setX_job_tslot (s : State) (r : Reg) (v : Word) : (setX s r v).job.tslot = s.job.tslot := by unfold setX; split <;> rfl
@[simp] theorem setX_job_waitaFrom (s : State) (r : Reg) (v : Word) : (setX s r v).job.waitaFrom = s.job.waitaFrom := by unfold setX; split <;> rfl
@[simp] theorem setX_job_tword (s : State) (r : Reg) (v : Word) : (setX s r v).job.tword = s.job.tword := by unfold setX; split <;> rfl
@[simp] theorem setX_job_tval (s : State) (r : Reg) (v : Word) : (setX s r v).job.tval = s.job.tval := by unfold setX; split <;> rfl
@[simp] theorem setX_job_tpc (s : State) (r : Reg) (v : Word) : (setX s r v).job.tpc = s.job.tpc := by unfold setX; split <;> rfl
@[simp] theorem setX_job_tstream (s : State) (r : Reg) (v : Word) : (setX s r v).job.tstream = s.job.tstream := by unfold setX; split <;> rfl
@[simp] theorem setX_job_tsib (s : State) (r : Reg) (v : Word) : (setX s r v).job.tsib = s.job.tsib := by unfold setX; split <;> rfl
@[simp] theorem setX_job_torig (s : State) (r : Reg) (v : Word) : (setX s r v).job.torig = s.job.torig := by unfold setX; split <;> rfl
@[simp] theorem setX_job_tpend (s : State) (r : Reg) (v : Word) : (setX s r v).job.tpend = s.job.tpend := by unfold setX; split <;> rfl
@[simp] theorem setX_job_hnd (s : State) (r : Reg) (v : Word) : (setX s r v).job.hnd = s.job.hnd := by unfold setX; split <;> rfl
@[simp] theorem setX_job_tprog (s : State) (r : Reg) (v : Word) : (setX s r v).job.tprog = s.job.tprog := by unfold setX; split <;> rfl
@[simp] theorem setX_job_spbase (s : State) (r : Reg) (v : Word) : (setX s r v).job.spbase = s.job.spbase := by unfold setX; split <;> rfl
@[simp] theorem setX_job_splim (s : State) (r : Reg) (v : Word) : (setX s r v).job.splim = s.job.splim := by unfold setX; split <;> rfl
@[simp] theorem setX_job_spbump (s : State) (r : Reg) (v : Word) : (setX s r v).job.spbump = s.job.spbump := by unfold setX; split <;> rfl
@[simp] theorem setX_job_sphead (s : State) (r : Reg) (v : Word) : (setX s r v).job.sphead = s.job.sphead := by unfold setX; split <;> rfl
@[simp] theorem setX_job_pending (s : State) (r : Reg) (v : Word) : (setX s r v).job.pending = s.job.pending := by unfold setX; split <;> rfl
@[simp] theorem setX_job_wait (s : State) (r : Reg) (v : Word) : (setX s r v).job.wait = s.job.wait := by unfold setX; split <;> rfl
@[simp] theorem setX_job_stores (s : State) (r : Reg) (v : Word) : (setX s r v).job.stores = s.job.stores := by unfold setX; split <;> rfl
@[simp] theorem setX_job_marker (s : State) (r : Reg) (v : Word) : (setX s r v).job.marker = s.job.marker := by unfold setX; split <;> rfl
@[simp] theorem setX_job_main (s : State) (r : Reg) (v : Word) : (setX s r v).job.main = s.job.main := by unfold setX; split <;> rfl
@[simp] theorem setX_job_opnd (s : State) (r : Reg) (v : Word) : (setX s r v).job.opnd = s.job.opnd := by unfold setX; split <;> rfl
@[simp] theorem setX_job_last (s : State) (r : Reg) (v : Word) : (setX s r v).job.last = s.job.last := by unfold setX; split <;> rfl
@[simp] theorem setX_job_shapes (s : State) (r : Reg) (v : Word) : (setX s r v).job.shapes = s.job.shapes := by unfold setX; split <;> rfl
@[simp] theorem setX_job_handles (s : State) (r : Reg) (v : Word) : (setX s r v).job.handles = s.job.handles := by unfold setX; split <;> rfl
@[simp] theorem setX_job_tokens (s : State) (r : Reg) (v : Word) : (setX s r v).job.tokens = s.job.tokens := by unfold setX; split <;> rfl
@[simp] theorem setX_job_fifo (s : State) (r : Reg) (v : Word) : (setX s r v).job.fifo = s.job.fifo := by unfold setX; split <;> rfl
@[simp] theorem setX_job_ld (s : State) (r : Reg) (v : Word) : (setX s r v).job.ld = s.job.ld := by unfold setX; split <;> rfl
@[simp] theorem setX_job_mx (s : State) (r : Reg) (v : Word) : (setX s r v).job.mx = s.job.mx := by unfold setX; split <;> rfl
@[simp] theorem setX_job_vx (s : State) (r : Reg) (v : Word) : (setX s r v).job.vx = s.job.vx := by unfold setX; split <;> rfl
@[simp] theorem setX_job_st2 (s : State) (r : Reg) (v : Word) : (setX s r v).job.st' = s.job.st' := by unfold setX; split <;> rfl
@[simp] theorem setX_job_arrivals (s : State) (r : Reg) (v : Word) : (setX s r v).job.arrivals = s.job.arrivals := by unfold setX; split <;> rfl
@[simp] theorem setX_job_rendezvous (s : State) (r : Reg) (v : Word) : (setX s r v).job.rendezvous = s.job.rendezvous := by unfold setX; split <;> rfl
@[simp] theorem setX_job_retiring (s : State) (r : Reg) (v : Word) : (setX s r v).job.retiring = s.job.retiring := by unfold setX; split <;> rfl
@[simp] theorem setX_job_matrix (s : State) (r : Reg) (v : Word) : (setX s r v).job.matrix = s.job.matrix := by unfold setX; split <;> rfl
@[simp] theorem setX_job_rings (s : State) (r : Reg) (v : Word) : (setX s r v).job.rings = s.job.rings := by unfold setX; split <;> rfl
@[simp] theorem setX_job_pend (s : State) (r : Reg) (v : Word) : (setX s r v).job.pend = s.job.pend := by unfold setX; split <;> rfl
@[simp] theorem setX_job_pairs (s : State) (r : Reg) (v : Word) : (setX s r v).job.pairs = s.job.pairs := by unfold setX; split <;> rfl
@[simp] theorem setX_job_tubs (s : State) (r : Reg) (v : Word) : (setX s r v).job.tubs = s.job.tubs := by unfold setX; split <;> rfl
@[simp] theorem setX_job_index (s : State) (r : Reg) (v : Word) : (setX s r v).job.index = s.job.index := by unfold setX; split <;> rfl
@[simp] theorem setX_job_inbox (s : State) (r : Reg) (v : Word) : (setX s r v).job.inbox = s.job.inbox := by unfold setX; split <;> rfl
@[simp] theorem setX_job_partner (s : State) (r : Reg) (v : Word) : (setX s r v).job.partner = s.job.partner := by unfold setX; split <;> rfl
@[simp] theorem setX_job_darn (s : State) (r : Reg) (v : Word) : (setX s r v).job.darn = s.job.darn := by unfold setX; split <;> rfl
@[simp] theorem setX_job_basket (s : State) (r : Reg) (v : Word) : (setX s r v).job.basket = s.job.basket := by unfold setX; split <;> rfl

/-! ### advance -/

@[simp] theorem advance_agenda (s : State) : (advance s).agenda = s.agenda := rfl
@[simp] theorem advance_turns (s : State) : (advance s).turns = s.turns := rfl
@[simp] theorem advance_delay (s : State) : (advance s).delay = s.delay := rfl
@[simp] theorem advance_units (s : State) : (advance s).units = s.units := rfl
@[simp] theorem advance_freeCtr (s : State) : (advance s).freeCtr = s.freeCtr := rfl
@[simp] theorem advance_nextJob (s : State) : (advance s).nextJob = s.nextJob := rfl
@[simp] theorem advance_nextLaunch (s : State) : (advance s).nextLaunch = s.nextLaunch := rfl
@[simp] theorem advance_curEng (s : State) : (advance s).curEng = s.curEng := rfl
@[simp] theorem advance_curCore (s : State) : (advance s).curCore = s.curCore := rfl
@[simp] theorem advance_curChan (s : State) : (advance s).curChan = s.curChan := rfl
@[simp] theorem advance_curSlot (s : State) : (advance s).curSlot = s.curSlot := rfl
@[simp] theorem advance_curIdx (s : State) : (advance s).curIdx = s.curIdx := rfl
@[simp] theorem advance_clock (s : State) : (advance s).clock = s.clock := rfl
@[simp] theorem advance_bootStep (s : State) : (advance s).bootStep = s.bootStep := rfl
@[simp] theorem advance_patchApplied (s : State) : (advance s).patchApplied = s.patchApplied := rfl
@[simp] theorem advance_patchRejected (s : State) : (advance s).patchRejected = s.patchRejected := rfl
@[simp] theorem advance_bootFail (s : State) : (advance s).bootFail = s.bootFail := rfl
@[simp] theorem advance_epoch (s : State) : (advance s).epoch = s.epoch := rfl
@[simp] theorem advance_row (s : State) : (advance s).row = s.row := rfl
@[simp] theorem advance_col (s : State) : (advance s).col = s.col := rfl
@[simp] theorem advance_rows (s : State) : (advance s).rows = s.rows := rfl
@[simp] theorem advance_cols (s : State) : (advance s).cols = s.cols := rfl
@[simp] theorem advance_ddrBytes (s : State) : (advance s).ddrBytes = s.ddrBytes := rfl
@[simp] theorem advance_powerState (s : State) : (advance s).powerState = s.powerState := rfl
@[simp] theorem advance_caps (s : State) : (advance s).caps = s.caps := rfl
@[simp] theorem advance_bar2Base (s : State) : (advance s).bar2Base = s.bar2Base := rfl
@[simp] theorem advance_bar2Log (s : State) : (advance s).bar2Log = s.bar2Log := rfl
@[simp] theorem advance_hostRead (s : State) : (advance s).hostRead = s.hostRead := rfl
@[simp] theorem advance_measures (s : State) : (advance s).measures = s.measures := rfl
@[simp] theorem advance_errLog (s : State) : (advance s).errLog = s.errLog := rfl
@[simp] theorem advance_hbm (s : State) : (advance s).hbm = s.hbm := rfl
@[simp] theorem advance_ddr (s : State) : (advance s).ddr = s.ddr := rfl
@[simp] theorem advance_host (s : State) : (advance s).host = s.host := rfl
@[simp] theorem advance_spad (s : State) : (advance s).spad = s.spad := rfl
@[simp] theorem advance_hbmPoison (s : State) : (advance s).hbmPoison = s.hbmPoison := rfl
@[simp] theorem advance_ddrPoison (s : State) : (advance s).ddrPoison = s.ddrPoison := rfl
@[simp] theorem advance_spadPoison (s : State) : (advance s).spadPoison = s.spadPoison := rfl
@[simp] theorem advance_zeroMap (s : State) : (advance s).zeroMap = s.zeroMap := rfl
@[simp] theorem advance_gated (s : State) : (advance s).gated = s.gated := rfl
@[simp] theorem advance_waking (s : State) : (advance s).waking = s.waking := rfl
@[simp] theorem advance_tlb (s : State) : (advance s).tlb = s.tlb := rfl
@[simp] theorem advance_oldPtes (s : State) : (advance s).oldPtes = s.oldPtes := rfl
@[simp] theorem advance_works (s : State) : (advance s).works = s.works := rfl
@[simp] theorem advance_curCmd (s : State) : (advance s).curCmd = s.curCmd := rfl
@[simp] theorem advance_report (s : State) : (advance s).report = s.report := rfl
@[simp] theorem advance_invs (s : State) : (advance s).invs = s.invs := rfl
@[simp] theorem advance_heldReqs (s : State) : (advance s).heldReqs = s.heldReqs := rfl
@[simp] theorem advance_goodPorts (s : State) : (advance s).goodPorts = s.goodPorts := rfl
@[simp] theorem advance_hubWaits (s : State) : (advance s).hubWaits = s.hubWaits := rfl
@[simp] theorem advance_faultQ (s : State) : (advance s).faultQ = s.faultQ := rfl
@[simp] theorem advance_contexts (s : State) : (advance s).contexts = s.contexts := rfl
@[simp] theorem advance_jobs (s : State) : (advance s).jobs = s.jobs := rfl
@[simp] theorem advance_barriers (s : State) : (advance s).barriers = s.barriers := rfl
@[simp] theorem advance_tubs (s : State) : (advance s).tubs = s.tubs := rfl
@[simp] theorem advance_chans (s : State) : (advance s).chans = s.chans := rfl
@[simp] theorem advance_wmarks (s : State) : (advance s).wmarks = s.wmarks := rfl
@[simp] theorem advance_issued (s : State) : (advance s).issued = s.issued := rfl
@[simp] theorem advance_queues (s : State) : (advance s).queues = s.queues := rfl
@[simp] theorem advance_launches (s : State) : (advance s).launches = s.launches := rfl
@[simp] theorem advance_graphs (s : State) : (advance s).graphs = s.graphs := rfl
@[simp] theorem advance_slots (s : State) : (advance s).slots = s.slots := rfl
@[simp] theorem advance_parts (s : State) : (advance s).parts = s.parts := rfl
@[simp] theorem advance_submits (s : State) : (advance s).submits = s.submits := rfl
@[simp] theorem advance_links (s : State) : (advance s).links = s.links := rfl
@[simp] theorem advance_seqs (s : State) : (advance s).seqs = s.seqs := rfl
@[simp] theorem advance_outs (s : State) : (advance s).outs = s.outs := rfl
@[simp] theorem advance_windows (s : State) : (advance s).windows = s.windows := rfl
@[simp] theorem advance_epochs (s : State) : (advance s).epochs = s.epochs := rfl
@[simp] theorem advance_resyncs (s : State) : (advance s).resyncs = s.resyncs := rfl
@[simp] theorem advance_outbox (s : State) : (advance s).outbox = s.outbox := rfl
@[simp] theorem advance_farDown (s : State) : (advance s).farDown = s.farDown := rfl
@[simp] theorem advance_peers (s : State) : (advance s).peers = s.peers := rfl
@[simp] theorem advance_rbuf (s : State) : (advance s).rbuf = s.rbuf := rfl
@[simp] theorem advance_sentResp (s : State) : (advance s).sentResp = s.sentResp := rfl
@[simp] theorem advance_hqueues (s : State) : (advance s).hqueues = s.hqueues := rfl
@[simp] theorem advance_hrings (s : State) : (advance s).hrings = s.hrings := rfl
@[simp] theorem advance_cmds (s : State) : (advance s).cmds = s.cmds := rfl
@[simp] theorem advance_interrupts (s : State) : (advance s).interrupts = s.interrupts := rfl
@[simp] theorem advance_job_id (s : State) : (advance s).job.id = s.job.id := rfl
@[simp] theorem advance_job_st (s : State) : (advance s).job.st = s.job.st := rfl
@[simp] theorem advance_job_launch (s : State) : (advance s).job.launch = s.job.launch := rfl
@[simp] theorem advance_job_num (s : State) : (advance s).job.num = s.job.num := rfl
@[simp] theorem advance_job_asid (s : State) : (advance s).job.asid = s.job.asid := rfl
@[simp] theorem advance_job_core (s : State) : (advance s).job.core = s.job.core := rfl
@[simp] theorem advance_job_cc (s : State) : (advance s).job.cc = s.job.cc := rfl
@[simp] theorem advance_job_image (s : State) : (advance s).job.image = s.job.image := rfl
@[simp] theorem advance_job_version (s : State) : (advance s).job.version = s.job.version := rfl
@[simp] theorem advance_job_levels (s : State) : (advance s).job.levels = s.job.levels := rfl
@[simp] theorem advance_job_topScope (s : State) : (advance s).job.topScope = s.job.topScope := rfl
@[simp] theorem advance_job_prio (s : State) : (advance s).job.prio = s.job.prio := rfl
@[simp] theorem advance_job_altArray (s : State) : (advance s).job.altArray = s.job.altArray := rfl
@[simp] theorem advance_job_mreg (s : State) : (advance s).job.mreg = s.job.mreg := rfl
@[simp] theorem advance_job_oreg (s : State) : (advance s).job.oreg = s.job.oreg := rfl
@[simp] theorem advance_job_pslot (s : State) : (advance s).job.pslot = s.job.pslot := rfl
@[simp] theorem advance_job_cbar (s : State) : (advance s).job.cbar = s.job.cbar := rfl
@[simp] theorem advance_job_dbar (s : State) : (advance s).job.dbar = s.job.dbar := rfl
@[simp] theorem advance_job_gbar (s : State) : (advance s).job.gbar = s.job.gbar := rfl
@[simp] theorem advance_job_lbars (s : State) : (advance s).job.lbars = s.job.lbars := rfl
@[simp] theorem advance_job_stub (s : State) : (advance s).job.stub = s.job.stub := rfl
@[simp] theorem advance_job_x (s : State) : (advance s).job.x = s.job.x := rfl
@[simp] theorem advance_job_flags (s : State) : (advance s).job.flags = s.job.flags := rfl
@[simp] theorem advance_job_fmask (s : State) : (advance s).job.fmask = s.job.fmask := rfl
@[simp] theorem advance_job_dstall (s : State) : (advance s).job.dstall = s.job.dstall := rfl
@[simp] theorem advance_job_qstall (s : State) : (advance s).job.qstall = s.job.qstall := rfl
@[simp] theorem advance_job_itag (s : State) : (advance s).job.itag = s.job.itag := rfl
@[simp] theorem advance_job_tvec (s : State) : (advance s).job.tvec = s.job.tvec := rfl
@[simp] theorem advance_job_tcause (s : State) : (advance s).job.tcause = s.job.tcause := rfl
@[simp] theorem advance_job_st' (s : State) : (advance s).job.st' = s.job.st' := rfl
@[simp] theorem advance_job_idxW (s : State) : (advance s).job.idxW = s.job.idxW := rfl
@[simp] theorem advance_job_clockFlags (s : State) : (advance s).job.clockFlags = s.job.clockFlags := rfl
@[simp] theorem advance_job_ttub (s : State) : (advance s).job.ttub = s.job.ttub := rfl
@[simp] theorem advance_job_tslot (s : State) : (advance s).job.tslot = s.job.tslot := rfl
@[simp] theorem advance_job_waitaFrom (s : State) : (advance s).job.waitaFrom = s.job.waitaFrom := rfl
@[simp] theorem advance_job_tword (s : State) : (advance s).job.tword = s.job.tword := rfl
@[simp] theorem advance_job_tval (s : State) : (advance s).job.tval = s.job.tval := rfl
@[simp] theorem advance_job_tpc (s : State) : (advance s).job.tpc = s.job.tpc := rfl
@[simp] theorem advance_job_tstream (s : State) : (advance s).job.tstream = s.job.tstream := rfl
@[simp] theorem advance_job_tsib (s : State) : (advance s).job.tsib = s.job.tsib := rfl
@[simp] theorem advance_job_torig (s : State) : (advance s).job.torig = s.job.torig := rfl
@[simp] theorem advance_job_tpend (s : State) : (advance s).job.tpend = s.job.tpend := rfl
@[simp] theorem advance_job_hnd (s : State) : (advance s).job.hnd = s.job.hnd := rfl
@[simp] theorem advance_job_tprog (s : State) : (advance s).job.tprog = s.job.tprog := rfl
@[simp] theorem advance_job_spbase (s : State) : (advance s).job.spbase = s.job.spbase := rfl
@[simp] theorem advance_job_splim (s : State) : (advance s).job.splim = s.job.splim := rfl
@[simp] theorem advance_job_spbump (s : State) : (advance s).job.spbump = s.job.spbump := rfl
@[simp] theorem advance_job_sphead (s : State) : (advance s).job.sphead = s.job.sphead := rfl
@[simp] theorem advance_job_pending (s : State) : (advance s).job.pending = s.job.pending := rfl
@[simp] theorem advance_job_stores (s : State) : (advance s).job.stores = s.job.stores := rfl
@[simp] theorem advance_job_marker (s : State) : (advance s).job.marker = s.job.marker := rfl
@[simp] theorem advance_job_main (s : State) : (advance s).job.main = s.job.main := rfl
@[simp] theorem advance_job_opnd (s : State) : (advance s).job.opnd = s.job.opnd := rfl
@[simp] theorem advance_job_last (s : State) : (advance s).job.last = s.job.last := rfl
@[simp] theorem advance_job_shapes (s : State) : (advance s).job.shapes = s.job.shapes := rfl
@[simp] theorem advance_job_handles (s : State) : (advance s).job.handles = s.job.handles := rfl
@[simp] theorem advance_job_tokens (s : State) : (advance s).job.tokens = s.job.tokens := rfl
@[simp] theorem advance_job_fifo (s : State) : (advance s).job.fifo = s.job.fifo := rfl
@[simp] theorem advance_job_ld (s : State) : (advance s).job.ld = s.job.ld := rfl
@[simp] theorem advance_job_mx (s : State) : (advance s).job.mx = s.job.mx := rfl
@[simp] theorem advance_job_vx (s : State) : (advance s).job.vx = s.job.vx := rfl
@[simp] theorem advance_job_st2 (s : State) : (advance s).job.st' = s.job.st' := rfl
@[simp] theorem advance_job_arrivals (s : State) : (advance s).job.arrivals = s.job.arrivals := rfl
@[simp] theorem advance_job_rendezvous (s : State) : (advance s).job.rendezvous = s.job.rendezvous := rfl
@[simp] theorem advance_job_retiring (s : State) : (advance s).job.retiring = s.job.retiring := rfl
@[simp] theorem advance_job_matrix (s : State) : (advance s).job.matrix = s.job.matrix := rfl
@[simp] theorem advance_job_rings (s : State) : (advance s).job.rings = s.job.rings := rfl
@[simp] theorem advance_job_pend (s : State) : (advance s).job.pend = s.job.pend := rfl
@[simp] theorem advance_job_pairs (s : State) : (advance s).job.pairs = s.job.pairs := rfl
@[simp] theorem advance_job_tubs (s : State) : (advance s).job.tubs = s.job.tubs := rfl
@[simp] theorem advance_job_index (s : State) : (advance s).job.index = s.job.index := rfl
@[simp] theorem advance_job_inbox (s : State) : (advance s).job.inbox = s.job.inbox := rfl
@[simp] theorem advance_job_partner (s : State) : (advance s).job.partner = s.job.partner := rfl
@[simp] theorem advance_job_darn (s : State) : (advance s).job.darn = s.job.darn := rfl
@[simp] theorem advance_job_basket (s : State) : (advance s).job.basket = s.job.basket := rfl

/-! ### retireX -/

@[simp] theorem retireX_agenda (s : State) (r : Reg) (v : Word) : (retireX s r v).agenda = s.agenda := by simp [retireX]
@[simp] theorem retireX_turns (s : State) (r : Reg) (v : Word) : (retireX s r v).turns = s.turns := by simp [retireX]
@[simp] theorem retireX_delay (s : State) (r : Reg) (v : Word) : (retireX s r v).delay = s.delay := by simp [retireX]
@[simp] theorem retireX_units (s : State) (r : Reg) (v : Word) : (retireX s r v).units = s.units := by simp [retireX]
@[simp] theorem retireX_freeCtr (s : State) (r : Reg) (v : Word) : (retireX s r v).freeCtr = s.freeCtr := by simp [retireX]
@[simp] theorem retireX_nextJob (s : State) (r : Reg) (v : Word) : (retireX s r v).nextJob = s.nextJob := by simp [retireX]
@[simp] theorem retireX_nextLaunch (s : State) (r : Reg) (v : Word) : (retireX s r v).nextLaunch = s.nextLaunch := by simp [retireX]
@[simp] theorem retireX_curEng (s : State) (r : Reg) (v : Word) : (retireX s r v).curEng = s.curEng := by simp [retireX]
@[simp] theorem retireX_curCore (s : State) (r : Reg) (v : Word) : (retireX s r v).curCore = s.curCore := by simp [retireX]
@[simp] theorem retireX_curChan (s : State) (r : Reg) (v : Word) : (retireX s r v).curChan = s.curChan := by simp [retireX]
@[simp] theorem retireX_curSlot (s : State) (r : Reg) (v : Word) : (retireX s r v).curSlot = s.curSlot := by simp [retireX]
@[simp] theorem retireX_curIdx (s : State) (r : Reg) (v : Word) : (retireX s r v).curIdx = s.curIdx := by simp [retireX]
@[simp] theorem retireX_clock (s : State) (r : Reg) (v : Word) : (retireX s r v).clock = s.clock := by simp [retireX]
@[simp] theorem retireX_bootStep (s : State) (r : Reg) (v : Word) : (retireX s r v).bootStep = s.bootStep := by simp [retireX]
@[simp] theorem retireX_patchApplied (s : State) (r : Reg) (v : Word) : (retireX s r v).patchApplied = s.patchApplied := by simp [retireX]
@[simp] theorem retireX_patchRejected (s : State) (r : Reg) (v : Word) : (retireX s r v).patchRejected = s.patchRejected := by simp [retireX]
@[simp] theorem retireX_bootFail (s : State) (r : Reg) (v : Word) : (retireX s r v).bootFail = s.bootFail := by simp [retireX]
@[simp] theorem retireX_epoch (s : State) (r : Reg) (v : Word) : (retireX s r v).epoch = s.epoch := by simp [retireX]
@[simp] theorem retireX_row (s : State) (r : Reg) (v : Word) : (retireX s r v).row = s.row := by simp [retireX]
@[simp] theorem retireX_col (s : State) (r : Reg) (v : Word) : (retireX s r v).col = s.col := by simp [retireX]
@[simp] theorem retireX_rows (s : State) (r : Reg) (v : Word) : (retireX s r v).rows = s.rows := by simp [retireX]
@[simp] theorem retireX_cols (s : State) (r : Reg) (v : Word) : (retireX s r v).cols = s.cols := by simp [retireX]
@[simp] theorem retireX_ddrBytes (s : State) (r : Reg) (v : Word) : (retireX s r v).ddrBytes = s.ddrBytes := by simp [retireX]
@[simp] theorem retireX_powerState (s : State) (r : Reg) (v : Word) : (retireX s r v).powerState = s.powerState := by simp [retireX]
@[simp] theorem retireX_caps (s : State) (r : Reg) (v : Word) : (retireX s r v).caps = s.caps := by simp [retireX]
@[simp] theorem retireX_bar2Base (s : State) (r : Reg) (v : Word) : (retireX s r v).bar2Base = s.bar2Base := by simp [retireX]
@[simp] theorem retireX_bar2Log (s : State) (r : Reg) (v : Word) : (retireX s r v).bar2Log = s.bar2Log := by simp [retireX]
@[simp] theorem retireX_hostRead (s : State) (r : Reg) (v : Word) : (retireX s r v).hostRead = s.hostRead := by simp [retireX]
@[simp] theorem retireX_measures (s : State) (r : Reg) (v : Word) : (retireX s r v).measures = s.measures := by simp [retireX]
@[simp] theorem retireX_errLog (s : State) (r : Reg) (v : Word) : (retireX s r v).errLog = s.errLog := by simp [retireX]
@[simp] theorem retireX_hbm (s : State) (r : Reg) (v : Word) : (retireX s r v).hbm = s.hbm := by simp [retireX]
@[simp] theorem retireX_ddr (s : State) (r : Reg) (v : Word) : (retireX s r v).ddr = s.ddr := by simp [retireX]
@[simp] theorem retireX_host (s : State) (r : Reg) (v : Word) : (retireX s r v).host = s.host := by simp [retireX]
@[simp] theorem retireX_spad (s : State) (r : Reg) (v : Word) : (retireX s r v).spad = s.spad := by simp [retireX]
@[simp] theorem retireX_hbmPoison (s : State) (r : Reg) (v : Word) : (retireX s r v).hbmPoison = s.hbmPoison := by simp [retireX]
@[simp] theorem retireX_ddrPoison (s : State) (r : Reg) (v : Word) : (retireX s r v).ddrPoison = s.ddrPoison := by simp [retireX]
@[simp] theorem retireX_spadPoison (s : State) (r : Reg) (v : Word) : (retireX s r v).spadPoison = s.spadPoison := by simp [retireX]
@[simp] theorem retireX_zeroMap (s : State) (r : Reg) (v : Word) : (retireX s r v).zeroMap = s.zeroMap := by simp [retireX]
@[simp] theorem retireX_gated (s : State) (r : Reg) (v : Word) : (retireX s r v).gated = s.gated := by simp [retireX]
@[simp] theorem retireX_waking (s : State) (r : Reg) (v : Word) : (retireX s r v).waking = s.waking := by simp [retireX]
@[simp] theorem retireX_tlb (s : State) (r : Reg) (v : Word) : (retireX s r v).tlb = s.tlb := by simp [retireX]
@[simp] theorem retireX_oldPtes (s : State) (r : Reg) (v : Word) : (retireX s r v).oldPtes = s.oldPtes := by simp [retireX]
@[simp] theorem retireX_works (s : State) (r : Reg) (v : Word) : (retireX s r v).works = s.works := by simp [retireX]
@[simp] theorem retireX_curCmd (s : State) (r : Reg) (v : Word) : (retireX s r v).curCmd = s.curCmd := by simp [retireX]
@[simp] theorem retireX_report (s : State) (r : Reg) (v : Word) : (retireX s r v).report = s.report := by simp [retireX]
@[simp] theorem retireX_invs (s : State) (r : Reg) (v : Word) : (retireX s r v).invs = s.invs := by simp [retireX]
@[simp] theorem retireX_heldReqs (s : State) (r : Reg) (v : Word) : (retireX s r v).heldReqs = s.heldReqs := by simp [retireX]
@[simp] theorem retireX_goodPorts (s : State) (r : Reg) (v : Word) : (retireX s r v).goodPorts = s.goodPorts := by simp [retireX]
@[simp] theorem retireX_hubWaits (s : State) (r : Reg) (v : Word) : (retireX s r v).hubWaits = s.hubWaits := by simp [retireX]
@[simp] theorem retireX_faultQ (s : State) (r : Reg) (v : Word) : (retireX s r v).faultQ = s.faultQ := by simp [retireX]
@[simp] theorem retireX_contexts (s : State) (r : Reg) (v : Word) : (retireX s r v).contexts = s.contexts := by simp [retireX]
@[simp] theorem retireX_jobs (s : State) (r : Reg) (v : Word) : (retireX s r v).jobs = s.jobs := by simp [retireX]
@[simp] theorem retireX_barriers (s : State) (r : Reg) (v : Word) : (retireX s r v).barriers = s.barriers := by simp [retireX]
@[simp] theorem retireX_tubs (s : State) (r : Reg) (v : Word) : (retireX s r v).tubs = s.tubs := by simp [retireX]
@[simp] theorem retireX_chans (s : State) (r : Reg) (v : Word) : (retireX s r v).chans = s.chans := by simp [retireX]
@[simp] theorem retireX_wmarks (s : State) (r : Reg) (v : Word) : (retireX s r v).wmarks = s.wmarks := by simp [retireX]
@[simp] theorem retireX_issued (s : State) (r : Reg) (v : Word) : (retireX s r v).issued = s.issued := by simp [retireX]
@[simp] theorem retireX_queues (s : State) (r : Reg) (v : Word) : (retireX s r v).queues = s.queues := by simp [retireX]
@[simp] theorem retireX_launches (s : State) (r : Reg) (v : Word) : (retireX s r v).launches = s.launches := by simp [retireX]
@[simp] theorem retireX_graphs (s : State) (r : Reg) (v : Word) : (retireX s r v).graphs = s.graphs := by simp [retireX]
@[simp] theorem retireX_slots (s : State) (r : Reg) (v : Word) : (retireX s r v).slots = s.slots := by simp [retireX]
@[simp] theorem retireX_parts (s : State) (r : Reg) (v : Word) : (retireX s r v).parts = s.parts := by simp [retireX]
@[simp] theorem retireX_submits (s : State) (r : Reg) (v : Word) : (retireX s r v).submits = s.submits := by simp [retireX]
@[simp] theorem retireX_links (s : State) (r : Reg) (v : Word) : (retireX s r v).links = s.links := by simp [retireX]
@[simp] theorem retireX_seqs (s : State) (r : Reg) (v : Word) : (retireX s r v).seqs = s.seqs := by simp [retireX]
@[simp] theorem retireX_outs (s : State) (r : Reg) (v : Word) : (retireX s r v).outs = s.outs := by simp [retireX]
@[simp] theorem retireX_windows (s : State) (r : Reg) (v : Word) : (retireX s r v).windows = s.windows := by simp [retireX]
@[simp] theorem retireX_epochs (s : State) (r : Reg) (v : Word) : (retireX s r v).epochs = s.epochs := by simp [retireX]
@[simp] theorem retireX_resyncs (s : State) (r : Reg) (v : Word) : (retireX s r v).resyncs = s.resyncs := by simp [retireX]
@[simp] theorem retireX_outbox (s : State) (r : Reg) (v : Word) : (retireX s r v).outbox = s.outbox := by simp [retireX]
@[simp] theorem retireX_farDown (s : State) (r : Reg) (v : Word) : (retireX s r v).farDown = s.farDown := by simp [retireX]
@[simp] theorem retireX_peers (s : State) (r : Reg) (v : Word) : (retireX s r v).peers = s.peers := by simp [retireX]
@[simp] theorem retireX_rbuf (s : State) (r : Reg) (v : Word) : (retireX s r v).rbuf = s.rbuf := by simp [retireX]
@[simp] theorem retireX_sentResp (s : State) (r : Reg) (v : Word) : (retireX s r v).sentResp = s.sentResp := by simp [retireX]
@[simp] theorem retireX_hqueues (s : State) (r : Reg) (v : Word) : (retireX s r v).hqueues = s.hqueues := by simp [retireX]
@[simp] theorem retireX_hrings (s : State) (r : Reg) (v : Word) : (retireX s r v).hrings = s.hrings := by simp [retireX]
@[simp] theorem retireX_cmds (s : State) (r : Reg) (v : Word) : (retireX s r v).cmds = s.cmds := by simp [retireX]
@[simp] theorem retireX_interrupts (s : State) (r : Reg) (v : Word) : (retireX s r v).interrupts = s.interrupts := by simp [retireX]
@[simp] theorem retireX_job_id (s : State) (r : Reg) (v : Word) : (retireX s r v).job.id = s.job.id := by simp [retireX]
@[simp] theorem retireX_job_st (s : State) (r : Reg) (v : Word) : (retireX s r v).job.st = s.job.st := by simp [retireX]
@[simp] theorem retireX_job_launch (s : State) (r : Reg) (v : Word) : (retireX s r v).job.launch = s.job.launch := by simp [retireX]
@[simp] theorem retireX_job_num (s : State) (r : Reg) (v : Word) : (retireX s r v).job.num = s.job.num := by simp [retireX]
@[simp] theorem retireX_job_asid (s : State) (r : Reg) (v : Word) : (retireX s r v).job.asid = s.job.asid := by simp [retireX]
@[simp] theorem retireX_job_core (s : State) (r : Reg) (v : Word) : (retireX s r v).job.core = s.job.core := by simp [retireX]
@[simp] theorem retireX_job_cc (s : State) (r : Reg) (v : Word) : (retireX s r v).job.cc = s.job.cc := by simp [retireX]
@[simp] theorem retireX_job_image (s : State) (r : Reg) (v : Word) : (retireX s r v).job.image = s.job.image := by simp [retireX]
@[simp] theorem retireX_job_version (s : State) (r : Reg) (v : Word) : (retireX s r v).job.version = s.job.version := by simp [retireX]
@[simp] theorem retireX_job_levels (s : State) (r : Reg) (v : Word) : (retireX s r v).job.levels = s.job.levels := by simp [retireX]
@[simp] theorem retireX_job_topScope (s : State) (r : Reg) (v : Word) : (retireX s r v).job.topScope = s.job.topScope := by simp [retireX]
@[simp] theorem retireX_job_prio (s : State) (r : Reg) (v : Word) : (retireX s r v).job.prio = s.job.prio := by simp [retireX]
@[simp] theorem retireX_job_altArray (s : State) (r : Reg) (v : Word) : (retireX s r v).job.altArray = s.job.altArray := by simp [retireX]
@[simp] theorem retireX_job_mreg (s : State) (r : Reg) (v : Word) : (retireX s r v).job.mreg = s.job.mreg := by simp [retireX]
@[simp] theorem retireX_job_oreg (s : State) (r : Reg) (v : Word) : (retireX s r v).job.oreg = s.job.oreg := by simp [retireX]
@[simp] theorem retireX_job_pslot (s : State) (r : Reg) (v : Word) : (retireX s r v).job.pslot = s.job.pslot := by simp [retireX]
@[simp] theorem retireX_job_cbar (s : State) (r : Reg) (v : Word) : (retireX s r v).job.cbar = s.job.cbar := by simp [retireX]
@[simp] theorem retireX_job_dbar (s : State) (r : Reg) (v : Word) : (retireX s r v).job.dbar = s.job.dbar := by simp [retireX]
@[simp] theorem retireX_job_gbar (s : State) (r : Reg) (v : Word) : (retireX s r v).job.gbar = s.job.gbar := by simp [retireX]
@[simp] theorem retireX_job_lbars (s : State) (r : Reg) (v : Word) : (retireX s r v).job.lbars = s.job.lbars := by simp [retireX]
@[simp] theorem retireX_job_stub (s : State) (r : Reg) (v : Word) : (retireX s r v).job.stub = s.job.stub := by simp [retireX]
@[simp] theorem retireX_job_flags (s : State) (r : Reg) (v : Word) : (retireX s r v).job.flags = s.job.flags := by simp [retireX]
@[simp] theorem retireX_job_fmask (s : State) (r : Reg) (v : Word) : (retireX s r v).job.fmask = s.job.fmask := by simp [retireX]
@[simp] theorem retireX_job_dstall (s : State) (r : Reg) (v : Word) : (retireX s r v).job.dstall = s.job.dstall := by simp [retireX]
@[simp] theorem retireX_job_qstall (s : State) (r : Reg) (v : Word) : (retireX s r v).job.qstall = s.job.qstall := by simp [retireX]
@[simp] theorem retireX_job_itag (s : State) (r : Reg) (v : Word) : (retireX s r v).job.itag = s.job.itag := by simp [retireX]
@[simp] theorem retireX_job_tvec (s : State) (r : Reg) (v : Word) : (retireX s r v).job.tvec = s.job.tvec := by simp [retireX]
@[simp] theorem retireX_job_tcause (s : State) (r : Reg) (v : Word) : (retireX s r v).job.tcause = s.job.tcause := by simp [retireX]
@[simp] theorem retireX_job_st' (s : State) (r : Reg) (v : Word) : (retireX s r v).job.st' = s.job.st' := by simp [retireX]
@[simp] theorem retireX_job_idxW (s : State) (r : Reg) (v : Word) : (retireX s r v).job.idxW = s.job.idxW := by simp [retireX]
@[simp] theorem retireX_job_clockFlags (s : State) (r : Reg) (v : Word) : (retireX s r v).job.clockFlags = s.job.clockFlags := by simp [retireX]
@[simp] theorem retireX_job_ttub (s : State) (r : Reg) (v : Word) : (retireX s r v).job.ttub = s.job.ttub := by simp [retireX]
@[simp] theorem retireX_job_tslot (s : State) (r : Reg) (v : Word) : (retireX s r v).job.tslot = s.job.tslot := by simp [retireX]
@[simp] theorem retireX_job_waitaFrom (s : State) (r : Reg) (v : Word) : (retireX s r v).job.waitaFrom = s.job.waitaFrom := by simp [retireX]
@[simp] theorem retireX_job_tword (s : State) (r : Reg) (v : Word) : (retireX s r v).job.tword = s.job.tword := by simp [retireX]
@[simp] theorem retireX_job_tval (s : State) (r : Reg) (v : Word) : (retireX s r v).job.tval = s.job.tval := by simp [retireX]
@[simp] theorem retireX_job_tpc (s : State) (r : Reg) (v : Word) : (retireX s r v).job.tpc = s.job.tpc := by simp [retireX]
@[simp] theorem retireX_job_tstream (s : State) (r : Reg) (v : Word) : (retireX s r v).job.tstream = s.job.tstream := by simp [retireX]
@[simp] theorem retireX_job_tsib (s : State) (r : Reg) (v : Word) : (retireX s r v).job.tsib = s.job.tsib := by simp [retireX]
@[simp] theorem retireX_job_torig (s : State) (r : Reg) (v : Word) : (retireX s r v).job.torig = s.job.torig := by simp [retireX]
@[simp] theorem retireX_job_tpend (s : State) (r : Reg) (v : Word) : (retireX s r v).job.tpend = s.job.tpend := by simp [retireX]
@[simp] theorem retireX_job_hnd (s : State) (r : Reg) (v : Word) : (retireX s r v).job.hnd = s.job.hnd := by simp [retireX]
@[simp] theorem retireX_job_tprog (s : State) (r : Reg) (v : Word) : (retireX s r v).job.tprog = s.job.tprog := by simp [retireX]
@[simp] theorem retireX_job_spbase (s : State) (r : Reg) (v : Word) : (retireX s r v).job.spbase = s.job.spbase := by simp [retireX]
@[simp] theorem retireX_job_splim (s : State) (r : Reg) (v : Word) : (retireX s r v).job.splim = s.job.splim := by simp [retireX]
@[simp] theorem retireX_job_spbump (s : State) (r : Reg) (v : Word) : (retireX s r v).job.spbump = s.job.spbump := by simp [retireX]
@[simp] theorem retireX_job_sphead (s : State) (r : Reg) (v : Word) : (retireX s r v).job.sphead = s.job.sphead := by simp [retireX]
@[simp] theorem retireX_job_pending (s : State) (r : Reg) (v : Word) : (retireX s r v).job.pending = s.job.pending := by simp [retireX]
@[simp] theorem retireX_job_stores (s : State) (r : Reg) (v : Word) : (retireX s r v).job.stores = s.job.stores := by simp [retireX]
@[simp] theorem retireX_job_marker (s : State) (r : Reg) (v : Word) : (retireX s r v).job.marker = s.job.marker := by simp [retireX]
@[simp] theorem retireX_job_main (s : State) (r : Reg) (v : Word) : (retireX s r v).job.main = s.job.main := by simp [retireX]
@[simp] theorem retireX_job_opnd (s : State) (r : Reg) (v : Word) : (retireX s r v).job.opnd = s.job.opnd := by simp [retireX]
@[simp] theorem retireX_job_last (s : State) (r : Reg) (v : Word) : (retireX s r v).job.last = s.job.last := by simp [retireX]
@[simp] theorem retireX_job_shapes (s : State) (r : Reg) (v : Word) : (retireX s r v).job.shapes = s.job.shapes := by simp [retireX]
@[simp] theorem retireX_job_handles (s : State) (r : Reg) (v : Word) : (retireX s r v).job.handles = s.job.handles := by simp [retireX]
@[simp] theorem retireX_job_tokens (s : State) (r : Reg) (v : Word) : (retireX s r v).job.tokens = s.job.tokens := by simp [retireX]
@[simp] theorem retireX_job_fifo (s : State) (r : Reg) (v : Word) : (retireX s r v).job.fifo = s.job.fifo := by simp [retireX]
@[simp] theorem retireX_job_ld (s : State) (r : Reg) (v : Word) : (retireX s r v).job.ld = s.job.ld := by simp [retireX]
@[simp] theorem retireX_job_mx (s : State) (r : Reg) (v : Word) : (retireX s r v).job.mx = s.job.mx := by simp [retireX]
@[simp] theorem retireX_job_vx (s : State) (r : Reg) (v : Word) : (retireX s r v).job.vx = s.job.vx := by simp [retireX]
@[simp] theorem retireX_job_st2 (s : State) (r : Reg) (v : Word) : (retireX s r v).job.st' = s.job.st' := by simp [retireX]
@[simp] theorem retireX_job_arrivals (s : State) (r : Reg) (v : Word) : (retireX s r v).job.arrivals = s.job.arrivals := by simp [retireX]
@[simp] theorem retireX_job_rendezvous (s : State) (r : Reg) (v : Word) : (retireX s r v).job.rendezvous = s.job.rendezvous := by simp [retireX]
@[simp] theorem retireX_job_retiring (s : State) (r : Reg) (v : Word) : (retireX s r v).job.retiring = s.job.retiring := by simp [retireX]
@[simp] theorem retireX_job_matrix (s : State) (r : Reg) (v : Word) : (retireX s r v).job.matrix = s.job.matrix := by simp [retireX]
@[simp] theorem retireX_job_rings (s : State) (r : Reg) (v : Word) : (retireX s r v).job.rings = s.job.rings := by simp [retireX]
@[simp] theorem retireX_job_pend (s : State) (r : Reg) (v : Word) : (retireX s r v).job.pend = s.job.pend := by simp [retireX]
@[simp] theorem retireX_job_pairs (s : State) (r : Reg) (v : Word) : (retireX s r v).job.pairs = s.job.pairs := by simp [retireX]
@[simp] theorem retireX_job_tubs (s : State) (r : Reg) (v : Word) : (retireX s r v).job.tubs = s.job.tubs := by simp [retireX]
@[simp] theorem retireX_job_index (s : State) (r : Reg) (v : Word) : (retireX s r v).job.index = s.job.index := by simp [retireX]
@[simp] theorem retireX_job_inbox (s : State) (r : Reg) (v : Word) : (retireX s r v).job.inbox = s.job.inbox := by simp [retireX]
@[simp] theorem retireX_job_partner (s : State) (r : Reg) (v : Word) : (retireX s r v).job.partner = s.job.partner := by simp [retireX]
@[simp] theorem retireX_job_darn (s : State) (r : Reg) (v : Word) : (retireX s r v).job.darn = s.job.darn := by simp [retireX]
@[simp] theorem retireX_job_basket (s : State) (r : Reg) (v : Word) : (retireX s r v).job.basket = s.job.basket := by simp [retireX]

@[simp] theorem setPc_job_pc (s : State) (a : Word) : (setPc s a).job.pc = a := rfl
@[simp] theorem setPc_job_wait (s : State) (a : Word) : (setPc s a).job.wait = .ready := rfl
@[simp] theorem hold_job_wait (s : State) (w : CtlWait) : (hold s w).job.wait = w := rfl
@[simp] theorem advance_job_pc (s : State) : (advance s).job.pc = s.job.pc + 4 := rfl
@[simp] theorem advance_job_wait (s : State) : (advance s).job.wait = .ready := rfl
@[simp] theorem retireX_job_pc (s : State) (r : Reg) (v : Word) : (retireX s r v).job.pc = s.job.pc + 4 := by simp [retireX]
@[simp] theorem retireX_job_wait (s : State) (r : Reg) (v : Word) : (retireX s r v).job.wait = .ready := by simp [retireX]

/-! ### Engine streams, blocks and logs -/

@[simp] theorem putStream_agenda (s : State) (x : EngStream) : (putStream s x).agenda = s.agenda := rfl
@[simp] theorem putStream_turns (s : State) (x : EngStream) : (putStream s x).turns = s.turns := rfl
@[simp] theorem putStream_delay (s : State) (x : EngStream) : (putStream s x).delay = s.delay := rfl
@[simp] theorem putStream_units (s : State) (x : EngStream) : (putStream s x).units = s.units := rfl
@[simp] theorem putStream_freeCtr (s : State) (x : EngStream) : (putStream s x).freeCtr = s.freeCtr := rfl
@[simp] theorem putStream_nextJob (s : State) (x : EngStream) : (putStream s x).nextJob = s.nextJob := rfl
@[simp] theorem putStream_nextLaunch (s : State) (x : EngStream) : (putStream s x).nextLaunch = s.nextLaunch := rfl
@[simp] theorem putStream_curEng (s : State) (x : EngStream) : (putStream s x).curEng = s.curEng := rfl
@[simp] theorem putStream_curCore (s : State) (x : EngStream) : (putStream s x).curCore = s.curCore := rfl
@[simp] theorem putStream_curChan (s : State) (x : EngStream) : (putStream s x).curChan = s.curChan := rfl
@[simp] theorem putStream_curSlot (s : State) (x : EngStream) : (putStream s x).curSlot = s.curSlot := rfl
@[simp] theorem putStream_curIdx (s : State) (x : EngStream) : (putStream s x).curIdx = s.curIdx := rfl
@[simp] theorem putStream_clock (s : State) (x : EngStream) : (putStream s x).clock = s.clock := rfl
@[simp] theorem putStream_bootStep (s : State) (x : EngStream) : (putStream s x).bootStep = s.bootStep := rfl
@[simp] theorem putStream_patchApplied (s : State) (x : EngStream) : (putStream s x).patchApplied = s.patchApplied := rfl
@[simp] theorem putStream_patchRejected (s : State) (x : EngStream) : (putStream s x).patchRejected = s.patchRejected := rfl
@[simp] theorem putStream_bootFail (s : State) (x : EngStream) : (putStream s x).bootFail = s.bootFail := rfl
@[simp] theorem putStream_epoch (s : State) (x : EngStream) : (putStream s x).epoch = s.epoch := rfl
@[simp] theorem putStream_row (s : State) (x : EngStream) : (putStream s x).row = s.row := rfl
@[simp] theorem putStream_col (s : State) (x : EngStream) : (putStream s x).col = s.col := rfl
@[simp] theorem putStream_rows (s : State) (x : EngStream) : (putStream s x).rows = s.rows := rfl
@[simp] theorem putStream_cols (s : State) (x : EngStream) : (putStream s x).cols = s.cols := rfl
@[simp] theorem putStream_ddrBytes (s : State) (x : EngStream) : (putStream s x).ddrBytes = s.ddrBytes := rfl
@[simp] theorem putStream_powerState (s : State) (x : EngStream) : (putStream s x).powerState = s.powerState := rfl
@[simp] theorem putStream_caps (s : State) (x : EngStream) : (putStream s x).caps = s.caps := rfl
@[simp] theorem putStream_bar2Base (s : State) (x : EngStream) : (putStream s x).bar2Base = s.bar2Base := rfl
@[simp] theorem putStream_bar2Log (s : State) (x : EngStream) : (putStream s x).bar2Log = s.bar2Log := rfl
@[simp] theorem putStream_hostRead (s : State) (x : EngStream) : (putStream s x).hostRead = s.hostRead := rfl
@[simp] theorem putStream_measures (s : State) (x : EngStream) : (putStream s x).measures = s.measures := rfl
@[simp] theorem putStream_errLog (s : State) (x : EngStream) : (putStream s x).errLog = s.errLog := rfl
@[simp] theorem putStream_hbm (s : State) (x : EngStream) : (putStream s x).hbm = s.hbm := rfl
@[simp] theorem putStream_ddr (s : State) (x : EngStream) : (putStream s x).ddr = s.ddr := rfl
@[simp] theorem putStream_host (s : State) (x : EngStream) : (putStream s x).host = s.host := rfl
@[simp] theorem putStream_spad (s : State) (x : EngStream) : (putStream s x).spad = s.spad := rfl
@[simp] theorem putStream_hbmPoison (s : State) (x : EngStream) : (putStream s x).hbmPoison = s.hbmPoison := rfl
@[simp] theorem putStream_ddrPoison (s : State) (x : EngStream) : (putStream s x).ddrPoison = s.ddrPoison := rfl
@[simp] theorem putStream_spadPoison (s : State) (x : EngStream) : (putStream s x).spadPoison = s.spadPoison := rfl
@[simp] theorem putStream_zeroMap (s : State) (x : EngStream) : (putStream s x).zeroMap = s.zeroMap := rfl
@[simp] theorem putStream_gated (s : State) (x : EngStream) : (putStream s x).gated = s.gated := rfl
@[simp] theorem putStream_waking (s : State) (x : EngStream) : (putStream s x).waking = s.waking := rfl
@[simp] theorem putStream_tlb (s : State) (x : EngStream) : (putStream s x).tlb = s.tlb := rfl
@[simp] theorem putStream_oldPtes (s : State) (x : EngStream) : (putStream s x).oldPtes = s.oldPtes := rfl
@[simp] theorem putStream_works (s : State) (x : EngStream) : (putStream s x).works = s.works := rfl
@[simp] theorem putStream_curCmd (s : State) (x : EngStream) : (putStream s x).curCmd = s.curCmd := rfl
@[simp] theorem putStream_report (s : State) (x : EngStream) : (putStream s x).report = s.report := rfl
@[simp] theorem putStream_invs (s : State) (x : EngStream) : (putStream s x).invs = s.invs := rfl
@[simp] theorem putStream_heldReqs (s : State) (x : EngStream) : (putStream s x).heldReqs = s.heldReqs := rfl
@[simp] theorem putStream_goodPorts (s : State) (x : EngStream) : (putStream s x).goodPorts = s.goodPorts := rfl
@[simp] theorem putStream_hubWaits (s : State) (x : EngStream) : (putStream s x).hubWaits = s.hubWaits := rfl
@[simp] theorem putStream_faultQ (s : State) (x : EngStream) : (putStream s x).faultQ = s.faultQ := rfl
@[simp] theorem putStream_contexts (s : State) (x : EngStream) : (putStream s x).contexts = s.contexts := rfl
@[simp] theorem putStream_jobs (s : State) (x : EngStream) : (putStream s x).jobs = s.jobs := rfl
@[simp] theorem putStream_barriers (s : State) (x : EngStream) : (putStream s x).barriers = s.barriers := rfl
@[simp] theorem putStream_tubs (s : State) (x : EngStream) : (putStream s x).tubs = s.tubs := rfl
@[simp] theorem putStream_chans (s : State) (x : EngStream) : (putStream s x).chans = s.chans := rfl
@[simp] theorem putStream_wmarks (s : State) (x : EngStream) : (putStream s x).wmarks = s.wmarks := rfl
@[simp] theorem putStream_issued (s : State) (x : EngStream) : (putStream s x).issued = s.issued := rfl
@[simp] theorem putStream_queues (s : State) (x : EngStream) : (putStream s x).queues = s.queues := rfl
@[simp] theorem putStream_launches (s : State) (x : EngStream) : (putStream s x).launches = s.launches := rfl
@[simp] theorem putStream_graphs (s : State) (x : EngStream) : (putStream s x).graphs = s.graphs := rfl
@[simp] theorem putStream_slots (s : State) (x : EngStream) : (putStream s x).slots = s.slots := rfl
@[simp] theorem putStream_parts (s : State) (x : EngStream) : (putStream s x).parts = s.parts := rfl
@[simp] theorem putStream_submits (s : State) (x : EngStream) : (putStream s x).submits = s.submits := rfl
@[simp] theorem putStream_links (s : State) (x : EngStream) : (putStream s x).links = s.links := rfl
@[simp] theorem putStream_seqs (s : State) (x : EngStream) : (putStream s x).seqs = s.seqs := rfl
@[simp] theorem putStream_outs (s : State) (x : EngStream) : (putStream s x).outs = s.outs := rfl
@[simp] theorem putStream_windows (s : State) (x : EngStream) : (putStream s x).windows = s.windows := rfl
@[simp] theorem putStream_epochs (s : State) (x : EngStream) : (putStream s x).epochs = s.epochs := rfl
@[simp] theorem putStream_resyncs (s : State) (x : EngStream) : (putStream s x).resyncs = s.resyncs := rfl
@[simp] theorem putStream_outbox (s : State) (x : EngStream) : (putStream s x).outbox = s.outbox := rfl
@[simp] theorem putStream_farDown (s : State) (x : EngStream) : (putStream s x).farDown = s.farDown := rfl
@[simp] theorem putStream_peers (s : State) (x : EngStream) : (putStream s x).peers = s.peers := rfl
@[simp] theorem putStream_rbuf (s : State) (x : EngStream) : (putStream s x).rbuf = s.rbuf := rfl
@[simp] theorem putStream_sentResp (s : State) (x : EngStream) : (putStream s x).sentResp = s.sentResp := rfl
@[simp] theorem putStream_hqueues (s : State) (x : EngStream) : (putStream s x).hqueues = s.hqueues := rfl
@[simp] theorem putStream_hrings (s : State) (x : EngStream) : (putStream s x).hrings = s.hrings := rfl
@[simp] theorem putStream_cmds (s : State) (x : EngStream) : (putStream s x).cmds = s.cmds := rfl
@[simp] theorem putStream_interrupts (s : State) (x : EngStream) : (putStream s x).interrupts = s.interrupts := rfl

@[simp] theorem putBlock_agenda (s : State) (k : Nat) (e : IdxEntry) : (putBlock s k e).agenda = s.agenda := rfl
@[simp] theorem putBlock_turns (s : State) (k : Nat) (e : IdxEntry) : (putBlock s k e).turns = s.turns := rfl
@[simp] theorem putBlock_delay (s : State) (k : Nat) (e : IdxEntry) : (putBlock s k e).delay = s.delay := rfl
@[simp] theorem putBlock_units (s : State) (k : Nat) (e : IdxEntry) : (putBlock s k e).units = s.units := rfl
@[simp] theorem putBlock_freeCtr (s : State) (k : Nat) (e : IdxEntry) : (putBlock s k e).freeCtr = s.freeCtr := rfl
@[simp] theorem putBlock_nextJob (s : State) (k : Nat) (e : IdxEntry) : (putBlock s k e).nextJob = s.nextJob := rfl
@[simp] theorem putBlock_nextLaunch (s : State) (k : Nat) (e : IdxEntry) : (putBlock s k e).nextLaunch = s.nextLaunch := rfl
@[simp] theorem putBlock_curEng (s : State) (k : Nat) (e : IdxEntry) : (putBlock s k e).curEng = s.curEng := rfl
@[simp] theorem putBlock_curCore (s : State) (k : Nat) (e : IdxEntry) : (putBlock s k e).curCore = s.curCore := rfl
@[simp] theorem putBlock_curChan (s : State) (k : Nat) (e : IdxEntry) : (putBlock s k e).curChan = s.curChan := rfl
@[simp] theorem putBlock_curSlot (s : State) (k : Nat) (e : IdxEntry) : (putBlock s k e).curSlot = s.curSlot := rfl
@[simp] theorem putBlock_curIdx (s : State) (k : Nat) (e : IdxEntry) : (putBlock s k e).curIdx = s.curIdx := rfl
@[simp] theorem putBlock_clock (s : State) (k : Nat) (e : IdxEntry) : (putBlock s k e).clock = s.clock := rfl
@[simp] theorem putBlock_bootStep (s : State) (k : Nat) (e : IdxEntry) : (putBlock s k e).bootStep = s.bootStep := rfl
@[simp] theorem putBlock_patchApplied (s : State) (k : Nat) (e : IdxEntry) : (putBlock s k e).patchApplied = s.patchApplied := rfl
@[simp] theorem putBlock_patchRejected (s : State) (k : Nat) (e : IdxEntry) : (putBlock s k e).patchRejected = s.patchRejected := rfl
@[simp] theorem putBlock_bootFail (s : State) (k : Nat) (e : IdxEntry) : (putBlock s k e).bootFail = s.bootFail := rfl
@[simp] theorem putBlock_epoch (s : State) (k : Nat) (e : IdxEntry) : (putBlock s k e).epoch = s.epoch := rfl
@[simp] theorem putBlock_row (s : State) (k : Nat) (e : IdxEntry) : (putBlock s k e).row = s.row := rfl
@[simp] theorem putBlock_col (s : State) (k : Nat) (e : IdxEntry) : (putBlock s k e).col = s.col := rfl
@[simp] theorem putBlock_rows (s : State) (k : Nat) (e : IdxEntry) : (putBlock s k e).rows = s.rows := rfl
@[simp] theorem putBlock_cols (s : State) (k : Nat) (e : IdxEntry) : (putBlock s k e).cols = s.cols := rfl
@[simp] theorem putBlock_ddrBytes (s : State) (k : Nat) (e : IdxEntry) : (putBlock s k e).ddrBytes = s.ddrBytes := rfl
@[simp] theorem putBlock_powerState (s : State) (k : Nat) (e : IdxEntry) : (putBlock s k e).powerState = s.powerState := rfl
@[simp] theorem putBlock_caps (s : State) (k : Nat) (e : IdxEntry) : (putBlock s k e).caps = s.caps := rfl
@[simp] theorem putBlock_bar2Base (s : State) (k : Nat) (e : IdxEntry) : (putBlock s k e).bar2Base = s.bar2Base := rfl
@[simp] theorem putBlock_bar2Log (s : State) (k : Nat) (e : IdxEntry) : (putBlock s k e).bar2Log = s.bar2Log := rfl
@[simp] theorem putBlock_hostRead (s : State) (k : Nat) (e : IdxEntry) : (putBlock s k e).hostRead = s.hostRead := rfl
@[simp] theorem putBlock_measures (s : State) (k : Nat) (e : IdxEntry) : (putBlock s k e).measures = s.measures := rfl
@[simp] theorem putBlock_errLog (s : State) (k : Nat) (e : IdxEntry) : (putBlock s k e).errLog = s.errLog := rfl
@[simp] theorem putBlock_hbm (s : State) (k : Nat) (e : IdxEntry) : (putBlock s k e).hbm = s.hbm := rfl
@[simp] theorem putBlock_ddr (s : State) (k : Nat) (e : IdxEntry) : (putBlock s k e).ddr = s.ddr := rfl
@[simp] theorem putBlock_host (s : State) (k : Nat) (e : IdxEntry) : (putBlock s k e).host = s.host := rfl
@[simp] theorem putBlock_spad (s : State) (k : Nat) (e : IdxEntry) : (putBlock s k e).spad = s.spad := rfl
@[simp] theorem putBlock_hbmPoison (s : State) (k : Nat) (e : IdxEntry) : (putBlock s k e).hbmPoison = s.hbmPoison := rfl
@[simp] theorem putBlock_ddrPoison (s : State) (k : Nat) (e : IdxEntry) : (putBlock s k e).ddrPoison = s.ddrPoison := rfl
@[simp] theorem putBlock_spadPoison (s : State) (k : Nat) (e : IdxEntry) : (putBlock s k e).spadPoison = s.spadPoison := rfl
@[simp] theorem putBlock_zeroMap (s : State) (k : Nat) (e : IdxEntry) : (putBlock s k e).zeroMap = s.zeroMap := rfl
@[simp] theorem putBlock_gated (s : State) (k : Nat) (e : IdxEntry) : (putBlock s k e).gated = s.gated := rfl
@[simp] theorem putBlock_waking (s : State) (k : Nat) (e : IdxEntry) : (putBlock s k e).waking = s.waking := rfl
@[simp] theorem putBlock_tlb (s : State) (k : Nat) (e : IdxEntry) : (putBlock s k e).tlb = s.tlb := rfl
@[simp] theorem putBlock_oldPtes (s : State) (k : Nat) (e : IdxEntry) : (putBlock s k e).oldPtes = s.oldPtes := rfl
@[simp] theorem putBlock_works (s : State) (k : Nat) (e : IdxEntry) : (putBlock s k e).works = s.works := rfl
@[simp] theorem putBlock_curCmd (s : State) (k : Nat) (e : IdxEntry) : (putBlock s k e).curCmd = s.curCmd := rfl
@[simp] theorem putBlock_report (s : State) (k : Nat) (e : IdxEntry) : (putBlock s k e).report = s.report := rfl
@[simp] theorem putBlock_invs (s : State) (k : Nat) (e : IdxEntry) : (putBlock s k e).invs = s.invs := rfl
@[simp] theorem putBlock_heldReqs (s : State) (k : Nat) (e : IdxEntry) : (putBlock s k e).heldReqs = s.heldReqs := rfl
@[simp] theorem putBlock_goodPorts (s : State) (k : Nat) (e : IdxEntry) : (putBlock s k e).goodPorts = s.goodPorts := rfl
@[simp] theorem putBlock_hubWaits (s : State) (k : Nat) (e : IdxEntry) : (putBlock s k e).hubWaits = s.hubWaits := rfl
@[simp] theorem putBlock_faultQ (s : State) (k : Nat) (e : IdxEntry) : (putBlock s k e).faultQ = s.faultQ := rfl
@[simp] theorem putBlock_contexts (s : State) (k : Nat) (e : IdxEntry) : (putBlock s k e).contexts = s.contexts := rfl
@[simp] theorem putBlock_jobs (s : State) (k : Nat) (e : IdxEntry) : (putBlock s k e).jobs = s.jobs := rfl
@[simp] theorem putBlock_barriers (s : State) (k : Nat) (e : IdxEntry) : (putBlock s k e).barriers = s.barriers := rfl
@[simp] theorem putBlock_tubs (s : State) (k : Nat) (e : IdxEntry) : (putBlock s k e).tubs = s.tubs := rfl
@[simp] theorem putBlock_chans (s : State) (k : Nat) (e : IdxEntry) : (putBlock s k e).chans = s.chans := rfl
@[simp] theorem putBlock_wmarks (s : State) (k : Nat) (e : IdxEntry) : (putBlock s k e).wmarks = s.wmarks := rfl
@[simp] theorem putBlock_issued (s : State) (k : Nat) (e : IdxEntry) : (putBlock s k e).issued = s.issued := rfl
@[simp] theorem putBlock_queues (s : State) (k : Nat) (e : IdxEntry) : (putBlock s k e).queues = s.queues := rfl
@[simp] theorem putBlock_launches (s : State) (k : Nat) (e : IdxEntry) : (putBlock s k e).launches = s.launches := rfl
@[simp] theorem putBlock_graphs (s : State) (k : Nat) (e : IdxEntry) : (putBlock s k e).graphs = s.graphs := rfl
@[simp] theorem putBlock_slots (s : State) (k : Nat) (e : IdxEntry) : (putBlock s k e).slots = s.slots := rfl
@[simp] theorem putBlock_parts (s : State) (k : Nat) (e : IdxEntry) : (putBlock s k e).parts = s.parts := rfl
@[simp] theorem putBlock_submits (s : State) (k : Nat) (e : IdxEntry) : (putBlock s k e).submits = s.submits := rfl
@[simp] theorem putBlock_links (s : State) (k : Nat) (e : IdxEntry) : (putBlock s k e).links = s.links := rfl
@[simp] theorem putBlock_seqs (s : State) (k : Nat) (e : IdxEntry) : (putBlock s k e).seqs = s.seqs := rfl
@[simp] theorem putBlock_outs (s : State) (k : Nat) (e : IdxEntry) : (putBlock s k e).outs = s.outs := rfl
@[simp] theorem putBlock_windows (s : State) (k : Nat) (e : IdxEntry) : (putBlock s k e).windows = s.windows := rfl
@[simp] theorem putBlock_epochs (s : State) (k : Nat) (e : IdxEntry) : (putBlock s k e).epochs = s.epochs := rfl
@[simp] theorem putBlock_resyncs (s : State) (k : Nat) (e : IdxEntry) : (putBlock s k e).resyncs = s.resyncs := rfl
@[simp] theorem putBlock_outbox (s : State) (k : Nat) (e : IdxEntry) : (putBlock s k e).outbox = s.outbox := rfl
@[simp] theorem putBlock_farDown (s : State) (k : Nat) (e : IdxEntry) : (putBlock s k e).farDown = s.farDown := rfl
@[simp] theorem putBlock_peers (s : State) (k : Nat) (e : IdxEntry) : (putBlock s k e).peers = s.peers := rfl
@[simp] theorem putBlock_rbuf (s : State) (k : Nat) (e : IdxEntry) : (putBlock s k e).rbuf = s.rbuf := rfl
@[simp] theorem putBlock_sentResp (s : State) (k : Nat) (e : IdxEntry) : (putBlock s k e).sentResp = s.sentResp := rfl
@[simp] theorem putBlock_hqueues (s : State) (k : Nat) (e : IdxEntry) : (putBlock s k e).hqueues = s.hqueues := rfl
@[simp] theorem putBlock_hrings (s : State) (k : Nat) (e : IdxEntry) : (putBlock s k e).hrings = s.hrings := rfl
@[simp] theorem putBlock_cmds (s : State) (k : Nat) (e : IdxEntry) : (putBlock s k e).cmds = s.cmds := rfl
@[simp] theorem putBlock_interrupts (s : State) (k : Nat) (e : IdxEntry) : (putBlock s k e).interrupts = s.interrupts := rfl

@[simp] theorem logErr_errLog (s : State) (e : LogItem) : (logErr s e).errLog = s.errLog ++ [e] := rfl
@[simp] theorem logErr_agenda (s : State) (e : LogItem) : (logErr s e).agenda = s.agenda := rfl
@[simp] theorem logErr_turns (s : State) (e : LogItem) : (logErr s e).turns = s.turns := rfl
@[simp] theorem logErr_delay (s : State) (e : LogItem) : (logErr s e).delay = s.delay := rfl
@[simp] theorem logErr_units (s : State) (e : LogItem) : (logErr s e).units = s.units := rfl
@[simp] theorem logErr_freeCtr (s : State) (e : LogItem) : (logErr s e).freeCtr = s.freeCtr := rfl
@[simp] theorem logErr_nextJob (s : State) (e : LogItem) : (logErr s e).nextJob = s.nextJob := rfl
@[simp] theorem logErr_nextLaunch (s : State) (e : LogItem) : (logErr s e).nextLaunch = s.nextLaunch := rfl
@[simp] theorem logErr_curEng (s : State) (e : LogItem) : (logErr s e).curEng = s.curEng := rfl
@[simp] theorem logErr_curCore (s : State) (e : LogItem) : (logErr s e).curCore = s.curCore := rfl
@[simp] theorem logErr_curChan (s : State) (e : LogItem) : (logErr s e).curChan = s.curChan := rfl
@[simp] theorem logErr_curSlot (s : State) (e : LogItem) : (logErr s e).curSlot = s.curSlot := rfl
@[simp] theorem logErr_curIdx (s : State) (e : LogItem) : (logErr s e).curIdx = s.curIdx := rfl
@[simp] theorem logErr_clock (s : State) (e : LogItem) : (logErr s e).clock = s.clock := rfl
@[simp] theorem logErr_bootStep (s : State) (e : LogItem) : (logErr s e).bootStep = s.bootStep := rfl
@[simp] theorem logErr_patchApplied (s : State) (e : LogItem) : (logErr s e).patchApplied = s.patchApplied := rfl
@[simp] theorem logErr_patchRejected (s : State) (e : LogItem) : (logErr s e).patchRejected = s.patchRejected := rfl
@[simp] theorem logErr_bootFail (s : State) (e : LogItem) : (logErr s e).bootFail = s.bootFail := rfl
@[simp] theorem logErr_epoch (s : State) (e : LogItem) : (logErr s e).epoch = s.epoch := rfl
@[simp] theorem logErr_row (s : State) (e : LogItem) : (logErr s e).row = s.row := rfl
@[simp] theorem logErr_col (s : State) (e : LogItem) : (logErr s e).col = s.col := rfl
@[simp] theorem logErr_rows (s : State) (e : LogItem) : (logErr s e).rows = s.rows := rfl
@[simp] theorem logErr_cols (s : State) (e : LogItem) : (logErr s e).cols = s.cols := rfl
@[simp] theorem logErr_ddrBytes (s : State) (e : LogItem) : (logErr s e).ddrBytes = s.ddrBytes := rfl
@[simp] theorem logErr_powerState (s : State) (e : LogItem) : (logErr s e).powerState = s.powerState := rfl
@[simp] theorem logErr_caps (s : State) (e : LogItem) : (logErr s e).caps = s.caps := rfl
@[simp] theorem logErr_bar2Base (s : State) (e : LogItem) : (logErr s e).bar2Base = s.bar2Base := rfl
@[simp] theorem logErr_bar2Log (s : State) (e : LogItem) : (logErr s e).bar2Log = s.bar2Log := rfl
@[simp] theorem logErr_hostRead (s : State) (e : LogItem) : (logErr s e).hostRead = s.hostRead := rfl
@[simp] theorem logErr_measures (s : State) (e : LogItem) : (logErr s e).measures = s.measures := rfl
@[simp] theorem logErr_hbm (s : State) (e : LogItem) : (logErr s e).hbm = s.hbm := rfl
@[simp] theorem logErr_ddr (s : State) (e : LogItem) : (logErr s e).ddr = s.ddr := rfl
@[simp] theorem logErr_host (s : State) (e : LogItem) : (logErr s e).host = s.host := rfl
@[simp] theorem logErr_spad (s : State) (e : LogItem) : (logErr s e).spad = s.spad := rfl
@[simp] theorem logErr_hbmPoison (s : State) (e : LogItem) : (logErr s e).hbmPoison = s.hbmPoison := rfl
@[simp] theorem logErr_ddrPoison (s : State) (e : LogItem) : (logErr s e).ddrPoison = s.ddrPoison := rfl
@[simp] theorem logErr_spadPoison (s : State) (e : LogItem) : (logErr s e).spadPoison = s.spadPoison := rfl
@[simp] theorem logErr_zeroMap (s : State) (e : LogItem) : (logErr s e).zeroMap = s.zeroMap := rfl
@[simp] theorem logErr_gated (s : State) (e : LogItem) : (logErr s e).gated = s.gated := rfl
@[simp] theorem logErr_waking (s : State) (e : LogItem) : (logErr s e).waking = s.waking := rfl
@[simp] theorem logErr_tlb (s : State) (e : LogItem) : (logErr s e).tlb = s.tlb := rfl
@[simp] theorem logErr_oldPtes (s : State) (e : LogItem) : (logErr s e).oldPtes = s.oldPtes := rfl
@[simp] theorem logErr_works (s : State) (e : LogItem) : (logErr s e).works = s.works := rfl
@[simp] theorem logErr_curCmd (s : State) (e : LogItem) : (logErr s e).curCmd = s.curCmd := rfl
@[simp] theorem logErr_report (s : State) (e : LogItem) : (logErr s e).report = s.report := rfl
@[simp] theorem logErr_invs (s : State) (e : LogItem) : (logErr s e).invs = s.invs := rfl
@[simp] theorem logErr_heldReqs (s : State) (e : LogItem) : (logErr s e).heldReqs = s.heldReqs := rfl
@[simp] theorem logErr_goodPorts (s : State) (e : LogItem) : (logErr s e).goodPorts = s.goodPorts := rfl
@[simp] theorem logErr_hubWaits (s : State) (e : LogItem) : (logErr s e).hubWaits = s.hubWaits := rfl
@[simp] theorem logErr_faultQ (s : State) (e : LogItem) : (logErr s e).faultQ = s.faultQ := rfl
@[simp] theorem logErr_contexts (s : State) (e : LogItem) : (logErr s e).contexts = s.contexts := rfl
@[simp] theorem logErr_job (s : State) (e : LogItem) : (logErr s e).job = s.job := rfl
@[simp] theorem logErr_jobs (s : State) (e : LogItem) : (logErr s e).jobs = s.jobs := rfl
@[simp] theorem logErr_barriers (s : State) (e : LogItem) : (logErr s e).barriers = s.barriers := rfl
@[simp] theorem logErr_tubs (s : State) (e : LogItem) : (logErr s e).tubs = s.tubs := rfl
@[simp] theorem logErr_chans (s : State) (e : LogItem) : (logErr s e).chans = s.chans := rfl
@[simp] theorem logErr_wmarks (s : State) (e : LogItem) : (logErr s e).wmarks = s.wmarks := rfl
@[simp] theorem logErr_issued (s : State) (e : LogItem) : (logErr s e).issued = s.issued := rfl
@[simp] theorem logErr_queues (s : State) (e : LogItem) : (logErr s e).queues = s.queues := rfl
@[simp] theorem logErr_launches (s : State) (e : LogItem) : (logErr s e).launches = s.launches := rfl
@[simp] theorem logErr_graphs (s : State) (e : LogItem) : (logErr s e).graphs = s.graphs := rfl
@[simp] theorem logErr_slots (s : State) (e : LogItem) : (logErr s e).slots = s.slots := rfl
@[simp] theorem logErr_parts (s : State) (e : LogItem) : (logErr s e).parts = s.parts := rfl
@[simp] theorem logErr_submits (s : State) (e : LogItem) : (logErr s e).submits = s.submits := rfl
@[simp] theorem logErr_links (s : State) (e : LogItem) : (logErr s e).links = s.links := rfl
@[simp] theorem logErr_seqs (s : State) (e : LogItem) : (logErr s e).seqs = s.seqs := rfl
@[simp] theorem logErr_outs (s : State) (e : LogItem) : (logErr s e).outs = s.outs := rfl
@[simp] theorem logErr_windows (s : State) (e : LogItem) : (logErr s e).windows = s.windows := rfl
@[simp] theorem logErr_epochs (s : State) (e : LogItem) : (logErr s e).epochs = s.epochs := rfl
@[simp] theorem logErr_resyncs (s : State) (e : LogItem) : (logErr s e).resyncs = s.resyncs := rfl
@[simp] theorem logErr_outbox (s : State) (e : LogItem) : (logErr s e).outbox = s.outbox := rfl
@[simp] theorem logErr_farDown (s : State) (e : LogItem) : (logErr s e).farDown = s.farDown := rfl
@[simp] theorem logErr_peers (s : State) (e : LogItem) : (logErr s e).peers = s.peers := rfl
@[simp] theorem logErr_rbuf (s : State) (e : LogItem) : (logErr s e).rbuf = s.rbuf := rfl
@[simp] theorem logErr_sentResp (s : State) (e : LogItem) : (logErr s e).sentResp = s.sentResp := rfl
@[simp] theorem logErr_hqueues (s : State) (e : LogItem) : (logErr s e).hqueues = s.hqueues := rfl
@[simp] theorem logErr_hrings (s : State) (e : LogItem) : (logErr s e).hrings = s.hrings := rfl
@[simp] theorem logErr_cmds (s : State) (e : LogItem) : (logErr s e).cmds = s.cmds := rfl
@[simp] theorem logErr_interrupts (s : State) (e : LogItem) : (logErr s e).interrupts = s.interrupts := rfl

@[simp] theorem stepPatch_agenda (s : State) (n : Nat) : (stepPatch s n).agenda = s.agenda := rfl
@[simp] theorem stepPatch_turns (s : State) (n : Nat) : (stepPatch s n).turns = s.turns := rfl
@[simp] theorem stepPatch_delay (s : State) (n : Nat) : (stepPatch s n).delay = s.delay := rfl
@[simp] theorem stepPatch_units (s : State) (n : Nat) : (stepPatch s n).units = s.units := rfl
@[simp] theorem stepPatch_freeCtr (s : State) (n : Nat) : (stepPatch s n).freeCtr = s.freeCtr := rfl
@[simp] theorem stepPatch_nextJob (s : State) (n : Nat) : (stepPatch s n).nextJob = s.nextJob := rfl
@[simp] theorem stepPatch_nextLaunch (s : State) (n : Nat) : (stepPatch s n).nextLaunch = s.nextLaunch := rfl
@[simp] theorem stepPatch_curEng (s : State) (n : Nat) : (stepPatch s n).curEng = s.curEng := rfl
@[simp] theorem stepPatch_curCore (s : State) (n : Nat) : (stepPatch s n).curCore = s.curCore := rfl
@[simp] theorem stepPatch_curChan (s : State) (n : Nat) : (stepPatch s n).curChan = s.curChan := rfl
@[simp] theorem stepPatch_curSlot (s : State) (n : Nat) : (stepPatch s n).curSlot = s.curSlot := rfl
@[simp] theorem stepPatch_curIdx (s : State) (n : Nat) : (stepPatch s n).curIdx = s.curIdx := rfl
@[simp] theorem stepPatch_clock (s : State) (n : Nat) : (stepPatch s n).clock = s.clock := rfl
@[simp] theorem stepPatch_bootStep (s : State) (n : Nat) : (stepPatch s n).bootStep = s.bootStep := rfl
@[simp] theorem stepPatch_patchApplied (s : State) (n : Nat) : (stepPatch s n).patchApplied = s.patchApplied := rfl
@[simp] theorem stepPatch_patchRejected (s : State) (n : Nat) : (stepPatch s n).patchRejected = s.patchRejected := rfl
@[simp] theorem stepPatch_bootFail (s : State) (n : Nat) : (stepPatch s n).bootFail = s.bootFail := rfl
@[simp] theorem stepPatch_epoch (s : State) (n : Nat) : (stepPatch s n).epoch = s.epoch := rfl
@[simp] theorem stepPatch_row (s : State) (n : Nat) : (stepPatch s n).row = s.row := rfl
@[simp] theorem stepPatch_col (s : State) (n : Nat) : (stepPatch s n).col = s.col := rfl
@[simp] theorem stepPatch_rows (s : State) (n : Nat) : (stepPatch s n).rows = s.rows := rfl
@[simp] theorem stepPatch_cols (s : State) (n : Nat) : (stepPatch s n).cols = s.cols := rfl
@[simp] theorem stepPatch_ddrBytes (s : State) (n : Nat) : (stepPatch s n).ddrBytes = s.ddrBytes := rfl
@[simp] theorem stepPatch_powerState (s : State) (n : Nat) : (stepPatch s n).powerState = s.powerState := rfl
@[simp] theorem stepPatch_caps (s : State) (n : Nat) : (stepPatch s n).caps = s.caps := rfl
@[simp] theorem stepPatch_bar2Base (s : State) (n : Nat) : (stepPatch s n).bar2Base = s.bar2Base := rfl
@[simp] theorem stepPatch_bar2Log (s : State) (n : Nat) : (stepPatch s n).bar2Log = s.bar2Log := rfl
@[simp] theorem stepPatch_hostRead (s : State) (n : Nat) : (stepPatch s n).hostRead = s.hostRead := rfl
@[simp] theorem stepPatch_measures (s : State) (n : Nat) : (stepPatch s n).measures = s.measures := rfl
@[simp] theorem stepPatch_errLog (s : State) (n : Nat) : (stepPatch s n).errLog = s.errLog := rfl
@[simp] theorem stepPatch_hbm (s : State) (n : Nat) : (stepPatch s n).hbm = s.hbm := rfl
@[simp] theorem stepPatch_ddr (s : State) (n : Nat) : (stepPatch s n).ddr = s.ddr := rfl
@[simp] theorem stepPatch_host (s : State) (n : Nat) : (stepPatch s n).host = s.host := rfl
@[simp] theorem stepPatch_spad (s : State) (n : Nat) : (stepPatch s n).spad = s.spad := rfl
@[simp] theorem stepPatch_hbmPoison (s : State) (n : Nat) : (stepPatch s n).hbmPoison = s.hbmPoison := rfl
@[simp] theorem stepPatch_ddrPoison (s : State) (n : Nat) : (stepPatch s n).ddrPoison = s.ddrPoison := rfl
@[simp] theorem stepPatch_spadPoison (s : State) (n : Nat) : (stepPatch s n).spadPoison = s.spadPoison := rfl
@[simp] theorem stepPatch_zeroMap (s : State) (n : Nat) : (stepPatch s n).zeroMap = s.zeroMap := rfl
@[simp] theorem stepPatch_gated (s : State) (n : Nat) : (stepPatch s n).gated = s.gated := rfl
@[simp] theorem stepPatch_waking (s : State) (n : Nat) : (stepPatch s n).waking = s.waking := rfl
@[simp] theorem stepPatch_tlb (s : State) (n : Nat) : (stepPatch s n).tlb = s.tlb := rfl
@[simp] theorem stepPatch_oldPtes (s : State) (n : Nat) : (stepPatch s n).oldPtes = s.oldPtes := rfl
@[simp] theorem stepPatch_works (s : State) (n : Nat) : (stepPatch s n).works = s.works := rfl
@[simp] theorem stepPatch_curCmd (s : State) (n : Nat) : (stepPatch s n).curCmd = s.curCmd := rfl
@[simp] theorem stepPatch_report (s : State) (n : Nat) : (stepPatch s n).report = s.report := rfl
@[simp] theorem stepPatch_invs (s : State) (n : Nat) : (stepPatch s n).invs = s.invs := rfl
@[simp] theorem stepPatch_heldReqs (s : State) (n : Nat) : (stepPatch s n).heldReqs = s.heldReqs := rfl
@[simp] theorem stepPatch_goodPorts (s : State) (n : Nat) : (stepPatch s n).goodPorts = s.goodPorts := rfl
@[simp] theorem stepPatch_hubWaits (s : State) (n : Nat) : (stepPatch s n).hubWaits = s.hubWaits := rfl
@[simp] theorem stepPatch_faultQ (s : State) (n : Nat) : (stepPatch s n).faultQ = s.faultQ := rfl
@[simp] theorem stepPatch_contexts (s : State) (n : Nat) : (stepPatch s n).contexts = s.contexts := rfl
@[simp] theorem stepPatch_jobs (s : State) (n : Nat) : (stepPatch s n).jobs = s.jobs := rfl
@[simp] theorem stepPatch_barriers (s : State) (n : Nat) : (stepPatch s n).barriers = s.barriers := rfl
@[simp] theorem stepPatch_tubs (s : State) (n : Nat) : (stepPatch s n).tubs = s.tubs := rfl
@[simp] theorem stepPatch_chans (s : State) (n : Nat) : (stepPatch s n).chans = s.chans := rfl
@[simp] theorem stepPatch_wmarks (s : State) (n : Nat) : (stepPatch s n).wmarks = s.wmarks := rfl
@[simp] theorem stepPatch_issued (s : State) (n : Nat) : (stepPatch s n).issued = s.issued := rfl
@[simp] theorem stepPatch_queues (s : State) (n : Nat) : (stepPatch s n).queues = s.queues := rfl
@[simp] theorem stepPatch_launches (s : State) (n : Nat) : (stepPatch s n).launches = s.launches := rfl
@[simp] theorem stepPatch_graphs (s : State) (n : Nat) : (stepPatch s n).graphs = s.graphs := rfl
@[simp] theorem stepPatch_slots (s : State) (n : Nat) : (stepPatch s n).slots = s.slots := rfl
@[simp] theorem stepPatch_parts (s : State) (n : Nat) : (stepPatch s n).parts = s.parts := rfl
@[simp] theorem stepPatch_submits (s : State) (n : Nat) : (stepPatch s n).submits = s.submits := rfl
@[simp] theorem stepPatch_links (s : State) (n : Nat) : (stepPatch s n).links = s.links := rfl
@[simp] theorem stepPatch_seqs (s : State) (n : Nat) : (stepPatch s n).seqs = s.seqs := rfl
@[simp] theorem stepPatch_outs (s : State) (n : Nat) : (stepPatch s n).outs = s.outs := rfl
@[simp] theorem stepPatch_windows (s : State) (n : Nat) : (stepPatch s n).windows = s.windows := rfl
@[simp] theorem stepPatch_epochs (s : State) (n : Nat) : (stepPatch s n).epochs = s.epochs := rfl
@[simp] theorem stepPatch_resyncs (s : State) (n : Nat) : (stepPatch s n).resyncs = s.resyncs := rfl
@[simp] theorem stepPatch_outbox (s : State) (n : Nat) : (stepPatch s n).outbox = s.outbox := rfl
@[simp] theorem stepPatch_farDown (s : State) (n : Nat) : (stepPatch s n).farDown = s.farDown := rfl
@[simp] theorem stepPatch_peers (s : State) (n : Nat) : (stepPatch s n).peers = s.peers := rfl
@[simp] theorem stepPatch_rbuf (s : State) (n : Nat) : (stepPatch s n).rbuf = s.rbuf := rfl
@[simp] theorem stepPatch_sentResp (s : State) (n : Nat) : (stepPatch s n).sentResp = s.sentResp := rfl
@[simp] theorem stepPatch_hqueues (s : State) (n : Nat) : (stepPatch s n).hqueues = s.hqueues := rfl
@[simp] theorem stepPatch_hrings (s : State) (n : Nat) : (stepPatch s n).hrings = s.hrings := rfl
@[simp] theorem stepPatch_cmds (s : State) (n : Nat) : (stepPatch s n).cmds = s.cmds := rfl
@[simp] theorem stepPatch_interrupts (s : State) (n : Nat) : (stepPatch s n).interrupts = s.interrupts := rfl

/-- A retired register and the next word is what statements call wroteX. -/
theorem retireX_eq_wroteX (s : State) (d : Reg) (v : Word) : retireX s d v = wroteX s d v := by
  unfold retireX setX wroteX
  split <;> rfl

/-- Going on at an address is what statements call wentTo. -/
theorem setPc_eq_wentTo (s : State) (a : Word) : setPc s a = wentTo s a := rfl
theorem advance_eq_wentTo (s : State) : advance s = wentTo s (s.job.pc + 4) := rfl

/-- A register as it reads after a write: x0 stays zero. -/
@[simp] theorem getX_setX (s : State) (d r : Reg) (v : Word) :
    getX (setX s d v) r = if r = 0 then 0 else if r = d then v else getX s r := by
  unfold getX setX
  by_cases hr : r = 0
  · simp [hr]
  · by_cases hd : d = 0
    · subst hd
      simp [hr]
    · by_cases h : r = d
      · subst h
        simp [hr]
      · have h' : ¬(d.val = r.val) := fun e => h (Fin.ext e.symm)
        simp [hr, hd, h, h']
@[simp] theorem getX_setPc (s : State) (a : Word) (r : Reg) : getX (setPc s a) r = getX s r := rfl
@[simp] theorem getX_advance (s : State) (r : Reg) : getX (advance s) r = getX s r := rfl
@[simp] theorem getX_hold (s : State) (w : CtlWait) (r : Reg) : getX (hold s w) r = getX s r := rfl

/-- The stream of an engine after a stream is replaced. -/
@[simp] theorem eng_setEng (j : Job) (e f : Engine) (x : EngStream) : (j.setEng e x).eng f = if f = e then x else j.eng f := by
  cases e <;> cases f <;> rfl
@[simp] theorem curStream_putStream (s : State) (x : EngStream) : curStream (putStream s x) = x := by
  simp [curStream, putStream]

end Sys2Proof.Machine
end

