-- ==== Sys2Proof/Laws/Ops.lean ====
section
/-! SUPPORT. What the shared operations do, said once: association lists and barriers, bytes, registers of the engines, tokens, the
focus, traps, and the fetch of a word. -/

namespace Sys2Proof.Machine

/-! ### Association lists and barriers -/

theorem lookupD_assign {α β : Type} [DecidableEq α] (d : β) (l : List (α × β)) (k j : α) (v : β) :
    lookupD d (assign l k v) j = if j = k then v else lookupD d l j := by
  induction l with
  | nil => simp [assign, lookupD, eq_comm]
  | cons e r ih =>
    obtain ⟨a, x⟩ := e
    by_cases ha : a = k
    · subst ha
      by_cases hj : j = a
      · simp [assign, lookupD, hj]
      · simp [assign, lookupD, hj, Ne.symm hj]
    · by_cases hj : a = j
      · subst hj
        simp [assign, lookupD, ha]
      · simp [assign, lookupD, ha, hj, ih]

theorem barOf_putBar (s : State) (b c : BarId) (x : Barrier) : barOf (putBar s b x) c = if c = b then x else barOf s c :=
  lookupD_assign _ _ _ _ _

/-! ### Bytes -/

@[simp] theorem leBytes_length (n v : Nat) : (leBytes n v).length = n := by
  induction n generalizing v with
  | zero => rfl
  | succ n ih => simp [leBytes, ih]

/-- The bytes of a number spell it, cut to their count. -/
theorem leNat_leBytes (n v : Nat) : leNat (leBytes n v) = v % 256 ^ n := by
  induction n generalizing v with
  | zero => simp [leBytes, leNat, Nat.mod_one]
  | succ n ih =>
    have h : v % 256 ^ (n + 1) = v % 256 + 256 * (v / 256 % 256 ^ n) := by
      rw [show 256 ^ (n + 1) = 256 * 256 ^ n by omega, Nat.mod_mul]
    rw [leBytes, leNat, ih, h, BitVec.toNat_ofNat]

/-- A value of whole bytes is spelt by its bytes. -/
theorem ofBytes_toBytes {n : Nat} (v : BitVec (8 * n)) : ofBytes (8 * n) (toBytes v) = v := by
  apply BitVec.eq_of_toNat_eq
  have h := v.isLt
  have e : (256 : Nat) ^ n = 2 ^ (8 * n) := by rw [Nat.pow_mul]
  simp only [ofBytes, toBytes, leNat_leBytes, Nat.mul_div_cancel_left n (by decide : 0 < 8), e, Nat.mod_eq_of_lt h, BitVec.toNat_ofNat]

/-! ### Registers of the engines, tokens -/

/-- Bytes of registers after a byte of one is set: a register that is no destination does not change. -/
theorem regByte_setRegByte (j : Job) (r : RegSlot) (k v i : Nat) (h : isDest r) :
    regByte (setRegByte j r k v) r i = if i = k then v % 256 else regByte j r i := by
  rcases h with ⟨m, rfl⟩ | ⟨m, rfl⟩ <;>
  · simp only [regByte, setRegByte, sget_sset]
    by_cases hi : i = k
    · simp [hi]
    · have : ¬(regBytes * m.val + i = regBytes * m.val + k) := by omega
      simp [hi]

@[simp] theorem setRegByte_last (j : Job) (r : RegSlot) (k v : Nat) : (setRegByte j r k v).last = j.last := by
  cases r <;> rfl

theorem token_setToken (j : Job) (q p v : Nat) (hq : q < 8) :
    (j.setToken q v).token p = if p = q then v % 16 else j.token p := by
  unfold Job.token Job.setToken
  by_cases hp : p < 8
  · by_cases h : p = q
    · subst h
      simp [List.getD, hp, Fin.ofNat]
    · simp [List.getD, hp, h]
  · have : p ≠ q := by omega
    have hp' : 8 ≤ p := by omega
    simp [List.getD, this, hp']

/-! ### The focus -/

@[simp] theorem focus_self (s : State) : focus s.job.id s = s := by simp [focus]

theorem focus_of_id {s : State} {i : Nat} (h : s.job.id = i) : focus i s = s := by subst h; simp

theorem findJob_self {s : State} (h : s.job.id ≠ 0) : findJob s s.job.id = some s.job := by simp [findJob, h]

theorem updJob_self {s : State} (h : s.job.id ≠ 0) (f : Job → Job) (hf : (f s.job).id = s.job.id) :
    updJob s s.job.id f = { s with job := f s.job } := by
  simp [updJob, findJob_self h, putJob, hf]

/-! ### Traps -/

/-- While a handler runs, a trap of the control stream goes to Dvorol (15_traps.md R323). -/
theorem raiseAt_in_handler {s : State} (h : s.job.hnd = true) (c : Cause) (v pc prog : Word) :
    raiseAt s c v pc prog = escalate s .doubleTrap ((c.code).setWidth 64) := by
  simp [raiseAt, h]

/-- Outside a handler a trap joins the pending list, and the oldest is taken (R322). -/
theorem raiseAt_outside {s : State} (h : s.job.hnd = false) (hd : s.job.st ≠ .draining) (c : Cause) (v pc prog : Word) :
    raiseAt s c v pc prog =
      divertIfPending { s with job := s.job.join s.clock { cause := c, val := v, prog, stream := 0, sib := false, orig := 0, pc } } := by
  simp [raiseAt, h, hd, Job.join]

/-- In a drain it joins the pending list, and the stream stands at a boundary (R329). -/
theorem raiseAt_in_drain {s : State} (h : s.job.hnd = false) (hd : s.job.st = .draining) (c : Cause) (v pc prog : Word) :
    raiseAt s c v pc prog =
      { s with job := (s.job.join s.clock { cause := c, val := v, prog, stream := 0, sib := false, orig := 0, pc }).abandon } := by
  simp [raiseAt, h, hd, Job.join]

/-- A stop that is a trap is raised, once what the unit failed to make is reported. -/
theorem ctlStop_trap (s : State) (c : Cause) (v : Word) :
    ctlStop s (.trap c v) = raise (keepWrites (reported s (.ctl s.job.id)) (.ctl s.job.id)) c v := rfl

/-- A stop for which the access is made later leaves the instruction to run again. -/
theorem ctlStop_stall (s : State) : ctlStop s .stall = hold s (.stalled none) := rfl

/-- At a watermark the instruction waits there. -/
theorem ctlStop_mark (s : State) (m : Mark) : ctlStop s (.mark m) = hold s (.stalled (some m)) := rfl

/-! ### The fetch of a word -/

/-- A word whose line is not poisoned is fetched (05_control_core.md R105). -/
theorem fetchWord_ok {s : State} {cs : List Chunk} (h : readChunks s (ctlParty s 0) .fetch (.va s.job.pc) 4 = .ok cs)
    (hb : ∀ c ∈ cs, c.bad = false) : fetchWord s = .ok (ofBytes 32 (cs.flatMap Chunk.data)) := by
  have : cs.any Chunk.bad = false := by simpa using hb
  simp [fetchWord, h, this]

/-- A ready control stream runs the word at its PC. -/
theorem runCtl_ready {s : State} {w : Word32} (hs : s.job.st = .running) (hp : s.job.pending = []) (hw : s.job.wait = .ready)
    (hm : s.job.marker = none) (hd : s.job.darn = none) (hf : fetchWord s = .ok w) :
    runCtl s = ended s.job.id s.job.pc (exec (decodeControl s.job.version w) s) := by
  have ht : takeMarker s = s := by simp [takeMarker, hm]
  simp [runCtl, ctlRuns, goCtl, hs, hp, hw, hd, ht, hf]

end Sys2Proof.Machine
end

