-- ==== Sys2Proof/Laws/PerInstr.lean ====
section
/-! SUPPORT. Statements about each instruction as syntax: what holds it. -/

namespace Sys2Proof.Laws.Holder

open Sys2Proof.Machine

/-- The kind of code that holds an instruction; none: an event, or a word that raises. -/
def holder : Instr → Option CodeKind
  | .add .. | .sub .. | .mul .. | .mulh .. | .mulhu .. | .div .. | .divu .. | .rem .. | .remu .. | .and .. | .or .. | .xor ..
  | .shl .. | .shr .. | .sra .. | .min .. | .max .. | .minu .. | .maxu .. | .slt .. | .sltu .. | .clz .. | .popc .. | .sel ..
  | .addi .. | .andi .. | .ori .. | .xori .. | .shli .. | .shri .. | .srai .. | .slti .. | .lih .. | .lsh .. | .beq .. | .bne ..
  | .blt .. | .bge .. | .bltu .. | .bgeu .. | .jal .. | .jalr .. | .ld .. | .ldu .. | .st .. | .lda .. | .stl .. | .amoSwap ..
  | .amoAdd .. | .amoAnd .. | .amoOr .. | .amoXor .. | .amoMin .. | .amoMax .. | .amoMaxu .. | .amoaSwap .. | .amoaAdd ..
  | .amoaAnd .. | .amoaOr .. | .amoaXor .. | .amoaMin .. | .amoaMax .. | .amoaMaxu .. | .amolSwap .. | .amolAdd .. | .amolAnd ..
  | .amolOr .. | .amolXor .. | .amolMin .. | .amolMax .. | .amolMaxu .. | .amoalSwap .. | .amoalAdd .. | .amoalAnd ..
  | .amoalOr .. | .amoalXor .. | .amoalMin .. | .amoalMax .. | .amoalMaxu .. | .cas .. | .fenceAcq .. | .fenceRel ..
  | .fenceFull .. | .waitaEq .. | .waitaNe .. | .push .. | .popr .. | .qcut .. | .ltrim .. | .sets .. | .gets .. | .hld ..
  | .hst .. | .hset .. | .hget .. | .bari .. | .barv .. | .barvBare .. | .barx .. | .barw .. | .mbs .. | .mbr .. | .tubset ..
  | .tubarmOn .. | .tubarmOff .. | .spa .. | .spra .. | .spf .. | .sprst .. | .specb .. | .specc .. | .speca .. | .chain ..
  | .cpyx .. | .cwait .. | .ixc .. | .darnRank .. | .darnCommit .. | .darnStain .. | .darnList .. | .darnClear .. | .wrng ..
  | .strt .. | .join | .launch .. | .yield | .trap .. | .tfence | .eret | .esc | .csrr .. | .csrw .. | .nop | .cycle ..
  | .issue .. | .amend .. | .wide .. | .loopImm .. | .loopReg .. | .endl | .stop | .rdv | .bwt .. | .bav .. | .patl .. | .toks ..
  | .pred .. => some .word
  | .vadd .. | .vsub .. | .vmul .. | .vfma .. | .vfms .. | .vmax .. | .vmin .. | .vabs .. | .vneg .. | .vcmp .. | .vsel ..
  | .vcvt .. | .vqnt .. | .vdqnt .. | .vscl .. | .vexp2 .. | .vlog2 .. | .vrcp .. | .vrsq .. | .vsqrt .. | .vdiv .. | .viadd ..
  | .visub .. | .vimul .. | .vand .. | .vor .. | .vxor .. | .vshl .. | .vshr .. | .vsra .. | .vimax .. | .vimin .. | .vmov ..
  | .vbc .. | .viota .. | .vred .. | .vscan .. | .vsegr .. | .vperm .. | .vpack .. | .vunpk .. | .vpart .. | .vrank ..
  | .vprune .. | .vrng .. | .vgumb .. | .vtree .. | .vlut .. | .vpost .. | .mlb .. | .mma .. | .mmb .. | .msa .. | .macz ..
  | .macr .. | .macw .. | .mmad .. | .ldt .. | .ldv .. | .ldb .. | .ldg .. | .ldz .. | .stt .. | .stv .. | .sts .. | .sta ..
  | .stq .. => some .pattern
  | .aff .. | .red .. | .mcst .. | .sig .. | .pgt .. | .skip .. | .gth .. | .sct .. | .sca .. | .cpt .. | .allred .. | .redsc ..
  | .allgv .. | .a2av .. | .bcast .. | .argn .. | .fbar .. => some .record
  | _ => none

/-- What holds the instruction is of its kind, and nothing else has an encoding. -/
def Statement (i : Instr) : Prop := (encode i).map Code.kind = holder i

theorem add (d a b : Reg) : Statement (.add d a b) := rfl
theorem sub (d a b : Reg) : Statement (.sub d a b) := rfl
theorem mul (d a b : Reg) : Statement (.mul d a b) := rfl
theorem mulh (d a b : Reg) : Statement (.mulh d a b) := rfl
theorem mulhu (d a b : Reg) : Statement (.mulhu d a b) := rfl
theorem div (d a b : Reg) : Statement (.div d a b) := rfl
theorem divu (d a b : Reg) : Statement (.divu d a b) := rfl
theorem rem (d a b : Reg) : Statement (.rem d a b) := rfl
theorem remu (d a b : Reg) : Statement (.remu d a b) := rfl
theorem and (d a b : Reg) : Statement (.and d a b) := rfl
theorem or (d a b : Reg) : Statement (.or d a b) := rfl
theorem xor (d a b : Reg) : Statement (.xor d a b) := rfl
theorem shl (d a b : Reg) : Statement (.shl d a b) := rfl
theorem shr (d a b : Reg) : Statement (.shr d a b) := rfl
theorem sra (d a b : Reg) : Statement (.sra d a b) := rfl
theorem min (d a b : Reg) : Statement (.min d a b) := rfl
theorem max (d a b : Reg) : Statement (.max d a b) := rfl
theorem minu (d a b : Reg) : Statement (.minu d a b) := rfl
theorem maxu (d a b : Reg) : Statement (.maxu d a b) := rfl
theorem slt (d a b : Reg) : Statement (.slt d a b) := rfl
theorem sltu (d a b : Reg) : Statement (.sltu d a b) := rfl
theorem clz (d a : Reg) : Statement (.clz d a) := rfl
theorem popc (d a : Reg) : Statement (.popc d a) := rfl
theorem sel (d a b : Reg) : Statement (.sel d a b) := rfl
theorem addi (d a : Reg) (i : BitVec 15) : Statement (.addi d a i) := rfl
theorem andi (d a : Reg) (i : BitVec 15) : Statement (.andi d a i) := rfl
theorem ori (d a : Reg) (i : BitVec 15) : Statement (.ori d a i) := rfl
theorem xori (d a : Reg) (i : BitVec 15) : Statement (.xori d a i) := rfl
theorem shli (d a : Reg) (n : Fin 64) : Statement (.shli d a n) := rfl
theorem shri (d a : Reg) (n : Fin 64) : Statement (.shri d a n) := rfl
theorem srai (d a : Reg) (n : Fin 64) : Statement (.srai d a n) := rfl
theorem slti (d a : Reg) (i : BitVec 15) : Statement (.slti d a i) := rfl
theorem lih (d : Reg) (i : BitVec 20) : Statement (.lih d i) := rfl
theorem lsh (d : Reg) (u : BitVec 20) : Statement (.lsh d u) := rfl
theorem beq (a b : Reg) (o : BitVec 15) : Statement (.beq a b o) := rfl
theorem bne (a b : Reg) (o : BitVec 15) : Statement (.bne a b o) := rfl
theorem blt (a b : Reg) (o : BitVec 15) : Statement (.blt a b o) := rfl
theorem bge (a b : Reg) (o : BitVec 15) : Statement (.bge a b o) := rfl
theorem bltu (a b : Reg) (o : BitVec 15) : Statement (.bltu a b o) := rfl
theorem bgeu (a b : Reg) (o : BitVec 15) : Statement (.bgeu a b o) := rfl
theorem jal (d : Reg) (o : BitVec 20) : Statement (.jal d o) := rfl
theorem jalr (d a : Reg) (i : BitVec 15) : Statement (.jalr d a i) := rfl
theorem ld (d a : Reg) (c : Cls) (s : Size) (o : BitVec 9) : Statement (.ld d a c s o) := rfl
theorem ldu (d a : Reg) (c : Cls) (s : Size) (o : BitVec 9) : Statement (.ldu d a c s o) := rfl
theorem st (d a : Reg) (c : Cls) (s : Size) (o : BitVec 9) : Statement (.st d a c s o) := rfl
theorem lda (d a : Reg) (s : Size) (c : Cls) (p : Scope) : Statement (.lda d a s c p) := rfl
theorem stl (d a : Reg) (s : Size) (c : Cls) (p : Scope) : Statement (.stl d a s c p) := rfl
theorem amoSwap (d a b : Reg) (c : Cls) (p : Scope) : Statement (.amoSwap d a b c p) := rfl
theorem amoAdd (d a b : Reg) (c : Cls) (p : Scope) : Statement (.amoAdd d a b c p) := rfl
theorem amoAnd (d a b : Reg) (c : Cls) (p : Scope) : Statement (.amoAnd d a b c p) := rfl
theorem amoOr (d a b : Reg) (c : Cls) (p : Scope) : Statement (.amoOr d a b c p) := rfl
theorem amoXor (d a b : Reg) (c : Cls) (p : Scope) : Statement (.amoXor d a b c p) := rfl
theorem amoMin (d a b : Reg) (c : Cls) (p : Scope) : Statement (.amoMin d a b c p) := rfl
theorem amoMax (d a b : Reg) (c : Cls) (p : Scope) : Statement (.amoMax d a b c p) := rfl
theorem amoMaxu (d a b : Reg) (c : Cls) (p : Scope) : Statement (.amoMaxu d a b c p) := rfl
theorem amoaSwap (d a b : Reg) (c : Cls) (p : Scope) : Statement (.amoaSwap d a b c p) := rfl
theorem amoaAdd (d a b : Reg) (c : Cls) (p : Scope) : Statement (.amoaAdd d a b c p) := rfl
theorem amoaAnd (d a b : Reg) (c : Cls) (p : Scope) : Statement (.amoaAnd d a b c p) := rfl
theorem amoaOr (d a b : Reg) (c : Cls) (p : Scope) : Statement (.amoaOr d a b c p) := rfl
theorem amoaXor (d a b : Reg) (c : Cls) (p : Scope) : Statement (.amoaXor d a b c p) := rfl
theorem amoaMin (d a b : Reg) (c : Cls) (p : Scope) : Statement (.amoaMin d a b c p) := rfl
theorem amoaMax (d a b : Reg) (c : Cls) (p : Scope) : Statement (.amoaMax d a b c p) := rfl
theorem amoaMaxu (d a b : Reg) (c : Cls) (p : Scope) : Statement (.amoaMaxu d a b c p) := rfl
theorem amolSwap (d a b : Reg) (c : Cls) (p : Scope) : Statement (.amolSwap d a b c p) := rfl
theorem amolAdd (d a b : Reg) (c : Cls) (p : Scope) : Statement (.amolAdd d a b c p) := rfl
theorem amolAnd (d a b : Reg) (c : Cls) (p : Scope) : Statement (.amolAnd d a b c p) := rfl
theorem amolOr (d a b : Reg) (c : Cls) (p : Scope) : Statement (.amolOr d a b c p) := rfl
theorem amolXor (d a b : Reg) (c : Cls) (p : Scope) : Statement (.amolXor d a b c p) := rfl
theorem amolMin (d a b : Reg) (c : Cls) (p : Scope) : Statement (.amolMin d a b c p) := rfl
theorem amolMax (d a b : Reg) (c : Cls) (p : Scope) : Statement (.amolMax d a b c p) := rfl
theorem amolMaxu (d a b : Reg) (c : Cls) (p : Scope) : Statement (.amolMaxu d a b c p) := rfl
theorem amoalSwap (d a b : Reg) (c : Cls) (p : Scope) : Statement (.amoalSwap d a b c p) := rfl
theorem amoalAdd (d a b : Reg) (c : Cls) (p : Scope) : Statement (.amoalAdd d a b c p) := rfl
theorem amoalAnd (d a b : Reg) (c : Cls) (p : Scope) : Statement (.amoalAnd d a b c p) := rfl
theorem amoalOr (d a b : Reg) (c : Cls) (p : Scope) : Statement (.amoalOr d a b c p) := rfl
theorem amoalXor (d a b : Reg) (c : Cls) (p : Scope) : Statement (.amoalXor d a b c p) := rfl
theorem amoalMin (d a b : Reg) (c : Cls) (p : Scope) : Statement (.amoalMin d a b c p) := rfl
theorem amoalMax (d a b : Reg) (c : Cls) (p : Scope) : Statement (.amoalMax d a b c p) := rfl
theorem amoalMaxu (d a b : Reg) (c : Cls) (p : Scope) : Statement (.amoalMaxu d a b c p) := rfl
theorem cas (d a b : Reg) (o : CasOrd) (c : Cls) (p : Scope) : Statement (.cas d a b o c p) := rfl
theorem fenceAcq (m : BitVec 16) (p : Scope) : Statement (.fenceAcq m p) := rfl
theorem fenceRel (m : BitVec 16) (p : Scope) : Statement (.fenceRel m p) := rfl
theorem fenceFull (m : BitVec 16) (p : Scope) : Statement (.fenceFull m p) := rfl
theorem waitaEq (d a b : Reg) (c : Cls) : Statement (.waitaEq d a b c) := rfl
theorem waitaNe (d a b : Reg) (c : Cls) : Statement (.waitaNe d a b c) := rfl
theorem push (m : EngMask) (a : Reg) : Statement (.push m a) := rfl
theorem popr (d : Reg) : Statement (.popr d) := rfl
theorem qcut (a : Reg) : Statement (.qcut a) := rfl
theorem ltrim (m : EngMask) (a : Reg) : Statement (.ltrim m a) := rfl
theorem sets (n : Fin 32) (a : Reg) : Statement (.sets n a) := rfl
theorem gets (d : Reg) (n : Fin 32) : Statement (.gets d n) := rfl
theorem hld (n : Fin 16) (a : Reg) (c : Cls) (o : BitVec 9) : Statement (.hld n a c o) := rfl
theorem hst (n : Fin 16) (a : Reg) (c : Cls) (o : BitVec 9) : Statement (.hst n a c o) := rfl
theorem hset (n : Fin 16) (a : Reg) (s : HField) : Statement (.hset n a s) := rfl
theorem hget (d : Reg) (n : Fin 16) (s : HField) : Statement (.hget d n s) := rfl
theorem bari (a : Reg) (o : BarOp) : Statement (.bari a o) := rfl
theorem barv (a : Reg) (o : BarOp) : Statement (.barv a o) := rfl
theorem barvBare (o : BarOp) : Statement (.barvBare o) := rfl
theorem barx (a : Reg) (o : BarOp) : Statement (.barx a o) := rfl
theorem barw (p : Bool) (o : BarOp) : Statement (.barw p o) := rfl
theorem mbs (a : Reg) (m : Bool) : Statement (.mbs a m) := rfl
theorem mbr (d : Reg) (m : Bool) : Statement (.mbr d m) := rfl
theorem tubset (a : Reg) (o : TubOp) : Statement (.tubset a o) := rfl
theorem tubarmOn (o : TubOp) : Statement (.tubarmOn o) := rfl
theorem tubarmOff (o : TubOp) : Statement (.tubarmOff o) := rfl
theorem spa (d a : Reg) : Statement (.spa d a) := rfl
theorem spra (d a : Reg) : Statement (.spra d a) := rfl
theorem spf (a : Reg) : Statement (.spf a) := rfl
theorem sprst (a : Reg) : Statement (.sprst a) := rfl
theorem specb (p : Fin 4) : Statement (.specb p) := rfl
theorem specc (p : Fin 4) : Statement (.specc p) := rfl
theorem speca (p : Fin 4) : Statement (.speca p) := rfl
theorem chain (a : Reg) (n : Fin 8) : Statement (.chain a n) := rfl
theorem cpyx (d a b : Reg) (k : Cls) (n : Fin 8) : Statement (.cpyx d a b k n) := rfl
theorem cwait (a : Reg) (n : Fin 8) : Statement (.cwait a n) := rfl
theorem ixc (a : Reg) : Statement (.ixc a) := rfl
theorem darnRank (d a : Reg) : Statement (.darnRank d a) := rfl
theorem darnCommit (d a : Reg) : Statement (.darnCommit d a) := rfl
theorem darnStain (d a : Reg) : Statement (.darnStain d a) := rfl
theorem darnList (d a : Reg) : Statement (.darnList d a) := rfl
theorem darnClear (d a : Reg) : Statement (.darnClear d a) := rfl
theorem wrng (a : Reg) : Statement (.wrng a) := rfl
theorem strt (m : EngMask) (a : Reg) : Statement (.strt m a) := rfl
theorem join : Statement (.join) := rfl
theorem launch (a b : Reg) : Statement (.launch a b) := rfl
theorem yield : Statement (.yield) := rfl
theorem trap (i : BitVec 14) : Statement (.trap i) := rfl
theorem tfence : Statement (.tfence) := rfl
theorem eret : Statement (.eret) := rfl
theorem esc : Statement (.esc) := rfl
theorem csrr (d : Reg) (c : BitVec 12) : Statement (.csrr d c) := rfl
theorem csrw (a : Reg) (c : BitVec 12) : Statement (.csrw a c) := rfl
theorem nop : Statement (.nop) := rfl
theorem cycle (d : Reg) : Statement (.cycle d) := rfl
theorem unassignedMajor (w : Word32) : Statement (.unassignedMajor w) := rfl
theorem issue (t : Toks) (p : Fin 64) (f : Fin 8) (v : BitVec 16) : Statement (.issue t p f v) := rfl
theorem amend (p : Fin 64) (f : Fin 8) (v : BitVec 16) : Statement (.amend p f v) := rfl
theorem wide (t : Toks) (p : Fin 64) (f : Fin 8) (u : Word32) : Statement (.wide t p f u) := rfl
theorem loopImm (s : Fin 4) (n : BitVec 16) : Statement (.loopImm s n) := rfl
theorem loopReg (s : Fin 4) (r : Fin 32) : Statement (.loopReg s r) := rfl
theorem endl : Statement (.endl) := rfl
theorem stop : Statement (.stop) := rfl
theorem rdv : Statement (.rdv) := rfl
theorem bwt (p : Bool) (o : BarOp) : Statement (.bwt p o) := rfl
theorem bav (c : BitVec 10) (o : BarOp) : Statement (.bav c o) := rfl
theorem patl (p : Fin 64) (n : Fin 64) (g : Fin 64) : Statement (.patl p n g) := rfl
theorem toks (q : Bool) (n : Fin 16) : Statement (.toks q n) := rfl
theorem pred (s : Fin 4) : Statement (.pred s) := rfl
theorem vadd (o : VOp) : Statement (.vadd o) := rfl
theorem vsub (o : VOp) : Statement (.vsub o) := rfl
theorem vmul (o : VOp) : Statement (.vmul o) := rfl
theorem vfma (o : VOp) : Statement (.vfma o) := rfl
theorem vfms (o : VOp) : Statement (.vfms o) := rfl
theorem vmax (o : VOp) : Statement (.vmax o) := rfl
theorem vmin (o : VOp) : Statement (.vmin o) := rfl
theorem vabs (o : VOp) : Statement (.vabs o) := rfl
theorem vneg (o : VOp) : Statement (.vneg o) := rfl
theorem vcmp (o : VOp) (k : VCond) : Statement (.vcmp o k) := rfl
theorem vsel (o : VOp) : Statement (.vsel o) := rfl
theorem vcvt (o : VOp) : Statement (.vcvt o) := rfl
theorem vqnt (o : VOp) : Statement (.vqnt o) := rfl
theorem vdqnt (o : VOp) : Statement (.vdqnt o) := rfl
theorem vscl (o : VOp) : Statement (.vscl o) := rfl
theorem vexp2 (o : VOp) : Statement (.vexp2 o) := rfl
theorem vlog2 (o : VOp) : Statement (.vlog2 o) := rfl
theorem vrcp (o : VOp) : Statement (.vrcp o) := rfl
theorem vrsq (o : VOp) : Statement (.vrsq o) := rfl
theorem vsqrt (o : VOp) : Statement (.vsqrt o) := rfl
theorem vdiv (o : VOp) : Statement (.vdiv o) := rfl
theorem viadd (o : VOp) : Statement (.viadd o) := rfl
theorem visub (o : VOp) : Statement (.visub o) := rfl
theorem vimul (o : VOp) : Statement (.vimul o) := rfl
theorem vand (o : VOp) : Statement (.vand o) := rfl
theorem vor (o : VOp) : Statement (.vor o) := rfl
theorem vxor (o : VOp) : Statement (.vxor o) := rfl
theorem vshl (o : VOp) : Statement (.vshl o) := rfl
theorem vshr (o : VOp) : Statement (.vshr o) := rfl
theorem vsra (o : VOp) : Statement (.vsra o) := rfl
theorem vimax (o : VOp) : Statement (.vimax o) := rfl
theorem vimin (o : VOp) : Statement (.vimin o) := rfl
theorem vmov (o : VOp) : Statement (.vmov o) := rfl
theorem vbc (o : VOp) (k : Count) : Statement (.vbc o k) := rfl
theorem viota (o : VOp) : Statement (.viota o) := rfl
theorem vred (o : VOp) (op : RedOp) : Statement (.vred o op) := rfl
theorem vscan (o : VOp) (op : RedOp) (excl : Bool) : Statement (.vscan o op excl) := rfl
theorem vsegr (o : VOp) (op : RedOp) : Statement (.vsegr o op) := rfl
theorem vperm (o : VOp) : Statement (.vperm o) := rfl
theorem vpack (o : VOp) : Statement (.vpack o) := rfl
theorem vunpk (o : VOp) : Statement (.vunpk o) := rfl
theorem vpart (o : VOp) : Statement (.vpart o) := rfl
theorem vrank (o : VOp) (pos : Bool) : Statement (.vrank o pos) := rfl
theorem vprune (o : VOp) (p : Prune) : Statement (.vprune o p) := rfl
theorem vrng (o : VOp) : Statement (.vrng o) := rfl
theorem vgumb (o : VOp) : Statement (.vgumb o) := rfl
theorem vtree (o : VOp) (k : TreeKind) (h : Fin 16) : Statement (.vtree o k h) := rfl
theorem vlut (o : VOp) : Statement (.vlut o) := rfl
theorem vpost (o : VOp) : Statement (.vpost o) := rfl
theorem mlb (o : MlbOp) : Statement (.mlb o) := rfl
theorem mma (o : MmaOp) : Statement (.mma o) := rfl
theorem mmb (o : MmbOp) : Statement (.mmb o) := rfl
theorem msa (o : MsaOp) : Statement (.msa o) := rfl
theorem macz (o : MaczOp) : Statement (.macz o) := rfl
theorem macr (o : MacOp) : Statement (.macr o) := rfl
theorem macw (o : MacOp) : Statement (.macw o) := rfl
theorem mmad (o : MmadOp) : Statement (.mmad o) := rfl
theorem ldt (o : TileOp) : Statement (.ldt o) := rfl
theorem ldv (o : LinOp) : Statement (.ldv o) := rfl
theorem ldb (o : LinOp) (q : Count) : Statement (.ldb o q) := rfl
theorem ldg (o : IdxOp) : Statement (.ldg o) := rfl
theorem ldz (o : LdzOp) : Statement (.ldz o) := rfl
theorem stt (o : TileOp) : Statement (.stt o) := rfl
theorem stv (o : LinOp) : Statement (.stv o) := rfl
theorem sts (o : IdxOp) : Statement (.sts o) := rfl
theorem sta (o : IdxOp) : Statement (.sta o) := rfl
theorem stq (o : TileOp) : Statement (.stq o) := rfl
theorem aff (r : RecHead) (w : Walk) : Statement (.aff r w) := rfl
theorem red (r : RecHead) (w : Walk) (op : ROp) (fmt : RFmt) (rm : RMode) (sat : Bool) : Statement (.red r w op fmt rm sat) := rfl
theorem mcst (r : RecHead) (len : BitVec 32) (ndst : BitVec 16) (dlist : Word) : Statement (.mcst r len ndst dlist) := rfl
theorem sig (r : RecHead) (value : Word) : Statement (.sig r value) := rfl
theorem pgt (r : RecHead) (p esize nimg : BitVec 16) (offs : Word) : Statement (.pgt r p esize nimg offs) := rfl
theorem skip (r : RecHead) : Statement (.skip r) := rfl
theorem gth (b : BlockHead) : Statement (.gth b) := rfl
theorem sct (b : BlockHead) : Statement (.sct b) := rfl
theorem sca (b : BlockHead) (op : ROp) (fmt : RFmt) : Statement (.sca b op fmt) := rfl
theorem cpt (b : BlockHead) (inplace : Bool) (stain : Word) : Statement (.cpt b inplace stain) := rfl
theorem allred (d : DescHead) (op : ROp) (fmt : RFmt) : Statement (.allred d op fmt) := rfl
theorem redsc (d : DescHead) (op : ROp) (fmt : RFmt) : Statement (.redsc d op fmt) := rfl
theorem allgv (d : DescHead) (fmt : Fmt) (offs : Word) : Statement (.allgv d fmt offs) := rfl
theorem a2av (d : DescHead) (fmt : Fmt) (cntv offs : Word) : Statement (.a2av d fmt cntv offs) := rfl
theorem bcast (d : DescHead) (fmt : Fmt) (root : BitVec 16) : Statement (.bcast d fmt root) := rfl
theorem argn (d : DescHead) (dies : Word) : Statement (.argn d dies) := rfl
theorem fbar (d : DescHead) : Statement (.fbar d) := rfl
theorem illegalInstr (eng : Bool) (w : Word32) : Statement (.illegalInstr eng w) := rfl
theorem illegalPatch (w : Word32) (u : Option Word32) : Statement (.illegalPatch w u) := rfl
theorem waitaWake (job : Nat) : Statement (.waitaWake job) := rfl
theorem waitaTimeout (job : Nat) : Statement (.waitaTimeout job) := rfl
theorem barrierWaitResume (job : Nat) (str : StreamRef) : Statement (.barrierWaitResume job str) := rfl
theorem tubFire (t : TubId) : Statement (.tubFire t) := rfl
theorem spoolRelease (job : Nat) : Statement (.spoolRelease job) := rfl
theorem yieldTimeout (job : Nat) : Statement (.yieldTimeout job) := rfl
theorem bavArrival (job : Nat) (e : Engine) : Statement (.bavArrival job e) := rfl
theorem segmentStart (job : Nat) (e : Engine) : Statement (.segmentStart job e) := rfl
theorem operationStart (job : Nat) (e : Engine) : Statement (.operationStart job e) := rfl
theorem siblingTakeover (job : Nat) (index : Bool) : Statement (.siblingTakeover job index) := rfl
theorem altWindowChange (core : Nat) : Statement (.altWindowChange core) := rfl
theorem rendezvousComplete (job : Nat) : Statement (.rendezvousComplete job) := rfl
theorem jobRetire (job : Nat) : Statement (.jobRetire job) := rfl
theorem enqueueResume (q : Fin 16) : Statement (.enqueueResume q) := rfl
theorem launchPlace (places : List Seat) : Statement (.launchPlace places) := rfl
theorem jobStart (launch : Nat) : Statement (.jobStart launch) := rfl
theorem launchCompletion (launch : Nat) : Statement (.launchCompletion launch) := rfl
theorem jaileLaunchMessage (r : Request) : Statement (.jaileLaunchMessage r) := rfl
theorem graphNodeJobs (asid : BitVec 16) (g node : Nat) : Statement (.graphNodeJobs asid g node) := rfl
theorem graphNodeCopy (asid : BitVec 16) (g node : Nat) : Statement (.graphNodeCopy asid g node) := rfl
theorem graphNodeCond (asid : BitVec 16) (g node : Nat) : Statement (.graphNodeCond asid g node) := rfl
theorem graphNodeHost (asid : BitVec 16) (g node : Nat) : Statement (.graphNodeHost asid g node) := rfl
theorem graphNodeWait (asid : BitVec 16) (g node : Nat) : Statement (.graphNodeWait asid g node) := rfl
theorem graphNodeEnd (asid : BitVec 16) (g node : Nat) : Statement (.graphNodeEnd asid g node) := rfl
theorem graphNodeComplete (asid : BitVec 16) (g node : Nat) : Statement (.graphNodeComplete asid g node) := rfl
theorem channelRecordFetch (core : Nat) (n : Fin 8) : Statement (.channelRecordFetch core n) := rfl
theorem recordCompletion (core : Nat) (n : Fin 8) : Statement (.recordCompletion core n) := rfl
theorem cpyxTransferComplete (core : Nat) (n : Fin 8) : Statement (.cpyxTransferComplete core n) := rfl
theorem indexBlockComplete (job : Nat) : Statement (.indexBlockComplete job) := rfl
theorem pageWalk (asid : BitVec 16) (va : Word) (acc : Access) (core : Nat) (stream : Nat) : Statement (.pageWalk asid va acc core stream) := rfl
theorem bankWakeComplete (core bank : Nat) : Statement (.bankWakeComplete core bank) := rfl
theorem trapDivert (job : Nat) : Statement (.trapDivert job) := rfl
theorem save (job : Nat) (place : BasketPlace) (log flt : LogArea) : Statement (.save job place log flt) := rfl
theorem flitReceive (port : Nat) (f : Flit) : Statement (.flitReceive port f) := rfl
theorem linkDown (port : Nat) : Statement (.linkDown port) := rfl
theorem linkUp (port : Nat) : Statement (.linkUp port) := rfl
theorem requestResend (tgt : BitVec 8) (seq : BitVec 32) : Statement (.requestResend tgt seq) := rfl
theorem remoteLoad (r : Request) : Statement (.remoteLoad r) := rfl
theorem remoteStore (r : Request) : Statement (.remoteStore r) := rfl
theorem remoteAmo (r : Request) : Statement (.remoteAmo r) := rfl
theorem remoteCas (r : Request) : Statement (.remoteCas r) := rfl
theorem remoteReduce (r : Request) : Statement (.remoteReduce r) := rfl
theorem wringerTraffic (r : Request) : Statement (.wringerTraffic r) := rfl
theorem response (r : Response) : Statement (.response r) := rfl
theorem resync (src : BitVec 8) (epoch : BitVec 32) (answer : Bool) : Statement (.resync src epoch answer) := rfl
theorem resyncResend (tgt : BitVec 8) : Statement (.resyncResend tgt) := rfl
theorem qnotify (q : Fin 64) (v : Word) : Statement (.qnotify q v) := rfl
theorem qstateWrite (q : Fin 64) : Statement (.qstateWrite q) := rfl
theorem rheadWrite (k : Fin 256) (v : Word) : Statement (.rheadWrite k v) := rfl
theorem registerWrite (off : Nat) (v : Word) : Statement (.registerWrite off v) := rfl
theorem ringCoalesceTimeout (k : Fin 256) : Statement (.ringCoalesceTimeout k) := rfl
theorem contextCreate (c : CtxArgs) : Statement (.contextCreate c) := rfl
theorem contextDestroy (asid : BitVec 16) : Statement (.contextDestroy asid) := rfl
theorem mapWrite (asid : BitVec 16) (entries : List (Bool × Nat × Word)) : Statement (.mapWrite asid entries) := rfl
theorem mapInvalidate (asid : BitVec 16) (lo hi : Nat) : Statement (.mapInvalidate asid lo hi) := rfl
theorem mapMigrate (asid : BitVec 16) (va : Nat) (toDdr : Bool) (pa : Nat) : Statement (.mapMigrate asid va toDdr pa) := rfl
theorem mapPlaceBar2 (base : Nat) : Statement (.mapPlaceBar2 base) := rfl
theorem modload (asid : BitVec 16) (va : Word) : Statement (.modload asid va) := rfl
theorem launchCommand (asid : BitVec 16) (q : Nat) (va : Word) : Statement (.launchCommand asid q va) := rfl
theorem graphLoad (asid : BitVec 16) (va : Word) : Statement (.graphLoad asid va) := rfl
theorem graphStart (asid : BitVec 16) (g : Nat) : Statement (.graphStart asid g) := rfl
theorem graphQuery (asid : BitVec 16) (g : Nat) : Statement (.graphQuery asid g) := rfl
theorem preempt (launch : Nat) : Statement (.preempt launch) := rfl
theorem preemptResume (launch : Nat) (places : List Seat) : Statement (.preemptResume launch places) := rfl
theorem query : Statement (.query) := rfl
theorem link (write : Option (Nat × BitVec 256)) (port : Nat) (up : Bool) : Statement (.link write port up) := rfl
theorem power (state : Fin 4) (caps : List Nat) : Statement (.power state caps) := rfl
theorem errlog : Statement (.errlog) := rfl
theorem measure (nonce : List Byte) : Statement (.measure nonce) := rfl
theorem resolve (job : Nat) (ans : Resolve) : Statement (.resolve job ans) := rfl
theorem deviceReset (r : ResetIn) : Statement (.deviceReset r) := rfl
theorem barrierClock (b : BarId) : Statement (.barrierClock b) := rfl
theorem bankGating (core bank : Nat) : Statement (.bankGating core bank) := rfl

end Sys2Proof.Laws.Holder
end

