-- ==== Sys2Proof/Laws/Quiet.lean ====
section
/-! SUPPORT. What a store to memory leaves alone: the registers, the pc and the wait of the focused job. -/

namespace Sys2Proof.Machine

/-- The focused job keeps its identity, its registers, its pc and its wait. -/
def Quiet (s t : State) : Prop :=
  Job.sameRegs s.job t.job ∧ t.job.pc = s.job.pc ∧ t.job.wait = s.job.wait ∧ t.job.id = s.job.id ∧ t.job.asid = s.job.asid ∧
    t.job.core = s.job.core ∧ t.job.cc = s.job.cc

theorem Job.sameRegs_refl (j : Job) : Job.sameRegs j j := by simp [Job.sameRegs]

theorem Job.sameRegs_trans {a b c : Job} (h : Job.sameRegs a b) (g : Job.sameRegs b c) : Job.sameRegs a c := by
  simp only [Job.sameRegs] at *
  simp_all

theorem Quiet.refl (s : State) : Quiet s s := ⟨Job.sameRegs_refl _, rfl, rfl, rfl, rfl, rfl, rfl⟩

theorem Quiet.trans {a b c : State} (h : Quiet a b) (g : Quiet b c) : Quiet a c := by
  have regs := Job.sameRegs_trans h.1 g.1
  simp_all [Quiet]

/-- The focused job after a change of a job is the changed or the same one. -/
theorem updJob_focused (s : State) (i : Nat) (f : Job → Job) (hf : ∀ j, (f j).id = j.id) :
    (updJob s i f).job = s.job ∨ (updJob s i f).job = f s.job := by
  unfold updJob
  cases h : findJob s i with
  | none => exact .inl rfl
  | some j =>
    have hj := findJob_id h
    have h0 := findJob_pos h
    simp only [putJob, hf]
    by_cases hs : s.job.id = j.id
    · rw [if_pos hs]
      have : j = s.job := by
        rw [hj] at hs
        simp [findJob, h0, hs] at h; exact h.symm
      subst this
      exact .inr rfl
    · rw [if_neg hs]; exact .inl rfl

theorem Quiet.updJob (s : State) (i : Nat) (f : Job → Job) (hf : ∀ j, (f j).id = j.id)
    (h : ∀ j, Job.sameRegs j (f j) ∧ (f j).pc = j.pc ∧ (f j).wait = j.wait ∧ (f j).asid = j.asid ∧ (f j).core = j.core ∧ (f j).cc = j.cc) :
    Quiet s (Machine.updJob s i f) := by
  rcases updJob_focused s i f hf with e | e
  · unfold Quiet; rw [e]; exact Quiet.refl s
  · have kept := h s.job
    unfold Quiet; rw [e]
    simp_all

theorem Quiet.putBytes (s : State) (sp : Space) (a : Nat) (d : List Byte) : Quiet s (putBytes s sp a d) := by
  cases sp <;> exact Quiet.refl s

theorem Quiet.setBad (s : State) (sp : Space) (a : Nat) (p : Bool) : Quiet s (setBad s sp a p) := by
  cases sp <;> exact Quiet.refl s

theorem Quiet.clearZero (s : State) (sp : Space) (a n : Nat) : Quiet s (clearZero s sp a n) := by
  cases sp <;> exact Quiet.refl s

theorem Quiet.updBasket (s : State) (i : Nat) (f : Basket → Basket) : Quiet s (updBasket s i f) := by
  unfold Machine.updBasket
  split
  · exact Quiet.refl s
  · rename_i j hj
    split
    · exact Quiet.refl s
    · rename_i b hb
      have h := Quiet.updJob s i (fun k => { k with basket := some (f b) }) (fun _ => rfl) fun _ => ⟨Job.sameRegs_refl _, rfl, rfl, rfl, rfl, rfl⟩
      rw [Machine.updJob, hj] at h
      exact h

theorem Quiet.countSpad (s : State) (j : Job) (o n : Nat) : Quiet s (countSpad s j o n) := by
  unfold Machine.countSpad
  split
  · exact Quiet.updBasket ..
  · exact Quiet.updJob _ _ _ (fun _ => rfl) fun _ => ⟨Job.sameRegs_refl _, rfl, rfl, rfl, rfl, rfl⟩

theorem Quiet.writeTarget (s : State) (sp : Space) (a : Nat) (owner : Option (Nat × Nat)) : Quiet s (writeTarget s sp a owner).1 := by
  unfold Machine.writeTarget
  split
  · unfold bastWrite
    split
    · exact Quiet.refl s
    · simp only
      split
      · exact ((Quiet.putBytes _ _ _ _).trans (Quiet.setBad _ _ _ _)).trans
          (Quiet.updJob _ _ _ (fun _ => rfl) fun _ => ⟨Job.sameRegs_refl _, rfl, rfl, rfl, rfl, rfl⟩)
      · exact Quiet.refl s
  · exact Quiet.refl s

theorem Quiet.storeLine (s : State) (sp : Space) (a : Nat) (owner : Option (Nat × Nat)) (d : List Byte) (bad : Bool) :
    Quiet s (storeLine s sp a owner d bad) := by
  have hm : ∀ (r : State) (q : Space) (b : Nat), Quiet r (if bad then Machine.setBad r q b true
      else if d.length = 64 then Machine.setBad r q b false else r) := by
    intro r q b; split
    · exact Quiet.setBad ..
    · split
      · exact Quiet.setBad ..
      · exact Quiet.refl r
  have hw := Quiet.writeTarget s sp a owner
  have h := ((hw.trans (Quiet.putBytes _ (Machine.writeTarget s sp a owner).2.1 (Machine.writeTarget s sp a owner).2.2 d)).trans
    (Quiet.clearZero _ (Machine.writeTarget s sp a owner).2.1 (Machine.writeTarget s sp a owner).2.2 d.length)).trans
    (Quiet.clearZero _ sp a d.length)
  have h := h.trans (hm _ (Machine.writeTarget s sp a owner).2.1 (Machine.writeTarget s sp a owner).2.2)
  have hj : ownerJob s owner = owner.bind fun q => (findJob s q.1).map fun j => (j, q.2) := rfl
  unfold Machine.storeLine
  unfold Machine.writeTarget at h
  rw [← hj]
  cases ho : ownerJob s owner with
  | some q => rw [ho] at h; exact h.trans (Quiet.countSpad ..)
  | none => rw [ho] at h; cases sp <;> exact h

theorem Quiet.storeParts (s : State) (l : List Part) : Quiet s (storeParts s l) := by
  induction l generalizing s with
  | nil => exact Quiet.refl s
  | cons q r ih =>
    simp only [Machine.storeParts]
    split
    · exact (Quiet.storeLine ..).trans (ih _)
    · exact ih _

theorem Quiet.writeMarked {s t : State} {p : Party} {l : Loc} {d : List (Byte × Bool)} (h : writeMarked s p l d = .ok t) : Quiet s t := by
  unfold Machine.writeMarked at h
  split at h
  · cases h
  · split at h
    · cases h; exact (Quiet.storeParts s _).trans (Quiet.refl _)
    · cases h

theorem Quiet.performStore (s : State) (e : Pending) : Quiet s (performStore s e) := by
  unfold Machine.performStore
  split
  · exact Quiet.refl s
  · exact Quiet.storeLine ..
  · split
    · exact Quiet.refl s
    · exact Quiet.storeLine ..

theorem Quiet.performAll (s : State) (l : List Pending) : Quiet s (performAll s l) := by
  induction l generalizing s with
  | nil => exact Quiet.refl s
  | cons e r ih => exact (Quiet.performStore s e).trans (ih _)

theorem Quiet.drainWhere (s : State) (p : Pending → Bool) : Quiet s (drainWhere s p) :=
  Quiet.trans (b := { s with job := { s.job with stores := (splitLast p s.job.stores).2 } })
    ⟨Job.sameRegs_refl _, rfl, rfl, rfl, rfl, rfl, rfl⟩ (Quiet.performAll _ _)

theorem Quiet.drain (s : State) : Quiet s (drain s) :=
  Quiet.trans (b := { s with job := { s.job with stores := [] } })
    ⟨Job.sameRegs_refl _, rfl, rfl, rfl, rfl, rfl, rfl⟩ (Quiet.performAll _ _)

theorem Quiet.ctlParty {s t : State} (h : Quiet s t) (c : Cls) : ctlParty t c = Machine.ctlParty s c := by
  obtain ⟨-, h0, -, h1, h2, h3, h4⟩ := h
  simp only [Machine.ctlParty, h0, h1, h2, h3]

/-! ### One line of an access -/

theorem lineParts_one {low n : Nat} (hn : 0 < n) (h : low + n ≤ 64) : lineParts low n = [(0, n)] := by
  unfold lineParts
  have hk : (if n = 0 then 0 else (low + n + 63) / 64) = 1 := by rw [if_neg (by omega)]; omega
  rw [hk]
  simp only [List.range_one, List.map_cons, List.map_nil]
  congr 2 <;> omega

/-- A read within one line is the read of its chunk. -/
theorem readChunks_one {s : State} {p : Party} {acc : Access} {l : Loc} {n : Nat} (hn : 0 < n) (h : l.low + n ≤ 64)
    (hl : l.add 0 = l) : readChunks s p acc l n =
      match readChunk s p acc l n with
      | .ok c => .ok [c]
      | .error e => .error e := by
  unfold readChunks
  rw [lineParts_one hn h]
  simp only [readParts, hl]
  cases readChunk s p acc l n <;> rfl

theorem Loc.add_zero (l : Loc) : l.add 0 = l := by cases l <;> simp [Loc.add]

end Sys2Proof.Machine
end

