-- ==== Sys2Proof/Tests/Slice0.lean ====
section
/-! SUPPORT. Tests of the model: ill-formed terms are refused, the spec's own words decode, single steps give the spec's values, and the
premises of the statements can be met. -/

namespace Sys2Proof.Tests

open Sys2Proof.Machine

set_option Elab.async false

/-! ### Words of the control core that the spec writes out (03_encodings.md R48, 05_control_core.md, 06_registers.md R140, R153,
07_queues.md R166, 10_scratchpad.md R239, 11_sync.md R251, R258, 12_copy_index.md R266, 14_ordering.md R308, 15_traps.md R324,
16_fabric.md R352, 17_generation.md R362, 04_jobs.md R92) -/

theorem test_decode_integer : decodeControl 3 0x04537FFD = .addi 5 6 (-3) ∧ decodeControl 3 0x04500000 = .addi 5 0 0 ∧
    decodeControl 3 0x16512345 = .lsh 5 0x12345 ∧ decodeControl 3 0x1656789A = .lsh 5 0x6789A := by decide +kernel

theorem test_decode_branch : decodeControl 3 0x20307FFB = .beq 3 0 (-5) ∧ decodeControl 3 0x2E008000 = .jalr 0 1 0 := by decide +kernel

theorem test_decode_memory : decodeControl 3 0x40741602 = .ld 7 8 2 .d 2 ∧ decodeControl 3 0x50952C8B = .amoalAdd 9 10 11 1 .device ∧
    decodeControl 3 0x52952D8B = .cas 9 10 11 .acqrel 1 .device := by decide +kernel

theorem test_decode_fence : decodeControl 3 0x54000450 = .fenceAcq 0x0002 .core ∧ decodeControl 3 0x54000CE0 = .fenceRel 0x0006 .device ∧
    decodeControl 3 0x540004F0 = .fenceFull 0x0002 .device ∧ decodeControl 3 0x55FFFEF0 = .fenceFull 0xFFFF .device ∧
    decodeControl 3 0x54000710 = .fenceAcq 0x0003 .system ∧ decodeControl 3 0x56531E40 = .waitaNe 5 6 7 2 := by decide +kernel

theorem test_decode_queue : decodeControl 3 0x60648000 = .push { ld := false, mx := true, vx := true, st := false } 9 ∧
    decodeControl 3 0x62500000 = .popr 5 ∧ decodeControl 3 0x64030000 = .qcut 6 ∧
    decodeControl 3 0x66438000 = .ltrim { ld := false, mx := false, vx := true, st := false } 7 ∧
    decodeControl 3 0x60F40000 = .push { ld := true, mx := true, vx := true, st := true } 8 := by decide +kernel

theorem test_decode_shape_handle : decodeControl 3 0x68428000 = .sets 4 5 ∧ decodeControl 3 0x6A720000 = .gets 7 4 ∧
    decodeControl 3 0x6C248E08 = .hld 2 9 1 8 ∧ decodeControl 3 0x6E248E00 = .hst 2 9 1 0 ∧ decodeControl 3 0x7033000C = .hset 3 6 .base ∧
    decodeControl 3 0x72718004 = .hget 7 3 .ext0 := by decide +kernel

theorem test_decode_barrier : decodeControl 3 0x80028009 = .bari 5 { kind := .core, idx := 9 } ∧
    decodeControl 3 0x82030091 = .barv 6 { kind := .die, idx := 17 } ∧ decodeControl 3 0x82000209 = .barvBare { kind := .core, idx := 9 } ∧
    decodeControl 3 0x84038103 = .barx 7 { kind := .device, idx := 3 } ∧
    decodeControl 3 0x86000291 = .barw true { kind := .die, idx := 17 } := by decide +kernel

theorem test_decode_mailbox_tub : decodeControl 3 0x88038000 = .mbs 7 false ∧ decodeControl 3 0x8A900001 = .mbr 9 true ∧
    decodeControl 3 0x8C03000C = .tubset 6 { mem := false, idx := 12 } ∧ decodeControl 3 0x8E00020C = .tubarmOn { mem := false, idx := 12 } ∧
    decodeControl 3 0x8E000083 = .tubarmOff { mem := true, idx := 3 } := by decide +kernel

theorem test_decode_spool : decodeControl 3 0x90530000 = .spa 5 6 ∧ decodeControl 3 0x92530000 = .spra 5 6 ∧
    decodeControl 3 0x94030000 = .spf 6 ∧ decodeControl 3 0x96030000 = .sprst 6 ∧ decodeControl 3 0x98000002 = .specb 2 ∧
    decodeControl 3 0x9A000002 = .specc 2 ∧ decodeControl 3 0x9C000002 = .speca 2 := by decide +kernel

theorem test_decode_unit : decodeControl 3 0xA0030002 = .chain 6 2 ∧ decodeControl 3 0xA2531C1A = .cpyx 5 6 7 3 2 ∧
    decodeControl 3 0xA4030002 = .cwait 6 2 ∧ decodeControl 3 0xA6030000 = .ixc 6 ∧ decodeControl 3 0xAA030000 = .wrng 6 ∧
    decodeControl 3 0xA8530000 = .darnRank 5 6 ∧ decodeControl 3 0xA8530001 = .darnCommit 5 6 ∧ decodeControl 3 0xA8530002 = .darnStain 5 6 ∧
    decodeControl 3 0xA8730003 = .darnList 7 6 ∧ decodeControl 3 0xA8030004 = .darnClear 0 6 := by decide +kernel

theorem test_decode_job : decodeControl 3 0xB0930000 = .strt { ld := true, mx := false, vx := false, st := true } 6 ∧
    decodeControl 3 0xB2000000 = .join ∧ decodeControl 3 0xB4029800 = .launch 5 6 ∧ decodeControl 3 0xB6000000 = .yield ∧
    decodeControl 3 0xC0000005 = .trap 5 ∧ decodeControl 3 0xC2000000 = .tfence ∧ decodeControl 3 0xC4000000 = .eret ∧
    decodeControl 3 0xC6000000 = .esc ∧ decodeControl 3 0xC8500001 = .csrr 5 0x001 ∧ decodeControl 3 0xCA000010 = .csrw 0 0x010 ∧
    decodeControl 3 0xE2500000 = .cycle 5 ∧ decodeControl 3 0xE0000000 = .nop := by decide +kernel

/-- R46, R48, R63: a reserved bit, an unassigned major, and the majors that versions 1 and 2 do not have. -/
theorem test_decode_refuses : decodeControl 3 0xE0000001 = .illegalInstr false 0xE0000001 ∧ decodeControl 3 0x00000000 = .unassignedMajor 0 ∧
    decodeControl 2 0xA8530000 = .unassignedMajor 0xA8530000 ∧ decodeControl 1 0xAA030000 = .unassignedMajor 0xAA030000 ∧
    decodeControl 3 0x54000440 = .illegalInstr false 0x54000440 := by decide +kernel

/-! ### Patch words (03_encodings.md R57, R62, 04_jobs.md R92, 07_queues.md R171 to R173, 11_sync.md R251) -/

theorem test_decode_issue : decodePatch 0x08000000 none = .issue { wf := false, wb := false, sf := true, sb := false } 0 0 0 ∧
    decodePatch 0x28730021 none = .issue { wf := true, wb := false, sf := true, sb := false } 7 3 0x21 ∧
    decodePatch 0x40730021 none = .amend 7 3 0x21 ∧
    decodePatch 0xC0350000 (some 0x00012000) = .wide { wf := false, wb := false, sf := false, sb := false } 3 5 0x00012000 ∧
    decodePatch 0xC0020000 (some 0x00020001) = .wide { wf := false, wb := false, sf := false, sb := false } 0 2 0x00020001 ∧
    decodePatch 0x04200000 none = .issue { wf := false, wb := false, sf := false, sb := true } 2 0 0 ∧
    decodePatch 0x18000000 none = .issue { wf := false, wb := true, sf := true, sb := false } 0 0 0 := by decide +kernel

theorem test_decode_ctrl : decodePatch 0x80300000 none = .stop ∧ decodePatch 0x80400000 none = .rdv ∧ decodePatch 0x80880004 none = .toks true 4 ∧
    decodePatch 0x80700F00 none = .patl 0 15 0 ∧ decodePatch 0x80160004 none = .loopReg 2 4 ∧ decodePatch 0x80900001 none = .pred 1 ∧
    decodePatch 0x80200000 none = .endl ∧ decodePatch 0x80500203 none = .bwt true { kind := .core, idx := 3 } ∧
    decodePatch 0x80600485 none = .bav 2 { kind := .die, idx := 5 } := by decide +kernel

/-- R59, R62: an ISSUE with F8 set and a CTRL word with a token bit are illegal patch words; an unassigned CTRL code is ILLEGAL_INSTR. -/
theorem test_decode_patch_refuses : decodePatch 0x00080000 none = .illegalPatch 0x00080000 none ∧
    decodePatch 0xA0300000 none = .illegalPatch 0xA0300000 none ∧ decodePatch 0x80000000 none = .illegalInstr true 0x80000000 := by decide +kernel

/-! ### Patterns that the spec writes out (03_encodings.md R53, 09_matrix.md, 19 to 21) -/

/-- The slots of a VX operation with nothing else said: class 0, RNE. -/
def vop (d a b : RegSlot) (n : Count) (df sf : Fmt) : VOp :=
  { hdr := { cls := 0, sat := false }, d, a, b, c := .none, n, df, sf, rm := .rne, rnd := .none }

/-- Class 0 and no saturation. -/
def plain : Hdr := { cls := 0, sat := false }

theorem test_decode_vx : decodePattern .vx 0x0100E00000008004E000400200010003 = some (.vadd (vop (.main 3) (.main 1) (.opnd 2) (.shape 4) .fp32 .fp32)) ∧
    decodePattern .vx 0x0C00E00010008006E000E00000080009 = some (.vcvt (vop (.main 9) (.main 8) .none (.shape 6) .bf16 .fp32)) ∧
    decodePattern .vx 0x2A00E000BB0080050000C009D0000002 = some (.viota (vop (.main 2) (.imm 0) (.shape 9) (.shape 5) .uint32 .uint32)) ∧
    decodePattern .vx 0x2D00E000B00080040003000200000005 =
      some (.vsegr (vop (.main 5) (.main 0) (.main 2) (.shape 4) .uint32 .fp32) .amax) ∧
    decodePattern .vx 0x1800E000BB008004E000C00A00050005 = some (.viadd (vop (.main 5) (.main 5) (.shape 10) (.shape 4) .uint32 .uint32)) := by
  decide +kernel

theorem test_decode_mx_blocks : decodePattern .mx 0x01000000D000004000010000E0000005 =
      some (.mlb { hdr := plain, h := 5, bank := false, src := .none, org := .imm 0, n := .imm 1, k := .imm 64, fmt := .mxint8, lane := .imm 0 }) ∧
    decodePattern .mx 0x05000000000000000000000000020000 = some (.macz { hdr := plain, base := 0, bpf := false, m := .imm 2 }) ∧
    decodePattern .mx 0x03000000D000004000020000E0000004 =
      some (.mmb { hdr := plain, h := 4, bank := false, mask := .none, src := .none, org := .imm 0, m := .imm 2, k := .imm 64, fmt := .mxint8
                   lane := .imm 0 }) ∧
    decodePattern .mx 0x04000000000000010040000200150014 =
      some (.msa { hdr := plain, ra := .main 20, rb := .main 21, m := .imm 2, k := .imm 64, n := .imm 1, base := 0 }) := by decide +kernel

theorem test_decode_mx_passes : decodePattern .mx 0x020000001000000880040000E0000022 =
      some (.mma { hdr := plain, h := 2, bank := false, mask := .seg, src := .none, org := .imm 0, m := .shape 4, k := .imm 8, fmt := .bf16, base := 0
                   lane := .imm 0 }) ∧
    decodePattern .mx 0x06000000000000008004800401000008 =
      some (.macr { hdr := plain, reg := .main 8, base := 0, fill := .ninf, int := false, m := .shape 4, n := .shape 4, fmt := .fp32, rm := .rne }) := by
  decide +kernel

theorem test_decode_ld : decodePattern .ld 0x02000000C00080070000000000010004 =
      some (.ldv { hdr := plain, reg := .main 4, h := 1, start := .imm 0, n := .shape 7, fr := .uint16, rm := .rne, scales := false }) ∧
    decodePattern .ld 0x03000000B00000088004000000040009 =
      some (.ldb { hdr := plain, reg := .main 9, h := 4, start := .imm 0, n := .imm 8, fr := .uint32, rm := .rne, scales := false } (.shape 4)) ∧
    decodePattern .ld 0x01000008200080040000000000020008 =
      some (.ldt { hdr := plain, reg := .main 8, h := 2, plane := .imm 0, row := .imm 0, col := .imm 0, tr := .shape 4, tc := .imm 8, fr := .fp16
                   rm := .rne, scales := false }) := by decide +kernel

theorem test_decode_st : decodePattern .st 0x04000000200080050000000900030008 =
      some (.sta { hdr := plain, reg := .main 8, h := 3, idx := .main 9, n := .shape 5, fr := .fp16, rm := .rne, scales := false }) ∧
    decodePattern .st 0x03000000B00080040000000300040005 =
      some (.sts { hdr := plain, reg := .main 5, h := 4, idx := .main 3, n := .shape 4, fr := .uint32, rm := .rne, scales := false }) ∧
    decodePattern .st 0x01000008200080070000800600020001 =
      some (.stt { hdr := plain, reg := .main 1, h := 2, plane := .imm 0, row := .shape 6, col := .imm 0, tr := .shape 7, tc := .imm 8, fr := .fp16
                   rm := .rne, scales := false }) := by decide +kernel

/-- R54, R55, R60: opcode 0, an unassigned opcode and a reserved bit are no operations. -/
theorem test_decode_pattern_refuses : decodePattern .vx 0 = none ∧ decodePattern .mx 0x09000000000000000000000000000000 = none ∧
    decodePattern .vx 0x0101E00000008004E000400200010003 = none := by decide +kernel

/-! ### Records, blocks and descriptors that the spec writes out (12_copy_index.md, 20_programs_dataflow.md, 21_programs_generation.md) -/

/-- A counter of a walk as a record holds it (R268). -/
def ctr (count sstr dstr : Nat) : Nat := count + 2 ^ 32 * sstr + 2 ^ 64 * dstr

/-- The AFF record of the transposing copy of 12_copy_index.md. -/
def copyRec : BitVec 1024 := BitVec.ofNat 1024 (0xFFFFFFFF00BC9211 + 0x8000 * 2 ^ 128 + 0x9000 * 2 ^ 192 + 4 * 2 ^ 256 + ctr 2 12 4 * 2 ^ 320 +
  ctr 3 4 8 * 2 ^ 416 + ctr 1 0 0 * (2 ^ 512 + 2 ^ 608 + 2 ^ 704 + 2 ^ 800))

/-- Its head. -/
def copyHead : RecHead :=
  { cls := 2, scope := .core, wm := true, poison := .trap, srcsp := true, dstsp := true, bar := some { kind := .core, idx := 5 }, sjref := 0xFFFF
    djref := 0xFFFF, next := 0, src := 0x8000, dst := 0x9000, prog := 0, npoi := 0 }

/-- A counter that counts one. -/
def once : WalkCtr := { count := 1, sstr := 0, dstr := 0 }

theorem test_decode_record : decodeRecord copyRec =
    some (.aff copyHead { esize := 4, c0 := { count := 2, sstr := 12, dstr := 4 }, c1 := { count := 3, sstr := 4, dstr := 8 }, c2 := once, c3 := once
                          c4 := once, c5 := once }) := by decide +kernel

/-- R264: a reserved bit refuses a record. -/
theorem test_decode_record_refuses : decodeRecord (copyRec ||| 2) = none := by decide +kernel

/-- The SCT block of 20_programs_dataflow.md. -/
def sctBlock : BitVec 512 := BitVec.ofNat 512 (2 + 3 * 2 ^ 12 + 0x200000 * 2 ^ 64 + 0x101000 * 2 ^ 128 + 0x102000 * 2 ^ 192 + 168 * 2 ^ 256 +
  16 * 2 ^ 288 + 0x100280 * 2 ^ 320)

theorem test_decode_block : decodeBlock sctBlock =
    some (.sct { cls := 0, scope := .device, poison := .trap, tsp := false, dsp := false, isp := false, countReg := false, bar := none, djref := 0
                 table := 0x200000, index := 0x101000, data := 0x102000, count := 168, rowBytes := 16, status := 0x100280, ntab := 0 }) := by
  decide +kernel

/-- R282: 0 rows of bytes, and INPLACE outside CPT. -/
theorem test_decode_block_refuses : decodeBlock (sctBlock &&& ~~~(BitVec.ofNat 512 (0xFFFFFFFF * 2 ^ 288))) = none ∧
    decodeBlock (sctBlock ||| BitVec.ofNat 512 (2 ^ 22)) = none := by decide +kernel

/-- The ARGN descriptor of 21_programs_generation.md, with its area at 0x20_5000. -/
def argnDesc : BitVec 512 := BitVec.ofNat 512 (6 + (2 + 1 * 4) * 2 ^ 16 + 0x0D00 * 2 ^ 32 + 8 * 2 ^ 128 + 8 * 2 ^ 160 + 0x205300 * 2 ^ 192 +
  0x205340 * 2 ^ 256 + 0x2053C0 * 2 ^ 448)

theorem test_decode_descriptor : decodeDesc argnDesc =
    some (.argn { parts := .rect 0 0 0 0, cls := 1, bar := none, tag := 0x0D00, count := 8, rcap := 8, send := 0x205300, recv := 0x205340
                  status := 0x2053C0 } 0) := by decide +kernel

/-- R351: an OP that is none, and a format for ARGN. -/
theorem test_decode_descriptor_refuses : decodeDesc (argnDesc ||| 1 ||| 8) = none ∧ decodeDesc (argnDesc ||| 0x100) = none := by decide +kernel

/-! ### Ill-formed terms: one for each check of WellFormed -/

/-- No engine. -/
def noEng : EngMask := { ld := false, mx := false, vx := false, st := false }
/-- No token bit. -/
def noTok : Toks := { wf := false, wb := false, sf := false, sb := false }

theorem test_refuses_words : (Instr.push noEng 1).wf = false ∧ (Instr.ltrim noEng 1).wf = false ∧ (Instr.strt noEng 1).wf = false ∧
    (Instr.amend 0 0 1).wf = false ∧ (Instr.issue noTok 0 0 1).wf = false ∧ (Instr.wide noTok 0 1 0).wf = false ∧
    (Instr.bav 0 { kind := .core, idx := 0 }).wf = false ∧ (Instr.patl 63 1 0).wf = false ∧ (Instr.toks false 0).wf = false := by decide +kernel

/-- A well-formed VX operation, that the next terms break. -/
def okV : VOp := vop (.main 3) (.main 1) (.main 2) (.imm 4) .fp32 .fp32

/-- Destination, sources, formats, rounding mode, random register, second destination (08_vector.md R183 to R189). -/
theorem test_refuses_vx_slots : (Instr.vadd okV).wf = true ∧ (Instr.vadd { okV with d := .last 0 }).wf = false ∧ (Instr.vadd { okV with a := .none }).wf = false ∧
    (Instr.vadd { okV with b := .none }).wf = false ∧ (Instr.vadd { okV with c := .main 4 }).wf = false ∧
    (Instr.vadd { okV with sf := .e8m0 }).wf = false ∧ (Instr.vadd { okV with df := .int8 }).wf = false ∧
    (Instr.vadd { okV with rm := .sr }).wf = false ∧ (Instr.vadd { okV with rnd := .main 9 }).wf = false ∧
    (Instr.viadd { okV with df := .int32, sf := .int32, rm := .rup }).wf = false ∧
    (Instr.vprune { okV with b := .main 3 } .n2m4).wf = false := by decide +kernel

theorem test_refuses_vx_roles : (Instr.vcmp okV .eq).wf = false ∧ (Instr.vsel okV).wf = false ∧ (Instr.vcvt okV).wf = false ∧
    (Instr.vqnt { okV with b := .none }).wf = false ∧ (Instr.vdqnt { okV with b := .none }).wf = false ∧ (Instr.vscl { okV with b := .shape 1, df := .int8 }).wf = false ∧
    (Instr.vmov { okV with b := .none, df := .bf16 }).wf = false ∧ (Instr.vbc { okV with b := .none, df := .int8 } (.imm 1)).wf = false ∧
    (Instr.viota okV).wf = false ∧ (Instr.vred { okV with b := .none, df := .bf16 } .cnt).wf = false ∧
    (Instr.vscan { okV with b := .none, df := .uint32 } .amax false).wf = false ∧ (Instr.vsegr { okV with b := .shape 1 } .sum).wf = false ∧
    (Instr.vperm { okV with b := .imm 1 }).wf = false ∧ (Instr.vpart { okV with b := .none }).wf = false ∧
    (Instr.vrank { okV with b := .none } false).wf = false ∧ (Instr.vrng { okV with a := .shape 29, b := .none, df := .uint32, sf := .uint32 }).wf = false ∧
    (Instr.vgumb { okV with b := .none }).wf = false ∧ (Instr.vtree { okV with b := .none, sf := .uint32, df := .uint32 } .anc 0).wf = false ∧
    (Instr.vlut okV).wf = false ∧ (Instr.vpost { okV with b := .none }).wf = false := by decide +kernel

/-- Operations of the matrix array that are well formed, and one break of each check (09_matrix.md R207, R216, R224). -/
def okMlb : MlbOp := { hdr := plain, h := 0, bank := false, src := .none, org := .imm 0, n := .imm 1, k := .imm 8, fmt := .bf16, lane := .imm 0 }
def okMma : MmaOp :=
  { hdr := plain, h := 0, bank := false, mask := .none, src := .none, org := .imm 0, m := .imm 1, k := .imm 8, fmt := .bf16, base := 0, lane := .imm 0 }
def okMmb : MmbOp :=
  { hdr := plain, h := 0, bank := false, mask := .none, src := .none, org := .imm 0, m := .imm 1, k := .imm 32, fmt := .mxint8, lane := .imm 0 }
def okMsa : MsaOp := { hdr := plain, ra := .main 1, rb := .main 2, m := .imm 1, k := .imm 32, n := .imm 1, base := 0 }
def okMac : MacOp := { hdr := plain, reg := .main 1, base := 0, fill := .none, int := false, m := .imm 1, n := .imm 1, fmt := .fp32, rm := .rne }
def okMmad : MmadOp :=
  { hdr := plain, rel := false, ha := 0, hb := 1, hc := 2, mask := .none, fill := .none, m := .imm 1, n := .imm 1, k := .imm 1, cf := .fp32
    af := .bf16, bf := .bf16, rm := .rne, acc := false }

theorem test_refuses_mx : (Instr.mlb okMlb).wf = true ∧ (Instr.mlb { okMlb with src := .shape 1 }).wf = false ∧ (Instr.mlb { okMlb with fmt := .int4 }).wf = false ∧
    (Instr.mma okMma).wf = true ∧ (Instr.mma { okMma with src := .imm 1 }).wf = false ∧ (Instr.mma { okMma with fmt := .mxint8 }).wf = false ∧
    (Instr.mmb okMmb).wf = true ∧ (Instr.mmb { okMmb with src := .imm 1 }).wf = false ∧ (Instr.mmb { okMmb with fmt := .bf16 }).wf = false ∧
    (Instr.msa okMsa).wf = true ∧ (Instr.msa { okMsa with ra := .none }).wf = false ∧ (Instr.msa { okMsa with rb := .imm 1 }).wf = false := by
  decide +kernel

theorem test_refuses_accumulators : (Instr.macr okMac).wf = true ∧ (Instr.macr { okMac with reg := .none }).wf = false ∧
    (Instr.macr { okMac with fmt := .e8m0 }).wf = false ∧ (Instr.macr { okMac with rm := .sr }).wf = false ∧
    (Instr.macr { okMac with int := true, fill := .ninf }).wf = false ∧ (Instr.macw okMac).wf = true ∧ (Instr.macw { okMac with reg := .none }).wf = false ∧
    (Instr.macw { okMac with fmt := .e2m1s }).wf = false ∧ (Instr.macw { okMac with rm := .sr }).wf = false ∧
    (Instr.macw { okMac with fill := .zero }).wf = false ∧ (Instr.mmad okMmad).wf = true ∧ (Instr.mmad { okMmad with bf := .fp16 }).wf = false ∧
    (Instr.mmad { okMmad with cf := .mxint8 }).wf = false ∧ (Instr.mmad { okMmad with rm := .sr }).wf = false ∧
    (Instr.mmad { okMmad with af := .int8, bf := .int8, fill := .val 1 }).wf = false ∧
    (Instr.mmad { okMmad with acc := true, cf := .bf16 }).wf = false := by decide +kernel

/-- Operations of the load and store engines that are well formed, and one break of each check (06_registers.md R154, R155, R160). -/
def okTile : TileOp :=
  { hdr := plain, reg := .main 1, h := 0, plane := .imm 0, row := .imm 0, col := .imm 0, tr := .imm 1, tc := .imm 1, fr := .fp32, rm := .rne, scales := false }
def okLin : LinOp := { hdr := plain, reg := .main 1, h := 0, start := .imm 0, n := .imm 1, fr := .fp32, rm := .rne, scales := false }
def okIdx : IdxOp := { hdr := plain, reg := .main 1, h := 0, idx := .main 2, n := .imm 1, fr := .fp32, rm := .rne, scales := false }

theorem test_refuses_ld : (Instr.ldt okTile).wf = true ∧ (Instr.ldt { okTile with reg := .last 0 }).wf = false ∧ (Instr.ldt { okTile with rm := .sr }).wf = false ∧
    (Instr.ldt { okTile with scales := true }).wf = false ∧ (Instr.ldv okLin).wf = true ∧ (Instr.ldv { okLin with reg := .none }).wf = false ∧
    (Instr.ldb { okLin with rm := .sr } (.imm 1)).wf = false ∧ (Instr.ldg okIdx).wf = true ∧ (Instr.ldg { okIdx with idx := .none }).wf = false ∧
    (Instr.ldg { okIdx with reg := .imm 1 }).wf = false ∧ (Instr.ldg { okIdx with rm := .sr }).wf = false ∧
    (Instr.ldz { hdr := plain, reg := .last 1, h := 0, n := .imm 1 }).wf = false := by decide +kernel

theorem test_refuses_st : (Instr.stt { okTile with reg := .none }).wf = false ∧ (Instr.stt { okTile with rm := .sr }).wf = false ∧
    (Instr.stv { okLin with reg := .imm 0 }).wf = false ∧ (Instr.stv { okLin with scales := true }).wf = false ∧
    (Instr.sts { okIdx with reg := .none }).wf = false ∧ (Instr.sta { okIdx with idx := .shape 0 }).wf = false ∧ (Instr.sts { okIdx with rm := .sr }).wf = false ∧
    (Instr.stq okTile).wf = true ∧ (Instr.stq { okTile with fr := .bf16 }).wf = false ∧ (Instr.stq { okTile with reg := .none }).wf = false ∧
    (Instr.stq { okTile with rm := .sr }).wf = false := by decide +kernel

/-- A record head and a walk that are well formed, and one break of each check (12_copy_index.md R264, R268 to R273). -/
def okHead : RecHead :=
  { cls := 0, scope := .job, wm := false, poison := .trap, srcsp := false, dstsp := false, bar := none, sjref := 0, djref := 0, next := 0, src := 0
    dst := 0, prog := 0, npoi := 0 }
def okWalk : Walk := { esize := 4, c0 := once, c1 := once, c2 := once, c3 := once, c4 := once, c5 := once }

theorem test_refuses_records : (Instr.aff okHead okWalk).wf = true ∧ (Instr.aff { okHead with next := 64 } okWalk).wf = false ∧
    (Instr.aff { okHead with srcsp := true, src := 0x1000000 } okWalk).wf = false ∧ (Instr.aff { okHead with dstsp := true, dst := 0x1000000 } okWalk).wf = false ∧
    (Instr.aff okHead { okWalk with esize := 0 }).wf = false ∧ (Instr.aff okHead { okWalk with esize := 257 }).wf = false ∧
    (Instr.red okHead okWalk .add .fp32 .rne false).wf = true ∧ (Instr.red okHead { okWalk with esize := 2 } .add .fp32 .rne false).wf = false ∧
    (Instr.red { okHead with dst := 2 } okWalk .add .fp32 .rne false).wf = false ∧ (Instr.red okHead okWalk .add .fp32 .sr false).wf = false ∧
    (Instr.mcst okHead 0 1 0).wf = false ∧ (Instr.mcst okHead 1 0 0).wf = false ∧ (Instr.mcst okHead 1 17 0).wf = false ∧
    (Instr.mcst { okHead with dst := 8 } 1 1 0).wf = false ∧ (Instr.mcst { okHead with dstsp := true } 1 1 0).wf = false := by decide +kernel

theorem test_refuses_other_records : (Instr.sig okHead 1).wf = true ∧ (Instr.sig { okHead with src := 8 } 1).wf = false ∧
    (Instr.sig { okHead with srcsp := true } 1).wf = false ∧ (Instr.sig { okHead with dst := 4 } 1).wf = false ∧ (Instr.pgt okHead 1 1 1 0).wf = true ∧
    (Instr.pgt okHead 0 1 1 0).wf = false ∧ (Instr.pgt okHead 65 1 1 0).wf = false ∧ (Instr.pgt okHead 1 0 1 0).wf = false ∧
    (Instr.pgt okHead 1 257 1 0).wf = false ∧ (Instr.pgt okHead 1 1 0 0).wf = false ∧ (Instr.pgt okHead 1 1 4097 0).wf = false ∧
    (Instr.skip { okHead with src := 8 }).wf = false ∧ (Instr.skip { okHead with dst := 8 }).wf = false := by decide +kernel

/-- A command block and a descriptor that are well formed, and one break of each check (R282, 16_fabric.md R351). -/
def okBlock : BlockHead :=
  { cls := 0, scope := .job, poison := .trap, tsp := false, dsp := false, isp := false, countReg := false, bar := none, djref := 0, table := 0, index := 0
    data := 0, count := 1, rowBytes := 4, status := 0, ntab := 0 }
def okDesc : DescHead := { parts := .row, cls := 0, bar := none, tag := 0, count := 1, rcap := 1, send := 0, recv := 0, status := 0 }

theorem test_refuses_blocks : (Instr.gth okBlock).wf = true ∧ (Instr.gth { okBlock with tsp := true, table := 0x1000000 }).wf = false ∧
    (Instr.sct { okBlock with dsp := true, data := 0x1000000 }).wf = false ∧ (Instr.gth { okBlock with isp := true, index := 0x1000000 }).wf = false ∧
    (Instr.gth { okBlock with countReg := true, count := 32 }).wf = false ∧ (Instr.gth { okBlock with count := 0x1000000 }).wf = false ∧
    (Instr.gth { okBlock with rowBytes := 0 }).wf = false ∧ (Instr.gth { okBlock with rowBytes := 1048577 }).wf = false ∧
    (Instr.gth { okBlock with status := 4 }).wf = false ∧ (Instr.sca { okBlock with rowBytes := 2 } .add .fp32).wf = false := by decide +kernel

theorem test_refuses_descriptors : (Instr.allred okDesc .add .fp32).wf = true ∧ (Instr.allred { okDesc with count := 0x80000000 } .add .fp32).wf = false ∧
    (Instr.fbar { okDesc with status := 8 }).wf = false ∧ (Instr.allgv okDesc .int4 0).wf = false ∧ (Instr.bcast okDesc .e2m1s 0).wf = false := by
  decide +kernel

/-! ### A small device: one job on core 0, with the first GiB of HBM mapped onto itself -/

/-- The device with the placed job in its focus, and no agenda. -/
def box : State := { placeWord State.reset 0xE0000000 with agenda := [] }

/-- The focused job changed. -/
def withJob (s : State) (f : Job → Job) : State := { s with job := f s.job }

/-- A register of the job set. -/
def withX (s : State) (r : Reg) (v : Word) : State := withJob s fun j => { j with x := j.x.set r v }

/-- A queue of 64 entries. -/
def fullQueue : List QEntry := List.replicate 64 (.inv 0 0)

/-- The device with every byte of the line at 0x20000 poisoned. -/
def badLine (s : State) : State := { s with hbmPoison := [(0x800, 1)] }

/-- The page of 1 GiB at 0x4000_0000 is one of device 1, and a response for the unit's doubleword there has come. -/
def farBox (u : Machine.Unit) (op : ReqOp) (size : Nat) : State :=
  let s := { box with hbm := swrite box.hbm 0x3008 (leBytes 8 (0x7F + 2 ^ 52)) }
  let q : Request := { op, cls := 0, poison := .trap, ddr := false, detoured := false, src := 0, tgt := 1, seq := 0, ackb := 0, asid := 1
                       party := 0, pa := 0, size, epoch := 0 }
  { s with rbuf := [{ unit := u, key := (match u with | .ctl _ => s.job.pc | _ => 0), req := q, resp := { status := 0, src := 1, tgt := 0, seq := 0, result := 9, data := [], poisoned := false } }] }

/-- The test of the next state. -/
def stepped (r : Result) (p : State → Bool) : Bool :=
  match r with
  | .next t => p t
  | _ => false

/-- The test of an answer. -/
def answered {α : Type} : Except Stop α → (α → Bool) → Bool
  | .ok a, p => p a
  | .error _, _ => false

/-! ### The premises of the statements can be met: memory of the control core -/

theorem test_meets_loads : loadForm (withX box 1 0x20000) (.ld 5 1 0 .d 0) = some (5, 0x20000, 8, 0, true) ∧
    loadForm (withX box 1 0x20007) (.ldu 5 1 0 .b 0) = some (5, 0x20007, 1, 0, false) ∧
    loadForm (withX box 1 0x20000) (.lda 5 1 .h 3 .device) = some (5, 0x20000, 2, 3, true) ∧
    answered (readChunk (withX box 1 0x20000) (ctlParty box 0) .read (.va 0x20000) 8) (fun c => !c.bad) = true ∧
    answered (readChunk (badLine box) (ctlParty box 0) .read (.va 0x20000) 8) (fun c => c.bad) = true ∧
    loadForm (withX box 1 0x20004) (.ld 5 1 0 .d 0) = some (5, 0x20004, 8, 0, true) ∧ (0x20004 : Word).toNat % 8 ≠ 0 :=
  ⟨rfl, rfl, rfl, by decide +kernel, by decide +kernel, rfl, by decide⟩

theorem test_meets_stores : storeForm (withX box 1 0x20000) (.st 0 1 0 .d 0) = some (0x20000, 0, List.replicate 8 0) ∧
    storeForm (withX box 1 0x20000) (.stl 0 1 .w 2 .core) = some (0x20000, 2, List.replicate 4 0) ∧
    ((storeForm (withX box 1 0x20000) (.hst 3 1 0 0)).map fun f => (f.1, f.2.2.length)) = some (0x20000, 64) ∧
    answered (locate (withX box 1 0x20000) (ctlParty box 0) .write (.va 0x20000) 8) (· == (.here .hbm 0x20000 .trap, none)) = true ∧
    answered (locate (drainFor (withX box 1 0x20000) 0 (some (.hbm, 0x20000, none)) 8) (ctlParty box 0) .write (.va 0x20000) 8) (· == (.here .hbm 0x20000 .trap, none)) = true ∧
    answered (locate box (ctlParty box 0) .write (.va 0x1FFFFFFFF7FFFC0) 8) (· == (.here (.spad 0) 0x7FFFC0 .trap, some (1, 0x7FFFC0))) = true :=
  ⟨rfl, rfl, rfl, rfl, rfl, rfl⟩

theorem test_meets_stores_space : Space.fits (writeTarget box .hbm 0x20000 none).2.1 (writeTarget box .hbm 0x20000 none).2.2 8 ∧
    (writeTarget box (.spad 0) 0x7FFFC0 (some (1, 0x7FFFC0))).2 = (.spad 0, 0x7FFFC0) ∧ Space.fits (.spad 0) 0x7FFFC0 64 ∧
    mayWait box (.here .hbm 0x20000 .trap, none) = true ∧ box.delay = false ∧ { box with delay := true }.delay = true :=
  ⟨trivial, by decide +kernel, by unfold Space.fits; decide +kernel, rfl, rfl, rfl⟩

/-- A store of 8 zero bytes at device 1 whose response has come. -/
def farStore : State := farBox (.ctl 1) (.store (List.replicate 8 0) false) 8
/-- An AMO-ADD of 0 there. -/
def farAmo : State := farBox (.ctl 1) (.amo 1 0) 8

theorem test_meets_stores_remote : answered (locate farStore (ctlParty farStore 0) .write (.va 0x40000000) 8) (· == (.remote 1 false 0 .trap, none)) = true ∧
    answered (locate (drainFor farStore 0 (spotOf farStore (.remote 1 false 0 .trap, none)) 8) (ctlParty farStore 0) .write (.va 0x40000000) 8)
      (· == (.remote 1 false 0 .trap, none)) = true ∧
    answered (answerTo (drainFor farStore 0 (spotOf farStore (.remote 1 false 0 .trap, none)) 8) (ctlParty farStore 0)
      (request farStore (ctlParty farStore 0) (.store (List.replicate 8 0) false) 1 false 0 8 .trap) 0x40000000 0x40000000) (fun _ => true) = true :=
  ⟨by decide +kernel, by decide +kernel, by decide +kernel⟩

theorem test_meets_atomics : ((atomicForm (withX box 1 0x20000) (.amoalMaxu 5 1 2 0 .system)).map fun f => (f.d, f.ea, f.cls)) = some (5, 0x20000, 0) ∧
    ((atomicForm (withX box 1 0x20000) (.cas 5 1 2 .rlx 1 .job)).map fun f => (f.d, f.ea, f.cls)) = some (5, 0x20000, 1) ∧
    answered (locate (withX box 1 0x20000) (ctlParty box 0) .atomic (.va 0x20000) 8) (fun x =>
      x == (.here .hbm 0x20000 .trap, none) && spotOf box x == some (.hbm, 0x20000, none)) = true ∧
    answered (locate (drainFor (withX box 1 0x20000) 0 (some (.hbm, 0x20000, none)) 8) (ctlParty box 0) .atomic (.va 0x20000) 8)
      (· == (.here .hbm 0x20000 .trap, none)) = true ∧
    lineBad box (readPlace box .hbm 0x20000 none).1 (readPlace box .hbm 0x20000 none).2 = false ∧
    lineBad (badLine box) (readPlace box .hbm 0x20000 none).1 (readPlace box .hbm 0x20000 none).2 = true ∧
    answered (locate farAmo (ctlParty farAmo 0) .atomic (.va 0x40000000) 8) (· == (.remote 1 false 0 .trap, none)) = true ∧
    answered (answerTo farAmo (ctlParty farAmo 0) (request farAmo (ctlParty farAmo 0) (.amo 1 0) 1 false 0 8 .trap) 0x40000000 0x40000000)
      (fun r => r.result == 9) = true := by decide +kernel

theorem test_meets_fences : (∀ c sp a o d, Pending.store c sp a o d ∈ box.job.stores → (0xFFFF : BitVec 16).getLsbD c.val = false) ∧
    ∃ c sp a o d, Pending.store c sp a o d ∈ (withJob box fun j => { j with stores := [.store 15 .hbm 0 none [1]] }).job.stores ∧
      (0x8000 : BitVec 16).getLsbD c.val = true :=
  ⟨fun c sp a o d h => by simp [box, placeWord, placeJob, Job.blank] at h, 15, .hbm, 0, none, [1], by simp [withJob], by decide⟩

/-- WAITA waits for a word that is 0 to be 1, without and with a limit. -/
def asleep : State := { (withJob box fun j => { j with wait := .waita 0x20000 false 5 6 0 0 10, x := j.x.set 6 1 }) with clock := 10 }

theorem test_meets_waits : answered (ctlLoad (withX box 1 0x20000) 0 0x20000 8) (fun x => leNat x == 0) = true ∧ (0x20000 : Word) = getX (withX box 1 0x20000) 1 ∧
    asleep.job.wait = .waita 0x20000 false 5 6 0 0 10 ∧ asleep.job.id ≠ 0 ∧ asleep.job.st = .running ∧ (10 : Word) ≠ 0xFFFFFFFFFFFFFFFF ∧ (10 : Word).toNat ≤ asleep.clock - 0 ∧
    answered (ctlLoad asleep 0 0x20000 8) (fun x => leNat x == 0) = true ∧ getX asleep 6 = 1 ∧ (9 : Nat) - 0 < (10 : Word).toNat := by decide +kernel

/-- The n bytes at 0x20000 as a load of class 0 finds them: poisoned or not, and their value. -/
def loaded (s : State) (n : Nat) : Option (Bool × Nat) :=
  match readChunk (drainLoad s 0 (.va 0x20000) n) (ctlParty (drainLoad s 0 (.va 0x20000) n) 0) .read (.va 0x20000) n with
  | .ok h => some (h.bad, leNat h.data)
  | .error _ => none

/-- ControlCompletes: the word of a WAITA, equal to x2 and not, and operands that PUSH takes. -/
theorem test_meets_control_completes : loaded (entered (withX box 1 0x20000)) 8 = some (false, 0) ∧
    getX (withX box 1 0x20000) 2 = 0 ∧ getX (withX (withX box 1 0x20000) 2 1) 2 ≠ 0 ∧
    (∀ e, maskHas { ld := false, mx := false, vx := true, st := false } e = true → (box.job.eng e).queue.length < 64 ∧
      (sectionOf box box.job (streamKind e)).map (fun x => decide ((getX (withX box 1 4) 1).toNat < x.bytes)) = some true) ∧
    (getX (withX box 1 4) 1).toNat < 2 ^ 24 ∧ (getX (withX box 1 4) 1).toNat % 4 = 0 ∧ (∀ e, (box.job.eng e).queue = []) :=
  ⟨by decide +kernel, rfl, by decide +kernel, fun e h => by cases e <;> first | exact absurd h (by decide) | exact by decide +kernel,
    by decide +kernel, by decide +kernel, fun e => by cases e <;> rfl⟩

theorem test_meets_nop : (0xE0000000 : Word32).extractLsb' 25 7 = 0x70 ∧ (0xE1FFFFFF : Word32).extractLsb' 25 7 = 0x70 := by decide

/-! ### Queues, shape registers, handles, CSRs, mailboxes -/

theorem test_meets_queues_free : box.job.queuesFree ∧ ¬(withJob box fun j => { j with mx := { j.mx with queue := fullQueue } }).job.queuesFree := by
  unfold Job.queuesFree
  decide +kernel

theorem test_meets_handle_load : answered (readChunk (withX box 1 0x20000) (ctlParty box 0) .read (.va 0x20000) 64) (fun c => !c.bad) = true ∧
    answered (readChunk (badLine (withX box 1 0x20000)) (ctlParty box 0) .read (.va 0x20000) 64) (fun c => c.bad) = true ∧
    (0x20000 : Word) = getX (withX box 1 0x20000) 1 + (0 : BitVec 9).signExtend 64 * 8 ∧ (0x20000 : Word).toNat % 64 = 0 ∧
    (getX (withX box 1 0x20000) 1 + (1 : BitVec 9).signExtend 64 * 8).toNat % 64 ≠ 0 := by decide +kernel

/-- The VX section of the image is 4096 bytes: the last word of it, and the first offset beyond it. -/
theorem test_meets_push : (sectionOf box box.job (streamKind .vx)).map Section.bytes = some 4096 ∧ sectionOf box box.job (streamKind .ld) = none ∧
    (4092 : Word).extractLsb' 24 8 = 0 ∧ (4092 : Word).extractLsb' 0 2 = 0 ∧ ((4092 : Word).extractLsb' 0 24).toNat < 4096 ∧
    4096 ≤ ((4096 : Word).extractLsb' 0 24).toNat ∧ (box.job.eng .vx).queue.length < 64 ∧ 64 ≤ fullQueue.length ∧
    (withJob box fun j => { j with fifo := [7, 8] }).job.fifo = 7 :: [8] ∧ box.job.fifo = [] := by decide +kernel

/-- A group above 3 in LD and MX: LD pushes 2 tokens forward, MX pops 2 of them, or 1. -/
def cutBox (pops : Nat) : State :=
  withX (withJob box fun j =>
    { j with ld := { j.ld with queue := [.seg 0 3, .seg (2 * 2 ^ 32 : BitVec 64) 4] }
             mx := { j.mx with queue := [.seg (BitVec.ofNat 64 (pops * 2 ^ 48)) 4] } }) 1 3

theorem test_meets_cut : (∀ p ∈ (cutBox 2).job.cutCounts 3, p.1 = p.2) ∧ ((cutBox 1).job.cutCounts 3)[0]? = some (2, 1) ∧
    (getX (cutBox 2) 1).extractLsb' 0 32 = 3 := by decide +kernel

/-- A loop of five trips whose first has started. -/
def aFrame : Frame := { loopPc := 8, start := 12, n := 5, nEff := 5, s := 1, j := 0, started := 1, base := 0, stage := 0, bounded := false }

theorem test_meets_trim : (withJob box fun j => { j with vx := { j.vx with frames := [aFrame] } }).job.vx.frames = [] ++ [aFrame] := by decide +kernel

theorem test_meets_csrs : readCsr box 0x001 = some 0 ∧ readCsr box 0x073 = some 0x800000 ∧ readCsr box 0x074 = none ∧ readCsr box 0x800 = none ∧
    box.job.core < 288 := by decide +kernel

/-- A second job of the launch on the other control core. -/
def twoJobs : State := { box with jobs := [{ box.job with id := 2, cc := true, partner := 1, inbox := [] }], job := { box.job with partner := 2 } }

theorem test_meets_mailboxes : (partnerOf twoJobs).map Job.id = some 2 ∧ (partnerOf twoJobs).map (fun p => p.inbox.length) = some 0 ∧ partnerOf box = none ∧
    twoJobs.job.cc = false ∧ (withJob twoJobs fun j => { j with inbox := [3] }).job.inbox = 3 :: [] ∧ twoJobs.job.inbox = [] := by decide +kernel

theorem test_meets_full_mailbox :
    (partnerOf { twoJobs with jobs := twoJobs.jobs.map fun j => { j with inbox := List.replicate 16 0 } }).map (fun p => p.inbox.length) = some 16 := by
  decide +kernel

/-! ### Barriers -/

/-- Barrier b3 active with a count of 2. -/
def oneBar : State := { box with barriers := [(.core 0 3, { Barrier.zero with active := true, init := 2, arrive := 2 })] }

/-- The operand of core barrier 3. -/
def b3 : BarOp := { kind := .core, idx := 3 }

theorem test_meets_barriers : oneBar.job.barAt b3 = some (.core 0 3) ∧ barTakes oneBar (.core 0 3) ∧ (barOf oneBar (.core 0 3)).arrive.toNat = 2 ∧
    oneBar.job.barAt { kind := .core, idx := 64 } = none ∧ (barOf box (.core 0 3)).active = false ∧
    (getX (withX box 1 65535) 1).toNat < 65536 ∧ (getX (withX box 1 0x7FFFFFFF) 1).toInt < 2 ^ 31 ∧ -2 ^ 31 ≤ (getX (withX box 1 (-0x80000000)) 1).toInt ∧
    2 ^ 31 ≤ (getX (withX box 1 0x80000000) 1).toInt := by
  refine ⟨?_, ⟨?_, ?_, ?_⟩, ?_⟩ <;> decide +kernel

theorem test_meets_barrier_init : (barOf oneBar (.core 0 3)).arrive = (barOf oneBar (.core 0 3)).init ∧ (barOf oneBar (.core 0 3)).bytes = 0 ∧
    (barOf oneBar (.core 0 3)).touched = false := by decide +kernel

theorem test_meets_barrier_wait : (withJob oneBar fun j => { j with wait := .barrier (.core 0 3) true }).job.wait = .barrier (.core 0 3) true ∧
    (barOf oneBar (.core 0 3)).phase ≠ true ∧
    ((withJob oneBar fun j => { j with vx := { j.vx with wait := .barrier (.core 0 3) true } }).job.eng .vx).wait = .barrier (.core 0 3) true ∧
    suspendedOwner oneBar (.core 0 3) = none := by decide +kernel

/-! ### Spool and basting -/

/-- A region of 64 KiB with a ring allocation of 64 bytes at its end, freed or not. -/
def ringBox (freed : Bool) : State :=
  withJob box fun j => { j with spbase := 0x10000, spbump := 0x10000, splim := 0x20000, sphead := 0x1FFC0
                                rings := [{ lo := 0x1FFC0, hi := 0x20000, freed, ld := false, mx := false, vx := false, st := false }] }

/-- SPA: it fits to the last byte, it waits for a freed allocation, it is too large. SPRA: it fits, waits, does not. -/
theorem test_meets_spool : 0x10000 + 0xFFC0 ≤ (ringBox false).job.rlow (ringBox false).job.rings ∧
    (ringBox true).job.rlow (ringBox true).job.rings < 0x10000 + 0x10000 ∧
    0x10000 + 0x10000 ≤ (ringBox true).job.rlow ((ringBox true).job.rings.dropWhile Ring.freed) ∧
    (ringBox false).job.rlow ((ringBox false).job.rings.dropWhile Ring.freed) < 0x10000 + 0x10000 ∧
    (ringBox false).job.ringPlace (ringBox false).job.rings 0xFFC0 = some 0x10000 ∧
    (ringBox true).job.ringPlace (ringBox true).job.rings 0x10000 = none ∧
    (ringBox true).job.ringPlace ((ringBox true).job.rings.dropWhile Ring.freed) 0x10000 = some 0x10000 ∧
    (ringBox false).job.ringPlace ((ringBox false).job.rings.dropWhile Ring.freed) 0x10000 = none := by decide +kernel

/-- SPF of the second of two allocations, with 31 and 32 pending frees. -/
theorem test_meets_free : (withJob (ringBox false) fun j => { j with rings := j.rings ++ [{ lo := 0x1FF80, hi := 0x1FFC0, freed := false, ld := false, mx := false, vx := false, st := false }] }).job.rings =
      (ringBox false).job.rings ++ { lo := 0x1FF80, hi := 0x1FFC0, freed := false, ld := false, mx := false, vx := false, st := false } :: [] ∧
    (List.replicate 31 0).length < 32 ∧ 32 ≤ (List.replicate 32 0).length := by decide +kernel

/-- Pair 0 bound over one line of the region, active or not; the pair record in the first line of the region says the same. -/
def pairBox (bound active : Bool) : State :=
  let s := withJob box fun j =>
    { j with spbase := 0x10000
             pairs := j.pairs.set 0 { Pair.empty with bound, active, base := 0x10400, shadow := 0x10800, bytes := 64, dirty := [(0, 1)] } }
  { s with spad := swrite s.spad 0x10000 (leBytes 4 0x10400 ++ leBytes 4 0x10800 ++ leBytes 4 64) }

theorem test_meets_basting : (pairBox true true).job.pairs[(0 : Fin 4)].active = true ∧ (pairBox true false).job.pairs[(0 : Fin 4)].active = false ∧
    answered (readExact (pairBox true false) (ctlParty (pairBox true false) 0) .read (.off 0x10000 1) 16) (fun b =>
      (pairRec b).base == 0x10400 && (pairRec b).shadow == 0x10800 && (pairRec b).bytes == 64 && (pairRec b).rest == 0) = true ∧
    (pairBox true false).job.stores = [] ∧
    answered (readExact (pairBox false false) (ctlParty (pairBox false false) 0) .read (.off 0x10000 1) 16) (fun b =>
      (pairBox false false).job.mayBind 0 (pairRec b)) = true ∧
    answered (readExact box (ctlParty box 0) .read (.off 0 1) 16) (fun b => !box.job.mayBind 0 (pairRec b)) = true := by decide +kernel

/-! ### Tubs -/

/-- Bytes written into HBM. -/
def withHbm (s : State) (a : Nat) (d : List Byte) : State := { s with hbm := swrite s.hbm a d }

/-- The control stream's own bytes at an address. -/
def record (s : State) (a : Word) (n : Nat) : Nat := match ctlRecord s a n with | .ok b => leNat b | .error _ => 0

/-- A tub record at 0x20000: one line at offset 0, 8 bytes, core scope, no action. -/
def tubRec : Nat := 2 ^ 59 + 8 * 2 ^ 192 + 2 ^ 232

/-- The device with that record, and with a tub of the job. -/
def tubBox (t : Tub) : State := putTub (withHbm (withX box 1 0x20000) 0x20000 (leBytes 32 tubRec)) (.spad 1 63) t

/-- Tub 63 of the job. -/
def t63 : TubOp := { mem := false, idx := 63 }

/-- A tub that is set, armed or not, with firings. -/
def aTub (armed rearm : Bool) (fires : List TubAct) : Tub :=
  { Tub.zero with set := true, armed, rearm, total := 8, count := 7, asid := 1, region := [(0, 64)], fires }

theorem test_meets_tubs : tubAt (tubBox Tub.zero) t63 = some (.spad 1 63) ∧ (tubOf (tubBox Tub.zero) (.spad 1 63)).armed = false ∧
    answered (ctlRecord (tubBox Tub.zero) 0x20000 32) (fun b => leNat b == tubRec) = true ∧
    ((decodeTub false (BitVec.ofNat 256 tubRec)).map fun r => (r.total, r.lines, (tubAction box t63 r).toOption)) = some (8, 1, some .none) ∧
    ((decodeTub false (BitVec.ofNat 256 tubRec)).map fun r => answered (tubRegion box (.spad 1 63) r) (· == some [(0, 64)])) = some true ∧
    (tubOf (tubBox (aTub true false [])) (.spad 1 63)).armed = true ∧ (0x20004 : Word).toNat % 32 ≠ 0 ∧
    (tubOf (tubBox (aTub false false [])) (.spad 1 63)).set = true ∧ (tubOf (tubBox Tub.zero) (.spad 1 63)).set = false := by decide +kernel

theorem test_meets_tub_counts : 0 < (aTub true true []).total ∧ (aTub true true []).armed = true ∧ (aTub true true []).rearm = true ∧
    (aTub true false []).rearm = false ∧ (aTub false false []).armed = false := by decide +kernel

/-- R259, R260: 17 bytes more than TOTAL fire twice with REARM and once without, and leave the rest. -/
theorem test_tub_fires : ((aTub true true []).add 17).count = 0 ∧ ((aTub true true []).add 17).fires.length = 3 ∧
    ((aTub true false []).add 17).count = 24 ∧ ((aTub true false []).add 17).fires.length = 1 := by decide +kernel

theorem test_meets_tub_firings : (tubOf (tubBox (aTub true false [.none])) (.spad 1 63)).fires = .none :: [] ∧
    (tubOf (tubBox (aTub true false [.none])) (.spad 1 63)).halted = false ∧ (aTub true false []).waitq = false ∧
    hubWaiting box (hubParty 1 (.tub (.spad 1 63))) = false ∧
    (barEvent (putTub oneBar (.spad 1 63) (aTub true false [.arrive (.core 0 3) 1])) (.core 0 3) (.arrive 1)).isSome = true ∧
    answered (writeBytes box (hubParty 1 (.tub (.spad 1 63))) (.va 0x20008) (leBytes 8 7)) (fun u => getByte u .hbm 0x20008 == 7) = true := by
  decide +kernel

/-! ### Channels -/

/-- A channel that performs the record at its address, in a turn of one unit. -/
def walking (s : State) (c : Chan → Chan) : State :=
  { putChan s (c (newChan s 0 1 .walking 0x20000)) with curChan := 1, units := 1 }

theorem test_meets_channels : (getX (withX box 1 0x20080) 1).toNat % 128 = 0 ∧ (getX (withX box 1 0x20040) 1).toNat % 128 ≠ 0 ∧
    freeChan box 1 = some 0 ∧ freeChan (walking box id) 1 = none ∧ getX (withX box 2 0xFFFFFFFF) 2 ≠ 0 ∧
    (getX (withX box 2 0xFFFFFFFF) 2).toNat < 2 ^ 32 ∧ 2 ^ 32 ≤ (getX (withX box 2 0x100000000) 2).toNat ∧ getX box 0 = 0 := by decide +kernel

/-- A channel about to read the record at 0x20000. -/
def fetching (raw : BitVec 1024) : State := putChan (withHbm box 0x20000 (leBytes 128 raw.toNat)) (newChan box 0 1 .fetch 0x20000)

theorem test_meets_fetch (raw : BitVec 1024) : (newChan box 0 1 .fetch 0x20000).acts { fetching raw with curCore := 0, curChan := 1 } :=
  ⟨rfl, rfl, rfl, rfl⟩

/-- The record that the channel reads holds what was written. -/
def readsBack (raw : BitVec 1024) : Bool :=
  answered (readExact (fetching raw) (chanParty (fetching raw) (newChan box 0 1 .fetch 0x20000) 0) .read (.va 0x20000) 128)
      (fun b => BitVec.ofNat 1024 (leNat b) == raw) &&
    answered (pinAt (fetching raw) (chanParty (fetching raw) (newChan box 0 1 .fetch 0x20000) 0) 0x20000) (· == some (.hbm 0x20000))

theorem test_meets_record_read : readsBack copyRec = true ∧ copyRec.getLsbD 0 = true ∧ readsBack (copyRec ^^^ 1) = true ∧
    (copyRec ^^^ 1).getLsbD 0 = false ∧ chanStale (fetching copyRec) (newChan box 0 1 .fetch 0x20000) = false ∧
    readsBack (copyRec ||| 2) = true ∧ decodeRecord (copyRec ||| 2) = none ∧
    recBar (fetching copyRec) (newChan box 0 1 .fetch 0x20000) copyHead = some (some (.core 0 5)) ∧
    ((decodeRecord copyRec).map watermarkBad) = some false := by decide +kernel

theorem test_meets_record_performs : (newChan box 0 1 .walking 0x20000).performs (walking box id) :=
  ⟨⟨rfl, rfl, rfl, rfl⟩, rfl, rfl, rfl⟩

/-- Source 0x20000, destination 0x30000. -/
def farHead : RecHead := { okHead with src := 0x20000, dst := 0x30000, sjref := 0xFFFF, djref := 0xFFFF }

/-- The channel and party of the next witnesses. -/
def aChan : Chan := newChan box 0 1 .walking 0x20000
def aParty : Party := chanParty (walking box id) aChan 0

theorem test_meets_aff : aChan.prog < walkTotal okWalk ∧
    answered (readLines (walking box id) aParty (srcLoc (walking box id) aChan farHead (walkOffset okWalk.counters 0).1) 4 .trap)
      (fun r => r.1.length == 4 && r.2 == 0) = true ∧
    answered (writeMarked (walking box id) aParty (dstLoc (walking box id) aChan farHead (walkOffset okWalk.counters 0).2)
      (List.replicate 4 (1, false))) (fun u => getByte u .hbm 0x30003 == 1) = true := by decide +kernel

theorem test_meets_red : aChan.prog < chunksBefore farHead okWalk (walkTotal okWalk) ∧ chunkAt farHead okWalk (walkTotal okWalk) 0 0 = (0, 0, 4) ∧
    answered (reduceChunk (walking box id) aParty (dstLoc (walking box id) aChan farHead 0) .add .int32 .rne false .trap
      (List.replicate 4 (1, false))) (fun r => r.2 == 0 && getByte r.1 .hbm 0x30003 == 1) = true := by decide +kernel

/-- MCST of 128 bytes to two destinations of the list at 0x21000, the first of which is done, from byte 64 of the second on. -/
def sending : State :=
  withHbm (walking box fun c => { c with prog := 1, sub := 64 }) 0x21000 (leBytes 32 (0x30000 + 0x31000 * 2 ^ 128))

theorem test_meets_mcst : (∀ i, i < 2 → (1 / 2 ^ i % 2 = 1 ↔ i ≠ 1)) ∧
    answered (mcstList sending { aChan with prog := 1, sub := 64 } farHead 2 0x21000) (fun l => mcstDest sending aChan l 1 == .va 0x31000) = true ∧
    aChan.dests = none ∧ min (128 - 64) (64 - (srcLoc sending aChan farHead 64).low) = 64 ∧
    answered (readLines sending aParty (srcLoc sending aChan farHead 64) 64 .trap) (fun r => r.1.length == 64) = true ∧
    answered (writeMarked sending aParty ((Loc.va 0x31000).add 64) (List.replicate 64 (1, false))) (fun u => getByte u .hbm 0x3107F == 1) = true := by
  decide +kernel

/-- R400, R270: a list with a poisoned line, and one with a bit beyond the scratchpad mark; nothing is sent where the line of the second entry
is poisoned. -/
def spoilt (base : Word) : State :=
  setBad (withHbm (withHbm (walking box id) 0x20000 [9]) base.toNat (leBytes 32 (0x30000 + 0x31000 * 2 ^ 128))) .hbm 0x21000 true
theorem test_meets_mcst_list : answered (readExact (spoilt 0x21000) aParty .read (.va 0x21000) 32) (fun _ => true) = false ∧ 1 / 2 ^ 1 % 2 = 0 ∧
    destBad (walking box id) aChan (leNat (((leBytes 32 (2 ^ 209)).drop 16).take 16)) = true ∧
    stepped (exec (.mcst farHead 64 2 0x20FF0) (spoilt 0x20FF0)) (fun t => getByte t .hbm 0x30000 == 0) = true ∧
    stepped (exec (.mcst farHead 64 2 0x21100) (spoilt 0x21100)) (fun t => getByte t .hbm 0x30000 == 9) = true := by decide +kernel

theorem test_meets_sig : aChan.prog = 0 ∧
    answered (writeBytes (walking box id) aParty (dstLoc (walking box id) aChan farHead 0) (leBytes 8 5)) (fun _ => true) = true := by decide +kernel

/-- One image of 3 by 2 pixels, row pointers at 0x22000. -/
def imageBox : State :=
  withHbm (withHbm (walking box id) 0x20000 (leBytes 16 (0x22000 + 3 * 2 ^ 64 + 2 * 2 ^ 80))) 0x22000 (leBytes 16 (0x23000 + 0x23010 * 2 ^ 64))

/-- The channel with the range of the record's two patches. -/
def patchChan : Chan := { aChan with wmEnd := 0x30008, table := some [(0x22000, 3, 2)] }

theorem test_meets_pgt : answered (tableOf imageBox aChan farHead 1) (· == [{ rows := 0x22000, w := 3, h := 2 }]) = true ∧
    totalPatches 2 [{ rows := 0x22000, w := 3, h := 2 }] = 2 ∧
    (match patchUnit (passMark (putChan imageBox patchChan) patchChan 0x30000) patchChan farHead 2 1 0x24000
        [{ rows := 0x22000, w := 3, h := 2 }] 0 with
      | .ok r => r.1.prog == 1
      | .error _ => false) = true := by decide +kernel

/-- A channel whose record has performed, with the writes that it owes. -/
def finished (bar : Option BarId) (c : Chan → Chan) : State :=
  let s := withHbm { oneBar with barriers := [(.core 0 3, { Barrier.zero with active := true, init := 2, arrive := 2, bytes := 24 })] } 0x20000
    (leBytes 128 copyRec.toNat)
  finishChan s (c { newChan s 0 1 .walking 0x20000 with raw := copyRec, bar, prog := 6, pin := some (.hbm 0x20000) })

theorem test_meets_completion : (chanOf (finished none id) 0 1).map (fun c => (c.st, c.halt, c.wait, c.bar)) = some (.finishing, .going, false, none) ∧
    (chanOf (finished none id) 0 1).map (fun c => (payChan (finished none id) { c with bar := none }).2.owed) = some [] ∧
    (chanOf (finished (some (.core 0 3)) id) 0 1).map (fun c => c.bar) = some (some (.core 0 3)) ∧
    ((decodeRecord copyRec).bind fun i => barEvent (finished (some (.core 0 3)) id) (.core 0 3) (.bytes (nominal aChan i))).isSome = true ∧
    (chanOf (finished none fun c => { c with cpyx := some { src := 0, dst := 0, len := 1, cls := 0, done := 1 } }) 0 1).map
      (fun c => (c.st, c.halt, c.wait, c.cpyx.isSome)) = some (.finishing, .going, false, true) := by decide +kernel

/-! ### The index engine -/

/-- A submitted GTH block at 0x20000: table 0x40000, index 0x41000, data 0x42000, 2 rows of 4 bytes, status 0x43000. -/
def gthHead : BlockHead :=
  { cls := 0, scope := .job, poison := .trap, tsp := false, dsp := false, isp := false, countReg := false, bar := none, djref := 0xFFFF
    table := 0x40000, index := 0x41000, data := 0x42000, count := 2, rowBytes := 4, status := 0x43000, ntab := 8 }
def gthBlock : BitVec 512 := BitVec.ofNat 512 (1 + 3 * 2 ^ 12 + 0x40000 * 2 ^ 64 + 0x41000 * 2 ^ 128 + 0x42000 * 2 ^ 192 + 2 * 2 ^ 256 + 4 * 2 ^ 288 +
  0x43000 * 2 ^ 320 + 8 * 2 ^ 448)

/-- The device with a block in HBM and its address in x1, and with n blocks in the job's queue. -/
def blockBox (b : BitVec 512) (n : Nat) : State :=
  withHbm (withX (withJob box fun j => { j with index := List.replicate n (newBlock gthBlock 2 none) }) 1 0x20000) 0x20000 (leBytes 64 b.toNat)

theorem test_meets_ixc : answered (ctlRecord (blockBox sctBlock 15) 0x20000 64) (fun b => BitVec.ofNat 512 (leNat b) == sctBlock) = true ∧
    blockBad sctBlock = none ∧ blockBar box sctBlock = some none ∧ (blockBox sctBlock 15).job.index.length < 16 ∧
    16 ≤ (blockBox sctBlock 16).job.index.length ∧ blockBad (sctBlock ||| BitVec.ofNat 512 (2 ^ 22)) ≠ none ∧ (0x20020 : Word).toNat % 64 ≠ 0 := by
  decide +kernel

/-- A block that stands at a row. -/
def running (i : Nat) : IdxEntry :=
  { newBlock gthBlock 2 none with running := true, holds := true, pins := [some (.hbm 0x43000), some (.hbm 0x43008), some (.hbm 0x43010), some (.hbm 0x43018)]
                                  prog := i, kept := i }

/-- The device with it, its index vector 7, 0xFFFFFFFF, and its mask 0, 1 at 0x41008. -/
def rows (i : Nat) : State :=
  withHbm { withJob box (fun j => { j with index := [running i] }) with units := 1 } 0x41000 (leBytes 10 (7 + 0xFFFFFFFF * 2 ^ 32 + 2 ^ 72))

theorem test_meets_row (i : Nat) (h : i < 2) : (running i).performs (rows i) i := ⟨rfl, rfl, rfl, rfl, rfl, rfl, by simp [running], rfl, rfl, h⟩

/-- The party of the block. -/
def rowParty : Party := indexParty (rows 0) (running 0) (blockCls (running 0))

theorem test_meets_rows : answered (indexEntry (rows 0) rowParty gthHead 4 0) (· == 7) = true ∧ (7 : Nat) < gthHead.ntab.toNat ∧
    answered (moveRow (rows 0) rowParty (running 0) gthHead 0 (tableLoc (rows 0) gthHead 7) (dataLoc (rows 0) gthHead 0)) (fun _ => true) = true ∧
    answered (moveRow (rows 0) rowParty (running 0) gthHead 0 (dataLoc (rows 0) gthHead 0) (tableLoc (rows 0) gthHead 7)) (fun _ => true) = true ∧
    answered (scaRow (rows 0) rowParty (running 0) gthHead .add .fp32 0 (tableLoc (rows 0) gthHead 7)) (fun _ => true) = true ∧
    answered (indexEntry (rows 1) rowParty gthHead 4 1) (· == 0xFFFFFFFF) = true ∧
    answered (writeBytes (rows 1) rowParty (dataLoc (rows 1) gthHead 1) (List.replicate 4 0)) (fun _ => true) = true := by decide +kernel

/-- The same block with its mask in place of the index vector. -/
def cptHead : BlockHead := { gthHead with index := 0x41008 }

theorem test_meets_cpt : answered (indexEntry (rows 0) rowParty cptHead 1 0) (· == 0) = true ∧
    answered (indexEntry (rows 1) rowParty cptHead 1 1) (· == 1) = true ∧
    answered (moveRow (rows 1) rowParty (running 1) cptHead 1 (tableLoc (rows 1) cptHead 1) (dataLoc (rows 1) cptHead 1)) (fun _ => true) = true ∧
    (running 1).kept = 1 ∧ answered (setStain (rows 1) rowParty (running 1) 0x44000 9) (fun u => getByte u .hbm 0x44001 == 2) = true := by decide +kernel

/-- A block whose rows are done, with a barrier or none. -/
def doneBlock (bar : Option BarId) : IdxEntry :=
  let e := { running 2 with bar, finishing := true }
  { e with owed := statusWrites e true }
def doneBox (bar : Option BarId) : State :=
  withJob { oneBar with barriers := [(.core 0 3, { Barrier.zero with active := true, init := 2, arrive := 2, bytes := 8 })] } fun j =>
    { j with index := [doneBlock bar] }

theorem test_meets_block_completion (bar : Option BarId) : (doneBox bar).job.id ≠ 0 ∧
    (doneBox bar).job.index.findIdx? (fun e => e.finishing && e.halt == .going && !e.wait) = some 0 ∧
    (doneBox bar).job.index[0]? = some (doneBlock bar) := ⟨Nat.one_ne_zero, rfl, rfl⟩

theorem test_meets_block_status : (payBlock (doneBox none) (doneBlock none)).2.owed = [] ∧ (payBlock (doneBox none) (doneBlock none)).2.halt = .going ∧
    (payBlock (doneBox (some (.core 0 3))) (doneBlock (some (.core 0 3)))).2.bar = some (.core 0 3) ∧
    (barEvent (putBlock (payBlock (doneBox none) (doneBlock none)).1 0 (doneBlock none)) (.core 0 3) (.bytes 8)).isSome = true := by decide +kernel

/-! ### The Darn unit -/

/-- Bytes of a field list: (value, width). -/
def fields (l : List (Nat × Nat)) : List Byte := l.flatMap fun q => leBytes q.2 q.1

/-- A descriptor at 0x20000 of two sequences of 4 positions, its record at 0x20040, its schedule at 0x20100, offsets at 0x20080. -/
def darnBox (units : Nat) : State :=
  let d := fields [(2, 2), (1, 1), (0, 1), (0, 4), (0x20080, 8), (0x21000, 8), (0x21100, 8), (0x21200, 8), (0x21300, 8), (0x20100, 8), (0x20040, 8)]
  let r := fields [(0x21400, 8), (64, 4), (0, 2), (1, 1), (0, 1), (0x21500, 8), (0x21600, 8), (0x21700, 8), (0, 8)]
  let c := fields [(1, 2), (0, 2), (65535, 2), (1, 1), (0, 9), (1, 2)]
  let s := withHbm (withHbm (withHbm (withX box 1 0x20000) 0x20000 d) 0x20040 r) 0x20100 c
  let s := withHbm (withHbm s 0x20080 (fields [(0, 4), (4, 4), (8, 4)])) 0x21300 [0x3C]
  { withHbm s 0x21700 (fields [(2, 4), (3, 12), (4, 4), (5, 12)]) with units }

/-- What DARN has read there, and what it holds after its offsets. -/
def darnHeld0 (op units : Nat) : Except Stop DarnRun :=
  match darnLoad (drain (darnBox units)) op 5 0x20000 with
  | .error e => .error e
  | .ok r => darnOffsets (takeReplies (drain (darnBox units)) (.ctl 1)) (ctlParty (darnBox units) r.cls) { r with holds := true }

/-- It goes on for one turn: done, and the write that clears the progress performs. -/
def darnTurn (op units : Nat) : Bool :=
  answered (darnHeld0 op units) fun r =>
    let p := ctlParty (darnBox units) r.cls
    match darnWork p units r (darnBox units) with
    | .ok (r, w, true) =>
      answered (pinWrite w p (r.recAddr + 48) (r.pin.map fun x => x.add 48) (toBytes (0 : Word))) fun _ => true
    | _ => false

theorem test_meets_darn_whole : darnTurn 0 0 = true ∧ darnTurn 1 0 = true ∧ darnTurn 2 0 = true ∧ darnTurn 3 0 = true ∧ darnTurn 4 0 = true ∧
    (getX (darnBox 0) 1).toNat % 64 = 0 ∧ darnHeld (drain (darnBox 0)) (dieOf (darnBox 0).job.core) < 16 ∧ (darnBox 0).job.darn = none ∧
    answered (darnLoad (drain (darnBox 0)) 0 5 0x20000) (fun r => r.offs.isEmpty && r.ended.isNone) = true := by decide +kernel

theorem test_meets_darn_turns : answered (darnHeld0 0 1) (fun r =>
      match darnWork (ctlParty (darnBox 1) r.cls) 1 r (darnBox 1) with
      | .ok (r, _, false) => r.sdone == 1 && r.offs != []
      | _ => false) = true := by decide +kernel

/-- R364: descending confidence, a NaN last, equal ones by position. -/
theorem test_rank_order : rankOrder [(0, numOf .fp32 0x3F800000), (1, numOf .fp32 0x7FC00000), (2, numOf .fp32 0x40000000), (3, numOf .fp32 0x3F800000)] =
    [2, 0, 3, 1] := by decide +kernel

theorem test_meets_rank : [(0, numOf .fp32 0), (1, numOf .fp32 0)].Pairwise (fun x y : Nat × Machine.Num => x.1 < y.1) := by decide

/-- A run with a schedule of one entry e, a count or a share (R361). -/
def shared (abs e lo hi : Nat) : DarnRun :=
  { op := 1, d := 0, holds := true, ended := none, desc := 0, rcd := 0, sched := fields [(1, 2), (lo, 2), (hi, 2), (abs, 1), (0, 9), (e, 2)], pin := none, offs := [], first := 0, sdone := 0
    udone := 0, listed := 0, result := 0 }

/-- R365: the share 1/2 of 5 positions is 3; a count stands between its bounds and below the masked positions. -/
theorem test_commit_count : commitCount (shared 0 32768 1 16) 5 = 3 ∧ commitCount (shared 1 4 1 16) 9 = 4 ∧ commitCount (shared 1 4 6 16) 9 = 6 ∧
    commitCount (shared 1 4 1 16) 2 = 2 := by decide +kernel

theorem test_meets_commit_count : leNat (((shared 0 32768 1 16).sched.drop 6).take 1) % 2 = 0 ∧ (1 : Nat) ≤ 3 ∧ 3 ≤ 16 ∧ 3 ≤ 5 ∧ 32768 * 5 ≤ 3 * 65536 ∧
    3 * 65536 < 32768 * 5 + 65536 ∧ leNat (((shared 1 4 1 16).sched.drop 6).take 1) % 2 = 1 ∧
    leNat (((shared 1 4 1 16).sched.drop (16 + 2 * min (shared 1 4 1 16).round (1 - 1))).take 2) = 4 := by decide +kernel

/-! ### The wringer -/

/-- A descriptor of the row's only device with a tag, in x1's memory, and n slots taken. -/
def ringDesc (d : BitVec 512) (n : Nat) : State :=
  { withHbm (withX box 1 0x20000) 0x20000 (leBytes 64 d.toNat) with
    slots := List.replicate n { id := 0, job := 1, asid := 1, core := 0, part := { num := 0, desc := 0, members := [], cntv := [], send := none }, bar := none
                                phase := 0, halt := .going } }

/-- The ARGN descriptor of 21_programs_generation.md without and with the arrival on b5. -/
def argnBar : BitVec 512 := argnDesc ||| BitVec.ofNat 512 (2 ^ 31 + 5 * 2 ^ 22)

theorem test_meets_wrng : answered (ctlRecord (ringDesc argnDesc 63) 0x20000 64) (fun b => BitVec.ofNat 512 (leNat b) == argnDesc) = true ∧
    descFault argnDesc = none ∧ (decodeDescHead argnDesc).map DescHead.bar = some none ∧ (ringDesc argnDesc 63).slots.length < 64 ∧
    descFault (argnDesc ||| 0x100) ≠ none ∧ (0x20020 : Word).toNat % 64 ≠ 0 ∧ descFault argnBar = none ∧
    (decodeDescHead argnBar).map DescHead.bar = some (some { kind := .core, idx := 5 }) ∧
    (ringDesc argnBar 0).job.barAt { kind := .core, idx := 5 } = some (.core 0 5) := by decide +kernel

/-- A slot in phase 2 of the row's only device. -/
def lastPhase (d : BitVec 512) (bar : Option BarId) (send : Option (List Word)) : Slot :=
  { id := 0, job := 1, asid := 1, core := 0, part := { num := 0, desc := d, members := [0], cntv := [2], send }, bar, phase := 2, halt := .going }

/-- ALLRED of two fp32 elements: RECV 0x22000, no offsets, STATUS 0x23000. -/
def redDesc (op : Nat) : BitVec 512 := BitVec.ofNat 512 (op + 2 * 2 ^ 128 + 2 * 2 ^ 160 + 0x22000 * 2 ^ 256 + 0x23000 * 2 ^ 448)

/-- The premises of a collective's completion hold for the slot of the row's only device. -/
def collectiveMeets (i : Instr) (x : Slot) (s : State) : Bool :=
  match partsOf s x x.part.members with
  | none => false
  | some l =>
    match received l (x.part.members.idxOf (ownIndex s)) i with
    | none => false
    | some (size, es, offs) =>
      let writes := ((x.part.desc.extractLsb' 256 64).toNat, es.flatMap (leBytes size)) ::
        (if x.part.desc.extractLsb' 384 64 = 0 then [] else [((x.part.desc.extractLsb' 384 64).toNat, offs.flatMap (leBytes 4))])
      let all := writes.filter (fun q => !q.2.isEmpty) ++ [((x.part.desc.extractLsb' 448 64).toNat, collStatus s x 0 es.length)]
      resendParts s (wringParty x).unit == s && !awaiting s (wringParty x).unit && s.outs.isEmpty && x.halt == .going && x.phase == 2 && ((List.range l.length).all fun k => sendCount l k i == 0 || ((l[k]?).bind PeerPart.send).isSome) &&
        answered (dieAddrs s x (x.part.desc.extractLsb' 320 64).toNat) (·.isEmpty) &&
        answered (mayWrite s (wringParty x) all) (fun u => u.hbm == s.hbm) && answered (writeAll s (wringParty x) all) (fun _ => true)

/-- The device with the slot. -/
def slotBox (x : Slot) : State := { oneBar with slots := [x] }

theorem test_meets_collectives :
    let x := fun op => lastPhase (redDesc op) none (some [1, 2])
    collectiveMeets (.allred okDesc .add .fp32) (x 0) (slotBox (x 0)) = true ∧ collectiveMeets (.redsc okDesc .add .fp32) (x 1) (slotBox (x 1)) = true ∧
    collectiveMeets (.allgv okDesc .fp32 0) (x 3) (slotBox (x 3)) = true ∧ collectiveMeets (.a2av okDesc .fp32 0 0) (x 4) (slotBox (x 4)) = true ∧
    collectiveMeets (.bcast okDesc .fp32 0) (x 5) (slotBox (x 5)) = true ∧ collectiveMeets (.argn okDesc 0) (x 6) (slotBox (x 6)) = true ∧
    collectiveMeets (.fbar okDesc) (x 7) (slotBox (x 7)) = true ∧ (barEvent oneBar (.core 0 3) (.arrive 1)).isSome = true := by decide +kernel
/-! ### Engine streams -/

/-- The word at the VX stream's PC acts; the stream changed. -/
def vxBox (f : EngStream → EngStream) : State := { withJob box (fun j => { j with vx := f j.vx }) with curEng := .vx }

/-- A trip whose stage is 1 before any trip has begun: its words are skipped. -/
def skipped : Frame := { aFrame with started := 0, stage := 1, s := 2 }

theorem test_meets_words (p : Fin 64) : wordRuns (vxBox id) ∧ p.val < (vxBox id).job.pslot ∧
    ¬(withJob (vxBox id) fun j => { j with pslot := 63 }).job.pslot ≤ 62 ∧ (withJob (vxBox id) fun j => { j with pslot := 63 }).job.pslot ≤ (63 : Fin 64).val :=
  ⟨fun f r h => (by cases h), p.isLt, by decide, by decide⟩

theorem test_meets_skipped : ¬wordRuns (vxBox fun x => { x with frames := [skipped] }) := fun h => by
  have := (h skipped [] rfl).1
  revert this
  decide

/-- An ENDL word follows the word at the PC; the stream changed. -/
def loopBox (f : EngStream → EngStream) : State := withHbm (vxBox f) 0x12004 (leBytes 4 0x80200000)

/-- The word after that ENDL. -/
def loopAfter (s : State) : Bool :=
  let x := noted s
  answered (matchEndl (putStream s x) (streamBounds s).2 (((streamBounds s).2 - (x.pc + 4)) / 4 + 1) (x.pc + 4) 1) (· == some 0x2008)

theorem test_meets_loops : loopAfter (loopBox id) = true ∧ loopAfter (loopBox fun x => { x with frames := [aFrame, aFrame, aFrame] }) = true ∧
    loopAfter (loopBox fun x => { x with held := some 1 }) = true ∧ loopAfter (loopBox fun x => { x with frames := [skipped] }) = true ∧
    (noted (loopBox fun x => { x with held := some 1 })).held = some 1 ∧ (noted (loopBox id)).frames = [] ∧ (noted (loopBox id)).held = none ∧
    (noted (loopBox fun x => { x with frames := [aFrame, aFrame, aFrame] })).frames.length < 4 ∧ (0 : Nat) + 2 < aFrame.nEff + aFrame.s ∧
    ({ aFrame with j := 4 }).nEff + ({ aFrame with j := 4 }).s ≤ ({ aFrame with j := 4 }).j + 2 ∧ aFrame.bounded = false ∧ (0 : Nat) < aFrame.s := by
  decide +kernel

/-- The counter of forward tokens of VX at 12 and at 13. -/
theorem test_meets_toks : (vxBox id).job.token 2 + (15 : Fin 16).val ≤ 15 ∧
    15 < (withJob (vxBox id) fun j => j.setToken 2 1).job.token 2 + (15 : Fin 16).val ∧
    ({ vxBox id with barriers := oneBar.barriers } : State).job.barAt b3 = some (.core 0 3) ∧
    (barOf { vxBox id with barriers := oneBar.barriers } (.core 0 3)).active = true ∧ (vxBox id).job.barAt { kind := .core, idx := 64 } = none ∧
    (barOf (vxBox id) (.core 0 3)).active = false := by decide +kernel

theorem test_meets_patl : patternKind .vx = 8 ∧ streamKind .vx = 4 := by decide

/-- The image with a section of n VX patterns, and a version in its header. -/
def patsBox (n : Nat) (ver : Byte := 3) : State :=
  { withHbm (vxBox id) 0x10004 [ver, 0] with contexts := (vxBox id).contexts.map fun c => { c with images := c.images.map fun i =>
      { i with sections := i.sections ++ [{ kind := 8, off := 0x3000, bytes := 16 * n }] } } }

theorem test_meets_pattern_load : sectionOf (patsBox 64) (patsBox 64).job (patternKind (patsBox 64).curEng) = some { kind := 8, off := 0x3000, bytes := 1024 } ∧
    64 * 0 + 62 + 1 + 1 ≤ min (64 * 0 + (patsBox 64).job.pslot) (1024 / 16) ∧ min (64 * 0 + (patsBox 64).job.pslot) (1024 / 16) < 64 * 0 + 63 + 1 + 1 ∧
    answered (imageVersion (putStream (patsBox 64) (noted (patsBox 64)))) (· == 3) = true ∧
    answered (imageVersion (putStream (patsBox 64 4) (noted (patsBox 64 4)))) (· == 4) = true ∧
    answered (readPatterns (putStream (patsBox 64) (noted (patsBox 64))) 3 { kind := 8, off := 0x3000, bytes := 1024 } 2 62) (fun l => l.length == 2) = true := by
  decide +kernel

/-- Entries ahead of a segment of VX. -/
def aHead : List QEntry := [.set 4 9 0, .hnd 1 (BitVec.ofNat 512 7) 0]

theorem test_meets_segment (stopped : Bool) :
    let x := (vxBox fun x => { x with stopped, wait := .segment, queue := aHead ++ .seg 16 5 :: [] }).job.eng .vx
    x.draining = false ∧ x.queue = aHead ++ .seg 16 5 :: [] ∧ (∀ q ∈ aHead, ∀ v t, q ≠ .seg v t) ∧ x.stopped = stopped ∧ x.wait = .segment ∧
      sectionOf (vxBox id) (vxBox id).job (streamKind .vx) ≠ none ∧ (vxBox id).job.id ≠ 0 ∧ (vxBox id).job.resident = true :=
  ⟨rfl, rfl, fun q h v t e => by subst e; simp [aHead] at h, rfl, rfl, by decide +kernel, by decide, rfl⟩

/-- The pattern of an instruction. -/
def patOf (i : Instr) : Pattern := match encode i with | some (.pattern _ p) => p | _ => 0

/-- An issued operation that pops both of its counters. -/
def anOp (p : Pattern) : IOp :=
  { pat := p, toks := { wf := true, wb := true, sf := false, sb := false }, shapes := Vector.replicate 32 0, handles := Vector.replicate 16 0, prog := 0
    flags := 0, sib := false }

/-- It is the oldest in the pipeline of VX, with one token in every counter. -/
def issuedBox (p : Pattern) : State :=
  withJob (vxBox fun x => { x with pipe := [.waiting (anOp p)] }) fun j => { j with tokens := Vector.replicate 8 1 }

theorem test_meets_start : (readyOp (issuedBox (patOf (.vadd okV))) (issuedBox (patOf (.vadd okV))).job .vx).map IOp.pat = some (patOf (.vadd okV)) ∧
    decodePattern .vx (patOf (.vadd okV)) = some (.vadd okV) ∧ opCheck .vx box.job (anOp (patOf (.vadd okV))) (.vadd okV) = none ∧
    decodePattern .vx (patOf (.vadd { okV with a := .main 127 })) = some (.vadd { okV with a := .main 127 }) ∧
    (opCheck .vx box.job (anOp (patOf (.vadd { okV with a := .main 127 }))) (.vadd { okV with a := .main 127 })) = none ∧
    (opCheck .vx { box.job with mreg := 7 } (anOp (patOf (.vadd { okV with a := .main 127 }))) (.vadd { okV with a := .main 127 })).isSome = true ∧
    (readyOp (issuedBox 0) (issuedBox 0).job .vx).isSome = true ∧ decodePattern .vx 0 = none ∧ unitFree (issuedBox 0) (issuedBox 0).job .vx = true ∧
    chosen (issuedBox 0) (issuedBox 0).job .vx = true ∧
    (windowCheck box .vx (anOp (patOf (.vadd okV))) false (.vadd okV)).2 = none := by decide +kernel

/-- An MMAD of this job waits, which the sibling's array may take over, while the other job of the core holds the array. -/
def mmadBox : State :=
  let s := withJob box fun j => { j with mx := { j.mx with pipe := [.waiting (anOp (patOf (.mmad { okMmad with rel := true })))] }
                                         tokens := Vector.replicate 8 1 }
  { s with jobs := [{ box.job with id := 2, cc := true, mx := { box.job.mx with pipe := [.started (anOp 0)], holds := true } }] }

theorem test_meets_takeover : (readyOp mmadBox mmadBox.job .mx).isSome = true ∧ (readyOp mmadBox mmadBox.job .mx).map relocatable = some true ∧
    pairShared mmadBox mmadBox.job.core = true ∧ arrayBusy mmadBox mmadBox.job.core = true ∧ arrayBusy mmadBox (sibling mmadBox.job.core) = false ∧
    jobsOn mmadBox (sibling mmadBox.job.core) = [] ∧ mmadBox.job.id ≠ 0 := by decide +kernel

theorem test_meets_engine_events : takeBav [.pushes true false, .bav (.core 0 3) 1] = some ((.core 0 3, 1), [.pushes true false]) ∧
    (barEvent oneBar (.core 0 3) (.arrive 1)).isSome = true ∧
    ((jobsOn (withJob box fun j => { j with altArray := true }) 0).any fun j => j.altArray) = true ∧ box.bootStep = 7 ∧
    arrayFree box box.job = true := by decide +kernel

/-! ### Streams, rendezvous, retirement -/

/-- A PC vector at 0x20000 whose VX entry is v; VX stopped, with pipeline l. -/
def startBox (v : Nat) (l : List PipeItem) : State :=
  withHbm (withX (vxBox fun x => { x with stopped := true, pipe := l }) 1 0x20000) 0x20008 (leBytes 4 v)

/-- VX alone. -/
def onlyVx : EngMask := { ld := false, mx := false, vx := true, st := false }

theorem test_meets_strt (v : Nat) (h : v = 0x2000 ∨ v = 0x2002 ∨ v = 0x3000) : (getX (startBox v []) 1).toNat % 16 = 0 ∧
    (∀ e, maskHas onlyVx e = true →
      answered (ctlRecord (startBox v []) (getX (startBox v []) 1 + BitVec.ofNat 64 (4 * engineNum e)) 4) (fun b => leNat b == v) = true) ∧
    (∀ e, maskHas onlyVx e = true → ((startBox v []).job.eng e).stopped = true ∧ ∀ q ∈ ((startBox v []).job.eng e).pipe, q.isOp = false) := by
  refine ⟨by rcases h with rfl | rfl | rfl <;> decide, ?_, ?_⟩
  · rcases h with rfl | rfl | rfl <;> intro e <;> cases e <;> decide +kernel
  · intro e
    cases e <;> simp [maskHas, onlyVx, startBox, withHbm, withX, withJob, vxBox, Job.eng]

theorem test_meets_strt_entries : sectionOf box box.job (streamKind .vx) = some { kind := 4, off := 0x2000, bytes := 0x1000 } ∧ 0x2000 % 4 = 0 ∧
    (0x2000 : Nat) ≤ 0x2FFC ∧ 0x2FFC < 0x2000 + 0x1000 ∧ ¬(0x2002 % 4 = 0) ∧ ¬(0x3000 < 0x2000 + 0x1000) ∧
    (PipeItem.waiting (anOp 0)).isOp = true ∧ ((startBox 0x2000 [.waiting (anOp 0)]).job.eng .vx).quiet = false ∧ (getX (withX box 1 0x20008) 1).toNat % 16 ≠ 0 := by decide +kernel

/-- The control stream waits at JOIN; VX has arrived, or every engine stream has stopped. -/
def joinBox (stopped : Bool) : State := withJob (vxBox fun x => { x with stopped, arrivals := 1 }) fun j => { j with wait := .joined, arrivals := 1 }

theorem test_meets_rendezvous (stopped : Bool) : (joinBox stopped).job.wait = .joined ∧ (joinBox stopped).job.rendezvous < (joinBox stopped).job.arrivals ∧
    (∀ e, (((joinBox stopped).job.eng e).stopped = true ∨ (joinBox stopped).job.rendezvous < ((joinBox stopped).job.eng e).arrivals) ∧
      ∀ q ∈ ((joinBox stopped).job.eng e).pipe, q.isWork = false) ∧ (joinBox stopped).job.st = .running ∧ ((joinBox stopped).job.eng .vx).stopped = stopped := by
  refine ⟨rfl, Nat.zero_lt_one, ?_, rfl, rfl⟩
  intro e
  cases e <;> simp [joinBox, withJob, vxBox, Job.eng, box, placeWord, placeJob, EngStream.empty, Job.blank]

theorem test_meets_yield : (∃ k ∈ jobsOn twoJobs twoJobs.job.core, k.id ≠ twoJobs.job.id ∧ k.resident = true ∧ k.wait.ends = false) ∧
    ¬(∃ k ∈ jobsOn box box.job.core, k.id ≠ box.job.id ∧ k.resident = true ∧ k.wait.ends = false) ∧
    (withJob { twoJobs with clock := 256 } fun j => { j with wait := .yielding 0 }).job.wait = .yielding 0 := by
  refine ⟨⟨{ box.job with id := 2, cc := true, partner := 1, inbox := [] }, by decide +kernel, by decide +kernel, rfl, rfl⟩, ?_, rfl⟩
  rintro ⟨k, h, n, -⟩
  have : (jobsOn box box.job.core).all (fun k => k.id == box.job.id) = true := by decide +kernel
  exact n (by simpa using List.all_eq_true.mp this k h)

/-- A job whose final rendezvous has completed, with a barrier of its own, a channel and its launch. -/
def retiringBox : State :=
  { withJob oneBar (fun j => { j with wait := .joined, arrivals := 1, rendezvous := 1, retiring := true }) with
    chans := [{ newChan box 0 1 .parked 0 with job := 1 }] }

theorem test_meets_retire : retiringBox.job.id ≠ 0 ∧ mayRetire retiringBox retiringBox.job = true ∧ retiringBox.job.stores = [] ∧
    BarId.core 0 3 ∈ retiringBox.job.barriers ∧ (barOf retiringBox (.core 0 3)).owed = 0 := by decide +kernel

/-! ### Traps -/

/-- A handler at 0x11800. -/
def handled (f : Job → Job) : State := withJob box fun j => f { j with tvec := 0x11800 }

/-- A pending trap of VX. -/
def vxTrap : Trap := { cause := .poison, val := 0, prog := 0, stream := 3, sib := false, orig := 0, pc := 0 }

theorem test_meets_traps : (handled id).job.handled ∧ ¬box.job.handled ∧ ¬(handled fun j => { j with tvec := 0x11802 }).job.handled ∧
    (handled id).job.hnd = false ∧ (handled id).job.pending = [] ∧ (handled fun j => { j with hnd := true }).job.hnd = true ∧
    (handled fun j => { j with pending := [vxTrap] }).job.pending = vxTrap :: [] ∧ atBoundary (handled id) (handled id).job = true ∧
    (handled id).job.wait ≠ .joined ∧ (handled id).job.st = .running := by
  unfold Job.handled
  decide +kernel

/-- R319, R322: the cause of TRAP is 0x11, and ERET goes on after it. -/
theorem test_trap_enters : stepped (exec (.trap 5) (handled id)) (fun t =>
    t.job.pc == 0x11800 && t.job.tval == 5 && t.job.tpc == 0x11004 && t.job.tcause == 0x11 && t.job.hnd && t.job.tstream == 0) = true := by decide +kernel

theorem test_meets_trap_return (e : Engine) : ((withJob box fun j => { j with vx := { j.vx with stopped := true } }).job.eng e).fenced = true ∧
    (box.job.eng .vx).fenced = false ∧ (withJob box fun j => { j with flags := 3, fmask := 2 }).job.flags &&& 2 ≠ 0 ∧
    (handled fun j => { j with hnd := true, tpc := 0x11802 }).job.tpc.toNat % 4 ≠ 0 ∧
    (handled fun j => { j with hnd := true, tpc := 0x11804, tstream := 3, vx := { j.vx with halt := .trapped } }).job.tstream.toNat = engineNum .vx + 1 := by
  cases e <;> decide +kernel

/-! ### Launches -/

/-- A launch record: the image, one job on one control core, entry 0x1000, completion status st, CACT on a barrier operand. -/
def launchRec (n st act : Nat) : Nat :=
  0x10000 + 0x1000 * 2 ^ 64 + n * 2 ^ 352 + act * 2 ^ 640 + st * 2 ^ 704 + 2 ^ 800

/-- The device with the record at 0x20000, whose address is in x1, and with n launches in queue 0. -/
def launchBox (r n : Nat) : State :=
  { withHbm (withX box 1 0x20000) 0x20000 (leBytes 256 r) with
    queues := Vector.ofFn fun q => { cls := q.val / 4, entries := if q.val = 0 then List.replicate n 0 else [], waiting := [] } }

/-- What the check of LAUNCH says of it. -/
def launchCheck (r : Nat) (f : Job → Job) : Option (Except Refused Launch) :=
  let s := drain (withJob (launchBox r 0) f)
  match checkLaunch s (ctlParty s 0) 0x20000 0 (some s.job.shapes) (.job 1) s.job.barAt with
  | .ok x => some x.2
  | .error _ => none

/-- The launch that the record describes. -/
def aLaunch (raw : Nat) : Launch :=
  { id := 0, queue := 0, asid := 1, addr := 0x20000, raw := BitVec.ofNat 2048 raw, version := 3, counts := [1], tiles := [], skipped := 0, idx := []
    source := .job 1, csync := none, time := 0, placed := false, started := false, jobs := 1, retired := 0, refs := 0, suspended := false }

theorem test_meets_launch : (match launchCheck (launchRec 1 0x30000 0) id with | some (.ok l) => l == aLaunch (launchRec 1 0x30000 0) | _ => false) = true ∧
    (match launchCheck (launchRec 0 0 0) id with | some (.error (.code n)) => n == 1 | _ => false) = true ∧
    (match launchCheck (launchRec 1 0 0x10085) (fun j => { j with dbar := [] }) with
      | some (.error (.csync o)) => o == { kind := .die, idx := 5 } | _ => false) = true ∧
    launchRoom (launchBox 0 63) (aLaunch (launchRec 1 0 0)) = true ∧ launchRoom (launchBox 0 64) (aLaunch (launchRec 1 0 0)) = false ∧
    (queueOf (launchBox 0 0) 0).waiting = [] ∧ (getX (launchBox 0 0) 1).toNat % 64 = 0 ∧ (getX (withX box 2 15) 2).toNat = (15 : Fin 16).val ∧
    15 < (getX (withX box 2 16) 2).toNat := by decide +kernel

theorem test_meets_enqueue_resume : (queueOf (putQueue (launchBox 0 63) 0 { cls := 0, entries := [], waiting := [aLaunch 0] }) 0).waiting = aLaunch 0 :: [] ∧
    (aLaunch 0).queue = (0 : Fin 16).val := by decide +kernel

/-- R260: a firing enqueues the record of a tub. -/
theorem test_meets_tub_launch :
    (match enqueueFor (launchBox (launchRec 1 0 0) 0) 1 0x20000 0 (.tub (.spad 1 63)) (.tub (.spad 1 63)) (tubStop (.spad 1 63)) with | .done _ => true | _ => false) = true := by
  decide +kernel

/-- A launch of one job waits in queue 0, and its place beside the job of core 0. -/
def waitingBox : State := { launchBox 0 0 with launches := [{ aLaunch (launchRec 1 0 0) with id := 7, time := 7 }] }
def aSeat : Seat := { core := 1, cc := false, spbase := 0x800000, cbar := [], dbar := [], gbar := [] }

theorem test_meets_placement : (nextPlaced waitingBox).map Launch.id = some 7 ∧ hubWaiting waitingBox (hubParty 1 (.launch 7)) = false ∧ [aSeat].length = (aLaunch 0).jobs ∧
    seatsOk waitingBox (demandOf (BitVec.ofNat 2048 (launchRec 1 0 0))) [] [aSeat] = true ∧ groupsOk (aLaunch (launchRec 1 0 0)) [aSeat] = true ∧
    ownBarsOk waitingBox (BitVec.ofNat 2048 (launchRec 1 0 0)) [aSeat] = true ∧
    levelBarsFrom [aSeat] [1] (BitVec.ofNat 2048 (launchRec 1 0 0)) (levelGroups (aLaunch (launchRec 1 0 0)))
      ([aSeat].flatMap placeAllBars ++ barsTaken waitingBox) = some [] ∧
    answered (spadSection waitingBox (aLaunch (launchRec 1 0 0))) List.isEmpty = true := by decide +kernel

/-- A launch whose one job has retired. -/
def overBox (st : Nat) (csync : Option BarId) : State :=
  { oneBar with launches := [{ aLaunch (launchRec 1 st 0) with id := 7, placed := true, started := true, retired := 1, csync }] }

theorem test_meets_launch_completion : (findLaunch (overBox 0x30000 none) 7).map (fun l => (l.started, l.retired, l.jobs, l.csync)) = some (true, 1, 1, none) ∧
    (overBox 0 none).outs = [] ∧ ((aLaunch (launchRec 1 0x30000 0)).raw.extractLsb' 656 8).toNat < 2 ∧
    (aLaunch (launchRec 1 0x30000 0)).raw.extractLsb' 704 64 = 0x30000 ∧ (aLaunch (launchRec 1 0 0)).raw.extractLsb' 704 64 = 0 ∧
    answered (writeBytes (overBox 0x30000 none) (hubParty 1 (.launch 7)) (.va 0x30000) (leBytes 4 1 ++ leBytes 4 0 ++ leBytes 2 0 ++ leBytes 6 0))
      (fun _ => true) = true ∧
    (barOf (overBox 0 (some (.core 0 3))) (.core 0 3)).arrive.toNat = 2 ∧ (findLaunch waitingBox 7).map Launch.started = some false := by decide +kernel

theorem test_meets_release : (ringBox true).job.rings = [] ++ (ringBox true).job.rings ∧ (∀ r ∈ (ringBox true).job.rings, (ringBox true).job.releasable r = false) ∧
    (withJob (ringBox true) fun j => { j with rings := j.rings.map fun r => { r with ld := true, mx := true, vx := true, st := true } }).job.rings.all
      (ringBox true).job.releasable = true := by decide +kernel
/-! ### Graphs -/

/-- A graph of context 1 whose node 0 runs, its node 1 waits for one predecessor and its node 2 runs. -/
def aGraph (raw mark : Nat) (done : Bool) : Graph :=
  { asid := 1, num := 3, entry := 0, maxRun := 0, status := 0, running := true, gen := 1, runs := 0, result := 0, last := 0
    nodes := [{ raw := BitVec.ofNat 512 raw, pending := 0, running := true, done, mark }, { raw := 6, pending := 1, running := false, done := false, mark := 0 },
              { raw := 6, pending := 2, running := true, done := false, mark := 0 }] }
def graphBox (raw mark : Nat) (done : Bool) : State := { launchBox (launchRec 1 0 0) 0 with graphs := [aGraph raw mark done], barriers := [] }

theorem test_meets_graph (raw mark : Nat) (done : Bool) : graphOf (graphBox raw mark done) 1 3 = some (aGraph raw mark done) ∧
    (aGraph raw mark done).nodes[0]? = some { raw := BitVec.ofNat 512 raw, pending := 0, running := true, done, mark } ∧ (aGraph raw mark done).running = true :=
  ⟨rfl, rfl, rfl⟩

/-- One node of each kind: JOBS of the record at 0x20000, COPY of the chain at 0x20000 on c7 of core 287, COND on 0x20000 being at least -1, HOST of
two entries at 0x20000 into ring 5, WAIT on the barrier that the context's table names first, END with the flag at 0x30000. -/
def jobsNode : Nat := 1 + 0x20000 * 2 ^ 128
def copyNode : Nat := 2 + 0x20000 * 2 ^ 128 + 287 * 2 ^ 192 + 7 * 2 ^ 208
def condNode : Nat := 3 + 2 * 2 ^ 8 + 1 * 2 ^ 32 + 2 * 2 ^ 48 + 0x20000 * 2 ^ 128 + (2 ^ 64 - 1) * 2 ^ 192 + 3 * 2 ^ 256
def hostNode : Nat := 4 + 5 * 2 ^ 128 + 0x20000 * 2 ^ 192 + 2 * 2 ^ 256
def waitNode : Nat := 5 + 0x80 * 2 ^ 128
def endNode : Nat := 6 + 0x30000 * 2 ^ 128 + 9 * 2 ^ 192

/-- A ring of two entries with n of them in use. -/
def ringAt (n : Nat) : HRing :=
  { HRing.zero with size := 1, state := 1, tail := n, base := 0x1000, tailA := 0x2000, vec := 0, coal := 0 }

/-- The context with barrier 0 of die 0 in its table. -/
def tableCtx : Context := { args := { placeContext.args with dbars := [(0, 0)] }, images := placeContext.images }

theorem test_meets_nodes : nodeKind (BitVec.ofNat 512 jobsNode) = 1 ∧
    (match enqueueFor (graphBox jobsNode 0 false) 1 0x20000 0 (.graph (nodeRef (aGraph jobsNode 0 false) 0)) (.node (nodeRef (aGraph jobsNode 0 false) 0)) with
      | .done _ => true | _ => false) = true ∧
    nodeKind (BitVec.ofNat 512 copyNode) = 2 ∧ chanOf (graphBox copyNode 0 false) (nodeF (BitVec.ofNat 512 copyNode) 24 2) (nodeF (BitVec.ofNat 512 copyNode) 26 1) = none ∧
    (BitVec.extractLsb' 128 64 (BitVec.ofNat 512 copyNode)).toNat % 128 = 0 ∧ nodeKind (BitVec.ofNat 512 condNode) = 3 ∧
    answered (readData (graphBox condNode 0 false) (hubParty 1 (.node (nodeRef (aGraph condNode 0 false) 0))) (.va 0x20000) 8 none)
      (fun d => d.length == 8) = true ∧ 2 ≤ nodeF (BitVec.ofNat 512 condNode) 1 1 ∧ 0 < nodeF (BitVec.ofNat 512 condNode) 4 2 ∧
    nodeF (BitVec.ofNat 512 condNode) 6 2 = 2 ∧ nodeKind (BitVec.ofNat 512 hostNode) = 4 ∧ nodeF (BitVec.ofNat 512 hostNode) 32 4 = 2 ∧
    nodeF (BitVec.ofNat 512 hostNode) 16 1 = 5 ∧ (ringAt 1).waiting = [] ∧ (ringAt 1).room = true ∧ (ringAt 2).room = false ∧
    nodeKind (BitVec.ofNat 512 waitNode) = 5 ∧ nodeWait tableCtx (BitVec.ofNat 512 waitNode) = some (.bar (.die 0 0) false) ∧
    nodeKind (BitVec.ofNat 512 endNode) = 6 ∧ (aGraph endNode 0 false).status = 0 ∧
    answered (writeBytes (graphBox endNode 0 false) (hubParty 1 (.node (nodeRef (aGraph endNode 0 false) 0))) (.va 0x30000) (leBytes 8 9))
      (fun t => getByte t .hbm 0x30000 == 9) = true := by decide +kernel

theorem test_meets_successor : (aGraph 0 0 true).nodes[1]?.map GNode.pending = some 1 ∧ (aGraph 0 0 true).nodes[2]?.map GNode.running = some true := by decide

/-! ### The fabric -/

/-- A request from device 1 to a doubleword at 0x20000, and a table entry that admits everything of that device below 0x20008. -/
def aReq (op : ReqOp) (ddr : Bool) (epoch : BitVec 32) (pa : Nat) : Request :=
  { op, cls := 0, poison := .trap, ddr, detoured := false, src := 1, tgt := 0, seq := 4095, ackb := 0, asid := 1, party := 0, pa, size := 8, epoch }
def peerEntry (bytes : Nat) : BitVec 256 := BitVec.ofNat 256 (1 + 2 ^ 8 + 2 ^ 10 + 2 ^ 11 + 2 ^ 12 + 2 ^ 16 + bytes * 2 ^ 128)
def peerBox (bytes : Nat) : State := { box with peers := [(0, peerEntry bytes)] }

theorem test_meets_fresh (op : ReqOp) (ddr : Bool) (pa n : Nat) : freshRequest (peerBox n) (aReq op ddr 0 pa) :=
  ⟨rfl, (fun d h => nomatch (show d ∈ ([] : List (BitVec 32 × Response)) from h)), rfl,
    by show ((4095 : BitVec 32) - 0).toNat < 4096; decide⟩

theorem test_meets_requests : Machine.admitted (peerBox 0x20008) (aReq .load false 0 0x20000) = true ∧ Machine.admitted (peerBox 0x20008) (aReq .load false 0 0x20001) = false ∧
    Machine.admitted (peerBox 0x20008) (aReq (.amo 7 1) false 0 0x20000) = true ∧ (0x20000 : Nat) + 8 ≤ tierBytes box false ∧
    tierBytes box false < (2 ^ 39 : Nat) + 8 ∧ Machine.admitted (peerBox (2 ^ 40)) (aReq (.store [] false) false 0 (2 ^ 39)) = true ∧
    lineBad box .hbm 0x20000 = false ∧ lineBad (badLine box) .hbm 0x20000 = true ∧ (aReq .load false 1 0).epoch ≠ box.epoch ∧
    ((srcWindow { box with windows := [{ src := 1, base := 0, done := [(4095, { status := 0, src := 0, tgt := 1, seq := 4095, result := 5, data := [], poisoned := false })] }] }
      1).ack 0).done.map Prod.fst = [4095] := by decide +kernel

theorem test_meets_messages :
    (match admitLaunch (windowMoved (launchBox 0 0) (aReq .load false 0 0)) 1 0x20000 (BitVec.ofNat 2048 (launchRec 1 0 0)) 0 [1] [] 0 [] (.peer 1)
        (fun o => (contextOf (launchBox 0 0) 1).bind fun c => c.barAt o) with | .ok _ => true | _ => false) = true ∧
    (match admitLaunch (windowMoved (launchBox 0 0) (aReq .load false 0 0)) 1 0x20000 (BitVec.ofNat 2048 (launchRec 1 0 0)) 16 [1] [] 0 [] (.peer 1)
        (fun o => (contextOf (launchBox 0 0) 1).bind fun c => c.barAt o) with | .error (.code 3) => true | _ => false) = true := by decide +kernel

/-- A link that is up with one flit sent, and flits of one payload. -/
def aLink (ask : Bool) (replays : Nat) : Link := { up := true, tx := [flitOf 1 7 0 1 true true], wire := [flitOf 1 7 0 1 true true], txNext := 8, rxNext := 5, replays, ask, again := (7, 8), rx := [(1, 3)] }
def linkBox (x : Link) : State := putLink { box with cols := 1 } 0 x

/-- R341: a flit with the CRC over its payload and its high word; one bit of the payload changed. -/
theorem test_meets_links : flitCrc (flitOf 9 5 7 1 false false).payload ((flitOf 9 5 7 1 false false).ctl.extractLsb' 32 32) =
      ((flitOf 9 5 7 1 false false).ctl.extractLsb' 0 32).toNat ∧
    flitCrc 8 ((flitOf 9 5 7 1 false false).ctl.extractLsb' 32 32) ≠ ((flitOf 9 5 7 1 false false).ctl.extractLsb' 0 32).toNat ∧
    ((flitOf 9 5 7 1 false false).ctl.extractLsb' 32 12).toNat = (aLink false 8).rxNext ∧ (flitOf 9 5 7 1 false false).ctl.getLsbD 59 = false ∧
    (flitOf 9 5 7 1 false false).ctl.getLsbD 60 = false ∧ ((flitOf 9 6 7 1 false false).ctl.extractLsb' 32 12).toNat ≠ (aLink true 8).rxNext ∧
    (linkOf (linkBox (aLink true 8)) 0).ask = true ∧ (linkOf (linkBox (aLink true 8)) 0).up = true ∧ (linkOf box 0).up = false := by decide +kernel

theorem test_meets_link_up : ((List.range 30).any fun p => connected { box with cols := 1 } p) = true ∧ connected box 0 = false := by decide +kernel

/-- CRC-32 of the nine digits (R341: the reflected polynomial, all ones before and after). -/
theorem test_crc : crc32 [0x31, 0x32, 0x33, 0x34, 0x35, 0x36, 0x37, 0x38, 0x39] = 0xCBF43926 := by decide +kernel

/-- A request of ours to device 1, sent n times, last at clock 0. -/
def ourReq (n : Nat) : Out :=
  { req := { aReq .load false 0 0x20000 with src := 0, tgt := 1 }, unit := .ctl 1, key := 0, sends := n, last := 0, st := .waiting, resynced := false }
def outBox (n clock : Nat) : State :=
  { box with outs := [ourReq n], clock, cols := 1, links := (List.range 30).map fun p => (p, { Link.zero with up := true }) }

theorem test_meets_recovery : (outBox 39 75000).outs = [] ++ ourReq 39 :: [] ∧ (ourReq 39).st = .waiting ∧ (ourReq 39).sends ≠ 0 ∧ (ourReq 39).unit ≠ .gone ∧
    (outBox 39 74999).clock - (ourReq 39).last < 75000 ∧ 75000 ≤ (outBox 39 75000).clock - (ourReq 39).last ∧ 40 ≤ (ourReq 40).sends ∧
    (trySend (outBox 39 75000) [] (ourReq 39)).isSome = true ∧ ownIndex box = 0 := by decide +kernel

theorem test_meets_resync : (∀ e ∈ box.epochs, e ≠ ((1 : BitVec 8), (5 : BitVec 32))) ∧ (∀ o ∈ (outBox 1 0).outs, o.req.tgt ≠ 2) ∧
    (1, 5) ∈ ({ box with epochs := [(1, 5)] } : State).epochs ∧
    (∃ c, ((1 : BitVec 8), true, c) ∈ ({ box with resyncs := [(1, true, 0)], clock := 75000 } : State).resyncs ∧ 75000 ≤ 75000 - c) ∧
    ∀ b c, ((1 : BitVec 8), b, c) ∈ ({ box with resyncs := [(1, true, 0)], clock := 74999 } : State).resyncs → b = false ∨ 74999 - c < 75000 :=
  ⟨(fun _ h => nomatch (show _ ∈ ([] : List (BitVec 8 × BitVec 32)) from h)), by decide +kernel, List.mem_cons_self, ⟨0, List.mem_cons_self, Nat.le_refl _⟩,
    fun _ c _ => .inr (by omega)⟩

/-! ### The host -/

/-- A command that has been fetched. -/
def aCmd (op : Nat) : Cmd := { queue := 0, opcode := op, order := false, tag := 9, stamp := 1, args := [] }
def cmdBox (op : Nat) (s : State) : State := { s with curCmd := some (0, 1), cmds := [aCmd op], hrings := [(0, ringAt 0)], hqueues := [(0, { HQueue.zero with state := 1, size := 4 })] }

theorem test_meets_starts (op : Nat) : starts (cmdBox op box) op (aCmd op) := by
  simp [starts, nextCmd, Cmd.mayStart, cmdBox, aCmd, show box.works = [] from rfl]
  decide +kernel

/-- R377: the command with stamp 1 in slot 1 of 16 at host address 0x8000; QNEXT is 1. -/
def queueBox : State :=
  { cmdBox 0 box with cmds := [], hqueues := [(0, { HQueue.zero with state := 1, size := 4, base := 0x8000 })]
                      host := swrite [] 0x8080 (fields [(7, 2), (1, 2), (9, 4), (0, 112), (1, 8)]) }

theorem test_meets_notify : (hqueueOf queueBox 0).state = 1 ∧ (hqueueOf queueBox 0).highest.toNat < (hqueueOf queueBox 0).next.toNat ∧
    (1 : Word) = (hqueueOf queueBox 0).next ∧ (hqueueOf box 0).state ≠ 1 ∧
    leNat ((getBytes queueBox .host (0x8000 + 128 * (1 % 2 ^ 4)) 128).drop 120) = 1 ∧ leNat ((getBytes queueBox .host 0x8080 128).take 2) = 7 ∧
    leNat (((getBytes queueBox .host 0x8080 128).drop 2).take 2) = 1 := by decide +kernel

theorem test_meets_rings : (ringAt 0).state = 1 ∧ (ringAt 0).waiting = [] ∧ HRing.zero.state ≠ 1 ∧ (ringAt 1).vec.getLsbD 15 = false ∧
    ({ ringAt 1 with vec := 0x8000, unsig := 1 } : HRing).vec.getLsbD 15 = true ∧
    max 1 (({ ringAt 1 with coal := 2 ^ 16 } : HRing).coal.extractLsb' 16 16).toNat * 1500 ≤ (1500 : Nat) - 0 := by decide +kernel

/-- Arguments of context 2. -/
def ctxTwo (bar : Nat) : CtxArgs := { placeContext.args with asid := 2, dbars := [(0, bar)] }

theorem test_meets_contexts : ctxArgsOk box (ctxTwo 255) = true ∧ ctxTaken box (ctxTwo 255) = false ∧ ctxArgsOk box (ctxTwo 256) = false ∧
    ctxTaken box (ctxTwo 127) = true ∧ contextOf box 2 = none ∧ contextOf box 1 ≠ none := by decide +kernel

theorem test_meets_map : box.works = [] ∧ (∃ e ∈ [(false, 4, (0 : Word))], e.2.1 % 8 ≠ 0 ∨ tierBytes box e.1 < e.2.1 + 8) ∧ 0x3008 % 8 = 0 ∧ 0x3008 + 8 ≤ tierBytes box false ∧
    leafSlotFrom box 0x4000000000 [4, 3, 2, 1, 0] false 0x1000 = none ∧
    leafSlotFrom box 0 [4, 3, 2, 1, 0] false 0x1000 = some (false, 0x3000, 0x1F, 2) := by decide +kernel

/-- A device of no jobs whose context maps the second gibibyte to HBM 0x4000_0000; DDR-5 holds one gibibyte. -/
def migBox : State :=
  withHbm { cmdBox 2 box with job := Job.blank, ddrBytes := 0x40000000, contexts := [{ placeContext with args := { placeContext.args with quotaHbm := 2 ^ 33, quotaDdr := 2 ^ 33 } }] }
    0x3008 (leBytes 8 0x4000001F)

/-- The page of that gibibyte may move to DDR-5 at 0. -/
theorem test_meets_migrate : leafSlotFrom migBox 0x40000000 [4, 3, 2, 1, 0] false 0x1000 = some (false, 0x3008, 0x4000001F, 2) ∧
    (0x4000001F : Word).getLsbD 6 = false ∧ 0 % 2 ^ levelShift 2 = 0 ∧ 0 + 2 ^ levelShift 2 ≤ tierBytes migBox true ∧ (0x4000001F : Word).getLsbD 5 ≠ true ∧
    (BitVec.extractLsb' 16 36 (0x4000001F : Word)).toNat * 65536 = 0x40000000 ∧ migBox.tubs = [] ∧ (0x3008 : Nat) + 8 ≤ 0x40000000 ∧ 0x1000 % 8 = 0 ∧
    migBox.cmds = [aCmd 2] ∧ (∀ j ∈ allJobs migBox, j.stores = [] ∧ j.resident = false) ∧ migBox.chans = [] ∧ anyAhead migBox 1 1 = false ∧ migBox.works = [] ∧
    (migBox.contexts.map fun c => (c.args.asid, c.args.root, c.args.rootDdr)) = [(1, 0x1000, false)] := by decide +kernel

/-- A tier that does not hold the page, and the tier where it stands. -/
theorem test_meets_migrate_refused : tierBytes migBox true < 0x40000000 + 2 ^ levelShift 2 ∧ (0x4000001F : Word).getLsbD 5 = false ∧
    (∃ t ∈ ({ migBox with tubs := [(0, 0, { Tub.zero with set := true, armed := true, total := 8, region := [(0x40000000, 64)] })] } : State).tubs,
      t.2.2.armed = true ∧ t.2.2.hits 0x40000000 (2 ^ 30) ≠ 0) := by
  refine ⟨by decide +kernel, by decide, ⟨_, List.mem_cons_self, by decide, by decide +kernel⟩⟩

/-- An invalidation that waits, with its context's access ahead of the marker or not. -/
def aWork : MapWork := { queue := 0, stamp := 1, asid := 1, lo := 0, hi := 0x10000, toDdr := false, pa := 0, step := 0, inv := 1, entry := 0, size := 0 }
theorem test_meets_invalidate : box.works = [] ∧ (cmdBox 2 box).cmds = [aCmd 2] ∧ (∀ j ∈ allJobs box, j.stores = []) ∧ box.job.resident = true ∧ box.job.wait ≠ .held ∧
    anyAhead (withJob box fun j => { j with marker := some 1 }) 1 1 = true ∧ anyAhead box 1 1 = false ∧ (aCmd 2).queue = aWork.queue ∧ (aCmd 2).stamp = aWork.stamp ∧
    aWork.asid = 1 ∧ (withJob box fun j => { j with wait := .held }).job.wait = .held := by decide +kernel

/-- An image of one control section at 0x40000: magic, version 3, header 64, one section, 128 bytes. -/
def imageBytes (ver : Nat) : List Byte :=
  fields [(0x4B495846, 4), (ver, 2), (64, 2), (1, 2), (0, 6), (128, 8), (0, 8), (0, 8), (0, 24), (1, 1), (2, 1), (0, 2), (4, 4), (96, 8), (0, 48)]
def loadBox (ver : Nat) : State := withHbm box 0x40000 (imageBytes ver)

theorem test_meets_modload : answered (readExact (loadBox 3) (hubParty 1) .read (.va 0x40000) 64) (fun h => h == (imageBytes 3).take 64) = true ∧
    leNat ((imageBytes 3).take 4) = 0x4B495846 ∧ leNat (((imageBytes 3).drop 16).take 8) = 128 ∧
    answered (readExact (loadBox 3) (hubParty 1) .read (.va 0x40000) 128) (fun b => b == imageBytes 3) = true ∧
    (match checkImage (imageBytes 3) with | .ok (v, l) => v == 3 && l == [{ kind := 1, off := 96, bytes := 4 }] | _ => false) = true ∧
    (match checkImage (imageBytes 4) with | .error n => n == 5 | _ => false) = true := by decide +kernel

theorem test_meets_commands : (match enqueueFor (launchBox (launchRec 1 0 0) 0) 1 0x20000 15 (.host 0 1) .hub with | .done _ => true | _ => false) = true ∧
    (match enqueueFor (launchBox 0 0) 1 0x20000 15 (.host 0 1) .hub with | .refused _ n st => n == 1 && st == 0 | _ => false) = true ∧
    graphOf (graphBox 0 0 false) 1 3 = some (aGraph 0 0 false) ∧ graphOf box 1 3 = none ∧
    (BitVec.extractLsb' 14 2 (peerEntry 8), BitVec.extractLsb' 32 32 (peerEntry 8), BitVec.extractLsb' 64 16 (peerEntry 8)) = (0, 0, 0) ∧
    (BitVec.extractLsb' 128 16 (peerEntry 0x10000), BitVec.extractLsb' 192 64 (peerEntry 0x10000)) = (0, 0) ∧ ([] : List Byte).length = 0 ∧
    64 < (List.replicate 65 (0 : Byte)).length ∧ (List.replicate 64 (0 : Byte)).length ≤ 64 := by decide +kernel

/-- R84: a launch waits in queue 15, so that the one of a LAUNCH waits behind it; its command is not taken up again, and completes as it enters. -/
def fullBox : State :=
  let s := cmdBox 4 (launchBox (launchRec 1 0 0) 0)
  putQueue s 15 { queueOf s 15 with waiting := [aLaunch (launchRec 1 0 0)] }
theorem test_meets_launch_waits : (match enqueueFor fullBox 1 0x20000 15 (.host 0 1) .hub with
      | .done u => (queueOf u 15).waiting.any (fun l => l.source == .host 0 1 && (clearWait u l).cmds == []) && !(aCmd 4).mayStart u
      | _ => false) = true ∧ (fullBox.cmds.find? fun d => d.queue == 0 && d.stamp == 1) = some (aCmd 4) := by decide +kernel

/-- R382: an image that names 4 bytes as its size has status 6 where its version is 3, and status 5 where it is 4. -/
def shortImage (ver : Nat) : List Byte := (imageBytes ver).take 16 ++ leBytes 8 4 ++ (imageBytes ver).drop 24
theorem test_image_status : (match checkImage ((shortImage 3).take 64) with | .error n => n == 6 | _ => false) = true ∧
    (match checkImage ((shortImage 4).take 64) with | .error n => n == 5 | _ => false) = true ∧
    stepped (exec (.modload 1 0x40000) (cmdBox 3 (withHbm box 0x40000 (shortImage 3)))) (fun t => t.cmds == []) = true := by decide +kernel

/-- A graph description at 0x40000 of one END node at 0x40040. -/
def descBox : State := withHbm box 0x40000 (fields [(1, 2), (0, 2), (0, 4), (0, 8), (0x40040, 8), (0, 40), (endNode, 64)])

theorem test_meets_graph_load : answered (readExact descBox (hubParty 1) .read (.va 0x40000) 64) (fun h =>
      leNat (h.take 2) == 1 && leNat ((h.drop 2).take 2) == 0 && leNat ((h.drop 16).take 8) == 0x40040 && leNat ((h.drop 24).take 40) == 0) = true ∧
    answered (readExact descBox (hubParty 1) .read (.va 0x40040) 64) (fun b => (cut 64 b).map (ofBytes 512) == [BitVec.ofNat 512 endNode]) = true ∧
    nodeBad placeContext 1 (BitVec.ofNat 512 endNode) = false ∧ nodeJoin (BitVec.ofNat 512 endNode) = 0 ∧
    (descBox.graphs.filter fun g => g.asid == 1).length < placeContext.args.quotaGraphs := by decide +kernel

/-! ### Pre-emption, walks, banks -/

/-- The group of launch 1 runs; it drains, with a basket; it is suspended. -/
def drainingBox : State := withJob box fun j => { j with st := .draining, basket := some Basket.fresh, vx := { j.vx with stopped := true } }
def suspendedBox : State :=
  let s := withJob drainingBox fun j => { j with st := .suspended, splim := 64, mreg := 0, oreg := 0, stub := 0, cbar := [], dbar := [], gbar := [] }
  { s with launches := [{ aLaunch (launchRec 1 0 0) with id := 1, placed := true, started := true, suspended := true }] }
/-- A place for it on core 1. -/
def newSeat : Seat := { aSeat with spbase := 0 }

theorem test_meets_preempt : gangOf box 2 = [] ∧ (∃ j ∈ gangOf drainingBox 1, j.st ≠ .running) ∧ gangOf box 1 ≠ [] ∧ (∀ j ∈ gangOf box 1, j.st = .running) ∧
    drainingBox.job.st = .draining ∧ groupDrained drainingBox drainingBox.job.launch = true ∧ drainingBox.job.stores = [] ∧
    drainingBox.job.basket = some Basket.fresh ∧ Memory.wf drainingBox = true ∧ (∀ j ∈ allJobs drainingBox, j.stores = []) ∧
    basketOk { addr := 0x100000, stOff := 64, imgOff := 0x100000, logOff := 0x80000, logMax := 256, fltOff := 0x90000, fltMax := 64 } drainingBox.job.region = true ∧
    0 < drainingBox.job.region / 64 := by decide +kernel

/-- Its lines are being saved: one of them is. -/
def savingBox : State :=
  let a := { Basket.fresh.args with addr := 0x100000, imgOff := 0x100000 }
  withJob drainingBox fun j => { j with st := .saving, basket := some { Basket.fresh with laid := true, lines := 1, args := a } }

theorem test_meets_saving : savingBox.job.st = .saving ∧ Memory.wf savingBox = true ∧ (savingBox.job.basket.map Basket.lines) = some 1 ∧
    1 < savingBox.job.region / 64 ∧ savingBox.job.id ≠ 0 := by decide +kernel

theorem test_meets_resume : (findLaunch suspendedBox 1).map Launch.suspended = some true ∧ [newSeat].length = (gangOf suspendedBox 1).length ∧
    resumeSeats suspendedBox (demandOf (BitVec.ofNat 2048 (launchRec 1 0 0))) [] ((inOrder suspendedBox 1).zip [newSeat]) = true ∧
    resumeGroups (aLaunch (launchRec 1 0 0)) ((inOrder suspendedBox 1).zip [newSeat]) = true ∧
    ownBarsOk suspendedBox (BitVec.ofNat 2048 (launchRec 1 0 0)) [newSeat] = true ∧
    (restoreGroup (settleStores suspendedBox) (aLaunch (launchRec 1 0 0)) ((inOrder suspendedBox 1).zip [newSeat])).isSome = true ∧
    (∀ j ∈ gangOf suspendedBox 1, j.st ≠ .folding) ∧
    (gangOf (withJob suspendedBox fun j => { j with st := .folding }) 1).map Job.st = [.folding] ∧
    (findLaunch waitingBox 7).map Launch.suspended = some false := by decide +kernel

theorem test_meets_resolve : findJob box 2 = none ∧ (findJob box 1).isSome = true ∧
    (withJob box fun j => { j with wait := .dvorol .escalated 0x11 }).job.wait = .dvorol .escalated 0x11 ∧ Cause.escalated ≠ .pteInvalid ∧
    box.job.tpc.toNat % 4 = 0 ∧ box.job.stores = [] ∧ box.job.tstream = 0 ∧ box.job.basket = none ∧ box.job.id = 1 := by decide +kernel

theorem test_meets_walks : (walk box 1 0x20000).cause = none ∧ (walk box 1 0x40000000).cause ≠ none ∧ (0x20000 : Word).toNat < 2 ^ 57 ∧ inAperture 0x20000 = false ∧
    box.tlb = [] ∧ (TlbAt.l1 0).size = 512 ∧ (TlbAt.die 0).size = 16384 ∧
    ((withJob box fun j => { j with spbase := 0x100000, splim := 0x200000 }).job.spbase.toNat) = 4 * 262144 ∧ box.gated = [] ∧ box.waking = [] := by
  decide +kernel

theorem test_meets_hit : ∃ t ∈ ({ box with tlb := [{ at' := .l1 0, asid := 1, base := 0, bits := 30, leaf := 0x1F, stale := false, born := 0, died := 0 }] } : State).tlb, t.asid = 1 ∧ t.stale = false ∧
    (0x20000 : Word).toNat / 2 ^ t.bits * 2 ^ t.bits = t.base :=
  ⟨_, List.mem_cons_self, rfl, rfl, by decide⟩

theorem test_meets_reset (r : ResetIn) : (if r.failAt = 0 ∨ 7 < r.failAt then 7 else r.failAt - 1) ≤ 7 := by split <;> omega
/-! ### Engine operations -/

/-- A layout record: kind, flags, format, rank, base, AUX1, AUX2, extents, strides and PARAMS (06_registers.md R142). -/
def hnd (kind flags fmt rank base aux1 aux2 : Nat) (ext str : List Nat) (params : Nat) : Layout :=
  BitVec.ofNat 512 (leNat (fields [(kind, 1), (flags, 1), (fmt, 1), (rank, 1), (0, 4), (base, 8), (aux1, 8), (aux2, 8)] ++
    fields (((ext ++ [0, 0, 0, 0]).take 4).map fun e => (e, 2)) ++ fields (((str ++ [0, 0, 0, 0]).take 4).map fun e => (e, 4)) ++ leBytes 4 params))

/-- A started operation with the handle h in every handle register, at unit u. -/
def startedAt (h : Layout) (u : Nat) : IOp := { anOp 0 with handles := Vector.replicate 16 h, prog := u }

/-- It is under way in engine e, in a turn of one unit. -/
def opBox (e : Engine) (h : Layout) (u : Nat) : State :=
  { withJob box (fun j => j.updEng e fun x => { x with pipe := [.started (startedAt h u)] }) with units := 1 }

/-- The slots of a VX operation on other formats. -/
def vopAs (df sf : Fmt) (b c : RegSlot) : VOp := { okV with df, sf, b, c }

theorem test_meets_elements : ([Instr.vadd okV, .vsub okV, .vmul okV, .vfma (vopAs .fp32 .fp32 (.main 2) (.main 4)), .vfms (vopAs .fp32 .fp32 (.main 2) (.main 4)),
      .vmax okV, .vmin okV, .vabs (vopAs .fp32 .fp32 .none .none), .vneg (vopAs .fp32 .fp32 .none .none), .vcvt (vopAs .bf16 .fp32 .none .none),
      .vexp2 (vopAs .fp32 .fp32 .none .none), .vlog2 (vopAs .fp32 .fp32 .none .none), .vrcp (vopAs .fp32 .fp32 .none .none),
      .vrsq (vopAs .fp32 .fp32 .none .none), .vsqrt (vopAs .fp32 .fp32 .none .none), .vdiv okV, .viadd (vopAs .int32 .int32 (.main 2) .none),
      .visub (vopAs .int32 .int32 (.imm 1) .none), .vimul (vopAs .int32 .int32 (.shape 1) .none), .vimax (vopAs .int32 .int32 (.main 2) .none),
      .vimin (vopAs .int32 .int32 (.main 2) .none), .vand (vopAs .uint32 .uint32 (.main 2) .none), .vor (vopAs .uint32 .uint32 (.main 2) .none),
      .vxor (vopAs .uint32 .uint32 (.main 2) .none), .vshl (vopAs .uint32 .uint32 (.main 2) .none), .vshr (vopAs .uint32 .uint32 (.main 2) .none),
      .vsra (vopAs .int32 .int32 (.main 2) .none), .vcmp (vopAs .uint8 .fp32 (.main 2) .none) .lt, .vgumb (vopAs .fp32 .uint32 .none .none)].all fun i =>
    (vxElem i).isSome && i.wf && (vxCheck (opBox .vx 0 0).job (curOp (opBox .vx 0 0).job .vx) i).isNone) = true := by decide +kernel

theorem test_meets_vx_checks : (vopOf (.vadd { okV with d := .main 127 })).isSome = true ∧
    (vxCheck { box.job with mreg := 7 } (curOp box.job .vx) (.vadd { okV with d := .main 127 })).isSome = true := by decide +kernel

/-- A handle of a draft tree with one level of two (R150). -/
def treeHnd : Layout := hnd 6 0 0 1 0x20000 0x21000 0 [3] [1] 1
def treeBox : State := withHbm (opBox .vx treeHnd 0) 0x21000 [2]

theorem test_meets_moves : ([Instr.vsel (vopAs .fp32 .fp32 (.main 2) (.main 4)), .vscl (vopAs .fp32 .fp32 (.main 2) .none), .vmov (vopAs .fp32 .fp32 .none .none),
      .vbc (vopAs .fp32 .fp32 .none .none) (.imm 1023), .viota { vopAs .uint32 .uint32 (.shape 9) .none with a := .imm 0 },
      .vperm okV, .vlut (vopAs .fp32 .uint8 (.main 2) .none), .vpack okV, .vunpk okV, .vpart (vopAs .uint32 .uint8 .none .none),
      .vpost { vopAs .fp32 .fp32 .none .none with d := .none, n := .imm 16 }, .vred (vopAs .fp32 .fp32 .none .none) .sum, .vscan (vopAs .fp32 .fp32 .none .none) .sum true,
      .vsegr okV .sum, .vrank (vopAs .uint32 .fp32 .none .none) false, .vprune (vopAs .fp32 .fp32 (.main 9) .none) .n2m4,
      .vrng { vopAs .uint32 .uint32 .none .none with a := .shape 28 }, .vdqnt (vopAs .fp32 .mxint8 (.main 2) .none), .vqnt (vopAs .mxint8 .fp32 (.main 9) .none),
      .vqnt (vopAs .e2m1s .fp32 .none .none), .vtree (vopAs .uint32 .uint32 .none .none) .lev 0].all fun i =>
    i.wf && (vxCheck treeBox.job (curOp treeBox.job .vx) i).isNone) = true := by decide +kernel

theorem test_meets_moves_raw : (Instr.vmov { vopAs .e2m1s .e2m1s .none .none with n := .imm 32 }).wf = true ∧
    vxCheck box.job (curOp box.job .vx) (.vmov { vopAs .e2m1s .e2m1s .none .none with n := .imm 32 }) = none ∧
    regElem box.job (.main 2) .uint32 0 < capacity .fp32 ∧
    capacity .fp32 ≤ regElem (withJob box fun j => { j with main := swrite [] 0x2000 [0, 4] }).job (.main 2) .uint32 0 ∧
    regElem (withJob box fun j => { j with main := swrite [] 0x2000 [0, 4] }).job (.main 2) .uint32 0 ≠ 0xFFFFFFFF ∧ box.job.fifo.length + 16 ≤ 16 ∧
    16 < (withJob box fun j => { j with fifo := [0] }).job.fifo.length + 16 := by decide +kernel

theorem test_meets_reductions : (0 : Int) ≤ (BitVec.ofNat 32 (regElem box.job (.main 2) .int32 0)).toInt ∧
    (BitVec.ofNat 32 (regElem box.job (.main 2) .int32 0)).toInt ≤ (BitVec.ofNat 32 (regElem box.job (.main 2) .int32 1)).toInt ∧
    (BitVec.ofNat 32 (regElem box.job (.main 2) .int32 4)).toInt ≤ capacity .fp32 ∧
    answered (vecBytes treeBox (engParty treeBox .vx 0) (curOp treeBox.job .vx) (opHandle (curOp treeBox.job .vx) 0) (opHandle (curOp treeBox.job .vx) 0).aux1 8)
      (fun b => treeWidths (opHandle (curOp treeBox.job .vx) 0) b == some [2]) = true := by decide +kernel

/-! ### Loads and stores of the engines -/

/-- Eight elements of a format from 0x20000 on, of an unmapped address, and of a scratchpad offset. -/
def vec (fmt : Nat) : Layout := hnd 0 0 fmt 1 0x20000 0 0 [8] [1] 0
def lost : Layout := hnd 0 0 0 1 0x40000000 0 0 [8] [1] 0
def here (base : Nat) : Layout := hnd 0 1 0 1 base 0 0 [8] [1] 0
/-- One row of 32 E2M1S elements, and of MXINT8 elements with scales at 0x22000. -/
def rawRow : Layout := hnd 0 0 5 2 0x20000 0 0 [32, 1] [1, 32] 0
def mxRow : Layout := hnd 0 8 13 2 0x20000 0 0x22000 [32, 1] [1, 32] 0

/-- The checks of an operation in engine e pass, it has more than u units, and p holds of the element that unit u names. -/
def lsMeets (e : Engine) (i : Instr) (h : Layout) (u : Nat) (elem : State → IOp → Except Stop (Option Int)) (p : Except Stop (Option Int) → Bool) : Bool :=
  let s := opBox e h u
  let o := curOp s.job e
  match lsInfo o i with
  | some x => i.wf && (lsCheck e s.job o i).isNone && u < x.total && p (elem s o)
  | none => false

/-- The element that a load, or a store, names. -/
def ldElem (i : Instr) (s : State) (o : IOp) : Except Stop (Option Int) :=
  match ldElems o o.prog i with
  | some f => f.elem s (engParty s .ld f.cls) o (opHandle o 0) o.prog
  | none => .ok none
def stElem (i : Instr) (k : Nat) (s : State) (o : IOp) : Except Stop (Option Int) :=
  match stElems i with
  | some f => f.elem s (engParty s .st f.cls) o (opHandle o 0) k
  | none => .ok none

/-- There is an element, and there is none. -/
def some? (x : Except Stop (Option Int)) : Bool := answered x Option.isSome
def none? (x : Except Stop (Option Int)) : Bool := answered x Option.isNone

/-- LDT, LDV, LDB and LDG of fp32; the last element of a vector and the first beyond it. -/
theorem test_meets_ld : lsMeets .ld (.ldv { okLin with n := .imm 9 }) (vec 0) 7 (ldElem (.ldv { okLin with n := .imm 9 })) some? = true ∧
    lsMeets .ld (.ldv { okLin with n := .imm 9 }) (vec 0) 8 (ldElem (.ldv { okLin with n := .imm 9 })) none? = true ∧
    lsMeets .ld (.ldt { okTile with tc := .imm 8 }) (vec 0) 7 (ldElem (.ldt { okTile with tc := .imm 8 })) some? = true ∧
    lsMeets .ld (.ldb { okLin with n := .imm 8 } (.imm 2)) (vec 0) 7 (ldElem (.ldb { okLin with n := .imm 8 } (.imm 2))) some? = true ∧
    lsMeets .ld (.ldb { okLin with n := .imm 8 } (.imm 2)) (vec 0) 8 (ldElem (.ldb { okLin with n := .imm 8 } (.imm 2))) none? = true ∧
    lsMeets .ld (.ldg okIdx) (here 0) 0 (ldElem (.ldg okIdx)) some? = true ∧
    (lsCheck .ld (opBox .ld (vec 5) 0).job (curOp (opBox .ld (vec 5) 0).job .ld) (.ldv okLin)).isSome = true := by decide +kernel

/-- A vector of the sibling window: the check at issue holds of it, or one of its elements lies outside. -/
def sibVec (base : Nat) : IOp := startedAt (hnd 0 3 0 1 base 0 0 [8] [1] 0) 0
theorem test_meets_window_trap : opCheck .ld box.job (sibVec 0x7FFFF0) (.ldv okLin) = none ∧
    (windowCheck box .ld (sibVec 0x7FFFF0) false (.ldv okLin)).2 = some (.trap .spadBounds 0x80000F) ∧
    (windowCheck box .ld (sibVec 0x700000) false (.ldv okLin)).2 = none := by decide +kernel

theorem test_meets_ld_access :
    answered (loadElem (opBox .ld (vec 0) 0) (engParty (opBox .ld (vec 0) 0) .ld 0) (startedAt (vec 0) 0) (opHandle (startedAt (vec 0) 0) 0) .fp32 .rne false false 7)
      (fun r => r == (0, 0)) = true ∧
    (match loadElem (opBox .ld lost 0) (engParty (opBox .ld lost 0) .ld 0) (startedAt lost 0) (opHandle (startedAt lost 0) 0) .fp32 .rne false false 7 with
      | .error _ => true | .ok _ => false) = true ∧
    (match ldElem (.ldg okIdx) { opBox .ld (here 0) 0 with job := { (opBox .ld (here 0) 0).job with main := swrite [] 0x2000 [8] } } (startedAt (here 0) 0) with
      | .error (.trap c _) => c == .shapeInvalid | _ => false) = true := by decide +kernel

/-- Raw blocks, and LDZ of a block of zeros. -/
theorem test_meets_raw : lsMeets .ld (.ldt { okTile with tc := .imm 32, fr := .e2m1s }) rawRow 0
      (fun s o => blockElem s (engParty s .ld 0) o { okTile with tc := .imm 32, fr := .e2m1s } (opHandle o 0) 0) some? = true ∧
    lsMeets .st (.stt { okTile with tc := .imm 32, fr := .e2m1s }) rawRow 0
      (fun s o => blockElem s (engParty s .st 0) o { okTile with tc := .imm 32, fr := .e2m1s } (opHandle o 0) 0) some? = true ∧
    lsMeets .ld (.ldz { hdr := plain, reg := .main 1, h := 0, n := .imm 2 }) (here 1024) 1 (fun _ _ => .ok none) none? = true ∧
    answered (readExact (opBox .ld (here 0) 0) (engParty (opBox .ld (here 0) 0) .ld 0) .read (.off 2048 1) 1024) (fun b => b.all (· == 0)) = true ∧
    answered (locate (opBox .ld (here 0) 0) (engParty (opBox .ld (here 0) 0) .ld 0) .read (.off 2048 1) 1024) (fun l =>
      match l with | (.here (.spad c) a _, _) => c == 0 && a == 2048 | _ => false) = true := by decide +kernel

/-- STT, STV and STS of fp32, of INT4 with a neighbour behind and before, and STA. -/
theorem test_meets_st : lsMeets .st (.stt { okTile with tc := .imm 8 }) (vec 0) 7 (stElem (.stt { okTile with tc := .imm 8 }) 7) some? = true ∧
    lsMeets .st (.stv { okLin with n := .imm 9 }) (vec 0) 8 (stElem (.stv { okLin with n := .imm 9 }) 8) none? = true ∧
    lsMeets .st (.stv { okLin with n := .imm 8 }) (vec 10) 6 (stElem (.stv { okLin with n := .imm 8 }) 7) (fun x => answered x (· == some 7)) = true ∧
    lsMeets .st (.stv { okLin with n := .imm 8 }) (vec 10) 7 (stElem (.stv { okLin with n := .imm 8 }) 6) (fun x => answered x (· == some 6)) = true ∧
    lsMeets .st (.stv { okLin with n := .imm 1 }) (vec 10) 0 (stElem (.stv { okLin with n := .imm 1 }) 0) (fun x => answered x (· == some 0)) = true ∧
    lsMeets .st (.sts okIdx) (vec 0) 0 (stElem (.sts okIdx) 0) some? = true ∧
    lsMeets .st (.sta okIdx) (vec 0) 0 (fun s o => idxElem s (engParty s .st 0) o okIdx (opHandle o 0) 0) some? = true ∧
    (lsCheck .st (opBox .st (vec 5) 0).job (curOp (opBox .st (vec 5) 0).job .st) (.stv okLin)).isSome = true := by decide +kernel

theorem test_meets_st_access :
    answered (locate (opBox .st (vec 0) 7) (engParty (opBox .st (vec 0) 7) .st 0) .write (.va 0x2001C) 4) (· == (.here .hbm 0x2001C .trap, none)) = true ∧
    (Loc.va 0x2001C).low + 4 ≤ 64 ∧
    answered (writeBytes (opBox .st (vec 0) 7) (engParty (opBox .st (vec 0) 7) .st 0) (.va 0x2001C) (leBytes 4 5)) (fun w => getByte w .hbm 0x2001C == 5) = true ∧
    answered (putNibble (opBox .st (vec 10) 0) (engParty (opBox .st (vec 10) 0) .st 0) (opHandle (startedAt (vec 10) 0) 0) 0x20000 1 9)
      (fun w => getByte w .hbm 0x20000 == 0x90) = true ∧
    answered (locate (opBox .st (vec 0) 0) (engParty (opBox .st (vec 0) 0) .st 0) .atomic (.va 0x20000) 4) (· == (.here .hbm 0x20000 .trap, none)) = true ∧
    answered (elemBits (opBox .st (vec 0) 0) (engParty (opBox .st (vec 0) 0) .st 0) (opHandle (startedAt (vec 0) 0) 0) 0) (· == (0, false)) = true ∧
    answered (putElem (opBox .st (vec 0) 0) (engParty (opBox .st (vec 0) 0) .st 0) (opHandle (startedAt (vec 0) 0) 0) 0 0x3F800000)
      (fun w => getByte w .hbm 0x20003 == 0x3F) = true := by decide +kernel

/-- Scales of an MXINT8 row are stored as bytes; STQ of a row of 32. -/
theorem test_meets_quant : lsMeets .st (.stt { okTile with tc := .imm 32, fr := .uint8, scales := true }) mxRow 0
      (stElem (.stt { okTile with tc := .imm 32, fr := .uint8, scales := true }) 0) some? = true ∧
    lsMeets .st (.stq { okTile with tc := .imm 32 }) mxRow 0 (fun s o => blockElem s (engParty s .st 0) o { okTile with tc := .imm 32 } (opHandle o 0) 0) some? = true ∧
    ((stqBlock box.job (startedAt mxRow 0) { okTile with tc := .imm 32 } (opHandle (startedAt mxRow 0) 0) 0).any Option.isSome) = true ∧
    scaleAddr (opHandle (startedAt mxRow 0) 0) 0 = 0x22000 ∧ (stqBlock box.job (startedAt mxRow 0) { okTile with tc := .imm 0 } (opHandle (startedAt mxRow 0) 0) 0).all
      Option.isNone = true := by decide +kernel

/-- The response to a scatter-add of ST at device 1 has come. -/
def farSum : State := farBox (.eng 1 .st) (.scatterAdd .fp32 .fp32 .rne false 0) 4

/-- STA to a page of another device, whose response has come. -/
theorem test_meets_sta_remote : answered (locate farSum (engParty farSum .st 0) .atomic (.va 0x40000000) 4) (· == (.remote 1 false 0 .trap, none)) = true ∧
    answered (answerTo farSum (engParty farSum .st 0)
      (request farSum (engParty farSum .st 0) (.scatterAdd .fp32 .fp32 .rne false 0x3F800000) 1 false 0 4 .trap) 0x40000000 0x40000000) (fun _ => true) = true := by decide +kernel

/-! ### The matrix array -/

/-- Two rows of eight bf16 elements from 0x20000 on, one of 32 MXINT8 elements, and the same in the sibling window. -/
def aRows : Layout := hnd 0 0 1 2 0x20000 0 0 [8, 2] [1, 8] 0
def sibRows (fmt : Nat) : Layout := hnd 0 3 fmt 2 0x700000 0 0 [8, 2] [1, 8] 0

/-- A bank of one column of eight lanes of a format. -/
def aBank (f : Fmt) (k : Nat) : Bank := { Bank.empty with n := 1, k, fmt := f, elems := [(0, 1)], tags := [some (0, 0)] }

/-- An operation of the array under way at row u, with a bank in the array. -/
def mxBox (h : Layout) (u : Nat) (b : Bank) : State :=
  let s := opBox .mx h u
  { s with job := { s.job with matrix := { Matrix.empty with bank0 := b } } }

/-- The operation's checks pass. -/
def mxMeets (s : State) (i : Instr) : Bool := i.wf && (mxCheck s.job (curOp s.job .mx) i).isNone

/-- The source of the rows of a handle. -/
def rowsOf (h : Layout) (f : Fmt) (k : Nat) (skip : Bool) : PassSource := { h := opHandle (startedAt h 0) 0, reg := .none, fmt := f, org := 0, lane := 0, k, skip }

/-- The first n rows of a source, once the vectors that they read are kept. -/
def keptRows (s : State) (x : PassSource) (all : Bool) (n : Nat) : Except Stop (List (Option Row) × Flags) :=
  let v := keepRowVecs s (engParty s .mx 0) x all 0 n
  fetchRows v (engParty s .mx 0) (curOp v.job .mx) x all 0 n

theorem test_meets_matrix_state : mxMeets (mxBox aRows 0 Bank.empty) (.mlb { okMlb with n := .imm 2 }) = true ∧
    answered (keptRows (mxBox aRows 0 Bank.empty) (rowsOf aRows .bf16 8 false) true 2)
      (fun r => r.1.length == 2 && (r.1.filterMap id).all fun r => decide (r.lanes.length ≤ 256) && r.lanes.all fun l => (l.getD 0) < 2 ^ 32) = true ∧
    mxMeets (mxBox aRows 0 Bank.empty) (.macz { hdr := plain, base := 255, bpf := true, m := .imm 1 }) = true ∧
    mxMeets (mxBox aRows 0 Bank.empty) (.macr { okMac with base := 255, n := .imm 96 }) = true ∧ mxMeets (mxBox aRows 0 Bank.empty) (.macw okMac) = true ∧
    mxMeets (mxBox aRows 0 Bank.empty) (.macz { hdr := plain, base := 255, bpf := false, m := .imm 2 }) = false := by decide +kernel

theorem test_meets_matrix_passes : mxMeets (mxBox aRows 0 (aBank .bf16 8)) (.mma { okMma with m := .imm 2 }) = true ∧
    answered (keptRows (mxBox aRows 0 (aBank .bf16 8)) (rowsOf aRows .bf16 8 false) false (min 32 2))
      (fun r => r.1.length == 2) = true ∧
    mxMeets (mxBox aRows 0 (aBank .bf16 8)) (.mma { okMma with k := .imm 0 }) = true ∧ mxMeets (mxBox mxRow 0 (aBank .mxint8 32)) (.mmb okMmb) = true ∧
    mxMeets (mxBox mxRow 0 (aBank .mxint8 32)) (.mmb { okMmb with k := .imm 0 }) = true ∧
    answered (keptRows (putMatrix (mxBox mxRow 0 (aBank .mxint8 32)) { (mxBox mxRow 0 (aBank .mxint8 32)).job.matrix with bpfInt := true })
      (rowsOf mxRow .mxint8 32 false) false 1) (fun r => r.1.length == 1) = true ∧
    mxMeets (mxBox mxRow 0 Bank.empty) (.msa okMsa) = true ∧ (aBank .bf16 8).n ≤ 96 := by decide +kernel

/-- MMAD: A, B and C in the sibling window, each with its own format. -/
def mmadAt (u : Nat) : IOp :=
  { startedAt (sibRows 1) u with handles := (Vector.replicate 16 (sibRows 1)).set 2 (sibRows 0) }
def mmadState (u : Nat) : State := { withJob box (fun j => j.updEng .mx fun x => { x with pipe := [.started (mmadAt u)] }) with units := 1 }

theorem test_meets_mmad : mxMeets (mmadState 0) (.mmad { okMmad with m := .imm 2, n := .imm 2, k := .imm 8 }) = true ∧
    answered (mmadRow (mmadAt 0) { okMmad with m := .imm 2, n := .imm 2, k := .imm 8 } 0
      (mmadKeep { okMmad with m := .imm 2, n := .imm 2, k := .imm 8 } 0 (mmadState 0))) (fun _ => true) = true ∧
    ((mmadAt 0).row 0).isSome = false ∧ startedOp (mmadState 0).job.mx.pipe = some (mmadAt 0) ∧
    answered (mmadFetch (keepRowVecs (keepRowVecs (mmadState 0) (mmadParty (mmadState 0) okMmad)
        (mmadSource (mmadAt 0) { okMmad with k := .imm 8 } okMmad.ha okMmad.af) false 0 2) (mmadParty (mmadState 0) okMmad)
        (mmadSource (mmadAt 0) { okMmad with k := .imm 8 } okMmad.hb okMmad.bf) false 0 2)
      { okMmad with m := .imm 2, n := .imm 2, k := .imm 8 } 0) (fun _ => true) = true ∧
    answered (elemAt (mmadState 0) (engParty (mmadState 0) .mx 0) (mmadAt 0) (opHandle (mmadAt 0) 2) { i0 := 1, i1 := 1, i2 := 0, i3 := 0 }) (· == some 9) = true ∧
    okMmad.acc = false := by decide +kernel

/-! ### Steps -/

/-- The word 0xE0000000 placed where the next step fetches it. -/
def nopBox : State := placeWord State.reset 0xE0000000

/-- The turn that it waits for. -/
def nopTurn : Turn := { dt := 0, delay := false, units := 0, act := .run 1 .ctl }

theorem test_meets_step : nopBox.agenda = nopTurn :: [] ∧ (focus 1 (turnStart nopBox nopTurn [])).job.darn = none ∧ (focus 1 (turnStart nopBox nopTurn [])).job.id = 1 ∧
    (focus 1 (turnStart nopBox nopTurn [])).job.resident = true ∧ (focus 1 (turnStart nopBox nopTurn [])).job.wait = .ready ∧
    (focus 1 (turnStart nopBox nopTurn [])).job.marker = none ∧ (focus 1 (turnStart nopBox nopTurn [])).job.pending = [] ∧
    answered (readChunks nopBox (ctlParty nopBox 0) .fetch (.va nopBox.job.pc) 4) (fun c => c.all fun x => !x.bad) = true ∧
    answered (readChunks { nopBox with hbmPoison := [(0x440, 1)] } (ctlParty nopBox 0) .fetch (.va nopBox.job.pc) 4) (fun c => c.any Chunk.bad) = true := by
  decide +kernel

theorem test_meets_invariant : Memory.wf nopBox = true ∧ stepped (step nopBox) (fun t => Memory.wf t) = true := by decide +kernel

/-- WIDE with its second word at the VX stream's PC. -/
def wideBox : State := { withHbm (vxBox id) 0x12000 (leBytes 4 0xC0350000 ++ leBytes 4 0x00012000) with agenda := [{ nopTurn with act := .run 1 (.eng .vx) }] }

theorem test_meets_engine_step : engineRuns wideBox.job .vx = true ∧ answered (patchAt wideBox (curStream wideBox).pc) (· == 0xC0350000) = true ∧
    answered (patchAt wideBox ((curStream wideBox).pc + 4)) (· == 0x00012000) = true ∧ isWide 0xC0350000 = true ∧ isWide 0x80300000 = false ∧
    (decodePatch 0xC0350000 (some 0)).raises = false := by decide +kernel

/-- A DARN that has done its sequences, and whose REC is not held: it completes. -/
def darnOver (op : Nat) (i : Instr) (d : Reg) : Bool :=
  answered (darnHeld0 op 0) fun r0 =>
    let r := { r0 with d, sdone := if op = 2 ∨ op = 4 then 0 else 2, result := 77
                       rcd := BitVec.ofNat 512 (leNat (fields [(0x21400, 8), (64, 4), (0, 2), (1, 1), (0, 1), (0x21500, 8), (0x21600, 8), (0x21700, 8), (0, 8)]))
                       desc := if op = 4 then BitVec.ofNat 512 (r0.desc.toNat - r0.nseq) else r0.desc }
    let s := withJob (darnBox 0) fun j => { j with darn := some r }
    r.pin == some (.hbm 0x20040) && !r.offs.isEmpty && (walk s 1 (r.recAddr + 48)).cause.isNone && !(walk s 1 (r.recAddr + 48)).entry.getLsbD 10 &&
      (r.nseq ≤ r.sdone || op == 2) && (r.period == 0) && (r.first == 0) && (r.first != r.nseq || op == 4) && (op != 2 || r.round == 0) && r.pins == 0 &&
      (op != 4 || r.npos == 0) && (watermarked s (ctlParty s r.cls) (.va (r.recAddr + 48)) none 8).isNone &&
      stepped (exec i s) fun t => t.job.darn.isNone && t.job.pc == 0x11004 && getX t d == (if op = 2 ∨ op = 4 then 0 else 77) &&
        getBytes t .hbm 0x20070 8 == List.replicate 8 0

theorem test_meets_darn_over : darnOver 0 (.darnRank 5 1) 5 = true ∧ darnOver 1 (.darnCommit 5 1) 5 = true ∧ darnOver 2 (.darnStain 5 1) 5 = true ∧
    darnOver 3 (.darnList 5 1) 5 = true ∧ darnOver 4 (.darnClear 5 1) 5 = true := by decide +kernel

/-- Records, blocks, collectives and operations whose units are done. -/
theorem test_meets_units_over : walkTotal okWalk ≤ { aChan with prog := 1 }.prog ∧ chunksBefore farHead okWalk (walkTotal okWalk) ≤ 1 ∧
    (∀ k, k < (2 : BitVec 16).toNat → 3 / 2 ^ k % 2 = 1) ∧ totalPatches (2 : BitVec 16).toNat ([((0x22000 : Word), 3, 2)].map fun x => { rows := x.1, w := x.2.1, h := x.2.2 }) ≤ 2 ∧
    (chanOf (walking box fun c => { c with prog := 2, table := some [(0x22000, 3, 2)] }) 0 1).map (fun c => (c.st, c.halt, c.prog)) =
      some (.walking, .going, 2) ∧
    blockAt { doneBox none with curIdx := 0 } 0 = some (doneBlock none) ∧ (running 2).count ≤ (running 2).prog ∧ (running 2).finishing = false ∧ (running 2).owed = [] ∧
    (lastPhase argnDesc none none).bar = none ∧ (slotBox { lastPhase argnDesc none none with phase := 3 }).outs = [] ∧
    linUnits (startedAt (vec 0) 8) { okLin with n := .imm 8 } ≤ 8 ∧ tileUnits (startedAt (vec 0) 8) { okTile with tc := .imm 8 } ≤
      tileFirst { okTile with tc := .imm 8 } (startedAt (vec 0) 8) 8 ∧
    lsCheck .ld (opBox .ld (vec 0) 8).job (startedAt (vec 0) 8) (.ldv { okLin with n := .imm 8 }) = none ∧
    lsCheck .ld (opBox .ld (vec 0) 8).job (startedAt (vec 0) 8) (.ldt { okTile with tc := .imm 8 }) = none ∧
    lsCheck .ld (opBox .ld (here 0) 1).job (startedAt (here 0) 1) (.ldg okIdx) = none ∧
    lsCheck .st (opBox .st mxRow 0).job (startedAt mxRow 0) (.stq { okTile with tc := .imm 0 }) = none ∧
    lsCheck .st (opBox .st (vec 0) 1).job (startedAt (vec 0) 1) (.sta okIdx) = none ∧
    mxCheck (mxBox aRows 32 (aBank .bf16 8)).job (startedAt aRows 32) (.mma { okMma with m := .imm 2 }) = none ∧
    mxCheck (mxBox aRows 0 Bank.empty).job (startedAt aRows 0) (.mlb { okMlb with n := .imm 0 }) = none := by decide +kernel

/-- A loop over its end, as the statement says: LDV, STA and MMA after their last unit complete. -/
theorem test_units_over :
    stepped (exec (.ldv { okLin with n := .imm 8 }) (opBox .ld (vec 0) 8)) (· == completeOp (opBox .ld (vec 0) 8) .ld 0) = true ∧
    stepped (exec (.sta okIdx) (opBox .st (vec 0) 1)) (· == completeOp (opBox .st (vec 0) 1) .st 0) = true ∧
    stepped (exec (.mma { okMma with m := .imm 2 }) (mxBox aRows 32 (aBank .bf16 8))) (· == completeOp (mxBox aRows 32 (aBank .bf16 8)) .mx 0) = true := by
  decide +kernel

theorem test_meets_performs : ((opBox .vx 0 0).job.eng .vx).holds = false ∧ unitFree (opBox .vx 0 0) (opBox .vx 0 0).job .vx = true ∧
    chosen (opBox .vx 0 0) (opBox .vx 0 0).job .vx = true ∧ startedOp ((opBox .vx 0 0).job.eng .vx).pipe ≠ none ∧ ((opBox .vx 0 0).job.eng .vx).opHalt = .going ∧
    inWindow (opBox .mx 0 0) (opBox .mx 0 0).job = true ∧ decodePattern .vx (patOf (.vadd okV)) = some (.vadd okV) ∧
    chanOf (walking box id) 0 1 ≠ none ∧ (decodeRecord copyRec).isSome = true ∧ blockAt (rows 0) 0 = some (running 0) ∧ (decodeBlock gthBlock).isSome = true ∧
    (slotBox (lastPhase argnDesc none none)).slots[0]? = some (lastPhase argnDesc none none) ∧ (decodeDesc argnDesc).isSome = true := by decide +kernel

theorem test_meets_round_trips : encode (.addi 5 6 (-3)) = some (.control 0x04537FFD) ∧ (Instr.addi 5 6 (-3)).wf = true ∧
    (encode .stop).map Code.kind = some .word ∧ (encode (.vadd okV)).map Code.kind = some .pattern ∧ (encode (.sig okHead 1)).map Code.kind = some .record ∧
    (Instr.sig okHead 1).wf = true ∧ ((0x56 : Nat) < 0x58) ∧ (0x96000001 : Word32).extractLsb' 25 7 = 0x4B := by decide +kernel
/-! ### Values that the spec works out (02_numbers.md R28, R33, 05_control_core.md R114, 08_vector.md R199, R201) -/

/-- A conversion from FP32 in RNE with S clear, of E4M3, E5M2 and BF16. -/
def cvt3 (v : Nat) : List (Nat × Flags) := [.e4m3, .e5m2, .bf16].map fun f => convert .fp32 f .rne false 0 v

theorem test_value_convert_one : cvt3 0x3F800000 = [(0x38, 0), (0x3C, 0), (0x3F80, 0)] := by decide +kernel

theorem test_value_convert_saturates : cvt3 0x43FA0000 = [(0x7E, flOF ||| flSAT ||| flNX), (0x60, flNX), (0x43FA, 0)] := by decide +kernel

theorem test_value_convert_rounds : cvt3 0xBE99999A = [(0xAA, flNX), (0xB5, flNX), (0xBE9A, flNX)] := by decide +kernel

theorem test_value_convert_ties : cvt3 0x3A800000 = [(0x00, flUF ||| flNX), (0x14, 0), (0x3A80, 0)] := by decide +kernel

theorem test_value_array_sum_keeps :
    (kStep false 0x3F800000 [(.fin false 1 (-12), .fin false 1 (-12)), (.fin false 1 (-12), .fin false 1 (-12))]).1 = 0x3F800001 := by decide +kernel

theorem test_value_array_sum_truncates :
    (kStep false 0x49800000 [(.fin false 1 20, .fin true 1 0), (.fin false 3 (-17), .fin false 1 (-15))]).1 = 0 := by decide +kernel

theorem test_value_gumbel : (gumbel 0x80000000).1 = 0x80000000 := by decide +kernel

theorem test_value_prune_groups : keepOf 2 4 (fun i => numOf .fp32 ([0x40000000, 0xC0400000, 0x40000000, 0x3F000000].getD i 0)) = [0, 1] := by
  decide +kernel

theorem test_value_lsh : stepped (exec (.lsh 5 0xBCDEF) (withX box 5 0x000000123456789A)) (fun t => getX t 5 == 0x0123456789ABCDEF) = true := by
  decide +kernel

/-- R51, R214, R216: reserved codes are refused: a register slot with code 11 and a bit set, mask code 3, fill bits without fill 3. -/
theorem test_reserved_codes : RegSlot.ofCode 0x4020 = none ∧ RegSlot.ofCode 0xC020 = none ∧ RegSlot.ofCode 0xF000 = none ∧
    MaskMode.ofCode 3 = none ∧ Fill.ofCode 0 1 = none ∧ Fill.ofCode 2 1 = none := by decide

/-- R64: MMAD with the C format E2M1S is absent in version 1. -/
theorem test_absent_format : translatePattern 1 .mx 0x08000000000050000001000100010000 = none := by decide +kernel

/-! ### Premises of the clauses on accesses that stop, on clocks, and on what a unit moves -/

/-- The test of a stop. -/
def stops {α : Type} (x : Except Stop α) : Bool := match x with | .ok _ => false | .error _ => true

/-- A response that says that the line was poisoned. -/
def refusing (s : State) : State := { s with rbuf := s.rbuf.map fun r => { r with resp := { r.resp with status := 1 } } }

/-- A store to the page table entry that maps it waits, which will unmap it. -/
def unmapping : State := withX (withJob box fun j => { j with stores := [.store 0 .hbm 0x3000 none (List.replicate 8 0)] }) 1 0x3000

theorem test_meets_access_stops : stops (readChunk box (ctlParty box 0) .read (.va 0x40000000) 8) = true ∧
    stops (locate box (ctlParty box 0) .write (.va 0x40000000) 8) = true ∧ stops (locate box (ctlParty box 0) .atomic (.va 0x40000000) 8) = true ∧
    answered (locate unmapping (ctlParty unmapping 0) .write (.va 0x3000) 8) (fun x =>
      stops (locate (drainFor unmapping 0 (spotOf unmapping x) 8) (ctlParty unmapping 0) .write (.va 0x3000) 8)) = true ∧
    answered (locate unmapping (ctlParty unmapping 0) .atomic (.va 0x3000) 8) (fun x =>
      stops (locate (drainFor unmapping 0 (spotOf unmapping x) 8) (ctlParty unmapping 0) .atomic (.va 0x3000) 8)) = true ∧
    stops (answerTo (refusing farStore) (ctlParty farStore 0) (request farStore (ctlParty farStore 0) (.store (List.replicate 8 0) false) 1 false 0 8 .trap)
      0x40000000 0x40000000) = true ∧
    stops (answerTo (refusing farAmo) (ctlParty farAmo 0) (request farAmo (ctlParty farAmo 0) (.amo 1 0) 1 false 0 8 .trap) 0x40000000 0x40000000) = true := by
  decide +kernel

/-- The full queues of a waiting PUSH. -/
theorem test_meets_push_waits : maskHas { ld := false, mx := true, vx := true, st := false } .mx = true ∧
    64 ≤ ((withJob box fun j => { j with mx := { j.mx with queue := fullQueue } }).job.eng .mx).queue.length := by decide +kernel

/-- A barrier to which this clock has brought an arrival already, and one that an expectation has brought to zero. -/
def clocked (was : Option (BarCounts × List BarEvent)) (clock : Nat) : State :=
  { oneBar with barriers := [(.core 0 3, { Barrier.zero with active := true, init := 2, arrive := 0, was })], clock }

theorem test_meets_clock : barTakes oneBar (.core 0 3) ∧ (1 : Nat) ≤ (barOf oneBar (.core 0 3)).start.arrive.toNat ∧
    (barOf oneBar (.core 0 3)).start.arrive.toNat < 3 ∧ (barOf box (.core 0 3)).active = false ∧
    (withJob oneBar fun j => { j with wait := .passed }).job.wait = .passed ∧ ((vxBox fun x => { x with wait := .passed }).job.eng .vx).wait = .passed ∧
    (barOf (clocked none 255) (.core 0 3)).was = none ∧ (barOf (clocked none 255) (.core 0 3)).active = true ∧
    suspendedOwner (clocked none 255) (.core 0 3) = none ∧ (clocked none 255).bootStep = 7 ∧ (clocked none 255).clock % 256 = 255 ∧
    (barOf (clocked (some ({ arrive := 1, bytes := 0, phase := false, touched := false }, [])) 255) (.core 0 3)).was ≠ none ∧
    (∃ j ∈ jobsOn (withJob (clocked none 255) fun j => { j with altArray := true }) 0, j.altArray = true) := by
  refine ⟨⟨by decide +kernel, by decide +kernel, by decide +kernel⟩, ?_⟩
  decide +kernel

/-- A record with a range of 64 bytes from 0x20000 on runs on c0, of which 16 have passed. -/
def ranged (run : Bool) (spad : Bool) : State :=
  { putChan box { newChan box 0 0 .walking 0 with job := 1, wmEnd := if spad then 0x400040 else 0x20040, wmRun := run, wmSpad := spad } with
    wmarks := [(0, if spad then 0x400010 else 0x20010)] }

theorem test_meets_cwait : ((ranged true false).chans.find? fun c => c.job == 1 && c.n == 0).map (fun c => (c.wmRun, c.wmSpad, c.wmEnd.toNat)) = some (true, false, 0x20040) ∧
    (sget (ranged true false).wmarks 0).toNat ≤ 0x20010 ∧ 0x2000F < (sget (ranged true false).wmarks 0).toNat ∧ 0x20010 < (0x20040 : Nat) ∧
    ((ranged false false).chans.find? fun c => c.job == 1 && c.n == 0).map (fun c => c.wmRun) = some false ∧
    inAperture 0x1FFFFFFFF400010 = true ∧ (0x1FFFFFFFF400010 : Word).toNat % 2 ^ 24 = 0x400010 ∧
    (∀ c ∈ box.chans, ¬(c.job = 1 ∧ c.n = 0)) := by decide +kernel

/-- The lines of the source and the destination of a record, each in one run. -/
theorem test_meets_runs : runAt (walking box id) aParty .read (.va 0x20000) 4 .hbm 0x20000 ∧ runAt (walking box id) aParty .write (.va 0x20000) 4 .hbm 0x20000 ∧
    runAt (walking box id) aParty .atomic (.va 0x20000) 4 .hbm 0x20000 ∧ ∀ k, k < 4 → lineBad (walking box id) .hbm (0x20000 + k) = false := by
  have one : ∀ acc, locate (walking box id) aParty acc (.va 0x20000) 4 = .ok (.here .hbm 0x20000 .trap, none) →
      runAt (walking box id) aParty acc (.va 0x20000) 4 .hbm 0x20000 := fun acc h =>
    ⟨trivial, fun q hq => by
      obtain rfl : q = (0, 4) := by simpa using show q ∈ [(0, 4)] from hq
      exact ⟨.trap, none, h, fun j o h => nomatch h⟩⟩
  exact ⟨one _ (by rfl), one _ (by rfl), one _ (by rfl), by decide +kernel⟩

/-- RED on a line of the device, clean and poisoned, at another device, and nowhere. -/
theorem test_meets_red_target : answered (locate (walking box id) aParty .atomic (dstLoc (walking box id) aChan farHead 0) 4)
      (· == (.here .hbm 0x30000 .trap, none)) = true ∧
    lineBad (walking box id) (readPlace (walking box id) .hbm 0x30000 none).1 (readPlace (walking box id) .hbm 0x30000 none).2 = false ∧
    lineBad { walking box id with hbmPoison := [(0xC00, 1)] } .hbm 0x30000 = true ∧ farHead.poison = .trap ∧
    stops (locate (walking box id) aParty .atomic (.va 0x40000000) 4) = true ∧
    (let s := { walking (farBox (.chan 0 1) (.reduce .add .int32 .rne false (List.replicate 4 1) false) 4) id with curChan := 1 }
     let p := chanParty s (newChan s 0 1 .walking 0x20000) 0
     answered (locate s p .atomic (.va 0x40000000) 4) (· == (.remote 1 false 0 .trap, none)) &&
       answered (answerTo s p (request s p (.reduce .add .int32 .rne false (List.replicate 4 1) false) 1 false 0 4 .trap) (Loc.va 0x40000000).word (Loc.va 0x40000000).line)
         fun v => v.result == 9) = true := by
  decide +kernel
theorem test_meets_red_fits : Space.fits (writeTarget box .hbm 0x30000 none).2.1 (writeTarget box .hbm 0x30000 none).2.2 4 := trivial

/-- PGT behind the write of off[0]: the first patch of one image, row by row. -/
def patching : State := imageBox
def subChan : Chan := { patchChan with sub := 1 }
def patched : State := passMark (putChan imageBox subChan) subChan 0x30000

theorem test_meets_patch : (subChan.prog ≠ 0 ∨ subChan.sub ≠ 0) ∧ answered (tableOf imageBox subChan farHead 1) (· == [{ rows := 0x22000, w := 3, h := 2 }]) = true ∧
    answered (writeBytes (walking box id) aParty (.va 0x24000) (leBytes 4 0)) (fun _ => true) = true ∧
    0 < Img.patches { rows := 0x22000, w := 3, h := 2 } 2 ∧ 0 + 1 ≠ Img.patches { rows := 0x22000, w := 3, h := 2 } 2 ∧
    answered (rowPtrs patched subChan aParty { rows := 0x22000, w := 3, h := 2 } 0) (· == [0x23000, 0x23010]) = true ∧
    answered (readLines patched aParty (.va 0x23000) 2 .trap) (fun r => r.1.length == 2) = true ∧
    answered (readLines patched aParty (.va 0x23010) 2 .trap) (fun r => r.1.length == 2) = true ∧
    answered (writeMarked patched aParty (dstLoc patched subChan farHead 0) (marksFor .trap (List.replicate 4 (0, false)))) (fun _ => true) = true ∧
    answered (writeBytes patched aParty (.va 0x24004) (leBytes 4 2)) (fun _ => true) = true := by decide +kernel

/-- A row of each index operation read and written whole; a row that meets poison; a kept row whose stain bit is to be set. -/
theorem test_meets_row_bytes : answered (readLines (rows 0) rowParty (tableLoc (rows 0) gthHead 7) 4 .trap) (fun r => r.1.length == 4 && r.2 == 0) = true ∧
    answered (readLines (rows 0) rowParty (dataLoc (rows 0) gthHead 0) 4 .trap) (fun r => r.1.length == 4 && r.2 == 0) = true ∧
    answered (writeMarked (rows 0) rowParty (dataLoc (rows 0) gthHead 0) (List.replicate 4 (1, false))) (fun _ => true) = true ∧
    answered (readLines { rows 0 with hbmPoison := [(0x1000, 1)] } rowParty (tableLoc (rows 0) gthHead 7) 4 .zero) (fun r => r.2 != 0) = true ∧
    (tableLoc (rows 0) gthHead 7).low % 4 = 0 ∧ (tableLoc (rows 0) gthHead 7).low + 4 ≤ 64 ∧ { running 1 with moved := true }.moved = true ∧ (running 1).moved = false ∧
    answered (locate (rows 1) rowParty .atomic (blockLoc (rows 1) (running 1) 0x44000 (1 / 8)) 1) (· == (.here .hbm 0x44000 .trap, none)) = true := by
  decide +kernel

/-- The sequences of a LIST whose plane holds bit 2, without and with LCLR, from the first and from the second sequence on. -/
def listing (done : Nat) (lclr : Bool) : Bool :=
  answered (darnHeld0 3 0) fun r0 =>
    let r := { r0 with sdone := done, rcd := if lclr then r0.rcd ||| BitVec.ofNat 512 (2 ^ 455) else r0.rcd }
    let s := withHbm (darnBox 0) (r.plane r.gsel) [0x24]
    answered (bitsIn s (ctlParty s r.cls) (r.plane r.gsel) (r.lo r.sdone) (r.hi r.sdone)) (fun l => l == (if done = 0 then [2] else [5])) &&
      answered (darnRead s (ctlParty s r.cls) (r.loff + 4 * r.sdone) 4) (fun _ => true) &&
      (match darnSeq (ctlParty s r.cls) r s with | .ok (r', _) => r'.sdone == done + 1 && r.lclr == lclr | .error _ => false)

theorem test_meets_darn_list : listing 0 false = true ∧ listing 1 false = true ∧ listing 0 true = true := by decide +kernel

/-- STAIN of the positions in CAND, which its turn does whole, and what a turn of SPECB finds behind the pending stores. -/
theorem test_meets_darn_stain : answered (darnHeld0 2 0) (fun r => r.op == 2 &&
      answered (darnRead (darnBox 0) (ctlParty (darnBox 0) r.cls) r.cand (4 * r.round)) fun b => ((cut 4 b).map leNat).all (· < r.npos)) = true ∧
    answered (darnHeld0 4 0) (fun r => r.op == 4) = true ∧
    answered (readExact (settleInto (pairBox false false) 1) (ctlParty (pairBox false false) 0) .read (.off 0x10000 1) 16) (fun b =>
      (settleInto (pairBox false false) 1).job.mayBind 0 (pairRec b)) = true := by decide +kernel

/-- A LOOP inside four frames or without an ENDL in its section, PRED inside a loop of two stages and outside any. -/
theorem test_meets_loop_traps : 4 ≤ (loopBox fun x => { x with frames := [aFrame, aFrame, aFrame, aFrame] }).job.vx.frames.length ∧
    answered (matchEndl (vxBox id) 0x12008 2 0x12004 1) (· == none) = true ∧ (vxBox id).job.vx.frames = [] ∧
    ∃ f r, (vxBox fun x => { x with frames := [{ aFrame with s := 2 }] }).job.vx.frames = f :: r ∧ f.s ≤ 2 :=
  ⟨by decide +kernel, by decide +kernel, by decide +kernel, _, _, rfl, Nat.le_refl _⟩

/-- What a waiting stream gives up, stops of one clock in their order, and fenced engines. -/
theorem test_meets_trap_order : (withJob (handled id) fun j => { j with wait := .enqueueing }).job.wait.waiting = true ∧ (handled id).job.st ≠ .draining ∧
    [vxTrap, { vxTrap with word := true }].Pairwise (fun a b : Trap => a.clock < b.clock ∨ (a.clock = b.clock ∧
      (a.stream.toNat < b.stream.toNat ∨ (a.stream = b.stream ∧ ((a.word = false ∧ b.word = true) ∨ (a.word = b.word ∧ a.age ≤ b.age)))))) ∧
    (∀ a ∈ [vxTrap], a.clock ≤ vxTrap.clock) ∧
    ((handled fun j => { j with tword := true, vx := { j.vx with halt := .trapped, opHalt := .trapped } }).job.eng .vx).halt = .trapped ∧
    ((handled fun j => { j with vx := { j.vx with opHalt := .trapped } }).job.eng .vx).fenced = true ∧
    ((withJob (vxBox fun x => { x with halt := .trapped, pipe := [.started (anOp 0)] }) id).job.eng .vx).fenced = false := by
  refine ⟨by decide +kernel, by decide +kernel, ?_, ?_⟩
  · simp [vxTrap]
  · decide +kernel

/-- The record of a launch with a region of one bank, its place, and the device with that bank and another one gated. -/
def bankRec : Nat := launchRec 1 0 0 + 0x40000 * 2 ^ 288
def bankSeat : Seat := { aSeat with spbase := 0x7C0000 }
def sleeping : State := { { waitingBox with launches := [{ aLaunch bankRec with id := 7, time := 7 }] } with gated := [(1, 31), (2, 0)] }

theorem test_meets_waking : (nextPlaced sleeping).map Launch.id = some 7 ∧ seatsOk sleeping (demandOf (BitVec.ofNat 2048 bankRec)) [] [bankSeat] = true ∧
    (seatRegions (aLaunch bankRec) [bankSeat]).any (fun r => !regionAwake sleeping r.1 r.2.1 r.2.2 && (regionBanks r.2.1 r.2.2 == [31])) = true ∧
    (seatRegions (aLaunch (launchRec 1 0 0)) [aSeat]).all (fun r => regionAwake waitingBox r.1 r.2.1 r.2.2) = true := by decide +kernel

/-- A launch over TILEs, whose job 0 has an argument of its own, and one that is none. -/
theorem test_meets_tile_argument : levSel (BitVec.ofNat 2048 (2 * 2 ^ 784)) 0 = 2 ∧ levSel (BitVec.ofNat 2048 (launchRec 1 0 0)) 0 ≠ 2 := by decide +kernel

/-- A launch over with a status, an arrival and a flag (CACT 3), whose writes succeed one behind another. -/
def endBox : State :=
  { oneBar with launches := [{ aLaunch (launchRec 1 0x30000 0 + 3 * 2 ^ 656 + 0x31000 * 2 ^ 512 + 5 * 2 ^ 576) with
                                 id := 7, placed := true, started := true, retired := 1, csync := some (.core 0 3) }] }

theorem test_meets_launch_ends : (findLaunch endBox 7).map (fun l => ((l.raw.extractLsb' 656 8).toNat / 2, l.raw.extractLsb' 704 64, l.csync)) =
      some (1, 0x30000, some (.core 0 3)) ∧
    answered (writeBytes endBox (hubParty 1 (.launch 7)) (.va 0x30000) (leBytes 4 1 ++ leBytes 4 0 ++ leBytes 2 0 ++ leBytes 6 0)) (fun u =>
      match barEvent u (.core 0 3) (.arrive 1) with
      | some y => !hubWaiting (barPaid y (.core 0 3)) (hubParty 1 (.launch 7)) && (barOf u (.core 0 3)).start.arrive.toNat == 2 &&
          answered (writeBytes (barPaid y (.core 0 3)) (hubParty 1 (.launch 7)) (.va 0x31000) (leBytes 8 5)) (fun w => getByte w .hbm 0x31000 == 5)
      | none => false) = true ∧ barTakes endBox (.core 0 3) ∧ (∀ n, (aLaunch 0).source ≠ .graph n) := by
  refine ⟨by decide +kernel, by decide +kernel, ⟨?_, ?_, ?_⟩, fun n h => nomatch h⟩ <;> decide +kernel

/-- A page of 64 KiB at HBM 0x20000 moves; a store of device 1 into it, and one that is kept already. -/
def movingBox (kept : List Request) : State :=
  { peerBox 0x30000 with works := [{ queue := 0, stamp := 1, asid := 1, lo := 0, hi := 0, toDdr := true, pa := 0, step := 1, inv := 1, entry := 0x2001F, size := 65536 }]
                         heldReqs := kept }
def aStore (seq : BitVec 32) : Request := { aReq (.store [7, 7, 7, 7, 7, 7, 7, 7] false) false 0 0x20000 with seq }

theorem test_meets_held : (∃ w ∈ (movingBox []).works, w.moves (aStore 1) = true) ∧ Machine.admitted (movingBox []) (aStore 1) = true ∧
    (∃ h ∈ (movingBox [aStore 1]).heldReqs, h.src = (aStore 2).src ∧ h.party = (aStore 2).party ∧ h.cls = (aStore 2).cls) ∧
    (∀ h ∈ (movingBox [aStore 1]).heldReqs, ¬(h.src = (aStore 2).src ∧ h.seq = (aStore 2).seq)) ∧
    ({ movingBox [aStore 1] with works := [] } : State).heldReqs[0]? = some (aStore 1) ∧ (aStore 1).op = .store [7, 7, 7, 7, 7, 7, 7, 7] false ∧
    freshRequest { movingBox [aStore 1] with works := [] } (aStore 1) :=
  ⟨⟨_, List.mem_cons_self, by decide +kernel⟩, by decide +kernel, ⟨_, List.mem_cons_self, by decide +kernel⟩, by decide +kernel, rfl, rfl,
    rfl, (fun d h => nomatch (show d ∈ ([] : List (BitVec 32 × Response)) from h)), rfl, by decide⟩

/-- A replay that is asked for, one of a flit sent again eight times, and of another; a request that was a launch message, and one of its own. -/
theorem test_meets_replays : (linkOf (linkBox (aLink true 7)) 0).ask = true ∧ (linkOf (linkBox (aLink false 8)) 0).ask = false ∧
    8 ≤ (if (aLink true 0).again.1 = 7 then (aLink true 0).again.2 else 0) ∧ (if (aLink true 0).again.1 = 6 then (aLink true 0).again.2 else 0) = 0 ∧
    connected { box with cols := 1, goodPorts := [0] } 0 = true ∧ (0 : Nat) ∈ ({ box with goodPorts := [0] } : State).goodPorts ∧ box.powerState ≠ 3 ∧
    (0 : Nat) ∉ box.goodPorts ∧ ({ box with powerState := 3 } : State).powerState = 3 ∧
    (trySend (outBox 39 75000) [] (ourReq 39)).map (fun x => (x.2.ackb, x.2.epoch)) = some (4095, 0) ∧
    { ourReq 40 with unit := .launch 7 }.unit = .launch 7 := by decide +kernel

/-- A ring with an entry that it has not signalled, and the registers that make it signal one. -/
theorem test_meets_ring_registers : ({ ringAt 1 with unsig := 1, vec := 0x8000 &&& 0x87FF } : HRing).vec.getLsbD 15 = true ∧
    (({ ringAt 1 with unsig := 1, coal := 1 &&& 0xFFFF07FF } : HRing).coal.extractLsb' 0 11).toNat ≤ 1 ∧
    ¬((({ ringAt 1 with unsig := 1, coal := 2 &&& 0xFFFF07FF } : HRing).coal.extractLsb' 0 11).toNat ≤ 1) := by decide +kernel

/-- Context 1 with a quota of two GiB of DDR-5, or of none, and of HBM. -/
def rich (q : Nat) (s : State) : State :=
  { s with contexts := [{ placeContext with args := { placeContext.args with quotaHbm := q, quotaDdr := q } }] }

/-- The command writes an entry for a GiB at 0x8000_0000 into the slot of that page. -/
def newPte : Word := 0x8000001F
theorem test_meets_quota : (rich (2 ^ 33) migBox).contexts.map (fun x => (x.quota true, mappedBytes migBox x true, mappedBytes migBox x false)) = [(2 ^ 33, 0, 2 ^ 31)] ∧
    (rich 0 migBox).contexts.map (fun x => decide (x.quota true < mappedBytes migBox x true + 2 ^ 30)) = [true] ∧
    mappedBytes (writePte migBox 1 false 0x3010 newPte) placeContext false = 3 * 2 ^ 30 ∧ placeContext.quota false < 3 * 2 ^ 30 ∧
    mappedBytes migBox placeContext false < 3 * 2 ^ 30 ∧ (∀ e ∈ [(false, 0x3010, newPte)], e.2.1 % 8 = 0 ∧ e.2.1 + 8 ≤ tierBytes box e.1) := by decide +kernel

theorem test_meets_none_ahead (k : Nat) : anyAhead (rich (2 ^ 33) migBox) 1 k = false := rfl

/-- An invalidation and a migration that wait, and a command that Dvorol no longer carries out. -/
theorem test_meets_waiting_work : ({ box with works := [aWork] } : State).curCmd = none ∧ aWork.step = 0 ∧ { aWork with step := 1 }.step ≠ 0 ∧
    anyAhead (withJob { box with works := [aWork] } fun j => { j with marker := some 1 }) 1 1 = true ∧ anyAhead { box with works := [aWork] } 1 1 = false ∧
    { withJob box fun j => { j with marker := some 3 } with invs := 3 }.job.marker = some 3 ∧ (∀ m, some 3 = some m → m ≤ 3 + 1) := by
  refine ⟨rfl, rfl, by decide, by decide +kernel, by decide +kernel, rfl, by simp⟩

/-- Commands of every kind (log entry 8), LINK of a peer entry with a reserved bit and of a port, POWER to the state that gates. -/
theorem test_meets_command_end : (cmdBox 10 box).cmds.find? (fun d => d.queue == 0 && d.stamp == 1) = some (aCmd 10) ∧
    (peerEntry 8 ||| 2 ^ 14).extractLsb' 14 2 ≠ (0 : BitVec 2) ∧ (peerEntry 8 ||| 2 ^ 40).extractLsb' 32 32 ≠ (0 : BitVec 32) ∧
    (peerEntry 8 ||| 2 ^ 64).extractLsb' 64 16 ≠ (0 : BitVec 16) ∧ (peerEntry 8).extractLsb' 128 16 ≠ (0 : BitVec 16) ∧
    (peerEntry 8 ||| 2 ^ 200).extractLsb' 192 64 ≠ (0 : BitVec 64) := by decide +kernel

/-- Core 1 holds no job; bank 31 of core 0 lies in the region of one. -/
theorem test_meets_unused : (1 < 288 ∧ (0 : Nat) < 32 ∧ (1, 0) ∉ box.gated ∧ (∀ w ∈ box.waking, ¬(w.1 = 1 ∧ w.2.1 = 0)) ∧
      ∀ j ∈ jobsOn box 1, (0 + 1) * 262144 ≤ j.spbase.toNat ∨ j.splim.toNat ≤ 0 * 262144) ∧
    ∃ j ∈ jobsOn box 0, ¬((31 + 1) * 262144 ≤ j.spbase.toNat ∨ j.splim.toNat ≤ 31 * 262144) := by
  refine ⟨by decide +kernel, box.job, by decide +kernel, by decide +kernel⟩

/-- A region of two lines is folded in, n lines in a turn. -/
def foldingBox (n : Nat) : State :=
  { withJob suspendedBox fun j => { j with st := .folding, splim := 128, basket := some { Basket.fresh with laid := true } } with units := n }

/-- Jobs with numbers of their own; the place of a suspended group, awake and asleep; a group that folds in part, and whole. -/
theorem test_meets_resume_turns : ((twoJobs.job :: twoJobs.jobs).map Job.id).Nodup ∧
    (∀ q ∈ (inOrder suspendedBox 1).zip [newSeat], regionAwake suspendedBox q.2.core q.1.spbase.toNat q.1.splim.toNat = true) ∧
    (∃ q ∈ (inOrder suspendedBox 1).zip [newSeat], regionAwake { suspendedBox with waking := [(1, 0, 9)] } q.2.core q.1.spbase.toNat 64 = false) ∧
    (findLaunch suspendedBox 1).map Launch.resumeCmd = some none ∧ suspendedBox.curCmd = none ∧
    (let t := (inOrder (foldingBox 1) 1).foldl (fun s j => foldSome s j.id) (foldingBox 1)
     (gangOf t 1).any (fun j => !j.folded)) = true ∧
    (let t := (inOrder (foldingBox 2) 1).foldl (fun s j => foldSome s j.id) (foldingBox 2)
     (gangOf t 1).all Job.folded && (findLaunch t 1).map Launch.resumeCmd == some none) = true ∧
    (cmdBox 6 suspendedBox).curCmd ≠ (aLaunch 0).resumeCmd := by
  decide +kernel

/-- A port whose partner says what it should, and one whose partner does not; a bring-up that fails at step 1 and at step 2. -/
def eastPort (col : Fin 16) : PortIn := { port := 0, row := 0, col, rows := 1, cols := 2 }

theorem test_meets_ports : (connected { box with rows := 1, cols := 2 } (eastPort 1).port = true ∧ devAt 0 1 = portPeer { box with rows := 1, cols := 2 } 0) ∧
    devAt 0 2 ≠ portPeer { box with rows := 1, cols := 2 } 0 ∧ (if 1 = 0 ∨ 7 < 1 then 7 else 1 - 1) < 2 ∧ (if 7 = 0 ∨ 7 < 7 then 7 else 7 - 1) = 6 := by decide +kernel

/-- An element at an address that is not mapped: loads, stores and STA stop there; raw blocks, LDZ and STQ at one. -/
def lostRow (flags fmt : Nat) : Layout := hnd 0 flags fmt 2 0x40000000 0 0x22000 [32, 1] [1, 32] 0
def lostAt (e : Engine) (h : Layout) : State := opBox e h 0

theorem test_meets_ld_stops : stops (loadElem (lostAt .ld lost) (engParty (lostAt .ld lost) .ld 0) (curOp (lostAt .ld lost).job .ld) (opHandle (startedAt lost 0) 0) .fp32 .rne false false 0) = true ∧
    answered (blockElem (lostAt .ld (lostRow 0 5)) (engParty (lostAt .ld (lostRow 0 5)) .ld 0) (startedAt (lostRow 0 5) 0) { okTile with tc := .imm 32, fr := .e2m1s }
      (opHandle (startedAt (lostRow 0 5) 0) 0) 0) Option.isSome = true ∧
    stops (readData (lostAt .ld (lostRow 0 5)) (engParty (lostAt .ld (lostRow 0 5)) .ld 0) (.va 0x40000000) 18 none) = true ∧
    stops (locate (lostAt .ld lost) (engParty (lostAt .ld lost) .ld 0) .read (.va 0x40000000) 1024) = true ∧
    stops (readExact { lostAt .ld (here 0) with spadPoison := [(2, 1)] } (engParty (lostAt .ld (here 0)) .ld 0) .read (.off 0 1) 1024) = true ∧
    (lsInfo { startedAt (vec 0) 8 with vals := [1, 2] } (.ldb { okLin with n := .imm 2 } (.imm 8))).isSome = true := by decide +kernel

theorem test_meets_st_stops : stops (writeBytes (lostAt .st lost) (engParty (lostAt .st lost) .st 0) (.va 0x40000000) (leBytes 4 5)) = true ∧
    stops (locate (lostAt .st lost) (engParty (lostAt .st lost) .st 0) .atomic (.va 0x40000000) 4) = true ∧
    stops (elemBits { opBox .st (vec 0) 0 with hbmPoison := [(0x800, 1)] } (engParty (opBox .st (vec 0) 0) .st 0) (opHandle (startedAt (vec 0) 0) 0) 0) = true ∧
    stops (writeBytes (lostAt .st (lostRow 8 13)) (engParty (lostAt .st (lostRow 8 13)) .st 0) (.va 0x40000000) (List.replicate 32 0)) = true ∧
    stops (writeBytes (lostAt .st mxRow) (engParty (lostAt .st mxRow) .st 0) (hndLoc (opHandle (startedAt mxRow 0) 0) 1 (scaleAddr (opHandle (startedAt mxRow 0) 0) 0)) [0]) = false ∧
    stops (answerTo (refusing farSum) (engParty farSum .st 0)
      (request farSum (engParty farSum .st 0) (.scatterAdd .fp32 .fp32 .rne false 0x3F800000) 1 false 0 4 .trap) 0x40000000 0x40000000) = true := by decide +kernel

/-- INT4: both nibbles of a byte in one operation, next to one another and three units apart (columns that alias), a nibble alone, and one that its
partner has written already. -/
def nibbles (h : Layout) (i : Instr) (u k : Nat) : Bool :=
  let s := opBox .st h u
  let at' : Nat → Int := fun k => match stElem i k s (startedAt h u) with | .ok (some e) => e | _ => -1
  u < k && at' k == (if at' u % 2 = 0 then at' u + 1 else at' u - 1) && (List.range (k - u - 1)).all fun m => at' (u + 1 + m) != at' k

theorem test_meets_nibbles : nibbles (vec 10) (.stv { okLin with n := .imm 8 }) 0 1 = true ∧
    nibbles (hnd 0 0 10 2 0x20000 0 0 [4, 2] [1, 5] 0) (.stt { okTile with tc := .imm 4, tr := .imm 2 }) 0 1 = true ∧
    nibbles (hnd 0 0 10 2 0x20000 0 0 [3, 2] [1, 3] 0) (.stt { okTile with tc := .imm 3, tr := .imm 2 }) 2 3 = true ∧
    nibbles (hnd 0 0 10 2 0x20000 0 0 [2, 2] [2, 1] 0) (.stt { okTile with tc := .imm 2, tr := .imm 2 }) 0 2 = true ∧
    (1 : Nat) ∈ { startedAt (vec 10) 1 with whole := [1] }.whole ∧ (0 : Nat) ∉ (startedAt (vec 10) 0).whole ∧
    stops (putNibble (lostAt .st lost) (engParty (lostAt .st lost) .st 0) (opHandle (startedAt (hnd 0 0 10 1 0x40000000 0 0 [8] [1] 0) 0) 0) 0x40000000 1 9) = true := by
  decide +kernel

/-- MMAD that adds to C. -/
theorem test_meets_mmad_sum : mxMeets (mmadState 0) (.mmad { okMmad with m := .imm 2, n := .imm 2, k := .imm 8, acc := true }) = true ∧ { okMmad with acc := true }.acc = true ∧
    answered (mmadRow (mmadAt 0) { okMmad with m := .imm 2, n := .imm 2, k := .imm 8, acc := true } 0
      (mmadKeep { okMmad with m := .imm 2, n := .imm 2, k := .imm 8, acc := true } 0 (mmadState 0))) (fun _ => true) = true := by decide +kernel

/-! ### Premises of the clauses of the last round -/

/-- A WAITA that an interrupted load has started at clock 3, HLD with full queues, and the CSRs of a job with a level and a partner. -/
theorem test_meets_waita_entry : (withJob box fun j => { j with waitaFrom := some 3 }).job.waitaFrom = some 3 ∧
    answered (ctlLoad (entered (withX box 1 0x20000)) 0 0x20000 8) (fun x => leNat x == 0) = true ∧
    answered (readChunk (entered (withX box 1 0x20000)) (ctlParty box 0) .read (.va 0x20000) 8) (fun h => !h.bad) = true ∧
    answered (readChunk (withJob box fun j => { j with mx := { j.mx with queue := fullQueue } }) (ctlParty box 0) .read (.va 0x20000) 64) (fun c => !c.bad) = true := by
  decide +kernel

theorem test_csr_values : (fun s : State => (readCsr s 0x030, readCsr s 0x038, readCsr s 0x040, readCsr s 0x031, readCsr s 0x039, readCsr s 0x048, readCsr s 0x064))
      { withJob box (fun j => { j with levels := [{ idx := 2, count := 8, bar := some b3 }], altArray := true, hnd := true, tstream := 3 }) with clock := 300 } =
      (some 2, some 8, some 0x8003, some 0, some 1, some 3, some 0x8000000000000003) ∧
    readCsr (withJob twoJobs fun j => { j with inbox := [3] }) 0x053 = some 0x10001 := by decide +kernel

/-- FLAGS takes the value written and what has come in the clock (R42). -/
theorem test_csrw_flags : stepped (exec (.csrw 1 1) (withX (withJob box fun j => { j with flags := 5, clockFlags := 4 }) 1 0x81)) (fun t => t.job.flags == 5) = true := by
  decide +kernel

/-- A bound beyond 32 bits is held as the greatest (log entry 67). -/
theorem test_trim_held : (EngStream.ltrim 0 EngStream.empty (2 ^ 33)).held = some 0xFFFFFFFF ∧ (EngStream.ltrim 0 EngStream.empty 7).held = some 7 := by
  decide +kernel

/-- A trip that starts in the clock of an LTRIM counts as started (R177): its frame goes on to the bound, or to the trip itself. -/
theorem test_trim_clock : ((({ aFrame with j := 3 } : Frame).trimAt 9 0).atClock 9).nEff = 4 ∧ ((({ aFrame with j := 3 } : Frame).trimAt 9 0).atClock 10).nEff = 1 := by
  decide +kernel

/-- A record with a barrier beyond the allotment, one whose watermark is not allowed, and a channel that owes nothing. -/
theorem test_meets_record_stops : recBar (fetching copyRec) (newChan box 0 1 .fetch 0x20000) { copyHead with bar := some { kind := .core, idx := 69 } } = none ∧
    ((decodeRecord (copyRec ||| BitVec.ofNat 1024 (2 ^ 27))).bind recHead).map (fun r => r.bar.map fun o => o.idx.val) = some (some 69) ∧
    ((decodeRecord (copyRec ||| BitVec.ofNat 1024 (2 ^ 384))).map watermarkBad) = some true ∧
    (chanOf (finished none id) 0 1).any (fun c => (chanOf (putChan (finished none id) { c with owed := [] }) 0 1).any fun c =>
      c.st == .finishing && c.owed.isEmpty && c.bar.isNone) = true ∧
    (suspendedOwner (finished (some (.core 0 3)) id) (.core 0 3)).isNone = true ∧ (decodeRecord copyRec).isSome = true := by decide +kernel

/-- RANK and COMMIT of the first and of the second sequence, and a COMMIT whose round is periodic. -/
def ranking (op done : Nat) : Bool :=
  answered (darnHeld0 op 0) fun r0 =>
    let r := { r0 with sdone := done }
    let s := darnBox 0
    answered (bitsIn s (ctlParty s r.cls) r.mask (r.lo done) (r.hi done)) (fun l => l == (if done = 0 then [2, 3] else [4, 5])) &&
      answered (darnRead s (ctlParty s r.cls) (r.conf + 16 * done) 16) (fun _ => true) &&
      (match darnSeq (ctlParty s r.cls) r s with | .ok (r', _) => r'.sdone == done + 1 && r'.result == 2 - op | .error _ => false)

theorem test_meets_darn_sequences : ranking 0 0 = true ∧ ranking 0 1 = true ∧ ranking 1 0 = true ∧ ranking 1 1 = true ∧
    answered (darnHeld0 1 0) (fun r0 =>
      let r := { r0 with rcd := r0.rcd ||| BitVec.ofNat 512 (2 ^ 120) }
      r.period == 1 && r.round % r.period + 1 == r.period &&
        (match darnWork (ctlParty (darnBox 0) r.cls) 0 r (darnBox 0) with | .ok (_, w, true) => getByte w .hbm (r.plane 0) == 0xFF | _ => false)) = true := by decide +kernel

/-- A drain, and blocks of one clock, the older one first; a job that retires beside one without stores. -/
theorem test_meets_drain : (handled fun j => { j with st := .draining }).job.st = .draining ∧ (handled fun j => { j with st := .draining }).job.wait ≠ .joined ∧
    ({ vxTrap with stream := 13, age := 1 } : Trap).age ≤ ({ vxTrap with stream := 13, age := 2 } : Trap).age ∧
    (insertTrap { vxTrap with stream := 13, age := 1 } [{ vxTrap with stream := 13, age := 2 }]).map Trap.age = [1, 2] ∧
    (∀ k ∈ retiringBox.jobs, k.stores = []) ∧ retiringBox.powerState ≠ 2 := by decide +kernel

/-- A reduce request of four bytes, and a request behind an earlier one of its party, class and target. -/
theorem test_meets_lane : (∀ k, k < 4 → lineBad (peerBox 0x20008) .hbm (0x20000 + k) = false) ∧
    ({ aReq (.reduce .add .fp32 .rne false [0, 0, 0, 0] false) false 0 0x20000 with size := 4 } : Request).size = 4 ∧
    (∃ b ∈ [ourReq 39], b.st = .waiting ∧ b.resynced = false ∧ b.req.party = { (ourReq 39).req with seq := 4096 }.party ∧
      b.req.cls = { (ourReq 39).req with seq := 4096 }.cls ∧ b.req.tgt = { (ourReq 39).req with seq := 4096 }.tgt) :=
  ⟨by decide +kernel, rfl, ourReq 39, List.mem_cons_self, rfl, rfl, rfl, rfl, rfl⟩

/-- A slot without its stamp, and the 100 µs of a fetch. -/
theorem test_meets_no_stamp : (hqueueOf queueBox 0).tries = 0 ∧ ({ HQueue.zero with tries := 3, first := 5 } : HQueue).first = 5 ∧ 150005 - 5 ≤ 150000 ∧
    leNat ((getBytes { queueBox with host := [] } .host (0x8000 + 128 * (1 % 2 ^ 4)) 128).drop 120) ≠ 1 ∧ (0 : Word).toNat < (hqueueOf queueBox 0).next.toNat := by
  decide +kernel

/-- A ring whose second entry without a signal raises vector 5, and one that waits for a third. -/
def ringBox' (n : Nat) : State := { box with hrings := [(0, { ringAt 0 with vec := 0x8005, coal := BitVec.ofNat 64 n, unsig := 1 })] }
theorem test_ring_signals : (ringOf (ringBox' 2) 0).room = true ∧ (ringOf (ringBox' 2) 0).waiting = [] ∧ (ringOf (ringBox' 2) 0).vec.getLsbD 15 = true ∧
    (ringPost (ringBox' 2) 0 1).interrupts = [(0, 5)] ∧ (ringPost (ringBox' 3) 0 1).interrupts = [] ∧ (ringOf (ringPost (ringBox' 3) 0 1) 0).unsig = 2 := by
  decide +kernel

/-- The host's bytes reach HBM through BAR2, and DDR-5 where the window lies there. -/
def barBox : State := { box with bar2Base := Config.hbmBytes, ddrBytes := 64 }
theorem test_bar_window : stepped (act (.barWrite 0x20001 [7, 8]) box) (fun t => getByte t .hbm 0x20002 == 8) = true ∧
    stepped (act (.barWrite 0 (List.replicate 64 9)) { barBox with ddrPoison := [(0, 1)] }) (fun t => getByte t .ddr 63 == 9 && !lineBad t .ddr 0) = true ∧
    box.bar2Base + 0x20001 < Config.hbmBytes ∧ Config.hbmBytes + 0 = barBox.bar2Base + 0 ∧ (0 : Nat) < barBox.ddrBytes ∧ 0x20001 + 2 ≤ 2 ^ box.bar2Log ∧
    2 ^ box.bar2Log < 2 ^ box.bar2Log + 2 ∧ (box.bar2Base + 2 ^ box.bar2Log) % 64 + 2 ≤ 64 := by decide +kernel

/-- A command whose record breaks R377, and Dvorol's own access that waits. -/
theorem test_meets_bad_command : ({ aCmd 13 with bad := true } : Cmd).bad = true ∧
    ({ cmdBox 13 box with cmds := [{ aCmd 13 with bad := true }] }.cmds.find? fun d => d.queue == 0 && d.stamp == 1) = some { aCmd 13 with bad := true } ∧
    hubWaiting { box with hubWaits := [{ unit := .hub, asid := 1, va := 0, dvorol := true }] } (hubParty 1) = true ∧ hubWaiting box (hubParty 1) = false := by
  decide +kernel

/-- A pre-emption reaches both jobs of a group, and bounds the loop of a stream. -/
def loopJobs : State := { twoJobs with jobs := twoJobs.jobs.map fun j => { j with vx := { j.vx with frames := [aFrame] } } }
theorem test_preempt_group : (∀ j ∈ gangOf loopJobs 1, j.st = .running) ∧ ((loopJobs.job :: loopJobs.jobs).map Job.id).Nodup ∧
    stepped (exec (.preempt 1) loopJobs) (fun t => t.job.st == .draining && t.jobs.all fun j =>
      j.st == .draining && j.basket == some Basket.fresh && j.vx.draining && j.vx.depth == 1 && j.vx.frames == [{ aFrame with nEff := 1, bounded := true }]) = true := by
  decide +kernel

/-- A partner that reports at a port that is down. -/
theorem test_meets_partner : (linkOf { box with rows := 1, cols := 2 } 0).up = false ∧
    stepped (act (.partner (eastPort 1)) { box with rows := 1, cols := 2 }) (fun t => t.goodPorts == [0] && t.errLog == []) = true ∧
    stepped (act (.partner (eastPort 2)) { box with rows := 1, cols := 2 }) (fun t => t.goodPorts == [] && t.errLog == [.badPort 0]) = true := by decide +kernel

/-- R152, R162: a raw block whose scale byte lies in a poisoned line, on a page that reads poison as zeros. -/
def rawBad : State :=
  { opBox .ld (hnd 0 0 5 2 0x20030 0 0 [32, 1] [1, 32] 0) 0 with hbm := swrite (swrite box.hbm 0x3000 (leBytes 8 0x11F)) 0x20030 (List.replicate 17 3), hbmPoison := [(0x801, 1)] }
theorem test_meets_raw_poison : answered (readData rawBad (engParty rawBad .ld 0) (.va 0x20030) 18 none) (fun d =>
      d.map Prod.snd == List.replicate 16 false ++ [true, true] && rawBlock d == List.replicate 18 0) = true := by decide +kernel

/-! ### Premises of this sitting's clauses -/

/-- A pending HST of the stream to the line at 0x20000, which is poisoned. -/
def coverBox : State := withJob (badLine (withX box 1 0x20000)) fun j => { j with stores := [.store 0 .hbm 0x20000 none (List.replicate 64 7)] }

/-- Two stores of other classes to other lines, and behind them a fence of the second's class. -/
def queue3 : List Pending := [.store 0 .hbm 0x20000 none [1], .fence 3, .store 1 .hbm 0x20040 none [2]]

theorem test_meets_first : Pending.first [.store 0 .hbm 0x20000 none [1], .store 1 .hbm 0x20040 none [2]] 1 ∧ ¬Pending.first queue3 2 ∧
    splitsAt (fun q => match q with | .store c _ _ _ _ => (1 : BitVec 16).getLsbD c.val | .fence _ => false) queue3 [.store 0 .hbm 0x20000 none [1]]
      [.fence 3, .store 1 .hbm 0x20040 none [2]] := by
  refine ⟨⟨1, .hbm, 0x20040, none, [2], rfl, fun i y h e => ?_⟩, fun ⟨c, sp, a, o, d, h, f⟩ => ?_, rfl, by decide, .inr ⟨[], _, rfl, by decide⟩⟩
  · obtain rfl : i = 0 := by omega
    cases e
    exact ⟨fun _ _ _ _ _ h => by cases h; exact ⟨by decide, by decide⟩, fun _ h => nomatch h⟩
  · cases h
    exact absurd ((f 1 _ (by decide) rfl).2 3 rfl (by decide) 0 0 .hbm 0x20000 none [1] (by decide) rfl) (by decide)


/-- A page table whose entry for the GiB at 0x4000_0000 is e. -/
def pteBox (e : Nat) : State := { box with hbm := swrite box.hbm 0x3008 (leBytes 8 e) }

/-- FencesAndWaits: poison that a pending store clears as it performs before the load, and that none clears, an address beyond bit 56, a page that is not there, a malformed entry, a
page of device 1 whose response is not there, and a WAITA at an address that is not a multiple of 8. -/
def readStop (s : State) (va : Word) : Option Stop := match readChunk (entered s) (ctlParty s 0) .read (.va va) 8 with | .error e => some e | .ok _ => none
theorem test_meets_wait_stops : loaded (entered coverBox) 8 = some (false, 0x0707070707070707) ∧ (loaded (entered (badLine box)) 8).map Prod.fst = some true ∧
    readStop box (2 ^ 57) = some (.trap .pageNotPresent (2 ^ 57)) ∧
    (match readStop box 0x40000000 with | some (.fault .pageNotPresent _ r) => (postFault box r).isSome | _ => false) = true ∧
    (match readStop (pteBox 0x31F) 0x40000000 with | some (.fault .pteInvalid _ r) => (postFault box r).isSome | _ => false) = true ∧
    (match readStop { farStore with rbuf := [] } 0x40000000 with | some (.send ..) => true | _ => false) = true ∧
    (getX (withX box 1 0x20004) 1).toNat % 8 ≠ 0 := by decide +kernel

/-- ControlCompletes: a WAITA that sleeps over a word equal to its register, and one whose limit has passed. -/
theorem test_meets_wake : loaded asleep 8 = some (false, 0) ∧ getX asleep 0 = 0 ∧
    stepped (exec (.waitaTimeout 1) asleep) (fun t => t.job.pc == 0x11004 && getX t 5 == 0) = true ∧
    stepped (exec (.waitaWake 1) { asleep with clock := 9 }) (fun t => t.job.pc == 0x11000) = true ∧
    stepped (exec (.waitaWake 1) (withJob { asleep with clock := 9 } fun j => { j with wait := .waita 0x20000 true 5 6 0 0 10 })) (fun t => t.job.pc == 0x11004) = true := by
  decide +kernel

/-- Tubs: a store into the region of a memory tub and of a scratchpad tub, as it executes and as it performs later, and one of device 1. -/
def armedAt (t : TubId) (a : Nat) (s : State) : State := putTub s t { aTub true false [] with total := 100, region := [(a, 64)] }
theorem test_tub_stores : stepped (exec (.st 0 1 0 .d 0) (armedAt (.mem 0 2) 0x20000 (withX box 1 0x20000))) (fun t => (tubOf t (.mem 0 2)).count == 15) = true ∧
    stepped (exec (.st 0 1 0 .d 0) (armedAt (.spad 1 63) 0x7FFFC0 (withX box 1 0x1FFFFFFFF7FFFC0))) (fun t => (tubOf t (.spad 1 63)).count == 15) = true ∧
    (tubOf (performStore (armedAt (.mem 0 2) 0x1FFFC box) (.store 0 .hbm 0x20038 none (List.replicate 8 1))) (.mem 0 2)).count = 11 ∧
    (tubOf (performStore (armedAt (.spad 1 63) 0 box) (.store 0 (.spad 0) 8 (some (1, 8)) [1])) (.spad 1 63)).count = 8 ∧
    (findJob box 1).map Job.logging = some false := by decide +kernel
theorem test_meets_tub_requests :
    stepped (exec (.remoteStore (aStore 4095)) (armedAt (.mem 0 2) 0x20000 (peerBox 0x20008))) (fun t => (tubOf t (.mem 0 2)).count == 15) = true ∧
    (∀ w ∈ (peerBox 0x20008).works, w.moves (aStore 4095) = false) ∧
    guarded (peerBox 0x20008) (sender (peerBox 0x20008) (aStore 4095)) (Request.span (aStore 4095)) = false ∧
    (peerBox 0x20008).heldReqs = [] ∧ (aStore 4095).pa + (aStore 4095).size ≤ Config.hbmBytes := by decide +kernel
theorem test_meets_tub_fresh : freshRequest (peerBox 0x20008) (aStore 4095) :=
  test_meets_fresh (.store [7, 7, 7, 7, 7, 7, 7, 7] false) false 0x20000 0x20008

/-- PatternLoad: an image of version 2 whose pattern at section index 62 is a VADD of version 2 with slot 0 absent, or opcode 3D of VX, which that
version does not have; an image without the section; what the translation gives. -/
def oldPats (op : Nat) : State := withHbm (patsBox 64 2) 0x133E0 (leBytes 16 (op * 2 ^ 120 + 0x8004E00040020001FFFF))
def patVal (op : Nat) : Pattern := BitVec.ofNat 128 (op * 2 ^ 120 + 0x8004E00040020001FFFF)
theorem test_meets_translation : answered (imageVersion (putStream (oldPats 1) (noted (oldPats 1)))) (· == 2) = true ∧
    answered (imageNat (putStream (oldPats 1) (noted (oldPats 1))) .read (0x3000 + 16 * 62) 16) (· == (patVal 1).toNat) = true ∧
    (translatePattern 2 .vx (patVal 1)).map (fun w => (slotOf w 0, slotOf w 1)) = some (0xE000, 1) ∧ registerSlots .vx 1 = some [0, 1, 2, 3, 6] ∧
    translatePattern 2 .vx (patVal 0x3D) = none ∧ registerSlots .vx 0x3D = some [0, 1, 2, 6] ∧ (translatePattern 3 .vx (patVal 1)) = some (patVal 1) ∧
    sectionOf (vxBox id) (vxBox id).job (patternKind .vx) = none ∧
    stepped (exec (.patl 62 0 0) (oldPats 1)) (fun t => (slotOf (sget t.job.vx.slots 62) 0) == 0xE000 && t.job.vx.pc == 0x2004) = true ∧
    stepped (exec (.patl 62 0 0) (oldPats 0x3D)) (fun t => t.job.vx.halt != .going && (sget t.job.vx.slots 62) == 0) = true := by decide +kernel

/-- EngineStarts, Traps: INV entries that wait behind a full queue, and a trap behind one that a fault log has brought. -/
theorem test_meets_late : ((({ EngStream.empty with late := [.inv 0 3] } : EngStream)).queued (fullQueue.drop 1)).queue.length = 64 ∧
    (({ EngStream.empty with late := [.inv 0 3] } : EngStream).queued (fullQueue.drop 1)).late = [] ∧ (({ EngStream.empty with late := [.inv 0 3] } : EngStream).queued fullQueue).late = [.inv 0 3] ∧
    insertTrap vxTrap [{ vxTrap with cause := .absentContext, stream := 14 }] = [{ vxTrap with cause := .absentContext, stream := 14 }, vxTrap] := by decide +kernel

/-- GraphNodes: a COND that goes back to itself, held while node 2 runs, and at its bound of runs; a WAIT on the memory tub that its context names first; an
END of a graph with STATUS at 0x30080. -/
def backNode : Nat := condNode - 2 ^ 32 + 2 ^ 16
def tubNode : Nat := waitNode + 2 ^ 152
def tubCtx : Context := { tableCtx with args := { tableCtx.args with tubs := [(0, 2)] } }
def alone (x : Graph) : Graph := { x with nodes := x.nodes.mapIdx fun k n => { n with running := k == 0 } }
theorem test_meets_nodes_again : nodeKind (BitVec.ofNat 512 backNode) = 3 ∧ nodeF (BitVec.ofNat 512 backNode) 4 2 = 0 ∧ 2 ≤ nodeF (BitVec.ofNat 512 backNode) 1 1 ∧
    ((alone (aGraph backNode 1 false)).nodes.drop 1).all (fun w => !w.running) = true ∧
    ({ alone (aGraph backNode 1 false) with maxRun := 2, runs := 2 }.maxRun ≠ 0 ∧ 2 < { alone (aGraph backNode 1 false) with maxRun := 2, runs := 2 }.runs + 1) ∧
    nodeWait tubCtx (BitVec.ofNat 512 tubNode) = some (.tub (.mem 0 2)) ∧
    answered (writeBytes (graphBox endNode 0 false) (hubParty 1 (.node (nodeRef (aGraph endNode 0 false) 0))) (.va 0x30080)
      (leBytes 4 1 ++ leBytes 2 3 ++ leBytes 2 0 ++ leBytes 8 0)) (fun t => getByte t .hbm 0x30084 == 3) = true ∧
    ({ aGraph endNode 0 false with status := 0x30080 } : Graph).status ≠ 0 := by decide +kernel
theorem test_meets_node_held : ∃ i w, 0 ≤ i ∧ i ≠ 0 ∧ (aGraph backNode 1 false).nodes[i]? = some w ∧ w.running = true :=
  ⟨2, _, by decide, by decide, rfl, rfl⟩
theorem test_graph_again :
    stepped (exec (.graphNodeCond 1 3 0) { graphBox backNode 1 false with graphs := [alone (aGraph backNode 1 false)] })
      (fun t => (graphOf t 1 3).any fun x => x.runs == 1 && x.running && (x.nodes[0]?.any GNode.running)) = true ∧
    stepped (exec (.graphNodeCond 1 3 0) { graphBox backNode 1 false with graphs := [{ alone (aGraph backNode 1 false) with maxRun := 1, runs := 1 }] })
      (fun t => (graphOf t 1 3).any fun x => x.result == 3 && !x.running) = true ∧
    stepped (exec (.graphNodeCond 1 3 0) (graphBox backNode 1 false)) (· == graphBox backNode 1 false) = true := by decide +kernel

/-- RemoteRequests, UnitsComplete: a block has kept the bytes of an element from the others. -/
def guardBox : State := withJob (peerBox 0x20008) fun j => { j with index := [{ running 0 with guard := [{ far := none, sp := .hbm, a := 0x20000, n := 4 }] }] }
theorem test_meets_guard : guarded guardBox (sender guardBox (aStore 4095)) (Request.span (aStore 4095)) = true ∧
    guarded (peerBox 0x20008) (sender (peerBox 0x20008) (aStore 4095)) (Request.span (aStore 4095)) = false ∧
    Machine.admitted guardBox (aStore 4095) = true ∧
    answered (darnHeld0 0 0) (fun r => match r.pin with
      | some (.hbm pa) => !guarded (darnBox 0) (.ctl 1) { far := none, sp := .hbm, a := pa + 48, n := 8 }
      | _ => false) = true := by decide +kernel

/-- EngineStarts, Preemption: an LDV whose first element lies behind a watermark, and one of which the first does not; a gathered SIB vector whose
indices a block keeps from others. The first stays where it is, so that its engine has drained. -/
def marking (e : Fin 32768) : State :=
  { withJob (ranged true false) fun j => { j with tokens := Vector.replicate 8 1
                                                  ld := { j.ld with stopped := true, pipe := [.waiting { (startedAt (vec 0) 0) with pat := patOf (.ldv { okLin with start := .imm e }) }] } } with
    units := 1 }
def gathered : IOp := startedAt (hnd 5 3 0 2 0x700000 0x700100 0 [8, 2] [1, 8] 0) 0
def gatherTile : TileOp := { okTile with tc := .imm 8, tr := .imm 2 }
def gatherBox : State := withJob box fun j => { j with index := [{ running 0 with guard := [{ far := none, sp := .spad 0, a := 0x700100, n := 4 }] }] }
theorem test_meets_start_waits : startWaits (marking 4) .ld ((nextOp (marking 4).job.ld.pipe).getD gathered) = true ∧
    startWaits (marking 0) .ld ((nextOp (marking 0).job.ld.pipe).getD gathered) = false ∧ (readyOp (marking 0) (marking 0).job .ld).isSome = true ∧
    stepped (exec (.operationStart 1 .ld) (marking 4)) (· == marking 4) = true ∧ engineDrained (marking 4) (marking 4).job .ld = true ∧
    opCheck .ld box.job gathered (.ldt gatherTile) = none ∧ (windowCheck box .ld gathered false (.ldt gatherTile)).2 = none ∧
    (windowCheck gatherBox .ld gathered false (.ldt gatherTile)).2 = some .stall := by decide +kernel

/-- VectorMoves, VectorReductions: the byte of a VLUT index beyond its table; offsets of VSEGR that descend, and one below 0; a width of 0, and a width
vector that is not mapped (R195, R196, R202). -/
def regsBox (h : Layout) (b : List Byte) : State := withJob (opBox .vx h 0) fun j => { j with main := swrite [] 0x2000 b }
def lostTree : Layout := hnd 6 0 0 1 0x20000 0x40000000 0 [3] [1] 1
theorem test_vx_data_traps :
    capacity .fp32 ≤ regElem (withJob box fun j => { j with main := swrite [] 0x1000 [0, 4] }).job (.main 1) .uint16 0 ∧
    stepped (exec (.vsegr okV .sum) (regsBox (vec 0) (fields [(0, 4), (5, 4), (3, 4)]))) (fun t => (t.job.eng .vx).opHalt == .trapped && t.job.pending.any (fun p => p.cause == .shapeInvalid && p.val == 1)) = true ∧
    stepped (exec (.vsegr { okV with n := .imm 0 } .sum) (regsBox (vec 0) (fields [(0xFFFFFFFF, 4)]))) (fun t => t.job.pending.any (fun p => p.cause == .shapeInvalid && p.val == 0)) = true ∧
    treeWidths (opHandle (startedAt treeHnd 0) 0) (List.replicate 8 0) = none ∧
    stops (vecBytes (opBox .vx lostTree 0) (engParty (opBox .vx lostTree 0) .vx 0) (startedAt lostTree 0) (opHandle (startedAt lostTree 0) 0) 0x40000000 8) = true := by decide +kernel

/-- MatrixState, MatrixPasses: rows of a page that is not there stop MLB, MMA and MMB, with the array as it was (R219, R226). -/
def lostRows (fmt : Nat) : Layout := hnd 0 0 fmt 2 0x40000000 0 0 [8, 2] [1, 8] 0
theorem test_meets_pass_stops : stops (keptRows (mxBox (lostRows 1) 0 (aBank .bf16 8)) (rowsOf (lostRows 1) .bf16 8 false) false 2) = true ∧
    stops (keptRows (mxBox (lostRows 1) 0 (aBank .bf16 8)) (rowsOf (lostRows 1) .bf16 8 false) true 2) = true ∧
    stepped (exec (.mma { okMma with m := .imm 2 }) (mxBox (lostRows 1) 0 (aBank .bf16 8))) (fun t => (t.job.eng .mx).opHalt == .trapped && t.job.matrix == (mxBox aRows 0 (aBank .bf16 8)).job.matrix) = true ∧
    stepped (exec (.mlb { okMlb with n := .imm 2 }) (mxBox (lostRows 1) 0 (aBank .bf16 8))) (fun t => (t.job.eng .mx).opHalt == .trapped && (bankOf t.job false).n == 1) = true := by decide +kernel

/-- EngineStores: an element of STA whose last two bytes lie on a page of device 1: its two places, which a store that is pending for the first of them
keeps busy. -/
def acrossPages : Layout := hnd 0 0 0 1 0x3FFFFFFE 0 0 [8] [1] 0
theorem test_meets_sta_places :
    answered (twoPlaces (pteBox (0x7F + 2 ^ 52)) (engParty box .st 0) (hndLoc (opHandle (startedAt acrossPages 0) 0) 1 0x3FFFFFFE) 4) (fun l =>
      l == [{ far := none, sp := .hbm, a := 0x3FFFFFFE, n := 2 }, { far := some (1, false), sp := .host, a := 0, n := 2 }] &&
        !l.any (Span.busy (pteBox (0x7F + 2 ^ 52)) (.eng 1 .st)) &&
        l.any (Span.busy (withJob box fun j => { j with stores := [.store 0 .hbm 0x3FFFFFFF none [1]] }) (.eng 1 .st))) = true ∧
    answered (twoPlaces box (engParty box .st 0) (.va 0x2003E) 4) (· == []) = true ∧ answered (twoPlaces box (engParty box .st 0) (.va 0x20000) 4) (· == []) = true ∧
    (besides (.remote 1 false 62 .trap) (.remote 1 false 64 .trap) 2).isSome = true := by decide +kernel

/-- StepRuns: a control word that is not mapped, a patch word behind the end of its section, and one that is not mapped. -/
theorem test_fetch_stops : stepped (step { withJob nopBox (fun j => { j with pc := 0x40000000 }) with agenda := [nopTurn] }) (fun t =>
      t.job.tcause == Cause.pageNotPresent.code && t.job.tpc == 0x40000000) = true ∧
    answered (patchAt (vxBox id) 0x3000) (fun _ => true) = false ∧ answered (patchAt (vxBox id) 0x2FFC) (fun _ => true) = true ∧
    stops (patchAt (withJob (vxBox id) fun j => { j with image := 0x40000000 }) 0x2000) = true := by decide +kernel

/-- WalksAndBanks: entries that are not valid, malformed, without R, with HOLD, in each tier, and the walks that they end; an address beyond bit 56; a context
that is not there. -/
def pteStop (s : State) (acc : Access) : Option (Cause × Bool) :=
  match locate s (ctlParty s 0) acc (.va 0x40000000) 8 with
  | .error (.fault c _ r) => some (c, r.entry == (walk s 1 0x40000000).entry && r.level == 2)
  | .error (.held r) => some (.pagePermission, r.cause == none)
  | _ => none
theorem test_page_stops : pteStop (pteBox 0) .read = some (.pageNotPresent, true) ∧ pteStop (pteBox 0x31F) .read = some (.pteInvalid, true) ∧
    pteStop (pteBox 0x41F) .read = some (.pteInvalid, true) ∧ pteStop (pteBox 0x19) .read = some (.pagePermission, true) ∧
    pteStop (pteBox 0x13) .write = some (.pagePermission, true) ∧ pteStop (pteBox 0x413) .write = some (.pagePermission, true) ∧
    pteStop (pteBox 0x413) .read = none ∧ pteStop (pteBox 0x57) .atomic = some (.pagePermission, true) ∧
    stops (locate box (ctlParty box 0) .read (.va (2 ^ 57)) 8) = true ∧ contextOf box 2 = none ∧ box.tlb = [] ∧ viewOf box (.ctl 1) = none ∧
    watermarked box (ctlParty box 0) (.va 0x40000000) none 8 = none := by decide +kernel
theorem test_meets_permits : permits 0x1F .fetch ∧ ¬permits 0x57 .atomic ∧ malformed box 0x31F 2 ∧ ¬malformed box 0x1F 2 := by
  refine ⟨by unfold permits; decide, fun h => absurd h.2.2 (by decide), ?_, ?_⟩ <;> (unfold malformed; decide +kernel)
theorem test_page_places : answered (locate (pteBox 0x4000021F) (ctlParty box 0) .read (.va 0x40000088) 8) (· == (.here .hbm 0x40000088 .pass, none)) = true ∧
    answered (locate { pteBox 0x3F with ddrBytes := 2 ^ 30 } (ctlParty box 0) .atomic (.va 0x40000088) 8) (· == (.here .ddr 0x88 .trap, none)) = true ∧
    answered (locate (pteBox 0x80000157) (ctlParty box 0) .write (.va 0x40000088) 8) (· == (.here .host 0x80000088 .zero, none)) = true ∧
    answered (locate (pteBox (0x7F + 2 ^ 52)) (ctlParty box 0) .write (.va 0x40000088) 8) (· == (.remote 1 false 0x88 .trap, none)) = true := by decide +kernel

end Sys2Proof.Tests
end

section
/-! SUPPORT. Canonical form of the memories (O58): the outcomes of the model, and the states they hold. -/

namespace Sys2Proof.Machine

/-- Another value of any field that is no store leaves the stores in canonical form. -/
theorem wf_with {s : State} {agenda turns delay units freeCtr nextJob nextLaunch curEng curCore curChan curSlot curIdx curCmd clock bootStep
    patchApplied patchRejected bootFail epoch row col rows cols ddrBytes powerState caps bar2Base bar2Log hostRead measures report errLog gated
    waking tlb oldPtes invs heldReqs works hubWaits faultQ contexts job jobs barriers tubs chans wmarks issued queues launches graphs slots
    parts submits links goodPorts seqs outs windows epochs resyncs outbox farDown peers rbuf sentResp hqueues hrings cmds interrupts}
    (w : Memory.wf s = true) :
    Memory.wf ⟨agenda, turns, delay, units, freeCtr, nextJob, nextLaunch, curEng, curCore, curChan, curSlot, curIdx, curCmd, clock, bootStep,
      patchApplied, patchRejected, bootFail, epoch, row, col, rows, cols, ddrBytes, powerState, caps, bar2Base, bar2Log, hostRead, measures,
      report, errLog, s.hbm, s.ddr, s.host, s.spad, s.hbmPoison, s.ddrPoison, s.spadPoison, s.zeroMap, gated, waking, tlb, oldPtes, invs,
      heldReqs, works, hubWaits, faultQ, contexts, job, jobs, barriers, tubs, chans, wmarks, issued, queues, launches, graphs, slots, parts,
      submits, links, goodPorts, seqs, outs, windows, epochs, resyncs, outbox, farDown, peers, rbuf, sentResp, hqueues, hrings, cmds,
      interrupts⟩ = true := w

/-! ### Outcomes whose states are in canonical form -/

/-- The next state that an outcome answers, where it answers one, is in canonical form. -/
def Result.Canonical (r : Result) : Prop := ∀ t, r = .next t → Memory.wf t = true

theorem Result.Canonical.next {t : State} (w : Memory.wf t = true) : Result.Canonical (.next t) := by
  rintro _ ⟨⟩; exact w
theorem Result.Canonical.fault {x : Fault} : Result.Canonical (.fault x) := by
  rintro _ ⟨⟩
theorem Result.Canonical.refused {x : Refusal} : Result.Canonical (.refused x) := by
  rintro _ ⟨⟩

/-- What an access answers, where it does not stop, has the property. -/
def Ensures {ε α : Type} (p : α → Prop) (r : Except ε α) : Prop := ∀ a, r = .ok a → p a

theorem Ensures.ok {ε α : Type} {p : α → Prop} {a : α} (h : p a) : Ensures p (.ok a : Except ε α) := by
  rintro _ ⟨⟩; exact h
theorem Ensures.error {ε α : Type} {p : α → Prop} {e : ε} : Ensures p (.error e : Except ε α) := nofun

/-- What an operation gives, where it gives something, has the property. -/
def Grants {α : Type} (p : α → Prop) (r : Option α) : Prop := ∀ a, r = some a → p a

theorem Grants.some {α : Type} {p : α → Prop} {a : α} (h : p a) : Grants p (Option.some a) := by
  rintro _ ⟨⟩; exact h
theorem Grants.none {α : Type} {p : α → Prop} : Grants p (Option.none) := nofun

theorem Grants.ite {α : Type} {p : α → Prop} {c : Prop} [Decidable c] {a b : Option α} (h : Grants p a) (k : Grants p b) :
    Grants p (if c then a else b) := by split <;> assumption

theorem Ensures.ite {ε α : Type} {p : α → Prop} {c : Prop} [Decidable c] {a b : Except ε α} (h : Ensures p a) (k : Ensures p b) :
    Ensures p (if c then a else b) := by split <;> assumption

theorem wf_ite {c : Prop} [Decidable c] {s t : State} (h : Memory.wf s = true) (k : Memory.wf t = true) :
    Memory.wf (if c then s else t) = true := by split <;> assumption

/-- What an access leaves where it stops has the property. -/
def Leaves {ε α : Type} (p : ε → Prop) (r : Except ε α) : Prop := ∀ e, r = .error e → p e

theorem Leaves.ok {ε α : Type} {p : ε → Prop} {a : α} : Leaves p (.ok a : Except ε α) := nofun

theorem Leaves.error {ε α : Type} {p : ε → Prop} {e : ε} (h : p e) : Leaves p (.error e : Except ε α) := by
  rintro _ ⟨⟩; exact h

theorem Grants.map {α β : Type} {p : β → Prop} {f : α → β} {o : Option α} (h : ∀ a, o = Option.some a → p (f a)) : Grants p (o.map f) := by
  rintro _ e
  obtain ⟨a, ha, rfl⟩ := Option.map_eq_some_iff.1 e
  exact h a ha

theorem Ensures.map {ε α β : Type} {p : β → Prop} {f : α → β} {r : Except ε α} (h : ∀ a, r = .ok a → p (f a)) : Ensures p (r.map f) := by
  cases r with
  | error e => exact .error
  | ok a => exact .ok (h a rfl)

theorem Ensures.mapError {ε ε' α : Type} {p : α → Prop} {f : ε → ε'} {r : Except ε α} (h : Ensures p r) : Ensures p (r.mapError f) := by
  cases r with
  | error e => exact .error
  | ok a => exact .ok (h a rfl)

/-- The state that an outcome of the hub or of Dvorol carries. -/
def Verdict.st : Verdict → State
  | .again s | .trap s _ _ | .dvorol s _ | .held s => s
def HubStop.st : HubStop → State
  | .later s | .failed s => s
def CmdEnd.st : CmdEnd → State
  | .done s _ _ | .later s => s
def Enqueued.st : Enqueued → State
  | .done s | .refused s _ _ | .failed s | .later s => s

theorem Verdict.wf_of {v r : Verdict} (h : v = r) (w : Memory.wf v.st = true) : Memory.wf r.st = true := h ▸ w
theorem HubStop.wf_of {v r : HubStop} (h : v = r) (w : Memory.wf v.st = true) : Memory.wf r.st = true := h ▸ w
theorem CmdEnd.wf_of {v r : CmdEnd} (h : v = r) (w : Memory.wf v.st = true) : Memory.wf r.st = true := h ▸ w
theorem Enqueued.wf_of {v r : Enqueued} (h : v = r) (w : Memory.wf v.st = true) : Memory.wf r.st = true := h ▸ w
theorem foldl_wf {α : Type} {f : State → α → State} {l : List α} {s : State} (h : ∀ s a, Memory.wf s = true → Memory.wf (f s a) = true)
    (w : Memory.wf s = true) : Memory.wf (l.foldl f s) = true := by
  induction l generalizing s with
  | nil => exact w
  | cons a r ih => exact ih (h s a w)

end Sys2Proof.Machine
end

section
/-! SUPPORT. Canonical form of the memories (O58): the operations that modules share. -/

namespace Sys2Proof.Machine
variable {s : State}

theorem writeBytes_ok {p l d} (w : Memory.wf s = true) : Ensures (Memory.wf · = true) (writeBytes s p l d) := fun _ h => writeBytes_wf h w

theorem writeMarked_ok {p l d} (w : Memory.wf s = true) : Ensures (Memory.wf · = true) (writeMarked s p l d) :=
  fun _ h => writeMarked_wf h w

theorem readModify_ok {p l n op v f} (w : Memory.wf s = true) : Ensures (Memory.wf ·.2 = true) (readModify s p l n op v f) :=
  fun _ h => readModify_wf h w

theorem focus_wf {id} (w : Memory.wf s = true) : Memory.wf (focus id s) = true := by
  dsimp only [focus]
  split
  · exact w
  · split <;> exact w

theorem putJob_wf {j} (w : Memory.wf s = true) : Memory.wf (putJob s j) = true := by
  dsimp only [putJob]
  split <;> exact w

theorem updJob_wf {id f} (w : Memory.wf s = true) : Memory.wf (updJob s id f) = true := by
  dsimp only [updJob]
  split
  · exact w
  · exact putJob_wf w

theorem mapJobs_wf {f} (w : Memory.wf s = true) : Memory.wf (mapJobs s f) = true := w

theorem dropJob_wf {id} (w : Memory.wf s = true) : Memory.wf (dropJob s id) = true := by
  dsimp only [dropJob]
  split <;> exact w

theorem setX_wf {r v} (w : Memory.wf s = true) : Memory.wf (setX s r v) = true := by
  dsimp only [setX]
  split <;> exact w

theorem setPc_wf {a} (w : Memory.wf s = true) : Memory.wf (setPc s a) = true := w

theorem advance_wf (w : Memory.wf s = true) : Memory.wf (advance s) = true := setPc_wf w

theorem retireX_wf {r v} (w : Memory.wf s = true) : Memory.wf (retireX s r v) = true := advance_wf (setX_wf w)

theorem hold_wf {w'} (w : Memory.wf s = true) : Memory.wf (hold s w') = true := w

theorem logErr_wf {e} (w : Memory.wf s = true) : Memory.wf (logErr s e) = true := w

theorem putHqueue_wf {q x} (w : Memory.wf s = true) : Memory.wf (putHqueue s q x) = true := w

theorem freeBytes_wf {n} (w : Memory.wf s = true) : Memory.wf (freeBytes n s).2 = true := by
  induction n generalizing s with
  | zero => exact w
  | succ n ih => exact ih w

theorem complete_wf {c status result} (w : Memory.wf s = true) : Memory.wf (complete s c status result) = true := ringPost_wf _ _ w

theorem completeAt_wf {k status} (w : Memory.wf s = true) : Memory.wf (completeAt s k status) = true := by
  dsimp only [completeAt]
  split
  · exact complete_wf w
  · exact w

theorem withdraw_wf {id} (w : Memory.wf s = true) : Memory.wf (withdraw s id) = true := w

theorem forsake_wf {id} (w : Memory.wf s = true) : Memory.wf (forsake s id) = true := w

theorem abandonCtl_wf {id} (w : Memory.wf s = true) : Memory.wf (abandonCtl s id) = true := by
  dsimp only [abandonCtl]
  split
  · exact updJob_wf (wf_ite (forsake_wf (withdraw_wf w)) (withdraw_wf w))
  · exact withdraw_wf w

theorem deliver_wf {id t} (w : Memory.wf s = true) : Memory.wf (deliver s id t) = true := updJob_wf w

theorem returnFromTrap_wf (w : Memory.wf s = true) : Memory.wf (returnFromTrap s) = true := w

end Sys2Proof.Machine
end

section
/-! SUPPORT. Canonical form of the memories (O58): the links and the outbox. -/

namespace Sys2Proof.Machine
variable {s : State}

theorem putLink_wf {port x} (w : Memory.wf s = true) : Memory.wf (putLink s port x) = true := w

theorem linkSet_wf {port up} (w : Memory.wf s = true) : Memory.wf (linkSet s port up) = true := putLink_wf w

theorem sendOn_wf {q vc l} (w : Memory.wf s = true) : Memory.wf (sendOn s q vc l) = true := by
  dsimp only [sendOn]
  split
  · exact w
  · exact putLink_wf w

theorem sendPacket_wf {vc l} (w : Memory.wf s = true) : Grants (Memory.wf · = true) (sendPacket s vc l) := by
  dsimp only [sendPacket]
  split
  · exact .some w
  · exact Grants.ite (Grants.map (fun _ _ => sendOn_wf w)) (Grants.map (fun _ _ => sendOn_wf w))

theorem flushFrom_wf {kept l} (w : Memory.wf s = true) : Memory.wf (flushFrom kept l s).2 = true := by
  induction l generalizing kept s with
  | nil => exact w
  | cons y ys ih =>
    dsimp only [flushFrom]
    split
    next h => exact ih (Grants.ite (p := (Memory.wf · = true)) .none (sendPacket_wf w) _ h)
    · exact ih w

theorem flushOut_wf (w : Memory.wf s = true) : Memory.wf (flushOut s) = true := wf_with (flushFrom_wf w)

theorem sendFree_wf {vc l} (w : Memory.wf s = true) : Memory.wf (sendFree s vc l) = true := flushOut_wf w

theorem trySend_wf {before o} (w : Memory.wf s = true) : Grants (Memory.wf ·.1 = true) (trySend s before o) :=
  Grants.ite .none (Grants.ite (.some w) (Grants.ite .none (Grants.map (fun _ _ => sendOn_wf w))))

theorem sendResyncs_wf (w : Memory.wf s = true) : Memory.wf (sendResyncs s) = true := by
  dsimp only [sendResyncs]
  refine foldl_wf (fun _ _ w' => ?_) w
  split
  · exact w'
  split
  · exact wf_with (sendOn_wf w')
  · exact w'

theorem sendFrom_wf {before l} (w : Memory.wf s = true) : Memory.wf (sendFrom before l s).2 = true := by
  induction l generalizing before s with
  | nil => exact w
  | cons y ys ih =>
    dsimp only [sendFrom]
    split
    next h => exact ih (Grants.ite (p := (Memory.wf ·.1 = true)) (trySend_wf w) .none _ h)
    · exact ih w

theorem sendWaiting_wf (w : Memory.wf s = true) : Memory.wf (sendWaiting s) = true := wf_with (sendFrom_wf (sendResyncs_wf (flushOut_wf w)))

end Sys2Proof.Machine
end

section
/-! SUPPORT. Canonical form of the memories (O58): reads and writes of the tiers. -/

namespace Sys2Proof.Machine
variable {s : State}

theorem postReq_wf {u key q} (w : Memory.wf s = true) : Memory.wf (postReq s u key q) = true := sendWaiting_wf w

theorem sendReq_wf {p q} (w : Memory.wf s = true) : Memory.wf (sendReq s p q) = true := by
  dsimp only [sendReq]
  split
  · exact sendWaiting_wf w
  split
  · exact postReq_wf w
  · exact w

theorem takeReplies_wf {u} (w : Memory.wf s = true) : Memory.wf (takeReplies s u) = true := w

theorem passOuts_wf {u gone} (w : Memory.wf s = true) : Memory.wf (passOuts s u gone) = true := w

theorem unitPassed_wf {u} (w : Memory.wf s = true) : Memory.wf (unitPassed s u) = true := takeReplies_wf (passOuts_wf w)

theorem keepWrites_wf {u} (w : Memory.wf s = true) : Memory.wf (keepWrites s u) = true := w

theorem reported_wf {u} (w : Memory.wf s = true) : Memory.wf (reported s u) = true := w

theorem setWmark_wf {core n v} (w : Memory.wf s = true) : Memory.wf (setWmark s core n v) = true := w

theorem takeStores_wf {u} (w : Memory.wf s = true) : Memory.wf (takeStores s u) = true := w

theorem postFault_wf {r} (w : Memory.wf s = true) : Grants (Memory.wf · = true) (postFault s r) := Grants.ite .none (.some w)

theorem verdict_wf {p x} (w : Memory.wf s = true) : Memory.wf (verdict s p x).st = true := by
  dsimp only [verdict]
  split
  · exact keepWrites_wf (reported_wf w)
  · exact keepWrites_wf (reported_wf w)
  · split
    · exact w
    rename_i h
    split <;> exact postFault_wf w _ h
  · split
    · exact w
    rename_i h
    exact postFault_wf w _ h
  · exact w
  · exact w
  · exact sendReq_wf w

end Sys2Proof.Machine
end

section
/-! SUPPORT. Canonical form of the memories (O58): stores that wait, and barriers. -/

namespace Sys2Proof.Machine
variable {s : State}

theorem ctlStop_wf {e} (w : Memory.wf s = true) : Memory.wf (ctlStop s e) = true := by
  dsimp only [ctlStop]
  split
  next h => exact hold_wf (Verdict.wf_of h (verdict_wf w))
  next h => exact raise_wf _ _ (Verdict.wf_of h (verdict_wf w))
  next h => exact tellContext_wf _ _ _ _ (hold_wf (Verdict.wf_of h (verdict_wf w)))
  rename_i h
  exact hold_wf (Verdict.wf_of h (verdict_wf w))

theorem withAccess_wf {α : Type} {r : Except Stop α} {k : α → State} (w : Memory.wf s = true)
    (hk : ∀ a, r = .ok a → Memory.wf (k a) = true) : Memory.wf (withAccess s r k) = true := by
  cases r with
  | error e => exact ctlStop_wf w
  | ok a => exact hk a rfl

theorem doneX_wf {d v} (w : Memory.wf s = true) : Memory.wf (doneX s d v) = true := retireX_wf (takeReplies_wf w)

theorem settleStores_wf (w : Memory.wf s = true) : Memory.wf (settleStores s) = true :=
  foldl_wf (fun _ _ w' => performAll_wf _ (updJob_wf w')) w

theorem settleInto_wf {id} (w : Memory.wf s = true) : Memory.wf (settleInto s id) = true :=
  foldl_wf (fun _ _ w' => performAll_wf _ (updJob_wf w')) w

theorem drainFor_wf {c x n} (w : Memory.wf s = true) : Memory.wf (drainFor s c x n) = true := drainWhere_wf _ w

theorem drainLoad_wf {c l n} (w : Memory.wf s = true) : Memory.wf (drainLoad s c l n) = true := by
  dsimp only [drainLoad]
  split
  · exact w
  · exact drainWhere_wf _ w

theorem withLoad_wf {c ea n k} (w : Memory.wf s = true) (hk : ∀ u a, Memory.wf u = true → Memory.wf (k u a) = true) :
    Memory.wf (withLoad s c ea n k) = true := by
  dsimp only [withLoad]
  split
  · exact ctlStop_wf w
  · exact withAccess_wf (drainLoad_wf w) (fun _ _ => hk _ _ (drainLoad_wf w))

theorem withRecord_wf {ea n k} (w : Memory.wf s = true) (hk : ∀ u a, Memory.wf u = true → Memory.wf (k u a) = true) :
    Memory.wf (withRecord s ea n k) = true :=
  withAccess_wf (drainLoad_wf w) (fun _ _ => hk _ _ (drainLoad_wf w))

theorem withStore_wf {late c ea d k} (w : Memory.wf s = true) (hk : ∀ u, Memory.wf u = true → Memory.wf (k u) = true) :
    Memory.wf (withStore s late c ea d k) = true := by
  dsimp only [withStore]
  split
  · exact ctlStop_wf w
  refine withAccess_wf w (fun _ _ => ?_)
  split
  · exact hk _ w
  · exact withAccess_wf (drainFor_wf w) (fun _ w' => hk _ (writeBytes_ok (drainFor_wf w) _ w'))

theorem putBar_wf {b x} (w : Memory.wf s = true) : Memory.wf (putBar s b x) = true := w

theorem closeBar_wf {b} (w : Memory.wf s = true) : Memory.wf (closeBar s b) = true := by
  dsimp only [closeBar]
  split
  · exact putBar_wf w
  · exact mapJobs_wf (putBar_wf w)

theorem idleBar_wf {b} (w : Memory.wf s = true) : Memory.wf (idleBar s b) = true := by
  dsimp only [idleBar]
  split
  · exact putBar_wf w
  · exact w

theorem passBar_wf {n b} (w : Memory.wf s = true) : Memory.wf (passBar n s b) = true := by
  dsimp only [passBar]
  split
  · exact closeBar_wf (idleBar_wf (closeBar_wf (idleBar_wf w)))
  · exact closeBar_wf (idleBar_wf w)

theorem barEvent_wf {b e} (w : Memory.wf s = true) : Grants (Memory.wf · = true) (barEvent s b e) := by
  dsimp only [barEvent]
  split
  · exact Grants.ite .none (.some (updBasket_wf _ _ w))
  refine Grants.ite (.some w) ?_
  refine Grants.ite (.some (logErr_wf w)) ?_
  refine .some ?_
  refine putBar_wf ?_
  split
  · split
    · exact logErr_wf w
    · exact w
  · exact w

theorem barOwe_wf {b} (w : Memory.wf s = true) : Memory.wf (barOwe s b) = true := by
  dsimp only [barOwe]
  split
  · exact w
  · exact putBar_wf w

theorem barPaid_wf {b} (w : Memory.wf s = true) : Memory.wf (barPaid s b) = true := by
  dsimp only [barPaid]
  split
  · exact w
  · exact putBar_wf w

theorem withBar_wf {o k} (w : Memory.wf s = true) (hk : ∀ a, Memory.wf (k a) = true) : Memory.wf (withBar s o k) = true := by
  dsimp only [withBar]
  split
  · exact raise_wf _ _ w
  · exact hk _

theorem putTub_wf {t x} (w : Memory.wf s = true) : Memory.wf (putTub s t x) = true := by
  dsimp only [putTub]
  split
  · exact updJob_wf w
  · exact w

theorem withTub_wf {o k} (w : Memory.wf s = true) (hk : ∀ a, Memory.wf (k a) = true) : Memory.wf (withTub s o k) = true := by
  dsimp only [withTub]
  split
  · exact raise_wf _ _ w
  · exact hk _

end Sys2Proof.Machine
end

section
/-! SUPPORT. Canonical form of the memories (O58): the integer instructions. -/

namespace Sys2Proof.Machine
variable {s : State}

theorem alu_wf {f d a b} (w : Memory.wf s = true) : Result.Canonical (alu f d a b s) := .next (retireX_wf w)

theorem aluImm_wf {f d a i} (w : Memory.wf s = true) : Result.Canonical (aluImm f d a i s) := .next (retireX_wf w)

theorem branch_wf {c a b o} (w : Memory.wf s = true) : Result.Canonical (branch c a b o s) := .next (wf_ite (setPc_wf w) (advance_wf w))

theorem execJalr_wf {d a i} (w : Memory.wf s = true) : Result.Canonical (execJalr d a i s) := by
  dsimp only [execJalr]
  split
  · exact .next (raise_wf _ _ w)
  · exact .next (setPc_wf (setX_wf w))

end Sys2Proof.Machine
end

section
/-! SUPPORT. Canonical form of the memories (O58): loads, stores and atomics of the control core. -/

namespace Sys2Proof.Machine
variable {s : State}

theorem loadX_wf {signed d c n ea} (w : Memory.wf s = true) : Result.Canonical (loadX signed d c n ea s) :=
  .next (withLoad_wf w (fun _ _ w' => doneX_wf w'))

theorem atomicX_wf {d c ea q f} (w : Memory.wf s = true) : Result.Canonical (atomicX d c ea q f s) := by
  dsimp only [atomicX]
  split
  · exact .next (raise_wf _ _ w)
  · exact .next (withAccess_wf w (fun _ _ => withAccess_wf (drainFor_wf w) (fun _ w' => doneX_wf (readModify_ok (drainFor_wf w) _ w'))))

theorem amo_wf {op f d a b c} (w : Memory.wf s = true) : Result.Canonical (amo op f d a b c s) := atomicX_wf w

theorem execFenceAcq_wf {m p} (w : Memory.wf s = true) : Result.Canonical (execFenceAcq m p s) := .next (advance_wf w)

theorem execFenceRel_wf {m p} (w : Memory.wf s = true) : Result.Canonical (execFenceRel m p s) := .next (advance_wf w)

theorem waitaPoll_wf {ea ne d b c t0 limit} (w : Memory.wf s = true) : Memory.wf (waitaPoll s ea ne d b c t0 limit) = true := by
  dsimp only [waitaPoll]
  split
  · split
    · exact doneX_wf (drainLoad_wf w)
    · exact hold_wf (takeReplies_wf (drainLoad_wf w))
  split
  next h => exact hold_wf (Verdict.wf_of h (verdict_wf (drainLoad_wf w)))
  · exact wf_with (ctlStop_wf (drainLoad_wf w))
  · exact ctlStop_wf (drainLoad_wf w)

theorem waita_wf {ne d a b c} (w : Memory.wf s = true) : Result.Canonical (waita ne d a b c s) :=
  .next (wf_ite (raise_wf _ _ w) (waitaPoll_wf w))

theorem execWaitaWake_wf {job} (w : Memory.wf s = true) : Result.Canonical (execWaitaWake job s) := by
  dsimp only [execWaitaWake]
  split
  · exact .next (wf_ite (waitaPoll_wf (focus_wf w)) w)
  · exact .next w

theorem execWaitaTimeout_wf {job} (w : Memory.wf s = true) : Result.Canonical (execWaitaTimeout job s) := by
  dsimp only [execWaitaTimeout]
  split
  · exact .next (wf_ite (waitaPoll_wf (focus_wf w)) w)
  · exact .next w

end Sys2Proof.Machine
end

section
/-! SUPPORT. Canonical form of the memories (O58): control and status registers. -/

namespace Sys2Proof.Machine
variable {s : State}

theorem execCsrr_wf {d c} (w : Memory.wf s = true) : Result.Canonical (execCsrr d c s) := by
  dsimp only [execCsrr]
  split
  · exact .next (retireX_wf w)
  · exact .next (raise_wf _ _ w)

theorem execCsrw_wf {a c} (w : Memory.wf s = true) : Result.Canonical (execCsrw a c s) := by
  dsimp only [execCsrw]
  split
  · exact .next (advance_wf w)
  · exact .next (raise_wf _ _ w)

theorem execNop_wf (w : Memory.wf s = true) : Result.Canonical (execNop s) := .next (advance_wf w)

theorem execMbs_wf {a m} (w : Memory.wf s = true) : Result.Canonical (execMbs a m s) := by
  dsimp only [execMbs]
  split
  · exact .next (raise_wf _ _ w)
  split
  · exact .next (raise_wf _ _ w)
  split
  · exact .next (advance_wf (updJob_wf (drain_wf w)))
  · exact .next (hold_wf w)

theorem execMbr_wf {d m} (w : Memory.wf s = true) : Result.Canonical (execMbr d m s) := by
  dsimp only [execMbr]
  split
  · exact .next (raise_wf _ _ w)
  split
  · exact .next (retireX_wf w)
  · exact .next (hold_wf w)

end Sys2Proof.Machine
end

section
/-! SUPPORT. Canonical form of the memories (O58): the patch queues and handles. -/

namespace Sys2Proof.Machine
variable {s : State}

theorem execPush_wf {m a} (w : Memory.wf s = true) : Result.Canonical (execPush m a s) := by
  dsimp only [execPush]
  split
  · exact .next (raise_wf _ _ w)
  split
  · exact .next (hold_wf w)
  · exact .next (advance_wf (wf_with (drain_wf w)))

theorem execPopr_wf {d} (w : Memory.wf s = true) : Result.Canonical (execPopr d s) := by
  dsimp only [execPopr]
  split
  · exact .next (hold_wf w)
  · exact .next (retireX_wf w)

theorem execQcut_wf {a} (w : Memory.wf s = true) : Result.Canonical (execQcut a s) := by
  dsimp only [execQcut]
  split
  · exact .next (raise_wf _ _ w)
  · exact .next (advance_wf (wf_with w))

theorem execLtrim_wf {m a} (w : Memory.wf s = true) : Result.Canonical (execLtrim m a s) := .next (advance_wf w)

theorem execSets_wf {n a} (w : Memory.wf s = true) : Result.Canonical (execSets n a s) := by
  dsimp only [execSets]
  split
  · exact .next (hold_wf w)
  · exact .next (advance_wf (wf_with w))

theorem giveHandle_wf {n l} (w : Memory.wf s = true) : Memory.wf (giveHandle s n l) = true := by
  dsimp only [giveHandle]
  split
  · exact advance_wf (wf_with w)
  · exact hold_wf w

theorem execHld_wf {n a c o} (w : Memory.wf s = true) : Result.Canonical (execHld n a c o s) :=
  .next (withLoad_wf w (fun _ _ w' => giveHandle_wf (takeReplies_wf w')))

theorem execHset_wf {n a f} (w : Memory.wf s = true) : Result.Canonical (execHset n a f s) := by
  dsimp only [execHset]
  split
  · exact .next (hold_wf w)
  · exact .next (advance_wf (wf_with w))

end Sys2Proof.Machine
end

section
/-! SUPPORT. Canonical form of the memories (O58): barriers, messages and tubs. -/

namespace Sys2Proof.Machine
variable {s : State}

theorem withActive_wf {o k} (w : Memory.wf s = true) (hk : ∀ a, Memory.wf (k a) = true) : Memory.wf (withActive s o k) = true := by
  dsimp only [withActive]
  refine withBar_wf w (fun _ => ?_)
  split
  · exact hk _
  · exact raise_wf _ _ w

theorem execBari_wf {a o} (w : Memory.wf s = true) : Result.Canonical (execBari a o s) := by
  dsimp only [execBari]
  refine .next (withBar_wf w (fun _ => ?_))
  split
  · exact raise_wf _ _ w
  · exact advance_wf (putBar_wf (closeBar_wf w))

theorem arriveX_wf {o c} (w : Memory.wf s = true) : Memory.wf (arriveX s o c) = true := by
  dsimp only [arriveX]
  refine withActive_wf w (fun _ => ?_)
  split
  · exact raise_wf _ _ w
  split
  next h => exact advance_wf (barEvent_wf (drain_wf w) _ h)
  · exact hold_wf w

theorem execBarx_wf {a o} (w : Memory.wf s = true) : Result.Canonical (execBarx a o s) := by
  dsimp only [execBarx]
  refine .next (withActive_wf w (fun _ => ?_))
  split
  · exact raise_wf _ _ w
  split
  next h => exact advance_wf (barEvent_wf w _ h)
  · exact hold_wf w

theorem execBarw_wf {p o} (w : Memory.wf s = true) : Result.Canonical (execBarw p o s) := by
  dsimp only [execBarw]
  refine .next (withActive_wf w (fun _ => ?_))
  split
  · exact advance_wf w
  · exact hold_wf w

theorem execBarrierWaitResume_wf {job str} (w : Memory.wf s = true) : Result.Canonical (execBarrierWaitResume job str s) := by
  dsimp only [execBarrierWaitResume]
  split
  · exact .next w
  split
  · split
    · exact .next (wf_ite (advance_wf (focus_wf w)) w)
    · exact .next (wf_ite (advance_wf (focus_wf w)) w)
    · exact .next w
  split
  · exact .next (wf_ite (putJob_wf w) w)
  · exact .next (wf_ite (putJob_wf w) w)
  · exact .next w

theorem execBarrierClock_wf {b} (w : Memory.wf s = true) : Result.Canonical (execBarrierClock b s) := .next (idleBar_wf w)

theorem execTubset_wf {a o} (w : Memory.wf s = true) : Result.Canonical (execTubset a o s) := by
  dsimp only [execTubset]
  refine .next (withTub_wf w (fun _ => ?_))
  split
  · exact raise_wf _ _ w
  split
  · exact raise_wf _ _ w
  refine withRecord_wf w (fun _ _ w' => ?_)
  split
  · exact raise_wf _ _ (takeReplies_wf w')
  refine withAccess_wf w' (fun _ _ => ?_)
  split
  · exact raise_wf _ _ (takeReplies_wf w')
  · exact raise_wf _ _ (takeReplies_wf w')
  · exact advance_wf (putTub_wf (takeReplies_wf w'))

theorem tubarm_wf {on o} (w : Memory.wf s = true) : Result.Canonical (tubarm on o s) := by
  dsimp only [tubarm]
  refine .next (withTub_wf w (fun _ => ?_))
  split
  · exact raise_wf _ _ w
  · exact advance_wf (putTub_wf w)

end Sys2Proof.Machine
end

section
/-! SUPPORT. Canonical form of the memories (O58): operands of engine instructions. -/

namespace Sys2Proof.Machine
variable {s : State}

theorem putData_wf {p h a d} (w : Memory.wf s = true) : Ensures (Memory.wf · = true) (putData s p h a d) := writeBytes_ok w

theorem putNibble_wf {p h a nib v} (w : Memory.wf s = true) : Ensures (Memory.wf · = true) (putNibble s p h a nib v) := by
  dsimp only [putNibble]
  split
  · exact .error
  · split
    · exact .error
    · exact .ok (takeStores_wf w)
  · exact .ok (storeLine_wf _ _ _ _ _ w)

theorem putElem_wf {p h e v} (w : Memory.wf s = true) : Ensures (Memory.wf · = true) (putElem s p h e v) :=
  Ensures.ite (putNibble_wf w) (putData_wf w)

end Sys2Proof.Machine
end

section
/-! SUPPORT. Canonical form of the memories (O58): the spool and the basting. -/

namespace Sys2Proof.Machine
variable {s : State}

theorem execSpa_wf {d a} (w : Memory.wf s = true) : Result.Canonical (execSpa d a s) := by
  dsimp only [execSpa]
  split
  · exact .next (raise_wf _ _ w)
  split
  · exact .next (retireX_wf w)
  split
  · exact .next (hold_wf w)
  · exact .next (raise_wf _ _ w)

theorem execSprst_wf {a} (w : Memory.wf s = true) : Result.Canonical (execSprst a s) := by
  dsimp only [execSprst]
  split
  · exact .next (raise_wf _ _ w)
  · exact .next (advance_wf (wf_with w))

theorem execSpra_wf {d a} (w : Memory.wf s = true) : Result.Canonical (execSpra d a s) := by
  dsimp only [execSpra]
  split
  · exact .next (raise_wf _ _ w)
  split
  · exact .next (retireX_wf w)
  split
  · exact .next (retireX_wf w)
  · exact .next (hold_wf w)
  · exact .next (raise_wf _ _ w)

theorem execSpf_wf {a} (w : Memory.wf s = true) : Result.Canonical (execSpf a s) := by
  dsimp only [execSpf]
  split
  · exact .next (raise_wf _ _ w)
  split
  · exact .next (raise_wf _ _ w)
  split
  · exact .next (hold_wf w)
  · exact .next (advance_wf (wf_with w))

theorem execSpoolRelease_wf {job} (w : Memory.wf s = true) : Result.Canonical (execSpoolRelease job s) := .next (updJob_wf w)

theorem bastingMisuse_wf {p} (w : Memory.wf s = true) : Memory.wf (bastingMisuse s p) = true := raise_wf _ _ w

theorem putPair_wf {p q} (w : Memory.wf s = true) : Memory.wf (putPair s p q) = true := w

theorem execSpecb_wf {p} (w : Memory.wf s = true) : Result.Canonical (execSpecb p s) := by
  dsimp only [execSpecb]
  split
  · exact .next (bastingMisuse_wf w)
  refine .next (withAccess_wf (drainLoad_wf (settleInto_wf w)) (fun _ _ => ?_))
  split
  · split
    · exact advance_wf (putPair_wf (drainLoad_wf (settleInto_wf w)))
    · exact bastingMisuse_wf (drainLoad_wf (settleInto_wf w))
  split
  · exact advance_wf (putPair_wf (drainLoad_wf (settleInto_wf w)))
  · exact bastingMisuse_wf (drainLoad_wf (settleInto_wf w))

theorem clearDirtyBlocks_wf {q} (w : Memory.wf s = true) : Memory.wf (clearDirtyBlocks s q) = true :=
  foldl_wf (fun _ _ w' => clearZero_wf _ _ _ w') w

theorem execSpecc_wf {p} (w : Memory.wf s = true) : Result.Canonical (execSpecc p s) := by
  dsimp only [execSpecc]
  split
  · exact .next (bastingMisuse_wf w)
  · exact .next (advance_wf (putPair_wf (clearDirtyBlocks_wf (settleInto_wf w))))

theorem execSpeca_wf {p} (w : Memory.wf s = true) : Result.Canonical (execSpeca p s) := by
  dsimp only [execSpeca]
  split
  · exact .next (bastingMisuse_wf w)
  · exact .next (advance_wf (putPair_wf (clearDirtyBlocks_wf (settleInto_wf w))))

end Sys2Proof.Machine
end

section
/-! SUPPORT. Canonical form of the memories (O58): engine operations. -/

namespace Sys2Proof.Machine
variable {s : State}

theorem putStream_wf {x} (w : Memory.wf s = true) : Memory.wf (putStream s x) = true := w

theorem stepPatch_wf {n} (w : Memory.wf s = true) : Memory.wf (stepPatch s n) = true := putStream_wf w

theorem engTrap_wf {e sib c v prog word} (w : Memory.wf s = true) : Memory.wf (engTrap s e sib c v prog word) = true := deliver_wf w

theorem streamTrap_wf {c v} (w : Memory.wf s = true) : Memory.wf (streamTrap s c v) = true := engTrap_wf (putStream_wf w)

theorem streamStop_wf {e} (w : Memory.wf s = true) : Memory.wf (streamStop s e) = true := by
  dsimp only [streamStop]
  split
  next h => exact Verdict.wf_of h (verdict_wf w)
  next h => exact streamTrap_wf (Verdict.wf_of h (verdict_wf w))
  next h => exact tellContext_wf _ _ _ _ (putStream_wf (Verdict.wf_of h (verdict_wf w)))
  rename_i h
  exact putStream_wf (Verdict.wf_of h (verdict_wf w))

theorem noteWord_wf (w : Memory.wf s = true) : Memory.wf (noteWord s) = true := putStream_wf w

theorem onWord_wf {n k} (w : Memory.wf s = true) (hk : ∀ u, Memory.wf u = true → Memory.wf (k u) = true) :
    Result.Canonical (onWord s n k) :=
  .next (wf_ite (hk _ (noteWord_wf w)) (stepPatch_wf (noteWord_wf w)))

theorem issueOp_wf {pat t n} (w : Memory.wf s = true) : Memory.wf (issueOp s pat t n) = true := putStream_wf w

theorem withSlot_wf {p w' k} (w : Memory.wf s = true) (hk : ∀ a, Memory.wf (k a) = true) : Memory.wf (withSlot s p w' k) = true := by
  dsimp only [withSlot]
  split
  · exact hk _
  · exact streamTrap_wf w

theorem execAmend_wf {p f v} (w : Memory.wf s = true) : Result.Canonical (execAmend p f v s) :=
  onWord_wf w (fun _ w' => withSlot_wf w' (fun _ => putStream_wf w'))

theorem withEndl_wf {w' k} (w : Memory.wf s = true) (hk : ∀ a, Memory.wf (k a) = true) : Memory.wf (withEndl s w' k) = true := by
  dsimp only [withEndl]
  split
  · exact streamStop_wf w
  · exact streamTrap_wf w
  · exact hk _

theorem loop_wf {w' stages n} (w : Memory.wf s = true) : Result.Canonical (loop w' stages n s) := by
  dsimp only [loop]
  refine .next ?_
  split
  · exact streamTrap_wf (noteWord_wf w)
  refine withEndl_wf (noteWord_wf w) (fun _ => ?_)
  split
  · exact putStream_wf (noteWord_wf w)
  · split <;> exact putStream_wf (noteWord_wf w)

theorem execEndl_wf (w : Memory.wf s = true) : Result.Canonical (execEndl s) := by
  dsimp only [execEndl]
  refine .next ?_
  split
  · exact putStream_wf w
  split
  · split <;> exact putStream_wf w
  · exact putStream_wf w

theorem execPred_wf {st} (w : Memory.wf s = true) : Result.Canonical (execPred st s) := by
  dsimp only [execPred]
  refine .next ?_
  split
  · split
    · exact putStream_wf (noteWord_wf w)
    · exact streamTrap_wf (noteWord_wf w)
  · exact streamTrap_wf (noteWord_wf w)

theorem withStreamBar_wf {o k} (w : Memory.wf s = true) (hk : ∀ a, Memory.wf (k a) = true) : Memory.wf (withStreamBar s o k) = true := by
  dsimp only [withStreamBar]
  split
  · exact streamTrap_wf w
  split
  · exact hk _
  · exact streamTrap_wf w

theorem execBwt_wf {p o} (w : Memory.wf s = true) : Result.Canonical (execBwt p o s) := by
  dsimp only [execBwt]
  refine onWord_wf w (fun _ w' => ?_)
  refine withStreamBar_wf w' (fun _ => ?_)
  split
  · exact stepPatch_wf w'
  · exact putStream_wf w'

theorem execBav_wf {c o} (w : Memory.wf s = true) : Result.Canonical (execBav c o s) :=
  onWord_wf w (fun _ w' => withStreamBar_wf w' (fun _ => putStream_wf w'))

theorem execToks_wf {q n} (w : Memory.wf s = true) : Result.Canonical (execToks q n s) := by
  dsimp only [execToks]
  refine onWord_wf w (fun _ w' => ?_)
  split
  · split
    · exact stepPatch_wf w'
    · exact w'
  split
  · exact stepPatch_wf w'
  · exact w'

theorem execPatl_wf {p n g} (w : Memory.wf s = true) : Result.Canonical (execPatl p n g s) := by
  dsimp only [execPatl]
  refine onWord_wf w (fun _ w' => ?_)
  split
  · split
    · split
      · exact streamTrap_wf w'
      split
      · exact streamStop_wf w'
      split
      · exact streamTrap_wf w'
      split
      · exact streamStop_wf w'
      · exact putStream_wf (takeReplies_wf w')
    split
    · exact streamTrap_wf w'
    split
    · exact streamStop_wf w'
    split
    · exact streamTrap_wf w'
    split
    · exact streamStop_wf w'
    · exact putStream_wf (takeReplies_wf w')
  · exact streamTrap_wf w'

theorem execIllegalInstr_wf {eng w'} (w : Memory.wf s = true) : Result.Canonical (execIllegalInstr eng w' s) := by
  dsimp only [execIllegalInstr]
  split
  · exact onWord_wf w (fun _ w2 => streamTrap_wf w2)
  · exact .next (raise_wf _ _ w)

theorem execIllegalPatch_wf {w' u} (w : Memory.wf s = true) : Result.Canonical (execIllegalPatch w' u s) :=
  onWord_wf w (fun _ w2 => streamTrap_wf w2)

theorem execBavArrival_wf {job e} (w : Memory.wf s = true) : Result.Canonical (execBavArrival job e s) := by
  dsimp only [execBavArrival]
  split
  · exact .next w
  split
  · exact .next w
  split
  · split
    · exact .next w
    rename_i h
    exact .next (updJob_wf (barEvent_wf w _ h))
  · exact .next w

theorem execSegmentStart_wf {job e} (w : Memory.wf s = true) : Result.Canonical (execSegmentStart job e s) := by
  dsimp only [execSegmentStart]
  split
  · exact .next w
  split
  · exact .next w
  split
  · exact .next (putJob_wf w)
  split
  · exact .next (putJob_wf w)
  · exact .next w

theorem completeOp_wf {e fl} (w : Memory.wf s = true) : Memory.wf (completeOp s e fl) = true := unitPassed_wf w

theorem noteProgress_wf {e prog fl} (w : Memory.wf s = true) : Memory.wf (noteProgress s e prog fl) = true := w

theorem trapOp_wf {e c v prog} (w : Memory.wf s = true) : Memory.wf (trapOp s e c v prog) = true := engTrap_wf w

theorem haltOp_wf {e h} (w : Memory.wf s = true) : Memory.wf (haltOp s e h) = true := w

theorem keepOp_wf {e f} (w : Memory.wf s = true) : Memory.wf (keepOp s e f) = true := w

theorem stopOp_wf {e prog fl x} (w : Memory.wf s = true) : Memory.wf (stopOp s e prog fl x) = true := by
  dsimp only [stopOp]
  split
  next h => exact keepOp_wf (Verdict.wf_of h (verdict_wf (noteProgress_wf w)))
  next h => exact trapOp_wf (Verdict.wf_of h (verdict_wf (noteProgress_wf w)))
  next h => exact tellContext_wf _ _ _ _ (haltOp_wf (Verdict.wf_of h (verdict_wf (noteProgress_wf w))))
  rename_i h
  exact haltOp_wf (Verdict.wf_of h (verdict_wf (noteProgress_wf w)))

end Sys2Proof.Machine
end

section
/-! SUPPORT. Canonical form of the memories (O58): LD and ST engines. -/

namespace Sys2Proof.Machine
variable {s : State}

theorem unitLoop_wf {e prog k pre n n' n'' fl} (w : Memory.wf s = true)
    (hk : ∀ a u, Memory.wf u = true → Ensures (Memory.wf ·.1 = true) (k a u)) (hpre : ∀ a u, Memory.wf u = true → Memory.wf (pre a u) = true) :
    Memory.wf (unitLoop e prog k pre n n' n'' fl s) = true := by
  induction n generalizing n' n'' fl s with
  | zero => exact completeOp_wf w
  | succ n ih =>
    cases n' with
    | zero => exact noteProgress_wf w
    | succ n' =>
      dsimp only [unitLoop]
      split
      · exact stopOp_wf (hpre _ _ w)
      rename_i h
      exact ih (takeReplies_wf (hk _ _ (hpre _ _ w) _ h))

theorem lsRun_wf {e i total k prog first vecs} (w : Memory.wf s = true)
    (hk : ∀ a b u, Memory.wf u = true → Ensures (Memory.wf ·.1 = true) (k a b u)) :
    Result.Canonical (lsRun e i s total k prog first vecs) := by
  dsimp only [lsRun]
  refine .next ?_
  split
  · exact trapOp_wf w
  · exact unitLoop_wf w (fun _ _ w' => hk _ _ _ w') (fun _ _ w2 => keepOp_wf w2)

theorem setReg_wf {r f t v} (w : Memory.wf s = true) : Memory.wf (setReg s r f t v) = true := w

theorem loadTo_wf {p o h r fr rm sat scales t e} (w : Memory.wf s = true) :
    Ensures (Memory.wf ·.1 = true) (loadTo s p o h r fr rm sat scales t e) := by
  dsimp only [loadTo]
  split
  · exact .error
  · exact .ok (setReg_wf w)
  split
  · exact .error
  · exact .ok (setReg_wf w)

theorem putInt4_wf {p h code el n t e} (w : Memory.wf s = true) : Ensures (Memory.wf · = true) (putInt4 s p h code el n t e) := by
  dsimp only [putInt4]
  refine Ensures.ite (.ok w) ?_
  split
  · exact putElem_wf w
  split
  · exact .error
  rename_i h'
  exact .ok (keepOp_wf (putData_wf w _ h'))

theorem storeFrom_wf {p h r fr rm sat scales el n t} (w : Memory.wf s = true) :
    Ensures (Memory.wf ·.1 = true) (storeFrom s p h r fr rm sat scales el n t) := by
  dsimp only [storeFrom]
  split
  · exact .error
  · exact .ok w
  split
  · exact .error
  rename_i h'
  exact .ok (Ensures.ite (p := (Memory.wf · = true)) (putData_wf w) (Ensures.ite (putInt4_wf w) (putElem_wf w)) _ h')

theorem setRegBytes_wf {r a d} (w : Memory.wf s = true) : Memory.wf (setRegBytes s r a d) = true := w

theorem ldtUnit_wf {t o k} (w : Memory.wf s = true) : Ensures (Memory.wf ·.1 = true) (ldtUnit t o k s) := by
  dsimp only [ldtUnit]
  refine Ensures.ite ?_ (loadTo_wf w)
  split
  · exact .error
  · exact .ok (setRegBytes_wf w)
  split
  · exact .error
  · exact .ok (setRegBytes_wf w)

theorem execLdt_wf {t} (w : Memory.wf s = true) : Result.Canonical (execLdt t s) := lsRun_wf w (fun _ _ _ w' => ldtUnit_wf w')

theorem sttUnit_wf {t o k} (w : Memory.wf s = true) : Ensures (Memory.wf ·.1 = true) (sttUnit t o k s) := by
  dsimp only [sttUnit]
  refine Ensures.ite ?_ (storeFrom_wf w)
  split
  · exact .error
  · exact .ok w
  split
  · exact .error
  rename_i h
  exact .ok (putData_wf w _ h)

theorem execStt_wf {t} (w : Memory.wf s = true) : Result.Canonical (execStt t s) := lsRun_wf w (fun _ _ _ w' => sttUnit_wf w')

theorem ldvUnit_wf {l o k} (w : Memory.wf s = true) : Ensures (Memory.wf ·.1 = true) (ldvUnit l o k s) := loadTo_wf w

theorem execLdv_wf {l} (w : Memory.wf s = true) : Result.Canonical (execLdv l s) := lsRun_wf w (fun _ _ _ w' => ldvUnit_wf w')

theorem ldbUnit_wf {l o k} (w : Memory.wf s = true) : Ensures (Memory.wf ·.1 = true) (ldbUnit l o k s) := by
  dsimp only [ldbUnit]
  refine Ensures.ite (.ok (setReg_wf w)) ?_
  split
  · exact .error
  rename_i h
  exact .ok (keepOp_wf (loadTo_wf w _ h))

theorem execLdb_wf {l q} (w : Memory.wf s = true) : Result.Canonical (execLdb l q s) := lsRun_wf w (fun _ _ _ w' => ldbUnit_wf w')

theorem stvUnit_wf {l o k} (w : Memory.wf s = true) : Ensures (Memory.wf ·.1 = true) (stvUnit l o k s) := storeFrom_wf w

theorem execStv_wf {l} (w : Memory.wf s = true) : Result.Canonical (execStv l s) := lsRun_wf w (fun _ _ _ w' => stvUnit_wf w')

theorem ldgUnit_wf {x o k} (w : Memory.wf s = true) : Ensures (Memory.wf ·.1 = true) (ldgUnit x o k s) := loadTo_wf w

theorem execLdg_wf {x} (w : Memory.wf s = true) : Result.Canonical (execLdg x s) := lsRun_wf w (fun _ _ _ w' => ldgUnit_wf w')

theorem stsUnit_wf {x o k} (w : Memory.wf s = true) : Ensures (Memory.wf ·.1 = true) (stsUnit x o k s) := storeFrom_wf w

theorem execSts_wf {x} (w : Memory.wf s = true) : Result.Canonical (execSts x s) := lsRun_wf w (fun _ _ _ w' => stsUnit_wf w')

theorem staHere_wf {p x h k e} (w : Memory.wf s = true) : Ensures (Memory.wf ·.1 = true) (staHere s p x h k e) := by
  dsimp only [staHere]
  split
  · exact .error
  split
  · exact .error
  rename_i h'
  exact .ok (keepOp_wf (putElem_wf w _ h'))

theorem staElem_wf {p x h k e} (w : Memory.wf s = true) : Ensures (Memory.wf ·.1 = true) (staElem s p x h k e) := by
  dsimp only [staElem]
  split
  · exact .error
  · exact .error
  · split
    · exact .error
    · exact .ok w
  · exact Ensures.ite .error (Ensures.mapError (staHere_wf w))

theorem staUnit_wf {x o k} (w : Memory.wf s = true) : Ensures (Memory.wf ·.1 = true) (staUnit x o k s) := by
  dsimp only [staUnit]
  split
  · exact .error
  · exact .ok w
  · exact staElem_wf w

theorem execSta_wf {x} (w : Memory.wf s = true) : Result.Canonical (execSta x s) := lsRun_wf w (fun _ _ _ w' => staUnit_wf w')

/-- A store of zeros marks its block in the zero map (10_scratchpad.md R243): a write of the map. -/
theorem setZero_wf {x} (w : Memory.wf s = true) : Memory.wf (setZero s x) = true := by
  dsimp only [setZero]
  split
  · exact Memory.wf_zeroMap w (sset_wf _ _)
  · exact w

theorem ldzUnit_wf {z o k} (w : Memory.wf s = true) : Ensures (Memory.wf ·.1 = true) (ldzUnit z o k s) := by
  dsimp only [ldzUnit]
  split
  · exact .error
  · exact .error
  · exact .ok (wf_ite (wf_ite (setZero_wf w) w) (setReg_wf (wf_ite (setZero_wf w) w)))

theorem execLdz_wf {z} (w : Memory.wf s = true) : Result.Canonical (execLdz z s) := lsRun_wf w (fun _ _ _ w' => ldzUnit_wf w')

theorem stqUnit_wf {t o k} (w : Memory.wf s = true) : Ensures (Memory.wf ·.1 = true) (stqUnit t o k s) := by
  dsimp only [stqUnit]
  split
  · exact .error
  · exact .ok w
  refine Ensures.ite (.ok w) ?_
  refine Ensures.ite ?_ ?_
  · split
    · exact .error
    rename_i h
    exact .ok (putData_wf w _ h)
  · split
    · exact .error
    rename_i h
    split
    · exact .error
    rename_i h'
    exact .ok (putData_wf (putData_wf w _ h) _ h')

theorem execStq_wf {t} (w : Memory.wf s = true) : Result.Canonical (execStq t s) := lsRun_wf w (fun _ _ _ w' => stqUnit_wf w')

end Sys2Proof.Machine
end

section
/-! SUPPORT. Canonical form of the memories (O58): the MX engine. -/

namespace Sys2Proof.Machine
variable {s : State}

theorem keepRowVecs_wf {p x all i n} (w : Memory.wf s = true) : Memory.wf (keepRowVecs s p x all i n) = true := keepOp_wf w

theorem putMatrix_wf {m} (w : Memory.wf s = true) : Memory.wf (putMatrix s m) = true := w

theorem mxRun_wf {i k} (w : Memory.wf s = true) (hk : ∀ a, Memory.wf (k a) = true) : Result.Canonical (mxRun i s k) := by
  dsimp only [mxRun]
  refine .next ?_
  split
  · exact trapOp_wf w
  · exact hk _

theorem execMlb_wf {x} (w : Memory.wf s = true) : Result.Canonical (execMlb x s) := by
  dsimp only [execMlb]
  refine mxRun_wf w (fun _ => ?_)
  split
  · exact stopOp_wf (keepRowVecs_wf w)
  · exact completeOp_wf (putMatrix_wf (keepRowVecs_wf w))

theorem rowBlocks_wf {x c m all run n n' fl} (w : Memory.wf s = true) : Memory.wf (rowBlocks x c m all run n n' fl s) = true := by
  induction n generalizing n' fl s with
  | zero =>
    dsimp only [rowBlocks]
    split
    · exact completeOp_wf w
    · exact noteProgress_wf w
  | succ n ih =>
    dsimp only [rowBlocks]
    split
    · exact completeOp_wf w
    split
    · exact stopOp_wf (keepRowVecs_wf w)
    · exact ih (takeReplies_wf (putMatrix_wf (keepRowVecs_wf w)))

theorem execMma_wf {x} (w : Memory.wf s = true) : Result.Canonical (execMma x s) := mxRun_wf w (fun _ => rowBlocks_wf w)

theorem execMmb_wf {x} (w : Memory.wf s = true) : Result.Canonical (execMmb x s) :=
  mxRun_wf w (fun _ => rowBlocks_wf (wf_ite w (putMatrix_wf w)))

theorem execMacr_wf {x} (w : Memory.wf s = true) : Result.Canonical (execMacr x s) := mxRun_wf w (fun _ => completeOp_wf w)

theorem putElems_wf {p h l} (w : Memory.wf s = true) : Ensures (Memory.wf · = true) (putElems s p h l) := by
  induction l generalizing s with
  | nil => exact .ok w
  | cons y ys ih =>
    dsimp only [putElems]
    split
    · exact .error
    rename_i h'
    exact ih (putElem_wf w _ h')

theorem mmadKeep_wf {x i} (w : Memory.wf s = true) : Memory.wf (mmadKeep x i s) = true := by
  dsimp only [mmadKeep]
  split
  · exact w
  split
  · exact keepRowVecs_wf (keepRowVecs_wf w)
  · exact keepOp_wf (keepRowVecs_wf (keepRowVecs_wf w))

theorem mmadRow_wf {o x i} (w : Memory.wf s = true) : Ensures (Memory.wf ·.1 = true) (mmadRow o x i s) := by
  dsimp only [mmadRow]
  split
  · exact .error
  split
  · split
    · exact .error
    split
    · exact .error
    rename_i h
    exact .ok (putElems_wf w _ h)
  · exact .ok w

theorem execMmad_wf {x} (w : Memory.wf s = true) : Result.Canonical (execMmad x s) :=
  mxRun_wf w (fun _ => unitLoop_wf w (fun _ _ w' => mmadRow_wf w') (fun _ _ w2 => mmadKeep_wf w2))

end Sys2Proof.Machine
end

section
/-! SUPPORT. Canonical form of the memories (O58): the VX engine. -/

namespace Sys2Proof.Machine
variable {s : State}

theorem vxRun_wf {i v k} (w : Memory.wf s = true) : Result.Canonical (vxRun i v s k) := by
  dsimp only [vxRun]
  refine .next ?_
  split
  · exact trapOp_wf w
  split
  · exact trapOp_wf w
  · exact completeOp_wf w

theorem vx1_wf {i v g} (w : Memory.wf s = true) : Result.Canonical (vx1 i v g s) := vxRun_wf w

theorem vx2_wf {i v g} (w : Memory.wf s = true) : Result.Canonical (vx2 i v g s) := vxRun_wf w

theorem vx3_wf {i v g} (w : Memory.wf s = true) : Result.Canonical (vx3 i v g s) := vxRun_wf w

theorem execVtree_wf {v k h} (w : Memory.wf s = true) : Result.Canonical (execVtree v k h s) := by
  dsimp only [execVtree]
  refine .next ?_
  split
  · exact trapOp_wf w
  split
  · exact stopOp_wf w
  split
  · exact trapOp_wf w
  · exact completeOp_wf w

theorem execVpost_wf {v} (w : Memory.wf s = true) : Result.Canonical (execVpost v s) := by
  dsimp only [execVpost]
  split
  · exact .next w
  · exact vxRun_wf w

end Sys2Proof.Machine
end

section
/-! SUPPORT. Canonical form of the memories (O58): the patch streams. -/

namespace Sys2Proof.Machine
variable {s : State}

theorem begun_wf {e o sib} (w : Memory.wf s = true) : Memory.wf (begun s e o sib) = true := w

theorem startOp_wf {e o sib} (w : Memory.wf s = true) : Memory.wf (startOp s e o sib) = true := by
  dsimp only [startOp]
  split
  · exact trapOp_wf w
  split
  · exact trapOp_wf w
  split
  · exact trapOp_wf w
  · exact trapOp_wf w
  · exact w
  · exact begun_wf w

theorem execOperationStart_wf {job e} (w : Memory.wf s = true) : Result.Canonical (execOperationStart job e s) := by
  dsimp only [execOperationStart]
  split
  · exact .next w
  split
  · exact .next (wf_ite (startOp_wf (focus_wf w)) w)
  · exact .next w

theorem takeMmad_wf {job} (w : Memory.wf s = true) : Memory.wf (takeMmad s job) = true := by
  dsimp only [takeMmad]
  split
  · exact w
  split
  · split
    · exact startOp_wf (focus_wf w)
    · exact w
  · exact w

theorem giveIndex_wf {k b sib} (w : Memory.wf s = true) : Memory.wf (giveIndex s k b sib) = true := w

theorem takeBlock_wf {job} (w : Memory.wf s = true) : Memory.wf (takeBlock s job) = true := by
  dsimp only [takeBlock]
  split
  · exact w
  split
  · split
    · split
      · exact giveIndex_wf (focus_wf w)
      · exact w
    · exact w
  · exact w

theorem tick_wf {n} (w : Memory.wf s = true) : Memory.wf (tick s n) = true := by
  dsimp only [tick]
  split
  · exact foldl_wf (fun _ _ w' => passBar_wf w') (mapJobs_wf w)
  · exact w

end Sys2Proof.Machine
end

section
/-! SUPPORT. Canonical form of the memories (O58): units of work. -/

namespace Sys2Proof.Machine
variable {s : State}

theorem unitFault_wf {id t frec} (w : Memory.wf s = true) : Memory.wf (unitFault s id t frec) = true := by
  dsimp only [unitFault]
  split
  · exact w
  split
  · exact tellContext_wf _ _ _ _ (updBasket_wf _ _ w)
  · exact deliver_wf w

theorem unitVerdict_wf {id p e} (w : Memory.wf s = true) : Memory.wf (unitVerdict s id p e).st = true := by
  dsimp only [unitVerdict]
  split
  · split
    · exact verdict_wf w
    · exact w
  · split
    · exact verdict_wf w
    · exact w
  · split
    · exact verdict_wf w
    · exact w
  · exact verdict_wf w

theorem pinWrite_wf {p va pin d} (w : Memory.wf s = true) : Ensures (Memory.wf · = true) (pinWrite s p va pin d) := by
  dsimp only [pinWrite]
  refine Ensures.ite .error ?_
  refine Ensures.ite .error ?_
  dsimp only [unlessMarked]
  split
  · exact .error
  split
  · exact .ok w
  · exact .ok (storeLine_wf _ _ _ _ _ w)
  · exact .ok (storeLine_wf _ _ _ _ _ w)
  · exact .ok (storeLine_wf _ _ _ _ _ w)
  split
  · exact .error
  · exact .ok (takeStores_wf w)

theorem payOwed_wf {p va pin l} (w : Memory.wf s = true) : Memory.wf (payOwed s p va pin l).1 = true := by
  induction l generalizing s with
  | nil => exact w
  | cons y ys ih =>
    dsimp only [payOwed]
    split
    next h => exact ih (pinWrite_wf w _ h)
    · exact w

theorem reduceHere_wf {into from' owner op f rm sat pol d} (w : Memory.wf s = true) :
    Memory.wf (reduceHere s into from' owner op f rm sat pol d) = true :=
  storeLine_wf _ _ _ _ _ w

theorem reduceChunk_wf {p l op f rm sat pol d} (w : Memory.wf s = true) :
    Ensures (Memory.wf ·.1 = true) (reduceChunk s p l op f rm sat pol d) := by
  dsimp only [reduceChunk]
  split
  · exact .error
  · split
    · exact .error
    · exact .ok w
  · exact Ensures.ite .error (.ok (reduceHere_wf w))

end Sys2Proof.Machine
end

section
/-! SUPPORT. Canonical form of the memories (O58): the copy channels. -/

namespace Sys2Proof.Machine
variable {s : State}

theorem putChan_wf {c} (w : Memory.wf s = true) : Memory.wf (putChan s c) = true := by
  dsimp only [putChan]
  split <;> exact w

theorem dropChan_wf {core n} (w : Memory.wf s = true) : Memory.wf (dropChan s core n) = true := w

theorem execChain_wf {a n} (w : Memory.wf s = true) : Result.Canonical (execChain a n s) := by
  dsimp only [execChain]
  split
  · exact .next (raise_wf _ _ w)
  split
  · exact .next (hold_wf w)
  · exact .next (advance_wf (putChan_wf (drain_wf w)))

theorem execCpyx_wf {d a b k n} (w : Memory.wf s = true) : Result.Canonical (execCpyx d a b k n s) := by
  dsimp only [execCpyx]
  split
  · exact .next (raise_wf _ _ w)
  split
  · exact .next (advance_wf w)
  split
  · exact .next (hold_wf w)
  · exact .next (advance_wf (setWmark_wf (putChan_wf (drain_wf w))))

theorem execCwait_wf {a n} (w : Memory.wf s = true) : Result.Canonical (execCwait a n s) := .next (wf_ite (advance_wf w) (hold_wf w))

theorem payChan_wf {c} (w : Memory.wf s = true) : Memory.wf (payChan s c).1 = true := by
  dsimp only [payChan]
  split
  · exact payOwed_wf w
  split
  next h => exact Verdict.wf_of h (unitVerdict_wf (payOwed_wf w))
  next h => exact Verdict.wf_of h (unitVerdict_wf (payOwed_wf w))
  next h => exact Verdict.wf_of h (unitVerdict_wf (payOwed_wf w))
  rename_i h
  exact unitFault_wf (Verdict.wf_of h (unitVerdict_wf (payOwed_wf w)))

theorem haltChan_wf {c late h cause v} (w : Memory.wf s = true) : Memory.wf (haltChan s c late h cause v) = true := by
  dsimp only [haltChan]
  exact putChan_wf (payChan_wf w)

theorem stopChan_wf {c late x} (w : Memory.wf s = true) : Memory.wf (stopChan s c late x) = true := by
  dsimp only [stopChan]
  split
  next h => exact putChan_wf (Verdict.wf_of h (unitVerdict_wf w))
  next h => exact putChan_wf (Verdict.wf_of h (unitVerdict_wf w))
  next h => exact haltChan_wf (tellContext_wf _ _ _ _ (Verdict.wf_of h (unitVerdict_wf w)))
  rename_i h
  exact haltChan_wf (unitFault_wf (Verdict.wf_of h (unitVerdict_wf w)))

theorem restartChan_wf {core n} (w : Memory.wf s = true) : Memory.wf (restartChan s core n) = true := by
  dsimp only [restartChan]
  split
  · exact putChan_wf w
  · exact w

theorem withChan_wf {k} (w : Memory.wf s = true) (hk : ∀ a, Memory.wf (k a) = true) : Result.Canonical (withChan s k) := by
  dsimp only [withChan]
  refine .next ?_
  split
  · exact w
  split
  · exact w
  split
  · exact putChan_wf (payChan_wf w)
  split
  · exact w
  · exact hk _

theorem takeUp_wf {c raw i r b} (w : Memory.wf s = true) : Memory.wf (takeUp s c raw i r b) = true :=
  putChan_wf (wf_ite (setWmark_wf (barOwe_wf w)) (barOwe_wf w))

theorem readRecord_wf {c} (w : Memory.wf s = true) : Memory.wf (readRecord s c) = true := by
  dsimp only [readRecord]
  split
  · exact stopChan_wf w
  split
  · exact stopChan_wf w
  split
  · split
    · exact dropChan_wf (takeReplies_wf w)
    · exact putChan_wf (takeReplies_wf w)
  split
  · exact stopChan_wf (takeReplies_wf w)
  split
  · exact stopChan_wf (takeReplies_wf w)
  split
  · exact stopChan_wf (takeReplies_wf w)
  split
  · exact stopChan_wf (takeReplies_wf w)
  · exact takeUp_wf (takeReplies_wf w)

theorem execChannelRecordFetch_wf {core n} (w : Memory.wf s = true) : Result.Canonical (execChannelRecordFetch core n s) := by
  dsimp only [execChannelRecordFetch]
  refine withChan_wf w (fun _ => ?_)
  split
  · exact readRecord_wf (putChan_wf w)
  · exact w

theorem finishChan_wf {c} (w : Memory.wf s = true) : Memory.wf (finishChan s c) = true := putChan_wf w

theorem chanLoop_wf {k n n' c} (w : Memory.wf s = true) (hk : ∀ a u, Memory.wf u = true → Ensures (Memory.wf ·.2 = true) (k a u)) :
    Memory.wf (chanLoop k n n' c s) = true := by
  induction n generalizing n' c s with
  | zero => exact finishChan_wf w
  | succ n ih =>
    cases n' with
    | zero => exact putChan_wf w
    | succ n' =>
      dsimp only [chanLoop]
      split
      · exact stopChan_wf w
      rename_i h
      exact ih (putChan_wf (takeReplies_wf (hk _ _ w _ h)))

theorem runRecord_wf {total k} (w : Memory.wf s = true) (hk : ∀ a u, Memory.wf u = true → Ensures (Memory.wf ·.2 = true) (k a u)) :
    Result.Canonical (runRecord total k s) := by
  dsimp only [runRecord]
  refine withChan_wf w (fun _ => ?_)
  split
  · exact chanLoop_wf w (fun _ _ w' => hk _ _ w')
  · exact w

theorem unitOf_wf {c r} (hr : Ensures (Memory.wf ·.2 = true) r) : Ensures (Memory.wf ·.2 = true) (unitOf c r) := by
  cases r with
  | error e => exact .error
  | ok q => exact .ok (hr q rfl)

theorem copyRun_wf {p src dst n pol} (w : Memory.wf s = true) : Ensures (Memory.wf ·.2 = true) (copyRun s p src dst n pol) := by
  dsimp only [copyRun]
  split
  · exact .error
  split
  · exact .error
  rename_i h
  exact .ok (writeMarked_ok w _ h)

theorem passMark_wf {c v} (w : Memory.wf s = true) : Memory.wf (passMark s c v) = true := by
  dsimp only [passMark]
  split
  · exact setWmark_wf w
  · exact w

theorem execAff_wf {r w'} (w : Memory.wf s = true) : Result.Canonical (execAff r w' s) := by
  dsimp only [execAff]
  refine runRecord_wf w (fun _ _ w2 => ?_)
  refine unitOf_wf ?_
  split
  · exact .error
  rename_i h
  exact .ok (passMark_wf (copyRun_wf w2 _ h))

theorem execRed_wf {r w' op f rm sat} (w : Memory.wf s = true) : Result.Canonical (execRed r w' op f rm sat s) := by
  dsimp only [execRed]
  refine runRecord_wf w (fun _ _ w2 => ?_)
  refine unitOf_wf ?_
  split
  · exact .error
  split
  · exact .error
  rename_i h
  exact .ok (reduceChunk_wf w2 _ h)

theorem mcstSend_wf {r len k l n n' c} (w : Memory.wf s = true) : Ensures (Memory.wf ·.2 = true) (mcstSend r len k l n n' c s) := by
  induction n generalizing n' c s with
  | zero => exact .ok w
  | succ n ih =>
    dsimp only [mcstSend]
    refine Ensures.ite (.ok w) ?_
    refine Ensures.ite .error ?_
    split
    · exact .error
    rename_i h
    exact ih (takeReplies_wf (copyRun_wf w _ h))

theorem mcstSend_leaves {r len k l n n' c} (w : Memory.wf s = true) : Leaves (Memory.wf ·.2.1 = true) (mcstSend r len k l n n' c s) := by
  induction n generalizing n' c s with
  | zero => exact .ok
  | succ n ih =>
    dsimp only [mcstSend]
    split
    · exact .ok
    split
    · exact .error w
    split
    · exact .error w
    rename_i h
    exact ih (takeReplies_wf (copyRun_wf w _ h))

theorem mcstAll_wf {r len l q l' o c} (w : Memory.wf s = true) : Memory.wf (mcstAll r len l q l' o c s) = true := by
  induction l' generalizing o c s with
  | nil =>
    cases o with
    | none => exact finishChan_wf w
    | some x => exact stopChan_wf w
  | cons k ks ih =>
    unfold mcstAll
    split
    · exact ih w
    split
    next h => exact ih (mcstSend_wf w _ h)
    next h => exact putChan_wf (mcstSend_leaves w _ h)
    next h => exact wf_ite (ih (mcstSend_leaves w _ h)) (stopChan_wf (mcstSend_leaves w _ h))
    next h => exact stopChan_wf (mcstSend_leaves w _ h)

theorem execMcst_wf {r len ndst dlist} (w : Memory.wf s = true) : Result.Canonical (execMcst r len ndst dlist s) := by
  dsimp only [execMcst]
  refine withChan_wf w (fun _ => ?_)
  split
  · split
    · exact mcstAll_wf w
    split
    · exact finishChan_wf w
    split
    · exact stopChan_wf w
    · exact mcstAll_wf (takeReplies_wf w)
  · exact w

theorem execSig_wf {r v} (w : Memory.wf s = true) : Result.Canonical (execSig r v s) := by
  dsimp only [execSig]
  refine runRecord_wf w (fun _ _ w' => ?_)
  refine unitOf_wf ?_
  split
  · exact .error
  rename_i h
  exact .ok (writeBytes_ok w' _ h)

theorem putOffset_wf {q offs k v} (w : Memory.wf s = true) : Ensures (Memory.wf · = true) (putOffset s q offs k v) := writeBytes_ok w

theorem patchWrite_wf {c r p es offs m i k n ptrs} (w : Memory.wf s = true) :
    Ensures (Memory.wf ·.2 = true) (patchWrite s c r p es offs m i k n ptrs) := by
  dsimp only [patchWrite]
  split
  · exact .error
  split
  · exact .error
  rename_i h
  split
  · exact .error
  rename_i h'
  exact .ok (passMark_wf (Ensures.ite (p := (Memory.wf · = true)) (putOffset_wf (writeMarked_ok w _ h)) (.ok (writeMarked_ok w _ h)) _ h'))

theorem patchUnit_wf {c r p es offs l n} (w : Memory.wf s = true) : Ensures (Memory.wf ·.2 = true) (patchUnit s c r p es offs l n) := by
  dsimp only [patchUnit]
  split
  · exact .ok w
  split
  · exact .error
  · exact unitOf_wf (patchWrite_wf w)

theorem pgtRun_wf {c r p es nimg offs} (w : Memory.wf s = true) : Memory.wf (pgtRun s c r p es nimg offs) = true := by
  dsimp only [pgtRun]
  split
  · exact stopChan_wf w
  split
  · exact stopChan_wf w
  · exact chanLoop_wf (passMark_wf (putChan_wf w)) (fun _ _ w' => patchUnit_wf w')

theorem execPgt_wf {r p es nimg offs} (w : Memory.wf s = true) : Result.Canonical (execPgt r p es nimg offs s) := by
  dsimp only [execPgt]
  refine withChan_wf w (fun _ => ?_)
  split
  · split
    · exact pgtRun_wf w
    split
    · exact stopChan_wf w
    rename_i h
    exact pgtRun_wf (putChan_wf (takeReplies_wf (putOffset_wf w _ h)))
  · exact w

theorem execSkip_wf {r} (w : Memory.wf s = true) : Result.Canonical (execSkip r s) := by
  dsimp only [execSkip]
  refine withChan_wf w (fun _ => ?_)
  split
  · exact finishChan_wf w
  · exact w

theorem nextRecord_wf {c} (w : Memory.wf s = true) : Memory.wf (nextRecord s c) = true := by
  dsimp only [nextRecord]
  split
  · exact dropChan_wf w
  · exact putChan_wf w

/-- A barrier that a completion pays takes its event, or the completion waits. -/
theorem paid_wf {b : Option BarId} {e : BarEvent} (w : Memory.wf s = true) :
    Grants (Memory.wf · = true) (match b with | none => some s | some b => (barEvent s b e).map fun t => barPaid t b) := by
  split
  · exact .some w
  · exact .map fun _ h => barPaid_wf (barEvent_wf w _ h)

theorem execRecordCompletion_wf {core n} (w : Memory.wf s = true) : Result.Canonical (execRecordCompletion core n s) := by
  dsimp only [execRecordCompletion]
  refine .next ?_
  split
  · exact w
  split
  · exact w
  split
  · exact w
  next h =>
    have paid := paid_wf w _ h
    exact wf_ite (nextRecord_wf (payChan_wf paid)) (putChan_wf (payChan_wf paid))

theorem cpyxLoop_wf {x n n' c} (w : Memory.wf s = true) : Memory.wf (cpyxLoop x n n' c s) = true := by
  induction n generalizing n' c s with
  | zero => exact putChan_wf w
  | succ n ih =>
    cases n' with
    | zero => exact putChan_wf w
    | succ n' =>
      dsimp only [cpyxLoop]
      split
      · exact stopChan_wf w
      rename_i h
      exact ih (putChan_wf (takeReplies_wf (setWmark_wf (copyRun_wf w _ h))))

theorem runCpyx_wf (w : Memory.wf s = true) : Result.Canonical (runCpyx s) := by
  dsimp only [runCpyx]
  refine withChan_wf w (fun _ => ?_)
  split
  · split
    · exact cpyxLoop_wf w
    · exact w
  · exact w

theorem execCpyxTransferComplete_wf {core n} (w : Memory.wf s = true) : Result.Canonical (execCpyxTransferComplete core n s) := by
  dsimp only [execCpyxTransferComplete]
  refine .next ?_
  split
  · split
    · exact dropChan_wf w
    · exact w
  · exact w

end Sys2Proof.Machine
end

section
/-! SUPPORT. Canonical form of the memories (O58): the index blocks. -/

namespace Sys2Proof.Machine
variable {s : State}

theorem appendBlock_wf {b count bar} (w : Memory.wf s = true) : Memory.wf (appendBlock s b count bar) = true := by
  dsimp only [appendBlock]
  split
  · exact hold_wf w
  · exact advance_wf (wf_with (barOwe_wf (drain_wf w)))

theorem readBlock_wf {ea} (w : Memory.wf s = true) : Memory.wf (readBlock s ea) = true := by
  dsimp only [readBlock]
  refine withRecord_wf w (fun _ _ w' => ?_)
  split
  · exact raise_wf _ _ (takeReplies_wf w')
  split
  · exact raise_wf _ _ (takeReplies_wf w')
  · exact appendBlock_wf (takeReplies_wf w')

theorem putBlock_wf {k e} (w : Memory.wf s = true) : Memory.wf (putBlock s k e) = true := w

theorem payOffsets_wf {p e l} (w : Memory.wf s = true) : Memory.wf (payOffsets s p e l).1 = true := by
  induction l generalizing s with
  | nil => exact w
  | cons y ys ih =>
    dsimp only [payOffsets]
    split
    next h => exact ih (writeBytes_ok w _ h)
    · exact w

theorem payBlock_wf {e} (w : Memory.wf s = true) : Memory.wf (payBlock s e).1 = true := by
  have paid : ∀ {c : Prop} [Decidable c] {p va pin l q l'},
      Memory.wf (if c then payOffsets s p e l else payOwed s q va pin l').1 = true := by
    intros
    split
    · exact payOffsets_wf w
    · exact payOwed_wf w
  dsimp only [payBlock]
  split
  · exact paid
  split
  next h => exact Verdict.wf_of h (unitVerdict_wf paid)
  next h => exact Verdict.wf_of h (unitVerdict_wf paid)
  next h => exact Verdict.wf_of h (unitVerdict_wf paid)
  next h => exact unitFault_wf (wf_with (Verdict.wf_of h (unitVerdict_wf paid)))

theorem haltBlock_wf {k e h cause} (w : Memory.wf s = true) : Memory.wf (haltBlock s k e h cause) = true := by
  dsimp only [haltBlock]
  exact putBlock_wf (payBlock_wf w)

theorem stopBlock_wf {k e x} (w : Memory.wf s = true) : Memory.wf (stopBlock s k e x) = true := by
  dsimp only [stopBlock]
  split
  next h => exact putBlock_wf (Verdict.wf_of h (unitVerdict_wf w))
  next h => exact putBlock_wf (wf_with (Verdict.wf_of h (unitVerdict_wf w)))
  next h => exact haltBlock_wf (tellContext_wf _ _ _ _ (Verdict.wf_of h (unitVerdict_wf w)))
  rename_i h
  exact haltBlock_wf (unitFault_wf (Verdict.wf_of h (unitVerdict_wf w)))

theorem withBlock_wf {k} (w : Memory.wf s = true) (hk : ∀ a u, Memory.wf u = true → Memory.wf (k a u) = true) :
    Result.Canonical (withBlock s k) := by
  dsimp only [withBlock]
  refine .next ?_
  split
  · exact w
  split
  · exact w
  split
  · exact putBlock_wf (payBlock_wf w)
  split
  · exact w
  split
  · exact hk _ _ w
  split
  · exact hk _ _ (giveIndex_wf w)
  · exact w

theorem startBlock_wf {k e} (w : Memory.wf s = true) : Memory.wf (startBlock s k e) = true := by
  dsimp only [startBlock]
  split
  · exact stopBlock_wf w
  · exact stopBlock_wf w
  · exact putBlock_wf (takeReplies_wf w)

theorem moveRow_wf {p e b i src dst} (w : Memory.wf s = true) : Ensures (Memory.wf ·.2 = true) (moveRow s p e b i src dst) := by
  dsimp only [moveRow]
  split
  · exact .error
  split
  · exact .error
  rename_i h
  exact .ok (writeMarked_ok w _ h)

theorem scaAcross_wf {p l op f pol mark d} (w : Memory.wf s = true) : Ensures (Memory.wf · = true) (scaAcross s p l op f pol mark d) := by
  dsimp only [scaAcross]
  split
  · exact .error
  · exact .error
  · exact Ensures.map (fun _ _ => w)
  split
  · exact .error
  · exact writeMarked_ok w

theorem scaParts_wf {p l op f pol mark d l'} (w : Memory.wf s = true) : Ensures (Memory.wf · = true) (scaParts p l op f pol mark d s l') := by
  induction l' generalizing s with
  | nil => exact .ok w
  | cons y ys ih =>
    dsimp only [scaParts]
    split
    · exact .error
    rename_i h
    exact ih (Ensures.ite (p := (Memory.wf · = true)) (Ensures.map (fun _ w' => reduceChunk_wf w _ w')) (scaAcross_wf w) _ h)

theorem scaRow_wf {p e b op f i tab} (w : Memory.wf s = true) : Ensures (Memory.wf ·.2 = true) (scaRow s p e b op f i tab) := by
  dsimp only [scaRow]
  split
  · exact .error
  · exact .error
  refine Ensures.ite .error ?_
  split
  · exact .error
  split
  · exact .error
  rename_i h
  exact .ok (scaParts_wf w _ h)

theorem setStain_wf {p e stain j} (w : Memory.wf s = true) : Ensures (Memory.wf · = true) (setStain s p e stain j) := by
  dsimp only [setStain]
  split
  · exact .error
  rename_i h
  exact .ok (readModify_ok w _ h)

theorem rowLoop_wf {k row n e} (w : Memory.wf s = true) (hrow : ∀ a u, Memory.wf u = true → Ensures (Memory.wf ·.2 = true) (row a u)) :
    Memory.wf (rowLoop k row n e s) = true := by
  induction n generalizing e s with
  | zero => exact putBlock_wf w
  | succ n ih =>
    dsimp only [rowLoop]
    split
    · exact putBlock_wf w
    split
    · exact stopBlock_wf w
    rename_i h
    exact ih (putBlock_wf (takeReplies_wf (hrow _ _ w _ h)))

theorem runBlock_wf {row} (w : Memory.wf s = true) (hrow : ∀ a b u, Memory.wf u = true → Ensures (Memory.wf ·.2 = true) (row a b u)) :
    Result.Canonical (runBlock row s) := by
  dsimp only [runBlock]
  refine withBlock_wf w (fun _ _ w' => ?_)
  split
  · exact startBlock_wf w'
  · exact rowLoop_wf w' (fun _ _ w2 => hrow _ _ _ w2)

theorem indexedRow_wf {p e b k} (hk : ∀ a, Ensures (Memory.wf ·.2 = true) (k a)) :
    Ensures (Memory.wf ·.2 = true) (indexedRow s p e b k) := by
  dsimp only [indexedRow]
  split
  · exact .error
  · exact Ensures.ite (hk _) (Ensures.ite .error (hk _))

theorem execGth_wf {b} (w : Memory.wf s = true) : Result.Canonical (execGth b s) := by
  dsimp only [execGth]
  refine runBlock_wf w (fun _ _ _ w' => ?_)
  refine indexedRow_wf (fun _ => ?_)
  split
  · exact moveRow_wf w'
  split
  · exact .error
  rename_i h
  exact .ok (writeBytes_ok w' _ h)

theorem execSct_wf {b} (w : Memory.wf s = true) : Result.Canonical (execSct b s) := by
  dsimp only [execSct]
  refine runBlock_wf w (fun _ _ _ w' => ?_)
  refine indexedRow_wf (fun _ => ?_)
  split
  · exact moveRow_wf w'
  · exact .ok w'

theorem execSca_wf {b op f} (w : Memory.wf s = true) : Result.Canonical (execSca b op f s) := by
  dsimp only [execSca]
  refine runBlock_wf w (fun _ _ _ w' => ?_)
  refine indexedRow_wf (fun _ => ?_)
  split
  · exact scaRow_wf w'
  · exact .ok w'

theorem stainRow_wf {p e stain} (w : Memory.wf s = true) : Ensures (Memory.wf ·.2 = true) (stainRow s p e stain) := by
  dsimp only [stainRow]
  split
  · exact .error
  rename_i h
  exact .ok (setStain_wf w _ h)

theorem keepRow_wf {p e b inplace stain} (w : Memory.wf s = true) : Ensures (Memory.wf ·.2 = true) (keepRow s p e b inplace stain) := by
  dsimp only [keepRow]
  split
  · exact .error
  rename_i h
  exact .ok (Ensures.ite (p := (Memory.wf ·.2 = true)) (.ok w) (moveRow_wf w) _ h)

theorem execCpt_wf {b inplace stain} (w : Memory.wf s = true) : Result.Canonical (execCpt b inplace stain s) := by
  dsimp only [execCpt]
  refine runBlock_wf w (fun _ _ _ w' => ?_)
  refine Ensures.ite (stainRow_wf w') ?_
  split
  · exact .error
  · exact .ok w'
  · exact keepRow_wf w'

theorem execIndexBlockComplete_wf {job} (w : Memory.wf s = true) : Result.Canonical (execIndexBlockComplete job s) := by
  dsimp only [execIndexBlockComplete]
  refine .next ?_
  split
  · exact w
  split
  · exact w
  split
  · exact w
  next e _ =>
    have put : ∀ {k x}, Memory.wf (putBlock (payBlock (focus job s) e).1 k x) = true := putBlock_wf (payBlock_wf (focus_wf w))
    split
    · exact put
    split
    · exact put
    next h => exact wf_with (paid_wf put _ h)

end Sys2Proof.Machine
end

section
/-! SUPPORT. Canonical form of the memories (O58): DARN. -/

namespace Sys2Proof.Machine
variable {s : State}

theorem darnWrite_wf {p a d} (w : Memory.wf s = true) : Ensures (Memory.wf · = true) (darnWrite s p a d) := by
  dsimp only [darnWrite]
  split
  · exact .error
  · exact writeBytes_ok w

theorem darnUpdate_wf {p a n f} (w : Memory.wf s = true) : Ensures (Memory.wf · = true) (darnUpdate s p a n f) := by
  dsimp only [darnUpdate]
  split
  · exact .error
  split
  · exact .error
  rename_i h
  exact .ok (readModify_ok w _ h)

theorem darnBits_wf {p base on chosen n n'} (w : Memory.wf s = true) : Ensures (Memory.wf · = true) (darnBits p base on chosen n n' s) := by
  induction n' generalizing n s with
  | zero => exact .ok w
  | succ n' ih =>
    dsimp only [darnBits]
    split
    · exact .error
    rename_i h
    exact ih (Ensures.ite (p := (Memory.wf · = true)) (.ok w) (darnUpdate_wf w) _ h)

theorem darnRange_wf {p base lo hi on chosen} (w : Memory.wf s = true) :
    Ensures (Memory.wf · = true) (darnRange p base lo hi on chosen s) :=
  Ensures.ite (.ok w) (darnBits_wf w)

theorem stainGroups_wf {p r lo hi on chosen n n'} (w : Memory.wf s = true) :
    Ensures (Memory.wf · = true) (stainGroups p r lo hi on chosen n n' s) := by
  induction n' generalizing n s with
  | zero => exact .ok w
  | succ n' ih =>
    dsimp only [stainGroups]
    split
    · exact .error
    rename_i h
    exact ih (darnRange_wf w _ h)

theorem rankSeq_wf {p r} (w : Memory.wf s = true) : Ensures (Memory.wf ·.2 = true) (rankSeq p r s) := by
  dsimp only [rankSeq]
  split
  · exact .error
  split
  · exact .error
  split
  · exact .error
  rename_i h
  exact .ok (darnWrite_wf w _ h)

theorem commitAt_wf {p r j} (w : Memory.wf s = true) : Ensures (Memory.wf · = true) (commitAt p r j s) := by
  dsimp only [commitAt]
  split
  · exact .error
  refine Ensures.ite .error ?_
  split
  · exact .error
  · exact .error
  · exact .error
  split
  · exact .error
  rename_i h
  split
  · exact .error
  rename_i h'
  split
  · exact .error
  rename_i h2
  exact stainGroups_wf (stainGroups_wf (darnRange_wf (darnWrite_wf w _ h) _ h') _ h2)

theorem commitFrom_wf {p n r} (w : Memory.wf s = true) : Memory.wf (commitFrom p n r s).2.1 = true := by
  induction n generalizing r s with
  | zero => exact w
  | succ n ih =>
    dsimp only [commitFrom]
    split
    · exact w
    rename_i h
    exact ih (commitAt_wf w _ h)

theorem clearWords_wf {p base l n n'} (w : Memory.wf s = true) : Ensures (Memory.wf · = true) (clearWords p base l n n' s) := by
  induction n' generalizing n s with
  | zero => exact .ok w
  | succ n' ih =>
    dsimp only [clearWords]
    split
    · exact .error
    rename_i h
    exact ih (Ensures.ite (p := (Memory.wf · = true)) (.ok w) (darnUpdate_wf w) _ h)

theorem listSeq_wf {p r} (w : Memory.wf s = true) : Ensures (Memory.wf ·.2 = true) (listSeq p r s) := by
  dsimp only [listSeq]
  split
  · exact .error
  · exact .error
  split
  · exact .error
  · exact .error
  rename_i h _
  have listed := Ensures.ite (p := (Memory.wf · = true)) (darnWrite_wf w) (.ok w) _ h
  split
  · exact .error
  rename_i h
  have counted := darnWrite_wf listed _ h
  split
  · exact .error
  rename_i h
  have named := darnWrite_wf counted _ h
  split
  · exact .error
  next h => exact .ok (Ensures.ite (p := (Memory.wf · = true)) (clearWords_wf named) (.ok named) _ h)

theorem stainList_wf {p base l} (w : Memory.wf s = true) : Ensures (Memory.wf · = true) (stainList p base l s) := by
  induction l generalizing s with
  | nil => exact .ok w
  | cons y ys ih =>
    dsimp only [stainList]
    split
    · exact .error
    rename_i h
    exact ih (darnRange_wf w _ h)

theorem stainLists_wf {p r l n n'} (w : Memory.wf s = true) : Ensures (Memory.wf · = true) (stainLists p r l n n' s) := by
  induction n' generalizing n s with
  | zero => exact .ok w
  | succ n' ih =>
    dsimp only [stainLists]
    split
    · exact .error
    rename_i h
    exact ih (stainList_wf w _ h)

theorem stainAll_wf {p r} (w : Memory.wf s = true) : Ensures (Memory.wf ·.2 = true) (stainAll p r s) := by
  dsimp only [stainAll]
  split
  · exact .error
  split
  · exact .error
  split
  · exact .error
  rename_i h
  exact .ok (stainLists_wf w _ h)

theorem darnSeq_wf {p r} (w : Memory.wf s = true) : Ensures (Memory.wf ·.2 = true) (darnSeq p r s) := by
  have one : Ensures (Memory.wf ·.2 = true) (if r.op = opRank then rankSeq p r s else listSeq p r s) := .ite (rankSeq_wf w) (listSeq_wf w)
  dsimp only [darnSeq]
  split
  · exact .error
  split
  · split
    · exact .error
    split
    · exact .error
    · exact .ok (commitFrom_wf w)
  split
  · exact .error
  next h =>
    have k := one _ h
    exact .ok k

theorem darnSeq_leaves {p r} (w : Memory.wf s = true) : Leaves (Memory.wf ·.st = true) (darnSeq p r s) := by
  dsimp only [darnSeq]
  split
  · exact .error w
  split
  · split
    · exact .error w
    split
    · exact .error (commitFrom_wf w)
    · exact .ok
  split
  · exact .error w
  · exact .ok

theorem darnSeqs_wf {p n n' r} (w : Memory.wf s = true) : Ensures (Memory.wf ·.2.1 = true) (darnSeqs p n n' r s) := by
  induction n generalizing n' r s with
  | zero => exact .ok w
  | succ n ih =>
    cases n' with
    | zero => exact .ok w
    | succ n' =>
      dsimp only [darnSeqs]
      split
      · exact .error
      rename_i h
      exact ih (darnSeq_wf w _ h)

theorem darnSeqs_leaves {p n n' r} (w : Memory.wf s = true) : Leaves (Memory.wf ·.st = true) (darnSeqs p n n' r s) := by
  induction n generalizing n' r s with
  | zero => exact .ok
  | succ n ih =>
    cases n' with
    | zero => exact .ok
    | succ n' =>
      dsimp only [darnSeqs]
      split
      next h => exact .error (darnSeq_leaves w _ h)
      rename_i h
      exact ih (darnSeq_wf w _ h)

theorem darnFinish_wf {p r} (w : Memory.wf s = true) : Ensures (Memory.wf ·.2 = true) (darnFinish p r s) := by
  dsimp only [darnFinish]
  refine Ensures.ite ?_ ?_
  · split
    · exact .error
    rename_i h
    exact .ok (stainGroups_wf w _ h)
  · refine Ensures.ite ?_ ?_
    · split
      · exact .error
      · exact .ok w
    · refine Ensures.ite ?_ (.ok w)
      split
      · exact .error
      · exact .ok w

theorem darnWork_wf {p q r} (w : Memory.wf s = true) : Ensures (Memory.wf ·.2.1 = true) (darnWork p q r s) := by
  dsimp only [darnWork]
  split
  · split
    · exact .error
    split
    · exact .error
    next h =>
      refine .ok (Ensures.ite (p := (Memory.wf ·.2 = true)) (stainAll_wf w) ?_ _ h)
      split
      · exact .error
      next h => exact .ok (stainGroups_wf w _ h)
  split
  · exact .error
  next h => exact .ok (darnSeqs_wf w _ h)
  next h =>
    split
    · exact .error
    next h' => exact .ok (darnFinish_wf (darnSeqs_wf w _ h) _ h')

theorem darnWork_leaves {p q r} (w : Memory.wf s = true) : Leaves (Memory.wf ·.st = true) (darnWork p q r s) := by
  dsimp only [darnWork]
  split
  · split
    · exact .error w
    split
    · exact .error w
    · exact .ok
  split
  next h => exact .error (darnSeqs_leaves w _ h)
  · exact .ok
  rename_i h
  split
  · exact .error (darnSeqs_wf w _ h)
  · exact .ok

theorem dropDarn_wf (w : Memory.wf s = true) : Memory.wf (dropDarn s) = true := w

theorem keepDarn_wf {r w'} (w : Memory.wf s = true) : Memory.wf (keepDarn s r w') = true := hold_wf w

theorem endDarn_wf {d r e} (w : Memory.wf s = true) : Memory.wf (endDarn d r e s) = true := by
  dsimp only [endDarn]
  split
  · rename_i h
    split
    · exact retireX_wf (dropDarn_wf (pinWrite_wf w _ h))
    · exact raiseAt_wf _ _ _ _ (dropDarn_wf (pinWrite_wf w _ h))
  split
  next h => exact keepDarn_wf (Verdict.wf_of h (verdict_wf w))
  next h => exact keepDarn_wf (Verdict.wf_of h (verdict_wf w))
  next h => exact keepDarn_wf (Verdict.wf_of h (verdict_wf w))
  rename_i h
  exact keepDarn_wf (Verdict.wf_of h (verdict_wf w))

theorem stopDarn_wf {d x p} (w : Memory.wf x.st = true) : Memory.wf (stopDarn d x p) = true := by
  dsimp only [stopDarn]
  split
  next h => exact keepDarn_wf (Verdict.wf_of h (verdict_wf w))
  next h => exact keepDarn_wf (Verdict.wf_of h (verdict_wf w))
  next h => exact tellContext_wf _ _ _ _ (keepDarn_wf (Verdict.wf_of h (verdict_wf w)))
  rename_i h
  exact endDarn_wf (Verdict.wf_of h (verdict_wf w))

theorem goDarn_wf {d r} (w : Memory.wf s = true) : Memory.wf (goDarn d r s) = true := by
  dsimp only [goDarn]
  split
  · exact endDarn_wf w
  split
  · exact stopDarn_wf w
  split
  next h => exact stopDarn_wf (darnWork_leaves w _ h)
  next h => exact keepDarn_wf (darnWork_wf w _ h)
  rename_i h
  exact endDarn_wf (darnWork_wf w _ h)

theorem nextDarn_wf {d r} (w : Memory.wf s = true) : Memory.wf (nextDarn d r s) = true := by
  dsimp only [nextDarn]
  split
  · exact goDarn_wf w
  split
  · exact keepDarn_wf w
  · exact goDarn_wf (wf_with (drain_wf w))

theorem darn_wf {op d a} (w : Memory.wf s = true) : Result.Canonical (darn op d a s) := by
  dsimp only [darn]
  refine .next ?_
  split
  · exact nextDarn_wf w
  split
  · exact raise_wf _ _ w
  · exact withAccess_wf (drain_wf w) (fun _ _ => nextDarn_wf (takeReplies_wf (drain_wf w)))

end Sys2Proof.Machine
end

section
/-! SUPPORT. Canonical form of the memories (O58): the collectives. -/

namespace Sys2Proof.Machine
variable {s : State}

theorem submit_wf {d bar} (w : Memory.wf s = true) : Memory.wf (submit s d bar) = true := barOwe_wf w

theorem submitOr_wf {d bar} (w : Memory.wf s = true) : Memory.wf (submitOr s d bar) = true := by
  dsimp only [submitOr]
  split
  · exact advance_wf (submit_wf (drain_wf w))
  · exact hold_wf w

theorem readDesc_wf {ea} (w : Memory.wf s = true) : Memory.wf (readDesc s ea) = true := by
  dsimp only [readDesc]
  refine withRecord_wf w (fun _ _ w' => ?_)
  split
  · exact raise_wf _ _ (takeReplies_wf w')
  · exact raise_wf _ _ (takeReplies_wf w')
  split
  · exact submitOr_wf (takeReplies_wf w')
  · exact withBar_wf (takeReplies_wf w') (fun _ => submitOr_wf (takeReplies_wf w'))

theorem putSlot_wf {k x} (w : Memory.wf s = true) : Memory.wf (putSlot s k x) = true := w

theorem sendPart_wf {x l} (w : Memory.wf s = true) : Memory.wf (sendPart s x l) = true := by
  induction l generalizing s with
  | nil => exact w
  | cons y ys ih => exact ih (postReq_wf w)

theorem resendParts_wf {u} (w : Memory.wf s = true) : Memory.wf (resendParts s u) = true :=
  sendWaiting_wf (foldl_wf (fun _ _ w' => postReq_wf w') w)

theorem stopSlot_wf {k x e} (w : Memory.wf s = true) : Memory.wf (stopSlot s k x e) = true := by
  dsimp only [stopSlot]
  split
  next h => exact putSlot_wf (Verdict.wf_of h (unitVerdict_wf w))
  next h => exact putSlot_wf (Verdict.wf_of h (unitVerdict_wf w))
  next h => exact tellContext_wf _ _ _ _ (putSlot_wf (Verdict.wf_of h (unitVerdict_wf w)))
  rename_i h
  exact putSlot_wf (unitFault_wf (Verdict.wf_of h (unitVerdict_wf w)))

theorem restartSlot_wf {job id h} (w : Memory.wf s = true) : Memory.wf (restartSlot s job id h) = true := by
  dsimp only [restartSlot]
  split
  · exact w
  split
  · exact putSlot_wf w
  · exact w

theorem endSlot_wf {k x} (w : Memory.wf s = true) : Memory.wf (endSlot s k x) = true := by
  dsimp only [endSlot]
  split
  · exact w
  split
  · exact putSlot_wf w
  rename_i h
  exact wf_with (barPaid_wf (barEvent_wf w _ h))

theorem writeAll_wf {p l} (w : Memory.wf s = true) : Ensures (Memory.wf · = true) (writeAll s p l) := by
  induction l generalizing s with
  | nil => exact .ok w
  | cons y ys ih =>
    dsimp only [writeAll]
    split
    · exact .error
    rename_i h
    exact ih (darnWrite_wf w _ h)

theorem finishSlot_wf {k x code received data} (w : Memory.wf s = true) : Memory.wf (finishSlot s k x code received data) = true := by
  dsimp only [finishSlot]
  split
  · exact putSlot_wf w
  split
  · exact stopSlot_wf w
  split
  · exact stopSlot_wf w
  rename_i h
  exact endSlot_wf (writeAll_wf w _ h)

theorem performPart_wf {c k x l} (w : Memory.wf s = true) : Memory.wf (performPart c s k x l) = true := by
  dsimp only [performPart]
  split
  · exact stopSlot_wf w
  · exact finishSlot_wf w

theorem runMove_wf {c k x} (w : Memory.wf s = true) : Memory.wf (runMove c s k x) = true := by
  dsimp only [runMove]
  split
  · exact putSlot_wf w
  split
  · exact performPart_wf w
  · exact putSlot_wf w

theorem runCheck_wf {c k x} (w : Memory.wf s = true) : Memory.wf (runCheck c s k x) = true := by
  dsimp only [runCheck]
  split
  · exact finishSlot_wf w
  split
  · exact putSlot_wf w
  split
  · exact finishSlot_wf w
  split
  · exact runMove_wf w
  split
  · exact putSlot_wf w
  split
  · exact stopSlot_wf w
  · exact stopSlot_wf w
  · exact runMove_wf (putSlot_wf (sendPart_wf w))

theorem runDescribe_wf {c h k x} (w : Memory.wf s = true) : Memory.wf (runDescribe c h s k x) = true := by
  dsimp only [runDescribe]
  split
  · exact stopSlot_wf w
  split
  · exact putSlot_wf w
  · exact runCheck_wf (putSlot_wf (sendPart_wf w))

theorem collective_wf {c h} (w : Memory.wf s = true) : Result.Canonical (collective c h s) := by
  dsimp only [collective]
  refine .next ?_
  split
  · exact w
  split
  · exact w
  split
  · exact stopSlot_wf w
  split
  · exact runDescribe_wf (resendParts_wf w)
  · exact runCheck_wf (resendParts_wf w)
  · exact runMove_wf (resendParts_wf w)
  · exact endSlot_wf (resendParts_wf w)

end Sys2Proof.Machine
end

section
/-! SUPPORT. Canonical form of the memories (O58): launches and placement. -/

namespace Sys2Proof.Machine
variable {s : State}

theorem supervise_wf {p acc c v r} (w : Memory.wf s = true) : Memory.wf (supervise s p acc c v r) = true :=
  tellContext_wf _ _ _ _ (logErr_wf w)

theorem hubWait_wf {p va dvorol} (w : Memory.wf s = true) : Memory.wf (hubWait s p va dvorol) = true := w

theorem hubStop_wf {p acc x} (w : Memory.wf s = true) : Memory.wf (hubStop s p acc x).st = true := by
  dsimp only [hubStop]
  split
  next h => exact Verdict.wf_of h (verdict_wf w)
  next h => exact hubWait_wf (Verdict.wf_of h (verdict_wf w))
  next h => exact tellContext_wf _ _ _ _ (hubWait_wf (Verdict.wf_of h (verdict_wf w)))
  rename_i h
  exact supervise_wf (Verdict.wf_of h (verdict_wf w))

theorem hubWrites_wf {p l} {u : State} (wu : Memory.wf u = true) :
    Ensures (Memory.wf · = true) (hubWrites s p l u) := by
  induction l generalizing u with
  | nil => exact .ok wu
  | cons y ys ih =>
    dsimp only [hubWrites]
    refine Ensures.ite .error ?_
    split
    next h => exact ih (writeBytes_ok wu _ h)
    split
    next h => exact ih (HubStop.wf_of h (hubStop_wf wu))
    · split <;> exact .error

theorem hubWrites_leaves {p l} {u : State} (w : Memory.wf s = true) (wu : Memory.wf u = true) :
    Leaves (Memory.wf · = true) (hubWrites s p l u) := by
  induction l generalizing u with
  | nil => exact .ok
  | cons y ys ih =>
    dsimp only [hubWrites]
    split
    · exact .error w
    split
    next h => exact ih (writeBytes_ok wu _ h)
    split
    next h => exact ih (HubStop.wf_of h (hubStop_wf wu))
    split
    next h => exact .error (HubStop.wf_of h (hubStop_wf w))
    rename_i h
    exact .error (HubStop.wf_of h (hubStop_wf w))

theorem putQueue_wf {q x} (w : Memory.wf s = true) : Memory.wf (putQueue s q x) = true := w

theorem updLaunch_wf {id f} (w : Memory.wf s = true) : Memory.wf (updLaunch s id f) = true := w

theorem sendGroups_wf {l l'} (w : Memory.wf s = true) : Memory.wf (sendGroups s l l') = true := by
  induction l' generalizing s with
  | nil => exact w
  | cons y ys ih => exact ih (postReq_wf w)

theorem enqueue_wf {l} (w : Memory.wf s = true) : Memory.wf (enqueue s l) = true := by
  dsimp only [enqueue]
  refine sendGroups_wf ?_
  refine wf_with ?_
  split
  · exact w
  · exact putQueue_wf w

theorem enqueueOr_wf {l} (w : Memory.wf s = true) : Memory.wf (enqueueOr s l) = true := by
  dsimp only [enqueueOr]
  split
  · exact enqueue_wf (barOwe_wf w)
  · exact putQueue_wf (barOwe_wf w)

theorem clearWait_wf {l} (w : Memory.wf s = true) : Memory.wf (clearWait s l) = true := by
  dsimp only [clearWait]
  split
  · exact putTub_wf w
  · exact updJob_wf (barOwe_wf w)
  · exact completeAt_wf w
  · exact w
  · exact w

theorem execEnqueueResume_wf {q} (w : Memory.wf s = true) : Result.Canonical (execEnqueueResume q s) := by
  dsimp only [execEnqueueResume]
  refine .next ?_
  split
  · exact w
  split
  · exact enqueue_wf (clearWait_wf (putQueue_wf w))
  · exact w

theorem launchNow_wf {l} (w : Memory.wf s = true) : Memory.wf (launchNow s l) = true := by
  dsimp only [launchNow]
  split
  · exact advance_wf (enqueue_wf (barOwe_wf w))
  · exact hold_wf (putQueue_wf w)

theorem execLaunch_wf {a b} (w : Memory.wf s = true) : Result.Canonical (execLaunch a b s) := by
  dsimp only [execLaunch]
  refine .next ?_
  split
  · exact raise_wf _ _ w
  split
  · exact raise_wf _ _ w
  refine withAccess_wf (drain_wf w) (fun _ _ => ?_)
  split
  · exact raise_wf _ _ (takeReplies_wf (drain_wf w))
  · exact raise_wf _ _ (takeReplies_wf (drain_wf w))
  · exact launchNow_wf (takeReplies_wf (drain_wf w))

theorem enqueueFor_wf {asid addr q src u stop} (w : Memory.wf s = true) (hstop : ∀ u a b c, Memory.wf u = true → Memory.wf (stop u a b c).st = true) :
    Memory.wf (enqueueFor s asid addr q src u stop).st = true := by
  dsimp only [enqueueFor]
  split
  · exact w
  split
  · split
    next h => exact HubStop.wf_of h (hstop _ _ _ _ w)
    rename_i h
    exact HubStop.wf_of h (hstop _ _ _ _ w)
  split
  · exact takeReplies_wf w
  · exact takeReplies_wf w
  split
  · exact takeReplies_wf w
  · exact enqueueOr_wf (takeReplies_wf w)

theorem tellRefusal_wf {asid addr code status u} (w : Memory.wf s = true) :
    Ensures (Memory.wf · = true) (tellRefusal s asid addr code status u) :=
  Ensures.ite (.ok (logErr_wf w)) (hubWrites_wf (logErr_wf w))

theorem tellRefusal_leaves {asid addr code status u} (w : Memory.wf s = true) :
    Leaves (Memory.wf · = true) (tellRefusal s asid addr code status u) := by
  dsimp only [tellRefusal]
  split
  · exact .ok
  · exact hubWrites_leaves w (logErr_wf w)

theorem wakeBank_wf {core b} (w : Memory.wf s = true) : Memory.wf (wakeBank s core b) = true := by
  dsimp only [wakeBank]
  split <;> exact w

theorem wakeRegion_wf {core lo hi} (w : Memory.wf s = true) : Memory.wf (wakeRegion s core lo hi) = true :=
  foldl_wf (fun _ _ w' => wakeBank_wf w') w

/-- A gated bank loses its contents (R246): keys leave three of the stores. -/
theorem gateBanks_wf {l} (w : Memory.wf s = true) : Memory.wf (gateBanks s l) = true :=
  wf_with (Memory.wf_zeroMap (Memory.wf_spadPoison (Memory.wf_spad w (sparseWf_filter _)) (sparseWf_filter _)) (sparseWf_filter _))

theorem gateAll_wf (w : Memory.wf s = true) : Memory.wf (gateAll s) = true := gateBanks_wf w

theorem gateLeft_wf (w : Memory.wf s = true) : Memory.wf (gateLeft s) = true := by
  dsimp only [gateLeft]
  split
  · exact gateAll_wf w
  · exact w

/-- A region is cleared before a job receives it (R231): keys leave three of the stores. -/
theorem clearRegion_wf {core lo hi} (w : Memory.wf s = true) : Memory.wf (clearRegion s core lo hi) = true :=
  Memory.wf_zeroMap (Memory.wf_spadPoison (Memory.wf_spad w (sclear_wf _ _)) (sclear_wf _ _)) (sclear_wf _ _)

theorem placeFrom_wf {l first bars data n l'} (w : Memory.wf s = true) : Memory.wf (placeFrom l first bars data n l' s) = true := by
  induction l' generalizing n s with
  | nil => exact w
  | cons y ys ih => exact ih (wf_with (foldl_wf (fun _ _ w' => putBar_wf w') (putBytes_wf _ _ _ (clearRegion_wf w))))

theorem execLaunchPlace_wf {places} (w : Memory.wf s = true) : Result.Canonical (execLaunchPlace places s) := by
  dsimp only [execLaunchPlace]
  refine .next ?_
  split
  · exact w
  split
  · exact w
  split
  · split
    · exact foldl_wf (fun _ _ w' => wakeRegion_wf w') w
    split
    · exact updLaunch_wf (wf_with (placeFrom_wf (foldl_wf (fun _ _ w' => putBar_wf w') (putQueue_wf (takeReplies_wf w)))))
    · split
      next h => exact HubStop.wf_of h (hubStop_wf w)
      rename_i h
      exact HubStop.wf_of h (hubStop_wf w)
    · exact w
  · exact w

theorem execJobStart_wf {launch} (w : Memory.wf s = true) : Result.Canonical (execJobStart launch s) := by
  dsimp only [execJobStart]
  refine .next ?_
  split
  · exact w
  split
  · exact updLaunch_wf (mapJobs_wf w)
  · exact w

theorem nodeDone_wf {n} (w : Memory.wf s = true) : Memory.wf (nodeDone s n) = true := w

theorem tellSource_wf {x} (w : Memory.wf s = true) : Memory.wf (tellSource s x) = true := by
  dsimp only [tellSource]
  split
  · exact nodeDone_wf w
  · exact w

theorem execLaunchCompletion_wf {launch} (w : Memory.wf s = true) : Result.Canonical (execLaunchCompletion launch s) := by
  dsimp only [execLaunchCompletion]
  refine .next ?_
  split
  · exact w
  split
  · exact w
  split
  next h => exact hubWrites_leaves w w _ h
  next h =>
    have told := hubWrites_wf w _ h
    split
    · exact w
    next h =>
      have arrived := paid_wf told _ h
      split
      next h => exact hubWrites_leaves w arrived _ h
      next h => exact tellSource_wf (takeReplies_wf (wf_with (hubWrites_wf arrived _ h)))

end Sys2Proof.Machine
end

section
/-! SUPPORT. Canonical form of the memories (O58): streams, rendezvous and traps. -/

namespace Sys2Proof.Machine
variable {s : State}

theorem restartEngines_wf {l} (w : Memory.wf s = true) : Memory.wf (restartEngines s l) = true := by
  induction l generalizing s with
  | nil => exact advance_wf w
  | cons y ys ih =>
    dsimp only [restartEngines]
    split
    · exact ih w
    · exact hold_wf w

theorem execStrt_wf {m a} (w : Memory.wf s = true) : Result.Canonical (execStrt m a s) := by
  dsimp only [execStrt]
  refine .next ?_
  split
  · exact raise_wf _ _ w
  refine withAccess_wf (drainLoad_wf w) (fun _ _ => ?_)
  split
  · exact raise_wf _ _ (takeReplies_wf (drainLoad_wf w))
  · exact restartEngines_wf (drain_wf (takeReplies_wf (drainLoad_wf w)))

theorem execRendezvousComplete_wf {job} (w : Memory.wf s = true) : Result.Canonical (execRendezvousComplete job s) := by
  dsimp only [execRendezvousComplete]
  refine .next ?_
  split
  · split
    · exact putJob_wf w
    · exact w
  · exact w

theorem freeBars_wf {job l} (w : Memory.wf s = true) : Memory.wf (freeBars s job l) = true := by
  induction l generalizing s with
  | nil => exact w
  | cons b r ih => exact ih (wf_ite w (wf_ite (wf_with w) (putBar_wf w)))

theorem disarmTubs_wf {l} (w : Memory.wf s = true) : Memory.wf (disarmTubs s l) = true := w

theorem orphanUnits_wf {gone} (w : Memory.wf s = true) : Memory.wf (orphanUnits s gone) = true := w

theorem retire_wf {j} (w : Memory.wf s = true) : Memory.wf (retire s j) = true :=
  gateLeft_wf (updLaunch_wf (dropJob_wf (updJob_wf (freeBars_wf (disarmTubs_wf (wf_with (orphanUnits_wf (settleInto_wf w))))))))

theorem execJobRetire_wf {job} (w : Memory.wf s = true) : Result.Canonical (execJobRetire job s) := by
  dsimp only [execJobRetire]
  refine .next ?_
  split
  · split
    · exact retire_wf (drain_wf (focus_wf w))
    · exact w
  · exact w

theorem execYield_wf (w : Memory.wf s = true) : Result.Canonical (execYield s) := .next (wf_ite (hold_wf w) (advance_wf w))

theorem execYieldTimeout_wf {job} (w : Memory.wf s = true) : Result.Canonical (execYieldTimeout job s) := by
  dsimp only [execYieldTimeout]
  refine .next ?_
  split
  · split
    · split
      · exact advance_wf (focus_wf w)
      · exact w
    · exact w
  · exact w

theorem restartBound_wf {job n h} (w : Memory.wf s = true) : Memory.wf (restartBound s job n h) = true := by
  dsimp only [restartBound]
  split
  · split
    · exact restartChan_wf w
    · exact w
  · exact w

theorem restartUnit_wf {job code sib h word slot} (w : Memory.wf s = true) : Memory.wf (restartUnit s job code sib h word slot) = true := by
  dsimp only [restartUnit]
  split
  · exact w
  split
  · exact updJob_wf w
  split
  · exact restartBound_wf w
  split
  · exact updJob_wf w
  split
  · exact restartSlot_wf w
  · exact w

theorem restartTub_wf {job o} (w : Memory.wf s = true) : Memory.wf (restartTub s job o) = true := by
  dsimp only [restartTub]
  split
  · exact w
  · exact putTub_wf w

theorem eretEffect_wf (w : Memory.wf s = true) : Memory.wf (eretEffect s) = true :=
  returnFromTrap_wf (passOuts_wf (wf_ite (restartTub_wf (restartUnit_wf w)) (restartUnit_wf w)))

theorem execTrapDivert_wf {job} (w : Memory.wf s = true) : Result.Canonical (execTrapDivert job s) := by
  dsimp only [execTrapDivert]
  refine .next ?_
  split
  · split
    · exact divertIfPending_wf (focus_wf w)
    · exact w
  · exact w

theorem tubPop_wf {t parked} (w : Memory.wf s = true) : Memory.wf (tubPop s t parked) = true := putTub_wf w

theorem tubStop_wf {t p acc x} (w : Memory.wf s = true) : Memory.wf (tubStop t s p acc x).st = true := by
  dsimp only [tubStop]
  split
  · exact hubStop_wf w
  split
  next h => exact putTub_wf (unitFault_wf (Verdict.wf_of h (unitVerdict_wf w)))
  next h => exact Verdict.wf_of h (unitVerdict_wf w)
  next h => exact hubWait_wf (Verdict.wf_of h (unitVerdict_wf w))
  rename_i h
  exact tellContext_wf _ _ _ _ (hubWait_wf (Verdict.wf_of h (unitVerdict_wf w)))

theorem fireTub_wf {t asid x} (w : Memory.wf s = true) : Memory.wf (fireTub s t asid x) = true := by
  dsimp only [fireTub]
  split
  · exact tubPop_wf w
  · split
    · exact w
    rename_i h
    exact tubPop_wf (barEvent_wf w _ h)
  · split
    next h => exact Enqueued.wf_of h (enqueueFor_wf w (fun _ _ _ _ w' => tubStop_wf w'))
    next h => exact tubPop_wf (Enqueued.wf_of h (enqueueFor_wf w (fun _ _ _ _ w' => tubStop_wf w')))
    next h => exact tubPop_wf (Enqueued.wf_of h (enqueueFor_wf w (fun _ _ _ _ w' => tubStop_wf w')))
    rename_i h
    split
    next h' => exact tellRefusal_leaves (Enqueued.wf_of h (enqueueFor_wf w (fun _ _ _ _ w' => tubStop_wf w'))) _ h'
    rename_i h'
    exact tubPop_wf (tellRefusal_wf (Enqueued.wf_of h (enqueueFor_wf w (fun _ _ _ _ w' => tubStop_wf w'))) _ h')
  split
  next h => exact tubPop_wf (takeReplies_wf (writeBytes_ok w _ h))
  split
  next h => exact HubStop.wf_of h (tubStop_wf w)
  rename_i h
  exact tubPop_wf (HubStop.wf_of h (tubStop_wf w))

theorem fireOldest_wf {t} (w : Memory.wf s = true) : Memory.wf (fireOldest t s) = true := by
  dsimp only [fireOldest]
  split
  · exact w
  split
  · exact w
  split
  · split
    · split
      · exact w
      · exact tellContext_wf _ _ _ _ (logErr_wf (putTub_wf w))
    · exact fireTub_wf w
  split
  · split
    · exact w
    · exact tellContext_wf _ _ _ _ (logErr_wf (putTub_wf w))
  · exact fireTub_wf w

theorem execTubFire_wf {t} (w : Memory.wf s = true) : Result.Canonical (execTubFire t s) := .next (fireOldest_wf w)

end Sys2Proof.Machine
end

section
/-! SUPPORT. Canonical form of the memories (O58): the host interface. -/

namespace Sys2Proof.Machine
variable {s : State}

theorem regRead_wf {off} (w : Memory.wf s = true) : Memory.wf (regRead s off) = true := w

theorem restartQueue_wf {q} (w : Memory.wf s = true) : Memory.wf (restartQueue s q) = true := putHqueue_wf w

theorem execRegisterWrite_wf {off v} (w : Memory.wf s = true) : Result.Canonical (execRegisterWrite off v s) := by
  unfold execRegisterWrite
  refine .next (wf_ite ?_ (wf_ite ?_ w))
  · generalize (off - 0x10000) % 32 = o
    generalize hqueueOf s _ = q
    split
    · exact putHqueue_wf w
    · exact putHqueue_wf w
    · exact wf_ite (restartQueue_wf w) (putHqueue_wf w)
    · exact w
  · generalize (off - 0x30000) % 64 = o
    split
    · exact w
    · exact w
    · exact w
    · exact ringSignal_wf _ (wf_with w)
    · exact ringSignal_wf _ (wf_with w)
    · exact ringFlush_wf _ _ (wf_with w)
    · exact w

theorem fetchCmd_wf {q} (w : Memory.wf s = true) : Memory.wf (fetchCmd s q) = true := by
  dsimp only [fetchCmd]
  split
  · exact w
  split
  · split
    · split
      · exact complete_wf (putHqueue_wf w)
      · exact putHqueue_wf w
    split
    · exact ringPost_wf _ _ (freeBytes_wf (putHqueue_wf w))
    · exact putHqueue_wf w
  split
  · split
    · exact complete_wf (putHqueue_wf w)
    · exact putHqueue_wf w
  split
  · exact ringPost_wf _ _ (freeBytes_wf (putHqueue_wf w))
  · exact putHqueue_wf w

theorem fetchAll_wf {q n} (w : Memory.wf s = true) : Memory.wf (fetchAll q n s) = true := by
  induction n generalizing s with
  | zero => exact w
  | succ n ih =>
    dsimp only [fetchAll]
    split
    · exact fetchCmd_wf w
    · exact ih (fetchCmd_wf w)

theorem command_wf {op k} (w : Memory.wf s = true) (hk : ∀ u, Memory.wf u = true → Memory.wf (k u).st = true) :
    Result.Canonical (command op k s) := by
  dsimp only [command]
  refine .next ?_
  split
  · exact w
  split
  next h => exact complete_wf (CmdEnd.wf_of h (hk _ w))
  rename_i h
  exact CmdEnd.wf_of h (hk _ w)

theorem commandOr_wf {op k} (w : Memory.wf s = true) (hk : ∀ u, Memory.wf u = true → Memory.wf (k u).st = true) :
    Result.Canonical (commandOr op k s) := by
  dsimp only [commandOr]
  refine .next ?_
  split
  next h => exact complete_wf (CmdEnd.wf_of h (hk _ w))
  next h => exact CmdEnd.wf_of h (hk _ w)
  rename_i h
  exact CmdEnd.wf_of h (hk _ w)

theorem execRingCoalesceTimeout_wf {k} (w : Memory.wf s = true) : Result.Canonical (execRingCoalesceTimeout k s) := .next (wf_ite w w)

theorem execContextCreate_wf {c} (w : Memory.wf s = true) : Result.Canonical (execContextCreate c s) := by
  dsimp only [execContextCreate]
  refine command_wf w (fun _ w' => ?_)
  split
  · exact w'
  · split <;> exact w'

theorem endContext_wf {asid} (w : Memory.wf s = true) : Memory.wf (endContext s asid) = true := gateLeft_wf (wf_with (orphanUnits_wf w))

theorem withCtx_wf {asid k} (w : Memory.wf s = true) (hk : ∀ c, Memory.wf (k c).st = true) : Memory.wf (withCtx s asid k).st = true := by
  dsimp only [withCtx]
  split
  · exact w
  · exact hk _

theorem execContextDestroy_wf {asid} (w : Memory.wf s = true) : Result.Canonical (execContextDestroy asid s) :=
  command_wf w (fun _ w' => withCtx_wf w' (fun _ => endContext_wf w'))

theorem restartHeld_wf {asid} (w : Memory.wf s = true) : Memory.wf (restartHeld s asid) = true := wf_with (mapJobs_wf w)

theorem writePte_wf {asid ddr a v} (w : Memory.wf s = true) : Memory.wf (writePte s asid ddr a v) = true := putBytes_wf _ _ _ w

theorem execMapWrite_wf {asid entries} (w : Memory.wf s = true) : Result.Canonical (execMapWrite asid entries s) := by
  dsimp only [execMapWrite]
  refine command_wf w (fun _ w' => ?_)
  refine withCtx_wf w' (fun _ => ?_)
  split
  · exact w'
  split
  · exact w'
  · exact restartHeld_wf (foldl_wf (fun _ _ w2 => writePte_wf w2) w')

theorem placeMarkers_wf {asid k} (w : Memory.wf s = true) : Memory.wf (placeMarkers s asid k) = true := mapJobs_wf w

theorem cleanStale_wf (w : Memory.wf s = true) : Memory.wf (cleanStale s) = true := w

theorem invalidate_wf {asid lo hi} (w : Memory.wf s = true) : Memory.wf (invalidate s asid lo hi) = true :=
  cleanStale_wf (placeMarkers_wf (wf_with (settleStores_wf w)))

theorem endWork_wf {w' status} (w : Memory.wf s = true) : Memory.wf (endWork s w' status) = true := completeAt_wf (cleanStale_wf w)

theorem startWork_wf {w'} (w : Memory.wf s = true) : Memory.wf (startWork s w') = true := w

theorem endInvalidate_wf {w'} (w : Memory.wf s = true) : Memory.wf (endInvalidate s w') = true := by
  dsimp only [endInvalidate]
  split
  · exact w
  · exact endWork_wf w

theorem execMapInvalidate_wf {asid lo hi} (w : Memory.wf s = true) : Result.Canonical (execMapInvalidate asid lo hi s) := by
  dsimp only [execMapInvalidate]
  refine .next ?_
  split
  · split
    · exact complete_wf w
    · exact endInvalidate_wf (startWork_wf (invalidate_wf w))
  split
  · exact endInvalidate_wf w
  · exact w

theorem copyPage_wf {src dst a b n} (w : Memory.wf s = true) : Memory.wf (copyPage s src dst a b n) = true :=
  foldl_wf (fun _ _ w' => setBad_wf _ _ _ w') (putBytes_wf _ _ _ w)

theorem movePins_wf {asid f} (w : Memory.wf s = true) : Memory.wf (movePins s asid f) = true := wf_with (mapJobs_wf w)

theorem movePage_wf {w' ddr a} (w : Memory.wf s = true) : Memory.wf (movePage s w' ddr a) = true :=
  invalidate_wf (wf_with (writePte_wf (movePins_wf (copyPage_wf w))))

theorem endMigrate_wf {w'} (w : Memory.wf s = true) : Memory.wf (endMigrate s w') = true := by
  dsimp only [endMigrate]
  split
  · exact w
  · exact endWork_wf (restartHeld_wf w)

theorem goMigrate_wf {w'} (w : Memory.wf s = true) : Memory.wf (goMigrate s w') = true := by
  dsimp only [goMigrate]
  split
  · exact endMigrate_wf w
  split
  · exact w
  split
  · exact endWork_wf (restartHeld_wf w)
  · exact endMigrate_wf (movePage_wf w)

theorem startMigrate_wf {c x va toDdr pa} (w : Memory.wf s = true) : Memory.wf (startMigrate s c x va toDdr pa) = true := by
  dsimp only [startMigrate]
  split
  · exact complete_wf w
  split
  · exact complete_wf w
  split
  · exact complete_wf w
  split
  · exact complete_wf w
  · exact goMigrate_wf (invalidate_wf (startWork_wf (writePte_wf w)))

theorem execMapMigrate_wf {asid va toDdr pa} (w : Memory.wf s = true) : Result.Canonical (execMapMigrate asid va toDdr pa s) := by
  dsimp only [execMapMigrate]
  refine .next ?_
  split
  · exact startMigrate_wf w
  · exact complete_wf w
  split
  · exact goMigrate_wf w
  · exact w

theorem barRead_wf {off} (w : Memory.wf s = true) : Memory.wf (barRead s off) = true := w

theorem barSize_wf {log} (w : Memory.wf s = true) : Memory.wf (barSize s log) = true := by
  dsimp only [barSize]
  split <;> exact w

theorem barWrite_wf {off b} (w : Memory.wf s = true) : Memory.wf (barWrite s off b) = true := by
  dsimp only [barWrite]
  refine foldl_wf (fun _ _ w' => ?_) w
  split
  · exact storeLine_wf _ _ _ _ _ w'
  · exact w'

theorem cmdStop_wf {p e} (w : Memory.wf s = true) : Memory.wf (cmdStop s p e).st = true := by
  dsimp only [cmdStop]
  split
  next h => exact HubStop.wf_of h (hubStop_wf w)
  rename_i h
  exact HubStop.wf_of h (hubStop_wf w)

theorem execModload_wf {asid va} (w : Memory.wf s = true) : Result.Canonical (execModload asid va s) := by
  dsimp only [execModload]
  refine command_wf w (fun _ w' => ?_)
  refine withCtx_wf w' (fun _ => ?_)
  split
  · exact w'
  split
  · exact cmdStop_wf w'
  split
  · exact cmdStop_wf w'
  split
  · exact takeReplies_wf w'
  · exact wf_with (takeReplies_wf w')

theorem execLaunchCommand_wf {asid q va} (w : Memory.wf s = true) : Result.Canonical (execLaunchCommand asid q va s) := by
  dsimp only [execLaunchCommand]
  refine command_wf w (fun _ w' => ?_)
  refine withCtx_wf w' (fun _ => ?_)
  split
  · exact w'
  split
  · rename_i h
    split
    · exact Enqueued.wf_of h (enqueueFor_wf w' (fun _ _ _ _ w2 => hubStop_wf w2))
    · exact Enqueued.wf_of h (enqueueFor_wf w' (fun _ _ _ _ w2 => hubStop_wf w2))
  next h => exact Enqueued.wf_of h (enqueueFor_wf w' (fun _ _ _ _ w2 => hubStop_wf w2))
  next h => exact Enqueued.wf_of h (enqueueFor_wf w' (fun _ _ _ _ w2 => hubStop_wf w2))
  rename_i h
  exact Enqueued.wf_of h (enqueueFor_wf w' (fun _ _ _ _ w2 => hubStop_wf w2))

theorem execLink_wf {write port up} (w : Memory.wf s = true) : Result.Canonical (execLink write port up s) := by
  dsimp only [execLink]
  refine command_wf w (fun _ w' => ?_)
  split
  · split <;> exact w'
  split
  · exact sendWaiting_wf (linkSet_wf w')
  · exact w'

theorem execPower_wf {state caps} (w : Memory.wf s = true) : Result.Canonical (execPower state caps s) := by
  dsimp only [execPower]
  refine command_wf w (fun _ w' => ?_)
  split
  · exact gateAll_wf w'
  split
  · exact foldl_wf (fun _ _ w2 => linkSet_wf w2) w'
  · exact w'

theorem execMeasure_wf {nonce} (w : Memory.wf s = true) : Result.Canonical (execMeasure nonce s) := by
  dsimp only [execMeasure]
  refine command_wf w (fun _ w' => ?_)
  split <;> exact w'

end Sys2Proof.Machine
end

section
/-! SUPPORT. Canonical form of the memories (O58): graphs. -/

namespace Sys2Proof.Machine
variable {s : State}

theorem putGraph_wf {g} (w : Memory.wf s = true) : Memory.wf (putGraph s g) = true := w

theorem endGraph_wf {g k status} {u : State} (w : Memory.wf s = true) (wu : Memory.wf u = true) :
    Memory.wf (endGraph s u g k status) = true := by
  dsimp only [endGraph]
  split
  next h =>
    split at h
    · cases h
    · exact hubWrites_leaves w wu _ h
  next h => exact takeReplies_wf (putGraph_wf (Ensures.ite (p := (Memory.wf · = true)) (.ok wu) (hubWrites_wf wu) _ h))

theorem finishNode_wf {g k succ} {u : State} (w : Memory.wf s = true) (wu : Memory.wf u = true) :
    Memory.wf (finishNode s u g k succ) = true := by
  dsimp only [finishNode]
  split
  · exact takeReplies_wf (putGraph_wf wu)
  · exact endGraph_wf w wu

theorem withNode_wf {asid g k kind f} (w : Memory.wf s = true) (hf : ∀ a b, Memory.wf (f a b) = true) :
    Result.Canonical (withNode s asid g k kind f) := by
  dsimp only [withNode]
  refine .next ?_
  split
  · exact w
  split
  · split
    · exact hf _ _
    · exact w
  · exact w

theorem setNode_wf {g k x} (w : Memory.wf s = true) : Memory.wf (setNode s g k x) = true := putGraph_wf w

theorem nodeStop_wf {g k acc x} (w : Memory.wf s = true) : Memory.wf (nodeStop s g k acc x) = true := by
  dsimp only [nodeStop]
  split
  next h => exact HubStop.wf_of h (hubStop_wf w)
  rename_i h
  exact endGraph_wf w (HubStop.wf_of h (hubStop_wf w))

theorem execGraphNodeJobs_wf {asid g node} (w : Memory.wf s = true) : Result.Canonical (execGraphNodeJobs asid g node s) := by
  dsimp only [execGraphNodeJobs]
  refine withNode_wf w (fun _ _ => ?_)
  split
  · exact w
  split
  next h => exact Enqueued.wf_of h (enqueueFor_wf w (fun _ _ _ _ w' => hubStop_wf w'))
  next h => exact setNode_wf (Enqueued.wf_of h (enqueueFor_wf w (fun _ _ _ _ w' => hubStop_wf w')))
  next h => exact endGraph_wf w (Enqueued.wf_of h (enqueueFor_wf w (fun _ _ _ _ w' => hubStop_wf w')))
  rename_i h
  split
  next h' => exact tellRefusal_leaves (Enqueued.wf_of h (enqueueFor_wf w (fun _ _ _ _ w' => hubStop_wf w'))) _ h'
  rename_i h'
  exact endGraph_wf w (tellRefusal_wf (Enqueued.wf_of h (enqueueFor_wf w (fun _ _ _ _ w' => hubStop_wf w'))) _ h')

theorem execGraphNodeCopy_wf {asid g node} (w : Memory.wf s = true) : Result.Canonical (execGraphNodeCopy asid g node s) := by
  dsimp only [execGraphNodeCopy]
  refine withNode_wf w (fun _ _ => ?_)
  split
  · split
    · exact nodeStop_wf w
    split
    · exact w
    · exact setNode_wf (putChan_wf w)
  split
  · exact setNode_wf w
  split
  · exact setNode_wf w
  split
  · exact setNode_wf (dropChan_wf w)
  split
  · exact endGraph_wf w (supervise_wf (dropChan_wf w))
  · exact w

theorem takeBranch_wf {x node t} (w : Memory.wf s = true) : Memory.wf (takeBranch s x node t) = true := by
  dsimp only [takeBranch]
  split
  · exact finishNode_wf w w
  split
  · exact w
  split
  · exact endGraph_wf w w
  · exact finishNode_wf w w

theorem execGraphNodeCond_wf {asid g node} (w : Memory.wf s = true) : Result.Canonical (execGraphNodeCond asid g node s) := by
  dsimp only [execGraphNodeCond]
  refine withNode_wf w (fun _ _ => ?_)
  split
  · exact takeBranch_wf w
  split
  · exact nodeStop_wf w
  · exact takeBranch_wf (putGraph_wf (takeReplies_wf w))

theorem execGraphNodeHost_wf {asid g node} (w : Memory.wf s = true) : Result.Canonical (execGraphNodeHost asid g node s) := by
  dsimp only [execGraphNodeHost]
  refine withNode_wf w (fun _ _ => ?_)
  split
  · exact setNode_wf w
  split
  · exact w
  split
  · exact nodeStop_wf w
  · exact setNode_wf (ringWrite_wf _ _ (takeReplies_wf w))

theorem execGraphNodeWait_wf {asid g node} (w : Memory.wf s = true) : Result.Canonical (execGraphNodeWait asid g node s) := by
  dsimp only [execGraphNodeWait]
  refine withNode_wf w (fun _ _ => ?_)
  split
  · split
    · exact setNode_wf w
    · exact w
  · split
    · exact setNode_wf w
    · exact w
  split
  · exact setNode_wf w
  · exact w

theorem execGraphNodeEnd_wf {asid g node} (w : Memory.wf s = true) : Result.Canonical (execGraphNodeEnd asid g node s) := by
  dsimp only [execGraphNodeEnd]
  refine withNode_wf w (fun _ _ => ?_)
  split
  · exact nodeStop_wf w
  rename_i h
  exact endGraph_wf w (writeBytes_ok w _ h)

theorem execGraphNodeComplete_wf {asid g node} (w : Memory.wf s = true) : Result.Canonical (execGraphNodeComplete asid g node s) := by
  dsimp only [execGraphNodeComplete]
  refine .next ?_
  split
  · exact w
  split
  · split
    · exact finishNode_wf w w
    · exact w
  · exact w

theorem execGraphLoad_wf {asid va} (w : Memory.wf s = true) : Result.Canonical (execGraphLoad asid va s) := by
  dsimp only [execGraphLoad]
  refine command_wf w (fun _ w' => ?_)
  refine withCtx_wf w' (fun _ => ?_)
  split
  · exact w'
  split
  · exact cmdStop_wf w'
  split
  · exact takeReplies_wf w'
  split
  · exact cmdStop_wf w'
  split
  · exact takeReplies_wf w'
  split
  · exact takeReplies_wf w'
  split
  · exact takeReplies_wf w'
  · exact wf_with (takeReplies_wf w')

theorem execGraphStart_wf {asid g} (w : Memory.wf s = true) : Result.Canonical (execGraphStart asid g s) := by
  dsimp only [execGraphStart]
  refine command_wf w (fun _ w' => ?_)
  refine withCtx_wf w' (fun _ => ?_)
  split
  · exact w'
  split
  · exact w'
  · exact putGraph_wf w'

theorem execGraphQuery_wf {asid g} (w : Memory.wf s = true) : Result.Canonical (execGraphQuery asid g s) := by
  dsimp only [execGraphQuery]
  refine command_wf w (fun _ w' => ?_)
  refine withCtx_wf w' (fun _ => ?_)
  split <;> exact w'

end Sys2Proof.Machine
end

section
/-! SUPPORT. Canonical form of the memories (O58): preemption and contexts. -/

namespace Sys2Proof.Machine
variable {s : State}

theorem renameBars_wf {f} (w : Memory.wf s = true) : Memory.wf (renameBars f s) = true := wf_with (mapJobs_wf w)

theorem execPreempt_wf {launch} (w : Memory.wf s = true) : Result.Canonical (execPreempt launch s) := by
  dsimp only [execPreempt]
  refine commandOr_wf w fun _ w => ?_
  split
  · exact w
  split
  · exact w
  · exact mapJobs_wf (f := fun j => if j.launch = launch then j.preempt else j)
      (foldl_wf (fun _ _ w => wf_ite (abandonCtl_wf w) (withdraw_wf w)) w)

/-- A copy between two stores keeps the canonical form of the store that it goes into. -/
theorem spanCopy_wf {k : Nat} {src dst : Sparse k} (a b n : Nat) (w : sparseWf dst = true) : sparseWf (spanCopy src dst a b n) = true := by
  have fold : ∀ (l : List (Nat × BitVec k)) (m : Sparse k), sparseWf m = true →
      sparseWf (l.foldl (fun m e => sset m (b + e.1) e.2) m) = true := by
    intro l
    induction l with
    | nil => exact fun _ h => h
    | cons e r ih => exact fun _ h => ih _ (sset_wf _ _ h)
  exact fold _ _ (sclear_wf _ _ w)

/-- Lines of a job go into its image (15_traps.md R334), with their poison (10_scratchpad.md R246). -/
theorem saveLines_wf {j b k n} (w : Memory.wf s = true) : Memory.wf (saveLines s j b k n) = true :=
  Memory.wf_hbmPoison (Memory.wf_hbm w (spanCopy_wf _ _ _)) (spanCopy_wf _ _ _)

/-- They come back from it. -/
theorem foldLines_wf {j b k n} (w : Memory.wf s = true) : Memory.wf (foldLines s j b k n) = true :=
  Memory.wf_spadPoison (Memory.wf_spad w (spanCopy_wf _ _ _)) (spanCopy_wf _ _ _)

theorem suspendGroup_wf {launch} (w : Memory.wf s = true) : Memory.wf (suspendGroup s launch) = true := by
  dsimp only [suspendGroup]
  split
  · exact gateLeft_wf (updLaunch_wf (renameBars_wf w))
  · exact w

theorem goSave_wf {job} (w : Memory.wf s = true) : Memory.wf (goSave s job) = true := by
  dsimp only [goSave]
  split
  · exact w
  split
  · exact w
  split
  · exact updBasket_wf _ _ (saveLines_wf w)
  · exact suspendGroup_wf (updBasket_wf _ _ (updJob_wf (updBasket_wf _ _ (saveLines_wf w))))

theorem execSave_wf {job place log flt} (w : Memory.wf s = true) : Result.Canonical (execSave job place log flt s) := by
  dsimp only [execSave]
  refine .next ?_
  split
  · exact w
  split
  · exact goSave_wf w
  split
  · exact goSave_wf (updBasket_wf _ _ (updJob_wf (foldl_wf (fun _ _ w' => unitPassed_wf w') (forsake_wf (settleStores_wf w)))))
  · exact w

theorem enlargeLogs_wf {job a} (w : Memory.wf s = true) : Memory.wf (enlargeLogs s job a) = true := by
  dsimp only [enlargeLogs]
  split
  · exact w
  split
  · exact w
  split
  · exact updBasket_wf _ _ w
  · exact w

theorem restoreJob_wf {q} (w : Memory.wf s = true) : Memory.wf (restoreJob s q) = true := updBasket_wf _ _ (updJob_wf (clearRegion_wf w))

theorem foldSome_wf {job} (w : Memory.wf s = true) : Memory.wf (foldSome s job) = true := by
  dsimp only [foldSome]
  split
  · exact w
  split
  · exact w
  · exact updBasket_wf _ _ (foldLines_wf w)

theorem replayEvent_wf {b e} (w : Memory.wf s = true) : Memory.wf (replayEvent s b e) = true := by
  dsimp only [replayEvent]
  split
  next h => exact closeBar_wf (barEvent_wf (closeBar_wf w) _ h)
  · exact w

theorem replayBar_wf {b l} (w : Memory.wf s = true) : Memory.wf (replayBar b l s) = true := by
  induction l generalizing s with
  | nil => exact w
  | cons e r ih =>
    refine ih ?_
    split
    · exact replayEvent_wf w
    · exact w

theorem fireNow_wf {t n} (w : Memory.wf s = true) : Memory.wf (fireNow t n s) = true := by
  induction n generalizing s with
  | zero => exact w
  | succ n ih => exact ih (fireOldest_wf w)

theorem replayTub_wf {job k l} (w : Memory.wf s = true) : Memory.wf (replayTub job k l s) = true := by
  induction l generalizing s with
  | nil => exact w
  | cons e r ih =>
    refine ih ?_
    split
    · exact wf_ite (fireNow_wf (putTub_wf w)) w
    · exact w

theorem foldIn_wf {j} (w : Memory.wf s = true) : Memory.wf (foldIn s j) = true := by
  dsimp only [foldIn]
  refine updBasket_wf _ _ ?_
  refine updJob_wf ?_
  refine foldl_wf (fun _ _ w' => replayTub_wf w') ?_
  split
  · exact foldl_wf (fun _ _ w' => replayBar_wf w') w
  · exact w

theorem goFold_wf {launch} (w : Memory.wf s = true) : Memory.wf (goFold s launch) = true := by
  dsimp only [goFold]
  split
  · split
    · exact completeAt_wf (updLaunch_wf (foldl_wf (fun _ _ w' => foldIn_wf w') (mapJobs_wf (foldl_wf (fun _ _ w2 => foldSome_wf w2) w))))
    · exact updLaunch_wf (foldl_wf (fun _ _ w' => foldIn_wf w') (mapJobs_wf (foldl_wf (fun _ _ w2 => foldSome_wf w2) w)))
  · exact foldl_wf (fun _ _ w' => foldSome_wf w') w

theorem restoreGroup_wf {l js} (w : Memory.wf s = true) : Grants (Memory.wf · = true) (restoreGroup s l js) :=
  Grants.map (fun _ _ => renameBars_wf (updLaunch_wf (foldl_wf (fun _ _ w' => restoreJob_wf w') w)))

theorem execPreemptResume_wf {launch places} (w : Memory.wf s = true) : Result.Canonical (execPreemptResume launch places s) := by
  dsimp only [execPreemptResume]
  refine commandOr_wf w (fun _ w' => ?_)
  split
  · exact w'
  split
  · split
    · exact goFold_wf w'
    · exact w'
  split
  · exact w'
  split
  · split
    · exact foldl_wf (fun _ _ w2 => wakeRegion_wf w2) w'
    split
    next h => exact goFold_wf (updLaunch_wf (restoreGroup_wf (settleStores_wf w') _ h))
    · exact w'
  · exact w'

theorem restartStopped_wf {id} (w : Memory.wf s = true) : Memory.wf (restartStopped s id) = true := wf_with (updJob_wf w)

theorem restartLogged_wf {id e} (w : Memory.wf s = true) : Memory.wf (restartLogged s id e) = true := by
  dsimp only [restartLogged]
  split
  · exact restartUnit_wf w
  · exact restartTub_wf w

theorem restartAbsent_wf {id} (w : Memory.wf s = true) : Memory.wf (restartAbsent s id) = true := by
  dsimp only [restartAbsent]
  split
  · exact w
  split
  · exact w
  · exact updBasket_wf _ _ (restartLogged_wf w)

theorem restartHub_wf {asid} (w : Memory.wf s = true) : Memory.wf (restartHub s asid) = true := w

theorem resumeJob_wf {j} (w : Memory.wf s = true) : Memory.wf (resumeJob s j) = true := by
  dsimp only [resumeJob]
  split
  · exact raise_wf _ _ (focus_wf w)
  · exact eretEffect_wf (drain_wf (focus_wf w))

theorem withJob_wf {id k} (w : Memory.wf s = true) (hk : ∀ j, Memory.wf (k j).st = true) : Memory.wf (withJob s id k).st = true := by
  dsimp only [withJob]
  split
  · exact w
  · exact hk _

theorem execResolve_wf {job ans} (w : Memory.wf s = true) : Result.Canonical (execResolve job ans s) := by
  dsimp only [execResolve]
  refine command_wf w (fun _ w' => ?_)
  split
  · refine withJob_wf w' (fun _ => ?_)
    split
    · exact resumeJob_wf w'
    · exact w'
  · refine withJob_wf w' (fun _ => ?_)
    split
    · exact restartStopped_wf w'
    · exact restartAbsent_wf w'
  · exact withJob_wf w' (fun _ => endContext_wf w')
  · exact withCtx_wf w' (fun _ => restartHub_wf w')
  · exact withCtx_wf w' (fun _ => endContext_wf w')

theorem execBankWakeComplete_wf {core bank} (w : Memory.wf s = true) : Result.Canonical (execBankWakeComplete core bank s) := .next w

end Sys2Proof.Machine
end

section
/-! SUPPORT. Canonical form of the memories (O58): requests between devices. -/

namespace Sys2Proof.Machine
variable {s : State}

theorem respond_wf {q r} (w : Memory.wf s = true) : Memory.wf (respond s q r) = true := sendFree_wf w

theorem putWindow_wf {w'} (w : Memory.wf s = true) : Memory.wf (putWindow s w') = true := w

theorem lint_wf {q perform} (w : Memory.wf s = true) (hperform : ∀ u, Memory.wf u = true → Memory.wf (perform u).2 = true) :
    Memory.wf (lint s q perform) = true := by
  dsimp only [lint]
  split
  · exact respond_wf w
  split
  · exact respond_wf (putWindow_wf w)
  split
  · exact respond_wf (putWindow_wf w)
  split
  · exact putWindow_wf w
  · exact respond_wf (putWindow_wf (hperform _ (putWindow_wf w)))

theorem atTarget_wf {q k} (w : Memory.wf s = true) (hk : ∀ a u, Memory.wf u = true → Memory.wf (k a u).2 = true) :
    Memory.wf (atTarget q k s).2 = true := by
  dsimp only [atTarget]
  split
  · exact w
  split
  · exact w
  · exact hk _ _ w

theorem loadHere_wf {q sp} (w : Memory.wf s = true) : Memory.wf (loadHere q sp s).2 = true := by
  dsimp only [loadHere]
  split
  · exact w
  · split <;> exact w

theorem atomicHere_wf {q f sp} (w : Memory.wf s = true) : Memory.wf (atomicHere q f sp s).2 = true := by
  dsimp only [atomicHere]
  split
  · exact w
  split
  · exact w
  · exact storeLine_wf _ _ _ _ _ w

theorem nibbleHere_wf {q high v sp} (w : Memory.wf s = true) : Memory.wf (nibbleHere q high v sp s).2 = true := storeLine_wf _ _ _ _ _ w

theorem putLines_wf {q sp d bad} (w : Memory.wf s = true) : Memory.wf (putLines q sp d bad s) = true :=
  foldl_wf (fun _ _ w' => storeLine_wf _ _ _ _ _ w') w

theorem scatterHere_wf {q mem reg mode sat v sp} (w : Memory.wf s = true) : Memory.wf (scatterHere q mem reg mode sat v sp s).2 = true := by
  dsimp only [scatterHere]
  split
  · exact w
  · exact putLines_wf w

theorem reduceAt_wf {q op f mode sat d bad sp} (w : Memory.wf s = true) : Memory.wf (reduceAt q op f mode sat d bad sp s).2 = true := by
  dsimp only [reduceAt]
  split
  · exact w
  · exact putLines_wf w

theorem actHere_wf {q x} (w : Memory.wf s = true) : Memory.wf (actHere q x s).2 = true := by
  unfold actHere
  cases q.op with
  | load => exact loadHere_wf w
  | store d bad => exact storeLine_wf _ _ _ _ _ w
  | nibble high v => exact nibbleHere_wf w
  | amo op v => exact atomicHere_wf w
  | cas new cmp ord => exact atomicHere_wf w
  | reduce op f mode sat d bad => exact reduceAt_wf w
  | scatterAdd mem reg mode sat v => exact scatterHere_wf w
  | launch | wringer => exact w

theorem remote_wf {q} (w : Memory.wf s = true) : Memory.wf (remote q s) = true := by
  dsimp only [remote]
  split
  · split <;> exact w
  · exact lint_wf w (fun _ w' => atTarget_wf w' (fun _ _ w2 => actHere_wf w2))

theorem released_wf {k} (w : Memory.wf s = true) : Memory.wf (released k s) = true := by
  dsimp only [released]
  split
  · exact w
  split
  · exact w
  · exact lint_wf w (fun _ w' => actHere_wf w')

theorem execRemoteLoad_wf {r} (w : Memory.wf s = true) : Result.Canonical (execRemoteLoad r s) := by
  dsimp only [execRemoteLoad]
  refine .next ?_
  split
  · exact remote_wf w
  · exact w

theorem execRemoteStore_wf {r} (w : Memory.wf s = true) : Result.Canonical (execRemoteStore r s) := by
  dsimp only [execRemoteStore]
  refine .next ?_
  split
  · exact remote_wf w
  · exact remote_wf w
  · exact w

theorem execRemoteAmo_wf {r} (w : Memory.wf s = true) : Result.Canonical (execRemoteAmo r s) := by
  dsimp only [execRemoteAmo]
  refine .next ?_
  split
  · exact remote_wf w
  · exact w

theorem execRemoteCas_wf {r} (w : Memory.wf s = true) : Result.Canonical (execRemoteCas r s) := by
  dsimp only [execRemoteCas]
  refine .next ?_
  split
  · exact remote_wf w
  · exact w

theorem execRemoteReduce_wf {r} (w : Memory.wf s = true) : Result.Canonical (execRemoteReduce r s) := by
  dsimp only [execRemoteReduce]
  refine .next ?_
  split
  · exact remote_wf w
  · exact remote_wf w
  · exact w

theorem execJaileLaunchMessage_wf {r} (w : Memory.wf s = true) : Result.Canonical (execJaileLaunchMessage r s) := by
  dsimp only [execJaileLaunchMessage]
  refine .next ?_
  split
  · refine lint_wf w (fun _ w' => ?_)
    split
    · exact w'
    · exact w'
    · exact enqueueOr_wf w'
  · exact w

theorem takePart_wf {x} (w : Memory.wf s = true) : Memory.wf (takePart s x) = true := by
  dsimp only [takePart]
  split
  · exact w
  split
  · exact w
  · exact postReq_wf w

theorem execWringerTraffic_wf {r} (w : Memory.wf s = true) : Result.Canonical (execWringerTraffic r s) := by
  dsimp only [execWringerTraffic]
  refine .next ?_
  split
  · split
    · exact w
    · exact lint_wf w (fun _ w' => takePart_wf w')
  · exact w

theorem countRefusal_wf {x} (w : Memory.wf s = true) : Memory.wf (countRefusal s x) = true := by
  dsimp only [countRefusal]
  split
  · exact updLaunch_wf w
  · exact w

theorem takeResponse_wf {o r} (w : Memory.wf s = true) : Memory.wf (takeResponse s o r) = true := by
  dsimp only [takeResponse]
  split
  · split
    · exact countRefusal_wf w
    · exact w
  · exact w
  · split <;> exact w
  · exact w

theorem execResponse_wf {r} (w : Memory.wf s = true) : Result.Canonical (execResponse r s) := by
  dsimp only [execResponse]
  refine .next ?_
  split
  · split
    · exact sendWaiting_wf (takeResponse_wf w)
    · exact w
  · exact w

theorem failOut_wf {o} (w : Memory.wf s = true) : Memory.wf (failOut s o) = true := by
  dsimp only [failOut]
  split
  · exact countRefusal_wf w
  · exact w

theorem noRoute_wf {dev} (w : Memory.wf s = true) : Memory.wf (noRoute s dev) = true := foldl_wf (fun _ _ w' => failOut_wf w') w

theorem execRequestResend_wf {tgt seq} (w : Memory.wf s = true) : Result.Canonical (execRequestResend tgt seq s) := by
  dsimp only [execRequestResend]
  refine .next ?_
  split
  · exact w
  split
  · exact w
  split
  · split
    · exact w
    · exact failOut_wf w
  split
  · exact w
  split
  · exact failOut_wf w
  split
  · exact w
  rename_i h
  exact wf_with (trySend_wf w _ h)

theorem resyncOut_wf {o} (w : Memory.wf s = true) : Memory.wf (resyncOut s o) = true := by
  dsimp only [resyncOut]
  split
  · exact countRefusal_wf w
  · split <;> exact w

theorem execResync_wf {src epoch answer} (w : Memory.wf s = true) : Result.Canonical (execResync src epoch answer s) := by
  dsimp only [execResync]
  refine .next ?_
  split
  · exact w
  · exact sendFree_wf (wf_ite w (wf_with (foldl_wf (fun _ _ w' => resyncOut_wf w') w)))

theorem execResyncResend_wf {tgt} (w : Memory.wf s = true) : Result.Canonical (execResyncResend tgt s) := .next (wf_ite (sendFree_wf w) w)

theorem performRequest_wf {q} (w : Memory.wf s = true) : Result.Canonical (performRequest q s) := by
  dsimp only [performRequest]
  split
  · exact execRemoteLoad_wf w
  · exact execRemoteStore_wf w
  · exact execRemoteStore_wf w
  · exact execRemoteAmo_wf w
  · exact execRemoteCas_wf w
  · exact execRemoteReduce_wf w
  · exact execRemoteReduce_wf w
  · exact execJaileLaunchMessage_wf w
  · exact execWringerTraffic_wf w

theorem packet_wf {vc l} (w : Memory.wf s = true) : Result.Canonical (packet s vc l) := by
  dsimp only [packet]
  split
  · exact .next w
  split
  · exact .next (sendFree_wf w)
  split
  · exact execResponse_wf w
  split
  · exact execResync_wf w
  split
  · exact performRequest_wf w
  · exact .next w

theorem replayLink_wf {port lseq} (w : Memory.wf s = true) : Memory.wf (replayLink s port lseq) = true := by
  dsimp only [replayLink]
  split
  · exact w
  split
  · split
    · exact linkSet_wf w
    · exact putLink_wf w
  split
  · exact linkSet_wf w
  · exact putLink_wf w

theorem replayed_wf {port} (w : Memory.wf s = true) : Memory.wf (replayed s port) = true := by
  dsimp only [replayed]
  split
  · exact putLink_wf w
  · exact w

theorem dropFlit_wf {port x} (w : Memory.wf s = true) : Memory.wf (dropFlit s port x) = true := by
  dsimp only [dropFlit]
  split
  · exact putLink_wf w
  split
  · exact linkSet_wf w
  · exact putLink_wf w

theorem execFlitReceive_wf {port f} (w : Memory.wf s = true) : Result.Canonical (execFlitReceive port f s) := by
  dsimp only [execFlitReceive]
  split
  · exact .next w
  split
  · exact .next (dropFlit_wf w)
  split
  · exact .next (dropFlit_wf w)
  split
  · exact packet_wf (putLink_wf w)
  · exact .next (putLink_wf w)

theorem farLink_wf {a b up} (w : Memory.wf s = true) : Memory.wf (farLink s a b up) = true := sendWaiting_wf w

end Sys2Proof.Machine
end

section
/-! SUPPORT. Canonical form of the memories (O58): reset and bring-up. -/

namespace Sys2Proof.Machine
variable {s : State}

theorem compareReports_wf {l} (w : Memory.wf s = true) : Memory.wf (compareReports s l) = true := w

theorem partnerReports_wf {p} (w : Memory.wf s = true) : Memory.wf (partnerReports s p) = true := by
  dsimp only [partnerReports]
  split
  · exact w
  · exact compareReports_wf w

theorem trainPorts_wf {r} (w : Memory.wf s = true) : Memory.wf (trainPorts r s) = true := by
  dsimp only [trainPorts]
  split
  · exact wf_with (compareReports_wf w)
  · exact sendWaiting_wf (wf_with (foldl_wf (fun _ _ w' => linkSet_wf w') (wf_with (compareReports_wf w))))

theorem bringUp_wf {r} (w : Memory.wf s = true) : Memory.wf (bringUp r s) = true := by
  dsimp only [bringUp]
  refine wf_with ?_
  split
  · refine trainPorts_wf ?_
    split
    · refine wf_with ?_
      split <;> exact w
    · split <;> exact w
  split
  · refine wf_with ?_
    split <;> exact w
  · split <;> exact w

/-- A device reset keeps the memories of the tiers and of the host, and empties the scratchpads (18_host.md R384). -/
theorem resetKeeping_wf (w : Memory.wf s = true) : Memory.wf (resetKeeping s) = true := by
  simp only [Memory.wf, Bool.and_eq_true] at w
  obtain ⟨⟨⟨⟨⟨⟨⟨hbm, ddr⟩, host⟩, _⟩, hbmPoison⟩, ddrPoison⟩, _⟩, _⟩ := w
  simp only [Memory.wf, resetKeeping, Bool.and_eq_true]
  exact ⟨⟨⟨⟨⟨⟨⟨hbm, ddr⟩, host⟩, rfl⟩, hbmPoison⟩, ddrPoison⟩, rfl⟩, rfl⟩

end Sys2Proof.Machine
end

section
/-! SUPPORT. Canonical form of the memories (O58): every instruction and event. -/

namespace Sys2Proof.Machine
variable {s : State}

theorem exec_wf {i} (w : Memory.wf s = true) : Result.Canonical (exec i s) := by
  unfold exec
  cases i with
  | add | sub | mul | mulh | mulhu | div | divu | rem | remu | and | or | xor | shl | shr | sra | min | max | minu | maxu | slt | sltu =>
    exact alu_wf w
  | clz | popc | sel | lih | lsh | gets | hget | cycle => exact .next (retireX_wf w)
  | addi | andi | ori | xori | shli | shri | srai | slti => exact aluImm_wf w
  | beq | bne | blt | bge | bltu | bgeu => exact branch_wf w
  | jal => exact .next (setPc_wf (setX_wf w))
  | jalr => exact execJalr_wf w
  | ld | ldu | lda => exact loadX_wf w
  | st | stl | hst => exact .next (withStore_wf w (fun _ w' => advance_wf (takeReplies_wf w')))
  | amoSwap | amoAdd | amoAnd | amoOr | amoXor | amoMin | amoMax | amoMaxu | amoaSwap | amoaAdd | amoaAnd | amoaOr | amoaXor | amoaMin |
    amoaMax | amoaMaxu | amolSwap | amolAdd | amolAnd | amolOr | amolXor | amolMin | amolMax | amolMaxu | amoalSwap | amoalAdd | amoalAnd |
    amoalOr | amoalXor | amoalMin | amoalMax | amoalMaxu => exact amo_wf w
  | cas => exact atomicX_wf w
  | fenceAcq => exact execFenceAcq_wf w
  | fenceRel => exact execFenceRel_wf w
  | fenceFull => exact .next (advance_wf (drainWhere_wf _ w))
  | waitaEq | waitaNe => exact waita_wf w
  | push => exact execPush_wf w
  | popr => exact execPopr_wf w
  | qcut => exact execQcut_wf w
  | ltrim => exact execLtrim_wf w
  | sets => exact execSets_wf w
  | hld => exact execHld_wf w
  | hset => exact execHset_wf w
  | bari => exact execBari_wf w
  | barv | barvBare => exact .next (arriveX_wf w)
  | barx => exact execBarx_wf w
  | barw => exact execBarw_wf w
  | mbs => exact execMbs_wf w
  | mbr => exact execMbr_wf w
  | tubset => exact execTubset_wf w
  | tubarmOn | tubarmOff => exact tubarm_wf w
  | spa => exact execSpa_wf w
  | spra => exact execSpra_wf w
  | spf => exact execSpf_wf w
  | sprst => exact execSprst_wf w
  | specb => exact execSpecb_wf w
  | specc => exact execSpecc_wf w
  | speca => exact execSpeca_wf w
  | chain => exact execChain_wf w
  | cpyx => exact execCpyx_wf w
  | cwait => exact execCwait_wf w
  | ixc => exact .next (wf_ite (raise_wf _ _ w) (readBlock_wf w))
  | darnRank | darnCommit | darnStain | darnList | darnClear => exact darn_wf w
  | wrng => exact .next (wf_ite (raise_wf _ _ w) (readDesc_wf w))
  | strt => exact execStrt_wf w
  | join => exact .next (wf_with (drain_wf w))
  | launch => exact execLaunch_wf w
  | yield => exact execYield_wf w
  | trap => exact .next (raiseAt_wf _ _ _ _ w)
  | tfence => exact .next (wf_ite (wf_ite (raiseAt_wf _ _ _ _ (drain_wf w)) (advance_wf (drain_wf w))) (hold_wf w))
  | eret => exact .next (wf_ite (raise_wf _ _ w) (wf_ite (raise_wf _ _ w) (eretEffect_wf (drain_wf w))))
  | esc => exact .next (wf_ite (raise_wf _ _ w) (escalate_wf _ _ w))
  | csrr => exact execCsrr_wf w
  | csrw => exact execCsrw_wf w
  | nop => exact execNop_wf w
  | unassignedMajor => exact .next (raise_wf _ _ w)
  | issue | wide => exact onWord_wf w (fun _ w' => withSlot_wf w' (fun _ => issueOp_wf w'))
  | amend => exact execAmend_wf w
  | loopImm | loopReg => exact loop_wf w
  | endl => exact execEndl_wf w
  | stop | rdv => exact onWord_wf w (fun _ w' => putStream_wf w')
  | bwt => exact execBwt_wf w
  | bav => exact execBav_wf w
  | patl => exact execPatl_wf w
  | toks => exact execToks_wf w
  | pred => exact execPred_wf w
  | vadd | vsub | vmul | vmax | vmin | vcmp | vdiv | viadd | visub | vimul | vand | vor | vxor | vshl | vshr | vsra | vimax | vimin =>
    exact vx2_wf w
  | vfma | vfms => exact vx3_wf w
  | vabs | vneg | vcvt | vexp2 | vlog2 | vrcp | vrsq | vsqrt | vgumb => exact vx1_wf w
  | vsel | vqnt | vdqnt | vscl | vmov | vbc | viota | vred | vscan | vsegr | vperm | vpack | vunpk | vpart | vrank | vprune | vrng | vlut
    => exact vxRun_wf w
  | vtree => exact execVtree_wf w
  | vpost => exact execVpost_wf w
  | mlb => exact execMlb_wf w
  | mma => exact execMma_wf w
  | mmb => exact execMmb_wf w
  | msa | macz | macw => exact mxRun_wf w (fun _ => completeOp_wf (putMatrix_wf w))
  | macr => exact execMacr_wf w
  | mmad => exact execMmad_wf w
  | ldt => exact execLdt_wf w
  | ldv => exact execLdv_wf w
  | ldb => exact execLdb_wf w
  | ldg => exact execLdg_wf w
  | ldz => exact execLdz_wf w
  | stt => exact execStt_wf w
  | stv => exact execStv_wf w
  | sts => exact execSts_wf w
  | sta => exact execSta_wf w
  | stq => exact execStq_wf w
  | aff => exact execAff_wf w
  | red => exact execRed_wf w
  | mcst => exact execMcst_wf w
  | sig => exact execSig_wf w
  | pgt => exact execPgt_wf w
  | skip => exact execSkip_wf w
  | gth => exact execGth_wf w
  | sct => exact execSct_wf w
  | sca => exact execSca_wf w
  | cpt => exact execCpt_wf w
  | allred | redsc | allgv | a2av | bcast | argn | fbar => exact collective_wf w
  | illegalInstr => exact execIllegalInstr_wf w
  | illegalPatch => exact execIllegalPatch_wf w
  | waitaWake => exact execWaitaWake_wf w
  | waitaTimeout => exact execWaitaTimeout_wf w
  | barrierWaitResume => exact execBarrierWaitResume_wf w
  | tubFire => exact execTubFire_wf w
  | spoolRelease => exact execSpoolRelease_wf w
  | yieldTimeout => exact execYieldTimeout_wf w
  | bavArrival => exact execBavArrival_wf w
  | segmentStart => exact execSegmentStart_wf w
  | operationStart => exact execOperationStart_wf w
  | siblingTakeover => exact .next (wf_ite (takeBlock_wf w) (takeMmad_wf w))
  | altWindowChange => exact .next (wf_ite (tick_wf w) w)
  | rendezvousComplete => exact execRendezvousComplete_wf w
  | jobRetire => exact execJobRetire_wf w
  | enqueueResume => exact execEnqueueResume_wf w
  | launchPlace => exact execLaunchPlace_wf w
  | jobStart => exact execJobStart_wf w
  | launchCompletion => exact execLaunchCompletion_wf w
  | jaileLaunchMessage => exact execJaileLaunchMessage_wf w
  | graphNodeJobs => exact execGraphNodeJobs_wf w
  | graphNodeCopy => exact execGraphNodeCopy_wf w
  | graphNodeCond => exact execGraphNodeCond_wf w
  | graphNodeHost => exact execGraphNodeHost_wf w
  | graphNodeWait => exact execGraphNodeWait_wf w
  | graphNodeEnd => exact execGraphNodeEnd_wf w
  | graphNodeComplete => exact execGraphNodeComplete_wf w
  | channelRecordFetch => exact execChannelRecordFetch_wf w
  | recordCompletion => exact execRecordCompletion_wf w
  | cpyxTransferComplete => exact execCpyxTransferComplete_wf w
  | indexBlockComplete => exact execIndexBlockComplete_wf w
  | pageWalk => exact .next (wf_ite w w)
  | bankWakeComplete => exact execBankWakeComplete_wf w
  | trapDivert => exact execTrapDivert_wf w
  | save => exact execSave_wf w
  | flitReceive => exact execFlitReceive_wf w
  | linkDown => exact .next (wf_ite (linkSet_wf w) w)
  | linkUp => exact .next (wf_ite (sendWaiting_wf (linkSet_wf w)) w)
  | requestResend => exact execRequestResend_wf w
  | remoteLoad => exact execRemoteLoad_wf w
  | remoteStore => exact execRemoteStore_wf w
  | remoteAmo => exact execRemoteAmo_wf w
  | remoteCas => exact execRemoteCas_wf w
  | remoteReduce => exact execRemoteReduce_wf w
  | wringerTraffic => exact execWringerTraffic_wf w
  | response => exact execResponse_wf w
  | resync => exact execResync_wf w
  | resyncResend => exact execResyncResend_wf w
  | qnotify => exact .next (wf_ite w (fetchAll_wf (putHqueue_wf w)))
  | qstateWrite => exact .next (restartQueue_wf w)
  | rheadWrite => exact .next (wf_ite w (ringFlush_wf _ _ w))
  | registerWrite => exact execRegisterWrite_wf w
  | ringCoalesceTimeout => exact execRingCoalesceTimeout_wf w
  | contextCreate => exact execContextCreate_wf w
  | contextDestroy => exact execContextDestroy_wf w
  | mapWrite => exact execMapWrite_wf w
  | mapInvalidate => exact execMapInvalidate_wf w
  | mapMigrate => exact execMapMigrate_wf w
  | mapPlaceBar2 | query | errlog => exact command_wf w (fun _ w' => w')
  | modload => exact execModload_wf w
  | launchCommand => exact execLaunchCommand_wf w
  | graphLoad => exact execGraphLoad_wf w
  | graphStart => exact execGraphStart_wf w
  | graphQuery => exact execGraphQuery_wf w
  | preempt => exact execPreempt_wf w
  | preemptResume => exact execPreemptResume_wf w
  | link => exact execLink_wf w
  | power => exact execPower_wf w
  | measure => exact execMeasure_wf w
  | resolve => exact execResolve_wf w
  | deviceReset => exact .next (bringUp_wf (resetKeeping_wf w))
  | barrierClock => exact execBarrierClock_wf w
  | bankGating => exact .next (wf_ite (gateBanks_wf w) w)

end Sys2Proof.Machine
end

section
/-! SUPPORT. Canonical form of the memories (O58): every turn. -/

namespace Sys2Proof.Machine
variable {s : State}

theorem settleCtl_wf {id pc} (w : Memory.wf s = true) : Memory.wf (settleCtl id pc s) = true := by
  dsimp only [settleCtl]
  split
  · split
    · exact abandonCtl_wf w
    split
    · exact passOuts_wf (takeReplies_wf w)
    split
    · split
      · exact takeReplies_wf w
      · exact w
    · exact w
  · exact w

theorem ended_wf {id pc r} (hr : Result.Canonical r) : Result.Canonical (ended id pc r) := by
  cases r with
  | next u => exact .next (settleCtl_wf (hr u rfl))
  | fault x => exact .fault
  | refused x => exact .refused

theorem takeMarker_wf (w : Memory.wf s = true) : Memory.wf (takeMarker s) = true := by
  dsimp only [takeMarker]
  split
  · split
    · exact cleanStale_wf w
    · exact w
  · split
    · exact cleanStale_wf w
    · exact w
  · split
    · exact cleanStale_wf w
    · exact w
  · split
    · exact cleanStale_wf w
    · exact w
  split
  · exact cleanStale_wf w
  · exact w

theorem goCtl_wf (w : Memory.wf s = true) : Result.Canonical (goCtl s) := by
  dsimp only [goCtl]
  split
  · exact .next (restartEngines_wf w)
  · exact .next (giveHandle_wf w)
  · exact .next (appendBlock_wf w)
  · exact .next (submitOr_wf w)
  · exact .next (nextDarn_wf w)
  split
  · exact .next (ctlStop_wf w)
  · exact exec_wf w

theorem runCtl_wf (w : Memory.wf s = true) : Result.Canonical (runCtl s) := by
  dsimp only [runCtl]
  split
  · exact .next (divertIfPending_wf (takeMarker_wf w))
  split
  · exact ended_wf (goCtl_wf (takeMarker_wf w))
  · exact .next (takeMarker_wf w)

theorem wordEnded_wf {e pc r} (hr : Result.Canonical r) : Result.Canonical (wordEnded e pc r) := by
  cases r with
  | next u =>
    have w := hr u rfl
    exact .next (wf_ite w (wf_ite (unitPassed_wf w) (takeReplies_wf w)))
  | fault x => exact .fault
  | refused x => exact .refused

theorem runEng_wf {e} (w : Memory.wf s = true) : Result.Canonical (runEng e s) := by
  dsimp only [runEng]
  split
  · refine wordEnded_wf ?_
    split
    · exact .next (streamStop_wf w)
    · exact exec_wf w
  · exact .next w

theorem takeUnit_wf {e} (w : Memory.wf s = true) : Memory.wf (takeUnit s e) = true := by
  dsimp only [takeUnit]
  split <;> exact w

theorem runOp_wf {job e} (w : Memory.wf s = true) : Result.Canonical (runOp job e s) := by
  dsimp only [runOp]
  split
  · exact .next w
  split
  · exact .next w
  split
  · split
    · exact exec_wf (takeUnit_wf (focus_wf w))
    · exact .next w
  · exact .next w

theorem runChan_wf {core n} (w : Memory.wf s = true) : Result.Canonical (runChan core n s) := by
  dsimp only [runChan]
  split
  · exact .next w
  split
  · exact .next w
  split
  · exact runCpyx_wf w
  split
  · exact exec_wf w
  · exact .next w

theorem runIndex_wf {job k} (w : Memory.wf s = true) : Result.Canonical (runIndex job k s) := by
  dsimp only [runIndex]
  split
  · exact .next w
  split
  · exact .next w
  split
  · split
    · exact exec_wf (wf_with (focus_wf w))
    · exact .next w
  · exact .next w

theorem runSlot_wf {k} (w : Memory.wf s = true) : Result.Canonical (runSlot k s) := by
  dsimp only [runSlot]
  split
  · exact .next w
  split
  · exact exec_wf w
  · exact .next w

theorem perform_wf {job k} (w : Memory.wf s = true) : Memory.wf (perform job k s) = true := by
  dsimp only [perform]
  split
  · exact w
  split
  · exact w
  · exact performStore_wf _ (wf_with (focus_wf w))

theorem eccError_wf {tier line double} (w : Memory.wf s = true) : Memory.wf (eccError tier line double s) = true := by
  dsimp only [eccError]
  split
  · exact logErr_wf w
  · split <;> exact setBad_wf _ _ _ w

theorem takeFault_wf {die} (w : Memory.wf s = true) : Memory.wf (takeFault die s) = true := by
  dsimp only [takeFault]
  split <;> exact w

theorem runCommand_wf {queue stamp} (w : Memory.wf s = true) : Result.Canonical (runCommand queue stamp s) := by
  dsimp only [runCommand]
  split
  · exact .next w
  split
  · split
    next h => exact .next (wf_with (exec_wf (wf_with w) _ h))
    · exact exec_wf (wf_with w)
  · exact .next (wf_ite (complete_wf w) w)

theorem runStream_wf {job str} (w : Memory.wf s = true) : Result.Canonical (runStream job str s) := by
  dsimp only [runStream]
  split
  · exact .fault
  split
  · exact runCtl_wf (focus_wf w)
  · exact runEng_wf (focus_wf w)

theorem act_wf {a} (w : Memory.wf s = true) : Result.Canonical (act a s) := by
  cases a with
  | run => exact runStream_wf w
  | op => exact runOp_wf w
  | chan => exact runChan_wf w
  | index => exact runIndex_wf w
  | wringer => exact runSlot_wf w
  | event => exact exec_wf w
  | perform => exact .next (perform_wf w)
  | ecc => exact .next (eccError_wf w)
  | hostWrite => exact .next (Memory.wf_host w (sset_wf _ _))
  | barWrite => exact .next (barWrite_wf w)
  | regRead => exact .next (regRead_wf w)
  | barRead => exact .next (barRead_wf w)
  | barSize => exact .next (barSize_wf w)
  | enlarge => exact .next (enlargeLogs_wf w)
  | replay => exact .next (replayLink_wf w)
  | replayed => exact .next (replayed_wf w)
  | released => exact .next (released_wf w)
  | farLink => exact .next (farLink_wf w)
  | noRoute => exact .next (noRoute_wf w)
  | partner => exact .next (partnerReports_wf w)
  | fetch => exact .next (fetchCmd_wf w)
  | takeFault => exact .next (takeFault_wf w)
  | command => exact runCommand_wf w
  | evict => exact .next (wf_with w)
  | idle => exact .next w

theorem workTurn_wf {w'} (w : Memory.wf s = true) : Result.Canonical (workTurn w' s) := by
  dsimp only [workTurn]
  split
  · exact execMapInvalidate_wf w
  · exact execMapMigrate_wf w

/-- Every turn of the list keeps the memories in canonical form. -/
def TurnsKeep (l : List (State → Result)) : Prop := ∀ f ∈ l, ∀ {s : State}, Memory.wf s = true → Result.Canonical (f s)

theorem TurnsKeep.nil : TurnsKeep [] := nofun

theorem TurnsKeep.cons {f l} (h : ∀ {s : State}, Memory.wf s = true → Result.Canonical (f s)) (k : TurnsKeep l) : TurnsKeep (f :: l) := by
  rintro g (_ | ⟨_, hg⟩)
  · exact h
  · exact k g hg

theorem TurnsKeep.append {l r} (h : TurnsKeep l) (k : TurnsKeep r) : TurnsKeep (l ++ r) := by
  intro f hf
  rcases List.mem_append.1 hf with hf | hf
  · exact h f hf
  · exact k f hf

theorem TurnsKeep.map {α} {g : α → State → Result} {l : List α} (h : ∀ a {s : State}, Memory.wf s = true → Result.Canonical (g a s)) :
    TurnsKeep (l.map g) := by
  intro f hf
  obtain ⟨a, -, rfl⟩ := List.mem_map.1 hf
  exact h a

theorem TurnsKeep.flatMap {α} {g : α → List (State → Result)} {l : List α} (h : ∀ a, TurnsKeep (g a)) : TurnsKeep (l.flatMap g) := by
  intro f hf
  obtain ⟨a, -, hf⟩ := List.mem_flatMap.1 hf
  exact h a f hf

theorem TurnsKeep.ite {c : Prop} [Decidable c] {l r} (h : TurnsKeep l) (k : TurnsKeep r) : TurnsKeep (if c then l else r) := by
  split <;> assumption

theorem streamTurns_keep {id} : TurnsKeep (runStream id .ctl :: engines.map (fun e => runStream id (.eng e)) ++
    engines.map (fun e => execOperationStart id e) ++ engines.map (fun e => runOp id e)) :=
  .append (.append (.cons runStream_wf (.map fun _ => runStream_wf)) (.map fun _ => execOperationStart_wf)) (.map fun _ => runOp_wf)

theorem jobTurns_keep {j} : TurnsKeep (jobTurns j) := by
  have own : ∀ id, TurnsKeep [execBarrierWaitResume id .ctl, execWaitaWake id, execWaitaTimeout id, execYieldTimeout id,
      execRendezvousComplete id, execTrapDivert id, execSpoolRelease id, fun s => .next (perform id 0 s)] := fun _ =>
    .cons execBarrierWaitResume_wf <| .cons execWaitaWake_wf <| .cons execWaitaTimeout_wf <| .cons execYieldTimeout_wf <|
      .cons execRendezvousComplete_wf <| .cons execTrapDivert_wf <| .cons execSpoolRelease_wf <| .cons (fun w => .next (perform_wf w)) .nil
  refine .append (.append (.append (.append (.append (.append (.append (.append ?_ ?_) (own _)) ?_) ?_) ?_) ?_) ?_) ?_
  · exact .ite streamTurns_keep .nil
  · exact .flatMap fun _ => .cons execBavArrival_wf (.cons execSegmentStart_wf (.cons execBarrierWaitResume_wf .nil))
  · exact .map fun _ => runIndex_wf
  · exact .cons execIndexBlockComplete_wf .nil
  · exact .map fun _ => execTubFire_wf
  · exact .cons execJobRetire_wf .nil
  · exact .ite (.cons (fun w => .next (goSave_wf w)) .nil) .nil
  · exact .ite (.cons execPreemptResume_wf .nil) .nil

theorem chanTurns_keep {c} : TurnsKeep (chanTurns c) :=
  .cons execChannelRecordFetch_wf (.cons runChan_wf (.cons execRecordCompletion_wf (.cons execCpyxTransferComplete_wf .nil)))

theorem graphTurns_keep {g} : TurnsKeep (graphTurns g) :=
  .flatMap fun _ => .cons execGraphNodeJobs_wf <| .cons execGraphNodeCopy_wf <| .cons execGraphNodeCond_wf <| .cons execGraphNodeHost_wf <|
    .cons execGraphNodeWait_wf <| .cons execGraphNodeEnd_wf <| .cons execGraphNodeComplete_wf .nil

theorem turnsOf_keep : TurnsKeep (turnsOf s) := by
  refine .append (.append (.append (.append (.append (.append (.append (.append (.append (.append (.append (.append (.append (.append
    (.append (.append ?_ ?_) ?_) ?_) ?_) ?_) ?_) ?_) ?_) ?_) ?_) ?_) ?_) ?_) ?_) ?_) ?_
  · exact .flatMap fun _ => jobTurns_keep
  · exact .flatMap fun _ => chanTurns_keep
  · exact .map fun _ => execEnqueueResume_wf
  · exact .flatMap fun _ => .cons execJobStart_wf (.cons execLaunchCompletion_wf .nil)
  · exact .map fun _ => execBarrierClock_wf
  · exact .map fun _ => execTubFire_wf
  · exact .map fun _ => runSlot_wf
  · exact .flatMap fun _ => graphTurns_keep
  · exact .map fun _ => execBankWakeComplete_wf
  · exact .map fun _ => execRequestResend_wf
  · exact .map fun _ => execResyncResend_wf
  · exact .map fun _ => workTurn_wf
  · exact .map fun _ => runCommand_wf
  · exact .map fun _ _ w => .next (released_wf w)
  · exact .cons (fun w => .next (sendWaiting_wf w)) .nil
  · exact .map fun _ _ w => .next (fetchCmd_wf w)
  · exact .map fun _ => execRingCoalesceTimeout_wf

theorem freeRun_wf (w : Memory.wf s = true) : Result.Canonical (freeRun s) := by
  dsimp only [freeRun]
  split
  · exact .next (wf_ite (bringUp_wf w) w)
  · split
    next h => exact turnsOf_keep _ (List.mem_of_getElem? h) (tick_wf (wf_with w))
    · exact .next (tick_wf (wf_with w))

theorem turn_wf (w : Memory.wf s = true) : Result.Canonical (turn s) := by
  dsimp only [turn]
  split
  · exact freeRun_wf w
  · exact act_wf (tick_wf w)

end Sys2Proof.Machine
end

section
/-! SUPPORT. Canonical form of the memories (O58): a step. -/

namespace Sys2Proof.Machine
variable {s : State}

theorem step_wf (w : Memory.wf s = true) : Result.Canonical (step s) := turn_wf w

/-- Settles O58: a step is a turn, and every turn keeps the stores that it writes in canonical form. -/
theorem memoryInvariant : Obligations.MemoryInvariant := fun _ _ w h => step_wf w _ h

end Sys2Proof.Machine
end

section
/-! SUPPORT. The host interface (O40): the notify and the fetch of a command. -/

namespace Sys2Proof.Machine
variable {s : State}

theorem assign_assign_same {α β : Type} [DecidableEq α] (l : List (α × β)) (k : α) (v w : β) :
    assign (assign l k v) k w = assign l k w := by
  induction l with
  | nil => simp [assign]
  | cons e l ih =>
    by_cases h : e.1 = k
    · simp [assign, h]
    · simp [assign, h, ih]

@[simp] theorem hqueueOf_putHqueue (s : State) (q : Nat) (x : HQueue) : hqueueOf (putHqueue s q x) q = x := by
  simp [hqueueOf, putHqueue, lookupD_assign]

@[simp] theorem putHqueue_putHqueue (s : State) (q : Nat) (x y : HQueue) : putHqueue (putHqueue s q x) q y = putHqueue s q y := by
  simp [putHqueue, assign_assign_same]

/-- Bytes of a run of bytes are bytes of the store. -/
theorem getBytes_sub (s : State) (sp : Space) (a n k m : Nat) (h : k + m ≤ n) :
    ((getBytes s sp a n).drop k).take m = getBytes s sp (a + k) m := by
  refine List.ext_getElem? fun i => ?_
  by_cases hi : i < m
  · simp [getBytes, hi, show k + i < n by omega, Nat.add_assoc]
  · simp [getBytes, hi]

theorem fetchCmd_idle {q} (h : (hqueueOf s q).highest.toNat < (hqueueOf s q).next.toNat) : fetchCmd s q = s := by
  simp [fetchCmd, h]

/-- Where the command of a stamp stands (R377). -/
def cmdAddr (x : HQueue) : Nat := x.base.toNat + 128 * (x.next.toNat % x.slots)

theorem fetchCmd_missing {q x} (hx : x = hqueueOf s q) (run : x.state = 1) (due : x.next.toNat ≤ x.highest.toNat) (once : x.tries = 0)
    (gone : leNat (getBytes s .host (cmdAddr x + 120) 8) ≠ x.next.toNat) :
    fetchCmd s q = putHqueue s q { x with tries := 1, first := s.clock } := by
  subst hx
  unfold cmdAddr at gone
  simp [fetchCmd, run, Nat.not_lt.2 due, once, gone]

/-- The command that the bytes b of a slot spell (R377). -/
def slotCmd (q : Nat) (stamp : Word) (b : List Byte) : Cmd :=
  { queue := q, opcode := leNat (b.take 2), order := decide (leNat ((b.drop 2).take 2) = 1), tag := BitVec.ofNat 32 (leNat ((b.drop 4).take 4))
    stamp, args := (b.drop 8).take 112, bad := false }

/-- Bytes 0 to 3 and 120 to 127 of a slot: a known opcode, no reserved flag, and the stamp. -/
def slotReady (stamp : Word) (b : List Byte) : Prop :=
  leNat (b.drop 120) = stamp.toNat ∧ (1 ≤ leNat (b.take 2) ∧ leNat (b.take 2) ≤ 12) ∧ leNat ((b.drop 2).take 2) < 2

theorem slot_stamp (s : State) (a : Nat) : (getBytes s .host a 128).drop 120 = getBytes s .host (a + 120) 8 := by
  rw [← getBytes_sub s .host a 128 120 8 (by omega), List.take_of_length_le (by simp [getBytes])]

theorem fetchCmd_taken {q x b} (hx : x = hqueueOf s q) (run : x.state = 1) (due : x.next.toNat ≤ x.highest.toNat)
    (early : x.tries = 0 ∨ s.clock - x.first ≤ 150000) (hb : b = getBytes s .host (cmdAddr x) 128) (ready : slotReady x.next b) :
    fetchCmd s q = putHqueue { s with cmds := s.cmds ++ [slotCmd q x.next b] } q { x with next := x.next + 1, tries := 0 } := by
  obtain ⟨there, op, flags⟩ := ready
  have late : ¬ 100 * usClocks < s.clock - (if x.tries = 0 then s.clock else x.first) := by
    simp only [usClocks]; split <;> omega
  have stamp : leNat (getBytes s .host (cmdAddr x + 120) 8) = x.next.toNat := by rw [← slot_stamp, ← hb, there]
  have known : knownCmd (leNat (b.take 2)) = true := by simpa [knownCmd] using op
  have code : getBytes s .host (cmdAddr x + 0) 2 = b.take 2 := by rw [hb, ← getBytes_sub s .host _ 128 0 2 (by omega), List.drop_zero]
  have flag : getBytes s .host (cmdAddr x + 2) 2 = (b.drop 2).take 2 := by rw [hb, getBytes_sub s .host _ 128 2 2 (by omega)]
  have tag : getBytes s .host (cmdAddr x + 4) 4 = (b.drop 4).take 4 := by rw [hb, getBytes_sub s .host _ 128 4 4 (by omega)]
  have args : getBytes s .host (cmdAddr x + 8) 112 = (b.drop 8).take 112 := by rw [hb, getBytes_sub s .host _ 128 8 112 (by omega)]
  unfold cmdAddr at *
  subst hx
  simp only [fetchCmd, run, Nat.not_lt.2 due, late, stamp, code, flag, tag, args, known, Nat.not_le.2 flags]
  simp [slotCmd, Nat.mod_eq_of_lt flags]

/-- Past the highest stamp notified nothing is fetched, so one fetch is the last. -/
theorem fetchAll_done {q n} (h : (hqueueOf s q).highest.toNat < (hqueueOf s q).next.toNat) : fetchAll q n s = s := by
  cases n with
  | zero => rfl
  | succ n => simp [fetchAll, fetchCmd_idle h]

/-- A fetch that leaves QNEXT is the last. -/
theorem fetchAll_still {q n t} (h : fetchCmd s q = t) (same : (hqueueOf t q).next = (hqueueOf s q).next) : fetchAll q (n + 1) s = t := by
  simp [fetchAll, h, same]

/-- So is one that brings QNEXT past the highest stamp notified. -/
theorem fetchAll_last {q n t} (h : fetchCmd s q = t) (past : (hqueueOf t q).highest.toNat < (hqueueOf t q).next.toNat) :
    fetchAll q (n + 1) s = t := by
  rw [fetchAll, h]
  exact ite_eq_left_iff.2 fun _ => fetchAll_done past

theorem execQnotify_stopped {q v} (h : (hqueueOf s q.val).state ≠ 1) : execQnotify q v s = .next s := by
  unfold execQnotify
  rw [if_pos (by simpa using Or.inl h)]

theorem execQnotify_old {q v} (h : v.toNat < (hqueueOf s q.val).next.toNat) : execQnotify q v s = .next s := by simp [execQnotify, h]

/-- A notify of the next stamp fetches once, and once more. -/
theorem execQnotify_next {q : Fin 64} {v x} (hx : x = hqueueOf s q.val) (run : x.state = 1) (new : x.highest.toNat < x.next.toNat)
    (hv : v = x.next) : execQnotify q v s = .next (fetchAll q.val 2 (putHqueue s q.val { x with highest := v })) := by
  subst hv hx
  simp [execQnotify, run, new]

theorem execQnotify_missing {q : Fin 64} {v x b} (hx : x = hqueueOf s q.val) (run : x.state = 1) (new : x.highest.toNat < x.next.toNat)
    (hv : v = x.next) (once : x.tries = 0) (hb : b = getBytes s .host (cmdAddr x) 128) (gone : leNat (b.drop 120) ≠ v.toNat) :
    execQnotify q v s = .next (putHqueue s q.val { x with highest := v, tries := 1, first := s.clock }) := by
  rw [hb, slot_stamp, hv] at gone
  have fetched := fetchCmd_missing (s := putHqueue s q.val { x with highest := v }) (q := q.val) (x := { x with highest := v })
    (hqueueOf_putHqueue ..).symm run (hv ▸ Nat.le_refl _) once gone
  rw [execQnotify_next hx run new hv, fetchAll_still fetched (by simp), putHqueue_putHqueue]
  rfl

theorem execQnotify_taken {q : Fin 64} {v x b} (hx : x = hqueueOf s q.val) (early : x.tries = 0 ∨ s.clock - x.first ≤ 150000)
    (run : x.state = 1) (new : x.highest.toNat < x.next.toNat) (hv : v = x.next) (room : v.toNat + 1 < 2 ^ 64)
    (hb : b = getBytes s .host (cmdAddr x) 128) (ready : slotReady v b) :
    execQnotify q v s = .next (putHqueue { s with cmds := s.cmds ++ [slotCmd q.val v b] } q.val
      { x with highest := v, next := v + 1, tries := 0 }) := by
  have fetched := fetchCmd_taken (s := putHqueue s q.val { x with highest := v }) (q := q.val) (x := { x with highest := v })
    (hqueueOf_putHqueue ..).symm run (hv ▸ Nat.le_refl _) early hb (hv ▸ ready)
  have past : v.toNat < (v + 1).toNat := by
    rw [BitVec.toNat_add, Nat.mod_eq_of_lt (by simpa using room)]; simp
  rw [execQnotify_next hx run new hv, fetchAll_last fetched (by simpa [← hv] using past), hv]
  exact congrArg _ (putHqueue_putHqueue { s with cmds := s.cmds ++ [slotCmd q.val x.next b] } q.val { x with highest := x.next } _)

/-- The slot of a stamp (R377). -/
theorem cmdAddr_eq {x : HQueue} {v : Word} (hv : v = x.next) :
    x.base.toNat + 128 * (v.toNat % 2 ^ (x.size.extractLsb' 0 5).toNat) = cmdAddr x := by
  rw [hv]; rfl

theorem exec_qnotify_taken {q : Fin 64} {v : Word} {x : HQueue} {b : List Byte} (hx : x = hqueueOf s q.val)
    (early : x.tries = 0 ∨ s.clock - x.first ≤ 150000) (run : x.state = 1) (new : x.highest.toNat < x.next.toNat) (hv : v = x.next)
    (room : v.toNat + 1 < 2 ^ 64) (hb : b = getBytes s .host (cmdAddr x) 128) (ready : slotReady v b) :
    ∃ t, exec (.qnotify q v) s = .next t ∧ hqueueOf t q.val = { x with highest := v, next := v + 1, tries := 0 } ∧
      t.cmds = s.cmds ++ [slotCmd q.val v b] ∧ sameBytes s t :=
  ⟨_, execQnotify_taken hx early run new hv room hb ready, hqueueOf_putHqueue .., rfl, fun _ _ _ => rfl⟩

end Sys2Proof.Machine
end

section
/-! SUPPORT. The host interface (O40): rings and their interrupts. -/

namespace Sys2Proof.Machine
variable {s : State}

/-- Put ring k. -/
def putRing (s : State) (k : Nat) (r : HRing) : State := { s with hrings := assign s.hrings k r }

@[simp] theorem ringOf_putRing (s : State) (k : Nat) (r : HRing) : ringOf (putRing s k r) k = r := by
  simp [ringOf, putRing, lookupD_assign]

@[simp] theorem putRing_putRing (s : State) (k : Nat) (r r' : HRing) : putRing (putRing s k r) k r' = putRing s k r' := by
  simp [putRing, assign_assign_same]

theorem ringSignal_putRing (k : Nat) (r : HRing) :
    ringSignal (putRing s k r) k =
      if r.vec.getLsbD 15 = true ∧ r.unsig ≠ 0 ∧ (r.coal.extractLsb' 0 11).toNat ≤ r.unsig then
        { putRing s k { r with unsig := 0 } with interrupts := s.interrupts ++ [(k, (r.vec.extractLsb' 0 11).toNat)] }
      else putRing s k r := by
  simp only [ringSignal, ringOf_putRing, bitAt, bits, Bool.and_eq_true, decide_eq_true_eq, and_assoc]
  refine ite_congr rfl (fun _ => ?_) fun _ => rfl
  simp [putRing, assign_assign_same]

theorem ringFlush_empty {n k : Nat} (h : (ringOf s k).waiting = []) : ringFlush n s k = s := by
  cases n with
  | zero => rfl
  | succ n => simp [ringFlush, h]

theorem execRheadWrite_stopped {k : Fin 256} {v : Word} (h : (ringOf s k.val).state ≠ 1) : execRheadWrite k v s = .next s := by
  unfold execRheadWrite
  rw [if_pos (by simpa using h)]

theorem execRheadWrite_empty {k : Fin 256} {v : Word} {r : HRing} (hr : r = ringOf s k.val) (run : r.state = 1) (h : r.waiting = []) :
    execRheadWrite k v s = .next (putRing s k.val { r with head := v }) := by
  subst hr
  unfold execRheadWrite
  rw [if_neg (by simp [run])]
  exact congrArg _ (ringFlush_empty (s := putRing s k.val _) (by simpa using h))

theorem execRingCoalesceTimeout_due {k : Fin 256} {r : HRing} (hr : r = ringOf s k.val) (on : r.vec.getLsbD 15 = true) (some : r.unsig ≠ 0)
    (due : max 1 (r.coal.extractLsb' 16 16).toNat * 1500 ≤ s.clock - r.first) :
    execRingCoalesceTimeout k s = .next { putRing s k.val { r with unsig := 0 } with
      interrupts := s.interrupts ++ [(k.val, (r.vec.extractLsb' 0 11).toNat)] } := by
  subst hr
  have ring : (bitAt (ringOf s k.val).vec 15 && (ringOf s k.val).unsig != 0 &&
      max 1 (bits (ringOf s k.val).coal 16 16).toNat * usClocks ≤ s.clock - (ringOf s k.val).first) = true := by
    rw [Bool.and_eq_true, Bool.and_eq_true]
    exact ⟨⟨on, bne_iff_ne.2 some⟩, decide_eq_true due⟩
  exact congrArg _ (if_pos ring)

/-- The entry and the tail as they are written to host memory (R379). -/
def ringStored (s : State) (k : Nat) (e : BitVec 512) : Sparse 8 :=
  swrite (swrite s.host ((ringOf s k).base.toNat + 64 * ((ringOf s k).tail % (ringOf s k).slots)) (toBytes e)) (ringOf s k).tailA.toNat
    (leBytes 8 ((ringOf s k).tail + 1))

/-- The ring with one entry more that has no signal yet. -/
def ringGrown (s : State) (k : Nat) : HRing :=
  { ringOf s k with
    tail := (ringOf s k).tail + 1, unsig := (ringOf s k).unsig + 1
    first := if (ringOf s k).unsig = 0 then s.clock else (ringOf s k).first }

theorem ringPost_room {k : Nat} {e : BitVec 512} (room : (ringOf s k).room = true) (first : (ringOf s k).waiting = []) :
    ringPost s k e = ringSignal (putRing { s with host := ringStored s k e } k (ringGrown s k)) k := by
  have again : { ringOf s k with waiting := [] } = ringOf s k := by rw [← first]
  have queued : ringPost s k e =
      ringWrite (putRing (putRing s k { ringOf s k with waiting := [e] }) k { ringOf s k with waiting := [] }) k e := by
    simp only [ringPost, first]
    show ringFlush 1 (putRing s k { ringOf s k with waiting := [e] }) k = _
    unfold ringFlush
    rw [ringOf_putRing]
    exact if_pos room
  rw [queued, putRing_putRing, again]
  simp only [ringWrite, ringOf_putRing]
  exact congrArg (ringSignal · k) (putRing_putRing { s with host := ringStored s k e } k (ringOf s k) (ringGrown s k))

/-- The N-th entry without a signal raises the interrupt, where RVEC enables it. -/
theorem ringPost_signal {k : Nat} {e : BitVec 512} (room : (ringOf s k).room = true) (first : (ringOf s k).waiting = [])
    (on : (ringOf s k).vec.getLsbD 15 = true) (full : ((ringOf s k).coal.extractLsb' 0 11).toNat ≤ (ringOf s k).unsig + 1) :
    ringPost s k e = { putRing { s with host := ringStored s k e } k { ringGrown s k with unsig := 0 } with
      interrupts := s.interrupts ++ [(k, ((ringOf s k).vec.extractLsb' 0 11).toNat)] } := by
  rw [ringPost_room room first, ringSignal_putRing]
  exact if_pos ⟨on, Nat.succ_ne_zero _, full⟩

theorem ringPost_quiet {k : Nat} {e : BitVec 512} (room : (ringOf s k).room = true) (first : (ringOf s k).waiting = [])
    (few : (ringOf s k).vec.getLsbD 15 = false ∨ (ringOf s k).unsig + 1 < ((ringOf s k).coal.extractLsb' 0 11).toNat) :
    ringPost s k e = putRing { s with host := ringStored s k e } k (ringGrown s k) := by
  rw [ringPost_room room first, ringSignal_putRing]
  refine if_neg fun ⟨on, _, full⟩ => ?_
  rcases few with off | few
  · exact Bool.false_ne_true (off.symm.trans on)
  · exact Nat.not_lt.2 full few

/-- What ring k holds after an entry, however it is signalled. -/
theorem ringPost_ring {k : Nat} {e : BitVec 512} (room : (ringOf s k).room = true) (first : (ringOf s k).waiting = []) :
    (ringPost s k e).host = ringStored s k e ∧ (ringOf (ringPost s k e) k).tail = (ringOf s k).tail + 1 ∧
      (ringOf (ringPost s k e) k).waiting = [] := by
  rw [ringPost_room room first, ringSignal_putRing]
  split
  · exact ⟨rfl, congrArg HRing.tail (ringOf_putRing ..), (congrArg HRing.waiting (ringOf_putRing ..)).trans first⟩
  · exact ⟨rfl, congrArg HRing.tail (ringOf_putRing ..), (congrArg HRing.waiting (ringOf_putRing ..)).trans first⟩

theorem ringPost_entry {k : Nat} {r : HRing} (hr : r = ringOf s k) (e : BitVec 512) (t : State) (n : Nat) (room : r.room = true)
    (first : r.waiting = []) (ht : t = ringPost s k e) (hn : n = (r.coal.extractLsb' 0 11).toNat) :
    t.host = swrite (swrite s.host (r.base.toNat + 64 * (r.tail % 2 ^ (r.size.extractLsb' 0 5).toNat)) (toBytes e)) r.tailA.toNat
        (leBytes 8 (r.tail + 1)) ∧
      (ringOf t k).tail = r.tail + 1 ∧ (ringOf t k).waiting = [] ∧
      (r.vec.getLsbD 15 = true → n ≤ r.unsig + 1 → (ringOf t k).unsig = 0 ∧
        t.interrupts = s.interrupts ++ [(k, (r.vec.extractLsb' 0 11).toNat)]) ∧
      (r.vec.getLsbD 15 = false ∨ r.unsig + 1 < n → (ringOf t k).unsig = r.unsig + 1 ∧ t.interrupts = s.interrupts ∧
        (r.unsig = 0 → (ringOf t k).first = s.clock)) := by
  subst hr ht hn
  obtain ⟨stored, tail, none⟩ := ringPost_ring (e := e) room first
  refine ⟨stored, tail, none, fun on full => ?_, fun few => ?_⟩
  · rw [ringPost_signal room first on full]
    exact ⟨congrArg HRing.unsig (ringOf_putRing ..), rfl⟩
  · rw [ringPost_quiet room first few, ringOf_putRing]
    exact ⟨rfl, rfl, fun h => if_pos h⟩

end Sys2Proof.Machine
end

section
/-! SUPPORT. The host interface (O40): the registers of BAR0. -/

namespace Sys2Proof.Machine
variable {s : State}

/-- The register at byte o of queue q, and of ring k. -/
def queueReg (q : Fin 64) (o : Nat) : Nat := 0x10000 + 32 * q.val + o
def ringReg (k : Fin 256) (o : Nat) : Nat := 0x30000 + 64 * k.val + o

theorem queueReg_in (q : Fin 64) {o : Nat} (ho : o < 32) :
    (0x10000 ≤ queueReg q o && queueReg q o < 0x10000 + 32 * 64) = true ∧ (queueReg q o - 0x10000) / 32 = q.val ∧
      (queueReg q o - 0x10000) % 32 = o := by
  have := q.isLt
  rw [Bool.and_eq_true, decide_eq_true_iff, decide_eq_true_iff]
  unfold queueReg
  omega

theorem ringReg_in (k : Fin 256) {o : Nat} (ho : o < 64) :
    ¬(0x10000 ≤ ringReg k o && ringReg k o < 0x10000 + 32 * 64) = true ∧
      (0x30000 ≤ ringReg k o && ringReg k o < 0x30000 + 64 * 256) = true ∧ (ringReg k o - 0x30000) / 64 = k.val ∧
      (ringReg k o - 0x30000) % 64 = o := by
  have := k.isLt
  rw [Bool.and_eq_true, Bool.and_eq_true, decide_eq_true_iff, decide_eq_true_iff, decide_eq_true_iff, decide_eq_true_iff]
  unfold ringReg
  omega

/-- What a write leaves of the register at byte o of queue q, and of ring k. -/
def queueWritten (s : State) (q o : Nat) (v : Word) : State :=
  match o with
  | 0 => putHqueue s q { hqueueOf s q with base := v }
  | 8 => putHqueue s q { hqueueOf s q with size := rw v 0xFF1F }
  | 16 => if rw v 3 = 1 then restartQueue s q else putHqueue s q { hqueueOf s q with state := rw v 3 }
  | _ => s
def ringWritten (s : State) (k o : Nat) (v : Word) : State :=
  match o with
  | 0 => putRing s k { ringOf s k with base := v }
  | 8 => putRing s k { ringOf s k with size := rw v 0x1F }
  | 16 => putRing s k { ringOf s k with tailA := v }
  | 32 => ringSignal (putRing s k { ringOf s k with vec := rw v 0x87FF }) k
  | 40 => ringSignal (putRing s k { ringOf s k with coal := rw v 0xFFFF07FF }) k
  | 48 => ringFlush ((ringOf s k).waiting.length + 1) (putRing s k { ringOf s k with state := rw v 1 }) k
  | _ => s

theorem execRegisterWrite_queue (q : Fin 64) {o : Nat} (ho : o < 32) (v : Word) :
    execRegisterWrite (queueReg q o) v s = .next (queueWritten s q.val o v) := by
  obtain ⟨isIn, row, col⟩ := queueReg_in q ho
  unfold execRegisterWrite
  rw [if_pos isIn, row, col]
  rfl

theorem execRegisterWrite_ring (k : Fin 256) {o : Nat} (ho : o < 64) (v : Word) :
    execRegisterWrite (ringReg k o) v s = .next (ringWritten s k.val o v) := by
  obtain ⟨noQueue, isIn, row, col⟩ := ringReg_in k ho
  unfold execRegisterWrite
  rw [if_neg noQueue, if_pos isIn, row, col]
  rfl

/-- What a host read answers for a queue, and for a ring. -/
def queueRead (x : HQueue) (o : Nat) : Word :=
  match o with
  | 0 => x.base
  | 8 => x.size
  | 16 => x.state
  | 24 => x.next
  | _ => 0
def ringRead (r : HRing) (o : Nat) : Word :=
  match o with
  | 0 => r.base
  | 8 => r.size
  | 16 => r.tailA
  | 24 => r.head
  | 32 => r.vec
  | 40 => r.coal
  | 48 => r.state
  | _ => 0

theorem readReg_queue (q : Fin 64) {o : Nat} (ho : o < 32) : readReg s (queueReg q o) = queueRead (hqueueOf s q.val) o := by
  obtain ⟨isIn, row, col⟩ := queueReg_in q ho
  have high : queueReg q o ≠ 0 ∧ queueReg q o ≠ 8 := by unfold queueReg; omega
  unfold readReg
  rw [if_neg high.1, if_neg high.2, if_pos isIn, row, col]
  rfl

theorem readReg_ring (k : Fin 256) {o : Nat} (ho : o < 64) : readReg s (ringReg k o) = ringRead (ringOf s k.val) o := by
  obtain ⟨noQueue, isIn, row, col⟩ := ringReg_in k ho
  have high : ringReg k o ≠ 0 ∧ ringReg k o ≠ 8 := by unfold ringReg; omega
  unfold readReg
  rw [if_neg high.1, if_neg high.2, if_neg noQueue, if_pos isIn, row, col]
  rfl

/-- Bits 3:0 of BOOTSTAT hold the last bring-up step completed. -/
theorem bootStat_step : ((bootStat s).extractLsb' 0 4).toNat = s.bootStep % 16 := by
  simp only [bootStat, BitVec.extractLsb'_toNat, BitVec.toNat_ofNat, Nat.shiftRight_zero]
  split <;> split <;> omega

theorem rw_three {v : Word} (h : v.extractLsb' 0 2 = 1) : rw v 3 = 1 := by
  have low := congrArg BitVec.toNat h
  apply BitVec.eq_of_toNat_eq
  simp only [BitVec.extractLsb'_toNat, Nat.shiftRight_zero] at low
  simp only [rw, BitVec.toNat_and]
  exact (Nat.and_two_pow_sub_one_eq_mod v.toNat 2).trans low

theorem queueWritten_qstate {q : Nat} {v : Word} (h : v.extractLsb' 0 2 = 1) : queueWritten s q 16 v = restartQueue s q := by
  simp only [queueWritten, rw_three h, if_true]

theorem readReg_listed (q : Fin 64) (k : Fin 256) :
    readReg s 0 = 0x09604958 ∧ readReg s (0x10018 + 32 * q.val) = (hqueueOf s q.val).next ∧
      readReg s (0x30018 + 64 * k.val) = (ringOf s k.val).head ∧ readReg s 0x18 = 0 ∧
      ((readReg s 8).extractLsb' 0 4).toNat = s.bootStep % 16 := by
  have queue : 0x10018 + 32 * q.val = queueReg q 24 := by unfold queueReg; omega
  have ring : 0x30018 + 64 * k.val = ringReg k 24 := by unfold ringReg; omega
  rw [queue, ring, readReg_queue q (by decide), readReg_ring k (by decide)]
  exact ⟨rfl, rfl, rfl, rfl, bootStat_step⟩

theorem exec_registerWrite (off : Nat) (v : Word) : exec (.registerWrite off v) s = execRegisterWrite off v s := rfl

theorem exec_queueRegister {q : Fin 64} {off o : Nat} (ho : o < 32) (h : off = 0x10000 + 32 * q.val + o) (v : Word) :
    exec (.registerWrite off v) s = .next (queueWritten s q.val o v) := by
  rw [exec_registerWrite, h]
  exact execRegisterWrite_queue q ho v

theorem exec_ringRegister {k : Fin 256} {off o : Nat} (ho : o < 64) (h : off = 0x30000 + 64 * k.val + o) (v : Word) :
    exec (.registerWrite off v) s = .next (ringWritten s k.val o v) := by
  rw [exec_registerWrite, h]
  exact execRegisterWrite_ring k ho v

/-- A write of RVEC or RCOAL may raise the interrupt at once (log entry 43). -/
theorem exec_ringSignalWrite {k : Fin 256} {v : Word} {r : HRing} (hr : r = ringOf s k.val) (off : Nat) (r' : HRing)
    (h : (off = 0x30020 + 64 * k.val ∧ r' = { r with vec := v &&& 0x87FF }) ∨
      (off = 0x30028 + 64 * k.val ∧ r' = { r with coal := v &&& 0xFFFF07FF })) :
    exec (.registerWrite off v) s = .next (ringSignal (putRing s k.val r') k.val) := by
  subst hr
  rcases h with ⟨hoff, rfl⟩ | ⟨hoff, rfl⟩
  · exact exec_ringRegister (o := 32) (by decide) (by omega) v
  · exact exec_ringRegister (o := 40) (by decide) (by omega) v

end Sys2Proof.Machine
end

section
/-! SUPPORT. The host interface (O40): the completion of a command. -/

namespace Sys2Proof.Machine
variable {s : State}

theorem leNat_append (a b : List Byte) : leNat (a ++ b) = leNat a + 256 ^ a.length * leNat b := by
  induction a with
  | nil => simp [leNat]
  | cons x a ih => simp only [List.cons_append, leNat, ih, List.length_cons, Nat.pow_succ]; ring

theorem leNat_lt (a : List Byte) : leNat a < 256 ^ a.length := by
  induction a with
  | nil => simp [leNat]
  | cons x a ih =>
    have := x.isLt
    simp only [leNat, List.length_cons, Nat.pow_succ]
    omega

/-- Bits from m on, n of them, of a number cut to w bits. -/
theorem mod_div_mod_two_pow {x w m n : Nat} (fits : m + n ≤ w) : x % 2 ^ w / 2 ^ m % 2 ^ n = x / 2 ^ m % 2 ^ n := by
  refine Nat.eq_of_testBit_eq fun i => ?_
  rw [Nat.testBit_mod_two_pow, Nat.testBit_mod_two_pow, Nat.testBit_div_two_pow, Nat.testBit_div_two_pow, Nat.testBit_mod_two_pow]
  by_cases h : i < n
  · rw [decide_eq_true (show i + m < w by omega), Bool.true_and]
  · rw [decide_eq_false h, Bool.false_and, Bool.false_and]

/-- The bytes b that lie behind bytes a spell the bits there. -/
theorem ofBytes_slice {w m n : Nat} {l : List Byte} (a b c : List Byte) (parts : l = a ++ b ++ c) (hm : m = 8 * a.length)
    (hn : n = 8 * b.length) (fits : m + n ≤ w) : (ofBytes w l).extractLsb' m n = ofBytes n b := by
  subst parts
  have bytes : ∀ k, (2 : Nat) ^ (8 * k) = 256 ^ k := fun k => by rw [Nat.pow_mul]
  have behind : leNat (a ++ b ++ c) / 2 ^ m = leNat b + 2 ^ n * leNat c := by
    rw [hm, hn, bytes, bytes, List.append_assoc, leNat_append, leNat_append, Nat.add_mul_div_left _ _ (Nat.pow_pos (by decide)),
      Nat.div_eq_of_lt (leNat_lt a), Nat.zero_add]
  apply BitVec.eq_of_toNat_eq
  rw [ofBytes, ofBytes, BitVec.extractLsb'_toNat, BitVec.toNat_ofNat, BitVec.toNat_ofNat, Nat.shiftRight_eq_div_pow,
    mod_div_mod_two_pow fits, behind, Nat.add_mul_mod_self_left]

theorem freeBytes_length (n : Nat) (s : State) : (freeBytes n s).1.length = 8 * n := by
  induction n generalizing s with
  | zero => rfl
  | succ n ih => simp [freeBytes, freeWord, toBytes, ih]; omega

theorem freeBytes_state (n : Nat) (s : State) : (freeBytes n s).2 = { s with freeCtr := s.freeCtr + n } := by
  induction n generalizing s with
  | zero => rfl
  | succ n ih => simp only [freeBytes, freeWord, ih, Nat.add_assoc, Nat.add_comm 1]

/-- The entry that tells the completion of a command (R379, R382): f is free bytes. -/
def completionEntry (f r : List Byte) (c : Cmd) (status : Nat) : List Byte :=
  leBytes 1 1 ++ leBytes 1 status ++ (f.drop 2).take 2 ++ toBytes c.tag ++ r

theorem complete_eq (s : State) (c : Cmd) (status : Nat) (result : List Byte) :
    complete s c status result = ringPost { s with cmds := s.cmds.filter (· != c), freeCtr := s.freeCtr + 8 } (hqueueOf s c.queue).ring
      (ofBytes 512 (completionEntry (freeBytes 1 s).1
        ((result ++ (freeBytes 7 (freeBytes 1 s).2).1.drop result.length).take 56) c status)) := by
  simp only [complete, fillFree, freeBytes_state]
  rfl

section
variable {f r : List Byte} {c : Cmd} {status : Nat}

theorem completionEntry_kind : (ofBytes 512 (completionEntry f r c status)).extractLsb' 0 8 = 1 :=
  ofBytes_slice [] (leBytes 1 1) _ rfl rfl rfl (by decide)

theorem completionEntry_status : (ofBytes 512 (completionEntry f r c status)).extractLsb' 8 8 = BitVec.ofNat 8 status :=
  (ofBytes_slice (m := 8) (n := 8) (leBytes 1 1) (leBytes 1 status) ((f.drop 2).take 2 ++ toBytes c.tag ++ r) (by simp [completionEntry])
    rfl rfl (by decide)).trans (BitVec.eq_of_toNat_eq (by simp [ofBytes, leNat_leBytes]))

theorem completionEntry_tag (free : f.length = 8) : (ofBytes 512 (completionEntry f r c status)).extractLsb' 32 32 = c.tag :=
  (ofBytes_slice (leBytes 1 1 ++ leBytes 1 status ++ (f.drop 2).take 2) (toBytes c.tag) r rfl (by simp [free]) (by simp [toBytes])
    (by decide)).trans (ofBytes_toBytes (n := 4) c.tag)

theorem completionEntry_result (free : f.length = 8) {i : Nat} {b : Byte} (hi : i < 56) (hb : r[i]? = some b) :
    (ofBytes 512 (completionEntry f r c status)).extractLsb' (64 + 8 * i) 8 = b := by
  obtain ⟨inside, rfl⟩ := List.getElem?_eq_some_iff.1 hb
  refine (ofBytes_slice (n := 8) (leBytes 1 1 ++ leBytes 1 status ++ (f.drop 2).take 2 ++ toBytes c.tag ++ r.take i) [r[i]]
    (r.drop (i + 1)) (by simp [completionEntry]) ?_ rfl (by omega)).trans (BitVec.eq_of_toNat_eq (by simp [ofBytes, leNat]))
  simp [free, toBytes]
  omega

end

/-- The bytes of a result come before the free bytes behind it. -/
theorem getElem?_padded {α : Type} {l free : List α} {i n : Nat} {b : α} (hi : i < n) (hb : l[i]? = some b) :
    ((l ++ free).take n)[i]? = some b := by
  have inside : i < l.length := (List.getElem?_eq_some_iff.1 hb).1
  rw [List.getElem?_take_of_lt hi, List.getElem?_append_left inside, hb]

theorem complete_entry (c : Cmd) (status : Nat) (result : List Byte) : ∃ e, complete s c status result =
    ringPost { s with cmds := s.cmds.filter (· != c), freeCtr := s.freeCtr + 8 } (hqueueOf s c.queue).ring e ∧
      e.extractLsb' 0 8 = (1 : BitVec 8) ∧ e.extractLsb' 8 8 = BitVec.ofNat 8 status ∧ e.extractLsb' 32 32 = c.tag ∧
      ∀ i b, i < 56 → result[i]? = some b → e.extractLsb' (64 + 8 * i) 8 = b := by
  have free : (freeBytes 1 s).1.length = 8 := freeBytes_length 1 s
  refine ⟨_, complete_eq s c status result, ?_, ?_, ?_, fun _ _ hi hb => ?_⟩
  · exact completionEntry_kind
  · exact completionEntry_status
  · exact completionEntry_tag free
  · exact completionEntry_result free hi (getElem?_padded hi hb)

end Sys2Proof.Machine
end

section
/-! SUPPORT. The host interface (O40): BAR2, and the statement. -/

namespace Sys2Proof.Machine
variable {s : State}

/-- Byte a of HBM or DDR-5 stands at offset off of BAR2 (log entry 20). -/
def behindBar (s : State) (off : Nat) (sp : Space) (a : Nat) : Prop :=
  (sp = .hbm ∧ a = s.bar2Base + off ∧ a < Config.hbmBytes) ∨ (sp = .ddr ∧ Config.hbmBytes + a = s.bar2Base + off ∧ a < s.ddrBytes)

theorem barByte_behind {off a : Nat} {sp : Space} (h : off < 2 ^ s.bar2Log) (place : behindBar s off sp a) : barByte s off = getByte s sp a := by
  unfold barByte
  rw [if_neg (Nat.not_le.2 h)]
  rcases place with ⟨rfl, rfl, inHbm⟩ | ⟨rfl, behind, inDdr⟩
  · exact if_pos inHbm
  · have eq : s.bar2Base + off - Config.hbmBytes = a := by omega
    rw [if_neg (by omega), eq, if_pos inDdr]

theorem barPlace_behind {off n a : Nat} {sp : Space} (h : off + n ≤ 2 ^ s.bar2Log) (place : behindBar s off sp a) : barPlace s off n = some (sp, a) := by
  unfold barPlace
  rw [if_neg (Nat.not_lt.2 h)]
  rcases place with ⟨rfl, rfl, inHbm⟩ | ⟨rfl, behind, inDdr⟩
  · exact if_pos inHbm
  · have eq : s.bar2Base + off - Config.hbmBytes = a := by omega
    rw [if_neg (by omega), eq, if_pos inDdr]

theorem barWrite_line {off : Nat} {d : List Byte} (pos : 0 < d.length) (fits : (s.bar2Base + off) % 64 + d.length ≤ 64) :
    barWrite s off d = (barPlace s off d.length).elim s fun p => storeLine s p.1 p.2 none d false := by
  simp only [barWrite, lineParts_one pos fits, List.foldl_cons, List.foldl_nil, List.drop_zero, List.take_length, Nat.add_zero]
  cases barPlace s off d.length with
  | none => rfl
  | some p => rfl

theorem barWrite_in {off a : Nat} {sp : Space} {d : List Byte} (pos : 0 < d.length) (fits : (s.bar2Base + off) % 64 + d.length ≤ 64)
    (h : barPlace s off d.length = some (sp, a)) : barWrite s off d = storeLine s sp a none d false := by
  rw [barWrite_line pos fits, h, Option.elim_some]

theorem barWrite_outside {off : Nat} {d : List Byte} (h : 2 ^ s.bar2Log < off + d.length) (fits : (s.bar2Base + off) % 64 + d.length ≤ 64) :
    barWrite s off d = s := by
  rcases Nat.eq_zero_or_pos d.length with none | pos
  · simp [barWrite, lineParts, none]
  · rw [barWrite_line pos fits, barPlace, if_pos h, Option.elim_none]

theorem lineBad_storeLine {sp : Space} {a : Nat} {d : List Byte} (tier : sp = .hbm ∨ sp = .ddr) (whole : d.length = 64) :
    lineBad (storeLine s sp a none d false) sp a = false := by
  rcases tier with rfl | rfl
  · simp [storeLine, whole, lineBad, countHbm, setBad, sget_sset]
  · simp [storeLine, whole, lineBad, setBad, sget_sset]

theorem barWrite_written {off a : Nat} {sp : Space} {d : List Byte} (pos : 0 < d.length) (fits : (s.bar2Base + off) % 64 + d.length ≤ 64)
    (h : off + d.length ≤ 2 ^ s.bar2Log) (place : behindBar s off sp a) :
    writtenAt s (barWrite s off d) sp a d ∧ (d.length = 64 → lineBad (barWrite s off d) sp a = false) := by
  have tier : sp = .hbm ∨ sp = .ddr := place.imp And.left And.left
  have run : Space.fits sp a d.length := by rcases tier with rfl | rfl <;> trivial
  rw [barWrite_in pos fits (barPlace_behind h place)]
  refine ⟨fun sp' a' has => ?_, lineBad_storeLine tier⟩
  have target : writeTarget s sp a none = (s, (sp, a)) := rfl
  have stored := storeLine_bytes s sp a none d false run sp' a' has fun j o h => by cases h
  rwa [target] at stored

/-- Settles O40: each register, the notify, the rings, the completion and BAR2 by the lemma that says what it does. -/
theorem hostRegisters : Obligations.HostRegisters := by
  unfold Obligations.HostRegisters
  intro s q k v x r hx hr
  refine ⟨?stopped, ?old, ?missing, ?taken, ?restart, ?qbase, ?qstate, ?reads, ?qsize, ?rbase, ?rtail, ?signals, ?noRing, ?head,
    ?timeout, ?post, ?bar, ?outside, ?size, ?completion⟩
  case stopped => exact fun h => execQnotify_stopped (hx ▸ h)
  case old => exact fun h => execQnotify_old (hx ▸ h)
  case missing =>
    intro b run new hv once hb gone
    exact execQnotify_missing hx run new hv once (cmdAddr_eq hv ▸ hb) gone
  case taken =>
    intro b early run new hv room hb there low high flags
    exact exec_qnotify_taken hx early run new hv room (cmdAddr_eq hv ▸ hb) ⟨there, ⟨low, high⟩, flags⟩
  case restart => rw [hx]; rfl
  case qbase => rw [hx]; exact exec_queueRegister (o := 0) (by decide) (by omega) v
  case qstate =>
    intro h
    rw [hx, exec_queueRegister (o := 16) (q := q) (by decide) (by omega), queueWritten_qstate h]
    rfl
  case reads =>
    rw [hx, hr]
    exact readReg_listed q k
  case qsize => rw [hx]; exact exec_queueRegister (o := 8) (by decide) (by omega) v
  case rbase => rw [hr]; exact exec_ringRegister (o := 0) (by decide) (by omega) v
  case rtail => rw [hr]; exact exec_ringRegister (o := 16) (by decide) (by omega) v
  case signals =>
    intro off r' h
    rw [exec_ringSignalWrite hr off r' h, ringSignal_putRing]
    rfl
  case noRing => exact fun h => execRheadWrite_stopped (hr ▸ h)
  case head => exact fun run empty => execRheadWrite_empty hr run empty
  case timeout => exact fun on some due => execRingCoalesceTimeout_due hr on some due
  case post => exact fun e t n room first ht hn => ringPost_entry hr e t n room first ht hn
  case bar =>
    intro off d sp a place
    refine ⟨fun h => ?_, fun h pos fits => ⟨_, rfl, barWrite_written pos fits h place⟩⟩
    exact congrArg (fun b : Byte => Host.Outcome.next { s with hostRead := b.setWidth 64 }) (barByte_behind h place)
  case outside => exact fun off d h fits => congrArg _ (barWrite_outside h fits)
  case size => exact fun log => congrArg _ (if_congr (by simp) rfl rfl)
  case completion => exact fun c st res _ => complete_entry c st res

end Sys2Proof.Machine
end

section
/-! SUPPORT. Page walks (O44): where a walk ends. -/

namespace Sys2Proof.Machine
variable {s : State}

/-- An address has no bit from 57 on set (R290). -/
theorem isZero_above_iff {va : Word} : isZero va 57 7 = true ↔ va.toNat < 2 ^ 57 := by
  have width : va.toNat < 2 ^ 64 := va.isLt
  have high : isZero va 57 7 = true ↔ va.toNat / 2 ^ 57 % 2 ^ 7 = 0 := by
    rw [isZero, bits, beq_iff_eq, ← BitVec.toNat_inj, BitVec.extractLsb'_toNat, Nat.shiftRight_eq_div_pow]
    rfl
  rw [high]
  omega

theorem not_isZero_iff {n : Nat} {w : BitVec n} {start len : Nat} : (!isZero w start len) = true ↔ w.extractLsb' start len ≠ 0 := by
  simp [isZero, bits]

theorem tableBad_iff {e : Word} {l : Nat} (table : e.getLsbD 4 = false) : tableBad s e l = true ↔ malformed s e l := by
  unfold malformed
  rw [if_pos table]
  simp only [tableBad, bits, bitAt, Bool.or_eq_true, Bool.and_eq_true, not_isZero_iff, beq_iff_eq, decide_eq_true_eq, or_assoc]

/-- Two alternatives that lack the same thing, as one. -/
theorem alternatives_join {p q r lacks other : Prop} : p ∧ lacks ∨ q ∧ other ∨ r ∧ lacks ↔ (p ∨ r) ∧ lacks ∨ q ∧ other := by
  tauto

theorem leafBad_iff {e : Word} {l : Nat} (leaf : e.getLsbD 4 = true) : leafBad s e l = true ↔ malformed s e l := by
  unfold malformed leafBad
  rw [if_neg (by rw [leaf]; decide)]
  simp only [Bool.or_eq_true, Bool.and_eq_true, not_isZero_iff, beq_iff_eq, bne_iff_ne, decide_eq_true_eq, or_assoc,
    alternatives_join]
  simp only [bits, bitAt, Bool.not_eq_true']

/-- What a walk does with the entry e that it reads at a level. -/
theorem walkFrom_cons {va : Nat} {l : Nat} {r : List Nat} {ddr : Bool} {base : Nat} {e : Word}
    (he : e = BitVec.ofNat 64 (leNat (getBytes s (if ddr then .ddr else .hbm)
      (base + 8 * (va / 2 ^ levelShift l % (if l = 0 then 32 else 512))) 8))) :
    (e.getLsbD 0 = false → walkFrom s none va (l :: r) ddr base = { cause := some .pageNotPresent, entry := e, level := l }) ∧
    (e.getLsbD 0 = true → malformed s e l → walkFrom s none va (l :: r) ddr base = { cause := some .pteInvalid, entry := e, level := l }) ∧
    (e.getLsbD 0 = true → ¬malformed s e l → e.getLsbD 4 = true →
      walkFrom s none va (l :: r) ddr base = { cause := none, entry := e, level := l }) ∧
    (e.getLsbD 0 = true → ¬malformed s e l → e.getLsbD 4 = false →
      walkFrom s none va (l :: r) ddr base = walkFrom s none va r (e.getLsbD 5) ((e.extractLsb' 8 44).toNat * 256)) := by
  have read : pteAt s none va ddr (base + 8 * (va / 2 ^ levelShift l % (if l = 0 then 32 else 512))) = e := he ▸ rfl
  simp only [walkFrom, read, bitAt, bits]
  cases leaf : e.getLsbD 4 with
  | false => simp +contextual [← tableBad_iff leaf]
  | true => simp +contextual [← leafBad_iff leaf]

/-- At level 0 every table entry is malformed, so a walk ends there at the latest. -/
theorem malformed_last {e : Word} (table : e.getLsbD 4 = false) : malformed s e 0 := (tableBad_iff table).1 rfl

/-- A walk whose last level is 0 ends as the rules say (R291, R295). -/
theorem walksTo_walkFrom (va : Nat) {l : List Nat} (last : l.getLast? = some 0) (ddr : Bool) (base : Nat) :
    walksTo s va l ddr base (walkFrom s none va l ddr base) := by
  induction l generalizing ddr base with
  | nil => cases last
  | cons k r ih =>
    intro e he
    obtain ⟨absent, bad, leaf, table⟩ := walkFrom_cons (r := r) he
    refine ⟨absent, bad, leaf, fun valid ok next => ?_⟩
    rw [table valid ok next]
    cases r with
    | nil =>
      obtain rfl : k = 0 := by simpa using last
      exact absurd (malformed_last next) ok
    | cons m r => exact ih (by simpa using last) _ _

theorem walkFrom_leaf (va : Nat) {l : List Nat} (ddr : Bool) (base : Nat) (h : (walkFrom s none va l ddr base).cause = none) :
    ¬malformed s (walkFrom s none va l ddr base).entry (walkFrom s none va l ddr base).level ∧
      (walkFrom s none va l ddr base).entry.getLsbD 4 = true := by
  induction l generalizing ddr base with
  | nil => cases h
  | cons k r ih =>
    obtain ⟨absent, bad, leaf, table⟩ := walkFrom_cons (s := s) (va := va) (l := k) (r := r) (ddr := ddr) (base := base) rfl
    generalize BitVec.ofNat 64 _ = e at *
    cases valid : e.getLsbD 0 with
    | false => rw [absent valid] at h; cases h
    | true =>
      by_cases ok : malformed s e k
      · rw [bad valid ok] at h; cases h
      · cases next : e.getLsbD 4 with
        | true => rw [leaf valid ok next]; exact ⟨ok, next⟩
        | false => rw [table valid ok next] at h ⊢; exact ih _ _ h

theorem walk_none {asid : BitVec 16} {va : Word} (h : contextOf s asid = none) :
    walk s asid va = { cause := some .pageNotPresent, entry := 0, level := 4 } := by simp [walk, h]

theorem walk_some {asid : BitVec 16} {va : Word} {c : Context} (h : contextOf s asid = some c) :
    walk s asid va = walkFrom s none va.toNat [4, 3, 2, 1, 0] c.args.rootDdr c.args.root := by simp [walk, h]

/-- A walk that gives no cause has ended at a leaf that is not malformed. -/
theorem walk_leaf {asid : BitVec 16} {va : Word} (h : (walk s asid va).cause = none) :
    ¬malformed s (walk s asid va).entry (walk s asid va).level ∧ (walk s asid va).entry.getLsbD 4 = true := by
  cases hc : contextOf s asid with
  | none => rw [walk_none hc] at h; cases h
  | some c => rw [walk_some hc] at h ⊢; exact walkFrom_leaf _ _ _ h

end Sys2Proof.Machine
end

section
/-! SUPPORT. Page walks (O44): where an access goes, and where it stops. -/

namespace Sys2Proof.Machine
variable {s : State}

theorem poison_of_leaf {e : Word} {l : Nat} (leaf : e.getLsbD 4 = true) (ok : ¬malformed s e l) : e.extractLsb' 8 2 ≠ 3 := by
  intro h
  refine ok ((leafBad_iff leaf).1 ?_)
  simp [leafBad, bits, h]

theorem leafPolicy_eq {e : Word} (h : e.extractLsb' 8 2 ≠ 3) :
    leafPolicy e = if e.extractLsb' 8 2 = 0 then .trap else if e.extractLsb' 8 2 = 1 then .zero else .pass := by
  unfold leafPolicy bits
  generalize e.extractLsb' 8 2 = code at *
  revert h
  revert code
  decide

/-- The place at address pa of a tier, by the TIER code of a leaf (R294). -/
def tierPlace (e : Word) (pa : Nat) (pol : Poison) : Nat → Place
  | 0 => .here .hbm pa pol
  | 1 => .here .ddr pa pol
  | 2 => .here .host pa pol
  | _ => .remote (e.extractLsb' 52 8) (e.getLsbD 11) pa pol

theorem leafPlace_tier (e : Word) (l : Nat) (va : Word) : leafPlace e l va =
    tierPlace e ((e.extractLsb' 16 36).toNat * 65536 + va.toNat % 2 ^ levelShift l) (leafPolicy e) (e.extractLsb' 5 2).toNat := by
  have codes : ∀ t : BitVec 2, t = 0 ∨ t = 1 ∨ t = 2 ∨ t = 3 := by decide
  unfold leafPlace bits
  rcases codes (e.extractLsb' 5 2) with h | h | h | h <;> (rw [h]; rfl)

theorem leafAllows_iff {e : Word} {acc : Access} : leafAllows e acc = true ↔ permits e acc := by
  cases acc <;> simp [leafAllows, permits, bitAt, bits, and_assoc]

theorem leafFor_walk {p : Party} {va : Word} (none_held : ∀ t ∈ s.tlb, t.asid ≠ p.asid) (unmarked : viewOf s p.unit = none) :
    leafFor s p va = walk s p.asid va := by
  have miss : (s.tlb.find? fun t =>
      t.serves p.core && t.asid == p.asid && va.toNat / 2 ^ t.bits * 2 ^ t.bits == t.base && t.seen none) = none :=
    List.find?_eq_none.2 fun t ht => by simp [none_held t ht]
  simp only [leafFor, unmarked, miss]

theorem locate_error {p : Party} {acc : Access} {va : Word} {n : Nat} {x : Stop} (outside : inAperture va = false)
    (h : translate s p acc va = .error x) : locate s p acc (.va va) n = .error x := by
  simp [locate, lookUp, outside, h]

theorem locate_ok {p : Party} {acc : Access} {va : Word} {n : Nat} {x : Place} (outside : inAperture va = false)
    (h : translate s p acc va = .ok x) (unmarked : watermarked s p (.va va) none n = none)
    (free : guarded s p.unit (x.span s n) = false) : locate s p acc (.va va) n = .ok (x, none) := by
  simp [locate, lookUp, outside, h, unlessMarked, unmarked, free]

theorem translate_far {p : Party} {acc : Access} {va : Word} (h : 2 ^ 57 ≤ va.toNat) :
    translate s p acc va = .error (Access.stop acc .pageNotPresent va) := by
  have far : isZero va 57 7 = false := by
    rw [← Bool.not_eq_true, isZero_above_iff]
    omega
  simp [translate, far]

/-- An access that no TLB and no marker serves is translated by its walk w (R295, R302). -/
theorem translate_walk {p : Party} {acc : Access} {va : Word} {w : WalkEnd} (near : va.toNat < 2 ^ 57)
    (none_held : ∀ t ∈ s.tlb, t.asid ≠ p.asid) (unmarked : viewOf s p.unit = none) (hw : w = walk s p.asid va) :
    (∀ c, w.cause = some c → translate s p acc va = .error (.fault c va (faultRec s p va acc (some c) false w))) ∧
    (w.cause = none → (acc = .write ∨ acc = .atomic) → w.entry.getLsbD 10 = true →
      translate s p acc va = .error (.held (faultRec s p va acc none true w))) ∧
    (w.cause = none → ¬((acc = .write ∨ acc = .atomic) ∧ w.entry.getLsbD 10 = true) →
      (¬permits w.entry acc → translate s p acc va = .error (.fault .pagePermission va (faultRec s p va acc (some .pagePermission) false w))) ∧
      (permits w.entry acc → translate s p acc va = .ok (leafPlace w.entry w.level va))) := by
  have start : isZero va 57 7 = true := isZero_above_iff.2 near
  have leaf : leafFor s p va = w := hw ▸ leafFor_walk none_held unmarked
  refine ⟨fun c h => ?cause, fun h writes hold => ?held, fun h free => ⟨fun no => ?denied, fun yes => ?allowed⟩⟩
  case cause => simp [translate, start, leaf, h]
  case held => simp [translate, start, leaf, unmarked, WalkEnd.holds, bitAt, h, writes, hold]
  case denied =>
    rw [← leafAllows_iff] at no
    simpa [translate, start, leaf, unmarked, WalkEnd.holds, bitAt, h, no] using free
  case allowed =>
    rw [← leafAllows_iff] at yes
    simpa [translate, start, leaf, unmarked, WalkEnd.holds, bitAt, h, yes] using free

end Sys2Proof.Machine
end

section
/-! SUPPORT. Page walks (O44): the fills of the TLBs, and gated banks. -/

namespace Sys2Proof.Machine
variable {s : State}

theorem TlbAt.size_pos (a : TlbAt) : 0 < a.size := by cases a <;> simp [TlbAt.size]

/-- The translations of the TLB at a place. -/
def tlbAt (l : List TlbEntry) (a : TlbAt) : List TlbEntry := l.filter fun t => t.at' == a

theorem tlbAt_append_length (l r : List TlbEntry) (a : TlbAt) : (tlbAt (l ++ r) a).length = (tlbAt l a).length + (tlbAt r a).length := by
  simp [tlbAt]

theorem tlbAt_single_length (e : TlbEntry) (a : TlbAt) : (tlbAt [e] a).length = if e.at' = a then 1 else 0 := by
  by_cases h : e.at' = a <;> simp [tlbAt, h]

/-- A translation that leaves makes room in its own TLB, and in no other. -/
theorem tlbAt_eraseIdx_length {l : List TlbEntry} {k : Nat} (h : k < l.length) (a : TlbAt) :
    (tlbAt (l.eraseIdx k) a).length + (if l[k].at' = a then 1 else 0) = (tlbAt l a).length := by
  have whole : tlbAt l a = tlbAt (l.take k ++ ([l[k]] ++ l.drop (k + 1))) a := by simp
  rw [whole, List.eraseIdx_eq_take_drop_succ, ← tlbAt_single_length]
  simp only [tlbAt_append_length]
  omega

theorem installTlb_room {e : TlbEntry} {l : List TlbEntry} (room : (tlbAt l e.at').length < e.at'.size) : installTlb e l = l ++ [e] :=
  congrArg (· ++ [e]) (if_pos room)

/-- A full TLB holds a translation, and the oldest leaves. -/
theorem installTlb_full {e : TlbEntry} {l : List TlbEntry} (full : e.at'.size ≤ (tlbAt l e.at').length) :
    ∃ k, ∃ h : k < l.length, l[k].at' = e.at' ∧ installTlb e l = l.eraseIdx k ++ [e] := by
  have install : installTlb e l = (match l.findIdx? fun t => t.at' == e.at' with | some k => l.eraseIdx k | none => l) ++ [e] :=
    congrArg (· ++ [e]) (if_neg (Nat.not_lt.2 full))
  cases found : l.findIdx? fun t => t.at' == e.at' with
  | none =>
    have empty : tlbAt l e.at' = [] := List.filter_eq_nil_iff.2 fun t ht => by
      simpa using List.findIdx?_eq_none_iff.1 found t ht
    have := e.at'.size_pos
    rw [empty] at full
    exact absurd full (by simp; omega)
  | some k =>
    obtain ⟨inside, own, _⟩ := List.findIdx?_eq_some_iff_getElem.1 found
    exact ⟨k, inside, by simpa using own, by rw [install, found]⟩

/-- A translation that enters leaves no TLB fuller than it may be. -/
theorem installTlb_fits (e : TlbEntry) {l : List TlbEntry} {a : TlbAt} (fits : (tlbAt l a).length ≤ a.size) :
    (tlbAt (installTlb e l) a).length ≤ a.size := by
  rcases Nat.lt_or_ge (tlbAt l e.at').length e.at'.size with room | full
  · rw [installTlb_room room, tlbAt_append_length, tlbAt_single_length]
    split
    next same => subst same; omega
    · omega
  · obtain ⟨k, inside, own, install⟩ := installTlb_full full
    have left := tlbAt_eraseIdx_length inside a
    rw [own] at left
    rw [install, tlbAt_append_length, tlbAt_single_length]
    omega

/-- The translation of a leaf that a walk has found, as a TLB takes it in. -/
def walked (s : State) (asid : BitVec 16) (va : Nat) (w : WalkEnd) (a : TlbAt) : TlbEntry :=
  { at' := a, asid, base := va / 2 ^ levelShift w.level * 2 ^ levelShift w.level, bits := levelShift w.level, leaf := w.entry, stale := false
    born := s.invs, died := 0 }

/-- A TLB already holds a translation of the address. -/
def holdsPage (s : State) (asid : BitVec 16) (va : Nat) (a : TlbAt) : Bool :=
  s.tlb.any fun t => t.at' == a && t.asid == asid && !t.stale && va / 2 ^ t.bits * 2 ^ t.bits == t.base

/-- The translations once a TLB has taken in the one that a walk has found. -/
def takeIn (s : State) (asid : BitVec 16) (va : Nat) (w : WalkEnd) (a : TlbAt) (l : List TlbEntry) : List TlbEntry :=
  if holdsPage s asid va a then l else installTlb (walked s asid va w a) l

theorem takeIn_fits {asid : BitVec 16} {va : Nat} {w : WalkEnd} (a : TlbAt) {l : List TlbEntry} {b : TlbAt}
    (fits : (tlbAt l b).length ≤ b.size) : (tlbAt (takeIn s asid va w a l) b).length ≤ b.size := by
  unfold takeIn
  split
  · exact fits
  · exact installTlb_fits _ fits

theorem takeIn_new {asid : BitVec 16} {va : Nat} {w : WalkEnd} {a : TlbAt} {l : List TlbEntry} (new : holdsPage s asid va a = false)
    (room : (tlbAt l a).length < a.size) : takeIn s asid va w a l = l ++ [walked s asid va w a] := by
  rw [takeIn, if_neg (by rw [new]; decide), installTlb_room room]

theorem holdsPage_false {asid : BitVec 16} {va : Nat} (a : TlbAt)
    (h : ∀ t ∈ s.tlb, t.asid = asid → t.stale = false → va / 2 ^ t.bits * 2 ^ t.bits ≠ t.base) : holdsPage s asid va a = false := by
  refine List.any_eq_false.2 fun t ht held => ?_
  simp only [Bool.and_eq_true, beq_iff_eq, Bool.not_eq_true'] at held
  obtain ⟨⟨⟨_, same⟩, fresh⟩, base⟩ := held
  exact h t ht same fresh base

/-- The translations once the L1 TLB of a core and the TLB of its die have taken in what a walk has found; a hub unit has no L1 TLB. -/
def filled (s : State) (asid : BitVec 16) (va : Nat) (w : WalkEnd) (core : Nat) : List TlbEntry :=
  takeIn s asid va w (.die (dieFor core)) (if core = 0xFFFF then s.tlb else takeIn s asid va w (.l1 core) s.tlb)

theorem filled_fits {asid : BitVec 16} {va : Nat} {w : WalkEnd} {core : Nat} {b : TlbAt} (fits : (tlbAt s.tlb b).length ≤ b.size) :
    (tlbAt (filled s asid va w core) b).length ≤ b.size := by
  refine takeIn_fits _ ?_
  split
  · exact fits
  · exact takeIn_fits _ fits

theorem filled_new {asid : BitVec 16} {va : Nat} {w : WalkEnd} {core : Nat} (new : ∀ a, holdsPage s asid va a = false)
    (room : ∀ a, (tlbAt s.tlb a).length < a.size) : filled s asid va w core =
      s.tlb ++ (if core = 0xFFFF then [] else [walked s asid va w (.l1 core)]) ++ [walked s asid va w (.die (dieFor core))] := by
  unfold filled
  split
  · rw [takeIn_new (new _) (room _), List.append_nil]
  · rw [takeIn_new (a := .l1 core) (new _) (room _)]
    refine takeIn_new (new _) ?_
    rw [tlbAt_append_length, tlbAt_single_length]
    simpa [walked] using room _

/-- A walk that ends in a leaf fills the TLB of the core, and that of its die (R296). -/
theorem execPageWalk_leaf {asid : BitVec 16} {va : Word} (acc : Access) {core : Nat} (stream : Nat) {w : WalkEnd}
    (hw : w = walk s asid va) (near : va.toNat < 2 ^ 57) (outside : inAperture va = false) (leaf : w.cause = none)
    (known : core < 288 ∨ core = 0xFFFF) :
    execPageWalk asid va acc core stream s = .next { s with tlb := filled s asid va.toNat w core } := by
  subst hw
  refine congrArg Host.Outcome.next (if_neg ?_)
  have start : isZero va 57 7 = true := isZero_above_iff.2 near
  have core_known : Config.cores ≤ core → core = 0xFFFF := fun h => known.resolve_left (Nat.not_lt.2 h)
  simpa [start, outside, leaf] using core_known

theorem execPageWalk_cause {asid : BitVec 16} {va : Word} (acc : Access) (core stream : Nat) (h : (walk s asid va).cause ≠ none) :
    execPageWalk asid va acc core stream s = .next s := by
  have cause : (walk s asid va).cause.isSome = true := Option.isSome_iff_ne_none.2 h
  simp [execPageWalk, cause]

/-! ### Scratchpad banks (R244) -/

theorem mem_regionBanks {lo hi b : Nat} : b ∈ regionBanks lo hi ↔ b < 32 ∧ lo < (b + 1) * 262144 ∧ b * 262144 < hi := by
  simp [regionBanks]

/-- A bank that no region overlaps may be gated, where it is neither gated nor waking. -/
theorem mayGate_unused {core bank : Nat} (hcore : core < 288) (hbank : bank < 32)
    (unused : ∀ j ∈ jobsOn s core, (bank + 1) * 262144 ≤ j.spbase.toNat ∨ j.splim.toNat ≤ bank * 262144)
    (on : (core, bank) ∉ s.gated) (awake : ∀ w ∈ s.waking, ¬(w.1 = core ∧ w.2.1 = bank)) : mayGate s core bank = true := by
  have apart : ∀ j ∈ jobsOn s core, bank ∉ regionBanks j.spbase.toNat j.splim.toNat := fun j hj overlap => by
    have := mem_regionBanks.1 overlap
    have := unused j hj
    omega
  have still : s.waking.any (fun w => w.1 == core && w.2.1 == bank) = false :=
    List.any_eq_false.2 fun w hw => by simpa using awake w hw
  have core_there : core < Config.cores := hcore
  simpa [mayGate, core_there, hbank, on, still] using apart

/-- What a key holds after keys are dropped. -/
theorem sget_filter {w : Nat} (m : Sparse w) (p : Nat → Bool) (k : Nat) :
    sget (m.filter fun e => p e.1) k = if p k then sget m k else 0 := by
  induction m with
  | nil => simp [sget]
  | cons e r ih =>
    by_cases here : e.1 = k
    · cases h : p k <;> simp_all [sget]
    · cases h : p e.1 <;> simp_all [sget]

theorem getByte_gateBanks (l : List (Nat × Nat)) (core o : Nat) (inside : o < 0x800000) :
    getByte (gateBanks s l) (.spad core) o = if (core, o / 262144) ∈ l then 0 else getByte s (.spad core) o := by
  have place : ((core * 0x800000 + o) / 8388608, (core * 0x800000 + o) / 262144 % 32) = (core, o / 262144) := by
    ext <;> simp <;> omega
  simp only [getByte, gateBanks, Config.spadBytes]
  rw [sget_filter s.spad (fun a => !l.contains (a / 8388608, a / 262144 % 32)), place]
  simp

/-- A bank that is gated loses its contents, poison marks and zero map with it (R244). -/
theorem execBankGating_unused {core bank : Nat} (may : mayGate s core bank = true) :
    execBankGating core bank s = .next (gateBanks s [(core, bank)]) := by
  simp [execBankGating, may]

theorem getByte_gated (core bank : Nat) {o : Nat} (hbank : bank < 32) (lo : bank * 262144 ≤ o) (hi : o < (bank + 1) * 262144) :
    getByte (gateBanks s [(core, bank)]) (.spad core) o = 0 := by
  have own : o / 262144 = bank := by omega
  rw [getByte_gateBanks _ _ _ (by omega), own, if_pos (List.mem_singleton.2 rfl)]

end Sys2Proof.Machine
end

section
/-! SUPPORT. Page walks and banks (O44): the statement. -/

namespace Sys2Proof.Machine
variable {s : State}

/-- The place that the leaf of a walk gives an address. -/
theorem leafPlace_walk {asid : BitVec 16} {va : Word} {w : WalkEnd} (hw : w = walk s asid va) (leaf : w.cause = none) :
    leafPlace w.entry w.level va =
      tierPlace w.entry ((w.entry.extractLsb' 16 36).toNat * 65536 + va.toNat % 2 ^ levelShift w.level)
        (if w.entry.extractLsb' 8 2 = 0 then .trap else if w.entry.extractLsb' 8 2 = 1 then .zero else .pass)
        (w.entry.extractLsb' 5 2).toNat := by
  subst hw
  obtain ⟨ok, isLeaf⟩ := walk_leaf leaf
  rw [leafPlace_tier, leafPolicy_eq (poison_of_leaf isLeaf ok)]

theorem faultRec_fields (p : Party) (va : Word) (acc : Access) (c : Option Cause) (hold : Bool) (w : WalkEnd) (r : FaultRec)
    (hr : r = faultRec s p va acc c hold w) :
    r.va = va ∧ r.asid = p.asid ∧ r.core = p.core ∧ r.cause = c ∧ r.access = acc ∧ r.stream = p.stream ∧ r.entry = w.entry ∧
      r.level = w.level := by
  subst hr
  exact ⟨rfl, rfl, rfl, rfl, rfl, rfl, rfl, rfl⟩

/-- Settles O44: the walk by its levels, an access by the translation that its walk gives, a fill by the TLBs that take the leaf in. -/
theorem walksAndBanks : Obligations.WalksAndBanks := by
  unfold Obligations.WalksAndBanks
  refine ⟨fun s asid va => ⟨fun c hc => ?walks, fun hc => ?noContext⟩, ?accesses, ?fills⟩
  case walks => exact walk_some hc ▸ walksTo_walkFrom _ rfl _ _
  case noContext => rw [walk_none hc]
  case accesses =>
    intro s p acc va n w e pa pol writes r outside hwrites
    refine ⟨fun far => locate_error outside (translate_far far), fun near none_held unmarked hw he hpa hpol hr => ?_⟩
    obtain ⟨cause, held, goes⟩ := translate_walk (acc := acc) near none_held unmarked hw
    rw [← hwrites, ← he] at held goes
    refine ⟨fun c => ?fields, fun c hc => ?cause, fun leaf wr hold => ?held, fun leaf free no => ?denied,
      fun leaf free yes x hx mark span => ?place⟩
    case fields => exact he ▸ faultRec_fields _ _ _ _ _ _ _ (hr c)
    case cause => exact hr (some c) ▸ locate_error outside (cause c hc)
    case held => exact hr none ▸ locate_error outside (held leaf wr hold)
    case denied => exact hr (some _) ▸ locate_error outside ((goes leaf free).1 no)
    case place =>
      have placed : leafPlace e w.level va = x := by
        subst he hpa hpol
        exact (leafPlace_walk hw leaf).trans hx.symm
      exact locate_ok outside (((goes leaf free).2 yes).trans (congrArg _ placed)) mark span
  case fills =>
    intro s asid va acc core stream bank w hw near outside
    refine ⟨fun e he leaf known => ?leaf, fun cause => ?cause, fun hcore hbank unused on awake => ?gate, rfl⟩
    case leaf =>
      subst he
      exact ⟨_, execPageWalk_leaf acc stream hw near outside leaf known, rfl, fun _ => filled_fits,
        fun new room => filled_new (fun a => holdsPage_false a new) room⟩
    case cause => exact execPageWalk_cause acc core stream (hw ▸ cause)
    case gate =>
      exact ⟨_, execBankGating_unused (mayGate_unused hcore hbank unused on awake), rfl, fun o => getByte_gated core bank hbank⟩

end Sys2Proof.Machine
end

section
/-! SUPPORT. A device reset (O45): what sending leaves as it is. -/

namespace Sys2Proof.Machine
variable {s t u : State}

/-- From s to t packets have been sent or have come to wait: links stay up or down, and nothing but the links, the outbox and the RESYNCs
changes. -/
def Sent (s t : State) : Prop :=
  (∃ links outbox resyncs, t = { s with links, outbox, resyncs }) ∧ ∀ p, (linkOf t p).up = (linkOf s p).up

theorem Sent.refl (s : State) : Sent s s := ⟨⟨_, _, _, rfl⟩, fun _ => rfl⟩

theorem Sent.trans (h : Sent s t) (k : Sent t u) : Sent s u := by
  obtain ⟨⟨_, _, _, rfl⟩, up⟩ := h
  obtain ⟨⟨_, _, _, rfl⟩, up'⟩ := k
  exact ⟨⟨_, _, _, rfl⟩, fun p => (up' p).trans (up p)⟩

theorem Sent.foldl {α : Type} {f : State → α → State} (h : ∀ s a, Sent s (f s a)) (l : List α) (s : State) : Sent s (l.foldl f s) := by
  induction l generalizing s with
  | nil => exact .refl s
  | cons a r ih => exact (h s a).trans (ih _)

/-- Waiting packets and RESYNCs, replaced. -/
theorem Sent.waiting (h : Sent s t) (outbox : List (Nat × List (BitVec 512))) (resyncs : List (BitVec 8 × Bool × Nat)) :
    Sent s { t with outbox, resyncs } := by
  obtain ⟨⟨_, _, _, rfl⟩, up⟩ := h
  exact ⟨⟨_, _, _, rfl⟩, up⟩

theorem linkOf_putLink (s : State) (port p : Nat) (x : Link) : linkOf (putLink s port x) p = if p = port then x else linkOf s p :=
  lookupD_assign _ _ _ _ _

theorem pushFlits_up (x : Link) (vc : Nat) (head : Bool) (l : List (BitVec 512)) : (pushFlits x vc head l).up = x.up := by
  induction l generalizing x head with
  | nil => rfl
  | cons p r ih => exact ih _ _

theorem sendOn_sent (s : State) (q : Route) (vc : Nat) (l : List (BitVec 512)) : Sent s (sendOn s q vc l) := by
  unfold sendOn
  split
  · exact .refl s
  · refine ⟨⟨_, _, _, rfl⟩, fun p => ?_⟩
    rw [linkOf_putLink]
    split
    next same => rw [pushFlits_up, same]
    · rfl

theorem sendPacket_sent (s : State) (vc : Nat) (l : List (BitVec 512)) : Grants (Sent s) (sendPacket s vc l) := by
  dsimp only [sendPacket]
  split
  · exact .some (.refl s)
  · exact .ite (.map fun _ _ => sendOn_sent ..) (.map fun _ _ => sendOn_sent ..)

theorem flushFrom_sent (kept l : List (Nat × List (BitVec 512))) (s : State) : Sent s (flushFrom kept l s).2 := by
  induction l generalizing kept s with
  | nil => exact .refl s
  | cons q r ih =>
    dsimp only [flushFrom]
    split
    next h =>
      exact (Grants.ite (p := Sent s) .none (sendPacket_sent s q.1 q.2) _ h).trans (ih _ _)
    · exact ih _ _

theorem flushOut_sent (s : State) : Sent s (flushOut s) :=
  (((Sent.refl s).waiting [] s.resyncs).trans (flushFrom_sent [] s.outbox _)).waiting _ _

theorem sendResyncs_sent (s : State) : Sent s (sendResyncs s) := by
  refine Sent.foldl (fun s r => ?_) _ s
  split
  · exact .refl s
  split
  next q _ => exact (sendOn_sent s q 3 _).waiting _ _
  · exact .refl s

theorem trySend_sent (s : State) (before : List Out) (o : Out) : Grants (fun r => Sent s r.1) (trySend s before o) :=
  .ite .none (.ite (.some (.refl s)) (.ite .none (.map fun _ _ => sendOn_sent ..)))

theorem sendFrom_sent (before l : List Out) (s : State) :
    Sent s (sendFrom before l s).2 ∧ (sendFrom before l s).1.length = before.length + l.length := by
  induction l generalizing before s with
  | nil => exact ⟨.refl s, rfl⟩
  | cons o r ih =>
    dsimp only [sendFrom]
    split
    next u q h =>
      have sent : Sent s u := Grants.ite (p := fun (x : State × Request) => Sent s x.1) (trySend_sent s before o) .none _ h
      obtain ⟨rest, length⟩ := ih (before ++ [{ o with req := q, sends := 1, last := u.clock }]) u
      exact ⟨sent.trans rest, by rw [length]; simp; omega⟩
    · obtain ⟨rest, length⟩ := ih (before ++ [o]) s
      exact ⟨rest, by rw [length]; simp; omega⟩

/-- Sending what waits drops no request. -/
theorem sendWaiting_sent (s : State) : ∃ t outs, Sent s t ∧ sendWaiting s = { t with outs } ∧ outs.length = s.outs.length := by
  have before : Sent s (sendResyncs (flushOut s)) := (flushOut_sent s).trans (sendResyncs_sent _)
  obtain ⟨sent, length⟩ := sendFrom_sent [] (sendResyncs (flushOut s)).outs (sendResyncs (flushOut s))
  refine ⟨_, _, before.trans sent, rfl, ?_⟩
  obtain ⟨⟨_, _, _, frame⟩, _⟩ := before
  rw [length, frame]
  exact Nat.zero_add _

end Sys2Proof.Machine
end

section
/-! SUPPORT. A device reset (O45): bring-up, and the statement. -/

namespace Sys2Proof.Machine
variable {s : State}

theorem portAgrees_iff {p : PortIn} : portAgrees s p = true ↔
    connected s p.port = true ∧ devAt p.row.val p.col.val = portPeer s p.port ∧ p.rows = s.rows ∧ p.cols = s.cols := by
  simp [portAgrees, and_assoc]

/-- The ports whose partners' reports agree. -/
def agreeing (s : State) (l : List PortIn) : List Nat := (l.filter (portAgrees s)).map PortIn.port

theorem mem_agreeing {l : List PortIn} {p : Nat} : p ∈ agreeing s l ↔ ∃ q ∈ l, portAgrees s q = true ∧ q.port = p := by
  simp [agreeing, and_assoc]

theorem mem_compareReports_goodPorts {l : List PortIn} {p : Nat} : p ∈ (compareReports s l).goodPorts ↔
    (p ∈ s.goodPorts ∧ ∀ q ∈ l, portAgrees s q = false → q.port ≠ p) ∨ p ∈ agreeing s l := by
  simp [compareReports, agreeing]

theorem mem_compareReports_errLog {l : List PortIn} {e : LogItem} : e ∈ (compareReports s l).errLog ↔
    e ∈ s.errLog ∨ ∃ q ∈ l, portAgrees s q = false ∧ e = .badPort q.port := by
  simp [compareReports, and_assoc, @eq_comm _ e]

/-- A partner that reports while the link is down: its report is compared (R385). -/
theorem partnerReports_down {q : PortIn} (down : (linkOf s q.port).up = false) :
    partnerReports s q = { s with
      goodPorts := (partnerReports s q).goodPorts, errLog := s.errLog ++ if portAgrees s q then [] else [.badPort q.port] } := by
  have compared : partnerReports s q = compareReports s [q] := by simp [partnerReports, down]
  rw [compared]
  cases h : portAgrees s q <;> simp [compareReports, h]

theorem mem_partnerReports_goodPorts {q : PortIn} (down : (linkOf s q.port).up = false) :
    q.port ∈ (partnerReports s q).goodPorts ↔ portAgrees s q = true := by
  have compared : partnerReports s q = compareReports s [q] := by simp [partnerReports, down]
  rw [compared, mem_compareReports_goodPorts, mem_agreeing]
  simp

/-! ### Step 6 -/

theorem linkSet_foldl (l : List Nat) (s : State) : ∃ links, l.foldl (fun s p => linkSet s p true) s = { s with links } ∧
    ∀ p, (linkOf { s with links } p).up = true ↔ p ∈ l ∨ (linkOf s p).up = true := by
  induction l generalizing s with
  | nil => exact ⟨_, rfl, by simp [linkOf]⟩
  | cons k r ih =>
    obtain ⟨links, set, up⟩ := ih (linkSet s k true)
    refine ⟨links, set, fun p => (up p).trans ?_⟩
    rw [linkSet, linkOf_putLink]
    by_cases same : p = k <;> simp [same]

/-- What step 6 of bring-up leaves: the partners' reports compared, the reset epoch one up, and every port up whose partner agrees; the
straps as they stand where there is one. -/
theorem trainPorts_eq (r : ResetIn) (s : State) : ∃ row col rows cols links outbox resyncs outs,
    trainPorts r s = { compareReports s r.ports with epoch := s.epoch + 1, row, col, rows, cols, links, outbox, resyncs, outs } ∧
    outs.length = s.outs.length ∧
    (∀ p, (linkOf (trainPorts r s) p).up = true ↔ p ∈ agreeing s r.ports ∨ (linkOf s p).up = true) ∧
    (agreeing s r.ports ≠ [] → row = s.row ∧ col = s.col ∧ rows = s.rows ∧ cols = s.cols) := by
  by_cases none : agreeing s r.ports = []
  · have train : trainPorts r s = { compareReports s r.ports with epoch := s.epoch + 1, row := 0, col := 0, rows := 0, cols := 0 } :=
      if_pos (List.isEmpty_iff.2 none)
    rw [train]
    exact ⟨_, _, _, _, _, _, _, _, rfl, rfl, fun p => by rw [none]; exact (or_iff_right List.not_mem_nil).symm, fun some => absurd none some⟩
  · obtain ⟨links, set, up⟩ := linkSet_foldl (agreeing s r.ports) { compareReports s r.ports with epoch := s.epoch + 1 }
    have train : trainPorts r s = sendWaiting { compareReports s r.ports with
        epoch := s.epoch + 1, links, resyncs := (otherDevices s).map fun d => (d, false, s.clock) } :=
      (if_neg (mt List.isEmpty_iff.1 none)).trans
        (congrArg (fun u => sendWaiting { u with resyncs := (otherDevices u).map fun d => (d, false, u.clock) }) set)
    obtain ⟨_, outs, ⟨⟨_, _, _, rfl⟩, same⟩, sent, length⟩ := sendWaiting_sent { compareReports s r.ports with
        epoch := s.epoch + 1, links, resyncs := (otherDevices s).map fun d => (d, false, s.clock) }
    rw [train, sent]
    exact ⟨_, _, _, _, _, _, _, _, rfl, length, fun p => same p ▸ up p, fun _ => ⟨rfl, rfl, rfl, rfl⟩⟩

/-! ### Bring-up -/

/-- The device once the steps before step 6 are over, where bring-up comes so far (R383 to R386). -/
def untrained (r : ResetIn) (s : State) : State :=
  { s with
    row := r.row, col := r.col, rows := r.rows, cols := r.cols, clock := 0
    measures := if 2 ≤ bootEnd r then bootMeasures r.patch else s.measures
    patchApplied := if 2 ≤ bootEnd r then patchGood r.patch Config.fuses else s.patchApplied
    patchRejected := if 2 ≤ bootEnd r then !patchGood r.patch Config.fuses else s.patchRejected
    ddrBytes := if 4 ≤ bootEnd r then min r.ddrBytes ddrLimit else s.ddrBytes }

theorem bringUp_eq (r : ResetIn) (s : State) : bringUp r s =
    { (if 6 ≤ bootEnd r then trainPorts r (untrained r s) else untrained r s) with
      bootStep := bootEnd r, bootFail := if bootEnd r = 7 then 0 else r.failAt } := by
  unfold bringUp untrained
  by_cases two : 2 ≤ bootEnd r <;> by_cases four : 4 ≤ bootEnd r <;> simp only [two, four, if_true, if_false]

theorem bootEnd_eq (r : ResetIn) : bootEnd r = if r.failAt = 0 ∨ 7 < r.failAt then 7 else r.failAt - 1 := by simp [bootEnd]

theorem patchGood_iff {table fuses : List Byte} : patchGood table fuses = true ↔
    shake256 (Config.patchKey table) = Config.fusedKey fuses ∧ Config.falconVerify (Config.patchKey table) table = true ∧
      Config.fusedMin fuses ≤ Config.patchVersion table := by
  simp [patchGood, and_assoc]

/-- The device before step 6 of the bring-up that follows a reset. -/
def freshDevice (r : ResetIn) (s : State) : State := untrained r (resetKeeping s)

/-- A device reset, up to what step 6 changes. -/
theorem execDeviceReset_eq (r : ResetIn) (s : State) : ∃ row col rows cols links outbox resyncs goodPorts errLog,
    execDeviceReset r s = .next { freshDevice r s with
      row, col, rows, cols, links, outbox, resyncs, goodPorts, errLog
      epoch := if 6 ≤ bootEnd r then s.epoch + 1 else s.epoch
      bootStep := bootEnd r, bootFail := if bootEnd r = 7 then 0 else r.failAt } ∧
    (6 ≤ bootEnd r → (∀ p, p ∈ goodPorts ↔ p ∈ agreeing (freshDevice r s) r.ports) ∧
      (∀ e, e ∈ errLog ↔ ∃ q ∈ r.ports, portAgrees (freshDevice r s) q = false ∧ e = .badPort q.port) ∧
      ∀ p, (linkOf { freshDevice r s with links } p).up = true ↔ p ∈ agreeing (freshDevice r s) r.ports) ∧
    (bootEnd r < 6 ∨ agreeing (freshDevice r s) r.ports ≠ [] → row = r.row ∧ col = r.col ∧ rows = r.rows ∧ cols = r.cols) := by
  unfold execDeviceReset
  rw [bringUp_eq]
  by_cases six : 6 ≤ bootEnd r
  · rw [if_pos six, if_pos six]
    obtain ⟨row, col, rows, cols, links, outbox, resyncs, outs, train, none, up, straps⟩ := trainPorts_eq r (freshDevice r s)
    obtain rfl : outs = [] := List.eq_nil_of_length_eq_zero none
    rw [train] at up
    refine ⟨_, _, _, _, _, _, _, _, _, congrArg (fun u : State => Host.Outcome.next { u with
      bootStep := bootEnd r, bootFail := if bootEnd r = 7 then 0 else r.failAt }) train,
      fun _ => ⟨fun p => ?good, fun e => ?log, fun p => ?up⟩, fun h => straps (h.resolve_left (Nat.not_lt.2 six))⟩
    case good => exact mem_compareReports_goodPorts.trans (or_iff_right fun h => List.not_mem_nil h.1)
    case log => exact mem_compareReports_errLog.trans (or_iff_right List.not_mem_nil)
    case up => exact (up p).trans (or_iff_left Bool.false_ne_true)
  · rw [if_neg six, if_neg six]
    exact ⟨_, _, _, _, _, _, _, _, _, rfl, fun h => absurd h six, fun _ => ⟨rfl, rfl, rfl, rfl⟩⟩

/-- Settles O45: what is fixed before step 6 by the state that a reset starts from, the ports by the reports that step 6 compares. -/
theorem deviceReset : Obligations.DeviceReset := by
  unfold Obligations.DeviceReset
  intro s u r n agrees hn hu hagrees
  rw [← bootEnd_eq] at hn
  subst hu hn
  have agreed : ∀ p, portAgrees (freshDevice r s) p = true ↔ agrees p := fun p => portAgrees_iff.trans (hagrees p).symm
  have disagreed : ∀ p, portAgrees (freshDevice r s) p = false ↔ ¬agrees p := fun p => by rw [← agreed, Bool.not_eq_true]
  obtain ⟨row, col, rows, cols, links, outbox, resyncs, goodPorts, errLog, reset, trained, straps⟩ := execDeviceReset_eq r s
  refine ⟨_, reset, rfl, rfl, rfl, rfl, rfl, rfl, rfl, rfl, rfl, rfl, rfl, rfl, rfl, rfl, rfl, rfl, rfl, rfl, rfl, rfl, rfl,
    fun two => ?patched, fun early => ?unpatched, fun six => ?ports, fun h => ?straps, fun q down v hv => ?partner⟩
  case patched =>
    have applied : (freshDevice r s).patchApplied = patchGood r.patch Config.fuses := if_pos two
    have rejected : (freshDevice r s).patchRejected = !patchGood r.patch Config.fuses := if_pos two
    exact ⟨if_pos two, rejected.trans (congrArg _ applied.symm), applied ▸ patchGood_iff⟩
  case unpatched =>
    have before : ¬2 ≤ bootEnd r := Nat.not_le.2 early
    exact ⟨if_neg before, if_neg before, if_neg before⟩
  case ports =>
    obtain ⟨good, log, up⟩ := trained six
    simp only [mem_agreeing, agreed, disagreed] at good log up
    exact ⟨good, log, up⟩
  case straps =>
    refine straps (h.imp_right ?_)
    rintro ⟨q, hq, ok⟩
    exact List.ne_nil_of_mem (mem_agreeing.2 ⟨q, hq, (agreed q).2 ok, rfl⟩)
  case partner =>
    have report : portAgrees s q = true ↔ v := hv ▸ portAgrees_iff
    have compared := partnerReports_down down
    refine ⟨partnerReports s q, rfl, ?frame, fun ok => ?agrees, fun bad => ?disagrees⟩
    case frame => rw [compared]
    case agrees =>
      refine ⟨(mem_partnerReports_goodPorts down).2 (report.2 ok), ?_⟩
      rw [compared, if_pos (report.2 ok)]
      exact List.append_nil _
    case disagrees =>
      refine ⟨mt (mem_partnerReports_goodPorts down).1 (mt report.1 bad), ?_⟩
      rw [compared, if_neg (mt report.1 bad)]

end Sys2Proof.Machine
end

section
/-! SUPPORT. The CSRs of a job (O12): each value by its number, and what CSRR and CSRW do with it. -/

namespace Sys2Proof.Machine

theorem toNat_append_add {m n : Nat} (x : BitVec m) (y : BitVec n) : (x ++ y).toNat = x.toNat * 2 ^ n + y.toNat := by
  rw [BitVec.toNat_append, ← Nat.shiftLeft_add_eq_or_of_lt y.isLt, Nat.shiftLeft_eq]

/-! ### The instructions -/

theorem exec_csrr_of_readCsr {s : State} {c : BitVec 12} {w : Word} (h : readCsr s c.toNat = some w) (d : Reg) :
    exec (.csrr d c) s = .next (wroteX s d w) := by
  show execCsrr d c s = _
  rw [execCsrr, h, ← retireX_eq_wroteX]

theorem writeCsr_pc (j : Job) (n : Nat) (v : Word) : (j.writeCsr n v).pc = j.pc := by
  unfold Job.writeCsr
  split_ifs <;> rfl

theorem exec_csrw_of_readCsr {s : State} {c : BitVec 12} {w : Word} (h : readCsr s c.toNat = some w) (a : Reg) :
    exec (.csrw a c) s = .next (wentTo { s with job := s.job.writeCsr c.toNat (getX s a) } (s.job.pc + 4)) := by
  show execCsrw a c s = _
  rw [execCsrw, h]
  simp only [advance, setPc, wentTo, writeCsr_pc]

theorem exec_csrr_unassigned {s : State} {c : BitVec 12} (h : readCsr s c.toNat = none) (d : Reg) :
    exec (.csrr d c) s = .next (raise s .illegalInstr (csrWord false d c)) := by
  show execCsrr d c s = _
  rw [execCsrr, h]

theorem exec_csrw_unassigned {s : State} {c : BitVec 12} (h : readCsr s c.toNat = none) (a : Reg) :
    exec (.csrw a c) s = .next (raise s .illegalInstr (csrWord true a c)) := by
  show execCsrw a c s = _
  rw [execCsrw, h]

/-- The RW CSRs by their numbers as CSRW names them (R108). -/
theorem writeCsr_toNat (j : Job) (c : BitVec 12) (v : Word) :
    j.writeCsr c.toNat v =
      if c = 0x001 then { j with flags := v.extractLsb' 0 7 ||| j.clockFlags }
      else if c = 0x002 then { j with fmask := v.extractLsb' 0 7 }
      else if c = 0x010 then { j with dstall := v }
      else if c = 0x011 then { j with qstall := v }
      else if c = 0x020 then { j with itag := v.extractLsb' 0 32 }
      else if c = 0x060 then { j with tvec := v }
      else if c = 0x063 then { j with tpc := v }
      else j := by
  simp only [Job.writeCsr, bits, BitVec.toNat_eq (y := (_ : BitVec 12)), BitVec.reduceToNat]

theorem ite_some_eq_none_iff {α : Type} {p : Prop} [Decidable p] {x : α} {y : Option α} :
    (if p then some x else y) = none ↔ ¬p ∧ y = none := by
  split <;> simp [*]

theorem readCsr_eq_none_iff (s : State) (n : Nat) : readCsr s n = none ↔
    ¬((n = 0x001 ∨ n = 0x002 ∨ n = 0x010 ∨ n = 0x011 ∨ n = 0x020) ∨ (0x030 ≤ n ∧ n ≤ 0x048) ∨ (0x050 ≤ n ∧ n ≤ 0x053) ∨
      (0x060 ≤ n ∧ n ≤ 0x065) ∨ (0x070 ≤ n ∧ n ≤ 0x073)) := by
  simp only [readCsr, ite_some_eq_none_iff, and_true]
  omega

/-! ### The values -/

theorem readCsr_lidx (s : State) (k : Fin 8) : readCsr s (0x030 + k.val) = some (s.job.lidx k) := by
  simp (disch := omega) only [readCsr, if_neg, if_pos, Nat.add_sub_cancel_left]

theorem readCsr_lcnt (s : State) (k : Fin 8) : readCsr s (0x038 + k.val) = some (s.job.lcnt k) := by
  simp (disch := omega) only [readCsr, if_neg, if_pos, Nat.add_sub_cancel_left]

theorem readCsr_lbar (s : State) (k : Fin 8) : readCsr s (0x040 + k.val) = some (s.job.lbar k) := by
  simp (disch := omega) only [readCsr, if_neg, if_pos, Nat.add_sub_cancel_left]

theorem elim_getElem? {α β : Type} (l : List α) (k : Nat) (d : β) (f : α → β) :
    l[k]?.elim d f = if h : k < l.length then f l[k] else d := by
  split <;> simp [*]

theorem lidx_eq (j : Job) (l : Nat) : j.lidx l = if h : l < j.levels.length then j.levels[l].idx.setWidth 64 else 0 := by
  rw [Job.lidx, ← elim_getElem? j.levels l 0 fun v => v.idx.setWidth 64]
  cases j.levels[l]? <;> rfl

theorem lcnt_eq (j : Job) (l : Nat) : j.lcnt l = if h : l < j.levels.length then j.levels[l].count.setWidth 64 else 1 := by
  rw [Job.lcnt, ← elim_getElem? j.levels l 1 fun v => v.count.setWidth 64]
  cases j.levels[l]? <;> rfl

theorem lbarWord (x : BitVec 9) : (1#1 ++ 0#6 ++ x).setWidth 64 = (0x8000 ||| x.setWidth 64 : Word) := by
  apply BitVec.eq_of_toNat_eq
  have := x.isLt
  have h : 0x8000 + x.toNat = 0x8000 ||| x.toNat := Nat.shiftLeft_add_eq_or_of_lt (a := 1) (i := 15) (by omega)
  simp only [BitVec.toNat_setWidth, toNat_append_add, BitVec.toNat_or, BitVec.toNat_ofNat, BitVec.reduceToNat]
  rw [Nat.mod_eq_of_lt (a := x.toNat) (by omega)]
  omega

theorem lbar_eq (j : Job) (l : Nat) : j.lbar l = if h : l < j.levels.length then
    match j.levels[l].bar with | some o => 0x8000 ||| o.code.setWidth 64 | none => 0 else 0 := by
  unfold Job.lbar
  by_cases h : l < j.levels.length
  · rw [dif_pos h, List.getElem?_eq_getElem h, Option.bind_some]
    cases j.levels[l].bar with
    | none => rfl
    | some o => exact lbarWord o.code
  · rw [dif_neg h, List.getElem?_eq_none (Nat.not_lt.1 h), Option.bind_none]

theorem coreId_eq {j : Job} (h : j.core < 288) :
    j.coreId = BitVec.ofNat 64 (j.core + (if j.cc then 512 else 0) + j.core / 72 * 1024) := by
  have hd : dieOf j.core = j.core / 72 := rfl
  apply BitVec.eq_of_toNat_eq
  have hcore : j.core % 2 ^ 9 = j.core := Nat.mod_eq_of_lt (by omega)
  have hdie : j.core / 72 % 2 ^ 2 = j.core / 72 := Nat.mod_eq_of_lt (by omega)
  simp only [Job.coreId, flag, hd, BitVec.toNat_setWidth, toNat_append_add, BitVec.toNat_ofNat, BitVec.toNat_ofBool, hcore, hdie]
  cases j.cc <;> simp only [Bool.toNat_true, Bool.toNat_false, if_true, Bool.false_eq_true, if_false] <;> omega

theorem gridWord (a b c d : Fin 16) :
    (((BitVec.ofFin a : BitVec 4) ++ (BitVec.ofFin b : BitVec 4) ++ ((BitVec.ofFin c : BitVec 4) ++ (BitVec.ofFin d : BitVec 4))).setWidth 64
      : Word) = BitVec.ofNat 64 (d.val + 16 * c.val + 256 * b.val + 4096 * a.val) := by
  apply BitVec.eq_of_toNat_eq
  simp only [BitVec.toNat_setWidth, toNat_append_add, BitVec.toNat_ofNat, BitVec.toNat_ofFin]
  omega

theorem altWin_of_not_alt {s : State} (h : s.job.altArray = false) : altWin s = 0 := by simp [altWin, h]

theorem altWin_of_alt {s : State} (h : s.job.altArray = true) : altWin s = if s.clock / 256 % 2 = 0 then 1 else 3 := by
  apply BitVec.eq_of_toNat_eq
  simp only [altWin, h, if_true, BitVec.toNat_setWidth, toNat_append_add, BitVec.toNat_ofNat]
  split <;> simp <;> omega

theorem mbStat_eq {s : State} (ho : ∀ p, partnerOf s = some p → p.inbox.length ≤ 16) (hi : s.job.inbox.length ≤ 16) :
    mbStat s = BitVec.ofNat 64 (s.job.inbox.length + match partnerOf s with | some p => 256 * p.inbox.length + 65536 | none => 0) := by
  apply BitVec.eq_of_toNat_eq
  unfold mbStat
  cases hp : partnerOf s with
  | none =>
    simp only [Option.isSome_none, flag, BitVec.toNat_setWidth, toNat_append_add, BitVec.toNat_ofNat, BitVec.toNat_ofBool, Bool.toNat_false]
    omega
  | some p =>
    have := ho p hp
    simp only [Option.isSome_some, flag, BitVec.toNat_setWidth, toNat_append_add, BitVec.toNat_ofNat, BitVec.toNat_ofBool, Bool.toNat_true]
    omega

theorem tstreamWord_eq (j : Job) : j.tstreamWord =
    (if j.hnd then 1#1 else 0) ++ 0#31 ++ (if j.tpend then 1#1 else 0) ++ 0#7 ++ j.torig ++ 0#7 ++ (if j.tsib then 1#1 else 0) ++ j.tstream := by
  have e (b : Bool) : flag b = if b then 1#1 else 0 := by cases b <;> rfl
  simp only [Job.tstreamWord, e]

end Sys2Proof.Machine
end

section
/-! SUPPORT. The CSRs of a job (O12): the statement. -/

namespace Sys2Proof.Machine

/-- Settles O12: the access by the lemmas on CSRR and CSRW, each value by the lemma on its number. -/
theorem csrs : Obligations.Csrs := by
  refine ⟨fun s d a c v hv => ⟨fun w h => ⟨exec_csrr_of_readCsr h d, _, exec_csrw_of_readCsr h a, ?written⟩, ?assigned,
    fun h => ⟨⟨_, exec_csrr_unassigned h d⟩, _, exec_csrw_unassigned h a⟩⟩, fun s d => ?values⟩
  case written => rw [hv, writeCsr_toNat]
  case assigned =>
    simp only [readCsr_eq_none_iff, BitVec.le_def, List.mem_cons, List.not_mem_nil, or_false, BitVec.toNat_eq (y := (_ : BitVec 12)),
      BitVec.reduceToNat]
  case values =>
    refine ⟨rfl, rfl, rfl, rfl, rfl, fun h => congrArg some (coreId_eq h), congrArg some (gridWord ..), rfl, rfl, rfl, rfl, rfl, rfl,
      congrArg some (tstreamWord_eq _), fun k => ⟨?lidx, ?lcnt, ?lbar⟩, fun h => congrArg some (altWin_of_not_alt h),
      fun h => congrArg some (altWin_of_alt h), fun ho hi => congrArg some (mbStat_eq ho hi), rfl, rfl, rfl, rfl,
      congrArg Host.Outcome.next (retireX_eq_wroteX ..), rfl⟩
    case lidx => exact (readCsr_lidx s k).trans (congrArg some (lidx_eq ..))
    case lcnt => exact (readCsr_lcnt s k).trans (congrArg some (lcnt_eq ..))
    case lbar => exact (readCsr_lbar s k).trans (congrArg some (lbar_eq ..))

end Sys2Proof.Machine
end

section
/-! SUPPORT. The registers of the engines: an element written, a run of them, and the bytes that stay (06_registers.md R134 to R136). -/

namespace Sys2Proof.Machine

/-! ### The two files of destinations -/

/-- The operand file, or the main file. -/
def Job.file (j : Job) : Bool → Sparse 8
  | true => j.opnd
  | false => j.main

/-- The file of a destination and the address of its first byte there; none for a slot that takes no result (R135). -/
def destPlace : RegSlot → Option (Bool × Nat)
  | .main i => some (false, regBytes * i.val)
  | .opnd i => some (true, regBytes * i.val)
  | _ => none

/-- Address a of a file lies outside bytes lo to hi - 1 of a slot's register. -/
def Clear (r : RegSlot) (b : Bool) (lo hi a : Nat) : Prop := ∀ x, destPlace r = some (b, x) → a < x + lo ∨ x + hi ≤ a

theorem Clear.mono {r : RegSlot} {b : Bool} {lo hi lo' hi' a : Nat} (h : Clear r b lo hi a) (hlo : lo ≤ lo') (hhi : hi' ≤ hi) :
    Clear r b lo' hi' a := fun x hx => by
  have := h x hx
  omega

theorem isDest.destPlace {r : RegSlot} (h : isDest r) : ∃ b x, destPlace r = some (b, x) := by
  obtain ⟨i, rfl⟩ | ⟨i, rfl⟩ := h <;> exact ⟨_, _, rfl⟩

theorem regByte_of_place {r : RegSlot} {b : Bool} {x : Nat} (h : destPlace r = some (b, x)) (j : Job) (k : Nat) :
    regByte j r k = (sget (j.file b) (x + k)).toNat := by
  cases r <;> simp only [destPlace, Option.some.injEq, Prod.mk.injEq, reduceCtorEq] at h <;> obtain ⟨rfl, rfl⟩ := h <;> rfl

theorem regByte_congr {j k : Job} {r : RegSlot} (hm : j.main = k.main) (ho : j.opnd = k.opnd) (h : isDest r) : regByte j r = regByte k r := by
  obtain ⟨i, rfl⟩ | ⟨i, rfl⟩ := h
  · funext b; simp only [regByte, hm]
  · funext b; simp only [regByte, ho]

theorem regElem_congr {j k : Job} {r : RegSlot} (hm : j.main = k.main) (ho : j.opnd = k.opnd) (h : isDest r) (f : Fmt) (i : Nat) :
    regElem j r f i = regElem k r f i := by
  rw [regElem, regElem, regByte_congr hm ho h]

/-- Two destinations overlap in no byte. -/
theorem clear_of_ne {r q : RegSlot} {b : Bool} {x n k : Nat} (h : destPlace r = some (b, x)) (hq : q ≠ r) (hn : n ≤ regBytes)
    (hk : k < regBytes) : Clear q b 0 n (x + k) := by
  intro y hy
  simp only [regBytes] at hn hk
  cases r <;> cases q <;>
    simp only [destPlace, regBytes, Option.some.injEq, Prod.mk.injEq, reduceCtorEq, ne_eq, RegSlot.main.injEq, RegSlot.opnd.injEq] at h hy hq <;>
    obtain ⟨rfl, rfl⟩ := h <;> obtain ⟨h', rfl⟩ := hy <;> simp only [reduceCtorEq] at h' <;> rw [Fin.ext_iff] at hq <;> omega

theorem clear_of_not_coversMain {r : RegSlot} {n a : Nat} (h : ¬coversMain r n a) : Clear r false 0 n a := by
  intro x hx
  cases r <;> simp only [destPlace, Option.some.injEq, Prod.mk.injEq, reduceCtorEq, false_and, true_and] at hx
  subst hx
  by_contra hc
  exact h ⟨_, rfl, by simp only [regBytes] at hc; omega⟩

theorem clear_of_not_coversOpnd {r : RegSlot} {n a : Nat} (h : ¬coversOpnd r n a) : Clear r true 0 n a := by
  intro x hx
  cases r <;> simp only [destPlace, Option.some.injEq, Prod.mk.injEq, reduceCtorEq, false_and, true_and] at hx
  subst hx
  by_contra hc
  exact h ⟨_, rfl, by simp only [regBytes] at hc; omega⟩

/-! ### Bytes set -/

/-- Only the bytes of the two files change. -/
def Job.onlyFiles (j k : Job) : Prop := k = { j with main := k.main, opnd := k.opnd }

theorem Job.onlyFiles.trans {j k l : Job} (h : j.onlyFiles k) (g : k.onlyFiles l) : j.onlyFiles l := by
  unfold Job.onlyFiles at *
  rw [g, h]

theorem Job.onlyFiles.foldl {α : Type} {f : Job → α → Job} (h : ∀ (j : Job) x, j.onlyFiles (f j x)) (l : List α) (j : Job) :
    j.onlyFiles (l.foldl f j) := by
  induction l generalizing j with
  | nil => rfl
  | cons x l ih => exact (h j x).trans (ih _)

theorem setRegByte_onlyFiles (j : Job) (r : RegSlot) (k v : Nat) : j.onlyFiles (setRegByte j r k v) := by cases r <;> rfl

theorem file_setRegByte (j : Job) (r : RegSlot) (k v a : Nat) (b : Bool) (h : Clear r b k (k + 1) a) :
    sget ((setRegByte j r k v).file b) a = sget (j.file b) a := by
  cases r with
  | main i =>
    cases b with
    | true => rfl
    | false => have := h _ rfl; exact (sget_sset ..).trans (if_neg (by omega))
  | opnd i =>
    cases b with
    | true => have := h _ rfl; exact (sget_sset ..).trans (if_neg (by omega))
    | false => rfl
  | _ => rfl

/-- The bytes from lo on set to those of a list of n. -/
theorem regByte_setBytes (j : Job) (r : RegSlot) (lo n : Nat) (g : Nat → Nat) (b : Nat) (h : isDest r) :
    regByte ((List.range n).foldl (fun j i => setRegByte j r (lo + i) (g i)) j) r b =
      if lo ≤ b ∧ b < lo + n then g (b - lo) % 256 else regByte j r b := by
  induction n with
  | zero => rw [if_neg (by omega)]; rfl
  | succ n ih =>
    rw [List.range_succ, List.foldl_append, List.foldl_cons, List.foldl_nil, regByte_setRegByte _ _ _ _ _ h, ih]
    by_cases hb : b = lo + n
    · rw [if_pos hb, if_pos (by omega), hb, Nat.add_sub_cancel_left]
    · rw [if_neg hb]
      exact if_congr (by omega) rfl rfl

theorem file_setBytes (j : Job) (r : RegSlot) (lo n a : Nat) (g : Nat → Nat) (b : Bool) (h : Clear r b lo (lo + n) a) :
    sget (((List.range n).foldl (fun j i => setRegByte j r (lo + i) (g i)) j).file b) a = sget (j.file b) a := by
  induction n with
  | zero => rfl
  | succ n ih =>
    rw [List.range_succ, List.foldl_append, List.foldl_cons, List.foldl_nil, file_setRegByte _ _ _ _ _ _ (h.mono (by omega) (by omega)),
      ih (h.mono (Nat.le_refl _) (by omega))]

/-! ### Elements set -/

/-- An element is a nibble, or a number of whole bytes. -/
theorem bits_cases (f : Fmt) : Fmt.bits f = 4 ∨ ∃ m, 0 < m ∧ Fmt.bits f = 8 * m := by
  cases f
  case e2m1s | int4 => exact .inl rfl
  case fp32 | int32 | uint32 => exact .inr ⟨4, by decide, rfl⟩
  case bf16 | fp16 | int16 | uint16 => exact .inr ⟨2, by decide, rfl⟩
  case e4m3 | e5m2 | int8 | uint8 | mxint8 | e8m0 => exact .inr ⟨1, by decide, rfl⟩

theorem setElem_onlyFiles (j : Job) (r : RegSlot) (f : Fmt) (t v : Nat) : j.onlyFiles (setElem j r f t v) := by
  unfold setElem
  by_cases w : Fmt.bits f = 4
  · rw [if_pos w]
    exact setRegByte_onlyFiles ..
  · rw [if_neg w]
    exact .foldl (fun _ _ => setRegByte_onlyFiles ..) _ _

theorem setElems_onlyFiles (j : Job) (r : RegSlot) (f : Fmt) (t : Nat) (l : List Nat) : j.onlyFiles (setElems j r f t l) := by
  induction l generalizing j t with
  | nil => rfl
  | cons v l ih => exact (setElem_onlyFiles ..).trans (ih ..)

/-- Bytes outside an element stay. -/
theorem file_setElem (j : Job) (r : RegSlot) (f : Fmt) (t v a : Nat) (b : Bool)
    (h : Clear r b (Fmt.bits f * t / 8) ((Fmt.bits f * (t + 1) + 7) / 8) a) : sget ((setElem j r f t v).file b) a = sget (j.file b) a := by
  obtain w | ⟨m, hm, w⟩ := bits_cases f
  · rw [w] at h
    rw [setElem, w, if_pos rfl]
    exact file_setRegByte _ _ _ _ _ _ (h.mono (by omega) (by omega))
  · rw [w, Nat.mul_assoc, Nat.mul_assoc, Nat.mul_add] at h
    have e : 8 * m / 8 = m := by omega
    rw [setElem, w, if_neg (by omega), e]
    exact file_setBytes _ _ _ _ _ _ _ (h.mono (by omega) (by omega))

/-- Bytes outside a run of elements stay. -/
theorem file_setElems (j : Job) (r : RegSlot) (f : Fmt) (t : Nat) (l : List Nat) (a : Nat) (b : Bool)
    (h : Clear r b (Fmt.bits f * t / 8) ((Fmt.bits f * (t + l.length) + 7) / 8) a) :
    sget ((setElems j r f t l).file b) a = sget (j.file b) a := by
  induction l generalizing j t with
  | nil => rfl
  | cons v l ih =>
    rw [List.length_cons] at h
    have mono {x y : Nat} (hxy : x ≤ y) : Fmt.bits f * x ≤ Fmt.bits f * y := Nat.mul_le_mul_left _ hxy
    have h1 := mono (x := t) (y := t + 1) (by omega)
    have h2 := mono (x := t + 1) (y := t + (l.length + 1)) (by omega)
    have h3 := mono (x := t + 1 + l.length) (y := t + (l.length + 1)) (by omega)
    rw [setElems, ih _ _ (h.mono (by omega) (by omega)), file_setElem _ _ _ _ _ _ _ (h.mono (by omega) (by omega))]

/-- The bytes of a number spell it. -/
theorem foldr_digits (m v : Nat) : (List.range m).foldr (fun i a => v / 256 ^ i % 256 + 256 * a) 0 = v % 256 ^ m := by
  induction m generalizing v with
  | zero => simp [Nat.mod_one]
  | succ m ih =>
    have step (i : Nat) : v / 256 ^ (i + 1) = v / 256 / 256 ^ i := by rw [Nat.pow_succ', Nat.div_div_eq_div_mul]
    rw [List.range_succ_eq_map, List.foldr_cons, List.foldr_map, Nat.pow_succ', Nat.mod_mul, ← ih]
    simp only [step, Nat.pow_zero, Nat.div_one]

theorem foldr_range_congr {m : Nat} {f g : Nat → Nat} (h : ∀ i, i < m → f i = g i) :
    (List.range m).foldr (fun i a => f i + 256 * a) 0 = (List.range m).foldr (fun i a => g i + 256 * a) 0 :=
  List.foldr_ext _ _ _ fun i hi a => by rw [h i (List.mem_range.1 hi)]

/-- An element is told by its bytes. -/
theorem elemOf_congr {f : Fmt} {x y : Nat → Nat} {k : Nat}
    (h : ∀ b, Fmt.bits f * k / 8 ≤ b → b < (Fmt.bits f * (k + 1) + 7) / 8 → x b = y b) : elemOf f x k = elemOf f y k := by
  obtain w | ⟨m, hm, w⟩ := bits_cases f
  · rw [w] at h
    simp only [elemOf, w, if_true]
    rw [h _ (by omega) (by omega)]
  · rw [w, Nat.mul_assoc, Nat.mul_assoc, Nat.mul_add] at h
    have e : 8 * m / 8 = m := by omega
    simp only [elemOf, w, if_neg (show ¬8 * m = 4 by omega), e]
    exact foldr_range_congr fun i hi => h _ (by omega) (by omega)

/-- What the elements of a destination are after one of them is set. -/
theorem regElem_setElem (j : Job) (r : RegSlot) (f : Fmt) (t v k : Nat) (h : isDest r) :
    regElem (setElem j r f t v) r f k = if k = t then v % 2 ^ Fmt.bits f else regElem j r f k := by
  obtain w | ⟨m, hm, w⟩ := bits_cases f
  · simp only [regElem, elemOf, setElem, w, if_true, regByte_setRegByte _ _ _ _ _ h]
    by_cases hk : k = t
    · subst hk
      obtain p | p := Nat.mod_two_eq_zero_or_one k
      · simp [p]
      · simp [p]; omega
    · rw [if_neg hk]
      by_cases hb : k / 2 = t / 2
      · rw [if_pos hb, hb]
        obtain ⟨p, q⟩ | ⟨p, q⟩ : (t % 2 = 0 ∧ k % 2 = 1) ∨ (t % 2 = 1 ∧ k % 2 = 0) := by omega
        · simp [p, q]; omega
        · simp [p, q]
      · rw [if_neg hb]
  · have e : 8 * m / 8 = m := by omega
    simp only [regElem, elemOf, setElem, w, if_neg (show ¬8 * m = 4 by omega), e, regByte_setBytes _ _ _ _ _ _ h]
    by_cases hk : k = t
    · subst hk
      rw [if_pos rfl, Nat.pow_mul, ← foldr_digits]
      refine foldr_range_congr fun i hi => ?_
      rw [if_pos (by omega), Nat.add_sub_cancel_left, Nat.mod_mod]
    · rw [if_neg hk]
      refine foldr_range_congr fun i hi => if_neg ?_
      obtain hlt | hgt := Nat.lt_or_gt_of_ne hk
      · have := Nat.mul_le_mul_left m (show k + 1 ≤ t from hlt)
        rw [Nat.mul_add] at this
        omega
      · have := Nat.mul_le_mul_left m (show t + 1 ≤ k from hgt)
        rw [Nat.mul_add] at this
        omega

/-- What they are after a run of them is set. -/
theorem regElem_setElems (j : Job) (r : RegSlot) (f : Fmt) (t : Nat) (l : List Nat) (k : Nat) (h : isDest r) :
    regElem (setElems j r f t l) r f k = if t ≤ k ∧ k < t + l.length then l.getD (k - t) 0 % 2 ^ Fmt.bits f else regElem j r f k := by
  induction l generalizing j t with
  | nil => rw [if_neg (by simp only [List.length_nil]; omega)]; rfl
  | cons v l ih =>
    rw [setElems, ih, regElem_setElem _ _ _ _ _ _ h, List.length_cons]
    by_cases hk : k = t
    · subst hk
      rw [if_neg (by omega), if_pos rfl, if_pos (by omega), Nat.sub_self]
      rfl
    · rw [if_neg hk]
      by_cases hin : t + 1 ≤ k ∧ k < t + 1 + l.length
      · obtain ⟨n, rfl⟩ : ∃ n, k = t + 1 + n := ⟨k - (t + 1), by omega⟩
        rw [if_pos hin, if_pos (by omega), Nat.add_sub_cancel_left, show t + 1 + n - t = n + 1 by omega, List.getD_cons_succ]
      · rw [if_neg hin, if_neg (by omega)]

/-- The elements of a register stay where a run in another register is set. -/
theorem regElem_setElems_ne {j : Job} {r q : RegSlot} {f g : Fmt} {l : List Nat} {k n : Nat} (h : isDest r) (hq : q ≠ r)
    (hl : Fmt.bits g * l.length ≤ 8 * regBytes) (hn : Fmt.bits f * n ≤ 8 * regBytes) (hk : k < n) :
    regElem (setElems j q g 0 l) r f k = regElem j r f k := by
  obtain ⟨b, x, hp⟩ := h.destPlace
  refine elemOf_congr fun i _ hi => ?_
  have := Nat.mul_le_mul_left (Fmt.bits f) (show k + 1 ≤ n from hk)
  have e : regBytes = 4096 := rfl
  rw [regByte_of_place hp, regByte_of_place hp, file_setElems]
  rw [Nat.zero_add]
  exact (clear_of_ne hp hq (Nat.le_refl _) (by omega)).mono (Nat.zero_le _) (by omega)

end Sys2Proof.Machine
end

section
/-! SUPPORT. An operation of an engine that completes: what it leaves of the device (07_queues.md R170, 02_numbers.md R41). -/

namespace Sys2Proof.Machine

/-! ### The pipelines settled -/

/-- Only token counters, ring allocations and pipelines of the engines change. -/
def Job.onlyPipes (j k : Job) : Prop :=
  k = { j with tokens := k.tokens, rings := k.rings, ld := k.ld, mx := k.mx, vx := k.vx, st' := k.st' }

theorem Job.onlyPipes.refl (j : Job) : j.onlyPipes j := rfl

theorem Job.onlyPipes.trans {j k l : Job} (h : j.onlyPipes k) (g : k.onlyPipes l) : j.onlyPipes l := by
  unfold Job.onlyPipes at *
  rw [g, h]

theorem updEng_onlyPipes (j : Job) (e : Engine) (f : EngStream → EngStream) : j.onlyPipes (j.updEng e f) := by cases e <;> rfl

theorem pushToken_onlyPipes (j : Job) (q : Nat) (want : Bool) : j.onlyPipes (j.pushToken q want).1 := by
  unfold Job.pushToken
  split <;> rfl

theorem settleItems_onlyPipes (e : Engine) (j : Job) (noOp noPush : Bool) (l : List PipeItem) :
    j.onlyPipes (settleItems e j noOp noPush l).1 := by
  induction l generalizing j noOp noPush with
  | nil => exact .refl j
  | cons q r ih =>
    cases q with
    | pushes f b =>
      have pushed : j.onlyPipes ((j.pushToken (forwardOf e) f).1.pushToken (backwardOf e) b).1 :=
        (pushToken_onlyPipes ..).trans (pushToken_onlyPipes ..)
      simp only [settleItems]
      split
      · split
        · exact pushed.trans (ih ..)
        · exact pushed.trans (ih ..)
      · exact ih ..
    | spf lo =>
      simp only [settleItems]
      split
      · exact .trans (k := { j with rings := j.rings.map (Ring.pass e lo) }) rfl (ih ..)
      · exact ih ..
    | inv x =>
      simp only [settleItems]
      split <;> exact ih ..
    | bav b c => exact ih ..
    | waiting o => exact ih ..
    | started o => exact ih ..

theorem settle_onlyPipes (j : Job) (e : Engine) : j.onlyPipes (j.settle e) := by
  show j.onlyPipes ((settleItems e j true true (j.eng e).pipe).1.updEng e fun x =>
    { x with pipe := (settleItems e j true true (j.eng e).pipe).2 })
  exact (settleItems_onlyPipes e j true true (j.eng e).pipe).trans (updEng_onlyPipes ..)

theorem settleAll_onlyPipes (j : Job) : j.onlyPipes j.settleAll := by
  have all (l : List Engine) (j : Job) : j.onlyPipes (l.foldl Job.settle j) := by
    induction l generalizing j with
    | nil => exact .refl j
    | cons e l ih => exact (settle_onlyPipes j e).trans (ih _)
  exact all engines j

/-! ### Completion -/

/-- The job after an operation with these flags has completed, from the job whose pipelines have moved on. -/
def Job.completed (j k : Job) (fl : Flags) : Job :=
  { j with tokens := k.tokens, rings := k.rings, ld := k.ld, mx := k.mx, vx := k.vx, st' := k.st', flags := j.flags ||| fl
           clockFlags := j.clockFlags ||| fl }

/-- The job whose started operation of engine e has left only its pushes in the pipeline. -/
def Job.passed (j : Job) (e : Engine) : Job :=
  (j.updEng e fun x => { x with holds := false, pipe := mapStarted (fun o => [.pushes o.toks.sf o.toks.sb]) x.pipe }).settleAll

theorem passed_onlyPipes (j : Job) (e : Engine) : j.onlyPipes (j.passed e) := (updEng_onlyPipes ..).trans (settleAll_onlyPipes _)

theorem completeOp_eq (s : State) (e : Engine) (fl : Flags) : completeOp s e fl =
    let t := { s with job := (s.job.passed e).joinFlags ((curOp s.job e).flags ||| fl) }
    unitPassed t (.eng t.job.id e) := by
  unfold Job.passed
  rfl

/-- An operation that completes leaves of the device all but its requests, and of its job all but pipelines, counters, allocations and flags. -/
theorem completeOp_frame (s : State) (e : Engine) (fl : Flags) : ∃ outs rbuf k,
    completeOp s e fl = { s with outs, rbuf, job := s.job.completed k ((curOp s.job e).flags ||| fl) } := by
  have h := passed_onlyPipes s.job e
  rw [completeOp_eq]
  generalize s.job.passed e = k at h
  exact ⟨_, _, k, by rw [h]; rfl⟩

end Sys2Proof.Machine
end

section
/-! SUPPORT. The result of an operation of the vector engine (08_vector.md R184, 06_registers.md R136): the registers that it writes, and what
it leaves. -/

namespace Sys2Proof.Machine

/-! ### The last-result file shifted -/

/-- A key of two stores, the first of which lists no zero. -/
theorem sget_append {w : Nat} {m : Sparse w} (n : Sparse w) (k : Nat) (h : sparseWf m = true) :
    sget (m ++ n) k = if sget m k = 0 then sget n k else sget m k := by
  induction m with
  | nil => rw [sget, if_pos rfl]; rfl
  | cons e r ih =>
    have hv := sparseWf_head (a := e.1) (v := e.2) h
    by_cases hk : e.1 = k
    · simp [sget, hk, show ¬e.2 = 0#w from hv]
    · simp [sget, hk, ih (sparseWf_tail h)]

theorem setRegByte_main_wf {j : Job} (r : RegSlot) (k v : Nat) (h : sparseWf j.main = true) : sparseWf (setRegByte j r k v).main = true := by
  cases r with
  | main i => exact sset_wf _ _ h
  | _ => exact h

theorem setElem_main_wf {j : Job} (r : RegSlot) (f : Fmt) (t v : Nat) (h : sparseWf j.main = true) :
    sparseWf (setElem j r f t v).main = true := by
  have run (g h' : Nat → Nat) (l : List Nat) : ∀ j : Job, sparseWf j.main = true →
      sparseWf (l.foldl (fun j i => setRegByte j r (g i) (h' i)) j).main = true := by
    induction l with
    | nil => exact fun _ h => h
    | cons i l ih => exact fun _ h => ih _ (setRegByte_main_wf r _ _ h)
  unfold setElem
  by_cases w : Fmt.bits f = 4
  · rw [if_pos w]
    exact setRegByte_main_wf _ _ _ h
  · rw [if_neg w]
    exact run _ _ _ _ h

theorem setElems_main_wf {j : Job} (r : RegSlot) (f : Fmt) (t : Nat) (l : List Nat) (h : sparseWf j.main = true) :
    sparseWf (setElems j r f t l).main = true := by
  induction l generalizing j t with
  | nil => exact h
  | cons v l ih => exact ih _ (setElem_main_wf _ _ _ _ h)

/-- A store moved up by n reads as before, n further up. -/
theorem sget_map_add {w : Nat} (m : Sparse w) (n k : Nat) : sget (m.map fun e => (e.1 + n, e.2)) (k + n) = sget m k := by
  induction m with
  | nil => rfl
  | cons e r ih => simp only [List.map_cons, sget, ih, Nat.add_right_cancel_iff]

theorem sget_map_add_lt {w : Nat} (m : Sparse w) {n k : Nat} (h : k < n) : sget (m.map fun e => (e.1 + n, e.2)) k = 0 :=
  sget_absent fun e he => by
    obtain ⟨x, _, rfl⟩ := List.mem_map.1 he
    exact Nat.ne_of_gt (Nat.lt_of_lt_of_le h (Nat.le_add_left ..))

theorem sget_filter_lt {w : Nat} (m : Sparse w) {n k : Nat} (h : k < n) : sget (m.filter fun e => e.1 < n) k = sget m k := by
  induction m with
  | nil => rfl
  | cons e r ih =>
    rw [List.filter_cons]
    split
    · rw [sget, sget, ih]
    next he => rw [ih, sget, if_neg (by simp at he; omega)]

/-- The register of fresh elements that a shift puts first. -/
def freshLast (j : Job) (f : Fmt) (vals : List Nat) : Job := setElems { j with main := [] } (.main 0) f 0 vals

theorem freshLast_clear {j : Job} {f : Fmt} {vals : List Nat} (h : Fmt.bits f * vals.length ≤ 32768) (a : Nat) :
    sget (freshLast j f vals).main (a + 4096) = 0 :=
  file_setElems { j with main := [] } (.main 0) f 0 vals (a + 4096) false fun x hx => by
    obtain rfl : 0 = x := by simpa [destPlace] using hx
    rw [Nat.zero_add (_ / 8), Nat.zero_add vals.length]
    omega

/-- The shift moves each register up by one. -/
theorem sget_shiftLast_add {j : Job} {f : Fmt} {vals : List Nat} (h : Fmt.bits f * vals.length ≤ 32768) {a : Nat} (ha : a < 3 * 4096) :
    sget (shiftLast j f vals).last (a + 4096) = sget j.last a := by
  refine (sget_append (m := (freshLast j f vals).main) _ _ (setElems_main_wf _ _ _ _ rfl)).trans ?_
  rw [if_pos (freshLast_clear h a)]
  exact (sget_map_add _ 4096 a).trans (sget_filter_lt _ ha)

theorem sget_shiftLast_lt {j : Job} {f : Fmt} {vals : List Nat} {a : Nat} (ha : a < 4096) :
    sget (shiftLast j f vals).last a = sget (freshLast j f vals).main a := by
  refine (sget_append (m := (freshLast j f vals).main) _ _ (setElems_main_wf _ _ _ _ rfl)).trans ?_
  have up (m : Sparse 8) : sget (m.map fun e => (e.1 + regBytes, e.2)) a = 0 := sget_map_add_lt m ha
  rw [up]
  exact ite_eq_right_iff.2 Eq.symm

/-- The shift puts the new elements into the first register. -/
theorem regElem_shiftLast {j : Job} {f : Fmt} {vals : List Nat} (h : Fmt.bits f * vals.length ≤ 32768) {k : Nat} (hk : k < vals.length) :
    regElem (shiftLast j f vals) (.last 0) f k = vals.getD k 0 % 2 ^ Fmt.bits f := by
  have fresh : regElem (freshLast j f vals) (.main 0) f k = vals.getD k 0 % 2 ^ Fmt.bits f := by
    rw [freshLast, regElem_setElems _ _ _ _ _ _ (.inl ⟨0, rfl⟩), if_pos (by omega), Nat.sub_zero]
  rw [← fresh]
  refine elemOf_congr fun b _ hb => ?_
  have := Nat.mul_le_mul_left (Fmt.bits f) (show k + 1 ≤ vals.length from hk)
  simp only [regByte, Fin.val_zero, Nat.mul_zero, Nat.zero_add]
  rw [sget_shiftLast_lt (by omega)]

/-! ### The result written -/

/-- The job with the destinations of a result written. -/
def destWritten (j : Job) (v : VOp) (r : VOut) : Job := setElems (setElems j v.d r.fmt 0 r.vals) v.b .uint8 0 r.second

theorem destWritten_onlyFiles (j : Job) (v : VOp) (r : VOut) : j.onlyFiles (destWritten j v r) :=
  (setElems_onlyFiles ..).trans (setElems_onlyFiles ..)

theorem destWritten_last (j : Job) (v : VOp) (r : VOut) : (destWritten j v r).last = j.last := by
  rw [destWritten_onlyFiles j v r]

theorem writeResult_eq (j : Job) (v : VOp) (r : VOut) : writeResult j v r =
    { j with main := (destWritten j v r).main, opnd := (destWritten j v r).opnd, last := (shiftLast (destWritten j v r) r.fmt r.vals).last
             fifo := j.fifo ++ r.post } := by
  have h := destWritten_onlyFiles j v r
  show ({ shiftLast (destWritten j v r) r.fmt r.vals with fifo := j.fifo ++ r.post } : Job) = _
  unfold Job.onlyFiles at h
  generalize destWritten j v r = k at h
  rw [h]
  rfl

theorem file_destWritten {j : Job} {v : VOp} {r : VOut} {b : Bool} {a : Nat}
    (hd : Clear v.d b 0 ((Fmt.bits r.fmt * r.vals.length + 7) / 8) a) (hb : Clear v.b b 0 r.second.length a) :
    sget ((destWritten j v r).file b) a = sget (j.file b) a := by
  have e : Fmt.bits .uint8 = 8 := rfl
  rw [destWritten, file_setElems, file_setElems]
  · rw [Nat.zero_add]; exact hd.mono (Nat.zero_le _) (Nat.le_refl _)
  · rw [Nat.zero_add, e]; exact hb.mono (Nat.zero_le _) (by omega)

theorem regElem_destWritten {j : Job} {v : VOp} {r : VOut} {k : Nat} (hr : Fmt.bits r.fmt * r.vals.length ≤ 32768)
    (hs : r.second.length ≤ 4096) (h : isDest v.d) (hb : r.second.length = 0 ∨ v.b ≠ v.d) (hk : k < r.vals.length) :
    regElem (destWritten j v r) v.d r.fmt k = r.vals.getD k 0 % 2 ^ Fmt.bits r.fmt := by
  have e : Fmt.bits .uint8 = 8 := rfl
  have e' : regBytes = 4096 := rfl
  have first : regElem (setElems j v.d r.fmt 0 r.vals) v.d r.fmt k = r.vals.getD k 0 % 2 ^ Fmt.bits r.fmt := by
    rw [regElem_setElems _ _ _ _ _ _ h, if_pos (by omega), Nat.sub_zero]
  rw [← first, destWritten]
  obtain h0 | hne := hb
  · rw [List.length_eq_zero_iff.1 h0]
    rfl
  · exact regElem_setElems_ne h hne (by rw [e]; omega) (by omega) hk

theorem regElem_destWritten_second {j : Job} {v : VOp} {r : VOut} {k : Nat} (h : isDest v.b) (hk : k < r.second.length) :
    regElem (destWritten j v r) v.b .uint8 k = r.second.getD k 0 % 256 := by
  rw [destWritten, regElem_setElems _ _ _ _ _ _ h, if_pos (by omega), Nat.sub_zero]
  rfl

/-- A VX operation that completes with a result has written it. -/
theorem vxWrote_completeOp (s : State) (v : VOp) (r : VOut) :
    vxWrote s (completeOp { s with job := writeResult s.job v r } .vx r.flags) v r := by
  obtain ⟨outs, rbuf, k, h⟩ := completeOp_frame { s with job := writeResult s.job v r } .vx r.flags
  rw [h, writeResult_eq]
  refine ⟨⟨by simp [Job.completed], by simp [Job.completed], rfl⟩, fun sp a _ => by cases sp <;> rfl, rfl, rfl, rfl, fun hr hs =>
    ⟨⟨fun hd hb i hi => ?first, fun a ha hb => ?main, fun a ha hb => ?opnd⟩, fun hb i hi => ?second, fun i hi => ?last, fun a ha => ?shifted⟩⟩
  case first =>
    refine (regElem_congr ?_ ?_ hd ..).trans (regElem_destWritten (j := s.job) hr hs hd hb hi) <;> rfl
  case second =>
    refine (regElem_congr ?_ ?_ hb ..).trans (regElem_destWritten_second (j := s.job) hb hi) <;> rfl
  case main => exact file_destWritten (b := false) (clear_of_not_coversMain ha) (clear_of_not_coversMain hb)
  case opnd => exact file_destWritten (b := true) (clear_of_not_coversOpnd ha) (clear_of_not_coversOpnd hb)
  case last => exact regElem_shiftLast (j := destWritten s.job v r) hr hi
  case shifted =>
    refine (sget_shiftLast_add (j := destWritten s.job v r) hr ha).trans ?_
    rw [destWritten_last]

/-- A VX operation whose checks pass and whose data give a result completes with it. -/
theorem vxRun_ok {i : Instr} {v : VOp} {s : State} {k : IOp → Nat → Except (Cause × Word) VOut} {r : VOut}
    (hc : vxCheck s.job (curOp s.job .vx) i = none) (hk : k (curOp s.job .vx) (countOf (curOp s.job .vx) v.n) = .ok r) :
    ∃ t, vxRun i v s k = .next t ∧ vxWrote s t v r := by
  refine ⟨_, ?_, vxWrote_completeOp s v r⟩
  simp only [vxRun, hc, hk]

/-- One whose data offend traps, with nothing written (R204). -/
theorem vxRun_error {i : Instr} {v : VOp} {s : State} {k : IOp → Nat → Except (Cause × Word) VOut} {c : Cause} {x : Word}
    (hc : vxCheck s.job (curOp s.job .vx) i = none) (hk : k (curOp s.job .vx) (countOf (curOp s.job .vx) v.n) = .error (c, x)) :
    vxRun i v s k = .next (trapOp s .vx c x 0) := by
  simp only [vxRun, hc, hk]

end Sys2Proof.Machine
end

section
/-! SUPPORT. Reductions, scans, ranking, pruning and trees of the vector engine (O48): what their results are made of. -/

namespace Sys2Proof.Machine

/-! ### Elements with their flags -/

@[simp] theorem joinFlags_nil : joinFlags [] = 0 := rfl
@[simp] theorem joinFlags_singleton (f : Flags) : joinFlags [f] = f := BitVec.zero_or

@[simp] theorem joinFlags_replicate_zero (n : Nat) : joinFlags (List.replicate n 0#7) = 0 := by
  induction n with
  | zero => rfl
  | succ n ih => exact ih

theorem elements_eq (v : VOp) (n : Nat) (fl : Flags) (g : Nat → Nat × Flags) : elements v n fl g =
    { fmt := v.df, vals := (List.range n).map fun k => (g k).1, flags := fl ||| joinFlags ((List.range n).map fun k => (g k).2) } := by
  simp [elements, collect, Function.comp_def]

/-- Elements that set no flag. -/
theorem elements_quiet (v : VOp) (n : Nat) (fl : Flags) (g : Nat → Nat) : elements v n fl (fun k => (g k, 0)) =
    { fmt := v.df, vals := (List.range n).map g, flags := fl } := by
  simp [elements_eq]

theorem elements_congr {v : VOp} {n : Nat} {fl : Flags} {f g : Nat → Nat × Flags} (h : ∀ k, k < n → f k = g k) :
    elements v n fl f = elements v n fl g := by
  rw [elements, elements, List.map_congr_left fun k hk => h k (List.mem_range.1 hk)]

/-! ### Segments (R195) -/

theorem segBad_eq_none {v : VOp} {n : Nat} {off : Nat → Int} (h0 : 0 ≤ off 0)
    (h : ∀ k, k < n → off k ≤ off (k + 1) ∧ off (k + 1) ≤ capacity v.sf) : segBad v n off = none := by
  unfold segBad
  split
  · exact if_neg (Int.not_lt.2 h0)
  · refine List.find?_range_eq_none.2 fun k hk => ?_
    have := h k hk
    simp
    omega

/-- The lowest segment that offends. -/
theorem segBad_eq_some {v : VOp} {n k : Nat} {off : Nat → Int} (hk : k < n)
    (bad : (k = 0 ∧ off 0 < 0) ∨ off (k + 1) < off k ∨ (capacity v.sf : Int) < off (k + 1)) (h0 : 0 < k → 0 ≤ off 0)
    (h : ∀ i, i < k → off i ≤ off (i + 1) ∧ off (i + 1) ≤ capacity v.sf) : segBad v n off = some k := by
  unfold segBad
  rw [if_neg (by omega)]
  refine List.find?_range_eq_some.2 ⟨?_, List.mem_range.2 hk, fun i hi => ?_⟩
  · simp
    omega
  · have := h i hi
    have := h0 (by omega)
    simp
    omega

/-- Where there is no segment the first offset alone can offend. -/
theorem segBad_no_segment {v : VOp} {off : Nat → Int} (h : off 0 < 0) : segBad v 0 off = some 0 := by
  simp [segBad, h]

theorem offsets_nonneg {n : Nat} {off : Nat → Int} (h0 : 0 ≤ off 0) (h : ∀ k, k < n → off k ≤ off (k + 1)) {k : Nat} (hk : k ≤ n) :
    0 ≤ off k := by
  induction k with
  | zero => exact h0
  | succ k ih => exact (ih (by omega)).trans (h k (by omega))

theorem elemsOf_segment (a : Nat → Nat) {x y : Int} (hx : 0 ≤ x) : elemsOf a x.toNat (y - x).toNat =
    (List.range (y.toNat - x.toNat)).map fun q => a (x.toNat + q) := by
  rw [elemsOf, show (y - x).toNat = y.toNat - x.toNat by omega]

/-! ### Ranking and pruning (R198, R199) -/

theorem insertBy_perm (before : Nat → Nat → Bool) (i : Nat) (l : List Nat) : (insertBy before i l).Perm (i :: l) := by
  induction l with
  | nil => exact .refl _
  | cons k r ih =>
    rw [insertBy]
    split
    · exact .refl _
    · exact (ih.cons k).trans (.swap ..)

/-- A sorted list of indices names each once. -/
theorem sortBy_perm (before : Nat → Nat → Bool) (n : Nat) : (sortBy before n).Perm (List.range n) := by
  have fold (l r : List Nat) : (l.foldl (fun r i => insertBy before i r) r).Perm (l ++ r) := by
    induction l generalizing r with
    | nil => exact .refl _
    | cons i l ih => exact (ih _).trans (((insertBy_perm before i r).append_left l).trans List.perm_middle)
  simpa [sortBy] using fold (List.range n) []

/-! ### Draft trees (R150) -/

theorem foldl_add_eq_sum (f : Nat → Nat) (l : List Nat) (x : Nat) : l.foldl (fun a k => a + f k) x = x + (l.map f).sum := by
  induction l generalizing x with
  | nil => rfl
  | cons k l ih => rw [List.foldl_cons, ih, List.map_cons, List.sum_cons, Nat.add_assoc]

/-- A width vector that breaks R150 gives no tree. -/
theorem treeWidths_eq_none {h : Hnd} {b : List Byte} {l : List Nat} {nodes : Nat} (hl : l = (b.map BitVec.toNat).take h.params)
    (hn : nodes = ((List.range (l.length + 1)).map fun q => (l.take q).prod).sum)
    (bad : (∃ x ∈ l, x = 0) ∨ (∃ x ∈ b.drop h.params, x ≠ 0) ∨ 2 ^ 31 < nodes ∨ nodes < h.dim 0) : treeWidths h b = none := by
  have sum := foldl_add_eq_sum (fun q => (l.take q).prod) (List.range (l.length + 1)) 0
  rw [Nat.zero_add, ← hn] at sum
  unfold treeWidths
  simp only [← hl, sum]
  rw [if_pos]
  simp only [Bool.or_eq_true, List.any_eq_true, decide_eq_true_eq, ← List.map_drop, List.mem_map, beq_iff_eq, bne_iff_ne]
  obtain zero | ⟨x, hx, h0⟩ | many | few := bad
  · exact .inl (.inl (.inl zero))
  · exact .inl (.inl (.inr ⟨_, ⟨x, hx, rfl⟩, fun h => h0 (BitVec.eq_of_toNat_eq h)⟩))
  · exact .inl (.inr many)
  · exact .inr few

section
variable {s : State} {v : VOp} {k : TreeKind} {h : Fin 16} (hc : vxCheck s.job (curOp s.job .vx) (.vtree v k h) = none)
include hc

theorem execVtree_ok {b : List Byte} {w : List Nat} (hb : vecBytes s (engParty s .vx v.hdr.cls) (curOp s.job .vx)
    (opHandle (curOp s.job .vx) h) (opHandle (curOp s.job .vx) h).aux1 8 = .ok b) (hw : treeWidths (opHandle (curOp s.job .vx) h) b = some w) :
    let x := sourceOf s.job (curOp s.job .vx) v .uint32 v.a
    let y := sourceOf s.job (curOp s.job .vx) v .uint32 v.b
    let r : VOut := { fmt := v.df, vals := (List.range (countOf (curOp s.job .vx) v.n)).map fun i => treeValue w k (x.1 i) (y.1 i)
                      flags := x.2 ||| y.2 }
    execVtree v k h s = .next (completeOp { s with job := writeResult s.job v r } .vx r.flags) := by
  rw [opHandle] at hb hw
  simp only [execVtree, hc, hb, hw, elements_quiet]

theorem execVtree_stop {e : Stop} (hb : vecBytes s (engParty s .vx v.hdr.cls) (curOp s.job .vx)
    (opHandle (curOp s.job .vx) h) (opHandle (curOp s.job .vx) h).aux1 8 = .error e) :
    execVtree v k h s = .next (stopOp s .vx 0 0 e) := by
  rw [opHandle] at hb
  simp only [execVtree, hc, hb]

theorem execVtree_bad {b : List Byte} (hb : vecBytes s (engParty s .vx v.hdr.cls) (curOp s.job .vx)
    (opHandle (curOp s.job .vx) h) (opHandle (curOp s.job .vx) h).aux1 8 = .ok b) (hw : treeWidths (opHandle (curOp s.job .vx) h) b = none) :
    execVtree v k h s = .next (trapOp s .vx .shapeInvalid (opHandle (curOp s.job .vx) h).free 0) := by
  rw [opHandle] at *
  simp only [execVtree, hc, hb, hw]

end

end Sys2Proof.Machine
end

section
/-! SUPPORT. Reductions, scans, ranking, pruning, quantisation and trees (O48): the statement. -/

namespace Sys2Proof.Machine

/-- Settles O48: each operation by its result, which it writes where its checks pass. -/
theorem vectorReductions : Obligations.VectorReductions := by
  rintro s v _ _ a fa gives _ rfl rfl ha hg rfl
  generalize ho : curOp s.job .vx = o at *
  generalize hn : countOf o v.n = n at *
  have completes {i : Instr} {r : VOut} {k : IOp → Nat → Except (Cause × Word) VOut} (e : Result) (he : exec i s = e)
      (hv : e = vxRun i v s k) (hk : k o n = .ok r) : gives i r := by
    refine (hg i r).2 fun hc => ?_
    subst ho hn
    rw [he, hv]
    exact vxRun_ok hc hk
  refine ⟨fun op => completes (execVred v op s) rfl rfl ?red, fun op excl el hel => completes (execVscan v op excl s) rfl rfl ?scan,
    fun op off el hoff h0 hm hel => completes (execVsegr v op s) rfl rfl ?segr, fun op off k hoff bad hc => ?segrBad,
    ⟨_, sortBy_perm _ n, rfl, completes (execVrank v false s) rfl rfl ?rank, completes (execVrank v true s) rfl rfl ?order⟩,
    fun p N M lg keep hp hkeep => completes (execVprune v p s) rfl rfl ?prune, fun k hk => completes (execVrng v s) rfl rfl ?rng,
    fun el hel => completes (execVdqnt v s) rfl rfl ?dqnt, fun x fx q hx hq => ⟨?qntMx, ?qnt⟩, ?tree, ?treeStop, ?treeBad⟩
  case red => simp [← ha, elements_eq, elemsOf]
  case scan => simp [← ha, elements_eq, elemsOf, hel]
  case segr =>
    have segments : elements v n fa (fun k => reduceOp v op (rndOf s.job v k) (elemsOf a (off k).toNat (off (k + 1) - off k).toNat)) =
        elements v n fa el := elements_congr fun k hk => by
      rw [elemsOf_segment a (offsets_nonneg h0 (fun i hi => (hm i hi).1) (Nat.le_of_lt hk)), hel]
    have sound := segBad_eq_none h0 hm
    rw [elements_eq v n fa el, hoff] at segments
    rw [hoff] at sound
    simp only [← ha, sint, sound]
    exact congrArg Except.ok segments
  case segrBad =>
    have offends : segBad v n off = some k := by
      obtain ⟨n0, rfl, neg⟩ | ⟨hk, bad, first, before⟩ := bad
      · rw [n0]
        exact segBad_no_segment neg
      · exact segBad_eq_some hk bad first before
    rw [hoff] at offends
    subst ho hn
    show execVsegr v op s = _
    refine vxRun_error hc ?_
    simp only [sint, offends]
  case rank => simp [← ha]
  case order => simp [← ha]
  case prune => simp [← ha, ← hp, hkeep, List.flatMap, Function.comp_def]
  case rng => simp [hk, elements_eq]
  case dqnt => simp [elements_eq, hel]
  case qntMx => exact fun hd => completes (execVqnt v s) rfl rfl (by simp [hd, ← hx, ← hq, List.flatMap_map, Function.comp_def])
  case qnt => exact fun hd => completes (execVqnt v s) rfl rfl (by simp [hd, ← hx, ← hq, List.flatMap_map, Function.comp_def])
  case tree =>
    intro k h b w x y hb hw hx hy
    subst ho hn hx hy
    exact (hg _ _).2 fun hc => ⟨_, execVtree_ok hc hb hw, vxWrote_completeOp s v _⟩
  case treeStop =>
    intro k h e hb hc
    subst ho
    exact execVtree_stop hc hb
  case treeBad =>
    intro k h b l nodes hb hl hnodes bad hc
    subst ho
    exact execVtree_bad hc hb (treeWidths_eq_none hl hnodes bad)

end Sys2Proof.Machine
end

section
/-! SUPPORT. The cells of the matrix array (09_matrix.md R206): accumulators that are written one after another. -/

namespace Sys2Proof.Machine

/-! ### One cell -/

/-- Cells of the 96 columns have keys of their own. -/
theorem accKey_inj {r c r' c' : Nat} (h : c < 96) (h' : c' < 96) : accKey r c = accKey r' c' ↔ r = r' ∧ c = c' := by
  unfold accKey
  omega

/-- Only accumulators and their live marks change. -/
def onlyAcc (m n : Matrix) : Prop := n = { m with acc := n.acc, live := n.live }

theorem onlyAcc.trans {m n p : Matrix} (h : onlyAcc m n) (g : onlyAcc n p) : onlyAcc m p := by
  unfold onlyAcc at *
  rw [g, h]

theorem accAt_putAcc (m : Matrix) {r c r' c' : Nat} (v : Nat) (h : c < 96) (h' : c' < 96) :
    (m.putAcc r c v).accAt r' c' = if r' = r ∧ c' = c then v % 2 ^ 32 else m.accAt r' c' := by
  simp only [Matrix.accAt, Matrix.putAcc, sget_sset, accKey_inj h' h]
  split
  · exact BitVec.toNat_ofNat ..
  · rfl

theorem live_putAcc (m : Matrix) {r c r' c' : Nat} (v : Nat) (h : c < 96) (h' : c' < 96) :
    sget (m.putAcc r c v).live (accKey r' c') = if r' = r ∧ c' = c then 1 else sget m.live (accKey r' c') := by
  simp only [Matrix.putAcc, sget_sset, accKey_inj h' h]

/-! ### Cells in turn -/

/-- What a pass puts into cell (r, c) of an array; none where it leaves the cell. -/
abbrev CellRule := Matrix → Nat → Nat → Option (Nat × Flags)

/-- A rule reads of the accumulators the one of its cell. -/
def CellRule.ownCell (g : CellRule) : Prop := ∀ m n r c, onlyAcc m n → n.accAt r c = m.accAt r c → g n r c = g m r c

/-- A cell taken, with its flags. -/
def cellStep (g : CellRule) (x : Matrix × Flags) (q : Nat × Nat) : Matrix × Flags :=
  match g x.1 q.1 q.2 with
  | some (v, fl) => (x.1.putAcc q.1 q.2 v, x.2 ||| fl)
  | none => x

/-- The accumulator that a rule leaves in a cell, and its mark. -/
def ruleAcc (g : CellRule) (m : Matrix) (r c : Nat) : Nat := ((g m r c).map fun q => q.1 % 2 ^ 32).getD (m.accAt r c)
def ruleLive (g : CellRule) (m : Matrix) (r c : Nat) : BitVec 1 := if (g m r c).isSome then 1 else sget m.live (accKey r c)

theorem cellStep_onlyAcc (g : CellRule) (x : Matrix × Flags) (q : Nat × Nat) : onlyAcc x.1 (cellStep g x q).1 := by
  unfold cellStep
  split <;> rfl

theorem cellStep_cell (g : CellRule) (x : Matrix × Flags) {q : Nat × Nat} (hq : q.2 < 96) {r c : Nat} (hc : c < 96) :
    (cellStep g x q).1.accAt r c = (if (r, c) = q then ruleAcc g x.1 r c else x.1.accAt r c) ∧
    sget (cellStep g x q).1.live (accKey r c) = if (r, c) = q then ruleLive g x.1 r c else sget x.1.live (accKey r c) := by
  obtain ⟨r', c'⟩ := q
  simp only [Prod.mk.injEq]
  cases h : g x.1 r' c' with
  | none =>
    have stay : cellStep g x (r', c') = x := by simp only [cellStep, h]
    rw [stay]
    constructor <;> split
    next e => rw [e.1, e.2, ruleAcc, h]; rfl
    · rfl
    next e => rw [e.1, e.2, ruleLive, h]; rfl
    · rfl
  | some p =>
    have put : (cellStep g x (r', c')).1 = x.1.putAcc r' c' p.1 := by simp only [cellStep, h]
    rw [put, accAt_putAcc _ _ hq hc, live_putAcc _ _ hq hc]
    constructor <;> split
    next e => rw [e.1, e.2, ruleAcc, h]; rfl
    · rfl
    next e => rw [e.1, e.2, ruleLive, h]; rfl
    · rfl

/-- Cells taken one after another, each once: each is left as the rule says for the array before, and every other cell as it was. -/
theorem foldl_cellStep {g : CellRule} (hg : g.ownCell) (l : List (Nat × Nat)) (hn : l.Nodup) (hl : ∀ q ∈ l, q.2 < 96) (x : Matrix × Flags) :
    onlyAcc x.1 (l.foldl (cellStep g) x).1 ∧ ∀ r c, c < 96 →
      (l.foldl (cellStep g) x).1.accAt r c = (if (r, c) ∈ l then ruleAcc g x.1 r c else x.1.accAt r c) ∧
      sget (l.foldl (cellStep g) x).1.live (accKey r c) = if (r, c) ∈ l then ruleLive g x.1 r c else sget x.1.live (accKey r c) := by
  induction l generalizing x with
  | nil => exact ⟨rfl, fun r c _ => by simp⟩
  | cons q l ih =>
    obtain ⟨hq, hn⟩ := List.nodup_cons.1 hn
    obtain ⟨rest, cells⟩ := ih hn (fun p hp => hl p (List.mem_cons_of_mem _ hp)) (cellStep g x q)
    refine ⟨(cellStep_onlyAcc g x q).trans rest, fun r c hc => ?_⟩
    obtain ⟨acc, live⟩ := cellStep_cell g x (hl q List.mem_cons_self) (r := r) hc
    rw [List.foldl_cons, (cells r c hc).1, (cells r c hc).2, ruleAcc, ruleLive]
    by_cases e : (r, c) = q
    · rw [if_pos e] at acc live
      have out : (r, c) ∉ l := e ▸ hq
      have mem : (r, c) ∈ q :: l := e ▸ List.mem_cons_self
      rw [if_neg out, if_neg out, if_pos mem, if_pos mem, acc, live]
      exact ⟨rfl, rfl⟩
    · rw [if_neg e] at acc live
      rw [hg _ _ r c (cellStep_onlyAcc g x q) acc, acc, live]
      simp only [List.mem_cons, e, false_or]
      exact ⟨rfl, rfl⟩

end Sys2Proof.Machine
end

section
/-! SUPPORT. A block of rows against a bank (09_matrix.md R220), and the partial sums joined (R222). -/

namespace Sys2Proof.Machine

/-! ### MMA -/

/-- The step of MMA: a row of A against column c of a bank (R220). -/
def mmaRule (sat : Bool) (mask : MaskMode) (f : Fmt) (b : Bank) (k : Nat) (a : Row) : CellRule := fun m r c =>
  if unmasked mask a.tag (b.tag c) then stepAcc sat f b.fmt (m.accAt r c) a.lanes (b.lane c) 0 k else none

theorem mmaRule_local (sat : Bool) (mask : MaskMode) (f : Fmt) (b : Bank) (k : Nat) (a : Row) : (mmaRule sat mask f b k a).ownCell :=
  fun m n r c _ h => by rw [mmaRule, mmaRule, h]

theorem mmaRow_eq_foldl (sat : Bool) (mask : MaskMode) (f : Fmt) (b : Bank) (k r : Nat) (a : Row) (m : Matrix) :
    mmaRow sat mask f b k r a m = ((List.range b.n).map (r, ·)).foldl (cellStep (mmaRule sat mask f b k a)) (m, 0) := by
  rw [List.foldl_map, mmaRow]
  congr 1
  funext x c
  by_cases h : unmasked mask a.tag (b.tag c)
  · have rule : mmaRule sat mask f b k a x.1 r c = stepAcc sat f b.fmt (x.1.accAt r c) a.lanes (b.lane c) 0 k := if_pos h
    refine (if_pos h).trans ?_
    cases hs : stepAcc sat f b.fmt (x.1.accAt r c) a.lanes (b.lane c) 0 k <;> rw [cellStep, rule, hs]
  · have stay : mmaRule sat mask f b k a x.1 r c = none := if_neg h
    exact (if_neg h).trans (by rw [cellStep, stay])

/-- What a row of A leaves in each cell: those of its row of the accumulators take a step. -/
theorem mmaRow_cells (sat : Bool) (mask : MaskMode) (f : Fmt) {b : Bank} (hb : b.n ≤ 96) (k r : Nat) (a : Row) (m : Matrix) :
    onlyAcc m (mmaRow sat mask f b k r a m).1 ∧ ∀ r' c, c < 96 →
      (mmaRow sat mask f b k r a m).1.accAt r' c =
        (if r' = r ∧ c < b.n then ruleAcc (mmaRule sat mask f b k a) m r' c else m.accAt r' c) ∧
      sget (mmaRow sat mask f b k r a m).1.live (accKey r' c) =
        if r' = r ∧ c < b.n then ruleLive (mmaRule sat mask f b k a) m r' c else sget m.live (accKey r' c) := by
  have nodup : ((List.range b.n).map (r, ·)).Nodup := List.nodup_range.map fun c d h => (Prod.mk.inj h).2
  have mem (r' c : Nat) : (r', c) ∈ (List.range b.n).map (r, ·) ↔ r' = r ∧ c < b.n := by
    simp [eq_comm, and_comm]
  have columns : ∀ q ∈ (List.range b.n).map (r, ·), q.2 < 96 := fun q hq => by
    have := (mem q.1 q.2).1 hq
    omega
  have cells := foldl_cellStep (mmaRule_local sat mask f b k a) _ nodup columns (m, 0)
  simp only [← mmaRow_eq_foldl, mem] at cells
  exact cells

theorem ruleAcc_congr {g h : CellRule} {m n : Matrix} {r c : Nat} (rule : g m r c = h n r c) (acc : m.accAt r c = n.accAt r c) :
    ruleAcc g m r c = ruleAcc h n r c := by
  rw [ruleAcc, ruleAcc, rule, acc]

theorem ruleLive_congr {g h : CellRule} {m n : Matrix} {r c : Nat} (rule : g m r c = h n r c)
    (live : sget m.live (accKey r c) = sget n.live (accKey r c)) : ruleLive g m r c = ruleLive h n r c := by
  rw [ruleLive, ruleLive, rule, live]

/-- What the rows of A from row r of the accumulators on do to a cell: the row that meets it takes its step there. -/
def rowsRule (sat : Bool) (mask : MaskMode) (f : Fmt) (b : Bank) (k r : Nat) (rows : List (Option Row)) : CellRule := fun m r' c =>
  if r ≤ r' ∧ c < b.n then rows[r' - r]?.join.bind fun a => mmaRule sat mask f b k a m r' c else none

section
variable {sat : Bool} {mask : MaskMode} {f : Fmt} {b : Bank} {k : Nat}

theorem rowsRule_local (r : Nat) (rows : List (Option Row)) : (rowsRule sat mask f b k r rows).ownCell := fun m n r' c hm h => by
  simp only [rowsRule, mmaRule_local sat mask f b k _ m n r' c hm h]

theorem rowsRule_cons_self (r : Nat) (a : Option Row) (l : List (Option Row)) (m : Matrix) (c : Nat) :
    rowsRule sat mask f b k r (a :: l) m r c = if c < b.n then a.bind fun a => mmaRule sat mask f b k a m r c else none := by
  simp [rowsRule]

theorem rowsRule_succ_self (r : Nat) (l : List (Option Row)) (m : Matrix) (c : Nat) : rowsRule sat mask f b k (r + 1) l m r c = none :=
  if_neg (by omega)

theorem rowsRule_cons_ne {r r' : Nat} (h : r' ≠ r) (a : Option Row) (l : List (Option Row)) (m : Matrix) (c : Nat) :
    rowsRule sat mask f b k r (a :: l) m r' c = rowsRule sat mask f b k (r + 1) l m r' c := by
  by_cases hr : r ≤ r'
  · obtain ⟨n, rfl⟩ : ∃ n, r' = r + 1 + n := ⟨r' - (r + 1), by omega⟩
    simp only [rowsRule, show r + 1 + n - r = n + 1 by omega, List.getElem?_cons_succ, Nat.add_sub_cancel_left]
    exact if_congr (by omega) rfl rfl
  · rw [rowsRule, rowsRule, if_neg (by omega), if_neg (by omega)]

/-- What the rows leave in each cell. -/
theorem mmaRows_cells (hb : b.n ≤ 96) (r : Nat) (rows : List (Option Row)) (x : Matrix × Flags) :
    onlyAcc x.1 (mmaRows sat mask f b k r rows x).1 ∧ ∀ r' c, c < 96 →
      (mmaRows sat mask f b k r rows x).1.accAt r' c = ruleAcc (rowsRule sat mask f b k r rows) x.1 r' c ∧
      sget (mmaRows sat mask f b k r rows x).1.live (accKey r' c) = ruleLive (rowsRule sat mask f b k r rows) x.1 r' c := by
  induction rows generalizing r x with
  | nil => exact ⟨rfl, fun r' c _ => by simp [mmaRows, rowsRule, ruleAcc, ruleLive]⟩
  | cons a l ih =>
    cases a with
    | none =>
      obtain ⟨frame, cells⟩ := ih (r + 1) x
      refine ⟨frame, fun r' c hc => ?_⟩
      have same : rowsRule sat mask f b k r (none :: l) x.1 r' c = rowsRule sat mask f b k (r + 1) l x.1 r' c := by
        by_cases e : r' = r
        · rw [e, rowsRule_cons_self, rowsRule_succ_self, Option.bind_none, ite_self]
        · exact rowsRule_cons_ne e ..
      exact ⟨(cells r' c hc).1.trans (ruleAcc_congr same.symm rfl), (cells r' c hc).2.trans (ruleLive_congr same.symm rfl)⟩
    | some a =>
      obtain ⟨rowFrame, row⟩ := mmaRow_cells sat mask f hb k r a x.1
      obtain ⟨frame, cells⟩ := ih (r + 1) ((mmaRow sat mask f b k r a x.1).1, x.2 ||| (mmaRow sat mask f b k r a x.1).2)
      refine ⟨rowFrame.trans frame, fun r' c hc => ?_⟩
      obtain ⟨acc, live⟩ := row r' c hc
      obtain ⟨accAfter, liveAfter⟩ := cells r' c hc
      refine ⟨accAfter.trans ?_, liveAfter.trans ?_⟩ <;> by_cases e : r' = r
      · subst e
        rw [ruleAcc, rowsRule_succ_self]
        refine acc.trans ?_
        rw [ruleAcc, ruleAcc, rowsRule_cons_self]
        by_cases hn : c < b.n <;> simp [hn]
      · rw [if_neg (fun h => e h.1)] at acc
        exact ruleAcc_congr ((rowsRule_local _ _ _ _ _ _ rowFrame acc).trans (rowsRule_cons_ne e ..).symm) acc
      · subst e
        rw [ruleLive, rowsRule_succ_self]
        refine live.trans ?_
        rw [ruleLive, ruleLive, rowsRule_cons_self]
        by_cases hn : c < b.n <;> simp [hn]
      · rw [if_neg (fun h => e h.1)] at live acc
        exact ruleLive_congr ((rowsRule_local _ _ _ _ _ _ rowFrame acc).trans (rowsRule_cons_ne e ..).symm) live

end

/-! ### MSA -/

/-- The step of MSA: the partial sums of an output with its scales joined to its accumulator (R222). -/
def msaRule (sat : Bool) (base nb : Nat) (ca cb : Nat → Nat → Nat) : CellRule := fun m r c =>
  if sget m.bpfLive (accKey (r - base) c) = 1 then some (msaOut sat m (r - base) c (ca (r - base)) (cb c) nb (m.accAt r c)) else none

theorem msaRule_local (sat : Bool) (base nb : Nat) (ca cb : Nat → Nat → Nat) : (msaRule sat base nb ca cb).ownCell := fun m n r c hm h => by
  have sums : msaOut sat n (r - base) c (ca (r - base)) (cb c) nb = msaOut sat m (r - base) c (ca (r - base)) (cb c) nb := by rw [hm]; rfl
  have live : n.bpfLive = m.bpfLive := by rw [hm]
  rw [msaRule, msaRule, h, sums, live]

/-- The outputs of an MSA, as cells of the accumulators. -/
def msaCells (base m n : Nat) : List (Nat × Nat) := (List.range m ×ˢ List.range n).map fun q => (base + q.1, q.2)

theorem mem_msaCells {base m n r c : Nat} : (r, c) ∈ msaCells base m n ↔ base ≤ r ∧ r < base + m ∧ c < n := by
  simp only [msaCells, List.mem_map, List.mem_product, List.mem_range, Prod.exists, Prod.mk.injEq]
  constructor
  · rintro ⟨i, d, ⟨hi, hd⟩, rfl, rfl⟩
    omega
  · exact fun h => ⟨r - base, c, by omega, by omega, rfl⟩

theorem msaCells_nodup (base m n : Nat) : (msaCells base m n).Nodup :=
  (List.nodup_range.product List.nodup_range).map fun p q h => by
    obtain ⟨h1, h2⟩ := Prod.mk.inj h
    exact Prod.ext (Nat.add_left_cancel h1) h2

end Sys2Proof.Machine
end

section
/-! SUPPORT. The partial sums of MMB (09_matrix.md R221): what a row of A leaves in BPF. -/

namespace Sys2Proof.Machine

/-! ### One output -/

/-- Only the partial sums and their live marks change. -/
def onlyBpf (m n : Matrix) : Prop := n = { m with bpf := n.bpf, bpfLive := n.bpfLive }

theorem onlyBpf.trans {m n p : Matrix} (h : onlyBpf m n) (g : onlyBpf n p) : onlyBpf m p := by
  unfold onlyBpf at *
  rw [g, h]

theorem onlyBpf.fields {m n : Matrix} (h : onlyBpf m n) :
    n.acc = m.acc ∧ n.live = m.live ∧ n.bank0 = m.bank0 ∧ n.bank1 = m.bank1 ∧ n.bpfInt = m.bpfInt := by
  rw [h]
  exact ⟨rfl, rfl, rfl, rfl, rfl⟩

/-- The word that BPF holds for block b of an output with these sums: +0 where no lane is present. -/
def blockWord (sums : List (Option (Nat × Flags))) (b : Nat) : BitVec 32 := BitVec.ofNat 32 (((sums.getD b none).map Prod.fst).getD 0)

/-- The first n blocks of an output put into BPF. -/
def putBlocks (i c : Nat) (sums : List (Option (Nat × Flags))) (n : Nat) (m : Matrix) : Matrix :=
  (List.range n).foldl (fun (m : Matrix) b => { m with bpf := sset m.bpf (accKey i c * 8 + b) (blockWord sums b) }) m

theorem putBlocks_frame (i c : Nat) (sums : List (Option (Nat × Flags))) (n : Nat) (m : Matrix) :
    putBlocks i c sums n m = { m with bpf := (putBlocks i c sums n m).bpf } := by
  induction n with
  | zero => rfl
  | succ n ih =>
    rw [putBlocks, List.range_succ, List.foldl_append, ← putBlocks, ih]
    rfl

theorem putBlocks_bpfLive (i c : Nat) (sums : List (Option (Nat × Flags))) (n : Nat) (m : Matrix) :
    (putBlocks i c sums n m).bpfLive = m.bpfLive := by
  rw [putBlocks_frame]

theorem putBlocks_bpf {i c n : Nat} (sums : List (Option (Nat × Flags))) (m : Matrix) (hn : n ≤ 8) (hc : c < 96) {r d k : Nat} (hd : d < 96)
    (hk : k < 8) : sget (putBlocks i c sums n m).bpf (accKey r d * 8 + k) =
      if r = i ∧ d = c ∧ k < n then blockWord sums k else sget m.bpf (accKey r d * 8 + k) := by
  induction n with
  | zero => exact (if_neg (by omega)).symm
  | succ n ih =>
    rw [putBlocks, List.range_succ, List.foldl_append, ← putBlocks]
    refine (sget_sset ..).trans ?_
    rw [ih (by omega)]
    have key : accKey r d * 8 + k = accKey i c * 8 + n ↔ r = i ∧ d = c ∧ k = n := by
      have := accKey_inj (r := r) (r' := i) hd hc
      omega
    by_cases h : r = i ∧ d = c ∧ k = n
    · rw [if_pos (key.2 h), if_pos (by omega), h.2.2]
    · rw [if_neg (mt key.1 h)]
      exact if_congr (by omega) rfl rfl

theorem mmbOut_fst (k i c : Nat) (sums : List (Option (Nat × Flags))) (m : Matrix) : (mmbOut k i c sums m).1 =
    { putBlocks i c sums ((k + 31) / 32) m with
      bpfLive := sset (putBlocks i c sums ((k + 31) / 32) m).bpfLive (accKey i c) (if sums.any Option.isSome then 1 else 0) } := rfl

theorem mmbOut_onlyBpf (k i c : Nat) (sums : List (Option (Nat × Flags))) (m : Matrix) : onlyBpf m (mmbOut k i c sums m).1 := by
  rw [mmbOut_fst, putBlocks_frame]
  rfl

/-! ### Rows -/

/-- Block q of the output of a row and a column; none for an absent row, a masked pair, and where no lane is present. -/
def mmbSum (sat : Bool) (mask : MaskMode) (f : Fmt) (b : Bank) (k : Nat) (a : Option Row) (c q : Nat) : Option (Nat × Flags) :=
  a.bind fun a => if unmasked mask a.tag (b.tag c) then blockSum sat f b.fmt a.lanes (b.lane c) k q else none

/-- All blocks of it. -/
def mmbSums (sat : Bool) (mask : MaskMode) (f : Fmt) (b : Bank) (k : Nat) (a : Option Row) (c : Nat) : List (Option (Nat × Flags)) :=
  (List.range ((k + 31) / 32)).map (mmbSum sat mask f b k a c)

section
variable {sat : Bool} {mask : MaskMode} {f : Fmt} {b : Bank} {k : Nat}

theorem mmbSums_getD {a : Option Row} {c q : Nat} (h : q < (k + 31) / 32) :
    (mmbSums sat mask f b k a c).getD q none = mmbSum sat mask f b k a c q := by
  simp [mmbSums, h]

theorem mmbSums_any {a : Option Row} {c : Nat} : (mmbSums sat mask f b k a c).any Option.isSome = true ↔
    ∃ q, q < (k + 31) / 32 ∧ (mmbSum sat mask f b k a c q).isSome = true := by
  simp [mmbSums]

theorem blockWord_mmbSums {a : Option Row} {c q : Nat} (h : q < (k + 31) / 32) :
    (blockWord (mmbSums sat mask f b k a c) q).toNat = (((mmbSum sat mask f b k a c q).map Prod.fst).getD 0) % 2 ^ 32 := by
  rw [blockWord, mmbSums_getD h, BitVec.toNat_ofNat]

theorem mmbSum_some (a : Row) (c q : Nat) : mmbSum sat mask f b k (some a) c q =
    if unmasked mask a.tag (b.tag c) = true then blockSum sat f b.fmt a.lanes (b.lane c) k q else none := rfl

/-- An absent row has no sums. -/
theorem mmbSums_any_none (c : Nat) : (mmbSums sat mask f b k none c).any Option.isSome = false := by
  simp [mmbSums, mmbSum]

/-- A row has a sum where the pair is not masked and a lane is present in some block. -/
theorem mmbSums_any_some (a : Row) (c : Nat) : (mmbSums sat mask f b k (some a) c).any Option.isSome = true ↔
    unmasked mask a.tag (b.tag c) = true ∧ ∃ q, q < (k + 31) / 32 ∧ (blockSum sat f b.fmt a.lanes (b.lane c) k q).isSome = true := by
  rw [mmbSums_any]
  by_cases h : unmasked mask a.tag (b.tag c) = true <;> simp [mmbSum_some, h]

/-- Columns of a row of A taken one after another. -/
def mmbColumns (sat : Bool) (mask : MaskMode) (f : Fmt) (b : Bank) (k i : Nat) (a : Option Row) (n : Nat) (m : Matrix) : Matrix :=
  (List.range n).foldl (fun m c => (mmbOut k i c (mmbSums sat mask f b k a c) m).1) m

theorem mmbRow_fst (i : Nat) (a : Option Row) (m : Matrix) :
    (mmbRow sat mask f b k i a m).1 = mmbColumns sat mask f b k i a b.n m := by
  have fold (l : List Nat) (x : Matrix × Flags) : (l.foldl (fun (m, fl) c =>
        ((mmbOut k i c (mmbSums sat mask f b k a c) m).1, fl ||| (mmbOut k i c (mmbSums sat mask f b k a c) m).2)) x).1 =
      l.foldl (fun m c => (mmbOut k i c (mmbSums sat mask f b k a c) m).1) x.1 := by
    induction l generalizing x with
    | nil => rfl
    | cons c l ih => exact ih _
  cases a <;> exact fold (List.range b.n) (m, 0)

/-- What the first n columns of a row leave in BPF. -/
theorem mmbColumns_cells (hk : k ≤ 256) (i : Nat) (a : Option Row) {n : Nat} (hn : n ≤ 96) (m : Matrix) :
    onlyBpf m (mmbColumns sat mask f b k i a n m) ∧ ∀ r c, c < 96 →
      (∀ q, q < 8 → sget (mmbColumns sat mask f b k i a n m).bpf (accKey r c * 8 + q) =
        if r = i ∧ c < n ∧ q < (k + 31) / 32 then blockWord (mmbSums sat mask f b k a c) q else sget m.bpf (accKey r c * 8 + q)) ∧
      sget (mmbColumns sat mask f b k i a n m).bpfLive (accKey r c) =
        if r = i ∧ c < n then (if (mmbSums sat mask f b k a c).any Option.isSome then 1 else 0) else sget m.bpfLive (accKey r c) := by
  induction n with
  | zero => exact ⟨rfl, fun r c _ => ⟨fun q _ => (if_neg (by omega)).symm, (if_neg (by omega)).symm⟩⟩
  | succ n ih =>
    obtain ⟨frame, cells⟩ := ih (by omega)
    rw [mmbColumns, List.range_succ, List.foldl_append, ← mmbColumns]
    refine ⟨frame.trans (mmbOut_onlyBpf ..), fun r c hc => ?_⟩
    obtain ⟨bpf, live⟩ := cells r c hc
    rw [List.foldl_cons, List.foldl_nil, mmbOut_fst]
    constructor
    · intro q hq
      rw [putBlocks_bpf _ _ (by omega) (by omega) hc hq, bpf q hq]
      by_cases h : r = i ∧ c = n ∧ q < (k + 31) / 32
      · rw [if_pos h, if_pos (by omega), h.2.1]
      · rw [if_neg h]
        exact if_congr (by omega) rfl rfl
    · simp only [sget_sset, accKey_inj hc (show n < 96 by omega), putBlocks_bpfLive, live]
      by_cases h : r = i ∧ c = n
      · rw [if_pos h, if_pos (show r = i ∧ c < n + 1 by omega), h.2]
      · rw [if_neg h]
        exact if_congr (by omega) rfl rfl

/-- What the rows of A from row i on leave in BPF. -/
theorem mmbRows_cells (hb : b.n ≤ 96) (hk : k ≤ 256) (i : Nat) (rows : List (Option Row)) (x : Matrix × Flags) :
    onlyBpf x.1 (mmbRows sat mask f b k i rows x).1 ∧ ∀ r c, c < 96 →
      (∀ q, q < 8 → sget (mmbRows sat mask f b k i rows x).1.bpf (accKey r c * 8 + q) =
        if (i ≤ r ∧ r < i + rows.length) ∧ c < b.n ∧ q < (k + 31) / 32 then
          blockWord (mmbSums sat mask f b k (rows.getD (r - i) none) c) q
        else sget x.1.bpf (accKey r c * 8 + q)) ∧
      sget (mmbRows sat mask f b k i rows x).1.bpfLive (accKey r c) =
        if (i ≤ r ∧ r < i + rows.length) ∧ c < b.n then
          (if (mmbSums sat mask f b k (rows.getD (r - i) none) c).any Option.isSome then 1 else 0)
        else sget x.1.bpfLive (accKey r c) := by
  induction rows generalizing i x with
  | nil =>
    refine ⟨rfl, fun r c _ => ⟨fun q _ => (if_neg ?_).symm, (if_neg ?_).symm⟩⟩ <;> simp only [List.length_nil] <;> omega
  | cons a l ih =>
    obtain ⟨rowFrame, row⟩ := mmbColumns_cells (sat := sat) (mask := mask) (f := f) (b := b) hk i a hb x.1
    rw [← mmbRow_fst] at rowFrame row
    obtain ⟨frame, cells⟩ := ih (i + 1) ((mmbRow sat mask f b k i a x.1).1, x.2 ||| (mmbRow sat mask f b k i a x.1).2)
    refine ⟨rowFrame.trans frame, fun r c hc => ?_⟩
    obtain ⟨bpf, live⟩ := row r c hc
    obtain ⟨bpfAfter, liveAfter⟩ := cells r c hc
    have first (h : r = i) : (a :: l).getD (r - i) none = a := by simp [h]
    have later (h : i + 1 ≤ r) : (a :: l).getD (r - i) none = l.getD (r - (i + 1)) none := by
      rw [show r - i = r - (i + 1) + 1 by omega, List.getD_cons_succ]
    rw [List.length_cons]
    by_cases h : r = i
    · rw [first h]
      refine ⟨fun q hq => (bpfAfter q hq).trans ((if_neg (by omega)).trans ((bpf q hq).trans ?_)),
        liveAfter.trans ((if_neg (by omega)).trans (live.trans ?_))⟩
      · exact if_congr (by omega) rfl rfl
      · exact if_congr (by omega) rfl rfl
    · have bpf (q : Nat) (hq : q < 8) := (bpf q hq).trans (if_neg fun g => h g.1)
      have live := live.trans (if_neg fun g => h g.1)
      by_cases hr : i + 1 ≤ r
      · rw [later hr]
        refine ⟨fun q hq => (bpfAfter q hq).trans (if_congr (by omega) rfl (bpf q hq)), liveAfter.trans (if_congr (by omega) rfl live)⟩
      · exact ⟨fun q hq => (bpfAfter q hq).trans ((if_neg (by omega)).trans ((bpf q hq).trans (if_neg (by omega)).symm)),
          liveAfter.trans ((if_neg (by omega)).trans (live.trans (if_neg (by omega)).symm))⟩

end

end Sys2Proof.Machine
end

section
/-! SUPPORT. An operation that stops at an access (07_queues.md R162, 15_traps.md R320): it leaves the array state as it was. -/

namespace Sys2Proof.Machine

/-! ### The job is left as it was -/

theorem ringSignal_job (s : State) (k : Nat) : (ringSignal s k).job = s.job := by
  unfold ringSignal
  dsimp only
  split <;> rfl

theorem ringWrite_job (s : State) (k : Nat) (e : BitVec 512) : (ringWrite s k e).job = s.job := ringSignal_job ..

theorem ringFlush_job (n : Nat) (s : State) (k : Nat) : (ringFlush n s k).job = s.job := by
  induction n generalizing s with
  | zero => rfl
  | succ n ih =>
    unfold ringFlush
    dsimp only
    split
    · rfl
    · split
      · exact (ih _).trans (ringWrite_job ..)
      · rfl

theorem tellContext_job (s : State) (asid : BitVec 16) (kind : Nat) (code : BitVec 8) (v : Word) :
    (tellContext s asid kind code v).job = s.job := by
  unfold tellContext
  split
  · rfl
  · exact ringFlush_job ..

theorem sendWaiting_job (s : State) : (sendWaiting s).job = s.job := by
  obtain ⟨t, outs, ⟨⟨_, _, _, rfl⟩, _⟩, h, _⟩ := sendWaiting_sent s
  rw [h]

theorem sendReq_job (s : State) (p : Party) (q : Request) : (sendReq s p q).job = s.job := by
  unfold sendReq
  split
  · exact sendWaiting_job _
  · dsimp only
    split
    · exact sendWaiting_job _
    · rfl

theorem postFault_job {s t : State} {r : FaultRec} (h : postFault s r = some t) : t.job = s.job := by
  unfold postFault at h
  dsimp only at h
  split at h
  · cases h
  · cases h; rfl

/-- The state of a verdict. -/
def Verdict.state : Verdict → State
  | .again s | .trap s _ _ | .dvorol s _ | .held s => s

/-- A verdict is found without the job. -/
theorem verdict_job (s : State) (p : Party) (x : Stop) : (verdict s p x).state.job = s.job := by
  cases x with
  | trap | denied | stall | mark => rfl
  | send q => exact sendReq_job ..
  | held r =>
    unfold verdict
    dsimp only
    split
    · rfl
    next h => exact postFault_job h
  | fault c v r =>
    unfold verdict
    dsimp only
    split
    · rfl
    next h =>
      split
      · exact postFault_job h
      · exact postFault_job h

/-! ### The array state -/

theorem updEng_matrix (j : Job) (e : Engine) (f : EngStream → EngStream) : (j.updEng e f).matrix = j.matrix := by cases e <;> rfl

theorem keepOp_matrix (s : State) (e : Engine) (f : IOp → IOp) : (keepOp s e f).job.matrix = s.job.matrix := updEng_matrix ..

theorem deliver_matrix (s : State) (id : Nat) (t : Trap) : (deliver s id t).job.matrix = s.job.matrix := by
  obtain h | h := updJob_focused s id (fun j => j.join s.clock t) fun _ => rfl
  · exact congrArg Job.matrix h
  · rw [deliver, h, Job.join]

theorem trapOp_matrix (s : State) (e : Engine) (c : Cause) (v : Word) (prog : Nat) : (trapOp s e c v prog).job.matrix = s.job.matrix :=
  (deliver_matrix ..).trans (updEng_matrix ..)

theorem haltOp_matrix (s : State) (e : Engine) (h : Halt) : (haltOp s e h).job.matrix = s.job.matrix := updEng_matrix ..

/-- A stop leaves the array as it was. -/
theorem stopOp_matrix (s : State) (e : Engine) (prog : Nat) (fl : Flags) (x : Stop) :
    (stopOp s e prog fl x).job.matrix = s.job.matrix := by
  have noted : (noteProgress s e prog fl).job.matrix = s.job.matrix := updEng_matrix ..
  have job := verdict_job (noteProgress s e prog fl) (engParty (noteProgress s e prog fl) e 0 (curOp (noteProgress s e prog fl).job e).sib) x
  have kept := (congrArg Job.matrix job).trans noted
  unfold stopOp
  dsimp only
  split
  next h => rw [h] at kept; exact (keepOp_matrix ..).trans kept
  next h => rw [h] at kept; exact (trapOp_matrix ..).trans kept
  next h => rw [h] at kept; exact (congrArg Job.matrix (tellContext_job ..)).trans ((haltOp_matrix ..).trans kept)
  next h => rw [h] at kept; exact (haltOp_matrix ..).trans kept

end Sys2Proof.Machine
end

section
/-! SUPPORT. A turn of a pass over rows of A (09_matrix.md R218, R226), and of a row of MMAD (R225). -/

namespace Sys2Proof.Machine

/-! ### Checks -/

theorem firstFault_eq_none {a b : Option (Cause × Word)} : firstFault a b = none ↔ a = none ∧ b = none := by
  cases a <;> simp [firstFault]

theorem limits_eq_none {l : List (Nat × Nat)} : limits l = none ↔ ∀ q ∈ l, q.1 ≤ q.2 := by
  simp [limits]

theorem laneLimit_le (f : Fmt) (nm : Bool) : laneLimit f nm ≤ 256 := by
  cases f <;> cases nm <;> decide

theorem bankCheck_lanes {b : Bank} {pair : Fmt → Fmt → Bool} {f : Fmt} {k : Nat} (h : bankCheck b pair f k = none) : k ≤ 256 := by
  unfold bankCheck at h
  cases hl : limits [(k, laneLimit f b.nm), (k, b.k)] with
  | none => exact (limits_eq_none.1 hl _ List.mem_cons_self).trans (laneLimit_le ..)
  | some e => rw [hl] at h; cases h

/-- A block of MMB has at most 32 rows, and 256 lanes. -/
theorem mxCheck_mmb {j : Job} {o : IOp} {x : MmbOp} (h : mxCheck j o (.mmb x) = none) : countOf o x.m ≤ 32 ∧ countOf o x.k ≤ 256 := by
  obtain ⟨_, h⟩ := firstFault_eq_none.1 h
  obtain ⟨rows, bank⟩ := firstFault_eq_none.1 h
  exact ⟨limits_eq_none.1 rows _ List.mem_cons_self, bankCheck_lanes bank⟩

theorem mxCheck_msa {j : Job} {o : IOp} {x : MsaOp} (h : mxCheck j o (.msa x) = none) : countOf o x.n ≤ 96 := by
  dsimp only [mxCheck] at h
  split at h
  · cases h
  split at h
  · cases h
  exact limits_eq_none.1 h (countOf o x.n, 96) (by simp)

/-- An operation of the array whose checks pass runs. -/
theorem mxRun_ok {i : Instr} {s : State} {k : IOp → State} (h : mxCheck s.job (curOp s.job .mx) i = none) :
    mxRun i s k = .next (k (curOp s.job .mx)) := by
  simp only [mxRun, h]

/-! ### One block of rows -/

theorem noFlags_or (fl : Flags) : 0 ||| fl = fl := BitVec.zero_or

theorem turnUnits_one {s : State} (h : s.units = 1) (n : Nat) : turnUnits s n = 1 := by simp [turnUnits, h]

/-- After a block of rows from row i on, of n in all: the pass has completed, or stands before the next block. -/
def afterRows (w : State) (n i : Nat) (fl : Flags) : State :=
  if n ≤ i + 32 then completeOp (takeReplies w (.eng w.job.id .mx)) .mx fl else noteProgress (takeReplies w (.eng w.job.id .mx)) .mx (i + 32) fl

section
variable {x : PassSource} {c : Cls} {m : Nat} {all : Bool} {run : Nat → List (Option Row) → Matrix → Matrix × Flags} {i : Nat} {s : State}

theorem rowBlocks_done (n : Nat) (fl : Flags) (h : m ≤ i ∨ x.k = 0) : rowBlocks x c m all run n i fl s = completeOp s .mx fl := by
  cases n <;> simp [rowBlocks, h]

theorem rowBlocks_one (hk : x.k ≠ 0) (hi : i < m) {rows : List (Option Row)} {f : Flags}
    (h : fetchRows (keepRowVecs s (engParty s .mx c) x all i (min 32 (m - i))) (engParty s .mx c)
      (curOp (keepRowVecs s (engParty s .mx c) x all i (min 32 (m - i))).job .mx) x all i (min 32 (m - i)) = .ok (rows, f)) :
    rowBlocks x c m all run 1 i 0 s = afterRows
      (putMatrix (keepRowVecs s (engParty s .mx c) x all i (min 32 (m - i))) (run i rows s.job.matrix).1) m i
      (f ||| (run i rows s.job.matrix).2) := by
  have kept : (keepRowVecs s (engParty s .mx c) x all i (min 32 (m - i))).job.matrix = s.job.matrix := keepOp_matrix ..
  simp only [rowBlocks, hk, Nat.not_le.2 hi, decide_false, Bool.or_self, Bool.false_eq_true, if_false, h, kept, Bool.or_false,
    decide_eq_true_eq, noFlags_or]
  rfl

theorem rowBlocks_stop (n : Nat) (hk : x.k ≠ 0) (hi : i < m) {e : Stop}
    (h : fetchRows (keepRowVecs s (engParty s .mx c) x all i (min 32 (m - i))) (engParty s .mx c)
      (curOp (keepRowVecs s (engParty s .mx c) x all i (min 32 (m - i))).job .mx) x all i (min 32 (m - i)) = .error e) :
    rowBlocks x c m all run (n + 1) i 0 s = stopOp (keepRowVecs s (engParty s .mx c) x all i (min 32 (m - i))) .mx i 0 e := by
  simp only [rowBlocks, hk, Nat.not_le.2 hi, decide_false, Bool.or_self, Bool.false_eq_true, if_false, h]

end

/-! ### A row of MMAD -/

theorem startedOp_mapStarted (f : IOp → IOp) (l : List PipeItem) :
    startedOp (mapStarted (fun o => [.started (f o)]) l) = (startedOp l).map f := by
  induction l with
  | nil => rfl
  | cons q l ih => cases q <;> first | rfl | exact ih

/-- The started operation of the array keeps what it is told to keep. -/
theorem startedOp_keepOp (s : State) (f : IOp → IOp) : startedOp (keepOp s .mx f).job.mx.pipe = (startedOp s.job.mx.pipe).map f :=
  startedOp_mapStarted ..

theorem curOp_keepOp {s : State} {o : IOp} (f : IOp → IOp) (h : startedOp s.job.mx.pipe = some o) :
    curOp (keepOp s .mx f).job .mx = f o := by
  have started : startedOp ((keepOp s .mx f).job.eng .mx).pipe = some (f o) := (startedOp_keepOp s f).trans (by rw [h]; rfl)
  simp [curOp, started]

/-- What an operation keeps is no byte of memory. -/
theorem sameBytes_keepOp {s t : State} (f : IOp → IOp) (h : sameBytes s t) : sameBytes s (keepOp t .mx f) := h

theorem sameBytes_keepRowVecs {s t : State} {p : Party} {q : PassSource} {all : Bool} {n l : Nat} (h : sameBytes s t) :
    sameBytes s (keepRowVecs t p q all n l) := sameBytes_keepOp _ h

section
variable {e : Engine} {prog : Nat → Nat} {k : Nat → State → Except Stop (State × Flags)} {pre : Nat → State → State}
  {u total : Nat} {s : State}

theorem unitLoop_done (q : Nat) (h : total ≤ u) (fl : Flags) : unitLoop e prog k pre (total - u) q u fl s = completeOp s e fl := by
  rw [Nat.sub_eq_zero_of_le h, unitLoop]

/-- A turn of one unit that is done. -/
theorem unitLoop_one (h : u < total) {w : State} {fl : Flags} (hk : k u (pre u s) = .ok (w, fl)) :
    unitLoop e (fun u => u) k pre (total - u) 1 u 0 s = afterUnit w e total u fl := by
  obtain ⟨n, hn⟩ : ∃ n, total - u = n + 1 := ⟨total - u - 1, by omega⟩
  rw [hn, unitLoop]
  simp only [hk, noFlags_or, afterUnit]
  cases n with
  | zero => rw [unitLoop, if_pos (by omega)]
  | succ n => rw [unitLoop, if_neg (by omega)]

/-- A unit that stops. -/
theorem unitLoop_stop (h : u < total) (q : Nat) {y : Stop} (hk : k u (pre u s) = .error y) :
    unitLoop e prog k pre (total - u) (q + 1) u 0 s = stopOp (pre u s) e (prog u) 0 y := by
  obtain ⟨n, hn⟩ : ∃ n, total - u = n + 1 := ⟨total - u - 1, by omega⟩
  rw [hn, unitLoop]
  simp only [hk]

end

/-- What an MMAD reads before a row stays with it. -/
theorem mmadKeep_rows {s : State} {x : MmadOp} {i : Nat} {o y : IOp} {f : Flags} (hs : startedOp s.job.mx.pipe = some o)
    (new : ((curOp s.job .mx).row (2 * i)).isSome = false)
    (h : mmadFetch (keepRowVecs (keepRowVecs s (mmadParty s x) (mmadSource (curOp s.job .mx) x x.ha x.af) false (i / 32 * 32)
      (min 32 (countOf (curOp s.job .mx) x.m - i / 32 * 32))) (mmadParty s x) (mmadSource (curOp s.job .mx) x x.hb x.bf) false 0
      (countOf (curOp s.job .mx) x.n)) x i = .ok (y, f)) :
    (curOp (mmadKeep x i s).job .mx).rows = y.rows ∧ (curOp (mmadKeep x i s).job .mx).start = y.start ∧ sameBytes s (mmadKeep x i s) := by
  have started {t : State} {q : PassSource} {n l : Nat} {all : Bool} (ht : ∃ o, startedOp t.job.mx.pipe = some o) :
      ∃ o, startedOp (keepRowVecs t (mmadParty s x) q all n l).job.mx.pipe = some o := by
    obtain ⟨o, ho⟩ := ht
    exact ⟨_, (startedOp_keepOp t _).trans (by rw [ho]; rfl)⟩
  obtain ⟨z, hz⟩ := started (q := mmadSource (curOp s.job .mx) x x.hb x.bf) (n := 0) (l := countOf (curOp s.job .mx) x.n) (all := false)
    (started (q := mmadSource (curOp s.job .mx) x x.ha x.af) (n := i / 32 * 32)
      (l := min 32 (countOf (curOp s.job .mx) x.m - i / 32 * 32)) (all := false) ⟨o, hs⟩)
  unfold mmadKeep
  simp only [new, Bool.false_eq_true, if_false, h]
  rw [curOp_keepOp _ hz]
  exact ⟨rfl, rfl, sameBytes_keepOp _ (sameBytes_keepRowVecs (sameBytes_keepRowVecs fun _ _ _ => rfl))⟩

/-- One output of MMAD: what its element of C becomes (R225). -/
theorem mmadOuts_one {s : State} {p : Party} {o : IOp} {x : MmadOp} {l i c v : Nat} {a b : Row} {e : Int} {got : Bool} {g : Flags}
    (h : elemAt s p o (opHandle o x.hc) { i0 := c, i1 := i, i2 := 0, i3 := 0 } = .ok (some e))
    (hv : (v, got, g) = mmadSteps x.hdr.sat x.af x.bf l (countOf o x.k) a.lanes b.lanes ((countOf o x.k + l - 1) / l) 0
      (if x.acc = true then o.startAt i c else 0, false, 0)) :
    ∃ fl, mmadOuts s p o x (opHandle o x.hc) l i a c [some b] = .ok ([(e, (convert (classFmt (x.af == .int8)) x.cf x.rm x.hdr.sat 0
      (if unmasked x.mask a.tag b.tag = true ∧ got = true then v else (Fill.bits x.fill).getD
        (if unmasked x.mask a.tag b.tag = true then v else if x.acc = true then o.startAt i c else 0))).1)], fl) := by
  simp only [mmadOuts, h, ← hv]
  by_cases hm : unmasked x.mask a.tag b.tag = true
  · cases got <;> simp [hm]
  · simp [hm]

end Sys2Proof.Machine
end

section
/-! SUPPORT. A turn of each pass of the array (09_matrix.md R218, R220 to R222, R225). -/

namespace Sys2Proof.Machine

/-! ### A turn -/

/-- A turn of MMA takes one block of rows. -/
theorem execMma_turn {x : MmaOp} {s : State} (hx : mxCheck s.job (curOp s.job .mx) (.mma x) = none) (units : s.units = 1) :
    exec (.mma x) s = .next (rowBlocks (mmaSource s.job (curOp s.job .mx) x) x.hdr.cls (countOf (curOp s.job .mx) x.m) false
      (fun i rows m => mmaRows x.hdr.sat x.mask x.fmt (bankOf s.job x.bank) (countOf (curOp s.job .mx) x.k) (x.base.val + i) rows (m, 0)) 1
      ((curOp s.job .mx).prog / 32 * 32) 0 s) := by
  show execMma x s = _
  rw [execMma, mxRun_ok hx, turnUnits_one units]

theorem turnUnits_putMatrix (s : State) (m : Matrix) (n : Nat) : turnUnits (putMatrix s m) n = turnUnits s n := rfl

/-- A turn of MMB with lanes to take, in the partial sums of its own class. -/
theorem execMmb_turn {x : MmbOp} {s : State} (hx : mxCheck s.job (curOp s.job .mx) (.mmb x) = none) (units : s.units = 1)
    (hk : countOf (curOp s.job .mx) x.k ≠ 0) :
    exec (.mmb x) s = .next (rowBlocks (mmbSource s.job (curOp s.job .mx) x) x.hdr.cls (countOf (curOp s.job .mx) x.m) false
      (fun i rows m => mmbRows x.hdr.sat x.mask x.fmt (bankOf s.job x.bank) (countOf (curOp s.job .mx) x.k) i rows (m, 0)) 1
      ((curOp s.job .mx).prog / 32 * 32) 0 (putMatrix s { s.job.matrix with bpfInt := x.fmt == .mxint8 })) := by
  show execMmb x s = _
  rw [execMmb, mxRun_ok hx]
  dsimp only
  rw [if_neg hk, turnUnits_putMatrix, turnUnits_one units]

theorem execMmb_noLanes {x : MmbOp} {s : State} (hx : mxCheck s.job (curOp s.job .mx) (.mmb x) = none) (hk : countOf (curOp s.job .mx) x.k = 0) :
    exec (.mmb x) s = .next (completeOp s .mx 0) := by
  show execMmb x s = _
  rw [execMmb, mxRun_ok hx]
  dsimp only
  rw [if_pos hk, rowBlocks_done _ _ (Or.inr hk)]

/-- The outputs of MSA joined one after another: the array that they leave, with their flags. -/
def msaRun (x : MsaOp) (o : IOp) (j : Job) (nb : Nat) : Matrix × Flags :=
  (msaCells x.base.val (countOf o x.m) (countOf o x.n)).foldl (cellStep (msaRule x.hdr.sat x.base.val nb
    (fun i b => regByte j x.ra (i * nb + b)) (fun c b => regByte j x.rb (c * nb + b)))) (j.matrix, 0)

theorem execMsa_run {x : MsaOp} {s : State} (hx : mxCheck s.job (curOp s.job .mx) (.msa x) = none) {r : Matrix × Flags}
    (hr : r = msaRun x (curOp s.job .mx) s.job ((countOf (curOp s.job .mx) x.k + 31) / 32)) :
    exec (.msa x) s = .next (completeOp (putMatrix s r.1) .mx r.2) := by
  show execMsa x s = _
  rw [hr, execMsa, mxRun_ok hx, msaRun, msaCells, List.foldl_map]
  refine congrArg (fun y : Matrix × Flags => (.next (completeOp (putMatrix s y.1) .mx y.2) : Result)) (?_ : List.foldl _ _ _ = List.foldl _ _ _)
  refine congrArg (fun g => List.foldl g _ _) (funext fun y => funext fun q => ?_)
  by_cases h : sget y.1.bpfLive (accKey q.1 q.2) = 1
  · simp only [cellStep, msaRule, Nat.add_sub_cancel_left, h, if_true]
  · simp only [cellStep, msaRule, Nat.add_sub_cancel_left, h, if_false]

/-- A turn of MMAD takes one row. -/
theorem execMmad_turn {x : MmadOp} {s : State} (hx : mxCheck s.job (curOp s.job .mx) (.mmad x) = none) (units : s.units = 1) :
    exec (.mmad x) s = .next (unitLoop .mx (fun u => u) (mmadRow (curOp s.job .mx) x) (mmadKeep x)
      (countOf (curOp s.job .mx) x.m - (curOp s.job .mx).prog) 1 (curOp s.job .mx).prog 0 s) := by
  show execMmad x s = _
  rw [execMmad, mxRun_ok hx]
  dsimp only
  rw [turnUnits_one units]

/-! ### What a turn leaves in a cell -/

section
variable {sat : Bool} {mask : MaskMode} {f : Fmt} {b : Bank} {k i : Nat} {rows : List (Option Row)} {m : Matrix} {r c : Nat}

theorem rowsRule_absent (h : rows[r - i]?.join = none) : rowsRule sat mask f b k i rows m r c = none := by
  rw [rowsRule, h, Option.bind_none, ite_self]

theorem rowsRule_present {a : Row} (h : rows[r - i]? = some (some a)) : rowsRule sat mask f b k i rows m r c =
    if i ≤ r ∧ c < b.n ∧ unmasked mask a.tag (b.tag c) = true then stepAcc sat f b.fmt (m.accAt r c) a.lanes (b.lane c) 0 k else none := by
  rw [rowsRule, h, Option.join_some, Option.bind_some, mmaRule, ← ite_and]
  exact if_congr and_assoc rfl rfl

theorem rowsRule_isSome {a : Row} (h : rows[r - i]? = some (some a)) : (rowsRule sat mask f b k i rows m r c).isSome = true ↔
    i ≤ r ∧ c < b.n ∧ unmasked mask a.tag (b.tag c) = true ∧ (stepAcc sat f b.fmt (m.accAt r c) a.lanes (b.lane c) 0 k).isSome = true := by
  rw [rowsRule_present h]
  split_ifs with taken
  · simp only [taken, true_and]
  · exact ⟨nofun, fun g => absurd ⟨g.1, g.2.1, g.2.2.1⟩ taken⟩

end

theorem ruleAcc_none {g : CellRule} {m : Matrix} {r c : Nat} (h : g m r c = none) : ruleAcc g m r c = m.accAt r c := by
  rw [ruleAcc, h]; rfl

theorem ruleLive_none {g : CellRule} {m : Matrix} {r c : Nat} (h : g m r c = none) : ruleLive g m r c = sget m.live (accKey r c) := by
  rw [ruleLive, h]; rfl

/-- MSA leaves every cell as its rule says, or as it was. -/
theorem msaRun_cells {x : MsaOp} {o : IOp} {j : Job} {nb : Nat} (hn : countOf o x.n ≤ 96) :
    onlyAcc j.matrix (msaRun x o j nb).1 ∧ ∀ r c, c < 96 →
      (msaRun x o j nb).1.accAt r c =
        (if x.base.val ≤ r ∧ r < x.base.val + countOf o x.m ∧ c < countOf o x.n ∧ sget j.matrix.bpfLive (accKey (r - x.base.val) c) = 1 then
          (msaOut x.hdr.sat j.matrix (r - x.base.val) c (fun b => regByte j x.ra ((r - x.base.val) * nb + b))
            (fun b => regByte j x.rb (c * nb + b)) nb (j.matrix.accAt r c)).1 % 2 ^ 32
        else j.matrix.accAt r c) ∧
      sget (msaRun x o j nb).1.live (accKey r c) =
        if x.base.val ≤ r ∧ r < x.base.val + countOf o x.m ∧ c < countOf o x.n ∧ sget j.matrix.bpfLive (accKey (r - x.base.val) c) = 1 then 1
        else sget j.matrix.live (accKey r c) := by
  obtain ⟨frame, cells⟩ := foldl_cellStep (msaRule_local x.hdr.sat x.base.val nb (fun i b => regByte j x.ra (i * nb + b))
    (fun c b => regByte j x.rb (c * nb + b))) _ (msaCells_nodup x.base.val (countOf o x.m) (countOf o x.n))
    (fun q hq => (mem_msaCells.1 hq).2.2.trans_le hn) (j.matrix, 0)
  refine ⟨frame, fun r c hc => ?_⟩
  obtain ⟨acc, live⟩ := cells r c hc
  refine ⟨acc.trans ?_, live.trans ?_⟩ <;>
    by_cases out : sget j.matrix.bpfLive (accKey (r - x.base.val) c) = 1 <;>
    simp only [mem_msaCells, ruleAcc, ruleLive, msaRule, out, if_true, if_false, and_true, and_false, ite_self, Option.map_some, Option.map_none,
      Option.getD_some, Option.getD_none, Option.isSome_some, Option.isSome_none, Bool.false_eq_true]

end Sys2Proof.Machine
end

section
/-! SUPPORT. 09_matrix.md R220 to R222, R225: the passes. -/

namespace Sys2Proof.Machine

/-- Settles O52: a turn of each pass is one block, or row, of its rows, and each cell is left as the rule of its output says. -/
theorem matrixPasses : Obligations.MatrixPasses := by
  intro s o m after ho hm units hafter
  subst ho hm hafter
  refine ⟨?mma, ?mmb, ?msa, ?mmad⟩
  case mma =>
    intro x h b src i v rows f hx hh hb hsrc hi
    subst hh hb hsrc hi
    rw [execMma_turn hx units]
    refine ⟨fun h => congrArg _ (rowBlocks_done _ _ h.symm), fun hk hi hn hv hrows => ?_, fun e hk hi hv he => ?_⟩
    · subst hv
      obtain ⟨frame, cells⟩ := mmaRows_cells (sat := x.hdr.sat) (mask := x.mask) (f := x.fmt) (k := countOf (curOp s.job .mx) x.k) hn
        (x.base.val + (curOp s.job .mx).prog / 32 * 32) rows (s.job.matrix, 0)
      refine ⟨_, _, congrArg _ (rowBlocks_one hk hi hrows), frame, fun r c hc => (cells r c hc).1.trans ?_,
        fun r c hc => (cells r c hc).2.trans ?_⟩
      · rcases hr : rows[r - (x.base.val + (curOp s.job .mx).prog / 32 * 32)]? with _ | _ | a
        · exact ruleAcc_none (rowsRule_absent (by rw [hr]; rfl))
        · exact ruleAcc_none (rowsRule_absent (by rw [hr]; rfl))
        · rw [ruleAcc, rowsRule_present hr]
          dsimp only
          split_ifs
          · cases stepAcc x.hdr.sat x.fmt (bankOf s.job x.bank).fmt (s.job.matrix.accAt r c) a.lanes ((bankOf s.job x.bank).lane c) 0
              (countOf (curOp s.job .mx) x.k) <;> rfl
          · rfl
      · rcases hr : rows[r - (x.base.val + (curOp s.job .mx).prog / 32 * 32)]? with _ | _ | a
        · exact ruleLive_none (rowsRule_absent (by rw [hr]; rfl))
        · exact ruleLive_none (rowsRule_absent (by rw [hr]; rfl))
        · exact if_congr (rowsRule_isSome hr) rfl rfl
    · subst hv
      exact ⟨congrArg _ (rowBlocks_stop 0 hk hi he), (stopOp_matrix ..).trans (keepOp_matrix ..)⟩
  case mmb =>
    intro x h b src v rows f hx hh hb hsrc
    subst hh hb hsrc
    obtain ⟨hm, hlanes⟩ := mxCheck_mmb hx
    refine ⟨execMmb_noLanes hx, fun hk hprog hpos hn hv hrows => ?_, fun e i n hi hn hk him hv he => ?_⟩
    · subst hv
      obtain ⟨frame, cells⟩ := mmbRows_cells (sat := x.hdr.sat) (mask := x.mask) (f := x.fmt) hn hlanes 0 rows
        ({ s.job.matrix with bpfInt := x.fmt == .mxint8 }, 0)
      have all : min 32 (countOf (curOp s.job .mx) x.m - 0) = countOf (curOp s.job .mx) x.m := Nat.min_eq_right hm
      rw [← all] at hrows
      rw [execMmb_turn hx units hk, hprog]
      obtain ⟨acc, live, bank0, bank1, int⟩ := onlyBpf.fields frame
      have row (r : Nat) : rows.getD (r - 0) none = rows[r]?.getD none := List.getD_eq_getElem?_getD
      refine ⟨_, _, congrArg _ ((rowBlocks_one hk hpos hrows).trans (by rw [all]; rfl)), acc, live, bank0, bank1, int ▸ beq_iff_eq,
        fun r c hc => (cells r c hc).2.trans (if_congr (by omega) ?_ rfl),
        fun r c q hc hq out => ((cells r c hc).1 q hq).trans (if_neg (by omega)), fun r c q hr hc hq => ?_⟩
      · rw [row]
        rcases rows[r]? with _ | _ | a
        · exact if_neg (by rw [Option.getD_none, mmbSums_any_none]; decide)
        · exact if_neg (by rw [Option.getD_some, mmbSums_any_none]; decide)
        · exact if_congr (mmbSums_any_some a c) rfl rfl
      · rw [(cells r c (by omega)).1 q (by omega), if_pos (by omega), row, blockWord_mmbSums hq]
        rcases rows[r]? with _ | _ | a
        · rfl
        · rfl
        · rw [Option.getD_some, mmbSum_some]
          dsimp only
          split_ifs <;> rfl
    · subst hv hi hn
      rw [execMmb_turn hx units hk]
      exact ⟨congrArg _ (rowBlocks_stop 0 hk him he), (stopOp_matrix ..).trans (keepOp_matrix ..)⟩
  case msa =>
    intro x nb hx hnb
    subst hnb
    obtain ⟨frame, cells⟩ := msaRun_cells (mxCheck_msa hx)
    exact ⟨_, _, execMsa_run hx rfl, frame, fun r c hc => (cells r c hc).1, fun r c hc => (cells r c hc).2⟩
  case mmad =>
    intro x hx
    rw [execMmad_turn hx units]
    refine ⟨fun h => congrArg _ (unitLoop_done _ h _), fun h => ⟨fun w fl hw => congrArg _ (unitLoop_one h hw),
      fun e he => congrArg _ (unitLoop_stop h 0 he), fun y f new hy hs => mmadKeep_rows hs new hy⟩, ?_⟩
    intro p l i a b c e v got g st he _ hst hv
    subst hst
    exact mmadOuts_one he hv

end Sys2Proof.Machine
end

section
/-! SUPPORT. The fields of words, patterns and records (03_encodings.md R43, R50): what a field holds of bits that are joined, and the codes of
the operand types. -/

namespace Sys2Proof

/-! ### A field of joined bits -/

section
variable {m n s l : Nat} (x : BitVec m) (y : BitVec n)

@[simp] theorem bits_append_low (h : s + l ≤ n) : bits (HAppend.hAppend (γ := no_index (BitVec (m + n))) x y) s l = bits y s l :=
  BitVec.extractLsb'_append_eq_of_add_le h

@[simp] theorem bits_append_high (h : n ≤ s) : bits (HAppend.hAppend (γ := no_index (BitVec (m + n))) x y) s l = bits x (s - n) l :=
  BitVec.extractLsb'_append_eq_of_le h

@[simp] theorem bits_all : bits x 0 m = x := BitVec.extractLsb'_eq_self

@[simp] theorem isZero_append_low (h : s + l ≤ n) : isZero (HAppend.hAppend (γ := no_index (BitVec (m + n))) x y) s l = isZero y s l := by
  rw [isZero, bits_append_low x y h, isZero]

@[simp] theorem isZero_append_high (h : n ≤ s) : isZero (HAppend.hAppend (γ := no_index (BitVec (m + n))) x y) s l = isZero x (s - n) l := by
  rw [isZero, bits_append_high x y h, isZero]

theorem isZero_iff : isZero x s l = true ↔ ∀ k, k < l → x.getLsbD (s + k) = false := by
  rw [isZero, beq_iff_eq, BitVec.eq_of_getLsbD_eq_iff]
  simp +contextual [bits]

/-- A field over the seam of joined bits is zero where its two parts are. -/
@[simp] theorem isZero_append_seam (h : s < n) (g : n < s + l) :
    isZero (HAppend.hAppend (γ := no_index (BitVec (m + n))) x y) s l = (isZero y s (n - s) && isZero x 0 (s + l - n)) := by
  rw [Bool.eq_iff_iff, Bool.and_eq_true, isZero_iff, isZero_iff, isZero_iff]
  refine ⟨fun z => ⟨fun k hk => ?_, fun k hk => ?_⟩, fun ⟨low, high⟩ k hk => ?_⟩
  · have := z k (by omega)
    rwa [BitVec.getLsbD_append, if_pos (by omega)] at this
  · have := z (n - s + k) (by omega)
    rwa [BitVec.getLsbD_append, if_neg (by omega), show s + (n - s + k) - n = 0 + k by omega] at this
  · rw [BitVec.getLsbD_append]
    split
    · exact low k (by omega)
    · rw [show s + k - n = 0 + (s + k - n) by omega]
      exact high _ (by omega)

@[simp] theorem isZero_zero : isZero 0#m s l = true := by simp [isZero_iff]

@[simp] theorem bitAt_append_low {k : Nat} (h : k < n) : bitAt (HAppend.hAppend (γ := no_index (BitVec (m + n))) x y) k = bitAt y k := by
  rw [bitAt, BitVec.getLsbD_append, if_pos h, bitAt]

@[simp] theorem bitAt_append_high {k : Nat} (h : n ≤ k) : bitAt (HAppend.hAppend (γ := no_index (BitVec (m + n))) x y) k = bitAt x (k - n) := by
  rw [bitAt, BitVec.getLsbD_append, if_neg (Nat.not_lt.2 h), bitAt]

@[simp] theorem bitAt_zero {k : Nat} : bitAt 0#m k = false := BitVec.getLsbD_zero

@[simp] theorem bitAt_flag (b : Bool) : bitAt (flag b) 0 = b := by cases b <;> rfl

@[simp] theorem bitAt_one : bitAt 1#1 0 = true := rfl

@[simp] theorem isZero_flag (b : Bool) : isZero (flag b) 0 1 = !b := by cases b <;> rfl

end

/-! ### Codes -/

@[simp] theorem Scope.ofCode_code (p : Scope) : Scope.ofCode p.code = some p := by cases p <;> rfl

@[simp] theorem Size.ofCode_code (z : Size) : Size.ofCode z.code = z := by cases z <;> rfl

@[simp] theorem BarOp.ofCode_code (o : BarOp) : BarOp.ofCode o.code = some o := by
  obtain ⟨kind, i⟩ := o
  cases kind <;> simp [BarOp.ofCode, BarOp.code]

@[simp] theorem TubOp.ofCode_code (o : TubOp) : TubOp.ofCode o.code = some o := by simp [TubOp.ofCode, TubOp.code]

@[simp] theorem HField.ofCode_code (f : HField) : HField.ofCode f.code = some f := by cases f <;> rfl

@[simp] theorem CasOrd.ofCode_code (o : CasOrd) : CasOrd.ofCode o.code = some o := by cases o <;> rfl

@[simp] theorem Fmt.ofCode_code (f : Fmt) : Fmt.ofCode f.code = some f := by cases f <;> rfl

@[simp] theorem RMode.ofCode_code (r : RMode) : RMode.ofCode r.code = some r := by cases r <;> rfl

@[simp] theorem Poison.ofCode_code (p : Poison) : Poison.ofCode p.code = some p := by cases p <;> rfl

/-- The code of a reduction is read as eight bits with zeros before it. -/
@[simp] theorem ROp.ofCode_code (o : ROp) : ROp.ofCode (o.code.setWidth 8) = some o := by cases o <;> rfl

/-- The code of a reduction's format is read as eight bits with zeros before it. -/
@[simp] theorem RFmt.ofCode_code (f : RFmt) : RFmt.ofCode (f.code.setWidth 8) = some f := by cases f <;> rfl

@[simp] theorem VCond.ofCode_code (k : VCond) : VCond.ofCode k.code = k := by cases k <;> rfl

@[simp] theorem RedOp.ofCode_code (o : RedOp) : RedOp.ofCode o.code = o := by cases o <;> rfl

@[simp] theorem Prune.ofCode_code (p : Prune) : Prune.ofCode p.code = some p := by cases p <;> rfl

@[simp] theorem MaskMode.ofCode_code (k : MaskMode) : MaskMode.ofCode k.code = some k := by cases k <;> rfl

@[simp] theorem Fill.ofCode_code (f : Fill) : Fill.ofCode f.code f.value = some f := by cases f <;> rfl

@[simp] theorem TreeKind.ofCode_code (k : TreeKind) : TreeKind.ofCode k.code = some k := by
  cases k <;> simp [-BitVec.reduceAppend, TreeKind.ofCode, TreeKind.code]

@[simp] theorem RegSlot.ofCode_code (r : RegSlot) : RegSlot.ofCode r.code = some r := by
  cases r <;> simp [-BitVec.reduceAppend, RegSlot.ofCode, RegSlot.code]

@[simp] theorem Count.ofCode_code (c : Count) : Count.ofCode c.code = some c := by
  cases c <;> simp [-BitVec.reduceAppend, Count.ofCode, Count.code]

@[simp] theorem Plane.ofCode_code (p : Plane) : Plane.ofCode p.code = some p := by
  cases p <;> simp [-BitVec.reduceAppend, Plane.ofCode, Plane.code]

end Sys2Proof
end

section
/-! SUPPORT. Control-core words (03_encodings.md R43 to R49): the word of an instruction decodes to it. -/

namespace Sys2Proof

/-! ### Fields of the formats -/

section
variable {m : BitVec 7} {d a b : BitVec 5} {fn : BitVec 10} {op : BitVec 3} {c : Cls} {p : Scope}

theorem bits_major_encCR : bits (encCR m d a b fn) 25 7 = m := by simp [encCR]
theorem bits_fn_encCR : bits (encCR m d a b fn) 0 10 = fn := by simp [encCR]
theorem bits_low_encCR : bits (encCR m d a b fn) 0 3 = bits fn 0 3 := by simp [encCR]
theorem fieldD_encCR : fieldD (encCR m d a b fn) = d.toFin := by simp [encCR, fieldD]
theorem fieldA_encCR : fieldA (encCR m d a b fn) = a.toFin := by simp [encCR, fieldA]
theorem fieldB_encCR : fieldB (encCR m d a b fn) = b.toFin := by simp [encCR, fieldB]

theorem bits_major_encCI {i} : bits (encCI m d a i) 25 7 = m := by simp [encCI]
theorem bits_major_encCM {z o} : bits (encCM m d a c z o) 25 7 = m := by simp [encCM]
theorem bits_major_encCJ {i} : bits (encCJ m d i) 25 7 = m := by simp [encCJ]
theorem bits_major_encCS {fl o} : bits (encCS m d a fl o) 25 7 = m := by simp [encCS]
theorem bits_major_encCF {k z} : bits (encCF k p z) 25 7 = 0x2A := by simp [encCF]
theorem bits_kind_encCF {k z} : bits (encCF k p z) 4 2 = z := by simp [encCF]
theorem bits_mask_encCF {k z} : bits (encCF k p z) 9 16 = k := by simp [encCF]

theorem bits_major_encCA : bits (encCA m d a b op c p) 25 7 = m := by simp [encCA]
theorem bits_op_encCA : bits (encCA m d a b op c p) 7 3 = op := by simp [encCA]
theorem bits_cls_encCA : bits (encCA m d a b op c p) 3 4 = BitVec.ofFin c := by simp [encCA]
theorem ofCode_scope_encCA : Scope.ofCode (bits (encCA m d a b op c p) 0 3) = some p := by simp [encCA]
theorem fieldD_encCA : fieldD (encCA m d a b op c p) = d.toFin := by simp [encCA, fieldD]
theorem fieldA_encCA : fieldA (encCA m d a b op c p) = a.toFin := by simp [encCA, fieldA]
theorem fieldB_encCA : fieldB (encCA m d a b op c p) = b.toFin := by simp [encCA, fieldB]

end

/-! ### How a decoder comes to an instruction -/

/-- A word whose major is m decodes by the words of m, where these give a well-formed instruction. -/
theorem decodeControl_eq {v : Nat} {m : BitVec 7} {w : Word32} {i : Instr} (hm : bits w 25 7 = m) (ha : majorAssigned v m = true)
    (wf : i.wf = true) (hd : decodeMajor m w = some i) : decodeControl v w = i := by
  simp only [decodeControl, hm, ha, if_true, hd, admitted, wf]

theorem given_eq {c : Bool} {i j : Instr} (hc : c = true) (h : j = i) : given c j = some i := by rw [given, if_pos hc, h]

/-! ### The words -/

theorem decodeControl_encode {i : Instr} {w : Word32} (wf : i.wf = true) (h : encode i = some (.control w)) : decodeControl 3 w = i := by
  cases i
  case add | sub | mul | mulh | mulhu | div | divu | rem | remu | and | or | xor | shl | shr | sra | min | max | minu | maxu | slt | sltu
      | sel =>
    cases h
    refine decodeControl_eq bits_major_encCR rfl wf (?_ : decodeAlu _ = _)
    rw [decodeAlu, bits_fn_encCR, fieldD_encCR, fieldA_encCR, fieldB_encCR]
    rfl
  case clz | popc =>
    cases h
    refine decodeControl_eq bits_major_encCR rfl wf (?_ : decodeAlu _ = _)
    rw [decodeAlu, bits_fn_encCR, fieldD_encCR, fieldA_encCR]
    exact given_eq (by simp [encCR]) rfl
  case amoSwap | amoAdd | amoAnd | amoOr | amoXor | amoMin | amoMax | amoMaxu | amoaSwap | amoaAdd | amoaAnd | amoaOr | amoaXor | amoaMin
      | amoaMax | amoaMaxu | amolSwap | amolAdd | amolAnd | amolOr | amolXor | amolMin | amolMax | amolMaxu | amoalSwap | amoalAdd
      | amoalAnd | amoalOr | amoalXor | amoalMin | amoalMax | amoalMaxu =>
    cases h
    refine decodeControl_eq bits_major_encCA rfl wf (?_ : decodeAmo _ _ = _)
    rw [decodeAmo, ofCode_scope_encCA, bits_op_encCA, bits_cls_encCA, fieldD_encCA, fieldA_encCA, fieldB_encCA]
    rfl
  case popr | qcut | sets | gets | spa | spra | spf | sprst | specb | specc | speca | chain | cpyx | cwait | ixc | wrng | join | launch
      | yield | tfence | eret | esc | nop | cycle =>
    cases h
    refine decodeControl_eq bits_major_encCR rfl wf (given_eq ?_ ?_) <;>
      simp [-BitVec.reduceAppend, encCR, fieldD, fieldA, fieldB, reg5]
  case darnRank | darnCommit | darnStain | darnList | darnClear =>
    cases h
    refine decodeControl_eq bits_major_encCR rfl wf ((if_pos ?_).trans ?_)
    · simp [-BitVec.reduceAppend, encCR]
      all_goals decide
    · rw [bits_low_encCR, fieldD_encCR, fieldA_encCR]
      rfl
  case waitaEq | waitaNe =>
    cases h
    refine decodeControl_eq bits_major_encCR rfl wf (given_eq ?_ ?_) <;>
      simp [-BitVec.reduceAppend, encCR, fieldD, fieldA, fieldB, reg5]
  case push | ltrim | strt =>
    cases h
    refine decodeControl_eq bits_major_encCR rfl wf (given_eq ?_ ?_) <;>
      simp [-BitVec.reduceAppend, encCR, maskOf, EngMask.code, fieldA, reg5]
  case hset s | hget s =>
    cases h
    refine decodeControl_eq bits_major_encCR rfl wf (Option.bind_eq_some_iff.2 ⟨s, ?_, given_eq ?_ ?_⟩) <;>
      simp [-BitVec.reduceAppend, encCR, fieldD, fieldA, reg5]
  case addi | andi | ori | xori | slti | beq | bne | blt | bge | bltu | bgeu | jalr =>
    cases h
    refine decodeControl_eq bits_major_encCI rfl wf (congrArg some ?_)
    simp [encCI, fieldD, fieldA, reg5]
  case shli | shri | srai | trap | csrr | csrw =>
    cases h
    refine decodeControl_eq bits_major_encCI rfl wf (given_eq ?_ ?_) <;>
      simp [-BitVec.reduceAppend, encCI, fieldD, fieldA, reg5]
  case lih | lsh | jal =>
    cases h
    refine decodeControl_eq bits_major_encCJ rfl wf (congrArg some ?_)
    simp [encCJ, fieldD, reg5]
  case ld | ldu | st =>
    cases h
    refine decodeControl_eq bits_major_encCM rfl wf (congrArg some ?_)
    simp [encCM, fieldD, fieldA, reg5]
  case hld | hst =>
    cases h
    refine decodeControl_eq bits_major_encCM rfl wf (given_eq ?_ ?_) <;>
      simp [-BitVec.reduceAppend, encCM, fieldA, reg5]
  case lda p | stl p =>
    cases h
    refine decodeControl_eq bits_major_encCA rfl wf (Option.bind_eq_some_iff.2 ⟨p, ofCode_scope_encCA, given_eq ?_ ?_⟩) <;>
      simp [-BitVec.reduceAppend, encCA, fieldD, fieldA, reg5]
  case cas o c p =>
    cases h
    refine decodeControl_eq bits_major_encCA rfl wf (Option.bind_eq_some_iff.2 ⟨p, ofCode_scope_encCA,
      Option.bind_eq_some_iff.2 ⟨o, ?_, congrArg some ?_⟩⟩) <;>
      simp [encCA, fieldD, fieldA, fieldB, reg5]
  case fenceAcq p | fenceRel p | fenceFull p =>
    cases h
    refine decodeControl_eq bits_major_encCF rfl wf (Option.bind_eq_some_iff.2 ⟨p, ?_, (if_pos ?_).trans ?_⟩)
    · simp [encCF]
    · simp [-BitVec.reduceAppend, encCF]
    · rw [bits_kind_encCF, bits_mask_encCF]
      rfl
  case bari o | barx o | barw o | tubset o | tubarmOn o | tubarmOff o =>
    cases h
    refine decodeControl_eq bits_major_encCS rfl wf (Option.bind_eq_some_iff.2 ⟨o, ?_, given_eq ?_ ?_⟩) <;>
      simp [-BitVec.reduceAppend, encCS, fieldA, reg5]
  case barv o | barvBare o =>
    cases h
    refine decodeControl_eq bits_major_encCS rfl wf (Option.bind_eq_some_iff.2 ⟨o, ?_, ?_⟩) <;>
      simp [-BitVec.reduceAppend, given, encCS, fieldA, reg5]
  case mbs | mbr =>
    cases h
    refine decodeControl_eq bits_major_encCS rfl wf (given_eq ?_ ?_) <;>
      simp [-BitVec.reduceAppend, encCS, fieldD, fieldA, reg5]
  all_goals cases h
end Sys2Proof
end

section
/-! SUPPORT. Patch words (03_encodings.md R57 to R62): the word of an instruction decodes to it. -/

namespace Sys2Proof

section
variable {k : BitVec 2} {t : Toks} {p : Fin 64} {f : Fin 8} {v : BitVec 16}

theorem bits_kind_encPatch : bits (encPatch k t p f v) 30 2 = k := by simp [encPatch]
theorem toksOf_encPatch : toksOf (encPatch k t p f v) = t := by simp [encPatch, toksOf]
theorem noToks_encPatch : isZero (encPatch k { wf := false, wb := false, sf := false, sb := false } p f v) 26 4 = true := by simp [encPatch]
theorem noValue_encPatch : isZero (encPatch k t p f 0) 0 16 = true := by simp [encPatch]
theorem bits_slot_encPatch : bits (encPatch k t p f v) 20 6 = BitVec.ofFin p := by simp [encPatch]
theorem bitAt_encPatch : bitAt (encPatch k t p f v) 19 = false := by simp [encPatch]
theorem bits_field_encPatch : bits (encPatch k t p f v) 16 3 = BitVec.ofFin f := by simp [encPatch]
theorem bits_value_encPatch : bits (encPatch k t p f v) 0 16 = v := by simp [encPatch]

end

section
variable {code : BitVec 6} {v : BitVec 20}

theorem bits_kind_encCtrl : bits (encCtrl code v) 30 2 = 2 := by simp [-BitVec.reduceAppend, encCtrl]
theorem noToks_encCtrl : isZero (encCtrl code v) 26 4 = true := by simp [-BitVec.reduceAppend, encCtrl]
theorem bits_code_encCtrl : bits (encCtrl code v) 20 6 = code := by simp [encCtrl]
theorem bits_form_encCtrl : bits (encCtrl code v) 18 2 = bits v 18 2 := by simp [encCtrl]

/-- A CTRL word decodes by its form. -/
theorem decodePatch_ctrl {i : Instr} {u : Option Word32} (wf : i.wf = true) (h : decodeCtrl (encCtrl code v) = some i) :
    decodePatch (encCtrl code v) u = i := by
  rw [decodePatch, bits_kind_encCtrl, noToks_encCtrl, h]
  exact if_pos wf

end

theorem decodePatch_encode {i : Instr} {w : Word32} {u : Option Word32} (wf : i.wf = true) (h : encode i = some (.patch w u)) :
    decodePatch w u = i := by
  cases i
  case issue =>
    cases h
    rw [decodePatch, bits_kind_encPatch, toksOf_encPatch, bits_slot_encPatch, bitAt_encPatch, bits_field_encPatch, bits_value_encPatch]
    exact if_pos wf
  case amend =>
    cases h
    rw [decodePatch, bits_kind_encPatch, noToks_encPatch, bits_slot_encPatch, bitAt_encPatch, bits_field_encPatch, bits_value_encPatch]
    exact if_pos wf
  case wide =>
    cases h
    rw [decodePatch, bits_kind_encPatch, noValue_encPatch, toksOf_encPatch, bits_slot_encPatch, bitAt_encPatch, bits_field_encPatch]
    exact if_pos wf
  case loopImm s n =>
    cases h
    have form : bits (0#2 ++ (BitVec.ofFin s : BitVec 2) ++ n) 18 2 = 0 := by simp
    refine decodePatch_ctrl wf ?_
    rw [decodeCtrl, bits_code_encCtrl, bits_form_encCtrl, form]
    exact congrArg some (by simp [encCtrl])
  case loopReg s r =>
    cases h
    have form : bits (1#2 ++ (BitVec.ofFin s : BitVec 2) ++ 0#11 ++ (BitVec.ofFin r : BitVec 5)) 18 2 = 1 := by simp
    refine decodePatch_ctrl wf ?_
    rw [decodeCtrl, bits_code_encCtrl, bits_form_encCtrl, form]
    refine given_eq ?_ ?_ <;> simp [-BitVec.reduceAppend, encCtrl]
  case endl | stop | rdv | patl | toks | pred =>
    cases h
    refine decodePatch_ctrl wf ?_
    rw [decodeCtrl, bits_code_encCtrl]
    refine given_eq ?_ ?_ <;> simp [-BitVec.reduceAppend, encCtrl]
  case bwt o | bav o =>
    cases h
    refine decodePatch_ctrl wf ?_
    rw [decodeCtrl, bits_code_encCtrl]
    refine Option.bind_eq_some_iff.2 ⟨o, ?_, given_eq ?_ ?_⟩ <;> simp [-BitVec.reduceAppend, encCtrl]
  all_goals cases h

/-- Settles O56: the word of a well-formed instruction decodes to it. -/
theorem roundTripWords : Obligations.RoundTripWords := by
  intro i c wf he hk
  cases c with
  | control w => exact congrArg some (decodeControl_encode wf he)
  | patch w u => exact congrArg some (decodePatch_encode wf he)
  | pattern | record | block | desc => cases hk

end Sys2Proof
end

section
/-! SUPPORT. Patterns (03_encodings.md R50 to R55): the pattern of an operation decodes to it. -/

namespace Sys2Proof

/-! ### Fields of a pattern -/

section
variable {op : BitVec 8} {h : Hdr} {rel : Bool} {s6 s5 s4 s3 s2 s1 s0 : BitVec 16}

theorem bits_op_encPat : bits (encPat op h rel s6 s5 s4 s3 s2 s1 s0) 120 8 = op := by simp [encPat]
theorem hdrOf_encPat : hdrOf (encPat op h false s6 s5 s4 s3 s2 s1 s0) = some h := by simp [-BitVec.reduceAppend, encPat, hdrOf]
theorem slotOf_encPat_0 : slotOf (encPat op h rel s6 s5 s4 s3 s2 s1 s0) 0 = s0 := by simp [encPat, slotOf]
theorem slotOf_encPat_1 : slotOf (encPat op h rel s6 s5 s4 s3 s2 s1 s0) 1 = s1 := by simp [encPat, slotOf]
theorem slotOf_encPat_2 : slotOf (encPat op h rel s6 s5 s4 s3 s2 s1 s0) 2 = s2 := by simp [encPat, slotOf]
theorem slotOf_encPat_3 : slotOf (encPat op h rel s6 s5 s4 s3 s2 s1 s0) 3 = s3 := by simp [encPat, slotOf]
theorem slotOf_encPat_4 : slotOf (encPat op h rel s6 s5 s4 s3 s2 s1 s0) 4 = s4 := by simp [encPat, slotOf]
theorem slotOf_encPat_5 : slotOf (encPat op h rel s6 s5 s4 s3 s2 s1 s0) 5 = s5 := by simp [encPat, slotOf]
theorem slotOf_encPat_6 : slotOf (encPat op h rel s6 s5 s4 s3 s2 s1 s0) 6 = s6 := by simp [encPat, slotOf]

end

/-! ### The vector engine -/

/-- A VX operation whose slot 3 is m, as a pattern. -/
abbrev vxPattern (op : BitVec 8) (o : VOp) (m : BitVec 16) : Pattern :=
  encPat op o.hdr false o.rnd.code (o.df.code ++ o.sf.code ++ o.rm.code ++ 0#5) o.n.code m o.b.code o.a.code o.d.code

theorem decodeVOp_source (op : BitVec 8) (o : VOp) : decodeVOp (vxPattern op o o.c.code) false = some o := by
  rw [decodeVOp, hdrOf_encPat, slotOf_encPat_0, slotOf_encPat_1, slotOf_encPat_2, slotOf_encPat_3, slotOf_encPat_4, slotOf_encPat_6]
  simp [-BitVec.reduceAppend, encPat]

/-- An operation with a mode slot has no source c. -/
theorem decodeVOp_mode {o : VOp} (op : BitVec 8) (m : BitVec 16) (hc : o.c = .none) : decodeVOp (vxPattern op o m) true = some o := by
  rw [decodeVOp, hdrOf_encPat, slotOf_encPat_0, slotOf_encPat_1, slotOf_encPat_2, slotOf_encPat_4, slotOf_encPat_6]
  simp [-BitVec.reduceAppend, encPat, ← hc]

theorem VOp.c_none {o : VOp} {a b : VRole} {fmts rounds : Bool} (h : o.ok a b .unread fmts rounds = true) : o.c = .none := by
  simp only [VOp.ok, VRole.ok, Bool.and_eq_true, beq_iff_eq] at h
  exact h.1.1.2

theorem decodeVx_encode {i : Instr} {p : Pattern} (wf : i.wf = true) (h : encode i = some (.pattern .vx p)) : decodeVx p = some i := by
  cases i
  case vadd | vsub | vmul | vfma | vfms | vmax | vmin | vabs | vneg | vsel | vcvt | vscl | vexp2 | vlog2 | vrcp | vrsq | vsqrt | vdiv
      | viadd | visub | vimul | vand | vor | vxor | vshl | vshr | vsra | vimax | vimin | vmov =>
    cases h
    rw [decodeVx, bits_op_encPat, decodeVOp_source]
    rfl
  case vqnt | vdqnt | viota | vperm | vpack | vunpk | vpart | vrng | vgumb | vlut =>
    cases h
    rw [decodeVx, bits_op_encPat, slotOf_encPat_3, decodeVOp_mode _ _ (VOp.c_none wf)]
    rfl
  case vpost =>
    cases h
    rw [decodeVx, bits_op_encPat, slotOf_encPat_3, decodeVOp_mode _ _ (VOp.c_none (Bool.and_eq_true_iff.1 wf).1)]
    rfl
  case vcmp | vred | vsegr | vrank | vscan =>
    cases h
    rw [decodeVx, bits_op_encPat, slotOf_encPat_3, decodeVOp_mode _ _ (VOp.c_none wf)]
    exact (if_pos (by simp [-BitVec.reduceAppend])).trans (congrArg some (by simp))
  case vbc =>
    cases h
    rw [decodeVx, bits_op_encPat, slotOf_encPat_3, decodeVOp_mode _ _ (VOp.c_none wf), Count.ofCode_code]
    rfl
  case vprune q =>
    cases h
    have low : bits (0#8 ++ q.code) 0 8 = q.code := by simp
    rw [decodeVx, bits_op_encPat, slotOf_encPat_3, decodeVOp_mode _ _ (VOp.c_none wf), low, Prune.ofCode_code]
    exact if_pos (by simp)
  case vtree k n =>
    cases h
    have low : bits (0#4 ++ (BitVec.ofFin n : BitVec 4) ++ 0#3 ++ k.code) 0 5 = k.code := by simp
    rw [decodeVx, bits_op_encPat, slotOf_encPat_3, decodeVOp_mode _ _ (VOp.c_none wf), low, TreeKind.ofCode_code]
    exact (if_pos (by simp)).trans (congrArg some (by simp))
  all_goals cases h

end Sys2Proof
end

section
/-! SUPPORT. Patterns of the matrix array, and of the load and store engines (03_encodings.md R55, 06_registers.md R154, 09_matrix.md R216): the
pattern of an operation decodes to it. -/

namespace Sys2Proof

/-! ### The matrix array -/

/-- Two halves that lie side by side, read as one field. -/
theorem bits_append_halves {m : Nat} (x : BitVec m) (v : BitVec 32) :
    bits (x ++ bits v 16 16 ++ bits v 0 16) 0 32 = v := by
  ext k hk
  simp only [bits, BitVec.getElem_extractLsb', BitVec.getLsbD_append, BitVec.getLsbD_extractLsb', Nat.zero_add]
  by_cases low : k < 16
  · simp [low, BitVec.getLsbD_eq_getElem hk]
  · have high : k - 16 < 16 := by omega
    simp [low, high, show 16 + (k - 16) = k by omega, BitVec.getLsbD_eq_getElem hk]

/-- The value of a fill is slots 5 and 6 (R216). -/
theorem bits_fill_encPat {op : BitVec 8} {h : Hdr} {rel : Bool} {v : BitVec 32} {s4 s3 s2 s1 s0 : BitVec 16} :
    bits (encPat op h rel (bits v 16 16) (bits v 0 16) s4 s3 s2 s1 s0) 80 32 = v := by
  simpa [-BitVec.reduceAppend, encPat] using bits_append_halves _ v

theorem decodeMx_encode {i : Instr} {p : Pattern} (wf : i.wf = true) (h : encode i = some (.pattern .mx p)) : decodeMx p = some i := by
  cases i
  case mlb | mma | mmb =>
    cases h
    rw [decodeMx, bits_op_encPat, hdrOf_encPat, slotOf_encPat_1, slotOf_encPat_2, slotOf_encPat_3, slotOf_encPat_4, slotOf_encPat_6]
    simp [-BitVec.reduceAppend, encPat, given]
  case msa =>
    cases h
    rw [decodeMx, bits_op_encPat, hdrOf_encPat, slotOf_encPat_0, slotOf_encPat_1, slotOf_encPat_2, slotOf_encPat_3, slotOf_encPat_4, slotOf_encPat_6]
    simp [-BitVec.reduceAppend, encPat, given]
  case macz =>
    cases h
    rw [decodeMx, bits_op_encPat, hdrOf_encPat, slotOf_encPat_1]
    simp [-BitVec.reduceAppend, encPat, given]
  case macr =>
    cases h
    rw [decodeMx, bits_op_encPat, hdrOf_encPat, slotOf_encPat_0, slotOf_encPat_2, slotOf_encPat_3, bits_fill_encPat]
    simp [-BitVec.reduceAppend, encPat, given]
  case macw o =>
    cases h
    obtain ⟨_, fill⟩ := Bool.and_eq_true_iff.1 wf
    rw [decodeMx, bits_op_encPat, hdrOf_encPat, slotOf_encPat_0, slotOf_encPat_2, slotOf_encPat_3]
    simp [-BitVec.reduceAppend, encPat, given, ← beq_iff_eq.1 fill]
  case mmad =>
    cases h
    rw [decodeMx, bits_op_encPat, slotOf_encPat_1, slotOf_encPat_2, slotOf_encPat_3, bits_fill_encPat]
    simp [-BitVec.reduceAppend, encPat, given]
  all_goals cases h

/-! ### The load and store engines -/

/-- LDT, STT and STQ, as a pattern. -/
abbrev tilePattern (op : BitVec 8) (o : TileOp) : Pattern :=
  encPat op o.hdr false o.tc.code (encMode o.fr o.rm o.scales) o.tr.code o.col.code o.row.code (o.plane.code ++ (BitVec.ofFin o.h : BitVec 4))
    o.reg.code

/-- LDV, STV and LDB, whose slot 3 is q, as a pattern. -/
abbrev linPattern (op : BitVec 8) (o : LinOp) (q : BitVec 16) : Pattern :=
  encPat op o.hdr false 0 (encMode o.fr o.rm o.scales) o.n.code q o.start.code (0#12 ++ (BitVec.ofFin o.h : BitVec 4)) o.reg.code

/-- LDG, STS and STA, as a pattern. -/
abbrev idxPattern (op : BitVec 8) (o : IdxOp) : Pattern :=
  encPat op o.hdr false 0 (encMode o.fr o.rm o.scales) o.n.code 0 o.idx.code (0#12 ++ (BitVec.ofFin o.h : BitVec 4)) o.reg.code

theorem decodeTile_tilePattern (op : BitVec 8) (o : TileOp) : decodeTile (tilePattern op o) = some o := by
  rw [decodeTile, hdrOf_encPat, slotOf_encPat_0, slotOf_encPat_2, slotOf_encPat_3, slotOf_encPat_4, slotOf_encPat_6]
  simp [-BitVec.reduceAppend, encPat, encMode]

theorem decodeLin_linPattern {q : BitVec 16} {repeats : Bool} (op : BitVec 8) (o : LinOp) (hq : repeats = false → q = 0) :
    decodeLin (linPattern op o q) repeats = some o := by
  rw [decodeLin, hdrOf_encPat, slotOf_encPat_0, slotOf_encPat_2, slotOf_encPat_3, slotOf_encPat_4, slotOf_encPat_6]
  simpa [-BitVec.reduceAppend, encPat, encMode] using hq

theorem decodeIdx_idxPattern (op : BitVec 8) (o : IdxOp) : decodeIdx (idxPattern op o) = some o := by
  rw [decodeIdx, hdrOf_encPat, slotOf_encPat_0, slotOf_encPat_2, slotOf_encPat_3, slotOf_encPat_4, slotOf_encPat_6]
  simp [-BitVec.reduceAppend, encPat, encMode]

theorem decodeLd_encode {i : Instr} {p : Pattern} (h : encode i = some (.pattern .ld p)) : decodeLd p = some i := by
  cases i
  case ldt =>
    cases h
    rw [decodeLd, bits_op_encPat, decodeTile_tilePattern]
    rfl
  case ldv =>
    cases h
    rw [decodeLd, bits_op_encPat, decodeLin_linPattern _ _ fun _ => rfl]
    rfl
  case ldb =>
    cases h
    rw [decodeLd, bits_op_encPat, decodeLin_linPattern (repeats := true) _ _ nofun, slotOf_encPat_3, Count.ofCode_code]
    rfl
  case ldg =>
    cases h
    rw [decodeLd, bits_op_encPat, decodeIdx_idxPattern]
    rfl
  case ldz =>
    cases h
    rw [decodeLd, bits_op_encPat, hdrOf_encPat, slotOf_encPat_0, slotOf_encPat_2, slotOf_encPat_3, slotOf_encPat_4, slotOf_encPat_5, slotOf_encPat_6]
    simp [-BitVec.reduceAppend, encPat, given]
  all_goals cases h

theorem decodeSt_encode {i : Instr} {p : Pattern} (h : encode i = some (.pattern .st p)) : decodeSt p = some i := by
  cases i
  case stt | stq =>
    cases h
    rw [decodeSt, bits_op_encPat, decodeTile_tilePattern]
    rfl
  case stv =>
    cases h
    rw [decodeSt, bits_op_encPat, decodeLin_linPattern _ _ fun _ => rfl]
    rfl
  case sts | sta =>
    cases h
    rw [decodeSt, bits_op_encPat, decodeIdx_idxPattern]
    rfl
  all_goals cases h

/-! ### Every engine -/

theorem decodePattern_encode {i : Instr} {e : Engine} {p : Pattern} (wf : i.wf = true) (h : encode i = some (.pattern e p)) :
    decodePattern e p = some i := by
  refine Option.bind_eq_some_iff.2 ⟨i, ?_, if_pos wf⟩
  cases e with
  | ld => exact decodeLd_encode h
  | mx => exact decodeMx_encode wf h
  | vx => exact decodeVx_encode wf h
  | st => exact decodeSt_encode h

end Sys2Proof
end

section
/-! SUPPORT. Transfer records (12_copy_index.md R264 to R273): the record of a transfer decodes to it. -/

namespace Sys2Proof

/-! ### The completion barrier, a sync operand with an enable bit -/

/-- The sync operand of a completion barrier; zero where there is none. -/
abbrev barCode (bar : Option BarOp) : BitVec 9 := (bar.map BarOp.code).getD 0

theorem ofCode_barCode (bar : Option BarOp) : (if bar.isSome then BarOp.ofCode (barCode bar) else none) = bar := by
  cases bar <;> simp [barCode]

theorem barCode_valid (bar : Option BarOp) : (if bar.isSome then (BarOp.ofCode (barCode bar)).isSome else isZero (barCode bar) 0 9) = true := by
  cases bar <;> simp [barCode]

/-! ### Transfer records -/

section
variable {r : RecHead} {kind : BitVec 4} {body : BitVec 704}

theorem bits_kind_encRec : bits (encRec r kind body) 4 4 = kind := by simp [-BitVec.reduceAppend, encRec]

theorem bits_bar_encRec : bits (encRec r kind body) 21 9 = barCode r.bar := by simp [-BitVec.reduceAppend, encRec, barCode]
theorem isZero_bar_encRec : isZero (encRec r kind body) 21 9 = isZero (barCode r.bar) 0 9 := by simp [-BitVec.reduceAppend, encRec, barCode]
theorem bitAt_bar_encRec : bitAt (encRec r kind body) 20 = r.bar.isSome := by simp [-BitVec.reduceAppend, encRec]
theorem bits_scope_encRec : bits (encRec r kind body) 12 3 = r.scope.code := by simp [-BitVec.reduceAppend, encRec]
theorem bits_poison_encRec : bits (encRec r kind body) 16 2 = r.poison.code := by simp [-BitVec.reduceAppend, encRec]

theorem decodeRecHead_encRec : decodeRecHead (encRec r kind body) = some r := by
  rw [decodeRecHead, bits_scope_encRec, bits_poison_encRec, bits_bar_encRec, isZero_bar_encRec, bitAt_bar_encRec, Scope.ofCode_code,
    Poison.ofCode_code]
  refine (if_pos ?_).trans (congrArg some ?_)
  · rw [barCode_valid]
    simp [-BitVec.reduceAppend, encRec]
  · rw [ofCode_barCode]
    simp [-BitVec.reduceAppend, encRec]

theorem decodeWalk_encRec {w : Walk} {x : BitVec 48} : decodeWalk (encRec r kind (encWalk w x)) = some w := by
  simp [-BitVec.reduceAppend, decodeWalk, walkCtrOf, encRec, encWalk, encCtr]

end

/-- RED's mode, format and operation, in bytes 34 to 39 of its record (R269). -/
abbrev redMode (op : ROp) (fmt : RFmt) (rm : RMode) (sat : Bool) : BitVec 48 :=
  0#8 ++ (0#4 ++ flag sat ++ rm.code) ++ (0#4 ++ fmt.code) ++ (0#6 ++ op.code) ++ 0#16

section
variable {r : RecHead} {w : Walk} {op : ROp} {fmt : RFmt} {rm : RMode} {sat : Bool}

theorem ofCode_op_red : ROp.ofCode (bits (encRec r 2 (encWalk w (redMode op fmt rm sat))) 288 8) = some op := by
  have : bits (encRec r 2 (encWalk w (redMode op fmt rm sat))) 288 8 = 0#6 ++ op.code := by simp [-BitVec.reduceAppend, encRec, encWalk]
  rw [this]
  cases op <;> rfl

theorem ofCode_fmt_red : RFmt.ofCode (bits (encRec r 2 (encWalk w (redMode op fmt rm sat))) 296 8) = some fmt := by
  have : bits (encRec r 2 (encWalk w (redMode op fmt rm sat))) 296 8 = 0#4 ++ fmt.code := by simp [-BitVec.reduceAppend, encRec, encWalk]
  rw [this]
  cases fmt <;> rfl

theorem ofCode_mode_red : RMode.ofCode (bits (encRec r 2 (encWalk w (redMode op fmt rm sat))) 304 3) = some rm := by
  simp [-BitVec.reduceAppend, encRec, encWalk]

end

theorem decodeRecord_encode {i : Instr} {r : BitVec 1024} (wf : i.wf = true) (h : encode i = some (.record r)) : decodeRecord r = some i := by
  refine Option.bind_eq_some_iff.2 ⟨i, ?_, if_pos wf⟩
  cases i
  case aff =>
    cases h
    rw [decodeRecHead_encRec, bits_kind_encRec, decodeWalk_encRec]
    refine given_eq ?_ rfl
    simp [-BitVec.reduceAppend, encRec, encWalk]
  case red =>
    cases h
    rw [decodeRecHead_encRec, bits_kind_encRec, decodeWalk_encRec, ofCode_op_red, ofCode_fmt_red, ofCode_mode_red]
    refine given_eq ?_ ?_ <;> simp [-BitVec.reduceAppend, encRec, encWalk]
  case mcst | sig | pgt | skip =>
    cases h
    rw [decodeRecHead_encRec, bits_kind_encRec]
    refine given_eq ?_ ?_ <;> simp [-BitVec.reduceAppend, encRec]
  all_goals cases h

end Sys2Proof
end

section
/-! SUPPORT. Command blocks (12_copy_index.md R282): the block of an operation decodes to it. -/

namespace Sys2Proof

/-- A search for the first offence that finds none. -/
theorem ite_some_eq_none_iff {c : Prop} [Decidable c] {k : Nat} {x : Option Nat} : (if c then some k else x) = none ↔ ¬c ∧ x = none := by
  by_cases hc : c <;> simp [hc]

/-- A field of leading bits is zero where the value is small. -/
theorem isZero_high_iff {n k l : Nat} (x : BitVec n) (h : n = k + l) : isZero x k l = true ↔ x.toNat < 2 ^ k := by
  have := x.isLt
  rw [isZero, beq_iff_eq, ← BitVec.toNat_inj, bits, BitVec.extractLsb'_toNat, Nat.shiftRight_eq_div_pow, Nat.mod_eq_of_lt]
  · exact Nat.div_eq_zero_iff_lt (Nat.two_pow_pos k)
  · exact Nat.div_lt_of_lt_mul (by rwa [← Nat.pow_add, ← h])

/-- A field of trailing bits is zero where the value is a multiple. -/
theorem isZero_low_iff {n k : Nat} (x : BitVec n) : isZero x 0 k = true ↔ x.toNat % 2 ^ k = 0 := by
  rw [isZero, beq_iff_eq, ← BitVec.toNat_inj, bits, BitVec.extractLsb'_toNat, Nat.shiftRight_zero]
  rfl

/-- An offset in the scratchpad has no bit set beyond the 24 of an offset. -/
theorem spOk_iff {sp : Bool} {a : Word} : spOk sp a = true ↔ (sp = true → isZero a 24 40 = true) := by
  rw [isZero_high_iff a rfl]
  cases sp <;> simp [spOk]

/-- A command block, as its bits. -/
abbrev blockBits (h : BlockHead) (op : BitVec 8) (inplace : Bool) (rop : BitVec 2) (fmt : BitVec 4) (stain : Word) : BitVec 512 :=
  0#32 ++ h.ntab ++ stain ++ h.status ++ h.rowBytes ++ h.count ++ h.data ++ h.index ++ h.table ++ h.djref ++
    flag h.bar.isSome ++ 0#6 ++ barCode h.bar ++ fmt ++ 0#2 ++ rop ++ 0#1 ++ flag inplace ++
    flag h.countReg ++ flag h.isp ++ flag h.dsp ++ flag h.tsp ++ h.poison.code ++ 0#1 ++ h.scope.code ++
    (BitVec.ofFin h.cls : BitVec 4) ++ op

section
variable {h : BlockHead} {op : BitVec 8} {inplace : Bool} {rop : BitVec 2} {fmt : BitVec 4} {stain : Word}

theorem bits_op_blockBits : bits (blockBits h op inplace rop fmt stain) 0 8 = op := by simp [-BitVec.reduceAppend]
theorem bits_rop_blockBits : bits (blockBits h op inplace rop fmt stain) 24 2 = rop := by simp [-BitVec.reduceAppend]
theorem bits_fmt_blockBits : bits (blockBits h op inplace rop fmt stain) 28 4 = fmt := by simp [-BitVec.reduceAppend]
theorem bitAt_inplace_blockBits : bitAt (blockBits h op inplace rop fmt stain) 22 = inplace := by simp [-BitVec.reduceAppend]
theorem bits_stain_blockBits : bits (blockBits h op inplace rop fmt stain) 384 64 = stain := by simp [-BitVec.reduceAppend]

theorem decodeBlockHead_blockBits : decodeBlockHead (blockBits h op inplace rop fmt stain) = some h := by
  have scope : Scope.ofCode (bits (blockBits h op inplace rop fmt stain) 12 3) = some h.scope := by simp [-BitVec.reduceAppend]
  have poison : Poison.ofCode (bits (blockBits h op inplace rop fmt stain) 16 2) = some h.poison := by simp [-BitVec.reduceAppend]
  have en : bitAt (blockBits h op inplace rop fmt stain) 47 = h.bar.isSome := by simp [-BitVec.reduceAppend]
  have bar : bits (blockBits h op inplace rop fmt stain) 32 9 = barCode h.bar := by simp [-BitVec.reduceAppend]
  rw [decodeBlockHead, scope, poison, en, bar]
  refine (if_neg ?_).trans (congrArg some ?_)
  · cases h.bar <;> simp [barCode]
  · rw [ofCode_barCode]
    simp [-BitVec.reduceAppend]

theorem blockBad_blockBits (wf : h.wf = true) (hop : op = 1 ∨ op = 2 ∨ op = 3 ∨ op = 4)
    (hin : op ≠ 4 → inplace = false ∧ stain = 0) (hred : op ≠ 3 → rop = 0 ∧ fmt = 0)
    (hsca : op = 3 → ∃ (o : ROp) (f : RFmt), rop = o.code ∧ fmt = f.code ∧ h.rowBytes.toNat % f.bytes = 0) :
    blockBad (blockBits h op inplace rop fmt stain) = none := by
  simp only [BlockHead.wf, Bool.and_eq_true, decide_eq_true_eq, beq_iff_eq, spOk_iff] at wf
  obtain ⟨⟨⟨⟨⟨⟨table, data⟩, index⟩, count⟩, pos⟩, most⟩, status⟩ := wf
  simp only [blockBad, ite_some_eq_none_iff, and_true]
  refine ⟨?op, ?_, ?inplace, ?red, ?bar, ?table, ?index, ?data, ?count, ?rows, ?status, ?stain, ?_⟩
  all_goals simp [-BitVec.reduceAppend]
  case op => simpa [or_iff_not_imp_left] using hop
  case inplace => exact fun used => by_contra fun other => by simp [(hin other).1] at used
  case red =>
    split
    next sca =>
      obtain ⟨o, f, rfl, rfl, _⟩ := hsca sca
      simp
    next other =>
      obtain ⟨rfl, rfl⟩ := hred other
      simp
  case bar =>
    intro none
    simp [barCode, none]
  case table => exact table
  case index => exact index
  case data => exact data
  case count =>
    split_ifs at count ⊢
    · exact (isZero_high_iff _ rfl).2 (of_decide_eq_true count)
    · exact (isZero_high_iff _ rfl).2 (of_decide_eq_true count)
  case rows =>
    refine ⟨⟨by omega, most⟩, fun sca => ?_⟩
    obtain ⟨o, f, rfl, rfl, div⟩ := hsca sca
    simpa using div
  case status => exact (isZero_low_iff _).2 status
  case stain =>
    intro other
    simp [(hin other).2]

end

theorem decodeBlock_encode {i : Instr} {b : BitVec 512} (wf : i.wf = true) (h : encode i = some (.block b)) : decodeBlock b = some i := by
  cases i
  case gth | sct =>
    cases h
    rw [decodeBlock, blockBad_blockBits wf (by decide) (by simp) (by simp) (by simp), decodeBlockHead_blockBits, bits_op_blockBits]
    rfl
  case sca op fmt =>
    cases h
    obtain ⟨wf, div⟩ := Bool.and_eq_true_iff.1 wf
    rw [decodeBlock, blockBad_blockBits wf (by decide) (by simp) (by simp) fun _ => ⟨op, fmt, rfl, rfl, beq_iff_eq.1 div⟩,
      decodeBlockHead_blockBits, bits_op_blockBits, bits_rop_blockBits, bits_fmt_blockBits, ROp.ofCode_code, RFmt.ofCode_code]
    rfl
  case cpt =>
    cases h
    rw [decodeBlock, blockBad_blockBits wf (by decide) (by simp) (by simp) (by simp), decodeBlockHead_blockBits, bits_op_blockBits,
      bitAt_inplace_blockBits, bits_stain_blockBits]
    rfl
  all_goals cases h

end Sys2Proof
end

section
/-! SUPPORT. Collective descriptors (16_fabric.md R351): the descriptor of a collective decodes to it. -/

namespace Sys2Proof

/-- A collective descriptor, as its bits. -/
abbrev descBits (h : DescHead) (op : BitVec 8) (fmt : BitVec 4) (rop : BitVec 2) (root : BitVec 16) (cntv offs : Word) : BitVec 512 :=
  h.status ++ offs ++ cntv ++ h.recv ++ h.send ++ h.rcap ++ h.count ++ h.parts.spec ++ root ++ h.tag ++
    flag h.bar.isSome ++ barCode h.bar ++ (BitVec.ofFin h.cls : BitVec 4) ++ h.parts.kind ++
    0#2 ++ rop ++ fmt ++ op

section
variable {h : DescHead} {op : BitVec 8} {fmt : BitVec 4} {rop : BitVec 2} {root : BitVec 16} {cntv offs : Word}

theorem bits_op_descBits : bits (descBits h op fmt rop root cntv offs) 0 8 = op := by simp [-BitVec.reduceAppend]
theorem bits_fmt_descBits : bits (descBits h op fmt rop root cntv offs) 8 4 = fmt := by simp [-BitVec.reduceAppend]
theorem bits_rop_descBits : bits (descBits h op fmt rop root cntv offs) 12 2 = rop := by simp [-BitVec.reduceAppend]
theorem bits_root_descBits : bits (descBits h op fmt rop root cntv offs) 48 16 = root := by simp [-BitVec.reduceAppend]
theorem bits_cntv_descBits : bits (descBits h op fmt rop root cntv offs) 320 64 = cntv := by simp [-BitVec.reduceAppend]
theorem bits_offs_descBits : bits (descBits h op fmt rop root cntv offs) 384 64 = offs := by simp [-BitVec.reduceAppend]

theorem decodeParts_descBits : decodeParts (descBits h op fmt rop root cntv offs) = h.parts := by
  have kind : bits (descBits h op fmt rop root cntv offs) 16 2 = h.parts.kind := by simp [-BitVec.reduceAppend]
  rw [decodeParts, kind]
  cases hp : h.parts <;> simp [-BitVec.reduceAppend, Parts.kind, Parts.spec, hp]

theorem decodeDescHead_descBits : decodeDescHead (descBits h op fmt rop root cntv offs) = some h := by
  have en : bitAt (descBits h op fmt rop root cntv offs) 31 = h.bar.isSome := by simp [-BitVec.reduceAppend]
  have bar : bits (descBits h op fmt rop root cntv offs) 22 9 = barCode h.bar := by simp [-BitVec.reduceAppend]
  rw [decodeDescHead, en, bar, decodeParts_descBits]
  refine (if_neg ?_).trans (congrArg some ?_)
  · cases h.bar <;> simp [barCode]
  · rw [ofCode_barCode]
    simp [-BitVec.reduceAppend]

/-- The format and the operation that a collective names (R351): a reduction has both, a move a format, and the others neither. -/
def descCodes (op : Nat) (fmt : BitVec 4) (rop : BitVec 2) : Prop :=
  if op = 1 ∨ op = 2 then ∃ (o : ROp) (f : RFmt), rop = o.code ∧ fmt = f.code
  else rop = 0 ∧ if (op = 3 ∨ op = 4) ∨ op = 5 then ∃ f : Fmt, fmt = f.code ∧ f.moves = true else fmt = 0

theorem descBad_descBits (wf : h.wf = true) (hop : op.toNat ≠ 0 ∧ op.toNat ≤ 7) (codes : descCodes op.toNat fmt rop)
    (hroot : op.toNat ≠ 5 → root = 0) (hcntv : op.toNat ≠ 4 → op.toNat ≠ 6 → cntv = 0)
    (hoffs : op.toNat ≠ 3 → op.toNat ≠ 4 → offs = 0) : descBad (descBits h op fmt rop root cntv offs) = none := by
  obtain ⟨count, status⟩ := Bool.and_eq_true_iff.1 wf
  simp only [descBad, ite_some_eq_none_iff, and_true]
  refine ⟨?op, ?codes, ?root, ?parts, ?count, ?cntv, ?offs, ?status⟩
  all_goals simp [-BitVec.reduceAppend]
  case op => exact hop
  case codes =>
    unfold descCodes at codes
    split_ifs at codes ⊢ with red mov
    · obtain ⟨o, f, rfl, rfl⟩ := codes
      exact ⟨by simp, by cases o <;> decide⟩
    · obtain ⟨rfl, f, rfl, moves⟩ := codes
      simp [moves]
    · obtain ⟨rfl, rfl⟩ := codes
      simp
  case root => exact fun other => by simp [hroot other]
  case parts => cases h.parts <;> simp [-BitVec.reduceAppend, Parts.kind, Parts.spec]
  case count => exact Nat.testBit_lt_two_pow (of_decide_eq_true count)
  case cntv => exact fun a b => by simp [hcntv a b]
  case offs => exact fun a b => by simp [hoffs a b]
  case status => exact (isZero_low_iff _).2 (beq_iff_eq.1 status)

end

theorem decodeDesc_encode {i : Instr} {d : BitVec 512} (wf : i.wf = true) (h : encode i = some (.desc d)) : decodeDesc d = some i := by
  cases i
  case allred op fmt | redsc op fmt =>
    cases h
    have codes : ∀ n, n = 1 ∨ n = 2 → descCodes n fmt.code op.code := fun n hn => by rw [descCodes, if_pos hn]; exact ⟨op, fmt, rfl, rfl⟩
    rw [decodeDesc, descBad_descBits wf (by decide) (codes _ (by decide)) (by simp) (by simp) (by simp), decodeDescHead_descBits,
      bits_op_descBits, bits_fmt_descBits, bits_rop_descBits, ROp.ofCode_code, RFmt.ofCode_code]
    rfl
  case allgv fmt _ | a2av fmt _ _ | bcast fmt _ =>
    cases h
    obtain ⟨wf, moves⟩ := Bool.and_eq_true_iff.1 wf
    have codes : ∀ n, n = 3 ∨ n = 4 ∨ n = 5 → descCodes n fmt.code 0 := fun n hn => by
      rw [descCodes, if_neg (by omega), if_pos (or_assoc.2 hn)]
      exact ⟨rfl, fmt, rfl, moves⟩
    rw [decodeDesc, descBad_descBits wf (by decide) (codes _ (by decide)) (by simp) (by simp) (by simp), decodeDescHead_descBits,
      bits_op_descBits, bits_fmt_descBits, bits_root_descBits, bits_cntv_descBits, bits_offs_descBits, Fmt.ofCode_code]
    rfl
  case argn | fbar =>
    cases h
    have codes : ∀ n, n = 6 ∨ n = 7 → descCodes n 0 0 := fun n hn => by
      rw [descCodes, if_neg (by omega), if_neg (by omega)]
      exact ⟨rfl, rfl⟩
    rw [decodeDesc, descBad_descBits wf (by decide) (codes _ (by decide)) (by simp) (by simp) (by simp), decodeDescHead_descBits,
      bits_op_descBits, bits_cntv_descBits]
    rfl
  all_goals cases h

/-- Settles O57: the pattern, the record, the block and the descriptor of a well-formed instruction decode to it. -/
theorem roundTripPatternsAndRecords : Obligations.RoundTripPatternsAndRecords := by
  refine ⟨fun i c wf he hk => ?_, fun i c wf he hk => ?_⟩
  · cases c with
    | pattern e p => exact decodePattern_encode wf he
    | control | patch | record | block | desc => cases hk
  · cases c with
    | record r => exact decodeRecord_encode wf he
    | block b => exact decodeBlock_encode wf he
    | desc d => exact decodeDesc_encode wf he
    | control | patch | pattern => cases hk

end Sys2Proof
end

section
/-! SUPPORT. What a word, a pattern, a record, a block or a descriptor decodes to is well formed (03_encodings.md R48, R59, R60, 12_copy_index.md
R282, 16_fabric.md R351). -/

namespace Sys2Proof

/-! ### Words, patterns and records -/

/-- What a decoder gives is admitted. -/
theorem wf_of_given {o : Option Instr} {i : Instr} (h : (o.bind fun j => given (admitted j) j) = some i) : i.wf = true := by
  obtain ⟨j, -, hj⟩ := Option.bind_eq_some_iff.1 h
  obtain ⟨wf, ⟨⟩⟩ := Option.ite_none_right_eq_some.1 hj
  exact wf

theorem decodeControl_wf (v : Nat) (w : Word32) : (decodeControl v w).wf = true := by
  rw [decodeControl]
  split
  · split
    · split
      next wf => exact wf
      next => rfl
    · rfl
  · rfl

theorem decodePatch_wf (w : Word32) (u : Option Word32) : (decodePatch w u).wf = true := by
  rw [decodePatch]
  split
  · split
    next wf => exact wf
    next => split <;> rfl
  · rfl

theorem decodeControl_unassigned {v : Nat} {w : Word32} (h : majorAssigned v (bits w 25 7) = false) : decodeControl v w = .unassignedMajor w := by
  simp only [decodeControl, h, Bool.false_eq_true, if_false]

/-! ### Command blocks -/

theorem isZero_one {n : Nat} (x : BitVec n) (k : Nat) : isZero x k 1 = !bitAt x k := by
  rw [Bool.eq_iff_iff, isZero_iff]
  simp [bitAt]

/-- A field of a field. -/
theorem isZero_bits {n : Nat} (x : BitVec n) {s l k m : Nat} (h : k + m ≤ l) : isZero (bits x s l) k m = isZero x (s + k) m := by
  rw [Bool.eq_iff_iff, isZero_iff, isZero_iff]
  refine forall₂_congr fun j hj => ?_
  rw [bits, BitVec.getLsbD_extractLsb', decide_eq_true (by omega), Bool.true_and, Nat.add_assoc]

/-- An address field whose upper bits are found zero, where it is an offset in the scratchpad. -/
theorem spOk_of_field {n : Nat} {x : BitVec n} {k lo : Nat} (h : ¬(bitAt x k && !isZero x (lo + 24) 40) = true) :
    spOk (bitAt x k) (bits x lo 64) = true := by
  rw [spOk_iff, isZero_bits x (by decide)]
  simpa using h

theorem decodeBlockHead_rowBytes {b : BitVec 512} {h : BlockHead} (hh : decodeBlockHead b = some h) : h.rowBytes = bits b 288 32 := by
  rw [decodeBlockHead] at hh
  split at hh
  · split at hh
    · cases hh
    · cases hh
      rfl
  · cases hh

theorem decodeBlockHead_wf {b : BitVec 512} {h : BlockHead} (good : blockBad b = none) (hh : decodeBlockHead b = some h) : h.wf = true := by
  simp only [blockBad, ite_some_eq_none_iff, and_true] at good
  obtain ⟨-, -, -, -, -, table, index, data, count, rows, status, -, -⟩ := good
  have status : ((bits b 320 64).toNat % 8 == 0) = true := by
    rw [beq_iff_eq]
    exact (isZero_low_iff (k := 3) _).1 (by simpa [isZero_bits] using status)
  have count : (if bitAt b 21 = true then decide ((bits b 256 32).toNat < 32) else decide ((bits b 256 32).toNat < 2 ^ 24)) = true := by
    split_ifs at count ⊢
    · refine decide_eq_true ((isZero_high_iff (k := 5) (l := 27) _ rfl).1 ?_)
      rw [isZero_bits b (by decide)]
      simpa using count
    · refine decide_eq_true ((isZero_high_iff (k := 24) (l := 8) _ rfl).1 ?_)
      rw [isZero_bits b (by decide)]
      simpa using count
  simp only [Bool.or_eq_true, not_or, beq_iff_eq, decide_eq_true_eq, not_lt] at rows
  obtain ⟨⟨pos, most⟩, -⟩ := rows
  have pos : 1 ≤ (bits b 288 32).toNat := by omega
  rw [decodeBlockHead] at hh
  split at hh
  · split at hh
    · cases hh
    · cases hh
      simp only [BlockHead.wf, spOk_of_field table, spOk_of_field index, spOk_of_field data, count, pos, most, status, decide_true, Bool.and_self]
  · cases hh

/-- SCA moves whole elements (R282). -/
theorem rows_of_sca {b : BitVec 512} {f : RFmt} (good : blockBad b = none) (sca : bits b 0 8 = 3)
    (hf : RFmt.ofCode ((bits b 28 4).setWidth 8) = some f) : (bits b 288 32).toNat % f.bytes = 0 := by
  simp only [blockBad, ite_some_eq_none_iff, and_true] at good
  obtain ⟨-, -, -, -, -, -, -, -, -, rows, -⟩ := good
  simpa [sca, hf] using (not_or.1 fun h => rows (Bool.or_eq_true_iff.2 h)).2

theorem decodeBlock_wf {b : BitVec 512} {i : Instr} (h : decodeBlock b = some i) : i.wf = true := by
  rw [decodeBlock] at h
  split at h
  next x y hd good hh =>
    have wf := decodeBlockHead_wf good hh
    split at h
    next => cases h; exact wf
    next => cases h; exact wf
    next sca =>
      split at h
      next op fmt _ hf =>
        cases h
        refine Bool.and_eq_true_iff.2 ⟨wf, beq_iff_eq.2 ?_⟩
        rw [decodeBlockHead_rowBytes hh]
        exact rows_of_sca good sca hf
      next => cases h
    next => cases h; exact wf
    next => cases h
  next => cases h

/-! ### Collective descriptors -/

theorem decodeDescHead_wf {d : BitVec 512} {h : DescHead} (good : descBad d = none) (hh : decodeDescHead d = some h) : h.wf = true := by
  simp only [descBad, ite_some_eq_none_iff, and_true] at good
  obtain ⟨-, -, -, -, count, -, -, status⟩ := good
  have status : ((bits d 448 64).toNat % 16 == 0) = true := by
    rw [beq_iff_eq]
    exact (isZero_low_iff (k := 4) _).1 (by simpa [isZero_bits] using status)
  have count : (bits d 128 32).toNat < 2 ^ 31 := by
    refine (isZero_high_iff (k := 31) (l := 1) _ rfl).1 ?_
    rw [isZero_bits d (by decide), isZero_one]
    simpa using count
  rw [decodeDescHead] at hh
  split at hh
  · cases hh
  · cases hh
    simp only [DescHead.wf, count, status, decide_true, Bool.and_self]

/-- A move names a format of 8, 16 or 32 bits (R351). -/
theorem moves_of_descBad {d : BitVec 512} {f : Fmt} (good : descBad d = none) (op : bits d 0 8 = 3 ∨ bits d 0 8 = 4 ∨ bits d 0 8 = 5)
    (hf : Fmt.ofCode (bits d 8 4) = some f) : f.moves = true := by
  simp only [descBad, ite_some_eq_none_iff, and_true] at good
  obtain ⟨-, codes, -⟩ := good
  rcases op with op | op | op <;> simp_all

theorem decodeDesc_wf {d : BitVec 512} {i : Instr} (h : decodeDesc d = some i) : i.wf = true := by
  rw [decodeDesc] at h
  split at h
  next x y hd good hh =>
    have wf := decodeDescHead_wf good hh
    dsimp only at h
    split at h
    next => cases h; exact wf
    next => cases h; exact wf
    next op hf => cases h; exact Bool.and_eq_true_iff.2 ⟨wf, moves_of_descBad good (.inl op) hf⟩
    next op hf => cases h; exact Bool.and_eq_true_iff.2 ⟨wf, moves_of_descBad good (.inr (.inl op)) hf⟩
    next op hf => cases h; exact Bool.and_eq_true_iff.2 ⟨wf, moves_of_descBad good (.inr (.inr op)) hf⟩
    next => cases h; exact wf
    next => cases h; exact wf
    next => cases h
  next => cases h

/-- Settles O55: what a decoder gives is admitted, by its last check, or by the checks of a block and of a descriptor; a major that the version does not
have is none of those that are assigned. -/
theorem decodedWellFormed : Obligations.DecodedWellFormed := by
  refine ⟨decodeControl_wf, decodePatch_wf, fun _ _ _ => wf_of_given, fun _ _ => wf_of_given, fun _ _ => decodeBlock_wf,
    fun _ _ => decodeDesc_wf, fun v m w hm absent => decodeControl_unassigned ?_⟩
  change majorAssigned v (w.extractLsb' 25 7) = false
  rw [majorAssigned, ← hm, Bool.eq_false_iff]
  simp only [ne_eq, Bool.and_eq_true, Bool.or_eq_true, Bool.not_eq_true', Bool.and_eq_false_iff, decide_eq_true_eq, decide_eq_false_iff_not,
    beq_iff_eq, beq_eq_false_iff_ne]
  omega

/-- Settles O54: each of the words, and the pattern, is the encoding of its instruction. -/
theorem decodeWords : Obligations.DecodeWords :=
  ⟨decodeControl_encode rfl rfl, decodeControl_encode rfl rfl, decodeControl_encode rfl rfl, decodeControl_encode rfl rfl,
    decodePatch_encode rfl rfl, decodePatch_encode rfl rfl, decodePatch_encode rfl rfl, decodePatch_encode rfl rfl,
    decodePattern_encode rfl rfl⟩

end Sys2Proof
end

section
/-! SUPPORT. Words of an engine stream (03_encodings.md R57 to R61, 07_queues.md R174): the stage predicate, and ISSUE, AMEND and WIDE. -/

namespace Sys2Proof.Machine

/-! ### The stream that acts -/

@[simp] theorem putStream_putStream (s : State) (x y : EngStream) : putStream (putStream s x) y = putStream s y := by
  simp only [putStream]
  cases s.curEng <;> rfl

@[simp] theorem pslot_putStream (s : State) (x : EngStream) : (putStream s x).job.pslot = s.job.pslot := by
  simp only [putStream]
  cases s.curEng <;> rfl

/-! ### The stage predicate -/

theorem performs_iff {s : State} : performs s = true ↔ wordRuns s := by
  rw [performs, wordRuns]
  cases (curStream s).frames with
  | nil => exact ⟨fun _ => nofun, fun _ => rfl⟩
  | cons f r =>
    have stage : (f.atClock s.clock).stage = f.stage ∧ (f.atClock s.clock).j = f.j := by
      rw [Frame.atClock]
      split
      · split <;> exact ⟨rfl, rfl⟩
      · exact ⟨rfl, rfl⟩
    simp [Frame.performs, stage.1, stage.2]

theorem noteWord_eq (s : State) : noteWord s = putStream s (noted s) := by
  rw [noteWord, noted, EngStream.mapTop]
  cases (curStream s).frames with
  | nil => rfl
  | cons f r => simp [Frame.mark]

/-- A word whose stage runs is performed at the stream as it is noted. -/
theorem onWord_runs {s : State} {n : Nat} {k : State → State} (h : wordRuns s) : onWord s n k = .next (k (putStream s (noted s))) := by
  rw [onWord, noteWord_eq, if_pos (performs_iff.2 h)]

/-- A skipped word is stepped over. -/
theorem onWord_skips {s : State} {n : Nat} {k : State → State} (h : ¬wordRuns s) :
    onWord s n k = .next (putStream s { noted s with pc := (noted s).pc + n }) := by
  rw [onWord, noteWord_eq, if_neg (mt performs_iff.1 h), stepPatch, curStream_putStream, putStream_putStream]

/-! ### A slot replaced -/

theorem getLsbD_setBits {n : Nat} (v : BitVec n) {start len : Nat} (x i : Nat) (h : start + len ≤ n) :
    (setBits v start len x).getLsbD i = if start ≤ i ∧ i < start + len then x.testBit (i - start) else v.getLsbD i := by
  have value : v.toNat = 2 ^ start * (2 ^ len * (v.toNat / 2 ^ (start + len)) + v.toNat / 2 ^ start % 2 ^ len) + v.toNat % 2 ^ start := by
    rw [Nat.pow_add, ← Nat.div_div_eq_div_mul, Nat.div_add_mod, Nat.div_add_mod]
  have result : v.toNat - v.toNat / 2 ^ start % 2 ^ len * 2 ^ start + x % 2 ^ len * 2 ^ start =
      2 ^ start * (2 ^ len * (v.toNat / 2 ^ (start + len)) + x % 2 ^ len) + v.toNat % 2 ^ start := by
    generalize v.toNat / 2 ^ start % 2 ^ len = old at value ⊢
    rw [Nat.mul_add] at value ⊢
    rw [Nat.mul_comm old, Nat.mul_comm (x % 2 ^ len)]
    omega
  have low := Nat.mod_lt v.toNat (Nat.two_pow_pos start)
  have field := Nat.mod_lt x (Nat.two_pow_pos len)
  rw [setBits, BitVec.getLsbD_ofNat, result, Nat.testBit_two_pow_mul_add _ low, Nat.testBit_two_pow_mul_add _ field]
  by_cases below : i < start
  · rw [if_pos below, if_neg (by omega), Nat.testBit_mod_two_pow, decide_eq_true below, decide_eq_true (by omega)]
    simp [BitVec.getLsbD]
  by_cases inside : i < start + len
  · rw [if_neg below, if_pos (by omega), if_pos (by omega), Nat.testBit_mod_two_pow, decide_eq_true (by omega), decide_eq_true (by omega)]
    simp
  · rw [if_neg below, if_neg (by omega), if_neg (by omega), Nat.testBit_div_two_pow, show i - start - len + (start + len) = i by omega]
    by_cases width : i < n
    · simp [width, BitVec.getLsbD]
    · simp [width, BitVec.getLsbD_of_ge v i (by omega)]

theorem slotSet_amendSlot (p : Pattern) {k : Nat} (v : BitVec 16) (h : k < 8) : slotSet p (amendSlot p k v) k v := by
  intro i
  rw [amendSlot, getLsbD_setBits p _ i (by omega)]
  rfl

/-! ### A slot of the allotment -/

theorem withSlot_in {s : State} {x : EngStream} {p : Fin 64} {w : Word32} {k : Pattern → State} (h : p.val < s.job.pslot) :
    withSlot (putStream s x) p w k = k (sget x.slots p.val) := by
  rw [withSlot, pslot_putStream, if_pos h, curStream_putStream]

theorem withSlot_out {s : State} {x : EngStream} {p : Fin 64} {w : Word32} {k : Pattern → State} (h : s.job.pslot ≤ p.val) :
    withSlot (putStream s x) p w k = streamTrap (putStream s x) .illegalPatch (w.setWidth 64) := by
  rw [withSlot, pslot_putStream, if_neg (by omega)]

theorem issueOp_putStream (s : State) (x : EngStream) (pat : Pattern) (t : Toks) (n : Nat) :
    issueOp (putStream s x) pat t n = putStream s { x with pc := x.pc + n, pipe := x.pipe ++ [issued x pat t] } := by
  rw [issueOp, curStream_putStream, putStream_putStream]
  rfl

/-! ### The instructions -/

section
variable {s : State} {t : Toks} {p : Fin 64} {f : Fin 8} {v : BitVec 16} {u w : Word32}

theorem exec_issue : exec (.issue t p f v) s = onWord s 4 fun s => withSlot s p (encPatch 0 t p f v) fun pat =>
    issueOp s (if f = 0 then pat else amendSlot pat (f.val - 1) v) t 4 := rfl

theorem exec_amend : exec (.amend p f v) s = onWord s 4 fun s => withSlot s p (encPatch 1 noToks p f v) fun pat =>
    putStream s { curStream s with slots := sset (curStream s).slots p.val (amendSlot pat (f.val - 1) v), pc := (curStream s).pc + 4 } := rfl

theorem exec_wide : exec (.wide t p f u) s = onWord s 8 fun s => withSlot s p (encPatch 3 t p f 0) fun pat =>
    issueOp s (amendSlot (amendSlot pat (f.val - 2) (bits u 0 16)) (f.val - 1) (bits u 16 16)) t 8 := rfl

theorem exec_illegalInstr_word : exec (.illegalInstr true w) s = onWord s 4 fun s => streamTrap s .illegalInstr (w.setWidth 64) := rfl

theorem exec_illegalPatch {u : Option Word32} : exec (.illegalPatch w u) s =
    onWord s (if isWide w then 8 else 4) fun s => streamTrap s .illegalPatch (w.setWidth 64) := rfl

end

/-- Settles O25: ISSUE, AMEND and WIDE with a slot of the allotment, skipped, and with a slot beyond it. -/
theorem patchIssue : Obligations.PatchIssue := by
  intro s t p f v u x pat hx hpat
  subst hx hpat
  rw [exec_amend, exec_wide, exec_issue, exec_issue]
  refine ⟨fun runs slot => ?inside, fun skips => ⟨onWord_skips skips, onWord_skips skips, onWord_skips skips⟩, fun runs slot => ?beyond⟩
  case inside =>
    rw [onWord_runs runs, onWord_runs runs, onWord_runs runs, onWord_runs runs, withSlot_in slot, withSlot_in slot, withSlot_in slot,
      withSlot_in slot, if_pos rfl, issueOp_putStream, issueOp_putStream, issueOp_putStream, curStream_putStream, putStream_putStream]
    refine ⟨rfl, fun hf => ⟨_, slotSet_amendSlot _ v (by omega), ?_, rfl⟩, fun hf => ⟨_, _, slotSet_amendSlot _ _ (by omega),
      slotSet_amendSlot _ _ (by omega), rfl⟩⟩
    rw [if_neg hf]
  case beyond =>
    rw [onWord_runs runs, onWord_runs runs, onWord_runs runs, withSlot_out slot, withSlot_out slot, withSlot_out slot]
    exact ⟨⟨_, rfl⟩, ⟨_, rfl⟩, ⟨_, rfl⟩⟩

/-- Settles O29: words that raise when they are decoded, of the control stream, and of an engine stream where they run and where they are skipped. -/
theorem raisingWords : Obligations.RaisingWords := by
  intro s w u x hx
  subst hx
  have length : (if isWide w = true then 8 else 4) = if w.extractLsb' 30 2 = 3 then 8 else 4 := if_congr beq_iff_eq rfl rfl
  rw [exec_illegalInstr_word, exec_illegalPatch, length]
  exact ⟨rfl, rfl, fun runs => ⟨onWord_runs runs, onWord_runs runs⟩, fun skips => ⟨onWord_skips skips, onWord_skips skips⟩⟩

end Sys2Proof.Machine
end

section
/-! SUPPORT. PATL and the translation of patterns (03_encodings.md R63, R64, 07_queues.md R172). -/

namespace Sys2Proof.Machine

/-! ### Slots of a pattern -/

theorem slotOf_amendSlot (p : Pattern) {j k : Nat} (v : BitVec 16) (hj : j < 8) :
    slotOf (amendSlot p j v) k = if k = j then v else slotOf p k := by
  ext i hi
  rw [slotOf, bits, BitVec.getElem_extractLsb', slotSet_amendSlot p v hj]
  by_cases same : k = j
  · subst same
    rw [if_pos (by omega), if_pos rfl, Nat.add_sub_cancel_left, BitVec.getLsbD_eq_getElem hi]
  · rw [if_neg (by omega), if_neg same, slotOf, bits, BitVec.getElem_extractLsb']

/-- Slots found to hold 0xFFFF hold 0xE000 afterwards, and the others are as they were. -/
theorem slotOf_translated {l : List Nat} (hl : ∀ j ∈ l, j < 8) (p : Pattern) (k : Nat) :
    slotOf (l.foldl (fun p k => if slotOf p k == 0xFFFF then amendSlot p k 0xE000 else p) p) k =
      if k ∈ l ∧ slotOf p k = 0xFFFF then 0xE000 else slotOf p k := by
  induction l generalizing p with
  | nil => simp
  | cons j l ih =>
    have head : slotOf (if slotOf p j == 0xFFFF then amendSlot p j 0xE000 else p) k =
        if k = j ∧ slotOf p k = 0xFFFF then 0xE000 else slotOf p k := by
      by_cases old : slotOf p j = 0xFFFF
      · rw [if_pos (beq_iff_eq.2 old), slotOf_amendSlot p _ (hl j (List.mem_cons_self ..))]
        by_cases same : k = j <;> simp [same, old]
      · rw [if_neg (mt beq_iff_eq.1 old), if_neg]
        rintro ⟨rfl, now⟩
        exact old now
    rw [List.foldl_cons, ih (fun i hi => hl i (List.mem_cons_of_mem _ hi)), head]
    by_cases now : slotOf p k = 0xFFFF#16
    · by_cases same : k = j
      · subst same
        simp [now]
      · simp [same, now]
    · simp [now]

/-! ### The layouts -/

theorem registerSlots_vx (op : Nat) :
    registerSlots .vx op = if (1 ≤ op ∧ op ≤ 9) ∨ op = 0x0B ∨ op = 0x0C ∨ (0x0F ≤ op ∧ op ≤ 0x15) ∨ (0x18 ≤ op ∧ op ≤ 0x22) ∨ op = 0x28
      then some [0, 1, 2, 3, 6]
      else if op = 0x0A ∨ op = 0x0D ∨ op = 0x0E ∨ (0x29 ≤ op ∧ op ≤ 0x30) ∨ (0x38 ≤ op ∧ op ≤ 0x3F) then some [0, 1, 2, 6] else none := by
  simp only [registerSlots, Bool.or_eq_true, Bool.and_eq_true, decide_eq_true_eq, beq_iff_eq, or_assoc]

theorem registerSlots_mx (op : Nat) :
    registerSlots .mx op = if 1 ≤ op ∧ op ≤ 3 then some [1] else if op = 4 then some [0, 1] else if op = 5 ∨ op = 8 then some []
      else if op = 6 ∨ op = 7 then some [0] else none := by
  match op with
  | 0 | 1 | 2 | 3 | 4 | 5 | 6 | 7 | 8 => rfl
  | n + 9 => simp [registerSlots]

theorem registerSlots_ld (op : Nat) : registerSlots .ld op = if op = 4 then some [0, 2] else if 1 ≤ op ∧ op ≤ 5 then some [0] else none := by
  match op with
  | 0 | 1 | 2 | 3 | 4 | 5 => rfl
  | n + 6 => simp [registerSlots]

theorem registerSlots_st (op : Nat) :
    registerSlots .st op = if op = 3 ∨ op = 4 then some [0, 2] else if 1 ≤ op ∧ op ≤ 5 then some [0] else none := by
  match op with
  | 0 | 1 | 2 | 3 | 4 | 5 => rfl
  | n + 6 => simp [registerSlots]

theorem registerSlots_lt {e : Engine} {op : Nat} {l : List Nat} (h : registerSlots e op = some l) : ∀ j ∈ l, j < 8 := by
  cases e <;> simp only [registerSlots_vx, registerSlots_mx, registerSlots_ld, registerSlots_st] at h <;> split_ifs at h <;> cases h <;> decide

/-! ### Translation -/

theorem absentIn_iff {ver : Nat} {e : Engine} {p : Pattern} : absentIn ver e p = true ↔
    ver < 3 ∧ ((e = .mx ∧ ver = 1 ∧ ((p.extractLsb' 120 8).toNat = 3 ∨ (p.extractLsb' 120 8).toNat = 4)) ∨
      (e = .vx ∧ ((ver = 1 ∧ (p.extractLsb' 120 8).toNat = 0x3A) ∨ (p.extractLsb' 120 8).toNat = 0x3D)) ∨
      (ver = 1 ∧ ∃ k ∈ formatFields e (p.extractLsb' 120 8).toNat, p.extractLsb' k 4 = 5)) := by
  simp only [absentIn, bits, Bool.and_eq_true, Bool.or_eq_true, decide_eq_true_eq, beq_iff_eq, List.any_eq_true, and_assoc, or_assoc]

theorem translatePattern_none {ver : Nat} {e : Engine} {p : Pattern} (h : registerSlots e (p.extractLsb' 120 8).toNat = none) :
    translatePattern ver e p = some p := by
  rw [translatePattern, bits, h]

theorem translatePattern_some {ver : Nat} {e : Engine} {p : Pattern} {l : List Nat}
    (h : registerSlots e (p.extractLsb' 120 8).toNat = some l) :
    translatePattern ver e p = if absentIn ver e p then none
      else if ver < 3 then some (l.foldl (fun p k => if slotOf p k == 0xFFFF then amendSlot p k 0xE000 else p) p) else some p := by
  rw [translatePattern, bits, h]

/-! ### Patterns read one after another -/

/-- The patterns that are read and translated come before what is read after them. -/
theorem readPatterns_append {s : State} {ver : Nat} {sec : Section} {raws l : List Pattern} (n k : Nat)
    (reads : ∀ i v, raws[i]? = some v → imageNat s .read (sec.off + 16 * (k + i)) 16 = .ok v.toNat)
    (maps : raws.map (translatePattern ver s.curEng) = l.map some) :
    readPatterns s ver sec (raws.length + n) k =
      match readPatterns s ver sec n (k + raws.length) with | .error e => .error e | .ok r => .ok (l ++ r) := by
  induction raws generalizing l k with
  | nil =>
    cases l with
    | nil => rw [List.length_nil, Nat.zero_add, Nat.add_zero]; cases readPatterns s ver sec n k <;> rfl
    | cons => cases maps
  | cons v raws ih =>
    cases l with
    | nil => cases maps
    | cons p l =>
      obtain ⟨head, tail⟩ := List.cons.inj maps
      have rest := ih (k + 1) (fun i w hi => by rw [Nat.add_assoc, Nat.add_comm 1 i]; exact reads (i + 1) w hi) tail
      rw [List.length_cons, Nat.add_right_comm, readPatterns, show sec.off + 16 * k = sec.off + 16 * (k + 0) from rfl, reads 0 v rfl]
      simp only [BitVec.ofNat_toNat, BitVec.setWidth_eq, head]
      rw [rest, show k + 1 + raws.length = k + (raws.length + 1) by omega]
      cases readPatterns s ver sec n (k + (raws.length + 1)) <;> rfl

theorem loadSlots_eq_swrite (m : Sparse 128) (k : Nat) (l : List Pattern) : loadSlots m k l = swrite m k l := by
  induction l generalizing m k with
  | nil => rfl
  | cons v l ih => exact ih ..

/-! ### PATL -/

theorem sectionOf_putStream (s : State) (x : EngStream) (kind : Nat) :
    sectionOf (putStream s x) (putStream s x).job kind = sectionOf s s.job kind := by
  have asid : (putStream s x).job.asid = s.job.asid := by simp only [putStream]; cases s.curEng <;> rfl
  have image : (putStream s x).job.image = s.job.image := by simp only [putStream]; cases s.curEng <;> rfl
  rw [sectionOf, asid, image]
  rfl

theorem id_putStream (s : State) (x : EngStream) : (putStream s x).job.id = s.job.id := by
  simp only [putStream]
  cases s.curEng <;> rfl

section
variable {s : State} {p n g : Fin 64} {sec : Section}

theorem exec_patl_skips (skips : ¬wordRuns s) : exec (.patl p n g) s = .next (putStream s { noted s with pc := (noted s).pc + 4 }) := by
  show execPatl p n g s = _
  rw [execPatl, onWord_skips skips]

theorem exec_patl_missing (runs : wordRuns s) (h : sectionOf s s.job (patternKind s.curEng) = none) :
    exec (.patl p n g) s = .next (streamTrap (putStream s (noted s)) .illegalPatch (BitVec.ofNat 64 (64 * g.val + p.val))) := by
  show execPatl p n g s = _
  rw [execPatl, onWord_runs runs]
  simp only [putStream_curEng, sectionOf_putStream, h]

/-- The first index beyond the section or the allotment. -/
abbrev patternTop (s : State) (g : Fin 64) (sec : Section) : Nat := min (64 * g.val + s.job.pslot) (sec.bytes / 16)

theorem exec_patl_beyond (runs : wordRuns s) (h : sectionOf s s.job (patternKind s.curEng) = some sec)
    (beyond : patternTop s g sec < 64 * g.val + p.val + n.val + 1) :
    exec (.patl p n g) s = .next (streamTrap (putStream s (noted s)) .illegalPatch
      (BitVec.ofNat 64 (max (64 * g.val + p.val) (patternTop s g sec)))) := by
  show execPatl p n g s = _
  rw [execPatl, onWord_runs runs]
  simp only [putStream_curEng, sectionOf_putStream, h, pslot_putStream, if_pos beyond]

theorem exec_patl_headerStop {e : Stop} (runs : wordRuns s) (h : sectionOf s s.job (patternKind s.curEng) = some sec)
    (within : 64 * g.val + p.val + n.val + 1 ≤ patternTop s g sec) (he : imageVersion (putStream s (noted s)) = .error e) :
    exec (.patl p n g) s = .next (streamStop (putStream s (noted s)) e) := by
  show execPatl p n g s = _
  rw [execPatl, onWord_runs runs]
  simp only [putStream_curEng, sectionOf_putStream, h, pslot_putStream, if_neg (Nat.not_lt.2 within), he]

theorem exec_patl_version {ver : Nat} (runs : wordRuns s) (h : sectionOf s s.job (patternKind s.curEng) = some sec)
    (within : 64 * g.val + p.val + n.val + 1 ≤ patternTop s g sec) (hv : imageVersion (putStream s (noted s)) = .ok ver)
    (bad : ver = 0 ∨ 3 < ver) :
    exec (.patl p n g) s = .next (streamTrap (putStream s (noted s)) .encodingVersion (BitVec.ofNat 64 ver)) := by
  have bad : (decide (ver = 0) || decide (3 < ver)) = true := by simpa using bad
  show execPatl p n g s = _
  rw [execPatl, onWord_runs runs]
  simp only [putStream_curEng, sectionOf_putStream, h, pslot_putStream, if_neg (Nat.not_lt.2 within), hv, if_pos bad]

theorem exec_patl_reads {ver : Nat} (runs : wordRuns s) (h : sectionOf s s.job (patternKind s.curEng) = some sec)
    (within : 64 * g.val + p.val + n.val + 1 ≤ patternTop s g sec) (hv : imageVersion (putStream s (noted s)) = .ok ver)
    (lo : 1 ≤ ver) (hi : ver ≤ 3) :
    (∀ e, readPatterns (putStream s (noted s)) ver sec (n.val + 1) (64 * g.val + p.val) = .error e →
      exec (.patl p n g) s = .next (streamStop (putStream s (noted s)) e)) ∧
    ∀ l, readPatterns (putStream s (noted s)) ver sec (n.val + 1) (64 * g.val + p.val) = .ok l →
      exec (.patl p n g) s = .next (takeReplies (putStream s { noted s with
        pc := (noted s).pc + 4, slots := swrite (noted s).slots p.val l }) (.words s.job.id s.curEng)) := by
  have good : ¬(decide (ver = 0) || decide (3 < ver)) = true := by simp; omega
  refine ⟨fun e he => ?_, fun l hl => ?_⟩ <;> show execPatl p n g s = _ <;> rw [execPatl, onWord_runs runs]
  · simp only [putStream_curEng, sectionOf_putStream, h, pslot_putStream, if_neg (Nat.not_lt.2 within), hv, if_neg good, he]
  · simp only [putStream_curEng, sectionOf_putStream, h, pslot_putStream, if_neg (Nat.not_lt.2 within), hv, if_neg good, hl,
      curStream_putStream, loadSlots_eq_swrite, id_putStream]
    exact congrArg (fun t => Host.Outcome.next (takeReplies t _)) (putStream_putStream ..)

end

/-- A trap of the stream at its word, by an access that it makes: what its replies have written stays. -/
theorem streamStop_trap (s : State) (x : EngStream) (c : Cause) (v : Word) : streamStop (putStream s x) (.trap c v) =
    streamTrap (keepWrites (reported (putStream s x) (.words s.job.id s.curEng)) (.words s.job.id s.curEng)) c v := by
  rw [← id_putStream s x]
  rfl

/-- Settles O27: PATL in each of its cases, what translation does to a pattern, and the register slots of each layout. -/
theorem patternLoad : Obligations.PatternLoad := by
  refine ⟨fun s p n g x first hx hfirst => ?load, fun ver op e v absent hop habsent => ?translate, fun op =>
    ⟨registerSlots_vx op, registerSlots_mx op, registerSlots_ld op, registerSlots_st op⟩⟩
  case translate =>
    subst hop
    rw [← absentIn_iff] at habsent
    refine ⟨translatePattern_none, fun l hl => ?_⟩
    rw [translatePattern_some hl]
    exact ⟨fun gone => if_pos (habsent.1 gone), fun there newer => (if_neg (mt habsent.2 there)).trans (if_neg (by omega)),
      fun there older => ⟨_, (if_neg (mt habsent.2 there)).trans (if_pos older), fun k _ => slotOf_translated (registerSlots_lt hl) v k⟩⟩
  case load =>
    subst hx hfirst
    refine ⟨exec_patl_skips, fun runs hsec => exec_patl_missing runs hsec, fun sec top runs hsec htop => ?_⟩
    subst htop
    refine ⟨fun beyond => exec_patl_beyond runs hsec beyond, fun within => ⟨fun e he => exec_patl_headerStop runs hsec within he,
      fun ver hv => ⟨fun bad => exec_patl_version runs hsec within hv bad, fun lo hi raws l u hu reads maps => ?_⟩⟩⟩
    subst hu
    obtain ⟨stops, loads⟩ := exec_patl_reads runs hsec within hv lo hi
    have read (m : Nat) := readPatterns_append (s := putStream s (noted s)) (sec := sec) m (64 * g.val + p.val) reads maps
    refine ⟨fun whole => ⟨_, _, loads l ?_, rfl, rfl, fun k => sget_swrite _ _ k l⟩, fun short => ?_⟩
    · rw [← whole, ← Nat.add_zero raws.length, read 0]
      exact congrArg _ (List.append_nil l)
    · obtain ⟨m, hm⟩ := Nat.exists_eq_add_of_le short
      have first : n.val + 1 = raws.length + (m + 1) := by omega
      rw [first, read (m + 1)] at stops
      refine ⟨fun v hv rejected => ?_, fun e he => stops e ?_⟩
      · rw [← streamStop_trap]
        refine stops _ ?_
        rw [readPatterns, hv]
        simp only [BitVec.ofNat_toNat, BitVec.setWidth_eq, putStream_curEng, rejected]
      · rw [readPatterns, he]

end Sys2Proof.Machine
end

section
/-! SUPPORT. What a stop of a control stream leaves (13_memory.md R295, 15_traps.md R322): no register and no byte of the device is written. -/

namespace Sys2Proof.Machine
variable {s t u : State}

/-- From s to t no register of the focused job and no byte of the device's own memories changes. -/
def KeepsData (s t : State) : Prop := t.job.x = s.job.x ∧ t.hbm = s.hbm ∧ t.ddr = s.ddr ∧ t.spad = s.spad

theorem KeepsData.refl (s : State) : KeepsData s s := ⟨rfl, rfl, rfl, rfl⟩

theorem KeepsData.trans (h : KeepsData s t) (k : KeepsData t u) : KeepsData s u := by
  obtain ⟨x, hbm, ddr, spad⟩ := h
  obtain ⟨x', hbm', ddr', spad'⟩ := k
  exact ⟨x'.trans x, hbm'.trans hbm, ddr'.trans ddr, spad'.trans spad⟩

theorem KeepsData.getByte (h : KeepsData s t) {sp : Space} (device : sp ≠ .host) (a : Nat) : getByte t sp a = getByte s sp a := by
  obtain ⟨_, hbm, ddr, spad⟩ := h
  cases sp with
  | host => exact absurd rfl device
  | hbm => exact congrArg (sget · a) hbm
  | ddr => exact congrArg (sget · a) ddr
  | spad c => exact congrArg (sget · _) spad

/-! ### Rings, records and requests -/

theorem keepsData_ringSignal (s : State) (k : Nat) : KeepsData s (ringSignal s k) := by
  unfold ringSignal
  dsimp only
  split <;> exact .refl s

theorem KeepsData.ringWrite (h : KeepsData s t) (k : Nat) (e : BitVec 512) : KeepsData s (ringWrite t k e) := by
  refine .trans ?_ (keepsData_ringSignal _ k)
  exact h

theorem keepsData_ringFlush (n : Nat) (s : State) (k : Nat) : KeepsData s (ringFlush n s k) := by
  induction n generalizing s with
  | zero => exact .refl s
  | succ n ih =>
    unfold ringFlush
    dsimp only
    split
    · exact .refl s
    · split
      · exact .trans (KeepsData.ringWrite (by exact .refl s) k _) (ih _)
      · exact .refl s

theorem keepsData_tellContext (s : State) (asid : BitVec 16) (kind : Nat) (code : BitVec 8) (v : Word) :
    KeepsData s (tellContext s asid kind code v) := by
  unfold tellContext
  split
  · exact .refl s
  · exact keepsData_ringFlush _ _ _

theorem keepsData_sendWaiting (s : State) : KeepsData s (sendWaiting s) := by
  obtain ⟨t, outs, ⟨⟨_, _, _, rfl⟩, _⟩, h, _⟩ := sendWaiting_sent s
  rw [h]
  exact .refl s

theorem keepsData_sendReq (s : State) (p : Party) (q : Request) : KeepsData s (sendReq s p q) := by
  unfold sendReq
  split
  · exact keepsData_sendWaiting _
  · dsimp only
    split
    · exact keepsData_sendWaiting _
    · exact .refl s

theorem keepsData_postFault {r : FaultRec} (h : postFault s r = some t) : KeepsData s t := by
  unfold postFault at h
  dsimp only at h
  split at h
  · cases h
  · cases h
    exact .refl s

theorem keepsData_verdict (s : State) (p : Party) (x : Stop) : KeepsData s (verdict s p x).state := by
  cases x with
  | trap | denied | stall | mark => exact .refl s
  | send q => exact keepsData_sendReq ..
  | held r =>
    unfold verdict
    dsimp only
    split
    · exact .refl s
    next h => exact keepsData_postFault h
  | fault c v r =>
    unfold verdict
    dsimp only
    split
    · exact .refl s
    next h => split <;> exact keepsData_postFault h

/-! ### Traps -/

theorem KeepsData.escalate (h : KeepsData s t) (c : Cause) (v : Word) : KeepsData s (escalate t c v) :=
  h.trans (.trans (t := { t with job := { t.job with hnd := true, wait := .dvorol c v } }) (.refl t) (keepsData_tellContext ..))

theorem keepsData_divert (s : State) (t : Trap) (rest : List Trap) : KeepsData s (divert s t rest) := by
  have taken : KeepsData s (if (withdraw s s.job.id).job.wait.waiting then forsake (withdraw s s.job.id) (withdraw s s.job.id).job.id
      else withdraw s s.job.id) := by split <;> exact .refl s
  unfold divert
  dsimp only
  generalize (if (withdraw s s.job.id).job.wait.waiting then _ else _ : State) = u at taken ⊢
  split
  · exact KeepsData.escalate (by exact taken) _ _
  · exact taken

theorem keepsData_divertIfPending (s : State) : KeepsData s (divertIfPending s) := by
  unfold divertIfPending
  split
  · exact .refl s
  · split
    · exact .refl s
    · exact keepsData_divert ..

theorem keepsData_raise (s : State) (c : Cause) (v : Word) : KeepsData s (raise s c v) := by
  unfold raise raiseAt
  split
  · exact (KeepsData.refl s).escalate _ _
  · dsimp only
    split
    · exact .refl s
    · exact .trans (.refl s) (keepsData_divertIfPending _)

/-! ### The stop -/

theorem keepsData_ctlStop (s : State) (e : Stop) : KeepsData s (ctlStop s e) := by
  have before := keepsData_verdict s (ctlParty s 0) e
  unfold ctlStop
  split
  next h => rw [h] at before; exact before
  next h => rw [h] at before; exact before.trans (keepsData_raise ..)
  next h => rw [h] at before; exact before.trans (.trans (.refl _) (keepsData_tellContext ..))
  next h => rw [h] at before; exact before

/-- What an instruction of the control stream leaves that stops at an access. -/
theorem ctlStop_stopsAt (s : State) (e : Stop) : stopsAt s (ctlStop s e) e := by
  have kept := keepsData_ctlStop s e
  refine ⟨rfl, kept.1, fun sp a device => kept.getByte device a, fun c v h => ?_, fun c v r u h hc hu => ?_, fun h => ?_⟩
  · obtain rfl | ⟨acc, rfl⟩ := h <;> rfl
  · subst h
    have : (c == Cause.pteInvalid) = false := by simpa using hc
    simp [ctlStop, verdict, hu, this]
  · subst h
    rfl

end Sys2Proof.Machine
end

section
/-! SUPPORT. A step (O60): the turn of a stream fetches the word at its PC, decodes it and performs it; the turn of an operation, a channel, a
block or a collective performs what it decodes to. -/

namespace Sys2Proof.Machine
variable {s v : State} {t : Turn} {rest : List Turn} {id : Nat} {e : Engine}

theorem step_turn (h : s.agenda = t :: rest) : step s = act t.act (turnStart s t rest) := by
  rw [step, turn, h]
  rfl

/-! ### Control streams -/

theorem runStream_ctl (focused : v = focus id s) (hid : v.job.id = id) (real : id ≠ 0) (resident : v.job.resident = true) :
    runStream id .ctl s = runCtl v := by
  subst focused
  simp [runStream, hid, real, resident]

theorem takeMarker_none (h : v.job.marker = none) : takeMarker v = v := by
  simp [takeMarker, h]

/-- A ready control stream stops where the word at its PC is not read. -/
theorem runCtl_stops {x : Stop} (running : v.job.st = .running) (quiet : v.job.pending = []) (ready : v.job.wait = .ready)
    (unmarked : v.job.marker = none) (nodarn : v.job.darn = none) (stops : fetchWord v = .error x) :
    runCtl v = ended v.job.id v.job.pc (.next (ctlStop v x)) := by
  simp [runCtl, ctlRuns, goCtl, takeMarker_none unmarked, quiet, running, ready, nodarn, stops]

theorem fetchWord_poisoned {cs : List Chunk} (read : readChunks v (ctlParty v 0) .fetch (.va v.job.pc) 4 = .ok cs)
    (bad : ∃ c ∈ cs, c.bad = true) : fetchWord v = .error (.trap .poison v.job.pc) := by
  have : cs.any Chunk.bad = true := by simpa using bad
  simp [fetchWord, read, this]

theorem fetchWord_stops {x : Stop} (read : readChunks v (ctlParty v 0) .fetch (.va v.job.pc) 4 = .error x) : fetchWord v = .error x := by
  simp [fetchWord, read]

/-! ### Engine streams -/

theorem runStream_eng {u : State} (focused : u = focus id s) (hv : v = { u with curEng := e }) (hid : v.job.id = id) (real : id ≠ 0)
    (resident : v.job.resident = true) (runs : engineRuns v.job e = true) :
    runStream id (.eng e) s = wordEnded e (curStream v).pc (match fetchPatch v with
      | .error x => .next (streamStop v x)
      | .ok i => exec i v) := by
  subst focused hv
  have hid : (focus id s).job.id = id := hid
  have resident : (focus id s).job.resident = true := resident
  simp only [runStream, hid, resident, bne_self_eq_false, decide_eq_false real, Bool.not_true, Bool.or_false, Bool.false_eq_true, if_false]
  rw [runEng]
  exact if_pos runs

theorem Frame.atClock_none {f : Frame} (h : f.cut = none) (now : Nat) : f.atClock now = f := by
  simp [Frame.atClock, h]

theorem Frame.atClock_some {f : Frame} {c : Nat × Nat} (h : f.cut = some c) (now : Nat) : f.atClock now =
    if c.1 = now ∧ f.stage = 0 ∧ f.nEff ≤ f.j ∧ f.j < c.2 then { f with n := max f.n (f.j + 1), nEff := f.j + 1 } else f := by
  simp [Frame.atClock, h, and_assoc]

/-- The trip that an LTRIM of the clock has made to count is counted once. -/
theorem Frame.atClock_idem (now : Nat) (f : Frame) : (f.atClock now).atClock now = f.atClock now := by
  cases h : f.cut with
  | none => rw [atClock_none h, atClock_none h]
  | some c =>
    rw [atClock_some h]
    split
    · exact (atClock_some (f := { f with n := _, nEff := f.j + 1 }) h now).trans (if_neg (by simp))
    next not => rw [atClock_some h, if_neg not]

theorem Frame.atClock_mark (now : Nat) (f : Frame) : (f.mark.atClock now).performs = (f.atClock now).performs := by
  obtain ⟨_, _, _, _, _, _, _, _, _, _, cut⟩ := f
  cases cut with
  | none =>
    simp only [Frame.mark]
    split <;> rfl
  | some c =>
    simp only [Frame.mark]
    split
    · simp only [Frame.atClock]
      split <;> rfl
    · rfl

/-- The stage predicate lets a word through after its decoding is noted where it did before. -/
theorem performs_noteWord (s : State) : performs (noteWord s) = performs s := by
  rw [noteWord, performs, performs, curStream_putStream, EngStream.mapTop]
  cases h : (curStream s).frames with
  | nil => simp [h]
  | cons f r => exact (Frame.atClock_mark ..).trans (congrArg Frame.performs (Frame.atClock_idem ..))

/-- A word that is no first word of a pair is decoded alone. -/
theorem fetchPatch_alone {w : Word32} (read : patchAt v (curStream v).pc = .ok w) (narrow : isWide w = false) :
    fetchPatch v = .ok (decodePatch w none) := by
  simp [fetchPatch, read, narrow]

/-- The second word of a pair that is performed is read behind the first. -/
theorem fetchPatch_pair {w : Word32} (read : patchAt v (curStream v).pc = .ok w) (wide : isWide w = true) (runs : wordRuns v)
    (legal : (decodePatch w (some 0)).raises = false) :
    fetchPatch v = (patchAt v ((curStream v).pc + 4)).map fun u => decodePatch w (some u) := by
  simp only [fetchPatch, read, wide, performs_noteWord, performs_iff.2 runs, legal, Bool.not_false, Bool.and_self, if_true]
  cases patchAt v ((curStream v).pc + 4) <;> rfl

theorem fetchPatch_stops {x : Stop} (read : patchAt v (curStream v).pc = .error x) : fetchPatch v = .error x := by
  simp [fetchPatch, read]

/-! ### Where a word is read, and how its stream stops -/

theorem streamBounds_of {sec : Section} (h : sectionOf v v.job (streamKind v.curEng) = some sec) :
    streamBounds v = (sec.off, sec.off + sec.bytes) := by
  simp [streamBounds, h]

theorem patchAt_beyond {sec : Section} {off : Nat} (h : sectionOf v v.job (streamKind v.curEng) = some sec)
    (beyond : sec.off + sec.bytes < off + 4) : patchAt v off = .error (.trap .illegalPatch (BitVec.ofNat 64 off)) := by
  rw [patchAt, streamBounds_of h, if_pos beyond]

theorem patchAt_within {sec : Section} {off : Nat} (h : sectionOf v v.job (streamKind v.curEng) = some sec)
    (within : off + 4 ≤ sec.off + sec.bytes) :
    patchAt v off = (readExact v (wordParty v) .fetch (.va (v.job.image + BitVec.ofNat 64 off)) 4).map fun d => BitVec.ofNat 32 (leNat d) := by
  rw [patchAt, streamBounds_of h, if_neg (by omega), imageNat]
  cases readExact v (wordParty v) .fetch (.va (v.job.image + BitVec.ofNat 64 off)) 4 <;> rfl

theorem streamStop_posted {y : State} {c : Cause} {a : Word} {r : FaultRec} (other : c ≠ .pteInvalid) (posted : postFault v r = some y) :
    streamStop v (.fault c a r) = streamTrap y c a := by
  have : (c == Cause.pteInvalid) = false := by simpa using other
  simp [streamStop, verdict, posted, this]

/-- A stream that traps stops where it is. -/
theorem stream_streamTrap {y : State} (c : Cause) (a : Word) (real : y.job.id ≠ 0) :
    (streamTrap y c a).job.eng y.curEng = { y.job.eng y.curEng with halt := .trapped } := by
  have join (j : Job) (clock : Nat) (t : Trap) : (j.join clock t).eng y.curEng = j.eng y.curEng := by cases y.curEng <;> rfl
  rw [streamTrap, engTrap, deliver, updJob_self (by rwa [id_putStream]) _ rfl, join]
  exact (eng_setEng ..).trans (if_pos rfl)

/-! ### Operations, channels, blocks and collectives -/

section
variable {u : State} {o : IOp} {i : Instr}

theorem runOp_of (focused : v = focus id { u with curEng := e }) (hid : v.job.id = id) (real : id ≠ 0) (resident : v.job.resident = true)
    (going : (v.job.eng e).opHalt = .going) (started : startedOp (v.job.eng e).pipe = some o) (may : mayGoOn v e o = true)
    (decoded : decodePattern e o.pat = some i) : runOp id e u = exec i (takeUnit v e) := by
  subst focused
  simp [runOp, hid, real, resident, going, started, may, decoded]

/-- An operation takes its unit up again where it is one of an array or of the VX unit that has let it go. -/
theorem resumes_iff (resident : v.job.resident = true) (going : (v.job.eng e).opHalt = .going) (started : startedOp (v.job.eng e).pipe = some o) :
    resumes v.job e = true ↔ (e = .mx ∨ e = .vx) ∧ (v.job.eng e).holds = false := by
  simp [resumes, resident, going, started]

theorem runChan_of {core n : Nat} {c : Chan} (hv : v = { u with curCore := core, curChan := n }) (hc : chanOf v core n = some c)
    (walking : c.st = .walking) (record : c.cpyx = none) (decoded : decodeRecord c.raw = some i) : runChan core n u = exec i v := by
  subst hv
  have hc : chanOf u core n = some c := hc
  simp [runChan, hc, walking, record, decoded]

theorem runIndex_of {k : Nat} {x : IdxEntry} (hv : v = { focus id u with curIdx := k }) (hid : v.job.id = id) (real : id ≠ 0)
    (hx : blockAt v k = some x) (running : x.running = true) (decoded : decodeBlock x.blk = some i) : runIndex id k u = exec i v := by
  subst hv
  have hid : (focus id u).job.id = id := hid
  simp [runIndex, hid, real, hx, running, decoded]

theorem runSlot_of {k : Nat} {x : Slot} (hx : u.slots[k]? = some x) (decoded : decodeDesc x.part.desc = some i) :
    runSlot k u = exec i { u with curSlot := k } := by
  simp [runSlot, hx, decoded]

end

/-- Settles O60: the turn at the head of the agenda, stream by stream and unit by unit. -/
theorem stepRuns : Obligations.StepRuns := by
  refine ⟨fun s v t rest id head hid real resident => ⟨?_, ?_, ?_⟩, fun s t rest head => ⟨?_, ?_, ?_, ?_, ?_⟩⟩
  · intro cs ht hv running quiet ready unmarked nodarn read
    have turn : step s = runCtl v := by rw [step_turn head, ht, act, runStream_ctl hv hid real resident]
    rw [turn, ← hid]
    exact ⟨fun sound => runCtl_ready running quiet ready unmarked nodarn (fetchWord_ok read sound),
      fun bad => runCtl_stops running quiet ready unmarked nodarn (fetchWord_poisoned read bad)⟩
  · intro x ht hv running quiet ready unmarked nodarn read
    have turn : step s = runCtl v := by rw [step_turn head, ht, act, runStream_ctl hv hid real resident]
    refine ⟨ctlStop v x, ?_, ctlStop_stopsAt v x⟩
    rw [turn, ← hid]
    exact runCtl_stops running quiet ready unmarked nodarn (fetchWord_stops read)
  · intro e u pc ht hu hv runs hpc
    have turn := step_turn head
    rw [ht, act, runStream_eng hu hv hid real resident runs] at turn
    have eng : v.curEng = e := by rw [hv]
    subst hpc
    refine ⟨fun w read => ⟨fun narrow => ?_, fun wide performed legal => ⟨fun x second => ?_, fun x second => ?_⟩⟩, fun x read => ?_,
      fun off => ⟨fun ⟨sec, hsec, beyond⟩ => ?_, fun sec b hsec within hb => ?_⟩,
      fun c a => ⟨fun x q hx hq => ?_, fun r y => streamStop_posted⟩, fun y c a hy he => ?_⟩
    · rw [turn, fetchPatch_alone read narrow]
    · rw [turn, fetchPatch_pair read wide performed legal, second]
      rfl
    · rw [turn, fetchPatch_pair read wide performed legal, second]
      rfl
    · rw [turn, fetchPatch_stops read]
    · exact patchAt_beyond (eng ▸ hsec) beyond
    · rw [patchAt_within (eng ▸ hsec) within, ← hb]
      exact ⟨fun d h => by rw [h]; rfl, fun x h => by rw [h]; rfl⟩
    · subst hq hid eng
      obtain rfl | ⟨acc, rfl⟩ := hx <;> rfl
    · subst hy he
      rw [stream_streamTrap c a real]
      exact ⟨rfl, rfl, rfl, rfl⟩
  · intro id e o i v ht hv hid real resident going started window decoded
    have window : (e == .mx && !o.sib && !inWindow v v.job) = false := by
      simpa using window
    refine ⟨fun holds => ?_, fun unit free own clear first => ?_⟩
    · have kept : resumes v.job e = false :=
        Bool.eq_false_iff.2 (mt (resumes_iff resident going started).1 fun ⟨unit, free⟩ => by simp [holds unit] at free)
      have may : mayGoOn v e o = true := by simp [mayGoOn, window, kept]
      rw [step_turn head, ht, act, runOp_of hv hid real resident going started may decoded, takeUnit, kept]
      rfl
    · have taken : resumes v.job e = true := (resumes_iff resident going started).2 ⟨unit, free⟩
      have may : mayGoOn v e o = true := by
        rw [mayGoOn, window, taken]
        simp [own, clear, first]
      rw [step_turn head, ht, act, runOp_of hv hid real resident going started may decoded, takeUnit, if_pos taken]
  · intro core n c i v ht hv hc walking record decoded
    rw [step_turn head, ht, act, runChan_of hv hc walking record decoded]
  · intro id k x i v ht hv hid real hx running decoded
    rw [step_turn head, ht, act, runIndex_of hv hid real hx running decoded]
  · intro k x i v ht hv hx decoded
    rw [step_turn head, ht, act, runSlot_of hx decoded, hv]
  · intro i ht
    rw [step_turn head, ht, act]

end Sys2Proof.Machine
end

section
/-! SUPPORT. Commands of the host (18_host.md R381): how a command ends, and each of those on images, launches, links, power and the report. -/

namespace Sys2Proof.Machine
variable {s t : State} {c : Cmd} {op : Nat}

/-! ### How a command ends -/

theorem command_done {k : State → CmdEnd} {st : Nat} {r : List Byte} (h : starts s op c) (ends : k s = .done t st r) :
    command op k s = .next (complete t c st r) := by
  simp only [command, show nextCmd s op = some c from h, ends]

theorem command_later {k : State → CmdEnd} (h : starts s op c) (waits : k s = .later t) : command op k s = .next t := by
  simp only [command, show nextCmd s op = some c from h, waits]

theorem withCtx_of {a : BitVec 16} {x : Context} (h : contextOf s a = some x) (k : Context → CmdEnd) : withCtx s a k = k x := by
  simp only [withCtx, h]

/-- Dvorol carries out what a command's ARGS ask for, or nothing with status 1. -/
theorem act_command {queue : Nat} {stamp : Word} (h : (s.cmds.find? fun d => d.queue == queue && d.stamp == stamp) = some c) :
    act (.command queue stamp) s =
      (let none' := Host.Outcome.next (if c.mayStart s = true then complete s c 1 [] else s)
       if c.bad = true then none' else
       match Config.commandOf c.opcode c.args with
       | none => none'
       | some i =>
         if commandOp i = c.opcode then
           match exec i { s with curCmd := some (queue, stamp) } with
           | .next t => .next { t with curCmd := none }
           | r => r
         else none') := by
  rw [act, runCommand, h]
  dsimp only
  cases c.bad with
  | true => rfl
  | false =>
    cases Config.commandOf c.opcode c.args with
    | none => rfl
    | some i =>
      by_cases own : commandOp i = c.opcode
      · simp only [Bool.false_eq_true, if_false, Option.filter, own, beq_self_eq_true, if_true] <;> rfl
      · simp only [Bool.false_eq_true, if_false, Option.filter, beq_eq_false_iff_ne.2 own, own]

/-! ### Images (03_encodings.md R66) -/

theorem checkImage_magic {b : List Byte} (h : leNat (b.take 4) ≠ 0x4B495846) : checkImage b = .error 6 := by
  rw [checkImage]
  exact if_pos (bne_iff_ne.2 h)

theorem checkImage_version {b : List Byte} (magic : leNat (b.take 4) = 0x4B495846)
    (h : ¬(1 ≤ leNat ((b.drop 4).take 2) ∧ leNat ((b.drop 4).take 2) ≤ 3)) : checkImage b = .error 5 := by
  have out : (leNat ((b.drop 4).take 2) == 0 || decide (3 < leNat ((b.drop 4).take 2))) = true := by
    simp only [Bool.or_eq_true, beq_iff_eq, decide_eq_true_eq]
    omega
  rw [checkImage]
  exact (if_neg (by simp [magic])).trans (if_pos out)

/-- Status 5 is that of a version; every other fault of an image is status 6. -/
theorem checkImage_status {b : List Byte} {st : Nat} (low : 1 ≤ leNat ((b.drop 4).take 2)) (high : leNat ((b.drop 4).take 2) ≤ 3)
    (h : checkImage b = .error st) : st = 6 := by
  have inside : (leNat ((b.drop 4).take 2) == 0 || decide (3 < leNat ((b.drop 4).take 2))) = false := by
    simp only [Bool.or_eq_false_iff, beq_eq_false_iff_ne, decide_eq_false_iff_not]
    omega
  rw [checkImage] at h
  dsimp only at h
  rw [inside] at h
  split at h
  · cases h; rfl
  · rw [if_neg Bool.false_ne_true] at h
    split at h
    · cases h; rfl
    · cases h

/-- An image that would not hold its own header is refused. -/
theorem checkImage_short {b : List Byte} (h : leNat ((b.drop 16).take 8) < 64) : ∃ st, checkImage b = .error st := by
  rw [checkImage]
  dsimp only
  split
  · exact ⟨_, rfl⟩
  · split
    · exact ⟨_, rfl⟩
    · rw [if_pos]
      · exact ⟨_, rfl⟩
      · have short : leNat ((b.drop 16).take 8) < 64 + 16 * leNat ((b.drop 8).take 2) := by omega
        simp [short]

theorem headReads_iff {h : List Byte} : headReads h = true ↔ leNat (h.take 4) = 0x4B495846 ∧ 1 ≤ leNat ((h.drop 4).take 2) ∧
    leNat ((h.drop 4).take 2) ≤ 3 ∧ 64 ≤ leNat ((h.drop 16).take 8) ∧ leNat ((h.drop 16).take 8) < 2 ^ 57 := by
  simp [headReads, and_assoc]

section
variable {a : BitVec 16} {x : Context} {va : Word} (hx : contextOf s a = some x)
include hx

theorem modload_waits (start : starts s 3 c) (waits : hubWaiting s (hubParty a) = true) : exec (.modload a va) s = .next s := by
  show execModload a va s = _
  refine command_later start ?_
  rw [withCtx_of hx]
  exact if_pos waits

/-- The image that MODLOAD reads: the whole where the header lets it be read, else the header. -/
theorem modload_read (start : starts s 3 c) (free : hubWaiting s (hubParty a) = false) {h b : List Byte}
    (header : readExact s (hubParty a) .read (.va va) 64 = .ok h)
    (whole : headReads h = true → readExact s (hubParty a) .read (.va va) (leNat ((h.drop 16).take 8)) = .ok b)
    (head : headReads h = false → b = h) :
    (∀ ver secs, checkImage b = .ok (ver, secs) → exec (.modload a va) s = .next (complete { takeReplies s .hub with
        measures := s.measures ++ [shake256 b]
        contexts := s.contexts.map fun y =>
          if y.args.asid = a then { y with images := y.images.filter (fun i => i.addr != va) ++ [{ addr := va, version := ver, sections := secs }] }
          else y } c 0 (leBytes 8 va.toNat))) ∧
      ∀ st, checkImage b = .error st → exec (.modload a va) s = .next (complete (takeReplies s .hub) c st []) := by
  have read : (if headReads h then readExact s (hubParty a) .read (.va va) (leNat ((h.drop 16).take 8)) else .ok h) = .ok b := by
    cases reads : headReads h with
    | true => exact whole reads
    | false => rw [head reads]; rfl
  constructor
  · intro ver secs ok
    show execModload a va s = _
    refine command_done start ?_
    rw [withCtx_of hx]
    simp only [free, header, read, ok]
    rfl
  · intro st bad
    show execModload a va s = _
    refine command_done start ?_
    rw [withCtx_of hx]
    simp only [free, header, read, bad]
    rfl

/-! ### Launches (04_jobs.md R84) -/

theorem launchCommand_queue (start : starts s 4 c) {q : Nat} (h : 16 ≤ q) : exec (.launchCommand a q va) s = .next (complete s c 1 []) := by
  show execLaunchCommand a q va s = _
  refine command_done start ?_
  rw [withCtx_of hx]
  exact if_pos h

variable {queue : Nat} {stamp : Word} {q : Nat} (cur : s.curCmd = some (queue, stamp)) (hq : q < 16)
include cur hq

theorem launchCommand_done (start : starts s 4 c) {u : State} (entered : enqueueFor s a va q (.host queue stamp) .hub = .done u)
    (inside : ∀ l ∈ (queueOf u q).waiting, l.source ≠ .host queue stamp) : exec (.launchCommand a q va) s = .next (complete u c 0 []) := by
  show execLaunchCommand a q va s = _
  refine command_done start ?_
  rw [withCtx_of hx, if_neg (by omega)]
  simp only [cur, Option.getD_some, entered]
  rw [if_neg (by simpa using inside)]

theorem launchCommand_waits (start : starts s 4 c) {u : State} (entered : enqueueFor s a va q (.host queue stamp) .hub = .done u)
    (waits : ∃ l ∈ (queueOf u q).waiting, l.source = .host queue stamp) : exec (.launchCommand a q va) s = .next u := by
  show execLaunchCommand a q va s = _
  refine command_later start ?_
  rw [withCtx_of hx, if_neg (by omega)]
  simp only [cur, Option.getD_some, entered]
  rw [if_pos (by simpa using waits)]

theorem launchCommand_refused (start : starts s 4 c) {u : State} {n st : Nat}
    (refused : enqueueFor s a va q (.host queue stamp) .hub = .refused u n st) :
    exec (.launchCommand a q va) s = .next (complete u c 7 (leBytes 1 n)) := by
  show execLaunchCommand a q va s = _
  refine command_done start ?_
  rw [withCtx_of hx, if_neg (by omega)]
  simp only [cur, Option.getD_some, refused]

end

/-- The command of a launch that has waited completes. -/
theorem clearWait_host {l : Launch} {queue : Nat} {stamp : Word} (source : l.source = .host queue stamp)
    (h : (s.cmds.find? fun d => d.queue == queue && d.stamp == stamp) = some c) : clearWait s l = complete s c 0 [] := by
  simp only [clearWait, source, completeAt, h]

/-- A command whose launch waits for room is not taken up again. -/
theorem mayStart_waiting {l : Launch} {q : Nat} (source : l.source = .host c.queue c.stamp) (hq : q < 16) (h : l ∈ (queueOf s q).waiting) :
    c.mayStart s = false := by
  have there : (s.queues.toList.any fun x => x.waiting.any fun l => l.source == .host c.queue c.stamp) = true := by
    refine List.any_eq_true.2 ⟨queueOf s q, ?_, List.any_eq_true.2 ⟨l, h, by simp [source]⟩⟩
    have inside : q < s.queues.toList.length := by simpa using hq
    rw [queueOf, List.getD_eq_getElem _ _ inside]
    exact List.getElem_mem _
  simp [Cmd.mayStart, there]

/-! ### Links and power (R385, R389) -/

/-- What LINK asks of an entry of the peer permission table (16_fabric.md R348). -/
def peerFits (k : Nat) (v : BitVec 256) : Prop :=
  k < 256 ∧ v.extractLsb' 14 2 = (0 : BitVec 2) ∧ v.extractLsb' 32 32 = (0 : BitVec 32) ∧ v.extractLsb' 64 16 = (0 : BitVec 16) ∧
    v.extractLsb' 128 16 = (0 : BitVec 16) ∧ v.extractLsb' 192 64 = (0 : BitVec 64)

theorem peerFits_iff {k : Nat} {v : BitVec 256} : peerFits k v ↔
    (256 ≤ k || !isZero v 14 2 || !isZero v 32 32 || !isZero v 64 16 || !isZero v 128 16 || !isZero v 192 64) = false := by
  simp [peerFits, isZero, bits, and_assoc]

theorem link_peer (start : starts s 8 c) {k : Nat} {v : BitVec 256} (fits : peerFits k v) (port : Nat) (up : Bool) :
    exec (.link (some (k, v)) port up) s = .next (complete { s with peers := sset s.peers k v } c 0 []) := by
  show execLink (some (k, v)) port up s = _
  refine command_done start ?_
  dsimp only
  rw [peerFits_iff.1 fits]
  rfl

theorem link_peer_refused (start : starts s 8 c) {k : Nat} {v : BitVec 256} (misfit : ¬peerFits k v) (port : Nat) (up : Bool) :
    exec (.link (some (k, v)) port up) s = .next (complete s c 1 []) := by
  show execLink (some (k, v)) port up s = _
  refine command_done start ?_
  dsimp only
  rw [eq_true_of_ne_false (mt peerFits_iff.2 misfit)]
  rfl

/-- A port is set where it is connected, and comes up only where its partner has agreed in training and the power state leaves links up. -/
theorem link_port (start : starts s 8 c) {port : Nat} {up : Bool} (there : connected s port = true)
    (agreed : up = true → port ∈ s.goodPorts ∧ s.powerState ≠ 3) :
    exec (.link none port up) s = .next (complete (sendWaiting (putLink s port { Link.zero with up })) c 0 []) := by
  have may : (connected s port && (!up || mayComeUp s port)) = true := by
    cases up with
    | false => simp [there]
    | true => simpa [mayComeUp, there] using agreed rfl
  show execLink none port up s = _
  exact command_done start (if_pos may)

theorem link_port_refused (start : starts s 8 c) {port : Nat} {up : Bool}
    (h : connected s port = false ∨ (up = true ∧ (port ∉ s.goodPorts ∨ s.powerState = 3))) :
    exec (.link none port up) s = .next (complete s c 1 []) := by
  have may : ¬(connected s port && (!up || mayComeUp s port)) = true := by
    obtain off | ⟨rfl, h⟩ := h
    · simp [off]
    · simp only [mayComeUp, Bool.not_true, Bool.false_or, Bool.and_eq_true, List.contains_iff_mem, bne_iff_ne]
      tauto
  show execLink none port up s = _
  exact command_done start (if_neg may)

/-- A bank that power state 2 gates: no job's region overlaps it, and it is neither gated nor waking. -/
def bankUnused (s : State) (core bank : Nat) : Prop :=
  core < 288 ∧ bank < 32 ∧ (core, bank) ∉ s.gated ∧ (∀ w ∈ s.waking, ¬(w.1 = core ∧ w.2.1 = bank)) ∧
    ∀ j ∈ jobsOn s core, (bank + 1) * 262144 ≤ j.spbase.toNat ∨ j.splim.toNat ≤ bank * 262144

theorem mayGate_iff {core bank : Nat} : mayGate s core bank = true ↔ bankUnused s core bank := by
  refine ⟨fun h => ?_, fun ⟨hcore, hbank, on, awake, unused⟩ => mayGate_unused hcore hbank unused on awake⟩
  simp only [mayGate, Bool.and_eq_true, decide_eq_true_eq, Bool.not_eq_true', List.any_eq_false] at h
  obtain ⟨⟨⟨⟨hcore, hbank⟩, on⟩, awake⟩, unused⟩ := h
  refine ⟨hcore, hbank, by simpa using on, fun w hw => by simpa using awake w hw, fun j hj => ?_⟩
  have apart : bank ∉ regionBanks j.spbase.toNat j.splim.toNat := mt List.contains_iff_mem.2 (unused j hj)
  rw [mem_regionBanks] at apart
  omega

/-- The banks that power state 2 gates. -/
def unusedBanks (s : State) : List (Nat × Nat) :=
  (List.range Config.cores).flatMap fun c => ((List.range 32).filter (mayGate s c)).map fun b => (c, b)

theorem mem_unusedBanks {core bank : Nat} : (core, bank) ∈ unusedBanks s ↔ bankUnused s core bank := by
  have cores {n : Nat} (h : bankUnused s n bank) : n < Config.cores := h.1
  simp only [unusedBanks, List.mem_flatMap, List.mem_range, List.mem_map, List.mem_filter, mayGate_iff]
  constructor
  · rintro ⟨n, _, b, ⟨_, unused⟩, heq⟩
    cases heq
    exact unused
  · exact fun h => ⟨core, cores h, bank, ⟨h.2.1, h⟩, rfl⟩

/-- Every link that is listed is taken down. -/
theorem links_down (l : List (Nat × Link)) (s : State) (p : Nat) :
    (linkOf (l.foldl (fun s x => linkSet s x.1 false) s) p).up = if p ∈ l.map Prod.fst then false else (linkOf s p).up := by
  induction l generalizing s with
  | nil => simp
  | cons x r ih =>
    rw [List.foldl_cons, ih, linkSet, linkOf_putLink]
    by_cases first : p = x.1
    · simp [first]
    · rw [if_neg first]
      exact if_congr (by rw [List.map_cons, List.mem_cons, or_iff_right first]) rfl rfl

/-- Nothing but links changes. -/
theorem links_down_frame (l : List (Nat × Link)) (s : State) :
    ∃ links, l.foldl (fun s x => linkSet s x.1 false) s = { s with links } := by
  induction l generalizing s with
  | nil => exact ⟨_, rfl⟩
  | cons x r ih => exact ih _

theorem lookupD_absent {α β : Type} [DecidableEq α] (d : β) {l : List (α × β)} {k : α} (h : k ∉ l.map Prod.fst) : lookupD d l k = d := by
  induction l with
  | nil => rfl
  | cons x r ih =>
    rw [List.map_cons, List.mem_cons, not_or] at h
    rw [lookupD, if_neg (Ne.symm h.1), ih h.2]

theorem power_caps (start : starts s 9 c) {st : Fin 4} (caps : List Nat) (on : st ≠ 2) (up : st ≠ 3) :
    exec (.power st caps) s = .next (complete { s with powerState := st, caps } c 0 []) := by
  show execPower st caps s = _
  refine command_done start ?_
  dsimp only
  rw [if_neg on, if_neg up]

/-- Power state 2 gates the banks that are unused. -/
theorem power_gates (start : starts s 9 c) (caps : List Nat) :
    exec (.power 2 caps) s = .next (complete (gateBanks { s with powerState := 2, caps } (unusedBanks s)) c 0 []) := by
  show execPower 2 caps s = _
  exact command_done start rfl

/-- Power state 3 takes every link down. -/
theorem power_links (start : starts s 9 c) (caps : List Nat) : ∃ links,
    exec (.power 3 caps) s = .next (complete { s with powerState := 3, caps, links } c 0 []) ∧
      ∀ p, (linkOf { s with powerState := 3, caps, links } p).up = false := by
  obtain ⟨links, h⟩ := links_down_frame s.links { s with powerState := 3, caps }
  refine ⟨links, ?_, fun p => ?_⟩
  · show execPower 3 caps s = _
    exact command_done start (congrArg (CmdEnd.done · 0 []) h)
  · have down := links_down s.links { s with powerState := 3, caps } p
    rw [h] at down
    rw [down]
    split
    · rfl
    next h => exact congrArg Link.up (lookupD_absent Link.zero h)

/-! ### Queries and the report (R381, R387) -/

theorem query_done (start : starts s 7 c) : exec .query s = .next (complete s c 0 []) := by
  show execQuery s = _
  exact command_done start rfl

theorem errlog_clears (start : starts s 10 c) : exec .errlog s = .next (complete { s with errLog := [] } c 0 []) := by
  show execErrlog s = _
  exact command_done start rfl

theorem measure_refused (start : starts s 11 c) {nonce : List Byte} (h : nonce = [] ∨ 64 < nonce.length) :
    exec (.measure nonce) s = .next (complete s c 1 []) := by
  have out : (nonce.isEmpty || decide (64 < nonce.length)) = true := by simpa using h
  show execMeasure nonce s = _
  exact command_done start (if_pos out)

theorem measure_reports (start : starts s 11 c) {nonce : List Byte} (given : nonce ≠ []) (fits : nonce.length ≤ 64) :
    exec (.measure nonce) s = .next (complete { s with report := report s nonce } c 0 ((report s nonce).take 56)) := by
  have inside : ¬(nonce.isEmpty || decide (64 < nonce.length)) = true := by simpa using ⟨given, fits⟩
  show execMeasure nonce s = _
  exact command_done start (if_neg inside)

end Sys2Proof.Machine
end

section
/-! SUPPORT. The GRAPH command (04_jobs.md R98, R100), and the statement on the commands of the host (O42). -/

namespace Sys2Proof.Machine
variable {s : State} {c : Cmd} {a : BitVec 16} {x : Context} {va : Word} {h b : List Byte}

/-! ### Loading -/

/-- The header of a graph is one: its number of nodes, its entry, the address of its nodes, and zeros behind. -/
def graphHeadFits (h : List Byte) : Prop :=
  1 ≤ leNat (h.take 2) ∧ leNat (h.take 2) ≤ 256 ∧ leNat ((h.drop 2).take 2) < leNat (h.take 2) ∧ leNat ((h.drop 16).take 8) % 64 = 0 ∧
    leNat ((h.drop 24).take 40) = 0

/-- The 64-byte nodes of a graph. -/
def graphNodes (b : List Byte) : List (BitVec 512) := (cut 64 b).map (ofBytes 512)

/-- The lowest number that no graph of a context has. -/
def lowestFree (s : State) (a : BitVec 16) (k : Nat) : Prop :=
  k < 64 ∧ (∀ g ∈ s.graphs, g.asid = a → g.num ≠ k) ∧ ∀ i, i < k → ∃ g ∈ s.graphs, g.asid = a ∧ g.num = i

/-- The graph that a header and nodes describe, under a number. -/
def loadedGraph (a : BitVec 16) (k : Nat) (h b : List Byte) : Graph :=
  { asid := a, num := k, entry := leNat ((h.drop 2).take 2), maxRun := leNat ((h.drop 4).take 4)
    status := BitVec.ofNat 64 (leNat ((h.drop 8).take 8))
    nodes := (graphNodes b).map fun raw => { raw, pending := 0, running := false, done := false, mark := 0 }
    running := false, gen := 0, runs := 0, result := 0, last := 0 }

theorem raw_loadedGraph (a : BitVec 16) (k : Nat) (h b : List Byte) : (loadedGraph a k h b).nodes.map GNode.raw = graphNodes b := by
  rw [loadedGraph, List.map_map]
  exact List.map_id _

theorem firstBelow_lowestFree {k : Nat} (low : lowestFree s a k) :
    firstBelow graphSlots (fun k => !(s.graphs.filter fun g => g.asid == a).any fun g => g.num == k) = some k := by
  obtain ⟨small, free, taken⟩ := low
  refine List.find?_range_eq_some.2 ⟨?_, List.mem_range.2 small, fun i hi => ?_⟩
  · simpa using free
  · obtain ⟨g, there, own, num⟩ := taken i hi
    simpa using ⟨g, there, own, num⟩

theorem graphHeadFits_iff : graphHeadFits h ↔
    (leNat (h.take 2) == 0 || 256 < leNat (h.take 2) || leNat (h.take 2) ≤ leNat ((h.drop 2).take 2) ||
      leNat ((h.drop 16).take 8) % 64 != 0 || leNat ((h.drop 24).take 40) != 0) = false := by
  simp [graphHeadFits, and_assoc, Nat.one_le_iff_ne_zero]

theorem graphLoad_waits (hx : contextOf s a = some x) (start : starts s 5 c) (waits : hubWaiting s (hubParty a) = true) :
    exec (.graphLoad a va) s = .next s := by
  show execGraphLoad a va s = _
  refine command_later start ?_
  rw [withCtx_of hx]
  exact if_pos waits

/-- A graph is loaded under the lowest free number. -/
theorem graphLoad_done (hx : contextOf s a = some x) (start : starts s 5 c) (free : hubWaiting s (hubParty a) = false)
    (header : readExact s (hubParty a) .read (.va va) 64 = .ok h) (fits : graphHeadFits h)
    (read : readExact s (hubParty a) .read (.va (BitVec.ofNat 64 (leNat ((h.drop 16).take 8)))) (64 * leNat (h.take 2)) = .ok b)
    (nodes : ∀ y ∈ graphNodes b, nodeBad x (leNat (h.take 2)) y = false)
    (entry : nodeJoin ((graphNodes b).getD (leNat ((h.drop 2).take 2)) 0) = 0)
    (room : (s.graphs.filter fun g => g.asid == a).length < x.args.quotaGraphs) {k : Nat} (low : lowestFree s a k) :
    exec (.graphLoad a va) s =
      .next (complete { takeReplies s .hub with graphs := s.graphs ++ [loadedGraph a k h b] } c 0 (leBytes 8 k)) := by
  have sound : ((graphNodes b).any (nodeBad x (leNat (h.take 2))) ||
      nodeJoin ((graphNodes b).getD (leNat ((h.drop 2).take 2)) 0) != 0) = false := by
    rw [entry]
    simpa using nodes
  show execGraphLoad a va s = _
  refine command_done start ?_
  rw [withCtx_of hx]
  simp only [free, Bool.false_eq_true, if_false, header, List.drop_zero, graphHeadFits_iff.1 fits, read]
  rw [graphNodes] at sound
  simp only [sound, Bool.false_eq_true, if_false, if_neg (Nat.not_le.2 room), firstBelow_lowestFree low]
  rfl

/-! ### Starting -/

section
variable {g k : Nat} {y : Graph} (hx : contextOf s a = some x) (start : starts s 5 c)
include hx start

theorem graphQuery_done (hy : graphOf s a g = some y) : exec (.graphQuery a g) s = .next (complete s c 0 []) := by
  show execGraphQuery a g s = _
  refine command_done start ?_
  rw [withCtx_of hx, hy]
  rfl

theorem graphQuery_none (hy : graphOf s a g = none) : exec (.graphQuery a g) s = .next (complete s c 3 []) := by
  show execGraphQuery a g s = _
  refine command_done start ?_
  rw [withCtx_of hx, hy]
  rfl

theorem graphStart_none (hy : graphOf s a g = none) : exec (.graphStart a g) s = .next (complete s c 3 []) := by
  show execGraphStart a g s = _
  refine command_done start ?_
  rw [withCtx_of hx, hy]

theorem graphStart_running (hy : graphOf s a g = some y) (running : y.running = true) :
    exec (.graphStart a g) s = .next (complete s c 4 []) := by
  show execGraphStart a g s = _
  refine command_done start ?_
  simp only [withCtx_of hx, hy, running, if_true]

theorem graphStart_done (hy : graphOf s a g = some y) (idle : y.running = false) :
    exec (.graphStart a g) s = .next (complete (putGraph s (y.start s)) c 0 []) := by
  show execGraphStart a g s = _
  refine command_done start ?_
  simp only [withCtx_of hx, hy, idle, Bool.false_eq_true, if_false]

end

/-- A node whose pending count stands at its JOIN. -/
def GNode.rearmed (n : GNode) : GNode := { n with pending := nodeJoin n.raw, running := false, done := false, mark := 0 }

theorem nodes_start (y : Graph) (k : Nat) :
    (y.start s).nodes[k]? = y.nodes[k]?.map fun n => if y.entry = k then startNode s y.asid n.rearmed else n.rearmed := by
  rw [Graph.start, Graph.upd, List.getElem?_modify, List.getElem?_map]
  cases y.nodes[k]? <;> rfl

/-! ### The statement -/

/-- Settles O42: each command by its opcode, on what its ARGS ask for. -/
theorem hostCommands : Obligations.HostCommands := by
  intro s a x c va hx
  refine ⟨fun queue stamp h => act_command h, fun waits => ⟨fun start => modload_waits hx start waits, fun start => graphLoad_waits hx start waits⟩,
    fun start free => ?images, fun start q => ⟨fun h => launchCommand_queue hx start h, fun hq queue stamp cur => ?launches⟩,
    fun l queue stamp source => ⟨clearWait_host source, ?waiting⟩, fun start => ⟨?graphs, ?noGraph, ?load⟩, query_done,
    fun start k port up => ⟨?peer, ?misfit, link_port start, link_port_refused start⟩, fun start st caps => ⟨power_caps start caps, ?gates, ?down⟩,
    errlog_clears, fun start nonce => ⟨measure_refused start, ?report⟩⟩
  case images =>
    intro h b ver secs v n whole header hv hn hwhole read head
    subst hv hn
    rw [← headReads_iff] at hwhole
    obtain ⟨loads, refuses⟩ := modload_read hx start free header (fun reads => read (hwhole.2 reads))
      fun short => head fun w => Bool.false_ne_true (short.symm.trans (hwhole.1 w))
    exact ⟨checkImage_magic, checkImage_version, fun low high _ => checkImage_status low high, checkImage_short, loads ver secs, refuses⟩
  case launches =>
    exact ⟨fun u entered => ⟨launchCommand_done hx cur hq start entered, launchCommand_waits hx cur hq start entered⟩,
      fun u n st => launchCommand_refused hx cur hq start⟩
  case waiting =>
    rintro ⟨q, hq, there⟩ rfl rfl
    exact mayStart_waiting source hq there
  case graphs =>
    intro g y hy
    refine ⟨graphQuery_done hx start hy, graphStart_running hx start hy, fun idle n hn => ⟨y.start s, graphStart_done hx start hy idle, rfl, rfl, rfl,
      fun k m other hm => ?_, ?_⟩⟩
    · rw [nodes_start, hm]
      exact congrArg some (if_neg (Ne.symm other))
    · rw [nodes_start, hn]
      exact congrArg (Option.map GNode.running) (congrArg some (if_pos rfl))
  case noGraph => exact fun g hy => ⟨graphStart_none hx start hy, graphQuery_none hx start hy⟩
  case load =>
    intro h b n nodes k free header hn nonempty few entry aligned zeros read hnodes sound entryJoin room small fresh taken
    subst hn hnodes
    exact ⟨_, loadedGraph a k h b,
      graphLoad_done hx start free header ⟨nonempty, few, entry, aligned, zeros⟩ read sound entryJoin room ⟨small, fresh, taken⟩, rfl, rfl, rfl, rfl,
      raw_loadedGraph a k h b, fun _ _ _ => rfl⟩
  case peer => exact fun v small r1 r2 r3 r4 r5 => link_peer start ⟨small, r1, r2, r3, r4, r5⟩ port up
  case misfit =>
    intro v out
    refine link_peer_refused start ?_ port up
    rintro ⟨small, r1, r2, r3, r4, r5⟩
    simp only [r1, r2, r3, r4, r5, ne_eq, not_true_eq_false, or_false] at out
    exact Nat.not_le.2 small out
  case gates =>
    intro unused hunused
    have banks (core bank : Nat) : (core, bank) ∈ unusedBanks s ↔ unused core bank := mem_unusedBanks.trans (hunused core bank).symm
    refine ⟨_, power_gates start caps, rfl, fun core bank => List.mem_append.trans (or_congr Iff.rfl (banks core bank)), fun core bank o hbank lo hi => ?_⟩
    have own : o / 262144 = bank := by omega
    rw [getByte_gateBanks _ _ _ (by omega), own]
    exact ⟨fun h => if_pos ((banks core bank).2 h), fun h => if_neg (mt (banks core bank).1 h)⟩
  case down =>
    obtain ⟨links, ends, down⟩ := power_links start caps
    exact ⟨_, ends, rfl, down⟩
  case report =>
    intro given fits b r hb hr
    subst hb hr
    exact measure_reports start given fits

end Sys2Proof.Machine
end

section
/-! SUPPORT. The device right after a device reset (O59): its launch queues, and the statement. -/

namespace Sys2Proof.Machine

/-- The launch queues stand at their reset values: four to each class (04_jobs.md R83). -/
theorem reset_queues (q : Fin 16) : State.reset.queues[q] = { cls := q.val / 4, entries := [], waiting := [] } :=
  Vector.getElem_ofFn q.isLt

/-- Settles O59: each register and list as State.reset writes it, the launch queues by reset_queues. -/
theorem resetState : Obligations.ResetState := by
  refine ⟨rfl, rfl, rfl, rfl, rfl, rfl, rfl, rfl, rfl, rfl, rfl, rfl, rfl, fun _ => rfl, fun _ => ⟨rfl, rfl, rfl⟩, fun q => ?_⟩
  rw [reset_queues]
  exact ⟨rfl, rfl⟩

end Sys2Proof.Machine
end

section
/-! SUPPORT. Control words of an engine stream (07_queues.md R169, R173, R174, 04_jobs.md R95, 11_sync.md R253, R255): loops, predicates,
tokens and barriers (O26). -/

namespace Sys2Proof.Machine

/-! ### What the stream that acts leaves alone -/

@[simp] theorem streamBounds_putStream (s : State) (x : EngStream) : streamBounds (putStream s x) = streamBounds s := by
  have section_same := sectionOf_putStream s x (streamKind s.curEng)
  rw [streamBounds, putStream_curEng, section_same]
  rfl

@[simp] theorem barAt_setEng (j : Job) (e : Engine) (x : EngStream) (o : BarOp) : (j.setEng e x).barAt o = j.barAt o := by cases e <;> rfl

@[simp] theorem token_setEng (j : Job) (e : Engine) (x : EngStream) (k : Nat) : (j.setEng e x).token k = j.token k := by cases e <;> rfl

/-- What an instruction reads of a barrier are its counts as the clock began. -/
theorem Barrier.began_eq_start (x : Barrier) : x.began.1 = x.start := by
  rw [Barrier.began, Barrier.start]
  cases x.was <;> rfl

theorem noted_outside {s : State} (h : (noted s).frames = []) : noted s = curStream s := by
  rw [noted] at h ⊢
  split at h
  · rfl
  · nomatch h

/-! ### LOOP -/

/-- The frame that a LOOP with count n opens. -/
def EngStream.newFrame (x : EngStream) (n stages : Nat) : Frame :=
  { loopPc := x.pc, start := x.pc + 4, n, nEff := n, s := stages, j := 0, started := 0, base := 0, stage := 0, bounded := false }

/-- The words before the matching ENDL of the LOOP at the PC of stream x, scanned in state s. -/
def endlOf (s : State) (x : EngStream) : Except Stop (Option Nat) :=
  matchEndl (putStream s x) (streamBounds s).2 (((streamBounds s).2 - (x.pc + 4)) / 4 + 1) (x.pc + 4) 1

section
variable {s : State} {w : Word32} {stages n after : Nat} {x : EngStream}

theorem withEndl_found {k : Nat → State} (h : endlOf s x = .ok (some after)) : withEndl (putStream s x) w k = k after := by
  rw [endlOf] at h
  simp [withEndl, h]

theorem withEndl_missing {k : Nat → State} (h : endlOf s x = .ok none) :
    withEndl (putStream s x) w k = streamTrap (putStream s x) .illegalInstr (w.setWidth 64) := by
  rw [endlOf] at h
  simp [withEndl, h]

/-- A LOOP that does not stand inside four frames: its ENDL decides. -/
theorem loop_scans (h : ¬(wordRuns s ∧ 4 ≤ (noted s).frames.length)) : loop w stages n s =
    .next (withEndl (putStream s (noted s)) w fun after =>
      if !performs s then putStream s { noted s with pc := after }
      else if n = 0 then putStream s { noted s with pc := after, held := if (noted s).frames.isEmpty then none else (noted s).held }
      else putStream s (openLoop (noted s) n stages)) := by
  have shallow : (performs s && decide (4 ≤ (noted s).frames.length)) = false := by
    rw [← performs_iff] at h
    simpa using h
  simp [loop, noteWord_eq, shallow]

theorem loop_deep (runs : wordRuns s) (h : 4 ≤ (noted s).frames.length) :
    loop w stages n s = .next (streamTrap (putStream s (noted s)) .illegalInstr (w.setWidth 64)) := by
  simp [loop, noteWord_eq, performs_iff.2 runs, h]

theorem loop_missing (h : endlOf s (noted s) = .ok none) :
    loop w stages n s = .next (streamTrap (putStream s (noted s)) .illegalInstr (w.setWidth 64)) := by
  by_cases deep : wordRuns s ∧ 4 ≤ (noted s).frames.length
  · exact loop_deep deep.1 deep.2
  · rw [loop_scans deep, withEndl_missing h]

theorem loop_skips (skips : ¬wordRuns s) (h : endlOf s (noted s) = .ok (some after)) :
    loop w stages n s = .next (putStream s { noted s with pc := after }) := by
  have out : performs s = false := eq_false_of_ne_true (mt performs_iff.1 skips)
  rw [loop_scans fun deep => skips deep.1, withEndl_found h, out]
  rfl

theorem loop_empty (runs : wordRuns s) (shallow : (noted s).frames.length < 4) (h : endlOf s (noted s) = .ok (some after)) :
    loop w stages 0 s = .next (putStream s { noted s with pc := after, held := if (noted s).frames = [] then none else (noted s).held }) := by
  rw [loop_scans fun deep => Nat.not_le.2 shallow deep.2, withEndl_found h, performs_iff.2 runs]
  cases (noted s).frames <;> rfl

theorem loop_opens (runs : wordRuns s) (shallow : (noted s).frames.length < 4) (trips : n ≠ 0) (h : endlOf s (noted s) = .ok (some after)) :
    loop w stages n s = .next (putStream s (openLoop (noted s) n stages)) := by
  rw [loop_scans fun deep => Nat.not_le.2 shallow deep.2, withEndl_found h, performs_iff.2 runs]
  simp [trips]

/-- No bound of LTRIM is held for this loop. -/
theorem openLoop_free (h : x.frames ≠ [] ∨ x.held = none) :
    openLoop x n stages = { x with pc := x.pc + 4, frames := x.newFrame n stages :: x.frames } := by
  rw [openLoop]
  split
  next outside held => simp_all
  · rfl

theorem openLoop_held {b : BitVec 32} (outside : x.frames = []) (h : x.held = some b) :
    openLoop x n stages = { x with pc := x.pc + 4, held := none, frames := [(x.newFrame n stages).trim (b.setWidth 64)] } := by
  rw [openLoop]
  simp only [outside, h]
  rfl

theorem newFrame_trim_nEff (b : BitVec 32) : ((x.newFrame n stages).trim (b.setWidth 64)).nEff = min n (b.toNat + 1) := by
  have wide : (b.setWidth 64).toNat = b.toNat := by
    rw [BitVec.toNat_setWidth]
    exact Nat.mod_eq_of_lt (by omega)
  simp [Frame.trim, EngStream.newFrame, wide]

end

/-! ### ENDL and PRED -/

section
variable {s : State} {f : Frame} {r : List Frame}

theorem exec_endl_outside (h : (curStream s).frames = []) : exec .endl s = .next (putStream s { curStream s with wait := .segment }) := by
  show execEndl s = _
  simp only [execEndl, h]

theorem exec_endl_trips (h : (curStream s).frames = f :: r) (more : f.j + 2 < f.nEff + f.s) : exec .endl s =
    .next (putStream s { curStream s with pc := f.start, frames := { f with j := f.j + 1, stage := 0 } :: r }) := by
  show execEndl s = _
  simp only [execEndl, h, if_neg (Nat.not_le.2 more)]

theorem exec_endl_leaves (h : (curStream s).frames = f :: r) (last : f.nEff + f.s ≤ f.j + 2) (free : f.bounded = false) :
    exec .endl s = .next (putStream s { curStream s with pc := (curStream s).pc + 4, frames := r }) := by
  show execEndl s = _
  simp only [execEndl, h, if_pos last, free, Bool.false_and, Bool.false_eq_true, if_false]

variable {st : Fin 4}

theorem exec_pred_selects (h : (noted s).frames = f :: r) (within : st.val < f.s) : exec (.pred st) s =
    .next (putStream s { noted s with pc := (noted s).pc + 4, frames := { f with stage := st.val } :: r }) := by
  show execPred st s = _
  simp only [execPred, noteWord_eq, curStream_putStream, h, if_pos within, putStream_putStream]

theorem exec_pred_traps (h : (noted s).frames = [] ∨ ∃ f r, (noted s).frames = f :: r ∧ f.s ≤ st.val) : exec (.pred st) s =
    .next (streamTrap (putStream s (noted s)) .illegalInstr ((encCtrl 9 (0#18 ++ (BitVec.ofFin st : BitVec 2))).setWidth 64)) := by
  show execPred st s = _
  obtain outside | ⟨f, r, inside, beyond⟩ := h
  · simp only [execPred, noteWord_eq, curStream_putStream, outside]
  · simp only [execPred, noteWord_eq, curStream_putStream, inside, if_neg (Nat.not_lt.2 beyond)]

end

/-! ### The words that a stage predicate may skip -/

section
variable {s : State} {x : EngStream} {o : BarOp} {b : BarId} {p q : Bool} {n : Fin 16} {c : BitVec 10}

theorem exec_stop : exec .stop s = onWord s 4 fun s => putStream s { curStream s with stopped := true, pc := (curStream s).pc + 4 } := rfl

theorem exec_rdv : exec .rdv s =
    onWord s 4 fun s => putStream s { curStream s with arrivals := (curStream s).arrivals + 1, pc := (curStream s).pc + 4 } := rfl

theorem exec_bwt : exec (.bwt p o) s = onWord s 4 fun s => withStreamBar s o fun b =>
    if (barOf s b).began.1.phase != p then stepPatch s 4 else putStream s { curStream s with wait := .barrier b p } := rfl

theorem exec_bav : exec (.bav c o) s = onWord s 4 fun s => withStreamBar s o fun b =>
    putStream s { curStream s with pipe := (curStream s).pipe ++ [.bav b c], pc := (curStream s).pc + 4 } := rfl

/-- The counter that TOKS adds to: the forward or the backward queue of the stream's engine (07_queues.md R169). -/
def toksCounter (e : Engine) (q : Bool) : Nat := if q then backwardOf e else forwardOf e

theorem exec_toks : exec (.toks q n) s = onWord s 4 fun s =>
    if s.job.token (toksCounter s.curEng q) + n.val ≤ 15 then
      stepPatch { s with job := s.job.setToken (toksCounter s.curEng q) (s.job.token (toksCounter s.curEng q) + n.val) } 4
    else s := rfl

theorem toksCounter_eq (e : Engine) (q : Bool) : toksCounter e q =
    match e with | .ld => if q then 7 else 0 | .mx => if q then 4 else 1 | .vx => if q then 5 else 2 | .st => if q then 6 else 3 := by
  cases e <;> rfl

theorem toksCounter_lt (e : Engine) (q : Bool) : toksCounter e q < 8 := by cases e <;> cases q <;> decide

theorem withStreamBar_active {k : BarId → State} (h : s.job.barAt o = some b) (active : (barOf s b).active = true) :
    withStreamBar (putStream s x) o k = k b := by
  have at_b : (putStream s x).job.barAt o = some b := (barAt_setEng ..).trans h
  have active' : (barOf (putStream s x) b).active = true := active
  simp only [withStreamBar, at_b, active', if_true]

theorem withStreamBar_misuse {k : BarId → State} (h : s.job.barAt o = none ∨ ∃ b, s.job.barAt o = some b ∧ (barOf s b).active = false) :
    withStreamBar (putStream s x) o k = streamTrap (putStream s x) .barrierMisuse (o.code.setWidth 64) := by
  obtain none | ⟨b, some, idle⟩ := h
  · have at_none : (putStream s x).job.barAt o = Option.none := (barAt_setEng ..).trans none
    simp only [withStreamBar, at_none]
    rfl
  · have at_b : (putStream s x).job.barAt o = Option.some b := (barAt_setEng ..).trans some
    have idle' : (barOf (putStream s x) b).active = false := idle
    simp only [withStreamBar, at_b, idle', Bool.false_eq_true, if_false]
    rfl

theorem stepPatch_putStream (k : Nat) : stepPatch (putStream s x) k = putStream s { x with pc := x.pc + k } := by
  rw [stepPatch, curStream_putStream, putStream_putStream]

theorem setToken_putStream (k v : Nat) : { putStream s x with job := (putStream s x).job.setToken k v } =
    putStream { s with job := s.job.setToken k v } x := by
  simp only [putStream]
  cases s.curEng <;> rfl

/-- TOKS whose tokens fit. -/
theorem exec_toks_fits (runs : wordRuns s) (fits : s.job.token (toksCounter s.curEng q) + n.val ≤ 15) :
    exec (.toks q n) s = .next (putStream
      { s with job := s.job.setToken (toksCounter s.curEng q) (s.job.token (toksCounter s.curEng q) + n.val) }
      { noted s with pc := (noted s).pc + 4 }) := by
  have same : (putStream s (noted s)).job.token (toksCounter s.curEng q) = s.job.token (toksCounter s.curEng q) := token_setEng ..
  rw [exec_toks, onWord_runs runs]
  refine congrArg Host.Outcome.next ((if_pos (same.symm ▸ fits)).trans ?_)
  show stepPatch { putStream s (noted s) with job := (putStream s (noted s)).job.setToken (toksCounter s.curEng q) _ } 4 = _
  rw [setToken_putStream, stepPatch_putStream, putStream_curEng, same]

theorem exec_toks_waits (runs : wordRuns s) (full : 15 < s.job.token (toksCounter s.curEng q) + n.val) :
    exec (.toks q n) s = .next (putStream s (noted s)) := by
  have same : (putStream s (noted s)).job.token (toksCounter s.curEng q) = s.job.token (toksCounter s.curEng q) := token_setEng ..
  rw [exec_toks, onWord_runs runs, putStream_curEng, same, if_neg (Nat.not_le.2 full)]

end

/-- The two forms of LOOP are one operation, with the count that each names. -/
theorem exec_loop {s : State} {i : Instr} {st : Fin 4} {n : Nat}
    (h : (∃ c : BitVec 16, i = .loopImm st c ∧ n = c.toNat) ∨ ∃ r : Fin 32, i = .loopReg st r ∧ n = ((curStream s).shapes[r]).toNat) :
    ∃ w, exec i s = loop w (st.val + 1) n s := by
  obtain ⟨c, rfl, rfl⟩ | ⟨r, rfl, rfl⟩ := h
  · exact ⟨_, rfl⟩
  · exact ⟨_, rfl⟩

/-- Settles O26: LOOP by the scan for its ENDL, ENDL and PRED by the frames, the other words as they run. -/
theorem patchControl : Obligations.PatchControl := by
  unfold Obligations.PatchControl
  refine ⟨fun i s st n x hx => ?loops, fun s q p n c o x k hx runs hk => ?words⟩
  case loops =>
    subst hx
    refine ⟨fun form after found => ?scanned, fun form bad => ?refused, fun outside => ?segment, fun f r inside => ⟨exec_endl_trips inside,
      exec_endl_leaves inside⟩, fun f r => exec_pred_selects, fun bad => ⟨_, exec_pred_traps bad⟩⟩
    case scanned =>
      obtain ⟨w, run⟩ := exec_loop form
      rw [run]
      refine ⟨fun runs shallow some free => ?_, fun runs outside some b held => ?_, fun runs shallow none => ?_, fun skips => loop_skips skips found⟩
      · rw [loop_opens runs shallow some found, openLoop_free free]
        rfl
      · rw [loop_opens runs (by simp [outside]) some found, openLoop_held outside held]
        exact ⟨_, rfl, newFrame_trim_nEff b, rfl, rfl, rfl, rfl⟩
      · rw [none, loop_empty runs shallow found]
    case refused =>
      obtain ⟨w, run⟩ := exec_loop form
      rw [run]
      exact ⟨_, bad.elim (fun deep => loop_deep deep.1 deep.2) loop_missing⟩
    case segment =>
      have same := noted_outside outside
      rw [same] at outside ⊢
      exact exec_endl_outside outside
  case words =>
    obtain rfl : k = toksCounter s.curEng q := hk.trans (toksCounter_eq ..).symm
    subst hx
    rw [exec_stop, exec_rdv, exec_bwt, exec_bav]
    simp only [onWord_runs runs, curStream_putStream, putStream_putStream]
    refine ⟨trivial, trivial, fun fits => ?tokens, exec_toks_waits runs, fun b at_b active => ?barrier, fun bad => ?misuse⟩
    case tokens =>
      have value (k : Nat) := token_setToken s.job (toksCounter s.curEng q) k (s.job.token (toksCounter s.curEng q) + n.val) (toksCounter_lt ..)
      refine ⟨_, exec_toks_fits runs fits, curStream_putStream .., ?_, fun k _ other => ?_, ?_⟩
      · rw [putStream, token_setEng, value, if_pos rfl, Nat.mod_eq_of_lt (by omega)]
      · rw [putStream, token_setEng, value, if_neg other]
      · simp only [putStream]
        cases s.curEng <;> rfl
    case barrier =>
      rw [withStreamBar_active at_b active, withStreamBar_active at_b active]
      refine ⟨?_, rfl⟩
      show Host.Outcome.next (if (barOf s b).began.1.phase != p then _ else _) = _
      rw [Barrier.began_eq_start, stepPatch_putStream]
      by_cases same : (barOf s b).start.phase = p <;> simp [same]
    case misuse => exact ⟨congrArg _ (withStreamBar_misuse bad), congrArg _ (withStreamBar_misuse bad)⟩

end Sys2Proof.Machine
end

section
/-! SUPPORT. Segments, operations and takeovers begin (07_queues.md R164, R170, R178, 09_matrix.md R209, 11_sync.md R253): O28. -/

namespace Sys2Proof.Machine

/-! ### Segments -/

/-- What stands before the first SEG entry is consumed. -/
theorem consumeHead_append {x : EngStream} {head r : List QEntry} {v : Word} {t : BitVec 32} (h : ∀ q ∈ head, ∀ v t, q ≠ .seg v t) :
    x.consumeHead (head ++ .seg v t :: r) = { head.foldl EngStream.consume x with queue := .seg v t :: r } := by
  induction head generalizing x with
  | nil => rfl
  | cons q head ih =>
    have rest : (x.consume q).consumeHead (head ++ .seg v t :: r) = { (q :: head).foldl EngStream.consume x with queue := .seg v t :: r } :=
      ih fun p hp => h p (.tail _ hp)
    cases q with
    | seg w u => exact absurd rfl (h _ (.head _) w u)
    | set n w u => exact rest
    | hnd n w u => exact rest
    | spf lo u => exact rest
    | inv u k => exact rest

theorem consume_shapes (x : EngStream) (q : QEntry) :
    (x.consume q).shapes = match q with | .set n v _ => x.shapes.set n v | _ => x.shapes := by cases q <;> rfl

theorem consume_handles (x : EngStream) (q : QEntry) :
    (x.consume q).handles = match q with | .hnd n v _ => x.handles.set n v | _ => x.handles := by cases q <;> rfl

/-- Each SET entry that is consumed writes its shape register, in their order, and nothing else does. -/
theorem foldl_consume_shapes (x : EngStream) (l : List QEntry) :
    (l.foldl EngStream.consume x).shapes = l.foldl (fun z q => match q with | .set n v _ => z.set n v | _ => z) x.shapes := by
  induction l generalizing x with
  | nil => rfl
  | cons q l ih =>
    rw [List.foldl_cons, List.foldl_cons, ih, consume_shapes]

theorem foldl_consume_handles (x : EngStream) (l : List QEntry) :
    (l.foldl EngStream.consume x).handles = l.foldl (fun z q => match q with | .hnd n v _ => z.set n v | _ => z) x.handles := by
  induction l generalizing x with
  | nil => rfl
  | cons q l ih =>
    rw [List.foldl_cons, List.foldl_cons, ih, consume_handles]

/-- The focused job put back with its pipelines settled. -/
theorem putJob_settle (s : State) (e : Engine) (x : EngStream) :
    putJob s ((s.job.setEng e x).settle e) = { s with job := (s.job.setEng e x).settle e } := by
  have same : ((s.job.setEng e x).settle e).id = s.job.id := by
    rw [settle_onlyPipes (s.job.setEng e x) e]
    cases e <;> rfl
  rw [putJob, if_pos same.symm]

section
variable {s : State} {e : Engine} {sec : Section}

theorem exec_segmentStart (here : s.job.id ≠ 0) (resident : s.job.resident = true) (free : (s.job.eng e).draining = false)
    (place : sectionOf s s.job (streamKind e) = some sec) : exec (.segmentStart s.job.id e) s =
      if (s.job.eng e).stopped then
        .next { s with job := (s.job.setEng e ((s.job.eng e).consumeHead (s.job.eng e).queue).refill).settle e }
      else if (s.job.eng e).wait == .segment then
        .next { s with job := (s.job.setEng e (((s.job.eng e).consumeHead (s.job.eng e).queue).begin sec.off).refill).settle e }
      else .next s := by
  show execSegmentStart s.job.id e s = _
  simp only [execSegmentStart, findJob_self here, resident, free, place, putJob_settle, Bool.not_true, Bool.or_self, Bool.false_eq_true, if_false]

end

/-! ### Tokens -/

theorem token_le (j : Job) (k : Nat) : j.token k ≤ 15 := Nat.le_of_lt_succ (j.tokens.toList.getD k 0).isLt

theorem token_lowered (j : Job) {q : Nat} (k : Nat) (h : q < 8) :
    (j.setToken q (j.token q - 1)).token k = if k = q then j.token k - 1 else j.token k := by
  rw [token_setToken _ _ _ _ h]
  by_cases same : k = q
  · subst same
    rw [if_pos rfl, if_pos rfl, Nat.mod_eq_of_lt (Nat.lt_of_le_of_lt (Nat.sub_le ..) (Nat.lt_succ_of_le (token_le ..)))]
  · rw [if_neg same, if_neg same]

theorem token_popTokens (j : Job) (e : Engine) (o : IOp) (k : Nat) : (popTokens j e o).token k =
    if k < 8 ∧ ((k = popForward e ∧ o.toks.wf = true) ∨ (k = popBackward e ∧ o.toks.wb = true)) then j.token k - 1 else j.token k := by
  have forward : popForward e < 4 := by cases e <;> decide
  have backward : 4 ≤ popBackward e ∧ popBackward e < 8 := by cases e <;> decide
  have lower (i : Job) (q : Nat) (hq : q < 8) (want : Bool) :
      (if want = true then i.setToken q (i.token q - 1) else i).token k = if k = q ∧ want = true then i.token k - 1 else i.token k := by
    cases want
    · simp
    · simpa using token_lowered i k hq
  simp only [popTokens]
  rw [lower _ _ backward.2, lower _ _ (by omega)]
  have apart : popForward e ≠ popBackward e := by omega
  by_cases atForward : k = popForward e
  · simp [atForward, apart, show popForward e < 8 by omega]
  by_cases atBackward : k = popBackward e
  · simp [atBackward, apart.symm, backward.2]
  · simp [atForward, atBackward]

theorem popTokens_onlyPipes (j : Job) (e : Engine) (o : IOp) : j.onlyPipes (popTokens j e o) := by
  simp only [popTokens]
  split <;> split <;> rfl

/-! ### The start of an operation -/

section
variable {s : State} {e : Engine} {o o' : IOp} {i : Instr} {sib : Bool}

/-- An operation that is ready, and chosen, starts. -/
theorem exec_operationStart_ready (here : s.job.id ≠ 0) (ready : readyOp s s.job e = some o) (free : unitFree s s.job e = true)
    (first : chosen s s.job e = true) : exec (.operationStart s.job.id e) s = .next (startOp s e o false) := by
  show execOperationStart s.job.id e s = _
  simp [execOperationStart, here, ready, free, first]

theorem exec_operationStart_waits (here : s.job.id ≠ 0) (waits : readyOp s s.job e = none) :
    exec (.operationStart s.job.id e) s = .next s := by
  show execOperationStart s.job.id e s = _
  simp [execOperationStart, here, waits]

theorem startOp_undecoded (h : decodePattern e o.pat = none) :
    startOp s e o sib = trapOp s e .illegalInstr ((o.pat.extractLsb' 112 16).setWidth 64) 0 := by
  rw [startOp, h]
  rfl

theorem startOp_refused {c : Cause} {v : Word} (h : decodePattern e o.pat = some i) (bad : opCheck e s.job o i = some (c, v)) :
    startOp s e o sib = trapOp s e c v 0 := by simp only [startOp, h, bad]

theorem startOp_outside {c : Cause} {v : Word} {x : Stop} (h : decodePattern e o.pat = some i) (sound : opCheck e s.job o i = none)
    (window : windowCheck s e o sib i = (o', some x)) (bad : x = .trap c v ∨ ∃ acc, x = .denied acc c v) :
    startOp s e o sib = trapOp s e c v 0 := by
  obtain rfl | ⟨acc, rfl⟩ := bad
  · simp only [startOp, h, sound, window]
  · simp only [startOp, h, sound, window]

theorem startOp_begins (h : decodePattern e o.pat = some i) (sound : opCheck e s.job o i = none)
    (window : windowCheck s e o sib i = (o', none)) : startOp s e o sib = begun s e o' sib := by
  simp only [startOp, h, sound, window]

theorem begun_eq : begun s e o false = { s with
    issued := assign s.issued (s.job.core, engineNum e) s.job.id
    job := ((popTokens s.job e o).updEng e fun x =>
      { x with pipe := startFirst (fun _ => { o with sib := false }) x.pipe, w := 0, holds := true }).settleAll } := by
  have same := popTokens_onlyPipes s.job e o
  have core : (popTokens s.job e o).core = s.job.core := by rw [same]
  have id : (popTokens s.job e o).id = s.job.id := by rw [same]
  simp only [begun, core, id, Bool.false_eq_true, if_false]

/-- Where the check of the SIB handles waits, or the first unit would stand at a watermark, the operation waits before it starts. -/
theorem startWaits_of (h : decodePattern e o.pat = some i) (sound : opCheck e s.job o i = none)
    (waits : (∃ x, windowCheck s e o false i = (o', some x) ∧ ∀ c v, x ≠ .trap c v ∧ ∀ acc, x ≠ .denied acc c v) ∨
      windowCheck s e o false i = (o', none) ∧ ∃ x m, firstStop (begun s e o' false) e o' i = some x ∧ x.mark? = some m) :
    startWaits s e o = true := by
  obtain ⟨x, window, other⟩ | ⟨window, x, m, stop, mark⟩ := waits
  · simp only [startWaits, h, sound, window, Option.isNone_none, Bool.true_and]
    cases x with
    | trap c v => exact absurd rfl (other c v).1
    | denied acc c v => exact absurd rfl ((other c v).2 acc)
    | _ => rfl
  · simp [startWaits, h, sound, window, stop, mark]

theorem readyOp_waits (next : nextOp (s.job.eng e).pipe = some o) (waits : startWaits s e o = true) : readyOp s s.job e = none := by
  simp only [readyOp, next, focus_self, waits, Bool.not_true, Bool.and_false, Bool.false_eq_true, if_false, ite_self]

end

/-! ### The sibling's array, and clocks -/

/-- A takeover of an operation that may be taken over, of a core whose array is busy, by a free array of the sibling. -/
theorem takeMmad_starts {s : State} {o : IOp} (here : s.job.id ≠ 0) (ready : readyOp s s.job .mx = some o) (may : relocatable o = true)
    (shared : pairShared s s.job.core = true) (busy : arrayBusy s s.job.core = true) (free : arrayBusy s (sibling s.job.core) = false)
    (idle : ∀ j ∈ jobsOn s (sibling s.job.core), readyAt s j .mx = false) : takeMmad s s.job.id = startOp s .mx o true := by
  have none_ready : ((jobsOn s (sibling s.job.core)).all fun j => !readyAt s j .mx) = true :=
    List.all_eq_true.2 fun j hj => by rw [idle j hj]; rfl
  simp [takeMmad, here, ready, may, shared, busy, free, none_ready]

theorem clock_closeBar (s : State) (b : BarId) : (closeBar s b).clock = s.clock := by
  simp only [closeBar]
  split <;> rfl

theorem clock_idleBar (s : State) (b : BarId) : (idleBar s b).clock = s.clock := by
  simp only [idleBar]
  split <;> rfl

theorem clock_passBar (n : Nat) (s : State) (b : BarId) : (passBar n s b).clock = s.clock := by
  simp only [passBar]
  split <;> simp only [clock_closeBar, clock_idleBar]

theorem clock_tick {s : State} {n : Nat} (up : s.bootStep = 7) (some : n ≠ 0) : (tick s n).clock = s.clock + n := by
  have passed (l : List BarId) (t : State) : (l.foldl (passBar n) t).clock = t.clock := by
    induction l generalizing t with
    | nil => rfl
    | cons b l ih => rw [List.foldl_cons, ih, clock_passBar]
  simp [tick, up, some, passed, mapJobs]

/-- Settles O28: a segment by the entries before it, an operation by its checks, and a takeover and a window by what they wait for. -/
theorem engineStarts : Obligations.EngineStarts := by
  unfold Obligations.EngineStarts
  refine ⟨fun s e x y head v t r sec here resident hx free queue noSeg place hy => ?segments, fun s e o i here ready unit first => ?operations,
    fun s e o o' i here next decoded sound waits => ?waits, fun s e => ⟨fun b c l t here resident hb arrived => ?bav,
      fun o here ready may shared busy array idle => congrArg _ (takeMmad_starts here ready may shared busy array idle),
      fun core ⟨j, hj, alt⟩ up => ?window⟩⟩
  case segments =>
    subst hx hy
    rw [exec_segmentStart here resident free place, queue, consumeHead_append noSeg]
    refine ⟨fun going waits => ?_, fun stopped => ?_, foldl_consume_shapes .., foldl_consume_handles ..⟩
    · rw [going, waits, if_neg Bool.false_ne_true, if_pos (beq_self_eq_true EngWait.segment)]
      simp only [EngStream.begin, List.contains_iff_mem]
      rfl
    · rw [stopped, if_pos rfl]
      rfl
  case operations =>
    rw [exec_operationStart_ready here ready unit first]
    refine ⟨fun o' decoded sound window => ?_, fun o' x c v decoded sound window bad => ?_, fun c v decoded bad => ?_, fun bad => ?_,
      token_popTokens s.job e o⟩
    · rw [startOp_begins decoded sound window, begun_eq]
    · rw [startOp_outside decoded sound window bad]
    · rw [startOp_refused decoded bad]
    · rw [startOp_undecoded bad]
  case waits =>
    exact exec_operationStart_waits here (readyOp_waits next (startWaits_of decoded sound waits))
  case bav =>
    show execBavArrival s.job.id e s = _
    simp only [execBavArrival, findJob_self here, hb, resident, arrived, if_true]
  case window =>
    have any : (jobsOn s core).any Job.altArray = true := List.any_eq_true.2 ⟨j, hj, alt⟩
    have clocks := clock_tick (n := 256 - s.clock % 256) up (by omega)
    exact ⟨tick s (256 - s.clock % 256), congrArg Host.Outcome.next (if_pos any), clocks, by omega⟩

end Sys2Proof.Machine
end

section
/-! SUPPORT. What a store leaves alone (14_ordering.md R305 to R309): of the device all but its memories, its tubs, and of each job its basting
pairs, its tubs, its basket and its pending stores. -/

namespace Sys2Proof.Machine

/-! ### The frame of a store -/

/-- Job k is job j but for what a store changes of a job. -/
def Job.written (j k : Job) : Prop := k = { j with pairs := k.pairs, tubs := k.tubs, basket := k.basket, stores := k.stores }

theorem Job.written.refl (j : Job) : j.written j := rfl

theorem Job.written.trans {j k l : Job} (h : j.written k) (g : k.written l) : j.written l := by
  unfold Job.written at *
  rw [g, h]

/-- State t is state s but for what a store changes. -/
structure Written (s t : State) : Prop where
  device : t = { s with
    hbm := t.hbm, ddr := t.ddr, host := t.host, spad := t.spad, hbmPoison := t.hbmPoison, ddrPoison := t.ddrPoison
    spadPoison := t.spadPoison, zeroMap := t.zeroMap, tubs := t.tubs, job := t.job, jobs := t.jobs }
  job : s.job.written t.job
  jobs : ∀ k ∈ t.jobs, ∃ j ∈ s.jobs, j.written k

theorem Written.refl (s : State) : Written s s := ⟨rfl, rfl, fun k hk => ⟨k, hk, rfl⟩⟩

theorem Written.trans {s t u : State} (h : Written s t) (g : Written t u) : Written s u := by
  refine ⟨?_, h.job.trans g.job, fun l hl => ?_⟩
  · have first := h.device
    have second := g.device
    rw [second, first]
  · obtain ⟨k, hk, kl⟩ := g.jobs l hl
    obtain ⟨j, hj, jk⟩ := h.jobs k hk
    exact ⟨j, hj, jk.trans kl⟩

/-- A change of the focused job that a store may make. -/
theorem Written.ofJob {s : State} {j : Job} (h : s.job.written j) : Written s { s with job := j } :=
  ⟨rfl, h, fun k hk => ⟨k, hk, rfl⟩⟩

theorem Written.foldl {α : Type} {f : State → α → State} (h : ∀ s a, Written s (f s a)) (l : List α) (s : State) :
    Written s (l.foldl f s) := by
  induction l generalizing s with
  | nil => exact .refl s
  | cons a l ih => exact (h s a).trans (ih _)

/-! ### The operations of a store -/

theorem Written.putJob {s : State} {i : Nat} {j k : Job} (found : findJob s i = some j) (h : j.written k) : Written s (putJob s k) := by
  have id : k.id = j.id := by rw [h]
  have at_i : j.id = i := findJob_id found
  have some : i ≠ 0 := findJob_pos found
  rw [Machine.putJob, id, at_i]
  rw [findJob, if_neg some] at found
  split at found
  next here =>
    rw [if_pos here]
    exact .ofJob (Option.some.inj found ▸ h)
  next away =>
    rw [if_neg away]
    refine ⟨rfl, rfl, fun l hl => ?_⟩
    obtain ⟨m, hm, rfl⟩ := List.mem_map.1 hl
    split
    · exact ⟨j, List.mem_of_find?_eq_some found, h⟩
    · exact ⟨m, hm, rfl⟩

theorem Written.updJob {s : State} {i : Nat} {f : Job → Job} (h : ∀ j : Job, j.written (f j)) : Written s (updJob s i f) := by
  unfold Machine.updJob
  split
  · exact .refl s
  next j found => exact .putJob found (h j)

theorem Written.putBytes (s : State) (sp : Space) (a : Nat) (d : List Byte) : Written s (putBytes s sp a d) := by
  cases sp <;> exact ⟨rfl, rfl, fun k hk => ⟨k, hk, rfl⟩⟩

theorem Written.setBad (s : State) (sp : Space) (a : Nat) (p : Bool) : Written s (setBad s sp a p) := by
  cases sp <;> exact ⟨rfl, rfl, fun k hk => ⟨k, hk, rfl⟩⟩

theorem Written.clearZero (s : State) (sp : Space) (a n : Nat) : Written s (clearZero s sp a n) := by
  cases sp <;> exact ⟨rfl, rfl, fun k hk => ⟨k, hk, rfl⟩⟩

theorem Written.updBasket (s : State) (i : Nat) (f : Basket → Basket) : Written s (updBasket s i f) := by
  unfold Machine.updBasket
  split
  · exact .refl s
  next j found =>
    split
    · exact .refl s
    next b _ =>
      exact (Written.putJob (k := { j with basket := some (f b) }) found rfl).trans ⟨rfl, rfl, fun k hk => ⟨k, hk, rfl⟩⟩

theorem Written.countSpad (s : State) (j : Job) (o n : Nat) : Written s (countSpad s j o n) := by
  unfold Machine.countSpad
  split
  · exact .updBasket ..
  · exact .updJob fun _ => rfl

theorem Written.bastWrite (s : State) (j : Job) (o : Nat) : Written s (bastWrite s j o).1 := by
  unfold Machine.bastWrite
  split
  · exact .refl s
  · simp only
    split
    · exact ((Written.putBytes ..).trans (.setBad ..)).trans (.updJob fun _ => rfl)
    · exact .refl s

theorem Written.storeLine (s : State) (sp : Space) (a : Nat) (owner : Option (Nat × Nat)) (d : List Byte) (bad : Bool) :
    Written s (storeLine s sp a owner d bad) := by
  have bytes (r : State) (into : Space) (b : Nat) : Written r
      (let t := Machine.clearZero (Machine.clearZero (Machine.putBytes r into b d) into b d.length) sp a d.length
       if bad then Machine.setBad t into b true else if d.length = 64 then Machine.setBad t into b false else t) := by
    have cleared := ((Written.putBytes r into b d).trans (.clearZero _ into b d.length)).trans (.clearZero _ sp a d.length)
    simp only
    split
    · exact cleared.trans (.setBad ..)
    · split
      · exact cleared.trans (.setBad ..)
      · exact cleared
  unfold Machine.storeLine
  cases (owner.bind fun q => (findJob s q.1).map fun j => (j, q.2)) with
  | some q => exact ((Written.bastWrite s q.1 q.2).trans (bytes ..)).trans (.countSpad ..)
  | none =>
    cases sp with
    | hbm => exact (bytes s .hbm a).trans ⟨rfl, rfl, fun k hk => ⟨k, hk, rfl⟩⟩
    | ddr => exact bytes s .ddr a
    | host => exact bytes s .host a
    | spad c => exact bytes s (.spad c) a

/-! ### Pending stores -/

theorem Written.performStore (s : State) (q : Pending) : Written s (performStore s q) := by
  unfold Machine.performStore
  split
  · exact .refl s
  · exact .storeLine ..
  · split
    · exact .refl s
    · exact .storeLine ..

theorem Written.performAll (s : State) (l : List Pending) : Written s (performAll s l) := by
  induction l generalizing s with
  | nil => exact .refl s
  | cons q r ih => exact (Written.performStore s q).trans (ih _)

theorem Written.drain (s : State) : Written s (drain s) :=
  (Written.ofJob (j := { s.job with stores := [] }) rfl).trans (.performAll ..)

theorem Written.drainWhere (s : State) (p : Pending → Bool) : Written s (drainWhere s p) :=
  (Written.ofJob (j := { s.job with stores := (splitLast p s.job.stores).2 }) rfl).trans (.performAll ..)

theorem Written.drainLoad (s : State) (c : Cls) (l : Loc) (n : Nat) : Written s (drainLoad s c l n) := by
  unfold Machine.drainLoad
  split
  · exact .refl s
  · exact .drainWhere ..

theorem Written.settleInto (s : State) (id : Nat) : Written s (settleInto s id) := by
  refine .foldl (fun s j => ?_) _ s
  have emptied (l : List Pending) : Written s (Machine.updJob s j.id fun x => { x with stores := l }) := .updJob fun _ => rfl
  exact (emptied _).trans (.performAll ..)

/-! ### What follows for a job -/

section
variable {j k : Job} (h : j.written k)
include h

theorem Job.written.sameRegs : Job.sameRegs j k := by
  rw [h]
  exact Job.sameRegs_refl _

theorem Job.written.eng (e : Engine) : k.eng e = j.eng e := by
  rw [h]
  cases e <;> rfl

theorem Job.written.id : k.id = j.id := by rw [h]

theorem Job.written.pc : k.pc = j.pc := by rw [h]

theorem Job.written.rendezvous : k.rendezvous = j.rendezvous := by rw [h]

end

end Sys2Proof.Machine
end

section
/-! SUPPORT. STRT (04_jobs.md R93): the PC vector read, and the engines restarted in turn (O30). -/

namespace Sys2Proof.Machine

/-! ### Engines in turn -/

theorem mem_engines (e : Engine) : e ∈ engines := by cases e <;> decide

theorem engines_nodup : engines.Nodup := by decide

theorem engines_of_mask (m : EngMask) : EngMask.engines m = engines.filter fun e => maskHas m e := rfl

/-- The job with the engines of a list restarted, each at its entry. -/
def Job.restarted (j : Job) (pc : Engine → Nat) (l : List Engine) : Job :=
  l.foldl (fun j e => j.updEng e fun x => x.restart j.rendezvous (pc e)) j

/-- A restart of one engine leaves everything but its stream. -/
theorem restart_frame (j : Job) (pc : Engine → Nat) (e : Engine) :
    (j.updEng e fun x => x.restart j.rendezvous (pc e)).rendezvous = j.rendezvous ∧
    (j.updEng e fun x => x.restart j.rendezvous (pc e)).pc = j.pc ∧
    Job.sameRegs j (j.updEng e fun x => x.restart j.rendezvous (pc e)) ∧
    ∀ f, (j.updEng e fun x => x.restart j.rendezvous (pc e)).eng f = if f = e then (j.eng e).restart j.rendezvous (pc e) else j.eng f := by
  refine ⟨?meets, ?pc, ?regs, fun f => eng_setEng ..⟩
  case meets => cases e <;> rfl
  case pc => cases e <;> rfl
  case regs => cases e <;> exact Job.sameRegs_refl _

theorem restarted_frame (j : Job) (pc : Engine → Nat) {l : List Engine} (distinct : l.Nodup) :
    (j.restarted pc l).rendezvous = j.rendezvous ∧ (j.restarted pc l).pc = j.pc ∧ Job.sameRegs j (j.restarted pc l) ∧
    ∀ f, (j.restarted pc l).eng f = if f ∈ l then (j.eng f).restart j.rendezvous (pc f) else j.eng f := by
  induction l generalizing j with
  | nil => exact ⟨rfl, rfl, Job.sameRegs_refl j, fun f => (if_neg List.not_mem_nil).symm⟩
  | cons e l ih =>
    obtain ⟨meets, at_pc, regs, eng⟩ := restart_frame j pc e
    obtain ⟨other, rest⟩ := List.nodup_cons.1 distinct
    obtain ⟨meets', at_pc', regs', eng'⟩ := ih (j.updEng e fun x => x.restart j.rendezvous (pc e)) rest
    refine ⟨meets'.trans meets, at_pc'.trans at_pc, Job.sameRegs_trans regs regs', fun f => (eng' f).trans ?_⟩
    rw [eng f, meets]
    by_cases same : f = e
    · subst same
      rw [if_neg other, if_pos rfl, if_pos (.head _)]
    · rw [if_neg same]
      exact if_congr (by simp [same]) rfl rfl

/-- The engines of a list that are quiet are restarted, and the first one that is not is waited for. -/
theorem restartEngines_append (s : State) (pc : Engine → Nat) (l : List Engine) (r : List (Engine × Nat)) (distinct : l.Nodup)
    (quiet : ∀ e ∈ l, (s.job.eng e).quiet = true) :
    restartEngines s (l.map (fun e => (e, pc e)) ++ r) = restartEngines { s with job := s.job.restarted pc l } r := by
  induction l generalizing s with
  | nil => rfl
  | cons e l ih =>
    obtain ⟨-, -, -, eng⟩ := restart_frame s.job pc e
    obtain ⟨other, rest⟩ := List.nodup_cons.1 distinct
    rw [List.map_cons, List.cons_append, restartEngines, if_pos (quiet e (.head _)), ih _ rest fun f hf => ?_]
    · rfl
    · have apart : f ≠ e := fun same => other (same ▸ hf)
      rw [eng f, if_neg apart]
      exact quiet f (.tail _ hf)

theorem quiet_iff (x : EngStream) : x.quiet = true ↔ x.stopped = true ∧ ∀ q ∈ x.pipe, q.isOp = false := by simp [EngStream.quiet]

/-! ### The PC vector -/

theorem readPcs_ok {s : State} {ea : Word} {b : Engine → List Byte} {l : List Engine}
    (h : ∀ e ∈ l, ctlRecord s (ea + BitVec.ofNat 64 (4 * engineNum e)) 4 = .ok (b e)) :
    readPcs s ea l = .ok (l.map fun e => (e, leNat (b e))) := by
  induction l with
  | nil => rfl
  | cons e l ih =>
    rw [readPcs, h e (.head _), ih fun f hf => h f (.tail _ hf)]
    rfl

theorem entryBad_iff (s : State) (e : Engine) (v : Nat) : entryBad s e v = true ↔
    ¬(v % 4 = 0 ∧ ∃ x, sectionOf s s.job (streamKind e) = some x ∧ x.off ≤ v ∧ v < x.off + x.bytes) := by
  rw [entryBad]
  cases sectionOf s s.job (streamKind e) with
  | none => simp
  | some x =>
    simp
    omega

/-- The engines of a mask from engine e of it on. -/
theorem engines_from {m : EngMask} {e : Engine} (h : maskHas m e = true) :
    (engines.filter fun f => maskHas m f && decide (engineNum e ≤ engineNum f)) =
      e :: engines.filter fun f => maskHas m f && decide (engineNum e < engineNum f) := by
  have parts : (engines.filter fun f => decide (engineNum e ≤ engineNum f)) = e :: engines.filter fun f => decide (engineNum e < engineNum f) := by
    cases e <;> rfl
  rw [← List.filter_filter, parts, List.filter_cons_of_pos h, List.filter_filter]

/-- The engines of a mask before engine e of it, and those from it on. -/
theorem engines_split (m : EngMask) (e : Engine) : EngMask.engines m =
    (engines.filter fun f => maskHas m f && decide (engineNum f < engineNum e)) ++
      engines.filter fun f => maskHas m f && decide (engineNum e ≤ engineNum f) := by
  have parts : engines = (engines.filter fun f => decide (engineNum f < engineNum e)) ++ engines.filter fun f => decide (engineNum e ≤ engineNum f) := by
    cases e <;> rfl
  rw [engines_of_mask, ← List.filter_filter, ← List.filter_filter, ← List.filter_append, ← parts]

/-! ### STRT -/

section
variable {s : State} {m : EngMask} {a : Reg} {b : Engine → List Byte}

/-- The engines of the mask with the entries that the PC vector gives. -/
def strtEntries (m : EngMask) (b : Engine → List Byte) : List (Engine × Nat) := (EngMask.engines m).map fun e => (e, leNat (b e))

/-- The first of them that is no entry of its section, in the state that the vector is read in. -/
def strtBad (z : State) (m : EngMask) (b : Engine → List Byte) : Option (Engine × Nat) :=
  (strtEntries m b).find? fun q => entryBad z q.1 q.2

/-- STRT, where its vector is read. -/
theorem execStrt_eq (aligned : (getX s a).toNat % 16 = 0)
    (read : ∀ e, maskHas m e = true →
      ctlRecord (drainLoad s 0 (.va (getX s a)) 16) (getX s a + BitVec.ofNat 64 (4 * engineNum e)) 4 = .ok (b e)) :
    exec (.strt m a) s = .next ((strtBad (drainLoad s 0 (.va (getX s a)) 16) m b).elim
      (restartEngines (drain (repliesTaken (drainLoad s 0 (.va (getX s a)) 16))) (strtEntries m b))
      fun q => raise (repliesTaken (drainLoad s 0 (.va (getX s a)) 16)) .queueMisuse (BitVec.ofNat 64 q.2)) := by
  have low : (bits (getX s a) 0 4 != 0) = false := by
    rw [bne_eq_false_iff_eq]
    exact BitVec.eq_of_toNat_eq (by simpa [bits] using aligned)
  have vector : readPcs (drainLoad s 0 (.va (getX s a)) 16) (getX s a) (EngMask.engines m) = .ok (strtEntries m b) :=
    readPcs_ok fun e he => read e (List.mem_filter.1 he).2
  show execStrt m a s = _
  simp only [execStrt, low, Bool.false_eq_true, if_false, withAccess, vector, strtBad]
  cases (strtEntries m b).find? fun q => entryBad (drainLoad s 0 (.va (getX s a)) 16) q.1 q.2 <;> rfl

theorem exec_strt_misaligned (h : (getX s a).toNat % 16 ≠ 0) : exec (.strt m a) s = .next (raise s .misaligned (getX s a)) := by
  have low : (bits (getX s a) 0 4 != 0) = true := by
    rw [bne_iff_ne]
    intro zero
    exact h (by simpa [bits] using congrArg BitVec.toNat zero)
  show execStrt m a s = _
  simp only [execStrt, low, if_true]

end

/-- Settles O30: the engines before the first that is not quiet are restarted, and an offset that is no entry traps. -/
theorem streamStart : Obligations.StreamStart := by
  unfold Obligations.StreamStart
  intro s z m a b bad hz read hbad
  subst hz
  have bad_iff (e : Engine) : bad e ↔ maskHas m e = true ∧ entryBad (drainLoad s 0 (.va (getX s a)) 16) e (leNat (b e)) = true := by
    rw [hbad, entryBad_iff]
  refine ⟨fun aligned sound => ?entries, fun aligned some => ?misuse, exec_strt_misaligned⟩
  case entries =>
    have none : strtBad (drainLoad s 0 (.va (getX s a)) 16) m b = none := by
      refine List.find?_eq_none.2 fun q hq => ?_
      obtain ⟨e, he, rfl⟩ := List.mem_map.1 hq
      exact fun out => sound e ((bad_iff e).2 ⟨(List.mem_filter.1 he).2, out⟩)
    rw [execStrt_eq aligned read, none, Option.elim_none, strtEntries]
    have kept : s.job.written (drain (repliesTaken (drainLoad s 0 (.va (getX s a)) 16))).job :=
      (Written.drainLoad s 0 (.va (getX s a)) 16).job.trans (Written.drain (repliesTaken _)).job
    generalize drain (repliesTaken (drainLoad s 0 (.va (getX s a)) 16)) = u at kept ⊢
    refine ⟨fun stopped => ?all, fun e masked busy before => ?waits⟩
    case all =>
      have quiet : ∀ e ∈ EngMask.engines m, (u.job.eng e).quiet = true := fun e he => by
        rw [kept.eng]
        exact (quiet_iff _).2 (stopped e (List.mem_filter.1 he).2)
      have run := restartEngines_append u (fun e => leNat (b e)) (EngMask.engines m) [] (engines_nodup.filter _) quiet
      obtain ⟨-, at_pc, regs, eng⟩ := restarted_frame u.job (fun e => leNat (b e)) (engines_nodup.filter fun e => maskHas m e)
      rw [List.append_nil] at run
      rw [run]
      refine ⟨_, rfl, ?_, Job.sameRegs_trans kept.sameRegs regs, fun _ _ _ => rfl, fun e => ?_⟩
      · exact congrArg (· + 4) (at_pc.trans kept.pc)
      · refine (eng e).trans ?_
        rw [kept.eng, kept.rendezvous]
        exact if_congr (by simp [mem_engines]) rfl rfl
    case waits =>
      have quiet : ∀ f ∈ engines.filter (fun f => maskHas m f && decide (engineNum f < engineNum e)), (u.job.eng f).quiet = true := fun f hf => by
        obtain ⟨-, hf⟩ := List.mem_filter.1 hf
        rw [Bool.and_eq_true, decide_eq_true_eq] at hf
        rw [kept.eng]
        exact before f hf.2 hf.1
      have run := restartEngines_append u (fun e => leNat (b e)) _
        ((engines.filter fun f => maskHas m f && decide (engineNum e ≤ engineNum f)).map fun f => (f, leNat (b f))) (engines_nodup.filter _) quiet
      obtain ⟨-, at_pc, regs, eng⟩ := restarted_frame u.job (fun e => leNat (b e))
        (engines_nodup.filter fun f => maskHas m f && decide (engineNum f < engineNum e))
      have still : ((u.job.restarted (fun e => leNat (b e)) (engines.filter fun f => maskHas m f && decide (engineNum f < engineNum e))).eng e).quiet
          = false := by
        rw [eng e, if_neg (by simp), kept.eng, busy]
      rw [engines_split m e, List.map_append, run, engines_from masked, List.map_cons, restartEngines, if_neg (by rw [still]; exact Bool.false_ne_true)]
      refine ⟨_, rfl, at_pc.trans kept.pc, Job.sameRegs_trans kept.sameRegs regs, rfl, fun f => (eng f).trans ?_⟩
      rw [kept.eng, kept.rendezvous]
      exact if_congr (by simp [mem_engines]) rfl rfl
  case misuse =>
    rw [execStrt_eq aligned read]
    obtain ⟨e, he⟩ := some
    obtain ⟨masked, out⟩ := (bad_iff e).1 he
    cases found : strtBad (drainLoad s 0 (.va (getX s a)) 16) m b with
    | none =>
      exact absurd out (List.find?_eq_none.1 found _ (List.mem_map.2 ⟨e, List.mem_filter.2 ⟨mem_engines e, masked⟩, rfl⟩))
    | some q =>
      have out := List.find?_some found
      obtain ⟨f, hf, rfl⟩ := List.mem_map.1 (List.mem_of_find?_eq_some found)
      exact ⟨f, (bad_iff f).2 ⟨(List.mem_filter.1 hf).2, out⟩, rfl⟩

end Sys2Proof.Machine
end

section
/-! SUPPORT. JOIN, the rendezvous and YIELD (04_jobs.md R75, R94, R97): O31. -/

namespace Sys2Proof.Machine

theorem Job.written.arrivals {j k : Job} (h : j.written k) : k.arrivals = j.arrivals := by rw [h]

/-! ### The rendezvous -/

/-- Job k is job j but for its engine streams. -/
def Job.onlyStreams (j k : Job) : Prop := k = { j with ld := k.ld, mx := k.mx, vx := k.vx, st' := k.st' }

theorem Job.onlyStreams.trans {j k l : Job} (h : j.onlyStreams k) (g : k.onlyStreams l) : j.onlyStreams l := by
  unfold Job.onlyStreams at *
  rw [g, h]

theorem updEng_onlyStreams (j : Job) (e : Engine) (f : EngStream → EngStream) : j.onlyStreams (j.updEng e f) := by cases e <;> rfl

/-- The job whose engine streams have all made n arrivals. -/
def Job.arrived (j : Job) (n : Nat) : Job := engines.foldl (fun j e => j.updEng e fun x => { x with arrivals := max x.arrivals n }) j

theorem arrived_onlyStreams (j : Job) (n : Nat) : j.onlyStreams (j.arrived n) := by
  have all (l : List Engine) (j : Job) :
      j.onlyStreams (l.foldl (fun j e => j.updEng e fun x => { x with arrivals := max x.arrivals n }) j) := by
    induction l generalizing j with
    | nil => rfl
    | cons e l ih => exact (updEng_onlyStreams ..).trans (ih _)
  exact all engines j

theorem arrived_eng (j : Job) (n : Nat) (e : Engine) : (j.arrived n).eng e = { j.eng e with arrivals := max (j.eng e).arrivals n } := by
  cases e <;> rfl

theorem meet_eq (j : Job) : j.meet = if engines.all fun e => (j.eng e).stopped then
      { j.arrived (j.rendezvous + 1) with rendezvous := j.rendezvous + 1, retiring := true }
    else { j.arrived (j.rendezvous + 1) with rendezvous := j.rendezvous + 1, pc := (j.arrived (j.rendezvous + 1)).pc + 4, wait := .ready } := rfl

theorem meet_final {j : Job} (h : ∀ e, (j.eng e).stopped = true) :
    j.meet = { j.arrived (j.rendezvous + 1) with rendezvous := j.rendezvous + 1, retiring := true } :=
  if_pos (List.all_eq_true.2 fun e _ => h e)

theorem meet_goesOn {j : Job} {e : Engine} (h : (j.eng e).stopped = false) : j.meet =
    { j.arrived (j.rendezvous + 1) with rendezvous := j.rendezvous + 1, pc := j.pc + 4, wait := .ready } := by
  have pc : (j.arrived (j.rendezvous + 1)).pc = j.pc := by rw [arrived_onlyStreams]
  rw [meet_eq, if_neg fun all => Bool.false_ne_true (h.symm.trans (List.all_eq_true.1 all e (mem_engines e))), pc]

theorem met_iff (j : Job) : j.met = true ↔ j.wait = .joined ∧ j.rendezvous < j.arrivals ∧
    ∀ e, ((j.eng e).stopped = true ∨ j.rendezvous < (j.eng e).arrivals) ∧ ∀ q ∈ (j.eng e).pipe, q.isWork = false := by
  simp [Job.met, and_assoc, mem_engines]

/-- A rendezvous at which all have arrived completes. -/
theorem exec_rendezvousComplete {s : State} (here : s.job.id ≠ 0) (running : s.job.st = .running) (met : s.job.met = true) :
    exec (.rendezvousComplete s.job.id) s = .next { s with job := s.job.meet } := by
  have id : s.job.meet.id = s.job.id := by
    have same : (s.job.arrived (s.job.rendezvous + 1)).id = s.job.id := by rw [arrived_onlyStreams]
    rw [meet_eq]
    split <;> exact same
  show execRendezvousComplete s.job.id s = _
  simp only [execRendezvousComplete, findJob_self here, running, met, putJob, id, beq_self_eq_true, Bool.and_self, if_true]

/-! ### YIELD -/

theorem otherRuns_iff (s : State) (j : Job) :
    otherRuns s j = true ↔ ∃ k ∈ jobsOn s j.core, k.id ≠ j.id ∧ k.resident = true ∧ k.wait.ends = false := by
  simp [otherRuns, and_assoc]

theorem exec_yieldTimeout {s : State} {t0 : Nat} (here : s.job.id ≠ 0) (running : s.job.st = .running) (waits : s.job.wait = .yielding t0)
    (past : 256 ≤ s.clock - t0 ∨ otherRuns s s.job = false) : exec (.yieldTimeout s.job.id) s = .next (advance s) := by
  have ends : (decide (256 ≤ s.clock - t0) || !otherRuns s s.job) = true := by simpa using past
  show execYieldTimeout s.job.id s = _
  simp only [execYieldTimeout, findJob_self here, waits, running, ends, focus_self, beq_self_eq_true, Bool.and_self, if_true]

/-- Settles O31: the arrival of JOIN, the rendezvous by what its job has met, YIELD by the other stream. -/
theorem rendezvous : Obligations.Rendezvous := by
  unfold Obligations.Rendezvous
  intro s others hothers
  rw [← otherRuns_iff] at hothers
  have kept := (Written.drain s).job
  refine ⟨⟨_, rfl, congrArg (· + 1) kept.arrivals, rfl, kept.pc, Job.sameRegs_trans kept.sameRegs (Job.sameRegs_refl _), fun _ _ _ => rfl⟩,
    fun here running joined arrived all => ?meets, fun runs => congrArg _ (if_pos (hothers.1 runs)),
    fun idle => congrArg _ (if_neg (mt hothers.2 idle)), fun t0 here running waits past => ?yields⟩
  case meets =>
    refine ⟨s.job.meet, exec_rendezvousComplete here running ((met_iff _).2 ⟨joined, arrived, all⟩), ?count, fun e => ?streams,
      fun ⟨e, goes⟩ => ?goesOn, fun stopped => ?final⟩
    case count => rw [meet_eq]; split <;> rfl
    case streams =>
      rw [meet_eq]
      refine Eq.trans ?_ (arrived_eng s.job (s.job.rendezvous + 1) e)
      split <;> cases e <;> rfl
    case goesOn =>
      have frame := arrived_onlyStreams s.job (s.job.rendezvous + 1)
      rw [meet_goesOn goes]
      generalize s.job.arrived (s.job.rendezvous + 1) = j at frame
      rw [frame]
    case final =>
      have frame := arrived_onlyStreams s.job (s.job.rendezvous + 1)
      rw [meet_final stopped]
      generalize s.job.arrived (s.job.rendezvous + 1) = j at frame
      rw [frame]
  case yields =>
    refine exec_yieldTimeout here running waits (past.imp_right fun idle => ?_)
    exact eq_false_of_ne_true (mt hothers.2 idle)

end Sys2Proof.Machine
end

section
/-! SUPPORT. A job retires (04_jobs.md R76): O32. -/

namespace Sys2Proof.Machine

/-! ### Stores that nothing has pending -/

theorem settleInto_idle {s : State} (id : Nat) (idle : ∀ j ∈ allJobs s, j.stores = []) : SameStores s (settleInto s id) := by
  have all (l : List Job) (t : State) (hl : ∀ j ∈ l, j.stores = []) : SameStores t (l.foldl (fun s j =>
      let (a, b) := splitLast (Pending.into id) j.stores
      performAll (updJob s j.id fun x => { x with stores := b }) a) t) := by
    induction l generalizing t with
    | nil => exact .refl t
    | cons j l ih =>
      rw [List.foldl_cons, hl j (.head _)]
      exact (SameStores.updJob ..).trans (ih _ fun k hk => hl k (.tail _ hk))
  exact all _ s idle

theorem drain_idle {s : State} (idle : s.job.stores = []) : drain s = s := by
  rw [drain, idle]
  show { s with job := { s.job with stores := [] } } = s
  rw [← idle]

/-! ### Barriers freed -/

theorem lookupD_filter_self {α β : Type} [DecidableEq α] (d : β) (l : List (α × β)) (k : α) :
    lookupD d (l.filter fun e => e.1 != k) k = d := by
  induction l with
  | nil => rfl
  | cons e l ih =>
    by_cases h : e.1 = k
    · rw [List.filter_cons_of_neg (by simp [h]), ih]
    · rw [List.filter_cons_of_pos (by simp [h]), lookupD, if_neg h, ih]

theorem lookupD_filter_ne {α β : Type} [DecidableEq α] (d : β) (l : List (α × β)) {j k : α} (h : j ≠ k) :
    lookupD d (l.filter fun e => e.1 != k) j = lookupD d l j := by
  induction l with
  | nil => rfl
  | cons e l ih =>
    by_cases same : e.1 = k
    · rw [List.filter_cons_of_neg (by simp [same]), ih, lookupD, if_neg fun at_j => h (at_j.symm.trans same)]
    · rw [List.filter_cons_of_pos (by simp [same]), lookupD, lookupD, ih]

theorem mem_assign_ne {α β : Type} [DecidableEq α] {l : List (α × β)} {j k : α} {v x : β} (h : j ≠ k) (at_j : (j, x) ∈ assign l k v) :
    (j, x) ∈ l := by
  induction l with
  | nil => exact absurd (congrArg Prod.fst (List.mem_singleton.1 at_j)) h
  | cons e l ih =>
    rw [assign] at at_j
    split at at_j
    · obtain same | rest := List.mem_cons.1 at_j
      · exact absurd (congrArg Prod.fst same) h
      · exact .tail _ rest
    · obtain same | rest := List.mem_cons.1 at_j
      · exact same ▸ .head _
      · exact .tail _ (ih rest)

/-- Some other job than the one that leaves holds the barrier. -/
def heldByOther (s : State) (job : Nat) (b : BarId) : Prop := ∃ k ∈ allJobs s, k.id ≠ job ∧ b ∈ k.barriers

/-- What one barrier of the job that leaves becomes. -/
def freeBar (s : State) (job : Nat) (b : BarId) : State :=
  if (allJobs s).any fun k => k.id != job && k.barriers.contains b then s
  else if (barOf s b).owed = 0 then { s with barriers := s.barriers.filter fun e => e.1 != b }
  else putBar s b { barOf s b with orphan := true }

theorem freeBars_cons (s : State) (job : Nat) (b : BarId) (r : List BarId) : freeBars s job (b :: r) = freeBars (freeBar s job b) job r := rfl

theorem freeBar_frame (s : State) (job : Nat) (b : BarId) : freeBar s job b = { s with barriers := (freeBar s job b).barriers } := by
  rw [freeBar]
  split
  · rfl
  · split <;> rfl

theorem freeBars_frame (s : State) (job : Nat) (l : List BarId) : freeBars s job l = { s with barriers := (freeBars s job l).barriers } := by
  induction l generalizing s with
  | nil => rfl
  | cons b l ih =>
    rw [freeBars_cons, ih, freeBar_frame]

section
variable {s : State} {job : Nat} {b c : BarId}

theorem heldByOther_iff : ((allJobs s).any fun k => k.id != job && k.barriers.contains b) = true ↔ heldByOther s job b := by
  simp [heldByOther]

theorem freeBar_own (alone : ¬heldByOther s job b) (paid : (barOf s b).owed = 0) :
    freeBar s job b = { s with barriers := s.barriers.filter fun e => e.1 != b } := by
  rw [freeBar, if_neg (mt heldByOther_iff.1 alone), if_pos paid]

/-- Another barrier is as it was. -/
theorem freeBar_other (h : c ≠ b) : barOf (freeBar s job b) c = barOf s c ∧ ∀ x, (c, x) ∈ (freeBar s job b).barriers → (c, x) ∈ s.barriers := by
  rw [freeBar]
  split
  · exact ⟨rfl, fun _ => id⟩
  split
  · exact ⟨lookupD_filter_ne _ _ h, fun _ hx => (List.mem_filter.1 hx).1⟩
  · exact ⟨(barOf_putBar ..).trans (if_neg h), fun _ => mem_assign_ne h⟩

/-- A barrier that is idle stays idle. -/
theorem freeBars_idle {l : List BarId} (alone : ¬heldByOther s job b) (idle : ∀ x, (b, x) ∉ s.barriers) (paid : (barOf s b).owed = 0) :
    ∀ x, (b, x) ∉ (freeBars s job l).barriers := by
  induction l generalizing s with
  | nil => exact idle
  | cons c l ih =>
    rw [freeBars_cons]
    have jobs : ¬heldByOther (freeBar s job c) job b := by rw [freeBar_frame]; exact alone
    by_cases same : c = b
    · subst same
      have gone := freeBar_own alone paid
      refine ih jobs ?_ ?_
      · rw [gone]
        exact fun x hx => idle x (List.mem_filter.1 hx).1
      · rw [gone]
        exact congrArg Barrier.owed (lookupD_filter_self ..)
    · obtain ⟨value, mem⟩ := freeBar_other (s := s) (job := job) (Ne.symm same)
      exact ih jobs (fun x hx => idle x (mem x hx)) (value ▸ paid)

/-- A barrier of the list that owes nothing and that no other job holds is idle. -/
theorem freeBars_frees {l : List BarId} (alone : ¬heldByOther s job b) (paid : (barOf s b).owed = 0) (own : b ∈ l) :
    ∀ x, (b, x) ∉ (freeBars s job l).barriers := by
  induction l generalizing s with
  | nil => exact absurd own List.not_mem_nil
  | cons c l ih =>
    rw [freeBars_cons]
    have jobs : ¬heldByOther (freeBar s job c) job b := by rw [freeBar_frame]; exact alone
    by_cases same : c = b
    · subst same
      have gone := freeBar_own alone paid
      refine freeBars_idle jobs ?_ ?_
      · rw [gone]
        exact fun x hx => absurd (List.mem_filter.1 hx).2 (by simp)
      · rw [gone]
        exact congrArg Barrier.owed (lookupD_filter_self ..)
    · refine ih jobs ?_ ((List.mem_cons.1 own).resolve_left (Ne.symm same))
      rw [(freeBar_other (Ne.symm same)).1, paid]

end

/-! ### Launches and banks -/

theorem findLaunch_updLaunch (s : State) (i : Nat) (f : Launch → Launch) (hf : ∀ l, (f l).id = l.id) :
    findLaunch (updLaunch s i f) i = (findLaunch s i).map f := by
  have all (l : List Launch) : (l.map fun x => if x.id = i then f x else x).find? (fun x => x.id == i) = (l.find? fun x => x.id == i).map f := by
    induction l with
    | nil => rfl
    | cons x l ih =>
      by_cases h : x.id = i
      · simp [h, hf]
      · simpa [h] using ih
  exact all s.launches

theorem gateLeft_frame (s : State) : gateLeft s = { s with
    spad := (gateLeft s).spad, spadPoison := (gateLeft s).spadPoison, zeroMap := (gateLeft s).zeroMap, gated := (gateLeft s).gated } := by
  rw [gateLeft]
  split <;> rfl

theorem gateLeft_spad {s : State} (h : s.powerState ≠ 2) : (gateLeft s).spad = s.spad := by rw [gateLeft, if_neg h]

/-! ### The job leaves -/

theorem updJob_onlyJobs (s : State) (i : Nat) (f : Job → Job) :
    updJob s i f = { s with job := (updJob s i f).job, jobs := (updJob s i f).jobs } := by
  unfold updJob
  split
  · rfl
  · unfold putJob
    split <;> rfl

theorem id_updJob (s : State) (i : Nat) (f : Job → Job) (hf : ∀ j, (f j).id = j.id) : (updJob s i f).job.id = s.job.id := by
  obtain h | h := updJob_focused s i f hf
  · rw [h]
  · rw [h, hf]

theorem dropJob_focused {s : State} {i : Nat} (h : s.job.id = i) : dropJob s i = { s with job := Job.blank } := if_pos h

/-- The device before a job leaves it: the job's requests have no party left, its channels are unbound, its tubs disarmed and its barriers
freed. -/
def parting (s : State) (j : Job) : State :=
  let u := orphanUnits (settleInto s j.id) (unitOfJob s j.id)
  freeBars (disarmTubs { u with chans := u.chans.filter fun c => c.job != j.id } j.barriers) j.id j.barriers

section
variable {s : State}

/-- The partner of a job that has left: no messages, and no partner. -/
def Job.unpaired (j : Job) : Job := { j with inbox := [], partner := 0 }

/-- A launch of which one job more has retired. -/
def Launch.oneRetired (l : Launch) : Launch := { l with retired := l.retired + 1 }

theorem retire_steps (s : State) (j : Job) : retire s j =
    gateLeft (updLaunch (dropJob (updJob (parting s j) j.partner Job.unpaired) j.id) j.launch Launch.oneRetired) := rfl

/-- The job is gone; of the device before it left, what the retirement still changes. -/
theorem retire_eq (s : State) : ∃ jobs, retire s s.job =
    gateLeft (updLaunch { parting s s.job with job := Job.blank, jobs } s.job.launch Launch.oneRetired) := by
  have id : (updJob (parting s s.job) s.job.partner Job.unpaired).job.id = s.job.id := by
    rw [id_updJob _ _ Job.unpaired fun _ => rfl, parting, freeBars_frame]
    exact (Written.settleInto s s.job.id).job.id
  rw [retire_steps, dropJob_focused id, updJob_onlyJobs]
  exact ⟨_, rfl⟩

theorem parting_frame (s : State) (j : Job) : (parting s j).launches = s.launches ∧ (parting s j).powerState = s.powerState ∧
    (parting s j).chans = s.chans.filter (fun c => c.job != j.id) ∧ (parting s j).rbuf = s.rbuf.filter fun r => !unitOfJob s j.id r.unit := by
  have written := (Written.settleInto s j.id).device
  have launches : (settleInto s j.id).launches = s.launches := by rw [written]
  have power : (settleInto s j.id).powerState = s.powerState := by rw [written]
  have chans : (settleInto s j.id).chans = s.chans := by rw [written]
  have rbuf : (settleInto s j.id).rbuf = s.rbuf := by rw [written]
  rw [parting, freeBars_frame]
  exact ⟨launches, power, congrArg (List.filter fun c : Chan => c.job != j.id) chans, congrArg (List.filter fun r : RBuf => !unitOfJob s j.id r.unit) rbuf⟩

theorem parting_stores (idle : ∀ k ∈ allJobs s, k.stores = []) (j : Job) : SameStores s (parting s j) := by
  rw [parting, freeBars_frame]
  exact (settleInto_idle j.id idle).trans ⟨⟨rfl, rfl, rfl, rfl⟩, rfl, rfl, rfl, rfl⟩

/-- The barriers of the job that owe nothing and that no other job holds are idle. -/
theorem parting_barriers {b : BarId} (own : b ∈ s.job.barriers) (paid : (barOf s b).owed = 0) (alone : ∀ k ∈ s.jobs, b ∉ k.barriers) :
    ∀ x, (b, x) ∉ (parting s s.job).barriers := by
  have written := Written.settleInto s s.job.id
  refine freeBars_frees (fun ⟨k, hk, other, holds⟩ => ?_) ?_ own
  · have inside : k ∈ allJobs (settleInto s s.job.id) := hk
    rw [allJobs] at inside
    have away : k ∈ (settleInto s s.job.id).jobs := by
      split at inside
      · exact inside
      · exact (List.mem_cons.1 inside).resolve_left fun same => other (same ▸ written.job.id)
    obtain ⟨j, hj, jk⟩ := written.jobs k away
    have same : k.barriers = j.barriers := by rw [jk]; rfl
    exact alone j hj (same ▸ holds)
  · have same : (settleInto s s.job.id).barriers = s.barriers := by rw [written.device]
    show (lookupD Barrier.zero (settleInto s s.job.id).barriers b).owed = 0
    rw [same]
    exact paid

theorem exec_jobRetire (here : s.job.id ≠ 0) (may : mayRetire s s.job = true) (idle : s.job.stores = []) :
    exec (.jobRetire s.job.id) s = .next (retire s s.job) := by
  show execJobRetire s.job.id s = _
  simp only [execJobRetire, findJob_self here, may, if_true, focus_self, drain_idle idle]

end

/-- Settles O32: what leaves with the job, and the stores where nothing is pending. -/
theorem retirement : Obligations.Retirement := by
  unfold Obligations.Retirement
  intro s here may idle
  obtain ⟨launches, power, chans, rbuf⟩ := parting_frame s s.job
  obtain ⟨jobs, left⟩ := retire_eq s
  rw [exec_jobRetire here may idle, left]
  refine ⟨_, rfl, ?_⟩
  rw [gateLeft_frame]
  refine ⟨rfl, fun c hc => ?unbound, ?counted, fun b own paid alone => parting_barriers own paid alone, fun r hr => ?released,
    fun others => ?stores⟩
  case unbound =>
    have hc : c ∈ (parting s s.job).chans := hc
    rw [chans] at hc
    simpa using (List.mem_filter.1 hc).2
  case counted =>
    refine (findLaunch_updLaunch { parting s s.job with job := Job.blank, jobs } s.job.launch Launch.oneRetired fun _ => rfl).trans ?_
    exact congrArg (fun l : List Launch => (l.find? fun x => x.id == s.job.launch).map Launch.oneRetired) launches
  case released =>
    have hr : r ∈ (parting s s.job).rbuf := hr
    rw [rbuf] at hr
    intro own
    simpa [own, unitOfJob] using (List.mem_filter.1 hr).2
  case stores =>
    have all : ∀ k ∈ allJobs s, k.stores = [] := fun k hk => by
      rw [allJobs, if_neg here] at hk
      exact (List.mem_cons.1 hk).elim (fun own => own ▸ idle) (others k)
    obtain ⟨⟨hbm, ddr, host, spad⟩, -⟩ := parting_stores all s.job
    exact ⟨hbm, ddr, host, fun ungated => (gateLeft_spad (power.symm ▸ ungated)).trans spad⟩

end Sys2Proof.Machine
end

section
/-! SUPPORT. Traps that are pending, in the order of their delivery (15_traps.md R322, R336): O33. -/

namespace Sys2Proof.Machine

/-- Trap t goes before trap u, the head of the pending list u :: r. -/
def Trap.goesBefore (t u : Trap) (r : List Trap) : Prop :=
  (∀ v ∈ u :: r, v.cause ≠ .absentContext) ∧ t.clock = u.clock ∧
    (t.stream < u.stream ∨ (t.stream = u.stream ∧ ((u.word = true ∧ t.word = false) ∨ (u.word = t.word ∧ t.age < u.age))))

theorem insertTrap_before {t u : Trap} {r : List Trap} (h : t.goesBefore u r) : insertTrap t (u :: r) = t :: u :: r := by
  rw [insertTrap, if_pos]
  simpa [Trap.goesBefore, and_assoc] using h

theorem insertTrap_behind {t u : Trap} {r : List Trap} (h : ¬t.goesBefore u r) : insertTrap t (u :: r) = u :: insertTrap t r := by
  rw [insertTrap, if_neg]
  intro before
  exact h (by simpa [Trap.goesBefore, and_assoc] using before)

theorem insertTrap_perm (t : Trap) (l : List Trap) : (insertTrap t l).Perm (t :: l) := by
  induction l with
  | nil => exact .refl _
  | cons u r ih =>
    by_cases h : t.goesBefore u r
    · rw [insertTrap_before h]
    · rw [insertTrap_behind h]
      exact (ih.cons u).trans (.swap t u r)

/-- What a fault log has brought stays before a trap that comes later. -/
theorem insertTrap_logged (t u : Trap) (l r : List Trap) (h : u.cause = .absentContext) :
    insertTrap t (l ++ u :: r) = l ++ u :: insertTrap t r := by
  induction l with
  | nil => exact insertTrap_behind fun ⟨unlogged, _⟩ => unlogged u (.head _) h
  | cons v l ih =>
    have logged : ¬t.goesBefore v (l ++ u :: r) := fun ⟨unlogged, _⟩ => unlogged u (.tail _ (List.mem_append_right l (.head _))) h
    rw [List.cons_append, insertTrap_behind logged, ih]
    rfl

/-- Trap a is delivered before trap b: its clock is lower, or in one clock its STREAM, or in one stream an operation goes before the word and
the older block or collective first. -/
def Trap.sooner (a b : Trap) : Prop := a.clock < b.clock ∨ (a.clock = b.clock ∧
  (a.stream.toNat < b.stream.toNat ∨ (a.stream = b.stream ∧ ((a.word = false ∧ b.word = true) ∨ (a.word = b.word ∧ a.age ≤ b.age)))))

theorem Trap.sooner.trans {a b c : Trap} (h : a.sooner b) (g : b.sooner c) : a.sooner c := by
  unfold Trap.sooner at *
  obtain clock | ⟨clock, stream | ⟨stream, order⟩⟩ := h
  · exact .inl (by omega)
  · exact (g.imp (by omega) fun ⟨clock', stream'⟩ => ⟨clock.trans clock', .inl (by
      obtain lower | ⟨same, _⟩ := stream'
      · exact stream.trans lower
      · exact same ▸ stream)⟩)
  · refine g.imp (by omega) fun ⟨clock', stream'⟩ => ⟨clock.trans clock', stream'.imp (fun lower => stream ▸ lower) fun ⟨stream', order'⟩ =>
      ⟨stream.trans stream', ?_⟩⟩
    obtain ⟨op, word⟩ | ⟨same, age⟩ := order
    · obtain ⟨op', _⟩ | ⟨same', _⟩ := order'
      · exact absurd (op'.symm.trans word) Bool.false_ne_true
      · exact .inl ⟨op, same'.symm.trans word⟩
    · rw [same]
      exact order'.imp_right fun ⟨same', age'⟩ => ⟨same', age.trans age'⟩

theorem Trap.goesBefore.sooner {t u : Trap} {r : List Trap} (h : t.goesBefore u r) : t.sooner u := by
  obtain ⟨_, clock, stream | ⟨stream, order⟩⟩ := h
  · exact .inr ⟨clock, .inl (BitVec.lt_def.1 stream)⟩
  · exact .inr ⟨clock, .inr ⟨stream, order.imp And.symm fun ⟨word, age⟩ => ⟨word.symm, age.le⟩⟩⟩

/-- A trap that comes later than all and does not go before the head stands behind it. -/
theorem Trap.sooner_of_not_goesBefore {t u : Trap} {r : List Trap} (h : ¬t.goesBefore u r) (later : u.clock ≤ t.clock)
    (unlogged : ∀ v ∈ u :: r, v.cause ≠ .absentContext) : u.sooner t := by
  obtain clock | clock := Nat.lt_or_eq_of_le later
  · exact .inl clock
  refine .inr ⟨clock, ?_⟩
  by_cases stream : u.stream.toNat < t.stream.toNat
  · exact .inl stream
  have same : u.stream = t.stream := by
    refine BitVec.eq_of_toNat_eq (Nat.le_antisymm ?_ (Nat.not_lt.1 stream))
    exact Nat.not_lt.1 fun lower => h ⟨unlogged, clock.symm, .inl (BitVec.lt_def.2 lower)⟩
  refine .inr ⟨same, ?_⟩
  have order : ¬((u.word = true ∧ t.word = false) ∨ (u.word = t.word ∧ t.age < u.age)) := fun order =>
    h ⟨unlogged, clock.symm, .inr ⟨same.symm, order⟩⟩
  cases hu : u.word <;> cases ht : t.word <;> simp [hu, ht] at order ⊢ <;> exact order

theorem insertTrap_pairwise {t : Trap} {l : List Trap} (sorted : l.Pairwise Trap.sooner)
    (later : ∀ a ∈ l, a.clock ≤ t.clock ∧ a.cause ≠ .absentContext) : (insertTrap t l).Pairwise Trap.sooner := by
  induction l with
  | nil => exact List.pairwise_singleton ..
  | cons u r ih =>
    obtain ⟨head, tail⟩ := List.pairwise_cons.1 sorted
    by_cases h : t.goesBefore u r
    · rw [insertTrap_before h]
      exact .cons (fun v hv => (List.mem_cons.1 hv).elim (fun same => same ▸ h.sooner) fun rest => h.sooner.trans (head v rest)) sorted
    · rw [insertTrap_behind h]
      have behind : u.sooner t := Trap.sooner_of_not_goesBefore h (later u (.head _)).1 fun v hv => (later v hv).2
      refine .cons (fun v hv => ?_) (ih tail fun a ha => later a (.tail _ ha))
      exact (List.mem_cons.1 ((insertTrap_perm t r).mem_iff.1 hv)).elim (fun same => same ▸ behind) (head v)

end Sys2Proof.Machine
end

section
/-! SUPPORT. Taking a trap (15_traps.md R319, R322, R323, R329): O33. -/

namespace Sys2Proof.Machine
variable {s : State} {c : Cause} {v pc prog : Word} {t : Trap} {r : List Trap}

/-- The job whose stream has given up what it waited for, where that is no rendezvous. -/
def Job.released (j : Job) : Job := { j with wait := .ready, waitaFrom := none, darn := j.darn.filter DarnRun.holds }

theorem abandon_eq {j : Job} (h : j.wait ≠ .joined) : j.abandon = j.released := by
  have away : (j.wait == .joined) = false := beq_eq_false_iff_ne.2 h
  simp only [Job.abandon, Job.released, away, Bool.false_and, Bool.false_eq_true, if_false]

/-- The PC to which ERET returns. -/
def Trap.back (t : Trap) (pc : Word) : Word := if t.stream = 0 then t.pc else pc

/-- The device as a trap takes the stream away from its instruction, before the handler is looked for. -/
def trapTaken (s : State) (t : Trap) (r : List Trap) : State :=
  { givenUp s with job := { s.job.abandon.inHandler t (t.back s.job.pc) r with pc := s.job.pc } }

theorem divert_eq (s : State) (t : Trap) (r : List Trap) : divert s t r =
    if s.job.tvec = 0 || (bits s.job.tvec 0 2) != 0 then escalate (trapTaken s t r) .escalated ((t.cause.code).setWidth 64)
    else { trapTaken s t r with job := { (trapTaken s t r).job with pc := s.job.tvec } } := by
  have pend : (!r.isEmpty) = decide (r ≠ []) := by cases r <;> rfl
  cases waits : s.job.wait.waiting <;> simp only [divert, pend, trapTaken, givenUp, withdraw, waits] <;> rfl

theorem handled_iff : s.job.handled ↔ (s.job.tvec = 0 || (bits s.job.tvec 0 2) != 0) = false := by
  have low : bits s.job.tvec 0 2 = 0 ↔ s.job.tvec.toNat % 4 = 0 := by
    rw [← BitVec.toNat_inj]
    simp [bits]
  simp only [Job.handled, Bool.or_eq_false_iff, decide_eq_false_iff_not, bne_eq_false_iff_eq, low, ne_eq]

/-- With a handler the stream stands at its first instruction. -/
theorem divert_handled (h : s.job.handled) (away : s.job.wait ≠ .joined) :
    divert s t r = { givenUp s with job := s.job.released.inHandler t (t.back s.job.pc) r } := by
  rw [divert_eq, handled_iff.1 h, trapTaken, abandon_eq away]
  rfl

theorem escalate_job (s : State) (c : Cause) (v : Word) : (escalate s c v).job = { s.job with hnd := true, wait := .dvorol c v } :=
  tellContext_job ..

/-- Without one the trap goes to Dvorol. -/
theorem divert_unhandled (h : ¬s.job.handled) (away : s.job.wait ≠ .joined) : (divert s t r).job =
    { s.job.released.inHandler t (t.back s.job.pc) r with pc := s.job.pc, wait := .dvorol .escalated (t.cause.code.setWidth 64) } := by
  rw [divert_eq, if_pos (eq_true_of_ne_false (mt handled_iff.2 h)), escalate_job, trapTaken, abandon_eq away]
  rfl

/-- A trap of the control stream joins the pending ones. -/
def joined (s : State) (c : Cause) (v pc prog : Word) : State :=
  { s with job := { s.job with pending := insertTrap { ownTrap c v pc prog with clock := s.clock } s.job.pending } }

theorem join_outside (h : s.job.hnd = false) :
    ({ s with job := s.job.join s.clock (ownTrap c v pc prog) } : State) = joined s c v pc prog := by
  simp only [Job.join, h, Bool.false_eq_true, if_false, joined]

theorem givenUp_joined (j : Job) : { givenUp (joined s c v pc prog) with job := j } = { givenUp s with job := j } := by
  cases waits : s.job.wait.waiting <;> simp only [givenUp, joined, waits] <;> rfl

theorem divertIfPending_eq (outside : s.job.hnd = false) (free : s.job.st ≠ .draining) (first : s.job.pending = t :: r) :
    divertIfPending s = divert s t r := by
  have away : (s.job.st == .draining) = false := beq_eq_false_iff_ne.2 free
  simp only [divertIfPending, outside, away, Bool.or_self, Bool.false_eq_true, if_false, first]

/-- A trap of the control stream outside its handler: the first of the pending ones is taken. -/
theorem raiseAt_diverts (outside : s.job.hnd = false) (free : s.job.st ≠ .draining)
    (first : insertTrap { ownTrap c v pc prog with clock := s.clock } s.job.pending = t :: r) :
    raiseAt s c v pc prog = divert (joined s c v pc prog) t r := by
  rw [raiseAt_outside outside free]
  exact (congrArg divertIfPending (join_outside outside)).trans (divertIfPending_eq outside free first)

theorem raiseAt_handled (outside : s.job.hnd = false) (free : s.job.st ≠ .draining) (away : s.job.wait ≠ .joined) (h : s.job.handled)
    (first : insertTrap { ownTrap c v pc prog with clock := s.clock } s.job.pending = t :: r) :
    raiseAt s c v pc prog = { givenUp s with job := s.job.released.inHandler t (t.back s.job.pc) r } := by
  rw [raiseAt_diverts outside free first, divert_handled (s := joined s c v pc prog) h away, givenUp_joined]
  rfl

theorem pending_own (alone : s.job.pending = []) :
    insertTrap { ownTrap c v pc prog with clock := s.clock } s.job.pending = [{ ownTrap c v pc prog with clock := s.clock }] := by
  rw [alone]
  rfl

/-- The PC to which ERET returns from a trap of the control stream. -/
theorem back_own (n : Nat) (w : Word) : Trap.back { ownTrap c v pc prog with clock := n } w = pc := if_pos rfl

/-- A trap with none pending before it. -/
theorem raiseAt_alone (outside : s.job.hnd = false) (free : s.job.st ≠ .draining) (away : s.job.wait ≠ .joined) (h : s.job.handled)
    (alone : s.job.pending = []) : raiseAt s c v pc prog = { givenUp s with job := s.job.released.inHandler (ownTrap c v pc prog) pc [] } := by
  rw [raiseAt_handled outside free away h (pending_own alone), back_own]
  rfl

theorem exec_trapDivert (outside : s.job.hnd = false) (first : s.job.pending = t :: r) (here : s.job.id ≠ 0)
    (running : s.job.st = .running) (boundary : atBoundary s s.job = true) : exec (.trapDivert s.job.id) s = .next (divert s t r) := by
  have diverts := divertIfPending_eq outside (by rw [running]; nofun) first
  show execTrapDivert s.job.id s = _
  simp [execTrapDivert, findJob_self here, running, outside, first, boundary, diverts]

/-- Settles O33: a trap by the handler and the drain, the pending ones by the place that insertTrap gives each. -/
theorem traps : Obligations.Traps := by
  unfold Obligations.Traps
  refine ⟨fun s u c v pc prog j hj hu away free => ?taken, fun s c v pc prog outside away draining => ?drain, insertTrap_perm,
    fun t l before hbefore sorted later => ?order, fun t u l r => insertTrap_logged t u l r⟩
  case taken =>
    subst hu
    obtain rfl : j = s.job.released := hj
    refine ⟨fun outside none handler => ?_, fun outside none bare => ?_, fun inside => ?_, fun t r outside first handler => ?_,
      fun t r outside first handler here running boundary => ?_⟩
    · exact ⟨raiseAt_alone outside free away handler none, fun i => congrArg _ (raiseAt_alone outside free away handler none)⟩
    · rw [raiseAt_diverts outside free (pending_own none), divert_unhandled (s := joined s c v pc prog) bare away, back_own]
      rfl
    · rw [raiseAt_in_handler inside, escalate_job, ← inside]
    · exact raiseAt_handled outside free away handler first
    · rw [exec_trapDivert outside first here running boundary, divert_handled handler away]
      rfl
  case drain =>
    rw [raiseAt_in_drain outside draining]
    have kept := abandon_eq (j := (joined s c v pc prog).job) away
    exact congrArg (fun j => { s with job := j }) ((congrArg (fun u : State => u.job.abandon) (join_outside outside)).trans kept)
  case order =>
    obtain rfl : before = Trap.sooner := funext fun a => funext fun b => propext (hbefore a b)
    exact insertTrap_pairwise sorted later

end Sys2Proof.Machine
end

section
/-! SUPPORT. Requests posted, entries told to the host, and a launch that enters its queue (04_jobs.md R83, R84, R96; O35). -/

namespace Sys2Proof.Machine

/-! ### Requests posted -/

/-- State t is state s but for requests that have been posted, and packets that have been sent or have come to wait. -/
def Posted (s t : State) : Prop :=
  t = { s with seqs := t.seqs, outs := t.outs, links := t.links, outbox := t.outbox, resyncs := t.resyncs }

theorem Posted.refl (s : State) : Posted s s := rfl

theorem Posted.trans {s t u : State} (h : Posted s t) (g : Posted t u) : Posted s u := by
  unfold Posted at *
  rw [g, h]

/-- The same after a change that posts a request. -/
theorem Posted.after {s t u : State} (g : Posted t u) (h : Posted s t) : Posted s u := h.trans g

theorem Sent.posted {s t : State} (h : Sent s t) : Posted s t := by
  obtain ⟨⟨_, _, _, rfl⟩, _⟩ := h
  rfl

theorem sendWaiting_posted (s : State) : Posted s (sendWaiting s) := by
  obtain ⟨t, outs, sent, same, _⟩ := sendWaiting_sent s
  rw [same]
  exact sent.posted.trans rfl

theorem postReq_posted (s : State) (u : Unit) (key : Word) (q : Request) : Posted s (postReq s u key q) :=
  (sendWaiting_posted _).after rfl

theorem sendGroups_posted (s : State) (l : Launch) (m : List (BitVec 8 × List Nat)) : Posted s (sendGroups s l m) := by
  induction m generalizing s with
  | nil => exact .refl s
  | cons x m ih => exact (postReq_posted ..).trans (ih _)

/-! ### Entries told to the host -/

/-- State t is state s but for entries that have been posted to the rings of the host. -/
def Told (s t : State) : Prop := t = { s with host := t.host, hrings := t.hrings, interrupts := t.interrupts, freeCtr := t.freeCtr }

theorem Told.refl (s : State) : Told s s := rfl

theorem Told.trans {s t u : State} (h : Told s t) (g : Told t u) : Told s u := by
  unfold Told at *
  rw [g, h]

/-- The same after a change that posts an entry. -/
theorem Told.after {s t u : State} (g : Told t u) (h : Told s t) : Told s u := h.trans g

theorem ringSignal_told (s : State) (k : Nat) : Told s (ringSignal s k) := by
  unfold ringSignal
  dsimp only
  split <;> rfl

theorem ringWrite_told (s : State) (k : Nat) (e : BitVec 512) : Told s (ringWrite s k e) :=
  (ringSignal_told _ k).after rfl

theorem ringFlush_told (n : Nat) (s : State) (k : Nat) : Told s (ringFlush n s k) := by
  induction n generalizing s with
  | zero => exact .refl s
  | succ n ih =>
    unfold ringFlush
    dsimp only
    split
    · exact .refl s
    next e rest _ =>
      split
      · have written := ringWrite_told { s with hrings := assign s.hrings k { ringOf s k with waiting := rest } } k e
        exact (written.after rfl).trans (ih _)
      · exact .refl s

theorem ringPost_told (s : State) (k : Nat) (e : BitVec 512) : Told s (ringPost s k e) :=
  (ringFlush_told _ _ k).after rfl

theorem complete_told (s : State) (c : Cmd) (status : Nat) (result : List Byte) :
    Told { s with cmds := s.cmds.filter (· != c) } (complete s c status result) := by
  rw [complete_eq]
  exact (ringPost_told _ _ _).after rfl

/-! ### A launch enters its queue -/

theorem queueOf_putQueue (s : State) {q : Nat} (h : q < 16) (x : LQueue) : queueOf (putQueue s q x) q = x := by
  simp [queueOf, putQueue, h]

/-- The launch as its queue holds it: under its id and in its place in time, with all its indices. -/
def Launch.entered (l : Launch) (n : Nat) : Launch :=
  { l with id := n, time := n, idx := l.idx ++ List.replicate (nlev l.raw - gangLevels l.raw - l.idx.length) 0 }

/-- A launch that enters its queue is the newest one of the device, and its queue holds it unless it has no jobs. -/
theorem enqueue_posted (s : State) (l : Launch) : ∃ t, Posted t (enqueue s l) ∧
    t = { s with nextLaunch := s.nextLaunch + 1, launches := s.launches ++ [l.entered s.nextLaunch], queues := t.queues } ∧
    t.queues = if l.jobs = 0 then s.queues
      else (putQueue s l.queue { queueOf s l.queue with entries := (queueOf s l.queue).entries ++ [s.nextLaunch] }).queues := by
  refine ⟨_, sendGroups_posted .., ?frame, ?queues⟩
  case frame => dsimp only; split <;> rfl
  case queues => dsimp only; split <;> rfl

/-- What entering a queue leaves alone: the memories and the focused job. -/
theorem enqueue_frame (s : State) (l : Launch) :
    (enqueue s l).launches = s.launches ++ [l.entered s.nextLaunch] ∧ (enqueue s l).job = s.job ∧ sameBytes s (enqueue s l) := by
  obtain ⟨t, posted, frame, -⟩ := enqueue_posted s l
  rw [posted, frame]
  exact ⟨rfl, rfl, fun sp a _ => by cases sp <;> rfl⟩

theorem barOwe_frame (s : State) (b : Option BarId) : barOwe s b = { s with barriers := (barOwe s b).barriers } := by
  cases b <;> rfl

/-! ### LAUNCH -/

section
variable {s : State} {a b : Reg}

theorem exec_launch_misaligned (h : (getX s a).toNat % 64 ≠ 0) : exec (.launch a b) s = .next (raise s .misaligned (getX s a)) := by
  have low : (bits (getX s a) 0 6 != 0) = true := by
    rw [bne_iff_ne]
    intro zero
    exact h (by simpa [bits, BitVec.toNat_eq] using zero)
  show execLaunch a b s = _
  simp only [execLaunch, low, if_true]

theorem exec_launch_queue (whole : (getX s a).toNat % 64 = 0) (beyond : 15 < (getX s b).toNat) :
    exec (.launch a b) s = .next (raise s .queueMisuse 3) := by
  have low : (bits (getX s a) 0 6 != 0) = false := by
    rw [bne_eq_false_iff_eq]
    simpa [bits, BitVec.toNat_eq] using whole
  show execLaunch a b s = _
  simp only [execLaunch, low, beyond, if_true, Bool.false_eq_true, if_false]

/-- What LAUNCH does with its record judged. -/
def launchJudged (s : State) : Except Refused Launch → State
  | .error (.code n) => raise s .queueMisuse (BitVec.ofNat 64 n)
  | .error (.csync o) => raise s .barrierMisuse (barWord o)
  | .ok l => launchNow s l

/-- LAUNCH once its record has been read and checked. -/
theorem exec_launch_checked {raw : BitVec 2048} {x : Except Refused Launch} (whole : (getX s a).toNat % 64 = 0)
    (inside : (getX s b).toNat ≤ 15)
    (checked : checkLaunch (drain s) (ctlParty (drain s) 0) (getX s a) (getX s b).toNat (some (drain s).job.shapes) (.job (drain s).job.id)
      (drain s).job.barAt = .ok (raw, x)) :
    exec (.launch a b) s = .next (launchJudged (repliesTaken (drain s)) x) := by
  have low : (bits (getX s a) 0 6 != 0) = false := by
    rw [bne_eq_false_iff_eq]
    simpa [bits, BitVec.toNat_eq] using whole
  show execLaunch a b s = _
  simp only [execLaunch, low, Nat.not_lt.2 inside, Bool.false_eq_true, if_false, checked, withAccess]
  rcases x with (n | o) | l <;> rfl

end

/-- The launch of LAUNCH enters its queue where it has room and none waits. -/
theorem launchNow_room {s : State} {l : Launch} (room : launchRoom s l = true) (first : (queueOf s l.queue).waiting = []) :
    launchNow s l = advance (enqueue (barOwe s l.csync) l) := by
  simp only [launchNow, room, first, List.isEmpty_nil, Bool.and_self, if_true]

theorem launchNow_waits {s : State} {l : Launch} (full : launchRoom s l = false ∨ (queueOf s l.queue).waiting ≠ []) :
    launchNow s l = waitsAt (putQueue s l.queue { queueOf s l.queue with waiting := (queueOf s l.queue).waiting ++ [l] }) .enqueueing := by
  have out : (launchRoom s l && (queueOf s l.queue).waiting.isEmpty) = false := by
    rcases full with full | full
    · simp [full]
    · simp [full]
  simp only [launchNow, out, Bool.false_eq_true, if_false]
  rfl

/-! ### A launch that waits finds room -/

/-- The launcher of a launch that has waited goes on; launches and queues are as before. -/
theorem clearWait_frame (s : State) (l : Launch) :
    (clearWait s l).launches = s.launches ∧ (clearWait s l).nextLaunch = s.nextLaunch ∧ (clearWait s l).queues = s.queues := by
  unfold clearWait
  split
  next t _ =>
    cases t with
    | spad j k =>
      show (updJob s j _).launches = _ ∧ (updJob s j _).nextLaunch = _ ∧ (updJob s j _).queues = _
      rw [updJob_onlyJobs]
      exact ⟨rfl, rfl, rfl⟩
    | mem d k => exact ⟨rfl, rfl, rfl⟩
  next id _ =>
    rw [updJob_onlyJobs, barOwe_frame]
    exact ⟨rfl, rfl, rfl⟩
  next q n _ =>
    unfold completeAt
    split
    next c _ =>
      rw [complete_told s c 0 []]
      exact ⟨rfl, rfl, rfl⟩
    · exact ⟨rfl, rfl, rfl⟩
  · exact ⟨rfl, rfl, rfl⟩
  · exact ⟨rfl, rfl, rfl⟩

/-- A job whose LAUNCH has waited goes on at the next word. -/
theorem clearWait_job {s : State} {l : Launch} (some : s.job.id ≠ 0) (source : l.source = .job s.job.id) :
    (clearWait s l).job = { s.job with pc := s.job.pc + 4, wait := .ready } := by
  simp only [clearWait, source]
  have self := updJob_self (s := { s with barriers := (barOwe s l.csync).barriers }) some
    (fun j => { j with pc := j.pc + 4, wait := .ready }) rfl
  rw [barOwe_frame]
  exact congrArg State.job self

/-- A launch that waits for room in queue q, with the queue as it is once the launch has left its waiting list. -/
theorem exec_enqueueResume {s : State} {q : Fin 16} {l : Launch} {r : List Launch} (waits : (queueOf s q.val).waiting = l :: r) :
    exec (.enqueueResume q) s = .next (if launchRoom s l = true
      then enqueue (clearWait (putQueue s q.val { queueOf s q.val with waiting := r }) l) l else s) := by
  show execEnqueueResume q s = _
  simp only [execEnqueueResume, waits]

theorem queueOf_congr {s t : State} (h : t.queues = s.queues) (q : Nat) : queueOf t q = queueOf s q := by
  rw [queueOf, queueOf, h]

/-- The queue of a launch that enters it. -/
theorem queueOf_enqueue (s : State) {l : Launch} (h : l.queue < 16) :
    (queueOf (enqueue s l) l.queue).waiting = (queueOf s l.queue).waiting ∧
    (queueOf (enqueue s l) l.queue).entries =
      if l.jobs = 0 then (queueOf s l.queue).entries else (queueOf s l.queue).entries ++ [s.nextLaunch] := by
  obtain ⟨t, posted, -, queues⟩ := enqueue_posted s l
  have same : (enqueue s l).queues = t.queues := by rw [posted]
  rw [queueOf_congr same]
  split at queues
  next none =>
    rw [queueOf_congr queues, if_pos none]
    exact ⟨rfl, rfl⟩
  next some =>
    rw [queueOf_congr queues, queueOf_putQueue s h, if_neg some]
    exact ⟨rfl, rfl⟩

/-! ### The statement -/

theorem launch_enters {s u : State} {a b : Reg} {l : Launch} (hu : u = drain s)
    (ran : exec (.launch a b) s = .next (launchNow (repliesTaken u) l)) (room : launchRoom u l = true)
    (first : (queueOf u l.queue).waiting = []) :
    ∃ t n, exec (.launch a b) s = .next t ∧ t.job.pc = s.job.pc + 4 ∧ Job.sameRegs s.job t.job ∧ sameBytes u t ∧
      t.launches = u.launches ++ [n] ∧ n = { l with id := u.nextLaunch, time := u.nextLaunch, idx := n.idx } := by
  obtain ⟨launches, job, bytes⟩ := enqueue_frame (barOwe (repliesTaken u) l.csync) l
  have frame := barOwe_frame (repliesTaken u) l.csync
  have written : s.job.written u.job := hu ▸ (Written.drain s).job
  rw [launchNow_room (s := repliesTaken u) room first] at ran
  refine ⟨_, l.entered u.nextLaunch, ran, ?pc, ?regs, ?bytes, ?launches, ?entry⟩
  case pc =>
    show (enqueue (barOwe (repliesTaken u) l.csync) l).job.pc + 4 = _
    rw [job, frame, ← written.pc]
    rfl
  case regs =>
    show Job.sameRegs s.job { (enqueue (barOwe (repliesTaken u) l.csync) l).job with pc := _, wait := _ }
    rw [job, frame]
    exact Job.sameRegs_trans written.sameRegs (by simp [Job.sameRegs, repliesTaken])
  case bytes =>
    intro sp x at_x
    refine (bytes sp x at_x).trans ?_
    rw [frame]
    cases sp <;> rfl
  case launches =>
    refine launches.trans ?_
    rw [frame]
    rfl
  case entry => rfl

/-- Settles O35: LAUNCH reads its record once the earlier stores have performed, and then a launch that is admitted enters its queue or waits
there, and one that is not traps. -/
theorem launchEnqueue : Obligations.LaunchEnqueue := by
  intro s u a b q l hu
  refine ⟨fun whole named raw x checked => ?checked, exec_launch_misaligned, exec_launch_queue, fun r waits into => ⟨?enters, ?full⟩⟩
  case checked =>
    have inside : (getX s b).toNat ≤ 15 := by omega
    rw [← named, hu] at checked
    have ran := exec_launch_checked whole inside checked
    rw [← hu] at ran
    refine ⟨?now, ?later, ?code, ?csync⟩
    case now =>
      rintro rfl room first
      exact launch_enters hu ran room first
    case later =>
      rintro rfl full
      exact ran.trans (congrArg _ (launchNow_waits (s := repliesTaken u) full))
    case code =>
      rintro n rfl
      exact ran
    case csync =>
      rintro o rfl
      exact ran
  case full =>
    intro none
    rw [exec_enqueueResume waits, none]
    rfl
  case enters =>
    intro room
    have inside : l.queue < 16 := by omega
    obtain ⟨launches, next, queues⟩ := clearWait_frame (putQueue s q.val { queueOf s q.val with waiting := r }) l
    obtain ⟨entered, job, -⟩ := enqueue_frame (clearWait (putQueue s q.val { queueOf s q.val with waiting := r }) l) l
    obtain ⟨waiting, entries⟩ := queueOf_enqueue (clearWait (putQueue s q.val { queueOf s q.val with waiting := r }) l) inside
    rw [into, queueOf_congr queues, queueOf_putQueue s q.isLt] at waiting entries
    rw [launches, next] at entered
    rw [next] at entries
    refine ⟨_, _, (exec_enqueueResume waits).trans (congrArg _ (if_pos room)), entered, rfl, waiting, entries, fun some source => ?_⟩
    have goes := clearWait_job (s := putQueue s q.val { queueOf s q.val with waiting := r }) some source
    rw [job, goes]
    exact ⟨rfl, rfl⟩

end Sys2Proof.Machine
end

section
/-! SUPPORT. The clock of a barrier (11_sync.md R249): its events taken one by one give what all of them give together. -/

namespace Sys2Proof.Machine

/-! ### Arrivals, decrements and expectations of a clock -/

theorem take_arrivals (c : BarCounts) (es : List BarEvent) : (es.filter BarEvent.isArrive).foldl BarCounts.take c =
    { c with
      arrive := c.arrive - BitVec.ofNat 16 (min (arrivalsOf es) c.arrive.toNat), touched := c.touched || es.any BarEvent.isArrive } := by
  induction es generalizing c with
  | nil => simp [arrivalsOf]
  | cons e es ih =>
    cases e with
    | bytes n | expect n => simpa [BarEvent.isArrive, arrivalsOf] using ih c
    | arrive n =>
      have left : (c.arrive - BitVec.ofNat 16 (min n c.arrive.toNat)).toNat = c.arrive.toNat - n := by bv_omega
      have sum : arrivalsOf (.arrive n :: es) = n + arrivalsOf es := by simp [arrivalsOf]
      have both : c.arrive - BitVec.ofNat 16 (min n c.arrive.toNat) -
          BitVec.ofNat 16 (min (arrivalsOf es) (c.arrive.toNat - n)) = c.arrive - BitVec.ofNat 16 (min (n + arrivalsOf es) c.arrive.toNat) := by
        bv_omega
      rw [List.filter_cons_of_pos rfl, List.foldl_cons, ih, sum]
      simp [BarCounts.take, left, both, BarEvent.isArrive]

theorem take_bytes (c : BarCounts) (es : List BarEvent) : (es.filter BarEvent.isBytes).foldl BarCounts.take c =
    { c with bytes := c.bytes - BitVec.ofNat 32 (bytesOf es), touched := c.touched || es.any BarEvent.isBytes } := by
  induction es generalizing c with
  | nil => simp [bytesOf]
  | cons e es ih =>
    cases e with
    | arrive n | expect n => simpa [BarEvent.isBytes, bytesOf] using ih c
    | bytes n =>
      have sum : bytesOf (.bytes n :: es) = n + bytesOf es := by simp [bytesOf]
      have both : c.bytes - BitVec.ofNat 32 n - BitVec.ofNat 32 (bytesOf es) = c.bytes - BitVec.ofNat 32 (n + bytesOf es) := by bv_omega
      rw [List.filter_cons_of_pos rfl, List.foldl_cons, ih, sum]
      simp [BarCounts.take, both, BarEvent.isBytes]

theorem take_expects (c : BarCounts) (es : List BarEvent) : (es.filter BarEvent.isExpect).foldl BarCounts.take c =
    { c with bytes := c.bytes + BitVec.ofInt 32 (expectedOf es), touched := c.touched || es.any BarEvent.isExpect } := by
  induction es generalizing c with
  | nil => simp [expectedOf]
  | cons e es ih =>
    cases e with
    | arrive n | bytes n => simpa [BarEvent.isExpect, expectedOf] using ih c
    | expect n =>
      have sum : expectedOf (.expect n :: es) = n + expectedOf es := by simp [expectedOf]
      rw [List.filter_cons_of_pos rfl, List.foldl_cons, ih, sum]
      simp [BarCounts.take, BarEvent.isExpect, BitVec.ofInt_add, BitVec.add_assoc]

/-- A barrier after a clock with these events, where touching says that one of them touches the phase that ends with the clock, and expecting
that one of them is an expectation. -/
def Barrier.afterClockOf (x : Barrier) (es : List BarEvent) (touching expecting : Bool) : Barrier :=
  let touched := x.start.touched || touching
  let arrive := x.start.arrive - BitVec.ofNat 16 (min (arrivalsOf es) x.start.arrive.toNat)
  let bytes := x.start.bytes - BitVec.ofNat 32 (bytesOf es)
  let done : Bool := touched && arrive == 0 && bytes == 0
  { x with
    phase := if done then !x.start.phase else x.start.phase
    arrive := if done then x.init else arrive
    bytes := (if done then 0 else bytes) + BitVec.ofInt 32 (expectedOf es)
    touched := (touched && !done) || expecting
    was := some (x.start, es) }

theorem Barrier.afterClock_eq (x : Barrier) (es : List BarEvent) :
    x.afterClock es = x.afterClockOf es (es.any fun e => !e.isExpect) (es.any BarEvent.isExpect) := by
  show x.afterClockOf es (es.any _) (es.any _) = _
  congr 2
  funext e
  cases e <;> rfl

/-- An event touches the phase that ends with its clock, unless it is an expectation. -/
theorem any_touching (es : List BarEvent) : (es.any BarEvent.isArrive || es.any BarEvent.isBytes) = es.any fun e => !e.isExpect := by
  induction es with
  | nil => rfl
  | cons e es ih =>
    simp only [List.any_cons, ← ih]
    cases e <;> simp [BarEvent.isArrive, BarEvent.isBytes, BarEvent.isExpect]

/-- The counts after a clock are those of R249. -/
theorem Barrier.inClock_eq_afterClock (x : Barrier) (es : List BarEvent) : x.inClock es = x.afterClock es := by
  rw [Barrier.afterClock_eq]
  simp only [Barrier.inClock, Barrier.afterClockOf, Barrier.withCounts, barClock, take_arrivals, take_bytes, take_expects,
    Barrier.began_eq_start, BarCounts.complete, Bool.or_assoc, any_touching]
  split
  next done => rw [done]; simp
  next still => rw [Bool.not_eq_true] at still; rw [still]; simp

theorem Barrier.clock_arrive (x : Barrier) (n : Nat) : x.clock (.arrive n) = x.arrived n := by
  have events : x.began.2 ++ [.arrive n] = x.eventsWith (.arrive n) := by
    rw [Barrier.began, Barrier.eventsWith]
    cases x.was <;> rfl
  rw [Barrier.clock, Barrier.inClock_eq_afterClock, events, Barrier.arrived]

/-! ### An arrival that a barrier owes -/

/-- An arrival at an active barrier, which counts down what it owes. -/
theorem paid_arrival {s t : State} {b : BarId} {n : Nat} (takes : barTakes s b) (arrives : barEvent s b (.arrive n) = some t) :
    otherBars s (barPaid t b) b ∧ barOf (barPaid t b) b = { (barOf s b).arrived n with owed := (barOf s b).owed - 1 } ∧
    sameBytes s (barPaid t b) := by
  obtain ⟨active, orphan, free⟩ := takes
  obtain ⟨log, rfl⟩ : ∃ log, putBar { s with errLog := log } b ((barOf s b).arrived n) = t := by
    simp only [barEvent, free, active, orphan, Bool.false_eq_true, if_false, Bool.not_true, Barrier.clock_arrive] at arrives
    have same := Option.some.inj arrives
    split at same
    · exact ⟨_, same⟩
    · exact ⟨_, same⟩
  have self : barOf (putBar { s with errLog := log } b ((barOf s b).arrived n)) b = (barOf s b).arrived n :=
    (barOf_putBar ..).trans (if_pos rfl)
  have kept : barPaid (putBar { s with errLog := log } b ((barOf s b).arrived n)) b =
      putBar (putBar { s with errLog := log } b ((barOf s b).arrived n)) b
        { (barOf s b).arrived n with owed := (barOf s b).owed - 1 } := by
    have no : ((barOf s b).arrived n).orphan = false := orphan
    simp only [barPaid, self, no, Bool.false_and, Bool.false_eq_true, if_false]
    rfl
  rw [kept]
  refine ⟨fun c other => ?others, (barOf_putBar ..).trans (if_pos rfl), fun sp a _ => by cases sp <;> rfl⟩
  case others => rw [barOf_putBar, if_neg other, barOf_putBar, if_neg other]; rfl

end Sys2Proof.Machine
end

section
/-! SUPPORT. A launch from its placement to its completion (04_jobs.md R73, R74, R85, R88, R89, and 10_scratchpad.md R244; O36). -/

namespace Sys2Proof.Machine

/-! ### Banks woken -/

/-- The banks of a list woken in turn. -/
def wakeAll (s : State) (l : List (Nat × Nat)) : State := l.foldl (fun s q => wakeBank s q.1 q.2) s

theorem wakeBank_frame (s : State) (q : Nat × Nat) :
    wakeBank s q.1 q.2 = { s with gated := (wakeBank s q.1 q.2).gated, waking := (wakeBank s q.1 q.2).waking } := by
  unfold wakeBank
  split <;> rfl

theorem mem_gated_wakeBank (s : State) (q p : Nat × Nat) : p ∈ (wakeBank s q.1 q.2).gated ↔ p ∈ s.gated ∧ p ≠ q := by
  unfold wakeBank
  split
  · simp
  next away =>
    have off : q ∉ s.gated := by simpa using away
    exact ⟨fun h => ⟨h, fun same => off (same ▸ h)⟩, fun h => h.1⟩

theorem mem_waking_wakeBank (s : State) (q : Nat × Nat) (w : Nat × Nat × Nat) :
    w ∈ (wakeBank s q.1 q.2).waking ↔ w ∈ s.waking ∨ (q ∈ s.gated ∧ w = (q.1, q.2, s.clock + 2048)) := by
  unfold wakeBank
  split
  next on =>
    have on : q ∈ s.gated := by simpa using on
    simp [on]
  next away =>
    have off : q ∉ s.gated := by simpa using away
    simp [off]

/-- The gated banks of a list wake, and no others. -/
theorem wakeAll_wakes (s : State) (l : List (Nat × Nat)) :
    wakeAll s l = { s with gated := (wakeAll s l).gated, waking := (wakeAll s l).waking } ∧
    (∀ p, p ∈ (wakeAll s l).gated ↔ p ∈ s.gated ∧ p ∉ l) ∧
    ∀ w, w ∈ (wakeAll s l).waking ↔ w ∈ s.waking ∨ ∃ p ∈ s.gated, p ∈ l ∧ w = (p.1, p.2, s.clock + 2048) := by
  induction l generalizing s with
  | nil => simp [wakeAll]
  | cons q l ih =>
    have first : wakeAll s (q :: l) = wakeAll (wakeBank s q.1 q.2) l := rfl
    have frame := wakeBank_frame s q
    have clock : (wakeBank s q.1 q.2).clock = s.clock := by rw [frame]
    obtain ⟨rest, gated, waking⟩ := ih (wakeBank s q.1 q.2)
    rw [first]
    refine ⟨?frame, fun p => ?gated, fun w => ?waking⟩
    case frame =>
      rw [rest, frame]
    case gated =>
      rw [gated, mem_gated_wakeBank, List.mem_cons, not_or, and_assoc]
    case waking =>
      rw [waking, mem_waking_wakeBank, clock]
      constructor
      · rintro ((old | ⟨on, rfl⟩) | ⟨p, there, inside, rfl⟩)
        · exact .inl old
        · exact .inr ⟨q, on, .head _, rfl⟩
        · exact .inr ⟨p, ((mem_gated_wakeBank s q p).1 there).1, .tail _ inside, rfl⟩
      · rintro (old | ⟨p, there, inside, rfl⟩)
        · exact .inl (.inl old)
        · by_cases same : p = q
          · exact .inl (.inr ⟨same ▸ there, same ▸ rfl⟩)
          · exact .inr ⟨p, (mem_gated_wakeBank s q p).2 ⟨there, same⟩, (List.mem_cons.1 inside).resolve_left same, rfl⟩

/-- The banks of regions, each with its core. -/
def banksOf (l : List (Nat × Nat × Nat)) : List (Nat × Nat) := l.flatMap fun r => (regionBanks r.2.1 r.2.2).map fun b => (r.1, b)

theorem wakeRegions_eq (s : State) (l : List (Nat × Nat × Nat)) :
    l.foldl (fun s r => wakeRegion s r.1 r.2.1 r.2.2) s = wakeAll s (banksOf l) := by
  simp only [wakeAll, banksOf, wakeRegion, List.foldl_flatMap, List.foldl_map]

theorem mem_banksOf {l : List (Nat × Nat × Nat)} {q : Nat × Nat} :
    q ∈ banksOf l ↔ ∃ r ∈ l, q.1 = r.1 ∧ q.2 ∈ regionBanks r.2.1 r.2.2 := by
  simp only [banksOf, List.mem_flatMap, List.mem_map]
  constructor
  · rintro ⟨r, hr, b, hb, rfl⟩
    exact ⟨r, hr, rfl, hb⟩
  · rintro ⟨r, hr, core, bank⟩
    exact ⟨r, hr, q.2, bank, Prod.ext core.symm rfl⟩

/-! ### Jobs put on their places -/

/-- Barriers replaced one by one, each by its own value. -/
theorem putBars_frame {α : Type} (l : List α) (b : α → BarId) (x : α → Barrier) (s : State) :
    l.foldl (fun s a => putBar s (b a) (x a)) s = { s with barriers := (l.foldl (fun s a => putBar s (b a) (x a)) s).barriers } := by
  induction l generalizing s with
  | nil => rfl
  | cons a l ih => rw [List.foldl_cons, ih]; rfl

/-- The jobs of a launch on their places: what their regions and barriers hold changes, and its jobs are new. -/
theorem placeFrom_frame (l : Launch) (first : Nat) (bars : List ((Nat × Nat) × BarId)) (data : List Byte) (k : Nat) (places : List Seat)
    (s : State) : ∃ spad spadPoison zeroMap barriers, placeFrom l first bars data k places s = { s with
      spad, spadPoison, zeroMap, barriers
      jobs := (places.zipIdx k).foldl (fun js p => insertJob
        (newJob l (first + p.2) p.2 p.1 (jobLevelBars l bars p.2) (partnerId l first p.2)) js) s.jobs } := by
  induction places generalizing k s with
  | nil => exact ⟨_, _, _, _, rfl⟩
  | cons p r ih =>
    dsimp only [placeFrom]
    rw [putBars_frame (placeAllBars p) (fun b => b) fun _ => Barrier.zero]
    obtain ⟨spad, spadPoison, zeroMap, barriers, rest⟩ := ih (k + 1) _
    rw [rest]
    exact ⟨_, _, _, _, rfl⟩

section
variable {s : State} {l : Launch} {places : List Seat}

/-- The launch that is next is placed whole, where its places are right and the banks of its regions are awake. -/
theorem exec_launchPlace {bars : List ((Nat × Nat) × BarId)} {data : List Byte} (next : nextPlaced s = some l)
    (free : hubWaiting s (hubParty l.asid (.launch l.id)) = false) (count : places.length = l.jobs)
    (seats : seatsOk s (demandOf l.raw) [] places = true) (groups : groupsOk l places = true) (own : ownBarsOk s l.raw places = true)
    (awake : ∀ r ∈ seatRegions l places, regionAwake s r.1 r.2.1 r.2.2 = true)
    (levels : levelBarsFrom places l.counts l.raw (levelGroups l) (places.flatMap placeAllBars ++ barsTaken s) = some bars)
    (contents : spadSection s l = .ok data) : ∃ queues barriers t,
      t = placeFrom l s.nextJob bars data 0 places { takeReplies s (.launch l.id) with queues, barriers } ∧ exec (.launchPlace places) s =
        .next (updLaunch { t with nextJob := t.nextJob + l.jobs } l.id fun l => { l with placed := true }) := by
  have right : (places.length = l.jobs && seatsOk s (demandOf l.raw) [] places && groupsOk l places && ownBarsOk s l.raw places) = true := by
    simp [count, seats, groups, own]
  have ready : ¬((seatRegions l places).any fun r => !regionAwake s r.1 r.2.1 r.2.2) = true := by simpa using awake
  have ran : exec (.launchPlace places) s = execLaunchPlace places s := rfl
  rw [ran]
  simp only [execLaunchPlace, next, free, Bool.false_eq_true, if_false, right, if_true, if_neg ready, levels, contents]
  rw [putBars_frame bars Prod.snd fun b => levelBarrier (groupJobs l.counts b.1.1)]
  exact ⟨_, _, _, rfl, rfl⟩

/-- Where a bank of its regions is gated or waking, those that are gated wake, and the launch waits (10_scratchpad.md R244). -/
theorem exec_launchPlace_wakes (next : nextPlaced s = some l)
    (free : hubWaiting s (hubParty l.asid (.launch l.id)) = false) (count : places.length = l.jobs)
    (seats : seatsOk s (demandOf l.raw) [] places = true) (groups : groupsOk l places = true) (own : ownBarsOk s l.raw places = true)
    (asleep : ∃ r ∈ seatRegions l places, regionAwake s r.1 r.2.1 r.2.2 = false) :
    exec (.launchPlace places) s = .next (wakeAll s (banksOf (seatRegions l places))) := by
  have right : (places.length = l.jobs && seatsOk s (demandOf l.raw) [] places && groupsOk l places && ownBarsOk s l.raw places) = true := by
    simp [count, seats, groups, own]
  have some : ((seatRegions l places).any fun r => !regionAwake s r.1 r.2.1 r.2.2) = true := by simpa using asleep
  show execLaunchPlace places s = _
  simp only [execLaunchPlace, next, free, Bool.false_eq_true, if_false, right, if_true, some, wakeRegions_eq]

end

/-! ### Start values -/

section
variable {l : Launch} {id k : Nat} {p : Seat} {bars : List (Nat × BarId)} {partner : Nat}

/-- The control registers of a job at its start, one by one. -/
theorem newJob_x (i : Fin 32) : (newJob l id k p bars partner).x[i] =
    (startX l (if levSel l.raw 0 = 2 then l.tiles[levelIndex l k 0]? else none))[i] := rfl

theorem startX_get (l : Launch) (t : Option TileJob) (i : Fin 32) : (startX l t)[i] =
    if 10 ≤ i.val ∧ i.val < 14 then bits l.raw (8 * (224 + 8 * (i.val - 10))) 64
    else if i.val = 14 then (t.map TileJob.arg).getD 0 else if i.val = 15 then l.addr else 0 := by
  cases t <;> simp [startX]

theorem newJob_pc : (newJob l id k p bars partner).pc = bits l.raw 0 64 + (bits l.raw 64 32).setWidth 64 := by
  show BitVec.ofNat 64 (bits l.raw (8 * 0) (8 * 8)).toNat + BitVec.ofNat 64 (bits l.raw (8 * 8) (8 * 4)).toNat = _
  rw [BitVec.ofNat_toNat, BitVec.ofNat_toNat]
  exact congrArg (· + _) (BitVec.setWidth_eq _)

theorem newJob_argument (i : Fin 4) :
    (newJob l id k p bars partner).x.toList[10 + i.val]? = some (l.raw.extractLsb' (1792 + 64 * i.val) 64) := by
  have at_i := startX_get l (if levSel l.raw 0 = 2 then l.tiles[levelIndex l k 0]? else none) ⟨10 + i.val, by omega⟩
  have inside : 10 ≤ 10 + i.val ∧ 10 + i.val < 14 := by omega
  have offset : 8 * (224 + 8 * (10 + i.val - 10)) = 1792 + 64 * i.val := by omega
  rw [if_pos inside, offset] at at_i
  rw [Vector.getElem?_toList]
  exact (Vector.getElem?_eq_getElem _).trans (congrArg _ at_i)

end

/-! ### Completion -/

theorem hubWrites_one {back s t : State} {p : Party} {a : Word} {d : List Byte} (free : hubWaiting s p = false)
    (written : writeBytes s p (.va a) d = .ok t) : hubWrites back p [(a, d)] s = .ok t := by
  simp only [hubWrites, free, written, Bool.false_eq_true, if_false]

theorem statusWrite_eq (l : Launch) : statusWrite l = if l.raw.extractLsb' 704 64 = 0 then [] else
    [(l.raw.extractLsb' 704 64, leBytes 4 l.retired ++ leBytes 4 l.skipped ++ leBytes 2 l.refs ++ leBytes 6 0)] := by
  have address : BitVec.ofNat 64 (recF l.raw 88 8) = l.raw.extractLsb' 704 64 := (BitVec.ofNat_toNat ..).trans (BitVec.setWidth_eq _)
  have zero : recF l.raw 88 8 = 0 ↔ l.raw.extractLsb' 704 64 = 0 := (BitVec.toNat_eq (y := 0#64)).symm
  have status : launchStatus l.retired l.skipped l.refs 0 =
      leBytes 4 l.retired ++ leBytes 4 l.skipped ++ leBytes 2 l.refs ++ leBytes 6 0 := List.append_assoc ..
  rw [statusWrite, address, status]
  exact if_congr zero rfl rfl

theorem flagWrite_eq (l : Launch) : flagWrite l = if (l.raw.extractLsb' 656 8).toNat / 2 = 1 then
    [(l.raw.extractLsb' 512 64, leBytes 8 (l.raw.extractLsb' 576 64).toNat)] else [] := by
  have address : BitVec.ofNat 64 (recF l.raw 64 8) = l.raw.extractLsb' 512 64 := (BitVec.ofNat_toNat ..).trans (BitVec.setWidth_eq _)
  rw [flagWrite, address]
  rfl

section
variable {s : State} {id : Nat} {l : Launch}

theorem exec_launchCompletion_waits (found : findLaunch s id = some l)
    (h : l.started = false ∨ l.retired ≠ l.jobs ∨ ∃ o ∈ s.outs, messageOf id o = true) : exec (.launchCompletion id) s = .next s := by
  have waits : (!l.started || l.retired != l.jobs || s.outs.any (messageOf id)) = true := by
    simpa [or_assoc] using h
  show execLaunchCompletion id s = _
  simp only [execLaunchCompletion, found, waits, if_true]

/-- The status, the arrival and the flag, one after the other. -/
theorem exec_launchCompletion {u v w : State} (found : findLaunch s id = some l) (started : l.started = true)
    (all : l.retired = l.jobs) (answered : ∀ o ∈ s.outs, messageOf id o = false)
    (status : hubWrites s (hubParty l.asid (.launch id)) (statusWrite l) s = .ok u)
    (arrive : (l.csync = none ∧ v = u) ∨ ∃ b y, l.csync = some b ∧ barEvent u b (.arrive 1) = some y ∧ v = barPaid y b)
    (flag : hubWrites s (hubParty l.asid (.launch id)) (flagWrite l) v = .ok w) (source : ∀ n, l.source ≠ .graph n) :
    exec (.launchCompletion id) s = .next { w with
      launches := w.launches.filter (fun x => x.id != id), rbuf := w.rbuf.filter fun r => r.unit != Unit.launch id } := by
  have goes : (!l.started || l.retired != l.jobs || s.outs.any (messageOf id)) = false := by
    simpa [started, all] using answered
  have told (t : State) : tellSource t l.source = t := by
    cases h : l.source with
    | graph n => exact absurd h (source n)
    | _ => rfl
  show execLaunchCompletion id s = _
  rcases arrive with ⟨no, rfl⟩ | ⟨b, y, on, arrives, rfl⟩
  · simp only [execLaunchCompletion, found, goes, Bool.false_eq_true, if_false, status, no, flag, told]
    rfl
  · simp only [execLaunchCompletion, found, goes, Bool.false_eq_true, if_false, status, on, arrives, Option.map_some, flag, told]
    rfl

end

/-! ### The statement -/

theorem placed_whole {s : State} {l : Launch} {places : List Seat} {bars : List ((Nat × Nat) × BarId)} {data : List Byte}
    {queues : Vector LQueue 16} {barriers : List (BarId × Barrier)} {t u : State}
    (hu : u = placeFrom l s.nextJob bars data 0 places { takeReplies s (.launch l.id) with queues, barriers })
    (ht : t = updLaunch { u with nextJob := u.nextJob + l.jobs } l.id fun l => { l with placed := true }) :
    t.nextJob = s.nextJob + l.jobs ∧ t.launches = s.launches.map (fun x => if x.id = l.id then { x with placed := true } else x) ∧
    t.jobs = places.zipIdx.foldl (fun js p => insertJob
      (newJob l (s.nextJob + p.2) p.2 p.1 (jobLevelBars l bars p.2) (partnerId l s.nextJob p.2)) js) s.jobs ∧
    t.job = s.job ∧ t.hbm = s.hbm ∧ t.ddr = s.ddr ∧ t.host = s.host := by
  obtain ⟨_, _, _, _, frame⟩ :=
    placeFrom_frame l s.nextJob bars data 0 places { takeReplies s (.launch l.id) with queues, barriers }
  rw [ht, hu, frame]
  exact ⟨rfl, rfl, rfl, rfl, rfl, rfl, rfl⟩

theorem wakes_banks {s : State} {l : Launch} {places : List Seat} {inRegion : Nat × Nat → Prop}
    (hr : ∀ q, inRegion q ↔ ∃ r ∈ seatRegions l places, q.1 = r.1 ∧ q.2 ∈ regionBanks r.2.1 r.2.2) {t : State}
    (ht : t = wakeAll s (banksOf (seatRegions l places))) : t = { s with gated := t.gated, waking := t.waking } ∧
    (∀ q, q ∈ t.gated ↔ q ∈ s.gated ∧ ¬inRegion q) ∧
    ∀ w, w ∈ t.waking ↔ w ∈ s.waking ∨ ∃ q ∈ s.gated, inRegion q ∧ w = (q.1, q.2, s.clock + 2048) := by
  obtain ⟨frame, gated, waking⟩ := wakeAll_wakes s (banksOf (seatRegions l places))
  have inside (q : Nat × Nat) : inRegion q ↔ q ∈ banksOf (seatRegions l places) := (hr q).trans mem_banksOf.symm
  rw [ht]
  exact ⟨frame, fun q => (gated q).trans (by rw [inside]), fun w => (waking w).trans (by simp only [inside])⟩

theorem newJob_starts (l : Launch) (id k : Nat) (p : Seat) (bars : List (Nat × BarId)) (partner : Nat) (j : Job)
    (hj : j = newJob l id k p bars partner) :
    j.st = .placed ∧ j.pc = bits l.raw 0 64 + (bits l.raw 64 32).setWidth 64 ∧ j.x[(0 : Fin 32)] = 0 ∧
    (∀ i : Fin 4, j.x.toList[10 + i.val]? = some (l.raw.extractLsb' (1792 + 64 * i.val) 64)) ∧ j.x[(15 : Fin 32)] = l.addr ∧
    (levSel l.raw 0 = 2 → ∀ t, l.tiles[levelIndex l k 0]? = some t → j.x[(14 : Fin 32)] = t.arg) ∧
    (levSel l.raw 0 ≠ 2 → j.x[(14 : Fin 32)] = 0) ∧
    (∀ i : Fin 32, (i.val < 10 ∨ 15 < i.val) → j.x[i] = 0) ∧ j.flags = 0 ∧ j.fmask = 0 ∧ j.hnd = false ∧ j.tvec = 0 ∧ j.wait = .ready ∧
    (∀ e, (j.eng e).queue = [] ∧ (j.eng e).frames = [] ∧ ((j.eng e).stopped = true ↔ (j.eng e).pc = 0)) := by
  have other (i : Fin 32) (h : i.val < 10 ∨ 15 < i.val) : j.x[i] = 0 := by
    rw [hj, newJob_x, startX_get, if_neg (by omega), if_neg (by omega), if_neg (by omega)]
  have tile : j.x[(14 : Fin 32)] = ((if levSel l.raw 0 = 2 then l.tiles[levelIndex l k 0]? else none).map TileJob.arg).getD 0 := by
    rw [hj, newJob_x, startX_get]
    rfl
  refine ⟨hj ▸ rfl, hj ▸ newJob_pc, other 0 (.inl (by decide)), hj ▸ newJob_argument, ?record, fun tiled t at_k => ?arg, fun plain => ?none,
    other, hj ▸ rfl, hj ▸ rfl, hj ▸ rfl, hj ▸ rfl, hj ▸ rfl, fun e => ?stream⟩
  case record =>
    rw [hj, newJob_x, startX_get]
    rfl
  case arg =>
    rw [tile, if_pos tiled, at_k]
    rfl
  case none =>
    rw [tile, if_neg plain]
    rfl
  case stream =>
    subst hj
    cases e <;> exact ⟨rfl, rfl, beq_iff_eq⟩

theorem exec_jobStart {s : State} {l : Launch} {id : Nat} (found : findLaunch s id = some l) (placed : l.placed = true)
    (idle : l.started = false) : exec (.jobStart id) s = .next { s with
      job := if s.job.id ≠ 0 ∧ s.job.launch = id ∧ s.job.st = .placed then { s.job with st := .running } else s.job
      jobs := s.jobs.map fun j => if j.launch = id ∧ j.st = .placed then { j with st := .running } else j
      launches := s.launches.map fun x => if x.id = id then { x with started := true } else x } := by
  show execJobStart id s = _
  simp only [execJobStart, found, placed, idle, Bool.not_false, Bool.and_self, if_true, mapJobs, updLaunch, Bool.and_eq_true,
    decide_eq_true_eq, beq_iff_eq]
  by_cases none : s.job.id = 0
  · simp [none]
  · simp [none]

/-- Settles O36: a launch is placed whole or its banks are woken first, its jobs start together with their start values, and it completes with its
status, its arrival and its flag in that order. -/
theorem launchLife : Obligations.LaunchLife := by
  refine ⟨fun s l => ⟨?placed, ?wakes, newJob_starts l, fun id => exec_jobStart⟩,
    fun s u v w id l p st flag found hp hst hflag => ⟨?completes, ?waits⟩⟩
  case placed =>
    intro places bars data next free count seats groups own awake levels contents
    obtain ⟨queues, barriers, u, hu, ran⟩ := exec_launchPlace next free count seats groups own awake levels contents
    exact ⟨_, ran, placed_whole hu rfl⟩
  case wakes =>
    intro places inRegion next free count seats groups own inside asleep
    exact ⟨_, exec_launchPlace_wakes next free count seats groups own asleep, wakes_banks inside rfl⟩
  case waits => exact exec_launchCompletion_waits found
  case completes =>
    intro started all answered source status arrive written
    subst hp hst
    refine ⟨exec_launchCompletion found started all answered ?status arrive ?flag source, ?barrier⟩
    case status =>
      rw [statusWrite_eq]
      rcases status with ⟨none, rfl⟩ | ⟨some, free, ok⟩
      · rw [if_pos none]
        rfl
      · rw [if_neg some]
        exact hubWrites_one free ok
    case flag =>
      rw [flagWrite_eq]
      rcases written with ⟨none, rfl⟩ | ⟨some, free, ok⟩
      · rw [if_neg (mt hflag.2 none)]
        rfl
      · rw [if_pos (hflag.1 some)]
        exact hubWrites_one free ok
    case barrier =>
      intro b on takes _
      rcases arrive with ⟨no, -⟩ | ⟨c, y, on', arrives, rfl⟩
      · exact absurd (on.symm.trans no) (by simp)
      · obtain rfl : b = c := Option.some.inj (on.symm.trans on')
        exact paid_arrival takes arrives

end Sys2Proof.Machine
end

section
/-! SUPPORT. What the nodes of a command graph do, and how they complete (04_jobs.md R99 to R102; O37). -/

namespace Sys2Proof.Machine

/-! ### Fields of a node -/

theorem nodeF_word (n : BitVec 512) (k : Nat) : BitVec.ofNat 64 (nodeF n k 8) = n.extractLsb' (8 * k) 64 :=
  (BitVec.ofNat_toNat ..).trans (BitVec.setWidth_eq _)

/-- The two successors of a COND. -/
theorem nodeSucc_getD (n : BitVec 512) {i : Nat} (h : i < nodeF n 1 1) : (nodeSucc n).getD i 0 = nodeF n (4 + 2 * i) 2 := by
  simp [nodeSucc, h]

/-! ### A graph with a node changed -/

theorem modify_of_getElem? {α : Type} {l : List α} {i : Nat} {a : α} (f : α → α) (h : l[i]? = some a) : l.modify i f = l.set i (f a) := by
  obtain ⟨inside, -⟩ := List.getElem?_eq_some_iff.1 h
  refine List.ext_getElem? fun j => ?_
  rw [List.getElem?_modify, List.getElem?_set]
  by_cases same : i = j
  · subst same
    rw [h, if_pos rfl, if_pos inside]
    exact congrArg some (if_pos rfl)
  · simp [same]

theorem modify_const {α : Type} (l : List α) (i : Nat) (a : α) : (l.modify i fun _ => a) = l.set i a := by
  cases h : l[i]? with
  | some b => exact modify_of_getElem? _ h
  | none =>
    have beyond := List.getElem?_eq_none_iff.1 h
    rw [List.modify_eq_self beyond, List.set_eq_of_length_le beyond]

section
variable (x : Graph) (k : Nat) (n : GNode)

theorem upd_const : (x.upd k fun _ => n) = x.withNode k n := by
  rw [Graph.upd, modify_const]
  rfl

theorem setNode_eq (s : State) : setNode s x k n = putGraph s (x.withNode k n) := congrArg (putGraph s) (upd_const x k n)

theorem nodes_withNode_other {i : Nat} (h : i ≠ k) : (x.withNode k n).nodes[i]? = x.nodes[i]? :=
  List.getElem?_set_ne (Ne.symm h)

end

/-- The graph whose node k has completed and is its last one. -/
def Graph.ended (x : Graph) (k : Nat) (n : GNode) : Graph :=
  { x with last := k, nodes := x.nodes.set k { n with running := false, done := false } }

theorem Graph.ended_eq {x : Graph} {k : Nat} {n : GNode} (h : x.nodes[k]? = some n) :
    { x.upd k fun y => { y with running := false, done := false } with last := k } = x.ended k n := by
  rw [Graph.upd, modify_of_getElem? _ h]
  rfl

/-! ### Completion of a node -/

section
variable {s : State} {x : Graph} {k : Nat} {n : GNode} (hn : x.nodes[k]? = some n)
include hn

/-- Nothing runs beside the node that completes: the graph ends with status 1 (R102). -/
theorem finishNode_last (alone : ∀ i w, i ≠ k → x.nodes[i]? = some w → w.running = false) :
    finishNode s s x k [] = endGraph s s (x.ended k n) k 1 := by
  have none : (x.ended k n).nodes.any GNode.running = false := by
    rw [List.any_eq_false]
    intro w hw
    obtain ⟨i, hi⟩ := List.mem_iff_getElem?.1 hw
    rw [Graph.ended, List.getElem?_set] at hi
    split at hi
    · split at hi
      · obtain rfl := Option.some.inj hi
        exact Bool.false_ne_true
      · nomatch hi
    next other => exact Bool.eq_false_iff.1 (alone i w (Ne.symm other) hi)
  simp only [finishNode, Graph.ended_eq hn, List.foldl_nil, none, Bool.false_eq_true, if_false]

/-- A successor whose pending count is decremented, and which starts where the count reaches 0 (R100; log entry 44). -/
def GNode.decremented (s : State) (asid : BitVec 16) (m : GNode) : GNode :=
  if m.pending = 1 then startNode s asid { m with pending := 0 } else { m with pending := m.pending - 1 }

omit hn in
theorem decrement_eq {j : Nat} {m : GNode} (hm : x.nodes[j]? = some m) :
    decrement s x j = { x with nodes := x.nodes.set j (m.decremented s x.asid) } := by
  have one : (if m.pending = 0 then m else
      if m.pending - 1 = 0 then startNode s x.asid { m with pending := m.pending - 1 } else { m with pending := m.pending - 1 }) =
      m.decremented s x.asid := by
    rw [GNode.decremented]
    rcases Nat.lt_trichotomy m.pending 1 with none | one | more
    · obtain zero : m.pending = 0 := by omega
      rw [if_pos zero, if_neg (by omega)]
      cases m
      simp_all
    · rw [if_neg (by omega), if_pos (by omega), if_pos one, one]
    · rw [if_neg (by omega), if_neg (by omega), if_neg (by omega)]
  rw [decrement, Graph.upd, modify_of_getElem? _ hm]
  exact congrArg (fun m => { x with nodes := x.nodes.set j m }) one

/-- One successor is decremented while another node runs. -/
theorem finishNode_one {j : Nat} {m : GNode} (other : j ≠ k) (hm : x.nodes[j]? = some m)
    (busy : ∃ i w, i ≠ k ∧ i ≠ j ∧ x.nodes[i]? = some w ∧ w.running = true) :
    finishNode s s x k [j] = takeReplies (putGraph s { x.ended k n with
      nodes := (x.ended k n).nodes.set j (m.decremented s x.asid) }) (.node (nodeRef x k)) := by
  have at_j : (x.ended k n).nodes[j]? = some m := (List.getElem?_set_ne (Ne.symm other)).trans hm
  have runs : ((x.ended k n).nodes.set j (m.decremented s x.asid)).any GNode.running = true := by
    obtain ⟨i, w, ik, ij, at_i, run⟩ := busy
    refine List.any_eq_true.2 ⟨w, List.mem_iff_getElem?.2 ⟨i, ?_⟩, run⟩
    rw [List.getElem?_set_ne (Ne.symm ij)]
    exact (List.getElem?_set_ne (Ne.symm ik)).trans at_i
  simp only [finishNode, Graph.ended_eq hn, List.foldl_cons, List.foldl_nil, decrement_eq at_j]
  exact if_pos runs

end

/-! ### The end of a graph -/

section
variable {b t w : State} {x : Graph} {k st : Nat}

/-- The graph as it has ended with a status at node k. -/
def Graph.stopped (x : Graph) (k st : Nat) : Graph :=
  { x with running := false, result := st, last := k, nodes := x.nodes.map fun m => { m with running := false } }

theorem endGraph_of (written : (if x.status = 0 then Except.ok t
    else hubWrites b (hubParty x.asid (.node (nodeRef x k))) [(x.status, graphStatus (x.stopped k st))] t) = .ok w) :
    endGraph b t x k st = takeReplies (putGraph w (x.stopped k st)) (.node (nodeRef x k)) := by
  unfold endGraph
  dsimp only
  split
  next u h => nomatch h.symm.trans written
  next u h =>
    obtain rfl : u = w := Except.ok.inj (h.symm.trans written)
    rfl

theorem endGraph_silent (none : x.status = 0) : endGraph b t x k st = takeReplies (putGraph t (x.stopped k st)) (.node (nodeRef x k)) :=
  endGraph_of (if_pos none)

theorem endGraph_written (some : x.status ≠ 0) (free : hubWaiting t (hubParty x.asid (.node (nodeRef x k))) = false)
    (ok : writeBytes t (hubParty x.asid (.node (nodeRef x k))) (.va x.status)
      (leBytes 4 x.runs ++ leBytes 2 st ++ leBytes 2 k ++ leBytes 8 0) = .ok w) :
    endGraph b t x k st = takeReplies (putGraph w (x.stopped k st)) (.node (nodeRef x k)) :=
  endGraph_of ((if_neg some).trans (hubWrites_one free ok))

end

/-! ### COND -/

theorem condTest_sge (v c : Word) : condTest 3 v c = true ↔ c.toInt ≤ v.toInt := by simp [condTest, BitVec.slt_eq_decide]

theorem condTest_uge (k : Nat) (v c : Word) : condTest (k + 5) v c = true ↔ c.toNat ≤ v.toNat := by simp [condTest, BitVec.ult_eq_decide]

/-- Some other node from node t on runs. -/
theorem otherRuns_nodes (x : Graph) (t k : Nat) : ((List.range x.nodes.length).any fun i =>
    t ≤ i && i != k && (x.nodes[i]?.map GNode.running).getD false) = true ↔
    ∃ i w, t ≤ i ∧ i ≠ k ∧ x.nodes[i]? = some w ∧ w.running = true := by
  simp only [List.any_eq_true, List.mem_range, Bool.and_eq_true, decide_eq_true_eq, bne_iff_ne]
  constructor
  · rintro ⟨i, inside, ⟨from_t, other⟩, run⟩
    rw [List.getElem?_eq_getElem inside] at run
    exact ⟨i, _, from_t, other, List.getElem?_eq_getElem inside, run⟩
  · rintro ⟨i, w, from_t, other, at_i, run⟩
    obtain ⟨inside, -⟩ := List.getElem?_eq_some_iff.1 at_i
    exact ⟨i, inside, ⟨from_t, other⟩, by rw [at_i]; exact run⟩

/-- A COND whose test has been made, with whether another node from its successor on runs. -/
theorem takeBranch_eq (s : State) (x : Graph) (k t : Nat) {busy : Bool}
    (h : busy = true ↔ ∃ i w, t ≤ i ∧ i ≠ k ∧ x.nodes[i]? = some w ∧ w.running = true) : takeBranch s x k t =
    if k < t then finishNode s s x k [t]
    else if busy = true then s
    else if x.maxRun ≠ 0 ∧ x.maxRun < x.runs + 1 then endGraph s s x k 3
    else finishNode s s { x.rearmed t with runs := x.runs + 1 } k [t] := by
  have same := (h.trans (otherRuns_nodes x t k).symm)
  unfold takeBranch
  refine if_congr Iff.rfl rfl (if_congr same.symm rfl (if_congr ?_ rfl rfl))
  simp

/-! ### The kinds of nodes -/

section
variable {s : State} {asid : BitVec 16} {g k : Nat} {x : Graph} {n : GNode} (hx : graphOf s asid g = some x) (hn : x.nodes[k]? = some n)
  (on : x.running = true) (run : n.running = true)
include hx hn on run

theorem exec_graphNodeComplete (done : n.done = true) :
    exec (.graphNodeComplete asid g k) s = .next (finishNode s s x k (nodeSucc n.raw)) := by
  show execGraphNodeComplete asid g k s = _
  simp only [execGraphNodeComplete, hx, hn, on, run, done, Bool.and_self, if_true]

variable (more : n.done = false) (free : hubWaiting s (hubParty asid (.node (nodeRef x k))) = false)
include more free

/-- A node that runs, is not yet done and waits for nothing does its work. -/
theorem withNode_runs {kind : Nat} (hk : nodeKind n.raw = kind) (f : Graph → GNode → State) : withNode s asid g k kind f = .next (f x n) := by
  simp only [withNode, hx, hn, on, run, more, hk, free, Bool.not_false, Bool.and_self, decide_true, if_true]

theorem exec_graphNodeJobs (kind : nodeKind n.raw = 1) (start : n.mark = 0) {t : State}
    (entered : enqueueFor s asid (n.raw.extractLsb' 128 64) (nodeF n.raw 24 1) (.graph (nodeRef x k)) (.node (nodeRef x k)) = .done t) :
    exec (.graphNodeJobs asid g k) s = .next (putGraph t (x.withNode k { n with mark := 1 })) := by
  show execGraphNodeJobs asid g k s = _
  have address := nodeF_word n.raw 16
  rw [execGraphNodeJobs, withNode_runs hx hn on run more free kind]
  simp only [start, bne_self_eq_false, Bool.false_eq_true, if_false, address, entered, setNode_eq]

section
variable (kind : nodeKind n.raw = 2) (unbound : chanOf s (nodeF n.raw 24 2) (nodeF n.raw 26 1) = none)
include kind unbound

theorem exec_graphNodeCopy_joins (start : n.mark = 0) (whole : (n.raw.extractLsb' 128 64).toNat % 128 = 0) :
    exec (.graphNodeCopy asid g k) s = .next (putGraph
      (putChan s (graphChan (nodeF n.raw 24 2) (nodeF n.raw 26 1) (n.raw.extractLsb' 128 64) (nodeRef x k)))
      (x.withNode k { n with mark := 1 })) := by
  have low : (bits (n.raw.extractLsb' 128 64) 0 7 != 0) = false := by
    rw [bne_eq_false_iff_eq]
    simpa [bits, BitVec.toNat_eq] using whole
  have address := nodeF_word n.raw 16
  show execGraphNodeCopy asid g k s = _
  rw [execGraphNodeCopy, withNode_runs hx hn on run more free kind]
  simp only [start, if_true, address, low, unbound, Option.isSome_none, Bool.false_eq_true, if_false, setNode_eq]

theorem exec_graphNodeCopy_done (joined : n.mark = 1) :
    exec (.graphNodeCopy asid g k) s = .next (putGraph s (x.withNode k { n with done := true })) := by
  have some : n.mark ≠ 0 := by omega
  show execGraphNodeCopy asid g k s = _
  rw [execGraphNodeCopy, withNode_runs hx hn on run more free kind]
  simp only [if_neg some, unbound, setNode_eq]

end

section
variable (kind : nodeKind n.raw = 3)
include kind

theorem exec_graphNodeCond_tests (start : n.mark = 0) {d : List (Byte × Bool)}
    (read : readData s (hubParty asid (.node (nodeRef x k))) (.va (n.raw.extractLsb' 128 64)) 8 none = .ok d) {i : Nat}
    (hi : i = if condTest (nodeF n.raw 32 1) (BitVec.ofNat 64 (leNat (d.map Prod.fst))) (n.raw.extractLsb' 192 64) = true then 0 else 1) :
    exec (.graphNodeCond asid g k) s = .next (takeBranch
      (putGraph (takeReplies s (.node (nodeRef x k))) (x.withNode k { n with mark := i + 1 })) (x.withNode k { n with mark := i + 1 }) k
      ((nodeSucc n.raw).getD i 0)) := by
  have address := nodeF_word n.raw 16
  have value := nodeF_word n.raw 24
  show execGraphNodeCond asid g k s = _
  rw [execGraphNodeCond, withNode_runs hx hn on run more free kind]
  simp only [start, bne_self_eq_false, Bool.false_eq_true, if_false, address, value, read, upd_const, ofBytes]
  rw [← hi]
  rfl

theorem exec_graphNodeCond_tested {i : Nat} (tested : n.mark = i + 1) :
    exec (.graphNodeCond asid g k) s = .next (takeBranch s x k ((nodeSucc n.raw).getD i 0)) := by
  have some : (n.mark != 0) = true := bne_iff_ne.2 (by omega)
  have test : n.mark - 1 = i := by omega
  show execGraphNodeCond asid g k s = _
  rw [execGraphNodeCond, withNode_runs hx hn on run more free kind]
  simp only [some, if_true, test]

end

section
variable (kind : nodeKind n.raw = 4)
include kind

theorem exec_graphNodeHost_done (all : nodeF n.raw 32 4 ≤ n.mark) :
    exec (.graphNodeHost asid g k) s = .next (putGraph s (x.withNode k { n with done := true })) := by
  show execGraphNodeHost asid g k s = _
  rw [execGraphNodeHost, withNode_runs hx hn on run more free kind]
  simp only [if_pos all, setNode_eq]

theorem exec_graphNodeHost_copies (some : n.mark < nodeF n.raw 32 4) (first : (ringOf s (nodeF n.raw 16 1)).waiting = [])
    (room : (ringOf s (nodeF n.raw 16 1)).room = true) {d : List (Byte × Bool)}
    (read : readData s (hubParty asid (.node (nodeRef x k))) (.va (BitVec.ofNat 64 (nodeF n.raw 24 8 + 64 * n.mark))) 64 none = .ok d) :
    exec (.graphNodeHost asid g k) s = .next (putGraph
      (ringWrite (takeReplies s (.node (nodeRef x k))) (nodeF n.raw 16 1) (BitVec.ofNat 512 (leNat (d.map Prod.fst))))
      (x.withNode k { n with mark := n.mark + 1, done := decide (nodeF n.raw 32 4 ≤ n.mark + 1) })) := by
  show execGraphNodeHost asid g k s = _
  rw [execGraphNodeHost, withNode_runs hx hn on run more free kind]
  simp only [if_neg (Nat.not_le.2 some), first, room, List.isEmpty_nil, Bool.not_true, Bool.or_self, Bool.false_eq_true, if_false, read, setNode_eq]
  rfl

end

section
variable (kind : nodeKind n.raw = 5) {c : Context} (hc : contextOf s asid = some c)
include kind hc

theorem exec_graphNodeWait_bar {b : BarId} {p : Bool} (wait : nodeWait c n.raw = some (.bar b p)) : exec (.graphNodeWait asid g k) s =
    .next (if (barOf s b).start.phase = p then s else putGraph s (x.withNode k { n with done := true })) := by
  show execGraphNodeWait asid g k s = _
  rw [execGraphNodeWait, withNode_runs hx hn on run more free kind]
  simp only [hc, Option.bind_some, wait, Barrier.began_eq_start, setNode_eq]
  by_cases same : (barOf s b).start.phase = p
  · simp [same]
  · simp [same]

theorem exec_graphNodeWait_tub {t : TubId} (wait : nodeWait c n.raw = some (.tub t)) : exec (.graphNodeWait asid g k) s =
    .next (if (tubOf s t).fired ≤ n.mark then s else putGraph s (x.withNode k { n with done := true })) := by
  show execGraphNodeWait asid g k s = _
  rw [execGraphNodeWait, withNode_runs hx hn on run more free kind]
  simp only [hc, Option.bind_some, wait, setNode_eq, decide_eq_true_eq]
  by_cases fired : (tubOf s t).fired ≤ n.mark
  · rw [if_pos fired, if_neg (Nat.not_lt.2 fired)]
  · rw [if_neg fired, if_pos (Nat.lt_of_not_le fired)]

omit hx hn on run more free in
theorem startNode_tub {t : TubId} (wait : nodeWait c n.raw = some (.tub t)) : (startNode s asid n).mark = (tubOf s t).fired := by
  simp only [startNode, hc, Option.bind_some, kind, if_true, wait]

end

theorem exec_graphNodeEnd (kind : nodeKind n.raw = 6) {t : State}
    (ok : writeBytes s (hubParty asid (.node (nodeRef x k))) (.va (n.raw.extractLsb' 128 64)) (toBytes (n.raw.extractLsb' 192 64)) = .ok t) :
    exec (.graphNodeEnd asid g k) s = .next (endGraph s t x k 0) := by
  have address := nodeF_word n.raw 16
  have flag : toBytes (n.raw.extractLsb' 192 64) = leBytes 8 (nodeF n.raw 24 8) := rfl
  rw [flag] at ok
  show execGraphNodeEnd asid g k s = _
  rw [execGraphNodeEnd, withNode_runs hx hn on run more free kind]
  simp only [address, ok]

end

/-! ### The statement -/

/-- The branch that a COND takes, from the mark that its test leaves. -/
theorem branch_of {n : BitVec 512} {m t : Nat} (two : 2 ≤ nodeF n 1 1) (h : (m = 1 ∧ t = nodeF n 4 2) ∨ (m = 2 ∧ t = nodeF n 6 2)) :
    ∃ i, m = i + 1 ∧ (nodeSucc n).getD i 0 = t := by
  rcases h with ⟨rfl, rfl⟩ | ⟨rfl, rfl⟩
  · exact ⟨0, rfl, nodeSucc_getD n (by omega)⟩
  · exact ⟨1, rfl, nodeSucc_getD n (by omega)⟩

/-- Another node keeps on running while one is marked. -/
theorem busy_withNode {x : Graph} {k t : Nat} (n : GNode) :
    (∃ i w, t ≤ i ∧ i ≠ k ∧ (x.withNode k n).nodes[i]? = some w ∧ w.running = true) ↔
    ∃ i w, t ≤ i ∧ i ≠ k ∧ x.nodes[i]? = some w ∧ w.running = true := by
  refine exists_congr fun i => exists_congr fun w => and_congr_right fun _ => and_congr_right fun other => ?_
  rw [nodes_withNode_other x k n other]

/-- Settles O37: each kind of node by its own event; a node that completes decrements its successors, and may end the graph. -/
theorem graphNodes_hold : Obligations.GraphNodes := by
  intro s asid g k x n r hx hn on run hr free
  subst hr
  refine ⟨exec_graphNodeComplete hx hn on run, fun more => ⟨exec_graphNodeJobs hx hn on run more free, fun kind unbound => ?copy,
    fun kind start d v c read hv hc holds judges => ?tests, fun kind t busy hbusy taken two => ?tested, fun kind => ?host,
    fun kind c b p hc => exec_graphNodeWait_bar hx hn on run more free kind hc, fun kind c t hc wait => ?wait,
    fun kind t => exec_graphNodeEnd hx hn on run more free kind, fun kind none t ok => ?silent⟩,
    fun b t v st hv ready w hw => ?ends, finishNode_last hn, fun m j m' other hm hm' busy => ?decrements⟩
  case copy =>
    exact ⟨exec_graphNodeCopy_joins hx hn on run more free kind unbound, exec_graphNodeCopy_done hx hn on run more free kind unbound⟩
  case host =>
    exact ⟨exec_graphNodeHost_done hx hn on run more free kind, fun some first room d =>
      exec_graphNodeHost_copies hx hn on run more free kind some first room⟩
  case wait => exact ⟨startNode_tub kind hc wait, exec_graphNodeWait_tub hx hn on run more free kind hc wait⟩
  case silent => exact (exec_graphNodeEnd hx hn on run more free kind ok).trans (congrArg _ (endGraph_silent none))
  case tests =>
    intro m t y u busy hbusy yes no two hy hu
    subst hv hc hy hu
    have judged : holds ↔ condTest (nodeF n.raw 32 1) (BitVec.ofNat 64 (leNat (d.map Prod.fst))) (n.raw.extractLsb' 192 64) = true := by
      refine judges.trans ?_
      match nodeF n.raw 32 1 with
      | 0 => exact beq_iff_eq.symm
      | 1 => exact bne_iff_ne.symm
      | 2 => exact BitVec.slt_iff_toInt_lt.symm
      | 3 => exact (condTest_sge ..).symm
      | 4 => exact BitVec.ult_iff_toNat_lt.symm
      | _ + 5 => exact (condTest_uge ..).symm
    obtain ⟨i, hi, mark, succ⟩ : ∃ i, (i = if condTest (nodeF n.raw 32 1) (BitVec.ofNat 64 (leNat (d.map Prod.fst)))
        (n.raw.extractLsb' 192 64) = true then 0 else 1) ∧ m = i + 1 ∧ (nodeSucc n.raw).getD i 0 = t := by
      by_cases h : holds
      · obtain ⟨mark, target⟩ := yes h
        exact ⟨0, (if_pos (judged.1 h)).symm, mark, (nodeSucc_getD n.raw (by omega)).trans target.symm⟩
      · obtain ⟨mark, target⟩ := no h
        exact ⟨1, (if_neg (mt judged.2 h)).symm, mark, (nodeSucc_getD n.raw (by omega)).trans target.symm⟩
    rw [exec_graphNodeCond_tests hx hn on run more free kind start read hi, succ, ← mark,
      takeBranch_eq _ _ k t (hbusy.trans (busy_withNode _).symm)]
    rfl
  case tested =>
    obtain ⟨i, mark, succ⟩ := branch_of two taken
    rw [exec_graphNodeCond_tested hx hn on run more free kind mark, succ, takeBranch_eq s x k t hbusy]
  case ends =>
    by_cases none : x.status = 0
    · rw [hv, if_pos none] at hw
      obtain rfl := Option.some.inj hw
      exact endGraph_silent none
    · rw [hv, if_neg none] at hw
      split at hw
      next u ok =>
        obtain rfl := Option.some.inj hw
        exact endGraph_written none (ready.resolve_left none) ok
      next => nomatch hw
  case decrements =>
    exact ⟨_, finishNode_one hn other hm busy, by rw [hm']; rfl⟩

end Sys2Proof.Machine
end

section
/-! SUPPORT. A scatterAdd whose element lies across two lines (16_fabric.md R349, 06_registers.md R158; O38). -/

namespace Sys2Proof.Machine

/-- A scatterAdd of device 1 on the four bytes from 62 on: two of line 0, and two of line 1. -/
def splitSum : Request :=
  { op := .scatterAdd .fp32 .fp32 .rne false 0x3F800000, cls := 0, poison := .trap, ddr := false, detoured := false, src := 1, tgt := 0, seq := 0
    ackb := 0, asid := 0, party := 0, pa := 62, size := 4, epoch := 0 }

/-- A peer table entry that grants every device every access to the first 128 bytes of the HBM. -/
def openEntry : BitVec 256 := 0x1F00 ||| (128 <<< 128)

/-- The device with that entry and with line 1 of its HBM poisoned. -/
def splitBox : State := { State.reset with peers := [(0, openEntry)], hbmPoison := [(1, 1)] }

/-! The request is new, an entry admits it, nothing holds it, and its bytes lie inside the tier: it acts. -/

theorem splitSum_fresh : freshRequest splitBox splitSum := by
  refine ⟨rfl, fun d hd => ?_, ?_, ?_⟩
  · exact absurd hd (List.not_mem_nil)
  · decide +kernel
  · decide +kernel

theorem splitSum_admitted : admitted splitBox splitSum = true := by decide +kernel

theorem splitSum_free : ¬((splitSum.op ≠ .load ∧ ∃ w ∈ splitBox.works, w.moves splitSum = true) ∨
    guarded splitBox (sender splitBox splitSum) (Request.span splitSum) = true ∨
    ∃ h ∈ splitBox.heldReqs, h.src = splitSum.src ∧ h.party = splitSum.party ∧ h.cls = splitSum.cls) := by
  have works : splitBox.works = [] := rfl
  have held : splitBox.heldReqs = [] := rfl
  have unguarded : guarded splitBox (sender splitBox splitSum) (Request.span splitSum) = false := by decide +kernel
  simp [works, held, unguarded]

theorem splitSum_inside : splitSum.pa + splitSum.size ≤ tierBytes splitBox splitSum.ddr := by decide +kernel

/-- The line of its first byte is sound, the line of its last byte is not. -/
theorem splitSum_lines : lineBad splitBox .hbm splitSum.pa = false ∧ lineBad splitBox .hbm (splitSum.pa + 3) = true := by decide +kernel

/-- The model looks at both lines, and answers with status 2, as it does under TRAP. -/
theorem splitSum_status : (remote splitSum splitBox).sentResp.map (fun r => r.status) = [2] := by decide +kernel

/-- Refutes O38: its clause on scatterAdd looks at the line of the first byte alone. An element that lies across two lines, of which the second one
is poisoned, is answered under TRAP with status 2, where the clause asks for status 0 and the sum. -/
theorem not_remoteRequests : ¬ Obligations.RemoteRequests := by
  intro h
  obtain ⟨requests, -⟩ := h
  obtain ⟨-, -, acts, -⟩ := requests (.remoteReduce splitSum) splitBox splitSum .hbm _ rfl rfl (fun _ _ _ _ _ _ _ => nofun) (fun _ _ => nofun)
    Iff.rfl
  obtain ⟨-, -, -, -, -, sums⟩ := acts splitSum_fresh splitSum_admitted splitSum_free splitSum_inside
  obtain ⟨t, ran, -, answered⟩ := sums .fp32 .fp32 .rne false 0x3F800000 _ _ rfl splitSum_lines.1 rfl
  obtain rfl : remote splitSum splitBox = t := Host.Outcome.next.inj ran
  have status := splitSum_status
  rw [answered] at status
  exact absurd status (by decide)

end Sys2Proof.Machine
end

section
/-! SUPPORT. The ALU group of the control core (05_control_core.md R106, R112): each function of the model is the one that the statement names. -/

namespace Sys2Proof.Machine

variable (a b : Word)

theorem extractLsb'_six_toNat : (b.extractLsb' 0 6).toNat = b.toNat % 64 := by
  rw [BitVec.extractLsb'_toNat, Nat.shiftRight_zero]

/-! ### Products -/

theorem mul_eq_ofInt : a * b = BitVec.ofInt 64 (a.toInt * b.toInt) := by
  rw [BitVec.ofInt_mul, BitVec.ofInt_toInt, BitVec.ofInt_toInt]

theorem ofInt_div_pow (x : Int) : BitVec.ofInt 64 (x / 2 ^ 64) = (BitVec.ofInt 128 x).extractLsb' 64 64 := by
  apply BitVec.eq_of_toNat_eq
  simp only [BitVec.extractLsb'_toNat, BitVec.toNat_ofInt, Nat.shiftRight_eq_div_pow]
  omega

theorem mulHigh_eq : mulHigh a b = (a.signExtend 128 * b.signExtend 128).extractLsb' 64 64 := by
  have product : a.signExtend 128 * b.signExtend 128 = BitVec.ofInt 128 (a.toInt * b.toInt) := (BitVec.ofInt_mul ..).symm
  rw [mulHigh, ofInt_div_pow, product]

theorem mulHighU_eq : mulHighU a b = (a.setWidth 128 * b.setWidth 128).extractLsb' 64 64 := by
  have product : a.toNat * b.toNat < 2 ^ 128 := Nat.mul_lt_mul'' (c := 2 ^ 64) (d := 2 ^ 64) a.isLt b.isLt
  apply BitVec.eq_of_toNat_eq
  simp only [mulHighU, BitVec.toNat_ofNat, BitVec.extractLsb'_toNat, BitVec.toNat_mul, BitVec.toNat_setWidth, Nat.shiftRight_eq_div_pow]
  rw [Nat.mod_eq_of_lt (a := a.toNat) (by omega), Nat.mod_eq_of_lt (a := b.toNat) (by omega), Nat.mod_eq_of_lt product]

/-! ### Quotients and remainders -/

theorem divU_eq : divU a b = if b = 0 then 0xFFFFFFFFFFFFFFFF else BitVec.ofNat 64 (a.toNat / b.toNat) := by
  unfold divU
  split
  · rfl
  · exact BitVec.eq_of_toNat_eq (by simp [Nat.mod_eq_of_lt (Nat.lt_of_le_of_lt (Nat.div_le_self ..) a.isLt)])

theorem remU_eq : remU a b = if b = 0 then a else BitVec.ofNat 64 (a.toNat % b.toNat) := by
  unfold remU
  split
  · rfl
  · exact BitVec.eq_of_toNat_eq (by simp [Nat.mod_eq_of_lt (Nat.lt_of_le_of_lt (Nat.mod_le ..) a.isLt)])

variable {a b} in
/-- The one quotient that overflows: the most negative word over -1. -/
theorem tdiv_overflow (ha : a.toInt = -2 ^ 63) (hb : b.toInt = -1) : BitVec.ofInt 64 (a.toInt.tdiv b.toInt) = a ∧
    a.toInt - b.toInt * a.toInt.tdiv b.toInt = 0 := by
  have least : a = 0x8000000000000000 := BitVec.eq_of_toInt_eq (by rw [ha]; rfl)
  rw [ha, hb, least]
  decide

theorem divS_eq : divS a b = if b = 0 then 0xFFFFFFFFFFFFFFFF
    else if a.toInt = -2 ^ 63 ∧ b.toInt = -1 then a else BitVec.ofInt 64 (a.toInt.tdiv b.toInt) := by
  unfold divS
  split
  · rfl
  split
  next h => exact (tdiv_overflow h.1 h.2).1
  · rfl

theorem remS_eq : remS a b = if b = 0 then a
    else if a.toInt = -2 ^ 63 ∧ b.toInt = -1 then 0 else BitVec.ofInt 64 (a.toInt - b.toInt * a.toInt.tdiv b.toInt) := by
  unfold remS
  split
  · rfl
  split
  next h => rw [(tdiv_overflow h.1 h.2).2]; rfl
  · rfl

/-! ### Shifts -/

theorem shl_eq : shl a b = a <<< b.extractLsb' 0 6 := by
  rw [shl, BitVec.shiftLeft_eq', extractLsb'_six_toNat]

theorem shr_eq : shr a b = a >>> b.extractLsb' 0 6 := by
  rw [shr, BitVec.ushiftRight_eq', extractLsb'_six_toNat]

theorem sra_eq : sra a b = BitVec.ofInt 64 (a.toInt / 2 ^ (b.extractLsb' 0 6).toNat) := by
  rw [sra, extractLsb'_six_toNat, ← BitVec.ofInt_toInt (x := a.sshiftRight _), BitVec.toInt_sshiftRight, Int.shiftRight_eq_div_pow]
  rfl

/-! ### Extremes and comparisons -/

theorem slt_iff : a.slt b = true ↔ a.toInt < b.toInt := BitVec.slt_iff_toInt_lt

theorem minS_eq : minS a b = if a.toInt ≤ b.toInt then a else b := by
  simp only [minS, BitVec.slt_iff_toInt_lt]
  split <;> split
  · rfl
  · omega
  · exact BitVec.eq_of_toInt_eq (by omega)
  · rfl

theorem maxS_eq : maxS a b = if a.toInt ≤ b.toInt then b else a := by
  simp only [maxS, BitVec.slt_iff_toInt_lt]
  split <;> split
  · rfl
  · omega
  · exact BitVec.eq_of_toInt_eq (by omega)
  · rfl

theorem minU_eq : minU a b = if a.toNat ≤ b.toNat then a else b := by
  simp only [minU, BitVec.lt_def]
  split <;> split
  · rfl
  · omega
  · exact BitVec.eq_of_toNat_eq (by omega)
  · rfl

theorem maxU_eq : maxU a b = if a.toNat ≤ b.toNat then b else a := by
  simp only [maxU, BitVec.lt_def]
  split <;> split
  · rfl
  · omega
  · exact BitVec.eq_of_toNat_eq (by omega)
  · rfl

theorem setLt_eq : setLt a b = if a.toInt < b.toInt then 1 else 0 := by simp only [setLt, BitVec.slt_iff_toInt_lt]

theorem setLtU_eq : setLtU a b = if a.toNat < b.toNat then 1 else 0 := by simp only [setLtU, BitVec.lt_def]

/-! ### Counts -/

theorem leadingZeros_eq : leadingZeros a = a.clz := by
  unfold leadingZeros
  split
  next h => exact ((BitVec.clz_eq_iff_eq_zero).2 h).symm
  next h =>
    have low := BitVec.two_pow_sub_clz_le_toNat_of_ne_zero (by omega) h
    have high := BitVec.toNat_lt_two_pow_sub_clz (x := a)
    have small := BitVec.lt_def.1 (BitVec.clz_lt_iff_ne_zero.2 h)
    change _ < 64 at small
    have top : a.toNat.log2 = 64 - 1 - a.clz.toNat := (Nat.log2_eq_iff fun zero => h (BitVec.eq_of_toNat_eq zero)).2
      ⟨low, by rwa [show 64 - 1 - a.clz.toNat + 1 = 64 - a.clz.toNat by omega]⟩
    apply BitVec.eq_of_toNat_eq
    rw [top, BitVec.toNat_ofNat]
    omega

theorem oneBits_eq : oneBits a = a.cpop := by
  have count (n : Nat) : (List.range n).countP (fun k => a.getLsbD k) = a.cpopNatRec n 0 := by
    induction n with
    | zero => rfl
    | succ n ih =>
      rw [List.range_succ, List.countP_append, ih, BitVec.cpopNatRec_succ, BitVec.cpopNatRec_eq (0 + _), Nat.zero_add]
      cases h : a.getLsbD n <;> simp [h]
  exact congrArg _ (count 64)

/-! ### The statement -/

theorem next_retireX {s : State} {d : Reg} {v w : Word} (h : v = w) : (.next (retireX s d v) : Result) = .next (wroteX s d w) := by
  rw [h, retireX_eq_wroteX]

theorem alu_eq {f : Word → Word → Word} {d i j : Reg} {s : State} {v : Word} (h : f (getX s i) (getX s j) = v) :
    alu f d i j s = .next (wroteX s d v) :=
  next_retireX h

theorem getX_wroteX (s : State) (d r : Reg) (v : Word) :
    getX (wroteX s d v) r = if r = 0 then 0 else if r = d then v else getX s r := by
  rw [← retireX_eq_wroteX, retireX, getX_advance, getX_setX]

/-- Settles O1: each function of the group by its lemma, and the registers by what a read returns after a write. -/
theorem aluWritesResult : Obligations.AluWritesResult := by
  refine ⟨?arithmetic, ?others, fun s d r v => ⟨rfl, getX_wroteX s d r v⟩⟩
  case arithmetic =>
    rintro s d i j a b rfl rfl
    exact ⟨alu_eq rfl, alu_eq rfl, alu_eq (mul_eq_ofInt ..), alu_eq (mulHigh_eq ..), alu_eq (mulHighU_eq ..), alu_eq (divS_eq ..),
      alu_eq (divU_eq ..), alu_eq (remS_eq ..), alu_eq (remU_eq ..)⟩
  case others =>
    rintro s d i j a b rfl rfl
    exact ⟨alu_eq rfl, alu_eq rfl, alu_eq rfl, alu_eq (shl_eq ..), alu_eq (shr_eq ..), alu_eq (sra_eq ..), alu_eq (minS_eq ..),
      alu_eq (maxS_eq ..), alu_eq (minU_eq ..), alu_eq (maxU_eq ..), alu_eq (setLt_eq ..), alu_eq (setLtU_eq ..),
      next_retireX (leadingZeros_eq _), next_retireX (oneBits_eq _), next_retireX rfl⟩

end Sys2Proof.Machine
end

section
/-! SUPPORT. The immediate forms, LIH and LSH (05_control_core.md R113, R114), and branches and jumps (R115, R116). -/

namespace Sys2Proof.Machine

/-! ### Immediate forms -/

theorem shiftAmount (n : Fin 64) : (BitVec.ofNat 64 n.val).toNat % 64 = n.val := by
  rw [BitVec.toNat_ofNat]
  omega

theorem sx_shiftLeft_twelve (u : BitVec 20) : sx u <<< 12 = BitVec.ofInt 64 (u.toInt * 4096) := by
  rw [BitVec.ofInt_mul, BitVec.shiftLeft_eq_mul_twoPow]
  rfl

/-- LSH: the low 44 bits of x[d] move up by 20, and the immediate comes in below them. -/
theorem shiftLeft_twenty_or (x : Word) (u : BitVec 20) : x <<< 20 ||| u.setWidth 64 = x.extractLsb' 0 44 ++ u := by
  apply BitVec.eq_of_getLsbD_eq
  intro k hk
  simp only [BitVec.getLsbD_or, BitVec.getLsbD_shiftLeft, BitVec.getLsbD_setWidth, BitVec.getLsbD_append, BitVec.getLsbD_extractLsb']
  by_cases low : k < 20
  · simp [low, hk]
  · have : k - 20 < 44 := by omega
    simp [low, hk, this, BitVec.getLsbD_of_ge u k (by omega)]

/-- A shift word, with the nine bits that must be zero by themselves. -/
theorem encCI_shift (m : BitVec 7) (d a : BitVec 5) (n : BitVec 6) : m ++ d ++ a ++ 0#9 ++ n = encCI m d a (0#9 ++ n) := by
  apply BitVec.eq_of_toNat_eq
  simp only [encCI, toNat_append_add]
  ring

/-- A word that does not decode within its major is illegal. -/
theorem decodeControl_refused {v : Nat} {m : BitVec 7} {w : Word32} (major : bits w 25 7 = m) (assigned : majorAssigned v m = true)
    (refused : decodeMajor m w = none) : decodeControl v w = .illegalInstr false w := by
  simp only [decodeControl, major, assigned, if_true, refused]

/-- A shift word of which a bit above the amount is set is illegal. -/
theorem decodeControl_shift_illegal {w : Word32} (major : w.extractLsb' 25 7 = 0x06 ∨ w.extractLsb' 25 7 = 0x07 ∨ w.extractLsb' 25 7 = 0x08)
    (extra : w.extractLsb' 6 9 ≠ 0) : decodeControl 3 w = .illegalInstr false w := by
  have given_none (i : Instr) : given (isZero w 6 9) i = none := if_neg (by simpa [isZero, bits] using extra)
  obtain h | h | h := major <;> exact decodeControl_refused h rfl (given_none _)

/-- Settles O2. -/
theorem aluImmediate : Obligations.AluImmediate := by
  rintro s d a i n u _ rfl
  refine ⟨next_retireX rfl, next_retireX rfl, next_retireX rfl, next_retireX rfl, next_retireX ?slti, next_retireX ?shli, next_retireX ?shri,
    next_retireX ?srai, next_retireX (sx_shiftLeft_twelve u), next_retireX (shiftLeft_twenty_or ..), ?_⟩
  case slti => rw [setLt_eq, sx, BitVec.toInt_signExtend_of_le (by decide)]
  case shli => rw [shl, shiftAmount]
  case shri => rw [shr, shiftAmount]
  case srai => rw [sra, shiftAmount]
  exact ⟨decodeControl_encode rfl rfl, decodeControl_encode rfl rfl, decodeControl_encode rfl rfl, decodeControl_encode rfl rfl,
    decodeControl_encode rfl (by rw [encCI_shift]; rfl), decodeControl_encode rfl (by rw [encCI_shift]; rfl),
    decodeControl_encode rfl (by rw [encCI_shift]; rfl), decodeControl_encode rfl rfl, decodeControl_encode rfl rfl,
    decodeControl_encode rfl rfl, fun w major extra => decodeControl_shift_illegal major extra⟩

/-! ### Branches and jumps -/

/-- A branch goes to one of its two addresses. -/
theorem branch_eq {c : Word → Word → Bool} {a b : Reg} {o : BitVec 15} {s : State} {p : Prop} [Decidable p]
    (h : c (getX s a) (getX s b) = true ↔ p) :
    branch c a b o s = .next (wentTo s (if p then s.job.pc + 4 * o.signExtend 64 else s.job.pc + 4)) := by
  unfold branch
  by_cases hp : p
  · rw [if_pos (h.2 hp), if_pos hp]
    rfl
  · rw [if_neg (mt h.1 hp), if_neg hp]
    rfl

theorem branch_unless {c : Word → Word → Bool} {a b : Reg} {o : BitVec 15} {s : State} {p : Prop} [Decidable p]
    (h : c (getX s a) (getX s b) = true ↔ ¬p) :
    branch c a b o s = .next (wentTo s (if p then s.job.pc + 4 else s.job.pc + 4 * o.signExtend 64)) := by
  rw [branch_eq h, ite_not]

theorem setPc_setX (s : State) (d : Reg) (v a : Word) : setPc (setX s d v) a = wentTo (wroteX s d v) a := by
  unfold setX wroteX
  split <;> rfl

section
variable {s : State} {d a : Reg} {o : BitVec 15}

theorem low_bits_zero_iff (x : Word) : bits x 0 2 = 0 ↔ x.toNat % 4 = 0 := by
  rw [BitVec.toNat_eq, bits, BitVec.extractLsb'_toNat]
  rfl

theorem exec_jalr_aligned (h : (getX s a + o.signExtend 64).toNat % 4 = 0) :
    exec (.jalr d a o) s = .next (wentTo (wroteX s d (s.job.pc + 4)) (getX s a + o.signExtend 64)) := by
  have aligned : (bits (getX s a + o.signExtend 64) 0 2 != 0) = false := by rw [bne_eq_false_iff_eq, low_bits_zero_iff, h]
  rw [← setPc_setX]
  exact if_neg (Bool.not_eq_true _ ▸ aligned)

theorem exec_jalr_misaligned (h : (getX s a + o.signExtend 64).toNat % 4 ≠ 0) :
    exec (.jalr d a o) s = .next (raise s .misaligned (getX s a + o.signExtend 64)) := by
  refine if_pos (bne_iff_ne.2 (mt (low_bits_zero_iff _).1 h))

end

/-- Settles O3. -/
theorem branchesAndJumps : Obligations.BranchesAndJumps := by
  rintro s d a b o u _ _ _ _ rfl rfl rfl rfl
  have unsigned (x y : Word) : decide (x < y) = true ↔ x.toNat < y.toNat := decide_eq_true_iff
  have not_unsigned (x y : Word) : (!decide (x < y)) = true ↔ ¬x.toNat < y.toNat := by rw [Bool.not_eq_true', ← unsigned, Bool.not_eq_true]
  have not_signed (x y : Word) : (!x.slt y) = true ↔ ¬x.toInt < y.toInt := by
    rw [Bool.not_eq_true', ← BitVec.slt_iff_toInt_lt, Bool.not_eq_true]
  exact ⟨branch_eq beq_iff_eq, branch_unless bne_iff_ne, branch_eq BitVec.slt_iff_toInt_lt,
    branch_unless (c := fun x y => !x.slt y) (not_signed ..),
    branch_eq (c := fun x y => decide (x < y)) (unsigned ..), branch_unless (c := fun x y => !decide (x < y)) (not_unsigned ..),
    congrArg _ (setPc_setX ..), exec_jalr_aligned, exec_jalr_misaligned,
    decodeControl_encode rfl rfl, decodeControl_encode rfl rfl, decodeControl_encode rfl rfl, decodeControl_encode rfl rfl,
    decodeControl_encode rfl rfl, decodeControl_encode rfl rfl⟩

end Sys2Proof.Machine
end

section
/-! SUPPORT. NOP and the other words of its major (05_control_core.md R132). -/

namespace Sys2Proof.Machine

/-! ### NOP -/

/-- The one word of major 0x70 whose other fields are zero. -/
theorem nop_word_iff {w : Word32} (major : w.extractLsb' 25 7 = 0x70) : w = 0xE0000000 ↔ isZero w 0 25 = true := by
  have joined : w = w.extractLsb' 25 7 ++ w.extractLsb' 0 25 := by
    apply BitVec.eq_of_getLsbD_eq
    intro k hk
    simp only [BitVec.getLsbD_append, BitVec.getLsbD_extractLsb']
    split
    next low => simp [low]
    next high => simp only [show k - 25 < 7 by omega, show 25 + (k - 25) = k by omega, decide_true, Bool.true_and]
  rw [isZero, beq_iff_eq]
  constructor
  · rintro rfl
    rfl
  · intro zero
    rw [joined, major, show w.extractLsb' 0 25 = 0 from zero]
    rfl

/-- Settles O4. -/
theorem nopOnlyAdvances : Obligations.NopOnlyAdvances := by
  intro s v w major
  simp only [nop_word_iff major]
  cases zero : isZero w 0 25 with
  | true =>
    have word : decodeControl v w = .nop := decodeControl_eq major rfl rfl (if_pos zero)
    rw [word]
    rfl
  | false =>
    have word : decodeControl v w = .illegalInstr false w := decodeControl_refused major rfl (if_neg (by simp [zero]))
    rw [word]
    rfl

end Sys2Proof.Machine
end

section
/-! SUPPORT. What a store that performs leaves of every job (14_ordering.md R305 to R308): all but its basting pairs, its tubs and its basket, so
that the stores that are still pending, the queues and the mailboxes stay. -/

namespace Sys2Proof.Machine

/-- A job without what a store that performs may change of it. -/
def Job.unstored (j : Job) : Job := { j with pairs := Job.blank.pairs, tubs := [], basket := none }

/-- From s to t the focused job, and the job of every id, stay but for what a store that performs may change. -/
def SameJobs (s t : State) : Prop :=
  t.job.unstored = s.job.unstored ∧ ∀ i, (findJob t i).map Job.unstored = (findJob s i).map Job.unstored

theorem SameJobs.refl (s : State) : SameJobs s s := ⟨rfl, fun _ => rfl⟩

theorem SameJobs.trans {s t u : State} (h : SameJobs s t) (g : SameJobs t u) : SameJobs s u :=
  ⟨g.1.trans h.1, fun i => (g.2 i).trans (h.2 i)⟩

theorem SameJobs.of_eq {s t : State} (job : t.job = s.job) (jobs : t.jobs = s.jobs) : SameJobs s t :=
  ⟨congrArg _ job, fun i => congrArg _ (findJob_jobs job jobs i)⟩

/-! ### The operations of a store -/

theorem SameJobs.updJob (s : State) (i : Nat) {f : Job → Job} (h : ∀ j, (f j).unstored = j.unstored) : SameJobs s (updJob s i f) := by
  have id (j : Job) : (f j).id = j.id := (congrArg Job.id (h j) :)
  constructor
  · obtain same | changed := updJob_focused s i f id
    · rw [same]
    · rw [changed, h]
  · intro k
    rw [findJob_updJob s i k f id]
    split
    · rw [Option.map_map]
      exact congrArg (Option.map · _) (funext h)
    · rfl

theorem SameJobs.putBytes (s : State) (sp : Space) (a : Nat) (d : List Byte) : SameJobs s (putBytes s sp a d) :=
  .of_eq (putBytes_jobs ..).1 (putBytes_jobs ..).2

theorem SameJobs.setBad (s : State) (sp : Space) (a : Nat) (p : Bool) : SameJobs s (setBad s sp a p) :=
  .of_eq (setBad_jobs ..).1 (setBad_jobs ..).2

theorem SameJobs.clearZero (s : State) (sp : Space) (a n : Nat) : SameJobs s (clearZero s sp a n) :=
  .of_eq (clearZero_jobs ..).1 (clearZero_jobs ..).2

theorem SameJobs.updBasket (s : State) (i : Nat) (f : Basket → Basket) : SameJobs s (updBasket s i f) := by
  unfold Machine.updBasket
  split
  · exact .refl s
  next j found =>
    split
    · exact .refl s
    next b _ =>
      have changed := SameJobs.updJob s i (f := fun k => { k with basket := some (f b) }) fun _ => rfl
      rw [Machine.updJob, found] at changed
      exact changed.trans (.of_eq rfl rfl)

theorem SameJobs.countSpad (s : State) (j : Job) (o n : Nat) : SameJobs s (countSpad s j o n) := by
  unfold Machine.countSpad
  split
  · exact .updBasket ..
  · exact .updJob _ _ fun _ => rfl

theorem SameJobs.bastWrite (s : State) (j : Job) (o : Nat) : SameJobs s (bastWrite s j o).1 := by
  unfold Machine.bastWrite
  split
  · exact .refl s
  · dsimp only
    split
    · exact ((SameJobs.putBytes ..).trans (.setBad ..)).trans (.updJob _ _ fun _ => rfl)
    · exact .refl s

theorem SameJobs.storeLine (s : State) (sp : Space) (a : Nat) (owner : Option (Nat × Nat)) (d : List Byte) (bad : Bool) :
    SameJobs s (storeLine s sp a owner d bad) := by
  have bytes (r : State) (into : Space) (b : Nat) : SameJobs r
      (let t := Machine.clearZero (Machine.clearZero (Machine.putBytes r into b d) into b d.length) sp a d.length
       if bad then Machine.setBad t into b true else if d.length = 64 then Machine.setBad t into b false else t) :=
    (((SameJobs.putBytes r into b d).trans (.clearZero ..)).trans (.clearZero ..)).trans (.of_eq (jobs_marks ..).1 (jobs_marks ..).2)
  unfold Machine.storeLine
  cases (owner.bind fun q => (findJob s q.1).map fun j => (j, q.2)) with
  | some q => exact ((SameJobs.bastWrite s q.1 q.2).trans (bytes ..)).trans (.countSpad ..)
  | none => cases sp <;> exact (bytes s _ a).trans (.of_eq rfl rfl)

theorem SameJobs.performStore (s : State) (q : Pending) : SameJobs s (performStore s q) := by
  unfold Machine.performStore
  split
  · exact .refl s
  · exact .storeLine ..
  · split
    · exact .refl s
    · exact .storeLine ..

theorem SameJobs.performAll (s : State) (l : List Pending) : SameJobs s (performAll s l) := by
  induction l generalizing s with
  | nil => exact .refl s
  | cons q r ih => exact (SameJobs.performStore s q).trans (ih _)

/-! ### What follows -/

theorem performStore_stores (s : State) (q : Pending) : (performStore s q).job.stores = s.job.stores :=
  (congrArg Job.stores (SameJobs.performStore s q).1 :)

theorem performAll_stores (s : State) (l : List Pending) : (performAll s l).job.stores = s.job.stores :=
  (congrArg Job.stores (SameJobs.performAll s l).1 :)

theorem SameJobs.inbox {s t : State} (h : SameJobs s t) (i : Nat) : (findJob t i).map Job.inbox = (findJob s i).map Job.inbox := by
  have same := congrArg (Option.map Job.inbox) (h.2 i)
  rwa [Option.map_map, Option.map_map] at same

theorem drain_inbox (s : State) (i : Nat) : (findJob (drain s) i).map Job.inbox = (findJob s i).map Job.inbox := by
  refine ((SameJobs.performAll _ _).inbox i).trans ?_
  unfold findJob
  split
  · rfl
  · split <;> rfl

end Sys2Proof.Machine
end

section
/-! SUPPORT. The mailboxes of a core (05_control_core.md R126 to R129). -/

namespace Sys2Proof.Machine

/-! ### Jobs other than the focused one -/

theorem findJob_advance_other {s : State} {i : Nat} (other : i ≠ s.job.id) : findJob (advance s) i = findJob s i := by
  unfold findJob
  rw [advance_job_id, if_neg other.symm, if_neg other.symm, advance_jobs]

theorem updJob_job_other {s : State} {i : Nat} {f : Job → Job} (id : ∀ j, (f j).id = j.id) (other : i ≠ s.job.id) :
    (updJob s i f).job = s.job := by
  unfold updJob
  split
  · rfl
  next j found => rw [putJob, if_neg (by rw [id, findJob_id found]; exact other.symm)]

theorem sameBytes_of_getByte {s t : State} (h : getByte t = getByte s) : sameBytes s t := fun sp a _ => by rw [h]

theorem getByte_wentTo (s : State) (a : Word) : getByte (wentTo s a) = getByte s := by
  funext sp a
  cases sp <;> rfl

/-! ### MBS -/

/-- A job with one more message in its incoming mailbox. -/
def Job.mailed (j : Job) (v : Word) : Job := { j with inbox := j.inbox ++ [v] }

theorem mailWord_eq (m : Bool) : mailWord m = if m then 1 else 0 := by cases m <;> rfl

section
variable {s : State} {a : Reg} {m : Bool} {p : Job}

theorem exec_mbs_refused (h : m ≠ s.job.cc ∨ partnerOf s = none) :
    exec (.mbs a m) s = .next (raise s .mailboxMisuse (if m then 1 else 0)) := by
  show execMbs a m s = _
  rw [← mailWord_eq]
  unfold execMbs
  split
  · rfl
  next outgoing => rw [h.resolve_left fun other => outgoing (bne_iff_ne.2 other)]

/-- The message joins the partner's incoming mailbox once the stores of the stream have performed. -/
theorem exec_mbs_sends (partner : partnerOf s = some p) (room : p.inbox.length < 16) : exec (.mbs a s.job.cc) s =
    .next (advance (updJob (drain s) p.id (·.mailed (getX s a)))) := by
  show execMbs a s.job.cc s = _
  unfold execMbs
  rw [if_neg (by simp), partner]
  exact if_pos room

theorem exec_mbs_waits (partner : partnerOf s = some p) (full : 16 ≤ p.inbox.length) :
    exec (.mbs a s.job.cc) s = .next (waitsAt s .mailbox) := by
  show execMbs a s.job.cc s = _
  unfold execMbs
  rw [if_neg (by simp), partner]
  exact if_neg (Nat.not_lt.2 full)

/-- What a message to another job leaves, and the mailbox that it joins. -/
theorem sent_message (partner : partnerOf s = some p) (other : p.id ≠ s.job.id) (v : Word) :
    ∀ t, t = advance (updJob (drain s) p.id (·.mailed v)) →
      t.job.pc = s.job.pc + 4 ∧ Job.sameRegs s.job t.job ∧ sameBytes (drain s) t ∧
        (findJob t p.id).map Job.inbox = some (p.inbox ++ [v]) := by
  rintro _ rfl
  have drained := (Written.drain s).job
  have away : p.id ≠ (drain s).job.id := drained.id ▸ other
  have focused := updJob_job_other (s := drain s) (f := (·.mailed v)) (fun _ => rfl) away
  refine ⟨?pc, ?regs, sameBytes_of_getByte ((getByte_wentTo ..).trans (getByte_updJob ..)), ?inbox⟩
  case pc => rw [advance_job_pc, focused, drained.pc]
  case regs =>
    refine Job.sameRegs_trans drained.sameRegs ?_
    rw [advance_eq_wentTo]
    show Job.sameRegs (drain s).job { (updJob (drain s) p.id _).job with pc := _, wait := _ }
    rw [focused]
    exact Job.sameRegs_refl _
  case inbox =>
    have found : (findJob (drain s) p.id).map Job.inbox = some p.inbox := by
      have at_id : p.id = s.job.partner := findJob_id partner
      rw [drain_inbox, at_id]
      exact congrArg (Option.map Job.inbox) partner
    obtain ⟨q, hq, box⟩ := Option.map_eq_some_iff.1 found
    rw [findJob_advance_other (focused.symm ▸ away), findJob_updJob _ _ _ (·.mailed v) fun _ => rfl, if_pos rfl, hq, ← box]
    rfl

/-! ### MBR -/

theorem exec_mbr_refused {d : Reg} (h : m = s.job.cc ∨ partnerOf s = none) :
    exec (.mbr d m) s = .next (raise s .mailboxMisuse (if m then 1 else 0)) := by
  rw [← mailWord_eq]
  exact if_pos (by simpa using h)

theorem execMbr_incoming {d : Reg} (incoming : m ≠ s.job.cc) (partner : partnerOf s = some p) : exec (.mbr d m) s =
    match s.job.inbox with
    | v :: rest => .next (retireX { s with job := { s.job with inbox := rest } } d v)
    | [] => .next (hold s .mailbox) := if_neg (by simp [incoming, partner])

theorem exec_mbr_takes {d : Reg} (incoming : m ≠ s.job.cc) (partner : partnerOf s = some p) {v : Word} {r : List Word}
    (box : s.job.inbox = v :: r) : exec (.mbr d m) s = .next (wroteX { s with job := { s.job with inbox := r } } d v) := by
  rw [execMbr_incoming incoming partner, box]
  exact next_retireX rfl

theorem exec_mbr_waits {d : Reg} (incoming : m ≠ s.job.cc) (partner : partnerOf s = some p) (box : s.job.inbox = []) :
    exec (.mbr d m) s = .next (waitsAt s .mailbox) := by
  rw [execMbr_incoming incoming partner, box]
  rfl

end

/-- Settles O13. -/
theorem mailboxes : Obligations.Mailboxes := by
  refine fun s d a m => ⟨exec_mbs_refused, exec_mbr_refused, fun p partner other => ⟨?_, ?_, fun incoming v r => exec_mbr_takes incoming partner,
    fun incoming => exec_mbr_waits incoming partner⟩⟩
  · rintro rfl room
    exact ⟨_, exec_mbs_sends partner room, sent_message partner other _ _ rfl⟩
  · rintro rfl full
    exact exec_mbs_waits partner full

end Sys2Proof.Machine
end

section
/-! SUPPORT. The engine queues and the result FIFO at the control core (07_queues.md R165 to R168, R176, R177). -/

namespace Sys2Proof.Machine

/-! ### Engines in turn -/

/-- The engines of a list are changed, each by a function that may read the ITAG, and nothing else of the job. -/
theorem foldl_updEng (f : BitVec 32 → EngStream → EngStream) (j : Job) {l : List Engine} (distinct : l.Nodup) :
    j.onlyStreams (l.foldl (fun k e => k.updEng e (f k.itag)) j) ∧
    ∀ e, (l.foldl (fun k e => k.updEng e (f k.itag)) j).eng e = if e ∈ l then f j.itag (j.eng e) else j.eng e := by
  induction l generalizing j with
  | nil => exact ⟨rfl, fun e => (if_neg List.not_mem_nil).symm⟩
  | cons d l ih =>
    obtain ⟨other, rest⟩ := List.nodup_cons.1 distinct
    obtain ⟨streams, eng⟩ := ih (j.updEng d (f j.itag)) rest
    have only := updEng_onlyStreams j d (f j.itag)
    refine ⟨only.trans streams, fun e => (eng e).trans ?_⟩
    have itag : (j.updEng d (f j.itag)).itag = j.itag := by rw [only]
    rw [itag, Job.updEng, eng_setEng]
    by_cases same : e = d
    · subst same
      rw [if_neg other, if_pos rfl, if_pos (.head _)]
    · rw [if_neg same]
      exact if_congr (by simp [same]) rfl rfl

theorem Job.onlyStreams.sameRegs {j k : Job} (h : j.onlyStreams k) : Job.sameRegs j k := by
  rw [h]
  exact Job.sameRegs_refl _

theorem Job.onlyStreams.pc {j k : Job} (h : j.onlyStreams k) : k.pc = j.pc := by rw [h]

theorem mem_engines_of_mask (m : EngMask) (e : Engine) : e ∈ EngMask.engines m ↔ maskHas m e = true := by
  simp [engines_of_mask, mem_engines]

theorem engines_of_mask_nodup (m : EngMask) : (EngMask.engines m).Nodup := engines_nodup.filter _

/-! ### PUSH -/

theorem segmentBad_iff (s : State) (v : Word) (e : Engine) : segmentBad s v e = true ↔ v.extractLsb' 24 8 ≠ 0 ∨ v.extractLsb' 0 2 ≠ 0 ∨
    ∀ x, sectionOf s s.job (streamKind e) = some x → x.bytes ≤ (v.extractLsb' 0 24).toNat := by
  unfold segmentBad
  cases sectionOf s s.job (streamKind e) with
  | none => simp
  | some x =>
    simp only [Bool.or_eq_true, decide_eq_true_eq, or_assoc, Option.some.injEq, forall_eq']
    simp only [isZero, bits, Bool.not_eq_true', beq_eq_false_iff_ne]

/-- The segment operand v breaks a rule of PUSH for an engine of the mask (R165, R167). -/
def pushBad (s : State) (m : EngMask) (v : Word) : Prop :=
  ∃ e, maskHas m e = true ∧ (v.extractLsb' 24 8 ≠ 0 ∨ v.extractLsb' 0 2 ≠ 0 ∨
    ∀ x, sectionOf s s.job (streamKind e) = some x → x.bytes ≤ (v.extractLsb' 0 24).toNat)

section
variable {s : State} {m : EngMask} {a : Reg}

theorem any_segmentBad_iff (v : Word) : (EngMask.engines m).any (segmentBad s v) = true ↔ pushBad s m v := by
  simp only [List.any_eq_true, mem_engines_of_mask, segmentBad_iff, pushBad]

theorem exec_push_bad (bad : pushBad s m (getX s a)) : exec (.push m a) s = .next (raise s .queueMisuse (getX s a)) :=
  if_pos ((any_segmentBad_iff _).2 bad)

theorem all_queueRoom_iff : (EngMask.engines m).all (fun e => s.job.queueRoom e) = true ↔
    ∀ e, maskHas m e = true → (s.job.eng e).queue.length < 64 := by
  simp only [List.all_eq_true, mem_engines_of_mask, Job.queueRoom, decide_eq_true_eq]
  rfl

theorem exec_push_waits (sound : ¬pushBad s m (getX s a)) (full : ∃ e, maskHas m e = true ∧ 64 ≤ (s.job.eng e).queue.length) :
    exec (.push m a) s = .next (waitsAt s (.qstall (EngMask.engines m))) := by
  have noRoom : ¬(EngMask.engines m).all (fun e => s.job.queueRoom e) = true := fun room => by
    obtain ⟨e, named, long⟩ := full
    exact Nat.not_lt.2 long (all_queueRoom_iff.1 room e named)
  refine (if_neg (mt (any_segmentBad_iff _).1 sound)).trans (if_pos ?_)
  simpa using noRoom

/-- The job with a segment appended to the queues of a mask. -/
def Job.pushed (j : Job) (m : EngMask) (v : Word) : Job := (EngMask.engines m).foldl (fun j e => j.enqueue e (.seg v j.itag)) j

theorem pushed_frame (j : Job) (m : EngMask) (v : Word) : j.onlyStreams (j.pushed m v) ∧ ∀ e, (j.pushed m v).eng e =
    if maskHas m e then { j.eng e with queue := (j.eng e).queue ++ [.seg v j.itag] } else j.eng e := by
  obtain ⟨only, eng⟩ := foldl_updEng (fun t x => { x with queue := x.queue ++ [.seg v t] }) j (engines_of_mask_nodup m)
  exact ⟨only, fun e => (eng e).trans (if_congr (mem_engines_of_mask m e) rfl rfl)⟩

theorem exec_push_appends (sound : ¬pushBad s m (getX s a)) (room : ∀ e, maskHas m e = true → (s.job.eng e).queue.length < 64) :
    exec (.push m a) s = .next (advance { drain s with job := (drain s).job.pushed m (getX s a) }) :=
  (if_neg (mt (any_segmentBad_iff _).1 sound)).trans (if_neg (by simpa using all_queueRoom_iff.2 room))

/-- What PUSH leaves where it appends its segment. -/
theorem pushed_segment (v : Word) : ∀ t, t = advance { drain s with job := (drain s).job.pushed m v } →
    t.job.pc = s.job.pc + 4 ∧ Job.sameRegs s.job t.job ∧ sameBytes (drain s) t ∧
      ∀ e, t.job.eng e = if maskHas m e then { (drain s).job.eng e with queue := (s.job.eng e).queue ++ [.seg v s.job.itag] }
        else (drain s).job.eng e := by
  rintro _ rfl
  have drained := (Written.drain s).job
  obtain ⟨only, eng⟩ := pushed_frame (drain s).job m v
  refine ⟨?pc, Job.sameRegs_trans drained.sameRegs only.sameRegs, sameBytes_of_getByte (getByte_wentTo ..), fun e => ?eng⟩
  case pc => rw [advance_job_pc, only.pc, drained.pc]
  case eng =>
    have itag : (drain s).job.itag = s.job.itag := by rw [drained]
    have stays : (advance { drain s with job := (drain s).job.pushed m v }).job.eng e = ((drain s).job.pushed m v).eng e := by cases e <;> rfl
    rw [stays, eng, itag, drained.eng]

end

/-! ### POPR -/

theorem exec_popr_takes {s : State} {d : Reg} {w : Word} {r : List Word} (entry : s.job.fifo = w :: r) :
    exec (.popr d) s = .next (wroteX { s with job := { s.job with fifo := r } } d w) := by
  show execPopr d s = _
  rw [execPopr, entry]
  exact next_retireX rfl

theorem exec_popr_waits {s : State} {d : Reg} (empty : s.job.fifo = []) : exec (.popr d) s = .next (waitsAt s .dstall) := by
  show execPopr d s = _
  rw [execPopr, empty]
  rfl

/-! ### QCUT -/

theorem cuts_eq (j : Job) (x : BitVec 32) : j.cuts x = j.inCut x := by
  funext q
  cases q with
  | seg v t => simp [Job.cuts, QEntry.seg?, Job.inCut, Job.hasBegun, engines, Job.eng, BitVec.lt_def, Bool.or_assoc]
  | _ => rfl

theorem declared_eq (j : Job) (x : BitVec 32) (e : Engine) (k : Nat) : j.declared x e k = j.cutTokens x (j.eng e).queue k := by
  rw [Job.declared, Job.cutTokens, cuts_eq]
  refine congrArg List.sum (List.map_congr_left fun q _ => ?_)
  cases q <;> rfl

theorem cutCounts_length (j : Job) (x : BitVec 32) : (j.cutCounts x).length = 8 := rfl

/-- A token counter balances over the cut where its count of pushes is that of its pops. -/
theorem balanced_iff {j : Job} {x : BitVec 32} {q : Nat} {p : Nat × Nat} (h : (j.cutCounts x)[q]? = some p) :
    j.balanced x q = true ↔ p.1 = p.2 := by
  obtain ⟨below, -⟩ := List.getElem?_eq_some_iff.1 h
  rw [cutCounts_length] at below
  simp only [Job.balanced, declared_eq]
  interval_cases q <;> (cases h; exact beq_iff_eq)

theorem foldl_engines (j : Job) (f : EngStream → EngStream) : engines.foldl (fun k e => k.updEng e f) j =
    { j with ld := f j.ld, mx := f j.mx, vx := f j.vx, st' := f j.st' } := rfl

section
variable {s : State} {a : Reg} {x : BitVec 32} (hx : x = (getX s a).extractLsb' 0 32)
include hx

theorem exec_qcut_cuts (balanced : ∀ p ∈ s.job.cutCounts x, p.1 = p.2) : exec (.qcut a) s = .next (wentTo { s with job := { s.job with
    ld := s.job.ld.queued (s.job.ld.queue.filter fun q => !s.job.inCut x q)
    mx := s.job.mx.queued (s.job.mx.queue.filter fun q => !s.job.inCut x q)
    vx := s.job.vx.queued (s.job.vx.queue.filter fun q => !s.job.inCut x q)
    st' := s.job.st'.queued (s.job.st'.queue.filter fun q => !s.job.inCut x q) } } (s.job.pc + 4)) := by
  have all : firstBelow 8 (fun q => !s.job.balanced x q) = none := by
    refine List.find?_eq_none.2 fun q hq => ?_
    have entry := List.getElem?_eq_getElem (l := s.job.cutCounts x) (i := q) (List.mem_range.1 hq)
    simpa using (balanced_iff entry).2 (balanced _ (List.mem_of_getElem? entry))
  show execQcut a s = _
  rw [execQcut, bits, ← hx, all, foldl_engines, cuts_eq]
  rfl

theorem exec_qcut_unbalanced {q : Nat} {p : Nat × Nat} (entry : (s.job.cutCounts x)[q]? = some p) (apart : p.1 ≠ p.2)
    (first : ∀ k r, k < q → (s.job.cutCounts x)[k]? = some r → r.1 = r.2) :
    exec (.qcut a) s = .next (raise s .queueMisuse (BitVec.ofNat 64 q)) := by
  have below := (List.getElem?_eq_some_iff.1 entry).1
  have found : firstBelow 8 (fun q => !s.job.balanced x q) = some q := by
    refine List.find?_range_eq_some.2 ⟨?_, List.mem_range.2 below, fun k hk => ?_⟩
    · simpa using mt (balanced_iff entry).1 apart
    · have before := List.getElem?_eq_getElem (l := s.job.cutCounts x) (i := k) (hk.trans below)
      simpa using (balanced_iff before).2 (first k _ hk before)
  show execQcut a s = _
  rw [execQcut, bits, ← hx, found]

end

/-! ### LTRIM -/

/-- The job with the bound x at the engines of a mask. -/
def Job.trimmed (j : Job) (now : Nat) (m : EngMask) (x : Word) : Job :=
  (EngMask.engines m).foldl (fun j e => j.updEng e fun y => y.ltrim now x) j

theorem trimmed_frame (j : Job) (now : Nat) (m : EngMask) (x : Word) : j.onlyStreams (j.trimmed now m x) ∧
    ∀ e, (j.trimmed now m x).eng e = if maskHas m e then (j.eng e).ltrim now x else j.eng e := by
  obtain ⟨only, eng⟩ := foldl_updEng (fun _ y => y.ltrim now x) j (engines_of_mask_nodup m)
  exact ⟨only, fun e => (eng e).trans (if_congr (mem_engines_of_mask m e) rfl rfl)⟩

theorem exec_ltrim {s : State} {m : EngMask} {a : Reg} :
    exec (.ltrim m a) s = .next (wentTo { s with job := s.job.trimmed s.clock m (getX s a) } (s.job.pc + 4)) := by
  rw [← (trimmed_frame s.job s.clock m (getX s a)).1.pc]
  rfl

theorem ltrim_outside {y : EngStream} (outside : y.frames = []) (now : Nat) (x : Word) :
    y.ltrim now x = { y with held := some (BitVec.ofNat 32 (min x.toNat (2 ^ 32 - 1))) } := by
  rw [EngStream.ltrim, outside]
  rfl

theorem ltrim_outermost {y : EngStream} {inner : List Frame} {f : Frame} (frames : y.frames = inner ++ [f]) (now : Nat) (x : Word) :
    y.ltrim now x = { y with frames := inner ++ [f.trimAt now x] } := by
  rw [EngStream.ltrim, frames, List.reverse_append]
  simp

/-- A trip whose stage 0 is decoded in the clock of the LTRIM counts as started (R177). -/
theorem trimAt_atClock_same {f : Frame} {now : Nat} {x : Word} (first : f.cut = none) (stage : f.stage = 0) (trip : f.j < f.nEff) :
    ((f.trimAt now x).atClock now).nEff = max (f.trimAt now x).nEff (f.j + 1) := by
  have cut : (f.trimAt now x).cut = some (now, f.nEff) := by rw [Frame.trimAt, first]
  have fields : (f.trimAt now x).stage = 0 ∧ (f.trimAt now x).j = f.j := ⟨stage, rfl⟩
  unfold Frame.atClock
  rw [cut]
  dsimp only
  split
  next counted =>
    simp only [fields, Bool.and_eq_true, decide_eq_true_eq] at counted ⊢
    omega
  next inside =>
    simp only [fields, trip, decide_true, Bool.true_and, Bool.and_true, decide_eq_true_eq] at inside
    omega

theorem trimAt_atClock_other {f : Frame} {now n : Nat} {x : Word} (other : n ≠ now) : (f.trimAt now x).atClock n = f.trimAt now x := by
  have cut : ∃ e, (f.trimAt now x).cut = some (now, e) := ⟨_, rfl⟩
  obtain ⟨e, cut⟩ := cut
  unfold Frame.atClock
  rw [cut]
  exact if_neg (by simp [other.symm])

/-- Settles O10. -/
theorem queues : Obligations.Queues := by
  refine ⟨?push, fun s a x hx => ⟨exec_qcut_cuts hx, fun q p => exec_qcut_unbalanced hx⟩, ?ltrim⟩
  case push =>
    rintro s m d a _ named bad rfl mask bad_iff
    obtain rfl : named = maskHas m := funext fun e => (mask e).trans (by cases e <;> rfl)
    have bad_iff : bad ↔ pushBad s m (getX s a) := bad_iff
    rw [bad_iff]
    exact ⟨exec_push_bad, exec_push_waits, fun sound room => ⟨_, exec_push_appends sound room, pushed_segment _ _ rfl⟩,
      fun w r => exec_popr_takes, exec_popr_waits⟩
  case ltrim =>
    intro s m a
    obtain ⟨only, eng⟩ := trimmed_frame s.job s.clock m (getX s a)
    refine ⟨_, exec_ltrim, only, fun e => ?_⟩
    intro y named
    have mask : named = maskHas m e := by cases e <;> rfl
    rw [eng, mask]
    refine ⟨fun out => if_neg (by simp [out]), fun inside outside => ?_, fun inside inner f frames => ⟨f.trimAt s.clock (getX s a), ?_, rfl, rfl,
      trimAt_atClock_same, fun n => trimAt_atClock_other⟩⟩
    · rw [if_pos inside, ltrim_outside outside]
    · rw [if_pos inside, ltrim_outermost frames]

end Sys2Proof.Machine
end

section
/-! SUPPORT. Accesses of a control stream that lie in one line (05_control_core.md R117, R119, 14_ordering.md R307): what is read and written, and
which pending stores perform before. -/

namespace Sys2Proof.Machine

/-! ### Alignment -/

section
variable {ea : Word} {n : Nat} (size : n ∣ 64)
include size

/-- An aligned access lies in one line. -/
theorem low_add_le (aligned : ea.toNat % n = 0) : (Loc.va ea).low + n ≤ 64 := by
  have inLine : ea.toNat % 64 < 64 := Nat.mod_lt _ (by decide)
  have rest : n ∣ 64 - ea.toNat % 64 := Nat.dvd_sub size ((Nat.dvd_mod_iff size).2 (Nat.dvd_of_mod_eq_zero aligned))
  have room := Nat.le_of_dvd (by omega) rest
  show ea.toNat % 64 + n ≤ 64
  omega

theorem size_pos : 0 < n := Nat.pos_of_dvd_of_pos size (by decide)

/-- The address as R117 judges it is aligned where its number is. -/
theorem address_mod : ea.toNat % 2 ^ 57 % n = ea.toNat % n := Nat.mod_mod_of_dvd _ (size.trans (by decide))

theorem address_aligned (aligned : ea.toNat % n = 0) : ¬ea.toNat % 2 ^ 57 % n ≠ 0 := not_not_intro ((address_mod size).trans aligned)

theorem address_misaligned (misaligned : ea.toNat % n ≠ 0) : ea.toNat % 2 ^ 57 % n ≠ 0 := (address_mod size).trans_ne misaligned

end

theorem bits_low_three_iff (ea : Word) : (bits ea 0 3 != 0) = true ↔ ea.toNat % 8 ≠ 0 := by
  rw [bne_iff_ne, ne_eq, BitVec.toNat_eq, bits, BitVec.extractLsb'_toNat]
  rfl

/-! ### What a stop makes of an access -/

section
variable {α : Type} {s : State} {r : Except Stop α} {k : α → State}

theorem withAccess_error {e : Stop} (h : r = .error e) : withAccess s r k = ctlStop s e := by rw [h]; rfl

theorem withAccess_ok {x : α} (h : r = .ok x) : withAccess s r k = k x := by rw [h]; rfl

end

/-! ### Reads -/

theorem readChunk_length {s : State} {p : Party} {acc : Access} {l : Loc} {n : Nat} {ch : Chunk} (h : readChunk s p acc l n = .ok ch) :
    ch.data.length = n := by
  unfold readChunk at h
  split at h
  · cases h
  · cases h
    simp [getBytes]
  · split at h
    · cases h
    · cases h
      simp [padBytes]

section
variable {s : State} {c : Cls} {ea : Word} {n : Nat} (size : n ∣ 64) (aligned : ea.toNat % n = 0)
include size aligned

theorem readChunks_ok {p : Party} {ch : Chunk} (h : readChunk s p .read (.va ea) n = .ok ch) : readChunks s p .read (.va ea) n = .ok [ch] := by
  simp only [readChunks_one (size_pos size) (low_add_le size aligned) (Loc.add_zero _), h]

theorem readChunks_error {p : Party} {e : Stop} (h : readChunk s p .read (.va ea) n = .error e) :
    readChunks s p .read (.va ea) n = .error e := by
  simp only [readChunks_one (size_pos size) (low_add_le size aligned) (Loc.add_zero _), h]

theorem ctlLoad_ok {ch : Chunk} (h : readChunk s (ctlParty s c) .read (.va ea) n = .ok ch) (sound : ch.bad = false) :
    ctlLoad s c ea n = .ok ch.data := by
  simp [ctlLoad, readChunks_ok size aligned h, sound]

theorem ctlLoad_poisoned {ch : Chunk} (h : readChunk s (ctlParty s c) .read (.va ea) n = .ok ch) (bad : ch.bad = true) :
    ctlLoad s c ea n = .error (.trap .poison ea) := by
  simp [ctlLoad, readChunks_ok size aligned h, bad]

theorem ctlLoad_error {e : Stop} (h : readChunk s (ctlParty s c) .read (.va ea) n = .error e) : ctlLoad s c ea n = .error e := by
  simp only [ctlLoad, readChunks_error size aligned h]

theorem withLoad_aligned (k : State → List Byte → State) : withLoad s c ea n k =
    withAccess (drainLoad s c (.va ea) n) (ctlLoad (drainLoad s c (.va ea) n) c ea n) (k (drainLoad s c (.va ea) n)) :=
  if_neg (address_aligned size aligned)

end

theorem withLoad_misaligned {s : State} {c : Cls} {ea : Word} {n : Nat} (size : n ∣ 64) (misaligned : ea.toNat % n ≠ 0)
    (k : State → List Byte → State) : withLoad s c ea n k = ctlStop s (.trap .misaligned ea) :=
  if_pos (address_misaligned size misaligned)

/-! ### Writes -/

theorem unmarked_data (d : List Byte) : ((d.map fun b => (b, false)).take d.length).map Prod.fst = d := by
  rw [← List.map_take, List.take_length, List.map_map]
  exact List.map_id d

theorem unmarked_any (d : List Byte) (n : Nat) : ((d.map fun b => (b, false)).take n).any Prod.snd = false := by
  rw [← List.map_take, List.any_map]
  simp

section
variable {s : State} {p : Party} {ea : Word} {d : List Byte} (size : d.length ∣ 64) (aligned : ea.toNat % d.length = 0)
include size aligned

theorem lineParts_aligned : lineParts (Loc.va ea).low (d.map fun b => (b, false)).length = [(0, d.length)] := by
  rw [List.length_map, lineParts_one (size_pos size) (low_add_le size aligned)]

theorem writeBytes_error {e : Stop} (h : locate s p .write (.va ea) d.length = .error e) : writeBytes s p (.va ea) d = .error e := by
  simp only [writeBytes, writeMarked, lineParts_aligned size aligned, writeParts, Loc.add_zero, h]

theorem writeBytes_here {sp : Space} {a : Nat} {pol : Poison} {owner : Option (Nat × Nat)}
    (h : locate s p .write (.va ea) d.length = .ok (.here sp a pol, owner)) :
    writeBytes s p (.va ea) d = .ok (takeStores (storeLine s sp a owner d false) p.unit) := by
  simp only [writeBytes, writeMarked, lineParts_aligned size aligned, writeParts, Loc.add_zero, h, List.drop_zero, unmarked_data, unmarked_any]
  rfl

section
variable {dev : BitVec 8} {ddr : Bool} {pa : Nat} {pol : Poison} {owner : Option (Nat × Nat)}
  (h : locate s p .write (.va ea) d.length = .ok (.remote dev ddr pa pol, owner))
include h

theorem writeBytes_remote {r : Response}
    (answer : answerTo s p (request s p (.store d false) dev ddr pa d.length pol) ea (Loc.va ea).line = .ok r) :
    writeBytes s p (.va ea) d = .ok (takeStores s p.unit) := by
  simp only [writeBytes, writeMarked, lineParts_aligned size aligned, writeParts, Loc.add_zero, h, List.drop_zero, unmarked_data, unmarked_any,
    Loc.word, answer]
  rfl

theorem writeBytes_remote_error {e : Stop}
    (answer : answerTo s p (request s p (.store d false) dev ddr pa d.length pol) ea (Loc.va ea).line = .error e) :
    writeBytes s p (.va ea) d = .error e := by
  simp only [writeBytes, writeMarked, lineParts_aligned size aligned, writeParts, Loc.add_zero, h, List.drop_zero, unmarked_data, unmarked_any,
    Loc.word, answer]

end

end

/-! ### Pending stores that perform before -/

theorem splitLast_none {p : Pending → Bool} {l : List Pending} (h : ∀ q ∈ l, p q = false) : splitLast p l = ([], l) := by
  induction l with
  | nil => rfl
  | cons q l ih =>
    rw [splitLast, ih fun x hx => h x (.tail _ hx)]
    simp [h q (.head _)]

theorem drainWhere_none {s : State} {p : Pending → Bool} (h : ∀ q ∈ s.job.stores, p q = false) : drainWhere s p = s := by
  rw [drainWhere, splitLast_none h]
  rfl

theorem drainLoad_none {s : State} {c : Cls} {l : Loc} {n : Nat}
    (h : ∀ q ∈ s.job.stores, Pending.beforeLoad c (readSpots s (ctlParty s c) l n) q = false) : drainLoad s c l n = s := by
  unfold drainLoad
  split
  · rfl
  · exact drainWhere_none h

end Sys2Proof.Machine
end

section
/-! SUPPORT. Loads and stores of the control core (05_control_core.md R117 to R120, 06_registers.md R153). -/

namespace Sys2Proof.Machine

theorem Size.bytes_dvd (z : Size) : z.bytes ∣ 64 := by cases z <;> decide

theorem doneX_eq (s : State) (d : Reg) (v : Word) : doneX s d v = wroteX (repliesTaken s) d v := retireX_eq_wroteX ..

/-! ### Loads -/

section
variable {s : State} {i : Instr} {d : Reg} {ea : Word} {w : Nat} {c : Cls} {signed : Bool}

/-- The loads by their form. -/
theorem exec_load (form : loadForm s i = some (d, ea, w, c, signed)) : w ∣ 64 ∧ exec i s = loadX signed d c w ea s := by
  unfold loadForm at form
  split at form <;> cases form <;> exact ⟨Size.bytes_dvd _, rfl⟩

theorem extend_eq {b : List Byte} (length : b.length = w) : extend signed b =
    if signed then (BitVec.ofNat (8 * w) (leNat b)).signExtend 64 else BitVec.ofNat 64 (leNat b) := by
  rw [← length]
  rfl

end

/-- Settles O5: the load reads its one line in the state that the earlier stores leave. -/
theorem loads : Obligations.Loads := by
  intro i s d ea w c signed form
  obtain ⟨size, run⟩ := exec_load form
  rw [run]
  refine ⟨?_, fun misaligned => congrArg _ (withLoad_misaligned size misaligned _)⟩
  rintro u rfl
  refine ⟨(Written.drainLoad ..).job.sameRegs, drainLoad_none, fun aligned ch read => ⟨?sound, ?poisoned⟩, fun aligned e read => ?stopped⟩
  case sound =>
    rintro sound _ rfl
    rw [loadX, withLoad_aligned size aligned, withAccess_ok (ctlLoad_ok size aligned read sound), doneX_eq, extend_eq (readChunk_length read)]
  case poisoned =>
    intro bad
    rw [loadX, withLoad_aligned size aligned, withAccess_error (ctlLoad_poisoned size aligned read bad)]
  case stopped =>
    rw [loadX, withLoad_aligned size aligned, withAccess_error (ctlLoad_error size aligned read)]
    exact ⟨_, rfl, ctlStop_stopsAt ..⟩

/-! ### Stores -/

section
variable {s : State} {i : Instr} {ea : Word} {c : Cls} {d : List Byte}

/-- A store of the control stream that has gone to its place: the stream goes on. -/
def storeDone (t : State) : State := advance (takeReplies t (.ctl t.job.id))

/-- The stores by their form: an STL is never delayed. -/
theorem exec_store (form : storeForm s i = some (ea, c, d)) : d.length ∣ 64 ∧ ∃ late : Bool,
    exec i s = .next (withStore s late c ea d storeDone) ∧
    (s.delay = true → (∀ x y z c p, i ≠ .stl x y z c p) → late = true) ∧
    (s.delay = false ∨ (∃ x y z c p, i = .stl x y z c p) → late = false) := by
  unfold storeForm at form
  split at form <;> cases form
  · refine ⟨leBytes_length .. ▸ Size.bytes_dvd _, s.delay, rfl, fun h _ => h, fun h => h.resolve_right ?_⟩
    rintro ⟨_, _, _, _, _, ⟨⟩⟩
  · exact ⟨leBytes_length .. ▸ Size.bytes_dvd _, false, rfl, fun _ other => (other _ _ _ _ _ rfl).elim, fun _ => rfl⟩
  · refine ⟨?_, s.delay, rfl, fun h _ => h, fun h => h.resolve_right ?_⟩
    · rw [toBytes, leBytes_length]
    · rintro ⟨_, _, _, _, _, ⟨⟩⟩

section
variable {late : Bool} {k : State → State}

theorem withStore_misaligned (size : d.length ∣ 64) (misaligned : ea.toNat % d.length ≠ 0) :
    withStore s late c ea d k = ctlStop s (.trap .misaligned ea) := if_pos (address_misaligned size misaligned)

variable (size : d.length ∣ 64) (aligned : ea.toNat % d.length = 0)
include size aligned

theorem withStore_error {e : Stop} (h : locate s (ctlParty s c) .write (.va ea) d.length = .error e) : withStore s late c ea d k = ctlStop s e :=
  (if_neg (address_aligned size aligned)).trans (withAccess_error h)

/-- A store that may wait stays pending. -/
theorem withStore_pending {sp : Space} {a : Nat} {pol : Poison} {owner : Option (Nat × Nat)}
    (h : locate s (ctlParty s c) .write (.va ea) d.length = .ok (.here sp a pol, owner)) (delay : late = true)
    (may : mayWait s (.here sp a pol, owner) = true) :
    withStore s late c ea d k = k { s with job := { s.job with stores := s.job.stores ++ [.store c sp a owner d] } } := by
  rw [withStore, if_neg (address_aligned size aligned), withAccess_ok h, delay, may]
  rfl

/-- A store that does not wait performs behind the stores u that must perform before it. -/
theorem withStore_now {x : Place × Option (Nat × Nat)} {u : State} (h : locate s (ctlParty s c) .write (.va ea) d.length = .ok x)
    (now : late = false ∨ mayWait s x = false) (hu : u = drainFor s c (spotOf s x) d.length) :
    withStore s late c ea d k = withAccess u (writeBytes u (ctlParty s c) (.va ea) d) k := by
  have free : (late && mayWait s x) = false := Bool.and_eq_false_iff.2 now
  have party : ctlParty u c = ctlParty s c := hu ▸ (Quiet.drainWhere s _).ctlParty c
  rw [withStore, if_neg (address_aligned size aligned), withAccess_ok h, free, ← party, hu]
  rfl

end

end

/-- What the stream leaves behind a store that has performed in state u, with v the state of its memories. -/
theorem storeDone_frame {s u v : State} (before : Quiet s u) (write : Quiet u v) :
    (storeDone v).job.pc = s.job.pc + 4 ∧ Job.sameRegs s.job (storeDone v).job := by
  obtain ⟨regs, pc, -⟩ := before.trans write
  exact ⟨congrArg (· + 4) pc, regs⟩

theorem getByte_storeDone (v : State) (u : Unit) : getByte (storeDone (takeStores v u)) = getByte v := by
  funext sp a
  cases sp <;> rfl

/-- Settles O6: where the store goes, it writes one line; the rest is what its stop leaves. -/
theorem stores : Obligations.Stores := by
  intro i s ea c d form
  obtain ⟨size, late, run, delayed, undelayed⟩ := exec_store form
  have now (x : Place × Option (Nat × Nat)) (h : s.delay = false ∨ mayWait s x = false ∨ ∃ x y z c p, i = .stl x y z c p) :
      late = false ∨ mayWait s x = false := by
    obtain h | h | h := h
    · exact .inl (undelayed (.inl h))
    · exact .inr h
    · exact .inl (undelayed (.inr h))
  rw [run]
  refine ⟨fun aligned sp a pol owner u located hu => ⟨?pending, ?here⟩, ?remote, ?unlocated, ?later,
    fun misaligned => congrArg _ (withStore_misaligned size misaligned)⟩
  case pending =>
    intro delay may other
    rw [withStore_pending size aligned located (delayed delay other) may]
    rfl
  case here =>
    intro prompt relocated fits
    have written := writeBytes_here size aligned relocated
    have before : Quiet s u := hu ▸ .drainWhere s _
    obtain ⟨pc, regs⟩ := storeDone_frame before (v := takeStores (storeLine u sp a owner d false) (ctlParty s c).unit) (.storeLine ..)
    rw [withStore_now size aligned located (now _ prompt) hu, withAccess_ok written]
    refine ⟨_, rfl, pc, regs, fun sp' a' has own => ?_⟩
    rw [getByte_storeDone]
    exact storeLine_bytes _ _ _ _ _ _ fits sp' a' has own
  case remote =>
    intro aligned dev ddr pa pol owner u r located hu relocated answer
    have written := writeBytes_remote size aligned relocated answer
    have before : Quiet s u := hu ▸ .drainWhere s _
    obtain ⟨pc, regs⟩ := storeDone_frame before (v := takeStores u (ctlParty s c).unit) (.refl u)
    rw [withStore_now size aligned located (.inr rfl) hu, withAccess_ok written]
    exact ⟨_, rfl, pc, regs, sameBytes_of_getByte (getByte_storeDone ..)⟩
  case unlocated =>
    intro aligned e located
    rw [withStore_error size aligned located]
    exact ⟨_, rfl, ctlStop_stopsAt ..⟩
  case later =>
    intro aligned x u located prompt hu
    rw [withStore_now size aligned located (now x prompt) hu]
    refine ⟨fun e unlocated => ?_, fun dev ddr pa pol owner e relocated answer => ?_⟩
    · rw [withAccess_error (writeBytes_error size aligned unlocated)]
      exact ⟨_, rfl, ctlStop_stopsAt ..⟩
    · rw [withAccess_error (writeBytes_remote_error size aligned relocated answer)]
      exact ⟨_, rfl, ctlStop_stopsAt ..⟩

end Sys2Proof.Machine
end

section
/-! SUPPORT. Atomics of the control core (05_control_core.md R121 to R123). -/

namespace Sys2Proof.Machine

/-! ### The doubleword -/

theorem ofBytes_word (v : Word) : ofBytes 64 (leBytes 8 v.toNat) = v := ofBytes_toBytes (n := 8) v

/-! ### The read-modify-write -/

section
variable {s : State} {p : Party} {l : Loc} {n : Nat} {op : ReqOp} {v : Word} {f : List Byte → Option (List Byte)}

theorem readModify_error {e : Stop} (h : locate s p .atomic l n = .error e) : readModify s p l n op v f = .error e := by
  simp only [readModify, h]

section
variable {sp : Space} {a : Nat} {pol : Poison} {owner : Option (Nat × Nat)} (h : locate s p .atomic l n = .ok (.here sp a pol, owner))
include h

theorem readModify_poisoned (bad : lineBad s (readPlace s sp a owner).1 (readPlace s sp a owner).2 = true) :
    readModify s p l n op v f = .error (.denied .atomic .poison v) := by
  simp only [readModify, h]
  exact if_pos bad

variable (sound : lineBad s (readPlace s sp a owner).1 (readPlace s sp a owner).2 = false)
include sound

theorem readModify_keeps (none : f (getBytes s (readPlace s sp a owner).1 (readPlace s sp a owner).2 n) = .none) :
    readModify s p l n op v f = .ok (getBytes s (readPlace s sp a owner).1 (readPlace s sp a owner).2 n, s) := by
  simp only [readModify, h, sound, none]
  rfl

theorem readModify_writes {d : List Byte} (some : f (getBytes s (readPlace s sp a owner).1 (readPlace s sp a owner).2 n) = .some d) :
    readModify s p l n op v f =
      .ok (getBytes s (readPlace s sp a owner).1 (readPlace s sp a owner).2 n, storeLine s sp a owner d false) := by
  simp only [readModify, h, sound, some]
  rfl

end

section
variable {dev : BitVec 8} {ddr : Bool} {pa : Nat} {pol : Poison} {owner : Option (Nat × Nat)}
  (h : locate s p .atomic l n = .ok (.remote dev ddr pa pol, owner))
include h

theorem readModify_remote {r : Response} (answer : answerTo s p (request s p op dev ddr pa n pol) v v = .ok r) :
    readModify s p l n op v f = .ok (leBytes n r.result.toNat, s) := by
  simp only [readModify, h, answer]

theorem readModify_remote_error {e : Stop} (answer : answerTo s p (request s p op dev ddr pa n pol) v v = .error e) :
    readModify s p l n op v f = .error e := by
  simp only [readModify, h, answer]

end

end

/-! ### The atomics -/

section
variable {s : State} {i : Instr} {f : AtomicForm}

theorem amo_congr {op : Fin 8} {d a b : Reg} {c : Cls} {g k : Word → Word → Word} (h : ∀ x y, g x y = k x y) :
    amo op g d a b c s = amo op k d a b c s := congrArg (amo op · d a b c s) (funext fun x => funext (h x))

/-- The atomics by their form. -/
theorem exec_atomic (form : atomicForm s i = some f) : exec i s = atomicX f.d f.cls f.ea f.req f.new s := by
  cases i
  case amoSwap | amoaSwap | amolSwap | amoalSwap | amoAdd | amoaAdd | amolAdd | amoalAdd | amoAnd | amoaAnd | amolAnd | amoalAnd | amoOr | amoaOr
      | amolOr | amoalOr | amoXor | amoaXor | amolXor | amoalXor | cas =>
    cases form
    rfl
  case amoMin | amoaMin | amolMin | amoalMin =>
    cases form
    exact (amo_congr minS_eq : amo 5 minS _ _ _ _ s = _)
  case amoMax | amoaMax | amolMax | amoalMax =>
    cases form
    exact (amo_congr maxS_eq : amo 6 maxS _ _ _ _ s = _)
  case amoMaxu | amoaMaxu | amolMaxu | amoalMaxu =>
    cases form
    exact (amo_congr maxU_eq : amo 7 maxU _ _ _ _ s = _)
  all_goals cases form

/-- An aligned atomic performs its read-modify-write behind the stores u that must perform before it. -/
theorem atomicX_aligned {x : Place × Option (Nat × Nat)} {u : State} (aligned : f.ea.toNat % 8 = 0)
    (located : locate s (ctlParty s f.cls) .atomic (.va f.ea) 8 = .ok x) (hu : u = drainFor s f.cls (spotOf s x) 8) :
    atomicX f.d f.cls f.ea f.req f.new s = .next (withAccess u
      (readModify u (ctlParty s f.cls) (.va f.ea) 8 f.req f.ea fun b => (f.new (ofBytes 64 b)).map toBytes)
      fun r => doneX r.2 f.d (ofBytes 64 r.1)) := by
  have party : ctlParty u f.cls = ctlParty s f.cls := hu ▸ (Quiet.drainWhere s _).ctlParty f.cls
  rw [atomicX, if_neg (mt (bits_low_three_iff _).1 (not_not_intro aligned)), withAccess_ok located, ← party, hu]

theorem atomicX_unlocated {e : Stop} (aligned : f.ea.toNat % 8 = 0) (located : locate s (ctlParty s f.cls) .atomic (.va f.ea) 8 = .error e) :
    atomicX f.d f.cls f.ea f.req f.new s = .next (ctlStop s e) := by
  rw [atomicX, if_neg (mt (bits_low_three_iff _).1 (not_not_intro aligned)), withAccess_error located]

theorem atomicX_misaligned (misaligned : f.ea.toNat % 8 ≠ 0) :
    atomicX f.d f.cls f.ea f.req f.new s = .next (raise s .misaligned f.ea) := if_pos ((bits_low_three_iff _).2 misaligned)

end

/-- What the stream leaves behind an atomic that has performed in state u, with v the state of its memories. -/
theorem doneX_frame {s u v : State} (before : Quiet s u) (write : Quiet u v) (d : Reg) (old : Word) :
    (doneX v d old).job.pc = s.job.pc + 4 ∧ Job.sameRegs (wroteX s d old).job (doneX v d old).job := by
  obtain ⟨⟨⟨x, other⟩, regs⟩, pc, -⟩ := before.trans write
  rw [doneX_eq]
  refine ⟨congrArg (· + 4) pc, ⟨?_, other⟩, regs⟩
  show (if d = 0 then v.job.x else v.job.x.set d old) = if d = 0 then s.job.x else s.job.x.set d old
  rw [x]

theorem getByte_doneX (v : State) (d : Reg) (old : Word) : getByte (doneX v d old) = getByte v := by
  rw [doneX_eq]
  funext sp a
  cases sp <;> rfl

/-- Settles O7: the doubleword is read and written at one moment, behind the stores that must perform before. -/
theorem atomics : Obligations.Atomics := by
  intro i s f form
  rw [exec_atomic form]
  refine ⟨fun aligned x u located hu => ?performs, fun aligned e located => ⟨_, atomicX_unlocated aligned located, ctlStop_stopsAt ..⟩,
    fun aligned x u located hu => ?stops, atomicX_misaligned⟩
  case performs =>
    rw [atomicX_aligned aligned located hu]
    have before : Quiet s u := hu ▸ .drainWhere s _
    refine ⟨fun sp a pol owner old relocated hold => ⟨fun sound fits => ?_, fun bad => ?_⟩, fun dev ddr pa pol owner r relocated answer => ?_⟩
    · cases new : f.new old with
      | none =>
        rw [withAccess_ok (readModify_keeps relocated sound (by rw [ofBytes, ← hold, new]; rfl)), ofBytes, ← hold]
        obtain ⟨pc, regs⟩ := doneX_frame before (.refl u) f.d old
        exact ⟨_, rfl, pc, regs, sameBytes_of_getByte (getByte_doneX ..)⟩
      | some v =>
        rw [withAccess_ok (readModify_writes relocated sound (by rw [ofBytes, ← hold, new]; rfl)), ofBytes, ← hold]
        obtain ⟨pc, regs⟩ := doneX_frame before (.storeLine u sp a owner (toBytes v) false) f.d old
        refine ⟨_, rfl, pc, regs, fun sp' a' has own => ?_⟩
        rw [getByte_doneX]
        exact storeLine_bytes _ _ _ _ _ _ fits sp' a' has own
    · rw [withAccess_error (readModify_poisoned relocated bad)]
      rfl
    · rw [withAccess_ok (readModify_remote relocated answer), ofBytes_word]
      obtain ⟨pc, regs⟩ := doneX_frame before (.refl u) f.d r.result
      exact ⟨_, rfl, pc, regs, sameBytes_of_getByte (getByte_doneX ..)⟩
  case stops =>
    rw [atomicX_aligned aligned located hu]
    refine ⟨fun e unlocated => ?_, fun dev ddr pa pol owner e relocated answer => ?_⟩
    · rw [withAccess_error (readModify_error unlocated)]
      exact ⟨_, rfl, ctlStop_stopsAt ..⟩
    · rw [withAccess_error (readModify_remote_error relocated answer)]
      exact ⟨_, rfl, ctlStop_stopsAt ..⟩

end Sys2Proof.Machine
end

section
/-! SUPPORT. Pending stores as they perform, and the fences (14_ordering.md R305 to R308). -/

namespace Sys2Proof.Machine

/-! ### One after another -/

theorem chainOf_foldl {α : Type} {one : α → State → State → Prop} {f : State → α → State}
    (h : ∀ s x, one x s (f s x)) (l : List α) (s : State) :
    chainOf one l s (l.foldl f s) := by
  induction l generalizing s with
  | nil => rfl
  | cons x l ih => exact ⟨_, h s x, ih _⟩

theorem performedIn_performAll (l : List Pending) (s : State) : performedIn l s (performAll s l) := by
  induction l generalizing s with
  | nil => rfl
  | cons q l ih => exact ⟨_, rfl, ih _⟩

/-- The list parts behind the last entry that p holds of. -/
theorem splitsAt_splitLast (p : Pending → Bool) (l : List Pending) : splitsAt p l (splitLast p l).1 (splitLast p l).2 := by
  induction l with
  | nil => exact ⟨rfl, nofun, .inl rfl⟩
  | cons q l ih =>
    obtain ⟨whole, behind, last⟩ := ih
    rw [splitLast]
    dsimp only
    split
    next none =>
      have done := List.isEmpty_iff.1 none
      rw [done, List.nil_append] at whole
      split
      next here => exact ⟨congrArg _ whole, behind, .inr ⟨[], q, rfl, here⟩⟩
      next away =>
        refine ⟨rfl, fun x hx => ?_, .inl rfl⟩
        obtain rfl | hx := List.mem_cons.1 hx
        · exact Bool.not_eq_true _ ▸ away
        · exact behind x (whole ▸ hx)
    next some =>
      obtain done | ⟨k, x, done, here⟩ := last
      · exact absurd (List.isEmpty_iff.2 done) some
      · exact ⟨congrArg (q :: ·) whole, behind, .inr ⟨q :: k, x, congrArg (q :: ·) done, here⟩⟩

theorem performedUpTo_drainWhere (s : State) (p : Pending → Bool) : performedUpTo p s (drainWhere s p) :=
  ⟨_, _, splitsAt_splitLast p s.job.stores, performedIn_performAll ..⟩

theorem performedUpTo_drainLoad (s : State) (c : Cls) (l : Loc) (n : Nat) :
    performedUpTo (Pending.beforeLoad c (readSpots s (ctlParty s c) l n)) s (drainLoad s c l n) := by
  unfold drainLoad
  split
  next none =>
    have idle := List.isEmpty_iff.1 none
    refine ⟨[], [], ⟨idle, nofun, .inl rfl⟩, ?_⟩
    show s = { s with job := { s.job with stores := [] } }
    rw [← idle]
  next => exact performedUpTo_drainWhere ..

theorem drainWhere_stores (s : State) (p : Pending → Bool) : (drainWhere s p).job.stores = (splitLast p s.job.stores).2 :=
  performAll_stores ..

/-! ### A store that performs -/

theorem stored_performStore (s : State) (q : Pending) : q.stored s (performStore s q) := by
  cases q with
  | fence m => rfl
  | store c sp a owner d =>
    cases owner with
    | none => exact ⟨fun h => absurd rfl h, fun _ fits => storeLine_bytes _ _ _ _ _ _ fits⟩
    | some w =>
      obtain ⟨j, o⟩ := w
      have owned : ownerJob s (some (j, o)) = (findJob s j).map fun x => (x, o) := rfl
      cases found : findJob s j with
      | none =>
        have gone : ownerJob s (some (j, o)) = none := by rw [owned, found]; rfl
        refine ⟨fun _ _ => ?_, fun there => absurd gone (there.resolve_left nofun)⟩
        simp only [performStore, found]
      | some x =>
        have here : ownerJob s (some (j, o)) = some (x, o) := by rw [owned, found]; rfl
        refine ⟨fun _ gone => ?_, fun _ fits => ?_⟩
        · rw [here] at gone
          cases gone
        · have moved : writeTarget s sp a (some (j, o)) = writeTarget s (x.home o).1 (x.home o).2 (some (j, o)) := by
            simp only [writeTarget, here]
          simp only [performStore, found]
          rw [moved] at fits
          have stored := storeLine_bytes s (x.home o).1 (x.home o).2 (some (j, o)) d false fits
          unfold bytesStored at stored ⊢
          rwa [moved]

/-! ### Which store may perform -/

theorem mem_take_iff {α : Type} {l : List α} {k : Nat} {x : α} : x ∈ l.take k ↔ ∃ i, i < k ∧ l[i]? = some x := by
  simp only [List.mem_iff_getElem?, List.getElem?_take]
  refine exists_congr fun i => ?_
  split <;> simp [*]

/-- No entry before the k-th that a store of class c must wait for. -/
theorem noneBefore_iff (l : List Pending) (k : Nat) (c : Cls) (x : Spot) (n : Nat) :
    ((l.take k).any fun e => match e with | .store .. => Pending.before c (some x) n e | .fence _ => false) = false ↔
      ∀ i c' sp' a' o' d', i < k → l[i]? = some (.store c' sp' a' o' d') →
        c' ≠ c ∧ Spot.meets x n (sp', a', o') d'.length = false := by
  simp only [List.any_eq_false, mem_take_iff]
  constructor
  · intro h i c' sp' a' o' d' below here
    simpa [Pending.before] using h _ ⟨i, below, here⟩
  · rintro h y ⟨i, below, here⟩
    cases y with
    | fence m => exact Bool.false_ne_true
    | store c' sp' a' o' d' => simpa [Pending.before] using h i c' sp' a' o' d' below here

/-- No fence before the k-th entry holds class c back: each of that class has no store of its own before it. -/
theorem noFence_iff (l : List Pending) (k : Nat) (c : Cls) :
    ((List.range k).any fun i =>
        match l[i]? with
        | some (.fence m) =>
          bitAt m c.val && (l.take i).any fun e => match e with | .store c' _ _ _ _ => bitAt m c'.val | .fence _ => false
        | _ => false) = false ↔
      ∀ i m, i < k → l[i]? = some (.fence m) → m.getLsbD c.val = true →
        ∀ i' c' sp' a' o' d', i' < i → l[i']? = some (.store c' sp' a' o' d') → m.getLsbD c'.val = false := by
  simp only [List.any_eq_false, List.mem_range]
  refine ⟨fun h i m below here covers i' c' sp' a' o' d' earlier there => ?_, fun h i below => ?_⟩
  · have free := h i below
    simp only [here, bitAt, covers, Bool.true_and, List.any_eq_true, mem_take_iff, not_exists, not_and] at free
    simpa using free _ ⟨i', earlier, there⟩
  · split
    next m here =>
      simp only [Bool.and_eq_true, List.any_eq_true, mem_take_iff, not_and, not_exists, bitAt]
      rintro covers y ⟨i', earlier, there⟩
      cases y with
      | fence m' => exact Bool.false_ne_true
      | store c' sp' a' o' d' => simpa using h i m below here covers i' c' sp' a' o' d' earlier there
    next => exact Bool.false_ne_true

theorem mayPerform_iff (l : List Pending) (k : Nat) : mayPerform l k = true ↔ Pending.first l k := by
  unfold mayPerform Pending.first
  cases entry : l[k]? with
  | none => simp
  | some q =>
    cases q with
    | fence m => simp
    | store c sp a o d =>
      simp only [Bool.and_eq_true, Bool.not_eq_true']
      constructor
      · rintro ⟨stores, fences⟩
        refine ⟨c, sp, a, o, d, rfl, fun i y below here => ⟨?_, ?_⟩⟩
        · rintro c' sp' a' o' d' rfl
          exact (noneBefore_iff l k c _ _).1 stores i c' sp' a' o' d' below here
        · rintro m rfl
          exact (noFence_iff l k c).1 fences i m below here
      · rintro ⟨c₁, sp₁, a₁, o₁, d₁, same, free⟩
        cases same
        exact ⟨(noneBefore_iff l k c _ _).2 fun i c' sp' a' o' d' below here => (free i _ below here).1 c' sp' a' o' d' rfl,
          (noFence_iff l k c).2 fun i m below here => (free i _ below here).2 m rfl⟩

/-- A turn that performs the k-th pending store of the focused job. -/
theorem act_perform {s : State} {k : Nat} {q : Pending} (job : s.job.id ≠ 0) (here : s.job.stores[k]? = some q)
    (first : Pending.first s.job.stores k) : act (.perform s.job.id k) s =
      .next (performStore { s with job := { s.job with stores := trimFences (s.job.stores.eraseIdx k) } } q) := by
  simp only [act, perform, focus_self, bne_self_eq_false, Bool.false_or, decide_eq_false job, (mayPerform_iff _ _).2 first, Bool.not_true,
    Bool.false_eq_true, if_false, here]

theorem act_perform_late {s : State} {k : Nat} (late : ¬Pending.first s.job.stores k) : act (.perform s.job.id k) s = .next s := by
  have may : mayPerform s.job.stores k = false := Bool.eq_false_iff.2 fun h => late ((mayPerform_iff _ _).1 h)
  simp only [act, perform, focus_self, may, Bool.not_false, Bool.or_true, if_true]

/-! ### Fences -/

section
variable (s : State) (m : BitVec 16) (p : Scope)

theorem exec_fenceAcq : exec (.fenceAcq m p) s = .next (wentTo s (s.job.pc + 4)) := rfl

theorem exec_fenceFull : exec (.fenceFull m p) s =
    .next (wentTo (drainWhere s (maskCovers m)) ((drainWhere s (maskCovers m)).job.pc + 4)) := rfl

theorem exec_fenceRel : exec (.fenceRel m p) s = .next (wentTo { s with job := { s.job with
    stores := if s.job.stores.any (maskCovers m) then s.job.stores ++ [.fence m] else s.job.stores } } (s.job.pc + 4)) := rfl

variable {s m}

theorem maskCovers_none (h : ∀ c sp a o d, .store c sp a o d ∈ s.job.stores → m.getLsbD c.val = false) :
    ∀ q ∈ s.job.stores, maskCovers m q = false := by
  rintro (⟨c, sp, a, o, d⟩ | _) there
  · exact h c sp a o d there
  · rfl

theorem maskCovers_some {c : Cls} {sp : Space} {a : Nat} {o : Option (Nat × Nat)} {d : List Byte} (there : .store c sp a o d ∈ s.job.stores)
    (covers : m.getLsbD c.val = true) : s.job.stores.any (maskCovers m) = true :=
  List.any_eq_true.2 ⟨_, there, covers⟩

/-- A release fence over none of the pending stores leaves no mark. -/
theorem exec_fenceRel_none (h : ∀ q ∈ s.job.stores, maskCovers m q = false) :
    exec (.fenceRel m p) s = .next (wentTo s (s.job.pc + 4)) := by
  have none : s.job.stores.any (maskCovers m) = false := List.any_eq_false.2 fun q there => Bool.eq_false_iff.1 (h q there)
  rw [exec_fenceRel, none]
  rfl

theorem exec_fenceRel_some (h : s.job.stores.any (maskCovers m) = true) : exec (.fenceRel m p) s =
    .next (wentTo { s with job := { s.job with stores := s.job.stores ++ [.fence m] } } (s.job.pc + 4)) := by
  rw [exec_fenceRel, if_pos h]

theorem exec_fenceFull_none (h : ∀ q ∈ s.job.stores, maskCovers m q = false) :
    exec (.fenceFull m p) s = .next (wentTo s (s.job.pc + 4)) := by
  rw [exec_fenceFull, drainWhere_none h]

variable (s m)

/-- What a full fence performs, and what it leaves. -/
theorem exec_fenceFull_performs : ∃ t u, exec (.fenceFull m p) s = .next t ∧ t.job.pc = s.job.pc + 4 ∧ Job.sameRegs s.job t.job ∧
    performedUpTo (maskCovers m) s u ∧ t = wentTo u (s.job.pc + 4) ∧
    ∀ c sp a o d, .store c sp a o d ∈ t.job.stores → m.getLsbD c.val = false := by
  obtain ⟨regs, pc, -⟩ := Quiet.drainWhere s (maskCovers m)
  obtain ⟨-, left, -⟩ := splitsAt_splitLast (maskCovers m) s.job.stores
  refine ⟨_, _, exec_fenceFull s m p, congrArg (· + 4) pc, regs, performedUpTo_drainWhere s (maskCovers m), by rw [pc],
    fun c sp a o d there => left (.store c sp a o d) ?_⟩
  rw [← drainWhere_stores]
  exact there

end

end Sys2Proof.Machine
end

section
/-! SUPPORT. WAITA, its wake and its timeout (05_control_core.md R125). -/

namespace Sys2Proof.Machine

/-! ### What an access finds -/

section
variable {s u : State} {p : Party} {c : Cause} {v : Word} {r : FaultRec}

theorem verdict_posted (posted : postFault s r = some u) (other : c ≠ .pteInvalid) : verdict s p (.fault c v r) = .trap u c v := by
  have away : (c == .pteInvalid) = false := beq_eq_false_iff_ne.2 other
  simp only [verdict, posted, away, Bool.false_eq_true, if_false]

theorem verdict_posted_invalid (posted : postFault s r = some u) : verdict s p (.fault .pteInvalid v r) = .dvorol u v := by
  simp only [verdict, posted, beq_self_eq_true, if_true]

theorem verdict_full (full : postFault s r = none) : verdict s p (.fault c v r) = .again s := by simp only [verdict, full]

end

/-! ### A poll of the word -/

/-- The test of a WAITA holds of the word read, or its limit has passed. -/
def waitaEnds (s : State) (v : Word) (ne : Bool) (b : Reg) (t0 : Nat) (limit : Word) : Prop :=
  (ne = true ↔ v ≠ getX s b) ∨ (limit ≠ 0xFFFFFFFFFFFFFFFF ∧ limit.toNat ≤ s.clock - t0)

theorem waitaEnds_iff (s : State) (v : Word) (ne : Bool) (b : Reg) (t0 : Nat) (limit : Word) :
    ((v == getX s b) != ne || (limit != -1 && decide (limit.toNat ≤ s.clock - t0))) = true ↔ waitaEnds s v ne b t0 limit := by
  have test : ((v == getX s b) != ne) = true ↔ (ne = true ↔ v ≠ getX s b) := by cases ne <;> simp
  rw [Bool.or_eq_true, test, Bool.and_eq_true, bne_iff_ne, decide_eq_true_iff]
  rfl

/-- What must perform before the load changes neither a register nor the clock. -/
theorem Quiet.drainLoad (s : State) (c : Cls) (l : Loc) (n : Nat) : Quiet s (drainLoad s c l n) := by
  unfold Machine.drainLoad
  split
  · exact .refl s
  · exact .drainWhere ..

theorem waitaEnds_drainLoad (s : State) (c : Cls) (l : Loc) (n : Nat) : waitaEnds (drainLoad s c l n) = waitaEnds s := by
  obtain ⟨⟨⟨x, -⟩, -⟩, -⟩ := Quiet.drainLoad s c l n
  have clock : (drainLoad s c l n).clock = s.clock := by rw [(Written.drainLoad s c l n).device]
  funext v ne b t0 limit
  simp only [waitaEnds, getX, x, clock]

section
variable {u z t : State} {ea limit : Word} {ne : Bool} {d b : Reg} {c : Cls} {t0 : Nat} {e : Stop} (before : drainLoad u c (.va ea) 8 = z)
include before

section
variable (stop : ctlLoad z c ea 8 = .error e)
include stop

theorem waitaPoll_again (h : verdict z (ctlParty z 0) e = .again t) :
    waitaPoll u ea ne d b c t0 limit = hold t (.waita ea ne d b c t0 limit) := by
  simp only [waitaPoll, before, stop, h]

theorem waitaPoll_trap {c' : Cause} {v : Word} (h : verdict z (ctlParty z 0) e = .trap t c' v) :
    waitaPoll u ea ne d b c t0 limit = raise t c' v := by
  simp only [waitaPoll, before, stop, h, ctlStop]

/-- A restart by Dvorol keeps the start clock (13_memory.md R295). -/
theorem waitaPoll_dvorol {v : Word} (h : verdict z (ctlParty z 0) e = .dvorol t v) :
    (waitaPoll u ea ne d b c t0 limit).job = { t.job with wait := .dvorol .pteInvalid v, waitaFrom := some t0 } := by
  simp only [waitaPoll, before, stop, h, ctlStop, tellContext_job, hold]

end

variable {x : List Byte} (load : ctlLoad z c ea 8 = .ok x)
include load

theorem waitaPoll_ends (ends : waitaEnds u (ofBytes 64 x) ne b t0 limit) :
    waitaPoll u ea ne d b c t0 limit = wroteX (repliesTaken z) d (ofBytes 64 x) := by
  rw [← waitaEnds_drainLoad, before] at ends
  simp only [waitaPoll, before, load, (waitaEnds_iff ..).2 ends, if_true, doneX_eq]

theorem waitaPoll_sleeps (goes : ¬waitaEnds u (ofBytes 64 x) ne b t0 limit) :
    waitaPoll u ea ne d b c t0 limit = hold (repliesTaken z) (.waita ea ne d b c t0 limit) := by
  rw [← waitaEnds_drainLoad, before] at goes
  simp only [waitaPoll, before, load, mt (waitaEnds_iff ..).1 goes]
  rfl

end

/-! ### The instructions -/

section
variable {s : State} {ea limit : Word} {ne : Bool} {d a b : Reg} {c : Cls} {t0 : Nat}

theorem exec_waita (s : State) (ne : Bool) (d a b : Reg) (c : Cls) :
    exec (if ne then .waitaNe d a b c else .waitaEq d a b c) s = waita ne d a b c s := by
  cases ne <;> rfl

theorem exec_waita_misaligned (misaligned : (getX s a).toNat % 8 ≠ 0) :
    exec (if ne then .waitaNe d a b c else .waitaEq d a b c) s = .next (raise s .misaligned (getX s a)) := by
  rw [exec_waita, waita]
  simp only [(bits_low_three_iff _).2 misaligned, if_true]

theorem exec_waita_polls (aligned : (getX s a).toNat % 8 = 0) : exec (if ne then .waitaNe d a b c else .waitaEq d a b c) s =
    .next (waitaPoll (entered s) (getX s a) ne d b c (s.job.waitaFrom.getD s.clock) (getX s d)) := by
  rw [exec_waita, waita]
  simp only [mt (bits_low_three_iff _).1 (not_not_intro aligned)]
  rfl

variable (job : s.job.id ≠ 0) (running : s.job.st = .running) (asleep : s.job.wait = .waita ea ne d b c t0 limit)
include job running asleep

theorem exec_waitaWake_polls : exec (.waitaWake s.job.id) s = .next (waitaPoll s ea ne d b c t0 limit) := by
  show execWaitaWake s.job.id s = _
  simp [execWaitaWake, focus_self, asleep, running, job]

theorem exec_waitaTimeout_polls (bounded : limit ≠ 0xFFFFFFFFFFFFFFFF) (passed : limit.toNat ≤ s.clock - t0) :
    exec (.waitaTimeout s.job.id) s = .next (waitaPoll s ea ne d b c t0 limit) := by
  have some : (limit != -1) = true := bne_iff_ne.2 bounded
  show execWaitaTimeout s.job.id s = _
  simp only [execWaitaTimeout, focus_self, asleep, running, some, passed, bne_iff_ne.2 job, beq_self_eq_true, decide_true, Bool.and_self, if_true]

end

/-! ### The obligation -/

/-- Settles O8: a fence over the pending stores, the stores as they perform, and the polls of a WAITA. -/
theorem fencesAndWaits : Obligations.FencesAndWaits := by
  refine ⟨fun s m p => ⟨exec_fenceAcq s m p, fun none => ?uncovered, ?covered, ?full⟩,
    fun s q => ⟨stored_performStore s q, (Written.performStore s q).job.sameRegs, performStore_stores s q⟩,
    fun s c x n job => ⟨performedIn_performAll .., performedUpTo_drainWhere .., fun l => performedUpTo_drainLoad s c l n, ?settled⟩,
    fun s k job => ⟨fun q => act_perform job, act_perform_late⟩, ?waits⟩
  case uncovered => exact ⟨exec_fenceRel_none p (maskCovers_none none), exec_fenceFull_none p (maskCovers_none none)⟩
  case covered =>
    rintro ⟨c, sp, a, o, d, there, covers⟩
    exact exec_fenceRel_some p (maskCovers_some there covers)
  case full =>
    obtain ⟨t, u, performs⟩ := exec_fenceFull_performs s m p
    exact ⟨t, u, maskCovers m, fun q => by cases q <;> rfl, performs⟩
  case settled =>
    exact chainOf_foldl (fun s j => ⟨_, _, splitsAt_splitLast .., performedIn_performAll ..⟩) ..
  case waits =>
    intro s u z d a b c ne i ea limit t0 form hz
    have polls (aligned : ea.toNat % 8 = 0) : exec i s = .next (waitaPoll u ea ne d b c t0 limit) := by
      obtain ⟨rfl, rfl, rfl, rfl, rfl⟩ | ⟨rfl, rfl, job, running, asleep⟩ | ⟨rfl, rfl, job, running, asleep, bounded, passed⟩ := form
      · rw [exec_waita_polls aligned]
        cases s.job.waitaFrom <;> rfl
      · exact exec_waitaWake_polls job running asleep
      · exact exec_waitaTimeout_polls job running asleep bounded passed
    obtain ⟨entry, ends⟩ : Quiet s u ∧ waitaEnds u = waitaEnds s := by
      obtain ⟨-, rfl, -⟩ | ⟨-, rfl, -⟩ | ⟨-, rfl, -⟩ := form
      · exact ⟨.refl s, rfl⟩
      · exact ⟨.refl _, rfl⟩
      · exact ⟨.refl _, rfl⟩
    obtain ⟨regs, pc, -, id, -⟩ : Quiet s z := hz ▸ entry.trans (.drainLoad ..)
    refine ⟨fun aligned ch read => ⟨?read, fun bad => ?poisoned⟩, fun aligned e read => ?stopped, fun misaligned same => ?misaligned⟩
    case read =>
      rintro sound v rfl
      have load := ctlLoad_ok (by decide) aligned read sound
      refine ⟨fun met => ?_, fun holds bound => ?_⟩
      · rw [polls aligned, waitaPoll_ends hz.symm load (ends ▸ met)]
        rfl
      · have goes : ¬waitaEnds s (ofBytes 64 ch.data) ne b t0 limit := fun met =>
          met.elim holds fun ⟨bounded, passed⟩ => bound.elim bounded fun early => absurd passed (Nat.not_le_of_lt early)
        rw [polls aligned, waitaPoll_sleeps hz.symm load (ends ▸ goes)]
        rfl
    case poisoned =>
      rw [polls aligned, waitaPoll_trap hz.symm (ctlLoad_poisoned (by decide) aligned read bad) rfl]
      rfl
    case stopped =>
      have load := ctlLoad_error (by decide) aligned read
      have keeps {t : State} (h : verdict z (ctlParty z 0) e = .again t) : exec i s = .next (hold t (.waita ea ne d b c t0 limit)) := by
        rw [polls aligned, waitaPoll_again hz.symm load h]
      have traps {t : State} {c' : Cause} {v : Word} (h : verdict z (ctlParty z 0) e = .trap t c' v) : exec i s = .next (raise t c' v) := by
        rw [polls aligned, waitaPoll_trap hz.symm load h]
      refine ⟨fun c' v stop => ?_, fun c' v r w stop other posted => ?_, fun v r w stop posted => ?_, fun stop => ?_, fun q g stop => ?_⟩
      · rw [← id]
        obtain rfl | ⟨acc, rfl⟩ := stop
        · exact traps rfl
        · exact traps rfl
      · subst stop
        exact traps (verdict_posted posted other)
      · subst stop
        have job := waitaPoll_dvorol (limit := limit) (ne := ne) (d := d) (b := b) (t0 := t0) hz.symm load (verdict_posted_invalid posted)
        rw [postFault_job posted] at job
        refine ⟨_, polls aligned, ?_⟩
        rw [job]
        exact ⟨rfl, rfl, pc, regs⟩
      · obtain rfl | ⟨m, rfl⟩ | ⟨c', v, r, rfl, full⟩ := stop
        · exact keeps rfl
        · exact keeps rfl
        · exact keeps (verdict_full full)
      · subst stop
        exact ⟨_, rfl, keeps rfl⟩
    case misaligned =>
      obtain ⟨-, -, rfl, -⟩ | ⟨rfl, -⟩ | ⟨rfl, -⟩ := form
      · rw [same, exec_waita_misaligned misaligned]
      all_goals cases ne <;> cases same

end Sys2Proof.Machine
end

section
/-! SUPPORT. Where the instructions on the queues, the fences and the waits complete (05_control_core.md, 07_queues.md, 14_ordering.md). -/

namespace Sys2Proof.Machine

variable {s : State}

/-- A segment word below 2 ^ 24, at a multiple of 4 within the section of each queue named, is one that PUSH takes (R165). -/
theorem not_pushBad {m : EngMask} {v : Word} (low : v.toNat < 2 ^ 24) (aligned : v.toNat % 4 = 0)
    (within : ∀ e, maskHas m e = true → ∃ x, sectionOf s s.job (streamKind e) = some x ∧ v.toNat < x.bytes) : ¬pushBad s m v := by
  have tag : v.extractLsb' 24 8 = 0 := BitVec.eq_of_toNat_eq (by simp [BitVec.extractLsb'_toNat, Nat.shiftRight_eq_div_pow]; omega)
  have bits : v.extractLsb' 0 2 = 0 := BitVec.eq_of_toNat_eq (by simp [BitVec.extractLsb'_toNat, aligned])
  have start : (v.extractLsb' 0 24).toNat = v.toNat := by simp [BitVec.extractLsb'_toNat]; omega
  rintro ⟨e, named, high | odd | beyond⟩
  · exact high tag
  · exact odd bits
  · obtain ⟨x, sec, inside⟩ := within e named
    exact absurd (beyond x sec) (by omega)

theorem EngStream.queued_idle {x : EngStream} (queue : x.queue = []) (late : x.late = []) (p : QEntry → Bool) :
    x.queued (x.queue.filter p) = x := by
  obtain ⟨⟩ := x
  cases queue
  cases late
  rfl

/-- Nothing is cut where nothing is queued. -/
theorem exec_qcut_idle {a : Reg} (idle : ∀ e, (s.job.eng e).queue = [] ∧ (s.job.eng e).late = []) :
    exec (.qcut a) s = .next (wentTo s (s.job.pc + 4)) := by
  have ld : s.job.ld.queue = [] ∧ s.job.ld.late = [] := idle .ld
  have mx : s.job.mx.queue = [] ∧ s.job.mx.late = [] := idle .mx
  have vx : s.job.vx.queue = [] ∧ s.job.vx.late = [] := idle .vx
  have st : s.job.st'.queue = [] ∧ s.job.st'.late = [] := idle .st
  have balanced : ∀ p ∈ s.job.cutCounts ((getX s a).extractLsb' 0 32), p.1 = p.2 := by
    simp [Job.cutCounts, Job.cutTokens, ld.1, mx.1, vx.1, st.1]
  rw [exec_qcut_cuts rfl balanced, EngStream.queued_idle ld.1 ld.2, EngStream.queued_idle mx.1 mx.2, EngStream.queued_idle vx.1 vx.2,
    EngStream.queued_idle st.1 st.2]

/-- Settles O11, from what each of the instructions leaves. -/
theorem controlCompletes : Obligations.ControlCompletes := by
  refine fun s d a b c m k p => ⟨⟨_, exec_fenceAcq s k p, rfl, Job.sameRegs_refl _⟩,
    ⟨_, exec_fenceRel s k p, rfl, Job.sameRegs_refl _⟩, ?full, ?waita, ?asleep, ?push, fun w r => exec_popr_takes, exec_qcut_idle, ?ltrim, ?mbs, ?mbr⟩
  case full =>
    obtain ⟨t, u, run, pc, regs, -⟩ := exec_fenceFull_performs s k p
    exact ⟨t, run, pc, regs⟩
  case waita =>
    rintro _ h _ aligned rfl read sound rfl
    have load := ctlLoad_ok (by decide) aligned read sound
    have done (ne : Bool) (test : ne = true ↔ ofBytes 64 h.data ≠ getX s b) := (exec_waita_polls (d := d) aligned).trans
      (congrArg _ (waitaPoll_ends (u := entered s) (d := d) (limit := getX s d) (t0 := s.job.waitaFrom.getD s.clock) rfl load (.inl test)))
    exact ⟨fun same => done false (by simp [ofBytes, same]), fun other => done true (by simpa [ofBytes] using other)⟩
  case asleep =>
    rintro _ ea ne t0 limit h _ job running asleep aligned rfl read sound rfl
    have load := ctlLoad_ok (by decide) aligned read sound
    refine ⟨fun test => ?_, fun bounded passed => ?_⟩
    · rw [exec_waitaWake_polls job running asleep, waitaPoll_ends rfl load (.inl test)]
      rfl
    · rw [exec_waitaTimeout_polls job running asleep bounded passed, waitaPoll_ends rfl load (.inr ⟨bounded, passed⟩)]
      rfl
  case push =>
    intro free low aligned
    obtain ⟨pc, -, -, eng⟩ := pushed_segment (s := s) (m := m) (getX s a) _ rfl
    refine ⟨_, exec_push_appends (not_pushBad low aligned fun e named => (free e named).2) fun e named => (free e named).1, pc,
      fun e named => ?_⟩
    rw [eng e, if_pos named]
  case ltrim =>
    obtain ⟨only, -⟩ := trimmed_frame s.job s.clock m (getX s a)
    exact ⟨_, exec_ltrim, rfl, only.sameRegs⟩
  case mbs =>
    intro q partner other room
    obtain ⟨pc, -, -, sent⟩ := sent_message partner other (getX s a) _ rfl
    exact ⟨_, exec_mbs_sends partner room, pc, sent⟩
  case mbr =>
    intro q w r partner box
    exact exec_mbr_takes (by simp) partner box

end Sys2Proof.Machine
end

section
/-! SUPPORT. Shape registers and handles at the control core (06_registers.md R138 to R141, R153): what goes down the engine queues, and the
fields of a record. -/

namespace Sys2Proof.Machine

/-! ### Entries for every engine -/

theorem allRoom_iff (j : Job) : j.allRoom = true ↔ j.queuesFree := by
  simp only [Job.allRoom, List.all_eq_true, mem_engines, forall_const, Job.queueRoom, decide_eq_true_eq]
  exact ⟨fun h => ⟨h .ld, h .mx, h .vx, h .st⟩, fun ⟨ld, mx, vx, st⟩ e => by cases e <;> assumption⟩

theorem enqueueAll_eq (j : Job) (q : QEntry) : j.enqueueAll q = j.allAppended q := rfl

theorem noRoom {j : Job} (full : ¬j.queuesFree) : (!j.allRoom) = true := by
  rw [Bool.not_eq_true', Bool.eq_false_iff, ne_eq, allRoom_iff]
  exact full

section
variable {s : State}

theorem exec_sets_sends {n : Fin 32} {a : Reg} (free : s.job.queuesFree) : exec (.sets n a) s = .next (wentTo
    { s with job := { s.job.allAppended (.set n ((getX s a).extractLsb' 0 32) s.job.itag) with
      shapes := s.job.shapes.set n ((getX s a).extractLsb' 0 32) } } (s.job.pc + 4)) := by
  show execSets n a s = _
  simp only [execSets, (allRoom_iff _).2 free, Bool.not_true, Bool.false_eq_true, if_false, enqueueAll_eq]
  rfl

theorem exec_sets_waits {n : Fin 32} {a : Reg} (full : ¬s.job.queuesFree) :
    exec (.sets n a) s = .next (waitsAt s (.qstall [.ld, .mx, .vx, .st])) := by
  show execSets n a s = _
  rw [execSets, if_pos (noRoom full)]
  rfl

theorem exec_gets (d : Reg) (n : Fin 32) : exec (.gets d n) s = .next (wroteX s d (s.job.shapes[n].setWidth 64)) := next_retireX rfl

/-! ### Fields of a record -/

theorem HField.place_within (f : HField) : (HField.place f).1 + (HField.place f).2 ≤ 512 := by cases f <;> decide

/-- The signed fields are the strides. -/
theorem HField.signed_iff (f : HField) : HField.signed f = true ↔ f = .str0 ∨ f = .str1 ∨ f = .str2 ∨ f = .str3 := by cases f <;> decide

theorem HField.place_of_signed {f : HField} (h : HField.signed f = true) : (HField.place f).2 = 32 := by
  obtain rfl | rfl | rfl | rfl := (HField.signed_iff f).1 h <;> rfl

theorem field_eq (v : Layout) (start len : Nat) : v.toNat / 2 ^ start % 2 ^ len = (v.extractLsb' start len).toNat := by
  rw [BitVec.extractLsb'_toNat, Nat.shiftRight_eq_div_pow]

theorem sint_toNat {w : Nat} (v : BitVec w) : sint w v.toNat = v.toInt := by rw [sint, BitVec.ofNat_toNat, BitVec.setWidth_eq]

theorem exec_hset_sends {n : Fin 16} {a : Reg} {f : HField} (free : s.job.queuesFree) : ∀ v : Layout,
    v = setBits s.job.handles[n] (HField.place f).1 (HField.place f).2 (getX s a).toNat → exec (.hset n a f) s = .next (wentTo
      { s with job := { s.job.allAppended (.hnd n v s.job.itag) with handles := s.job.handles.set n v } } (s.job.pc + 4)) := by
  rintro _ rfl
  show execHset n a f s = _
  simp only [execHset, (allRoom_iff _).2 free, Bool.not_true, Bool.false_eq_true, if_false, Job.setHandle, enqueueAll_eq]
  rfl

theorem exec_hset_waits {n : Fin 16} {a : Reg} {f : HField} (full : ¬s.job.queuesFree) :
    exec (.hset n a f) s = .next (waitsAt s (.qstall [.ld, .mx, .vx, .st])) := by
  show execHset n a f s = _
  simp only [execHset, noRoom full, if_true]
  rfl

theorem exec_hget (d : Reg) (n : Fin 16) (f : HField) (v : Word)
    (h : v = if HField.signed f = true then BitVec.ofInt 64 (s.job.handles[n].extractLsb' (HField.place f).1 (HField.place f).2).toInt
      else (s.job.handles[n].extractLsb' (HField.place f).1 (HField.place f).2).setWidth 64) :
    exec (.hget d n f) s = .next (wroteX s d v) := by
  show execHget d n f s = _
  simp only [execHget]
  rw [h, retireX_eq_wroteX, field_eq, sint_toNat, BitVec.ofNat_toNat]

/-! ### A record loaded -/

theorem giveHandle_sends {n : Fin 16} {v : Layout} (free : s.job.queuesFree) : giveHandle s n v = wentTo
    { s with job := { s.job.allAppended (.hnd n v s.job.itag) with handles := s.job.handles.set n v } } (s.job.pc + 4) :=
  (if_pos ((allRoom_iff _).2 free)).trans (by rw [Job.setHandle, enqueueAll_eq]; rfl)

theorem giveHandle_waits {n : Fin 16} {v : Layout} (full : ¬s.job.queuesFree) : giveHandle s n v = waitsAt s (.handing n v) :=
  if_neg (mt (allRoom_iff _).1 full)

end

/-- Settles O9: an entry for every engine or the wait for room, the fields of a record, and the record that HLD reads. -/
theorem handles : Obligations.Handles := by
  refine ⟨?shapes, ?fields, ?load⟩
  case shapes =>
    rintro s d a n _ rfl
    exact ⟨exec_sets_sends, exec_sets_waits, exec_gets d n⟩
  case fields =>
    intro s d a n f start len place
    obtain ⟨rfl, rfl⟩ : start = (HField.place f).1 ∧ len = (HField.place f).2 := by rw [← place]; exact ⟨rfl, rfl⟩
    refine ⟨fun free => ⟨_, fun k => ?_, exec_hset_sends free _ rfl⟩, exec_hset_waits, ?_⟩
    · rw [getLsbD_setBits _ _ _ (HField.place_within f)]
      rfl
    · refine exec_hget d n f _ ?_
      by_cases signed : HField.signed f = true
      · rw [if_pos signed, if_pos ((HField.signed_iff f).1 signed), HField.place_of_signed signed]
        rfl
      · rw [if_neg signed, if_neg (mt (HField.signed_iff f).2 signed)]
  case load =>
    rintro s _ n a c o _ rfl rfl
    refine ⟨fun aligned ch read => ⟨fun sound => ?sound, fun bad => ?poisoned⟩, fun misaligned => ?misaligned⟩
    case sound =>
      rintro _ rfl
      have loaded : exec (.hld n a c o) s = .next (giveHandle (repliesTaken _) n (ofBytes 512 ch.data)) :=
        congrArg _ ((withLoad_aligned (by decide) aligned _).trans (withAccess_ok (ctlLoad_ok (by decide) aligned read sound)))
      rw [loaded]
      exact ⟨fun free => congrArg _ (giveHandle_sends free), fun full => congrArg _ (giveHandle_waits full)⟩
    case poisoned =>
      exact congrArg _ ((withLoad_aligned (by decide) aligned _).trans (withAccess_error (ctlLoad_poisoned (by decide) aligned read bad)))
    case misaligned => exact congrArg _ (withLoad_misaligned (by decide) misaligned _)

end Sys2Proof.Machine
end

section
/-! SUPPORT. A turn of an operation of the load and store engines (06_registers.md R161, R162): its checks, its end, and one unit of it. -/

namespace Sys2Proof.Machine

/-- Behind unit u of total, in a turn of one unit: the operation has completed, or stands before the next unit with its progress. -/
def unitDone (w : State) (e : Engine) (prog : Nat → Nat) (total u : Nat) (fl : Flags) : State :=
  let w := takeReplies w (.eng w.job.id e)
  if total ≤ u + 1 then completeOp w e fl else noteProgress w e (prog (u + 1)) fl

/-- What r gives for an operation of engine e in state s that stands before unit u of total: it completes, or makes that one unit of it, which
it begins in state c. -/
structure OneUnit (r : Result) (s c : State) (e : Engine) (prog : Nat → Nat) (total u : Nat) (unit : Except Stop (State × Flags)) : Prop where
  ended : total ≤ u → r = .next (completeOp s e 0)
  made : u < total → ∀ w fl, unit = .ok (w, fl) → r = .next (unitDone w e prog total u fl)
  stopped : u < total → ∀ y, unit = .error y → r = .next (stopOp c e (prog u) 0 y)

theorem OneUnit.congr {r : Result} {s c : State} {e : Engine} {prog : Nat → Nat} {total u : Nat} {x y : Except Stop (State × Flags)}
    (h : OneUnit r s c e prog total u x) (same : u < total → x = y) : OneUnit r s c e prog total u y :=
  ⟨h.ended, fun left => same left ▸ h.made left, fun left => same left ▸ h.stopped left⟩

/-- An operation that keeps nothing stays as it is. -/
theorem mapStarted_started (l : List PipeItem) : mapStarted (fun o => [.started o]) l = l := by
  induction l with
  | nil => rfl
  | cons q l ih =>
    cases q with
    | started o => rfl
    | _ => exact congrArg _ ih

theorem keepOp_nothing (s : State) (e : Engine) : keepOp s e (fun o => o.keep []) = s := by
  show { s with job := s.job.updEng e fun x => { x with pipe := mapStarted (fun o => [.started o]) x.pipe } } = s
  simp only [mapStarted_started]
  cases e <;> rfl

/-- What is kept is told by the started operation. -/
theorem mapStarted_congr {f g : IOp → List PipeItem} {l : List PipeItem} (h : ∀ o, startedOp l = some o → f o = g o) :
    mapStarted f l = mapStarted g l := by
  induction l with
  | nil => rfl
  | cons q l ih =>
    cases q with
    | started o => exact congrArg (· ++ l) (h o rfl)
    | _ => exact congrArg _ (ih h)

theorem keepOp_congr {s : State} {e : Engine} {f g : IOp → IOp} (h : f (curOp s.job e) = g (curOp s.job e)) : keepOp s e f = keepOp s e g := by
  have same : mapStarted (fun o => [.started (f o)]) (s.job.eng e).pipe = mapStarted (fun o => [.started (g o)]) (s.job.eng e).pipe :=
    mapStarted_congr fun o ho => by
      have cur : curOp s.job e = o := by simp only [curOp, ho, Option.getD_some]
      rw [← cur, h]
  simp only [keepOp, Job.updEng, same]

/-- The party of an engine is told by the job alone, which what an operation keeps leaves as it is. -/
theorem engParty_keepOp (s : State) (d e : Engine) (f : IOp → IOp) (c : Cls) : engParty (keepOp s d f) e c = engParty s e c := by
  cases d <;> rfl

section
variable {e : Engine} {i : Instr} {s : State} {total : IOp → Nat} {k : IOp → Nat → State → Except Stop (State × Flags)}

theorem lsRun_fault {prog first : IOp → Nat → Nat} {vecs : IOp → Nat → State → Vecs} {c : Cause} {v : Word}
    (bad : lsCheck e s.job (curOp s.job e) i = some (c, v)) : lsRun e i s total k prog first vecs = .next (trapOp s e c v 0) := by
  simp only [lsRun, bad]

theorem lsRun_ended {prog first : IOp → Nat → Nat} {vecs : IOp → Nat → State → Vecs} {o : IOp} (op : o = curOp s.job e)
    (ok : lsCheck e s.job o i = none) (h : total o ≤ first o o.prog) : lsRun e i s total k prog first vecs = .next (completeOp s e 0) := by
  subst op
  simp only [lsRun, ok, unitLoop_done _ h]

variable {o : IOp} (op : o = curOp s.job e) (ok : lsCheck e s.job o i = none) (units : s.units = 1)
include op ok units

theorem lsRun_turn (prog first : IOp → Nat → Nat) (vecs : IOp → Nat → State → Vecs) {u : Nat} (hu : u = first o o.prog) :
    OneUnit (lsRun e i s total k prog first vecs) s (keepOp s e fun y => y.keep (vecs o u s)) e (prog o) (total o) u
      (k o u (keepOp s e fun y => y.keep (vecs o u s))) := by
  have kept : (keepOp s e fun y => y.keep (vecs y u s)) = keepOp s e fun y => y.keep (vecs o u s) := keepOp_congr (by rw [op])
  have run : lsRun e i s total k prog first vecs = .next (unitLoop e (prog o) (k o) (fun u s => keepOp s e fun y => y.keep (vecs y u s))
      (total o - u) 1 u 0 s) := by
    subst op hu
    simp only [lsRun, ok, turnUnits_one units]
  refine ⟨fun past => lsRun_ended op ok (hu ▸ past), fun left w fl unit => ?made, fun left y unit => ?stopped⟩
  case made =>
    obtain ⟨n, hn⟩ : ∃ n, total o - u = n + 1 := ⟨total o - u - 1, by omega⟩
    rw [run, hn, unitLoop]
    simp only [kept, unit, noFlags_or, unitDone]
    cases n with
    | zero => rw [unitLoop, if_pos (by omega)]
    | succ n => rw [unitLoop, if_neg (by omega)]
  case stopped =>
    rw [run, unitLoop_stop left 0 (by rw [kept]; exact unit), kept]

/-- An operation that keeps nothing begins its unit in the state of its turn. -/
theorem lsRun_turn_plain (prog first : IOp → Nat → Nat) {u : Nat} (hu : u = first o o.prog) :
    OneUnit (lsRun e i s total k prog first) s s e (prog o) (total o) u (k o u s) := by
  have turn := lsRun_turn (k := k) op ok units prog first (fun _ _ _ => []) hu (total := total)
  rwa [keepOp_nothing] at turn

end

/-! ### Tiles moved by elements, and raw (R155) -/

/-- The tile operation moves E2M1S blocks raw. -/
def rawTile (t : TileOp) : Bool := t.fr == .e2m1s && !t.scales

theorem rawTile_iff (t : TileOp) : rawTile t = true ↔ t.fr = .e2m1s ∧ t.scales = false := by
  simp [rawTile]

section
variable {t : TileOp} (o : IOp)

theorem tileUnits_elems (h : ¬rawTile t = true) : tileUnits o t = tileTotal t.scales (countOf o t.tr) (countOf o t.tc) := if_neg h

theorem tileProg_elems (h : ¬rawTile t = true) : tileProg t o = fun u => u := funext fun _ => if_neg h

theorem tileFirst_elems (h : ¬rawTile t = true) (p : Nat) : tileFirst t o p = p := if_neg h

variable (k : Nat) (s : State)

theorem ldtUnit_elems (h : ¬rawTile t = true) : ldtUnit t o k s = loadTo s (engParty s .ld t.hdr.cls) (curOp s.job .ld) (opHandle o t.h) t.reg
    t.fr t.rm t.hdr.sat t.scales k (tileElem s (engParty s .ld t.hdr.cls) o t (opHandle o t.h) k) := if_neg h

theorem sttUnit_elems (h : ¬rawTile t = true) : sttUnit t o k s = storeFrom s (engParty s .st t.hdr.cls) (opHandle o t.h) t.reg
    t.fr t.rm t.hdr.sat t.scales (tileElem s (engParty s .st t.hdr.cls) o t (opHandle o t.h)) (tileUnits o t) k := if_neg h

end

end Sys2Proof.Machine
end

section
/-! SUPPORT. What a unit of a load leaves in the registers (06_registers.md R134, R154, R155, R157, R158). -/

namespace Sys2Proof.Machine

/-! ### Bytes that stay -/

section
variable {r : RegSlot} {lo hi a : Nat}

theorem clear_main (h : ∀ i, r = .main i → a < 4096 * i.val + lo ∨ 4096 * i.val + hi ≤ a) : Clear r false lo hi a := by
  intro x hx
  cases r <;> simp only [destPlace, Option.some.injEq, Prod.mk.injEq, reduceCtorEq, false_and, true_and] at hx
  exact hx ▸ h _ rfl

theorem clear_opnd (h : ∀ i, r = .opnd i → a < 4096 * i.val + lo ∨ 4096 * i.val + hi ≤ a) : Clear r true lo hi a := by
  intro x hx
  cases r <;> simp only [destPlace, Option.some.injEq, Prod.mk.injEq, reduceCtorEq, false_and, true_and] at hx
  exact hx ▸ h _ rfl

end

/-- The bytes of one element: as many as its width takes, from its first one on. -/
theorem elem_bytes (f : Fmt) (u : Nat) : (Fmt.bits f * (u + 1) + 7) / 8 = Fmt.bits f * u / 8 + (Fmt.bits f + 7) / 8 := by
  obtain w | ⟨m, hm, w⟩ := bits_cases f
  · rw [w]
    omega
  · rw [w, Nat.mul_assoc, Nat.mul_assoc, Nat.mul_add]
    omega

theorem elemWrote_setReg (s : State) (r : RegSlot) (f : Fmt) (u v : Nat) : elemWrote s (setReg s r f u v) r f u v := by
  refine ⟨congrArg (fun j => { s with job := j }) (setElem_onlyFiles s.job r f u v), fun dest k => regElem_setElem _ _ _ _ _ _ dest,
    fun a outside => file_setElem (b := false) s.job r f u v a (clear_main ?_),
    fun a outside => file_setElem (b := true) s.job r f u v a (clear_opnd ?_)⟩ <;>
  · rw [elem_bytes]
    simpa only [Nat.add_assoc] using outside

theorem regBytesWrote_setRegBytes (s : State) (r : RegSlot) (lo : Nat) (d : List Nat) : regBytesWrote s (setRegBytes s r lo d) r lo d := by
  have files : s.job.onlyFiles (setRegBytes s r lo d).job := .foldl (fun _ _ => setRegByte_onlyFiles ..) _ _
  refine ⟨congrArg (fun j => { s with job := j }) files, fun dest k hk => ?_,
    fun a outside => file_setBytes (b := false) s.job r lo d.length a (fun i => d.getD i 0) (clear_main ?_),
    fun a outside => file_setBytes (b := true) s.job r lo d.length a (fun i => d.getD i 0) (clear_opnd ?_)⟩
  · refine (regByte_setBytes s.job r lo d.length (fun i => d.getD i 0) (lo + k) dest).trans ?_
    rw [if_pos (by omega), Nat.add_sub_cancel_left]
  · simpa only [Nat.add_assoc] using outside
  · simpa only [Nat.add_assoc] using outside

/-! ### Loads of elements -/

/-- The operations of the load engine run unit by unit. -/
theorem exec_loads {i : Instr} (load : ∃ a, i = .ldt a ∨ (∃ b, i = .ldv b) ∨ (∃ b q, i = .ldb b q) ∨ (∃ b, i = .ldg b) ∨ ∃ b, i = .ldz b)
    (s : State) : ∃ total k prog first vecs, exec i s = lsRun .ld i s total k prog first vecs := by
  obtain ⟨t, rfl | ⟨l, rfl⟩ | ⟨l, q, rfl⟩ | ⟨y, rfl⟩ | ⟨z, rfl⟩⟩ := load
  · exact ⟨_, _, _, _, _, show execLdt t s = _ from rfl⟩
  · exact ⟨_, _, _, _, _, show execLdv l s = _ from rfl⟩
  · exact ⟨_, _, _, _, _, show execLdb l q s = _ from rfl⟩
  · exact ⟨_, _, _, _, _, show execLdg y s = _ from rfl⟩
  · exact ⟨_, _, _, _, _, show execLdz z s = _ from rfl⟩

/-- A unit of a load of elements, with what LDB keeps of it: the element that e names, loaded into its place. -/
def loadedTo (c : State) (p : Party) (h : Hnd) (x : LsInfo) (f : LsForm) (i : Instr) (u : Nat) (e : Except Stop (Option Int)) :
    Except Stop (State × Flags) :=
  match loadTo c p (curOp c.job .ld) h x.reg x.fr f.rm f.sat x.scales u e with
  | .error y => .error y
  | .ok (w, fl) => .ok (ldValued w x u i, fl)

section
variable {c : State} {p : Party} {h : Hnd} {x : LsInfo} {f : LsForm} {i : Instr} {u : Nat}

theorem loadedTo_eq (plain : ∀ w, ldValued w x u i = w) (e : Except Stop (Option Int)) :
    loadedTo c p h x f i u e = loadTo c p (curOp c.job .ld) h x.reg x.fr f.rm f.sat x.scales u e := by
  simp only [loadedTo, plain]
  cases loadTo c p (curOp c.job .ld) h x.reg x.fr f.rm f.sat x.scales u e <;> rfl

theorem loadedTo_error (e : Stop) : loadedTo c p h x f i u (.error e) = .error e := rfl

theorem loadedTo_absent : loadedTo c p h x f i u (.ok none) = .ok (ldValued (setReg c x.reg x.fr u 0) x u i, 0) := rfl

theorem loadedTo_elem {e : Int} {v : Nat} {fl : Flags} (data : loadElem c p (curOp c.job .ld) h x.fr f.rm f.sat x.scales e = .ok (v, fl)) :
    loadedTo c p h x f i u (.ok (some e)) = .ok (ldValued (setReg c x.reg x.fr u v) x u i, fl) := by
  simp only [loadedTo, loadTo, data]

theorem loadedTo_stop {e : Int} {y : Stop} (data : loadElem c p (curOp c.job .ld) h x.fr f.rm f.sat x.scales e = .error y) :
    loadedTo c p h x f i u (.ok (some e)) = .error y := by
  simp only [loadedTo, loadTo, data]

end

/-- Element k of a linear operation of enough units. -/
theorem linElem_eq {s : State} {p : Party} {o : IOp} {l : LinOp} {h : Hnd} {n k : Nat} (within : k < n) :
    linElem s p o l h n k = linearElem l s p o h k := if_pos within

theorem ldvUnit_eq (l : LinOp) {o : IOp} {k : Nat} {s : State} (op : o = curOp s.job .ld) (within : k < linUnits o l) :
    ldvUnit l o k s = loadTo s (engParty s .ld l.hdr.cls) (curOp s.job .ld) (opHandle o l.h) l.reg l.fr l.rm l.hdr.sat l.scales k
      (linearElem l s (engParty s .ld l.hdr.cls) o (opHandle o l.h) k) := by
  simp only [ldvUnit, linElem_eq within, ← op]

/-- Of LDB the first pass reads the elements, and keeps their values. -/
theorem ldbUnit_first (l : LinOp) {o : IOp} {k : Nat} {s : State} (op : o = curOp s.job .ld) (within : k < linUnits o l) :
    ldbUnit l o k s = (match loadTo s (engParty s .ld l.hdr.cls) (curOp s.job .ld) (opHandle o l.h) l.reg l.fr l.rm l.hdr.sat l.scales k
      (linearElem l s (engParty s .ld l.hdr.cls) o (opHandle o l.h) k) with
    | .error y => .error y
    | .ok (w, fl) => .ok (keepOp w .ld fun o => { o with vals := regElem w.job l.reg l.fr k :: o.vals }, fl)) := by
  simp only [ldbUnit, Nat.not_le.2 within, if_false, linElem_eq within, ← op] <;> rfl

/-- A raw block loaded into its place of the registers. -/
def rawLoaded (c : State) (p : Party) (t : TileOp) (h : Hnd) (u : Nat) (e : Except Stop (Option Int)) : Except Stop (State × Flags) :=
  match e with
  | .error y => .error y
  | .ok none => .ok (setRegBytes c t.reg (rawByte u) (List.replicate 18 0), 0)
  | .ok (some e) =>
    match readData c p (hndLoc h p.job (h.base + 18 * (e / 32))) 18 none with
    | .error y => .error y
    | .ok d => .ok (setRegBytes c t.reg (rawByte u) (rawBlock d), flIf (d.any Prod.snd) flPOI)

theorem ldtUnit_raw {t : TileOp} (o : IOp) (k : Nat) (s : State) (h : rawTile t = true) : ldtUnit t o k s =
    rawLoaded s (engParty s .ld t.hdr.cls) t (opHandle o t.h) k (blockElem s (engParty s .ld t.hdr.cls) o t (opHandle o t.h) k) :=
  if_pos h

/-- The bytes of a raw block, element by element. -/
theorem rawBlock_eq (d : List (Byte × Bool)) : rawBlock d = (List.range d.length).map fun k =>
    if k < 16 ∧ (d[16]?.map Prod.snd) = some true then 0 else (d[k]?.map fun b => b.1.toNat).getD 0 := by
  refine List.map_congr_left fun k hk => ?_
  have there := List.getElem?_eq_getElem (List.mem_range.1 hk)
  have scale : (d.getD 16 (0, false)).2 = true ↔ d[16]?.map Prod.snd = some true := by
    rw [List.getD_eq_getElem?_getD]
    cases d[16]? <;> simp
  have value : (d.getD k (0, false)).1.toNat = (d[k]?.map fun b => b.1.toNat).getD 0 := by
    rw [List.getD_eq_getElem?_getD, there]
    rfl
  rw [value]
  exact if_congr (by rw [Bool.and_eq_true, decide_eq_true_eq, scale]) rfl rfl

theorem flIf_any (d : List (Byte × Bool)) (f : Flags) : flIf (d.any Prod.snd) f = if ∃ b ∈ d, b.2 = true then f else 0 :=
  if_congr (by simp) rfl rfl

section
variable {z : LdzOp} {o : IOp} {k : Nat} {s : State} {p : Party} {l : Loc} (party : p = engParty s .ld z.hdr.cls)
  (block : l = hndLoc (opHandle o z.h) p.job ((opHandle o z.h).base + 1024 * (k : Int)))
include party block

theorem ldzUnit_stop {y : Stop} (stops : locate s p .read l 1024 = .error y ∨
    ((∃ r, locate s p .read l 1024 = .ok r) ∧ readExact s p .read l 1024 = .error y)) : ldzUnit z o k s = .error y := by
  subst party block
  obtain place | ⟨⟨r, place⟩, data⟩ := stops
  · simp only [ldzUnit, place]
  · simp only [ldzUnit, place, data]

/-- The device with the zero-map bit of a block set, where the block is one of zeros. -/
def zeroMarked (s : State) (zero : Bool) (core a : Nat) : State :=
  { s with zeroMap := if zero = true then sset s.zeroMap (core * 8192 + a / 1024) 1 else s.zeroMap }

theorem ldzUnit_block {b : List Byte} {core a : Nat} {pol : Poison} {owner : Option (Nat × Nat)} {zero : Bool}
    (place : locate s p .read l 1024 = .ok (.here (.spad core) a pol, owner)) (data : readExact s p .read l 1024 = .ok b)
    (zeros : zero = b.all (· == 0)) : ldzUnit z o k s =
      .ok (if z.reg == .none then zeroMarked s zero core a else setReg (zeroMarked s zero core a) z.reg .uint8 k (if zero then 1 else 0), 0) := by
  subst party block
  have marked : (if zero then setZero s (.here (.spad core) a pol) else s) = zeroMarked s zero core a := by cases zero <;> rfl
  simp only [ldzUnit, place, data, ← zeros, marked]

end

section
variable {i : Instr} {s : State} {o : IOp} {x : LsInfo} {h : Hnd} (op : o = curOp s.job .ld) (info : lsInfo o i = some x)
  (hh : h = opHandle o x.h) (units : s.units = 1) (ok : lsCheck .ld s.job o i = none)
include op info hh units ok

/-- A turn of a load of elements makes the unit of the element that its form names. -/
theorem exec_ldElems {f : LsForm} (form : ldElems o o.prog i = some f) :
    OneUnit (exec i s) s (ldKept s i) .ld (fun u => u) x.total o.prog (loadedTo (ldKept s i) (engParty s .ld f.cls) h x f i o.prog
      (f.elem (ldKept s i) (engParty s .ld f.cls) o h o.prog)) := by
  subst hh
  unfold ldElems at form
  split at form
  next t =>
    obtain ⟨elems, form⟩ := (Option.ite_none_left_eq_some ..).1 form
    cases form
    rw [← rawTile_iff] at elems
    cases info
    have kept : ldKept s (.ldt t) = keepOp s .ld fun y => y.keep (tileVecs t o o.prog s) := by
      subst op
      rw [ldKept, tileFirst_elems _ elems]
    have unit := lsRun_turn (k := ldtUnit t) (total := fun o => tileUnits o t) op ok units (tileProg t) (tileFirst t) (tileVecs t) rfl
    rw [tileProg_elems o elems, tileUnits_elems o elems, tileFirst_elems o elems, ldtUnit_elems o _ _ elems, engParty_keepOp, ← kept] at unit
    refine unit.congr fun _ => ?_
    rw [loadedTo_eq fun _ => rfl]
    rfl
  next l =>
    cases form
    cases info
    have unit := lsRun_turn_plain (k := ldvUnit l) (total := fun o => linUnits o l) op ok units (fun _ u => u) (fun _ t => t) rfl
    have total : (linInfo o l 1).total = linUnits o l := Nat.one_mul _
    rw [total]
    refine unit.congr fun within => ?_
    rw [ldvUnit_eq l op within, loadedTo_eq fun _ => rfl]
    rfl
  next l q =>
    obtain ⟨first, form⟩ := (Option.ite_none_left_eq_some ..).1 form
    cases form
    cases info
    have unit := lsRun_turn_plain (k := ldbUnit l) (total := fun o => countOf o q * linUnits o l) op ok units (fun _ u => u) (fun _ t => t) rfl
    refine unit.congr fun _ => ?_
    rw [ldbUnit_first l op (Nat.lt_of_not_le first)]
    rfl
  next y =>
    cases form
    cases info
    have kept : ldKept s (.ldg y) = keepOp s .ld fun z => z.keep (idxVecs y o o.prog s) := by
      subst op
      rfl
    have unit := lsRun_turn (k := ldgUnit y) (total := fun o => countOf o y.n) op ok units (fun _ u => u) (fun _ t => t) (idxVecs y) rfl
    rw [← kept] at unit
    refine unit.congr fun _ => ?_
    rw [loadedTo_eq fun _ => rfl, ← engParty_keepOp s .ld .ld _ y.hdr.cls, ← kept]
    rfl
  next => cases form

/-- A repeat of LDB makes the unit of a value that the first pass has kept. -/
theorem exec_ldb_repeat {l : LinOp} {q : Count} (load : i = .ldb l q) (again : linUnits o l ≤ o.prog) :
    OneUnit (exec i s) s s .ld (fun u => u) x.total o.prog
      (.ok (setReg s l.reg l.fr o.prog (o.vals.getD (linUnits o l - 1 - o.prog % linUnits o l) 0), 0)) := by
  subst load
  cases info
  have unit := lsRun_turn_plain (k := ldbUnit l) (total := fun o => countOf o q * linUnits o l) op ok units (fun _ u => u) (fun _ t => t) rfl
  refine unit.congr fun _ => ?_
  simp only [ldbUnit, again, if_true, ← op]

/-! ### Raw blocks (R155) -/

/-- A raw tile load makes the unit of a block. -/
theorem exec_ldt_raw {t : TileOp} (load : i = .ldt t) (raw : rawTile t = true) {u : Nat} (hu : u = tileFirst t o o.prog) :
    OneUnit (exec i s) s (ldKept s i) .ld (tileProg t o) (tileUnits o t) u (rawLoaded (ldKept s i) (engParty s .ld t.hdr.cls) t h u
      (blockElem (ldKept s i) (engParty s .ld t.hdr.cls) o t h u)) := by
  subst load hh
  cases info
  have kept : ldKept s (.ldt t) = keepOp s .ld fun y => y.keep (tileVecs t o u s) := by
    subst op hu
    rfl
  have unit := lsRun_turn (k := ldtUnit t) (total := fun o => tileUnits o t) op ok units (tileProg t) (tileFirst t) (tileVecs t) hu
  rw [ldtUnit_raw o _ _ raw, engParty_keepOp, ← kept] at unit
  exact unit

/-! ### Blocks of zeros (R159) -/

/-- LDZ makes the unit of a block of the scratchpad. -/
theorem exec_ldz {z : LdzOp} (load : i = .ldz z) : OneUnit (exec i s) s s .ld (fun u => u) x.total o.prog (ldzUnit z o o.prog s) := by
  subst load
  cases info
  exact lsRun_turn_plain (k := ldzUnit z) (total := fun o => countOf o z.n) op ok units (fun _ u => u) (fun _ t => t) rfl

end

end Sys2Proof.Machine
end

section
/-! SUPPORT. The loads of the load engine (06_registers.md R154 to R159, R162; O49): the statement. -/

namespace Sys2Proof.Machine

/-- Settles O49: each load makes the unit at its progress, and what the unit leaves stands in the registers. -/
theorem engineLoads : Obligations.EngineLoads := by
  intro i s o x h op info hh units
  refine ⟨?faults, ?units⟩
  case faults =>
    intro c v load bad
    rw [op] at bad
    obtain ⟨total, k, prog, first, vecs, run⟩ := exec_loads load s
    exact run.trans (lsRun_fault bad)
  case units =>
    rintro ok c rfl
    refine ⟨?elements, ?repeats, ?raw, ?stops, ?zeros⟩
    case elements =>
      rintro f p q form rfl rfl
      have unit := exec_ldElems op info hh units ok form
      refine ⟨unit.ended, fun left => ⟨fun absent => ?absent, fun e v fl there data => ?loaded, fun e y there data => ?unread,
        fun e stop => ?unnamed⟩⟩
      case absent =>
        rw [absent] at unit
        exact ⟨_, unit.made left _ _ loadedTo_absent, elemWrote_setReg ..⟩
      case loaded =>
        rw [there] at unit
        exact ⟨_, unit.made left _ _ (loadedTo_elem data), elemWrote_setReg ..⟩
      case unread =>
        rw [there] at unit
        exact unit.stopped left _ (loadedTo_stop data)
      case unnamed =>
        rw [stop] at unit
        exact unit.stopped left _ rfl
    case repeats =>
      rintro l q n load rfl again left
      subst load hh
      cases info
      exact ⟨_, (exec_ldb_repeat op rfl rfl units ok rfl again).made left _ _ rfl, elemWrote_setReg ..⟩
    case raw =>
      rintro t p u q load blocks part hu left rfl rfl
      have unit := exec_ldt_raw op info hh units ok load ((rawTile_iff t).2 ⟨blocks, part⟩) hu
      refine ⟨fun absent => ?absent, fun e d there data => ?loaded, fun e y there data => ?unread, fun e stop => ?unnamed⟩
      case absent =>
        rw [absent] at unit
        exact ⟨_, unit.made left _ _ rfl, regBytesWrote_setRegBytes ..⟩
      case loaded =>
        rw [there] at unit
        rw [← flIf_any, ← rawBlock_eq]
        exact ⟨_, unit.made left _ _ (by simp only [rawLoaded, data]), regBytesWrote_setRegBytes ..⟩
      case unread =>
        rw [there] at unit
        exact unit.stopped left _ (by simp only [rawLoaded, data])
      case unnamed =>
        rw [stop] at unit
        exact unit.stopped left _ rfl
    case stops =>
      rintro z p l y load left party block stops
      have unit := exec_ldz op info hh units ok load
      subst load hh
      cases info
      exact unit.stopped left _ (ldzUnit_stop party block stops)
    case zeros =>
      rintro z p l b core a pol owner zero load left party block data place zeros
      have unit := exec_ldz op info hh units ok load
      subst load hh
      cases info
      have all : zero = b.all (· == 0) := Bool.eq_iff_iff.2 (zeros.trans (by simp))
      refine ⟨_, _, unit.made left _ _ (ldzUnit_block party block place data all), rfl, fun none => ?_, fun dest => ?_⟩
      · rw [none]
        rfl
      · have some : (z.reg == .none) = false := by obtain ⟨r, named⟩ | ⟨r, named⟩ := dest <;> rw [named] <;> rfl
        rw [some]
        exact elemWrote_setReg ..

end Sys2Proof.Machine
end

section
/-! SUPPORT. What a unit of a store writes (06_registers.md R144, R155, R161, R162): bytes, nibbles and scales, and what they leave alone. -/

namespace Sys2Proof.Machine

/-! ### Writes within a line -/

/-- A write inside this device that lies in one line stores that line. -/
theorem writeBytes_line {s : State} {p : Party} {l : Loc} {d : List Byte} {sp : Space} {a : Nat} {pol : Poison} {owner : Option (Nat × Nat)}
    (some : 0 < d.length) (line : l.low + d.length ≤ 64) (place : locate s p .write l d.length = .ok (.here sp a pol, owner)) :
    writeBytes s p l d = .ok (takeStores (storeLine s sp a owner d false) p.unit) := by
  have parts : lineParts l.low (d.map fun b => (b, false)).length = [(0, d.length)] := by rw [List.length_map, lineParts_one some line]
  simp only [writeBytes, writeMarked, parts, writeParts, Loc.add_zero, place, List.drop_zero, unmarked_data, unmarked_any]
  rfl

/-! ### The frame of a unit -/

theorem getByte_noteProgress (s : State) (e : Engine) (prog : Nat) (fl : Flags) : getByte (noteProgress s e prog fl) = getByte s := by
  funext sp a
  cases sp <;> rfl

theorem getByte_completeOp (s : State) (e : Engine) (fl : Flags) : getByte (completeOp s e fl) = getByte s := by
  obtain ⟨outs, rbuf, k, run⟩ := completeOp_frame s e fl
  rw [run]
  funext sp a
  cases sp <;> rfl

theorem getByte_unitDone (w : State) (e : Engine) (prog : Nat → Nat) (total u : Nat) (fl : Flags) :
    getByte (unitDone w e prog total u fl) = getByte w := by
  have replies : getByte (takeReplies w (.eng w.job.id e)) = getByte w := by funext sp a; cases sp <;> rfl
  unfold unitDone
  dsimp only
  split
  · rw [getByte_completeOp, replies]
  · rw [getByte_noteProgress, replies]

theorem opFrame.refl (s : State) : opFrame s s := ⟨⟨rfl, rfl, rfl, rfl, rfl, rfl, rfl, rfl, rfl⟩, ⟨rfl, rfl, rfl, rfl, rfl⟩, rfl⟩

theorem opFrame.trans {s t u : State} (h : opFrame s t) (g : opFrame t u) : opFrame s u := by
  simp only [opFrame] at *
  simp_all

theorem opFrame_completeOp (s : State) (e : Engine) (fl : Flags) : opFrame s (completeOp s e fl) := by
  obtain ⟨outs, rbuf, k, run⟩ := completeOp_frame s e fl
  rw [run]
  exact .refl s

theorem opFrame_noteProgress (s : State) (e : Engine) (prog : Nat) (fl : Flags) : opFrame s (noteProgress s e prog fl) := by
  cases e <;> exact .refl s

theorem opFrame_unitDone (w : State) (e : Engine) (prog : Nat → Nat) (total u : Nat) (fl : Flags) : opFrame w (unitDone w e prog total u fl) := by
  have replies : opFrame w (takeReplies w (.eng w.job.id e)) := .refl w
  unfold unitDone
  dsimp only
  split
  · exact replies.trans (opFrame_completeOp ..)
  · exact replies.trans (opFrame_noteProgress ..)

/-- A store leaves alone what an operation of an engine does. -/
theorem Written.opFrame {s t : State} (h : Written s t) : opFrame s t := by
  have job := h.job
  unfold Job.written at job
  rw [h.device, job]
  exact opFrame.refl s

/-- A unit that has stored a line, and the rest of its turn. -/
theorem storedLine (s : State) (sp : Space) (a : Nat) (owner : Option (Nat × Nat)) (d : List Byte) (u : Unit) (e : Engine) (prog : Nat → Nat)
    (total k : Nat) (fl : Flags) (fits : Space.fits (writeTarget s sp a owner).2.1 (writeTarget s sp a owner).2.2 d.length) :
    ∀ t, t = unitDone (takeStores (storeLine s sp a owner d false) u) e prog total k fl → bytesStored s t sp a owner d ∧ opFrame s t := by
  rintro _ rfl
  have stored : opFrame s (takeStores (storeLine s sp a owner d false) u) := (Written.storeLine s sp a owner d false).opFrame
  refine ⟨fun sp' a' has own => ?_, stored.trans (opFrame_unitDone ..)⟩
  rw [getByte_unitDone]
  exact storeLine_bytes _ _ _ _ _ _ fits sp' a' has own

/-! ### Elements of whole bytes -/

section
variable {s : State} {p : Party} {h : Hnd} {e : Int}

theorem elemByte_whole (int4 : h.fmt ≠ .int4) (e2m1s : h.fmt ≠ .e2m1s) : elemByte h e = (h.base + (Fmt.bits h.fmt / 8 : Nat) * e, 2) := by
  unfold elemByte
  split
  · contradiction
  · contradiction
  · rfl

theorem elemByte_int4 (int4 : h.fmt = .int4) : elemByte h e = (h.base + e / 2, (e % 2).toNat) := by
  simp only [elemByte, int4]

theorem putElem_whole (int4 : h.fmt ≠ .int4) (e2m1s : h.fmt ≠ .e2m1s) (v : Nat) : putElem s p h e v =
    writeBytes s p (hndLoc h p.job (h.base + (Fmt.bits h.fmt / 8 : Nat) * e)) (leBytes (Fmt.bits h.fmt / 8) v) := by
  simp only [putElem, elemByte_whole int4 e2m1s]
  rfl

theorem putElem_int4 (int4 : h.fmt = .int4) (v : Nat) : putElem s p h e v = putNibble s p h (h.base + e / 2) (e % 2).toNat v := by
  simp only [putElem, elemByte_int4 int4]
  exact if_pos (by omega)

/-- An element of whole bytes has some. -/
theorem whole_bytes {f : Fmt} (int4 : f ≠ .int4) (e2m1s : f ≠ .e2m1s) : 0 < Fmt.bits f / 8 := by
  cases f
  case int4 => exact absurd rfl int4
  case e2m1s => exact absurd rfl e2m1s
  all_goals decide

end

/-! ### The other nibble of a byte -/

theorem present_eq_some {x : Except Stop (Option Int)} {e : Int} : present x = some e ↔ x = .ok (some e) := by
  cases x <;> simp [present]

section
variable {s : State} {p : Party} {h : Hnd} {el : Nat → Except Stop (Option Int)} {n t : Nat} {e e' : Int}

theorem writable_int4 (int4 : h.fmt = .int4) (x : Except Stop (Option Int)) : writable s p h x = true ↔
    x = .ok none ∨ ∃ d r, x = .ok (some d) ∧ locate s p .write (hndLoc h p.job (h.base + d / 2)) 1 = .ok r := by
  rcases x with y | _ | d
  · simp [writable]
  · simp [writable]
  · simp only [writable, elemByte_int4 int4]
    cases place : locate s p .write (hndLoc h p.job (h.base + d / 2)) 1 with
    | error y => simp [place]
    | ok r => exact ⟨fun _ => .inr ⟨d, r, rfl, place⟩, fun _ => rfl⟩

variable (other : e' = if e % 2 = 0 then e + 1 else e - 1)
include other

/-- The other nibble comes with index k, the first that names it, where each index before that one can be written. -/
theorem otherNibble_some {k : Nat} (later : t < k) (within : k < n) (there : el k = .ok (some e'))
    (before : ∀ m, t < m → m < k → writable s p h (el m) = true ∧ el m ≠ .ok (some e')) : otherNibble s p h el n t e = some k := by
  obtain ⟨d, rfl⟩ : ∃ d, k = t + 1 + d := ⟨k - (t + 1), by omega⟩
  have first : (firstBelow (n - t - 1) fun k => present (el (t + 1 + k)) == some e') = some d := by
    refine List.find?_range_eq_some.2 ⟨?_, List.mem_range.2 (by omega), fun m hm => ?_⟩
    · rw [beq_iff_eq, present_eq_some, there]
    · simpa [present_eq_some] using (before (t + 1 + m) (by omega) (by omega)).2
  have all : ((List.range d).all fun i => writable s p h (el (t + 1 + i))) = true :=
    List.all_eq_true.2 fun m hm => (before (t + 1 + m) (by omega) (by have := List.mem_range.1 hm; omega)).1
  simp only [otherNibble, ← other, first, all, if_true]

/-- It does not come where something stops the operation before each index that names it. -/
theorem otherNibble_none (blocked : ∀ k, t < k → k < n → el k = .ok (some e') → ∃ m, t < m ∧ m < k ∧ ¬writable s p h (el m) = true) :
    otherNibble s p h el n t e = none := by
  simp only [otherNibble, ← other]
  split
  next d first =>
    obtain ⟨there, below, -⟩ := List.find?_range_eq_some.1 first
    rw [beq_iff_eq, present_eq_some] at there
    have := List.mem_range.1 below
    obtain ⟨m, after, upTo, stops⟩ := blocked (t + 1 + d) (by omega) (by omega) there
    refine if_neg fun all => stops ?_
    have := List.all_eq_true.1 all (m - (t + 1)) (List.mem_range.2 (by omega))
    rwa [show t + 1 + (m - (t + 1)) = m by omega] at this
  next => rfl

end

end Sys2Proof.Machine
end

section
/-! SUPPORT. A unit of each store of the store engine (06_registers.md R155, R157, R158, R160 to R162). -/

namespace Sys2Proof.Machine

/-! ### One register element stored -/

/-- A write with the flags of its unit. -/
def Stored (r : Except Stop State) (fl : Flags) : Except Stop (State × Flags) := r.map fun w => (w, fl)

/-- A unit that is one write ends as the write does. -/
theorem OneUnit.write {r : Result} {s c : State} {e : Engine} {prog : Nat → Nat} {total u : Nat} {x : Except Stop State} {fl : Flags}
    (unit : OneUnit r s c e prog total u (Stored x fl)) (left : u < total) :
    (∀ w, x = .ok w → r = .next (unitDone w e prog total u fl)) ∧ ∀ y, x = .error y → r = .next (stopOp c e (prog u) 0 y) :=
  ⟨fun w ok => unit.made left w fl (by rw [ok]; rfl), fun y stop => unit.stopped left y (by rw [stop]; rfl)⟩

section
variable {s : State} {p : Party} {h : Hnd} {r : RegSlot} {fr : Fmt} {rm : RMode} {sat : Bool} {el : Nat → Except Stop (Option Int)} {n t : Nat}
  {e : Int}

theorem storeFrom_error {scales : Bool} {y : Stop} (stop : el t = .error y) : storeFrom s p h r fr rm sat scales el n t = .error y := by
  simp only [storeFrom, stop]

theorem storeFrom_absent {scales : Bool} (absent : el t = .ok none) : storeFrom s p h r fr rm sat scales el n t = .ok (s, 0) := by
  simp only [storeFrom, absent]

variable (there : el t = .ok (some e))
include there

theorem storeFrom_scale : storeFrom s p h r fr rm sat true el n t =
    Stored (writeBytes s p (hndLoc h p.job (scaleAddr h e)) [BitVec.ofNat 8 (regElem s.job r fr t)]) 0 := by
  simp only [storeFrom, there, if_true, putData]
  cases writeBytes s p (hndLoc h p.job (scaleAddr h e)) [BitVec.ofNat 8 (regElem s.job r fr t)] <;> rfl

variable {v : Nat} {fl : Flags} (value : (v, fl) = convert fr h.fmt rm sat 0 (regElem s.job r fr t))
include value

theorem storeFrom_whole (int4 : h.fmt ≠ .int4) (e2m1s : h.fmt ≠ .e2m1s) : storeFrom s p h r fr rm sat false el n t = Stored
    (writeBytes s p (hndLoc h p.job (h.base + (Fmt.bits h.fmt / 8 : Nat) * e)) (leBytes (Fmt.bits h.fmt / 8) v)) fl := by
  simp only [storeFrom, there, ← value, Bool.false_eq_true, if_false, beq_eq_false_iff_ne.2 int4, putElem_whole int4 e2m1s]
  cases writeBytes s p (hndLoc h p.job (h.base + (Fmt.bits h.fmt / 8 : Nat) * e)) (leBytes (Fmt.bits h.fmt / 8) v) <;> rfl

theorem storeFrom_int4 (int4 : h.fmt = .int4) : storeFrom s p h r fr rm sat false el n t = Stored
    (putInt4 s p h (fun k => (convert fr h.fmt rm sat 0 (regElem s.job r fr k)).1) el n t e) fl := by
  simp only [storeFrom, there, ← value, Bool.false_eq_true, if_false, beq_iff_eq.2 int4, if_true]
  cases putInt4 s p h (fun k => (convert fr h.fmt rm sat 0 (regElem s.job r fr k)).1) el n t e <;> rfl

end

section
variable {s : State} {p : Party} {h : Hnd} {code : Nat → Nat} {el : Nat → Except Stop (Option Int)} {n t : Nat} {e : Int}

/-- The nibble stands there already: its byte was written whole. -/
theorem putInt4_whole (done : t ∈ (curOp s.job .st).whole) : putInt4 s p h code el n t e = .ok s :=
  if_pos (List.contains_iff_mem.2 done)

variable (todo : t ∉ (curOp s.job .st).whole)
include todo

theorem putInt4_alone (int4 : h.fmt = .int4) (none : otherNibble s p h el n t e = none) :
    putInt4 s p h code el n t e = putNibble s p h (h.base + e / 2) (e % 2).toNat (code t) := by
  rw [putInt4, if_neg (mt List.contains_iff_mem.1 todo), none]
  exact putElem_int4 int4 _

theorem putInt4_both (int4 : h.fmt = .int4) {k : Nat} (some : otherNibble s p h el n t e = some k) : putInt4 s p h code el n t e =
    (writeBytes s p (hndLoc h p.job (h.base + e / 2)) [nibbles e (code t) (code k)]).map
      fun w => keepOp w .st fun y => { y with whole := k :: y.whole } := by
  rw [putInt4, if_neg (mt List.contains_iff_mem.1 todo), some]
  simp only [putData, elemByte_int4 int4]
  cases writeBytes s p (hndLoc h p.job (h.base + e / 2)) [nibbles e (code t) (code k)] <;> rfl

end

/-! ### STA (R158) -/

section
variable {s : State} {p : Party} {y : IdxOp} {h : Hnd} {k : Nat} {e : Int} {l : Loc} {n : Nat}
  (hl : l = hndLoc h p.job (elemByte h e).1) (hn : n = Fmt.bits h.fmt / 8)
include hl hn

theorem staElem_stop {z : Stop} (stops : twoPlaces s p l n = .error z ∨
    ∃ two, twoPlaces s p l n = .ok two ∧ locate s p .atomic l (min n (64 - l.low)) = .error z) : staElem s p y h k e = .error z := by
  subst hl hn
  obtain place | ⟨two, places, place⟩ := stops
  · simp only [staElem, place]
  · simp only [staElem, places, place]

/-- An element that no one request updates is updated by reads and writes of this device, once no other party is about to access it. -/
theorem staElem_here {two : List Span} {a : Place × Option (Nat × Nat)} (places : twoPlaces s p l n = .ok two)
    (place : locate s p .atomic l (min n (64 - l.low)) = .ok a) (here : two ≠ [] ∨ ∃ sp at' pol owner, a = (.here sp at' pol, owner)) :
    staElem s p y h k e =
      if two.any (Span.busy s p.unit) then .error .stall else (staHere s p y h k e).mapError (Stop.guarding two) := by
  subst hl hn
  simp only [staElem, places, place]
  obtain ⟨pl, owner⟩ := a
  cases two with
  | cons q two => cases pl <;> rfl
  | nil =>
    obtain some | ⟨sp, at', pol, owner', same⟩ := here
    · exact absurd rfl some
    · cases same
      rfl

/-- A remote element that one request updates. -/
theorem staElem_remote {dev : BitVec 8} {ddr : Bool} {pa : Nat} {pol : Poison} {owner : Option (Nat × Nat)}
    (places : twoPlaces s p l n = .ok []) (place : locate s p .atomic l (min n (64 - l.low)) = .ok (.remote dev ddr pa pol, owner)) :
    staElem s p y h k e = (answerTo s p (request s p (.scatterAdd h.fmt y.fr y.rm y.hdr.sat (BitVec.ofNat 64 (regElem s.job y.reg y.fr k)))
      dev ddr pa n pol) l.word l.line).map fun r => (s, staFlags r) := by
  subst hl hn
  simp only [staElem, places, place]
  generalize answerTo s p _ _ _ = r
  cases r <;> rfl

end

theorem staHere_stop {s : State} {p : Party} {y : IdxOp} {h : Hnd} {k : Nat} {e : Int} {z : Stop}
    (stops : elemBits s p h e = .error z ∨ ∃ old bad, elemBits s p h e = .ok (old, bad) ∧
      putElem s p h e (staSum y.rm y.hdr.sat y.fr h.fmt old (regElem s.job y.reg y.fr k)).1 = .error z) : staHere s p y h k e = .error z := by
  obtain data | ⟨old, bad, data, write⟩ := stops
  · simp only [staHere, data]
  · simp only [staHere, data, write]

theorem staHere_done {s : State} {p : Party} {y : IdxOp} {h : Hnd} {k : Nat} {e : Int} {old v : Nat} {bad : Bool} {fl : Flags} {w : State}
    (data : elemBits s p h e = .ok (old, bad)) (sum : (v, fl) = staSum y.rm y.hdr.sat y.fr h.fmt old (regElem s.job y.reg y.fr k))
    (write : putElem s p h e v = .ok w) :
    staHere s p y h k e = .ok (keepOp w .st fun o => { o with guard := [] }, fl ||| if bad = true then flPOI else 0) := by
  simp only [staHere, data, ← sum, write]
  rfl

section
variable {s : State} {p : Party} {o : IOp} {y : IdxOp} {h : Hnd} {k : Nat} (hp : p = engParty s .st y.hdr.cls) (hh : h = opHandle o y.h)
include hp hh

theorem staUnit_stop {z : Stop} (stop : idxElem s p o y h k = .error z) : staUnit y o k s = .error z := by
  subst hp hh
  simp only [staUnit, stop]

theorem staUnit_absent (absent : idxElem s p o y h k = .ok none) : staUnit y o k s = .ok (s, 0) := by
  subst hp hh
  simp only [staUnit, absent]

theorem staUnit_elem {e : Int} (there : idxElem s p o y h k = .ok (some e)) : staUnit y o k s = staElem s p y h k e := by
  subst hp hh
  simp only [staUnit, there]

end

/-- An element within a line lies at one place. -/
theorem twoPlaces_line {s : State} {p : Party} {l : Loc} {n : Nat} (line : n ≤ 64 - l.low) : twoPlaces s p l n = .ok [] := if_pos line

/-- Places side by side are at another device. -/
theorem far_of_besides {x y : Place} {k : Nat} (h : (besides x y k).isSome = true) : ∃ dev ddr pa pol, x = .remote dev ddr pa pol := by
  cases x with
  | here sp a pol => cases h
  | remote dev ddr pa pol => exact ⟨dev, ddr, pa, pol, rfl⟩

section
variable {s : State} {p : Party} {l : Loc} {n k : Nat} {a b : Place × Option (Nat × Nat)} (hk : k = 64 - l.low) (cross : k < n)
  (first : locate s p .atomic l k = .ok a) (second : locate s p .atomic (l.add k) (n - k) = .ok b)
include hk cross first second

/-- Where a part lies at another device, one request reaches both if the two places lie side by side. -/
theorem twoPlaces_far (far : ∃ dev ddr pa pol, a.1 = .remote dev ddr pa pol ∨ b.1 = .remote dev ddr pa pol) :
    twoPlaces s p l n = .ok (if (besides a.1 b.1 k).isSome then [] else [a.1.span s k, b.1.span s (n - k)]) := by
  subst hk
  obtain ⟨x, v⟩ := a
  obtain ⟨y, w⟩ := b
  simp only [twoPlaces, Nat.not_le.2 cross, if_false, first, second]
  obtain ⟨dev, ddr, pa, pol, rfl | rfl⟩ := far
  · cases y <;> rfl
  · cases x <;> rfl

theorem twoPlaces_here (here : ∃ sp at' pol sp' at'' pol', a.1 = .here sp at' pol ∧ b.1 = .here sp' at'' pol') : twoPlaces s p l n = .ok [] := by
  subst hk
  obtain ⟨x, v⟩ := a
  obtain ⟨y, w⟩ := b
  obtain ⟨sp, at', pol, sp', at'', pol', rfl, rfl⟩ := here
  simp only [twoPlaces, Nat.not_le.2 cross, if_false, first, second]

theorem twoPlaces_beside (beside : (besides a.1 b.1 k).isSome = true) : twoPlaces s p l n = .ok [] := by
  obtain ⟨dev, ddr, pa, pol, far⟩ := far_of_besides beside
  rw [twoPlaces_far hk cross first second ⟨dev, ddr, pa, pol, .inl far⟩, if_pos beside]

theorem twoPlaces_apart (far : ∃ dev ddr pa pol, a.1 = .remote dev ddr pa pol ∨ b.1 = .remote dev ddr pa pol)
    (apart : besides a.1 b.1 k = none) : twoPlaces s p l n = .ok [a.1.span s k, b.1.span s (n - k)] := by
  rw [twoPlaces_far hk cross first second far, apart]
  rfl

end

/-! ### Blocks (R155, R160) -/

/-- A raw block stored from its place of the registers. -/
def rawStored (s : State) (p : Party) (t : TileOp) (h : Hnd) (k : Nat) (e : Except Stop (Option Int)) : Except Stop (State × Flags) :=
  match e with
  | .error y => .error y
  | .ok none => .ok (s, 0)
  | .ok (some e) => Stored (writeBytes s p (hndLoc h p.job (h.base + 18 * (e / 32)))
      ((List.range 18).map fun q => BitVec.ofNat 8 (regByte s.job t.reg (rawByte k + q)))) 0

theorem sttUnit_raw {t : TileOp} (o : IOp) (k : Nat) (s : State) (h : rawTile t = true) : sttUnit t o k s =
    rawStored s (engParty s .st t.hdr.cls) t (opHandle o t.h) k (blockElem s (engParty s .st t.hdr.cls) o t (opHandle o t.h) k) := by
  refine (if_pos h).trans ?_
  rcases blockElem s (engParty s .st t.hdr.cls) o t (opHandle o t.h) k with y | _ | e
  · rfl
  · rfl
  · simp only [rawStored, putData]
    generalize writeBytes s _ _ _ = r
    cases r <;> rfl

section
variable {s : State} {p : Party} {o : IOp} {t : TileOp} {h : Hnd} {k : Nat} {l : List (Option Num)} (hp : p = engParty s .st t.hdr.cls)
  (hh : h = opHandle o t.h) (hl : l = stqBlock s.job o t h k)
include hp hh hl

theorem stqUnit_absent (absent : blockElem s p o t h k = .ok none ∨ ∃ e, blockElem s p o t h k = .ok (some e) ∧ ∀ b ∈ l, b = none) :
    stqUnit t o k s = .ok (s, 0) := by
  subst hp hh
  obtain none | ⟨e, there, none⟩ := absent
  · simp only [stqUnit, none]
  · have all : l.all Option.isNone = true := List.all_eq_true.2 fun b hb => Option.isNone_iff_eq_none.2 (none b hb)
    simp only [stqUnit, there, ← hl, all, if_true]

theorem stqUnit_stop {y : Stop} (stop : blockElem s p o t h k = .error y) : stqUnit t o k s = .error y := by
  subst hp hh
  simp only [stqUnit, stop]

variable {e : Int} (there : blockElem s p o t h k = .ok (some e)) (some : ∃ b ∈ l, b ≠ none)
include there some

theorem stqUnit_e2m1s (fmt : h.fmt = .e2m1s) : stqUnit t o k s =
    Stored (writeBytes s p (hndLoc h p.job (h.base + 18 * (e / 32))) ((quantE2m1s l).1.map (BitVec.ofNat 8))) (quantE2m1s l).2 := by
  have mixed : ¬l.all Option.isNone = true := by simpa [Option.ne_none_iff_isSome] using some
  subst hp hh
  simp only [stqUnit, there, ← hl, mixed, beq_iff_eq.2 fmt, if_true, putData]
  generalize writeBytes s _ _ _ = r
  cases r <;> rfl

/-- An MX block is two writes: its elements, and its scale. -/
theorem stqUnit_mx (fmt : h.fmt ≠ .e2m1s) : stqUnit t o k s = Stored
    ((writeBytes s p (hndLoc h p.job (elemByte h e).1) ((quantMx l).1.map (BitVec.ofNat 8))).bind fun v =>
      writeBytes v p (hndLoc h p.job (scaleAddr h e)) [BitVec.ofNat 8 (quantMx l).2.1]) (quantMx l).2.2 := by
  have mixed : ¬l.all Option.isNone = true := by simpa [Option.ne_none_iff_isSome] using some
  subst hp hh
  simp only [stqUnit, there, ← hl, mixed, beq_eq_false_iff_ne.2 fmt, Bool.false_eq_true, if_false, putData]
  generalize writeBytes s _ _ _ = r
  rcases r with y | v
  · rfl
  · show _ = Stored (writeBytes v _ _ _) _
    dsimp only
    generalize writeBytes v _ _ _ = r
    cases r <;> rfl

end

/-! ### Turns -/

/-- The operations of the store engine run unit by unit. -/
theorem exec_stores {i : Instr} (store : (∃ a, i = .stt a) ∨ (∃ b, i = .stv b) ∨ (∃ b, i = .sts b) ∨ (∃ b, i = .sta b) ∨ ∃ b, i = .stq b)
    (s : State) : ∃ total k prog first vecs, exec i s = lsRun .st i s total k prog first vecs := by
  obtain ⟨t, rfl⟩ | ⟨l, rfl⟩ | ⟨y, rfl⟩ | ⟨y, rfl⟩ | ⟨t, rfl⟩ := store
  · exact ⟨_, _, _, _, _, show execStt t s = _ from rfl⟩
  · exact ⟨_, _, _, _, _, show execStv l s = _ from rfl⟩
  · exact ⟨_, _, _, _, _, show execSts y s = _ from rfl⟩
  · exact ⟨_, _, _, _, _, show execSta y s = _ from rfl⟩
  · exact ⟨_, _, _, _, _, show execStq t s = _ from rfl⟩

section
variable {i : Instr} {s : State} {o : IOp} {x : LsInfo} (op : o = curOp s.job .st) (info : lsInfo o i = some x) (units : s.units = 1)
  (ok : lsCheck .st s.job o i = none)
include op info units ok

/-- A turn of a store of elements stores the register element at its progress; el gives the elements that its indices name. -/
theorem exec_stElems {h : Hnd} {f : LsForm} (hh : h = opHandle o x.h) (form : stElems i = some f) : ∃ el : Nat → Except Stop (Option Int),
    (∀ k, k < x.total → el k = f.elem s (engParty s .st f.cls) o h k) ∧
    OneUnit (exec i s) s s .st (fun u => u) x.total o.prog
      (storeFrom s (engParty s .st f.cls) h x.reg x.fr f.rm f.sat x.scales el x.total o.prog) := by
  subst hh
  unfold stElems at form
  split at form
  next t =>
    obtain ⟨elems, form⟩ := (Option.ite_none_left_eq_some ..).1 form
    cases form
    rw [← rawTile_iff] at elems
    cases info
    have unit := lsRun_turn_plain (k := sttUnit t) (total := fun o => tileUnits o t) op ok units (tileProg t) (tileFirst t) rfl
    rw [tileProg_elems o elems, sttUnit_elems o _ _ elems, tileUnits_elems o elems, tileFirst_elems o elems] at unit
    exact ⟨_, fun _ _ => rfl, unit⟩
  next l =>
    cases form
    cases info
    have total : (linInfo o l 1).total = linUnits o l := Nat.one_mul _
    rw [total]
    exact ⟨_, fun _ within => linElem_eq within,
      lsRun_turn_plain (k := stvUnit l) (total := fun o => linUnits o l) op ok units (fun _ u => u) (fun _ t => t) rfl⟩
  next y =>
    cases form
    cases info
    exact ⟨_, fun _ _ => rfl,
      lsRun_turn_plain (k := stsUnit y) (total := fun o => countOf o y.n) op ok units (fun _ u => u) (fun _ t => t) rfl⟩
  next => cases form

/-- A turn of STA updates the element that its next index names. -/
theorem exec_sta {y : IdxOp} (store : i = .sta y) : OneUnit (exec i s) s s .st (fun u => u) x.total o.prog (staUnit y o o.prog s) := by
  subst store
  cases info
  exact lsRun_turn_plain (k := staUnit y) (total := fun o => countOf o y.n) op ok units (fun _ u => u) (fun _ t => t) rfl

/-- A raw tile store makes the unit of a block. -/
theorem exec_stt_raw {h : Hnd} {t : TileOp} (hh : h = opHandle o x.h) (store : i = .stt t) (raw : rawTile t = true) {u : Nat}
    (hu : u = tileFirst t o o.prog) : OneUnit (exec i s) s s .st (tileProg t o) (tileUnits o t) u
      (rawStored s (engParty s .st t.hdr.cls) t h u (blockElem s (engParty s .st t.hdr.cls) o t h u)) := by
  subst store hh
  cases info
  have unit := lsRun_turn_plain (k := sttUnit t) (total := fun o => tileUnits o t) op ok units (tileProg t) (tileFirst t) hu
  rw [sttUnit_raw o _ _ raw] at unit
  exact unit

omit info in
/-- STQ makes the unit of a block of 32 columns; its progress counts elements. -/
theorem exec_stq {t : TileOp} (store : i = .stq t) {u : Nat}
    (hu : u = o.prog / countOf o t.tc * blocksIn (countOf o t.tc) + o.prog % countOf o t.tc / 32) :
    OneUnit (exec i s) s s .st (fun k => k / blocksIn (countOf o t.tc) * countOf o t.tc + 32 * (k % blocksIn (countOf o t.tc)))
      (countOf o t.tr * blocksIn (countOf o t.tc)) u (stqUnit t o u s) := by
  subst store
  exact lsRun_turn_plain (k := stqUnit t) (total := fun o => countOf o t.tr * blocksIn (countOf o t.tc)) op ok units
    (fun o k => k / blocksIn (countOf o t.tc) * countOf o t.tc + 32 * (k % blocksIn (countOf o t.tc)))
    (fun o p => p / countOf o t.tc * blocksIn (countOf o t.tc) + p % countOf o t.tc / 32) hu

end

end Sys2Proof.Machine
end

section
/-! SUPPORT. The stores of the store engine (06_registers.md R154 to R162; O50): the statement. -/

namespace Sys2Proof.Machine

/-- Settles O50: each store makes the unit at its progress, which writes what its element or block takes. -/
theorem engineStores : Obligations.EngineStores := by
  intro i s o x h op info hh units
  refine ⟨?faults, ?units⟩
  case faults =>
    intro c v store bad
    rw [op] at bad
    obtain ⟨total, k, prog, first, vecs, run⟩ := exec_stores store s
    exact run.trans (lsRun_fault bad)
  case units =>
    rintro ok u rfl
    refine ⟨?elements, ?sta, ?raw, ?stq⟩
    case elements =>
      rintro f p q form rfl rfl
      obtain ⟨el, agree, unit⟩ := exec_stElems op info units ok hh form
      refine ⟨unit.ended, fun left => ?_⟩
      have now := agree _ left
      refine ⟨fun absent => ?absent, fun e stop => ?unnamed, fun e v fl there data value => ?data, fun e d there scales hd => ?scale⟩
      case absent => exact unit.made left _ _ (storeFrom_absent (now.trans absent))
      case unnamed => exact unit.stopped left _ (storeFrom_error (now.trans stop))
      case scale =>
        subst hd
        rw [scales, storeFrom_scale (now.trans there)] at unit
        exact unit.write left
      case data =>
        rw [data] at unit
        refine ⟨fun int4 e2m1s l d sp a pol owner hl hd line place fits => ?bytes, fun int4 e2m1s => ?whole, fun int4 e2m1s => ?wholeStop,
          fun int4 done => ?done, fun e' ready int4 todo other hready => ⟨fun k n later within names before hn => ?both, fun blocked => ?alone⟩⟩
        case bytes =>
          rw [storeFrom_whole (now.trans there) value int4 e2m1s, ← hl, ← hd] at unit
          have some : 0 < d.length := by rw [hd, leBytes_length]; exact whole_bytes int4 e2m1s
          exact ⟨_, (unit.write left).1 _ (writeBytes_line some line place), storedLine _ _ _ _ _ _ _ _ _ _ _ fits _ rfl⟩
        case whole =>
          rw [storeFrom_whole (now.trans there) value int4 e2m1s] at unit
          exact (unit.write left).1
        case wholeStop =>
          rw [storeFrom_whole (now.trans there) value int4 e2m1s] at unit
          exact (unit.write left).2
        case done =>
          rw [storeFrom_int4 (now.trans there) value int4, putInt4_whole (op ▸ done)] at unit
          exact (unit.write left).1 _ rfl
        case both =>
          have code : (convert x.fr h.fmt f.rm f.sat 0 (regElem s.job x.reg x.fr o.prog)).1 = v := by rw [← value]
          have free (m : Nat) (after : o.prog < m) (upTo : m < k) :
              writable s (engParty s .st f.cls) h (el m) = true ∧ el m ≠ .ok (some e') := by
            rw [agree m (by omega), writable_int4 int4, ← hready]
            exact before m after upTo
          have pair := otherNibble_some other later within ((agree k within).trans names) free
          rw [storeFrom_int4 (now.trans there) value int4, putInt4_both (op ▸ todo) int4 pair] at unit
          simp only [code, ← hn, nibbles] at unit
          exact ⟨fun w written => (unit.write left).1 _ (by rw [written]; rfl), fun y stop => (unit.write left).2 _ (by rw [stop]; rfl)⟩
        case alone =>
          have code : (convert x.fr h.fmt f.rm f.sat 0 (regElem s.job x.reg x.fr o.prog)).1 = v := by rw [← value]
          have single : otherNibble s (engParty s .st f.cls) h el x.total o.prog e = none := otherNibble_none other fun k later within names => by
            obtain ⟨m, after, upTo, stops⟩ := blocked k later within ((agree k within).symm.trans names)
            refine ⟨m, after, upTo, ?_⟩
            rwa [agree m (by omega), writable_int4 int4, ← hready]
          rw [storeFrom_int4 (now.trans there) value int4, putInt4_alone (op ▸ todo) int4 single, code] at unit
          exact unit.write left
    case sta =>
      rintro y p store left rfl
      have unit := exec_sta op info units ok store
      have handle : h = opHandle o y.h := by
        subst store
        cases info
        exact hh
      refine ⟨fun absent => ?absent, fun z stop => ?unnamed, fun e l n there hl hn => ⟨fun z stops => ?place, fun two a places place here =>
        ⟨fun busy => ?busy, fun free => ⟨fun z stops => ?stops, fun old bad v fl w data sum written => ?done⟩⟩,
        fun dev ddr pa pol owner r places place hr =>
        ?remote, twoPlaces_line, fun k a b hk cross first second => ⟨fun one => ?one, twoPlaces_apart hk cross first second⟩⟩⟩
      case absent =>
        rw [staUnit_absent rfl handle absent] at unit
        exact unit.made left _ _ rfl
      case unnamed =>
        rw [staUnit_stop rfl handle stop] at unit
        exact unit.stopped left _ rfl
      case one =>
        exact one.elim (twoPlaces_here hk cross first second) (twoPlaces_beside hk cross first second)
      all_goals rw [staUnit_elem rfl handle there] at unit
      case place =>
        rw [staElem_stop hl hn stops] at unit
        exact unit.stopped left _ rfl
      case busy =>
        rw [staElem_here hl hn places place here, if_pos (List.any_eq_true.2 busy)] at unit
        exact unit.stopped left _ rfl
      case stops =>
        rw [staElem_here hl hn places place here, if_neg (by simpa using free), staHere_stop stops] at unit
        exact unit.stopped left _ rfl
      case done =>
        rw [staElem_here hl hn places place here, if_neg (by simpa using free), staHere_done data sum written] at unit
        exact unit.made left _ _ rfl
      case remote =>
        rw [staElem_remote hl hn places place, ← hr] at unit
        refine ⟨fun v answer => ?_, fun z stop => ?_⟩
        · rw [answer] at unit
          exact unit.made left _ _ rfl
        · rw [stop] at unit
          exact unit.stopped left _ rfl
    case raw =>
      rintro t p k store blocks part hk left rfl
      have unit := exec_stt_raw op info units ok hh store ((rawTile_iff t).2 ⟨blocks, part⟩) hk
      refine ⟨fun absent => ?absent, fun e w there written => ?stored, fun e y there stop => ?unwritten, fun e stop => ?unnamed⟩
      case absent =>
        rw [absent] at unit
        exact unit.made left _ _ rfl
      case stored =>
        rw [there] at unit
        exact (unit.write left).1 w written
      case unwritten =>
        rw [there] at unit
        exact (unit.write left).2 y stop
      case unnamed =>
        rw [stop] at unit
        exact unit.stopped left _ rfl
    case stq =>
      rintro t p l tc k total after store rfl rfl hk left party hl hafter
      have unit := exec_stq op units ok store hk
      have handle : h = opHandle o t.h := by
        subst store
        cases info
        exact hh
      have done (w : State) (fl : Flags) : unitDone w .st
          (fun k => k / blocksIn (countOf o t.tc) * countOf o t.tc + 32 * (k % blocksIn (countOf o t.tc)))
          (countOf o t.tr * blocksIn (countOf o t.tc)) k fl = after w fl := by
        rw [hafter, unitDone]
        dsimp only
        rcases Nat.lt_or_ge (k + 1) (countOf o t.tr * blocksIn (countOf o t.tc)) with more | last
        · rw [if_pos more, if_neg (Nat.not_le.2 more)]
        · rw [if_neg (Nat.not_lt.2 last), if_pos last]
      refine ⟨fun absent => ?absent, fun y stop => ?unnamed, fun e there some => ⟨fun fmt w written => ?raw, fun fmt y stop => ?rawStop,
        fun fmt y stops => ?mxStop, fun fmt v w elems scale => ?mx⟩⟩
      case absent => exact (unit.made left _ _ (stqUnit_absent party handle hl absent)).trans (congrArg _ (done ..))
      case unnamed => exact unit.stopped left _ (stqUnit_stop party handle hl stop)
      case raw =>
        rw [stqUnit_e2m1s party handle hl there some fmt] at unit
        exact ((unit.write left).1 w written).trans (congrArg _ (done ..))
      case rawStop =>
        rw [stqUnit_e2m1s party handle hl there some fmt] at unit
        exact (unit.write left).2 y stop
      case mxStop =>
        rw [stqUnit_mx party handle hl there some fmt] at unit
        refine (unit.write left).2 y ?_
        obtain elems | ⟨v, elems, scale⟩ := stops
        · rw [elems]
          rfl
        · rw [elems]
          exact scale
      case mx =>
        rw [stqUnit_mx party handle hl there some fmt] at unit
        exact ((unit.write left).1 w (by rw [elems]; exact scale)).trans (congrArg _ (done ..))

end Sys2Proof.Machine
end

section
/-! SUPPORT. A DARN whose work is done (17_generation.md R363, R369): it stores that it has ended, and its result. -/

namespace Sys2Proof.Machine

/-! ### Work that is done -/

theorem lineParts_zero (low : Nat) : lineParts low 0 = [] := rfl

theorem darnRead_none (s : State) (p : Party) (a : Nat) : darnRead s p a 0 = .ok [] := by
  simp only [darnRead, darnMay, lineParts_zero, darnMay.go, readExact, readChunks, readParts, List.find?_nil, List.flatMap_nil]

section
variable {s : State} {p : Party} {r : DarnRun}

theorem pinsOk_none (none : r.pins = 0) (k n : Nat) : pinsOk s p r k n = .ok s := by
  cases n with
  | zero => rfl
  | succ n => exact if_pos none

theorem stainLists_none (g n : Nat) : stainLists p r [] g n s = .ok s := by
  induction n generalizing g with
  | zero => rfl
  | succ n ih => exact ih _

theorem stainAll_none (none : r.round = 0) : stainAll p r s = .ok ({ r with result := 0 }, s) := by
  have empty : (cut 4 ([] : List Byte)).map leNat = [] := rfl
  simp only [stainAll, none, Nat.mul_zero, darnRead_none, empty, List.findIdx?_nil, stainLists_none]

theorem darnRange_none {base : Nat} {on : Bool} {chosen : Nat → Bool} : darnRange p base 0 0 on chosen s = .ok s := if_pos (Nat.le_refl 0)

theorem stainGroups_none {on : Bool} {chosen : Nat → Bool} (g n : Nat) : stainGroups p r 0 0 on chosen g n s = .ok s := by
  induction n generalizing g with
  | zero => rfl
  | succ n ih => simp only [stainGroups, darnRange_none, ih]

/-- A DARN that goes by sequences has done the last of them. -/
theorem darnWork_sequences (q : Nat) (stain : r.op ≠ opStain) (clear : r.op ≠ opClear) (done : r.nseq ≤ r.sdone) {t : State}
    (finish : darnFinish p r s = .ok (r, t)) : darnWork p q r s = .ok (r, t, true) := by
  simp only [darnWork, stain, clear, decide_false, Bool.or_self, Bool.false_eq_true, if_false, Nat.sub_eq_zero_of_le done, darnSeqs, finish]

theorem darnFinish_rank (rank : r.op = opRank) (first : r.first = 0) : darnFinish p r s = .ok (r, s) := by
  have commit : ¬ r.op = opCommit := by rw [rank]; decide
  have none : maskedIn s p r 0 r.first = .ok 0 := by rw [first]; rfl
  simp only [darnFinish, commit, decide_false, Bool.false_and, Bool.false_eq_true, if_false, if_pos rank, none, Nat.add_zero]

theorem darnFinish_commit (commit : r.op = opCommit) (aperiodic : r.period = 0) : darnFinish p r s = .ok (r, s) := by
  simp [darnFinish, commit, aperiodic, opCommit, opRank, opList]

theorem darnFinish_list (list : r.op = opList) (others : r.first ≠ r.nseq) : darnFinish p r s = .ok (r, s) := by
  simp [darnFinish, list, others, opCommit, opRank, opList]

/-- Of each operation the work that is done leaves its result: STAIN and CLEAR give 0 where nothing is left of theirs. -/
theorem darnWork_done (q : Nat) (known : r.op ≤ 4) (rank : r.op = 0 → r.nseq ≤ r.sdone ∧ r.first = 0)
    (commit : r.op = 1 → r.nseq ≤ r.sdone ∧ r.period = 0) (stain : r.op = 2 → r.round = 0 ∧ r.pins = 0)
    (list : r.op = 3 → r.nseq ≤ r.sdone ∧ r.first ≠ r.nseq) (clear : r.op = 4 → r.npos = 0 ∧ r.pins = 0) :
    darnWork p q r s = .ok ({ r with result := if r.op = 2 ∨ r.op = 4 then 0 else r.result }, s, true) := by
  by_cases whole : r.op = 2 ∨ r.op = 4
  · rw [if_pos whole]
    obtain op | op := whole
    · obtain ⟨round, pins⟩ := stain op
      have op : r.op = opStain := op
      simp only [darnWork, op, decide_true, Bool.true_or, if_true, pinsOk_none pins, stainAll_none round]
    · obtain ⟨npos, pins⟩ := clear op
      have op : r.op = opClear := op
      have other : ¬ opClear = opStain := by decide
      simp only [darnWork, other, op, decide_true, Bool.or_true, if_true, if_false, pinsOk_none pins, npos, stainGroups_none]
  · rw [if_neg whole]
    have run (done : r.nseq ≤ r.sdone) := darnWork_sequences (s := s) (p := p) q (fun h => whole (.inl h)) (fun h => whole (.inr h)) done (t := s)
    obtain op | op | op : r.op = 0 ∨ r.op = 1 ∨ r.op = 3 := by omega
    · exact run (rank op).1 (darnFinish_rank op (rank op).2)
    · exact run (commit op).1 (darnFinish_commit op (commit op).2)
    · exact run (list op).1 (darnFinish_list op (list op).2)

end

/-! ### The end of it -/

/-- A write at a pinned place of HBM goes through where the page is not held, nobody keeps the bytes, and no watermark holds it back. -/
theorem pinWrite_hbm {s : State} {p : Party} {va : Word} {a : Nat} {d : List Byte}
    (unheld : (walk s p.asid va).cause ≠ none ∨ (walk s p.asid va).entry.getLsbD 10 = false)
    (unguarded : guarded s p.unit { far := none, sp := .hbm, a, n := d.length } = false)
    (unmarked : watermarked s p (.va va) none d.length = none) :
    pinWrite s p va (some (.hbm a)) d = .ok (storeLine s .hbm a none d false) := by
  have page : ((walk s p.asid va).cause.isNone && bitAt (walk s p.asid va).entry 10) = false := by
    obtain cause | bit := unheld
    · rw [Bool.and_eq_false_iff, Option.isNone_eq_false_iff, Option.isSome_iff_ne_none]
      exact .inl cause
    · exact Bool.and_eq_false_iff.2 (.inr bit)
  simp only [pinWrite, page, Bool.false_eq_true, if_false, Option.any_some, Pin.span, unguarded, unlessMarked, unmarked]

/-- A store of a line of HBM leaves its bytes there. -/
theorem getBytes_storeLine_hbm (s : State) (a : Nat) (d : List Byte) : getBytes (storeLine s .hbm a none d false) .hbm a d.length = d := by
  refine List.ext_getElem (by simp [getBytes]) fun k hk hd => ?_
  have stored := storeLine_bytes s .hbm a none d false trivial .hbm (a + k) trivial (fun j o h => by cases h)
  rw [if_pos ⟨rfl, Nat.le_add_right .., Nat.add_lt_add_left hd _⟩] at stored
  simp only [getBytes, List.getElem_map, List.getElem_range, stored]
  show d.getD (a + k - a) 0 = d[k]
  rw [Nat.add_sub_cancel_left, List.getD_eq_getElem _ _ hd]

/-- Neither the end of the context nor the result changes a byte. -/
theorem getBytes_dropped (s : State) (d : Reg) (v : Word) (sp : Space) (a n : Nat) :
    getBytes (wroteX (dropDarn s) d v) sp a n = getBytes s sp a n := by
  have same : getByte (wroteX (dropDarn s) d v) = getByte s := by
    funext sp a
    cases sp <;> rfl
  simp only [getBytes, same]

theorem exec_darnForm {i : Instr} {op : Nat} {d a : Reg} (form : darnForm i = some (op, d, a)) (s : State) :
    exec i s = darn op d a s ∧ op ≤ 4 := by
  unfold darnForm at form
  split at form <;> cases form <;> exact ⟨rfl, by decide⟩

/-- A DARN that has its offsets goes on with its work. -/
theorem darn_goes {op : Nat} {d a : Reg} {s t : State} {r r' : DarnRun} (held : s.job.darn = some r) (holds : r.holds = true)
    (going : r.ended = none) (offs : r.offs ≠ []) (work : darnWork (ctlParty s r.cls) s.units r s = .ok (r', t, true)) :
    darn op d a s = .next (endDarn d r' none t) := by
  have known : r.offs.isEmpty = false := by simpa using offs
  simp only [darn, held, nextDarn, holds, if_true, goDarn, going, known, Bool.false_eq_true, if_false, work]

/-- DARN ends: its result is written, its context given up, and the doubleword at REC + 48 is 0. -/
theorem endDarn_done {d : Reg} {r : DarnRun} {s u : State} {pin : Pin}
    (hpin : r.pin = some pin) (write : pinWrite s (ctlParty s r.cls) (r.recAddr + 48) (some (pin.add 48)) (List.replicate 8 0) = .ok u) :
    endDarn d r none s = wroteX (dropDarn u) d (BitVec.ofNat 64 r.result) := by
  have zeros : toBytes (0 : Word) = List.replicate 8 0 := by decide
  simp only [endDarn, hpin, Option.map_some, zeros, write, retireX_eq_wroteX]

theorem find?_map_replaced {α : Type} {p : α → Bool} {l : List α} {a b : α} (found : l.find? p = some a) (same : p b = true) :
    (l.map fun x => if p x then b else x).find? p = some b := by
  have kept : (p ∘ fun x => if p x then b else x) = p := by
    funext x
    show p (if p x then b else x) = p x
    split <;> simp_all
  rw [List.find?_map, kept, found, Option.map_some, if_pos (List.find?_some found)]

/-- A DARN whose work is done stores the zero doubleword, gives its context up, and writes its result (R363). -/
theorem exec_darn_done {i : Instr} {s : State} {op : Nat} {d a : Reg} {r : DarnRun} {pa : Nat} {w : WalkEnd} (form : darnForm i = some (op, d, a))
    (held : s.job.darn = some r) (of : r.op = op) (holds : r.holds = true) (going : r.ended = none) (offs : r.offs ≠ [])
    (pin : r.pin = some (.hbm pa)) (walked : w = walk s s.job.asid (r.recAddr + 48)) (unheld : w.cause ≠ none ∨ w.entry.getLsbD 10 = false)
    (unmarked : watermarked s (ctlParty s r.cls) (.va (r.recAddr + 48)) none 8 = none)
    (unguarded : guarded s (.ctl s.job.id) { far := none, sp := .hbm, a := pa + 48, n := 8 } = false)
    (rank : op = 0 → r.nseq ≤ r.sdone ∧ r.first = 0) (commit : op = 1 → r.nseq ≤ r.sdone ∧ r.period = 0)
    (stain : op = 2 → r.round = 0 ∧ r.pins = 0) (list : op = 3 → r.nseq ≤ r.sdone ∧ r.first ≠ r.nseq)
    (clear : op = 4 → r.npos = 0 ∧ r.pins = 0) :
    exec i s = .next (wroteX (dropDarn (storeLine s .hbm (pa + 48) none (List.replicate 8 0) false)) d
      (BitVec.ofNat 64 (if op = 2 ∨ op = 4 then 0 else r.result))) := by
  subst of walked
  obtain ⟨run, known⟩ := exec_darnForm form s
  have write := pinWrite_hbm (p := ctlParty s r.cls) (d := List.replicate 8 0) unheld unguarded unmarked
  rw [run, darn_goes held holds going offs (darnWork_done s.units known rank commit stain list clear)]
  exact congrArg Host.Outcome.next (endDarn_done pin write)

/-! ### Records -/

section
variable {s : State} {c : Chan} {r : RecHead}

theorem withChan_acts (acts : c.acts s) (walking : c.st = .walking) (k : Chan → State) : withChan s k = .next (k c) := by
  obtain ⟨held, going, ready, paid⟩ := acts
  simp [withChan, held, going, ready, paid, walking]

theorem runRecord_done {total : Nat} {k : Chan → State → Except (Chan × Stop) (Chan × State)} (acts : c.acts s) (walking : c.st = .walking)
    (record : c.cpyx = none) (done : total ≤ c.prog) : runRecord total k s = .next (finishChan s c) := by
  rw [runRecord, withChan_acts acts walking]
  simp only [walking, record, beq_self_eq_true, Option.isNone_none, Bool.and_self, if_true, Nat.sub_eq_zero_of_le done, chanLoop]

theorem mcstAll_done {len q : Nat} {l : List Byte} {ks : List Nat} (done : ∀ k ∈ ks, c.prog / 2 ^ k % 2 = 1) :
    mcstAll r len l q ks none c s = finishChan s c := by
  induction ks with
  | nil => rfl
  | cons k ks ih => exact (if_pos (done k List.mem_cons_self)).trans (ih fun j hj => done j (List.mem_cons_of_mem k hj))

theorem exec_mcst_done {len : BitVec 32} {n : BitVec 16} {dlist : Word} (acts : c.acts s) (walking : c.st = .walking) (record : c.cpyx = none)
    (done : ∀ k, k < n.toNat → c.prog / 2 ^ k % 2 = 1) : exec (.mcst r len n dlist) s = .next (finishChan s c) := by
  have bits : ∀ k ∈ List.range n.toNat, c.prog / 2 ^ k % 2 = 1 := fun k hk => done k (List.mem_range.1 hk)
  show execMcst r len n dlist s = _
  rw [execMcst, withChan_acts acts walking]
  simp only [walking, record, beq_self_eq_true, Option.isNone_none, Bool.and_self, if_true]
  cases dests : c.dests with
  | some l => exact congrArg Host.Outcome.next (mcstAll_done bits)
  | none =>
    have all : mcstDone c n.toNat = true := List.all_eq_true.2 fun k hk => decide_eq_true (bits k hk)
    exact congrArg Host.Outcome.next (if_pos all)

theorem chanOf_putChan {core n : Nat} {e : Chan} (held : chanOf s core n = some c) (core' : e.core = core) (n' : e.n = n) :
    chanOf (putChan s e) core n = some e := by
  subst core' n'
  have bound : (s.chans.any fun x => x.core == e.core && x.n == e.n) = true :=
    List.any_eq_true.2 ⟨c, List.mem_of_find?_eq_some held, List.find?_some (p := fun x : Chan => x.core == e.core && x.n == e.n) held⟩
  rw [putChan, if_pos bound]
  exact find?_map_replaced held (by simp)

theorem chanOf_passMark (core n : Nat) (v : Word) : chanOf (passMark s c v) core n = chanOf s core n := by
  unfold passMark
  split <;> rfl

/-- The channel of a PGT record that has read its table of images l: the end of its range, and the table. -/
def Chan.ranged (c : Chan) (r : RecHead) (p es : Nat) (l : List Img) : Chan :=
  { c with wmEnd := r.dst + BitVec.ofNat 64 (totalPatches p l * (p * p * es)), table := some (l.map fun m => (m.rows, m.w, m.h)) }

theorem pgtRun_done {p es n : Nat} {offs : Word} {l : List Img} (read : tableOf s c r n = .ok l) (done : totalPatches p l ≤ c.prog)
    (small : c.prog < 2 ^ 31) : ∃ v, pgtRun s c r p es n offs =
      finishChan (passMark (putChan s (c.ranged r p es l)) (c.ranged r p es l) v) (c.ranged r p es l) := by
  refine ⟨r.dst + BitVec.ofNat 64 (c.prog * (p * p * es)), ?_⟩
  simp only [pgtRun, read, if_neg (Nat.not_le.2 (Nat.lt_of_le_of_lt done small)), Nat.sub_eq_zero_of_le done, chanLoop]
  rfl

theorem chanOf_pgtRun_done {core k p es n : Nat} {offs : Word} {l : List Img} (held : chanOf s core k = some c) (read : tableOf s c r n = .ok l)
    (done : totalPatches p l ≤ c.prog) (small : c.prog < 2 ^ 31) :
    ∃ e, chanOf (pgtRun s c r p es n offs) core k = some e ∧ e.st = .finishing ∧ e.prog = c.prog := by
  have named := List.find?_some held
  rw [Bool.and_eq_true, beq_iff_eq, beq_iff_eq] at named
  obtain ⟨v, run⟩ := pgtRun_done (es := es) (offs := offs) read done small
  have there := chanOf_putChan (e := c.ranged r p es l) held named.1 named.2
  rw [run]
  exact ⟨_, chanOf_putChan ((chanOf_passMark core k v).trans there) named.1 named.2, rfl, rfl⟩

/-- Where every patch is written, the record's completion begins. -/
theorem exec_pgt_done {p es n : BitVec 16} {offs : Word} {l : List (Word × Nat × Nat)} (acts : c.acts s) (walking : c.st = .walking)
    (record : c.cpyx = none) (table : c.table = some l)
    (done : totalPatches p.toNat (l.map fun x => { rows := x.1, w := x.2.1, h := x.2.2 }) ≤ c.prog) (small : c.prog < 2 ^ 31)
    (begun : c.prog ≠ 0 ∨ c.sub ≠ 0) :
    ∃ t, exec (.pgt r p es n offs) s = .next t ∧ ∃ e, chanOf t s.curCore s.curChan = some e ∧ e.st = .finishing ∧ e.prog = c.prog := by
  have start : (c.prog != 0 || c.sub != 0) = true := by simpa using begun
  have read : tableOf s c r n.toNat = .ok (l.map fun x => { rows := x.1, w := x.2.1, h := x.2.2 }) := by rw [tableOf, table]
  have run : exec (.pgt r p es n offs) s = .next (pgtRun s c r p.toNat es.toNat n.toNat offs) := by
    show execPgt r p es n offs s = _
    rw [execPgt, withChan_acts acts walking]
    simp only [walking, record, beq_self_eq_true, Option.isNone_none, Bool.and_self, if_true, start]
  exact ⟨_, run, chanOf_pgtRun_done acts.1 read done small⟩

end

/-! ### Command blocks -/

section
variable {s : State} {e : IdxEntry}

theorem rowLoop_done {k : Nat} {row : IdxEntry → State → Except Stop (IdxEntry × State)} (q : Nat) (done : e.count ≤ e.prog) :
    rowLoop k row q e s = putBlock s k { e with finishing := true, owed := statusWrites e true } := by
  have closed : e.closed = { e with finishing := true, owed := statusWrites e true } := if_pos done
  cases q with
  | zero => rw [rowLoop, closed]
  | succ q => rw [rowLoop, if_pos done, closed]

theorem runBlock_done {row : Party → IdxEntry → State → Except Stop (IdxEntry × State)} (held : blockAt s s.curIdx = some e)
    (holds : e.holds = true) (unfinished : e.finishing = false) (going : e.halt = .going) (ready : e.wait = false) (paid : e.owed = [])
    (pinned : e.pins ≠ []) (done : e.count ≤ e.prog) :
    runBlock row s = .next (putBlock s s.curIdx { e with finishing := true, owed := statusWrites e true }) := by
  have started : e.pins.isEmpty = false := by simpa using pinned
  simp only [runBlock, withBlock, held, holds, unfinished, going, ready, paid, started, rowLoop_done _ done, Bool.or_self, Bool.false_eq_true,
    if_false, if_true, List.isEmpty_nil, Bool.not_true, bne_self_eq_false]

/-- Each operation of a block performs rows, and completes by the same rule. -/
theorem exec_block {i : Instr} {b : BlockHead} (s : State)
    (block : i = .gth b ∨ i = .sct b ∨ (∃ op f, i = .sca b op f) ∨ ∃ inplace stain, i = .cpt b inplace stain) :
    ∃ row, exec i s = runBlock row s := by
  obtain rfl | rfl | ⟨op, f, rfl⟩ | ⟨inplace, stain, rfl⟩ := block
  · show ∃ row, execGth b s = _
    exact ⟨_, rfl⟩
  · show ∃ row, execSct b s = _
    exact ⟨_, rfl⟩
  · show ∃ row, execSca b op f s = _
    exact ⟨_, rfl⟩
  · show ∃ row, execCpt b inplace stain s = _
    exact ⟨_, rfl⟩

end

/-! ### Collectives -/

theorem Posted.getByte {s t : State} (h : Posted s t) : getByte t = Machine.getByte s := by
  rw [h]
  funext sp a
  cases sp <;> rfl

theorem Posted.slots {s t : State} (h : Posted s t) : t.slots = s.slots := by rw [h]

theorem Posted.curSlot {s t : State} (h : Posted s t) : t.curSlot = s.curSlot := by rw [h]

theorem postReqs_posted (u : Unit) (l : List Out) (s : State) : Posted s (l.foldl (fun s o => postReq s u 0 o.req) s) := by
  induction l generalizing s with
  | nil => exact .refl s
  | cons o l ih => exact (postReq_posted ..).trans (ih _)

theorem resendParts_posted (s : State) (u : Unit) : Posted s (resendParts s u) :=
  (sendWaiting_posted _).after ((postReqs_posted ..).after rfl)

/-- A collective whose status is written frees its slot. -/
theorem collective_done {c : Collective} {h : DescHead} {s : State} {x : Slot} (held : s.slots[s.curSlot]? = some x) (going : x.halt = .going)
    (written : x.phase = 3) (alone : x.bar = none) (quiet : ∀ o ∈ s.outs, o.unit ≠ (wringParty x).unit) :
    ∃ t, collective c h s = .next t ∧ t.slots = s.slots.eraseIdx s.curSlot ∧ sameBytes s t := by
  have unfailed : (s.outs.any fun o => o.unit == (wringParty x).unit && o.st == .failed) = false :=
    List.any_eq_false.2 fun o ho => by simp [quiet o ho]
  have posted := resendParts_posted s (wringParty x).unit
  have run : collective c h s = .next (endSlot (resendParts s (wringParty x).unit) s.curSlot x) := by
    simp only [collective, held, going, bne_self_eq_false, Bool.false_eq_true, if_false, unfailed, written, posted.curSlot]
  refine ⟨_, run, ?slots, ?bytes⟩ <;> simp only [endSlot, alone]
  case slots => exact congrArg (·.eraseIdx s.curSlot) posted.slots
  case bytes =>
    refine sameBytes_of_getByte (Eq.trans ?_ posted.getByte)
    funext sp a
    cases sp <;> rfl

/-- Each collective goes on by the same rule. -/
theorem exec_collective {i : Instr} {h : DescHead} (s : State)
    (known : (∃ op f, i = .allred h op f) ∨ (∃ op f, i = .redsc h op f) ∨ (∃ f o, i = .allgv h f o) ∨ (∃ f c o, i = .a2av h f c o) ∨
      (∃ f r, i = .bcast h f r) ∨ (∃ o, i = .argn h o) ∨ i = .fbar h) : ∃ c, exec i s = collective c h s := by
  obtain ⟨op, f, rfl⟩ | ⟨op, f, rfl⟩ | ⟨f, o, rfl⟩ | ⟨f, c, o, rfl⟩ | ⟨f, r, rfl⟩ | ⟨o, rfl⟩ | rfl := known
  · exact ⟨_, rfl⟩
  · exact ⟨_, rfl⟩
  · exact ⟨_, rfl⟩
  · exact ⟨_, rfl⟩
  · exact ⟨_, rfl⟩
  · exact ⟨_, rfl⟩
  · exact ⟨_, rfl⟩

/-! ### Operations of the engines -/

section
variable {s : State} {o : IOp}

theorem exec_load_done {i : Instr} (op : o = curOp s.job .ld)
    (done : (∃ t, i = .ldt t ∧ tileUnits o t ≤ tileFirst t o o.prog) ∨ (∃ l, i = .ldv l ∧ linUnits o l ≤ o.prog) ∨
      (∃ l q, i = .ldb l q ∧ countOf o q * linUnits o l ≤ o.prog) ∨ (∃ x, i = .ldg x ∧ countOf o x.n ≤ o.prog) ∨
      ∃ z, i = .ldz z ∧ countOf o z.n ≤ o.prog) (ok : lsCheck .ld s.job o i = none) : exec i s = .next (completeOp s .ld 0) := by
  obtain ⟨t, rfl, h⟩ | ⟨l, rfl, h⟩ | ⟨l, q, rfl, h⟩ | ⟨x, rfl, h⟩ | ⟨z, rfl, h⟩ := done
  · show execLdt t s = _
    exact lsRun_ended op ok h
  · show execLdv l s = _
    exact lsRun_ended op ok h
  · show execLdb l q s = _
    exact lsRun_ended op ok h
  · show execLdg x s = _
    exact lsRun_ended op ok h
  · show execLdz z s = _
    exact lsRun_ended op ok h

/-- STQ has no block where it has no row or no column. -/
theorem stqTotal_eq_zero {t : TileOp} (h : countOf o t.tr = 0 ∨ countOf o t.tc = 0) : countOf o t.tr * blocksIn (countOf o t.tc) = 0 := by
  obtain rows | columns := h
  · rw [rows, Nat.zero_mul]
  · rw [columns]
    rfl

theorem exec_store_done {i : Instr} (op : o = curOp s.job .st)
    (done : (∃ t, i = .stt t ∧ tileUnits o t ≤ tileFirst t o o.prog) ∨ (∃ l, i = .stv l ∧ linUnits o l ≤ o.prog) ∨
      (∃ x, i = .sts x ∧ countOf o x.n ≤ o.prog) ∨ (∃ x, i = .sta x ∧ countOf o x.n ≤ o.prog) ∨
      ∃ t, i = .stq t ∧ (countOf o t.tr = 0 ∨ countOf o t.tc = 0)) (ok : lsCheck .st s.job o i = none) :
    exec i s = .next (completeOp s .st 0) := by
  obtain ⟨t, rfl, h⟩ | ⟨l, rfl, h⟩ | ⟨x, rfl, h⟩ | ⟨x, rfl, h⟩ | ⟨t, rfl, h⟩ := done
  · show execStt t s = _
    exact lsRun_ended op ok h
  · show execStv l s = _
    exact lsRun_ended op ok h
  · show execSts x s = _
    exact lsRun_ended op ok h
  · show execSta x s = _
    exact lsRun_ended op ok h
  · show execStq t s = _
    exact lsRun_ended op ok ((stqTotal_eq_zero h).trans_le (Nat.zero_le _))

theorem exec_matrix_done {i : Instr} (op : o = curOp s.job .mx)
    (done : (∃ x, i = .mma x ∧ (countOf o x.k = 0 ∨ countOf o x.m ≤ o.prog / 32 * 32)) ∨ (∃ x, i = .mmb x ∧ countOf o x.k = 0) ∨
      ∃ x, i = .mmad x ∧ countOf o x.m ≤ o.prog) (ok : mxCheck s.job o i = none) : exec i s = .next (completeOp s .mx 0) := by
  subst op
  obtain ⟨x, rfl, h⟩ | ⟨x, rfl, h⟩ | ⟨x, rfl, h⟩ := done
  · show execMma x s = _
    rw [execMma, mxRun_ok ok]
    exact congrArg Host.Outcome.next (rowBlocks_done _ 0 h.symm)
  · exact execMmb_noLanes ok h
  · show execMmad x s = _
    rw [execMmad, mxRun_ok ok]
    exact congrArg Host.Outcome.next (unitLoop_done _ h 0)

/-- The array state with bank 0 or 1 replaced. -/
def withBank (m : Matrix) (one : Bool) (b : Bank) : Matrix := if one then { m with bank1 := b } else { m with bank0 := b }

theorem execMlb_empty {x : MlbOp} (ok : mxCheck s.job (curOp s.job .mx) (.mlb x) = none) (columns : countOf (curOp s.job .mx) x.n = 0) :
    ∃ b, b.n = 0 ∧ exec (.mlb x) s = .next (completeOp (putMatrix (keepRowVecs s (engParty s .mx x.hdr.cls)
      (mlbSource (curOp s.job .mx) x) true 0 0) (withBank s.job.matrix x.bank b)) .mx 0) := by
  refine ⟨newBank 0 (countOf (curOp s.job .mx) x.k) x.fmt
    (x.src == .none && (handleOf (curOp s.job .mx) (curOp s.job .mx).handles[x.h]).kind == .nm) [], rfl, ?_⟩
  have kept : (keepRowVecs s (engParty s .mx x.hdr.cls) (mlbSource (curOp s.job .mx) x) true 0 0).job.matrix = s.job.matrix := keepOp_matrix ..
  show execMlb x s = _
  rw [execMlb, mxRun_ok ok]
  simp only [columns, fetchRows, kept, withBank, List.filterMap_nil]

/-- MLB of no columns leaves its bank without any, and the other one as it was. -/
theorem exec_mlb_empty {x : MlbOp} (op : o = curOp s.job .mx) (ok : mxCheck s.job o (.mlb x) = none) (columns : countOf o x.n = 0) :
    ∃ t, exec (.mlb x) s = .next t ∧ (bankOf t.job x.bank).n = 0 ∧ bankOf t.job (!x.bank) = bankOf s.job (!x.bank) ∧ sameBytes s t := by
  subst op
  obtain ⟨b, empty, run⟩ := execMlb_empty ok columns
  refine ⟨_, run, ?_⟩
  obtain ⟨outs, rbuf, k, frame⟩ := completeOp_frame (putMatrix (keepRowVecs s (engParty s .mx x.hdr.cls) (mlbSource (curOp s.job .mx) x) true 0 0)
    (withBank s.job.matrix x.bank b)) .mx 0
  have banks : (completeOp (putMatrix (keepRowVecs s (engParty s .mx x.hdr.cls) (mlbSource (curOp s.job .mx) x) true 0 0)
    (withBank s.job.matrix x.bank b)) .mx 0).job.matrix = withBank s.job.matrix x.bank b := by rw [frame]; rfl
  refine ⟨?bank, ?other, sameBytes_of_getByte ?bytes⟩
  case bank => rw [bankOf, banks]; cases x.bank <;> exact empty
  case other => rw [bankOf, banks, bankOf]; cases x.bank <;> rfl
  case bytes =>
    rw [getByte_completeOp]
    funext sp a
    cases sp <;> rfl

end

/-- Settles O53: the work of each unit is its loop over what is left of it, and with nothing left the loop is its completion. -/
theorem unitsComplete : Obligations.UnitsComplete := by
  refine ⟨?darn, ?records, ?blocks, ?collectives, ?engines, ?banks⟩
  case darn =>
    intro i s op d a r pa w form held of holds going offs pin walked unheld unmarked unguarded rank commit stain list clear
    refine ⟨_, exec_darn_done form held of holds going offs pin walked unheld unmarked unguarded rank commit stain list clear,
      ?pc, rfl, ?result, ?bytes⟩
    case pc =>
      obtain ⟨-, pc, -⟩ := Quiet.storeLine s .hbm (pa + 48) none (List.replicate 8 0) false
      exact congrArg (· + 4) pc
    case result =>
      rw [getX_wroteX, if_pos rfl]
    case bytes =>
      rw [getBytes_dropped]
      exact getBytes_storeLine_hbm s (pa + 48) (List.replicate 8 0)
  case records =>
    intro s c r acts walking record
    refine ⟨?aff, ?red, ?mcst, ?sig, ?pgt, ?skip⟩
    case aff => exact fun w done => runRecord_done acts walking record done
    case red => exact fun w op f rm sat done => runRecord_done acts walking record done
    case mcst => exact fun len n l done => exec_mcst_done acts walking record done
    case sig => exact fun v done => runRecord_done acts walking record done
    case pgt => exact fun p es n offs l table done small begun => exec_pgt_done acts walking record table done small begun
    case skip =>
      show execSkip r s = _
      rw [execSkip, withChan_acts acts walking]
      simp [walking, record]
  case blocks =>
    intro i s b e block held holds unfinished going ready paid pinned done
    obtain ⟨row, run⟩ := exec_block s block
    exact run.trans (runBlock_done held holds unfinished going ready paid pinned done)
  case collectives =>
    intro i s x h known held going written alone quiet
    obtain ⟨c, run⟩ := exec_collective s known
    rw [run]
    exact collective_done held going written alone quiet
  case engines =>
    rintro i s e o op (⟨rfl, done, ok⟩ | ⟨rfl, done, ok⟩ | ⟨rfl, done, ok⟩)
    · exact exec_load_done op done ok
    · exact exec_store_done op done ok
    · exact exec_matrix_done op done ok
  case banks => exact fun s x o op ok columns => exec_mlb_empty op ok columns

end Sys2Proof.Machine
end
